-- ==== Sys2Proof/Word.lean ====
section
/-! DEFINITION. The word of the machine: 64-bit registers and 8-bit bytes. -/

namespace Sys2Proof

/-- A register's 64 bits (05 R120). -/
abbrev Word := BitVec 64

/-- A byte of memory (00 R7). -/
abbrev Byte := BitVec 8

end Sys2Proof
end

