-- ==== Sys2Proof/Config.lean ====
section
/-! DEFINITION. The free values: what the manual leaves open, as constants without a body (log entries 2 to 5). -/

namespace Sys2Proof

/-- Which of the moves that are open is made next, by the value of the free-value counter (10 R269, 14 R346). Log entry 2 (DESIGN CHOICE). -/
opaque Config.choice : Nat → Nat

/-- The length of a fill run that a core's spatial predictor gives an access, whose contents are not architectural (09 R245), by the
number of the access's operation. Log entry 85 (DESIGN CHOICE). -/
opaque Config.predictedRun : Nat → Nat

/-- Where in its bound a special function's value lies: function, format, input bits (05 R118, 06 R163). Log entry 4 (DESIGN CHOICE). -/
opaque Config.specialUlp : Nat → Nat → Nat → Nat

/-- A byte that an instruction leaves undefined (19 R426). Log entry 12 (DEDUCED). -/
opaque Config.undefinedByte : Nat → BitVec 8

/-- What a key makes of a word of another one's cipher text: the key it was made under, the key in use, the byte's location, and the bytes
that were enciphered (18 R395). Log entry 32 (DEDUCED). -/
opaque Config.decrypt : Nat → Nat → Nat → Nat → BitVec 8

/-- Whether a core's 64-entry contention predictor sends an atomic to its home, rather than take ownership of the word (11 R295): by the
value of the free-value counter. Log entry 93 (DESIGN CHOICE). -/
opaque Config.contended : Nat → Bool

/-- The bits past a row's last element in the last byte that a quantising copy writes of it, by the elements of the row (05 R117,
08 R232). Log entry 50 (DEDUCED). -/
opaque Config.padBits : Nat → BitVec 8

/-- The bytes of the team images in a hull, whose form is internal to the device (19 R443): generation, offset. Log entry 62 (DESIGN CHOICE). -/
opaque Config.hullByte : Nat → Nat → BitVec 8

/-- The bytes of a team image in SAVEAREA, whose form is internal to the device (18 R416; 19 R443): the number of its writing, offset.
Log entry 60 (DEDUCED). -/
opaque Config.imageByte : Nat → Nat → BitVec 8

/-- The number of 4 KiB blocks that a team image takes in SAVEAREA (18 R416): the number of its writing. Log entry 60 (DEDUCED). -/
opaque Config.imageBlocks : Nat → Nat

/-- The number of 4 KiB blocks of the team images in a hull, whose form is internal to the device (19 R440, R443):
generation. Log entry 62 (DESIGN CHOICE). -/
opaque Config.hullBlocks : Nat → Nat

/-- Spare rows of an HBM stack (kind 4) or of a cluster site's stacked SRAM (kind 5), whose number is not given (01 R19).
Log entry 34 (DESIGN CHOICE). -/
opaque Config.spareRows : Nat → Nat

/-- The device number that Apex firmware gives at boot, below 1,024 (21 R465). Log entry 31 (DEDUCED). -/
opaque Config.deviceNumber : Nat

/-- The routing table that Apex firmware gives at boot: the links that reach each device number, one bit a link (21 R465).
Log entry 31 (DEDUCED). -/
opaque Config.route : Nat → BitVec 18

/-- The 64 KiB pages of host memory that are reached as plain PCIe memory (09 R264). Log entry 31 (DEDUCED). -/
opaque Config.pciePages : List Nat

end Sys2Proof
end

