-- ==== Sys2Proof/Machine/Flags.lean ====
section
/-! DEFINITION. FPSTICKY and how each flag is formed (05 R131, Table 05-2). -/

namespace Sys2Proof.Machine

/-- The nine FPSTICKY bits. -/
abbrev Sticky := BitVec 9

/-- INVALID (05 Table 05-2). -/
def fInvalid : Sticky := 1#9
/-- DIVZERO (05 Table 05-2). -/
def fDivZero : Sticky := 2#9
/-- OVERFLOW (05 Table 05-2). -/
def fOverflow : Sticky := 4#9
/-- UNDERFLOW (05 Table 05-2). -/
def fUnderflow : Sticky := 8#9
/-- INEXACT (05 Table 05-2). -/
def fInexact : Sticky := 16#9
/-- SAT (05 Table 05-2). -/
def fSat : Sticky := 32#9
/-- FLUSH (05 Table 05-2). -/
def fFlush : Sticky := 64#9
/-- RANGE (05 Table 05-2). -/
def fRange : Sticky := 128#9
/-- META (05 Table 05-2). -/
def fMeta : Sticky := 256#9

/-- A flag raised when a condition holds. -/
def flagIf (c : Bool) (f : Sticky) : Sticky := if c then f else 0

/-- The flags that several elements raise together (05 R131). -/
def orAll (fs : List Sticky) : Sticky := fs.foldl (· ||| ·) 0

end Sys2Proof.Machine
end

