-- ==== Sys2Proof/Machine/Fp.lean ====
section
/-! DEFINITION. The floating-point formats, exact values, rounding and the arithmetic of R157 to R162 (05 R121 to R131). -/

namespace Sys2Proof.Machine

/-- How a format codes its top exponent: infinity and NaN, a NaN alone (e4m3), or numbers only (05 Table 05-1). -/
inductive Top where
  | ieee | nanOnly | numbers
  deriving DecidableEq, Repr

/-- A floating-point format: exponent bits, mantissa bits, bias (05 Table 05-1). -/
structure Fmt where
  e : Nat
  m : Nat
  bias : Nat
  top : Top
  deriving DecidableEq, Repr

/-- f64 (05 Table 05-1). -/
def f64 : Fmt := ⟨11, 52, 1023, .ieee⟩
/-- f32 (05 Table 05-1). -/
def f32 : Fmt := ⟨8, 23, 127, .ieee⟩
/-- f16 (05 Table 05-1). -/
def f16 : Fmt := ⟨5, 10, 15, .ieee⟩
/-- bf16 (05 Table 05-1). -/
def bf16 : Fmt := ⟨8, 7, 127, .ieee⟩
/-- e4m3 (05 Table 05-1). -/
def e4m3 : Fmt := ⟨4, 3, 7, .nanOnly⟩
/-- e5m2 (05 Table 05-1). -/
def e5m2 : Fmt := ⟨5, 2, 15, .ieee⟩
/-- e3m2 (05 Table 05-1). -/
def e3m2 : Fmt := ⟨3, 2, 3, .numbers⟩
/-- e2m3 (05 Table 05-1). -/
def e2m3 : Fmt := ⟨2, 3, 1, .numbers⟩
/-- e2m1 (05 Table 05-1). -/
def e2m1 : Fmt := ⟨2, 1, 1, .numbers⟩

/-- Bits of a format. -/
def Fmt.width (F : Fmt) : Nat := 1 + F.e + F.m

/-- The exponent of the smallest subnormal, below zero: its value is 2^(−F.sub). -/
def Fmt.sub (F : Fmt) : Nat := F.bias + F.m - 1

/-- The sign bit's weight. -/
def Fmt.signBit (F : Fmt) : Nat := 2 ^ (F.e + F.m)

/-- The magnitude code of the largest finite value. -/
def Fmt.largestCode (F : Fmt) : Nat :=
  match F.top with
  | .ieee => (2 ^ F.e - 1) * 2 ^ F.m - 1
  | .nanOnly => 2 ^ (F.e + F.m) - 2
  | .numbers => 2 ^ (F.e + F.m) - 1

/-- The code of +∞, where the format has one. -/
def Fmt.infCode (F : Fmt) : Nat := (2 ^ F.e - 1) * 2 ^ F.m

/-- The canonical NaN, or +0 where the format has none (05 R122). -/
def Fmt.nanCode (F : Fmt) : Nat :=
  match F.top with
  | .ieee => (2 ^ F.e - 1) * 2 ^ F.m + 2 ^ (F.m - 1)
  | .nanOnly => 2 ^ (F.e + F.m) - 1
  | .numbers => 0

/-- An exact value: a NaN, an infinity, or (−1)^neg · n · 2^x. A zero keeps its sign. -/
inductive Num where
  | nan (signalling : Bool)
  | inf (neg : Bool)
  | fin (neg : Bool) (n : Nat) (x : Int)
  deriving DecidableEq, Repr

/-- The value of a magnitude code: mantissa and exponent. -/
def codeValue (F : Fmt) (c : Nat) : Nat × Int :=
  let E := c / 2 ^ F.m
  let M := c % 2 ^ F.m
  if E = 0 then (M, -(F.sub : Int)) else (2 ^ F.m + M, (E : Int) - 1 - F.sub)

/-- The value that a format's bits hold (05 R121, R123). -/
def unpack (F : Fmt) (b : Nat) : Num :=
  let neg := b / F.signBit % 2 == 1
  let c := b % F.signBit
  match F.top with
  | .ieee =>
    if c = F.infCode then .inf neg
    else if F.infCode < c then .nan (c % 2 ^ F.m < 2 ^ (F.m - 1))
    else .fin neg (codeValue F c).1 (codeValue F c).2
  | .nanOnly => if c = F.signBit - 1 then .nan false else .fin neg (codeValue F c).1 (codeValue F c).2
  | .numbers => .fin neg (codeValue F c).1 (codeValue F c).2

/-- The rounding modes of R126, by the codes of R100 and R102. -/
inductive Rnd where
  | rne | rtz | rdn | rup | rna | rs
  deriving DecidableEq, Repr

/-- The rounding mode of a code of R102. -/
def rndOf : Nat → Rnd
  | 0 => .rne
  | 1 => .rtz
  | 2 => .rdn
  | 3 => .rup
  | 4 => .rna
  | _ => .rs

/-- The magnitude n / 2^k rounded to an integer; u is the draw of a stochastic rounding (05 R126, R127). -/
def roundMag (r : Rnd) (neg : Bool) (u n k : Nat) : Nat :=
  let q := n / 2 ^ k
  let f := n % 2 ^ k
  if f = 0 then q else
  match r with
  | .rne => if 2 ^ k < 2 * f ∨ (2 ^ k = 2 * f ∧ q % 2 = 1) then q + 1 else q
  | .rtz => q
  | .rdn => if neg then q + 1 else q
  | .rup => if neg then q else q + 1
  | .rna => if 2 ^ k ≤ 2 * f then q + 1 else q
  | .rs => if u * 2 ^ k < f * 2 ^ 32 then q + 1 else q

/-- n · 2^x rounded to a multiple of 2^y: the multiple's count, and whether anything was lost. -/
def roundAt (r : Rnd) (neg : Bool) (u n : Nat) (x y : Int) : Nat × Bool :=
  if y ≤ x then (n * 2 ^ (x - y).toNat, false)
  else (roundMag r neg u n (y - x).toNat, n % 2 ^ (y - x).toNat != 0)

/-- n · 2^x < m · 2^y. -/
def dyLt (n : Nat) (x : Int) (m : Nat) (y : Int) : Bool :=
  n * 2 ^ (x - min x y).toNat < m * 2 ^ (y - min x y).toNat

/-- The sign of a result put on its magnitude code. -/
def withSign (F : Fmt) (neg : Bool) (c : Nat) : Nat := if neg then F.signBit + c else c

/-- The bits of a finite result that overflows (05 R129). -/
def overflowBits (F : Fmt) (r : Rnd) (sat neg : Bool) : Nat × Sticky :=
  let fl := fOverflow ||| fInexact
  if sat || F.top == .numbers then (withSign F neg F.largestCode, fl ||| fSat)
  else if F.top == .nanOnly then (F.nanCode, fl)
  else match r with
    | .rtz => (withSign F neg F.largestCode, fl)
    | .rdn => (if neg then withSign F true F.infCode else F.largestCode, fl)
    | .rup => (if neg then withSign F true F.largestCode else F.infCode, fl)
    | _ => (withSign F neg F.infCode, fl)

/-- convert_fp of R129: the bits in format `F` and the flags raised. Log entry 5 (DEDUCED). -/
def convertFp (F : Fmt) (v : Num) (r : Rnd) (sat ftz : Bool) (u : Nat) : Nat × Sticky :=
  match v with
  | .nan sig => (F.nanCode, flagIf (sig || F.top == .numbers) fInvalid)
  | .inf neg =>
    if sat || F.top == .numbers then (withSign F neg F.largestCode, fSat)
    else if F.top == .nanOnly then (F.nanCode, fInvalid)
    else (withSign F neg F.infCode, 0)
  | .fin neg n x =>
    if n = 0 then (withSign F neg 0, 0) else
    let top : Int := x + Nat.log2 n
    let tx := top - F.m
    let t := (roundAt r neg u n x tx).1
    let big := codeValue F F.largestCode
    if dyLt big.1 big.2 t tx then overflowBits F r sat neg else
    let yx := max tx (-(F.sub : Int))
    let y := roundAt r neg u n x yx
    let tiny := dyLt t tx (2 ^ F.m) (-(F.sub : Int))
    if tiny && ftz then (withSign F neg 0, fFlush ||| fUnderflow ||| fInexact)
    else (withSign F neg ((yx + F.sub).toNat * 2 ^ F.m + y.1), flagIf (tiny && y.2) fUnderflow ||| flagIf y.2 fInexact)

/-- Whether bits hold a subnormal of the format. -/
def isSub (F : Fmt) (b : Nat) : Bool := 0 < b % F.signBit && b % F.signBit < 2 ^ F.m

/-- An input under R130: with ftz a subnormal reads as a zero of its sign. -/
def readFtz (F : Fmt) (ftz : Bool) (b : Nat) : Num × Sticky :=
  if ftz && isSub F b then (.fin (b / F.signBit % 2 == 1) 0 0, fFlush) else (unpack F b, 0)

/-- A signalling NaN. -/
def isSig : Num → Bool
  | .nan s => s
  | _ => false

/-- A NaN. -/
def isNan : Num → Bool
  | .nan _ => true
  | _ => false

/-- A value with its sign inverted. -/
def negNum : Num → Num
  | .nan s => .nan s
  | .inf n => .inf (!n)
  | .fin n m x => .fin (!n) m x

/-- The exact sum of two numbers, with the sign that R159 gives an exact zero; the flag is INVALID of ∞ − ∞ (06 R158). -/
def addNum (r : Rnd) (a b : Num) : Num × Sticky :=
  match a, b with
  | .nan _, _ => (.nan false, 0)
  | _, .nan _ => (.nan false, 0)
  | .inf p, .inf q => if p == q then (.inf p, 0) else (.nan false, fInvalid)
  | .inf p, .fin _ _ _ => (.inf p, 0)
  | .fin _ _ _, .inf q => (.inf q, 0)
  | .fin p n x, .fin q m y =>
    let z := min x y
    let i : Int := n * 2 ^ (x - z).toNat
    let j : Int := m * 2 ^ (y - z).toNat
    let t := (if p then -i else i) + (if q then -j else j)
    if t = 0 then
      (.fin (if n = 0 ∧ m = 0 ∧ p = q then p else r == .rdn) 0 0, 0)
    else (.fin (decide (t < 0)) t.natAbs z, 0)

/-- The exact product of two numbers; the flag is INVALID of 0 · ∞ (06 R158). -/
def mulNum (a b : Num) : Num × Sticky :=
  match a, b with
  | .nan _, _ => (.nan false, 0)
  | _, .nan _ => (.nan false, 0)
  | .inf p, .inf q => (.inf (p != q), 0)
  | .inf p, .fin q m _ => if m = 0 then (.nan false, fInvalid) else (.inf (p != q), 0)
  | .fin p n _, .inf q => if n = 0 then (.nan false, fInvalid) else (.inf (p != q), 0)
  | .fin p n x, .fin q m y => (.fin (p != q) (n * m) (x + y), 0)

/-- The flag of signalling NaN inputs (06 R158). -/
def sigFlag (vs : List Num) : Sticky := flagIf (vs.any isSig) fInvalid

/-- vfadd (06 R157 to R159). -/
def fpAdd (F : Fmt) (r : Rnd) (ftz : Bool) (u a b : Nat) : Nat × Sticky :=
  let x := readFtz F ftz a
  let y := readFtz F ftz b
  let z := addNum r x.1 y.1
  let c := convertFp F z.1 r false ftz u
  (c.1, x.2 ||| y.2 ||| sigFlag [x.1, y.1] ||| z.2 ||| c.2)

/-- vfsub (06 R157 to R159). -/
def fpSub (F : Fmt) (r : Rnd) (ftz : Bool) (u a b : Nat) : Nat × Sticky :=
  let x := readFtz F ftz a
  let y := readFtz F ftz b
  let z := addNum r x.1 (negNum y.1)
  let c := convertFp F z.1 r false ftz u
  (c.1, x.2 ||| y.2 ||| sigFlag [x.1, y.1] ||| z.2 ||| c.2)

/-- vfmul (06 R157 to R159). -/
def fpMul (F : Fmt) (r : Rnd) (ftz : Bool) (u a b : Nat) : Nat × Sticky :=
  let x := readFtz F ftz a
  let y := readFtz F ftz b
  let z := mulNum x.1 y.1
  let c := convertFp F z.1 r false ftz u
  (c.1, x.2 ||| y.2 ||| sigFlag [x.1, y.1] ||| z.2 ||| c.2)

/-- vfma: a·b + d, rounded once (06 R157 to R159). -/
def fpFma (F : Fmt) (r : Rnd) (ftz : Bool) (u a b d : Nat) : Nat × Sticky :=
  let x := readFtz F ftz a
  let y := readFtz F ftz b
  let w := readFtz F ftz d
  let p := mulNum x.1 y.1
  let z := addNum r p.1 w.1
  let c := convertFp F z.1 r false ftz u
  (c.1, x.2 ||| y.2 ||| w.2 ||| sigFlag [x.1, y.1, w.1] ||| p.2 ||| z.2 ||| c.2)

/-- The order of two values that are no NaN: a < b, with −0 below +0 where `zeros` asks for it. -/
def numLt (zeros : Bool) (a b : Num) : Bool :=
  match a, b with
  | .nan _, _ => false
  | _, .nan _ => false
  | .inf p, .inf q => p && !q
  | .inf p, .fin _ _ _ => p
  | .fin _ _ _, .inf q => !q
  | .fin p n x, .fin q m y =>
    if n = 0 ∧ m = 0 then zeros && p && !q
    else if p && n != 0 then (if q && m != 0 then dyLt m y n x else true)
    else if q && m != 0 then false
    else dyLt n x m y

/-- minimumNumber or maximumNumber of R160; `nan` is the .nan form. -/
def fpMinMax (F : Fmt) (isMax nan : Bool) (a b : Nat) : Nat × Sticky :=
  let x := unpack F a
  let y := unpack F b
  let fl := sigFlag [x, y]
  if isNan x then (if isNan y || nan then F.nanCode else b, fl)
  else if isNan y then (if nan then F.nanCode else a, fl)
  else (if numLt true x y then (if isMax then b else a) else (if isMax then a else b), fl)

/-- vfabs and vfneg (06 Table 06-3). -/
def fpSign (F : Fmt) (flip : Bool) (a : Nat) : Nat × Sticky :=
  match unpack F a with
  | .nan s => (F.nanCode, flagIf s fInvalid)
  | _ => (if flip then (a + F.signBit) % (2 * F.signBit) else a % F.signBit, 0)

/-- The vfrint forms (06 Table 06-3): the result keeps the sign of a. -/
def fpRint (F : Fmt) (r : Rnd) (a : Nat) : Nat × Sticky :=
  match unpack F a with
  | .nan s => (F.nanCode, flagIf s fInvalid)
  | .inf _ => (a, 0)
  | .fin neg n x => ((convertFp F (.fin neg (roundAt r neg 0 n x 0).1 0) .rne false false 0).1, 0)

/-- vfclass (06 R162): one bit of [9:0], from signalling NaN (bit 0) up to +∞ (bit 9). -/
def fpClass (F : Fmt) (a : Nat) : Nat :=
  match unpack F a with
  | .nan s => if s then 2 ^ 0 else 2 ^ 1
  | .inf n => if n then 2 ^ 2 else 2 ^ 9
  | .fin neg n _ =>
    if n = 0 then (if neg then 2 ^ 5 else 2 ^ 6)
    else if isSub F a then (if neg then 2 ^ 4 else 2 ^ 7)
    else (if neg then 2 ^ 3 else 2 ^ 8)

/-- A floating-point value as an integer in [lo, hi] (06 Table 06-6): the value, and the flags. -/
def fpToInt (v : Num) (r : Rnd) (sat : Bool) (u : Nat) (lo hi : Int) : Int × Sticky :=
  match v with
  | .nan _ => (0, fInvalid)
  | .inf neg => (if neg then lo else hi, if sat then fSat else fInvalid)
  | .fin neg n x =>
    let q := roundAt r neg u n x 0
    let i : Int := if neg then -(q.1 : Int) else q.1
    if i < lo then (lo, if sat then fSat else fInvalid)
    else if hi < i then (hi, if sat then fSat else fInvalid)
    else (i, flagIf q.2 fInexact)

/-- The SEED step of R127. -/
def seedStep (x : BitVec 64) : BitVec 64 :=
  let x := x ^^^ (x <<< 13)
  let x := x ^^^ (x >>> 7)
  x ^^^ (x <<< 17)

/-- The draw of sub-element e in thread t from the advanced SEED x (05 R127). -/
def draw (x : BitVec 64) (t e : Nat) : Nat :=
  let z := x + BitVec.ofNat 64 (t * 8 + e + 1) * 0x9E3779B97F4A7C15#64
  let z := (z ^^^ (z >>> 30)) * 0xBF58476D1CE4E5B9#64
  let z := (z ^^^ (z >>> 27)) * 0x94D049BB133111EB#64
  let z := z ^^^ (z >>> 31)
  (z >>> 32).toNat

end Sys2Proof.Machine
end

