-- ==== Sys2Proof/Syntax.lean ====
section
/-! DEFINITION. The instructions: one constructor for every row of the opcode table. A row that a wave issues carries the
fields of its encoding (04 Table 04-2), each at its own width; an event of the device carries the names of what it
happens to. -/

namespace Sys2Proof

/-- The clause header of Table 04-1 (04 R83). -/
structure OpHdr where
  len : BitVec 5
  flagB : BitVec 4
  flagA : BitVec 4
  wait : BitVec 12
  deriving DecidableEq, Repr

/-- Format A: two coded sources and a destination (04 R94). -/
structure OpA where
  cb : BitVec 2
  b : BitVec 6
  ca : BitVec 2
  a : BitVec 6
  d : BitVec 6
  deriving DecidableEq, Repr

/-- Format A with field b reserved (04 R99). -/
structure OpDA where
  ca : BitVec 2
  a : BitVec 6
  d : BitVec 6
  deriving DecidableEq, Repr

/-- The 16-bit format (04 R98). -/
structure Op16 where
  b : BitVec 5
  d : BitVec 6
  deriving DecidableEq, Repr

/-- Format Q (04 R100). -/
structure OpQ where
  t : BitVec 2
  rnd : BitVec 3
  ftz : BitVec 1
  b : BitVec 6
  a : BitVec 6
  d : BitVec 6
  deriving DecidableEq, Repr

/-- Format U, groups 0 to 3 (04 R101). -/
structure OpU where
  t : BitVec 2
  ca : BitVec 2
  a : BitVec 6
  d : BitVec 6
  deriving DecidableEq, Repr

/-- Format U, groups 4 and 5 (04 R101). -/
structure OpUI where
  t : BitVec 1
  ca : BitVec 2
  a : BitVec 6
  d : BitVec 6
  deriving DecidableEq, Repr

/-- A single register field. -/
structure OpD where
  d : BitVec 6
  deriving DecidableEq, Repr

/-- Format C (04 R102). -/
structure OpC where
  sat : BitVec 1
  rnd : BitVec 3
  dt : BitVec 4
  st : BitVec 4
  ca : BitVec 2
  a : BitVec 6
  d : BitVec 6
  deriving DecidableEq, Repr

/-- Format S (04 R103). -/
structure OpS where
  slot : BitVec 3
  b : BitVec 5
  ca : BitVec 2
  a : BitVec 6
  d : BitVec 6
  deriving DecidableEq, Repr

/-- A source and a destination without codes. -/
structure OpAD where
  a : BitVec 6
  d : BitVec 6
  deriving DecidableEq, Repr

/-- Format I (04 R104). -/
structure OpI where
  imm : BitVec 12
  a : BitVec 6
  d : BitVec 6
  deriving DecidableEq, Repr

/-- Format L (04 R105). -/
structure OpL where
  imm : BitVec 16
  d : BitVec 6
  deriving DecidableEq, Repr

/-- Format P (04 R106). -/
structure OpP where
  b : BitVec 6
  ca : BitVec 2
  a : BitVec 6
  t : BitVec 3
  pd : BitVec 3
  deriving DecidableEq, Repr

/-- Format E, select (04 R107). -/
structure OpE where
  p : BitVec 3
  cb : BitVec 2
  b : BitVec 6
  ca : BitVec 2
  a : BitVec 6
  d : BitVec 6
  deriving DecidableEq, Repr

/-- Format E, predicate logic with two sources (04 R107). -/
structure OpPL where
  pb : BitVec 3
  pa : BitVec 3
  pd : BitVec 3
  deriving DecidableEq, Repr

/-- Format E, predicate logic with one source (04 R107). -/
structure OpPN where
  pa : BitVec 3
  pd : BitVec 3
  deriving DecidableEq, Repr

/-- Format X: shuffle and broadcast (04 R108). -/
structure OpX where
  p : BitVec 3
  b : BitVec 6
  a : BitVec 6
  d : BitVec 6
  deriving DecidableEq, Repr

/-- Format X: ballot (04 R108). -/
structure OpBal where
  p : BitVec 3
  d : BitVec 6
  deriving DecidableEq, Repr

/-- Format X: votes (04 R108). -/
structure OpVote where
  p : BitVec 3
  pa : BitVec 3
  deriving DecidableEq, Repr

/-- Format X: uniformity (04 R108). -/
structure OpUni where
  p : BitVec 3
  a : BitVec 6
  deriving DecidableEq, Repr

/-- Format X: compact (04 R108). -/
structure OpCmp where
  p : BitVec 3
  a : BitVec 6
  d : BitVec 6
  deriving DecidableEq, Repr

/-- Format T (04 R109). -/
structure OpT where
  t : BitVec 3
  ca : BitVec 2
  a : BitVec 6
  d : BitVec 6
  deriving DecidableEq, Repr

/-- Format K (04 R110). -/
structure OpK where
  k : BitVec 5
  nanhi : BitVec 1
  abs : BitVec 1
  t : BitVec 3
  pd : BitVec 3
  a : BitVec 6
  d : BitVec 6
  deriving DecidableEq, Repr

/-- Format M, global load (04 R111). -/
structure OpLdg where
  off : BitVec 4
  size : BitVec 3
  fsel : BitVec 1
  hint : BitVec 2
  base : BitVec 6
  d : BitVec 6
  deriving DecidableEq, Repr

/-- Format M, scratchpad load (04 R111). -/
structure OpLds where
  off : BitVec 4
  size : BitVec 3
  fsel : BitVec 1
  base : BitVec 6
  d : BitVec 6
  deriving DecidableEq, Repr

/-- Format M, global store (04 R111). -/
structure OpStg where
  off : BitVec 4
  size : BitVec 3
  fsel : BitVec 1
  hint : BitVec 2
  dcode : BitVec 2
  base : BitVec 6
  data : BitVec 6
  deriving DecidableEq, Repr

/-- Format M, scratchpad store (04 R111). -/
structure OpSts where
  off : BitVec 4
  size : BitVec 3
  fsel : BitVec 1
  dcode : BitVec 2
  base : BitVec 6
  data : BitVec 6
  deriving DecidableEq, Repr

/-- Format N (04 R112). -/
structure OpN where
  fsel : BitVec 1
  order : BitVec 2
  scope : BitVec 3
  size : BitVec 3
  base : BitVec 6
  b : BitVec 6
  deriving DecidableEq, Repr

/-- fence (04 Table 04-11). -/
structure OpFence where
  scope : BitVec 3
  deriving DecidableEq, Repr

/-- racq (04 Table 04-11). -/
structure OpRacq where
  fsel : BitVec 1
  scope : BitVec 3
  range : BitVec 6
  core : BitVec 6
  deriving DecidableEq, Repr

/-- mwait (04 Table 04-11; 11 R299). -/
structure OpMwait where
  scope : BitVec 3
  acq : BitVec 1
  wide : BitVec 1
  cond : BitVec 3
  addr : BitVec 6
  val : BitVec 6
  deriving DecidableEq, Repr

/-- bar.init (04 Table 04-11). -/
structure OpBarInit where
  count : BitVec 6
  id : BitVec 5
  deriving DecidableEq, Repr

/-- bar.arrive and bar.wait (04 Table 04-11). -/
structure OpBarPh where
  bs : BitVec 3
  phase : BitVec 6
  id : BitVec 5
  deriving DecidableEq, Repr

/-- bar.sync (04 Table 04-11). -/
structure OpBarSync where
  bs : BitVec 3
  id : BitVec 5
  deriving DecidableEq, Repr

/-- Format Y with F2 alone. -/
structure OpY2 where
  f2 : BitVec 6
  deriving DecidableEq, Repr

/-- Format Y with a flag, F2 and F1. -/
structure OpF12 where
  fsel : BitVec 1
  f2 : BitVec 6
  f1 : BitVec 6
  deriving DecidableEq, Repr

/-- Format Y with a flag and F2. -/
structure OpF2 where
  fsel : BitVec 1
  f2 : BitVec 6
  deriving DecidableEq, Repr

/-- Format Y with F2 and F1. -/
structure OpY12 where
  f2 : BitVec 6
  f1 : BitVec 6
  deriving DecidableEq, Repr

/-- Format Y with a flag, G and F2. -/
structure OpFG2 where
  fsel : BitVec 1
  g : BitVec 3
  f2 : BitVec 6
  deriving DecidableEq, Repr

/-- Format Y with F3, F2 and F1. -/
structure OpY123 where
  f3 : BitVec 6
  f2 : BitVec 6
  f1 : BitVec 6
  deriving DecidableEq, Repr

/-- Token and bank instructions (08 R221). -/
structure OpTile where
  fsel : BitVec 1
  c : BitVec 3
  deriving DecidableEq, Repr

/-- tread and twrite (08 R222). -/
structure OpTRow where
  fsel : BitVec 1
  g : BitVec 3
  rows : BitVec 6
  sp : BitVec 6
  c : BitVec 3
  deriving DecidableEq, Repr

/-- Format B (04 R113). -/
structure OpBra where
  off : BitVec 20
  uni : BitVec 1
  neg : BitVec 1
  p : BitVec 3
  deriving DecidableEq, Repr

/-- brx (14 R332). -/
structure OpBrx where
  uni : BitVec 1
  t : BitVec 6
  deriving DecidableEq, Repr

/-- bprio (14 R333). -/
structure OpBprio where
  n : BitVec 4
  deriving DecidableEq, Repr

/-- rcvset and rcvwait (14 R334). -/
structure OpRcv where
  id : BitVec 2
  deriving DecidableEq, Repr

/-- yield (14 R336). -/
structure OpYield where
  n : BitVec 4
  live : BitVec 7
  deriving DecidableEq, Repr

/-- trap (14 R339). -/
structure OpTrap where
  code : BitVec 8
  deriving DecidableEq, Repr

/-- Key instructions with F2 and F1 (15 Table 15-5). -/
structure OpK12 where
  fsel : BitVec 1
  k : BitVec 3
  f2 : BitVec 6
  f1 : BitVec 6
  deriving DecidableEq, Repr

/-- kneigh (15 Table 15-5). -/
structure OpKneigh where
  fsel : BitVec 1
  k : BitVec 3
  face : BitVec 3
  f2 : BitVec 6
  f1 : BitVec 6
  deriving DecidableEq, Repr

/-- kcost (15 Table 15-5). -/
structure OpKcost where
  fsel : BitVec 1
  k : BitVec 3
  f3 : BitVec 6
  f2 : BitVec 6
  deriving DecidableEq, Repr

/-- krebal (15 Table 15-5). -/
structure OpKreb where
  fsel : BitVec 1
  k : BitVec 3
  f1 : BitVec 6
  deriving DecidableEq, Repr

/-- wpush (15 Table 15-5). -/
structure OpWpush where
  fsel : BitVec 1
  list : BitVec 6
  f2 : BitVec 6
  deriving DecidableEq, Repr

/-- wpop and wcount (15 Table 15-5). -/
structure OpWout where
  fsel : BitVec 1
  list : BitVec 6
  f1 : BitVec 6
  deriving DecidableEq, Repr

/-- wins (15 Table 15-5). -/
structure OpWins where
  fsel : BitVec 1
  list : BitVec 6
  f2 : BitVec 6
  f1 : BitVec 6
  deriving DecidableEq, Repr

/-- sysrd and syswr (18 R411). -/
structure OpSys where
  num : BitVec 12
  f1 : BitVec 6
  deriving DecidableEq, Repr

/-- ckpt (19 R439). -/
structure OpF1 where
  fsel : BitVec 1
  f1 : BitVec 6
  deriving DecidableEq, Repr

/-- Who writes a register: the management port, or a function of the host port (`fn` none: the physical one). -/
structure Face where
  port : Bool
  fn : Option Nat
  deriving DecidableEq, Repr

/-- A read of a register of BAR0 by its number (a queue's QRSV, a context's SYNC), and the function of the host port that reads it
(`fn` none: the physical one). -/
structure PageRead where
  index : Nat
  fn : Option Nat
  deriving DecidableEq, Repr

/-- What of an operation in flight completes: one of its pieces, each a word that one thread touches, or (`none`) all that are
left (09 R249). -/
structure OpPart where
  op : Nat
  piece : Option Nat
  deriving DecidableEq, Repr

/-- The request whose answer arrives: its frame, the first word of its run, and whether it asks for the exclusive state
(09 R245). -/
structure FillRun where
  frame : Nat
  start : Nat
  excl : Bool
  deriving DecidableEq, Repr

/-- A request of another device: who sends it, the world of its agent, and the physical address it names here (09 R264; 18 R394). -/
structure Remote where
  device : Nat
  secure : Bool
  pa : Nat
  deriving DecidableEq, Repr

/-- A home that may fail: that of a device, or a die of this one (19 R449, R450). -/
inductive Home where
  | device (n : Nat)
  | die (n : Nat)
  deriving DecidableEq, Repr

/-- An agent that may fail holding words: a core, an L2 slice, or all that a device or a die is (09 R265; 19 R449). -/
inductive Agent where
  | core (n : Nat)
  | slice (n : Nat)
  | home (h : Home)
  deriving DecidableEq, Repr

/-- The instructions a wave issues and the events of the device (spec/opcode_table.json). -/
inductive Instr where
  | launchTake (part : Nat)
  | teamPlace (grid : Nat) (cores : List Nat)
  | placementWaitExpiry (grid : Nat)
  | aggregatorRelease (grid : Nat)
  | ageBoost (wave : Nat)
  | watchdog (wave : Nat)
  | waveRetire (wave : Nat)
  | loadComplete (part : OpPart)
  | storeComplete (part : OpPart)
  | atomicComplete (op : Nat)
  | fenceComplete (wave : Nat)
  | racqDrain (op : Nat)
  | cacheFillArrive (core : Nat) (run : FillRun)
  | sliceAdmit (die n : Nat)
  | monitorWake (wave : Nat)
  | monitorRepoll (wave : Nat)
  | pendingArrivalApply (core : Nat)
  | tenureGrant (op : Nat)
  | tenureRecall (ctx : Nat) (index : Nat) (write : Bool)
  | hrelEffect (op : Nat)
  | flushComplete (op : Nat)
  | rmodeComplete (op : Nat)
  | mmaAccept (op : Nat)
  | mmaGrant (cluster : Nat)
  | tileInstrEffect (op : Nat)
  | tileRowsComplete (op : Nat)
  | colloadComplete (op : Nat)
  | qcopyComplete (op : Nat)
  | copyComplete (op : Nat)
  | teamSave (team : Nat)
  | teamRestore (team : Nat) (cores : List Nat)
  | faultRecordWrite (ctx : Nat)
  | hullWrite (grid : Nat)
  | signatureCompare (wave : Nat)
  | bisectorSnapshot (part k : Nat)
  | cutAnnounce (part k : Nat)
  | patchHandOver (part k : Nat)
  | bisectorStopShort (part k : Nat)
  | cutCommit (part k : Nat)
  | linkFlitReceive (link : Nat) (good : Bool)
  | linkRetrain (link : Nat)
  | remoteRequest (src : Remote) (write : Option (List (BitVec 8))) (size : Nat)
  | agentFailure (agent : Agent)
  | census (home : Home)
  | correctedError (kind index : Nat)
  | poisonMark (kind a b c : Nat)
  | spareSubstitution (kind index : Nat)
  | hostBar2Access (pa : Nat) (write : Option (List (BitVec 8))) (size : Nat)
  | hostAtomicop (kind : Nat) (size : Nat) (pa : Nat) (x y : Nat)
  | hostCxlCache (pa : Nat) (data : List (BitVec 8))
  | qrsvRead (part : Nat) (q : PageRead)
  | setupBindKeyspace (part k : Nat)
  | setupUnbindKeyspace (part k : Nat)
  | setupWorkList (part n : Nat)
  | setupRereadQueue (part q : Nat)
  | contextSetup (ctx : Nat) (record : Nat) (fn : Option Nat)
  | contextRetire (ctx : Nat)
  | syncRead (page : PageRead)
  | serviceResume (ctx : Nat)
  | serviceHandler (ctx : Nat)
  | serviceEnd (ctx : Nat)
  | serviceContinue (ctx : Nat)
  | serviceRestore (ctx : Nat)
  | registerWrite (off size val : Nat) (face : Face)
  | partset (bar0 : Bool)
  | partfree (bar0 : Bool)
  | parthalt (bar0 : Bool)
  | partrun (bar0 : Bool)
  | regtag (bar0 : Bool)
  | keyload (bar0 : Bool)
  | unitread (bar0 : Bool)
  | pwrlimit (bar0 : Bool)
  | sharedset (bar0 : Bool)
  | deviceReset
  | bootStageComplete (error : Option Nat)
  | clockChange (mhz : Nat)
  | thermalLimit
  | thermalHalt
  | keyUnitStep (op : Nat)
  | workListStep (op : Nat)
  | corePowerGate (core : Nat)
  | clauseHeader (o : OpHdr)
  | vaddI8x8 (o : OpA)
  | vsubI8x8 (o : OpA)
  | vminI8x8 (o : OpA)
  | vminN8x8 (o : OpA)
  | vmaxI8x8 (o : OpA)
  | vmaxN8x8 (o : OpA)
  | vaddI8x8Sat (o : OpA)
  | vaddN8x8Sat (o : OpA)
  | vaddI16x4 (o : OpA)
  | vsubI16x4 (o : OpA)
  | vminI16x4 (o : OpA)
  | vminN16x4 (o : OpA)
  | vmaxI16x4 (o : OpA)
  | vmaxN16x4 (o : OpA)
  | vaddI16x4Sat (o : OpA)
  | vaddN16x4Sat (o : OpA)
  | vaddI32x2 (o : OpA)
  | vsubI32x2 (o : OpA)
  | vmulI32x2 (o : OpA)
  | vmulhiI32x2 (o : OpA)
  | vmulhiN32x2 (o : OpA)
  | vminI32x2 (o : OpA)
  | vminN32x2 (o : OpA)
  | vmaxI32x2 (o : OpA)
  | vmaxN32x2 (o : OpA)
  | vshlI32x2 (o : OpA)
  | vshrN32x2 (o : OpA)
  | vshrI32x2 (o : OpA)
  | vaddI32x2Sat (o : OpA)
  | vaddN32x2Sat (o : OpA)
  | vsubI32x2Sat (o : OpA)
  | vsubN32x2Sat (o : OpA)
  | vaddI64 (o : OpA)
  | vsubI64 (o : OpA)
  | vmulI64 (o : OpA)
  | vmulhiI64 (o : OpA)
  | vmulhiN64 (o : OpA)
  | vminI64 (o : OpA)
  | vminN64 (o : OpA)
  | vmaxI64 (o : OpA)
  | vmaxN64 (o : OpA)
  | vshlI64 (o : OpA)
  | vshrN64 (o : OpA)
  | vshrI64 (o : OpA)
  | vaddI64Sat (o : OpA)
  | vaddN64Sat (o : OpA)
  | vsubI64Sat (o : OpA)
  | vsubN64Sat (o : OpA)
  | vand (o : OpA)
  | vor (o : OpA)
  | vxor (o : OpA)
  | vandn (o : OpA)
  | vmov (o : OpDA)
  | vsplat (o : OpDA)
  | vfaddF64 (o : OpA)
  | vfsubF64 (o : OpA)
  | vfmulF64 (o : OpA)
  | vfmaF64 (o : OpA)
  | vfminF64 (o : OpA)
  | vfmaxF64 (o : OpA)
  | vfminF64Nan (o : OpA)
  | vfmaxF64Nan (o : OpA)
  | vfaddF32x2 (o : OpA)
  | vfsubF32x2 (o : OpA)
  | vfmulF32x2 (o : OpA)
  | vfmaF32x2 (o : OpA)
  | vfminF32x2 (o : OpA)
  | vfmaxF32x2 (o : OpA)
  | vfminF32x2Nan (o : OpA)
  | vfmaxF32x2Nan (o : OpA)
  | vfaddF16x4 (o : OpA)
  | vfsubF16x4 (o : OpA)
  | vfmulF16x4 (o : OpA)
  | vfmaF16x4 (o : OpA)
  | vfminF16x4 (o : OpA)
  | vfmaxF16x4 (o : OpA)
  | vfminF16x4Nan (o : OpA)
  | vfmaxF16x4Nan (o : OpA)
  | vfaddBf16x4 (o : OpA)
  | vfsubBf16x4 (o : OpA)
  | vfmulBf16x4 (o : OpA)
  | vfmaBf16x4 (o : OpA)
  | vfminBf16x4 (o : OpA)
  | vfmaxBf16x4 (o : OpA)
  | vfminBf16x4Nan (o : OpA)
  | vfmaxBf16x4Nan (o : OpA)
  | saddI64 (o : OpA)
  | ssubI64 (o : OpA)
  | smulI64 (o : OpA)
  | smulhiI64 (o : OpA)
  | smulhiN64 (o : OpA)
  | sand (o : OpA)
  | sor (o : OpA)
  | sxor (o : OpA)
  | sshlI64 (o : OpA)
  | sshrN64 (o : OpA)
  | sshrI64 (o : OpA)
  | sminI64 (o : OpA)
  | sminN64 (o : OpA)
  | smaxI64 (o : OpA)
  | smaxN64 (o : OpA)
  | smov (o : OpDA)
  | nop
  | vmovC16 (o : Op16)
  | vaddI32x2C16 (o : Op16)
  | vsubI32x2C16 (o : Op16)
  | vmulI32x2C16 (o : Op16)
  | vandC16 (o : Op16)
  | vorC16 (o : Op16)
  | vxorC16 (o : Op16)
  | vshlI32x2C16 (o : Op16)
  | vshrN32x2C16 (o : Op16)
  | vfaddF32x2C16 (o : Op16)
  | vfsubF32x2C16 (o : Op16)
  | vfmulF32x2C16 (o : Op16)
  | vfminF32x2C16 (o : Op16)
  | vfmaxF32x2C16 (o : Op16)
  | vfaddF64C16 (o : Op16)
  | vfaddQ (o : OpQ)
  | vfsubQ (o : OpQ)
  | vfmulQ (o : OpQ)
  | vfmaQ (o : OpQ)
  | vfabs (o : OpU)
  | vfneg (o : OpU)
  | vrcp (o : OpU)
  | vrsqrt (o : OpU)
  | vsqrt (o : OpU)
  | vsin (o : OpU)
  | vcos (o : OpU)
  | vsinpi (o : OpU)
  | vcospi (o : OpU)
  | vexp2 (o : OpU)
  | vlog2 (o : OpU)
  | vtanh (o : OpU)
  | vfrintn (o : OpU)
  | vfrintz (o : OpU)
  | vfrintm (o : OpU)
  | vfrintp (o : OpU)
  | vfclass (o : OpU)
  | vabs (o : OpUI)
  | vneg (o : OpUI)
  | vnot (o : OpUI)
  | vpopc (o : OpUI)
  | vclz (o : OpUI)
  | vbrev (o : OpUI)
  | vlanes (o : OpD)
  | vpasses (o : OpD)
  | vtid (o : OpD)
  | vlanemap (o : OpD)
  | vcvt (o : OpC)
  | vquant (o : OpS)
  | vdequant (o : OpS)
  | vcbdec (o : OpS)
  | amadI8x8 (o : OpA)
  | amadN8x8 (o : OpA)
  | amadF16x4 (o : OpA)
  | amadBf16x4 (o : OpA)
  | amadF32x2 (o : OpA)
  | amadF64 (o : OpA)
  | azero (o : OpD)
  | amov (o : OpA)
  | vnarrowLo (o : OpAD)
  | vnarrowHi (o : OpAD)
  | vnarrowI16x4Sat (o : OpAD)
  | vnarrowF16x4 (o : OpAD)
  | saddi (o : OpI)
  | sandi (o : OpI)
  | vaddiI32x2 (o : OpI)
  | vaddiI64 (o : OpI)
  | smovz (o : OpL)
  | smovs (o : OpL)
  | smovk16 (o : OpL)
  | smovk32 (o : OpL)
  | smovk48 (o : OpL)
  | vmovz (o : OpL)
  | vmovs (o : OpL)
  | vmovk16 (o : OpL)
  | vmovk32 (o : OpL)
  | vmovk48 (o : OpL)
  | vceq (o : OpP)
  | vcne (o : OpP)
  | vclt (o : OpP)
  | vcle (o : OpP)
  | vcgt (o : OpP)
  | vcge (o : OpP)
  | vcord (o : OpP)
  | vcunord (o : OpP)
  | vcneu (o : OpP)
  | sceq (o : OpP)
  | scne (o : OpP)
  | sclt (o : OpP)
  | scle (o : OpP)
  | scgt (o : OpP)
  | scge (o : OpP)
  | scord (o : OpP)
  | scunord (o : OpP)
  | scneu (o : OpP)
  | vsel (o : OpE)
  | pand (o : OpPL)
  | por (o : OpPL)
  | pxor (o : OpPL)
  | pandn (o : OpPL)
  | pnot (o : OpPN)
  | pmov (o : OpPN)
  | vshflN64 (o : OpX)
  | vshflN32x2 (o : OpX)
  | vshflN16x4 (o : OpX)
  | vshflN8x8 (o : OpX)
  | vbcast (o : OpX)
  | vballot (o : OpBal)
  | vall (o : OpVote)
  | vany (o : OpVote)
  | vuni (o : OpUni)
  | vcompact (o : OpCmp)
  | vmatch (o : OpAD)
  | vrdfirst (o : OpAD)
  | vredAdd (o : OpT)
  | vredMin (o : OpT)
  | vredMax (o : OpT)
  | vredAnd (o : OpT)
  | vredOr (o : OpT)
  | vredXor (o : OpT)
  | vscanAdd (o : OpT)
  | vscanMin (o : OpT)
  | vscanMax (o : OpT)
  | vscanAnd (o : OpT)
  | vscanOr (o : OpT)
  | vscanXor (o : OpT)
  | vscanxAdd (o : OpT)
  | vscanxMin (o : OpT)
  | vscanxMax (o : OpT)
  | vscanxAnd (o : OpT)
  | vscanxOr (o : OpT)
  | vscanxXor (o : OpT)
  | vtopk (o : OpK)
  | ldg (o : OpLdg)
  | lds (o : OpLds)
  | ldc (o : OpLds)
  | stg (o : OpStg)
  | sts (o : OpSts)
  | atomAdd (o : OpN)
  | atomAnd (o : OpN)
  | atomOr (o : OpN)
  | atomXor (o : OpN)
  | atomMinI (o : OpN)
  | atomMinN (o : OpN)
  | atomMaxI (o : OpN)
  | atomMaxN (o : OpN)
  | atomExch (o : OpN)
  | atomCas (o : OpN)
  | atomFadd (o : OpN)
  | atomLdo (o : OpN)
  | redAdd (o : OpN)
  | redAnd (o : OpN)
  | redOr (o : OpN)
  | redXor (o : OpN)
  | redMinI (o : OpN)
  | redMinN (o : OpN)
  | redMaxI (o : OpN)
  | redMaxN (o : OpN)
  | redExch (o : OpN)
  | redCas (o : OpN)
  | redFadd (o : OpN)
  | redSto (o : OpN)
  | fence (o : OpFence)
  | racq (o : OpRacq)
  | mwait (o : OpMwait)
  | barInit (o : OpBarInit)
  | barArrive (o : OpBarPh)
  | barWait (o : OpBarPh)
  | barSync (o : OpBarSync)
  | barRarrive (o : OpY2)
  | copy (o : OpF12)
  | gather (o : OpF12)
  | scatter (o : OpF12)
  | compact (o : OpF2)
  | pfetchDesc (o : OpF2)
  | pfetchHandle (o : OpF2)
  | pin (o : OpY12)
  | unpin (o : OpY12)
  | flush (o : OpFG2)
  | inval (o : OpFG2)
  | hopen (o : OpF12)
  | hacqRd (o : OpF2)
  | hacqWr (o : OpF2)
  | hrelDrop (o : OpF2)
  | hrelDown (o : OpF2)
  | hsplit (o : OpY123)
  | hclose (o : OpY2)
  | smap (o : OpY123)
  | sunmap (o : OpY12)
  | mma (o : OpFG2)
  | tkacq (o : OpTile)
  | tkrel (o : OpTile)
  | tswap (o : OpTile)
  | tzero (o : OpTile)
  | tread (o : OpTRow)
  | twrite (o : OpTRow)
  | colload (o : OpF2)
  | qcopy (o : OpFG2)
  | bra (o : OpBra)
  | brx (o : OpBrx)
  | call (o : OpY12)
  | ret (o : OpY2)
  | bprio (o : OpBprio)
  | rcvset (o : OpRcv)
  | rcvwait (o : OpRcv)
  | yield (o : OpYield)
  | exit
  | trap (o : OpTrap)
  | brk
  | qsend (o : OpY2)
  | qrecv (o : OpD)
  | spawn (o : OpF12)
  | rget (o : OpY12)
  | krefine (o : OpK12)
  | kcoarsen (o : OpK12)
  | kneigh (o : OpKneigh)
  | kowner (o : OpK12)
  | kcost (o : OpKcost)
  | kclaim (o : OpK12)
  | krelease (o : OpFG2)
  | kiter (o : OpK12)
  | krebal (o : OpKreb)
  | wpush (o : OpWpush)
  | wpop (o : OpWout)
  | wins (o : OpWins)
  | wcount (o : OpWout)
  | sysrd (o : OpSys)
  | syswr (o : OpSys)
  | tret
  | rmodeSwm (o : OpF2)
  | rmodeCoh (o : OpF2)
  | halt
  | ckpt (o : OpF1)
  | rbstat (o : OpD)
  | finj (o : OpD)
  deriving DecidableEq, Repr

end Sys2Proof
end

