-- ==== Sys2Proof/Machine/State.lean ====
section
/-! DEFINITION. The machine's state as plain data: waves, teams, grids, memory, engines, keyspaces, isolation, recovery
and the outside interfaces, and the state after device reset. -/

namespace Sys2Proof.Machine

/-! ## Waves (02 R41 to R57) -/

/-- The clause context an entry inside a body carries (04 R87). -/
structure Ctx where
  hdr : Nat
  flagA : Nat
  flagB : Nat
  endPc : Nat
  deriving DecidableEq, Repr

/-- A frontier entry: the threads that stand at one (priority, PC) pair (02 R44). -/
structure Entry where
  prio : Nat
  pc : Nat
  mask : BitVec 32
  ctx : Option Ctx
  deriving DecidableEq, Repr

/-- The wave states of Table 02-4. A wave that an instruction holds at issue stays `ready`, with its PC unmoved. -/
inductive WState where
  | ready
  | waitFlags (mask : BitVec 12)
  | blocked
  | atYield (live : Nat)
  | parked
  | saved
  | retired
  deriving DecidableEq, Repr

/-- What a Blocked wave waits for (Table 02-4; 11 R300, R303, R305; 14 R334, R342). -/
inductive Block where
  /-- The location and bytes of the word; whether it is armed stands in the monitor tables. -/
  | monitor (pa size : Nat)
  /-- The barrier, the phase waited for, the PC of the instruction, which has made its arrival where it makes one, and the scope at
  which the completion is an acquire. -/
  | barrier (ownerTeam id phase pc scope : Nat)
  | queue
  | arrivals
  | reconv
  deriving DecidableEq, Repr

/-- The faults of Table 18-6, in priority order. -/
inductive FaultCode where
  | illegal | slot | uniform | handle | token | align | xlate | perm | world | tenure | barclobber | keyspace
  | poison | lost | mismatch | watchdog
  deriving DecidableEq, Repr

/-- A fault record of Table 18-7, less SEQ, which the queue gives it when it is written (18 R408). -/
structure Rec where
  ctx : Nat
  kind : Nat
  code : Nat
  thread : Nat
  wave : Nat
  team : Nat
  grid : Nat
  pc : Nat
  addr : Nat
  field : Nat
  core : Nat
  /-- The grid's own number, where the record is of a grid: the model's, no field of the record. -/
  gid : Option Nat
  deriving DecidableEq, Repr

/-- One register a result is written to: the plain data that a load-value queue carries (19 R445). -/
inductive RegWrite where
  | v (reg thread : Nat) (val : Word)
  | s (reg : Nat) (val : Word)
  deriving DecidableEq, Repr

/-- The part a wave plays in redundant execution (19 R444, R447). -/
inductive Role where
  | solo
  | leader (trailer : Nat)
  | trailer (leader : Nat)
  deriving DecidableEq, Repr

/-- The injection that finj has armed (19 Table 19-8). -/
structure Finj where
  kind : Nat
  delay : Nat
  deriving DecidableEq, Repr

/-- One wave. `v`, `a` are keyed by 32·register + thread; `p` by 32·predicate + thread. -/
structure Wave where
  id : Nat
  team : Nat
  w : Nat
  role : Role
  state : WState
  block : Option Block
  /-- The state the wave goes back to when it is restored (18 R418). -/
  savedState : WState
  v : List (Nat × Word)
  a : List (Nat × BitVec 128)
  s : List (Nat × Word)
  p : List (Nat × Bool)
  flags : List (Nat × Nat)
  sticky : BitVec 9
  seed : Word
  ldhint : BitVec 6
  left : Nat
  trapPc : Word
  trapCtx : Word
  trapHdr : Word
  sysMode : Bool
  sysMask : BitVec 32
  frontier : List Entry
  /-- The (priority, PC) of the entry whose clause the wave is issuing (04 R87). -/
  sel : Option (Nat × Nat)
  rcvMember : List (Nat × BitVec 32)
  rcvWait : List (Nat × BitVec 32)
  boost : Bool
  /-- Parked for a fault that only ending or restoring the grid answers (20 R457). -/
  final : Bool
  /-- A barrier-0 arrival of a recoverable launch that holds the wave (19 R429). -/
  held : Bool
  /-- The scope of the fence that holds the wave Issuing (11 R297). -/
  fence : Option Nat
  /-- The value of `nextId` when the wave's last fence or acquire was performed: what its core's L1 held then is performed
  before what the wave stores after it (10 R273). -/
  fenced : Nat
  finj : Option Finj
  vBad : List (Nat × Bool)
  sBad : List (Nat × Bool)
  aBad : List (Nat × Bool)
  /-- Dirty bits of the vector registers and of the accumulators, by register (19 R430). -/
  vDirty : List (Nat × Bool)
  aDirty : List (Nat × Bool)
  /-- Load-value queue of a leader, oldest first: the operation that will give each result its trailer has still to take,
  and the result once it has arrived (19 R445). -/
  lvq : List (Nat × Option (List RegWrite))
  /-- Signatures a trailer has formed and that are still to be compared (19 R445). -/
  sigs : List (BitVec 32)
  /-- Instructions the wave has retired, for the lead of a leader (19 R445). -/
  retired : Nat
  deriving DecidableEq, Repr

/-! ## Teams and grids (02 R23 to R60) -/

/-- A stash mapping (09 R241). -/
structure Stash where
  base : Nat
  len : Nat
  spBase : Nat
  /-- The pages touched so far: virtual page, and the page it was translated to. -/
  pages : List (Nat × Nat)
  deriving DecidableEq, Repr

/-- A gathering of a collective copy's slices (11 R310). -/
structure Gathering where
  desc : Nat
  nslices : Nat
  /-- Issuing wave, flag, first row, row count of each slice that has arrived. -/
  slices : List (Nat × Nat × Nat × Nat)
  deriving DecidableEq, Repr

/-- The atomic operations of Table 11-2. -/
inductive AtomOp where
  | add | and | or | xor | minI | minN | maxI | maxN | exch | cas | fadd | ldo | sto
  deriving DecidableEq, Repr

/-- An entry of the interval store buffer (19 R431, R432). -/
inductive Held where
  /-- `via`: the page-table entries it was translated under, with how often each had been overwritten (10 R285). -/
  | store (word : Nat) (bytes : List (Nat × BitVec 8)) (via : List (Nat × Nat))
  | red (op : AtomOp) (size pa : Nat) (x y : Nat) (via : List (Nat × Nat))
  /-- `puts`: the words whose held bytes the atomic changed, and those bytes. -/
  | logged (wave : Nat) (op : AtomOp) (size : Nat) (addrs : List (Nat × Nat)) (vals : List (Nat × Nat))
      (puts : List (Nat × List (Nat × BitVec 8)))
  deriving DecidableEq, Repr

/-- The recovery state of a team's barrier interval (19 R429 to R437). -/
structure Interval where
  recov : Bool
  reason : Nat
  rollbacks : Nat
  buffer : List Held
  /-- Logged issues still to be matched by a re-execution (19 R432). -/
  replay : List Held
  /-- Addresses already rolled back for in this interval (19 R428). -/
  rolled : List Nat
  /-- The shadow copy: the waves and the scratchpad at the interval's beginning (19 R430). -/
  shadowWaves : List Wave
  shadowSp : List Host.Cell
  shadowBad : List (Nat × Bool)
  /-- Words that the team keeps for itself until the buffer is released: an atomic has read them in memory beside held bytes
  (10 R277, 19 R432). -/
  locked : List Nat
  deriving DecidableEq, Repr

/-- A team's place in its life (02 R35, R58; 18 R415); `lost` once its core has been reset (11 R305). -/
inductive TState where
  | resident | saved | ended | lost
  deriving DecidableEq, Repr

/-- A withdrawn hacq request kept in a saved team's image (09 R261). -/
structure Withdrawn where
  wave : Nat
  flag : Nat
  handle : Word
  write : Bool
  deriving DecidableEq, Repr

/-- One team. `peer` is the trailing team of a cross-core group, or the leading one (19 R447). -/
structure Team where
  id : Nat
  grid : Nat
  t : Nat
  core : Nat
  state : TState
  peer : Option Nat
  trailing : Bool
  /-- Where the allocation begins in the core's scratchpad (02 R36). -/
  spBase : Nat
  sp : List Host.Cell
  spBad : List (Nat × Bool)
  /-- Dirty bits of the 256-byte blocks of the allocation (19 R430). -/
  spDirty : List (Nat × Bool)
  /-- Stage queues: key (spatial index)·4 + sending stage, oldest entry first (14 R341). -/
  queues : List (Nat × List Word)
  stash : List Stash
  gatherings : List Gathering
  interval : Interval
  saveReq : Bool
  withdrawn : List Withdrawn
  /-- Where in HBM the image of a saved team that has left the shadow store stands, and the number of what was written there
  (18 R416). -/
  area : Option (Nat × Nat)
  /-- What an uncorrectable error has marked of the team's image or shadow copy in the shadow store that is neither a register, an
  accumulator nor scratchpad: waves, by 1 plus their id, or the team's own, 0 (19 Table 19-1). -/
  imageBad : List Nat
  deriving DecidableEq, Repr

/-- The fields of a launch record's snapshot (02 Table 02-1). A slot is its 16 bytes as a little-endian number. -/
structure Launch where
  entry : Nat
  params : Nat
  gx : Nat
  gy : Nat
  gz : Nat
  nthreads : Nat
  waves : Nat
  stages : Nat
  stageDepth : Nat
  vregs : Nat
  accs : Nat
  gang : Nat
  shadow : Bool
  xredun : Bool
  recov : Bool
  spBytes : Nat
  yieldMax : Nat
  prio : Nat
  keybind : Option Nat
  stampAddr : Nat
  stampVal : Nat
  depAddr : Nat
  depVal : Nat
  seedBase : Nat
  slots : List Nat
  deriving DecidableEq, Repr

/-- A grid's place in its life; `halted` is the wait for service action 2, 3 or 4 once its teams are saved, and `failed` the
wait for action 2 or 4 after a consumption (19 R428, R439). -/
inductive GState where
  | running | halting | halted | failed | completed | ended
  deriving DecidableEq, Repr

/-- One grid: its snapshot and how far it has come. -/
structure Grid where
  id : Nat
  recAddr : Nat
  ctx : Nat
  part : Nat
  /-- The launch queue it was taken from. -/
  queue : Nat
  launch : Launch
  state : GState
  nextTeam : Nat
  ended : Nat
  /-- The team that fits nowhere has waited 65,536 cycles (14 R346). -/
  expired : Bool
  /-- The grid waits in the aggregator for children to merge with (14 R350). -/
  aggregating : Bool
  /-- Children merged into this grid: record address and snapshot of each (14 R350). -/
  merged : List (Nat × Launch)
  /-- The generation of a requested hull that is not yet sealed (19 R439). -/
  hullReq : Option Nat
  /-- The record of kind 8, code 2, written when every team is saved (19 R428). -/
  recover : Option Rec
  /-- The newest generation restored (19 R443). -/
  restored : Nat
  deriving DecidableEq, Repr

/-! ## Memory and the operations in flight -/

/-- A mark on a 16-byte word (19 R426, R449). -/
inductive Mark where
  | ok | poison | lost
  deriving DecidableEq, Repr

/-- A store that a core's L1 has taken and that has still to be performed for other cores (10 R279, R284). Ids rise in the
order in which the stores entered the L1. -/
structure Pend where
  id : Nat
  core : Nat
  word : Nat
  bytes : List (Nat × BitVec 8)
  /-- Stores of the core with an id below this one are performed first (10 R273). -/
  after : Nat
  /-- The number of the store's issue: engine operations issued before it come before it on their words (09 R262). -/
  since : Nat
  /-- The page-table entries the store was translated under: place, and how often it had been overwritten (10 R285). -/
  via : List (Nat × Nat)
  /-- The team that stored: tenures of other teams stand against it (09 R259). -/
  team : Nat
  /-- The cache hint of the store (09 R252). -/
  hint : Nat
  /-- The length proposed for its fill run (09 R245). -/
  lp : Nat
  /-- The number of the latest issue whose bytes it holds. -/
  last : Nat
  deriving DecidableEq, Repr

/-- How a cache holds a word (09 R248, R251, R266). The value of a word held `shared`, `exclusive` or `modified` is the one that
`mem` gives; the other two hold bytes, and a mark, of their own. -/
inductive CWord where
  | shared
  | exclusive
  | modified
  /-- Overwritten at its home since: the invalidation is on its way. `at_` is the value of `nextId` then. -/
  | stale (bytes : List (BitVec 8)) (mark : Mark) (at_ : Nat)
  /-- A word of a software-managed page, or of a replica. -/
  | own (bytes : List (BitVec 8)) (dirty : Bool) (mark : Mark)
  deriving DecidableEq, Repr

/-- A cache block: a run of words of one frame (09 R244). `cache` is a core's number for its L1, 512 plus the number of an L2
slice, or 1,024 plus a stop of Chord for the replicas in the slice that stands there. A block of a core's `stash` holds words that
a team there has mapped, outside its L1 (09 R242). -/
structure CBlock where
  cache : Nat
  frame : Nat
  start : Nat
  words : List CWord
  hint : Nat
  stash : Bool
  deriving DecidableEq, Repr

/-- A request of a core to a home slice: a miss request of its L1 with its fill run, and whether it asks for the exclusive state; or,
with `op`, the request of an operation that is performed at the home. `queued`: whether it has been admitted to the slice's queue of
32 or waits outside it in the request class (09 R245, R250; 12 R325 to R327). -/
structure Fill where
  core : Nat
  slice : Nat
  frame : Nat
  start : Nat
  len : Nat
  excl : Bool
  hint : Nat
  repl : Bool
  queued : Bool
  op : Option Nat
  deriving DecidableEq, Repr

/-- An entry of the TLB of a core, or of the cluster 512 + n: the virtual page (of 256 MiB where `large`), the leaf and its
place, and the entries the walk read (18 R404). -/
structure Tlb where
  unit : Nat
  ctx : Nat
  page : Nat
  large : Bool
  leafLoc : Nat
  leaf : Nat
  via : List (Nat × Nat)
  deriving DecidableEq, Repr

/-- An entry of the monitor table of a slice: the wave that waits, the word it watches, and whether that word has been
written since (10 R283, 11 R300), and whether an uncorrectable error has marked the entry (19 Table 19-1). -/
structure Monitor where
  slice : Nat
  wave : Nat
  word : Nat
  hit : Bool
  bad : Bool
  deriving DecidableEq, Repr

/-- A word of this device that another device caches, as the directory of its home records it (09 R264). -/
structure Guest where
  holder : Nat
  word : Nat
  excl : Bool
  deriving DecidableEq, Repr

/-- Where one thread's access goes: a physical location, or a byte of a team's scratchpad. -/
inductive Place where
  | mem (loc : Nat)
  | sp (team off : Nat)
  deriving DecidableEq, Repr

/-- One thread's part of a memory access: the thread, the place of each of its bytes, and its address. -/
structure Access where
  thread : Nat
  places : List Place
  addr : Nat
  deriving DecidableEq, Repr

/-- A range of locations, or of a team's scratchpad, that an operation in flight reads or writes (09 R263). -/
structure Rng where
  sp : Option Nat
  lo : Nat
  len : Nat
  deriving DecidableEq, Repr

/-- How a load goes through the caches: the hint, the length proposed for its fill runs, whether it may use a replica, and the
64 KiB pages it reads that are not cached (09 R245, R247, R252). -/
structure LoadHow where
  hint : Nat
  lp : Nat
  repl : Bool
  direct : List Nat
  deriving DecidableEq, Repr

/-- How a store goes through the caches: to its home, the hint, and the length proposed for its fill runs (09 R245, R252). -/
structure StoreHow where
  home : Bool
  hint : Nat
  lp : Nat
  deriving DecidableEq, Repr

/-- A row range of an engine copy or one command of a matrix or key unit, waiting to be performed. -/
inductive OpKind where
  /-- `got` holds the bytes read so far, by thread and place in the access. -/
  | load (size : Nat) (d : Nat) (how : LoadHow) (acc : List Access) (got : List (Nat × Nat × BitVec 8))
  | store (how : StoreHow) (acc : List (Access × Nat))
  /-- `own`: its core takes ownership of a word it does not own, and updates it in its L1 (11 R295). -/
  | atom (op : AtomOp) (size : Nat) (ret : Bool) (order scope : Nat) (b : Nat) (own : Bool) (acc : List (Access × Nat × Nat))
  | racq (victim : Nat) (rngs : List Rng)
  | flush (inval : Bool) (scope : Nat) (rngs : List Rng)
  | rmode (coherent : Bool) (pages : List Nat)
  | copy (desc : List (BitVec 8)) (off : Nat) (slices : List (Nat × Nat × Nat × Nat))
  | rows (scatter : Bool) (desc : List (BitVec 8)) (off : Nat) (idx : List (Nat × Word))
  | compact (desc : List (BitVec 8)) (off : Nat)
  | pfetch (hint : Nat) (rngs : List Rng)
  | mma (param : List (BitVec 8)) (paramOff aslot : Nat) (lattice : Option Nat) (accepted : Bool) (skip passes : Nat)
  | tile (minor c : Nat)
  /-- `places`: where each byte of the scratchpad range lies (09 R242). -/
  | tileRows (write : Bool) (c sp rows slot : Nat) (seed : Word) (places : List Place)
  | colload (desc : List (BitVec 8)) (descOff : Nat)
  | qcopy (desc : List (BitVec 8)) (descOff slot : Nat) (lattice : Option Nat) (seed : Word)
  | hacq (write : Bool) (h : Word)
  | hrel (down : Bool) (h : Word)
  | key (minor k face : Nat) (f1 : Nat) (todo : List (Nat × Word × Word)) (done : List RegWrite)
  | list (minor n : Nat) (f1 : Nat) (todo : List (Nat × Word)) (done : List RegWrite)
  | krebal (k f1 : Nat)
  /-- The stamp of a completed grid, or of a child of a merged one, with the launch record it belongs to (02 R59). -/
  | stamp (grid recAddr addr val : Nat)
  | result (writes : List RegWrite)
  deriving DecidableEq, Repr

/-- An operation in flight: who issued it, at which PC and with which lowest thread, and the flag it counts on. Ids rise in
issue order. -/
structure Op where
  id : Nat
  wave : Nat
  team : Nat
  pc : Nat
  thread : Nat
  flag : Nat
  kind : OpKind
  /-- The page-table entries its addresses were translated under: place, and how often it had been overwritten (10 R285). -/
  via : List (Nat × Nat)
  /-- Whether the issuing wave was in system mode. -/
  sys : Bool
  /-- What an engine operation reads and writes, on the range scoreboard until it completes (09 R263). -/
  reads : List Rng
  writes : List Rng
  deriving DecidableEq, Repr

/-- A store, red or atom issue that a leader's compare buffer holds (19 R445): its signature and the operation. -/
structure HeldIssue where
  wave : Nat
  sig : BitVec 32
  op : Op
  pc : Nat
  addr : Nat
  /-- An armed injection inverts bit 0 of the trailer's signature of this issue (19 Table 19-8, KIND 3). -/
  flip : Bool
  deriving DecidableEq, Repr

/-! ## Clusters, tenure, pins -/

/-- The cluster state of the matrix engine (08 R201 to R203, R220). `tiles` is keyed by byte:
(2·tile + physical bank)·65,536 + 4·(128·row + column); `cols` by 49,152·slice + offset. -/
structure Cluster where
  id : Nat
  tiles : List Host.Cell
  cols : List Host.Cell
  colBad : List (Nat × Bool)
  swapped : List (Nat × Bool)
  tokens : List (Nat × Nat)
  epoch : Word
  lastCtx : Option Nat
  deriving DecidableEq, Repr

/-- A tensor tile: base, extents and strides, element size, format and prefetch hint (09 R257; 11 Table 11-10). -/
structure Tile where
  base : Nat
  esize : Nat
  elem : Nat
  hint : Nat
  dims : List (Nat × Int)
  deriving DecidableEq, Repr

/-- An open handle of a context (11 R318). -/
structure Handle where
  ctx : Nat
  index : Nat
  serial : Nat
  tile : Tile
  deriving DecidableEq, Repr

/-- An entry of a tenure table, and whether an uncorrectable error has marked it (09 R257, R258; 19 Table 19-1). Entries stand
oldest first. -/
structure Tenure where
  slice : Nat
  ctx : Nat
  index : Nat
  serial : Nat
  team : Nat
  write : Bool
  tile : Tile
  bad : Bool
  /-- The pages of the tile's bounding box: virtual page, and the page it stood on at the grant. -/
  pages : List (Nat × Nat)
  deriving DecidableEq, Repr

/-- A live pin window (09 R253, R254). -/
structure Pin where
  num : Nat
  part : Nat
  ctx : Nat
  vbase : Nat
  vlen : Nat
  budget : Nat
  slices : List Nat
  pages : List Nat
  deriving DecidableEq, Repr

/-- An arrival held in a pending-arrival queue (11 R305). -/
structure PendingArrival where
  team : Nat
  id : Nat
  count : Nat
  deriving DecidableEq, Repr

/-! ## Partitions, contexts, queues, keyspaces -/

/-- A partition (18 R396; 21 Table 21-9). -/
structure Partition where
  id : Nat
  secure : Bool
  slices : List Nat
  ways : List Nat
  hbmShare : Nat
  clusters : List Nat
  ctxs : List Nat
  refuge : Nat
  refugeLen : Nat
  salvage : Nat
  halted : Bool
  haltReq : Bool
  deriving DecidableEq, Repr

/-- A context: the device's copy of its record and its own tables (18 Table 18-4; 11 R318; 19 R439). -/
structure Context where
  id : Nat
  record : Nat
  root : Nat
  part : Nat
  debug : Bool
  fqLog : Nat
  fqBase : Nat
  fqHead : Nat
  pinLimit : Nat
  pinUsed : Nat
  saveArea : Nat
  serials : List (Nat × Nat)
  hullGen : Nat
  deriving DecidableEq, Repr

/-- A launch queue as the device holds it (14 R344, R345; 18 Table 18-3). -/
structure Queue where
  part : Nat
  q : Nat
  ring : Nat
  ctx : Nat
  level : Nat
  head : Nat
  tail : Nat
  /-- Takes that passed the ready head over. -/
  passed : Nat
  /-- When the head became ready, among the heads of its partition: they rise in that order; `none` while it is not. -/
  readyAt : Option Nat
  /-- The entries, by their count since the queue was set up, that a spawn wrote (14 R348, R350). -/
  spawned : List Nat
  deriving DecidableEq, Repr

/-- A work list (15 R382 to R384). -/
structure WorkList where
  part : Nat
  n : Nat
  lcap : Nat
  dedup : Bool
  scap : Nat
  keys : List Word
  dropped : Nat
  deriving DecidableEq, Repr

/-- One cut move of a rebalance (15 R379, R380). -/
structure Move where
  j : Nat
  old : Nat
  target : Nat
  /-- Waiting steps spent so far. -/
  waited : Nat
  /-- Where the move has stopped short. -/
  stop : Option Nat
  deriving DecidableEq, Repr

/-- A rebalance in progress (15 R377 to R381): before its snapshot, or with the moves still to make. -/
structure Rebalance where
  snapped : Bool
  targets : List (Nat × Nat)
  move : Option Move
  deriving DecidableEq, Repr

/-- A bound keyspace: the authoritative registers (15 R360, R364). -/
structure Keyspace where
  part : Nat
  k : Nat
  desc : Nat
  dim : Nat
  lmax : Nat
  bdie : Nat
  bctx : Nat
  freeBase : Nat
  freeCap : Nat
  freeTop : Nat
  gen : Nat
  rebStamp : Nat
  /-- Table base, owner core, log2 slots and live count of each sector. -/
  sectors : List (Nat × Nat × Nat × Nat)
  /-- Cuts 1 to S − 1. -/
  cuts : List Nat
  rebalance : Option Rebalance
  unbindReq : Bool
  deriving DecidableEq, Repr

/-- A hull the device has written: where, what, and the bytes its image held (19 R438 to R443). -/
structure Hull where
  slot : Nat
  gen : Nat
  grid : Nat
  ctx : Nat
  bytes : List (BitVec 8)
  teams : List Team
  waves : List Wave
  deriving DecidableEq, Repr

/-! ## The outside (21) -/

/-- A Releitis link: in service, whether the flit in hand has been asked for again, its failed resends, spare lanes left
(19 R451). -/
structure Link where
  n : Nat
  up : Bool
  asked : Bool
  resends : Nat
  spares : Nat
  deriving DecidableEq, Repr

/-- A management mailbox (21 Table 21-6): MBSTAT, MBCMD, the bytes of MBARG and MBRES by offset, and the argument that the command under
way was started with (21 R468). Log entry 71 (DEDUCED). -/
structure Mailbox where
  stat : BitVec 32
  cmd : BitVec 32
  arg : List Host.Cell
  taken : List Host.Cell
  res : List Host.Cell
  deriving DecidableEq, Repr

/-- The host's and the management firmware's faces (21 Tables 21-1 to 21-6, R470). Log entry 68 (DEDUCED). -/
structure Outside where
  stage : Nat
  bootError : Nat
  therm : Nat
  clkMhz : Nat
  counts : Word
  power : Nat
  box : Mailbox
  /-- The management port's own command, argument and result (21 R468). -/
  port : Mailbox
  /-- Context pages: VECTOR, RSTAT and the service fields, by byte offset in BAR0. -/
  bar0 : List Host.Cell
  /-- The value the last host read returned (BAR0, BAR2, AtomicOp or CXL). -/
  readback : BitVec 128
  /-- CTRL and SETUP of the partition pages, by partition (21 Table 21-1). -/
  ctrl : List (Nat × Nat)
  setup : List (Nat × Nat)
  /-- MSI-X vectors signalled, oldest first: the virtual function, and its vector (18 R408; 21 R460). -/
  signals : List (Nat × Nat)
  device : Nat
  /-- Devices reached over Releitis, with the links that reach each (21 R465). -/
  routes : List (Nat × List Nat)
  links : List Link
  /-- Corrected counts and states by (kind, index) (19 R452; 21 Table 21-10). -/
  corrected : List ((Nat × Nat) × Nat)
  /-- Those of the present runs (19 R452). -/
  runErrors : List ((Nat × Nat) × Nat)
  /-- Units to be replaced at the next gap between runs: worn ones, and those that have failed (19 R452). -/
  due : List (Nat × Nat)
  units : List ((Nat × Nat) × Nat)
  /-- Physical sites of clusters (kind 1) and slices (kind 2) that a spare serves, by (kind, logical number) (01 R18, R21). -/
  sites : List ((Nat × Nat) × Nat)
  failedHomes : List Home
  /-- Homes that have failed and whose census has not ended (19 R450). -/
  downHomes : List Home
  /-- Whether the part is reported as failing its guarantee, a quadrant having fewer than 11 active lanes (01 R17, R22). -/
  failing : Bool
  /-- 64 KiB pages (location / 65,536) that reach host memory as plain PCIe memory (11 R295). -/
  pcie : List Nat
  apexLog : List Rec
  deriving DecidableEq, Repr

/-- Whose move is next: a wave issues, or an event of the device happens. -/
inductive Turn where
  | issue (wave : Nat)
  | event (i : Instr)
  deriving DecidableEq, Repr

/-- The machine. Log entry 1 (DESIGN CHOICE). -/
structure State where
  /-- The wave whose instruction `exec` performs. -/
  cur : Nat
  agenda : List Turn
  /-- The free-value counter; the model's own. -/
  tick : Nat
  nextId : Nat
  mem : List Host.Cell
  marks : List (Nat × Mark)
  /-- Region tags by 2 MiB region number: (secure, owner) (18 R394). -/
  tags : List (Nat × (Bool × Nat))
  swm : List (Nat × Bool)
  /-- Stores that an L1 holds, in the order they entered it. -/
  pend : List Pend
  /-- The blocks of the L1s and of the L2 slices. -/
  blocks : List CBlock
  /-- Miss requests, in the order they reached the slices. -/
  fills : List Fill
  tlbs : List Tlb
  monitors : List Monitor
  guests : List Guest
  /-- How often a store has overwritten an aligned 8 bytes, by location / 8: what tells a page-table entry that has been replaced
  from one that has not (10 R285). -/
  gens : List (Nat × Nat)
  /-- For a word, the value of `nextId` by which all that happens before its writes had been performed: an acquire that reads it needs
  no invalidation that came later (10 R275, R279). -/
  known : List (Nat × Nat)
  /-- The key under which a 64 KiB page was last used (18 R395): 0 for none, and otherwise 1 plus the key's material. -/
  pageKeys : List (Nat × Nat)
  /-- Words that stand enciphered under another key than their page was last used with, by word: that key, their bytes under it, and
  what they decrypt to under the page's (18 R395). -/
  ciphers : List (Nat × (Nat × List (BitVec 8) × List (BitVec 8)))
  waves : List Wave
  teams : List Team
  grids : List Grid
  ops : List Op
  held : List HeldIssue
  clusters : List Cluster
  gated : List (Nat × Bool)
  /-- LANEMAP.GOOD by 4·core + quadrant (07 R180). -/
  lanemap : List (Nat × BitVec 17)
  arrivals : List PendingArrival
  handles : List Handle
  tenures : List Tenure
  pins : List Pin
  parts : List Partition
  shared : List Nat
  keys : List (Nat × (Nat × List (BitVec 8)))
  ctxs : List Context
  queues : List Queue
  lists : List WorkList
  keyspaces : List Keyspace
  records : List Rec
  hulls : List Hull
  /-- Waves that wait, Issuing, for something other than their own turn (04 R88, 19 R445). -/
  stalled : List Nat
  out : Outside
  deriving DecidableEq, Repr

/-- Why a run stops with a fault of the model: none is a fault of the device, whose faults park a wave. -/
inductive Fault where
  /-- `exec` was given an instruction of a wave and the state's `cur` names no wave with a selected entry.
  Raised by the issue wrapper; `step` never reaches it. Safe. -/
  | noIssuingWave
  deriving DecidableEq, Repr

/-- Why an instruction has no meaning here. -/
inductive Refusal where
  /-- The instruction has no meaning yet: raised by an arm of `exec`. Safe. -/
  | notModelled (mnemonic : String)
  deriving DecidableEq, Repr

/-- BAR0 and the management state after device reset (21 Tables 21-4, 21-5, 21-6). The values the spec gives are 0;
the others are those of log entry 6. -/
def Outside.reset : Outside where
  stage := 0
  bootError := 0
  therm := 0
  clkMhz := 0
  counts := 0
  power := 3000
  box := ⟨0, 0, [], [], []⟩
  port := ⟨0, 0, [], [], []⟩
  bar0 := []
  readback := 0
  ctrl := []
  setup := []
  signals := []
  device := 0
  routes := []
  links := (List.range 18).map fun n => ⟨n, true, false, 0, 8⟩
  corrected := []
  runErrors := []
  due := []
  units := []
  sites := []
  failedHomes := []
  downHomes := []
  failing := false
  pcie := []
  apexLog := []

/-- The machine right after device reset, before Apex firmware runs: nothing is set up and nothing is in flight. Log entry 6 (DESIGN CHOICE). -/
def State.reset : State where
  cur := 0
  agenda := []
  tick := 0
  nextId := 0
  mem := []
  marks := []
  tags := []
  swm := []
  pend := []
  blocks := []
  fills := []
  tlbs := []
  monitors := []
  guests := []
  gens := []
  known := []
  pageKeys := []
  ciphers := []
  waves := []
  teams := []
  grids := []
  ops := []
  held := []
  clusters := []
  gated := []
  lanemap := []
  arrivals := []
  handles := []
  tenures := []
  pins := []
  parts := []
  shared := []
  keys := []
  ctxs := []
  queues := []
  lists := []
  keyspaces := []
  records := []
  hulls := []
  stalled := []
  out := Outside.reset

end Sys2Proof.Machine
end

