-- ==== Sys2Proof/Machine/Maps.lean ====
section
/-! DEFINITION. Sparse maps, bytes and numbers, looking pieces of the state up and putting them back, and the places of the
device. -/

namespace Sys2Proof.Machine

/-! ## Sparse maps: a list of keys and values in one canonical form -/

/-- The value at key `i`; `d` where none is listed. Log entry 1 (DESIGN CHOICE). -/
def get {α : Type} (d : α) : List (Nat × α) → Nat → α
  | [], _ => d
  | (k, x) :: m, i => if k = i then x else get d m i

/-- The map without key `i`. -/
def del {α : Type} : List (Nat × α) → Nat → List (Nat × α)
  | [], _ => []
  | (k, x) :: m, i => if k = i then del m i else (k, x) :: del m i

/-- An entry put before the first greater key. -/
def ins {α : Type} : List (Nat × α) → Nat → α → List (Nat × α)
  | [], i, y => [(i, y)]
  | (k, x) :: m, i, y => if i < k then (i, y) :: (k, x) :: m else (k, x) :: ins m i y

/-- The map with `y` at key `i`; writing the default removes the entry. Log entry 1 (DESIGN CHOICE). -/
def put {α : Type} [DecidableEq α] (d : α) (m : List (Nat × α)) (i : Nat) (y : α) : List (Nat × α) :=
  if y = d then del m i else ins (del m i) i y

/-- The canonical form: keys strictly rising, and no entry equal to the default. -/
def canon {α : Type} [DecidableEq α] (d : α) : List (Nat × α) → Bool
  | [] => true
  | [(_, x)] => decide (x ≠ d)
  | (k, x) :: (k', x') :: m => decide (x ≠ d) && decide (k < k') && canon d ((k', x') :: m)

/-- Memory in its canonical form: a byte that nothing has written reads as 0 (log entry 1). -/
def Memory.wf (m : List Host.Cell) : Bool := canon (0#8) m

/-! ## Bytes and numbers (00 R5) -/

/-- The little-endian number of a byte list. -/
def leNat : List (BitVec 8) → Nat
  | [] => 0
  | b :: bs => b.toNat + 256 * leNat bs

/-- The n low bytes of a number, little-endian. -/
def leBytes : Nat → Nat → List (BitVec 8)
  | 0, _ => []
  | n + 1, x => BitVec.ofNat 8 x :: leBytes n (x / 256)

/-- A number's bits [lo + n − 1 : lo]. -/
def bitsN (x lo n : Nat) : Nat := x / 2 ^ lo % 2 ^ n

/-- The signed value of an n-bit number. -/
def toSigned (n x : Nat) : Int := if 2 * (x % 2 ^ n) < 2 ^ n then (x % 2 ^ n : Nat) else (x % 2 ^ n : Nat) - (2 ^ n : Nat)

/-- An integer modulo 2^n. -/
def wrapN (n : Nat) (i : Int) : Nat := (i % (2 ^ n : Nat)).toNat

/-- The threads of a mask in ascending order. -/
def threads (m : BitVec 32) : List Nat := (List.range 32).filter fun t => m.getLsbD t

/-- The mask of the threads that satisfy a test. -/
def maskOf (f : Nat → Bool) : BitVec 32 :=
  (List.range 32).foldl (fun m t => if f t then m ||| BitVec.twoPow 32 t else m) 0

/-! ## Looking things up and putting them back -/

/-- The wave with an id. -/
def State.wave? (s : State) (id : Nat) : Option Wave := s.waves.find? fun w => w.id == id

/-- A wave written back under its id. -/
def State.setWave (s : State) (w : Wave) : State :=
  { s with waves := s.waves.map fun x => if x.id = w.id then w else x }

/-- A change to the wave with an id. -/
def State.updWave (s : State) (id : Nat) (f : Wave → Wave) : State :=
  { s with waves := s.waves.map fun x => if x.id = id then f x else x }

/-- The team with an id. -/
def State.team? (s : State) (id : Nat) : Option Team := s.teams.find? fun t => t.id == id

/-- A change to the team with an id. -/
def State.updTeam (s : State) (id : Nat) (f : Team → Team) : State :=
  { s with teams := s.teams.map fun x => if x.id = id then f x else x }

/-- The grid with an id. -/
def State.grid? (s : State) (id : Nat) : Option Grid := s.grids.find? fun g => g.id == id

/-- A change to the grid with an id. -/
def State.updGrid (s : State) (id : Nat) (f : Grid → Grid) : State :=
  { s with grids := s.grids.map fun x => if x.id = id then f x else x }

/-- The context with a number. -/
def State.ctx? (s : State) (id : Nat) : Option Context := s.ctxs.find? fun c => c.id == id

/-- A change to the context with a number. -/
def State.updCtx (s : State) (id : Nat) (f : Context → Context) : State :=
  { s with ctxs := s.ctxs.map fun x => if x.id = id then f x else x }

/-- The partition with a number. -/
def State.part? (s : State) (id : Nat) : Option Partition := s.parts.find? fun p => p.id == id

/-- A change to the partition with a number. -/
def State.updPart (s : State) (id : Nat) (f : Partition → Partition) : State :=
  { s with parts := s.parts.map fun x => if x.id = id then f x else x }

/-- The cluster state of a cluster; the reset state where none is listed. -/
def State.cluster (s : State) (id : Nat) : Cluster :=
  (s.clusters.find? fun c => c.id == id).getD ⟨id, [], [], [], [], [], 0, none⟩

/-- A cluster's state written back. -/
def State.setCluster (s : State) (c : Cluster) : State :=
  { s with clusters := c :: s.clusters.filter fun x => x.id != c.id }

/-- The operation in flight with an id. -/
def State.op? (s : State) (id : Nat) : Option Op := s.ops.find? fun o => o.id == id

/-- The operation with an id taken away, and its requests with it. -/
def State.dropOp (s : State) (id : Nat) : State :=
  { s with ops := s.ops.filter fun o => o.id != id, fills := s.fills.filter fun f => f.op != some id }

/-- A change to the outside. -/
def State.updOut (s : State) (f : Outside → Outside) : State := { s with out := f s.out }

/-- The next value of the free-value counter taken (log entry 2). -/
def State.bump (s : State) : State := { s with tick := s.tick + 1 }

/-- The waves of a team. -/
def State.wavesOf (s : State) (team : Nat) : List Wave := s.waves.filter fun w => w.team == team

/-- The teams of a grid. -/
def State.teamsOf (s : State) (grid : Nat) : List Team := s.teams.filter fun t => t.grid == grid

/-! ## Places of the device (01 R10, R18) -/

/-- The value listed for a pair of numbers; `d` where none is. -/
def at2 {α : Type} (d : α) (l : List ((Nat × Nat) × α)) (i : Nat × Nat) : α := ((l.find? fun p => p.1 == i).map (·.2)).getD d

/-- The physical site of a logical cluster (kind 1) or slice (kind 2): at first sites 0 to 63 of each die's 68 serve the numbers
in order and the last four are the spares, a mapping that the spec leaves to Apex firmware; later the site that firmware has
named (01 R18, R21). Log entry 83 (DESIGN CHOICE). -/
def siteOf (s : State) (kind n : Nat) : Nat := at2 (n / 64 * 68 + n % 64) s.out.sites (kind, n)

/-- The state of a unit: 0 in service, 1 spare, 2 replaced, 3 fused off. At first the last lane of a quadrant, the last four
sites of a die, the last channel of a stack and the lanes of a link from 8 on are spares (01 R19; 21 Table 21-10). Which lane of a quadrant
and which sites of a die are the spares the spec leaves open. Log entry 83 (DESIGN CHOICE). -/
def unitState (s : State) (kind i : Nat) : Nat :=
  let spare := match kind with
    | 0 => i % 17 == 16
    | 1 | 2 => decide (64 ≤ i % 68)
    | 3 => i % 33 == 32
    | 6 => decide (8 ≤ i % 16)
    | _ => false
  at2 (if spare then 1 else 0) s.out.units (kind, i)

/-- Clusters (kind 1) or slices (kind 2) of a die that are in service. -/
def inService (s : State) (kind die : Nat) : Nat := min 64 ((List.range 68).countP fun i => unitState s kind (68 * die + i) == 0)

/-- Whether a logical number of a cluster or slice counts an enabled unit: those of a die are 0 to one less than its count
(01 R18, R22). -/
def enabled (s : State) (kind n : Nat) : Bool := decide (n < 128) && decide (n % 64 < inService s kind (n / 64))

/-- The cluster of a core. -/
def clusterOf (core : Nat) : Nat := core / 4

/-- The die of a core. -/
def dieOf (core : Nat) : Nat := core / 256

/-- The quadrant of a wave with team wave index w (02 R35). -/
def quadrantOf (w : Nat) : Nat := w % 4

/-- Bytes of one home device's physical address space. -/
def homeSpan : Nat := 2 ^ 52

/-- The home number that stands for host memory (09 R264). Log entry 31 (DEDUCED). -/
def hostHome : Nat := 1024

/-- The location of a physical address at this device. Log entry 30 (DEDUCED). -/
def State.here (s : State) (pa : Nat) : Nat := s.out.device * homeSpan + pa % homeSpan

end Sys2Proof.Machine
end

