-- ==== Sys2Proof/Machine/Cache.lean ====
section
/-! DEFINITION. Memory at its home, the blocks of the caches, the stores that an L1 holds, and the requests of a miss
(01 R10 to R12; 09 R244 to R254, R266; 10 R273, R276, R279; 12 R325 to R327). -/

namespace Sys2Proof.Machine

/-! ## Memory at its home -/

/-- A byte as the last write performed left it. Log entry 1 (DESIGN CHOICE). -/
def readHome (s : State) (loc : Nat) : BitVec 8 := get 0#8 s.mem loc

/-- n bytes as the last writes performed left them, little-endian. -/
def readHomeN (s : State) (loc n : Nat) : Nat := leNat ((List.range n).map fun i => readHome s (loc + i))

/-- The sixteen bytes of a word. -/
def wordBytes (s : State) (word : Nat) : List (BitVec 8) := (List.range 16).map fun i => readHome s (16 * word + i)

/-- Whether bytes (by offset) cover a whole word. -/
def coversWord (bytes : List (Nat × BitVec 8)) : Bool := (List.range 16).all fun o => bytes.any fun b => b.1 == o

/-- Whether the page of a location is software-managed (09 R266). -/
def isSwm (s : State) (loc : Nat) : Bool := get false s.swm (loc / 65536)

/-! ## Blocks (09 R244) -/

/-- Whether a block holds a word: it lies in the block's frame, between its start and its end. -/
def CBlock.has (b : CBlock) (word : Nat) : Bool :=
  b.frame == word / 16 && decide (b.start ≤ word % 16) && decide (word % 16 < b.start + b.words.length)

/-- How a block holds a word. -/
def CBlock.word? (b : CBlock) (word : Nat) : Option CWord := if b.has word then b.words[word % 16 - b.start]? else none

/-- A block with one of its words set. -/
def CBlock.setWord (b : CBlock) (word : Nat) (x : CWord) : CBlock :=
  if b.has word then { b with words := b.words.set (word % 16 - b.start) x } else b

/-- How a cache holds a word. -/
def held? (s : State) (cache word : Nat) : Option CWord :=
  (s.blocks.filter fun b => b.cache == cache).findSome? fun b => b.word? word

/-- A word that a cache holds set. -/
def State.setHeld (s : State) (cache word : Nat) (x : CWord) : State :=
  { s with blocks := s.blocks.map fun b => if b.cache = cache then b.setWord word x else b }

/-- A word whose value is the one that memory gives. -/
def CWord.coherent : CWord → Bool
  | .shared | .exclusive | .modified => true
  | _ => false

/-- A block once a word has been overwritten: the copy of an L1 waits for its invalidation with the bytes it holds, and that of
the home slice has the new value (09 R248). Log entry 9 (DEDUCED). -/
def CBlock.overwritten (old : List (BitVec 8)) (mark : Mark) (now word : Nat) (b : CBlock) : CBlock :=
  match b.word? word with
  | some x =>
    if !x.coherent then b
    else if b.cache < 512 then b.setWord word (.stale old mark now) else b.setWord word .modified
  | none => b

/-- A write of some bytes of one word performed. A write of every byte clears the word's mark or gives it the mark the data
carries; a partial write leaves it (19 R426, R427). Every other copy of the word is on its way out, one at another device too; a TLB entry that was filled
from it is dropped (18 R404), a monitor on it is met (10 R283), what it overwrites counts one overwriting more (10 R285), and all that
happens before it has been performed (10 R275). -/
def commitWord (s : State) (word : Nat) (bytes : List (Nat × BitVec 8)) (mk : Mark) : State :=
  let old := get Mark.ok s.marks word
  let mark := if mk ≠ .ok then mk else if coversWord bytes then .ok else old
  { s with
    mem := bytes.foldl (fun m b => put 0#8 m (16 * word + b.1) b.2) s.mem
    marks := put Mark.ok s.marks word mark
    blocks := s.blocks.map (CBlock.overwritten (wordBytes s word) old s.nextId word)
    tlbs := s.tlbs.filter fun t => !(t.via.any fun v => v.1 / 16 == word)
    guests := s.guests.filter fun g => g.word != word
    monitors := s.monitors.map fun m => if m.word = word then { m with hit := true } else m
    gens := ((bytes.map fun b => (16 * word + b.1) / 8).dedup).foldl (fun m k => put 0 m k (get 0 m k + 1)) s.gens
    known := put 0 s.known word s.nextId }

/-- The bytes at consecutive locations cut into words: (word, bytes by offset). -/
def cutWords : Nat → List (BitVec 8) → List (Nat × List (Nat × BitVec 8))
  | _, [] => []
  | loc, b :: bs =>
    match cutWords (loc + 1) bs with
    | (w, l) :: rest =>
      if w = loc / 16 then (w, (loc % 16, b) :: l) :: rest else (loc / 16, [(loc % 16, b)]) :: (w, l) :: rest
    | [] => [(loc / 16, [(loc % 16, b)])]

/-- Consecutive bytes written, word by word. -/
def writeHome (s : State) (loc : Nat) (bytes : List (BitVec 8)) : State :=
  (cutWords loc bytes).foldl (fun s p => commitWord s p.1 p.2 .ok) s

/-- A number of n bytes written. -/
def writeHomeN (s : State) (loc n x : Nat) : State := writeHome s loc (leBytes n x)

/-! ## Homes (09 R250, R253; 18 R397) -/

/-- The region tag of a location: secure, and owner with 31 for shared (18 R394). -/
def tagAt (s : State) (loc : Nat) : Bool × Nat := get (false, 31) s.tags (loc / 2 ^ 21)

/-- The number h of R250 for a physical address over n slices. -/
def sliceHash (n pa : Nat) : Nat :=
  let w := Nat.log2 n
  if w = 0 then 0 else
  (List.range 52).foldl (fun h i =>
    let lo := 8 + w * i
    if lo ≤ 51 then h ^^^ bitsN pa lo (min w (52 - lo)) else h) 0

/-- The live pin window that a location lies in. -/
def pinAt (s : State) (loc : Nat) : Option Pin := s.pins.find? fun p => p.pages.contains (loc / 65536)

/-- The slices of a partition. -/
def slicesOf (s : State) (part : Nat) : List Nat := ((s.part? part).map (·.slices)).getD []

/-- The slices that serve a location: a pin window's; on this device those of the region's owner, or those of shared regions;
and for a page homed elsewhere, which its own device homes, the slices of the accessing partition that keep it as a guest
(09 R250, R253, R264; 18 R397). Log entry 84 (DESIGN CHOICE). -/
def servingSlices (s : State) (part loc : Nat) : List Nat :=
  match pinAt s loc with
  | some p => p.slices
  | none =>
    if loc / homeSpan ≠ s.out.device then slicesOf s part
    else if (tagAt s loc).2 = 31 then s.shared
    else slicesOf s (tagAt s loc).2

/-- The home slice of a location (09 R250). -/
def homeSlice (s : State) (part loc : Nat) : Nat :=
  let l := servingSlices s part loc
  l.getD (sliceHash l.length (loc % homeSpan)) 0

/-- Whether a location has one of some homes: its device, or on this device the die of its home slice (19 R449, R450). -/
def homeIn (s : State) (loc : Nat) (hs : List Home) : Bool :=
  hs.any fun h => match h with
    | .device n => loc / homeSpan == n
    | .die n => loc / homeSpan == s.out.device && homeSlice s 0 loc / 64 == n

/-- Whether every link that the routing table gives for a device has left service: a request to it fails at its home (19 R451). -/
def noRoute (s : State) (home : Nat) : Bool :=
  s.out.routes.any fun r => r.1 == home && r.2 != [] && r.2.all fun n => !(s.out.links.any fun l => l.n == n && l.up)

/-- Whether the home of a location has failed, its census made (19 R449 to R451). -/
def homeFailed (s : State) (loc : Nat) : Bool := homeIn s loc s.out.failedHomes || noRoute s (loc / homeSpan)

/-- Whether the home of a location has failed and accesses to it wait for the census (19 R450). -/
def homeDown (s : State) (loc : Nat) : Bool := homeIn s loc s.out.downHomes

/-- The mark of the word that holds a location; every word of a failed home is lost (19 R426, R449). -/
def markAt (s : State) (loc : Nat) : Mark := if homeFailed s loc then .lost else get Mark.ok s.marks (loc / 16)

/-- The partition that owns a core's cluster. -/
def partOfCore (s : State) (core : Nat) : Nat :=
  ((s.parts.find? fun p => p.clusters.contains (clusterOf core)).map (·.id)).getD 0

/-- The stop of Chord at which a cluster stands: its near slice is the one there (01 R21). -/
def stopOf (s : State) (core : Nat) : Nat := siteOf s 1 (clusterOf core)

/-- The cache of the replicas of a core's cluster: those in the slice at its stop (09 R251), whatever the state of that slice's site, since the
spec names no other near slice where it is replaced or fused off. Log entry 95 (DESIGN CHOICE). -/
def replicaCache (s : State) (core : Nat) : Nat := 1024 + stopOf s core

/-! ## Room in a set (09 R244, R246, R252, R254) -/

/-- The set of a frame: PA[13:8] in an L1, PA[17:8] xor PA[27:18] in a slice. -/
def cacheSet (cache frame : Nat) : Nat := if cache < 512 then frame % 64 else (frame % 1024) ^^^ (frame / 1024 % 1024)

/-- Block tags of a set. -/
def setTags (cache : Nat) : Nat := if cache < 512 then 16 else 32

/-- Word slots of a set. -/
def setSlots : Nat := 128

/-- Retain tags of a set at most (09 R252). -/
def retainTags (cache : Nat) : Nat := if cache < 512 then 8 else 16

/-- The stop of the slice that a cache number names. -/
def cacheStop (s : State) (cache : Nat) : Nat := if cache < 1024 then siteOf s 2 (cache - 512) else cache - 1024

/-- Whether two cache numbers name blocks of one cache: a slice holds the replicas at its stop too. -/
def sameCache (s : State) (a b : Nat) : Bool := a == b || (decide (512 ≤ a) && decide (512 ≤ b) && cacheStop s a == cacheStop s b)

/-- The blocks of the set that a frame falls into. Those of a stash lie in no set. -/
def setBlocks (s : State) (cache frame : Nat) : List CBlock :=
  s.blocks.filter fun b => !b.stash && sameCache s b.cache cache && cacheSet b.cache b.frame == cacheSet cache frame

/-- The blocks of the set that a frame falls into, other than the frame's own. -/
def setOthers (s : State) (cache frame : Nat) : List CBlock :=
  (setBlocks s cache frame).filter fun b => !(b.cache == cache && b.frame == frame)

/-- The budget that live windows take of a slice. -/
def sliceBudget (s : State) (slice : Nat) : Nat := ((s.pins.filter fun p => p.slices.contains slice).map (·.budget)).sum

/-- The slice that a cache number names: by its number, or by its stop. -/
def sliceOf (s : State) (cache : Nat) : Option Nat :=
  if cache < 512 then none
  else if cache < 1024 then some (cache - 512)
  else (List.range 128).find? fun n => siteOf s 2 n == cache - 1024

/-- Word slots of a set that live windows reserve. -/
def reservedSlots (s : State) (cache : Nat) : Nat := ((sliceOf s cache).map fun n => 16 * sliceBudget s n).getD 0

/-- The window whose reserved slots a block of a home slice fills. -/
def pinOf (s : State) (b : CBlock) : Option Pin := if 512 ≤ b.cache ∧ b.cache < 1024 then pinAt s (256 * b.frame) else none

/-- Words of some blocks. -/
def slotsOf (l : List CBlock) : Nat := (l.map fun b => b.words.length).sum

/-- Whether two frames lie in regions of one owner. -/
def sameOwner (s : State) (a b : Nat) : Bool := (tagAt s (256 * a)).2 == (tagAt s (256 * b)).2

/-- Word slots of a set that the owner of a frame's region has in a slice: its way share (18 Table 18-1). -/
def shareSlots (s : State) (cache frame : Nat) : Nat :=
  let units := if 512 ≤ cache ∧ cache < 1024 then ((s.part? (tagAt s (256 * frame)).2).map fun p => p.ways.getD (cache - 512) 0).getD 0 else 0
  if units = 0 then setSlots else 16 * units

/-- Whether the slots that a frame's owner has in a set take the blocks `new` beside its other blocks and its windows. -/
def shareFits (s : State) (cache frame : Nat) (others new : List CBlock) : Bool :=
  let windows := if 512 ≤ cache ∧ cache < 1024 then
    ((s.pins.filter fun p => p.part == (tagAt s (256 * frame)).2 && p.slices.contains (cache - 512)).map (·.budget)).sum else 0
  decide (slotsOf (others.filter fun b => (pinOf s b).isNone && sameOwner s b.frame frame) + slotsOf new + 16 * windows ≤
    shareSlots s cache frame)

/-- Whether the tags and word slots of a set take the blocks `new` of a frame beside its other blocks: a pinned frame in the
slots its window reserves, any other in the rest of its owner's share. -/
def setFits (s : State) (cache frame : Nat) (others new : List CBlock) : Bool :=
  decide (others.length + new.length ≤ setTags cache) && decide (slotsOf others + slotsOf new ≤ setSlots) &&
  match new.head?.bind (pinOf s) with
  | some p => decide (slotsOf (others.filter fun b => pinOf s b == some p) + slotsOf new ≤ 16 * p.budget)
  | none =>
    decide (slotsOf (others.filter fun b => (pinOf s b).isNone) + slotsOf new + reservedSlots s cache ≤ setSlots) &&
      shareFits s cache frame others new

/-! ## Tenure and the stash, as far as the caches see them (09 R242, R257, R259) -/

/-- Whether an address lies in the element bytes that strides select from a base. -/
def inTile (esize : Nat) : List (Nat × Int) → Int → Bool
  | [], d => decide (0 ≤ d) && decide (d < (2 ^ esize : Nat))
  | (ext, str) :: dims, d => (List.range ext).any fun i => inTile esize dims (d - i * str)

/-- Whether a location lies in the footprint of a tile whose pages stand as given. -/
def Tile.meets (t : Tile) (pages : List (Nat × Nat)) (loc : Nat) : Bool :=
  pages.any fun p => p.2 == loc / 65536 && inTile t.esize t.dims ((p.1 * 65536 + loc % 65536 : Nat) - (t.base : Int))

/-- Whether a location lies in the footprint of a tenured tile. -/
def Tenure.meets (t : Tenure) (loc : Nat) : Bool := t.tile.meets t.pages loc

/-- Whether a tenure of another team stands against a write of some bytes of a word (09 R259). -/
def wordTenured (s : State) (team word : Nat) (bytes : List Nat) : Bool :=
  s.tenures.any fun t => t.team != team && bytes.any fun o => t.meets (16 * word + o)

/-- Whether a write-back of a word by a core meets a tenure that no team on the core holds. -/
def coreTenured (s : State) (core word : Nat) : Bool :=
  s.tenures.any fun t => !(s.teams.any fun x => x.id == t.team && x.core == core) && (List.range 16).any fun o => t.meets (16 * word + o)

/-- Whether a mapping stands on a location, through the pages that it has touched. -/
def Stash.meets (m : Stash) (loc : Nat) : Bool :=
  m.pages.any fun p => p.2 == loc / 65536 &&
    decide (m.base ≤ p.1 * 65536 + loc % 65536) && decide (p.1 * 65536 + loc % 65536 < m.base + m.len)

/-- Whether a team on a core has mapped a word into its scratchpad. -/
def mappedWord (s : State) (core word : Nat) : Bool :=
  s.teams.any fun t => t.core == core && t.state == .resident && t.stash.any fun m => m.meets (16 * word)

/-- The rank of a block as a victim: evict-first, then normal, then retain (09 R252). -/
def victimRank (b : CBlock) : Nat := if b.hint = 1 then 0 else if b.hint = 2 then 2 else 1

/-- Whether the write-back of a block has to wait: a dirty word of a software-managed page lies in a tile that a team elsewhere
has tenured, or the home of a word that the block alone has as it stands waits for its census (09 R259, R268; 19 R450). -/
def CBlock.tenured (s : State) (b : CBlock) : Bool :=
  (homeDown s (256 * b.frame) && b.words.any fun x => match x with
    | .modified => true
    | .own _ d _ => d
    | _ => false) ||
  (b.words.zip (List.range b.words.length)).any fun p => (match p.1 with
    | .own _ d _ => d
    | _ => false) && coreTenured s b.cache (16 * b.frame + b.start + p.2)

/-- The block that gives way: of the lowest rank there is, a free choice; never a pinned one, nor one whose write-back has to wait
(09 R252, R254). Log entry 85 (DESIGN CHOICE). -/
def victimBlock (s : State) (others : List CBlock) : Option CBlock :=
  let free := others.filter fun b => (pinOf s b).isNone && !(b.tenured s)
  let low := free.filter fun b => free.all fun x => decide (victimRank b ≤ victimRank x)
  low[Config.choice s.tick % low.length]?

/-- A modified word of an L1 written back: the home slice, where it holds the word, has it modified from then on; otherwise it
is in memory (09 R246). -/
def writeBackWord (s : State) (word : Nat) : State :=
  { s with blocks := s.blocks.map fun b =>
      if 512 ≤ b.cache ∧ b.cache < 1024 ∧ b.word? word = some .shared then b.setWord word .modified else b }

/-- One word that leaves a cache: its dirty bytes are written back first. -/
def leaveWord (s : State) (cache word : Nat) : CWord → State
  | .modified => if cache < 512 then writeBackWord s word else s
  | .own bytes true mark => if cache < 512 then commitWord s word ((List.range 16).zip bytes) mark else s
  | _ => s

/-- A block evicted, its dirty words written back first (09 R246). -/
def evictBlock (s : State) (b : CBlock) : State :=
  (b.words.zip (List.range b.words.length)).foldl (fun s p => leaveWord s b.cache (16 * b.frame + b.start + p.2) p.1)
    { s with blocks := s.blocks.erase b }

/-- Blocks of a set evicted until the blocks `new` of a frame fit; none where they cannot. `fuel` bounds the evictions. -/
def makeRoom (cache frame : Nat) (new : List CBlock) : Nat → State → Option State
  | 0, _ => none
  | fuel + 1, s =>
    let others := setOthers s cache frame
    if setFits s cache frame others new then some s
    else match victimBlock s (if shareFits s cache frame others new then others else others.filter fun b => sameOwner s b.frame frame) with
      | none => none
      | some b => makeRoom cache frame new fuel { evictBlock s b with tick := s.tick + 1 }

/-! ## Fills (09 R245, R246) -/

/-- The maximal runs of the n words from `o` that satisfy a test: first word and length. -/
def runsOf (p : Nat → Bool) : Nat → Nat → List (Nat × Nat)
  | _, 0 => []
  | o, n + 1 =>
    let rest := runsOf p (o + 1) n
    if p o then
      match rest with
      | (a, k) :: l => if a = o + 1 then (o, k + 1) :: l else (o, 1) :: (a, k) :: l
      | [] => [(o, 1)]
    else rest

/-- A fetched piece joined with the blocks of its frame that it touches end to end (09 R246). Log entry 85 (DESIGN CHOICE). -/
def joinPiece (bs : List CBlock) (p : CBlock) : List CBlock :=
  let l := bs.filter fun b => b.start + b.words.length == p.start
  let r := bs.filter fun b => p.start + p.words.length == b.start
  bs.filter (fun b => b.start + b.words.length != p.start && p.start + p.words.length != b.start) ++
    [{ p with start := (l.head?.map (·.start)).getD p.start, words := l.flatMap (·.words) ++ p.words ++ r.flatMap (·.words) }]

/-- Blocks that count as retain among some. -/
def retained (l : List CBlock) : Nat := (l.filter fun b => b.hint == 2).length

/-- Pieces joined with the blocks of a frame, each with the hint of the access that fills it. -/
def joinPieces (mine : List CBlock) (cache frame hint : Nat) (stash : Bool) (f : Nat → CWord) (pieces : List (Nat × Nat)) : List CBlock :=
  pieces.foldl (fun bs p => joinPiece bs ⟨cache, frame, p.1, (List.range p.2).map fun i => f (p.1 + i), hint, stash⟩) mine

/-- The blocks of a frame with some pieces joined to them: a retain fill counts as normal where its set would have too many retain
tags with it (09 R252). -/
def hintedBlocks (s : State) (mine : List CBlock) (cache frame hint : Nat) (f : Nat → CWord) (pieces : List (Nat × Nat)) : List CBlock :=
  let new := joinPieces mine cache frame hint false f pieces
  if hint = 2 ∧ retainTags cache < retained (setOthers s cache frame) + retained new then joinPieces mine cache frame 0 false f pieces
  else new

/-- A fill of the n words of a frame from `start`: the words that the cache holds already are trimmed off, each remaining piece
is joined with what it touches, and blocks are evicted until the set has room (09 R246). Words that a team of the core has mapped go
to its stash, which is outside the L1 (09 R242). -/
def fillRun (s : State) (cache frame start n hint : Nat) (f : Nat → CWord) : State :=
  let here := s.blocks.filter fun b => b.cache == cache && b.frame == frame
  let rest := s.blocks.filter fun b => !(b.cache == cache && b.frame == frame)
  let len := min n (16 - start)
  let mapped := fun o => decide (cache < 512) && mappedWord s cache (16 * frame + o)
  let lacks := fun o => !(here.any fun b => b.has (16 * frame + o))
  let pieces := runsOf (fun o => lacks o && !(mapped o)) start len
  let stashed := runsOf (fun o => lacks o && mapped o) start len
  let own := joinPieces (here.filter (·.stash)) cache frame hint true f stashed
  let mine := here.filter fun b => !b.stash
  let s := if stashed = [] then s else { s with blocks := rest ++ mine ++ own }
  if pieces = [] then s else
  let new := hintedBlocks s mine cache frame hint f pieces
  match makeRoom cache frame new 64 s with
  | some s => { s with blocks := s.blocks.filter (fun b => !(b.cache == cache && b.frame == frame && !b.stash)) ++ new }
  | none => s

/-- A hit with the retain hint on a normal block makes it retain, where its set has a retain tag left; any other hit leaves the
block's hint (09 R252). -/
def hitHint (s : State) (cache word hint : Nat) : State :=
  if hint = 2 then
    { s with blocks := s.blocks.map fun b =>
        if b.cache = cache ∧ b.has word ∧ b.hint = 0 ∧ retained (setBlocks s cache b.frame) < retainTags cache then { b with hint := 2 } else b }
  else s

/-- The word of an L1 set in a state, filled where the L1 does not hold it. -/
def gainWord (s : State) (core word hint : Nat) (x : CWord) : State :=
  if (held? s core word).isSome then s.setHeld core word x
  else fillRun s core (word / 16) (word % 16) 1 hint fun _ => x

/-- The pieces of a block around a word that is taken out of it. -/
def CBlock.split (b : CBlock) (word : Nat) : List CBlock :=
  if b.has word then
    let i := word % 16 - b.start
    [{ b with words := b.words.take i }, { b with start := word % 16 + 1, words := b.words.drop (i + 1) }].filter fun x => x.words != []
  else [b]

/-- A word taken out of a cache: its block is split around it, and where the set lacks a tag for the second piece the whole
block is dropped after its dirty words are written back (09 R248). -/
def dropHeld (s : State) (cache word : Nat) : State :=
  match s.blocks.find? fun b => b.cache == cache && b.has word with
  | none => s
  | some b =>
    let ps := b.split word
    let rest := s.blocks.erase b
    if ps.length = 2 ∧ !b.stash ∧ setTags cache ≤ (setBlocks { s with blocks := rest } cache b.frame).length + 1 then
      evictBlock s b
    else { s with blocks := rest ++ ps }

/-- The words that a cache holds in a state that satisfies a test. -/
def cacheWords (s : State) (cache : Nat) (p : CWord → Bool) : List Nat :=
  (s.blocks.filter fun b => b.cache == cache).flatMap fun b =>
    ((b.words.zip (List.range b.words.length)).filter fun x => p x.1).map fun x => 16 * b.frame + b.start + x.2

/-- A word whose invalidation is on its way. -/
def CWord.isStale : CWord → Bool
  | .stale _ _ _ => true
  | _ => false

/-- A word that had been overwritten by the time that `nextId` had a value. -/
def CWord.staleBy (n : Nat) : CWord → Bool
  | .stale _ _ t => decide (t ≤ n)
  | _ => false

/-- A word of a software-managed page that has been stored to since it was written back. -/
def CWord.isDirty : CWord → Bool
  | .own _ d _ => d
  | _ => false

/-- The invalidations on their way to a core delivered: what an acquire that reaches beyond the core brings (10 R274, R279).
Log entry 9 (DEDUCED). -/
def freshen (s : State) (core : Nat) : State := (cacheWords s core CWord.isStale).foldl (fun s w => dropHeld s core w) s

/-- Those of them delivered that a core's copies have had by the time that `nextId` had a value. Log entry 8 (DEDUCED). -/
def freshenBy (s : State) (core n : Nat) : State := (cacheWords s core (CWord.staleBy n)).foldl (fun s w => dropHeld s core w) s

/-- The value of `nextId` by which all that happens before the writes of some words had been performed (10 R275). -/
def knownOf (s : State) (ws : List Nat) : Nat := ws.foldl (fun n w => max n (get 0 s.known w)) 0

/-! ## The directory (09 R248) -/

/-- The L1s that hold a word as the directory of its home records them: the core and the state. -/
def holders (s : State) (word : Nat) : List (Nat × CWord) :=
  s.blocks.filterMap fun b =>
    if b.cache < 512 then (b.word? word).bind fun x => if x.coherent then some (b.cache, x) else none else none

/-- Another agent reads a word: whoever holds it exclusive or modified keeps it shared, and a modified word is written back
(09 R248). -/
def downgrade (s : State) (word : Nat) : State :=
  let s := if (holders s word).any fun h => h.2 == .modified then writeBackWord s word else s
  { s with
    blocks := s.blocks.map fun b =>
      match b.word? word with
      | some .exclusive | some .modified => if b.cache < 512 then b.setWord word .shared else b
      | _ => b
    guests := s.guests.map fun g => if g.word = word then { g with excl := false } else g }

/-- A core takes the exclusive state of a word: every other holder's copy is invalidated (09 R248). -/
def takeExclusive (s : State) (core word : Nat) : State :=
  let now := wordBytes s word
  let mark := get Mark.ok s.marks word
  let s := if (holders s word).any fun h => h.1 != core && h.2 == .modified then writeBackWord s word else s
  { s with
    blocks := s.blocks.map fun b =>
      if b.cache < 512 ∧ b.cache ≠ core ∧ (b.word? word).any CWord.coherent then b.setWord word (.stale now mark s.nextId)
      else if b.cache = core ∧ b.word? word = some .shared then b.setWord word .exclusive
      else b
    guests := s.guests.filter fun g => g.word != word }

/-- Whether an L1 may write a word without asking its home. -/
def ownsExclusive (s : State) (core word : Nat) : Bool :=
  match held? s core word with
  | some .exclusive | some .modified => true
  | _ => false

/-! ## Stores that an L1 holds (10 R273, R279, R284) -/

/-- Whether a range touches a word. -/
def Rng.word (r : Rng) (w : Nat) : Bool := decide (r.lo < 16 * w + 16) && decide (16 * w < r.lo + r.len)

/-- Whether an engine operation in flight that was issued before a number owns a word: an access issued earlier than the engine's has
met the word before it, so that waits follow the order of issue and none is mutual (09 R262, 01 R11). Log entry 90 (DESIGN CHOICE). -/
def engineOwned (s : State) (word since : Nat) : Bool :=
  s.ops.any fun e => decide (e.id < since) && e.writes.any fun r => r.sp.isNone && r.word word

/-- Whether a held store is performed before another: an earlier one of its core on the same word, or one that a fence or an
acquire put before it (10 R273). -/
def Pend.before (f e : Pend) : Bool :=
  f.core == e.core && decide (f.id < e.id) && (f.word == e.word || decide (f.id < e.after))

/-- Held stores, latest first, that have to be performed for those of `acc` and those that satisfy a test: in order. -/
def neededPends (p : Pend → Bool) : List Pend → List Pend → List Pend
  | [], acc => acc
  | f :: l, acc => neededPends p l (if p f || acc.any f.before then f :: acc else acc)

/-! ## Requests of a miss (09 R245, R250; 12 R325 to R327) -/

/-- Requests that a slice's queue holds at most (09 R250). -/
def queueSize : Nat := 32

/-- Whether a slice's queue takes a request that reaches it: it has room, and none waits outside it (09 R250, 12 R327). -/
def slotFree (s : State) (slice : Nat) : Bool :=
  let here := s.fills.filter fun x => x.slice == slice
  decide (here.length < queueSize) && here.all (·.queued)

/-- A request sent to its home slice: into the queue where it has room and none waits before it, and otherwise outside it, in the
request class (09 R250). It reaches the slice in the step that sends it. Log entry 92 (DESIGN CHOICE). -/
def sendFill (s : State) (f : Fill) : State := { s with fills := s.fills ++ [{ f with queued := slotFree s f.slice }] }

/-- The oldest request that waits outside a slice's queue admitted into it, where it has room (12 R327). -/
def admitFill (s : State) (slice : Nat) : State :=
  match s.fills.find? fun f => f.slice == slice && !f.queued with
  | none => s
  | some f =>
    if (s.fills.filter fun x => x.slice == slice && x.queued).length < queueSize then
      { s with fills := s.fills.map fun x => if x = f then { x with queued := true } else x }
    else s

/-- The request of a miss of a core for words lo to hi of a frame: the run of length lp from lo, stretched to hi and cut at word 15
(09 R245). -/
def missFill (s : State) (core frame lo hi lp hint : Nat) (excl repl : Bool) : Fill :=
  ⟨core, homeSlice s (partOfCore s core) (256 * frame), frame, lo, min (16 - lo) (max lp (hi + 1 - lo)), excl, hint, repl, true, none⟩

/-- Whether a miss request in flight brings some word of lo to hi of a frame. -/
def Fill.brings (f : Fill) (core frame lo hi : Nat) : Bool :=
  f.op.isNone && f.core == core && f.frame == frame && decide (f.start ≤ hi) && decide (lo < f.start + f.len)

/-- A request for words lo to hi of a frame: what lies in a run that the same L1 has asked for sends none of its own, and what
overlaps one waits for it (12 R325). -/
def askRun (s : State) (core frame lo hi lp hint : Nat) (excl repl : Bool) : State :=
  if s.fills.any fun f => f.brings core frame lo hi then s else sendFill s (missFill s core frame lo hi lp hint excl repl)

/-- How a fill brings a word of a frame into a cache: a copy of its own in a software-managed page, and a share of the coherent
value elsewhere. -/
def fillWord (s : State) (frame : Nat) (x : CWord) (o : Nat) : CWord :=
  let w := 16 * frame + o
  if isSwm s (16 * w) then .own (wordBytes s w) false (get Mark.ok s.marks w) else x

/-- The answer to a miss request: the home slice, where it misses, fills the same run, trimmed to what it lacks (12 R326), and a
retain hit there makes its block retain; the words that the core writes become its own and the others are shared; and the L1's fill
joins its blocks, with a replica in the near slice where one was asked for (09 R246, R248, R251, R252). The request leaves the
slice's queue. Log entry 92 (DESIGN CHOICE). -/
def answerFor (s : State) (f : Fill) (mine : Nat → Bool) : State :=
  let s : State := { s with fills := s.fills.erase f }
  let ws := (List.range f.len).map fun i => 16 * f.frame + f.start + i
  let s := ws.foldl (fun s w => if mine w then takeExclusive s f.core w else downgrade s w) s
  let s := ws.foldl (fun s w => hitHint s (512 + f.slice) w f.hint) s
  let s := fillRun s (512 + f.slice) f.frame f.start f.len f.hint fun _ => .shared
  let s := if f.repl then
      fillRun s (replicaCache s f.core) f.frame f.start f.len f.hint fun o =>
        .own (wordBytes s (16 * f.frame + o)) false (get Mark.ok s.marks (16 * f.frame + o))
    else s
  fillRun s f.core f.frame f.start f.len f.hint fun o =>
    fillWord s f.frame (if mine (16 * f.frame + o) then .exclusive else .shared) o

/-- The answer to a miss request of a core: the words that it holds stores to become its own, and its place in the slice's queue is
free from then on. Log entry 92 (DESIGN CHOICE). -/
def answerFill (s : State) (f : Fill) : State := answerFor s f fun w => s.pend.any fun e => e.core == f.core && e.word == w

/-- The miss request of a held store: its demand run is the words that its issue stores to in the frame (09 R245). -/
def pendMiss (s : State) (e : Pend) : Fill :=
  let os := (s.pend.filter fun x => x.core == e.core && x.word / 16 == e.word / 16 && x.since == e.since).map (·.word % 16)
  missFill s e.core (e.word / 16) (os.foldl min (e.word % 16)) (os.foldl max (e.word % 16)) e.lp e.hint true false

/-- The request that brings a held store's word: one in flight, or its own; none while the slice's queue does not admit it. -/
def pendFill (s : State) (e : Pend) : Option Fill :=
  match s.fills.find? fun f => f.brings e.core (e.word / 16) (e.word % 16) (e.word % 16) with
  | some f => if f.queued then some f else none
  | none => if slotFree s (pendMiss s e).slice then some (pendMiss s e) else none

/-- The request of a held store sent, where its core does not own the word and has none in flight that brings it (12 R325). -/
def askPend (s : State) (e : Pend) : State :=
  if isSwm s (16 * e.word) || ownsExclusive s e.core e.word ||
      s.fills.any (fun f => f.brings e.core (e.word / 16) (e.word % 16) (e.word % 16)) then s
  else sendFill s (pendMiss s e)

/-- Whether another team keeps a word for itself until its interval store buffer is released (10 R277). -/
def keptWord (s : State) (team word : Nat) : Bool := s.teams.any fun t => t.id != team && t.interval.locked.contains word

/-- Whether a held store cannot be performed yet: an engine owns its word, a team elsewhere keeps it or has tenured what it writes, or
its core does not own the word and the slice does not admit the request for it (09 R248, R250, R259, R262), or its home waits for its
census (19 R450). -/
def pendWaits (s : State) (e : Pend) : Bool :=
  homeDown s (16 * e.word) || engineOwned s e.word e.since || keptWord s e.team e.word || wordTenured s e.team e.word (e.bytes.map (·.1)) ||
    (!(ownsExclusive s e.core e.word) && (pendFill s e).isNone)

/-- Of a held store: what happens before a store whose wave has made neither a fence nor an acquire had been performed by its issue; what
happens before another one, as it is performed (10 R273, R275). -/
def pendKnown (s : State) (e : Pend) : Nat := if e.after = 0 then max (get 0 s.known e.word) e.last else s.nextId

/-- A held store performed: where its core does not own the word, the request for it is answered first, and the word is modified
there from then on (09 R245, R248; 12 R326). Log entry 8 (DEDUCED). -/
def performPend (s : State) (e : Pend) : State :=
  let s := if ownsExclusive s e.core e.word then s else answerFill s ((pendFill s e).getD (pendMiss s e))
  let s := takeExclusive { s with pend := s.pend.erase e } e.core e.word
  gainWord { commitWord s e.word e.bytes .ok with known := put 0 s.known e.word (pendKnown s e) } e.core e.word e.hint .modified

/-- The held stores that satisfy a test performed, after those that come before them; one that has to wait as the step begins, and what
comes behind it, stays. Their requests are admitted together where each has room as the step begins. Log entry 92 (DESIGN CHOICE). -/
def performAll (s : State) (p : Pend → Bool) : State :=
  (neededPends p s.pend.reverse []).foldl (fun t e =>
    if pendWaits s e || t.pend.any (fun f => f.before e) then t else performPend t e) s

/-- The held stores of a core that satisfy a test performed. -/
def performPends (s : State) (core : Nat) (p : Pend → Bool) : State := performAll s fun e => e.core == core && p e

/-- Whether a store of a core that it holds cannot be performed yet, itself or for what comes before it (09 R262, 10 R284). -/
def pendOwed (s : State) (core : Nat) (p : Pend → Bool) : Bool :=
  (neededPends (fun e => e.core == core && p e) s.pend.reverse []).any (pendWaits s)

/-- The bytes of a word that a core's L1 holds as stores, the latest of each place. -/
def pendBytes (s : State) (core word : Nat) : List (Nat × BitVec 8) :=
  (s.pend.filter fun e => e.core == core && e.word == word).foldl (fun m e => e.bytes.foldl (fun m b => del m b.1 ++ [b]) m) []

/-- A core's own copy of a word of a software-managed page. -/
def ownCopy (s : State) (core word : Nat) : Option (List (BitVec 8) × Bool × Mark) :=
  match held? s core word with
  | some (.own bs d m) => some (bs, d, m)
  | _ => none

/-- A word of a software-managed page that a core has stored to written to its home, whole; the copy stays, clean (09 R266, R267). It
stays dirty while a team elsewhere has tenured it (09 R259, R268). Log entry 9 (DEDUCED). -/
def cleanWord (s : State) (core word : Nat) : State :=
  match ownCopy s core word with
  | some (bs, true, m) => if coreTenured s core word || homeDown s (16 * word) then s else (commitWord s word ((List.range 16).zip bs) m).setHeld core word (.own bs false m)
  | _ => s

/-- A word of a core performed and written back: its held stores, its own dirty copy, its modified state. -/
def drainWord (s : State) (core word : Nat) : State :=
  let s := cleanWord (performPends s core fun e => e.word == word) core word
  if held? s core word = some .modified ∧ ¬ homeDown s (16 * word) then (writeBackWord s word).setHeld core word .shared else s

/-- A core's copy of one word dropped. -/
def dropWord (s : State) (core word : Nat) : State := dropHeld s core word

/-- The words of a core that its home does not yet have: held stores, and dirty words of software-managed pages. -/
def dirtyWords (s : State) (core : Nat) : List Nat :=
  ((s.pend.filter fun e => e.core == core).map (·.word) ++ cacheWords s core CWord.isDirty).dedup

/-- The words of a core that only it holds as they stand: those, and its modified words (09 R265; 19 R449). -/
def soleWords (s : State) (core : Nat) : List Nat := (dirtyWords s core ++ cacheWords s core (· == .modified)).dedup

/-- Every word of a core that satisfies a test performed and written back. Log entry 10 (DEDUCED). -/
def drainCore (s : State) (core : Nat) (p : Nat → Bool) : State :=
  let s := performPends s core fun e => p e.word
  ((soleWords s core).filter p).foldl (fun s w => drainWord s core w) s

/-- Whether the write-back of some of a core's words has to wait for the recall of a tenure, or for a census (09 R259, R268; 19
R450). -/
def cleanWaits (s : State) (core : Nat) (p : Nat → Bool) : Bool :=
  (cacheWords s core CWord.isDirty).any fun w => p w && (coreTenured s core w || homeDown s (16 * w))

/-- The words of a core that meet a tenured tile performed at their homes. -/
def drainTile (s : State) (core : Nat) (t : Tenure) : State := drainCore s core fun w => (List.range 16).any fun i => t.meets (16 * w + i)

/-- A tenure recalled for a conflicting access: its holder writes back; write tenure drops to read for a read, and tenure is
released for a write (09 R259). -/
def recallOne (s : State) (t : Tenure) (write : Bool) : State :=
  let s := match s.team? t.team with
    | some tm => if tm.state = TState.resident then drainTile s tm.core t else s
    | none => s
  { s with tenures := if write || !t.write then s.tenures.erase t else s.tenures.map fun x => if x = t then { x with write := false } else x }

/-- The words of a core's L1 blocks that a team there has mapped moved to its stash as they are (09 R242). -/
def restash (s : State) (core : Nat) : State :=
  let ws := (s.blocks.filter fun b => b.cache == core && !b.stash).flatMap fun b =>
    ((List.range b.words.length).map fun i => 16 * b.frame + b.start + i).filter (mappedWord s core)
  ws.foldl (fun s w => match held? s core w with
    | some x => fillRun (dropHeld s core w) core (w / 16) (w % 16) 1 0 fun _ => x
    | none => s) s

/-- The words of a core's stash that no team there maps any longer written back and dropped, and with them their directory entries
(09 R243). -/
def unstash (s : State) (core : Nat) : State :=
  let ws := (s.blocks.filter fun b => b.cache == core && b.stash).flatMap fun b =>
    ((List.range b.words.length).map fun i => 16 * b.frame + b.start + i).filter fun w => !(mappedWord s core w)
  ws.foldl (fun s w => dropWord (drainWord s core w) core w) s

/-- The bytes of a word that a core holds as its own over the home's. -/
def storedOver (bytes : List (Nat × BitVec 8)) (old : List (BitVec 8)) : List (BitVec 8) := bytes.foldl (fun l b => l.set b.1 b.2) old

/-- Bytes of a word taken by a core's L1 as a store of a team: into its own copy of a word of a software-managed page, which it
fills first; into the latest held store of the word, where no fence stands between, which then comes after all that either came
after; or as a new held store. A store to a word that the L1 holds exclusive is performed at once, where nothing comes before it
(09 R248, R266; 10 R273, R279). Log entry 8 (DEDUCED). -/
def l1Store (s : State) (core team word : Nat) (bytes : List (Nat × BitVec 8)) (after since : Nat) (how : StoreHow) (via : List (Nat × Nat)) :
    State :=
  if isSwm s (16 * word) then
    match ownCopy s core word with
    | some (bs, _, m) => s.setHeld core word (.own (storedOver bytes bs) true (if coversWord bytes then .ok else m))
    | none => gainWord (dropHeld s core word) core word how.hint
        (.own (storedOver bytes (wordBytes s word)) true (if coversWord bytes then .ok else get Mark.ok s.marks word))
  else
    let e : Pend := ⟨s.nextId, core, word, bytes, after, since, via, team, how.hint, how.lp, since⟩
    let new : State := { s with pend := s.pend ++ [e], nextId := s.nextId + 1 }
    match (s.pend.filter fun e => e.core == core && e.word == word).getLast? with
    | some x =>
      if after ≤ x.id ∧ x.team = team ∧ ¬ engineOwned s word since ∧ ¬ engineOwned s word x.since then
        { s with pend := s.pend.map fun y => if y.id = x.id then
            { y with bytes := bytes.foldl (fun m b => del m b.1 ++ [b]) y.bytes, after := max y.after after, since := min y.since since, last := max y.last since,
                     via := via ++ y.via.filter fun v => !via.contains v } else y }
      else new
    | none => if ownsExclusive s core word && !(new.pend.any fun f => f.before e) && !(pendWaits new e) then performPend new e else new

/-! ## What a core sees: its L1 before the home (09 R242, R266; 10 R279) -/

/-- A byte as a core sees it: its own store, its own copy of a software-managed word, or the home. -/
def coreByte (s : State) (core loc : Nat) : BitVec 8 :=
  match (pendBytes s core (loc / 16)).find? fun b => b.1 == loc % 16 with
  | some b => b.2
  | none => match ownCopy s core (loc / 16) with
    | some (bs, _, _) => bs.getD (loc % 16) 0
    | none => readHome s loc

/-- The mark a core meets at a location: that of its own copy, of the copy whose invalidation is on its way, or of the word; a word
that it holds exclusive or modified is not lost with its home (09 R265; 19 R426, R449). -/
def coreMark (s : State) (core loc : Nat) : Mark :=
  match held? s core (loc / 16) with
  | some (.own _ _ m) => m
  | some (.stale _ m _) => m
  | some .exclusive | some .modified => get Mark.ok s.marks (loc / 16)
  | _ => markAt s loc

/-- The mark that code meets at a location, which the core's own stores may cover (14 R330; 19 R426). -/
def codeMark (s : State) (core loc : Nat) : Mark := if coversWord (pendBytes s core (loc / 16)) then .ok else coreMark s core loc

end Sys2Proof.Machine
end

