-- ==== Sys2Proof/Machine/Ops.lean ====
section
/-! DEFINITION. The named operations over memory, registers, waves, teams and grids; taking a fault and returning from
system mode. -/

namespace Sys2Proof.Machine

/-! ## Atomic operations (11 Table 11-2) -/

/-- The new value of an atomic on the w-bit value m with operands x and y; none where it writes nothing. -/
def atomNew (op : AtomOp) (w m x y : Nat) : Option Nat :=
  let x := x % 2 ^ w
  match op with
  | .add => some ((m + x) % 2 ^ w)
  | .and => some (m &&& x)
  | .or => some (m ||| x)
  | .xor => some (m ^^^ x)
  | .minI => some (if toSigned w m < toSigned w x then m else x)
  | .maxI => some (if toSigned w m < toSigned w x then x else m)
  | .minN => some (min m x)
  | .maxN => some (max m x)
  | .exch | .sto => some x
  | .cas => if m = x then some (y % 2 ^ w) else none
  | .fadd => some (fpAdd (if w = 32 then f32 else f64) .rne false 0 m x).1
  | .ldo => none

/-- The value an atom returns, extended to its register (11 R293). -/
def atomReturn (op : AtomOp) (w m : Nat) : Nat :=
  match op with
  | .minI | .maxI => wrapN 64 (toSigned w m)
  | _ => m

/-- Whether the value an operation writes depends on the word's old contents (19 R426). -/
def readsOld (op : AtomOp) : Bool :=
  match op with
  | .exch | .sto => false
  | _ => true

/-- A red performed at its home. On a poisoned or lost word the bytes it computes from the old contents are free values,
and the mark stays (19 R426, R427). Log entry 12 (DEDUCED). -/
def redHome (s : State) (op : AtomOp) (size loc x y : Nat) : State :=
  if markAt s loc ≠ .ok ∧ readsOld op then
    commitWord s.bump (loc / 16) ((List.range size).map fun i => (loc % 16 + i, Config.undefinedByte (16 * s.tick + i)))
      (get Mark.ok s.marks (loc / 16))
  else
    match atomNew op (8 * size) (readHomeN s loc size) x y with
    | some v => writeHomeN s loc size v
    | none => s

/-! ## What a team and a leader hold back (19 R431, R445) -/

/-- One held entry applied to the sixteen bytes of a word. -/
def applyHeld (word : Nat) (bytes : List (BitVec 8)) : Held → List (BitVec 8)
  | .store w bs _ => if w = word then bs.foldl (fun l b => l.set b.1 b.2) bytes else bytes
  | .red op size pa x y _ =>
    if pa / 16 = word then
      let o := pa % 16
      match atomNew op (8 * size) (leNat ((bytes.drop o).take size)) x y with
      | some v => bytes.take o ++ leBytes size v ++ bytes.drop (o + size)
      | none => bytes
    else bytes
  | .logged _ _ _ _ _ _ => bytes

/-- The bytes of an access as places in memory, with its data. -/
def memBytes (a : Access) (v : Nat) : List (Nat × BitVec 8) :=
  (a.places.zip (leBytes a.places.length v)).filterMap fun p =>
    match p.1 with
    | .mem loc => some (loc, p.2)
    | .sp _ _ => none

/-- A held issue of a leader applied to a word. -/
def applyHeldIssue (word : Nat) (bytes : List (BitVec 8)) (h : HeldIssue) : List (BitVec 8) :=
  match h.op.kind with
  | .store _ acc => acc.foldl (fun l p => (memBytes p.1 p.2).foldl (fun l b =>
      if b.1 / 16 = word then l.set (b.1 % 16) b.2 else l) l) bytes
  | .atom op size false _ _ _ _ acc => acc.foldl (fun l p =>
      match p.1.places with
      | .mem loc :: _ => applyHeld word l (.red op size loc p.2.1 p.2.2 [])
      | _ => l) bytes
  | _ => bytes

/-- Whether a held entry stands on a word. -/
def heldOn (word : Nat) : Held → Bool
  | .store w _ _ => w == word
  | .red _ _ pa _ _ _ => pa / 16 == word
  | .logged _ _ _ _ _ _ => false

/-- Whether a held entry is the log of an atomic (19 R432). -/
def isLogged : Held → Bool
  | .logged _ _ _ _ _ _ => true
  | _ => false

/-- A byte as a wave sees it: what its own team and its leader's compare buffer hold, then its core (19 R431, R445). -/
def viewByte (s : State) (w : Wave) (tm : Team) (loc : Nat) : BitVec 8 :=
  let hs := tm.interval.buffer.filter (heldOn (loc / 16))
  let is := s.held.filter fun h => h.wave == w.id
  if hs.isEmpty && is.isEmpty then coreByte s tm.core loc
  else
    let base := (List.range 16).map fun o => coreByte s tm.core (loc / 16 * 16 + o)
    let bs := hs.foldl (applyHeld (loc / 16)) base
    (is.foldl (applyHeldIssue (loc / 16)) bs).getD (loc % 16) 0

/-! ## Scratchpad (09 R238 to R240) -/

/-- A byte of an allocation. -/
def Team.spByte (t : Team) (o : Nat) : BitVec 8 := get 0#8 t.sp o

/-- n bytes of an allocation as a number. -/
def Team.spNat (t : Team) (o n : Nat) : Nat := leNat ((List.range n).map fun i => t.spByte (o + i))

/-- A byte as it is stored at an offset: bits [63:34] of a barrier word stay 0 (09 Table 09-2, 00 R9). -/
def barrierByte (o : Nat) (b : BitVec 8) : BitVec 8 :=
  if 256 ≤ o ∨ o % 8 < 4 then b else if o % 8 = 4 then b &&& 3#8 else 0

/-- A byte of an allocation written. -/
def Team.spPut (t : Team) (o : Nat) (b : BitVec 8) : Team :=
  { t with sp := put 0#8 t.sp o (barrierByte o b), spDirty := put false t.spDirty (o / 256) true }

/-- Bytes of an allocation written; an 8-byte unit that is written whole loses its mark (19 R427). Log entry 25 (DEDUCED). -/
def Team.spWrite (t : Team) (o : Nat) (bytes : List (BitVec 8)) : Team :=
  let n := bytes.length
  { t with
    sp := (bytes.zip (List.range n)).foldl (fun m b => put 0#8 m (o + b.2) (barrierByte (o + b.2) b.1)) t.sp
    spDirty := (List.range n).foldl (fun m i => put false m ((o + i) / 256) true) t.spDirty
    spBad := t.spBad.filter fun m => !(decide (o ≤ 8 * m.1) && decide (8 * m.1 + 8 ≤ o + n)) }

/-- Whether some byte of a range lies in a poisoned unit of the allocation. -/
def Team.spPoisoned (t : Team) (o n : Nat) : Bool :=
  t.spBad.any fun m => decide (8 * m.1 < o + n) && decide (o < 8 * m.1 + 8)

/-- Barrier word n of an allocation (09 Table 09-2). -/
def Team.barrier (t : Team) (n : Nat) : Nat := t.spNat (8 * n) 8

/-- ARRIVED, EXPECTED, PHASE and ARMED of a barrier word. -/
def barArrived (b : Nat) : Nat := bitsN b 0 16
/-- EXPECTED of a barrier word. -/
def barExpected (b : Nat) : Nat := bitsN b 16 16
/-- PHASE of a barrier word. -/
def barPhase (b : Nat) : Nat := bitsN b 32 1
/-- ARMED of a barrier word. -/
def barArmed (b : Nat) : Bool := bitsN b 33 1 == 1

/-- A barrier word from its fields. -/
def barWord (arrived expected phase : Nat) : Nat := arrived + expected * 2 ^ 16 + phase * 2 ^ 32 + 2 ^ 33

/-- Whether a write of n bytes at o overlaps an armed barrier word (09 R240). -/
def Team.clobbers (t : Team) (o n : Nat) : Bool :=
  (List.range 32).any fun k => decide (8 * k < o + n) && decide (o < 8 * k + 8) && barArmed (t.barrier k)

/-! ## Registers -/

/-- The poison value of register nn (04 R91). -/
def poisonValue (n : Nat) : Word := BitVec.ofNat 64 (0x7FF8DEAD00000000 + n)

/-- v register r of a thread. -/
def Wave.getV (w : Wave) (r t : Nat) : Word := get 0#64 w.v (32 * r + t)

/-- A v register written in one thread: the value stands, a poison mark goes, and the wave-register is dirty (19 R427, R430). -/
def Wave.setV (w : Wave) (r t : Nat) (x : Word) : Wave :=
  { w with v := put 0#64 w.v (32 * r + t) x, vBad := del w.vBad (32 * r + t), vDirty := put false w.vDirty r true }

/-- A v register written in every thread of a list. -/
def Wave.setVs (w : Wave) (r : Nat) (ts : List Nat) (f : Nat → Word) : Wave :=
  ts.foldl (fun w t => w.setV r t (f t)) w

/-- Uniform register r. -/
def Wave.getS (w : Wave) (r : Nat) : Word := get 0#64 w.s r

/-- A uniform register written. -/
def Wave.setS (w : Wave) (r : Nat) (x : Word) : Wave :=
  { w with s := put 0#64 w.s r x, sBad := del w.sBad r }

/-- Accumulator r of a thread. -/
def Wave.getA (w : Wave) (r t : Nat) : BitVec 128 := get 0#128 w.a (32 * r + t)

/-- An accumulator written in one thread. -/
def Wave.setA (w : Wave) (r t : Nat) (x : BitVec 128) : Wave :=
  { w with a := put 0#128 w.a (32 * r + t) x, aBad := del w.aBad (32 * r + t), aDirty := put false w.aDirty r true }

/-- An accumulator written in every thread of a list. -/
def Wave.setAs (w : Wave) (r : Nat) (ts : List Nat) (f : Nat → BitVec 128) : Wave :=
  ts.foldl (fun w t => w.setA r t (f t)) w

/-- Predicate p of a thread; p7 reads true (04 R90). -/
def Wave.getP (w : Wave) (p t : Nat) : Bool := if p = 7 then true else get false w.p (32 * p + t)

/-- A predicate written in one thread; p7 is never written. -/
def Wave.setP (w : Wave) (p t : Nat) (b : Bool) : Wave :=
  if p = 7 then w else { w with p := put false w.p (32 * p + t) b }

/-- A predicate written in every thread of a list. -/
def Wave.setPs (w : Wave) (p : Nat) (ts : List Nat) (f : Nat → Bool) : Wave :=
  ts.foldl (fun w t => w.setP p t (f t)) w

/-- The count of a completion flag (04 R88). -/
def Wave.getF (w : Wave) (n : Nat) : Nat := get 0 w.flags n

/-- A completion flag's count set. -/
def Wave.setF (w : Wave) (n x : Nat) : Wave := { w with flags := put 0 w.flags n x }

/-- Whether the flags of a mask are clear. -/
def Wave.clearIn (w : Wave) (m : BitVec 12) : Bool := (List.range 12).all fun n => !m.getLsbD n || w.getF n == 0

/-- A wave that is Ready: one that waits on flags is so once they are clear (02 Table 02-4). -/
def Wave.isReady (w : Wave) : Bool :=
  match w.state with
  | .ready => true
  | .waitFlags m => w.clearIn m
  | _ => false

/-- A wave that waits on flags is Ready once they are clear (02 Table 02-4). -/
def Wave.flagWake (w : Wave) : Wave :=
  match w.state with
  | .waitFlags m => if w.clearIn m then { w with state := .ready } else w
  | _ => w

/-- Every completion flag is clear. -/
def Wave.flagsClear (w : Wave) : Bool := (List.range 12).all fun n => w.getF n == 0

/-- FPSTICKY bits raised (05 R131). -/
def Wave.raise (w : Wave) (f : Sticky) : Wave := { w with sticky := w.sticky ||| f }

/-- A plain register write carried by a result (19 R445). -/
def Wave.write (w : Wave) : RegWrite → Wave
  | .v r t x => w.setV r t x
  | .s r x => w.setS r x

/-- Plain register writes, in order. -/
def Wave.writes (w : Wave) (l : List RegWrite) : Wave := l.foldl Wave.write w

/-! ## The frontier (02 R44 to R46) -/

/-- The issue order of two positions: higher priority first, then lower PC. -/
def posLt (p q : Nat × Nat) : Bool := decide (q.1 < p.1) || (p.1 == q.1 && decide (p.2 < q.2))

/-- An entry put in its place; equal positions merge, and the clause context of the entry that stands there stays: R44 merges
them, and R87 has their contexts agree. Log entry 79 (DEDUCED). -/
def addEntry : List Entry → Entry → List Entry
  | [], e => if e.mask = 0 then [] else [e]
  | x :: l, e =>
    if e.mask = 0 then x :: l
    else if x.prio = e.prio ∧ x.pc = e.pc then { x with mask := x.mask ||| e.mask } :: l
    else if posLt (e.prio, e.pc) (x.prio, x.pc) then e :: x :: l
    else x :: addEntry l e

/-- The frontier without the threads of a mask. -/
def dropThreads (l : List Entry) (m : BitVec 32) : List Entry :=
  (l.map fun e => { e with mask := e.mask &&& ~~~m }).filter fun e => e.mask != 0

/-- The threads of a mask moved to one position. -/
def moveThreads (l : List Entry) (m : BitVec 32) (prio pc : Nat) (ctx : Option Ctx) : List Entry :=
  addEntry (dropThreads l m) ⟨prio, pc, m, ctx⟩

/-- The threads that wait at a reconvergence barrier (14 R334). -/
def Wave.waiting (w : Wave) : BitVec 32 := (List.range 4).foldl (fun m i => m ||| get 0#32 w.rcvWait i) 0

/-- The threads of an entry that can issue: none that waits at an rcvwait, and in system mode only those of the system
mask (02 R45, 18 R410). -/
def Wave.issueMask (w : Wave) (e : Entry) : BitVec 32 :=
  let m := e.mask &&& ~~~w.waiting
  if w.sysMode then m &&& w.sysMask else m

/-- The first issuable entry (02 R46). -/
def Wave.first? (w : Wave) : Option Entry := w.frontier.find? fun e => w.issueMask e != 0

/-- Every live thread of the wave. -/
def Wave.live (w : Wave) : BitVec 32 := w.frontier.foldl (fun m e => m ||| e.mask) 0

/-- The entry at a position. -/
def Wave.entry? (w : Wave) (p : Nat × Nat) : Option Entry := w.frontier.find? fun e => e.prio == p.1 && e.pc == p.2

/-- The clause context after moving to a PC: none once the body has ended (04 R86). -/
def ctxAt (c : Option Ctx) (pc : Nat) : Option Ctx :=
  match c with
  | none => none
  | some x => if pc = x.endPc then none else some x

/-- The threads waiting at barrier `i` released: each moves to the instruction after its rcvwait (14 R334). -/
def Wave.rcvRelease (w : Wave) (i : Nat) : Wave :=
  let m := get 0#32 w.rcvWait i
  let moved := w.frontier.foldl (fun l e =>
    if e.mask &&& m = 0 then l else moveThreads l (e.mask &&& m) e.prio (e.pc + 4) (ctxAt e.ctx (e.pc + 4))) w.frontier
  { w with frontier := moved, rcvWait := put 0#32 w.rcvWait i 0 }

/-- Every reconvergence barrier whose waiting mask holds all its members released (14 R334). -/
def Wave.rcvCheck (w : Wave) : Wave :=
  (List.range 4).foldl (fun w i =>
    let m := get 0#32 w.rcvWait i
    if m ≠ 0 ∧ get 0#32 w.rcvMember i &&& ~~~m = 0 then w.rcvRelease i else w) w

/-- A wave all of whose issuable entries stand at an rcvwait is Blocked (02 Table 02-4). -/
def Wave.settle (w : Wave) : Wave :=
  if w.state = .ready ∧ w.frontier ≠ [] ∧ w.first?.isNone then { w with state := .blocked, block := some .reconv, sel := none }
  else w

/-! ## Fault records (18 R407, R408) -/

/-- The code of a fault (18 Table 18-6). -/
def FaultCode.num : FaultCode → Nat
  | .illegal => 1
  | .slot => 2
  | .uniform => 3
  | .handle => 4
  | .token => 5
  | .align => 6
  | .xlate => 7
  | .perm => 8
  | .world => 9
  | .tenure => 10
  | .barclobber => 11
  | .keyspace => 12
  | .poison => 13
  | .lost => 14
  | .mismatch => 15
  | .watchdog => 16

/-- The priority rank of a fault (18 Table 18-6). -/
def FaultCode.rank : FaultCode → Nat
  | .illegal => 1
  | .slot => 2
  | .uniform => 3
  | .handle => 4
  | .token => 5
  | .align => 6
  | .xlate => 7
  | .perm => 7
  | .world => 7
  | .tenure => 8
  | .barclobber => 9
  | .keyspace => 10
  | .poison => 11
  | .lost => 11
  | .mismatch => 12
  | .watchdog => 13

/-- A fault about to be taken: what, in which thread, and ADDR of its record. -/
structure Flt where
  code : FaultCode
  thread : Nat
  addr : Nat
  deriving DecidableEq, Repr

/-- A record put among those that wait to be written (18 R408). Log entry 68 (DEDUCED). -/
def State.addRec (s : State) (r : Rec) : State := { s with records := s.records ++ [r] }

/-! ## The interval of a recoverable team (19 R429 to R437) -/

/-- Whether an entry of a team's interval store buffer cannot be performed at its home yet: an engine owns its word, another team
keeps it or has tenured what the entry writes, the core's L1 holds an earlier store that waits, or the slice does not admit the
request (09 R250, R259, R262; 19 R431). -/
def heldWaits (s : State) (t : Team) (h : Held) : Bool :=
  let waits := fun (word : Nat) (os : List Nat) =>
    !(isSwm s (16 * word)) && (homeDown s (16 * word) || engineOwned s word s.nextId || keptWord s t.id word || wordTenured s t.id word os ||
      pendOwed s t.core (fun e => e.word == word) || !(slotFree s (homeSlice s (partOfCore s t.core) (16 * word))))
  match h with
  | .store w bs _ => waits w (bs.map (·.1))
  | .red _ size pa _ _ _ => waits (pa / 16) ((List.range size).map (pa % 16 + ·))
  | .logged _ _ _ _ _ _ => false

/-- Whether a team's interval store buffer can be released at once. -/
def releasable (s : State) (t : Team) : Bool := !(t.interval.buffer.any (heldWaits s t))

/-- How a store released from an interval store buffer goes into an L1. -/
def releasedHow : StoreHow := ⟨false, 0, 1⟩

/-- The interval store buffer's entries performed in the order they were first written (19 R431): a store to a word of a
software-managed page in the core's own copy, and one that has to wait, with every store behind it, in the core's L1.
Log entry 23 (DEDUCED). -/
def releaseHeld (t : Team) : Bool → State → List Held → State
  | _, s, [] => s
  | kept, s, .store w bs via :: l =>
    if isSwm s (16 * w) then releaseHeld t kept (l1Store s t.core t.id w bs 0 s.nextId releasedHow via) l
    else if kept || heldWaits s t (.store w bs via) then releaseHeld t true (l1Store s t.core t.id w bs s.nextId s.nextId releasedHow via) l
    else releaseHeld t kept (commitWord (dropWord (drainWord s t.core w) t.core w) w bs .ok) l
  | kept, s, .red op size pa x y _ :: l =>
    releaseHeld t kept (redHome (dropWord (drainWord s t.core (pa / 16)) t.core (pa / 16)) op size pa x y) l
  | kept, s, .logged _ _ _ _ _ _ :: l => releaseHeld t kept s l

/-- The page-table entries that a held entry was translated under (10 R285). -/
def heldVia : Held → List (Nat × Nat)
  | .store _ _ via => via
  | .red _ _ _ _ _ via => via
  | .logged _ _ _ _ _ _ => []

/-- A team's interval store buffer released at once, and the words that the team kept for itself with it; what its core still holds of
those words is older and goes first. What makes a release waits until it can be made (`releasable`). Log entry 23 (DEDUCED). -/
def releaseBuffer (s : State) (team : Nat) : State :=
  match s.team? team with
  | none => s
  | some t =>
    let s := s.updTeam team fun t => { t with interval := { t.interval with buffer := [], locked := [] } }
    releaseHeld t false s t.interval.buffer

/-- An interval that is rollback-safe stops being so, for a reason of Table 19-2; the buffer is released first. Log entry 23 (DEDUCED). -/
def unsafeInterval (s : State) (team reason : Nat) : State :=
  match s.team? team with
  | none => s
  | some t =>
    if t.interval.reason = 0 then
      (releaseBuffer s team).updTeam team fun t => { t with interval := { t.interval with reason := reason } }
    else s

/-- The poison marks of the units in the shadow copy after a boundary: those of the dirty units as they stand, and those of the
others as the shadow copy has them already; `unit` gives the dirty unit of a mark (19 R430). -/
def shadowMarks (unit : Nat → Nat) (dirty now old : List (Nat × Bool)) : List (Nat × Bool) :=
  let fresh := fun k : Nat => get false dirty (unit k)
  (now.filter fun m => fresh m.1).foldl (fun l m => put false l m.1 m.2) (old.filter fun m => !fresh m.1)

/-- The shadow copy of one wave after a boundary: its dirty registers and accumulators are copied; those that are not dirty keep
in it the values they have, and their marks of the last copy (19 R430). -/
def shadowWave (old : List Wave) (w : Wave) : Wave :=
  let w' := { w with vDirty := [], aDirty := [] }
  match old.find? fun b => b.id == w.id with
  | some b => { w' with
      vBad := shadowMarks (· / 32) w.vDirty w.vBad b.vBad
      aBad := shadowMarks (· / 32) w.aDirty w.aBad b.aBad }
  | none => w'

/-- A new interval of a team: the buffer is released, the shadow copy taken, and the log and the dirty bits cleared
(19 R429, R430). Log entry 23 (DEDUCED). -/
def beginInterval (s : State) (team : Nat) : State :=
  match s.team? team with
  | none => s
  | some t =>
    if t.interval.recov then
      let s := releaseBuffer s team
      let s := s.updTeam team fun t =>
        { t with
          spDirty := []
          interval := { t.interval with
            reason := if t.interval.reason = 5 then 5 else 0, buffer := [], locked := [], replay := [], rolled := []
            shadowWaves := (s.wavesOf team).map (shadowWave t.interval.shadowWaves), shadowSp := t.sp
            shadowBad := shadowMarks (· / 32) t.spDirty t.spBad t.interval.shadowBad } }
      { s with waves := s.waves.map fun w => if w.team = team then { w with vDirty := [], aDirty := [] } else w }
    else s

/-- The wave as its shadow copy makes it go on: Ready at its saved PC, or Retired where it had retired before; the flags of operations
that were in flight at the boundary are dropped, and a wave whose threads all wait at an rcvwait is Blocked there (14 R334; 19 R434;
02 Table 02-4). -/
def Wave.revive (w : Wave) : Wave :=
  if w.state = .retired then w
  else { w with state := .ready, block := none, sel := none, fence := none, held := false, flags := [] }.settle

/-- The requests of operations that are no longer in flight withdrawn. -/
def dropRequests (s : State) : State :=
  { s with fills := s.fills.filter fun f => f.op.all fun id => s.ops.any fun o => o.id == id }

/-- A rollback of a team's interval (19 R434): operations in flight are dropped, unlogged held entries discarded,
registers, accumulators and scratchpad come back from the shadow copy with its marks, and every wave is Ready at its saved PC.
Log entry 23 (DEDUCED). -/
def rollback (s : State) (team addr : Nat) : State :=
  match s.team? team with
  | none => s
  | some t =>
    let back := t.interval.shadowWaves
    let s : State := dropRequests { s with
      ops := s.ops.filter fun o => o.team != team
      held := s.held.filter fun h => h.op.team != team
      monitors := s.monitors.filter fun m => !(back.any fun b => b.id == m.wave)
      waves := s.waves.map fun w =>
        if w.team = team ∧ w.state ≠ .saved then
          match back.find? fun b => b.id == w.id with
          | some b => { b.revive with finj := w.finj, fenced := w.fenced }
          | none => w
        else w }
    s.updTeam team fun t =>
      let log := t.interval.buffer.filter isLogged
      { t with
        sp := t.interval.shadowSp
        spBad := t.interval.shadowBad
        spDirty := []
        interval := { t.interval with
          buffer := log, replay := log, rolled := addr :: t.interval.rolled
          rollbacks := min 65535 (t.interval.rollbacks + 1) } }

/-! ## Ending a grid (18 R420) -/

/-- The tokens of some waves returned to their engine (08 R233). -/
def returnTokens (s : State) (ids : List Nat) : State :=
  { s with clusters := s.clusters.map fun c => { c with tokens := c.tokens.filter fun t => !ids.contains t.2 } }

/-- The replicas of a grid's loads dropped: those of the clusters its teams ran on (09 R251). Log entry 9 (DEDUCED). -/
def dropReplicas (s : State) (grid : Nat) : State :=
  { s with blocks := s.blocks.filter fun b => !(decide (1024 ≤ b.cache) && (s.teamsOf grid).any fun t => replicaCache s t.core == b.cache) }

/-- A grid ended (18 R420, 02 R60): its waves retire without waiting for flags, its operations are abandoned, its tokens,
tenures and stash mappings are released, its monitors and pending arrivals are dropped; no stamp is written. Loads, stores and
reds that have retired and are still in flight go with its other operations. Log entry 86 (DESIGN CHOICE). -/
def endGrid (s : State) (grid : Nat) (final : GState) : State :=
  let teams := (s.teamsOf grid).map (·.id)
  let ids := (s.waves.filter fun w => teams.contains w.team).map (·.id)
  let s := returnTokens (dropReplicas s grid) ids
  dropRequests { s with
    waves := s.waves.map fun w =>
      if teams.contains w.team then
        { w with state := .retired, block := none, sel := none, frontier := [], fence := none, held := false, flags := [] } else w
    teams := s.teams.map fun t =>
      if t.grid = grid then
        { t with state := .ended, stash := [], gatherings := [], saveReq := false, withdrawn := []
                 interval := { t.interval with buffer := [], locked := [], replay := [] } } else t
    grids := s.grids.map fun g => if g.id = grid then { g with state := final, hullReq := none, recover := none } else g
    ops := s.ops.filter fun o => !teams.contains o.team
    monitors := s.monitors.filter fun m => !ids.contains m.wave
    held := s.held.filter fun h => !teams.contains h.op.team
    tenures := s.tenures.filter fun t => !teams.contains t.team
    arrivals := s.arrivals.filter fun a => !teams.contains a.team }

/-! ## The issue of a wave -/

/-- What an issuing instruction acts in: the wave, its team, grid and context, its entry and its issue mask. -/
structure Issue where
  s : State
  w : Wave
  tm : Team
  g : Grid
  cx : Context
  e : Entry
  mask : BitVec 32
  deriving Repr

/-- The issue of the wave that the state names, where it has a selected entry. -/
def issuing (s : State) : Option Issue :=
  match s.wave? s.cur with
  | none => none
  | some w =>
    match w.sel, s.team? w.team with
    | some p, some tm =>
      match w.entry? p, s.grid? tm.grid with
      | some e, some g =>
        match s.ctx? g.ctx with
        | some cx => some ⟨s, w, tm, g, cx, e, w.issueMask e⟩
        | none => none
      | _, _ => none
    | _, _ => none

/-- The lowest active thread of an issue. Log entry 15 (DEDUCED). -/
def Issue.low (c : Issue) : Nat := ((threads c.mask).head?).getD 0

/-- The team and wave whose name a record of this wave carries: the leader's (19 R447). -/
def Issue.named (c : Issue) : Nat × Nat :=
  match c.w.role with
  | .trailer l => match c.s.wave? l with
    | some x => (l, x.w)
    | none => (c.w.id, c.w.w)
  | _ => (c.w.id, c.w.w)

/-- The core that a record of this wave carries: that of the leading team (19 R447). -/
def Issue.namedCore (c : Issue) : Nat :=
  if c.tm.trailing then ((c.tm.peer.bind c.s.team?).map (·.core)).getD c.tm.core else c.tm.core

/-- A record of the issuing wave; GRID is the address of the grid's first launch record. Log entry 57 (DEDUCED). -/
def Issue.record (c : Issue) (kind code thread pc addr field : Nat) : Rec where
  ctx := c.g.ctx
  kind := kind
  code := code
  thread := thread
  wave := c.named.2
  team := c.tm.t
  grid := c.g.recAddr
  pc := pc
  addr := addr
  field := field
  core := c.namedCore
  gid := some c.g.id

/-- A record that no wave makes, of a grid where there is one (18 Table 18-7). Log entry 55 (DEDUCED). -/
def plainRec (ctx kind code : Nat) (gid : Option Nat) (grid addr fld : Nat) : Rec := ⟨ctx, kind, code, 0, 0, 0, grid, 0, addr, fld, 0, gid⟩

/-- A record of a grid that no wave makes. -/
def Grid.record (g : Grid) (kind code addr fld : Nat) : Rec := plainRec g.ctx kind code (some g.id) g.recAddr addr fld

/-- The party of a redundant pair that is not this wave. -/
def Wave.partner? (w : Wave) : Option Nat :=
  match w.role with
  | .solo => none
  | .leader t => some t
  | .trailer l => some l

/-- A wave as it parks (02 R53). -/
def Wave.parkHere (w : Wave) : Wave :=
  if w.state = .retired then w else { w with state := .parked, block := none, fence := none, held := false }

/-- A leader as it stands where its trailer does. -/
def Wave.backTo (l x : Wave) : Wave :=
  { x with id := l.id, team := l.team, role := l.role, finj := l.finj, fenced := l.fenced, lvq := [], sigs := [] }

/-- The trailer of a leader that has still to reach its leader's instruction. -/
def laggard? (s : State) (l : Wave) : Option Wave :=
  match l.role with
  | .leader t => (s.wave? t).filter fun x => decide (x.retired < l.retired)
  | _ => none

/-- The held issues of leaders that their trailers have formed signatures of. -/
def signed (s : State) (ls : List Wave) : List HeldIssue :=
  ls.flatMap fun l => (s.held.filter fun h => h.wave == l.id).take (((laggard? s l).map fun x => x.sigs.length).getD 0)

/-- Whether an operation is a load, or a store that stays in the scratchpad of one team of a cross-core group: what a leader does
before its trailer, and that no agent beyond it sees (19 R445, R447). -/
def Op.unseen (o : Op) (apart : Bool) : Bool :=
  match o.kind with
  | .load _ _ _ _ _ => true
  | .store _ acc => apart && acc.all fun p => p.1.places.all fun q => match q with
    | .sp _ _ => true
    | .mem _ => false
  | _ => false

/-- Leaders that have gone ahead put back to where their trailers stand, so that both parties of a pair park at the same instruction
(19 R447): what they have done since is held, or is a value in the load-value queue, or is in the scratchpad that a leading team has for
itself, which becomes the trailing team's. Log entry 94 (DEDUCED). -/
def setBack (s : State) (t : Team) (ls : List Wave) : State :=
  let ahead := ls.filter fun l => (laggard? s l).isSome
  if ahead = [] then s else
  let mine := fun i : Nat => ahead.any fun l => l.id == i
  let kept := signed s ahead
  let s : State := dropRequests { s with
    held := s.held.filter fun h => !(mine h.wave) || kept.contains h
    ops := s.ops.filter fun o => !(mine o.wave && o.unseen t.peer.isSome)
    waves := s.waves.map fun w => if mine w.id then ((laggard? s w).map w.backTo).getD w else w }
  match t.peer.bind s.team? with
  | some x => s.updTeam t.id fun t => { t with sp := x.sp, spBad := x.spBad, spDirty := x.spDirty }
  | none => s

/-- The leader of a pair put back where it has gone ahead; in a cross-core group, with the other leaders of its team, whose scratchpad is
one. -/
def together (s : State) (w : Wave) : State :=
  let lead := match w.role with
    | .trailer l => s.wave? l
    | _ => s.wave? w.id
  match lead with
  | some l => match s.team? l.team with
    | some t => if (laggard? s l).isSome then setBack s t (if t.peer.isSome then s.wavesOf t.id else [l]) else s
    | none => s
  | none => s

/-- A wave parked, and with it the other party of a redundant pair, both at the same instruction (02 R53, 19 R447).
Log entry 14 (DEDUCED). -/
def park (s : State) (w : Wave) : State :=
  let s := together (s.setWave w.parkHere) w
  match w.partner? with
  | some p => (s.updWave w.id Wave.parkHere).updWave p Wave.parkHere
  | none => s

/-- The state with every stalled wave given its turn again. -/
def State.awake (s : State) : State := { s with stalled := [] }

/-- The wave waits, Issuing, at its instruction (04 R88, 19 R445). -/
def Issue.stall (c : Issue) : State := { c.s with stalled := c.w.id :: c.s.stalled.filter fun i => i != c.w.id }

/-- Whether a leader's trailer has still to reach the leader's instruction. -/
def Issue.ahead (c : Issue) : Bool :=
  match c.w.role with
  | .leader t => match c.s.wave? t with
    | some x => decide (x.retired < c.w.retired)
    | none => false
  | _ => false

/-- Every team of a grid asked to be saved at its next yield (19 R428, R439). -/
def haltGrid (s : State) (grid : Nat) : State :=
  let s : State := { s with teams := s.teams.map fun t => if t.grid = grid ∧ t.state = .resident then { t with saveReq := true } else t }
  s.updGrid grid fun g => { g with state := .halting }

/-- A consumption that no rollback takes back (19 R428, R439): a requested hull is given up, the grid's teams are asked to be
saved, and a record of kind 8, code 2, is written once they are. Log entry 63 (DEDUCED). -/
def needHull (s : State) (grid : Nat) (r : Rec) : State :=
  (haltGrid s grid).updGrid grid fun g => { g with hullReq := none, recover := some (g.recover.getD r) }

/-- Taking a fault (04 R116, 18 R406, 19 R428): the instruction has no effect. A POISON or MISMATCH in a rollback-safe
interval that has not been rolled back for the same address rolls the team back. Any other fault parks the wave with its
PC at the instruction and makes a record; POISON, LOST and MISMATCH also halt the grid for its hull. -/
def takeFaultNow (c : Issue) (f : Flt) : State :=
  let data := f.code = .poison ∨ f.code = .mismatch
  if data ∧ c.g.launch.recov ∧ c.tm.interval.reason = 0 ∧ ¬ c.tm.interval.rolled.contains f.addr then
    (rollback c.s.awake c.tm.id f.addr).addRec { c.record 8 1 f.thread c.e.pc f.addr f.code.num with }
  else
    let s := (park c.s.awake c.w).addRec (c.record 0 f.code.num f.thread c.e.pc f.addr 0)
    let s := if f.code = .mismatch ∧ c.g.launch.xredun then
        (c.w.id :: c.w.partner?.toList).foldl (fun s i => s.updWave i fun w => { w with final := true }) s else s
    if data ∨ f.code = .lost then
      let s := if data ∧ c.tm.interval.reason = 0 then unsafeInterval s c.tm.id 7 else s
      needHull s c.g.id (c.record 8 2 f.thread c.e.pc f.addr f.code.num)
    else s

/-- Whether a POISON or MISMATCH ends the rollback safety of an interval whose buffer cannot be released yet: one that the interval has
been rolled back for already (19 R428, Table 19-2). -/
def faultWaits (s : State) (tm : Team) (addr : Nat) : Bool :=
  tm.interval.recov && tm.interval.reason == 0 && tm.interval.rolled.contains addr && !(releasable s tm)

/-- Whether a trailer's team still has accesses to its own scratchpad in flight. -/
def Issue.ownBusy (c : Issue) : Bool :=
  match c.w.role with
  | .trailer _ => c.tm.trailing && c.s.ops.any fun o => o.team == c.tm.id
  | _ => false

/-- Taking a fault at an instruction: a leader waits with it until its trailer has come to the same instruction, and a trailer until its
own accesses have been made (19 R447). -/
def takeFault (c : Issue) (f : Flt) : State :=
  let data := f.code == .poison || f.code == .mismatch
  if c.ahead || c.ownBusy || (data && faultWaits c.s c.tm f.addr) then c.stall else takeFaultNow c f

/-- The return from system mode (18 R412): the threads of the issue move as TRAPCTX directs, the system mask empties and
the wave leaves system mode. Log entry 67 (DEDUCED). -/
def leaveSystem (c : Issue) (w : Wave) : Wave :=
  let pc := bitsN w.trapPc.toNat 1 51 * 2
  let x := w.trapCtx.toNat
  let inBody := bitsN x 63 1 == 1
  let ctx : Option Ctx :=
    if inBody then some ⟨bitsN w.trapHdr.toNat 2 50 * 4, bitsN x 52 4, bitsN x 56 4, bitsN x 1 51 * 2⟩ else none
  { w with
    frontier := moveThreads w.frontier c.mask c.e.prio pc ctx
    sysMode := false
    sysMask := 0
    sel := none }

/-! ## Retirement (04 R86, R87; 14 R337) -/

/-- The wave once its instruction has retired, before its position moves: LEFT and the retired count. Log entry 17 (DEDUCED). -/
def Wave.count (w : Wave) : Wave := { w with left := w.left - 1, retired := w.retired + 1 }

/-- The threads of the issue moved past an instruction of `len` bytes, and the selection kept while the body lasts. -/
def advance (c : Issue) (w : Wave) (len : Nat) : Wave :=
  let pc := c.e.pc + len
  let ctx := ctxAt c.e.ctx pc
  { w with
    frontier := moveThreads w.frontier c.mask c.e.prio pc ctx
    sel := if ctx.isNone then none else some (c.e.prio, pc) }

/-- WATCHDOG: a record, and the grid ends at once (14 R337). Log entry 17 (DEDUCED). -/
def watchdogEnd (c : Issue) (s : State) : State :=
  endGrid (s.addRec (c.record 0 FaultCode.watchdog.num c.low c.e.pc 0 0)) c.g.id .ended

/-- An instruction other than yield that retires when LEFT is already 0 raises WATCHDOG at its retirement: its effect
stands, the wave parks and the grid ends at once (14 R337). -/
def watchdogCheck (c : Issue) (s : State) : State := if c.w.left = 0 then watchdogEnd c s else s

/-- The retirement of an instruction of `len` bytes that leaves the wave `w` and the rest of the device `s`. -/
def retire (c : Issue) (s : State) (w : Wave) (len : Nat) : State :=
  watchdogCheck c (s.awake.setWave (advance c w.count len).settle)

/-- The retirement of an instruction whose threads have been moved by its own effect. -/
def retireMoved (c : Issue) (s : State) (w : Wave) : State :=
  watchdogCheck c (s.awake.setWave w.count.settle)

/-- The state in which an instruction issues that ends the rollback safety of its team's interval, for a reason of
19 Table 19-2; 0 for none. Log entry 23 (DEDUCED). -/
def unsafely (s : State) (reason : Nat) : State :=
  match issuing s with
  | some c => if reason = 0 then s else unsafeInterval s c.tm.id reason
  | none => s

/-- The outcome of an issued instruction: `ok` says whether its fields are legal. Outside a clause body, past its end, or
with reserved fields it takes ILLEGAL (04 R85, R86, R115); otherwise it has its effect or takes the fault its effect
answers with. Log entry 79 (DEDUCED). -/
def issue (s : State) (ok : Bool) (len : Nat) (eff : Issue → Except Flt State) : Host.Outcome State Fault Refusal :=
  match issuing s with
  | none => .fault .noIssuingWave
  | some c =>
    match c.e.ctx with
    | none => .next (takeFault c ⟨.illegal, c.low, 0⟩)
    | some x =>
      if ok && decide (c.e.pc + len ≤ x.endPc) then
        match eff c with
        | .ok s' => .next s'
        | .error f => .next (takeFault c f)
      else .next (takeFault c ⟨.illegal, c.low, 0⟩)

/-- The wave that issues, where its instruction ends the rollback safety of its team's interval and has to wait, Issuing, until the
interval store buffer can be released (19 R433). -/
def releaseWaits (s : State) (reason : Nat) : Option Issue :=
  if reason = 0 then none
  else (issuing s).bind fun c => if c.tm.interval.reason = 0 && !(releasable s c.tm) then some c else none

/-- The issue of an instruction that ends the rollback safety of its team's interval: the buffer is released before it
issues (19 R433), whatever fault it then takes; one whose fields are reserved is no such instruction, and leaves the interval as
it is (R116). Log entry 87 (DESIGN CHOICE). -/
def issueAs (s : State) (ok : Bool) (len reason : Nat) (eff : Issue → Except Flt State) : Host.Outcome State Fault Refusal :=
  if ok then
    match releaseWaits s reason with
    | some c => .next c.stall
    | none => issue (unsafely s reason) ok len eff
  else issue s ok len eff

end Sys2Proof.Machine
end

