-- ==== Sys2Proof/Machine/Operands.lean ====
section
/-! DEFINITION. The operand forms: register limits, operand codes, packed elements, base and pair operands, and the effects
of a vector and of a uniform instruction (04 R90 to R93; 06 R147 to R152). -/

namespace Sys2Proof.Machine

/-! ## Packed elements (05 R120) -/

/-- Sub-element e of width w of a register. -/
def elem (w : Nat) (x : Word) (e : Nat) : Nat := x.toNat / 2 ^ (w * e) % 2 ^ w

/-- Values of width w put together, the first lowest. -/
def packN (w : Nat) : List Nat → Nat
  | [] => 0
  | x :: xs => x % 2 ^ w + 2 ^ w * packN w xs

/-- A register from its sub-elements. -/
def pack (w : Nat) (xs : List Nat) : Word := BitVec.ofNat 64 (packN w xs)

/-- A function of one source applied to each sub-element of width w. -/
def map1 (w : Nat) (f : Nat → Nat) (a : Word) : Word := pack w ((List.range (64 / w)).map fun e => f (elem w a e))

/-- A function of two sources applied to each sub-element of width w. -/
def map2 (w : Nat) (f : Nat → Nat → Nat) (a b : Word) : Word :=
  pack w ((List.range (64 / w)).map fun e => f (elem w a e) (elem w b e))

/-- A function of the sub-element index that also raises flags, over all sub-elements of width w. -/
def mapF (w n : Nat) (f : Nat → Nat × Sticky) : Word × Sticky :=
  let rs := (List.range n).map f
  (pack w (rs.map (·.1)), orAll (rs.map (·.2)))

/-! ## Registers that an instruction names (04 R90) -/

/-- ILLEGAL, where a named vector register is at or above VREGS or an accumulator at or above ACCS (04 R90). -/
def illegalRegs (c : Issue) (vs as : List Nat) : Option Flt :=
  if vs.all (fun r => decide (r < c.g.launch.vregs)) && as.all (fun r => decide (r < c.g.launch.accs)) then none
  else some ⟨.illegal, c.low, 0⟩

/-- POISON, where an active thread reads a poisoned register: the lowest such thread is reported (19 R426). Log entry 15 (DEDUCED). -/
def poisonRegs (c : Issue) (vs ss as : List Nat) : Option Flt :=
  if ss.any fun r => get false c.w.sBad r then some ⟨.poison, c.low, 0⟩
  else match (threads c.mask).find? fun t =>
      (vs.any fun r => get false c.w.vBad (32 * r + t)) || (as.any fun r => get false c.w.aBad (32 * r + t)) with
    | some t => some ⟨.poison, t, 0⟩
    | none => none

/-- The first fault of a list of checks, in their order (18 R406). Log entry 28 (DEDUCED). -/
def firstFault : List (Option Flt) → Option Flt
  | [] => none
  | some f :: _ => some f
  | none :: l => firstFault l

/-- An effect that happens where no check fails. Log entry 28 (DEDUCED). -/
def guarded (checks : List (Option Flt)) (k : Except Flt State) : Except Flt State :=
  match firstFault checks with
  | some f => .error f
  | none => k

/-- A fault where a condition holds, named for the lowest active thread. -/
def faultIf (c : Issue) (p : Bool) (code : FaultCode) (addr : Nat) : Option Flt :=
  if p then some ⟨code, c.low, addr⟩ else none

/-! ## Operand codes (03 R70, 04 R91) -/

/-- The vector sources marked last-use read as the poison value in the active threads. Log entry 18 (DEDUCED). -/
def useV (ts : List Nat) (srcs : List (Nat × Nat)) (w : Wave) : Wave :=
  srcs.foldl (fun w p => if p.2 = 1 then w.setVs p.1 ts (fun _ => poisonValue p.1) else w) w

/-- The uniform sources marked last-use read as the poison value. -/
def useS (srcs : List (Nat × Nat)) (w : Wave) : Wave :=
  srcs.foldl (fun w p => if p.2 = 1 then w.setS p.1 (poisonValue p.1) else w) w

/-- SEED advanced where the instruction rounds stochastically (05 R127). -/
def stepSeed (adv : Bool) (w : Wave) : Wave := if adv then { w with seed := seedStep w.seed } else w

/-! ## The effects of the lane instructions (06 R147, R148) -/

/-- A vector instruction: destination d, coded sources, sources read plain, and the result of each active thread. -/
def vecEff (c : Issue) (len d : Nat) (srcs : List (Nat × Nat)) (plain : List Nat) (adv : Bool)
    (f : Nat → Word × Sticky) : Except Flt State :=
  let ts := threads c.mask
  let rs := srcs.map (·.1) ++ plain
  guarded [illegalRegs c (d :: rs) [], poisonRegs c rs [] []] <|
    .ok (retire c c.s (((useV ts srcs (stepSeed adv c.w)).setVs d ts fun t => (f t).1).raise (orAll (ts.map fun t => (f t).2))) len)

/-- A uniform instruction: destination d, coded sources, sources read plain, and its result. -/
def uniEff (c : Issue) (len d : Nat) (srcs : List (Nat × Nat)) (plain : List Nat) (x : Word) : Except Flt State :=
  guarded [poisonRegs c [] (srcs.map (·.1) ++ plain) []] <|
    .ok (retire c c.s ((useS srcs c.w).setS d x) len)

/-! ## Base and pair operands (04 R92, R93) -/

/-- The value of a base field in a thread: s0 to s31, or v0 to v31. -/
def baseVal (c : Issue) (b t : Nat) : Nat := if b < 32 then (c.w.getS b).toNat else (c.w.getV (b - 32) t).toNat

/-- The vector registers a base field names. -/
def baseV (b : Nat) : List Nat := if b < 32 then [] else [b - 32]

/-- The uniform registers a base field names. -/
def baseS (b : Nat) : List Nat := if b < 32 then [b] else []

/-- The value of n consecutive vector registers in a thread. -/
def vecVal (w : Wave) (r n t : Nat) : Nat := packN 64 ((List.range n).map fun i => (w.getV (r + i) t).toNat)

/-- The registers r to r + n − 1. -/
def regsFrom (r n : Nat) : List Nat := (List.range n).map (r + ·)

end Sys2Proof.Machine
end

