-- ==== Sys2Proof/Decode.lean ====
section
/-! DEFINITION. Decoding and encoding. The decoder reads one or two parcels (04 R82, R115) and rejects by name what no row
of the opcode map has; the encoder is written from the same tables. `legal` holds the checks of R90 to R95 that a word's
fields decide alone; what depends on the wave (its VREGS, its flags, its mode) is checked where the instruction runs. -/

namespace Sys2Proof

/- The compiler gives no constructor past the 244th a tag, so what builds an `Instr` from a word is evaluated by the
kernel only. -/
noncomputable section

/-- Why a word is no instruction (04 R115): every one of them raises ILLEGAL. -/
inductive Reject where
  /-- Fewer bytes than the instruction has. -/
  | truncated
  /-- A major, minor, group, op or function that no row assigns. -/
  | unassigned
  /-- A field a row reserves is not zero. -/
  | reservedField
  deriving DecidableEq, Repr

/-- Bits [lo + n − 1 : lo] of a 32-bit instruction word. -/
def fld (w : BitVec 32) (lo n : Nat) : BitVec n := w.extractLsb' lo n

/-- The fields of `OpHdr` in a word. -/
def getOpHdr (w : BitVec 32) : OpHdr :=
  ⟨fld w 26 5, fld w 22 4, fld w 18 4, fld w 6 12⟩

/-- The fields of `OpA` in a word. -/
def getOpA (w : BitVec 32) : OpA :=
  ⟨fld w 26 2, fld w 20 6, fld w 18 2, fld w 12 6, fld w 6 6⟩

/-- The fields of `OpDA` in a word. -/
def getOpDA (w : BitVec 32) : OpDA :=
  ⟨fld w 18 2, fld w 12 6, fld w 6 6⟩

/-- The fields of `OpQ` in a word. -/
def getOpQ (w : BitVec 32) : OpQ :=
  ⟨fld w 28 2, fld w 25 3, fld w 24 1, fld w 18 6, fld w 12 6, fld w 6 6⟩

/-- The fields of `OpU` in a word. -/
def getOpU (w : BitVec 32) : OpU :=
  ⟨fld w 28 2, fld w 18 2, fld w 12 6, fld w 6 6⟩

/-- The fields of `OpUI` in a word. -/
def getOpUI (w : BitVec 32) : OpUI :=
  ⟨fld w 28 1, fld w 18 2, fld w 12 6, fld w 6 6⟩

/-- The fields of `OpD` in a word. -/
def getOpD (w : BitVec 32) : OpD :=
  ⟨fld w 6 6⟩

/-- The fields of `OpC` in a word. -/
def getOpC (w : BitVec 32) : OpC :=
  ⟨fld w 31 1, fld w 28 3, fld w 24 4, fld w 20 4, fld w 18 2, fld w 12 6, fld w 6 6⟩

/-- The fields of `OpS` in a word. -/
def getOpS (w : BitVec 32) : OpS :=
  ⟨fld w 25 3, fld w 20 5, fld w 18 2, fld w 12 6, fld w 6 6⟩

/-- The fields of `OpAD` in a word. -/
def getOpAD (w : BitVec 32) : OpAD :=
  ⟨fld w 12 6, fld w 6 6⟩

/-- The fields of `OpI` in a word. -/
def getOpI (w : BitVec 32) : OpI :=
  ⟨fld w 20 12, fld w 12 6, fld w 6 6⟩

/-- The fields of `OpL` in a word. -/
def getOpL (w : BitVec 32) : OpL :=
  ⟨fld w 12 16, fld w 6 6⟩

/-- The fields of `OpP` in a word. -/
def getOpP (w : BitVec 32) : OpP :=
  ⟨fld w 20 6, fld w 18 2, fld w 12 6, fld w 9 3, fld w 6 3⟩

/-- The fields of `OpE` in a word. -/
def getOpE (w : BitVec 32) : OpE :=
  ⟨fld w 28 3, fld w 26 2, fld w 20 6, fld w 18 2, fld w 12 6, fld w 6 6⟩

/-- The fields of `OpPL` in a word. -/
def getOpPL (w : BitVec 32) : OpPL :=
  ⟨fld w 15 3, fld w 12 3, fld w 6 3⟩

/-- The fields of `OpPN` in a word. -/
def getOpPN (w : BitVec 32) : OpPN :=
  ⟨fld w 12 3, fld w 6 3⟩

/-- The fields of `OpX` in a word. -/
def getOpX (w : BitVec 32) : OpX :=
  ⟨fld w 24 3, fld w 18 6, fld w 12 6, fld w 6 6⟩

/-- The fields of `OpBal` in a word. -/
def getOpBal (w : BitVec 32) : OpBal :=
  ⟨fld w 24 3, fld w 6 6⟩

/-- The fields of `OpVote` in a word. -/
def getOpVote (w : BitVec 32) : OpVote :=
  ⟨fld w 24 3, fld w 12 3⟩

/-- The fields of `OpUni` in a word. -/
def getOpUni (w : BitVec 32) : OpUni :=
  ⟨fld w 24 3, fld w 12 6⟩

/-- The fields of `OpCmp` in a word. -/
def getOpCmp (w : BitVec 32) : OpCmp :=
  ⟨fld w 24 3, fld w 12 6, fld w 6 6⟩

/-- The fields of `OpT` in a word. -/
def getOpT (w : BitVec 32) : OpT :=
  ⟨fld w 20 3, fld w 18 2, fld w 12 6, fld w 6 6⟩

/-- The fields of `OpK` in a word. -/
def getOpK (w : BitVec 32) : OpK :=
  ⟨fld w 26 5, fld w 25 1, fld w 24 1, fld w 21 3, fld w 18 3, fld w 12 6, fld w 6 6⟩

/-- The fields of `OpLdg` in a word. -/
def getOpLdg (w : BitVec 32) : OpLdg :=
  ⟨fld w 28 4, fld w 23 3, fld w 22 1, fld w 20 2, fld w 12 6, fld w 6 6⟩

/-- The fields of `OpLds` in a word. -/
def getOpLds (w : BitVec 32) : OpLds :=
  ⟨fld w 28 4, fld w 23 3, fld w 22 1, fld w 12 6, fld w 6 6⟩

/-- The fields of `OpStg` in a word. -/
def getOpStg (w : BitVec 32) : OpStg :=
  ⟨fld w 28 4, fld w 23 3, fld w 22 1, fld w 20 2, fld w 18 2, fld w 12 6, fld w 6 6⟩

/-- The fields of `OpSts` in a word. -/
def getOpSts (w : BitVec 32) : OpSts :=
  ⟨fld w 28 4, fld w 23 3, fld w 22 1, fld w 18 2, fld w 12 6, fld w 6 6⟩

/-- The fields of `OpN` in a word. -/
def getOpN (w : BitVec 32) : OpN :=
  ⟨fld w 27 1, fld w 24 2, fld w 21 3, fld w 18 3, fld w 12 6, fld w 6 6⟩

/-- The fields of `OpFence` in a word. -/
def getOpFence (w : BitVec 32) : OpFence :=
  ⟨fld w 24 3⟩

/-- The fields of `OpRacq` in a word. -/
def getOpRacq (w : BitVec 32) : OpRacq :=
  ⟨fld w 27 1, fld w 24 3, fld w 12 6, fld w 6 6⟩

/-- The fields of `OpMwait` in a word. -/
def getOpMwait (w : BitVec 32) : OpMwait :=
  ⟨fld w 24 3, fld w 22 1, fld w 21 1, fld w 18 3, fld w 12 6, fld w 6 6⟩

/-- The fields of `OpBarInit` in a word. -/
def getOpBarInit (w : BitVec 32) : OpBarInit :=
  ⟨fld w 12 6, fld w 6 5⟩

/-- The fields of `OpBarPh` in a word. -/
def getOpBarPh (w : BitVec 32) : OpBarPh :=
  ⟨fld w 24 3, fld w 12 6, fld w 6 5⟩

/-- The fields of `OpBarSync` in a word. -/
def getOpBarSync (w : BitVec 32) : OpBarSync :=
  ⟨fld w 24 3, fld w 6 5⟩

/-- The fields of `OpY2` in a word. -/
def getOpY2 (w : BitVec 32) : OpY2 :=
  ⟨fld w 12 6⟩

/-- The fields of `OpF12` in a word. -/
def getOpF12 (w : BitVec 32) : OpF12 :=
  ⟨fld w 27 1, fld w 12 6, fld w 6 6⟩

/-- The fields of `OpF2` in a word. -/
def getOpF2 (w : BitVec 32) : OpF2 :=
  ⟨fld w 27 1, fld w 12 6⟩

/-- The fields of `OpY12` in a word. -/
def getOpY12 (w : BitVec 32) : OpY12 :=
  ⟨fld w 12 6, fld w 6 6⟩

/-- The fields of `OpFG2` in a word. -/
def getOpFG2 (w : BitVec 32) : OpFG2 :=
  ⟨fld w 27 1, fld w 24 3, fld w 12 6⟩

/-- The fields of `OpY123` in a word. -/
def getOpY123 (w : BitVec 32) : OpY123 :=
  ⟨fld w 18 6, fld w 12 6, fld w 6 6⟩

/-- The fields of `OpTile` in a word. -/
def getOpTile (w : BitVec 32) : OpTile :=
  ⟨fld w 27 1, fld w 6 3⟩

/-- The fields of `OpTRow` in a word. -/
def getOpTRow (w : BitVec 32) : OpTRow :=
  ⟨fld w 27 1, fld w 24 3, fld w 18 6, fld w 12 6, fld w 6 3⟩

/-- The fields of `OpBra` in a word. -/
def getOpBra (w : BitVec 32) : OpBra :=
  ⟨fld w 12 20, fld w 10 1, fld w 9 1, fld w 6 3⟩

/-- The fields of `OpBrx` in a word. -/
def getOpBrx (w : BitVec 32) : OpBrx :=
  ⟨fld w 24 1, fld w 12 6⟩

/-- The fields of `OpBprio` in a word. -/
def getOpBprio (w : BitVec 32) : OpBprio :=
  ⟨fld w 6 4⟩

/-- The fields of `OpRcv` in a word. -/
def getOpRcv (w : BitVec 32) : OpRcv :=
  ⟨fld w 6 2⟩

/-- The fields of `OpYield` in a word. -/
def getOpYield (w : BitVec 32) : OpYield :=
  ⟨fld w 18 4, fld w 6 7⟩

/-- The fields of `OpTrap` in a word. -/
def getOpTrap (w : BitVec 32) : OpTrap :=
  ⟨fld w 6 8⟩

/-- The fields of `OpK12` in a word. -/
def getOpK12 (w : BitVec 32) : OpK12 :=
  ⟨fld w 27 1, fld w 24 3, fld w 12 6, fld w 6 6⟩

/-- The fields of `OpKneigh` in a word. -/
def getOpKneigh (w : BitVec 32) : OpKneigh :=
  ⟨fld w 27 1, fld w 24 3, fld w 18 3, fld w 12 6, fld w 6 6⟩

/-- The fields of `OpKcost` in a word. -/
def getOpKcost (w : BitVec 32) : OpKcost :=
  ⟨fld w 27 1, fld w 24 3, fld w 18 6, fld w 12 6⟩

/-- The fields of `OpKreb` in a word. -/
def getOpKreb (w : BitVec 32) : OpKreb :=
  ⟨fld w 27 1, fld w 24 3, fld w 6 6⟩

/-- The fields of `OpWpush` in a word. -/
def getOpWpush (w : BitVec 32) : OpWpush :=
  ⟨fld w 27 1, fld w 18 6, fld w 12 6⟩

/-- The fields of `OpWout` in a word. -/
def getOpWout (w : BitVec 32) : OpWout :=
  ⟨fld w 27 1, fld w 18 6, fld w 6 6⟩

/-- The fields of `OpWins` in a word. -/
def getOpWins (w : BitVec 32) : OpWins :=
  ⟨fld w 27 1, fld w 18 6, fld w 12 6, fld w 6 6⟩

/-- The fields of `OpSys` in a word. -/
def getOpSys (w : BitVec 32) : OpSys :=
  ⟨fld w 12 12, fld w 6 6⟩

/-- The fields of `OpF1` in a word. -/
def getOpF1 (w : BitVec 32) : OpF1 :=
  ⟨fld w 27 1, fld w 6 6⟩

/-- Major 0 (04 Table 04-4). -/
def decodeMajor0 (w : BitVec 32) : Except Reject Instr :=
  match (fld w 28 4).toNat with
  | 0 => .ok (.vaddI8x8 (getOpA w))
  | 1 => .ok (.vsubI8x8 (getOpA w))
  | 2 => .ok (.vminI8x8 (getOpA w))
  | 3 => .ok (.vminN8x8 (getOpA w))
  | 4 => .ok (.vmaxI8x8 (getOpA w))
  | 5 => .ok (.vmaxN8x8 (getOpA w))
  | 6 => .ok (.vaddI8x8Sat (getOpA w))
  | 7 => .ok (.vaddN8x8Sat (getOpA w))
  | 8 => .ok (.vaddI16x4 (getOpA w))
  | 9 => .ok (.vsubI16x4 (getOpA w))
  | 10 => .ok (.vminI16x4 (getOpA w))
  | 11 => .ok (.vminN16x4 (getOpA w))
  | 12 => .ok (.vmaxI16x4 (getOpA w))
  | 13 => .ok (.vmaxN16x4 (getOpA w))
  | 14 => .ok (.vaddI16x4Sat (getOpA w))
  | 15 => .ok (.vaddN16x4Sat (getOpA w))
  | _ => .error .unassigned

/-- Major 1 (04 Table 04-4). -/
def decodeMajor1 (w : BitVec 32) : Except Reject Instr :=
  match (fld w 28 4).toNat with
  | 0 => .ok (.vaddI32x2 (getOpA w))
  | 1 => .ok (.vsubI32x2 (getOpA w))
  | 2 => .ok (.vmulI32x2 (getOpA w))
  | 3 => .ok (.vmulhiI32x2 (getOpA w))
  | 4 => .ok (.vmulhiN32x2 (getOpA w))
  | 5 => .ok (.vminI32x2 (getOpA w))
  | 6 => .ok (.vminN32x2 (getOpA w))
  | 7 => .ok (.vmaxI32x2 (getOpA w))
  | 8 => .ok (.vmaxN32x2 (getOpA w))
  | 9 => .ok (.vshlI32x2 (getOpA w))
  | 10 => .ok (.vshrN32x2 (getOpA w))
  | 11 => .ok (.vshrI32x2 (getOpA w))
  | 12 => .ok (.vaddI32x2Sat (getOpA w))
  | 13 => .ok (.vaddN32x2Sat (getOpA w))
  | 14 => .ok (.vsubI32x2Sat (getOpA w))
  | 15 => .ok (.vsubN32x2Sat (getOpA w))
  | _ => .error .unassigned

/-- Major 2 (04 Table 04-4). -/
def decodeMajor2 (w : BitVec 32) : Except Reject Instr :=
  match (fld w 28 4).toNat with
  | 0 => .ok (.vaddI64 (getOpA w))
  | 1 => .ok (.vsubI64 (getOpA w))
  | 2 => .ok (.vmulI64 (getOpA w))
  | 3 => .ok (.vmulhiI64 (getOpA w))
  | 4 => .ok (.vmulhiN64 (getOpA w))
  | 5 => .ok (.vminI64 (getOpA w))
  | 6 => .ok (.vminN64 (getOpA w))
  | 7 => .ok (.vmaxI64 (getOpA w))
  | 8 => .ok (.vmaxN64 (getOpA w))
  | 9 => .ok (.vshlI64 (getOpA w))
  | 10 => .ok (.vshrN64 (getOpA w))
  | 11 => .ok (.vshrI64 (getOpA w))
  | 12 => .ok (.vaddI64Sat (getOpA w))
  | 13 => .ok (.vaddN64Sat (getOpA w))
  | 14 => .ok (.vsubI64Sat (getOpA w))
  | 15 => .ok (.vsubN64Sat (getOpA w))
  | _ => .error .unassigned

/-- Major 3 (04 Table 04-4). -/
def decodeMajor3 (w : BitVec 32) : Except Reject Instr :=
  match (fld w 28 4).toNat with
  | 0 => .ok (.vand (getOpA w))
  | 1 => .ok (.vor (getOpA w))
  | 2 => .ok (.vxor (getOpA w))
  | 3 => .ok (.vandn (getOpA w))
  | 4 => if fld w 20 8 = 0 then .ok (.vmov (getOpDA w)) else .error .reservedField
  | 5 => if fld w 20 8 = 0 then .ok (.vsplat (getOpDA w)) else .error .reservedField
  | _ => .error .unassigned

/-- Major 4 (04 Table 04-4). -/
def decodeMajor4 (w : BitVec 32) : Except Reject Instr :=
  match (fld w 28 4).toNat with
  | 0 => .ok (.vfaddF64 (getOpA w))
  | 1 => .ok (.vfsubF64 (getOpA w))
  | 2 => .ok (.vfmulF64 (getOpA w))
  | 3 => .ok (.vfmaF64 (getOpA w))
  | 4 => .ok (.vfminF64 (getOpA w))
  | 5 => .ok (.vfmaxF64 (getOpA w))
  | 6 => .ok (.vfminF64Nan (getOpA w))
  | 7 => .ok (.vfmaxF64Nan (getOpA w))
  | 8 => .ok (.vfaddF32x2 (getOpA w))
  | 9 => .ok (.vfsubF32x2 (getOpA w))
  | 10 => .ok (.vfmulF32x2 (getOpA w))
  | 11 => .ok (.vfmaF32x2 (getOpA w))
  | 12 => .ok (.vfminF32x2 (getOpA w))
  | 13 => .ok (.vfmaxF32x2 (getOpA w))
  | 14 => .ok (.vfminF32x2Nan (getOpA w))
  | 15 => .ok (.vfmaxF32x2Nan (getOpA w))
  | _ => .error .unassigned

/-- Major 5 (04 Table 04-4). -/
def decodeMajor5 (w : BitVec 32) : Except Reject Instr :=
  match (fld w 28 4).toNat with
  | 0 => .ok (.vfaddF16x4 (getOpA w))
  | 1 => .ok (.vfsubF16x4 (getOpA w))
  | 2 => .ok (.vfmulF16x4 (getOpA w))
  | 3 => .ok (.vfmaF16x4 (getOpA w))
  | 4 => .ok (.vfminF16x4 (getOpA w))
  | 5 => .ok (.vfmaxF16x4 (getOpA w))
  | 6 => .ok (.vfminF16x4Nan (getOpA w))
  | 7 => .ok (.vfmaxF16x4Nan (getOpA w))
  | 8 => .ok (.vfaddBf16x4 (getOpA w))
  | 9 => .ok (.vfsubBf16x4 (getOpA w))
  | 10 => .ok (.vfmulBf16x4 (getOpA w))
  | 11 => .ok (.vfmaBf16x4 (getOpA w))
  | 12 => .ok (.vfminBf16x4 (getOpA w))
  | 13 => .ok (.vfmaxBf16x4 (getOpA w))
  | 14 => .ok (.vfminBf16x4Nan (getOpA w))
  | 15 => .ok (.vfmaxBf16x4Nan (getOpA w))
  | _ => .error .unassigned

/-- Major 10 (04 Table 04-4). -/
def decodeMajor10 (w : BitVec 32) : Except Reject Instr :=
  match (fld w 28 4).toNat with
  | 0 => .ok (.saddI64 (getOpA w))
  | 1 => .ok (.ssubI64 (getOpA w))
  | 2 => .ok (.smulI64 (getOpA w))
  | 3 => .ok (.smulhiI64 (getOpA w))
  | 4 => .ok (.smulhiN64 (getOpA w))
  | 5 => .ok (.sand (getOpA w))
  | 6 => .ok (.sor (getOpA w))
  | 7 => .ok (.sxor (getOpA w))
  | 8 => .ok (.sshlI64 (getOpA w))
  | 9 => .ok (.sshrN64 (getOpA w))
  | 10 => .ok (.sshrI64 (getOpA w))
  | 11 => .ok (.sminI64 (getOpA w))
  | 12 => .ok (.sminN64 (getOpA w))
  | 13 => .ok (.smaxI64 (getOpA w))
  | 14 => .ok (.smaxN64 (getOpA w))
  | 15 => if fld w 20 8 = 0 then .ok (.smov (getOpDA w)) else .error .reservedField
  | _ => .error .unassigned

/-- Major 6 (04 Table 04-4). -/
def decodeMajor6 (w : BitVec 32) : Except Reject Instr :=
  match (fld w 30 2).toNat with
  | 0 => .ok (.vfaddQ (getOpQ w))
  | 1 => .ok (.vfsubQ (getOpQ w))
  | 2 => .ok (.vfmulQ (getOpQ w))
  | 3 => .ok (.vfmaQ (getOpQ w))
  | _ => .error .unassigned

/-- Major 7 (04 Table 04-4). -/
def decodeMajor7 (w : BitVec 32) : Except Reject Instr :=
  if fld w 26 2 ≠ 0 then .error .reservedField else
  match (fld w 28 4).toNat with
  | 0 | 1 | 2 | 3 => match (fld w 20 6).toNat with
    | 0 => .ok (.vfabs (getOpU w))
    | 1 => .ok (.vfneg (getOpU w))
    | 2 => .ok (.vrcp (getOpU w))
    | 3 => .ok (.vrsqrt (getOpU w))
    | 4 => .ok (.vsqrt (getOpU w))
    | 5 => .ok (.vsin (getOpU w))
    | 6 => .ok (.vcos (getOpU w))
    | 7 => .ok (.vsinpi (getOpU w))
    | 8 => .ok (.vcospi (getOpU w))
    | 9 => .ok (.vexp2 (getOpU w))
    | 10 => .ok (.vlog2 (getOpU w))
    | 11 => .ok (.vtanh (getOpU w))
    | 12 => .ok (.vfrintn (getOpU w))
    | 13 => .ok (.vfrintz (getOpU w))
    | 14 => .ok (.vfrintm (getOpU w))
    | 15 => .ok (.vfrintp (getOpU w))
    | 16 => .ok (.vfclass (getOpU w))
    | _ => .error .unassigned
  | 4 | 5 => match (fld w 20 6).toNat with
    | 0 => .ok (.vabs (getOpUI w))
    | 1 => .ok (.vneg (getOpUI w))
    | 2 => .ok (.vnot (getOpUI w))
    | 3 => .ok (.vpopc (getOpUI w))
    | 4 => .ok (.vclz (getOpUI w))
    | 5 => .ok (.vbrev (getOpUI w))
    | _ => .error .unassigned
  | 6 => match (fld w 20 6).toNat with
    | 0 => if fld w 12 8 = 0 then .ok (.vlanes (getOpD w)) else .error .reservedField
    | 1 => if fld w 12 8 = 0 then .ok (.vpasses (getOpD w)) else .error .reservedField
    | 2 => if fld w 12 8 = 0 then .ok (.vtid (getOpD w)) else .error .reservedField
    | 3 => if fld w 12 8 = 0 then .ok (.vlanemap (getOpD w)) else .error .reservedField
    | _ => .error .unassigned
  | _ => .error .unassigned

/-- Major 8 (04 Table 04-4). -/
def decodeMajor8 (w : BitVec 32) : Except Reject Instr :=
  .ok (.vcvt (getOpC w))

/-- Major 9 (04 Table 04-4). -/
def decodeMajor9 (w : BitVec 32) : Except Reject Instr :=
  match (fld w 28 4).toNat with
  | 0 => .ok (.vquant (getOpS w))
  | 1 => .ok (.vdequant (getOpS w))
  | 2 => .ok (.vcbdec (getOpS w))
  | 4 => .ok (.amadI8x8 (getOpA w))
  | 5 => .ok (.amadN8x8 (getOpA w))
  | 6 => .ok (.amadF16x4 (getOpA w))
  | 7 => .ok (.amadBf16x4 (getOpA w))
  | 8 => .ok (.amadF32x2 (getOpA w))
  | 9 => .ok (.amadF64 (getOpA w))
  | 10 => if fld w 12 16 = 0 then .ok (.azero (getOpD w)) else .error .reservedField
  | 11 => .ok (.amov (getOpA w))
  | 12 => if fld w 18 10 = 0 then .ok (.vnarrowLo (getOpAD w)) else .error .reservedField
  | 13 => if fld w 18 10 = 0 then .ok (.vnarrowHi (getOpAD w)) else .error .reservedField
  | 14 => if fld w 18 10 = 0 then .ok (.vnarrowI16x4Sat (getOpAD w)) else .error .reservedField
  | 15 => if fld w 18 10 = 0 then .ok (.vnarrowF16x4 (getOpAD w)) else .error .reservedField
  | _ => .error .unassigned

/-- Major 11 (04 Table 04-4). -/
def decodeMajor11 (w : BitVec 32) : Except Reject Instr :=
  match (fld w 18 2).toNat with
  | 0 => .ok (.saddi (getOpI w))
  | 1 => .ok (.sandi (getOpI w))
  | 2 => .ok (.vaddiI32x2 (getOpI w))
  | 3 => .ok (.vaddiI64 (getOpI w))
  | _ => .error .unassigned

/-- Major 12 (04 Table 04-4). -/
def decodeMajor12 (w : BitVec 32) : Except Reject Instr :=
  match (fld w 28 4).toNat with
  | 0 => .ok (.smovz (getOpL w))
  | 1 => .ok (.smovs (getOpL w))
  | 2 => .ok (.smovk16 (getOpL w))
  | 3 => .ok (.smovk32 (getOpL w))
  | 4 => .ok (.smovk48 (getOpL w))
  | 8 => .ok (.vmovz (getOpL w))
  | 9 => .ok (.vmovs (getOpL w))
  | 10 => .ok (.vmovk16 (getOpL w))
  | 11 => .ok (.vmovk32 (getOpL w))
  | 12 => .ok (.vmovk48 (getOpL w))
  | _ => .error .unassigned

/-- Major 13 (04 Table 04-4). -/
def decodeMajor13 (w : BitVec 32) : Except Reject Instr :=
  match (fld w 27 1).toNat with
  | 0 => match (fld w 28 4).toNat with
      | 0 => if fld w 26 1 = 0 then .ok (.vceq (getOpP w)) else .error .reservedField
      | 1 => if fld w 26 1 = 0 then .ok (.vcne (getOpP w)) else .error .reservedField
      | 2 => if fld w 26 1 = 0 then .ok (.vclt (getOpP w)) else .error .reservedField
      | 3 => if fld w 26 1 = 0 then .ok (.vcle (getOpP w)) else .error .reservedField
      | 4 => if fld w 26 1 = 0 then .ok (.vcgt (getOpP w)) else .error .reservedField
      | 5 => if fld w 26 1 = 0 then .ok (.vcge (getOpP w)) else .error .reservedField
      | 6 => if fld w 26 1 = 0 then .ok (.vcord (getOpP w)) else .error .reservedField
      | 7 => if fld w 26 1 = 0 then .ok (.vcunord (getOpP w)) else .error .reservedField
      | 8 => if fld w 26 1 = 0 then .ok (.vcneu (getOpP w)) else .error .reservedField
      | _ => .error .unassigned
  | 1 => match (fld w 28 4).toNat with
      | 0 => if fld w 26 1 = 0 then .ok (.sceq (getOpP w)) else .error .reservedField
      | 1 => if fld w 26 1 = 0 then .ok (.scne (getOpP w)) else .error .reservedField
      | 2 => if fld w 26 1 = 0 then .ok (.sclt (getOpP w)) else .error .reservedField
      | 3 => if fld w 26 1 = 0 then .ok (.scle (getOpP w)) else .error .reservedField
      | 4 => if fld w 26 1 = 0 then .ok (.scgt (getOpP w)) else .error .reservedField
      | 5 => if fld w 26 1 = 0 then .ok (.scge (getOpP w)) else .error .reservedField
      | 6 => if fld w 26 1 = 0 then .ok (.scord (getOpP w)) else .error .reservedField
      | 7 => if fld w 26 1 = 0 then .ok (.scunord (getOpP w)) else .error .reservedField
      | 8 => if fld w 26 1 = 0 then .ok (.scneu (getOpP w)) else .error .reservedField
      | _ => .error .unassigned
  | _ => .error .unassigned

/-- Major 14 (04 Table 04-4). -/
def decodeMajor14 (w : BitVec 32) : Except Reject Instr :=
  match (fld w 31 1).toNat with
  | 0 => .ok (.vsel (getOpE w))
  | 1 => match (fld w 28 3).toNat with
      | 0 => if fld w 9 3 = 0 ∧ fld w 18 10 = 0 then .ok (.pand (getOpPL w)) else .error .reservedField
      | 1 => if fld w 9 3 = 0 ∧ fld w 18 10 = 0 then .ok (.por (getOpPL w)) else .error .reservedField
      | 2 => if fld w 9 3 = 0 ∧ fld w 18 10 = 0 then .ok (.pxor (getOpPL w)) else .error .reservedField
      | 3 => if fld w 9 3 = 0 ∧ fld w 18 10 = 0 then .ok (.pandn (getOpPL w)) else .error .reservedField
      | 4 => if fld w 9 3 = 0 ∧ fld w 15 13 = 0 then .ok (.pnot (getOpPN w)) else .error .reservedField
      | 5 => if fld w 9 3 = 0 ∧ fld w 15 13 = 0 then .ok (.pmov (getOpPN w)) else .error .reservedField
      | _ => .error .unassigned
  | _ => .error .unassigned

/-- Major 15 (04 Table 04-4). -/
def decodeMajor15 (w : BitVec 32) : Except Reject Instr :=
  match (fld w 28 4).toNat with
  | 0 => if fld w 27 1 = 0 then .ok (.vshflN64 (getOpX w)) else .error .reservedField
  | 1 => if fld w 27 1 = 0 then .ok (.vshflN32x2 (getOpX w)) else .error .reservedField
  | 2 => if fld w 27 1 = 0 then .ok (.vshflN16x4 (getOpX w)) else .error .reservedField
  | 3 => if fld w 27 1 = 0 then .ok (.vshflN8x8 (getOpX w)) else .error .reservedField
  | 4 => if fld w 27 1 = 0 then .ok (.vbcast (getOpX w)) else .error .reservedField
  | 5 => if fld w 12 12 = 0 ∧ fld w 27 1 = 0 then .ok (.vballot (getOpBal w)) else .error .reservedField
  | 6 => if fld w 6 6 = 0 ∧ fld w 15 9 = 0 ∧ fld w 27 1 = 0 then .ok (.vall (getOpVote w)) else .error .reservedField
  | 7 => if fld w 6 6 = 0 ∧ fld w 15 9 = 0 ∧ fld w 27 1 = 0 then .ok (.vany (getOpVote w)) else .error .reservedField
  | 8 => if fld w 6 6 = 0 ∧ fld w 18 6 = 0 ∧ fld w 27 1 = 0 then .ok (.vuni (getOpUni w)) else .error .reservedField
  | 9 => if fld w 18 6 = 0 ∧ fld w 27 1 = 0 then .ok (.vcompact (getOpCmp w)) else .error .reservedField
  | 10 => if fld w 18 10 = 0 then .ok (.vmatch (getOpAD w)) else .error .reservedField
  | 11 => if fld w 18 10 = 0 then .ok (.vrdfirst (getOpAD w)) else .error .reservedField
  | _ => .error .unassigned

/-- Major 16 (04 Table 04-4). -/
def decodeMajor16 (w : BitVec 32) : Except Reject Instr :=
  match (fld w 23 2).toNat with
  | 0 => match (fld w 28 4).toNat with
      | 0 => if fld w 25 3 = 0 then .ok (.vredAdd (getOpT w)) else .error .reservedField
      | 1 => if fld w 25 3 = 0 then .ok (.vredMin (getOpT w)) else .error .reservedField
      | 2 => if fld w 25 3 = 0 then .ok (.vredMax (getOpT w)) else .error .reservedField
      | 3 => if fld w 25 3 = 0 then .ok (.vredAnd (getOpT w)) else .error .reservedField
      | 4 => if fld w 25 3 = 0 then .ok (.vredOr (getOpT w)) else .error .reservedField
      | 5 => if fld w 25 3 = 0 then .ok (.vredXor (getOpT w)) else .error .reservedField
      | _ => .error .unassigned
  | 1 => match (fld w 28 4).toNat with
      | 0 => if fld w 25 3 = 0 then .ok (.vscanAdd (getOpT w)) else .error .reservedField
      | 1 => if fld w 25 3 = 0 then .ok (.vscanMin (getOpT w)) else .error .reservedField
      | 2 => if fld w 25 3 = 0 then .ok (.vscanMax (getOpT w)) else .error .reservedField
      | 3 => if fld w 25 3 = 0 then .ok (.vscanAnd (getOpT w)) else .error .reservedField
      | 4 => if fld w 25 3 = 0 then .ok (.vscanOr (getOpT w)) else .error .reservedField
      | 5 => if fld w 25 3 = 0 then .ok (.vscanXor (getOpT w)) else .error .reservedField
      | _ => .error .unassigned
  | 2 => match (fld w 28 4).toNat with
      | 0 => if fld w 25 3 = 0 then .ok (.vscanxAdd (getOpT w)) else .error .reservedField
      | 1 => if fld w 25 3 = 0 then .ok (.vscanxMin (getOpT w)) else .error .reservedField
      | 2 => if fld w 25 3 = 0 then .ok (.vscanxMax (getOpT w)) else .error .reservedField
      | 3 => if fld w 25 3 = 0 then .ok (.vscanxAnd (getOpT w)) else .error .reservedField
      | 4 => if fld w 25 3 = 0 then .ok (.vscanxOr (getOpT w)) else .error .reservedField
      | 5 => if fld w 25 3 = 0 then .ok (.vscanxXor (getOpT w)) else .error .reservedField
      | _ => .error .unassigned
  | _ => .error .unassigned

/-- Major 17 (04 Table 04-4). -/
def decodeMajor17 (w : BitVec 32) : Except Reject Instr :=
  if fld w 31 1 = 0 then .ok (.vtopk (getOpK w)) else .error .reservedField

/-- Major 18 (04 Table 04-4). -/
def decodeMajor18 (w : BitVec 32) : Except Reject Instr :=
  match (fld w 26 2).toNat with
  | 0 => if fld w 18 2 = 0 then .ok (.ldg (getOpLdg w)) else .error .reservedField
  | 1 => if fld w 18 4 = 0 then .ok (.lds (getOpLds w)) else .error .reservedField
  | 2 => if fld w 18 4 = 0 then .ok (.ldc (getOpLds w)) else .error .reservedField
  | _ => .error .unassigned

/-- Major 19 (04 Table 04-4). -/
def decodeMajor19 (w : BitVec 32) : Except Reject Instr :=
  match (fld w 26 2).toNat with
  | 0 => .ok (.stg (getOpStg w))
  | 1 => if fld w 20 2 = 0 then .ok (.sts (getOpSts w)) else .error .reservedField
  | _ => .error .unassigned

/-- Major 20 (04 Table 04-4). -/
def decodeMajor20 (w : BitVec 32) : Except Reject Instr :=
  match (fld w 26 1).toNat with
  | 0 => match (fld w 28 4).toNat with
      | 0 => .ok (.atomAdd (getOpN w))
      | 1 => .ok (.atomAnd (getOpN w))
      | 2 => .ok (.atomOr (getOpN w))
      | 3 => .ok (.atomXor (getOpN w))
      | 4 => .ok (.atomMinI (getOpN w))
      | 5 => .ok (.atomMinN (getOpN w))
      | 6 => .ok (.atomMaxI (getOpN w))
      | 7 => .ok (.atomMaxN (getOpN w))
      | 8 => .ok (.atomExch (getOpN w))
      | 9 => .ok (.atomCas (getOpN w))
      | 10 => .ok (.atomFadd (getOpN w))
      | 11 => .ok (.atomLdo (getOpN w))
      | _ => .error .unassigned
  | 1 => match (fld w 28 4).toNat with
      | 0 => .ok (.redAdd (getOpN w))
      | 1 => .ok (.redAnd (getOpN w))
      | 2 => .ok (.redOr (getOpN w))
      | 3 => .ok (.redXor (getOpN w))
      | 4 => .ok (.redMinI (getOpN w))
      | 5 => .ok (.redMinN (getOpN w))
      | 6 => .ok (.redMaxI (getOpN w))
      | 7 => .ok (.redMaxN (getOpN w))
      | 8 => .ok (.redExch (getOpN w))
      | 9 => .ok (.redCas (getOpN w))
      | 10 => .ok (.redFadd (getOpN w))
      | 12 => .ok (.redSto (getOpN w))
      | _ => .error .unassigned
  | _ => .error .unassigned

/-- Major 21 (04 Table 04-4). -/
def decodeMajor21 (w : BitVec 32) : Except Reject Instr :=
  match (fld w 28 4).toNat with
  | 0 => if fld w 6 18 = 0 ∧ fld w 27 1 = 0 then .ok (.fence (getOpFence w)) else .error .reservedField
  | 1 => if fld w 18 6 = 0 then .ok (.racq (getOpRacq w)) else .error .reservedField
  | 2 => if fld w 23 1 = 0 ∧ fld w 27 1 = 0 then .ok (.mwait (getOpMwait w)) else .error .reservedField
  | 3 => if fld w 11 1 = 0 ∧ fld w 18 10 = 0 then .ok (.barInit (getOpBarInit w)) else .error .reservedField
  | 4 => if fld w 11 1 = 0 ∧ fld w 18 6 = 0 ∧ fld w 27 1 = 0 then .ok (.barArrive (getOpBarPh w)) else .error .reservedField
  | 5 => if fld w 11 1 = 0 ∧ fld w 18 6 = 0 ∧ fld w 27 1 = 0 then .ok (.barWait (getOpBarPh w)) else .error .reservedField
  | 6 => if fld w 11 13 = 0 ∧ fld w 27 1 = 0 then .ok (.barSync (getOpBarSync w)) else .error .reservedField
  | 7 => if fld w 6 6 = 0 ∧ fld w 18 10 = 128 then .ok (.barRarrive (getOpY2 w)) else .error .reservedField
  | _ => .error .unassigned

/-- Major 22 (04 Table 04-4). -/
def decodeMajor22 (w : BitVec 32) : Except Reject Instr :=
  match (fld w 28 4).toNat with
  | 0 => if fld w 18 9 = 0 then .ok (.copy (getOpF12 w)) else .error .reservedField
  | 1 => if fld w 18 9 = 0 then .ok (.gather (getOpF12 w)) else .error .reservedField
  | 2 => if fld w 18 9 = 0 then .ok (.scatter (getOpF12 w)) else .error .reservedField
  | 3 => if fld w 6 6 = 0 ∧ fld w 18 9 = 0 then .ok (.compact (getOpF2 w)) else .error .reservedField
  | 4 => match (fld w 24 3).toNat with
      | 0 => if fld w 6 6 = 0 ∧ fld w 18 6 = 0 then .ok (.pfetchDesc (getOpF2 w)) else .error .reservedField
      | 1 => if fld w 6 6 = 0 ∧ fld w 18 6 = 0 then .ok (.pfetchHandle (getOpF2 w)) else .error .reservedField
      | _ => .error .unassigned
  | _ => .error .unassigned

/-- Major 23 (04 Table 04-4). -/
def decodeMajor23 (w : BitVec 32) : Except Reject Instr :=
  match (fld w 28 4).toNat with
  | 0 => if fld w 18 10 = 0 then .ok (.pin (getOpY12 w)) else .error .reservedField
  | 1 => if fld w 18 10 = 0 then .ok (.unpin (getOpY12 w)) else .error .reservedField
  | 2 => if fld w 6 6 = 0 ∧ fld w 18 6 = 0 then .ok (.flush (getOpFG2 w)) else .error .reservedField
  | 3 => if fld w 6 6 = 0 ∧ fld w 18 6 = 0 then .ok (.inval (getOpFG2 w)) else .error .reservedField
  | 4 => if fld w 18 9 = 0 then .ok (.hopen (getOpF12 w)) else .error .reservedField
  | 5 => match (fld w 24 3).toNat with
      | 0 => if fld w 6 6 = 0 ∧ fld w 18 6 = 0 then .ok (.hacqRd (getOpF2 w)) else .error .reservedField
      | 1 => if fld w 6 6 = 0 ∧ fld w 18 6 = 0 then .ok (.hacqWr (getOpF2 w)) else .error .reservedField
      | _ => .error .unassigned
  | 6 => match (fld w 24 3).toNat with
      | 0 => if fld w 6 6 = 0 ∧ fld w 18 6 = 0 then .ok (.hrelDrop (getOpF2 w)) else .error .reservedField
      | 1 => if fld w 6 6 = 0 ∧ fld w 18 6 = 0 then .ok (.hrelDown (getOpF2 w)) else .error .reservedField
      | _ => .error .unassigned
  | 7 => if fld w 24 4 = 0 then .ok (.hsplit (getOpY123 w)) else .error .reservedField
  | 8 => if fld w 6 6 = 0 ∧ fld w 18 10 = 0 then .ok (.hclose (getOpY2 w)) else .error .reservedField
  | 9 => if fld w 24 4 = 0 then .ok (.smap (getOpY123 w)) else .error .reservedField
  | 10 => if fld w 18 10 = 0 then .ok (.sunmap (getOpY12 w)) else .error .reservedField
  | _ => .error .unassigned

/-- Major 24 (04 Table 04-4). -/
def decodeMajor24 (w : BitVec 32) : Except Reject Instr :=
  match (fld w 28 4).toNat with
  | 0 => if fld w 6 6 = 0 ∧ fld w 18 6 = 0 then .ok (.mma (getOpFG2 w)) else .error .reservedField
  | 1 => if fld w 9 18 = 0 then .ok (.tkacq (getOpTile w)) else .error .reservedField
  | 2 => if fld w 9 18 = 0 then .ok (.tkrel (getOpTile w)) else .error .reservedField
  | 3 => if fld w 9 18 = 0 then .ok (.tswap (getOpTile w)) else .error .reservedField
  | 4 => if fld w 9 18 = 0 then .ok (.tzero (getOpTile w)) else .error .reservedField
  | 5 => if fld w 9 3 = 0 then .ok (.tread (getOpTRow w)) else .error .reservedField
  | 6 => if fld w 9 3 = 0 then .ok (.twrite (getOpTRow w)) else .error .reservedField
  | 7 => if fld w 6 6 = 0 ∧ fld w 18 9 = 0 then .ok (.colload (getOpF2 w)) else .error .reservedField
  | 8 => if fld w 6 6 = 0 ∧ fld w 18 6 = 0 then .ok (.qcopy (getOpFG2 w)) else .error .reservedField
  | _ => .error .unassigned

/-- Major 25 (04 Table 04-4). -/
def decodeMajor25 (w : BitVec 32) : Except Reject Instr :=
  if fld w 11 1 = 0 then .ok (.bra (getOpBra w)) else .error .reservedField

/-- Major 26 (04 Table 04-4). -/
def decodeMajor26 (w : BitVec 32) : Except Reject Instr :=
  match (fld w 28 4).toNat with
  | 0 => if fld w 6 6 = 0 ∧ fld w 18 6 = 0 ∧ fld w 25 3 = 0 then .ok (.brx (getOpBrx w)) else .error .reservedField
  | 1 => if fld w 18 10 = 0 then .ok (.call (getOpY12 w)) else .error .reservedField
  | 2 => if fld w 6 6 = 0 ∧ fld w 18 10 = 0 then .ok (.ret (getOpY2 w)) else .error .reservedField
  | 3 => if fld w 10 18 = 0 then .ok (.bprio (getOpBprio w)) else .error .reservedField
  | 4 => if fld w 8 20 = 0 then .ok (.rcvset (getOpRcv w)) else .error .reservedField
  | 5 => if fld w 8 20 = 0 then .ok (.rcvwait (getOpRcv w)) else .error .reservedField
  | 6 => if fld w 13 5 = 0 ∧ fld w 22 6 = 0 then .ok (.yield (getOpYield w)) else .error .reservedField
  | 7 => if fld w 6 22 = 0 then .ok .exit else .error .reservedField
  | 8 => if fld w 14 14 = 0 then .ok (.trap (getOpTrap w)) else .error .reservedField
  | 9 => if fld w 6 22 = 0 then .ok .brk else .error .reservedField
  | 10 => if fld w 6 6 = 0 ∧ fld w 18 10 = 0 then .ok (.qsend (getOpY2 w)) else .error .reservedField
  | 11 => if fld w 12 16 = 0 then .ok (.qrecv (getOpD w)) else .error .reservedField
  | 12 => if fld w 18 9 = 0 then .ok (.spawn (getOpF12 w)) else .error .reservedField
  | 13 => if fld w 18 10 = 0 then .ok (.rget (getOpY12 w)) else .error .reservedField
  | _ => .error .unassigned

/-- Major 27 (04 Table 04-4). -/
def decodeMajor27 (w : BitVec 32) : Except Reject Instr :=
  match (fld w 28 4).toNat with
  | 0 => if fld w 18 6 = 0 then .ok (.krefine (getOpK12 w)) else .error .reservedField
  | 1 => if fld w 18 6 = 0 then .ok (.kcoarsen (getOpK12 w)) else .error .reservedField
  | 2 => if fld w 21 3 = 0 then .ok (.kneigh (getOpKneigh w)) else .error .reservedField
  | 3 => if fld w 18 6 = 0 then .ok (.kowner (getOpK12 w)) else .error .reservedField
  | 4 => if fld w 6 6 = 0 then .ok (.kcost (getOpKcost w)) else .error .reservedField
  | 5 => if fld w 18 6 = 0 then .ok (.kclaim (getOpK12 w)) else .error .reservedField
  | 6 => if fld w 6 6 = 0 ∧ fld w 18 6 = 0 then .ok (.krelease (getOpFG2 w)) else .error .reservedField
  | 7 => if fld w 18 6 = 0 then .ok (.kiter (getOpK12 w)) else .error .reservedField
  | 8 => if fld w 12 12 = 0 then .ok (.krebal (getOpKreb w)) else .error .reservedField
  | 9 => if fld w 6 6 = 0 ∧ fld w 24 3 = 0 then .ok (.wpush (getOpWpush w)) else .error .reservedField
  | 10 => if fld w 12 6 = 0 ∧ fld w 24 3 = 0 then .ok (.wpop (getOpWout w)) else .error .reservedField
  | 11 => if fld w 24 3 = 0 then .ok (.wins (getOpWins w)) else .error .reservedField
  | 12 => if fld w 12 6 = 0 ∧ fld w 24 3 = 0 then .ok (.wcount (getOpWout w)) else .error .reservedField
  | _ => .error .unassigned

/-- Major 28 (04 Table 04-4). -/
def decodeMajor28 (w : BitVec 32) : Except Reject Instr :=
  match (fld w 28 4).toNat with
  | 0 => if fld w 24 4 = 0 then .ok (.sysrd (getOpSys w)) else .error .reservedField
  | 1 => if fld w 24 4 = 0 then .ok (.syswr (getOpSys w)) else .error .reservedField
  | 2 => if fld w 6 22 = 0 then .ok .tret else .error .reservedField
  | 3 => match (fld w 24 3).toNat with
      | 0 => if fld w 6 6 = 0 ∧ fld w 18 6 = 0 then .ok (.rmodeSwm (getOpF2 w)) else .error .reservedField
      | 1 => if fld w 6 6 = 0 ∧ fld w 18 6 = 0 then .ok (.rmodeCoh (getOpF2 w)) else .error .reservedField
      | _ => .error .unassigned
  | 4 => if fld w 6 22 = 0 then .ok .halt else .error .reservedField
  | 5 => if fld w 12 15 = 0 then .ok (.ckpt (getOpF1 w)) else .error .reservedField
  | 6 => if fld w 12 16 = 0 then .ok (.rbstat (getOpD w)) else .error .reservedField
  | 7 => if fld w 12 16 = 0 then .ok (.finj (getOpD w)) else .error .reservedField
  | _ => .error .unassigned

/-- A 32-bit word (04 R97): the majors of Table 04-4, and the clause header at major 31. -/
def decode32 (w : BitVec 32) : Except Reject Instr :=
  match (fld w 1 5).toNat with
  | 0 => decodeMajor0 w
  | 1 => decodeMajor1 w
  | 2 => decodeMajor2 w
  | 3 => decodeMajor3 w
  | 4 => decodeMajor4 w
  | 5 => decodeMajor5 w
  | 10 => decodeMajor10 w
  | 6 => decodeMajor6 w
  | 7 => decodeMajor7 w
  | 8 => decodeMajor8 w
  | 9 => decodeMajor9 w
  | 11 => decodeMajor11 w
  | 12 => decodeMajor12 w
  | 13 => decodeMajor13 w
  | 14 => decodeMajor14 w
  | 15 => decodeMajor15 w
  | 16 => decodeMajor16 w
  | 17 => decodeMajor17 w
  | 18 => decodeMajor18 w
  | 19 => decodeMajor19 w
  | 20 => decodeMajor20 w
  | 21 => decodeMajor21 w
  | 22 => decodeMajor22 w
  | 23 => decodeMajor23 w
  | 24 => decodeMajor24 w
  | 25 => decodeMajor25 w
  | 26 => decodeMajor26 w
  | 27 => decodeMajor27 w
  | 28 => decodeMajor28 w
  | 31 => if fld w 31 1 = 0 then .ok (.clauseHeader (getOpHdr w)) else .error .reservedField
  | _ => .error .unassigned

/-- The fields of a 16-bit instruction. -/
def getOp16 (h : BitVec 16) : Op16 := ⟨h.extractLsb' 11 5, h.extractLsb' 5 6⟩

/-- A 16-bit parcel (04 R98). -/
def decode16 (h : BitVec 16) : Except Reject Instr :=
  match (h.extractLsb' 1 4).toNat with
  | 0 => if h.extractLsb' 5 11 = 0 then .ok .nop else .error .reservedField
  | 1 => .ok (.vmovC16 (getOp16 h))
  | 2 => .ok (.vaddI32x2C16 (getOp16 h))
  | 3 => .ok (.vsubI32x2C16 (getOp16 h))
  | 4 => .ok (.vmulI32x2C16 (getOp16 h))
  | 5 => .ok (.vandC16 (getOp16 h))
  | 6 => .ok (.vorC16 (getOp16 h))
  | 7 => .ok (.vxorC16 (getOp16 h))
  | 8 => .ok (.vshlI32x2C16 (getOp16 h))
  | 9 => .ok (.vshrN32x2C16 (getOp16 h))
  | 10 => .ok (.vfaddF32x2C16 (getOp16 h))
  | 11 => .ok (.vfsubF32x2C16 (getOp16 h))
  | 12 => .ok (.vfmulF32x2C16 (getOp16 h))
  | 13 => .ok (.vfminF32x2C16 (getOp16 h))
  | 14 => .ok (.vfmaxF32x2C16 (getOp16 h))
  | 15 => .ok (.vfaddF64C16 (getOp16 h))
  | _ => .error .unassigned

/-- The instruction at the head of a byte sequence, with the bytes after it. Parcels are little-endian (00 R5, 04 R82):
bit 0 of the first parcel gives the length. Log entry 79 (DEDUCED). Log entry 82 (DESIGN CHOICE). -/
def decode : List Byte → Except Reject (Instr × List Byte)
  | b0 :: b1 :: rest =>
    if b0.extractLsb' 0 1 = 0 then
      match decode16 (b1 ++ b0) with
      | .ok i => .ok (i, rest)
      | .error e => .error e
    else
      match rest with
      | b2 :: b3 :: rest' =>
        match decode32 (b3 ++ b2 ++ b1 ++ b0) with
        | .ok i => .ok (i, rest')
        | .error e => .error e
      | _ => .error .truncated
  | _ => .error .truncated

/-- The bytes of a number, least significant first. -/
def bytesOfNat : Nat → Nat → List Byte
  | 0, _ => []
  | n + 1, x => BitVec.ofNat 8 x :: bytesOfNat n (x / 256)

/-- What the decoder reads from an instruction numbered as the opcode table numbers bits. A 32-bit word follows whole
when bit 0 says so. -/
def decodeTableWord (_nbits w : Nat) : Option Instr :=
  match decode (bytesOfNat 4 w) with
  | .ok (i, _) => some i
  | .error _ => none

/-- The word of a 32-bit instruction (04 Tables 04-1 to 04-11); none for the other rows. -/
def encode32 : Instr → Option (BitVec 32)
  | .clauseHeader o => some (0#1 ++ o.len ++ o.flagB ++ o.flagA ++ o.wait ++ 63#6)
  | .vaddI8x8 o => some (0#4 ++ o.cb ++ o.b ++ o.ca ++ o.a ++ o.d ++ 1#6)
  | .vsubI8x8 o => some (1#4 ++ o.cb ++ o.b ++ o.ca ++ o.a ++ o.d ++ 1#6)
  | .vminI8x8 o => some (2#4 ++ o.cb ++ o.b ++ o.ca ++ o.a ++ o.d ++ 1#6)
  | .vminN8x8 o => some (3#4 ++ o.cb ++ o.b ++ o.ca ++ o.a ++ o.d ++ 1#6)
  | .vmaxI8x8 o => some (4#4 ++ o.cb ++ o.b ++ o.ca ++ o.a ++ o.d ++ 1#6)
  | .vmaxN8x8 o => some (5#4 ++ o.cb ++ o.b ++ o.ca ++ o.a ++ o.d ++ 1#6)
  | .vaddI8x8Sat o => some (6#4 ++ o.cb ++ o.b ++ o.ca ++ o.a ++ o.d ++ 1#6)
  | .vaddN8x8Sat o => some (7#4 ++ o.cb ++ o.b ++ o.ca ++ o.a ++ o.d ++ 1#6)
  | .vaddI16x4 o => some (8#4 ++ o.cb ++ o.b ++ o.ca ++ o.a ++ o.d ++ 1#6)
  | .vsubI16x4 o => some (9#4 ++ o.cb ++ o.b ++ o.ca ++ o.a ++ o.d ++ 1#6)
  | .vminI16x4 o => some (10#4 ++ o.cb ++ o.b ++ o.ca ++ o.a ++ o.d ++ 1#6)
  | .vminN16x4 o => some (11#4 ++ o.cb ++ o.b ++ o.ca ++ o.a ++ o.d ++ 1#6)
  | .vmaxI16x4 o => some (12#4 ++ o.cb ++ o.b ++ o.ca ++ o.a ++ o.d ++ 1#6)
  | .vmaxN16x4 o => some (13#4 ++ o.cb ++ o.b ++ o.ca ++ o.a ++ o.d ++ 1#6)
  | .vaddI16x4Sat o => some (14#4 ++ o.cb ++ o.b ++ o.ca ++ o.a ++ o.d ++ 1#6)
  | .vaddN16x4Sat o => some (15#4 ++ o.cb ++ o.b ++ o.ca ++ o.a ++ o.d ++ 1#6)
  | .vaddI32x2 o => some (0#4 ++ o.cb ++ o.b ++ o.ca ++ o.a ++ o.d ++ 3#6)
  | .vsubI32x2 o => some (1#4 ++ o.cb ++ o.b ++ o.ca ++ o.a ++ o.d ++ 3#6)
  | .vmulI32x2 o => some (2#4 ++ o.cb ++ o.b ++ o.ca ++ o.a ++ o.d ++ 3#6)
  | .vmulhiI32x2 o => some (3#4 ++ o.cb ++ o.b ++ o.ca ++ o.a ++ o.d ++ 3#6)
  | .vmulhiN32x2 o => some (4#4 ++ o.cb ++ o.b ++ o.ca ++ o.a ++ o.d ++ 3#6)
  | .vminI32x2 o => some (5#4 ++ o.cb ++ o.b ++ o.ca ++ o.a ++ o.d ++ 3#6)
  | .vminN32x2 o => some (6#4 ++ o.cb ++ o.b ++ o.ca ++ o.a ++ o.d ++ 3#6)
  | .vmaxI32x2 o => some (7#4 ++ o.cb ++ o.b ++ o.ca ++ o.a ++ o.d ++ 3#6)
  | .vmaxN32x2 o => some (8#4 ++ o.cb ++ o.b ++ o.ca ++ o.a ++ o.d ++ 3#6)
  | .vshlI32x2 o => some (9#4 ++ o.cb ++ o.b ++ o.ca ++ o.a ++ o.d ++ 3#6)
  | .vshrN32x2 o => some (10#4 ++ o.cb ++ o.b ++ o.ca ++ o.a ++ o.d ++ 3#6)
  | .vshrI32x2 o => some (11#4 ++ o.cb ++ o.b ++ o.ca ++ o.a ++ o.d ++ 3#6)
  | .vaddI32x2Sat o => some (12#4 ++ o.cb ++ o.b ++ o.ca ++ o.a ++ o.d ++ 3#6)
  | .vaddN32x2Sat o => some (13#4 ++ o.cb ++ o.b ++ o.ca ++ o.a ++ o.d ++ 3#6)
  | .vsubI32x2Sat o => some (14#4 ++ o.cb ++ o.b ++ o.ca ++ o.a ++ o.d ++ 3#6)
  | .vsubN32x2Sat o => some (15#4 ++ o.cb ++ o.b ++ o.ca ++ o.a ++ o.d ++ 3#6)
  | .vaddI64 o => some (0#4 ++ o.cb ++ o.b ++ o.ca ++ o.a ++ o.d ++ 5#6)
  | .vsubI64 o => some (1#4 ++ o.cb ++ o.b ++ o.ca ++ o.a ++ o.d ++ 5#6)
  | .vmulI64 o => some (2#4 ++ o.cb ++ o.b ++ o.ca ++ o.a ++ o.d ++ 5#6)
  | .vmulhiI64 o => some (3#4 ++ o.cb ++ o.b ++ o.ca ++ o.a ++ o.d ++ 5#6)
  | .vmulhiN64 o => some (4#4 ++ o.cb ++ o.b ++ o.ca ++ o.a ++ o.d ++ 5#6)
  | .vminI64 o => some (5#4 ++ o.cb ++ o.b ++ o.ca ++ o.a ++ o.d ++ 5#6)
  | .vminN64 o => some (6#4 ++ o.cb ++ o.b ++ o.ca ++ o.a ++ o.d ++ 5#6)
  | .vmaxI64 o => some (7#4 ++ o.cb ++ o.b ++ o.ca ++ o.a ++ o.d ++ 5#6)
  | .vmaxN64 o => some (8#4 ++ o.cb ++ o.b ++ o.ca ++ o.a ++ o.d ++ 5#6)
  | .vshlI64 o => some (9#4 ++ o.cb ++ o.b ++ o.ca ++ o.a ++ o.d ++ 5#6)
  | .vshrN64 o => some (10#4 ++ o.cb ++ o.b ++ o.ca ++ o.a ++ o.d ++ 5#6)
  | .vshrI64 o => some (11#4 ++ o.cb ++ o.b ++ o.ca ++ o.a ++ o.d ++ 5#6)
  | .vaddI64Sat o => some (12#4 ++ o.cb ++ o.b ++ o.ca ++ o.a ++ o.d ++ 5#6)
  | .vaddN64Sat o => some (13#4 ++ o.cb ++ o.b ++ o.ca ++ o.a ++ o.d ++ 5#6)
  | .vsubI64Sat o => some (14#4 ++ o.cb ++ o.b ++ o.ca ++ o.a ++ o.d ++ 5#6)
  | .vsubN64Sat o => some (15#4 ++ o.cb ++ o.b ++ o.ca ++ o.a ++ o.d ++ 5#6)
  | .vand o => some (0#4 ++ o.cb ++ o.b ++ o.ca ++ o.a ++ o.d ++ 7#6)
  | .vor o => some (1#4 ++ o.cb ++ o.b ++ o.ca ++ o.a ++ o.d ++ 7#6)
  | .vxor o => some (2#4 ++ o.cb ++ o.b ++ o.ca ++ o.a ++ o.d ++ 7#6)
  | .vandn o => some (3#4 ++ o.cb ++ o.b ++ o.ca ++ o.a ++ o.d ++ 7#6)
  | .vmov o => some (1024#12 ++ o.ca ++ o.a ++ o.d ++ 7#6)
  | .vsplat o => some (1280#12 ++ o.ca ++ o.a ++ o.d ++ 7#6)
  | .vfaddF64 o => some (0#4 ++ o.cb ++ o.b ++ o.ca ++ o.a ++ o.d ++ 9#6)
  | .vfsubF64 o => some (1#4 ++ o.cb ++ o.b ++ o.ca ++ o.a ++ o.d ++ 9#6)
  | .vfmulF64 o => some (2#4 ++ o.cb ++ o.b ++ o.ca ++ o.a ++ o.d ++ 9#6)
  | .vfmaF64 o => some (3#4 ++ o.cb ++ o.b ++ o.ca ++ o.a ++ o.d ++ 9#6)
  | .vfminF64 o => some (4#4 ++ o.cb ++ o.b ++ o.ca ++ o.a ++ o.d ++ 9#6)
  | .vfmaxF64 o => some (5#4 ++ o.cb ++ o.b ++ o.ca ++ o.a ++ o.d ++ 9#6)
  | .vfminF64Nan o => some (6#4 ++ o.cb ++ o.b ++ o.ca ++ o.a ++ o.d ++ 9#6)
  | .vfmaxF64Nan o => some (7#4 ++ o.cb ++ o.b ++ o.ca ++ o.a ++ o.d ++ 9#6)
  | .vfaddF32x2 o => some (8#4 ++ o.cb ++ o.b ++ o.ca ++ o.a ++ o.d ++ 9#6)
  | .vfsubF32x2 o => some (9#4 ++ o.cb ++ o.b ++ o.ca ++ o.a ++ o.d ++ 9#6)
  | .vfmulF32x2 o => some (10#4 ++ o.cb ++ o.b ++ o.ca ++ o.a ++ o.d ++ 9#6)
  | .vfmaF32x2 o => some (11#4 ++ o.cb ++ o.b ++ o.ca ++ o.a ++ o.d ++ 9#6)
  | .vfminF32x2 o => some (12#4 ++ o.cb ++ o.b ++ o.ca ++ o.a ++ o.d ++ 9#6)
  | .vfmaxF32x2 o => some (13#4 ++ o.cb ++ o.b ++ o.ca ++ o.a ++ o.d ++ 9#6)
  | .vfminF32x2Nan o => some (14#4 ++ o.cb ++ o.b ++ o.ca ++ o.a ++ o.d ++ 9#6)
  | .vfmaxF32x2Nan o => some (15#4 ++ o.cb ++ o.b ++ o.ca ++ o.a ++ o.d ++ 9#6)
  | .vfaddF16x4 o => some (0#4 ++ o.cb ++ o.b ++ o.ca ++ o.a ++ o.d ++ 11#6)
  | .vfsubF16x4 o => some (1#4 ++ o.cb ++ o.b ++ o.ca ++ o.a ++ o.d ++ 11#6)
  | .vfmulF16x4 o => some (2#4 ++ o.cb ++ o.b ++ o.ca ++ o.a ++ o.d ++ 11#6)
  | .vfmaF16x4 o => some (3#4 ++ o.cb ++ o.b ++ o.ca ++ o.a ++ o.d ++ 11#6)
  | .vfminF16x4 o => some (4#4 ++ o.cb ++ o.b ++ o.ca ++ o.a ++ o.d ++ 11#6)
  | .vfmaxF16x4 o => some (5#4 ++ o.cb ++ o.b ++ o.ca ++ o.a ++ o.d ++ 11#6)
  | .vfminF16x4Nan o => some (6#4 ++ o.cb ++ o.b ++ o.ca ++ o.a ++ o.d ++ 11#6)
  | .vfmaxF16x4Nan o => some (7#4 ++ o.cb ++ o.b ++ o.ca ++ o.a ++ o.d ++ 11#6)
  | .vfaddBf16x4 o => some (8#4 ++ o.cb ++ o.b ++ o.ca ++ o.a ++ o.d ++ 11#6)
  | .vfsubBf16x4 o => some (9#4 ++ o.cb ++ o.b ++ o.ca ++ o.a ++ o.d ++ 11#6)
  | .vfmulBf16x4 o => some (10#4 ++ o.cb ++ o.b ++ o.ca ++ o.a ++ o.d ++ 11#6)
  | .vfmaBf16x4 o => some (11#4 ++ o.cb ++ o.b ++ o.ca ++ o.a ++ o.d ++ 11#6)
  | .vfminBf16x4 o => some (12#4 ++ o.cb ++ o.b ++ o.ca ++ o.a ++ o.d ++ 11#6)
  | .vfmaxBf16x4 o => some (13#4 ++ o.cb ++ o.b ++ o.ca ++ o.a ++ o.d ++ 11#6)
  | .vfminBf16x4Nan o => some (14#4 ++ o.cb ++ o.b ++ o.ca ++ o.a ++ o.d ++ 11#6)
  | .vfmaxBf16x4Nan o => some (15#4 ++ o.cb ++ o.b ++ o.ca ++ o.a ++ o.d ++ 11#6)
  | .saddI64 o => some (0#4 ++ o.cb ++ o.b ++ o.ca ++ o.a ++ o.d ++ 21#6)
  | .ssubI64 o => some (1#4 ++ o.cb ++ o.b ++ o.ca ++ o.a ++ o.d ++ 21#6)
  | .smulI64 o => some (2#4 ++ o.cb ++ o.b ++ o.ca ++ o.a ++ o.d ++ 21#6)
  | .smulhiI64 o => some (3#4 ++ o.cb ++ o.b ++ o.ca ++ o.a ++ o.d ++ 21#6)
  | .smulhiN64 o => some (4#4 ++ o.cb ++ o.b ++ o.ca ++ o.a ++ o.d ++ 21#6)
  | .sand o => some (5#4 ++ o.cb ++ o.b ++ o.ca ++ o.a ++ o.d ++ 21#6)
  | .sor o => some (6#4 ++ o.cb ++ o.b ++ o.ca ++ o.a ++ o.d ++ 21#6)
  | .sxor o => some (7#4 ++ o.cb ++ o.b ++ o.ca ++ o.a ++ o.d ++ 21#6)
  | .sshlI64 o => some (8#4 ++ o.cb ++ o.b ++ o.ca ++ o.a ++ o.d ++ 21#6)
  | .sshrN64 o => some (9#4 ++ o.cb ++ o.b ++ o.ca ++ o.a ++ o.d ++ 21#6)
  | .sshrI64 o => some (10#4 ++ o.cb ++ o.b ++ o.ca ++ o.a ++ o.d ++ 21#6)
  | .sminI64 o => some (11#4 ++ o.cb ++ o.b ++ o.ca ++ o.a ++ o.d ++ 21#6)
  | .sminN64 o => some (12#4 ++ o.cb ++ o.b ++ o.ca ++ o.a ++ o.d ++ 21#6)
  | .smaxI64 o => some (13#4 ++ o.cb ++ o.b ++ o.ca ++ o.a ++ o.d ++ 21#6)
  | .smaxN64 o => some (14#4 ++ o.cb ++ o.b ++ o.ca ++ o.a ++ o.d ++ 21#6)
  | .smov o => some (3840#12 ++ o.ca ++ o.a ++ o.d ++ 21#6)
  | .vfaddQ o => some (0#2 ++ o.t ++ o.rnd ++ o.ftz ++ o.b ++ o.a ++ o.d ++ 13#6)
  | .vfsubQ o => some (1#2 ++ o.t ++ o.rnd ++ o.ftz ++ o.b ++ o.a ++ o.d ++ 13#6)
  | .vfmulQ o => some (2#2 ++ o.t ++ o.rnd ++ o.ftz ++ o.b ++ o.a ++ o.d ++ 13#6)
  | .vfmaQ o => some (3#2 ++ o.t ++ o.rnd ++ o.ftz ++ o.b ++ o.a ++ o.d ++ 13#6)
  | .vfabs o => some (0#2 ++ o.t ++ 0#8 ++ o.ca ++ o.a ++ o.d ++ 15#6)
  | .vfneg o => some (0#2 ++ o.t ++ 1#8 ++ o.ca ++ o.a ++ o.d ++ 15#6)
  | .vrcp o => some (0#2 ++ o.t ++ 2#8 ++ o.ca ++ o.a ++ o.d ++ 15#6)
  | .vrsqrt o => some (0#2 ++ o.t ++ 3#8 ++ o.ca ++ o.a ++ o.d ++ 15#6)
  | .vsqrt o => some (0#2 ++ o.t ++ 4#8 ++ o.ca ++ o.a ++ o.d ++ 15#6)
  | .vsin o => some (0#2 ++ o.t ++ 5#8 ++ o.ca ++ o.a ++ o.d ++ 15#6)
  | .vcos o => some (0#2 ++ o.t ++ 6#8 ++ o.ca ++ o.a ++ o.d ++ 15#6)
  | .vsinpi o => some (0#2 ++ o.t ++ 7#8 ++ o.ca ++ o.a ++ o.d ++ 15#6)
  | .vcospi o => some (0#2 ++ o.t ++ 8#8 ++ o.ca ++ o.a ++ o.d ++ 15#6)
  | .vexp2 o => some (0#2 ++ o.t ++ 9#8 ++ o.ca ++ o.a ++ o.d ++ 15#6)
  | .vlog2 o => some (0#2 ++ o.t ++ 10#8 ++ o.ca ++ o.a ++ o.d ++ 15#6)
  | .vtanh o => some (0#2 ++ o.t ++ 11#8 ++ o.ca ++ o.a ++ o.d ++ 15#6)
  | .vfrintn o => some (0#2 ++ o.t ++ 12#8 ++ o.ca ++ o.a ++ o.d ++ 15#6)
  | .vfrintz o => some (0#2 ++ o.t ++ 13#8 ++ o.ca ++ o.a ++ o.d ++ 15#6)
  | .vfrintm o => some (0#2 ++ o.t ++ 14#8 ++ o.ca ++ o.a ++ o.d ++ 15#6)
  | .vfrintp o => some (0#2 ++ o.t ++ 15#8 ++ o.ca ++ o.a ++ o.d ++ 15#6)
  | .vfclass o => some (0#2 ++ o.t ++ 16#8 ++ o.ca ++ o.a ++ o.d ++ 15#6)
  | .vabs o => some (2#3 ++ o.t ++ 0#8 ++ o.ca ++ o.a ++ o.d ++ 15#6)
  | .vneg o => some (2#3 ++ o.t ++ 1#8 ++ o.ca ++ o.a ++ o.d ++ 15#6)
  | .vnot o => some (2#3 ++ o.t ++ 2#8 ++ o.ca ++ o.a ++ o.d ++ 15#6)
  | .vpopc o => some (2#3 ++ o.t ++ 3#8 ++ o.ca ++ o.a ++ o.d ++ 15#6)
  | .vclz o => some (2#3 ++ o.t ++ 4#8 ++ o.ca ++ o.a ++ o.d ++ 15#6)
  | .vbrev o => some (2#3 ++ o.t ++ 5#8 ++ o.ca ++ o.a ++ o.d ++ 15#6)
  | .vlanes o => some (393216#20 ++ o.d ++ 15#6)
  | .vpasses o => some (393472#20 ++ o.d ++ 15#6)
  | .vtid o => some (393728#20 ++ o.d ++ 15#6)
  | .vlanemap o => some (393984#20 ++ o.d ++ 15#6)
  | .vcvt o => some (o.sat ++ o.rnd ++ o.dt ++ o.st ++ o.ca ++ o.a ++ o.d ++ 17#6)
  | .vquant o => some (0#4 ++ o.slot ++ o.b ++ o.ca ++ o.a ++ o.d ++ 19#6)
  | .vdequant o => some (1#4 ++ o.slot ++ o.b ++ o.ca ++ o.a ++ o.d ++ 19#6)
  | .vcbdec o => some (2#4 ++ o.slot ++ o.b ++ o.ca ++ o.a ++ o.d ++ 19#6)
  | .amadI8x8 o => some (4#4 ++ o.cb ++ o.b ++ o.ca ++ o.a ++ o.d ++ 19#6)
  | .amadN8x8 o => some (5#4 ++ o.cb ++ o.b ++ o.ca ++ o.a ++ o.d ++ 19#6)
  | .amadF16x4 o => some (6#4 ++ o.cb ++ o.b ++ o.ca ++ o.a ++ o.d ++ 19#6)
  | .amadBf16x4 o => some (7#4 ++ o.cb ++ o.b ++ o.ca ++ o.a ++ o.d ++ 19#6)
  | .amadF32x2 o => some (8#4 ++ o.cb ++ o.b ++ o.ca ++ o.a ++ o.d ++ 19#6)
  | .amadF64 o => some (9#4 ++ o.cb ++ o.b ++ o.ca ++ o.a ++ o.d ++ 19#6)
  | .azero o => some (655360#20 ++ o.d ++ 19#6)
  | .amov o => some (11#4 ++ o.cb ++ o.b ++ o.ca ++ o.a ++ o.d ++ 19#6)
  | .vnarrowLo o => some (12288#14 ++ o.a ++ o.d ++ 19#6)
  | .vnarrowHi o => some (13312#14 ++ o.a ++ o.d ++ 19#6)
  | .vnarrowI16x4Sat o => some (14336#14 ++ o.a ++ o.d ++ 19#6)
  | .vnarrowF16x4 o => some (15360#14 ++ o.a ++ o.d ++ 19#6)
  | .saddi o => some (o.imm ++ 0#2 ++ o.a ++ o.d ++ 23#6)
  | .sandi o => some (o.imm ++ 1#2 ++ o.a ++ o.d ++ 23#6)
  | .vaddiI32x2 o => some (o.imm ++ 2#2 ++ o.a ++ o.d ++ 23#6)
  | .vaddiI64 o => some (o.imm ++ 3#2 ++ o.a ++ o.d ++ 23#6)
  | .smovz o => some (0#4 ++ o.imm ++ o.d ++ 25#6)
  | .smovs o => some (1#4 ++ o.imm ++ o.d ++ 25#6)
  | .smovk16 o => some (2#4 ++ o.imm ++ o.d ++ 25#6)
  | .smovk32 o => some (3#4 ++ o.imm ++ o.d ++ 25#6)
  | .smovk48 o => some (4#4 ++ o.imm ++ o.d ++ 25#6)
  | .vmovz o => some (8#4 ++ o.imm ++ o.d ++ 25#6)
  | .vmovs o => some (9#4 ++ o.imm ++ o.d ++ 25#6)
  | .vmovk16 o => some (10#4 ++ o.imm ++ o.d ++ 25#6)
  | .vmovk32 o => some (11#4 ++ o.imm ++ o.d ++ 25#6)
  | .vmovk48 o => some (12#4 ++ o.imm ++ o.d ++ 25#6)
  | .vceq o => some (0#6 ++ o.b ++ o.ca ++ o.a ++ o.t ++ o.pd ++ 27#6)
  | .vcne o => some (4#6 ++ o.b ++ o.ca ++ o.a ++ o.t ++ o.pd ++ 27#6)
  | .vclt o => some (8#6 ++ o.b ++ o.ca ++ o.a ++ o.t ++ o.pd ++ 27#6)
  | .vcle o => some (12#6 ++ o.b ++ o.ca ++ o.a ++ o.t ++ o.pd ++ 27#6)
  | .vcgt o => some (16#6 ++ o.b ++ o.ca ++ o.a ++ o.t ++ o.pd ++ 27#6)
  | .vcge o => some (20#6 ++ o.b ++ o.ca ++ o.a ++ o.t ++ o.pd ++ 27#6)
  | .vcord o => some (24#6 ++ o.b ++ o.ca ++ o.a ++ o.t ++ o.pd ++ 27#6)
  | .vcunord o => some (28#6 ++ o.b ++ o.ca ++ o.a ++ o.t ++ o.pd ++ 27#6)
  | .vcneu o => some (32#6 ++ o.b ++ o.ca ++ o.a ++ o.t ++ o.pd ++ 27#6)
  | .sceq o => some (2#6 ++ o.b ++ o.ca ++ o.a ++ o.t ++ o.pd ++ 27#6)
  | .scne o => some (6#6 ++ o.b ++ o.ca ++ o.a ++ o.t ++ o.pd ++ 27#6)
  | .sclt o => some (10#6 ++ o.b ++ o.ca ++ o.a ++ o.t ++ o.pd ++ 27#6)
  | .scle o => some (14#6 ++ o.b ++ o.ca ++ o.a ++ o.t ++ o.pd ++ 27#6)
  | .scgt o => some (18#6 ++ o.b ++ o.ca ++ o.a ++ o.t ++ o.pd ++ 27#6)
  | .scge o => some (22#6 ++ o.b ++ o.ca ++ o.a ++ o.t ++ o.pd ++ 27#6)
  | .scord o => some (26#6 ++ o.b ++ o.ca ++ o.a ++ o.t ++ o.pd ++ 27#6)
  | .scunord o => some (30#6 ++ o.b ++ o.ca ++ o.a ++ o.t ++ o.pd ++ 27#6)
  | .scneu o => some (34#6 ++ o.b ++ o.ca ++ o.a ++ o.t ++ o.pd ++ 27#6)
  | .vsel o => some (0#1 ++ o.p ++ o.cb ++ o.b ++ o.ca ++ o.a ++ o.d ++ 29#6)
  | .pand o => some (8192#14 ++ o.pb ++ o.pa ++ 0#3 ++ o.pd ++ 29#6)
  | .por o => some (9216#14 ++ o.pb ++ o.pa ++ 0#3 ++ o.pd ++ 29#6)
  | .pxor o => some (10240#14 ++ o.pb ++ o.pa ++ 0#3 ++ o.pd ++ 29#6)
  | .pandn o => some (11264#14 ++ o.pb ++ o.pa ++ 0#3 ++ o.pd ++ 29#6)
  | .pnot o => some (98304#17 ++ o.pa ++ 0#3 ++ o.pd ++ 29#6)
  | .pmov o => some (106496#17 ++ o.pa ++ 0#3 ++ o.pd ++ 29#6)
  | .vshflN64 o => some (0#5 ++ o.p ++ o.b ++ o.a ++ o.d ++ 31#6)
  | .vshflN32x2 o => some (2#5 ++ o.p ++ o.b ++ o.a ++ o.d ++ 31#6)
  | .vshflN16x4 o => some (4#5 ++ o.p ++ o.b ++ o.a ++ o.d ++ 31#6)
  | .vshflN8x8 o => some (6#5 ++ o.p ++ o.b ++ o.a ++ o.d ++ 31#6)
  | .vbcast o => some (8#5 ++ o.p ++ o.b ++ o.a ++ o.d ++ 31#6)
  | .vballot o => some (10#5 ++ o.p ++ 0#12 ++ o.d ++ 31#6)
  | .vall o => some (12#5 ++ o.p ++ 0#9 ++ o.pa ++ 31#12)
  | .vany o => some (14#5 ++ o.p ++ 0#9 ++ o.pa ++ 31#12)
  | .vuni o => some (16#5 ++ o.p ++ 0#6 ++ o.a ++ 31#12)
  | .vcompact o => some (18#5 ++ o.p ++ 0#6 ++ o.a ++ o.d ++ 31#6)
  | .vmatch o => some (10240#14 ++ o.a ++ o.d ++ 31#6)
  | .vrdfirst o => some (11264#14 ++ o.a ++ o.d ++ 31#6)
  | .vredAdd o => some (0#9 ++ o.t ++ o.ca ++ o.a ++ o.d ++ 33#6)
  | .vredMin o => some (32#9 ++ o.t ++ o.ca ++ o.a ++ o.d ++ 33#6)
  | .vredMax o => some (64#9 ++ o.t ++ o.ca ++ o.a ++ o.d ++ 33#6)
  | .vredAnd o => some (96#9 ++ o.t ++ o.ca ++ o.a ++ o.d ++ 33#6)
  | .vredOr o => some (128#9 ++ o.t ++ o.ca ++ o.a ++ o.d ++ 33#6)
  | .vredXor o => some (160#9 ++ o.t ++ o.ca ++ o.a ++ o.d ++ 33#6)
  | .vscanAdd o => some (1#9 ++ o.t ++ o.ca ++ o.a ++ o.d ++ 33#6)
  | .vscanMin o => some (33#9 ++ o.t ++ o.ca ++ o.a ++ o.d ++ 33#6)
  | .vscanMax o => some (65#9 ++ o.t ++ o.ca ++ o.a ++ o.d ++ 33#6)
  | .vscanAnd o => some (97#9 ++ o.t ++ o.ca ++ o.a ++ o.d ++ 33#6)
  | .vscanOr o => some (129#9 ++ o.t ++ o.ca ++ o.a ++ o.d ++ 33#6)
  | .vscanXor o => some (161#9 ++ o.t ++ o.ca ++ o.a ++ o.d ++ 33#6)
  | .vscanxAdd o => some (2#9 ++ o.t ++ o.ca ++ o.a ++ o.d ++ 33#6)
  | .vscanxMin o => some (34#9 ++ o.t ++ o.ca ++ o.a ++ o.d ++ 33#6)
  | .vscanxMax o => some (66#9 ++ o.t ++ o.ca ++ o.a ++ o.d ++ 33#6)
  | .vscanxAnd o => some (98#9 ++ o.t ++ o.ca ++ o.a ++ o.d ++ 33#6)
  | .vscanxOr o => some (130#9 ++ o.t ++ o.ca ++ o.a ++ o.d ++ 33#6)
  | .vscanxXor o => some (162#9 ++ o.t ++ o.ca ++ o.a ++ o.d ++ 33#6)
  | .vtopk o => some (0#1 ++ o.k ++ o.nanhi ++ o.abs ++ o.t ++ o.pd ++ o.a ++ o.d ++ 35#6)
  | .ldg o => some (o.off ++ 0#2 ++ o.size ++ o.fsel ++ o.hint ++ 0#2 ++ o.base ++ o.d ++ 37#6)
  | .lds o => some (o.off ++ 1#2 ++ o.size ++ o.fsel ++ 0#4 ++ o.base ++ o.d ++ 37#6)
  | .ldc o => some (o.off ++ 2#2 ++ o.size ++ o.fsel ++ 0#4 ++ o.base ++ o.d ++ 37#6)
  | .stg o => some (o.off ++ 0#2 ++ o.size ++ o.fsel ++ o.hint ++ o.dcode ++ o.base ++ o.data ++ 39#6)
  | .sts o => some (o.off ++ 1#2 ++ o.size ++ o.fsel ++ 0#2 ++ o.dcode ++ o.base ++ o.data ++ 39#6)
  | .atomAdd o => some (0#4 ++ o.fsel ++ 0#1 ++ o.order ++ o.scope ++ o.size ++ o.base ++ o.b ++ 41#6)
  | .atomAnd o => some (1#4 ++ o.fsel ++ 0#1 ++ o.order ++ o.scope ++ o.size ++ o.base ++ o.b ++ 41#6)
  | .atomOr o => some (2#4 ++ o.fsel ++ 0#1 ++ o.order ++ o.scope ++ o.size ++ o.base ++ o.b ++ 41#6)
  | .atomXor o => some (3#4 ++ o.fsel ++ 0#1 ++ o.order ++ o.scope ++ o.size ++ o.base ++ o.b ++ 41#6)
  | .atomMinI o => some (4#4 ++ o.fsel ++ 0#1 ++ o.order ++ o.scope ++ o.size ++ o.base ++ o.b ++ 41#6)
  | .atomMinN o => some (5#4 ++ o.fsel ++ 0#1 ++ o.order ++ o.scope ++ o.size ++ o.base ++ o.b ++ 41#6)
  | .atomMaxI o => some (6#4 ++ o.fsel ++ 0#1 ++ o.order ++ o.scope ++ o.size ++ o.base ++ o.b ++ 41#6)
  | .atomMaxN o => some (7#4 ++ o.fsel ++ 0#1 ++ o.order ++ o.scope ++ o.size ++ o.base ++ o.b ++ 41#6)
  | .atomExch o => some (8#4 ++ o.fsel ++ 0#1 ++ o.order ++ o.scope ++ o.size ++ o.base ++ o.b ++ 41#6)
  | .atomCas o => some (9#4 ++ o.fsel ++ 0#1 ++ o.order ++ o.scope ++ o.size ++ o.base ++ o.b ++ 41#6)
  | .atomFadd o => some (10#4 ++ o.fsel ++ 0#1 ++ o.order ++ o.scope ++ o.size ++ o.base ++ o.b ++ 41#6)
  | .atomLdo o => some (11#4 ++ o.fsel ++ 0#1 ++ o.order ++ o.scope ++ o.size ++ o.base ++ o.b ++ 41#6)
  | .redAdd o => some (0#4 ++ o.fsel ++ 1#1 ++ o.order ++ o.scope ++ o.size ++ o.base ++ o.b ++ 41#6)
  | .redAnd o => some (1#4 ++ o.fsel ++ 1#1 ++ o.order ++ o.scope ++ o.size ++ o.base ++ o.b ++ 41#6)
  | .redOr o => some (2#4 ++ o.fsel ++ 1#1 ++ o.order ++ o.scope ++ o.size ++ o.base ++ o.b ++ 41#6)
  | .redXor o => some (3#4 ++ o.fsel ++ 1#1 ++ o.order ++ o.scope ++ o.size ++ o.base ++ o.b ++ 41#6)
  | .redMinI o => some (4#4 ++ o.fsel ++ 1#1 ++ o.order ++ o.scope ++ o.size ++ o.base ++ o.b ++ 41#6)
  | .redMinN o => some (5#4 ++ o.fsel ++ 1#1 ++ o.order ++ o.scope ++ o.size ++ o.base ++ o.b ++ 41#6)
  | .redMaxI o => some (6#4 ++ o.fsel ++ 1#1 ++ o.order ++ o.scope ++ o.size ++ o.base ++ o.b ++ 41#6)
  | .redMaxN o => some (7#4 ++ o.fsel ++ 1#1 ++ o.order ++ o.scope ++ o.size ++ o.base ++ o.b ++ 41#6)
  | .redExch o => some (8#4 ++ o.fsel ++ 1#1 ++ o.order ++ o.scope ++ o.size ++ o.base ++ o.b ++ 41#6)
  | .redCas o => some (9#4 ++ o.fsel ++ 1#1 ++ o.order ++ o.scope ++ o.size ++ o.base ++ o.b ++ 41#6)
  | .redFadd o => some (10#4 ++ o.fsel ++ 1#1 ++ o.order ++ o.scope ++ o.size ++ o.base ++ o.b ++ 41#6)
  | .redSto o => some (12#4 ++ o.fsel ++ 1#1 ++ o.order ++ o.scope ++ o.size ++ o.base ++ o.b ++ 41#6)
  | .fence o => some (0#5 ++ o.scope ++ 43#24)
  | .racq o => some (1#4 ++ o.fsel ++ o.scope ++ 0#6 ++ o.range ++ o.core ++ 43#6)
  | .mwait o => some (4#5 ++ o.scope ++ 0#1 ++ o.acq ++ o.wide ++ o.cond ++ o.addr ++ o.val ++ 43#6)
  | .barInit o => some (3072#14 ++ o.count ++ 0#1 ++ o.id ++ 43#6)
  | .barArrive o => some (8#5 ++ o.bs ++ 0#6 ++ o.phase ++ 0#1 ++ o.id ++ 43#6)
  | .barWait o => some (10#5 ++ o.bs ++ 0#6 ++ o.phase ++ 0#1 ++ o.id ++ 43#6)
  | .barSync o => some (12#5 ++ o.bs ++ 0#13 ++ o.id ++ 43#6)
  | .barRarrive o => some (7296#14 ++ o.f2 ++ 43#12)
  | .copy o => some (0#4 ++ o.fsel ++ 0#9 ++ o.f2 ++ o.f1 ++ 45#6)
  | .gather o => some (1#4 ++ o.fsel ++ 0#9 ++ o.f2 ++ o.f1 ++ 45#6)
  | .scatter o => some (2#4 ++ o.fsel ++ 0#9 ++ o.f2 ++ o.f1 ++ 45#6)
  | .compact o => some (3#4 ++ o.fsel ++ 0#9 ++ o.f2 ++ 45#12)
  | .pfetchDesc o => some (4#4 ++ o.fsel ++ 0#9 ++ o.f2 ++ 45#12)
  | .pfetchHandle o => some (4#4 ++ o.fsel ++ 64#9 ++ o.f2 ++ 45#12)
  | .pin o => some (0#14 ++ o.f2 ++ o.f1 ++ 47#6)
  | .unpin o => some (1024#14 ++ o.f2 ++ o.f1 ++ 47#6)
  | .flush o => some (2#4 ++ o.fsel ++ o.g ++ 0#6 ++ o.f2 ++ 47#12)
  | .inval o => some (3#4 ++ o.fsel ++ o.g ++ 0#6 ++ o.f2 ++ 47#12)
  | .hopen o => some (4#4 ++ o.fsel ++ 0#9 ++ o.f2 ++ o.f1 ++ 47#6)
  | .hacqRd o => some (5#4 ++ o.fsel ++ 0#9 ++ o.f2 ++ 47#12)
  | .hacqWr o => some (5#4 ++ o.fsel ++ 64#9 ++ o.f2 ++ 47#12)
  | .hrelDrop o => some (6#4 ++ o.fsel ++ 0#9 ++ o.f2 ++ 47#12)
  | .hrelDown o => some (6#4 ++ o.fsel ++ 64#9 ++ o.f2 ++ 47#12)
  | .hsplit o => some (112#8 ++ o.f3 ++ o.f2 ++ o.f1 ++ 47#6)
  | .hclose o => some (8192#14 ++ o.f2 ++ 47#12)
  | .smap o => some (144#8 ++ o.f3 ++ o.f2 ++ o.f1 ++ 47#6)
  | .sunmap o => some (10240#14 ++ o.f2 ++ o.f1 ++ 47#6)
  | .mma o => some (0#4 ++ o.fsel ++ o.g ++ 0#6 ++ o.f2 ++ 49#12)
  | .tkacq o => some (1#4 ++ o.fsel ++ 0#18 ++ o.c ++ 49#6)
  | .tkrel o => some (2#4 ++ o.fsel ++ 0#18 ++ o.c ++ 49#6)
  | .tswap o => some (3#4 ++ o.fsel ++ 0#18 ++ o.c ++ 49#6)
  | .tzero o => some (4#4 ++ o.fsel ++ 0#18 ++ o.c ++ 49#6)
  | .tread o => some (5#4 ++ o.fsel ++ o.g ++ o.rows ++ o.sp ++ 0#3 ++ o.c ++ 49#6)
  | .twrite o => some (6#4 ++ o.fsel ++ o.g ++ o.rows ++ o.sp ++ 0#3 ++ o.c ++ 49#6)
  | .colload o => some (7#4 ++ o.fsel ++ 0#9 ++ o.f2 ++ 49#12)
  | .qcopy o => some (8#4 ++ o.fsel ++ o.g ++ 0#6 ++ o.f2 ++ 49#12)
  | .bra o => some (o.off ++ 0#1 ++ o.uni ++ o.neg ++ o.p ++ 51#6)
  | .brx o => some (0#7 ++ o.uni ++ 0#6 ++ o.t ++ 53#12)
  | .call o => some (1024#14 ++ o.f2 ++ o.f1 ++ 53#6)
  | .ret o => some (2048#14 ++ o.f2 ++ 53#12)
  | .bprio o => some (786432#22 ++ o.n ++ 53#6)
  | .rcvset o => some (4194304#24 ++ o.id ++ 53#6)
  | .rcvwait o => some (5242880#24 ++ o.id ++ 53#6)
  | .yield o => some (384#10 ++ o.n ++ 0#5 ++ o.live ++ 53#6)
  | .exit => some (1879048245#32)
  | .trap o => some (131072#18 ++ o.code ++ 53#6)
  | .brk => some (2415919157#32)
  | .qsend o => some (10240#14 ++ o.f2 ++ 53#12)
  | .qrecv o => some (720896#20 ++ o.d ++ 53#6)
  | .spawn o => some (12#4 ++ o.fsel ++ 0#9 ++ o.f2 ++ o.f1 ++ 53#6)
  | .rget o => some (13312#14 ++ o.f2 ++ o.f1 ++ 53#6)
  | .krefine o => some (0#4 ++ o.fsel ++ o.k ++ 0#6 ++ o.f2 ++ o.f1 ++ 55#6)
  | .kcoarsen o => some (1#4 ++ o.fsel ++ o.k ++ 0#6 ++ o.f2 ++ o.f1 ++ 55#6)
  | .kneigh o => some (2#4 ++ o.fsel ++ o.k ++ 0#3 ++ o.face ++ o.f2 ++ o.f1 ++ 55#6)
  | .kowner o => some (3#4 ++ o.fsel ++ o.k ++ 0#6 ++ o.f2 ++ o.f1 ++ 55#6)
  | .kcost o => some (4#4 ++ o.fsel ++ o.k ++ o.f3 ++ o.f2 ++ 55#12)
  | .kclaim o => some (5#4 ++ o.fsel ++ o.k ++ 0#6 ++ o.f2 ++ o.f1 ++ 55#6)
  | .krelease o => some (6#4 ++ o.fsel ++ o.g ++ 0#6 ++ o.f2 ++ 55#12)
  | .kiter o => some (7#4 ++ o.fsel ++ o.k ++ 0#6 ++ o.f2 ++ o.f1 ++ 55#6)
  | .krebal o => some (8#4 ++ o.fsel ++ o.k ++ 0#12 ++ o.f1 ++ 55#6)
  | .wpush o => some (9#4 ++ o.fsel ++ 0#3 ++ o.list ++ o.f2 ++ 55#12)
  | .wpop o => some (10#4 ++ o.fsel ++ 0#3 ++ o.list ++ 0#6 ++ o.f1 ++ 55#6)
  | .wins o => some (11#4 ++ o.fsel ++ 0#3 ++ o.list ++ o.f2 ++ o.f1 ++ 55#6)
  | .wcount o => some (12#4 ++ o.fsel ++ 0#3 ++ o.list ++ 0#6 ++ o.f1 ++ 55#6)
  | .sysrd o => some (0#8 ++ o.num ++ o.f1 ++ 57#6)
  | .syswr o => some (16#8 ++ o.num ++ o.f1 ++ 57#6)
  | .tret => some (536870969#32)
  | .rmodeSwm o => some (3#4 ++ o.fsel ++ 0#9 ++ o.f2 ++ 57#12)
  | .rmodeCoh o => some (3#4 ++ o.fsel ++ 64#9 ++ o.f2 ++ 57#12)
  | .halt => some (1073741881#32)
  | .ckpt o => some (5#4 ++ o.fsel ++ 0#15 ++ o.f1 ++ 57#6)
  | .rbstat o => some (393216#20 ++ o.d ++ 57#6)
  | .finj o => some (458752#20 ++ o.d ++ 57#6)
  | _ => none

/-- The parcel of a 16-bit instruction (04 R98); none for the other rows. -/
def encode16 : Instr → Option (BitVec 16)
  | .nop => some (0#16)
  | .vmovC16 o => some (o.b ++ o.d ++ 2#5)
  | .vaddI32x2C16 o => some (o.b ++ o.d ++ 4#5)
  | .vsubI32x2C16 o => some (o.b ++ o.d ++ 6#5)
  | .vmulI32x2C16 o => some (o.b ++ o.d ++ 8#5)
  | .vandC16 o => some (o.b ++ o.d ++ 10#5)
  | .vorC16 o => some (o.b ++ o.d ++ 12#5)
  | .vxorC16 o => some (o.b ++ o.d ++ 14#5)
  | .vshlI32x2C16 o => some (o.b ++ o.d ++ 16#5)
  | .vshrN32x2C16 o => some (o.b ++ o.d ++ 18#5)
  | .vfaddF32x2C16 o => some (o.b ++ o.d ++ 20#5)
  | .vfsubF32x2C16 o => some (o.b ++ o.d ++ 22#5)
  | .vfmulF32x2C16 o => some (o.b ++ o.d ++ 24#5)
  | .vfminF32x2C16 o => some (o.b ++ o.d ++ 26#5)
  | .vfmaxF32x2C16 o => some (o.b ++ o.d ++ 28#5)
  | .vfaddF64C16 o => some (o.b ++ o.d ++ 30#5)
  | _ => none

/-- The bytes of an instruction as they lie in memory; an event of the device has none. Log entry 82 (DESIGN CHOICE). -/
def encode (i : Instr) : List Byte :=
  match encode16 i with
  | some h => [h.extractLsb' 0 8, h.extractLsb' 8 8]
  | none =>
    match encode32 i with
    | some w => [w.extractLsb' 0 8, w.extractLsb' 8 8, w.extractLsb' 16 8, w.extractLsb' 24 8]
    | none => []

/-- The row is an instruction that a wave issues, not an event of the device. -/
def encoded (i : Instr) : Bool := (encode16 i).isSome || (encode32 i).isSome

/-- Bytes of the instruction (04 R82). -/
def instrBytes (i : Instr) : Nat := if (encode16 i).isSome then 2 else 4

/-- An operand code that R91 permits. -/
def okCode (c : BitVec 2) : Bool := c != 3

/-- A predicate destination: p7 is none (04 R90). -/
def okPd (p : BitVec 3) : Bool := p != 7

/-- A register number that a pair may start at (04 R92). -/
def evenReg (r : BitVec 6) : Bool := r.toNat % 2 == 0

/-- A register number that a quad may start at (04 R92). -/
def quadReg (r : BitVec 6) : Bool := r.toNat % 4 == 0

/-- A scope code that Table 04-3 assigns. -/
def okScope (s : BitVec 3) : Bool := s.toNat ≤ 5

/-- A barrier's bs: .team or .cluster (11 R324). -/
def okBs (b : BitVec 3) : Bool := b == 1 || b == 2

/-- A compare's condition may be one of codes 6 to 8 only with a floating-point type (04 R106). -/
def okCmpType (cond : Nat) (t : BitVec 3) : Bool := cond < 6 || 4 ≤ t.toNat

/-- A conversion's codes (04 R102): both types assigned and different, the rounding assigned. -/
def okCvt (o : OpC) : Bool := o.dt.toNat < 12 && o.st.toNat < 12 && o.dt != o.st && o.rnd.toNat ≤ 5 && okCode o.ca

/-- Format Q's rounding codes (04 R100). -/
def okQ (o : OpQ) : Bool := o.rnd == 0 || o.rnd == 1 || o.rnd == 2 || o.rnd == 3 || o.rnd == 5

/-- A reduction or scan: the type is assigned, and the bitwise ops take an integer (04 R109). -/
def okRed (bitwise : Bool) (o : OpT) : Bool := (if bitwise then o.t.toNat < 4 else o.t.toNat < 6) && okCode o.ca

/-- vtopk's reserved combinations (04 R110). -/
def okTopk (o : OpK) : Bool :=
  o.t.toNat < 6 && okPd o.pd && !(o.abs == 1 && (o.t == 1 || o.t == 3)) && !(o.nanhi == 1 && o.t.toNat < 4)

/-- A load's data register: a pair with size code 7 (04 R111). -/
def okLoadReg (size : BitVec 3) (d : BitVec 6) : Bool := size != 7 || evenReg d

/-- A store's size and data (04 R111). -/
def okStore (size : BitVec 3) (dcode : BitVec 2) (d : BitVec 6) : Bool :=
  size != 1 && size != 3 && size != 5 && okCode dcode && (size != 7 || evenReg d)

/-- An integer atomic of 32 or 64 bits (04 R112). -/
def okAtomInt (o : OpN) : Bool := (o.size == 2 || o.size == 3) && okScope o.scope

/-- exch (04 R112). -/
def okExch (o : OpN) : Bool := o.size.toNat ≤ 4 && okScope o.scope && (o.size != 4 || evenReg o.b)

/-- cas (04 R112). -/
def okCas (o : OpN) : Bool :=
  o.size.toNat ≤ 4 && okScope o.scope && (if o.size == 4 then quadReg o.b else evenReg o.b)

/-- ldo: .rlx or .acq (04 R112). -/
def okLdo (o : OpN) : Bool := okExch o && (o.order == 0 || o.order == 1)

/-- sto: .rlx or .rel (04 R112). -/
def okSto (o : OpN) : Bool := okExch o && (o.order == 0 || o.order == 2)

/-- mwait's conditions (11 R299). -/
def okMwait (o : OpMwait) : Bool := o.cond.toNat ≤ 5 && okScope o.scope

/-- The system registers that Table 18-8 assigns (18 R411). -/
def sysAssigned (n : Nat) : Bool :=
  n ≤ 5 || (0x10 ≤ n && n ≤ 0x12) || (0x20 ≤ n && n ≤ 0x27) || n == 0x30

/-- The system registers a syswr may write, in system mode or outside it (18 Table 18-8). -/
def sysWritable (n : Nat) : Bool := (0x20 ≤ n && n ≤ 0x22) || (0x25 ≤ n && n ≤ 0x27)

/-- The fields of the instruction hold no reserved value (04 R90 to R95, R100 to R114). Events have no fields to check. Log entry 79 (DEDUCED). -/
def legal : Instr → Bool
  | .vaddI8x8 o => okCode o.ca && okCode o.cb
  | .vsubI8x8 o => okCode o.ca && okCode o.cb
  | .vminI8x8 o => okCode o.ca && okCode o.cb
  | .vminN8x8 o => okCode o.ca && okCode o.cb
  | .vmaxI8x8 o => okCode o.ca && okCode o.cb
  | .vmaxN8x8 o => okCode o.ca && okCode o.cb
  | .vaddI8x8Sat o => okCode o.ca && okCode o.cb
  | .vaddN8x8Sat o => okCode o.ca && okCode o.cb
  | .vaddI16x4 o => okCode o.ca && okCode o.cb
  | .vsubI16x4 o => okCode o.ca && okCode o.cb
  | .vminI16x4 o => okCode o.ca && okCode o.cb
  | .vminN16x4 o => okCode o.ca && okCode o.cb
  | .vmaxI16x4 o => okCode o.ca && okCode o.cb
  | .vmaxN16x4 o => okCode o.ca && okCode o.cb
  | .vaddI16x4Sat o => okCode o.ca && okCode o.cb
  | .vaddN16x4Sat o => okCode o.ca && okCode o.cb
  | .vaddI32x2 o => okCode o.ca && okCode o.cb
  | .vsubI32x2 o => okCode o.ca && okCode o.cb
  | .vmulI32x2 o => okCode o.ca && okCode o.cb
  | .vmulhiI32x2 o => okCode o.ca && okCode o.cb
  | .vmulhiN32x2 o => okCode o.ca && okCode o.cb
  | .vminI32x2 o => okCode o.ca && okCode o.cb
  | .vminN32x2 o => okCode o.ca && okCode o.cb
  | .vmaxI32x2 o => okCode o.ca && okCode o.cb
  | .vmaxN32x2 o => okCode o.ca && okCode o.cb
  | .vshlI32x2 o => okCode o.ca && okCode o.cb
  | .vshrN32x2 o => okCode o.ca && okCode o.cb
  | .vshrI32x2 o => okCode o.ca && okCode o.cb
  | .vaddI32x2Sat o => okCode o.ca && okCode o.cb
  | .vaddN32x2Sat o => okCode o.ca && okCode o.cb
  | .vsubI32x2Sat o => okCode o.ca && okCode o.cb
  | .vsubN32x2Sat o => okCode o.ca && okCode o.cb
  | .vaddI64 o => okCode o.ca && okCode o.cb
  | .vsubI64 o => okCode o.ca && okCode o.cb
  | .vmulI64 o => okCode o.ca && okCode o.cb
  | .vmulhiI64 o => okCode o.ca && okCode o.cb
  | .vmulhiN64 o => okCode o.ca && okCode o.cb
  | .vminI64 o => okCode o.ca && okCode o.cb
  | .vminN64 o => okCode o.ca && okCode o.cb
  | .vmaxI64 o => okCode o.ca && okCode o.cb
  | .vmaxN64 o => okCode o.ca && okCode o.cb
  | .vshlI64 o => okCode o.ca && okCode o.cb
  | .vshrN64 o => okCode o.ca && okCode o.cb
  | .vshrI64 o => okCode o.ca && okCode o.cb
  | .vaddI64Sat o => okCode o.ca && okCode o.cb
  | .vaddN64Sat o => okCode o.ca && okCode o.cb
  | .vsubI64Sat o => okCode o.ca && okCode o.cb
  | .vsubN64Sat o => okCode o.ca && okCode o.cb
  | .vand o => okCode o.ca && okCode o.cb
  | .vor o => okCode o.ca && okCode o.cb
  | .vxor o => okCode o.ca && okCode o.cb
  | .vandn o => okCode o.ca && okCode o.cb
  | .vfaddF64 o => okCode o.ca && okCode o.cb
  | .vfsubF64 o => okCode o.ca && okCode o.cb
  | .vfmulF64 o => okCode o.ca && okCode o.cb
  | .vfmaF64 o => okCode o.ca && okCode o.cb
  | .vfminF64 o => okCode o.ca && okCode o.cb
  | .vfmaxF64 o => okCode o.ca && okCode o.cb
  | .vfminF64Nan o => okCode o.ca && okCode o.cb
  | .vfmaxF64Nan o => okCode o.ca && okCode o.cb
  | .vfaddF32x2 o => okCode o.ca && okCode o.cb
  | .vfsubF32x2 o => okCode o.ca && okCode o.cb
  | .vfmulF32x2 o => okCode o.ca && okCode o.cb
  | .vfmaF32x2 o => okCode o.ca && okCode o.cb
  | .vfminF32x2 o => okCode o.ca && okCode o.cb
  | .vfmaxF32x2 o => okCode o.ca && okCode o.cb
  | .vfminF32x2Nan o => okCode o.ca && okCode o.cb
  | .vfmaxF32x2Nan o => okCode o.ca && okCode o.cb
  | .vfaddF16x4 o => okCode o.ca && okCode o.cb
  | .vfsubF16x4 o => okCode o.ca && okCode o.cb
  | .vfmulF16x4 o => okCode o.ca && okCode o.cb
  | .vfmaF16x4 o => okCode o.ca && okCode o.cb
  | .vfminF16x4 o => okCode o.ca && okCode o.cb
  | .vfmaxF16x4 o => okCode o.ca && okCode o.cb
  | .vfminF16x4Nan o => okCode o.ca && okCode o.cb
  | .vfmaxF16x4Nan o => okCode o.ca && okCode o.cb
  | .vfaddBf16x4 o => okCode o.ca && okCode o.cb
  | .vfsubBf16x4 o => okCode o.ca && okCode o.cb
  | .vfmulBf16x4 o => okCode o.ca && okCode o.cb
  | .vfmaBf16x4 o => okCode o.ca && okCode o.cb
  | .vfminBf16x4 o => okCode o.ca && okCode o.cb
  | .vfmaxBf16x4 o => okCode o.ca && okCode o.cb
  | .vfminBf16x4Nan o => okCode o.ca && okCode o.cb
  | .vfmaxBf16x4Nan o => okCode o.ca && okCode o.cb
  | .saddI64 o => okCode o.ca && okCode o.cb
  | .ssubI64 o => okCode o.ca && okCode o.cb
  | .smulI64 o => okCode o.ca && okCode o.cb
  | .smulhiI64 o => okCode o.ca && okCode o.cb
  | .smulhiN64 o => okCode o.ca && okCode o.cb
  | .sand o => okCode o.ca && okCode o.cb
  | .sor o => okCode o.ca && okCode o.cb
  | .sxor o => okCode o.ca && okCode o.cb
  | .sshlI64 o => okCode o.ca && okCode o.cb
  | .sshrN64 o => okCode o.ca && okCode o.cb
  | .sshrI64 o => okCode o.ca && okCode o.cb
  | .sminI64 o => okCode o.ca && okCode o.cb
  | .sminN64 o => okCode o.ca && okCode o.cb
  | .smaxI64 o => okCode o.ca && okCode o.cb
  | .smaxN64 o => okCode o.ca && okCode o.cb
  | .vsel o => okCode o.ca && okCode o.cb
  | .vmov o => okCode o.ca
  | .vsplat o => okCode o.ca
  | .smov o => okCode o.ca
  | .vfabs o => okCode o.ca
  | .vfneg o => okCode o.ca
  | .vrcp o => okCode o.ca
  | .vrsqrt o => okCode o.ca
  | .vsqrt o => okCode o.ca
  | .vsin o => okCode o.ca
  | .vcos o => okCode o.ca
  | .vsinpi o => okCode o.ca
  | .vcospi o => okCode o.ca
  | .vexp2 o => okCode o.ca
  | .vlog2 o => okCode o.ca
  | .vtanh o => okCode o.ca
  | .vfrintn o => okCode o.ca
  | .vfrintz o => okCode o.ca
  | .vfrintm o => okCode o.ca
  | .vfrintp o => okCode o.ca
  | .vfclass o => okCode o.ca
  | .vabs o => okCode o.ca
  | .vneg o => okCode o.ca
  | .vnot o => okCode o.ca
  | .vpopc o => okCode o.ca
  | .vclz o => okCode o.ca
  | .vbrev o => okCode o.ca
  | .vquant o => okCode o.ca
  | .vdequant o => okCode o.ca
  | .vcbdec o => okCode o.ca
  | .vfaddQ o => okQ o
  | .vfsubQ o => okQ o
  | .vfmulQ o => okQ o
  | .vfmaQ o => okQ o
  | .vcvt o => okCvt o
  | .amadI8x8 o => okCode o.ca && okCode o.cb && o.d.toNat < 16
  | .amadN8x8 o => okCode o.ca && okCode o.cb && o.d.toNat < 16
  | .amadF16x4 o => okCode o.ca && okCode o.cb && o.d.toNat < 16
  | .amadBf16x4 o => okCode o.ca && okCode o.cb && o.d.toNat < 16
  | .amadF32x2 o => okCode o.ca && okCode o.cb && o.d.toNat < 16
  | .amadF64 o => okCode o.ca && okCode o.cb && o.d.toNat < 16
  | .amov o => okCode o.ca && okCode o.cb && o.d.toNat < 16
  | .azero o => o.d.toNat < 16
  | .vnarrowLo o => o.a.toNat < 16
  | .vnarrowHi o => o.a.toNat < 16
  | .vnarrowI16x4Sat o => o.a.toNat < 16
  | .vnarrowF16x4 o => o.a.toNat < 16
  | .vceq o => okCode o.ca && okPd o.pd && okCmpType 0 o.t
  | .sceq o => okCode o.ca && okPd o.pd && okCmpType 0 o.t
  | .vcne o => okCode o.ca && okPd o.pd && okCmpType 1 o.t
  | .scne o => okCode o.ca && okPd o.pd && okCmpType 1 o.t
  | .vclt o => okCode o.ca && okPd o.pd && okCmpType 2 o.t
  | .sclt o => okCode o.ca && okPd o.pd && okCmpType 2 o.t
  | .vcle o => okCode o.ca && okPd o.pd && okCmpType 3 o.t
  | .scle o => okCode o.ca && okPd o.pd && okCmpType 3 o.t
  | .vcgt o => okCode o.ca && okPd o.pd && okCmpType 4 o.t
  | .scgt o => okCode o.ca && okPd o.pd && okCmpType 4 o.t
  | .vcge o => okCode o.ca && okPd o.pd && okCmpType 5 o.t
  | .scge o => okCode o.ca && okPd o.pd && okCmpType 5 o.t
  | .vcord o => okCode o.ca && okPd o.pd && okCmpType 6 o.t
  | .scord o => okCode o.ca && okPd o.pd && okCmpType 6 o.t
  | .vcunord o => okCode o.ca && okPd o.pd && okCmpType 7 o.t
  | .scunord o => okCode o.ca && okPd o.pd && okCmpType 7 o.t
  | .vcneu o => okCode o.ca && okPd o.pd && okCmpType 8 o.t
  | .scneu o => okCode o.ca && okPd o.pd && okCmpType 8 o.t
  | .pand o => okPd o.pd
  | .por o => okPd o.pd
  | .pxor o => okPd o.pd
  | .pandn o => okPd o.pd
  | .pnot o => okPd o.pd
  | .pmov o => okPd o.pd
  | .vshflN64 o => okPd o.p
  | .vshflN32x2 o => okPd o.p
  | .vshflN16x4 o => okPd o.p
  | .vshflN8x8 o => okPd o.p
  | .vbcast o => okPd o.p
  | .vall o => okPd o.p
  | .vany o => okPd o.p
  | .vuni o => okPd o.p
  | .vredAdd o => okRed false o
  | .vredMin o => okRed false o
  | .vredMax o => okRed false o
  | .vscanAdd o => okRed false o
  | .vscanMin o => okRed false o
  | .vscanMax o => okRed false o
  | .vscanxAdd o => okRed false o
  | .vscanxMin o => okRed false o
  | .vscanxMax o => okRed false o
  | .vredAnd o => okRed true o
  | .vredOr o => okRed true o
  | .vredXor o => okRed true o
  | .vscanAnd o => okRed true o
  | .vscanOr o => okRed true o
  | .vscanXor o => okRed true o
  | .vscanxAnd o => okRed true o
  | .vscanxOr o => okRed true o
  | .vscanxXor o => okRed true o
  | .vtopk o => okTopk o
  | .ldg o => okLoadReg o.size o.d
  | .lds o => okLoadReg o.size o.d
  | .ldc o => okLoadReg o.size o.d
  | .stg o => okStore o.size o.dcode o.data
  | .sts o => okStore o.size o.dcode o.data
  | .atomAdd o => okAtomInt o
  | .atomAnd o => okAtomInt o
  | .atomOr o => okAtomInt o
  | .atomXor o => okAtomInt o
  | .atomMinI o => okAtomInt o
  | .atomMinN o => okAtomInt o
  | .atomMaxI o => okAtomInt o
  | .atomMaxN o => okAtomInt o
  | .atomFadd o => okAtomInt o
  | .redAdd o => okAtomInt o
  | .redAnd o => okAtomInt o
  | .redOr o => okAtomInt o
  | .redXor o => okAtomInt o
  | .redMinI o => okAtomInt o
  | .redMinN o => okAtomInt o
  | .redMaxI o => okAtomInt o
  | .redMaxN o => okAtomInt o
  | .redFadd o => okAtomInt o
  | .atomExch o => okExch o
  | .redExch o => okExch o
  | .atomCas o => okCas o
  | .redCas o => okCas o
  | .atomLdo o => okLdo o
  | .redSto o => okSto o
  | .fence o => okScope o.scope
  | .racq o => okScope o.scope && evenReg o.range
  | .mwait o => okMwait o
  | .barArrive o => okBs o.bs
  | .barWait o => okBs o.bs
  | .barSync o => okBs o.bs
  | .flush o => okScope o.g && evenReg o.f2
  | .inval o => okScope o.g && evenReg o.f2
  | .hsplit o => evenReg o.f1
  | .rget o => evenReg o.f1
  | .kiter o => evenReg o.f1
  | .smap o => evenReg o.f2
  | .rmodeSwm o => evenReg o.f2
  | .rmodeCoh o => evenReg o.f2
  | .yield o => o.live.toNat ≤ 64
  | .kneigh o => evenReg o.f1 && o.face.toNat < 6
  | .sysrd o => sysAssigned o.num.toNat
  | .syswr o => sysWritable o.num.toNat
  | _ => true

end

end Sys2Proof
end

