-- ==== Sys2Proof/Machine/Start.lean ====
section
/-! DEFINITION. The state of a wave and of a team when it starts (02 R23 to R28, R40 to R42). -/

namespace Sys2Proof.Machine

/-- The threads launched in the wave of spatial index i of team t: those whose global index is below N (02 R25, R26). -/
def launched (l : Launch) (t i : Nat) : Nat := min 32 (l.nthreads - (t * 32 * l.waves + i * 32))

/-- The team wave indices created in a team, ascending (02 R24, R26). -/
def createdWaves (l : Launch) (t : Nat) : List Nat :=
  (List.range (l.waves * l.stages)).filter fun w => launched l t (w % l.waves) != 0

/-- The number of created waves of a team. -/
def createdCount (l : Launch) (t : Nat) : Nat := (createdWaves l t).length

/-- The initial SEED of a wave (02 R42). -/
def initialSeed (l : Launch) (t w : Nat) : Word :=
  let gw := BitVec.ofNat 64 (t * l.waves * l.stages + w)
  let x := BitVec.ofNat 64 l.seedBase ^^^ (gw * 0x9E3779B97F4A7C15#64)
  if x = 0 then 1 else x

/-- The first n threads. -/
def firstThreads (n : Nat) : BitVec 32 := maskOf fun t => decide (t < n)

/-- A wave as it starts (02 R41, Table 02-3). Log entry 27 (DEDUCED). -/
def newWave (id team : Nat) (l : Launch) (t w : Nat) (role : Role) : Wave where
  id := id
  team := team
  w := w
  role := role
  state := .ready
  block := none
  savedState := .ready
  v := (List.range (launched l t (w % l.waves))).foldl (fun m k => put 0#64 m k (BitVec.ofNat 64 (t * 32 * l.waves + w % l.waves * 32 + k))) []
  a := []
  s := [(0, BitVec.ofNat 64 l.params), (1, BitVec.ofNat 64 t),
        (2, BitVec.ofNat 64 (t * 32 * l.waves + w % l.waves * 32)),
        (3, BitVec.ofNat 64 (w % l.waves + w / l.waves * 2 ^ 8 + l.waves * 2 ^ 16 + l.stages * 2 ^ 24)),
        (4, BitVec.ofNat 64 (createdCount l t))].foldl (fun m p => put 0#64 m p.1 p.2) []
  p := []
  flags := []
  sticky := 0
  seed := initialSeed l t w
  ldhint := 0
  left := 2 ^ (l.yieldMax + 6)
  trapPc := 0
  trapCtx := 0
  trapHdr := 0
  sysMode := false
  sysMask := 0
  frontier := [⟨0, l.entry, firstThreads (launched l t (w % l.waves)), none⟩]
  sel := none
  rcvMember := []
  rcvWait := []
  boost := false
  final := false
  held := false
  fence := none
  fenced := 0
  finj := none
  vBad := []
  sBad := []
  aBad := []
  vDirty := []
  aDirty := []
  lvq := []
  sigs := []
  retired := 0

/-- A number laid out as bytes of an allocation. -/
def spNum (sp : List Host.Cell) (o n x : Nat) : List Host.Cell :=
  ((leBytes n x).zip (List.range n)).foldl (fun m b => put 0#8 m (o + b.2) b.1) sp

/-- A team as it starts (02 R40): barrier 0 armed with the created waves, every other byte zero. -/
def newTeam (id grid core : Nat) (l : Launch) (t : Nat) (peer : Option Nat) (trailing : Bool) : Team where
  id := id
  grid := grid
  t := t
  core := core
  state := .resident
  peer := peer
  trailing := trailing
  spBase := 0
  sp := spNum [] 0 8 (barWord 0 (createdCount l t) 0)
  spBad := []
  spDirty := []
  queues := []
  stash := []
  gatherings := []
  interval := ⟨l.recov, if !l.recov then 1 else if l.xredun then 5 else 0, 0, [], [], [], [], [], [], []⟩
  saveReq := false
  withdrawn := []
  area := none
  imageBad := []

/-- The first shadow copy of a recoverable team: its waves and scratchpad as they start (19 R429, R430). -/
def firstShadow (t : Team) (ws : List Wave) : Team :=
  if t.interval.recov then { t with interval := { t.interval with shadowWaves := ws, shadowSp := t.sp } } else t

end Sys2Proof.Machine
end

