-- ==== Sys2Proof/Machine/Translate.lean ====
section
/-! DEFINITION. Translation of virtual addresses, the TLBs and the checks of a page (18 R394 to R404, R472). -/

namespace Sys2Proof.Machine

/-- What an access wants of a page. -/
inductive Need where
  | read | write | fetch
  deriving DecidableEq, Repr

/-- A translated address: its location, the leaf's place and value, the page's cacheability class, and the entries the
walk read. -/
structure Xl where
  loc : Nat
  leafLoc : Nat
  leaf : Nat
  cache : Nat
  via : List (Nat × Nat)
  ctx : Nat
  page : Nat
  large : Bool
  deriving DecidableEq, Repr

/-- The number that stands for an agent with no L1 and no TLB of its own: the dispatcher, a key unit, Apex. Log entry 30 (DEDUCED). -/
def unitCore : Nat := 4096

/-- Whether a context's world is secure (18 R398). -/
def secureCtx (s : State) (cx : Context) : Bool :=
  match s.part? cx.part with
  | some p => p.secure
  | none => false

/-- Whether a partition's world is secure (18 R393). -/
def partSecure (s : State) (part : Nat) : Bool := (s.part? part).any (·.secure)

/-- Whether an agent of a world reaches n bytes at a physical address of this device: a non-secure request to a secure region is
refused, and on a path without translation reads zeros and writes nothing (18 R394). -/
def physOk (s : State) (secure : Bool) (pa n : Nat) : Bool :=
  secure || !((tagAt s (s.here pa)).1 || (tagAt s (s.here (pa + n - 1))).1)

/-- n bytes at a physical address of this device as an agent of a world reads them, as a number. Log entry 53 (DEDUCED). -/
def physField (s : State) (secure : Bool) (pa n : Nat) : Nat := if physOk s secure pa n then readHomeN s (s.here pa) n else 0

/-- A number of n bytes written at a physical address of this device by an agent of a world. -/
def physPut (s : State) (secure : Bool) (pa n x : Nat) : State := if physOk s secure pa n then writeHomeN s (s.here pa) n x else s

/-- Whether a home names this device or a device that the routing table has links for (18 R401; 21 R465). Log entry 31 (DEDUCED). -/
def reachable (s : State) (home : Nat) : Bool := home == s.out.device || s.out.routes.any fun r => r.1 == home && r.2 != []

/-- A page-table entry as a core's walker reads it: a coherent load (18 R400). -/
def entryAt (s : State) (core loc : Nat) : Nat := leNat ((List.range 8).map fun i => coreByte s core (loc + i))

/-- The bits of an entry that are neither VALID, LARGE nor PA (18 R400). -/
def leafFields (e : Nat) : Nat := bitsN e 52 12 + bitsN e 10 6 + bitsN e 1 8

/-- The PA field of an entry: a physical address (18 Table 18-5). -/
def entryPa (e : Nat) : Nat := bitsN e 16 36 * 2 ^ 16

/-- One entry of a walk: its table must lie in a region of the context's own partition and world, and its word must be
readable (18 R400, R472). -/
def walkEntry (s : State) (cx : Context) (core pa : Nat) : Except FaultCode (Nat × Nat) :=
  let loc := s.here pa
  if tagAt s loc ≠ (secureCtx s cx, cx.part) then .error .world
  else match markAt s loc with
    | .poison => .error .poison
    | .lost => .error .lost
    | .ok => .ok (loc, entryAt s core loc)

/-- The checks of a leaf under R401 and R402, in their order. Log entry 32 (DEDUCED). -/
def checkLeaf (s : State) (cx : Context) (sys : Bool) (n : Need) (leaf loc : Nat) : Option FaultCode :=
  let tag := tagAt s loc
  let cache := bitsN leaf 52 2
  let key := bitsN leaf 10 6
  if cache = 3 ∨ bitsN leaf 1 2 ≠ 0 then some .xlate
  else if ¬ reachable s (bitsN leaf 54 10) then some .xlate
  else if bitsN leaf 5 1 = 1 ∧ ¬ sys then some .perm
  else if n = .write ∧ bitsN leaf 3 1 = 0 then some .perm
  else if n = .fetch ∧ bitsN leaf 4 1 = 0 then some .perm
  else if cache ≠ 1 ∧ tag.2 ≠ 31 ∧ tag.2 ≠ cx.part then some .perm
  else if bitsN leaf 6 1 = 1 ∧ ¬ secureCtx s cx then some .world
  else if (bitsN leaf 6 1 == 1) != tag.1 then some .world
  else if key ≠ 0 ∧ ((s.keys.find? fun k => k.1 == key).map (·.2.1)) ≠ some cx.part then some .world
  else none

/-- A leaf's translation, once it passes its checks. Log entry 31 (DEDUCED). -/
def useLeaf (s : State) (cx : Context) (sys : Bool) (n : Need) (t : Tlb) (va : Nat) : Except FaultCode Xl :=
  let pa := if t.large then bitsN t.leaf 28 24 * 2 ^ 28 + bitsN va 0 28 else entryPa t.leaf + bitsN va 0 16
  let cache := bitsN t.leaf 52 2
  let loc := (if cache = 2 then hostHome else bitsN t.leaf 54 10) * homeSpan + pa
  match checkLeaf s cx sys n t.leaf loc with
  | some f => .error f
  | none => .ok ⟨loc, t.leafLoc, t.leaf, cache, t.via, cx.id, t.page, t.large⟩

/-- The walk of R400 for one virtual address: the leaf it comes to, as a TLB entry of `unit`. Log entry 16 (DEDUCED). -/
def walk (s : State) (cx : Context) (core va : Nat) : Except FaultCode Tlb :=
  match walkEntry s cx core (cx.root + 8 * bitsN va 40 12) with
  | .error f => .error f
  | .ok (l0, e0) =>
    if bitsN e0 0 1 = 0 ∨ bitsN e0 9 1 = 1 ∨ leafFields e0 ≠ 0 then .error .xlate else
    match walkEntry s cx core (entryPa e0 + 8 * bitsN va 28 12) with
    | .error f => .error f
    | .ok (l1, e1) =>
      if bitsN e1 0 1 = 0 then .error .xlate
      else if bitsN e1 9 1 = 1 then
        if bitsN e1 16 12 ≠ 0 then .error .xlate
        else .ok ⟨core, cx.id, va / 2 ^ 28, true, l1, e1, [(l0, e0), (l1, e1)]⟩
      else if leafFields e1 ≠ 0 then .error .xlate
      else
        match walkEntry s cx core (entryPa e1 + 8 * bitsN va 16 12) with
        | .error f => .error f
        | .ok (l2, e2) =>
          if bitsN e2 0 1 = 0 ∨ bitsN e2 9 1 = 1 then .error .xlate
          else .ok ⟨core, cx.id, va / 2 ^ 16, false, l2, e2, [(l0, e0), (l1, e1), (l2, e2)]⟩

/-- The TLB of a core's cluster. -/
def clusterTlb (core : Nat) : Nat := 512 + clusterOf core

/-- The entry of a TLB for an address of a context. -/
def tlbEntry (s : State) (unit ctx va : Nat) : Option Tlb :=
  s.tlbs.find? fun t => t.unit == unit && t.ctx == ctx && t.page == (if t.large then va / 2 ^ 28 else va / 2 ^ 16)

/-- The entry that a core finds for an address: in its own TLB, or in its cluster's. An agent with no TLB finds none. -/
def tlbHit (s : State) (core ctx va : Nat) : Option Tlb :=
  if core < 512 then (tlbEntry s core ctx va).or (tlbEntry s (clusterTlb core) ctx va) else none

/-- The translation of one virtual address: through a TLB entry where one stands and its leaf passes the checks of R401 and R402,
and otherwise by the walk of R400, since a faulting access walks again (18 R404). Log entry 30 (DEDUCED). -/
def translate (s : State) (cx : Context) (core : Nat) (sys : Bool) (n : Need) (va : Nat) : Except FaultCode Xl :=
  if 2 ^ 52 ≤ va then .error .xlate else
  let fresh : Except FaultCode Xl := match walk s cx core va with
    | .error f => .error f
    | .ok t => useLeaf s cx sys n t va
  match tlbHit s core cx.id va with
  | some t => match useLeaf s cx sys n t va with
    | .ok x => .ok x
    | .error _ => fresh
  | none => fresh

/-- The fault of a page and the address that names it. -/
structure PageFlt where
  code : FaultCode
  va : Nat
  deriving DecidableEq, Repr

/-- The translations of the pages that n bytes from va touch, lowest page first: (first virtual address in the page,
bytes in it, translation). `fuel` bounds the pages. -/
def translatePages (s : State) (cx : Context) (core : Nat) (sys : Bool) (n : Need) :
    Nat → Nat → Nat → Except PageFlt (List (Nat × Nat × Xl))
  | 0, _, _ => .ok []
  | fuel + 1, va, len =>
    if len = 0 then .ok [] else
    let here := min len (65536 - va % 65536)
    match translate s cx core sys n va with
    | .error f => .error ⟨f, va⟩
    | .ok x =>
      match translatePages s cx core sys n fuel (va + here) (len - here) with
      | .error f => .error f
      | .ok l => .ok ((va, here, x) :: l)

/-- The most pages that len bytes can touch. -/
def pageFuel (len : Nat) : Nat := len / 65536 + 2

/-- The locations of n bytes from va, and the translations used. An address past 64 bits wraps (11 R290). Log entry 15 (DEDUCED). -/
def translateSpan (s : State) (cx : Context) (core : Nat) (sys : Bool) (n : Need) (va len : Nat) :
    Except PageFlt (List Nat × List Xl) :=
  match translatePages s cx core sys n (pageFuel len) (va % 2 ^ 64) len with
  | .error f => .error f
  | .ok l => .ok (l.flatMap fun p => (List.range p.2.1).map fun i => p.2.2.loc + i, l.map fun p => p.2.2)

/-- Bytes of one word written at its home by an agent that acts through a core: what the core's L1 holds of the word goes home
first, and its copy is dropped. -/
def homeWord (s : State) (core word : Nat) (bytes : List (Nat × BitVec 8)) (mk : Mark) : State :=
  commitWord (dropWord (drainWord s core word) core word) word bytes mk

/-- An entry put into a TLB of a number of entries: in place of the one it renews, in a free place, or in place of a victim, a free
choice (18 R404). -/
def fillTlb (s : State) (room : Nat) (t : Tlb) : State :=
  let same := fun x : Tlb => x.unit == t.unit && x.ctx == t.ctx && x.large == t.large && x.page == t.page
  let rest := s.tlbs.filter fun x => !same x
  let mine := rest.filter fun x => x.unit == t.unit
  if mine.length < room then { s with tlbs := rest ++ [t] }
  else match mine[Config.choice s.tick % mine.length]? with
    | some v => { s.bump with tlbs := rest.erase v ++ [t] }
    | none => { s with tlbs := rest ++ [t] }

/-- Entries of the TLB of a core (01 Table 01-2). -/
def tlbSize : Nat := 128

/-- Entries of the TLB of a cluster (01 Table 01-3). -/
def clusterTlbSize : Nat := 4096

/-- The key that a key id names, as its material tells it apart: 0 for plaintext, and 1 plus the material's number otherwise (18 R395). -/
def keyTag (s : State) (key : Nat) : Nat :=
  if key = 0 then 0 else ((s.keys.find? fun k => k.1 == key).map fun k => 1 + leNat k.2.2).getD 0

/-- The bytes of a word whose cipher text was made under one key, as another decrypts it: values that the spec does not give. Log entry 32 (DEDUCED). -/
def decrypted (made used word : Nat) (plain : List (BitVec 8)) : List (BitVec 8) :=
  (List.range 16).map fun o => Config.decrypt made used (16 * word + o) (leNat plain)

/-- One word of a page that goes from use under one key to use under another: what stands in it was enciphered under the key it was
last written with, and reads as its bytes again under that key only (18 R395). -/
def rekeyWord (old new : Nat) (s : State) (word : Nat) : State :=
  let now := wordBytes s word
  let made : Nat × List (BitVec 8) := match s.ciphers.find? fun c => c.1 == word with
    | some (_, tag, plain, seen) => if now = seen then (tag, plain) else (old, now)
    | none => (old, now)
  let seen := if made.1 = new then made.2 else decrypted made.1 new word made.2
  { s with
    mem := (seen.zip (List.range 16)).foldl (fun m b => put 0#8 m (16 * word + b.2) b.1) s.mem
    ciphers := s.ciphers.filter (fun c => c.1 != word) ++ (if made.1 = new then [] else [(word, made.1, made.2, seen)]) }

/-- The words of a page, each as the key in use from now on gives it. -/
def rekeyPage (s : State) (page new : Nat) : State :=
  let old := get 0 s.pageKeys page
  if old = new then s
  else { (List.range 4096).foldl (fun s i => rekeyWord old new s (4096 * page + i)) s with pageKeys := put 0 s.pageKeys page new }

/-- The key under which a page of this device is used: where it was last used under another one, its words are what that key makes of
them (18 R395). Log entry 32 (DEDUCED). -/
def useKey (s : State) (x : Xl) : State :=
  if x.loc / homeSpan ≠ s.out.device then s else rekeyPage s (x.loc / 65536) (keyTag s (bitsN x.leaf 10 6))

/-- A tenure that stands against a write of some bytes of a word by an agent is recalled. -/
def recallWord (s : State) (team word : Nat) (bytes : List Nat) : State :=
  (s.tenures.filter fun t => t.team != team && bytes.any fun o => t.meets (16 * word + o)).foldl (fun s t => recallOne s t true) s

/-- A leaf's word with bits set by an update that leaves what it translates to as it is: no overwriting of the entry (10 R285), and no
write of an agent that anything happens before (10 R275). -/
def markLeaf (s : State) (core loc e : Nat) : State :=
  let bytes := ((leBytes 8 e).zip (List.range 8)).map fun p => (loc % 16 + p.2, p.1)
  let s := recallWord s s.nextId (loc / 16) (bytes.map (·.1))
  let s := dropWord (drainWord s core (loc / 16)) core (loc / 16)
  { commitWord s (loc / 16) bytes .ok with gens := s.gens, known := s.known }

/-- The 64 KiB page of the address that a translation was made for. -/
def Xl.vpage (x : Xl) : Nat := if x.large then x.page * 4096 + x.loc % 2 ^ 28 / 65536 else x.page

/-- A page that a mapping touches, and what it stands on now. -/
def Stash.touched (m : Stash) (vpage ppage : Nat) : Stash :=
  if m.base < (vpage + 1) * 65536 ∧ vpage * 65536 < m.base + m.len then
    { m with pages := m.pages.filter (fun p => p.1 != vpage) ++ [(vpage, ppage)] } else m

/-- The mappings of the teams of a context on a core once an access has touched a page: what the L1 holds of the words that are mapped
there is in the stash (09 R242). -/
def noteStash (s : State) (core ctx vpage ppage : Nat) : State :=
  let mine := fun t : Team => t.core == core && t.state == .resident && !t.stash.isEmpty && ((s.grid? t.grid).map (·.ctx)) == some ctx
  if s.teams.any mine then
    restash { s with teams := s.teams.map fun t => if mine t then { t with stash := t.stash.map fun m => m.touched vpage ppage } else t } core
  else s

/-- The bits of an entry that decide a translation: all but ACCESSED and DIRTY. -/
def entryCore (e : Nat) : Nat := e - bitsN e 7 2 * 2 ^ 7

/-- What follows the translation of an access: ACCESSED, and for a write DIRTY, set in the leaf by an update of its word, and the
TLBs filled with the entries of the walk, unless a store that the core held has replaced one of them meanwhile (18 R403, R404). Log entry 30 (DEDUCED),
Log entry 42 (DEDUCED). -/
def touchLeaf (s : State) (core : Nat) (write : Bool) (x : Xl) : State :=
  let s := noteStash (useKey s x) core x.ctx x.vpage (x.loc / 65536)
  let s := if x.via.any fun v => s.pend.any fun e => e.core == core && e.word == v.1 / 16 then
      x.via.foldl (fun s v => drainWord s core (v.1 / 16)) s
    else s
  let e := leNat ((List.range 8).map fun i => coreByte s core (x.leafLoc + i))
  let want := 2 ^ 7 + (if write then 2 ^ 8 else 0)
  let s := if e ||| want = e then s else markLeaf s core x.leafLoc (e ||| want)
  if core < 512 ∧ x.via.all fun v => entryCore (entryAt s core v.1) == entryCore v.2 then
    let t : Tlb := ⟨core, x.ctx, x.page, x.large, x.leafLoc, x.leaf ||| want, x.via⟩
    fillTlb (fillTlb s tlbSize t) clusterTlbSize { t with unit := clusterTlb core }
  else s

/-- ACCESSED and DIRTY set in every leaf of a list. -/
def touchLeaves (s : State) (core : Nat) (write : Bool) (xs : List Xl) : State :=
  xs.foldl (fun s x => touchLeaf s core write x) s

/-- The entries that some translations read, each once, with how often it has been overwritten (10 R285). -/
def viaOf (s : State) (xs : List Xl) : List (Nat × Nat) :=
  (xs.flatMap fun x => x.via.map fun v => (v.1, get 0 s.gens (v.1 / 8))).dedup

/-- Whether some entry of a list has been overwritten since it was read (10 R285). -/
def viaStale (s : State) (via : List (Nat × Nat)) : Bool := via.any fun v => get 0 s.gens (v.1 / 8) != v.2

end Sys2Proof.Machine
end

