-- ==== Sys2Proof/Machine/Fetch.lean ====
section
/-! DEFINITION. Choosing the entry a wave issues, fetching and decoding its instruction (02 R46, R49; 04 R84 to R89, R115;
14 R330), and the setting in which a given word is the next instruction. -/

namespace Sys2Proof.Machine

/-- The wave with its entry selected: the one whose body it is in, or the first issuable one (02 R46, 04 R87). -/
def select (w : Wave) : Option Wave :=
  let w := { w with state := .ready }
  match w.sel with
  | some p =>
    match w.entry? p with
    | some e => if w.issueMask e = 0 then w.first?.map fun e => { w with sel := some (e.prio, e.pc) } else some w
    | none => w.first?.map fun e => { w with sel := some (e.prio, e.pc) }
  | none => w.first?.map fun e => { w with sel := some (e.prio, e.pc) }

/-- A wave that may issue: Ready; not held by a fence, a barrier-0 arrival or an
unwritten rollback record, not stalled; and within the lead of a redundant pair, whose trailer goes no further than its
leader (02 R53, 11 R297, 19 R429, R442, R445). -/
def mayIssue (s : State) (w : Wave) : Bool :=
  w.isReady && !w.held && w.fence.isNone && !s.stalled.contains w.id
  && (match s.team? w.team with
    | none => false
    | some t => t.state == .resident && !(s.records.any fun r =>
        r.kind == 8 && r.code == 1 && r.team == t.t && r.gid == some t.grid))
  && (match w.role with
    | .solo => true
    | .leader t => match s.wave? t with
      | some x => decide (w.retired < x.retired + 256)
      | none => true
    | .trailer l => match s.wave? l with
      | some x => decide (w.retired < x.retired) ||
          (decide (w.retired = x.retired) && (match select w with
            | some y => ((y.sel.bind y.entry?).map fun e => e.ctx.isNone).getD false
            | none => false))
      | none => true)

/-- PRIO of a wave for issue: above every PRIO while it holds an age boost (02 R49, 14 R355). -/
def issuePrio (s : State) (w : Wave) : Nat :=
  if w.boost then 8 else
  match s.team? w.team with
  | none => 0
  | some t => match s.grid? t.grid with
    | some g => g.launch.prio
    | none => 0

/-- The core and quadrant of a wave (02 R35). -/
def slotOf (s : State) (w : Wave) : Option (Nat × Nat) := (s.team? w.team).map fun t => (t.core, quadrantOf w.w)

/-- The waves that may issue. -/
def readyWaves (s : State) : List Wave := s.waves.filter fun w => mayIssue s w && (select w).isSome

/-- Whether a wave is the one its quadrant chooses: no wave there that may issue has a higher PRIO, or an equal one and is
older (02 R49). -/
def chosen (s : State) (ready : List Wave) (w : Wave) : Bool :=
  !(ready.any fun x => slotOf s x == slotOf s w &&
    (decide (issuePrio s w < issuePrio s x) || (issuePrio s w == issuePrio s x && decide (x.id < w.id))))

/-- The state in which the wave with an id is about to issue, where its quadrant chooses it (02 R49); its core is awake. -/
def begin? (s : State) (id : Nat) : Option State :=
  match s.wave? id with
  | none => none
  | some w =>
    if mayIssue s w && chosen s (readyWaves s) w then
      match select w with
      | some w' =>
        let gated := match s.team? w.team with
          | some t => del s.gated t.core
          | none => s.gated
        some ({ s with cur := id, gated := gated }.setWave { w' with boost := false })
      | none => none
    else none

/-- Bytes of code at pc, fetched with execute permission (14 R330), and the translations used. Log entry 15 (DEDUCED), Log entry 29 (DEDUCED). -/
def fetchCode (c : Issue) (pc n : Nat) : Except Flt (List (BitVec 8) × List Xl) :=
  match translateSpan c.s c.cx c.tm.core c.w.sysMode .fetch pc n with
  | .error f => .error ⟨f.code, c.low, f.va⟩
  | .ok (locs, xs) =>
    match locs.find? fun l => codeMark c.s c.tm.core l != .ok with
    | some l => .error ⟨if codeMark c.s c.tm.core l = .lost then .lost else .poison, c.low, pc⟩
    | none => .ok (locs.map fun l => coreByte c.s c.tm.core l, xs)

/-- Whether an instruction is a clause header. -/
def isHeader : Instr → Bool
  | .clauseHeader _ => true
  | _ => false

noncomputable section

/-- The instruction at the selected entry: a clause header where the entry carries no clause context, and otherwise an
instruction of the body (04 R84 to R86, R115). Log entry 29 (DEDUCED), Log entry 79 (DEDUCED), Log entry 80 (DEDUCED). -/
def fetch (c : Issue) : Except Flt (Instr × List Xl) :=
  let illegal : Flt := ⟨.illegal, c.low, 0⟩
  match c.e.ctx with
  | none =>
    if c.e.pc % 4 ≠ 0 then .error illegal else
    match fetchCode c c.e.pc 4 with
    | .error f => .error f
    | .ok (bs, xs) => match decode bs with
      | .ok (i, _) => if isHeader i then .ok (i, xs) else .error illegal
      | .error _ => .error illegal
  | some x =>
    match fetchCode c c.e.pc 2 with
    | .error f => .error f
    | .ok (bs, xs) =>
      if (bs.head?.getD 0).getLsbD 0 then
        if x.endPc < c.e.pc + 4 then .error illegal else
        match fetchCode c (c.e.pc + 2) 2 with
        | .error f => .error f
        | .ok (bs', xs') => match decode (bs ++ bs') with
          | .ok (i, _) => if isHeader i then .error illegal else .ok (i, xs ++ xs')
          | .error _ => .error illegal
      else match decode bs with
        | .ok (i, _) => .ok (i, xs)
        | .error _ => .error illegal

/-- The next instruction of the wave with an id, with the state it is executed in; or the state after the fault its fetch
takes; or nothing, where the wave may not issue. -/
def fetchTurn (s : State) (id : Nat) : Option (State × Option Instr) :=
  match begin? s id with
  | none => none
  | some s1 =>
    match issuing s1 with
    | none => none
    | some c =>
      match fetch c with
      | .error f => some (takeFault c f, none)
      | .ok (i, xs) => some (touchLeaves s1 c.tm.core false xs, some i)

end

/-! ## A setting in which a word is the next instruction (log entry 3) -/

/-- Where the code of the setting stands. -/
def setPc : Nat := 0x1000

/-- The launch of the setting: one team of one wave of 32 threads, every register declared. Log entry 3 (DESIGN CHOICE). -/
def setLaunch : Launch where
  entry := setPc
  params := 0
  gx := 1
  gy := 1
  gz := 1
  nthreads := 32
  waves := 1
  stages := 1
  stageDepth := 0
  vregs := 64
  accs := 16
  gang := 0
  shadow := false
  xredun := false
  recov := false
  spBytes := 4096
  yieldMax := 15
  prio := 0
  keybind := none
  stampAddr := 0
  stampVal := 0
  depAddr := 0
  depVal := 0
  seedBase := 1
  slots := List.replicate 8 0x1

/-- The page table of the setting: virtual addresses 0 to 2^28 − 1 mapped onto the same physical addresses of this device,
readable, writable and executable. Log entry 3 (DESIGN CHOICE). -/
def setTables (s : State) (m : List Host.Cell) : List Host.Cell :=
  let put8 := fun (m : List Host.Cell) (pa x : Nat) =>
    ((leBytes 8 x).zip (List.range 8)).foldl (fun m b => put 0#8 m (s.here pa + b.2) b.1) m
  put8 (put8 m 0x100000 0x110001) 0x110000 (s.out.device * 2 ^ 54 + 0x399)

/-- A state in which the instruction with the bits `w` is fetched and executed by the very next step: partition 0,
context 1, a grid, a team and one wave of 32 threads that stands at the word, inside a clause body that the word ends and
whose flags are f0 and f1; a clause header stands as a header. It alone holds an age boost, so that its quadrant chooses it.
Log entry 3 (DESIGN CHOICE). -/
def placeWord (s : State) (w : Nat) : State :=
  let header := w % 64 == 63
  let len := if w % 2 = 0 then 2 else 4
  let pc := if header then setPc else setPc + 4
  let ctx : Option Ctx := if header then none else some ⟨setPc, 0, 1, pc + len⟩
  let mem := ((leBytes 8 w).zip (List.range 8)).foldl (fun m b => put 0#8 m (s.here pc + b.2) b.1) s.mem
  let wave := { newWave s.nextId s.nextId setLaunch 0 0 .solo with
    frontier := [⟨0, pc, firstThreads 32, ctx⟩], boost := true }
  { s with
    agenda := [.issue s.nextId]
    nextId := s.nextId + 1
    mem := setTables s mem
    tags := put (false, 31) s.tags (s.here 0 / 2 ^ 21) (false, 0)
    parts := ⟨0, false, List.range 16, [], 1, [0, 1, 2, 3], [1], 0, 0, 0, false, false⟩ ::
      s.parts.filter fun p => p.id != 0
    ctxs := ⟨1, 0x180000, 0x100000, 0, true, 4, 0x2000000, 0, 0, 0, 0x190000, [], 0⟩ :: s.ctxs.filter fun c => c.id != 1
    grids := ⟨s.nextId, 0x2000, 1, 0, 0, setLaunch, .running, 1, 0, false, false, [], none, none, 0⟩ ::
      s.grids.filter fun g => g.id != s.nextId
    teams := newTeam s.nextId s.nextId 0 setLaunch 0 none false :: s.teams.filter fun t => t.id != s.nextId
    waves := wave :: (s.waves.filter fun x => x.id != s.nextId).map fun x => { x with boost := false } }

end Sys2Proof.Machine
end

