-- ==== Sys2Proof/Machine/Pair.lean ====
section
/-! DEFINITION. Completion flags at issue, and redundant pairs: the operations a leader performs once for both parties,
the load-value queue, signatures and the compare buffer (04 R88; 19 R444 to R448). -/

namespace Sys2Proof.Machine

/-! ## Flags (04 R88) -/

/-- The flag that FSEL chooses in the clause header; 15 stands for none. -/
def Issue.flag (c : Issue) (fsel : BitVec 1) : Nat :=
  match c.e.ctx with
  | some x => if fsel = 0 then x.flagA else x.flagB
  | none => 15

/-- ILLEGAL, where the chosen field holds 15. -/
def noFlag (c : Issue) (fsel : BitVec 1) : Option Flt := faultIf c (c.flag fsel == 15) .illegal 0

/-- An effect that waits, Issuing, while its flag stands at 63 (04 R88). -/
def flagRoom (c : Issue) (fsel : BitVec 1) (k : Except Flt State) : Except Flt State :=
  if 63 ≤ c.w.getF (c.flag fsel) then .ok c.stall else k

/-- 1 added to a flag. -/
def Wave.flagUp (w : Wave) (f : Option Nat) : Wave :=
  match f with
  | some n => w.setF n (w.getF n + 1)
  | none => w

/-- 1 taken from a flag; a wave that waited for it is Ready once its flags are clear (02 Table 02-4). -/
def Wave.flagDown (w : Wave) (n : Nat) : Wave := (w.setF n (w.getF n - 1)).flagWake

/-! ## CRC-32C (19 R440, R445) -/

/-- One bit of the reflected CRC of the Castagnoli polynomial. -/
def crcBit (x : BitVec 32) : BitVec 32 := if x.getLsbD 0 then (x >>> 1) ^^^ 0x82F63B78#32 else x >>> 1

/-- One byte of it. -/
def crcByte (x : BitVec 32) (b : BitVec 8) : BitVec 32 :=
  (List.range 8).foldl (fun x _ => crcBit x) (x ^^^ b.zeroExtend 32)

/-- CRC-32C of bytes: initial value and final XOR of all ones. -/
def crc32c (bs : List (BitVec 8)) : BitVec 32 := ~~~(bs.foldl crcByte 0xFFFFFFFF#32)

/-- The signature of a store, red or atom issue: its mask and, for each active thread, address, size and data. Log entry 22 (DEDUCED). -/
def signature (m : BitVec 32) (l : List (Nat × Nat × List (BitVec 8))) : BitVec 32 :=
  crc32c (leBytes 4 m.toNat ++ l.flatMap fun p => leBytes 8 p.1 ++ leBytes 1 p.2.1 ++ p.2.2)

/-! ## Operations performed once (19 Table 19-6) -/

/-- What a leader finds of its trailer at an operation performed once. -/
inductive Twin where
  | alone
  | wait
  | differs
  | poisoned
  | here (d : Issue)
  deriving Repr

/-- The issue that a wave would make now. -/
def issueOf (s : State) (id : Nat) : Option Issue :=
  match s.wave? id with
  | none => none
  | some w =>
    if w.isReady then (select w).bind fun w' => issuing ({ s with cur := id }.setWave w') else none

/-- Where a leader's trailer stands: still behind, at the same instruction with the same mask and the same operand
registers, there with a poisoned one, or elsewhere. -/
def Issue.twin (c : Issue) (vs ss : List Nat) : Twin :=
  match c.w.role with
  | .leader t =>
    if c.ahead then .wait else
    match issueOf c.s t with
    | none => .wait
    | some d =>
      if d.e.ctx.isNone then .wait
      else if d.e.pc = c.e.pc ∧ d.mask = c.mask ∧ ss.all (fun r => d.w.getS r == c.w.getS r) ∧
          (threads c.mask).all (fun t => vs.all fun r => d.w.getV r t == c.w.getV r t) then
        if ss.any (get false d.w.sBad ·) || (threads c.mask).any fun t => vs.any fun r => get false d.w.vBad (32 * r + t) then .poisoned
        else .here d
      else .differs
  | _ => .alone

/-- A fault that the operation does not meet by itself, where it meets none of a higher priority (18 R406). -/
def orFault (k : Except Flt State) (f : Flt) : Except Flt State :=
  match k with
  | .error e => .error e
  | .ok _ => .error f

/-- Whether a leader's load-value queue has no room: it is per wave, and per team in a cross-core group (19 R445). -/
def lvqFull (c : Issue) : Bool :=
  match c.w.role with
  | .leader _ =>
    if c.tm.peer.isSome then decide (64 ≤ ((c.s.wavesOf c.tm.id).map fun w => w.lvq.length).sum)
    else decide (64 ≤ c.w.lvq.length)
  | _ => false

/-- An operation that a redundant pair performs once: the trailer waits for its leader, and the leader for its trailer and for room for
the result. Operand registers that differ raise MISMATCH, and a poisoned one of the trailer POISON, after the faults that rank before
them; ADDR of either is 0, since such an operation has no lowest active address (18 R406; 19 R426, R445, R446). Log entry 22 (DEDUCED). -/
def once (c : Issue) (vs ss : List Nat) (k : Except Flt State) : Except Flt State :=
  match c.w.role with
  | .trailer _ => .ok c.stall
  | _ =>
    if lvqFull c then .ok c.stall else
    match c.twin vs ss with
    | .wait => .ok c.stall
    | .differs => orFault k ⟨.mismatch, c.low, 0⟩
    | .poisoned => orFault k ⟨.poison, c.low, 0⟩
    | _ => k

/-- The retirement of an operation performed once: its results, its flag and what it does to a party's wave, for both
parties of a pair. Log entry 22 (DEDUCED). -/
def retireOnce (c : Issue) (s : State) (f : Wave → Wave) (len : Nat) : State :=
  match c.twin [] [] with
  | .here d =>
    let s1 := retire c s (f c.w) len
    if c.w.left = 0 then s1 else retire d s1 (f d.w) len
  | _ => retire c s (f c.w) len

/-- A change to a wave and to the other party of its pair. -/
def State.updPair (s : State) (id : Nat) (f : Wave → Wave) : State :=
  match s.wave? id with
  | none => s
  | some w =>
    let s := s.updWave id f
    match w.role with
    | .leader t => s.updWave t f
    | _ => s

/-- Bytes written in a team's allocation, and in that of its trailing team (19 R446). -/
def spWriteBoth (s : State) (team o : Nat) (bytes : List (BitVec 8)) : State :=
  match s.team? team with
  | none => s
  | some t =>
    let s := s.updTeam team fun t => t.spWrite o bytes
    match t.peer with
    | some p => s.updTeam p fun t => t.spWrite o bytes
    | none => s

/-! ## The load-value queue (19 R445) -/

/-- An entry put into a leader's load-value queue. -/
def Wave.lvqPut (w : Wave) (op : Nat) (r : Option (List RegWrite)) : Wave :=
  match w.role with
  | .leader _ => { w with lvq := w.lvq ++ [(op, r)] }
  | _ => w

/-- The result of an operation put into the entry that waits for it. -/
def Wave.lvqFill (w : Wave) (op : Nat) (r : List RegWrite) : Wave :=
  { w with lvq := w.lvq.map fun e => if e.1 = op ∧ e.2.isNone then (op, some r) else e }

/-- The entry of an operation taken out of a load-value queue. -/
def Wave.lvqDrop (w : Wave) (op : Nat) : Wave := { w with lvq := w.lvq.filter fun e => e.1 != op }

/-- Whether an operation is one of Table 19-6 whose results come once it completes, for both parties of a pair, and not through an
issue of the trailer (19 R446). -/
def Op.both (o : Op) : Bool :=
  match o.kind with
  | .key _ _ _ _ _ _ | .list _ _ _ _ _ | .krebal _ _ => true
  | _ => false

/-- The oldest entry of a leader's load-value queue that an issue of its trailer is to take (19 R445). -/
def nextValue (s : State) (x : Wave) : Option (Nat × Option (List RegWrite)) :=
  x.lvq.find? fun e => !(s.ops.any fun o => o.id == e.1 && o.both)

/-- A trailer's result-returning issue: it takes the next entry of its leader's queue, and waits, Issuing, while that
entry has not arrived. -/
def takeLvq (c : Issue) (l len : Nat) : Except Flt State :=
  match c.s.wave? l with
  | none => .ok c.stall
  | some x =>
    match nextValue c.s x with
    | some (op, some r) => .ok (retire c (c.s.updWave l fun x => { x with lvq := x.lvq.erase (op, some r) }) (c.w.writes r) len)
    | _ => .ok c.stall

/-- A trailer's atom: its signature is formed, once, and it waits, Issuing, for what its leader's returns (19 R445). -/
def trailAtom (c : Issue) (l : Nat) (sig : BitVec 32) (len : Nat) : Except Flt State :=
  match (c.s.wave? l).bind (nextValue c.s) with
  | some (op, none) =>
    let before := ((c.s.held.filter fun h => h.wave == l).takeWhile fun h => h.op.id != op).length
    if (c.s.held.any fun h => h.op.id == op) && decide (c.w.sigs.length ≤ before) then
      .ok ({ c with s := c.s.setWave { c.w with sigs := c.w.sigs ++ [sig] } } : Issue).stall
    else .ok c.stall
  | _ => takeLvq c l len

/-! ## The compare buffer (19 R445) -/

/-- Whether a leader's compare buffer has no room. -/
def compareFull (c : Issue) : Bool :=
  match c.w.role with
  | .leader _ =>
    let n := if c.tm.peer.isSome then (c.s.held.filter fun h => h.op.team == c.tm.id).length
      else (c.s.held.filter fun h => h.wave == c.w.id).length
    decide (32 ≤ n)
  | _ => false

/-- The injection of finj armed for the compare of the wave's next signature: whether it fires, and what stays armed
(19 Table 19-8, KIND 3). -/
def Wave.finjCompare (w : Wave) : Bool × Wave :=
  match w.finj with
  | some ⟨3, 0⟩ => (true, { w with finj := none })
  | some ⟨3, n + 1⟩ => (false, { w with finj := some ⟨3, n⟩ })
  | _ => (false, w)

end Sys2Proof.Machine
end

