-- ==== Sys2Proof/Machine/Access.lean ====
section
/-! DEFINITION. Where an access goes, what it sees and where a write lands: the address spaces, the stash, the interval
store buffer, tenure, and when an operation in flight may be performed (09 R238 to R268; 10 R273 to R285; 11 R287 to
R296; 19 R426 to R432). -/

namespace Sys2Proof.Machine

/-! ## Gangs (02 R37, R39) -/

/-- The teams of a gang. -/
def Grid.gangSize (g : Grid) : Nat := max 1 g.launch.gang

/-- The team of a gang rank in the gang of a team; the leading one in a cross-core group. -/
def gangTeam (s : State) (tm : Team) (g : Grid) (rank : Nat) : Option Team :=
  if rank < g.gangSize then
    s.teams.find? fun x => x.grid == tm.grid && x.t == tm.t / g.gangSize * g.gangSize + rank && !x.trailing
  else none

/-! ## Resolving an address (09 R238, R242; 11 R290) -/

/-- The address spaces of Table 04-2's space field. -/
inductive Space where
  | global | own | cluster
  deriving DecidableEq, Repr

/-- Where an access goes, and the translations it used. -/
structure Found where
  places : List Place
  xs : List Xl
  deriving DecidableEq, Repr

/-- The global address that a scratchpad offset is mapped onto (09 R242). -/
def Team.stashAt (t : Team) (o : Nat) : Option Nat :=
  (t.stash.find? fun m => decide (m.spBase ≤ o) && decide (o < m.spBase + m.len)).map fun m => m.base + (o - m.spBase)

/-- Whether a range of an allocation overlaps a stash mapping. -/
def Team.stashed (t : Team) (o n : Nat) : Bool :=
  t.stash.any fun m => decide (m.spBase < o + n) && decide (o < m.spBase + m.len)

/-- Bytes of an allocation: each its own, or the global byte it is mapped onto. -/
def resolveSpBytes (s : State) (cx : Context) (core : Nat) (sys : Bool) (n : Need) (tm : Team) (o : Nat) :
    Nat → Except PageFlt Found
  | 0 => .ok ⟨[], []⟩
  | k + 1 =>
    let here : Except PageFlt Found := match tm.stashAt o with
      | none => .ok ⟨[.sp tm.id o], []⟩
      | some va => match translateSpan s cx core sys n va 1 with
        | .error f => .error f
        | .ok (ls, xs) => .ok ⟨ls.map .mem, xs⟩
    match here with
    | .error f => .error f
    | .ok a => match resolveSpBytes s cx core sys n tm (o + 1) k with
      | .error f => .error f
      | .ok b => .ok ⟨a.places ++ b.places, a.xs ++ b.xs⟩

/-- An access of n bytes at an address of a space (09 R238). -/
def resolve (c : Issue) (sp : Space) (n : Need) (addr len : Nat) : Except PageFlt Found :=
  match sp with
  | .global =>
    match translateSpan c.s c.cx c.tm.core c.w.sysMode n addr len with
    | .error f => .error f
    | .ok (ls, xs) => .ok ⟨ls.map .mem, xs⟩
  | .own =>
    if c.g.launch.spBytes < addr + len then .error ⟨.perm, addr⟩
    else resolveSpBytes c.s c.cx c.tm.core c.w.sysMode n c.tm addr len
  | .cluster =>
    match gangTeam c.s c.tm c.g (bitsN addr 18 2) with
    | none => .error ⟨.perm, addr⟩
    | some t =>
      if addr / 2 ^ 20 ≠ 0 ∨ c.g.launch.spBytes < addr % 2 ^ 18 + len then .error ⟨.perm, addr⟩
      else resolveSpBytes c.s c.cx c.tm.core c.w.sysMode n t (addr % 2 ^ 18) len

/-- A function of the active threads in ascending order, up to the first that faults (11 R287). -/
def eachThread {α : Type} (f : Nat → Except Flt α) : List Nat → Except Flt (List α)
  | [] => .ok []
  | t :: ts =>
    match f t with
    | .error e => .error e
    | .ok a => match eachThread f ts with
      | .error e => .error e
      | .ok l => .ok (a :: l)

/-- The accesses of every active thread, and the translations used. -/
def resolveAll (c : Issue) (sp : Space) (n : Need) (addr : Nat → Nat) (len : Nat) :
    Except Flt (List (Access × Nat) × List Xl) :=
  match eachThread (fun t => match resolve c sp n (addr t) len with
      | .error f => .error ⟨f.code, t, f.va⟩
      | .ok r => .ok ((⟨t, r.places, addr t⟩, addr t), r.xs)) (threads c.mask) with
  | .error e => .error e
  | .ok l => .ok (l.map (·.1), l.flatMap (·.2))

/-! ## What a wave sees -/

/-- Whether what a team's own buffer and its core's L1 hold as stores covers a whole word. -/
def ownsWord (s : State) (tm : Team) (word : Nat) : Bool :=
  let held := tm.interval.buffer.flatMap fun h => match h with
    | .store w bs _ => if w = word then bs else []
    | _ => []
  coversWord (pendBytes s tm.core word ++ held)

/-- The mark a wave meets at a location: none where what it has stored covers the word. -/
def viewMark (s : State) (tm : Team) (loc : Nat) : Mark := if ownsWord s tm (loc / 16) then .ok else coreMark s tm.core loc

/-- A byte of a place. Log entry 9 (DEDUCED). -/
def placeByte (s : State) (w : Wave) (tm : Team) : Place → BitVec 8
  | .mem loc => viewByte s w tm loc
  | .sp team o => match s.team? team with
    | some t => t.spByte o
    | none => 0

/-- The value of an access. -/
def placesNat (s : State) (w : Wave) (tm : Team) (ps : List Place) : Nat := leNat (ps.map (placeByte s w tm))

/-- The mark of a place. -/
def placeMark (s : State) (tm : Team) : Place → Mark
  | .mem loc => viewMark s tm loc
  | .sp team o => match s.team? team with
    | some t => if t.spPoisoned o 1 then .poison else .ok
    | none => .ok

/-- The data faults POISON and LOST of reads: the lowest thread that meets one (11 R287). Log entry 28 (DEDUCED). -/
def dataFault (c : Issue) (acc : List (Access × Nat)) : Option Flt :=
  acc.findSome? fun p =>
    match p.1.places.find? fun pl => placeMark c.s c.tm pl != .ok with
    | some pl => some ⟨if placeMark c.s c.tm pl = .lost then .lost else .poison, p.1.thread, p.2⟩
    | none => none

/-- LOST, where an access goes to a home that has failed (19 R449). -/
def failedFault (c : Issue) (acc : List (Access × Nat)) : Option Flt :=
  acc.findSome? fun p =>
    if p.1.places.any fun pl => match pl with
      | .mem loc => homeFailed c.s loc
      | .sp _ _ => false
    then some ⟨.lost, p.1.thread, p.2⟩ else none

/-- BARCLOBBER, where a thread's write overlaps an armed barrier word (09 R240). Log entry 15 (DEDUCED). -/
def clobberFault (c : Issue) (acc : List (Access × Nat)) : Option Flt :=
  acc.findSome? fun p =>
    if p.1.places.any fun pl => match pl with
      | .sp team o => ((c.s.team? team).map fun t => t.clobbers o 1).getD false
      | .mem _ => false
    then some ⟨.barclobber, p.1.thread, p.2⟩ else none

/-! ## Where a write lands -/

/-- Whether a team's stores are held in its interval store buffer (19 R431). -/
def Team.holds (t : Team) : Bool := t.interval.recov && t.interval.reason == 0

/-- Entries an interval store buffer holds at most (19 R431). -/
def bufferSize : Nat := 2048

/-- A store to one word entered in the interval store buffer: it merges into the word's last entry where that is a store,
and takes a new entry otherwise; none where it needs one too many. Log entry 23 (DEDUCED). -/
def holdStore (buf : List Held) (word : Nat) (bytes : List (Nat × BitVec 8)) (via : List (Nat × Nat)) : Option (List Held) :=
  let new := if buf.length < bufferSize then some (buf ++ [.store word bytes via]) else none
  match (buf.reverse).findIdx? fun h => heldOn word h with
  | some i =>
    let k := buf.length - 1 - i
    match buf[k]? with
    | some (.store _ old v) =>
      some (buf.set k (.store word (bytes.foldl (fun m b => del m b.1 ++ [b]) old) (via ++ v.filter fun x => !via.contains x)))
    | _ => new
  | none => new

/-- A team's interval store buffer set. -/
def Team.setBuffer (t : Team) (buf : List Held) : Team := { t with interval := { t.interval with buffer := buf } }

/-- One word's bytes stored by a wave of a team: into the interval store buffer, the core's L1, or the home. `after` is what the
wave's last fence or acquire put before its stores, `since` the number of the store's issue (11 R292, 19 R431, 10 R273). Log entry 8 (DEDUCED). -/
def storeWord (s : State) (team after since : Nat) (how : StoreHow) (via : List (Nat × Nat)) (word : Nat) (bytes : List (Nat × BitVec 8)) :
    State :=
  match s.team? team with
  | none => s
  | some t =>
    let plain := fun s : State =>
      if how.home then homeWord (performPends s t.core fun e => decide (e.id < after)) t.core word bytes .ok
      else l1Store s t.core team word bytes after since how via
    if t.holds then
      match holdStore t.interval.buffer word bytes via with
      | some buf => s.updTeam team fun t => t.setBuffer buf
      | none => plain (unsafeInterval s team 2)
    else plain s

/-- Bytes at locations grouped into words. -/
def groupWords : List (Nat × BitVec 8) → List (Nat × List (Nat × BitVec 8))
  | [] => []
  | (loc, b) :: l =>
    match groupWords l with
    | (w, bs) :: rest => if w = loc / 16 then (w, (loc % 16, b) :: bs) :: rest else (loc / 16, [(loc % 16, b)]) :: (w, bs) :: rest
    | [] => [(loc / 16, [(loc % 16, b)])]

/-- The scratchpad offsets of an access with their bytes. -/
def spBytesOf (a : Access) (v : Nat) : List (Nat × Nat × BitVec 8) :=
  (a.places.zip (leBytes a.places.length v)).filterMap fun p =>
    match p.1 with
    | .sp team o => some (team, o, p.2)
    | .mem _ => none

/-- Bytes written in allocations; a byte of an armed barrier word is not written (09 R240). An 8-byte unit that is written
whole loses its mark (19 R427). -/
def storeSp (s : State) (l : List (Nat × Nat × BitVec 8)) : State :=
  match l with
  | [] => s
  | (team, o, _) :: _ =>
    let ok := l.filter fun p => !(((s.team? team).map fun t => t.clobbers p.2.1 1).getD false)
    let s := s.updTeam team fun t => ok.foldl (fun t p => t.spPut p.2.1 p.2.2) t
    let n := l.length
    s.updTeam team fun t => { t with spBad := t.spBad.filter fun m => !(decide (o ≤ 8 * m.1) && decide (8 * m.1 + 8 ≤ o + n)) }

/-- One thread's store performed (11 R292). -/
def storeAccess (s : State) (team after since : Nat) (how : StoreHow) (via : List (Nat × Nat)) (a : Access) (v : Nat) : State :=
  let s := (groupWords (memBytes a v)).foldl (fun s p => storeWord s team after since how via p.1 p.2) s
  storeSp s (spBytesOf a v)

/-! ## Stamps seen from outside their partition (14 R354) -/

/-- The stamps of a grid: address and value of its own, or of each child merged into it (02 R59, 14 R350). -/
def Grid.stamps (g : Grid) : List Nat := ((g.launch :: g.merged.map (·.2)).map (·.stampAddr)).filter (· != 0)

/-- Whether a stamp of a grid stands among n bytes at a location. -/
def stampAt (s : State) (g : Grid) (loc n : Nat) : Bool :=
  match s.ctx? g.ctx with
  | none => false
  | some cx => g.stamps.any fun a => match translate s cx unitCore false .write a with
    | .ok x => decide (x.loc < loc + n) && decide (loc < x.loc + 8)
    | .error _ => false

/-- The system-scope part of the stamps' releases: a party outside the grid's partition is about to observe some bytes, and every word
that a grid whose stamp is among them wrote goes home first (14 R354). `part` is the observer's partition, where it has one. -/
def flushStamps (s : State) (part : Option Nat) (loc n : Nat) : State :=
  (s.grids.filter fun g => some g.part != part && stampAt s g loc n).foldl (fun s g =>
    (s.teamsOf g.id).foldl (fun s t => drainCore s t.core fun _ => true) s) s

/-! ## Atomics (11 R293 to R295; 19 R431, R432) -/

/-- The exclusive state of a word taken by a core's L1 for an atomic, where its contention predictor chooses that (11 R295). -/
def ownWord (s : State) (core word : Nat) : State :=
  answerFor s (missFill s core (word / 16) (word % 16) (word % 16) 1 0 true false) fun w => w == word

/-- An atomic performed by a core: in its L1, where it holds the word exclusive or modified, or takes ownership of it; and at the home
otherwise. What the L1 holds of the word is performed first, and at the home its copy of a word that it does not own is dropped
(11 R295, 09 R268). The state and the old value. Log entry 11 (DEDUCED). -/
def atomHome (s : State) (core : Nat) (own : Bool) (op : AtomOp) (size loc x y : Nat) : State × Nat :=
  let word := loc / 16
  let s := performPends (flushStamps s (some (partOfCore s core)) (16 * word) 16) core fun e => e.word == word
  let s := if own && !(isSwm s loc) && !(ownsExclusive s core word) then ownWord s core word else s
  if ownsExclusive s core word && !(isSwm s loc) then
    ((redHome s op size loc x y).setHeld core word .modified, readHomeN s loc size)
  else
    let s := dropWord (drainWord s core word) core word
    (redHome s op size loc x y, readHomeN s loc size)

/-- One thread's red: held in the interval store buffer, or performed. -/
def redAccess (s : State) (team : Nat) (via : List (Nat × Nat)) (own : Bool) (op : AtomOp) (size loc x y : Nat) : State :=
  match s.team? team with
  | none => s
  | some t =>
    if t.holds then
      if t.interval.buffer.length < bufferSize then
        s.updTeam team fun t => t.setBuffer (t.interval.buffer ++ [.red op size loc x y via])
      else (atomHome (unsafeInterval s team 2) t.core own op size loc x y).1
    else (atomHome s t.core own op size loc x y).1

/-- Whether the last entries of an interval store buffer give every byte of an atomic's operand as stored bytes. -/
def storesCover (buf : List Held) (size loc : Nat) : Bool :=
  match (buf.filter (heldOn (loc / 16))).getLast? with
  | some (.store _ bs _) => (List.range size).all fun i => bs.any fun b => b.1 == loc % 16 + i
  | _ => false

/-- A word that a team keeps for itself until its buffer is released. -/
def Team.keep (t : Team) (word : Nat) : Team := { t with interval := { t.interval with locked := word :: t.interval.locked.filter (· != word) } }

/-- One thread's atom in a team that holds its stores, on a word that the buffer stands on: it acts on the word as the team sees it,
and its new bytes join the held entries, whose place in co is the release. Where the stores held do not give its whole operand it
has read memory, and the team keeps the word until the release, so that no other write comes between its two halves (10 R277). The
state, the old value and the bytes that joined an entry. Log entry 11 (DEDUCED). -/
def atomAccess (s : State) (w : Wave) (own : Bool) (op : AtomOp) (size loc x y : Nat) :
    State × Nat × List (Nat × List (Nat × BitVec 8)) :=
  match s.team? w.team with
  | none => (s, 0, [])
  | some t =>
    let word := loc / 16
    let plain := fun s : State =>
      let r := atomHome s t.core own op size loc x y
      (r.1, r.2, [])
    if t.holds && t.interval.buffer.any (heldOn word) then
      let old := leNat ((List.range size).map fun i => viewByte s w t (loc + i))
      match atomNew op (8 * size) old x y with
      | none => (s, old, [])
      | some v =>
        let bs := ((leBytes size v).zip (List.range size)).map fun p => (loc % 16 + p.2, p.1)
        match holdStore t.interval.buffer word bs [] with
        | some buf =>
          (s.updTeam w.team fun t => if storesCover t.interval.buffer size loc then t.setBuffer buf else (t.setBuffer buf).keep word,
            old, [(word, bs)])
        | none => plain (unsafeInterval s w.team 2)
    else plain s

/-! ## Tenure (09 R257 to R259) -/

/-- The least and the greatest offset of an element of a tile from its base. -/
def Tile.bounds (t : Tile) : Int × Int :=
  t.dims.foldl (fun p d =>
    let x := ((d.1 - 1 : Nat) : Int) * d.2
    (p.1 + min 0 x, p.2 + max 0 x)) (0, 0)

/-- The 64 KiB pages that a tile's bounding box touches. -/
def Tile.pages (t : Tile) : List Nat :=
  let lo := ((t.base : Int) + t.bounds.1).toNat / 65536
  let hi := ((t.base : Int) + t.bounds.2 + (2 ^ t.esize : Nat) - 1).toNat / 65536
  (List.range (hi + 1 - lo)).map (lo + ·)

/-- The page of the home address that a page of a context stands on, where it translates. -/
def pageLoc (s : State) (ctx page : Nat) : Option Nat :=
  match s.ctx? ctx with
  | none => none
  | some cx => match translate s cx unitCore true .read (page * 65536) with
    | .ok x => some (x.loc / 65536)
    | .error _ => none

/-- The pages of a tile of a context that translate: virtual page, and the page it stands on. -/
def Tile.pagesAt (s : State) (ctx : Nat) (t : Tile) : List (Nat × Nat) :=
  t.pages.filterMap fun p => (pageLoc s ctx p).map fun q => (p, q)

/-- Whether a location lies in the footprint of a tile of a context, as its pages stand now. -/
def tileMeets (s : State) (ctx : Nat) (t : Tile) (loc : Nat) : Bool := t.meets (t.pagesAt s ctx) loc

/-- Whether a tenure stands against an access of a team: a write against any that another team holds, a read against write
tenure (09 R259). Log entry 42 (DEDUCED). -/
def Tenure.against (t : Tenure) (team : Nat) (write : Bool) (locs : List Nat) : Bool :=
  t.team != team && (write || t.write) && locs.any t.meets

/-- Whether an access of a team conflicts with a tenure that another team holds. -/
def tenureBlocks (s : State) (team : Nat) (write : Bool) (locs : List Nat) : Bool := s.tenures.any fun t => t.against team write locs

/-! ## When an operation may be performed (10 R273, R279, R280; 09 R262, R263) -/

/-- A load, store or atomic of a core. -/
def Op.isCore (o : Op) : Bool :=
  match o.kind with
  | .load _ _ _ _ _ | .store _ _ | .atom _ _ _ _ _ _ _ _ => true
  | _ => false

/-- An operation of a key unit or on a work list: its events stand in program order with its wave's fences and releases
(15 R369, R384). -/
def Op.isKey (o : Op) : Bool :=
  match o.kind with
  | .key _ _ _ _ _ _ | .list _ _ _ _ _ => true
  | _ => false

/-- An operation that acts as an acquire while it is in flight. -/
def Op.isAcquire (o : Op) : Bool :=
  match o.kind with
  | .atom _ _ _ order _ _ _ _ => order % 2 == 1
  | .racq _ _ => true
  | .key minor _ _ _ _ _ => minor == 0 || minor == 1 || minor == 5
  | .list minor _ _ _ _ => minor == 10
  | _ => false

/-- An operation that acts as a release. -/
def Op.isRelease (o : Op) : Bool :=
  match o.kind with
  | .atom _ _ _ order _ _ _ _ => decide (2 ≤ order)
  | _ => false

/-- Whether an operation of a core writes. -/
def Op.isWrite (o : Op) : Bool :=
  match o.kind with
  | .load _ _ _ _ _ => false
  | .atom op _ _ _ _ _ _ _ => op != .ldo
  | _ => true

/-- The places of an access that a load has still to read. -/
def Access.left (got : List (Nat × Nat × BitVec 8)) (a : Access) : Access :=
  { a with places := ((a.places.zip (List.range a.places.length)).filter fun p =>
      !(got.any fun g => g.1 == a.thread && g.2.1 == p.2)).map (·.1) }

/-- The accesses that an operation of a core has still to perform. -/
def Op.accesses (o : Op) : List Access :=
  match o.kind with
  | .load _ _ _ acc got => if got = [] then acc else acc.map (Access.left got)
  | .store _ acc => acc.map (·.1)
  | .atom _ _ _ _ _ _ _ acc => acc.map (·.1)
  | _ => []

/-- The locations of some accesses. -/
def locsOf (acc : List Access) : List Nat :=
  acc.flatMap fun a => a.places.filterMap fun p => match p with
    | .mem l => some l
    | .sp _ _ => none

/-- The words that a thread of an access touches, and the scratchpad units. -/
def wordsOf (a : Access) : List (Nat × Option Nat × Nat) :=
  (a.places.map fun p => match p with
    | .mem l => (a.thread, none, l / 16)
    | .sp t o => (a.thread, some t, o / 16)).dedup

/-- Whether two lists of accesses touch one word from one thread. -/
def shareWord (a b : List Access) : Bool :=
  let ws := b.flatMap wordsOf
  (a.flatMap wordsOf).any fun x => ws.contains x

/-- Whether a range holds a place. -/
def Rng.has (r : Rng) : Place → Bool
  | .mem l => r.sp == none && decide (r.lo ≤ l) && decide (l < r.lo + r.len)
  | .sp t o => r.sp == some t && decide (r.lo ≤ o) && decide (o < r.lo + r.len)

/-- Whether two ranges overlap. -/
def Rng.meets (a b : Rng) : Bool := a.sp == b.sp && decide (a.lo < b.lo + b.len) && decide (b.lo < a.lo + a.len)

/-- The core of an operation's team. -/
def coreOf (s : State) (o : Op) : Option Nat := (s.team? o.team).map (·.core)

/-- Whether a place lies in a software-managed page. -/
def swmPlace (s : State) : Place → Bool
  | .mem l => isSwm s l
  | .sp _ _ => false

/-- Whether an operation of a core is a store that its L1 takes: one to a word that another core's engine operation owns enters it,
and is performed after that operation's write (10 R284). -/
def Op.entersL1 (o : Op) : Bool :=
  match o.kind with
  | .store how _ => !how.home
  | _ => false

/-- What a wave's last fence or acquire put before its later accesses. -/
def fencedOf (s : State) (wave : Nat) : Nat := ((s.wave? wave).map (·.fenced)).getD 0

/-- What an operation comes after: what was issued before it, and what was there at its wave's last fence or acquire. -/
def Op.horizon (s : State) (o : Op) : Nat := max o.id (fencedOf s o.wave)

/-- Whether no earlier access of its waves holds an engine operation back. -/
def engineClear (s : State) (e : Op) : Bool := !(s.ops.any fun x => x.wave == e.wave && decide (x.id < e.id) && x.isCore)

/-- Whether an engine operation in flight holds back some accesses of an operation: an access of its own core that meets its
destination, or a store that meets its sources (09 R263); and, in coherent pages, an access of any other core that meets its
destination (09 R262, R268). An access issued before the engine's is not held, unless its wave has since acquired what the engine's
issue came before (10 R280). Log entry 90 (DESIGN CHOICE). -/
def engineHolds (s : State) (e o : Op) (acc : List Access) : Bool :=
  let ps := acc.flatMap (·.places)
  let hit := fun (rs : List Rng) (ps : List Place) => rs.any fun r => ps.any r.has
  let near := coreOf s e == coreOf s o
  let seen := decide (o.id < e.id) && decide (e.id < fencedOf s o.wave) && engineClear s e
  if near then (decide (e.id < o.id) || seen) && (hit e.writes ps || (o.isWrite && hit e.reads ps))
  else ((decide (e.id < o.id) && !o.entersL1) || seen) && hit e.writes (ps.filter fun p => !swmPlace s p)

/-- Whether an operation's results go to its wave alone, its trailer taking them from the load-value queue: a load or an atom (19
R445). -/
def OpKind.returns : OpKind → Bool
  | .load _ _ _ _ _ => true
  | .atom _ _ ret _ _ _ _ _ => ret
  | .result _ => true
  | _ => false

/-- Whether a held issue of a leader keeps its value from its wave's later loads until it is performed: a returning atomic, and
what goes to a scratchpad; what a held store or red leaves in memory is seen through the buffer (19 R445). -/
def HeldIssue.hides (h : HeldIssue) : Bool :=
  (match h.op.kind with
    | .atom _ _ ret _ _ _ _ _ => ret
    | _ => false) ||
  h.op.accesses.any fun a => a.places.any fun p => match p with
    | .sp _ _ => true
    | .mem _ => false

/-- The words of some accesses. -/
def memWords (acc : List Access) : List Nat := ((locsOf acc).map (· / 16)).dedup

/-- The held stores of its core that come before an access of a wave that is performed at its home: those that the wave's last fence
or acquire put before it, and those to its words (10 R273). -/
def comesFirst (s : State) (o : Op) (acc : List Access) (e : Pend) : Bool :=
  decide (e.id < fencedOf s o.wave) || (memWords acc).contains e.word

/-- Whether an operation of a core is performed at its home, or in its L1 as there. -/
def Op.actsHome (o : Op) : Bool :=
  match o.kind with
  | .store how _ => how.home
  | .atom _ _ _ _ _ _ _ _ => true
  | _ => false

/-- Whether an operation of a core is a store, red or atom, as a compare buffer holds them (19 R445). -/
def Op.isCompared (o : Op) : Bool :=
  match o.kind with
  | .store _ _ | .atom _ _ _ _ _ _ _ _ => true
  | _ => false

/-- Whether an operation waits for an earlier one of its leader wave: matched issues are performed in their order (19 R445, 20 R457). -/
def outOfTurn (s : State) (o : Op) : Bool :=
  o.isCompared && (match (s.wave? o.wave).map (fun w => w.role) with
    | some (Role.leader _) => s.ops.any fun e => e.wave == o.wave && decide (e.id < o.id) && e.isCompared
    | _ => false)

/-- Whether a write of a team that holds its stores would need an entry too many, or an atom one that is no longer logged, while the
buffer cannot be released (19 R431, R432). -/
def bufferWaits (s : State) (o : Op) : Bool :=
  match s.team? o.team with
  | none => false
  | some t => t.holds && o.isCompared && !(releasable s t) &&
      (decide (bufferSize ≤ t.interval.buffer.length + (locsOf o.accesses).length + 1) || t.interval.rolled != [])

/-- Whether a racq that names an operation's core, and is older than an engine operation on a word of some accesses, is in flight: the
store waits for it outside the L1, so that the racq's drain point never waits for what comes after it (10 R284). -/
def racqFirst (s : State) (o : Op) (acc : List Access) : Bool :=
  o.entersL1 && s.ops.any fun r => match r.kind with
    | .racq v _ => coreOf s o == some v && s.ops.any fun e => decide (r.id < e.id) && decide (e.id < o.id) &&
        (memWords acc).any fun w => e.writes.any fun x => x.sp.isNone && x.word w
    | _ => false

/-- Whether some accesses of an operation of a core may be performed as far as order goes: after the wave's earlier acquires, its
earlier accesses to the same words and, for a release, all its earlier accesses; and not behind an engine, a tenure, or a word that
another team keeps. Log entry 8 (DEDUCED). -/
def mayReach (s : State) (o : Op) (acc : List Access) : Bool :=
  let early := s.ops.filter fun e => e.wave == o.wave && decide (e.id < o.id)
  let held := s.held.filter fun h => h.wave == o.wave && decide (h.op.id < o.id)
  !(early.any Op.isAcquire) && !(held.any fun h => h.op.isAcquire) &&
  !(o.isRelease && (early.any (fun e => e.isCore || e.isKey) || held != [])) &&
  !(early.any fun e => shareWord e.accesses acc) &&
  !(held.any fun h => h.hides && shareWord h.op.accesses acc) &&
  !(s.ops.any fun e => engineHolds s e o acc) &&
  !(o.actsHome && (match coreOf s o with
    | some core => pendOwed s core (comesFirst s o acc)
    | none => false)) &&
  !(o.isWrite && (memWords acc).any (keptWord s o.team)) &&
  !(outOfTurn s o) && !(bufferWaits s o) && !(racqFirst s o acc) &&
  (s.tenures.isEmpty || !(tenureBlocks s o.team o.isWrite (locsOf acc)))

/-- The words of some accesses that are reached at their homes: by a load that fills nothing, a store that goes home, or an atomic on a
word that the L1 does not own (09 R252, R264; 11 R292, R295). -/
def Op.homeWords (s : State) (o : Op) (core : Nat) (acc : List Access) : List Nat :=
  match o.kind with
  | .load _ _ how _ _ => (memWords acc).filter fun w =>
      how.direct.contains (w / 4096) || (how.hint == 3 && (held? s core w).isNone && (pendBytes s core w).isEmpty)
  | .store how _ => if how.home then memWords acc else []
  | .atom _ _ _ _ _ _ _ _ => (memWords acc).filter fun w => !(ownsExclusive s core w)
  | _ => []

/-- Whether an operation of a team that holds its stores goes into its buffer: a store or a red (19 R431). -/
def Op.buffered (o : Op) : Bool :=
  match o.kind with
  | .store _ _ | .atom _ _ false _ _ _ _ _ => true
  | _ => false

/-- The requests that some accesses of an operation make of home slices: one for each frame that it reaches there. -/
def Op.requests (s : State) (o : Op) (acc : List Access) : List Fill :=
  match coreOf s o, s.team? o.team with
  | some core, some t =>
    if t.holds && o.buffered then [] else
    let ws := o.homeWords s core acc
    ((ws.map (· / 16)).dedup).map fun f =>
      let os := (ws.filter fun w => w / 16 == f).map (· % 16)
      let lo := os.foldl min 15
      ⟨core, homeSlice s (partOfCore s core) (256 * f), f, lo, os.foldl max 0 + 1 - lo, o.isWrite, 3, false, true, some o.id⟩
  | _, _ => []

/-- The request for a frame that an operation has made of its home. -/
def Op.asked (s : State) (o : Op) (frame : Nat) : Option Fill := s.fills.find? fun f => f.op == some o.id && f.frame == frame

/-- Whether the home slices take the requests of some accesses of an operation: each has its place in the slice's queue, or finds room
there as it comes, and no home waits for its census (09 R250, 12 R327; 19 R450). -/
def admitted (s : State) (o : Op) (acc : List Access) : Bool :=
  (o.requests s acc).all fun f => !(homeDown s (256 * f.frame)) && match o.asked s f.frame with
    | some x => x.queued
    | none => slotFree s f.slice

/-- Whether some accesses of an operation of a core may be performed now. Log entry 8 (DEDUCED). -/
def canReach (s : State) (o : Op) (acc : List Access) : Bool := mayReach s o acc && admitted s o acc

/-- The requests of some accesses of an operation sent to their homes, where nothing but room in the slices' queues holds it back. Log
entry 92 (DESIGN CHOICE). -/
def askHome (s : State) (o : Op) (acc : List Access) : State :=
  if mayReach s o acc && !(admitted s o acc) then
    (o.requests s acc).foldl (fun s f => if (o.asked s f.frame).isSome then s else sendFill s f) s
  else s

/-- The requests of an operation for frames that it has no more to do in withdrawn. -/
def settleRequests (s : State) (id : Nat) : State :=
  match s.op? id with
  | none => s
  | some o => { s with fills := s.fills.filter fun f => f.op != some id || (memWords o.accesses).any fun w => w / 16 == f.frame }

/-- Whether an operation of a core may be performed now, as a whole. -/
def canPerform (s : State) (o : Op) : Bool := canReach s o o.accesses

/-- The partition of a team. -/
def partOfTeam (s : State) (t : Team) : Option Nat := (s.grid? t.grid).map (·.part)

/-- The waves an operation acts for: those of its slices, or the one that issued it. -/
def Op.waves (o : Op) : List Nat :=
  match o.kind with
  | .copy _ _ slices => slices.map (·.1)
  | _ => [o.wave]

/-- The locations of some ranges. -/
def rngLocs (l : List Rng) : List Nat :=
  (l.filter fun r => r.sp.isNone).flatMap fun r => (List.range r.len).map (r.lo + ·)

/-- Whether a held store waits for an engine operation issued after a number. -/
def lateOwned (s : State) (e : Pend) (now : Nat) : Bool :=
  s.ops.any fun x => decide (now < x.id) && decide (x.id < e.since) && x.writes.any fun r => r.sp.isNone && r.word e.word

/-- The held stores that come before an engine operation's reads and writes: those issued before it, and those that its wave has
acquired since, but for what waits for a later engine operation (10 R275, R280). Log entry 10 (DEDUCED). -/
def beforeOp (s : State) (o : Op) (e : Pend) : Bool := decide (e.since < o.horizon s) && !(lateOwned s e o.id)

/-- Whether what its core's L1 holds lets an engine operation be performed: no store that comes before it has to wait. -/
def coreSettled (s : State) (o : Op) : Bool :=
  match coreOf s o with
  | some core => !(pendOwed s core (beforeOp s o))
  | none => true

/-- Whether a slice that homes some locations takes no request: its queue is full, or the home waits for its census (09 R250; 19
R450). -/
def slicesFull (s : State) (part : Nat) (locs : List Nat) : Bool :=
  locs.any (homeDown s) || !s.fills.isEmpty && ((locs.map (· / 256)).dedup).any fun f => !(slotFree s (homeSlice s part (256 * f)))

/-- Whether an engine operation may be performed now: after every earlier access of its wave, and after every earlier
operation whose destination meets its ranges (10 R280, 09 R262); and where the slices admit its requests. -/
def canEngine (s : State) (o : Op) : Bool :=
  !(s.ops.any fun e => decide (e.id < o.id) &&
    ((o.waves.contains e.wave && (e.isCore || e.isAcquire)) ||
      (!e.isCore && ((e.writes.any fun r => (o.reads ++ o.writes).any r.meets) || (e.reads.any fun r => o.writes.any r.meets))))) &&
  !(s.held.any fun h => o.waves.contains h.wave && decide (h.op.id < o.id)) &&
  coreSettled s o &&
  !(s.teams.any fun t => t.id != o.team && t.interval.locked.any fun w => o.writes.any fun r => r.sp.isNone && r.word w) &&
  !(slicesFull s (((coreOf s o).map (partOfCore s)).getD 0) (rngLocs (o.reads ++ o.writes))) &&
  (s.tenures.isEmpty || !(tenureBlocks s o.team true (rngLocs o.writes) || tenureBlocks s o.team false (rngLocs o.reads)))

/-- The part of an operation's accesses that lies in a tenured tile. -/
def Op.onTile (t : Tenure) (e : Op) : List Access :=
  (e.accesses.map fun a => { a with places := a.places.filter fun p => match p with
    | .mem l => t.meets l
    | .sp _ _ => false }).filter fun a => a.places != []

/-- Whether the holder of a tenure has an operation in flight on the tile that can be performed; a saved team has none (18 R417). One
that waits, for another tenure, behind an engine, for a key unit or for room in a queue, is not yet on the tile, so that a recall never
waits for what waits on it (09 R259, 01 R11). -/
def holderBusy (s : State) (t : Tenure) : Bool :=
  s.ops.any fun e => e.team == t.team &&
    if e.isCore then !(e.onTile t).isEmpty && canReach s e (e.onTile t)
    else !e.isKey && (rngLocs (e.reads ++ e.writes)).any t.meets && canEngine s e

/-- The state once every tenure that stands against an access has been recalled; none while a holder is busy. -/
def recallFor (s : State) (team : Nat) (write : Bool) (locs : List Nat) : Option State :=
  let hit := s.tenures.filter fun t => t.against team write locs
  if hit.any (holderBusy s) then none else some (hit.foldl (fun s t => recallOne s t write) s)

/-- The stores that an engine operation's core holds performed: what comes before its issue is performed before its reads and writes
(10 R280). Log entry 10 (DEDUCED). -/
def beforeEngine (s : State) (o : Op) : State :=
  match coreOf s o with
  | some core => performPends s core (beforeOp s o)
  | none => s

/-- Whether a wave has an access in flight: what a release at issue waits for. -/
def Issue.busy (c : Issue) : Bool :=
  (c.s.ops.any fun e => e.wave == c.w.id && (e.isCore || e.isAcquire || e.isKey)) || c.s.held.any fun h => h.wave == c.w.id

/-- Every store that a core's L1 holds performed: what a release at .cluster scope or wider needs (09 Table 09-1). Log entry 10 (DEDUCED). -/
def drainFor (s : State) (core scope : Nat) : State := if 2 ≤ scope then performPends s core fun _ => true else s

/-- Whether a release of a scope, issued with a number, has to wait for an earlier store that the core holds behind an engine
(10 R284). -/
def owes (s : State) (core scope now : Nat) : Bool := decide (2 ≤ scope) && pendOwed s core fun e => decide (e.since < now)

/-- An effect that waits, Issuing, until the wave's earlier accesses have been performed: what an arrival, or another
release that completes at issue, needs; a release at .cluster scope or wider then has the core's stores performed.
Log entry 10 (DEDUCED). -/
def asRelease (c : Issue) (scope : Nat) (k : Issue → Except Flt State) : Except Flt State :=
  if c.busy || owes c.s c.tm.core scope c.s.nextId then .ok c.stall else k { c with s := drainFor c.s c.tm.core scope }

/-- The wave's mark of what comes before its later stores. -/
def Wave.fenceAt (now : Nat) (w : Wave) : Wave := { w with fenced := now }

/-- A fence or an acquire of a wave performed: what its core's L1 holds is performed before what the wave stores from then on
(10 R273), and one at .cluster scope or wider has the invalidations on their way to the core delivered (10 R279).
Log entry 9 (DEDUCED). -/
def fenced (s : State) (wave core scope : Nat) : State :=
  let s := if 2 ≤ scope then freshen s core else s
  s.updPair wave (Wave.fenceAt s.nextId)

/-- A new operation of the issuing wave. -/
def Issue.newOp (c : Issue) (flag : Nat) (kind : OpKind) (via : List (Nat × Nat)) : Op :=
  ⟨c.s.nextId, c.w.id, c.tm.id, c.e.pc, c.low, flag, kind, via, c.w.sysMode, [], []⟩

/-- An operation put among those in flight. -/
def State.addOp (s : State) (o : Op) : State := { s with ops := s.ops ++ [o], nextId := max s.nextId (o.id + 1) }

/-! ## What an operation in flight acts in -/

/-- The wave, team, grid and context of an operation, as an issue. -/
def opIssue (s : State) (o : Op) : Option Issue :=
  match s.wave? o.wave, s.team? o.team with
  | some w, some tm =>
    match s.grid? tm.grid with
    | some g =>
      match s.ctx? g.ctx with
      | some cx => some ⟨s, { w with sysMode := o.sys }, tm, g, cx, ⟨0, o.pc, BitVec.twoPow 32 o.thread, none⟩, BitVec.twoPow 32 o.thread⟩
      | none => none
    | none => none
  | _, _ => none

/-- POISON or LOST taken by a wave for a load or an atomic that comes to marked data after it has retired: the operation has no
effect, writes no register in any thread, and its flag counts it no longer (11 R287; 19 R426). Log entry 13 (DEDUCED). -/
def lateFault (s : State) (o : Op) (mark : Mark) (thread addr : Nat) : State :=
  if (s.team? o.team).any fun t => faultWaits s t addr then s else
  let s := s.dropOp o.id
  let s := if o.kind.returns then s.updWave o.wave fun w => (w.flagDown o.flag).lvqDrop o.id else s.updPair o.wave fun w => w.flagDown o.flag
  match opIssue s o with
  | some c => takeFaultNow { c with w := (s.wave? o.wave).getD c.w } ⟨if mark = .lost then .lost else .poison, thread, addr⟩
  | none => s

end Sys2Proof.Machine
end

