-- ==== Sys2Proof/Machine/Control.lean ====
section
/-! DEFINITION. Clause headers, branches, calls and returns, block priority, reconvergence, yields, exit, trap, breakpoint,
and the stage queues (04 R83 to R87; 14 R330 to R343). -/

namespace Sys2Proof.Machine

/-! ## Clause headers (04 R83, R84, R87) -/

/-- Whether a header's fields are legal: flags 0 to 11 or 15, not the same flag twice, an odd number of body parcels less
one (04 R84). Log entry 80 (DEDUCED). -/
def okHeader (o : OpHdr) : Bool :=
  let f := fun x : BitVec 4 => decide (x.toNat < 12) || x == 15
  f o.flagA && f o.flagB && (o.flagA != o.flagB || o.flagA == 15) && o.len.getLsbD 0

/-- A clause header: the entry enters the clause, and the wave waits until every flag that WAIT names is clear
(04 R83, R84). Inside a body a header is ILLEGAL (04 R85). Log entry 80 (DEDUCED). -/
def execClauseHeader (o : OpHdr) (s : State) : Host.Outcome State Fault Refusal :=
  match issuing s with
  | none => .fault .noIssuingWave
  | some c =>
    if c.e.ctx.isNone && okHeader o then
      let ctx : Ctx := ⟨c.e.pc, o.flagA.toNat, o.flagB.toNat, c.e.pc + 4 + 2 * (o.len.toNat + 1)⟩
      let clear := (List.range 12).all fun n => !o.wait.getLsbD n || c.w.getF n == 0
      .next (s.awake.setWave { c.w with
        frontier := moveThreads c.w.frontier c.mask c.e.prio (c.e.pc + 4) (some ctx)
        sel := some (c.e.prio, c.e.pc + 4)
        state := if clear then .ready else .waitFlags o.wait })
    else .next (takeFault c ⟨.illegal, c.low, 0⟩)

/-! ## Branches, calls, returns (14 R331, R332) -/

/-- The address of the header after the clause of a control transfer: its fall-through. -/
def Issue.fall (c : Issue) : Nat := c.e.pc + 4

/-- ILLEGAL, where a control transfer is not the last instruction of its body (04 R85). -/
def notLast (c : Issue) : Option Flt :=
  faultIf c (match c.e.ctx with
    | some x => c.fall != x.endPc
    | none => true) .illegal 0

/-- The active threads moved, each to its own target, outside any body: all leave where they stood before any arrives (02 R47). -/
def jump (c : Issue) (w : Wave) (f : Nat → Nat) : Wave :=
  { w with
    frontier := (threads c.mask).foldl (fun l t => addEntry l ⟨c.e.prio, f t, BitVec.twoPow 32 t, none⟩) (dropThreads w.frontier c.mask)
    sel := none }

/-- UNIFORM, where the uniformity bit is set and the active threads choose differently. -/
def notUniform (c : Issue) (uni : BitVec 1) (f : Nat → Nat) : Option Flt :=
  faultIf c (uni == 1 && !((threads c.mask).all fun t => f t == f c.low)) .uniform 0

/-- bra: the target where p, inverted by neg, is true; the fall-through elsewhere (14 R331, 04 R113). Log entry 16 (DEDUCED). -/
def execBra (o : OpBra) (s : State) : Host.Outcome State Fault Refusal :=
  issue s true 4 fun c =>
    let hdr := (c.e.ctx.map (·.hdr)).getD 0
    let target := wrapN 64 ((hdr : Int) + 4 * toSigned 20 o.off.toNat)
    let takes := fun t => c.w.getP o.p.toNat t != (o.neg == 1)
    guarded [notLast c, notUniform c o.uni fun t => if takes t then 1 else 0] <|
      .ok (retireMoved c c.s (jump c c.w fun t => if takes t then target else c.fall))

/-- brx: each thread to the address in its own register (14 R332). -/
def execBrx (o : OpBrx) (s : State) : Host.Outcome State Fault Refusal :=
  issue s true 4 fun c =>
    let f := fun t => (c.w.getV o.t.toNat t).toNat
    guarded [notLast c, illegalRegs c [o.t.toNat] [], notUniform c o.uni f, poisonRegs c [o.t.toNat] [] []] <|
      .ok (retireMoved c c.s (jump c c.w f))

/-- call: the fall-through address to v link, then every thread to a uniform target (14 R332). -/
def execCall (o : OpY12) (s : State) : Host.Outcome State Fault Refusal :=
  issue s true 4 fun c =>
    guarded [notLast c, illegalRegs c [o.f1.toNat] [], poisonRegs c [] [o.f2.toNat] []] <|
      .ok (retireMoved c c.s (jump c (c.w.setVs o.f1.toNat (threads c.mask) fun _ => BitVec.ofNat 64 c.fall)
        fun _ => (c.w.getS o.f2.toNat).toNat))

/-- ret: each thread to the address in v link (14 R332). -/
def execRet (o : OpY2) (s : State) : Host.Outcome State Fault Refusal :=
  issue s true 4 fun c =>
    guarded [notLast c, illegalRegs c [o.f2.toNat] [], poisonRegs c [o.f2.toNat] [] []] <|
      .ok (retireMoved c c.s (jump c c.w fun t => (c.w.getV o.f2.toNat t).toNat))

/-! ## Block priority and reconvergence (14 R333, R334) -/

/-- bprio: the threads of the issue take priority n at once; the clause goes on (02 R47, 04 R87). -/
def execBprio (o : OpBprio) (s : State) : Host.Outcome State Fault Refusal :=
  issue s true 4 fun c =>
    let ctx := ctxAt c.e.ctx c.fall
    .ok (retireMoved c c.s { c.w with
      frontier := moveThreads c.w.frontier c.mask o.n.toNat c.fall ctx
      sel := if ctx.isNone then none else some (o.n.toNat, c.fall) })

/-- rcvset: the member mask becomes the issue mask; ILLEGAL while a thread waits at that barrier (14 R334). -/
def execRcvset (o : OpRcv) (s : State) : Host.Outcome State Fault Refusal :=
  issue s true 4 fun c =>
    let i := o.id.toNat
    guarded [faultIf c (get 0#32 c.w.rcvWait i != 0) .illegal 0] <|
      .ok (retire c c.s { c.w with rcvMember := put 0#32 c.w.rcvMember i c.mask } 4)

/-- rcvwait: members wait, other threads go on, and a barrier whose members all wait releases (14 R334). Log entry 17 (DEDUCED). -/
def execRcvwait (o : OpRcv) (s : State) : Host.Outcome State Fault Refusal :=
  issue s true 4 fun c =>
    let i := o.id.toNat
    let stay := c.mask &&& get 0#32 c.w.rcvMember i
    let go := c.mask &&& ~~~stay
    let ctx := ctxAt c.e.ctx c.fall
    let w := { c.w with
      rcvWait := put 0#32 c.w.rcvWait i (get 0#32 c.w.rcvWait i ||| stay)
      frontier := if go = 0 then c.w.frontier else moveThreads c.w.frontier go c.e.prio c.fall ctx }
    let w := w.rcvCheck
    let moved := go ≠ 0 ∨ get 0#32 w.rcvWait i &&& stay = 0
    .ok (retireMoved c c.s { w with sel := if moved ∧ ctx.isSome then some (c.e.prio, c.fall) else none })

/-! ## Yield and exit (14 R336, R338) -/

/-- Whether a halt of the partition or a save of the team has been asked for. -/
def Issue.halting (c : Issue) : Bool :=
  c.tm.saveReq || ((c.s.part? c.g.part).map (·.haltReq)).getD false

/-- yield: LEFT := 2^(n+6), and the wave comes to rest where a halt or a save has been asked for (14 R336, R337). -/
def execYield (o : OpYield) (s : State) : Host.Outcome State Fault Refusal :=
  issue s (decide (o.live.toNat ≤ 64)) 4 fun c =>
    guarded [faultIf c (decide (c.g.launch.yieldMax < o.n.toNat) || decide (c.g.launch.vregs < o.live.toNat)) .illegal 0] <|
      let w := { advance c { c.w with left := 2 ^ (o.n.toNat + 6), retired := c.w.retired + 1 } 4 with sel := none }
      .ok (c.s.awake.setWave (if c.halting then { w with state := .atYield o.live.toNat } else w.settle))

/-- The wave without the threads of a mask: they leave the frontier and every member mask, barriers that this completes
release, and a wave whose whole system mask has gone leaves system mode (02 R28; 14 R334; 18 R410). -/
def Wave.exitThreads (w : Wave) (m : BitVec 32) : Wave :=
  let w := { w with
    frontier := dropThreads w.frontier m
    rcvMember := (List.range 4).foldl (fun l i => put 0#32 l i (get 0#32 l i &&& ~~~m)) w.rcvMember
    sysMask := w.sysMask &&& ~~~m
    sel := none }
  let w := w.rcvCheck
  if w.sysMode ∧ w.sysMask = 0 then { w with sysMode := false } else w

/-- exit: every active thread exits (14 R338). -/
def execExit (s : State) : Host.Outcome State Fault Refusal :=
  issue s true 4 fun c => .ok (retireMoved c c.s (c.w.exitThreads c.mask))

/-! ## Trap and breakpoint (14 R339, R340) -/

/-- A wave parked at the instruction it has come to. -/
def Wave.parkAt (p : Nat × Nat) (w : Wave) : Wave :=
  if w.state = .retired then w else { w.parkHere with sel := some p }

/-- An instruction that retires and parks its wave after it, with one record (14 R339, 18 R413). Log entry 14 (DEDUCED). -/
def parkAfter (c : Issue) (kind code : Nat) : State :=
  (retireOnce c (c.s.addRec (c.record kind code c.low c.fall 0 0)) id 4).updPair c.w.id (Wave.parkAt (c.e.prio, c.fall))

/-- trap: a record of kind 1 with the code, and the wave parks after it (14 R339). -/
def execTrap (o : OpTrap) (s : State) : Host.Outcome State Fault Refusal :=
  issue s true 4 fun c => once c [] [] (.ok (parkAfter c 1 o.code.toNat))

/-- brk: in a debug context a record of kind 2, and the wave parks after it; elsewhere no effect (14 R340). -/
def execBrk (s : State) : Host.Outcome State Fault Refusal :=
  issue s true 4 fun c =>
    if c.cx.debug then once c [] [] (.ok (parkAfter c 2 0)) else .ok (retire c c.s c.w 4)

/-! ## Stage queues (02 R52; 14 R341 to R343) -/

/-- The stage of a wave. -/
def Issue.stage (c : Issue) : Nat := c.w.w / c.g.launch.waves

/-- The spatial index of a wave. -/
def Issue.spatial (c : Issue) : Nat := c.w.w % c.g.launch.waves

/-- The stage queue of a spatial index behind a sending stage. -/
def Team.queue (t : Team) (i s : Nat) : List Word := get [] t.queues (4 * i + s)

/-- A stage queue's contents set. -/
def Team.setQueue (t : Team) (i s : Nat) (q : List Word) : Team := { t with queues := put [] t.queues (4 * i + s) q }

/-- Whether the wave of a team with wave index w has retired; the leading one in a redundant pair. -/
def waveRetired (s : State) (team w : Nat) : Bool :=
  !((s.wavesOf team).any fun x => x.w == w && x.state != .retired && (match x.role with
    | .trailer _ => false
    | _ => true))

/-- The waves of a team that wait on a stage queue made Ready, to perform their instruction again. -/
def wakeQueues (s : State) (team : Nat) : State :=
  { s with waves := s.waves.map fun w =>
      if w.team = team ∧ w.state = .blocked ∧ w.block = some .queue then { w with state := .ready, block := none } else w }

/-- The wave Blocked with its PC at the instruction (02 Table 02-4). Log entry 14 (DEDUCED). -/
def blockOn (c : Issue) (b : Block) (s : State) : State :=
  s.awake.setWave { c.w with state := .blocked, block := some b, sel := none }

/-- qsend: value[62:0] to the queue of the next stage; Blocked while it is full, and discarded where the receiver has
retired (14 R341, R342). -/
def execQsend (o : OpY2) (s : State) : Host.Outcome State Fault Refusal :=
  issueAs s true 4 3 fun c =>
    guarded [faultIf c (decide (c.g.launch.stages ≤ c.stage + 1)) .illegal 0, poisonRegs c [] [o.f2.toNat] []] <|
    once c [] [o.f2.toNat] <| asRelease c 1 fun c =>
      let q := c.tm.queue c.spatial c.stage
      if waveRetired c.s c.tm.id (c.w.w + c.g.launch.waves) then .ok (retireOnce c c.s id 4)
      else if c.g.launch.stageDepth ≤ q.length then .ok (blockOn c .queue c.s)
      else
        let x := c.w.getS o.f2.toNat &&& 0x7FFFFFFFFFFFFFFF#64
        .ok (retireOnce c (wakeQueues (c.s.updTeam c.tm.id fun t => t.setQueue c.spatial c.stage (q ++ [x])) c.tm.id) id 4)

/-- qrecv: the oldest entry of the queue of the stage before; Blocked while it is empty, and 2^63 where the sender has
retired (14 R341, R342). It is an acquire at .team (10 Table 10-2). -/
def execQrecv (o : OpD) (s : State) : Host.Outcome State Fault Refusal :=
  issue s true 4 fun c =>
    guarded [faultIf c (c.stage == 0) .illegal 0] <|
    once c [] [] <|
      match c.tm.queue c.spatial (c.stage - 1) with
      | x :: q =>
        .ok (retireOnce c (wakeQueues (c.s.updTeam c.tm.id fun t => t.setQueue c.spatial (c.stage - 1) q) c.tm.id)
          (fun w => (w.setS o.d.toNat x).fenceAt c.s.nextId) 4)
      | [] =>
        if waveRetired c.s c.tm.id (c.w.w - c.g.launch.waves) then
          .ok (retireOnce c c.s (fun w => w.setS o.d.toNat 0x8000000000000000#64) 4)
        else .ok (blockOn c .queue c.s)

end Sys2Proof.Machine
end

