-- ==== Sys2Proof/Machine/Memory.lean ====
section
/-! DEFINITION. Loads, stores, atomics and reductions, the events that complete them, and the compare of signatures
(11 R286 to R296; 19 R445, R457). -/

namespace Sys2Proof.Machine

/-! ## Loads (11 R290 to R292) -/

/-- Bytes of a size code of Format M. -/
def sizeBytes (code : Nat) : Nat := if code < 2 then 1 else if code < 4 then 2 else if code < 6 then 4 else if code = 6 then 8 else 16

/-- Whether a load's size code sign-extends. -/
def sizeSigned (code : Nat) : Bool := code == 1 || code == 3 || code == 5

/-- The address of a Format M access in a thread: base + offset · S in 64 bits. Log entry 16 (DEDUCED). -/
def memAddr (c : Issue) (base : BitVec 6) (off : BitVec 4) (size : Nat) (t : Nat) : Nat :=
  wrapN 64 ((baseVal c base.toNat t : Int) + toSigned 4 off.toNat * (sizeBytes size : Nat))

/-- The register writes of a loaded value (11 R291). -/
def loadWrites (size d t v : Nat) : List RegWrite :=
  if size = 7 then [.v d t (BitVec.ofNat 64 v), .v (d + 1) t (BitVec.ofNat 64 (v / 2 ^ 64))]
  else
    let w := 8 * sizeBytes size
    [.v d t (BitVec.ofNat 64 (if sizeSigned size then wrapN 64 (toSigned w v) else v))]

/-- The registers of a Format M access's data. -/
def dataRegs (size d : Nat) : List Nat := if size = 7 then [d, d + 1] else [d]

/-- Whether an access stays with its own party: a scratchpad access of a cross-core group (19 R447). Log entry 22 (DEDUCED). -/
def Issue.isLocal (c : Issue) (sp : Space) : Bool := c.tm.peer.isSome && sp == .own

/-- The fault that an armed finj of KIND 0 makes of a global load: its data count as poisoned, and the core's clean copy is dropped; it
has fired once the fault is taken (19 Table 19-8). -/
def finjLoad (c : Issue) (acc : List (Access × Nat)) : State :=
  let addr := ((acc.head?).map (·.2)).getD 0
  if c.ahead || c.ownBusy || faultWaits c.s c.tm addr then c.stall
  else
    let w := { c.w with finj := none }
    let s := (memWords (acc.map (·.1))).foldl (fun s word =>
      if (held? s c.tm.core word).any CWord.isDirty then s else dropWord s c.tm.core word) c.s
    takeFaultNow { c with s := s.setWave w, w := w } ⟨.poison, c.low, addr⟩

/-- The pages of some translations that no cache keeps: uncached ones, and host memory reached as plain PCIe memory (09 R264;
18 R397). -/
def directPages (s : State) (xs : List Xl) : List Nat :=
  ((xs.filter fun x => x.cache == 1 || s.out.pcie.contains (x.loc / 65536)).map (·.loc / 65536)).dedup

/-- Whether a load finds nothing of a word in its core's L1, nor in a replica it may use, and has to have it filled (09 R245, R251,
R252). -/
def misses (s : State) (core : Nat) (how : LoadHow) (word : Nat) : Bool :=
  how.hint != 3 && !(how.direct.contains (word / 4096)) && (held? s core word).isNone && (pendBytes s core word).isEmpty &&
    !(how.repl && (held? s (replicaCache s core) word).isSome)

/-- The request of a load for the words `ws` of one frame, where it misses one of them: its demand run is the words from the first to
the last that its threads touch there (09 R245; 12 R325). -/
def askFrame (core : Nat) (how : LoadHow) (frame : Nat) (s : State) (ws : List Nat) : State :=
  match ws with
  | [] => s
  | w :: _ =>
    if ws.any (misses s core how) then
      askRun s core frame (ws.foldl min w % 16) (ws.foldl max w % 16) how.lp how.hint false how.repl
    else s

/-- The requests of a load for some words, frame by frame. -/
def askWords (core : Nat) (how : LoadHow) (ws : List Nat) (s : State) : State :=
  ((ws.map (· / 16)).dedup).foldl (fun s f => askFrame core how f s (ws.filter fun w => w / 16 == f)) s

/-- How a load goes through the caches: LDHINT.SPAN, 17 to 31 of which read as 16, gives the length of its fill runs, and the
predictor where it is 0 (09 R245, R247). Log entry 85 (DESIGN CHOICE). -/
def loadHow (c : Issue) (sp : Space) (hint : Nat) (w : Wave) (xs : List Xl) : LoadHow :=
  let span := if sp = .global then w.ldhint.toNat % 32 else 0
  ⟨hint, if span = 0 then 1 + Config.predictedRun c.s.nextId % 16 else min span 16, w.ldhint.getLsbD 5 && sp == .global, directPages c.s xs⟩

/-- A load: its faults are found, its operation set going and its misses sent to their homes; a trailer takes its leader's value
(11 R287, R292; 12 R325; 19 R426, R445). -/
def loadEff (c : Issue) (sp : Space) (size d hint : Nat) (fsel : BitVec 1) (base : BitVec 6) (off : BitVec 4) :
    Except Flt State :=
  let b := base.toNat
  let alone := c.isLocal sp
  guarded [illegalRegs c (dataRegs size d ++ baseV b) [], noFlag c fsel] <|
  match c.w.role, alone with
  | .trailer l, false => guarded [poisonRegs c (baseV b) (baseS b) []] (takeLvq c l 4)
  | _, _ =>
    flagRoom c fsel <|
    if !alone && lvqFull c then .ok c.stall else
    match resolveAll c sp .read (memAddr c base off size) (sizeBytes size) with
    | .error e => .error e
    | .ok (acc, xs) =>
      guarded [poisonRegs c (baseV b) (baseS b) [], dataFault c acc] <|
      match (if sp = .global then c.w.finj else none) with
      | some ⟨0, 0⟩ => .ok (finjLoad c acc)
      | fj =>
        let w := match fj with
          | some ⟨0, n + 1⟩ => { c.w with finj := some ⟨0, n⟩ }
          | _ => c.w
        let how := loadHow c sp hint w xs
        let as := acc.map (·.1)
        let op := c.newOp (c.flag fsel) (.load size d how as []) (viaOf c.s xs)
        let s := askWords c.tm.core how (memWords as) ((touchLeaves c.s c.tm.core false xs).addOp op)
        let w := w.flagUp (some (c.flag fsel))
        .ok (retire c s (if alone then w else w.lvqPut op.id none) 4)

/-- ldg: a load from global memory (11 R291). -/
def execLdg (o : OpLdg) (s : State) : Host.Outcome State Fault Refusal :=
  issue s (okLoadReg o.size o.d) 4 fun c => loadEff c .global o.size.toNat o.d.toNat o.hint.toNat o.fsel o.base o.off

/-- lds: a load from the team's own scratchpad (11 R292). -/
def execLds (o : OpLds) (s : State) : Host.Outcome State Fault Refusal :=
  issue s (okLoadReg o.size o.d) 4 fun c => loadEff c .own o.size.toNat o.d.toNat 0 o.fsel o.base o.off

/-- ldc: a load from the scratchpad of a gang member (11 R292, 09 R238). -/
def execLdc (o : OpLds) (s : State) : Host.Outcome State Fault Refusal :=
  issue s (okLoadReg o.size o.d) 4 fun c => loadEff c .cluster o.size.toNat o.d.toNat 0 o.fsel o.base o.off

/-- A change to the operation in flight with an id. -/
def State.updOp (s : State) (id : Nat) (f : Op → Op) : State := { s with ops := s.ops.map fun o => if o.id = id then f o else o }

/-- The pieces of what an operation of a core has still to perform: for each thread, the words it touches (09 R249, 10 R270). -/
def Op.pieces (o : Op) : List (Nat × Option Nat × Nat) := o.accesses.flatMap wordsOf

/-- Whether a place lies in the word, or the unit of a scratchpad, of a piece. -/
def inPiece (p : Nat × Option Nat × Nat) : Place → Bool
  | .mem l => p.2.1 == none && l / 16 == p.2.2
  | .sp t o => p.2.1 == some t && o / 16 == p.2.2

/-- The stores to a word that a core's L1 holds as a load sees them: up to the last of those that were issued before the load, or
before its wave's last acquire. A store that another wave made later may wait behind an engine, and a release that follows the load
would not wait for it (10 R274). -/
def State.seenAt (s : State) (core word horizon : Nat) : State :=
  { s with pend := s.pend.filter fun e => !(e.core == core && e.word == word) ||
      s.pend.any fun f => f.core == core && f.word == word && decide (e.id ≤ f.id) && decide (f.since < horizon) }

/-- A copy of a word whose invalidation is on its way dropped. -/
def dropStale (s : State) (core word : Nat) : State := if (held? s core word).any CWord.isStale then dropWord s core word else s

/-- Bytes of one word as a core serves them to a load, if it can. A word that a fill under way brings waits for it (12 R325). What the
core holds as stores serves it where it gives every byte, and is performed first otherwise; an uncached word is read at the home; a
copy whose invalidation is on its way still serves it, or has just gone, a free choice; a replica serves a load that may use one; and
a load that does not allocate is served from the home (09 R246, R251, R252; 10 R276, R279; 11 R292). Log entry 9 (DEDUCED). -/
def serveWord (s : State) (w : Wave) (tm : Team) (how : LoadHow) (horizon word : Nat) (locs : List Nat) : State × Option (List (BitVec 8)) :=
  let core := tm.core
  let view := fun s : State => some (locs.map (viewByte (s.seenAt core word horizon) w tm))
  let copy := fun bs : List (BitVec 8) => some (locs.map fun l => bs.getD (l % 16) 0)
  let mine := pendBytes (s.seenAt core word horizon) core word
  let onWord := fun e : Pend => e.word == word
  let comes := (held? s core word).isNone && s.fills.any fun f => f.brings core (word / 16) (word % 16) (word % 16)
  if tm.interval.buffer.any (heldOn word) || s.held.any (fun h => h.wave == w.id) then
    if comes then (s, none) else (dropStale s core word, view (dropStale s core word))
  else if mine ≠ [] then
    if locs.all fun l => mine.any fun b => b.1 == l % 16 then (s, view s)
    else if pendOwed s core onWord then (s, none)
    else
      let s := performPends s core onWord
      (s, view s)
  else if how.direct.contains (word / 4096) then
    let s := dropWord (drainWord s core word) core word
    (s, view s)
  else match held? s core word with
    | some (.stale bs _ _) => if Config.choice s.tick % 2 = 0 then (s.bump, copy bs) else (dropWord s.bump core word, none)
    | some _ => (hitHint s core word how.hint, view s)
    | none =>
      if comes then (s, none) else
      match (if how.repl then held? s (replicaCache s core) word else none) with
      | some (.own bs _ _) => (s, copy bs)
      | _ => if how.hint = 3 then (s, view s) else (s, none)

/-- What happens at a word's home as a party that may stand outside a grid's partition comes to read it (14 R354). -/
def observed (s : State) (tm : Team) (p : Nat × Option Nat × Nat) : State :=
  match p.2.1 with
  | some _ => s
  | none => flushStamps s (partOfTeam s tm) (16 * p.2.2) 16

/-- Bytes put among what a load has read. -/
def Op.gotBytes (o : Op) (l : List (Nat × Nat × BitVec 8)) : Op :=
  match o.kind with
  | .load size d how acc got => { o with kind := .load size d how acc (got ++ l) }
  | _ => o

/-- One piece of a load read, where it may be read now and its word is there; marked data raise POISON or LOST (11 R287, R292); one
that waits for its home slice alone asks it. Log entry 8 (DEDUCED). -/
def readPiece (id : Nat) (s : State) (p : Nat × Option Nat × Nat) : State :=
  match s.op? id with
  | none => s
  | some o =>
    match o.kind, s.wave? o.wave, s.team? o.team with
    | .load _ _ how acc got, some w, some tm =>
      match acc.find? fun a => a.thread == p.1 with
      | none => s
      | some a =>
        let todo := (a.places.zip (List.range a.places.length)).filter fun q =>
          inPiece p q.1 && !(got.any fun g => g.1 == p.1 && g.2.1 == q.2)
        let ps := todo.map (·.1)
        if !(canReach s o [{ a with places := ps }]) then askHome s o [{ a with places := ps }] else
        let s := observed s tm p
        match ps.find? fun q => placeMark s tm q != .ok with
        | some q => lateFault s o (placeMark s tm q) a.thread a.addr
        | none =>
          let r := match p.2.1 with
            | some _ => (s, some (ps.map (placeByte s w tm)))
            | none => serveWord s w tm how (o.horizon s) p.2.2 (locsOf [{ a with places := ps }])
          match r.2 with
          | none => r.1
          | some bs => settleRequests (r.1.updOp id fun o => o.gotBytes ((todo.zip bs).map fun q => (p.1, q.1.2, q.2))) id
    | _, _, _ => s

/-- The value that a load has read in a thread. -/
def gotValue (got : List (Nat × Nat × BitVec 8)) (thread n : Nat) : Nat :=
  leNat ((List.range n).map fun i => ((got.find? fun g => g.1 == thread && g.2.1 == i).map (·.2.2)).getD 0)

/-- A load once its pieces have been tried: where every byte has been read, its value is written in every thread and its flag counts
down; otherwise the words it still misses are asked for (11 R292; 12 R325). -/
def finishLoad (id : Nat) (s : State) : State :=
  match s.op? id with
  | none => s
  | some o =>
    match o.kind, s.team? o.team with
    | .load size d how acc got, some tm =>
      if o.pieces = [] then
        let ws := acc.flatMap fun a => loadWrites size d a.thread (gotValue got a.thread a.places.length)
        (s.dropOp id).updWave o.wave fun w => ((w.writes ws).flagDown o.flag).lvqFill id ws
      else askWords tm.core how ((memWords o.accesses).filter (misses s tm.core how)) s
    | _, _ => s

/-- LOAD_COMPLETE: one piece of a load is read; or all that are left, and with them the load completes, where every word is there
(09 R249; 11 R292). Log entry 8 (DEDUCED), Log entry 13 (DEDUCED). -/
def execLoadComplete (part : OpPart) (s : State) : Host.Outcome State Fault Refusal :=
  match s.op? part.op with
  | some o =>
    match part.piece with
    | some k => match o.pieces[k]? with
      | some p => .next (readPiece part.op s p)
      | none => .next s
    | none => .next (finishLoad part.op (o.pieces.foldl (readPiece part.op) s))
  | none => .next s

/-! ## The steps of the caches (09 R245, R246, R250; 12 R325 to R327) -/

/-- The loads of a core that a fill may serve, oldest first. -/
def waitingLoads (s : State) (core : Nat) : List Nat :=
  (s.ops.filter fun o => coreOf s o == some core && (match o.kind with
    | .load _ _ _ _ _ => true
    | _ => false)).map (·.id)

/-- The held stores of a core that it may perform now: to words it has exclusive, in their order, and with nothing to wait for
(10 R273, R284). -/
def performReady (s : State) (core : Nat) : State :=
  s.pend.foldl (fun s e =>
    if e.core == core && ownsExclusive s core e.word && !(s.pend.any fun f => f.before e) && !(pendWaits s e) then performPend s e
    else s) s

/-- What a core's L1 does once a fill has come: the loads that waited for its words read them and ask for those they still miss, and
the stores to words it now has exclusive are performed (12 R325). -/
def afterFill (s : State) (core : Nat) : State :=
  let s := (waitingLoads s core).foldl (fun s id => match s.op? id with
    | some o => o.pieces.foldl (readPiece id) s
    | none => s) s
  let s := (waitingLoads s core).foldl (fun s id => match s.op? id with
    | some o => (match o.kind with
      | .load _ _ how _ _ => askWords core how ((memWords o.accesses).filter (misses s core how)) s
      | _ => s)
    | none => s) s
  performReady s core

/-- The requests of the stores that a core holds to some words sent (09 R245). -/
def askPends (s : State) (core : Nat) (ws : List Nat) : State :=
  (s.pend.filter fun e => e.core == core && ws.contains e.word).foldl askPend s

/-- CACHE_FILL_ARRIVE: the answer to a request that its slice has admitted arrives at the L1. A core that holds a store to the word
named, and has not asked for it, asks for its exclusive state, or performs it where it has that already (09 R245, R246, R248; 12 R325, R326). Log entry 9 (DEDUCED). -/
def execCacheFillArrive (core : Nat) (run : FillRun) (s : State) : Host.Outcome State Fault Refusal :=
  match s.fills.find? fun f => f.op.isNone && f.core == core && f.frame == run.frame && f.start == run.start && f.excl == run.excl with
  | some f => if f.queued && !(homeDown s (256 * f.frame)) then .next (afterFill (answerFill s f) core) else .next s
  | none => if run.excl then .next (performReady (askPends s core [16 * run.frame + run.start]) core) else .next s

/-- SLICE_ADMIT: slice n of a die admits the request that has waited longest outside its queue, where the queue has room (12 R327; 01
Table 01-5). -/
def execSliceAdmit (die n : Nat) (s : State) : Host.Outcome State Fault Refusal := .next (admitFill s (64 * die + n))

/-! ## What a leader and its trailer do with a compared issue (19 R445) -/

/-- A store, red or atom set going: at once for a wave alone; into the compare buffer for a leader; as a signature for a
trailer. -/
def compared (c : Issue) (alone : Bool) (sig : BitVec 32) (addr : Nat) (w : Wave) (flag : Nat) (s : State) (op : Op)
    (take : State → Op → State) : State :=
  let w := w.flagUp (some flag)
  match c.w.role, alone with
  | .leader _, false =>
    let f := w.finjCompare
    retire c { s with
      held := s.held ++ [⟨c.w.id, sig, op, c.e.pc, addr, f.1⟩]
      nextId := max s.nextId (op.id + 1) } f.2 4
  | .trailer _, false => retire c s { w with sigs := w.sigs ++ [sig] } 4
  | _, _ => retire c (take s op) w 4

/-! ## Stores (11 R290 to R292) -/

/-- The data of a store in a thread. -/
def storeData (c : Issue) (size d t : Nat) : Nat := vecVal c.w d (if size = 7 then 2 else 1) t % 2 ^ (8 * sizeBytes size)

/-- Whether a store is performed at its home: no-allocate, uncached, or plain PCIe memory (11 R292, 09 R264). -/
def goesHome (s : State) (hint : Nat) (xs : List Xl) : Bool := hint == 3 || directPages s xs != []

/-- How a store goes through the caches: its hint, and the predictor's length for its fill runs, since LDHINT is of loads alone (09 R245,
R247, R252). -/
def storeHow (c : Issue) (hint : Nat) (xs : List Xl) : StoreHow :=
  ⟨goesHome c.s hint xs, hint, 1 + Config.predictedRun c.s.nextId % 16⟩

/-- A store: its faults are found and its operation set going (11 R287, R292). -/
def storeEff (c : Issue) (sp : Space) (size d dcode hint : Nat) (fsel : BitVec 1) (base : BitVec 6) (off : BitVec 4) :
    Except Flt State :=
  let b := base.toNat
  let ts := threads c.mask
  let alone := c.isLocal sp
  let rs := dataRegs size d
  let addr := memAddr c base off size
  let n := sizeBytes size
  let sig := signature c.mask (ts.map fun t => (addr t, n, leBytes n (storeData c size d t)))
  let w := useV ts (rs.map fun r => (r, dcode)) c.w
  guarded [illegalRegs c (rs ++ baseV b) [], noFlag c fsel] <|
  flagRoom c fsel <|
  if !alone && compareFull c then .ok c.stall else
  match c.w.role, alone with
  | .trailer _, false =>
    guarded [poisonRegs c (rs ++ baseV b) (baseS b) []] <|
      .ok (compared c alone sig (addr c.low) w (c.flag fsel) c.s (c.newOp 15 (.result []) []) fun s _ => s)
  | _, _ =>
    match resolveAll c sp .write addr n with
    | .error e => .error e
    | .ok (acc, xs) =>
      guarded [clobberFault c acc, failedFault c acc, poisonRegs c (rs ++ baseV b) (baseS b) []] <|
        let op := c.newOp (c.flag fsel) (.store (storeHow c hint xs) (acc.map fun p => (p.1, storeData c size d p.1.thread)))
          (viaOf c.s xs)
        .ok (compared c alone sig (addr c.low) w (c.flag fsel) (touchLeaves c.s c.tm.core true xs) op State.addOp)

/-- stg: a store to global memory (11 R291). -/
def execStg (o : OpStg) (s : State) : Host.Outcome State Fault Refusal :=
  issue s (okStore o.size o.dcode o.data) 4 fun c =>
    storeEff c .global o.size.toNat o.data.toNat o.dcode.toNat o.hint.toNat o.fsel o.base o.off

/-- sts: a store to the team's own scratchpad (11 R292). -/
def execSts (o : OpSts) (s : State) : Host.Outcome State Fault Refusal :=
  issue s (okStore o.size o.dcode o.data) 4 fun c =>
    storeEff c .own o.size.toNat o.data.toNat o.dcode.toNat 0 o.fsel o.base o.off

/-- A thread's data of a store cut at a piece: what lies in it, and what is left. -/
def cutPiece (p : Nat × Option Nat × Nat) (a : Access × Nat) : (Access × Nat) × (Access × Nat) :=
  let bs := a.1.places.zip (leBytes a.1.places.length a.2)
  let side := fun l : List (Place × BitVec 8) => ({ a.1 with places := l.map (·.1) }, leNat (l.map (·.2)))
  (side (bs.filter fun b => inPiece p b.1), side (bs.filter fun b => !inPiece p b.1))

/-- What comes before some accesses of an operation that is performed at its home performed: what its core's L1 holds of their words,
and what its wave's last fence or acquire put before it (10 R273). -/
def homeFirst (s : State) (o : Op) (acc : List Access) : State :=
  match coreOf s o with
  | some core => if o.actsHome && locsOf acc != [] then performPends s core (comesFirst s o acc) else s
  | none => s

/-- The requests that follow a store's performance in its core's L1 sent. -/
def askStored (s : State) (o : Op) (how : StoreHow) (acc : List Access) : State :=
  match coreOf s o with
  | some core => if how.home then s else askPends s core (memWords acc)
  | none => s

/-- One piece of a store performed, where it may be and no lower thread has still to store to its word (09 R249, 11 R289). -/
def storePiece (id : Nat) (s : State) (p : Nat × Option Nat × Nat) : State :=
  match s.op? id with
  | none => s
  | some o =>
    match o.kind with
    | .store how acc =>
      match acc.find? fun a => a.1.thread == p.1 with
      | none => s
      | some a =>
        let q := cutPiece p a
        if acc.any fun b => decide (b.1.thread < p.1) && b.1.places.any (inPiece p) then s
        else if canReach s o [q.1.1] then
          let s := (homeFirst s o [q.1.1]).updOp id fun o => { o with kind := .store how (acc.map fun b => if b.1.thread = p.1 then q.2 else b) }
          settleRequests (askStored (storeAccess s o.team (fencedOf s o.wave) o.id how o.via q.1.1 q.1.2) o how [q.1.1]) id
        else askHome s o [q.1.1]
    | _ => s

/-- The stamp of a grid written at its home, a release at .dev: after every store that the L1s of its teams' cores held when it
completed, after engine operations on its word, and after recalls of tenures; it is translated now, and a record says why where it is
not written (02 R59; 09 R259, R262). Until it can be, it waits. -/
def writeStamp (s : State) (o : Op) (grid recAddr addr val : Nat) : State :=
  match s.grid? grid, (s.grid? grid).bind fun g => s.ctx? g.ctx with
  | some g, some cx =>
    match translateSpan s cx unitCore false .write addr 8 with
    | .error f => (s.dropOp o.id).addRec (plainRec g.ctx 9 f.code.num (some g.id) recAddr addr 0)
    | .ok (locs, xs) =>
      let owed := (s.teamsOf grid).any fun t => owes s t.core 3 o.id
      if owed || engineOwned s (locs.headD 0 / 16) o.id || keptWord s s.nextId (locs.headD 0 / 16) || slicesFull s g.part locs then s else
      match recallFor s s.nextId true locs with
      | none => s
      | some s =>
        let s := (s.teamsOf grid).foldl (fun s t => drainFor s t.core 3) (s.dropOp o.id)
        writeHomeN (touchLeaves s unitCore true xs) (locs.headD 0) 8 val
  | _, _ => s.dropOp o.id

/-- STORE_COMPLETE: one piece of a store is performed; or all that are left, threads in ascending order, and the flag counts down: in
the core's L1, at its home or in the scratchpad (09 R249; 11 R289, R292); or a grid's stamp is written (02 R59). Log entry 8 (DEDUCED). -/
def execStoreComplete (part : OpPart) (s : State) : Host.Outcome State Fault Refusal :=
  match s.op? part.op with
  | some o =>
    match o.kind, part.piece with
    | .store _ _, some k => match o.pieces[k]? with
      | some p => .next (storePiece part.op s p)
      | none => .next s
    | .store how acc, none =>
      if canPerform s o then
        let s := acc.foldl (fun s p => storeAccess s o.team (fencedOf s o.wave) o.id how o.via p.1 p.2)
          ((homeFirst s o o.accesses).dropOp part.op)
        .next ((askStored s o how o.accesses).updPair o.wave fun w => w.flagDown o.flag)
      else .next (askHome s o o.accesses)
    | .stamp g r a x, none => .next (writeStamp s o g r a x)
    | _, _ => .next s
  | none => .next s

/-! ## Atomics and reductions (11 R293 to R296) -/

/-- The registers of an atomic's operand and result. -/
def atomRegs (op : AtomOp) (size b : Nat) : List Nat :=
  match op with
  | .cas => regsFrom b (if size = 4 then 4 else 2)
  | _ => regsFrom b (if size = 4 then 2 else 1)

/-- The two operands of an atomic in a thread (11 Table 11-2). -/
def atomArgs (c : Issue) (op : AtomOp) (size b t : Nat) : Nat × Nat :=
  let w := 8 * 2 ^ size
  if size = 4 then (vecVal c.w b 2 t, if op = .cas then vecVal c.w (b + 2) 2 t else 0)
  else ((c.w.getV b t).toNat % 2 ^ w, if op = .cas then (c.w.getV (b + 1) t).toNat % 2 ^ w else 0)

/-- The register writes of an atom's returned value. -/
def atomWrites (op : AtomOp) (size b t m : Nat) : List RegWrite :=
  if size = 4 then [.v b t (BitVec.ofNat 64 m), .v (b + 1) t (BitVec.ofNat 64 (m / 2 ^ 64))]
  else [.v b t (BitVec.ofNat 64 (atomReturn op (8 * 2 ^ size) m))]

/-- The one location an atomic's access starts at. -/
def locOf (a : Access) : Nat := ((locsOf [a]).head?).getD 0

/-- An atom performed in its threads in ascending order: each thread's old value, and the held bytes it changed (11 R289). -/
def atomThreads (w : Wave) (own : Bool) (op : AtomOp) (size : Nat) :
    State → List (Access × Nat × Nat) → State × List (Nat × Nat) × List (Nat × List (Nat × BitVec 8))
  | s, [] => (s, [], [])
  | s, (a, x, y) :: l =>
    let r := atomAccess s w own op (2 ^ size) (locOf a) x y
    let q := atomThreads w own op size r.1 l
    (q.1, (a.thread, r.2.1) :: q.2.1, r.2.2 ++ q.2.2)

/-- An atom of a rollback-safe interval: matched to the next logged issue of its wave, or performed at once and logged. A match
returns the logged values, and brings back the bytes of held words that the atomic had changed (19 R432). Log entry 11 (DEDUCED). -/
def loggedAtom (s : State) (w : Wave) (t : Team) (own : Bool) (op : AtomOp) (size : Nat) (acc : List (Access × Nat × Nat)) :
    State × List (Nat × Nat) :=
  let addrs := acc.map fun p => (p.1.thread, locOf p.1)
  let mine := fun h : Held => match h with
    | .logged wave _ _ _ _ _ => wave == w.id
    | _ => false
  let anew := fun s : State =>
    let r := atomThreads w own op size s acc
    (r.1, r.2.1)
  match t.interval.replay.find? mine with
  | some (.logged wave op' size' addrs' vals puts) =>
    if op' = op ∧ size' = size ∧ addrs' = addrs then
      let s := s.updTeam t.id fun t => { t with interval := { t.interval with
        replay := t.interval.replay.erase (.logged wave op' size' addrs' vals puts) } }
      (puts.foldl (fun s p => storeWord s t.id 0 s.nextId releasedHow [] p.1 p.2) s, vals)
    else anew (unsafeInterval s t.id 6)
  | _ =>
    if t.interval.rolled ≠ [] then anew (unsafeInterval s t.id 6)
    else
      let r := atomThreads w own op size s acc
      match r.1.team? t.id with
      | some u =>
        if ¬ u.holds then (r.1, r.2.1)
        else if u.interval.buffer.length < bufferSize then
          (r.1.updTeam t.id fun u => u.setBuffer (u.interval.buffer ++ [.logged w.id op size addrs r.2.1 r.2.2]), r.2.1)
        else (unsafeInterval r.1 t.id 2, r.2.1)
      | none => (r.1, r.2.1)

/-- The first thread of an atom whose word is marked, and the mark (11 R287). -/
def markedAtom (s : State) (tm : Team) (acc : List (Access × Nat × Nat)) : Option (Access × Mark) :=
  (acc.find? fun p => viewMark s tm (locOf p.1) != .ok).map fun p => (p.1, viewMark s tm (locOf p.1))

/-- The acquire of an atomic performed. One that is no release needs the invalidations of what happens before the writes of its words
alone, where `need` says by when those had been performed (10 R274, R279). Log entry 8 (DEDUCED). -/
def acquired (s : State) (wave core order scope : Nat) (need : Option Nat) : State :=
  if order % 2 ≠ 1 then s
  else match need with
    | some n => (if 2 ≤ scope then freshenBy s core n else s).updPair wave (Wave.fenceAt s.nextId)
    | none => fenced s wave core scope

/-- By when what happens before the writes that an atomic of a core reads had been performed, where it is an acquire and no release; the
stores of stamps that it meets come first. -/
def acquireNeed (s : State) (core order : Nat) (ws : List Nat) : Option Nat :=
  if order = 1 then some (knownOf (ws.foldl (fun s w => flushStamps s (some (partOfCore s core)) (16 * w) 16) s) ws) else none

/-- An operation set going: an atom of a rollback-safe interval is performed at once, and only its result is still to be
written. -/
def admitOp (s : State) (o : Op) : State :=
  match o.kind, s.wave? o.wave, s.team? o.team with
  | .atom op size true order scope b own acc, some w, some t =>
    if t.holds then
      let r := loggedAtom s w t own op size acc
      (acquired r.1 o.wave t.core order scope none).addOp { o with kind := .result (r.2.flatMap fun p => atomWrites op size b p.1 p.2) }
    else s.addOp o
  | _, _, _ => s.addOp o

/-- The mark that an atom which has to be performed at once meets, and where: the word may have been marked since the instruction
issued (11 R287). -/
def badAtom (s : State) (tm : Team) (o : Op) : Option (Access × Mark) :=
  match o.kind with
  | .atom _ _ true _ _ _ _ acc => if tm.holds then markedAtom s tm acc else none
  | _ => none

/-- Whether an operation has to be performed at once and cannot be yet. -/
def mustWait (s : State) (o : Op) : Bool :=
  match o.kind, s.team? o.team with
  | .atom _ _ true _ _ _ _ _, some t => t.holds && !canPerform s o
  | _, _ => false

/-- Whether plain PCIe memory performs an operation (11 R295). -/
def pcieAtom (op : AtomOp) (size : Nat) : Bool :=
  match op with
  | .add | .exch => size == 2 || size == 3
  | .cas => decide (2 ≤ size)
  | _ => false

/-- Whether the contention predictor has a core take ownership of the words of an atomic, rather than send it to its home: a free
choice, and only for words that its L1 may keep and that this device homes (11 R295; 09 R264). Log entry 93 (DESIGN CHOICE). -/
def takesWord (c : Issue) (xs : List Xl) : Bool :=
  !(Config.contended c.s.nextId) && directPages c.s xs == [] && xs.all fun x => x.loc / homeSpan == c.s.out.device

/-- The accesses of an atomic's threads in ascending order, up to the first that faults: PERM too, where plain PCIe memory does not
perform the operation (11 R287, R295). -/
def resolveAtoms (c : Issue) (op : AtomOp) (size : Nat) (addr : Nat → Nat) : Except Flt (List (Access × Nat) × List Xl) :=
  match eachThread (fun t => match resolve c .global (if op = .ldo then .read else .write) (addr t) (2 ^ size) with
      | .error f => .error ⟨f.code, t, f.va⟩
      | .ok r =>
        let a : Access := ⟨t, r.places, addr t⟩
        if c.s.out.pcie.contains (locOf a / 65536) && !pcieAtom op size then .error ⟨.perm, t, addr t⟩
        else .ok ((a, addr t), r.xs)) (threads c.mask) with
  | .error e => .error e
  | .ok l => .ok (l.map (·.1), l.flatMap (·.2))

/-- ALIGN, in the lowest thread whose address is no multiple of n. -/
def alignFault (c : Issue) (n : Nat) (addr : Nat → Nat) : Option Flt :=
  ((threads c.mask).find? fun t => addr t % n != 0).map fun t => ⟨.align, t, addr t⟩

/-- A release or acquire at .cluster scope or wider ends the interval's rollback safety (19 Table 19-2). -/
def atomReason (o : OpN) : Nat := if o.order ≠ 0 ∧ 2 ≤ o.scope.toNat then 4 else 0

/-- An atom or a red: its faults are found and its operation set going (11 R287, R293 to R296). Log entry 11 (DEDUCED). -/
def atomEff (c : Issue) (op : AtomOp) (ret : Bool) (o : OpN) : Except Flt State :=
  let size := o.size.toNat
  let b := o.b.toNat
  let ba := o.base.toNat
  let order := o.order.toNat
  let scope := o.scope.toNat
  let ts := threads c.mask
  let addr := fun t => baseVal c ba t
  let rs := atomRegs op size b
  let n := 2 ^ size
  let src := if op = .ldo then [] else rs
  let sig := signature c.mask (ts.map fun t =>
    (addr t, n, leBytes n (atomArgs c op size b t).1 ++ leBytes n (atomArgs c op size b t).2))
  let flag := c.flag o.fsel
  guarded [illegalRegs c (rs ++ baseV ba) [], noFlag c o.fsel] <|
  flagRoom c o.fsel <|
  if compareFull c || (ret && lvqFull c) then .ok c.stall else
  match c.w.role with
  | .trailer _ =>
    guarded [poisonRegs c (src ++ baseV ba) (baseS ba) []] <|
      if ret then trailAtom c (c.w.partner?.getD 0) sig 4
      else .ok (compared c false sig (addr c.low) c.w flag c.s (c.newOp 15 (.result []) []) fun s _ => s)
  | _ =>
    guarded [alignFault c n addr] <|
    match resolveAtoms c op size addr with
    | .error e => .error e
    | .ok (acc, xs) =>
      guarded [failedFault c acc, poisonRegs c (src ++ baseV ba) (baseS ba) [],
          if ret then dataFault c acc else none] <|
        let op' := c.newOp flag (.atom op size ret order scope b (takesWord c xs) (acc.map fun p =>
          (p.1, atomArgs c op size b p.1.thread))) (viaOf c.s xs)
        if c.w.role = .solo ∧ mustWait c.s op' then .ok c.stall
        else .ok (compared c false sig (addr c.low) (if ret then c.w.lvqPut op'.id none else c.w) flag
          (touchLeaves c.s c.tm.core (op != .ldo) xs) op' admitOp)

/-- ATOMIC_COMPLETE: the atomic is performed in every thread, its results written, and the flag counts down; a release at .cluster
scope or wider after the core's stores, and an atom on marked data not at all (11 R293, R296; 19 R426). Log entry 11 (DEDUCED). -/
def execAtomicComplete (op : Nat) (s : State) : Host.Outcome State Fault Refusal :=
  match s.op? op with
  | some o =>
    match o.kind, s.wave? o.wave, s.team? o.team with
    | .atom aop size ret order scope b own acc, some w, some tm =>
      if canPerform s o && !(decide (2 ≤ order) && owes s tm.core scope (o.horizon s)) then
        match (if ret then markedAtom s tm acc else none) with
        | some (a, m) => .next (lateFault s o m a.thread a.addr)
        | none =>
          let s := if 2 ≤ order then drainFor s tm.core scope else s
          let s := performPends s tm.core (comesFirst s o (acc.map (·.1)))
          let s := s.dropOp op
          let need := acquireNeed s tm.core order (memWords (acc.map (·.1)))
          if ret then
            let r := atomThreads w own aop size s acc
            let ws := r.2.1.flatMap fun p => atomWrites aop size b p.1 p.2
            .next ((acquired r.1 o.wave tm.core order scope need).updWave o.wave fun w => ((w.writes ws).flagDown o.flag).lvqFill op ws)
          else
            let s := acc.foldl (fun s p => redAccess s o.team o.via own aop (2 ^ size) (locOf p.1) p.2.1 p.2.2) s
            .next ((acquired s o.wave tm.core order scope need).updPair o.wave fun w => w.flagDown o.flag)
      else .next (askHome s o o.accesses)
    | .result ws, some _, some _ =>
      .next ((s.dropOp op).updWave o.wave fun w => ((w.writes ws).flagDown o.flag).lvqFill op ws)
    | _, _, _ => .next s
  | none => .next s

/-! ## The compare of signatures (19 R445, R457) -/

/-- The held issues of a leader discarded unperformed: a party's flag counts no longer those that it has issued, an atom of the trailer
counting none, and no signature is left to compare (20 R457). Log entry 22 (DEDUCED). -/
def discardHeld (s : State) (leader trailer : Nat) : State :=
  let mine := s.held.filter fun h => h.wave == leader
  let met := (mine.take (((s.wave? trailer).map fun x => x.sigs.length).getD 0)).filter fun h => !(h.op.kind.returns)
  let s := mine.foldl (fun s h => s.updWave leader fun w => (w.flagDown h.op.flag).lvqDrop h.op.id) s
  let s := met.foldl (fun s h => s.updWave trailer fun w => w.flagDown h.op.flag) s
  State.updWave { s with held := s.held.filter fun k => k.wave != leader } trailer fun x => { x with sigs := [] }

/-- SIGNATURE_COMPARE: the oldest held issue of a leader against its trailer's oldest signature. Equal: the issue is
performed. Different: MISMATCH, and every later held issue of the leader is discarded. -/
def execSignatureCompare (wave : Nat) (s : State) : Host.Outcome State Fault Refusal :=
  match s.wave? wave with
  | some w =>
    match w.role, s.held.find? fun h => h.wave == wave with
    | .leader t, some h =>
      match s.wave? t, s.team? w.team with
      | some x, some tm =>
        match x.sigs, s.grid? tm.grid with
        | sig :: rest, some g =>
          match s.ctx? g.ctx with
          | some cx =>
            let s1 := s.updWave t fun x => { x with sigs := rest }
            if (if h.flip then sig ^^^ 1 else sig) = h.sig then
              if mustWait s h.op || (badAtom s tm h.op).any (fun p => faultWaits s tm p.1.addr) then .next s
              else
                let s2 : State := { s1 with held := s1.held.erase h }
                match badAtom s2 tm h.op with
                | some (a, m) => .next (lateFault s2 h.op m a.thread a.addr)
                | none => .next (admitOp s2 h.op)
            else
              if faultWaits s tm h.addr then .next s else
              let m := maskOf fun k => h.op.accesses.any fun a => a.thread == k
              let s2 := discardHeld s1 wave t
              .next (takeFaultNow ⟨s2, (s2.wave? wave).getD w, tm, g, cx, ⟨0, h.pc, m, none⟩, m⟩ ⟨.mismatch, ((threads m).head?).getD 0, h.addr⟩)
          | none => .next s
        | _, _ => .next s
      | _, _ => .next s
    | _, _ => .next s
  | none => .next s

/-! ## The rows of major 20 -/

/-- atom.add: the old value is returned (11 Table 11-2). -/
def execAtomAdd (o : OpN) (s : State) : Host.Outcome State Fault Refusal :=
  issueAs s (okAtomInt o) 4 (atomReason o) fun c => atomEff c .add true o

/-- atom.and: the old value is returned (11 Table 11-2). -/
def execAtomAnd (o : OpN) (s : State) : Host.Outcome State Fault Refusal :=
  issueAs s (okAtomInt o) 4 (atomReason o) fun c => atomEff c .and true o

/-- atom.or: the old value is returned (11 Table 11-2). -/
def execAtomOr (o : OpN) (s : State) : Host.Outcome State Fault Refusal :=
  issueAs s (okAtomInt o) 4 (atomReason o) fun c => atomEff c .or true o

/-- atom.xor: the old value is returned (11 Table 11-2). -/
def execAtomXor (o : OpN) (s : State) : Host.Outcome State Fault Refusal :=
  issueAs s (okAtomInt o) 4 (atomReason o) fun c => atomEff c .xor true o

/-- atom.minI: the old value is returned (11 Table 11-2). -/
def execAtomMinI (o : OpN) (s : State) : Host.Outcome State Fault Refusal :=
  issueAs s (okAtomInt o) 4 (atomReason o) fun c => atomEff c .minI true o

/-- atom.minN: the old value is returned (11 Table 11-2). -/
def execAtomMinN (o : OpN) (s : State) : Host.Outcome State Fault Refusal :=
  issueAs s (okAtomInt o) 4 (atomReason o) fun c => atomEff c .minN true o

/-- atom.maxI: the old value is returned (11 Table 11-2). -/
def execAtomMaxI (o : OpN) (s : State) : Host.Outcome State Fault Refusal :=
  issueAs s (okAtomInt o) 4 (atomReason o) fun c => atomEff c .maxI true o

/-- atom.maxN: the old value is returned (11 Table 11-2). -/
def execAtomMaxN (o : OpN) (s : State) : Host.Outcome State Fault Refusal :=
  issueAs s (okAtomInt o) 4 (atomReason o) fun c => atomEff c .maxN true o

/-- atom.exch: the old value is returned (11 Table 11-2). -/
def execAtomExch (o : OpN) (s : State) : Host.Outcome State Fault Refusal :=
  issueAs s (okExch o) 4 (atomReason o) fun c => atomEff c .exch true o

/-- atom.cas: the old value is returned (11 Table 11-2). -/
def execAtomCas (o : OpN) (s : State) : Host.Outcome State Fault Refusal :=
  issueAs s (okCas o) 4 (atomReason o) fun c => atomEff c .cas true o

/-- atom.fadd: the old value is returned (11 Table 11-2). -/
def execAtomFadd (o : OpN) (s : State) : Host.Outcome State Fault Refusal :=
  issueAs s (okAtomInt o) 4 (atomReason o) fun c => atomEff c .fadd true o

/-- atom.ldo: the old value is returned (11 Table 11-2). -/
def execAtomLdo (o : OpN) (s : State) : Host.Outcome State Fault Refusal :=
  issueAs s (okLdo o) 4 (atomReason o) fun c => atomEff c .ldo true o

/-- red.add: no value is returned (11 Table 11-2). -/
def execRedAdd (o : OpN) (s : State) : Host.Outcome State Fault Refusal :=
  issueAs s (okAtomInt o) 4 (atomReason o) fun c => atomEff c .add false o

/-- red.and: no value is returned (11 Table 11-2). -/
def execRedAnd (o : OpN) (s : State) : Host.Outcome State Fault Refusal :=
  issueAs s (okAtomInt o) 4 (atomReason o) fun c => atomEff c .and false o

/-- red.or: no value is returned (11 Table 11-2). -/
def execRedOr (o : OpN) (s : State) : Host.Outcome State Fault Refusal :=
  issueAs s (okAtomInt o) 4 (atomReason o) fun c => atomEff c .or false o

/-- red.xor: no value is returned (11 Table 11-2). -/
def execRedXor (o : OpN) (s : State) : Host.Outcome State Fault Refusal :=
  issueAs s (okAtomInt o) 4 (atomReason o) fun c => atomEff c .xor false o

/-- red.minI: no value is returned (11 Table 11-2). -/
def execRedMinI (o : OpN) (s : State) : Host.Outcome State Fault Refusal :=
  issueAs s (okAtomInt o) 4 (atomReason o) fun c => atomEff c .minI false o

/-- red.minN: no value is returned (11 Table 11-2). -/
def execRedMinN (o : OpN) (s : State) : Host.Outcome State Fault Refusal :=
  issueAs s (okAtomInt o) 4 (atomReason o) fun c => atomEff c .minN false o

/-- red.maxI: no value is returned (11 Table 11-2). -/
def execRedMaxI (o : OpN) (s : State) : Host.Outcome State Fault Refusal :=
  issueAs s (okAtomInt o) 4 (atomReason o) fun c => atomEff c .maxI false o

/-- red.maxN: no value is returned (11 Table 11-2). -/
def execRedMaxN (o : OpN) (s : State) : Host.Outcome State Fault Refusal :=
  issueAs s (okAtomInt o) 4 (atomReason o) fun c => atomEff c .maxN false o

/-- red.exch: no value is returned (11 Table 11-2). -/
def execRedExch (o : OpN) (s : State) : Host.Outcome State Fault Refusal :=
  issueAs s (okExch o) 4 (atomReason o) fun c => atomEff c .exch false o

/-- red.cas: no value is returned (11 Table 11-2). -/
def execRedCas (o : OpN) (s : State) : Host.Outcome State Fault Refusal :=
  issueAs s (okCas o) 4 (atomReason o) fun c => atomEff c .cas false o

/-- red.fadd: no value is returned (11 Table 11-2). -/
def execRedFadd (o : OpN) (s : State) : Host.Outcome State Fault Refusal :=
  issueAs s (okAtomInt o) 4 (atomReason o) fun c => atomEff c .fadd false o

/-- red.sto: no value is returned (11 Table 11-2). -/
def execRedSto (o : OpN) (s : State) : Host.Outcome State Fault Refusal :=
  issueAs s (okSto o) 4 (atomReason o) fun c => atomEff c .sto false o

end Sys2Proof.Machine
end

