-- ==== Sys2Proof/Machine/Sync.lean ====
section
/-! DEFINITION. Fences, the remote-scope acquire, monitor waits, barriers, range flush and invalidate, and the steps of the
caches, with the events that complete them (09 R246 to R252, R266; 10 R283 to R285; 11 R297 to R305, R317). -/

namespace Sys2Proof.Machine

/-! ## Fence (11 R297) -/

/-- fence: the wave is held Issuing until the fence completes (11 R297). -/
def execFence (o : OpFence) (s : State) : Host.Outcome State Fault Refusal :=
  issueAs s (okScope o.scope) 4 (if 2 ≤ o.scope.toNat then 4 else 0) fun c =>
    .ok (c.s.awake.setWave { c.w with fence := some o.scope.toNat })

/-- Whether a write that was translated under a page-table entry replaced since is still on its way to its home: in flight, in an L1,
in an interval store buffer or in a leader's compare buffer (10 R285; 19 R431, R445). -/
def staleWrites (s : State) : Bool :=
  (s.ops.any fun e => e.isWrite && viaStale s e.via) || (s.pend.any fun e => viaStale s e.via) ||
    (s.teams.any fun t => t.interval.buffer.any fun h => viaStale s (heldVia h)) ||
    s.held.any fun h => h.op.isWrite && viaStale s h.op.via

/-- FENCE_COMPLETE: once the wave's earlier accesses have been performed, its core's stores go to the meeting point of the fence's
scope; and once, for .dev and .sys, every write translated under an entry replaced by then has been performed too, the fence retires
(10 R285, 11 R297). Log entry 10 (DEDUCED). -/
def execFenceComplete (wave : Nat) (s : State) : Host.Outcome State Fault Refusal :=
  match issuing { s with cur := wave } with
  | some c =>
    match c.w.fence with
    | some scope =>
      if c.busy || owes c.s c.tm.core scope c.s.nextId then .next s
      else
        let s1 := drainFor c.s c.tm.core scope
        if 4 ≤ scope ∧ staleWrites s1 then .next { s1 with cur := s.cur }
        else .next (retire c (fenced s1 wave c.tm.core scope) ({ c.w with fence := none }.fenceAt s1.nextId) 4)
    | none => .next s
  | none => .next s

/-! ## Ranges named by a base and a length (11 R298, R317) -/

/-- The locations of a virtual range; a page that does not translate is skipped. `fuel` bounds the pages. -/
def rangeLocs (s : State) (cx : Context) (core : Nat) (sys : Bool) : Nat → Nat → Nat → List Rng
  | 0, _, _ => []
  | fuel + 1, va, len =>
    if len = 0 then [] else
    let here := min len (65536 - va % 65536)
    let rest := rangeLocs s cx core sys fuel (va + here) (len - here)
    match translate s cx core sys .read va with
    | .ok x => ⟨none, x.loc, here⟩ :: rest
    | .error _ => rest

/-- The translations that walking a virtual range uses; a page that does not translate gives none. -/
def rangeXls (s : State) (cx : Context) (core : Nat) (sys : Bool) : Nat → Nat → Nat → List Xl
  | 0, _, _ => []
  | fuel + 1, va, len =>
    if len = 0 then [] else
    let here := min len (65536 - va % 65536)
    let rest := rangeXls s cx core sys fuel (va + here) (len - here)
    match translate s cx core sys .read va with
    | .ok x => x :: rest
    | .error _ => rest

/-- The state in which an operation on the range of a pair of registers issues: ACCESSED is set in the leaves of its pages
(18 R403). Log entry 30 (DEDUCED). -/
def Issue.rangeTouched (c : Issue) (r : Nat × Nat) : State :=
  touchLeaves c.s c.tm.core false (rangeXls c.s c.cx c.tm.core c.w.sysMode (pageFuel r.2) r.1 r.2)

/-- The range that a pair of uniform registers names. -/
def Issue.pairRange (c : Issue) (r : Nat) : Nat × Nat := ((c.w.getS r).toNat, (c.w.getS (r + 1)).toNat)

/-- racq: an operation on a victim core; a core outside the partition raises PERM (11 R298). -/
def execRacq (o : OpRacq) (s : State) : Host.Outcome State Fault Refusal :=
  issueAs s (okScope o.scope && evenReg o.range) 4 (if 2 ≤ o.scope.toNat then 4 else 0) fun c =>
    let v := (c.w.getS o.core.toNat).toNat
    let r := c.pairRange o.range.toNat
    let inPart := ((c.s.part? c.g.part).map fun p => p.clusters.contains (clusterOf v)).getD false
    guarded [noFlag c o.fsel] <| flagRoom c o.fsel <|
    once c [] [o.core.toNat, o.range.toNat, o.range.toNat + 1] <|
    guarded [faultIf c (decide (512 ≤ v) || !inPart) .perm v,
        poisonRegs c [] [o.core.toNat, o.range.toNat, o.range.toNat + 1] []] <|
      let f := c.flag o.fsel
      let rngs := rangeLocs c.s c.cx c.tm.core c.w.sysMode (pageFuel r.2) r.1 r.2
      .ok (retireOnce c ((c.rangeTouched r).addOp (c.newOp f (.racq v rngs) [])) (fun w => w.flagUp (some f)) 4)

/-- The words of some ranges that a core's L1 holds. -/
def heldIn (s : State) (cache : Nat) (rngs : List Rng) : List Nat :=
  (cacheWords s cache fun _ => true).filter fun w => rngs.any fun r => r.word w

/-- RACQ_DRAIN: after the wave's earlier acquires, the victim's L1 performs every store it holds, which may have to follow an
engine's write of its word, and drops its words of the range; the racq is an acquire, whatever scope those stores were released at, and
its flag counts down (10 R273, R284, 11 R298). -/
def execRacqDrain (op : Nat) (s : State) : Host.Outcome State Fault Refusal :=
  match s.op? op with
  | some o =>
    match o.kind, coreOf s o with
    | .racq v rngs, some core =>
      if (s.ops.any fun e => e.wave == o.wave && decide (e.id < op) && e.isAcquire) || pendOwed s v (fun _ => true) ||
          cleanWaits s v (fun _ => true) then .next s
      else
        let s := drainCore (s.dropOp op) v fun _ => true
        let s := (heldIn s v rngs).foldl (fun s w => dropWord s v w) s
        .next ((fenced s o.wave core 2).updPair o.wave fun w => w.flagDown o.flag)
    | _, _ => .next s
  | none => .next s

/-- flush and inval: an operation on the issuing core's words of a range (11 R317), which ends the interval's rollback safety
(19 Table 19-2). -/
def flushEff (s : State) (o : OpFG2) (inval : Bool) : Host.Outcome State Fault Refusal :=
  issueAs s (okScope o.g && evenReg o.f2) 4 3 fun c =>
    let r := c.pairRange o.f2.toNat
    let rs := [o.f2.toNat, o.f2.toNat + 1]
    guarded [noFlag c o.fsel, poisonRegs c [] rs []] <| flagRoom c o.fsel <| once c [] rs <|
      let f := c.flag o.fsel
      let rngs := rangeLocs c.s c.cx c.tm.core c.w.sysMode (pageFuel r.2) r.1 r.2
      .ok (retireOnce c ((c.rangeTouched r).addOp (c.newOp f (.flush inval o.g.toNat rngs) [])) (fun w => w.flagUp (some f)) 4)

/-- flush: modified words written back (11 R317). -/
def execFlush (o : OpFG2) (s : State) : Host.Outcome State Fault Refusal := flushEff s o false

/-- inval: modified words written back, then the words dropped (11 R317). -/
def execInval (o : OpFG2) (s : State) : Host.Outcome State Fault Refusal := flushEff s o true

/-- The modified words of some ranges in the home slices written back to memory, or to the device that homes them. -/
def cleanSlices (s : State) (rngs : List Rng) : State :=
  { s with blocks := s.blocks.map fun b =>
      if 512 ≤ b.cache ∧ b.cache < 1024 then
        { b with words := (b.words.zip (List.range b.words.length)).map fun x =>
            if x.1 == .modified && rngs.any fun r => r.word (16 * b.frame + b.start + x.2) then .shared else x.1 }
      else b }

/-- FLUSH_COMPLETE: the core's words of the range reach the scope's destination, and the flag counts down (11 R317). -/
def execFlushComplete (op : Nat) (s : State) : Host.Outcome State Fault Refusal :=
  match s.op? op with
  | some o =>
    match o.kind, coreOf s o with
    | .flush inval scope rngs, some core =>
      let hit := fun w => rngs.any fun r => r.word w
      if pendOwed s core (fun e => hit e.word) || cleanWaits s core hit then .next s
      else
        let s := drainCore (s.dropOp op) core hit
        let s := if inval then (heldIn s core rngs).foldl (fun s w => dropWord s core w) s else s
        let near := replicaCache s core
        let s := if inval ∧ 2 ≤ scope then (heldIn s near rngs).foldl (fun s w => dropHeld s near w) s else s
        let s := if scope = 5 then cleanSlices s rngs else s
        .next (s.updPair o.wave fun w => w.flagDown o.flag)
    | _, _ => .next s
  | none => .next s

/-! ## Monitor wait (11 R299, R300; 10 R283) -/

/-- The condition of an mwait on n-byte values (11 R299). -/
def mwaitHolds (cond n word val : Nat) : Bool :=
  let w := 8 * n
  let a := word % 2 ^ w
  let b := val % 2 ^ w
  match cond with
  | 0 => a == b
  | 1 => a != b
  | 2 => decide (toSigned w a < toSigned w b)
  | 3 => decide (toSigned w b ≤ toSigned w a)
  | 4 => decide (a < b)
  | _ => decide (b ≤ a)

/-- Whether a read by the issuing wave has to wait: for an earlier acquire, an earlier access to the word, or an engine's
write of it. -/
def readWaits (c : Issue) (locs : List Nat) : Bool :=
  let ws := locs.map (· / 16)
  (c.s.ops.any fun e =>
    (e.wave == c.w.id && (e.isAcquire || (locsOf e.accesses).any fun l => ws.contains (l / 16))) ||
      (!e.isCore && e.writes.any fun r => ws.any r.word)) ||
  c.s.held.any fun h => h.wave == c.w.id && (locsOf h.op.accesses).any fun l => ws.contains (l / 16)

/-- Entries a monitor table holds (11 R300). -/
def monitorEntries : Nat := 256

/-- A wait armed at the slice that homes its word, where that slice's table has room. Log entry 26 (DEDUCED). -/
def armMonitor (s : State) (part wave loc : Nat) : State :=
  let slice := homeSlice s part loc
  if monitorEntries ≤ (s.monitors.filter fun m => m.slice == slice).length then s
  else { s with monitors := s.monitors ++ [⟨slice, wave, loc / 16, false, false⟩] }

/-- The value of a word that an mwait judges: in a coherent page as its wave sees it, once what its L1 holds of it is performed; in a
software-managed page as its home holds it (09 R268, 10 R283). -/
def mwaitValue (s : State) (c : Issue) (locs : List Nat) : Nat :=
  if locs.any (isSwm s) then leNat (locs.map (readHome s))
  else leNat (locs.map fun l => viewByte s c.w ((s.team? c.tm.id).getD c.tm) l)

/-- mwait: the wave goes on where the condition holds, and is Blocked on a monitor of the word otherwise (11 R300). Log entry 24 (DEDUCED). -/
def execMwait (o : OpMwait) (s : State) : Host.Outcome State Fault Refusal :=
  issueAs s (okMwait o) 4 (if o.acq = 1 ∧ 2 ≤ o.scope.toNat then 4 else 0) fun c =>
    let n := if o.wide = 1 then 8 else 4
    let addr := (c.w.getS o.addr.toNat).toNat
    let rs := [o.addr.toNat, o.val.toNat]
    once c [] rs <|
    guarded [faultIf c (addr % n != 0) .align addr] <|
    match translateSpan c.s c.cx c.tm.core c.w.sysMode .read addr n with
    | .error f => .error ⟨f.code, c.low, f.va⟩
    | .ok (locs, xs) =>
      guarded [poisonRegs c [] rs [], dataFault c [(⟨c.low, locs.map .mem, addr⟩, addr)]] <|
      let loc := locs.headD 0
      let onWord := fun e : Pend => e.word == loc / 16
      if readWaits c locs || pendOwed c.s c.tm.core onWord || slicesFull c.s c.g.part locs then .ok c.stall else
      match recallFor c.s c.tm.id false locs with
      | none => .ok c.stall
      | some s =>
        let s := performPends (flushStamps (touchLeaves s c.tm.core false xs) (some c.g.part) loc n) c.tm.core onWord
        let s := if isSwm s loc then s else dropWord s c.tm.core (loc / 16)
        if mwaitHolds o.cond.toNat n (mwaitValue s c locs) (c.w.getS o.val.toNat).toNat then
          if o.acq = 1 then
            let s := if 2 ≤ o.scope.toNat then freshen s c.tm.core else s
            .ok (retireOnce c s (Wave.fenceAt s.nextId) 4)
          else .ok (retireOnce c s id 4)
        else .ok (blockOn c (.monitor loc n) (armMonitor s c.g.part c.w.id loc))

/-- A blocked wave made Ready, to perform its instruction again; its monitor is gone. -/
def wakeWave (s : State) (wave : Nat) : State :=
  { s.awake with monitors := s.monitors.filter fun m => m.wave != wave }.updWave wave fun w => { w with state := .ready, block := none }

/-- Whether a wave is Blocked at an mwait. -/
def Wave.monitors (w : Wave) : Bool :=
  w.state == .blocked && (match w.block with
    | some (.monitor _ _) => true
    | _ => false)

/-- MONITOR_WAKE: a write of the word has been performed at its home while the wait was armed (10 R283). Log entry 26 (DEDUCED). -/
def execMonitorWake (wave : Nat) (s : State) : Host.Outcome State Fault Refusal :=
  match s.wave? wave with
  | some w => if w.monitors && s.monitors.any fun m => m.wave == wave && m.hit then .next (wakeWave s wave) else .next s
  | none => .next s

/-- MONITOR_REPOLL: a wait that found the monitor table full reads its word again (11 R300). Log entry 26 (DEDUCED). Log entry 81 (DESIGN CHOICE). -/
def execMonitorRepoll (wave : Nat) (s : State) : Host.Outcome State Fault Refusal :=
  match s.wave? wave with
  | some w => if w.monitors && !(s.monitors.any fun m => m.wave == wave) then .next (wakeWave s wave) else .next s
  | none => .next s

/-! ## Barriers (11 R301 to R305; 19 R429) -/

/-- The team whose allocation holds the barrier words of a bs: the issuing one, or gang rank 0. Log entry 25 (DEDUCED). -/
def barOwner (c : Issue) (bs : BitVec 3) : Nat :=
  if bs = 2 then ((gangTeam c.s c.tm c.g 0).map (·.id)).getD c.tm.id else c.tm.id

/-- One arrival at a barrier word: the state with the word updated, the phase joined, and whether the phase completes; none
where the barrier is not armed (11 R302). Log entry 25 (DEDUCED). -/
def arriveWord (s : State) (team id : Nat) : Option (State × Nat × Bool) :=
  match s.team? team with
  | none => none
  | some t =>
    let b := t.barrier id
    if barArmed b then
      let full := barArrived b + 1 == barExpected b
      let b' := if full then barWord 0 (barExpected b) (1 - barPhase b)
        else barWord ((barArrived b + 1) % 2 ^ 16) (barExpected b) (barPhase b)
      some (spWriteBoth s team (8 * id) (leBytes 8 b'), barPhase b, full)
    else none

/-- A wait that is satisfied completes, as an acquire of its scope, as its wave leaves Blocked, and the wave chooses its entry again
(04 R87, 10 R274, 11 R303). -/
def finishWait (s : State) (id pc scope : Nat) : State :=
  match s.wave? id with
  | none => s
  | some w =>
    match w.frontier.find? fun e => e.pc == pc && w.issueMask e != 0 with
    | none => s
    | some e =>
      match issuing ({ s with cur := id }.setWave { w with state := .ready, block := none, sel := some (e.prio, pc) }) with
      | none => s
      | some c =>
        let s1 := if 2 ≤ scope then freshen c.s c.tm.core else c.s
        ({ retireOnce c s1 (Wave.fenceAt s1.nextId) 4 with cur := s.cur } : State).updPair id fun w =>
          if w.state = .ready then { w with sel := none } else w

/-- The waves that wait for a phase of a barrier, the PC at which each stands, and the scope. -/
def waiters (s : State) (team id phase : Nat) : List (Nat × Nat × Nat) :=
  s.waves.filterMap fun w => match w.state, w.block with
    | .blocked, some (.barrier o i p pc scope) => if o = team ∧ i = id ∧ p = phase then some (w.id, pc, scope) else none
    | _, _ => none

/-- What the completion of a phase brings: its waiters go on, and a phase of barrier 0 of a recoverable team, and of the other team
of its cross-core group, ends the interval and lets the waves that it held go on (11 R302, 19 R429). -/
def phaseDone (s : State) (team id phase : Nat) : State :=
  let s := ((waiters s team id phase).foldl (fun s p =>
    if (s.wave? p.1).any fun w => w.state == .blocked then finishWait s p.1 p.2.1 p.2.2 else s) s).awake
  if id = 0 then
    let ts := team :: ((s.team? team).bind (·.peer)).toList
    ts.foldl beginInterval { s with waves := s.waves.map fun w => if ts.contains w.team then { w with held := false } else w }
  else s

/-- Whether the wave arrives at barrier 0 of its own team in a recoverable launch (19 R429). -/
def Issue.atBoundary (c : Issue) (owner id : Nat) : Bool := id == 0 && owner == c.tm.id && c.g.launch.recov

/-- Whether the next arrival at a barrier word completes its phase. -/
def completes (s : State) (team id : Nat) : Bool :=
  (s.team? team).any fun t => barArmed (t.barrier id) && barArrived (t.barrier id) + 1 == barExpected (t.barrier id)

/-- Whether a boundary at barrier 0 of a team, and of the other team of its cross-core group, has to wait: an interval store buffer
cannot be released yet (19 R429). -/
def boundaryHeld (s : State) (team id : Nat) : Bool :=
  id == 0 && (team :: ((s.team? team).bind (·.peer)).toList).any fun i => (s.team? i).any fun t => t.interval.recov && !(releasable s t)

/-- An arrival that waits until it may be made: the wave's earlier accesses have been performed, and at barrier 0 of a
recoverable launch its flags are clear (19 R429). -/
def toArrive (c : Issue) (owner id scope : Nat) (k : Issue → Except Flt State) : Except Flt State :=
  if (c.atBoundary owner id && !c.w.flagsClear) || (completes c.s owner id && boundaryHeld c.s owner id) then .ok c.stall
  else asRelease c scope k

/-- The scope of a barrier instruction, and the state in which a .cluster one issues (11 Table 10-2, 19 Table 19-2). -/
def barScope (bs : BitVec 3) : Nat := if bs = 2 then 2 else 1

/-- A .cluster barrier instruction ends the rollback safety of the interval (19 Table 19-2). -/
def barReason (bs : BitVec 3) : Nat := if bs = 2 then 4 else 0

/-- bar.init (11 R301). -/
def execBarInit (o : OpBarInit) (s : State) : Host.Outcome State Fault Refusal :=
  issue s true 4 fun c =>
    let id := o.id.toNat
    let n := (c.w.getS o.count.toNat).toNat
    let b := c.tm.barrier id
    let waiting := c.s.waves.any fun w => w.state == .blocked && (match w.block with
      | some (.barrier t i _ _ _) => t == c.tm.id && i == id
      | _ => false)
    let busy := barArmed b && (barArrived b != 0 || waiting)
    once c [] [o.count.toNat] <|
    guarded [faultIf c (busy || decide (65535 < n)) .barclobber (8 * id), poisonRegs c [] [o.count.toNat] []] <|
      if n = 0 then
        .ok (retireOnce c (if barArmed b then spWriteBoth c.s c.tm.id (8 * id) (leBytes 8 0) else c.s) (fun w => w) 4)
      else
        .ok (retireOnce c (spWriteBoth c.s c.tm.id (8 * id) (leBytes 8 (barWord 0 n (if barArmed b then barPhase b else 0))))
          (fun w => w) 4)

/-- Whether arrivals at a team are held in the pending-arrival queue: it is saved, or its core is power-gated. -/
def holdsArrivals (s : State) (t : Team) : Bool := t.state == .saved || get false s.gated t.core

/-- Keys a pending-arrival queue holds at most (11 R305). -/
def arrivalKeys : Nat := 64

/-- Whether an arrival at a barrier of a team finds no room in the queue of the near slice of the team's cluster. -/
def arrivalsFull (s : State) (t : Team) (id : Nat) : Bool :=
  let mine := s.arrivals.filter fun a => ((s.team? a.team).map fun x => clusterOf x.core) == some (clusterOf t.core)
  !(mine.any fun a => a.team == t.id && a.id == id) && decide (arrivalKeys ≤ mine.length)

/-- An arrival held for a team; arrivals at one key add up. -/
def holdArrival (s : State) (team id : Nat) : State :=
  if s.arrivals.any fun a => a.team == team && a.id == id then
    { s with arrivals := s.arrivals.map fun a => if a.team = team ∧ a.id = id then { a with count := a.count + 1 } else a }
  else { s with arrivals := s.arrivals ++ [⟨team, id, 1⟩] }

/-- The phase that an arrival held for a team will join: that of its barrier word once the arrivals held before it are applied. Log entry 25 (DEDUCED). -/
def heldPhase (s : State) (t : Team) (id : Nat) : Nat :=
  let b := t.barrier id
  let waiting := ((s.arrivals.filter fun a => a.team == t.id && a.id == id).map (·.count)).sum
  (barPhase b + (barArrived b + waiting) / max 1 (barExpected b)) % 2

/-- What comes of an arrival at a barrier of a team. -/
inductive Arrival where
  /-- The barrier is not armed. -/
  | unarmed
  /-- The team was lost with its core; a record says so. -/
  | lost
  /-- The queue that would hold it is full. -/
  | full
  /-- Made, or held: the state, the phase joined, and whether the phase completes. -/
  | made (s : State) (phase : Nat) (done : Bool)

/-- One arrival at a barrier of a team: at its word, or in the pending-arrival queue of a saved team or a power-gated core (11 R302,
R305). -/
def arrive (s : State) (team id : Nat) : Arrival :=
  match s.team? team with
  | none => .unarmed
  | some t =>
    if t.state = .lost then .lost
    else if holdsArrivals s t then
      if arrivalsFull s t id then .full else .made (holdArrival s team id) (heldPhase s t id) false
    else match arriveWord s team id with
      | none => .unarmed
      | some (s, phase, done) => .made s phase done

/-- bar.arrive: one arrival; the phase joined to s phase (11 R302, R305). -/
def execBarArrive (o : OpBarPh) (s : State) : Host.Outcome State Fault Refusal :=
  issueAs s (okBs o.bs) 4 (barReason o.bs) fun c =>
    let id := o.id.toNat
    let owner := barOwner c o.bs
    once c [] [] <| toArrive c owner id (barScope o.bs) fun c =>
      match arrive c.s owner id with
      | .unarmed => .error ⟨.barclobber, c.low, 8 * id⟩
      | .lost => .ok (retireOnce c (c.s.addRec (c.record 5 0 c.low 0 (8 * id) 0)) (fun w => w) 4)
      | .full => .ok (blockOn c .arrivals c.s)
      | .made s phase full =>
        let s := retireOnce c s (fun w => { w.setS o.phase.toNat (BitVec.ofNat 64 phase) with
          held := c.atBoundary owner id && !full }) 4
        .ok (if full then phaseDone s owner id phase else s)

/-- The wave's wait on a phase of a barrier: it goes on where PHASE differs, an acquire of the scope, and is Blocked until PHASE
flips otherwise. -/
def barWaitOn (c : Issue) (owner id phase scope : Nat) : Except Flt State :=
  let now := ((c.s.team? owner).map fun t => barPhase (t.barrier id)).getD 0
  if now ≠ phase then
    let s := if 2 ≤ scope then freshen c.s c.tm.core else c.s
    .ok (retireOnce c s (fun w => { w with block := none }.fenceAt s.nextId) 4)
  else .ok (blockOn c (.barrier owner id phase c.e.pc scope) c.s)

/-- Whether a barrier word is armed. -/
def armedAt (s : State) (owner id : Nat) : Bool := ((s.team? owner).map fun t => barArmed (t.barrier id)).getD false

/-- bar.wait: completes once PHASE ≠ p[0]; an unarmed barrier raises BARCLOBBER (11 R303, 13 R328). Log entry 25 (DEDUCED). -/
def execBarWait (o : OpBarPh) (s : State) : Host.Outcome State Fault Refusal :=
  issueAs s (okBs o.bs) 4 (barReason o.bs) fun c =>
    once c [] [o.phase.toNat] <|
    guarded [faultIf c (!(armedAt c.s (barOwner c o.bs) o.id.toNat)) .barclobber (8 * o.id.toNat),
      poisonRegs c [] [o.phase.toNat] []] <|
      barWaitOn c (barOwner c o.bs) o.id.toNat ((c.w.getS o.phase.toNat).toNat % 2) (barScope o.bs)

/-- bar.sync: an arrival and then a wait on the phase it joined (11 R303). A wave that has made its arrival waits again. Log entry 25 (DEDUCED). -/
def execBarSync (o : OpBarSync) (s : State) : Host.Outcome State Fault Refusal :=
  issueAs s (okBs o.bs) 4 (barReason o.bs) fun c =>
    let id := o.id.toNat
    let owner := barOwner c o.bs
    let scope := barScope o.bs
    let joined := match c.w.block with
      | some (.barrier t i p pc _) => if t = owner ∧ i = id ∧ pc = c.e.pc then some p else none
      | _ => none
    once c [] [] <|
    match joined with
    | some p => barWaitOn c owner id p scope
    | none => toArrive c owner id scope fun c =>
      match arrive c.s owner id with
      | .unarmed => .error ⟨.barclobber, c.low, 8 * id⟩
      | .lost => .ok (retireOnce c (c.s.addRec (c.record 5 0 c.low 0 (8 * id) 0)) (fun w => { w with block := none }) 4)
      | .full => .ok (blockOn c .arrivals c.s)
      | .made s phase full =>
        if full then
          let s := if 2 ≤ scope then freshen s c.tm.core else s
          .ok (phaseDone (retireOnce c s (fun w => { w with block := none }.fenceAt s.nextId) 4) owner id phase)
        else .ok (blockOn c (.barrier owner id phase c.e.pc scope) s)

/-! ## Remote and pending arrivals (11 R304, R305) -/

/-- One arrival applied, with what a completed phase brings; none where the barrier is not armed. Log entry 25 (DEDUCED). -/
def applyArrival (s : State) (team id : Nat) : Option State :=
  match arriveWord s team id with
  | none => none
  | some (s, phase, full) => some (if full then phaseDone s team id phase else s)

/-- The entries of a team applied, each arrival in turn; an arrival that meets an unarmed barrier has no effect. -/
def applyArrivals (s : State) (team : Nat) : State :=
  let mine := s.arrivals.filter fun a => a.team == team
  let s : State := { s with arrivals := s.arrivals.filter fun a => a.team != team }
  mine.foldl (fun s a => (List.range a.count).foldl (fun s _ => (applyArrival s team a.id).getD s) s) s

/-- Every wave that waits for room in a pending-arrival queue made Ready. -/
def wakeArrivals (s : State) : State :=
  { s with waves := s.waves.map fun w =>
      if w.state = .blocked ∧ w.block = some .arrivals then { w with state := .ready, block := none } else w }

/-- PENDING_ARRIVAL_APPLY: a power-gated core is woken, and the arrivals held for its teams are applied; those for a team that has
ended act on the barrier words of its allocation (11 R305). -/
def execPendingArrivalApply (core : Nat) (s : State) : Host.Outcome State Fault Refusal :=
  let mine := s.teams.filter fun t => t.core == core && (t.state == .resident || t.state == .ended) && s.arrivals.any fun a => a.team == t.id
  if mine = [] ∨ mine.any (fun t => s.arrivals.any fun a => a.team == t.id && boundaryHeld s t.id a.id) then .next s
  else .next (wakeArrivals ((mine.foldl (fun s t => applyArrivals s t.id) { s with gated := del s.gated core }).awake))

/-- Whether an arrival at a barrier of a team meets an unarmed barrier word (11 R302). -/
def meetsUnarmed (s : State) (t : Team) (id : Nat) : Bool := t.state != .lost && !(holdsArrivals s t) && !(armedAt s t.id id)

/-- bar.rarrive: one arrival at a barrier word of a gang member; at barrier 0 of its own recoverable team it waits for the wave's flags
and holds the wave (11 R304, R305; 19 R429). -/
def execBarRarrive (o : OpY2) (s : State) : Host.Outcome State Fault Refusal :=
  issueAs s true 4 4 fun c =>
    let a := (c.w.getS o.f2.toNat).toNat
    let id := a % 2 ^ 18 / 8
    let target := gangTeam c.s c.tm c.g (bitsN a 18 2)
    once c [] [o.f2.toNat] <|
    guarded [faultIf c (a % 8 != 0) .align a,
        faultIf c (a / 2 ^ 20 != 0 || target.isNone || decide (256 ≤ a % 2 ^ 18)) .perm a,
        faultIf c (target.any fun t => meetsUnarmed c.s t id) .barclobber a, poisonRegs c [] [o.f2.toNat] []] <|
      match target with
      | none => .ok c.stall
      | some t => toArrive c t.id id 2 fun c =>
        match arrive c.s t.id id with
        | .unarmed => .error ⟨.barclobber, c.low, a⟩
        | .lost => .ok (retireOnce c (c.s.addRec (c.record 5 0 c.low 0 a 0)) (fun w => w) 4)
        | .full => .ok (blockOn c .arrivals c.s)
        | .made s phase full =>
          let s := retireOnce c s (fun w => { w with held := c.atBoundary t.id id && !full }) 4
          .ok (if full then phaseDone s t.id id phase else s)

end Sys2Proof.Machine
end

