-- ==== Sys2Proof/Machine/Engine.lean ====
section
/-! DEFINITION. What the engines share: descriptors, the range scoreboard, reads and writes of an engine, the pieces of a
copy, row-count arrivals, STATUS and the stamp (09 R262, R263, R268; 11 R306 to R309; 19 R426, R446). -/

namespace Sys2Proof.Machine

/-! ## Descriptors (11 R306) -/

/-- A field of n bytes of a descriptor. -/
def field (d : List (BitVec 8)) (o n : Nat) : Nat := leNat ((d.drop o).take n)

/-- Whether n bytes of a descriptor are zero. -/
def fieldZero (d : List (BitVec 8)) (o n : Nat) : Bool := field d o n == 0

/-- The first failing check of a list in ascending offset order: its offset. -/
def firstBad : List (Nat × Bool) → Option Nat
  | [] => none
  | (o, ok) :: l => if ok then firstBad l else some o

/-- Of two faults of pages that a thread meets, the one of the lower page (18 R406). -/
def lowerPage (a b : Option Flt) : Option Flt :=
  match a, b with
  | some f, some g => if g.addr / 65536 < f.addr / 65536 then some g else some f
  | some f, none => some f
  | none, g => g

/-- An instruction that reads n bytes of its team's own scratchpad at `off`: as a descriptor in a multiple of 64 bytes, through stash
mappings where there are any, after ALIGN and the faults of its pages and of `pages`, the others it uses; BARCLOBBER for a STATUS at
`st`, then the faults `regs` of its operands, and POISON or LOST where a word is marked (11 R287, R306). `room` bytes have to lie in
the allocation. -/
def withSpAnd (c : Issue) (pages : Option Flt) (off room at' n : Nat) (st : Option Nat) (regs : Option Flt)
    (k : Issue → List (BitVec 8) → Except Flt State) : Except Flt State :=
  guarded [faultIf c (off % 64 != 0) .align off, faultIf c (decide (c.g.launch.spBytes < off + room)) .perm off] <|
  match resolve c .own .read at' n with
  | .error f => guarded [lowerPage (some ⟨f.code, c.low, f.va⟩) pages] (.ok c.s)
  | .ok r =>
    guarded [pages, st.bind fun so => faultIf c (c.tm.clobbers so 8) .barclobber so, regs, dataFault c [(⟨c.low, r.places, at'⟩, at')]] <|
      k { c with s := touchLeaves c.s c.tm.core false r.xs } (r.places.map (placeByte c.s c.w c.tm))

/-- An instruction that reads n bytes of its team's own scratchpad and uses no other page. -/
def withSp (c : Issue) (off room at' n : Nat) (st : Option Nat) (regs : Option Flt) (k : Issue → List (BitVec 8) → Except Flt State) :
    Except Flt State :=
  withSpAnd c none off room at' n st regs k

/-- Bytes of a descriptor as its checks at issue need them; none where its scratchpad cannot be read there. -/
def peek (c : Issue) (off o n : Nat) : Option (List (BitVec 8)) :=
  match resolve c .own .read (off + o) n with
  | .ok r => some (r.places.map (placeByte c.s c.w c.tm))
  | .error _ => none

/-- A check of the field of n bytes at `o` of a descriptor, where it can be read. -/
def peekField (c : Issue) (off o n : Nat) (f : Nat → Option Flt) : Option Flt := (peek c off o n).bind fun d => f (leNat d)

/-- An instruction that reads a descriptor of n bytes whose STATUS stands at `so` in it (11 R306, 09 R240). Log entry 37 (DEDUCED). -/
def withDesc (c : Issue) (off n so : Nat) (regs : Option Flt) (k : Issue → List (BitVec 8) → Except Flt State) : Except Flt State :=
  withSp c off n off n (some (off + so)) regs k

/-! ## The range scoreboard (09 R263) -/

/-- Ranges an operation holds on its core's scoreboard: a matrix operation three, another one for each side it has. Log entry 35 (DESIGN CHOICE). -/
def Op.slots (o : Op) : Nat :=
  match o.kind with
  | .mma _ _ _ _ _ _ _ => 3
  | .rmode _ _ => 0
  | _ => (if o.reads = [] then 0 else 1) + (if o.writes = [] then 0 else 1)

/-- Whether an operation finds no room on its core's scoreboard of 32 ranges. Log entry 35 (DESIGN CHOICE). -/
def scoreFull (c : Issue) (o : Op) : Bool :=
  decide (32 < ((c.s.ops.filter fun e => coreOf c.s e == some c.tm.core).map Op.slots).sum + o.slots)

/-- The teams that an engine's scratchpad writes reach: the issuing one, and the trailing one of a cross-core group
(19 R446). -/
def Team.both (t : Team) : List Nat := t.id :: t.peer.toList

/-- The locations that the stash mappings of the issuing team give to a range of its scratchpad (09 R242). -/
def stashRngs (c : Issue) (addr len : Nat) : List Rng :=
  c.tm.stash.flatMap fun m =>
    let lo := max addr m.spBase
    let hi := min (addr + len) (m.spBase + m.len)
    if lo < hi then rangeLocs c.s c.cx c.tm.core c.w.sysMode (pageFuel (hi - lo)) (m.base + (lo - m.spBase)) (hi - lo) else []

/-- The range of a side of an operation: scratchpad offsets, with what they are mapped onto, or the locations of a global range. -/
def sideRng (c : Issue) (sp : Bool) (write : Bool) (addr len : Nat) : List Rng :=
  if len = 0 then []
  else if sp then ((if write then c.tm.both else [c.tm.id]).map fun t => ⟨some t, addr, len⟩) ++ stashRngs c addr len
  else rangeLocs c.s c.cx c.tm.core c.w.sysMode (pageFuel len) (addr % 2 ^ 64) len

/-- The destination words of an operation taken from every core that holds stores to them, in coherent pages; a store that comes
behind another engine stays (09 R262). -/
def takeWords (s : State) (rngs : List Rng) : State := performAll s fun e => rngs.any fun r => r.sp.isNone && r.word e.word

/-- An operation put in flight: its destination words become the engine's. Log entry 35 (DESIGN CHOICE). -/
def startOp (s : State) (o : Op) : State := (takeWords s o.writes).addOp o

/-- Uncorrectable data consumed by an engine on behalf of a wave: a record of kind 0, and the grid halts for its hull
(08 R217, 19 R426, R428). Log entry 47 (DEDUCED). -/
def consume (c : Issue) (s : State) (addr : Nat) : State :=
  needHull (s.addRec (c.record 0 FaultCode.poison.num c.low c.e.pc addr 0)) c.g.id
    (c.record 8 2 c.low c.e.pc addr FaultCode.poison.num)

/-! ## Engine reads and writes (09 R262, R268; 19 R426, R427) -/

/-- A byte as an engine of a core reads it: the core's own modified copy of a software-managed word, or the home (09 R268). -/
def engineByte (s : State) (core loc : Nat) : BitVec 8 :=
  match ownCopy s core (loc / 16) with
  | some (bs, true, _) => bs.getD (loc % 16) 0
  | _ => readHome s loc

/-- Whether the word that an engine reads a byte from is poisoned or lost. -/
def engineBad (s : State) (core loc : Nat) : Bool :=
  match ownCopy s core (loc / 16) with
  | some (_, true, m) => m != .ok
  | _ => markAt s loc != .ok

/-- One word written by an engine: what the core's L1 holds of it goes home first, and its copy is dropped. -/
def engineWord (s : State) (core word : Nat) (bytes : List (Nat × BitVec 8)) (bad : Bool) : State :=
  homeWord s core word bytes (if bad then .poison else .ok)

/-- Bytes at locations written by an engine, each with whether its source was bad. -/
def engineWrite (s : State) (core : Nat) (l : List (Nat × BitVec 8 × Bool)) : State :=
  (groupWords (l.map fun p => (p.1, p.2.1))).foldl (fun s p =>
    engineWord s core p.1 p.2 (l.any fun q => q.1 / 16 == p.1 && q.2.2)) s

/-- Bytes written by an engine in the allocation of its team, and of the trailing team; an 8-byte unit that receives bad data
is poisoned. Log entry 38 (DEDUCED). -/
def engineSp (s : State) (tm : Team) (o : Nat) (l : List (BitVec 8 × Bool)) : State :=
  let s := spWriteBoth s tm.id o (l.map (·.1))
  let bad := ((l.zip (List.range l.length)).filter fun p => p.1.2).map fun p => (o + p.2) / 8
  tm.both.foldl (fun s t => s.updTeam t fun t => { t with spBad := bad.foldl (fun m u => put false m u true) t.spBad }) s

/-- FIELD of code 8 for the fault of a page (11 Table 11-3). -/
def pageCause : FaultCode → Nat
  | .xlate => 1
  | .perm => 2
  | .world => 3
  | _ => 4

/-- Global bytes read by an engine, with their marks; or the cause that forbids it. -/
def engineRead (c : Issue) (s : State) (va n : Nat) : Except Nat (State × List (BitVec 8 × Bool)) :=
  match translateSpan s c.cx c.tm.core c.w.sysMode .read va n with
  | .error f => .error (pageCause f.code)
  | .ok (locs, xs) =>
    let s := touchLeaves s c.tm.core false xs
    .ok (s, locs.map fun l => (engineByte s c.tm.core l, engineBad s c.tm.core l))

/-- Global bytes written by an engine; or the cause that forbids it. -/
def enginePut (c : Issue) (s : State) (va : Nat) (l : List (BitVec 8 × Bool)) : Except Nat State :=
  match translateSpan s c.cx c.tm.core c.w.sysMode .write va l.length with
  | .error f => .error (pageCause f.code)
  | .ok (locs, xs) => .ok (engineWrite (touchLeaves s c.tm.core true xs) c.tm.core (locs.zip l))

/-- Bytes of the team's allocation read by an engine, with their marks. -/
def engineSpRead (s : State) (team o n : Nat) : List (BitVec 8 × Bool) :=
  match s.team? team with
  | none => []
  | some t => (List.range n).map fun i => (t.spByte (o + i), t.spPoisoned (o + i) 1)

/-- How far a run of bytes has come: the state, the bytes moved, the cause that stopped it, and whether bad data was read. -/
structure Run where
  s : State
  done : Nat
  cause : Option Nat
  bad : Bool
  deriving Repr

/-- The length of the piece at two addresses: within one page on each global side (11 R307). -/
def pieceLen (ssp dsp : Bool) (src dst len : Nat) : Nat :=
  let a := if ssp then len else min len (65536 - src % 65536)
  if dsp then a else min a (65536 - dst % 65536)

/-- A run of bytes moved piece by piece, up to the first piece that may not be moved (11 R307). `fuel` bounds the pieces. -/
def moveRun (c : Issue) (ssp dsp : Bool) : Nat → Nat → Nat → Nat → Run → Run
  | 0, _, _, _, r => r
  | fuel + 1, src, dst, len, r =>
    if len = 0 then r else
    let n := pieceLen ssp dsp src dst len
    let got : Except Nat (State × List (BitVec 8 × Bool)) :=
      if ssp then .ok (r.s, engineSpRead r.s c.tm.id src n) else engineRead c r.s src n
    match got with
    | .error f => { r with cause := some f }
    | .ok (s, l) =>
      let bad := r.bad || l.any (·.2)
      if dsp then moveRun c ssp dsp fuel (src + n) (dst + n) (len - n) ⟨engineSp s c.tm dst l, r.done + n, none, bad⟩
      else match enginePut c s dst l with
        | .error f => { r with cause := some f }
        | .ok s => moveRun c ssp dsp fuel ((src + n) % 2 ^ 64) ((dst + n) % 2 ^ 64) (len - n) ⟨s, r.done + n, none, bad⟩

/-- A run of bytes moved from one side to the other. Log entry 36 (DEDUCED). -/
def moveBytes (c : Issue) (s : State) (ssp dsp : Bool) (src dst len : Nat) : Run :=
  moveRun c ssp dsp (2 * (len / 65536) + 4) src dst len ⟨s, 0, none, false⟩

/-! ## Scratchpad ranges (11 Table 11-4, code 4) -/

/-- Whether a scratchpad range may be used: inside the allocation, clear of stash mappings, and as a destination at or above
offset 256. -/
def spUsable (c : Issue) (dest : Bool) (o n : Nat) : Bool :=
  n == 0 || (decide (o + n ≤ c.g.launch.spBytes) && !(c.tm.stashed o n) && (!dest || decide (256 ≤ o)))

/-! ## Row-count arrivals (11 R302, R305, R309) -/

/-- ROWBAR enables arrivals. -/
def barOn (rb : Nat) : Bool := bitsN rb 15 1 == 1

/-- A legal ROWBAR: reserved bits zero, and a rank of the issuing team's gang, or 0, whether or not arrivals are enabled (11 R309). -/
def rowbarOk (c : Issue) (rb : Nat) : Bool :=
  bitsN rb 7 8 == 0 && (bitsN rb 5 2 == 0 || (gangTeam c.s c.tm c.g (bitsN rb 5 2)).isSome)

/-- The target of row-count arrivals; rank 0 stands for the issuing team. -/
def rowbarTeam (c : Issue) (s : State) (rb : Nat) : Option Team :=
  if bitsN rb 5 2 = 0 then s.team? c.tm.id else gangTeam s c.tm c.g (bitsN rb 5 2)

/-- One row's arrival: the state, and the code it sets; 0 for none. -/
def rowArrive (c : Issue) (s : State) (rb : Nat) : State × Nat :=
  if !(barOn rb) then (s, 0) else
  match rowbarTeam c s rb with
  | none => (s, 0)
  | some t =>
    let id := bitsN rb 0 5
    match arrive s t.id id with
    | .unarmed => (s, 12)
    | .lost => (s.addRec (c.record 5 0 c.low 0 (bitsN rb 5 2 * 2 ^ 18 + 8 * id) 0), 11)
    | .full => (s, 0)
    | .made s phase done => (if done then phaseDone s t.id id phase else s, 0)

/-- Whether an operation's arrivals find no room where they would be held: it waits (11 R305). -/
def arrivalsWait (c : Issue) (s : State) (rb : Nat) : Bool :=
  barOn rb && (match rowbarTeam c s rb with
    | some t => (holdsArrivals s t && arrivalsFull s t (bitsN rb 0 5)) || (!(holdsArrivals s t) && boundaryHeld s t.id (bitsN rb 0 5))
    | none => false)

/-! ## Completion (11 R308) -/

/-- The outcome of an operation's payload. -/
structure Done where
  s : State
  code : Nat
  field : Nat
  done : Nat
  deriving Repr

/-- STATUS of a copy (11 Table 11-3). -/
def copyStatus (code field done : Nat) : Nat := done * 2 ^ 23 + field * 2 ^ 15 + code

/-- Bytes written by an engine at scratchpad offsets of its team, each where its mapping puts it: in the allocation, or at the global
address that a stash mapping names (09 R242). -/
def engineSpOut (s : State) (tm : Team) (o : Nat) (ps : List Place) (l : List (BitVec 8 × Bool)) : State :=
  let at' := ps.zip (l.zip (List.range l.length))
  let s := engineWrite s tm.core (at'.filterMap fun p => match p.1 with
    | .mem loc => some (loc, p.2.1.1, p.2.1.2)
    | .sp _ _ => none)
  if ps.all fun p => (match p with
    | .sp _ _ => true
    | .mem _ => false) then engineSp s tm o l
  else at'.foldl (fun s p => match p.1 with
    | .sp _ o => engineSp s tm o [p.2.1]
    | .mem _ => s) s

/-- A byte that an engine reads at a place, with whether it is bad. -/
def placeSeen (s : State) (t : Team) : Place → BitVec 8 × Bool
  | .mem loc => (engineByte s t.core loc, engineBad s t.core loc)
  | .sp _ o => (t.spByte o, t.spPoisoned o 1)

/-- Bytes of its team's allocation read by an engine, through stash mappings where there are any; or the cause that forbids it
(09 R242, R243). -/
def spIn (c : Issue) (s : State) (o n : Nat) : Except Nat (State × List (BitVec 8 × Bool)) :=
  match s.team? c.tm.id with
  | none => .ok (s, [])
  | some t =>
    if t.stashed o n then
      match resolveSpBytes s c.cx t.core c.w.sysMode .read t o n with
      | .error f => .error (pageCause f.code)
      | .ok r => .ok (touchLeaves s t.core false r.xs, r.places.map (placeSeen s t))
    else .ok (s, engineSpRead s t.id o n)

/-- Bytes of its team's allocation written by an engine, through stash mappings where there are any; or the cause that forbids it. -/
def spOut (c : Issue) (s : State) (o : Nat) (l : List (BitVec 8 × Bool)) : Except Nat State :=
  match s.team? c.tm.id with
  | none => .ok s
  | some t =>
    if t.stashed o l.length then
      match resolveSpBytes s c.cx t.core c.w.sysMode .write t o l.length with
      | .error f => .error (pageCause f.code)
      | .ok r => .ok (engineSpOut (touchLeaves s t.core true r.xs) t o r.places l)
    else .ok (engineSp s t o l)

/-- STATUS written where its offset leads, in the team's allocation or through a stash mapping; a byte of an armed barrier word is not
written (09 R240, R242), nor one whose page does not translate. Log entry 37 (DEDUCED). -/
def writeStatus (s : State) (tm : Team) (o x : Nat) : State :=
  match s.team? tm.id with
  | none => s
  | some t =>
    if t.clobbers o 8 then s
    else if !(t.stashed o 8) then spWriteBoth s tm.id o (leBytes 8 x)
    else match ((s.grid? t.grid).bind fun g => s.ctx? g.ctx) with
      | none => s
      | some cx => match resolveSpBytes s cx t.core false .write t o 8 with
        | .error _ => s
        | .ok r => engineSpOut (touchLeaves s t.core true r.xs) t o r.places ((leBytes 8 x).map fun b => (b, false))

/-- STATUS, and the stamp where the operation completed and has one (11 R308). Log entry 36 (DEDUCED). -/
def finishCopy (c : Issue) (r : Done) (so stampAddr stampVal : Nat) : State :=
  if r.code = 1 ∧ stampAddr ≠ 0 then
    match translateSpan r.s c.cx c.tm.core c.w.sysMode .write stampAddr 8 with
    | .error f => writeStatus r.s c.tm so (copyStatus 8 (pageCause f.code) r.done)
    | .ok (locs, xs) =>
      let s := writeStatus r.s c.tm so (copyStatus 1 0 r.done)
      let s := drainFor (touchLeaves s c.tm.core true xs) c.tm.core 4
      engineWrite s c.tm.core (locs.zip ((leBytes 8 stampVal).map fun b => (b, false)))
  else writeStatus r.s c.tm so (copyStatus r.code r.field r.done)

end Sys2Proof.Machine
end

