-- ==== Sys2Proof/Machine/Keys.lean ====
section
/-! DEFINITION. Keyspaces and work lists: keys and the curve, patch tables, the instructions of major 27, the Bisector, and
binding and set-up through the SETUP doorbell (15 R357 to R386; 16 R387 to R389; 17 R390). -/

namespace Sys2Proof.Machine

/-! ## Keys and the curve (15 R357, R358, R374) -/

/-- The level of a key. -/
def keyLevel (k : Nat) : Nat := k % 32

/-- The morton number of a key. -/
def keyMorton (k : Nat) : Nat := k / 32

/-- A well-formed key of a keyspace (15 R358). -/
def keyOk (ks : Keyspace) (k : Nat) : Bool :=
  decide (keyLevel k ≤ ks.lmax) && decide (keyMorton k < 2 ^ (ks.dim * ks.lmax)) &&
    keyMorton k % 2 ^ (ks.dim * (ks.lmax - keyLevel k)) == 0

/-- The coordinate of a morton number along an axis: bit b is morton bit D·b + a. -/
def mortonAxis (d lmax m a : Nat) : Nat := ((List.range lmax).map fun b => bitsN m (d * b + a) 1 * 2 ^ b).sum

/-- The morton number of coordinates. -/
def mortonOf (d lmax : Nat) (x : Nat → Nat) : Nat :=
  ((List.range lmax).flatMap fun b => (List.range d).map fun a => bitsN (x a) b 1 * 2 ^ (d * b + a)).sum

/-- The side of a patch's box. -/
def keySide (ks : Keyspace) (k : Nat) : Nat := 2 ^ (ks.lmax - keyLevel k)

/-- The lowest coordinate of a patch's box along an axis. -/
def keyAxis (ks : Keyspace) (k a : Nat) : Nat := mortonAxis ks.dim ks.lmax (keyMorton k) a

/-- Child c of a key. -/
def keyChild (ks : Keyspace) (k c : Nat) : Nat :=
  (keyMorton k + c * 2 ^ (ks.dim * (ks.lmax - keyLevel k - 1))) * 32 + keyLevel k + 1

/-- The children of a key, in ascending child index. -/
def keyChildren (ks : Keyspace) (k : Nat) : List Nat := (List.range (2 ^ ks.dim)).map (keyChild ks k)

/-- The parent of a key above level 0. -/
def keyParent (ks : Keyspace) (k : Nat) : Nat :=
  let n := 2 ^ (ks.dim * (ks.lmax - keyLevel k + 1))
  keyMorton k / n * n * 32 + (keyLevel k - 1)

/-- The key of the box beside a key's across a face; none outside the domain (15 R371). -/
def keyBeside (ks : Keyspace) (k face : Nat) : Option Nat :=
  let axis := face / 2
  let side := keySide ks k
  let x := keyAxis ks k axis
  let y := if face % 2 = 1 then x + side else x - side
  if (face % 2 = 0 ∧ x < side) ∨ 2 ^ ks.lmax ≤ y then none
  else some (mortonOf ks.dim ks.lmax (fun a => if a = axis then y else keyAxis ks k a) * 32 + keyLevel k)

/-- Whether two patches are balance-adjacent: closed boxes that share a point, side or corner, or in three dimensions a face
or an edge (15 R374). -/
def adjacent (ks : Keyspace) (p q : Nat) : Bool :=
  let axes := List.range ks.dim
  let lo := fun a => max (keyAxis ks p a) (keyAxis ks q a)
  let hi := fun a => min (keyAxis ks p a + keySide ks p) (keyAxis ks q a + keySide ks q)
  axes.all (fun a => decide (lo a ≤ hi a)) && (ks.dim != 3 || axes.any fun a => decide (lo a < hi a))

/-! ## Patch tables (15 R360 to R362) -/

/-- The location of an address of the binding context, under the device's own authority (15 R360). -/
def keyLoc (s : State) (ks : Keyspace) (va : Nat) : Except FaultCode Nat :=
  match s.ctx? ks.bctx with
  | none => .error .xlate
  | some cx => match translate s cx unitCore true .read va with
    | .ok x => .ok x.loc
    | .error f => .error f

/-- n bytes at an address of the binding context, as a number: what an action reads has been found readable before it (15 R360).
Log entry 51 (DEDUCED). -/
def keyRead (s : State) (ks : Keyspace) (va n : Nat) : Nat :=
  match keyLoc s ks va with
  | .ok l => readHomeN s l n
  | .error _ => 0

/-- n bytes written at an address of the binding context, at their home: a key unit takes the words it writes from every other
holder (09 R262). -/
def keyWrite (s : State) (ks : Keyspace) (va : Nat) (bytes : List (BitVec 8)) : State :=
  match keyLoc s ks va with
  | .ok l => writeHome s l bytes
  | .error _ => s

/-- A slot of a patch table (15 Table 15-2). -/
structure Slot where
  key : Nat
  kind : Nat
  target : Nat
  payload : Nat
  level : Nat
  cost : Nat
  claims : Nat
  deriving DecidableEq, Repr

/-- An empty slot. -/
def Slot.empty : Slot := ⟨0, 0, 0, 0, 0, 0, 0⟩

/-- Base, owner, log2 of the slot count and live count of a sector. -/
def Keyspace.sector (ks : Keyspace) (j : Nat) : Nat × Nat × Nat × Nat := ks.sectors.getD j (0, 0, 0, 0)

/-- Slots of a sector's table. -/
def Keyspace.cap (ks : Keyspace) (j : Nat) : Nat := 2 ^ (ks.sector j).2.2.1

/-- The address of a slot. -/
def Keyspace.slotVa (ks : Keyspace) (j i : Nat) : Nat := (ks.sector j).1 + 32 * i

/-- A slot read. -/
def readSlot (s : State) (ks : Keyspace) (j i : Nat) : Slot :=
  let va := ks.slotVa j i
  let w1 := keyRead s ks (va + 8) 8
  let w2 := keyRead s ks (va + 16) 8
  let w3 := keyRead s ks (va + 24) 8
  ⟨keyRead s ks va 8, bitsN w1 0 2, bitsN w1 2 10, bitsN w2 0 52, bitsN w2 52 5, bitsN w3 0 32, bitsN w3 32 16⟩

/-- A slot written. Log entry 52 (DEDUCED). -/
def writeSlot (s : State) (ks : Keyspace) (j i : Nat) (x : Slot) : State :=
  keyWrite s ks (ks.slotVa j i) (leBytes 8 x.key ++ leBytes 8 (x.kind + x.target * 4) ++ leBytes 8 (x.payload + x.level * 2 ^ 52) ++
    leBytes 8 (x.cost + x.claims * 2 ^ 32))

/-- The home position of a key in a sector's table (15 R362). -/
def homePos (ks : Keyspace) (j k : Nat) : Nat := k * 0x9E3779B97F4A7C15 % 2 ^ 64 / 2 ^ (64 - (ks.sector j).2.2.1)

/-- Linear probing from a slot: the slot that holds the key, or the first empty one. `fuel` bounds the slots. -/
def probe (s : State) (ks : Keyspace) (j k : Nat) : Nat → Nat → Option (Nat × Slot)
  | 0, _ => none
  | fuel + 1, i =>
    let x := readSlot s ks j i
    if x.kind = 0 ∨ x.key = k then some (i, x) else probe s ks j k fuel ((i + 1) % ks.cap j)

/-- The slots that probing for a key from a slot reads, in order. `fuel` bounds the slots. -/
def probeSlots (s : State) (ks : Keyspace) (j k : Nat) : Nat → Nat → List Nat
  | 0, _ => []
  | fuel + 1, i =>
    let x := readSlot s ks j i
    i :: if x.kind = 0 ∨ x.key = k then [] else probeSlots s ks j k fuel ((i + 1) % ks.cap j)

/-- The slot of a key in a sector's table, where the table holds it. -/
def findSlot (s : State) (ks : Keyspace) (j k : Nat) : Option (Nat × Slot) :=
  match probe s ks j k (ks.cap j) (homePos ks j k) with
  | some (i, x) => if x.kind = 0 then none else some (i, x)
  | none => none

/-- A slot inserted in a sector's table. -/
def insertSlot (s : State) (ks : Keyspace) (j : Nat) (x : Slot) : State :=
  match probe s ks j x.key (ks.cap j) (homePos ks j x.key) with
  | some (i, _) => writeSlot s ks j i x
  | none => s

/-- Backward shifting: the later slots of a probe run moved into the gap where their home position allows. -/
def shiftBack (s : State) (ks : Keyspace) (j : Nat) : Nat → Nat → Nat → State
  | 0, gap, _ => writeSlot s ks j gap Slot.empty
  | fuel + 1, gap, i =>
    let n := ks.cap j
    let x := readSlot s ks j i
    if x.kind = 0 ∨ i = gap then writeSlot s ks j gap Slot.empty
    else if (i + n - gap) % n ≤ (i + n - homePos ks j x.key) % n then shiftBack (writeSlot s ks j gap x) ks j fuel i ((i + 1) % n)
    else shiftBack s ks j fuel gap ((i + 1) % n)

/-- A key removed from a sector's table. -/
def removeKey (s : State) (ks : Keyspace) (j k : Nat) : State :=
  match findSlot s ks j k with
  | some (i, _) => shiftBack s ks j (ks.cap j) i ((i + 1) % ks.cap j)
  | none => s

/-- The slots of a sector's table that are not empty. -/
def tableSlots (s : State) (ks : Keyspace) (j : Nat) : List (Nat × Slot) :=
  ((List.range (ks.cap j)).map fun i => (i, readSlot s ks j i)).filter fun p => p.2.kind != 0

/-- Whether a table holds n slots without passing 7/8 of them (15 R362). -/
def fits (ks : Keyspace) (j n : Nat) : Bool := decide (8 * n ≤ 7 * ks.cap j)

/-! ## Sectors and lookups (15 R364, R365) -/

/-- The sector of a key. -/
def sectorOf (ks : Keyspace) (k : Nat) : Nat := ks.cuts.countP fun c => decide (c ≤ k)

/-- Whether a key lies in a range in transit (15 R379). -/
def inTransit (ks : Keyspace) (k : Nat) : Bool :=
  match ks.rebalance.bind (·.move) with
  | some m => decide (min m.old m.target ≤ k) && decide (k < max m.old m.target)
  | none => false

/-- The live slot of a key: sector, position and slot, reached through a stub where the patch has been handed over. -/
def findLive (s : State) (ks : Keyspace) (k : Nat) : Option (Nat × Nat × Slot) :=
  let j := sectorOf ks k
  match findSlot s ks j k with
  | none => none
  | some (i, x) =>
    if x.kind = 1 then some (j, i, x)
    else if x.kind = 2 then
      match findSlot s ks x.target k with
      | some (i', y) => if y.kind = 1 then some (x.target, i', y) else none
      | none => none
    else none

/-- The lookup word of a key (15 Table 15-3). -/
def lookupWord (ks : Keyspace) (k : Nat) (present : Bool) (rel children : Nat) : Nat :=
  let j := sectorOf ks k
  (if present then 1 else 0) + rel * 2 + children * 16 + (if inTransit ks k then 256 else 0) +
    (ks.sector j).2.1 * 2 ^ 9 + j * 2 ^ 18 + ks.gen % 2 ^ 32 * 2 ^ 32

/-- The live patches of a keyspace: key, sector, position, slot. -/
def livePatches (s : State) (ks : Keyspace) : List (Nat × Nat × Nat × Slot) :=
  (List.range ks.sectors.length).flatMap fun j =>
    ((tableSlots s ks j).filter fun p => p.2.kind == 1).map fun p => (p.2.key, j, p.1, p.2)

/-- The keyspace bound as k in a partition. -/
def State.keyspace? (s : State) (part k : Nat) : Option Keyspace := s.keyspaces.find? fun x => x.part == part && x.k == k

/-- A bound keyspace's registers written back. -/
def State.setKeyspace (s : State) (ks : Keyspace) : State :=
  { s with keyspaces := s.keyspaces.map fun x => if x.part = ks.part ∧ x.k = ks.k then ks else x }

/-- A sector's live count changed. -/
def Keyspace.addLive (ks : Keyspace) (j : Nat) (d : Int) : Keyspace :=
  let x := ks.sector j
  { ks with sectors := ks.sectors.set j (x.1, x.2.1, x.2.2.1, ((x.2.2.2 : Int) + d).toNat) }

/-- FREETOP and LIVE_j written to the descriptor as part of a step (15 R360). -/
def writeCounts (s : State) (ks : Keyspace) : State :=
  let sec := partSecure s ks.part
  (List.range ks.sectors.length).foldl (fun s j => physPut s sec (ks.desc + 0x4C + 16 * j) 4 (ks.sector j).2.2.2)
    (physPut s sec (ks.desc + 0x1C) 4 ks.freeTop)

/-- GEN and the cuts written to the descriptor. -/
def writeCuts (s : State) (ks : Keyspace) : State :=
  let sec := partSecure s ks.part
  (ks.cuts.zip (List.range ks.cuts.length)).foldl
    (fun s c => physPut s sec (ks.desc + 0x40 + 16 * ks.sectors.length + 8 * c.2) 8 c.1)
    (physPut s sec (ks.desc + 0x20) 8 ks.gen)

/-! ## Refine and coarsen (15 R373 to R375) -/

/-- The status of an outcome code. -/
def keyCode (n : Nat) : Nat := n * 32 + 31

/-- The sectors of some keys, with how many of the keys each holds. -/
def perSector (ks : Keyspace) (l : List Nat) : List (Nat × Nat) :=
  (l.map (sectorOf ks)).dedup.map fun j => (j, l.countP fun k => sectorOf ks k == j)

/-- Whether every table keeps within 7/8 when some keys are removed and others inserted. -/
def tablesFit (s : State) (ks : Keyspace) (out inn : List Nat) : Bool :=
  (perSector ks inn).all fun p => fits ks p.1 ((tableSlots s ks p.1).length - (out.countP fun k => sectorOf ks k == p.1) + p.2)

/-- The lowest key of a list. -/
def lowest : List Nat → Option Nat
  | [] => none
  | k :: l => some (l.foldl min k)

/-- Keys removed and slots inserted, with the live counts they change. -/
def exchange (s : State) (ks : Keyspace) (out : List Nat) (inn : List Slot) : State × Keyspace :=
  let s := out.foldl (fun s k => removeKey s ks (sectorOf ks k) k) s
  let s := inn.foldl (fun s x => insertSlot s ks (sectorOf ks x.key) x) s
  (s, inn.foldl (fun ks x => ks.addLive (sectorOf ks x.key) 1) (out.foldl (fun ks k => ks.addLive (sectorOf ks k) (-1)) ks))

/-- krefine of one key: the state and the status (15 R373 to R375). -/
def refineKey (s : State) (ks : Keyspace) (k : Nat) : State × Nat :=
  let kids := keyChildren ks k
  let n := kids.length
  match findLive s ks k with
  | none => (s, keyCode 1)
  | some (_, _, x) =>
    if keyLevel k = ks.lmax then (s, keyCode 2)
    else if 0 < x.claims then (s, keyCode 3)
    else if (k :: kids).any (inTransit ks) then (s, keyCode 4)
    else if ks.freeTop < n - 1 then (s, keyCode 5)
    else if !(tablesFit s ks [k] kids) then (s, keyCode 6)
    else match lowest (((livePatches s ks).filter fun p => adjacent ks k p.1 && decide (keyLevel p.1 < keyLevel k)).map (·.1)) with
      | some q => (s, q)
      | none =>
        let slots := (kids.zip (List.range n)).map fun p =>
          let pay := if p.2 = 0 then x.payload else bitsN (keyRead s ks (ks.freeBase + 8 * (ks.freeTop - p.2)) 8) 0 52
          (⟨p.1, 1, 0, pay, keyLevel k + 1, x.cost / n + (if p.2 = 0 then x.cost % n else 0), 0⟩ : Slot)
        let r := exchange s ks [k] slots
        let ks := { r.2 with freeTop := ks.freeTop - (n - 1) }
        (writeCounts (r.1.setKeyspace ks) ks, keyCode 0)

/-- kcoarsen of one key: the state and the status (15 R373 to R375). -/
def coarsenKey (s : State) (ks : Keyspace) (k : Nat) : State × Nat :=
  if keyLevel k = ks.lmax then (s, keyCode 2) else
  let kids := keyChildren ks k
  let n := kids.length
  let live := kids.filterMap fun c => (findLive s ks c).map (·.2.2)
  if live.length < n then (s, keyCode 1)
  else if live.any fun x => decide (0 < x.claims) then (s, keyCode 3)
  else if (k :: kids).any (inTransit ks) then (s, keyCode 4)
  else if ks.freeCap < ks.freeTop + (n - 1) then (s, keyCode 5)
  else if !(tablesFit s ks kids [k]) then (s, keyCode 6)
  else match lowest (((livePatches s ks).filter fun p =>
      adjacent ks k p.1 && !(kids.contains p.1) && decide (keyLevel k + 1 < keyLevel p.1)).map (·.1)) with
    | some q => (s, q)
    | none =>
      let s := ((live.drop 1).zip (List.range (n - 1))).foldl
        (fun s p => keyWrite s ks (ks.freeBase + 8 * (ks.freeTop + p.2)) (leBytes 8 p.1.payload)) s
      let r := exchange s ks kids
        [⟨k, 1, 0, ((live.head?).map (·.payload)).getD 0, keyLevel k, min (2 ^ 32 - 1) (live.map (·.cost)).sum, 0⟩]
      let ks := { r.2 with freeTop := ks.freeTop + (n - 1) }
      (writeCounts (r.1.setKeyspace ks) ks, keyCode 0)

/-! ## The other key instructions (15 R370 to R372, R376) -/

/-- kneigh: the pair it writes (15 R371). -/
def neighKey (s : State) (ks : Keyspace) (k face : Nat) : Nat × Nat :=
  let gen := ks.gen % 2 ^ 32 * 2 ^ 32
  let addr := fun (p : Nat × Nat × Slot) => ks.slotVa p.1 p.2.1 + 16
  match keyBeside ks k face with
  | none => (0, gen + 3 * 2)
  | some n =>
    match findLive s ks n with
    | some p => (addr p, lookupWord ks n true 0 0)
    | none =>
      let up := if 0 < keyLevel k then findLive s ks (keyParent ks n) else none
      match up with
      | some p => (addr p, lookupWord ks (keyParent ks n) true 1 0)
      | none =>
        let kids := if keyLevel k < ks.lmax then
            ((List.range (2 ^ ks.dim)).filter fun c => bitsN c (face / 2) 1 == 1 - face % 2).map (keyChild ks n) else []
        let found := kids.map fun c => (c, findLive s ks c)
        match found.find? fun p => p.2.isSome with
        | some (c, some p) =>
          (addr p, lookupWord ks c true 2 (((found.zip (List.range 4)).map fun q => if q.1.2.isSome then 2 ^ q.2 else 0).sum))
        | _ => (0, lookupWord ks n false 4 0)

/-- kiter: the first live slot at or after a position (15 R376). Log entry 51 (DEDUCED). -/
def iterKey (s : State) (ks : Keyspace) (cursor : Nat) : Nat × Nat :=
  let j := bitsN cursor 0 10
  let pos := bitsN cursor 32 21
  match (tableSlots s ks j).find? fun p => decide (pos ≤ p.1) && p.2.kind == 1 with
  | some (i, x) => (x.key, cursor - pos * 2 ^ 32 + (i + 1) * 2 ^ 32)
  | none => (2 ^ 64 - 1, cursor)

/-- One thread's action of a key instruction: the state, and what it writes (15 R370 to R376). -/
def keyAction (s : State) (ks : Keyspace) (minor face f1 : Nat) (t : Nat) (key amount : Word) : State × List RegWrite :=
  let k := key.toNat
  let out := fun (x : Nat) => [RegWrite.v f1 t (BitVec.ofNat 64 x)]
  let pair := fun (p : Nat × Nat) => [RegWrite.v f1 t (BitVec.ofNat 64 p.1), RegWrite.v (f1 + 1) t (BitVec.ofNat 64 p.2)]
  let upd := fun (f : Slot → Slot) => match findLive s ks k with
    | some (j, i, x) => writeSlot s ks j i (f x)
    | none => s
  match minor with
  | 0 => let r := refineKey s ks k; (r.1, out r.2)
  | 1 => let r := coarsenKey s ks k; (r.1, out r.2)
  | 2 => (s, pair (neighKey s ks k face))
  | 3 => (s, out (lookupWord ks k (findLive s ks k).isSome 0 0))
  | 4 => (upd fun x => { x with
      cost := (max 0 (min (2 ^ 32 - 1) ((x.cost : Int) + toSigned 32 amount.toNat))).toNat }, [])
  | 5 => match findLive s ks k with
    | none => (s, out 1)
    | some (_, _, x) => if x.claims < 65535 then (upd fun x => { x with claims := x.claims + 1 }, out x.payload) else (s, out 2)
  | 6 => (upd fun x => { x with claims := x.claims - 1 }, [])
  | _ => (s, pair (iterKey s ks k))

/-! ## Issue of the key instructions (15 R366, R368) -/

/-- The reads of the slots of a probe for a key in a sector's table. -/
def probeReads (s : State) (ks : Keyspace) (j k : Nat) : List (Nat × Nat) :=
  (probeSlots s ks j k (ks.cap j) (homePos ks j k)).map fun i => (ks.slotVa j i, 32)

/-- The reads of the lookup of a key: its probe, and through a stub the probe in the sector that has it (15 R362, R370). -/
def lookupReads (s : State) (ks : Keyspace) (k : Nat) : List (Nat × Nat) :=
  let j := sectorOf ks k
  probeReads s ks j k ++ match findSlot s ks j k with
    | some (_, x) => if x.kind = 2 then probeReads s ks x.target k else []
    | none => []

/-- The reads of a probe run from a slot to its empty end: what backward shifting looks at (15 R362). -/
def runReads (s : State) (ks : Keyspace) (j : Nat) : Nat → Nat → List (Nat × Nat)
  | 0, _ => []
  | fuel + 1, i => (ks.slotVa j i, 32) :: if (readSlot s ks j i).kind = 0 then [] else runReads s ks j fuel ((i + 1) % ks.cap j)

/-- The reads that take keys out of their tables and put others in (15 R362). -/
def exchangeReads (s : State) (ks : Keyspace) (out inn : List Nat) : List (Nat × Nat) :=
  (out.flatMap fun k => match findSlot s ks (sectorOf ks k) k with
    | some (i, _) => runReads s ks (sectorOf ks k) (ks.cap (sectorOf ks k)) i
    | none => []) ++ inn.flatMap fun k => probeReads s ks (sectorOf ks k) k

/-- The reads of the slots that fail a balance check (15 R374). -/
def offenderReads (s : State) (ks : Keyspace) (p : Nat → Bool) : List (Nat × Nat) :=
  ((livePatches s ks).filter fun x => p x.1).map fun x => (ks.slotVa x.2.1 x.2.2.1, 32)

/-- The lookups of some keys up to the first that finds no live patch. -/
def readsUntilAbsent (s : State) (ks : Keyspace) : List Nat → List (Nat × Nat)
  | [] => []
  | k :: l => lookupReads s ks k ++ if (findLive s ks k).isSome then readsUntilAbsent s ks l else []

/-- Whether a status of a refine or coarsen comes from a check before the balance check (15 R373). -/
def earlyCode (st : Nat) : Bool := st % 32 == 31 && st != keyCode 0

/-- What one thread's action reads, in order: nothing past the check that ends it (15 R370 to R376). Log entry 51 (DEDUCED). -/
def keyReads (s : State) (ks : Keyspace) (minor face k : Nat) : List (Nat × Nat) :=
  let n := 2 ^ ks.dim
  match minor with
  | 0 =>
    let st := (refineKey s ks k).2
    lookupReads s ks k ++ if earlyCode st then [] else
      offenderReads s ks (fun p => adjacent ks k p && decide (keyLevel p < keyLevel k)) ++
      if st = keyCode 0 then
        ((List.range (n - 1)).map fun i => (ks.freeBase + 8 * (ks.freeTop - 1 - i), 8)) ++ exchangeReads s ks [k] (keyChildren ks k)
      else []
  | 1 =>
    if keyLevel k = ks.lmax then [] else
    let st := (coarsenKey s ks k).2
    let kids := keyChildren ks k
    readsUntilAbsent s ks kids ++ if earlyCode st then [] else
      offenderReads s ks (fun p => adjacent ks k p && !(kids.contains p) && decide (keyLevel k + 1 < keyLevel p)) ++
      if st = keyCode 0 then exchangeReads s ks kids [k] else []
  | 2 => match keyBeside ks k face with
    | none => []
    | some q =>
      let up := 0 < keyLevel k ∧ (findLive s ks (keyParent ks q)).isSome
      lookupReads s ks q ++ if (findLive s ks q).isSome then [] else
        (if 0 < keyLevel k then lookupReads s ks (keyParent ks q) else []) ++
        if up ∨ ks.lmax ≤ keyLevel k then []
        else ((List.range n).filter fun c => bitsN c (face / 2) 1 == 1 - face % 2).flatMap fun c => lookupReads s ks (keyChild ks q c)
  | 7 =>
    let j := bitsN k 0 10
    let pos := bitsN k 32 21
    let l := (List.range (ks.cap j - pos)).map (pos + ·)
    let before := l.takeWhile fun i => (readSlot s ks j i).kind != 1
    (l.take (before.length + 1)).map fun i => (ks.slotVa j i, 32)
  | _ => lookupReads s ks k

/-- The first read of a list whose page may not be used (15 R360). -/
def pageBlocked (s : State) (ks : Keyspace) (l : List (Nat × Nat)) : Option (FaultCode × Nat) :=
  l.findSome? fun r => match keyLoc s ks r.1 with
    | .error f => some (f, r.1)
    | .ok _ => none

/-- The first read of a list that meets a poisoned or lost word (19 R426). -/
def markBlocked (s : State) (ks : Keyspace) (l : List (Nat × Nat)) : Option (Mark × Nat) :=
  l.findSome? fun r => match keyLoc s ks r.1 with
    | .error _ => none
    | .ok loc =>
      match [markAt s loc, markAt s (loc + r.2 - 1)].find? (· != .ok) with
      | some m => some (m, r.1)
      | none => none

/-- The fault of a marked word. -/
def Mark.fault : Mark → FaultCode
  | .lost => .lost
  | _ => .poison

/-- The ranges that an action reads and may write: what it reads, the entries it pushes, and the counts in the descriptor
(09 R257, R262). -/
def actionRngs (s : State) (ks : Keyspace) (minor : Nat) (l : List (Nat × Nat)) : List Rng :=
  let push := if minor = 1 then (List.range (2 ^ ks.dim - 1)).map fun i => (ks.freeBase + 8 * (ks.freeTop + i), 8) else []
  let counts := if minor ≤ 1 then (ks.desc + 0x1C, 4) :: (List.range ks.sectors.length).map fun j => (ks.desc + 0x4C + 16 * j, 4) else []
  ((l ++ push).filterMap fun r => match keyLoc s ks r.1 with
    | .ok loc => some ⟨none, loc, r.2⟩
    | .error _ => none) ++ counts.map fun r => ⟨none, s.here r.1, r.2⟩

/-- Whether an action of a key instruction writes memory: all but kneigh, kowner and kiter. -/
def keyWrites (minor : Nat) : Bool := minor ≤ 1 || minor == 4 || minor == 5 || minor == 6

/-- The words that a key instruction may write, which are its key unit's from issue on (09 R262). Log entry 35 (DESIGN CHOICE). -/
def keyDests (s : State) (ks : Keyspace) (minor face : Nat) (keys : List Nat) : List Rng :=
  if keyWrites minor then keys.flatMap fun k => actionRngs s ks minor (keyReads s ks minor face k) else []

/-- A key instruction set going: one action for each active thread, its faults in the order of Table 18-6 (15 R366 to R368). -/
def keyEff (s : State) (fsel : BitVec 1) (k minor face f1 f2 f3 : Nat) (dests srcs : List Nat) (ok : Bool) :
    Host.Outcome State Fault Refusal :=
  issueAs s ok 4 3 fun c =>
    let ts := threads c.mask
    let ks := c.s.keyspace? c.g.part k
    let key := fun t => (c.w.getV f2 t).toNat
    let wide := match ks with
      | some x => minor == 2 && decide (2 * x.dim ≤ face)
      | none => false
    let bad := fun (x : Keyspace) t => if minor = 7 then decide (x.sectors.length ≤ bitsN (key t) 0 10) else !(keyOk x (key t))
    guarded [illegalRegs c (dests ++ srcs) [], faultIf c wide .illegal 0, noFlag c fsel] <| flagRoom c fsel <| once c srcs [] <|
    match ks with
    | none => .error ⟨.keyspace, c.low, key c.low⟩
    | some x =>
      let good := ts.filter fun t => !(bad x t)
      guarded [good.findSome? fun t => (pageBlocked c.s x (keyReads c.s x minor face (key t))).map fun f => ⟨f.1, t, f.2⟩,
          (ts.find? (bad x)).map fun t => ⟨.keyspace, t, key t⟩, poisonRegs c srcs [] [],
          ts.findSome? fun t => (markBlocked c.s x (keyReads c.s x minor face (key t))).map fun f => ⟨f.1.fault, t, f.2⟩] <|
        let f := c.flag fsel
        let op := { c.newOp f (.key minor k face f1 (ts.map fun t => (t, c.w.getV f2 t, c.w.getV f3 t)) []) [] with
          writes := keyDests c.s x minor face (ts.map key) }
        if scoreFull c op then .ok c.stall else .ok (retireOnce c (startOp c.s op) (fun w => (w.flagUp (some f)).lvqPut op.id none) 4)

/-- krefine (15 R374). -/
def execKrefine (o : OpK12) (s : State) : Host.Outcome State Fault Refusal :=
  keyEff s o.fsel o.k.toNat 0 0 o.f1.toNat o.f2.toNat o.f2.toNat [o.f1.toNat] [o.f2.toNat] true

/-- kcoarsen (15 R374). -/
def execKcoarsen (o : OpK12) (s : State) : Host.Outcome State Fault Refusal :=
  keyEff s o.fsel o.k.toNat 1 0 o.f1.toNat o.f2.toNat o.f2.toNat [o.f1.toNat] [o.f2.toNat] true

/-- kneigh: the pair must be even, and the face one of the keyspace's (15 R371). -/
def execKneigh (o : OpKneigh) (s : State) : Host.Outcome State Fault Refusal :=
  keyEff s o.fsel o.k.toNat 2 o.face.toNat o.f1.toNat o.f2.toNat o.f2.toNat [o.f1.toNat, o.f1.toNat + 1] [o.f2.toNat]
    (evenReg o.f1 && decide (o.face.toNat < 6))

/-- kowner (15 R370). -/
def execKowner (o : OpK12) (s : State) : Host.Outcome State Fault Refusal :=
  keyEff s o.fsel o.k.toNat 3 0 o.f1.toNat o.f2.toNat o.f2.toNat [o.f1.toNat] [o.f2.toNat] true

/-- kcost (15 R372). -/
def execKcost (o : OpKcost) (s : State) : Host.Outcome State Fault Refusal :=
  keyEff s o.fsel o.k.toNat 4 0 0 o.f2.toNat o.f3.toNat [] [o.f2.toNat, o.f3.toNat] true

/-- kclaim (15 R372). -/
def execKclaim (o : OpK12) (s : State) : Host.Outcome State Fault Refusal :=
  keyEff s o.fsel o.k.toNat 5 0 o.f1.toNat o.f2.toNat o.f2.toNat [o.f1.toNat] [o.f2.toNat] true

/-- krelease (15 R372). -/
def execKrelease (o : OpFG2) (s : State) : Host.Outcome State Fault Refusal :=
  keyEff s o.fsel o.g.toNat 6 0 0 o.f2.toNat o.f2.toNat [] [o.f2.toNat] true

/-- kiter: the pair must be even (15 R376). -/
def execKiter (o : OpK12) (s : State) : Host.Outcome State Fault Refusal :=
  keyEff s o.fsel o.k.toNat 7 0 o.f1.toNat o.f2.toNat o.f2.toNat [o.f1.toNat, o.f1.toNat + 1] [o.f2.toNat] (evenReg o.f1)

/-- krebal: a rebalance started, once per issue (15 R377). Log entry 52 (DEDUCED). -/
def execKrebal (o : OpKreb) (s : State) : Host.Outcome State Fault Refusal :=
  issueAs s true 4 3 fun c =>
    let k := o.k.toNat
    guarded [noFlag c o.fsel] <| flagRoom c o.fsel <| once c [] [] <|
    guarded [faultIf c (c.s.keyspace? c.g.part k).isNone .keyspace k] <|
      let f := c.flag o.fsel
      .ok (retireOnce c (c.s.addOp (c.newOp f (.krebal k o.f1.toNat) [])) (fun w => (w.flagUp (some f)).lvqPut c.s.nextId none) 4)

/-! ## Unbinding (15 R360) -/

/-- The keyspace number that an operation works on. -/
def Op.keyOf (o : Op) : Option Nat :=
  match o.kind with
  | .key _ k _ _ _ _ => some k
  | .krebal k _ => some k
  | _ => none

/-- The partition of an operation. -/
def opPart (s : State) (o : Op) : Option Nat := (s.team? o.team).bind fun t => (s.grid? t.grid).map (·.part)

/-- SETUP of a partition set. -/
def State.setSetup (s : State) (part x : Nat) : State := s.updOut fun o => { o with setup := put 0 o.setup part x }

/-- A keyspace unbound: its registers written back, and freed (15 R360). -/
def unbind (s : State) (ks : Keyspace) : State :=
  let s := writeCuts (writeCounts s ks) ks
  ({ s with keyspaces := s.keyspaces.filter fun x => !(x.part == ks.part && x.k == ks.k) } : State).setSetup ks.part 0

/-- A requested unbinding performed, once no rebalance runs and no admitted instruction is left. -/
def tryUnbind (s : State) (part k : Nat) : State :=
  match s.keyspace? part k with
  | none => s
  | some ks =>
    if ks.unbindReq && ks.rebalance.isNone && !(s.ops.any fun o => o.keyOf == some k && opPart s o == some part) then unbind s ks
    else s

/-! ## Steps of the key units (15 R366, R367, R369) -/

/-- Whether an operation is the oldest of its keyspace or work list. -/
def oldestOf (s : State) (o : Op) (f : Op → Option Nat) : Bool :=
  !(s.ops.any fun e => decide (e.id < o.id) && f e == f o && opPart s e == opPart s o)

/-- Whether a step waits for what its wave did before it: its earlier acquires, so that the order of steps agrees with hb, and for a
release every earlier access of its wave, and whatever an engine keeps its core from performing (15 R367, Table 15-4). -/
def stepWaits (s : State) (o : Op) (rel : Bool) : Bool :=
  let early := s.ops.filter fun e => e.wave == o.wave && decide (e.id < o.id)
  let held := s.held.filter fun h => h.wave == o.wave && decide (h.op.id < o.id)
  early.any Op.isAcquire || held.any (fun h => h.op.isAcquire) ||
    (rel && (early.any (fun e => e.isCore || e.isKey) || held != [] || (match coreOf s o with
      | some core => owes s core 3 (o.horizon s)
      | none => false)))

/-- What a step that acts as a release or an acquire at .dev does for the issuing core: its stores performed before it, the
invalidations on their way delivered after it (15 R369). -/
def stepOrders (s : State) (o : Op) (rel acq : Bool) : State :=
  match coreOf s o with
  | some core =>
    let s := if rel then drainFor s core 3 else s
    if acq then fenced s o.wave core 3 else s
  | none => s

/-- An operation that has written its results: its flag counts down. -/
def finishOp (s : State) (o : Op) (done : List RegWrite) : State :=
  (s.dropOp o.id).updPair o.wave fun w => ((w.writes done).flagDown o.flag).lvqDrop o.id

/-- Whether an operation of major 27 acts as a release where it succeeds (15 Table 15-4). -/
def Op.keyReleases (o : Op) : Bool :=
  match o.kind with
  | .key minor _ _ _ _ _ => minor == 0 || minor == 1 || minor == 6
  | .list minor _ _ _ _ => minor == 9 || minor == 11
  | _ => false

/-- Whether what an action of a key instruction wrote says that it succeeded as an acquire (15 Table 15-4). -/
def keyAcquired (minor : Nat) : List RegWrite → Bool
  | [.v _ _ x] => (minor ≤ 1 && x.toNat == keyCode 0) || (minor == 5 && x.toNat % 256 == 0)
  | _ => false

/-- Whether an action has to wait: an engine operation that came before it owns a word it meets, and the action follows the engine's
write (09 R262); another team keeps a word that it may write; or a slice takes no request (09 R250). -/
def actionWaits (s : State) (o : Op) (part minor : Nat) (locs : List Nat) : Bool :=
  (s.ops.any fun e => decide (e.id < o.id) && locs.any fun l => e.writes.any fun r => r.has (.mem l)) ||
    (keyWrites minor && locs.any fun l => keptWord s o.team (l / 16)) || slicesFull s part locs

/-- One action of a key instruction performed: for a thread, or a krebal. It waits while a tenure that it recalls is in use, or an engine
owns one of its words; and a marked word that it comes to raises its fault. Log entry 51 (DEDUCED). -/
def keyStep (s : State) (o : Op) (part : Nat) : State :=
  match o.kind with
  | .krebal k f1 =>
    match s.keyspace? part k with
    | none => s
    | some ks =>
      let st := if ks.sectors.length = 1 then 2 else if ks.rebalance.isSome then 1 else 0
      let s := if st = 0 then s.setKeyspace { ks with rebalance := some ⟨false, [], none⟩ } else s
      tryUnbind (finishOp s o [.s f1 (BitVec.ofNat 64 st)]) part k
  | .key minor k face f1 ((t, key, amount) :: todo) done =>
    match s.keyspace? part k with
    | none => s
    | some ks =>
      let reads := keyReads s ks minor face key.toNat
      match markBlocked s ks reads with
      | some (m, va) => tryUnbind (lateFault s o m t va) part k
      | none =>
        let locs := rngLocs (actionRngs s ks minor reads)
        if actionWaits s o part minor locs then s else
        match recallFor s o.team (keyWrites minor) locs with
        | none => s
        | some s =>
          let s := stepOrders s o o.keyReleases false
          let r := keyAction s ks minor face f1 t key amount
          let s := stepOrders r.1 o false (keyAcquired minor r.2)
          if todo = [] then tryUnbind (finishOp s o (done ++ r.2)) part k
          else { s with ops := s.ops.map fun e => if e.id = o.id then { e with kind := .key minor k face f1 todo (done ++ r.2) } else e }
  | _ => s

/-- KEY_UNIT_STEP: one action of the oldest instruction on a keyspace, one thread after another (15 R367). -/
def execKeyUnitStep (op : Nat) (s : State) : Host.Outcome State Fault Refusal :=
  match s.op? op with
  | none => .next s
  | some o =>
    match opPart s o with
    | none => .next s
    | some part =>
      if o.keyOf.isSome && oldestOf s o Op.keyOf && !(stepWaits s o o.keyReleases) then .next (keyStep s o part) else .next s

/-! ## The Bisector (15 R377 to R381) -/

/-- The live patches of a keyspace in key order, with their costs. -/
def patchesInOrder (s : State) (ks : Keyspace) : List (Nat × Nat) :=
  ((livePatches s ks).map fun p => (p.1, p.2.2.2.cost)).mergeSort fun a b => decide (a.1 ≤ b.1)

/-- The first patch whose preceding cost reaches a share: P_i · S ≥ j · C. -/
def firstAt (n share : Nat) : List (Nat × Nat) → Nat → Option Nat
  | [], _ => none
  | (k, w) :: l, p => if share ≤ p * n then some k else firstAt n share l (p + w)

/-- t_j := max(t_j, t_(j−1) + 1), ascending. -/
def raiseCuts : Nat → List Nat → List Nat
  | _, [] => []
  | p, t :: ts => max t (p + 1) :: raiseCuts (max t (p + 1)) ts

/-- t_j := min(t_j, t_(j+1) − 1), descending. -/
def lowerCuts : List Nat → List Nat
  | [] => []
  | t :: ts =>
    let r := lowerCuts ts
    min t (r.headD (2 ^ 64) - 1) :: r

/-- The target cuts of a snapshot (15 R378). -/
def targetCuts (s : State) (ks : Keyspace) : List Nat :=
  let ps := patchesInOrder s ks
  let total := (ps.map (·.2)).sum
  let n := ks.sectors.length
  let raw := (ks.cuts.zip (List.range ks.cuts.length)).map fun c =>
    if total = 0 then c.1 else (firstAt n ((c.2 + 1) * total) ps 0).getD (2 ^ 64 - (n - (c.2 + 1)))
  lowerCuts (raiseCuts 0 raw)

/-- The moves in their order: falling cuts ascending, then rising cuts descending; each with its cut number. -/
def movesInOrder (cuts targets : List Nat) : List (Nat × Nat) :=
  let all := (cuts.zip targets).zip (List.range cuts.length)
  ((all.filter fun p => decide (p.1.2 < p.1.1)).map fun p => (p.2 + 1, p.1.2)) ++
    ((all.filter fun p => decide (p.1.1 < p.1.2)).reverse.map fun p => (p.2 + 1, p.1.2))

/-- Cut j, with the implied c_0 and c_S. -/
def cutAt (ks : Keyspace) (j : Nat) : Nat := if j = 0 then 0 else ks.cuts.getD (j - 1) (2 ^ 64)

/-- A target clamped between the neighbouring cuts plus or minus 1. Log entry 52 (DEDUCED). -/
def clampCut (ks : Keyspace) (j t : Nat) : Nat := max (cutAt ks (j - 1) + 1) (min (cutAt ks (j + 1) - 1) t)

/-- The moves left, from the first that moves its cut. -/
def movesLeft (ks : Keyspace) (l : List (Nat × Nat)) : List (Nat × Nat) := l.dropWhile fun p => clampCut ks p.1 p.2 == cutAt ks p.1

/-- A write of a Bisector at some locations: every tenure there is recalled; none while a holder is busy (09 R259). -/
def bisectorRecall (s : State) (ks : Keyspace) (l : List (Nat × Nat)) : Option State :=
  recallFor s s.nextId true (l.flatMap fun r => match keyLoc s ks r.1 with
    | .ok loc => (List.range r.2).map (loc + ·)
    | .error _ => [])

/-- The end of a rebalance: the descriptor is written back and the stamp written, a release at .dev (15 R378). -/
def finishRebalance (s : State) (ks : Keyspace) : State :=
  let ks := { ks with rebalance := none }
  let s := writeCuts (writeCounts (s.setKeyspace ks) ks) ks
  let s := if ks.rebStamp = 0 then s else keyWrite ((bisectorRecall s ks [(ks.rebStamp, 8)]).getD s) ks ks.rebStamp (leBytes 8 ks.gen)
  tryUnbind s ks.part ks.k

/-- A rebalance goes on with the moves that are left, or ends. -/
def nextMove (s : State) (ks : Keyspace) (l : List (Nat × Nat)) : State :=
  match movesLeft ks l with
  | [] => finishRebalance s ks
  | l => s.setKeyspace { ks with rebalance := some ⟨true, l, none⟩ }

/-- BISECTOR_SNAPSHOT: the target cuts are computed in one step (15 R378, 16 R387). -/
def execBisectorSnapshot (part k : Nat) (s : State) : Host.Outcome State Fault Refusal :=
  match s.keyspace? part k with
  | some ks =>
    match ks.rebalance with
    | some ⟨false, _, _⟩ => .next (nextMove s ks (movesInOrder ks.cuts (targetCuts s ks)))
    | _ => .next s
  | none => .next s

/-- CUT_ANNOUNCE: the range of the next move is in transit, and the generation rises (15 R379). -/
def execCutAnnounce (part k : Nat) (s : State) : Host.Outcome State Fault Refusal :=
  match s.keyspace? part k with
  | some ks =>
    match ks.rebalance with
    | some ⟨true, (j, t) :: l, none⟩ =>
      .next (s.setKeyspace { ks with
        gen := (ks.gen + 1) % 2 ^ 64, rebalance := some ⟨true, l, some ⟨j, cutAt ks j, clampCut ks j t, 0, none⟩⟩ })
    | _ => .next s
  | none => .next s

/-- Giving and receiving sector of a move. -/
def Move.sides (m : Move) : Nat × Nat := if m.old < m.target then (m.j, m.j - 1) else (m.j - 1, m.j)

/-- Whether a key lies in a move's range. -/
def Move.has (m : Move) (k : Nat) : Bool := decide (min m.old m.target ≤ k) && decide (k < max m.old m.target)

/-- The next patch that a move passes: position and slot in the giving sector's table. -/
def nextPatch (s : State) (ks : Keyspace) (m : Move) : Option (Nat × Slot) :=
  let l := (tableSlots s ks m.sides.1).filter fun p => p.2.kind == 1 && m.has p.2.key
  l.find? fun p => l.all fun q => if m.old < m.target then decide (p.2.key ≤ q.2.key) else decide (q.2.key ≤ p.2.key)

/-- Where a move that stops short at a patch leaves its cut (15 R380). -/
def Move.short (m : Move) (k : Nat) : Nat := if m.old < m.target then k else k + 1

/-- A move in progress changed. -/
def Keyspace.setMove (ks : Keyspace) (m : Move) : Keyspace :=
  { ks with rebalance := ks.rebalance.map fun r => { r with move := some m } }

/-- Waiting steps that a move may spend (15 R380). -/
def waitLimit : Nat := 4096

/-- PATCH_HAND_OVER: the next patch passes to the receiving sector, leaving a stub; on a claimed patch one waiting step is spent,
counted across the patches of the move, before a full table is looked at, and a full table stops the move short. A move whose waiting
steps are spent passes no more (15 R379 to R381, 16 R389). Log entry 52 (DEDUCED). -/
def execPatchHandOver (part k : Nat) (s : State) : Host.Outcome State Fault Refusal :=
  match s.keyspace? part k with
  | some ks =>
    match ks.rebalance.bind (·.move) with
    | some m =>
      if m.stop.isSome || decide (waitLimit ≤ m.waited) then .next s else
      match nextPatch s ks m with
      | none => .next s
      | some (i, x) =>
        let give := m.sides.1
        let take := m.sides.2
        if 0 < x.claims then
          .next (s.setKeyspace (ks.setMove { m with waited := m.waited + 1 }))
        else if !(fits ks take ((tableSlots s ks take).length + 1)) then
          .next (s.setKeyspace (ks.setMove { m with stop := some (m.short x.key) }))
        else
          match bisectorRecall s ks ((ks.slotVa give i, 32) :: probeReads s ks take x.key) with
          | none => .next s
          | some s =>
            let s := insertSlot s ks take x
            let s := writeSlot s ks give i ⟨x.key, 2, take, 0, 0, 0, 0⟩
            let ks := (ks.addLive give (-1)).addLive take 1
            .next (writeCounts (s.setKeyspace ks) ks)
    | none => .next s
  | none => .next s

/-- BISECTOR_STOP_SHORT: a move that has spent its 4,096 waiting steps stops short at the claimed patch on which it spent the last,
which is the next one still (15 R380). Log entry 52 (DEDUCED). -/
def execBisectorStopShort (part k : Nat) (s : State) : Host.Outcome State Fault Refusal :=
  match s.keyspace? part k with
  | some ks =>
    match ks.rebalance.bind (·.move) with
    | some m =>
      match nextPatch s ks m with
      | some (_, x) =>
        if m.stop.isNone && decide (waitLimit ≤ m.waited) then
          .next (s.setKeyspace (ks.setMove { m with stop := some (m.short x.key) }))
        else .next s
      | none => .next s
    | none => .next s
  | none => .next s

/-- CUT_COMMIT: stubs are removed, the cut set, the transit cleared and the generation raised; a rebalance without further moves
ends (15 R378, R379). -/
def execCutCommit (part k : Nat) (s : State) : Host.Outcome State Fault Refusal :=
  match s.keyspace? part k with
  | some ks =>
    match ks.rebalance with
    | some ⟨true, l, some m⟩ =>
      if m.stop.isNone && (nextPatch s ks m).isSome then .next s
      else
        let stubs := (tableSlots s ks m.sides.1).filter fun p => p.2.kind == 2 && m.has p.2.key
        let s := stubs.foldl (fun s p => removeKey s ks m.sides.1 p.2.key) s
        let ks := { ks with gen := (ks.gen + 1) % 2 ^ 64, cuts := ks.cuts.set (m.j - 1) (m.stop.getD m.target), rebalance := none }
        let s := writeCuts (s.setKeyspace ks) ks
        .next (nextMove s ks l)
    | _ => .next s
  | none => .next s

/-! ## Binding (15 R359, R360) -/

/-- The keyspace that a descriptor describes, its live counts not yet taken. -/
def keyspaceAt (s : State) (part k d : Nat) : Keyspace :=
  let f := physField s (partSecure s part)
  let n := f (d + 2) 2
  { part := part, k := k, desc := d, dim := f d 1, lmax := f (d + 1) 1, bdie := f (d + 4) 1, bctx := f (d + 6) 2
    freeBase := f (d + 0x10) 8, freeCap := f (d + 0x18) 4, freeTop := f (d + 0x1C) 4, gen := f (d + 0x20) 8
    rebStamp := f (d + 0x28) 8
    sectors := (List.range n).map fun j => (f (d + 0x40 + 16 * j) 8, f (d + 0x48 + 16 * j) 2, f (d + 0x4A + 16 * j) 1, 0)
    cuts := (List.range (n - 1)).map fun j => f (d + 0x40 + 16 * n + 8 * j) 8
    rebalance := none, unbindReq := false }

/-- Strictly rising from a bound. -/
def rising : Nat → List Nat → Bool
  | _, [] => true
  | p, x :: l => decide (p < x) && rising x l

/-- Whether a descriptor keeps Table 15-1; its reserved fields are ignored (00 R8), and FREETOP, to which the table sets no
limit, may exceed FREECAP. Log entry 53 (DEDUCED). -/
def descOk (s : State) (ks : Keyspace) : Bool :=
  let f := physField s (partSecure s ks.part)
  let d := ks.desc
  let n := f (d + 2) 2
  d % 64 == 0 && d != 0 && decide (1 ≤ ks.dim) && decide (ks.dim ≤ 3) && decide (1 ≤ ks.lmax) && decide (ks.lmax ≤ 30) &&
  decide (ks.dim * ks.lmax ≤ 59) && decide (1 ≤ n) && decide (n ≤ 1024) && decide (ks.bdie ≤ 1) &&
  f (d + 8) 4 % 256 == 0 && decide (256 ≤ f (d + 8) 4) && ks.freeBase % 8 == 0 && decide (1 ≤ ks.freeCap) && ks.rebStamp % 8 == 0 &&
  (List.range n).all (fun j =>
    let x := ks.sector j
    decide (6 ≤ x.2.2.1) && decide (x.2.2.1 ≤ 20) && x.1 % (32 * 2 ^ x.2.2.1) == 0 && decide (x.2.1 ≤ 511)) &&
  rising 0 ks.cuts

/-- The valid entries of a table of a context. -/
def tableEntries (s : State) (cx : Context) (table : Nat) : List Nat :=
  (List.range 4096).filterMap fun i => match walkEntry s cx unitCore (table + 8 * i) with
    | .ok (_, e) => if bitsN e 0 1 = 1 then some e else none
    | .error _ => none

/-- Whether a leaf translates some address of its page to a location, for the device's own authority. -/
def leafMaps (s : State) (cx : Context) (loc leaf : Nat) (large : Bool) : Bool :=
  match useLeaf s cx true .read ⟨unitCore, cx.id, 0, large, 0, leaf, []⟩ (loc % (if large then 2 ^ 28 else 2 ^ 16)) with
  | .ok x => x.loc == loc
  | .error _ => false

/-- Whether a location stands in a page that a context's tables map: a page of it translates (15 R360). Log entry 53 (DEDUCED). -/
def mapsTo (s : State) (cx : Context) (loc : Nat) : Bool :=
  (tableEntries s cx cx.root).any fun e0 => bitsN e0 9 1 == 0 && leafFields e0 == 0 &&
    (tableEntries s cx (entryPa e0)).any fun e1 =>
      if bitsN e1 9 1 = 1 then bitsN e1 16 12 == 0 && leafMaps s cx loc e1 true
      else leafFields e1 == 0 && (tableEntries s cx (entryPa e1)).any fun e2 => bitsN e2 9 1 == 0 && leafMaps s cx loc e2 false

/-- Whether the pages of a keyspace's descriptor translate in its binding context. -/
def descMapped (s : State) (ks : Keyspace) : Bool :=
  let len := 0x40 + 16 * ks.sectors.length + 8 * ks.cuts.length
  match s.ctx? ks.bctx with
  | none => false
  | some cx => (List.range ((ks.desc % 65536 + len + 65535) / 65536)).all fun i => mapsTo s cx (s.here (ks.desc / 65536 * 65536 + 65536 * i))

/-- Whether every page of a range of the binding context translates. -/
def rangeTranslates (s : State) (ks : Keyspace) (va len : Nat) : Bool :=
  match s.ctx? ks.bctx with
  | none => false
  | some cx => match translatePages s cx unitCore true .read (pageFuel len) va len with
    | .ok _ => true
    | .error _ => false

/-- Whether every page of a keyspace's descriptor, payload stack, patch tables and stamp translates. -/
def pagesOk (s : State) (ks : Keyspace) : Bool :=
  descMapped s ks && rangeTranslates s ks ks.freeBase (8 * ks.freeCap) && (ks.rebStamp == 0 || rangeTranslates s ks ks.rebStamp 8) &&
    (List.range ks.sectors.length).all fun j => rangeTranslates s ks (ks.sector j).1 (32 * ks.cap j)

/-- The dies on which a partition has clusters. -/
def partDies (p : Partition) : List Nat := (p.clusters.map (· / 64)).dedup

/-- Whether a die of a partition has no register set left: each holds 8 keyspaces in all. -/
def noRegisters (s : State) (p : Partition) : Bool :=
  (partDies p).any fun d => decide (8 ≤ (s.keyspaces.filter fun x =>
    ((s.part? x.part).map fun q => (partDies q).contains d).getD false).length)

/-- A descriptor bound as keyspace k of a partition, or refused (15 R360). Log entry 53 (DEDUCED). -/
def bindKeyspace (s : State) (p : Partition) (k : Nat) : State :=
  let ks := keyspaceAt s p.id k (physField s p.secure (get 0 s.out.ctrl p.id + 8 * k) 8)
  let ctxOk := ((s.ctx? ks.bctx).map fun c => c.part == p.id).getD false
  if decide (8 ≤ k) || (s.keyspace? p.id k).isSome || !ctxOk || !(descOk s ks) || !(pagesOk s ks) || noRegisters s p then
    s.setSetup p.id 2
  else
    let ks := (List.range ks.sectors.length).foldl (fun x j =>
      x.addLive j (((tableSlots s ks j).filter fun q => q.2.kind == 1).length : Nat)) ks
    let s := (List.range ks.sectors.length).foldl (fun s j => physPut s p.secure (ks.desc + 0x4C + 16 * j) 4 (ks.sector j).2.2.2) s
    ({ s with keyspaces := s.keyspaces ++ [ks] } : State).setSetup p.id 0

/-- SETUP code 1: bind a keyspace (15 R360). -/
def execSetupBindKeyspace (part k : Nat) (s : State) : Host.Outcome State Fault Refusal :=
  match s.part? part with
  | some p => .next (bindKeyspace s p k)
  | none => .next (s.setSetup part 2)

/-- A keyspace's unbinding asked for: pending while a rebalance or an admitted instruction is left, refused where nothing is
bound (15 R360). -/
def unbindKeyspace (s : State) (p : Partition) (k : Nat) : State :=
  match s.keyspace? p.id k with
  | none => s.setSetup p.id 2
  | some ks => tryUnbind ((s.setKeyspace { ks with unbindReq := true }).setSetup p.id 1) p.id k

/-- SETUP code 2: unbind a keyspace; an unbinding that is pending is performed once nothing holds it back (15 R360). -/
def execSetupUnbindKeyspace (part k : Nat) (s : State) : Host.Outcome State Fault Refusal :=
  match s.part? part with
  | some p => .next (unbindKeyspace s p k)
  | none => .next (s.setSetup part 2)

/-! ## Work lists (15 R382 to R384) -/

/-- Whether n bytes from a physical address lie in regions that a partition owns, in its world. -/
def ownsRange (s : State) (p : Partition) (pa n : Nat) : Bool :=
  (List.range ((pa % 2 ^ 21 + n + 2 ^ 21 - 1) / 2 ^ 21)).all fun i => tagAt s (s.here (pa / 2 ^ 21 * 2 ^ 21 + i * 2 ^ 21)) == (p.secure, p.id)

/-- The descriptor of work list n of a partition. -/
def listDesc (s : State) (p : Partition) (n : Nat) : Nat := physField s p.secure (get 0 s.out.ctrl p.id + 0x40 + 8 * n) 8

/-- Whether the descriptor of a work list keeps its limits; reserved fields are ignored (00 R8; 15 R382, 17 R390). -/
def listOk (s : State) (p : Partition) (n : Nat) : Bool :=
  let d := listDesc s p n
  let f := fun o k => physField s p.secure (d + o) k
  d != 0 && decide (n < 64) && decide (13 ≤ f 8 1) && decide (f 8 1 ≤ 28) &&
    (if bitsN (f 9 1) 0 1 = 1 then decide (6 ≤ f 0x0A 1) && decide (f 0x0A 1 ≤ 24) && ownsRange s p (f 0x10 8) (16 * 2 ^ f 0x0A 1)
      else f 0x0A 1 == 0 && f 0x10 8 == 0) &&
    f 0 8 % (8 * 2 ^ f 8 1) == 0 && ownsRange s p (f 0 8) (8 * 2 ^ f 8 1) && ownsRange s p d 32

/-- A work list set up from its descriptor, empty, or refused (15 R382). Log entry 53 (DEDUCED). -/
def setupList (s : State) (p : Partition) (n : Nat) : State :=
  if listOk s p n then
    let f := fun o k => physField s p.secure (listDesc s p n + o) k
    ({ s with lists := s.lists.filter (fun l => !(l.part == p.id && l.n == n)) ++
        [⟨p.id, n, f 8 1, bitsN (f 9 1) 0 1 == 1, f 0x0A 1, [], 0⟩] } : State).setSetup p.id 0
  else s.setSetup p.id 2

/-- SETUP code 3: set up a work list (15 R382). -/
def execSetupWorkList (part n : Nat) (s : State) : Host.Outcome State Fault Refusal :=
  match s.part? part with
  | some p => .next (setupList s p n)
  | none => .next (s.setSetup part 2)

/-- The work list n of a partition. -/
def State.list? (s : State) (part n : Nat) : Option WorkList := s.lists.find? fun l => l.part == part && l.n == n

/-- A work list written back. -/
def State.setList (s : State) (l : WorkList) : State :=
  { s with lists := s.lists.map fun x => if x.part = l.part ∧ x.n = l.n then l else x }

/-- Whether a list is full. -/
def WorkList.full (l : WorkList) : Bool := decide (2 ^ l.lcap ≤ l.keys.length)

/-- Whether a list's set has no room for a new key. -/
def WorkList.setFull (l : WorkList) : Bool := decide (7 * 2 ^ l.scap ≤ 8 * l.keys.dedup.length)

/-- One thread's action of a list instruction: the list, and what it writes (15 R384). Log entry 77 (DEDUCED). -/
def listAction (l : WorkList) (minor f1 t : Nat) (key : Word) : WorkList × List RegWrite :=
  let out := fun (x : Word) => [RegWrite.v f1 t x]
  let held := l.keys.contains key
  match minor with
  | 9 =>
    if l.full || (l.dedup && !held && l.setFull) then ({ l with dropped := min (2 ^ 32 - 1) (l.dropped + 1) }, [])
    else ({ l with keys := l.keys ++ [key] }, [])
  | 10 => match l.keys with
    | [] => (l, out (-1))
    | x :: rest => ({ l with keys := rest }, out x)
  | 11 =>
    if !l.dedup then (l, out 4)
    else if held then (l, out 1)
    else if l.full then (l, out 2)
    else if l.setFull then (l, out 3)
    else ({ l with keys := l.keys ++ [key] }, out 0)
  | _ => (l, [.s f1 (BitVec.ofNat 64 (l.keys.length + l.dropped * 2 ^ 32))])

/-- A list instruction set going (15 R366, R368). -/
def listEff (s : State) (fsel : BitVec 1) (n minor f1 : Nat) (f2 : Option Nat) (dests : List Nat) : Host.Outcome State Fault Refusal :=
  issueAs s true 4 3 fun c =>
    let ts := threads c.mask
    let srcs := f2.toList
    let key := fun t => c.w.getV (f2.getD 0) t
    guarded [illegalRegs c (dests ++ srcs) [], noFlag c fsel] <| flagRoom c fsel <| once c srcs [] <|
    guarded [faultIf c (c.s.list? c.g.part n).isNone .keyspace n,
        if f2.isSome then (ts.find? fun t => key t == -1).map fun t => ⟨.keyspace, t, (key t).toNat⟩ else none,
        poisonRegs c srcs [] []] <|
      let f := c.flag fsel
      let todo := if minor = 12 then [(0, 0)] else ts.map fun t => (t, key t)
      .ok (retireOnce c (c.s.addOp (c.newOp f (.list minor n f1 todo []) [])) (fun w => (w.flagUp (some f)).lvqPut c.s.nextId none) 4)

/-- wpush (15 R384). -/
def execWpush (o : OpWpush) (s : State) : Host.Outcome State Fault Refusal := listEff s o.fsel o.list.toNat 9 0 (some o.f2.toNat) []

/-- wpop (15 R384). -/
def execWpop (o : OpWout) (s : State) : Host.Outcome State Fault Refusal := listEff s o.fsel o.list.toNat 10 o.f1.toNat none [o.f1.toNat]

/-- wins (15 R384). -/
def execWins (o : OpWins) (s : State) : Host.Outcome State Fault Refusal :=
  listEff s o.fsel o.list.toNat 11 o.f1.toNat (some o.f2.toNat) [o.f1.toNat]

/-- wcount, once per issue: its destination is a uniform register (15 R384). -/
def execWcount (o : OpWout) (s : State) : Host.Outcome State Fault Refusal := listEff s o.fsel o.list.toNat 12 o.f1.toNat none []

/-- The work list that an operation works on. -/
def Op.listOf (o : Op) : Option Nat :=
  match o.kind with
  | .list _ n _ _ _ => some n
  | _ => none

/-- One action of a list instruction performed. Log entry 77 (DEDUCED). -/
def listStep (s : State) (o : Op) (part : Nat) : State :=
  match o.kind with
  | .list minor n f1 ((t, key) :: todo) done =>
    match s.list? part n with
    | none => s
    | some l =>
      let s := stepOrders s o o.keyReleases false
      let r := listAction l minor f1 t key
      let s := stepOrders (s.setList r.1) o false (minor == 10 && l.keys != [])
      if todo = [] then finishOp s o (done ++ r.2)
      else { s with ops := s.ops.map fun e => if e.id = o.id then { e with kind := .list minor n f1 todo (done ++ r.2) } else e }
  | _ => s

/-- WORK_LIST_STEP: one action of the oldest instruction on a list, one thread after another (15 R384). -/
def execWorkListStep (op : Nat) (s : State) : Host.Outcome State Fault Refusal :=
  match s.op? op with
  | none => .next s
  | some o =>
    match opPart s o with
    | none => .next s
    | some part =>
      if o.listOf.isSome && oldestOf s o Op.listOf && !(stepWaits s o o.keyReleases) then .next (listStep s o part) else .next s

end Sys2Proof.Machine
end

