-- ==== Sys2Proof/Machine/Window.lean ====
section
/-! DEFINITION. Pin windows and the stash: pin, unpin, smap and sunmap (09 R241 to R243, R253 to R255; 11 R316, R323). -/

namespace Sys2Proof.Machine

/-! ## Pin windows (09 R253 to R255; 11 R316) -/

/-- SLICES of a window descriptor: the serving set (11 Table 11-8). -/
def winSlices (d : List (BitVec 8)) : List Nat := (List.range (min 16 (field d 0x10 1))).map fun i => field d (0x20 + i) 1

/-- The checks of a window descriptor, in ascending offset order: the fields, and slices of the partition on this device; what its
reserved fields hold is ignored (00 R8). Log entry 43 (DESIGN CHOICE). -/
def winChecks (s : State) (part : Nat) (d : List (BitVec 8)) : List (Nat × Bool) :=
  let n := field d 0x10 1
  let sl := winSlices d
  let own := ((s.part? part).map (·.slices)).getD []
  [(0x00, field d 0 8 % 65536 == 0), (0x08, field d 8 8 % 65536 == 0 && decide (65536 ≤ field d 8 8)),
    (0x10, n == 1 || n == 2 || n == 4 || n == 8 || n == 16), (0x11, decide (1 ≤ field d 0x11 1) && decide (field d 0x11 1 ≤ 6)),
    (0x20, sl.all own.contains && decide sl.Nodup && fieldZero d (0x20 + n) (16 - n))]

/-- Capacity of a window in 64 KiB units (09 R254). -/
def winUnits (slices budget : Nat) : Nat := slices * budget * 4

/-- The words that the slices hold of some pages moved to their homes as those now are, with the requests on their way there
(09 R253, 11 R316). -/
def rehome (s : State) (part : Nat) (pages : List Nat) (back : Bool) : State :=
  let mine := fun b : CBlock => decide (512 ≤ b.cache) && decide (b.cache < 1024) && pages.contains (b.frame / 256)
  let s' : State := { s with
    blocks := s.blocks.filter fun b => !mine b
    fills := s.fills.map fun f => if pages.contains (f.frame / 256) then { f with slice := homeSlice s part (256 * f.frame) } else f }
  (s.blocks.filter mine).foldl (fun s b =>
    fillRun s (512 + homeSlice s part (256 * b.frame)) b.frame b.start b.words.length b.hint fun o =>
      match b.words.getD (o - b.start) .shared with
      | .modified => if back then .shared else .modified
      | x => x) s'

/-- Blocks of a set evicted until what windows reserve of it is free of others (09 R254). `fuel` bounds the evictions. -/
def squeeze (cache frame : Nat) : Nat → State → State
  | 0, s => s
  | fuel + 1, s =>
    let all := setBlocks s cache frame
    if decide (slotsOf (all.filter fun b => (pinOf s b).isNone) + reservedSlots s cache ≤ setSlots) && shareFits s cache frame all [] then s
    else match victimBlock s all with
      | none => s
      | some b => squeeze cache frame fuel { evictBlock s b with tick := s.tick + 1 }

/-- Every set of some slices squeezed to what windows leave of it. -/
def squeezeSlices (s : State) (slices : List Nat) : State :=
  (s.blocks.filter fun b => slices.any fun n => sameCache s b.cache (512 + n)).foldl (fun s b => squeeze b.cache b.frame 64 s) s

/-- The outcome of a pin: the state and its status (11 Table 11-9). The lowest free window number is taken. Log entry 43 (DESIGN CHOICE). -/
def pinWindow (c : Issue) (d : List (BitVec 8)) : State × Nat :=
  let part := c.g.part
  match firstBad (winChecks c.s part d) with
  | some o => (c.s, 5 + o * 2 ^ 16)
  | none =>
    match translatePages c.s c.cx c.tm.core c.w.sysMode .read (pageFuel (field d 8 8)) (field d 0 8) (field d 8 8) with
    | .error _ => (c.s, 6)
    | .ok l =>
      let pages := l.map fun p => p.2.2.loc / 65536
      let budget := field d 0x11 1
      let sl := winSlices d
      let units := winUnits sl.length budget
      if c.s.pins.any fun p => pages.any p.pages.contains then (c.s, 4) else
      match (List.range 16).find? fun n => !(c.s.pins.any fun p => p.part == part && p.num == n) with
      | none => (c.s, 3)
      | some num =>
        if sl.any fun x => decide (6 < sliceBudget c.s x + budget) then (c.s, 2)
        else if c.cx.pinLimit < c.cx.pinUsed + units then (c.s, 1)
        else
          let s := (touchLeaves c.s c.tm.core false (l.map fun p => p.2.2)).updCtx c.cx.id (fun x => { x with pinUsed := x.pinUsed + units })
          let live : State := { s with pins := s.pins ++ [⟨num, part, c.cx.id, field d 0 8, field d 8 8, budget, sl, pages⟩] }
          (rehome (squeezeSlices live sl) part pages false, num * 2 ^ 8)

/-- pin: a window goes live, or the status says why not (11 R316). -/
def execPin (o : OpY12) (s : State) : Host.Outcome State Fault Refusal :=
  issueAs s true 4 3 fun c =>
    let off := (c.w.getS o.f2.toNat).toNat
    once c [] [o.f2.toNat] <|
    withSp c off 64 off 64 none (poisonRegs c [] [o.f2.toNat] []) fun c d =>
      let r := pinWindow c d
      .ok (retireOnce c r.1 (fun w => w.setS o.f1.toNat (BitVec.ofNat 64 r.2)) 4)

/-- A window ended: its words go to their ordinary homes, the dirty ones written back first; its budget is free and USED falls
(11 R316). -/
def endWindow (s : State) (p : Pin) : State :=
  rehome { s.updCtx p.ctx (fun x => { x with pinUsed := x.pinUsed - winUnits p.slices.length p.budget }) with pins := s.pins.erase p }
    p.part p.pages true

/-- unpin: a live window of the context ends; code 7 where the number names none (11 R316). -/
def execUnpin (o : OpY12) (s : State) : Host.Outcome State Fault Refusal :=
  issueAs s true 4 3 fun c =>
    let num := (c.w.getS o.f2.toNat).toNat
    once c [] [o.f2.toNat] <|
    guarded [poisonRegs c [] [o.f2.toNat] []] <|
      match c.s.pins.find? fun p => p.ctx == c.cx.id && p.num == num with
      | some p => .ok (retireOnce c (endWindow c.s p) (fun w => w.setS o.f1.toNat 0) 4)
      | none => .ok (retireOnce c c.s (fun w => w.setS o.f1.toNat 7) 4)

/-! ## The stash (09 R241 to R243; 11 R323) -/

/-- The status of a mapping asked for; 0 where it may stand, and the lowest code where several apply (11 R323). Log entry 43 (DESIGN CHOICE). -/
def smapCode (c : Issue) (base len sp : Nat) : Nat :=
  if base % 256 ≠ 0 ∨ len % 256 ≠ 0 ∨ len < 256 ∨ 65536 < len then 1
  else if sp % 256 ≠ 0 ∨ sp < 256 ∨ c.g.launch.spBytes < sp + len then 2
  else if 8 ≤ c.tm.stash.length then 3
  else if c.tm.stash.any fun m => (decide (m.base < base + len) && decide (base < m.base + m.len)) ||
      (decide (m.spBase < sp + len) && decide (sp < m.spBase + m.len)) then 4
  else 0

/-- The pages of a range that translate for a core: virtual page, and the page it stands on. Nothing is touched. -/
def rangePages (c : Issue) (base len : Nat) : List (Nat × Nat) :=
  ((List.range ((base + len - 1) / 65536 + 1 - base / 65536)).map (base / 65536 + ·)).filterMap fun p =>
    match translate c.s c.cx c.tm.core c.w.sysMode .read (p * 65536) with
    | .ok x => some (p, x.loc / 65536)
    | .error _ => none

/-- A mapping of the team made: it stands for the trailing team too, and what the L1 holds of its words is in the stash (09 R242). -/
def mapStash (c : Issue) (base len sp : Nat) : State :=
  restash (c.tm.both.foldl (fun s t => s.updTeam t fun t => { t with stash := t.stash ++ [⟨base, len, sp, rangePages c base len⟩] }) c.s) c.tm.core

/-- smap: a mapping stands from now on; nothing is translated (11 R323). -/
def execSmap (o : OpY123) (s : State) : Host.Outcome State Fault Refusal :=
  issueAs s (evenReg o.f2) 4 3 fun c =>
    let r := c.pairRange o.f2.toNat
    let sp := (c.w.getS o.f3.toNat).toNat
    let rs := [o.f2.toNat, o.f2.toNat + 1, o.f3.toNat]
    once c [] rs <| guarded [poisonRegs c [] rs []] <|
      let code := smapCode c r.1 r.2 sp
      let s := if code = 0 then mapStash c r.1 r.2 sp else c.s
      .ok (retireOnce c s (fun w => w.setS o.f1.toNat (BitVec.ofNat 64 code)) 4)

/-- Where an address of a mapping stands: by the page it was last touched at, and otherwise by its translation. -/
def stashLoc (s : State) (cx : Context) (core : Nat) (m : Stash) (va : Nat) : Option Nat :=
  match m.pages.find? fun p => p.1 == va / 65536 with
  | some p => some (p.2 * 65536 + va % 65536)
  | none => match translate s cx core true .read va with
    | .ok x => some x.loc
    | .error _ => none

/-- One 256-byte block of a mapping written back: the allocation takes the bytes that the core sees; a block that was never touched
and whose page does not translate leaves it. -/
def unmapBlock (s : State) (cx : Context) (tm : Team) (m : Stash) (k : Nat) : State :=
  match stashLoc s cx tm.core m (m.base + 256 * k) with
  | none => s
  | some loc =>
    let l := (List.range 256).map fun i => (coreByte s tm.core (loc + i), coreMark s tm.core (loc + i) != .ok)
    let s := engineSp s tm (m.spBase + 256 * k) l
    drainCore s tm.core fun w => decide (loc / 16 ≤ w) && decide (w < loc / 16 + 16)

/-- A mapping of a team ended: its dirty words are written back, the allocation holds the last values, and the core holds its words no
longer (09 R243). Log entry 43 (DESIGN CHOICE). -/
def unmap (s : State) (cx : Context) (tm : Team) (m : Stash) : State :=
  let s := (List.range (m.len / 256)).foldl (fun s k => unmapBlock s cx tm m k) s
  unstash (tm.both.foldl (fun s t => s.updTeam t fun t => { t with stash := t.stash.filter fun x => x.spBase != m.spBase }) s) tm.core

/-- The stash mappings of a team ended, their words written back (09 R242, R243). -/
def unmapAll (s : State) (cx : Context) (team : Nat) : State :=
  match s.team? team with
  | none => s
  | some t => if t.trailing then s else t.stash.foldl (fun s m => unmap s cx t m) s

/-- Whether every store that a team's core and its interval store buffer still hold can be performed now (18 R415). -/
def storesRest (s : State) (t : Team) : Bool :=
  !(pendOwed s t.core fun _ => true) && !(cleanWaits s t.core fun _ => true) && releasable s t

/-- Whether the team has accesses in flight: a mapping ends after them. -/
def Issue.teamBusy (c : Issue) : Bool := c.s.ops.any fun e => e.team == c.tm.id && e.isCore

/-- sunmap: the mapping that begins at an offset ends (11 R323). -/
def execSunmap (o : OpY12) (s : State) : Host.Outcome State Fault Refusal :=
  issueAs s true 4 3 fun c =>
    let sp := (c.w.getS o.f2.toNat).toNat
    once c [] [o.f2.toNat] <| guarded [poisonRegs c [] [o.f2.toNat] []] <|
      match c.tm.stash.find? fun m => m.spBase == sp with
      | none => .ok (retireOnce c c.s (fun w => w.setS o.f1.toNat 5) 4)
      | some m =>
        if c.teamBusy || !(storesRest c.s c.tm) then .ok c.stall
        else .ok (retireOnce c (unmap c.s c.cx c.tm m) (fun w => w.setS o.f1.toNat 0) 4)

end Sys2Proof.Machine
end

