-- ==== Sys2Proof/Machine/Launch.lean ====
section
/-! DEFINITION. Launch queues and the dispatcher, placement and team start, the aggregator, spawn and rget, the age boost, the
watchdog, and the end of waves, teams and grids (02 R23 to R43, R57 to R60; 14 R344 to R355; 21 R462). -/

namespace Sys2Proof.Machine

/-! ## Launch queues (18 Table 18-3; 14 R344; 21 R462) -/

/-- Launch queue q of a partition. -/
def State.queue? (s : State) (part q : Nat) : Option Queue := s.queues.find? fun x => x.part == part && x.q == q

/-- A launch queue written back. -/
def State.setQueue (s : State) (x : Queue) : State :=
  { s with queues := s.queues.map fun y => if y.part = x.part ∧ y.q = x.q then x else y }

/-- The physical address of a queue's descriptor. -/
def queueDesc (s : State) (p : Partition) (q : Nat) : Nat := get 0 s.out.ctrl p.id + 0x240 + 32 * q

/-- Entries a queue holds. -/
def Queue.held (x : Queue) : Nat := (x.tail + 2 ^ 32 - x.head) % 2 ^ 32

/-- TAIL advanced by one, in the queue and in its descriptor. -/
def advanceTail (s : State) (x : Queue) : State :=
  let tail := (x.tail + 1) % 2 ^ 32
  match s.part? x.part with
  | some p => (physPut s p.secure (queueDesc s p x.q + 0x14) 4 tail).setQueue { x with tail := tail }
  | none => s

/-- QRSV_READ: a ring slot reserved; the host reads its index, bit 63 of a full queue, and bits 63 and 62 of a queue that is
not set up (21 R462). -/
def qrsvRead (s : State) (part q : Nat) : State × Nat :=
  match s.queue? part q with
  | none => (s, 2 ^ 63 + 2 ^ 62)
  | some x => if 256 ≤ x.held then (s, 2 ^ 63) else (advanceTail s x, x.tail % 256)

/-- The value that a read by the host returned. -/
def State.answer (s : State) (x : Nat) : State := s.updOut fun o => { o with readback := BitVec.ofNat 128 x }

/-- Whether the host port is open: from boot stage 4 on (21 Table 21-3). -/
def State.hostOpen (s : State) : Bool := s.out.stage == 4

/-- The partition page and the offset in it that a BAR0 offset names. -/
def partPage (off : Nat) : Option (Nat × Nat) :=
  if 0x100000 ≤ off ∧ off < 0x200000 then some ((off - 0x100000) / 0x10000, off % 0x10000) else none

/-- The context page and the offset in it. -/
def ctxPageOf (off : Nat) : Option (Nat × Nat) :=
  if 0x1000000 ≤ off ∧ off < 0x2000000 then some ((off - 0x1000000) / 0x1000, off % 0x1000) else none

/-- Whether a function of the host port sees a page: the physical one sees all, virtual function n the page of partition n and
those of its contexts (21 R461). -/
def seesPage (s : State) (fn : Option Nat) (off : Nat) : Bool :=
  match fn with
  | none => true
  | some n =>
    match partPage off, ctxPageOf off with
    | some (p, _), _ => p == n
    | _, some (c, _) => ((s.part? n).map fun p => p.ctxs.contains c).getD false
    | _, _ => false

/-- The BAR0 offset of a partition's page (21 Table 21-1). -/
def partOff (part : Nat) : Nat := 0x100000 + 0x10000 * part

/-- QRSV_READ: a page that the function does not see reads zero, and no slot is reserved (21 R461, R462). -/
def execQrsvRead (part : Nat) (q : PageRead) (s : State) : Host.Outcome State Fault Refusal :=
  if !s.hostOpen then .next s
  else if seesPage s q.fn (partOff part) then
    let r := qrsvRead s part q.index
    .next (r.1.answer r.2)
  else .next (s.answer 0)

/-- A queue read again from the control block; a RING of 0 leaves it not set up, and a descriptor that breaks its limits is
refused; what its reserved fields hold is ignored (18 Table 18-3; 21 R462; 00 R8). Log entry 54 (DEDUCED). -/
def rereadQueue (s : State) (p : Partition) (q : Nat) : State :=
  let d := queueDesc s p q
  let f := fun o n => physField s p.secure (d + o) n
  let drop : State := { s with queues := s.queues.filter fun x => !(x.part == p.id && x.q == q) }
  if 64 ≤ q then s.setSetup p.id 2
  else if f 0 8 = 0 then drop.setSetup p.id 0
  else if f 0 8 % 2048 == 0 && ownsRange s p (f 0 8) 2048 && p.ctxs.contains (f 8 2) && decide (f 0x0A 1 ≤ 7) &&
      decide ((f 0x14 4 + 2 ^ 32 - f 0x10 4) % 2 ^ 32 ≤ 256) then
    ({ drop with queues := drop.queues ++ [⟨p.id, q, f 0 8, f 8 2, f 0x0A 1, f 0x10 4, f 0x14 4, 0, none, []⟩] } : State).setSetup p.id 0
  else s.setSetup p.id 2

/-- SETUP code 4: reread a queue (21 Table 21-1). -/
def execSetupRereadQueue (part q : Nat) (s : State) : Host.Outcome State Fault Refusal :=
  match s.part? part with
  | some p => .next (rereadQueue s p q)
  | none => .next (s.setSetup part 2)

/-! ## Launch records (02 R29 to R32) -/

/-- The launch that a record's bytes describe. -/
def launchOf (d : List (BitVec 8)) : Launch where
  entry := field d 0 8
  params := field d 8 8
  gx := field d 0x10 4
  gy := field d 0x14 4
  gz := field d 0x18 4
  nthreads := field d 0x20 8
  waves := field d 0x28 1
  stages := field d 0x29 1
  stageDepth := field d 0x2A 1
  vregs := field d 0x2B 1
  accs := field d 0x2C 1
  gang := field d 0x2D 1
  shadow := bitsN (field d 0x2E 2) 1 1 == 1
  xredun := bitsN (field d 0x2E 2) 2 1 == 1
  recov := bitsN (field d 0x2E 2) 0 1 == 1
  spBytes := field d 0x30 4
  yieldMax := field d 0x34 1
  prio := field d 0x35 1
  keybind := if bitsN (field d 0x36 2) 15 1 = 1 then some (bitsN (field d 0x36 2) 0 3) else none
  stampAddr := field d 0x38 8
  stampVal := field d 0x40 8
  depAddr := field d 0x48 8
  depVal := field d 0x50 8
  seedBase := field d 0x58 8
  slots := (List.range 8).map fun i => field d (0x80 + 16 * i) 16

/-- Whether n bytes translate for a context outside system mode. -/
def translates (s : State) (cx : Context) (n : Need) (va len : Nat) : Bool :=
  match translateSpan s cx unitCore false n va len with
  | .ok _ => true
  | .error _ => false

/-- The checks of a launch record, in ascending offset order (02 R32, Table 02-1). Log entry 55 (DEDUCED). -/
def launchChecks (s : State) (part : Nat) (cx : Context) (d : List (BitVec 8)) : List (Nat × Bool) :=
  let l := launchOf d
  let flags := field d 0x2E 2
  let kb := field d 0x36 2
  let ws := l.waves * l.stages
  [(0x00, l.entry % 4 == 0 && translates s cx .fetch l.entry 4), (0x08, l.params % 16 == 0 && translates s cx .read l.params 1),
    (0x10, decide (1 ≤ l.gx)), (0x14, decide (1 ≤ l.gy)), (0x18, decide (1 ≤ l.gz) && decide (l.gx * l.gy * l.gz ≤ 2 ^ 32 - 1)),
    (0x1C, fieldZero d 0x1C 4), (0x20, decide (1 ≤ l.nthreads) && decide (l.nthreads ≤ 2 ^ 40)),
    (0x28, decide (1 ≤ l.waves) && decide (l.waves ≤ 32) && l.gx * l.gy * l.gz == (l.nthreads + 32 * l.waves - 1) / (32 * l.waves)),
    (0x29, decide (1 ≤ l.stages) && decide (l.stages ≤ 4) && decide (ws ≤ 32)),
    (0x2A, if l.stages = 1 then l.stageDepth == 0 else decide (2 ≤ l.stageDepth) && decide (l.stageDepth ≤ 16)),
    (0x2B, l.vregs % 8 == 0 && decide (8 ≤ l.vregs) && decide (l.vregs ≤ 64)),
    (0x2C, l.accs == 0 || l.accs == 4 || l.accs == 8 || l.accs == 16),
    (0x2D, l.gang == 0 || l.gang == 2 || l.gang == 3 || l.gang == 4),
    (0x2E, bitsN flags 3 13 == 0 && !(l.shadow && decide (16 < ws)) && !(l.shadow && l.xredun) &&
      (!l.xredun || l.gang == 0 || l.gang == 2)),
    (0x30, l.spBytes % 256 == 0 && decide (256 ≤ l.spBytes) && decide (l.spBytes ≤ 262144)), (0x34, decide (l.yieldMax ≤ 15)),
    (0x35, decide (l.prio ≤ 7)),
    (0x36, bitsN kb 3 12 == 0 && (match l.keybind with
      | some k => (s.keyspace? part k).isSome
      | none => true)),
    (0x38, l.stampAddr % 8 == 0 && (l.stampAddr == 0 || translates s cx .write l.stampAddr 8)),
    (0x48, l.depAddr % 8 == 0 && (l.depAddr == 0 || translates s cx .read l.depAddr 8)),
    (0x60, fieldZero d 0x60 32)]

/-- The locations of a launch record in a queue's context; none where the address is no multiple of 64 or does not
translate. -/
def recordLocs (s : State) (cx : Context) (addr : Nat) : Option (List Nat) :=
  if addr % 64 ≠ 0 then none else
  match translateSpan s cx unitCore false .read addr 256 with
  | .ok (locs, _) => some locs
  | .error _ => none

/-- The offset of the first field that forbids a launch: a failing check, or a word that is poisoned or lost. Log entry 24 (DEDUCED). -/
def launchBad (s : State) (part : Nat) (cx : Context) (locs : List Nat) (d : List (BitVec 8)) : Option Nat :=
  let word := ((List.range 16).find? fun i => markAt s (locs.getD (16 * i) 0) != .ok).map (16 * ·)
  match firstBad (launchChecks s part cx d), word with
  | some a, some b => some (min a b)
  | some a, none => some a
  | none, b => b

/-! ## Judging and taking (14 R344, R345; 02 R31) -/

/-- The ring entry at a queue's head; 0 where it is empty or not yet written. -/
def headEntry (s : State) (x : Queue) : Nat := if x.held = 0 then 0 else physField s (partSecure s x.part) (x.ring + 8 * (x.head % 256)) 8

/-- Whether a dependence is met: no address, an address that does not translate, or a value that has come far enough. Log entry 24 (DEDUCED). -/
def depMet (s : State) (cx : Context) (addr val : Nat) : Bool :=
  addr == 0 ||
  (match translateSpan s cx unitCore false .read addr 8 with
    | .error _ => true
    | .ok (locs, _) =>
      let loc := locs.headD 0
      markAt s loc == .ok && decide (val ≤ readHomeN s loc 8))

/-- Whether the head of a queue is ready (02 R31, 14 R344, 21 R462). Log entry 55 (DEDUCED). -/
def headReady (s : State) (x : Queue) : Bool :=
  let e := headEntry s x
  e != 0 && (match s.ctx? x.ctx with
    | none => false
    | some cx => match recordLocs s cx e with
      | none => true
      | some locs =>
        let d := locs.map (readHome s)
        depMet s cx (field d 0x48 8) (field d 0x50 8))

/-- The number of the next head of a partition to become ready. -/
def nextReady (s : State) (part : Nat) : Nat :=
  (s.queues.filter fun x => x.part == part).foldl (fun m x => max m (x.readyAt.elim 0 (· + 1))) 0

/-- Every queue's head judged: one that has become ready stands behind those of its partition that were ready already, beside those that
became ready with it; one that is no longer ready has no place (02 R31; 14 R344, R345). Log entry 56 (DESIGN CHOICE). -/
def noteReady (s : State) : State :=
  { s with queues := s.queues.map fun x =>
      { x with readyAt := if headReady s x then some (x.readyAt.getD (nextReady s x.part)) else none } }

/-- The best of a list of ready queues: the earliest; among equals a free choice (log entry 2). Log entry 56 (DESIGN CHOICE). -/
def earliest (s : State) (l : List Queue) : Option Queue :=
  let t := l.foldl (fun m x => min m (x.readyAt.getD 0)) ((l.head?.bind (·.readyAt)).getD 0)
  let best := l.filter fun x => x.readyAt == some t
  best[Config.choice s.tick % best.length]?

/-- The queue whose head is taken: one passed over by 16 takes first; otherwise the highest level (14 R345). -/
def takeFrom (s : State) (part : Nat) : Option Queue :=
  let ready := s.queues.filter fun x => x.part == part && x.readyAt.isSome
  let late := ready.filter fun x => decide (16 ≤ x.passed)
  if late ≠ [] then earliest s late
  else
    let top := ready.foldl (fun m x => max m x.level) 0
    earliest s (ready.filter fun x => x.level == top)

/-- The head of a queue removed: its entry is zeroed, HEAD advances, and the other ready heads have been passed over. -/
def popHead (s : State) (p : Partition) (x : Queue) : State :=
  let s := physPut s p.secure (x.ring + 8 * (x.head % 256)) 8 0
  let head := (x.head + 1) % 2 ^ 32
  let s := physPut s p.secure (queueDesc s p x.q + 0x10) 4 head
  { s with queues := s.queues.map fun y =>
      if y.part = p.id then
        (if y.q = x.q then { y with head := head, passed := 0, readyAt := none, spawned := y.spawned.filter fun n => n != x.head }
          else if y.readyAt.isSome then { y with passed := y.passed + 1 } else y)
      else y }

/-- What two records that the aggregator merges may differ in, taken away (14 R350). -/
def Launch.common (l : Launch) : Launch := { l with params := 0, nthreads := 0, stampAddr := 0, stampVal := 0, seedBase := 0 }

/-- Whether a launch is one the aggregator may merge: one team, in no gang. -/
def Launch.single (l : Launch) : Bool := l.gx == 1 && l.gy == 1 && l.gz == 1 && l.gang == 0

/-- Teams of a grid in all. -/
def Grid.total (g : Grid) : Nat := if g.merged = [] then g.launch.gx * g.launch.gy * g.launch.gz else 1 + g.merged.length

/-- Launch, record address and team index in its own launch of team u of a grid (14 R350). Log entry 57 (DEDUCED). -/
def Grid.member (g : Grid) (u : Nat) : Launch × Nat × Nat :=
  match g.merged with
  | [] => (g.launch, g.recAddr, u)
  | m => if u = 0 then (g.launch, g.recAddr, 0) else ((m.getD (u - 1) (0, g.launch)).2, (m.getD (u - 1) (g.recAddr, g.launch)).1, 0)

/-- A launch taken: a spawned child is merged into a grid that waits in the aggregator, or makes a new grid, which may wait there
itself; both are free choices (14 R350; log entry 2). Any other launch makes a new grid. Log entry 57 (DEDUCED). -/
def startGrid (s : State) (p : Partition) (x : Queue) (addr : Nat) (l : Launch) : State :=
  let host := s.grids.find? fun g => g.aggregating && g.part == p.id && g.queue == x.q && g.ctx == x.ctx &&
    decide (g.merged.length < 255) && decide (g.launch.common = l.common)
  let child := l.single && x.spawned.contains x.head
  let s1 := { s with tick := s.tick + 2 }
  match host with
  | some g =>
    if child && Config.choice s.tick % 2 == 1 then s1.updGrid g.id fun g => { g with merged := g.merged ++ [(addr, l)] }
    else { s1 with
      grids := s1.grids ++ [⟨s1.nextId, addr, x.ctx, p.id, x.q, l, .running, 0, 0, false, false, [], none, none, 0⟩]
      nextId := s1.nextId + 1 }
  | none =>
    let wait := child && Config.choice (s.tick + 1) % 2 == 1
    { s1 with
      grids := s1.grids ++ [⟨s1.nextId, addr, x.ctx, p.id, x.q, l, .running, 0, 0, false, wait, [], none, none, 0⟩]
      nextId := s1.nextId + 1 }

/-- LAUNCH_TAKE: the heads are judged, and one ready head is taken: its launch starts, or is rejected with a launch-error
record (02 R31, R32; 14 R345). A tenure that stands against the read of the record is recalled first (09 R259); a record that names an
unmet dependence once its holder's stores have come to it is not taken. -/
def execLaunchTake (part : Nat) (s : State) : Host.Outcome State Fault Refusal :=
  match s.part? part with
  | none => .next s
  | some p =>
    if p.halted || p.haltReq then .next s else
    let s := noteReady s
    match takeFrom s part with
    | none => .next s
    | some x =>
      match s.ctx? x.ctx with
      | none => .next s
      | some cx =>
        let e := headEntry s x
        match recordLocs s cx e with
        | none => .next ((popHead s p x).bump.addRec (plainRec x.ctx 4 0 none e 0 0))
        | some locs =>
          match recallFor s s.nextId false locs with
          | none => .next s
          | some s =>
            let d := locs.map (readHome s)
            let s' := (popHead s p x).bump
            if !(depMet s cx (field d 0x48 8) (field d 0x50 8)) then .next s else
            match launchBad s part cx locs d with
            | some o => .next (s'.addRec (plainRec x.ctx 4 0 none e 0 o))
            | none => .next (startGrid s' p x e (launchOf d))

/-- AGGREGATOR_RELEASE: a grid leaves the aggregator, and its teams may be placed (14 R350). Log entry 81 (DESIGN CHOICE). -/
def execAggregatorRelease (grid : Nat) (s : State) : Host.Outcome State Fault Refusal :=
  .next (s.updGrid grid fun g => { g with aggregating := false })

/-! ## Room on a core (02 R36, R37, R39) -/

/-- Whether a team's allocation still stands: while it is resident, and until its gang has ended (02 R39). -/
def allocated (s : State) (t : Team) : Bool :=
  t.state == .resident || (t.state == .ended && (match s.grid? t.grid with
    | some g => (s.teamsOf g.id).any fun x => x.t / g.gangSize == t.t / g.gangSize && x.state == .resident
    | none => false))

/-- Whether a wave occupies its slot: until it has retired, and in a recoverable launch until the interval's end (19 R430). -/
def occupies (t : Team) (w : Wave) : Bool :=
  w.state != .retired || (t.interval.recov && t.interval.shadowWaves.any fun b => b.id == w.id && b.state != .retired)

/-- Wave slots, wave-registers and wave-accumulators in use in a quadrant of a core. -/
def quadrantUse (s : State) (core q : Nat) : Nat × Nat × Nat :=
  (s.teams.filter fun t => t.core == core && t.state == .resident).foldl (fun u t =>
    match s.grid? t.grid with
    | none => u
    | some g =>
      let n := ((s.wavesOf t.id).filter fun w => quadrantOf w.w == q && occupies t w).length
      (u.1 + n, u.2.1 + n * g.launch.vregs, u.2.2 + n * g.launch.accs)) (0, 0, 0)

/-- The allocations of a core: base and length. Log entry 7 (DESIGN CHOICE). -/
def allocations (s : State) (core : Nat) : List (Nat × Nat) :=
  (s.teams.filter fun t => t.core == core && allocated s t).map fun t => (t.spBase, ((s.grid? t.grid).map (·.launch.spBytes)).getD 0)

/-- The lowest place of a core's scratchpad with n free bytes, a multiple of 4,096 (09 R239; log entry 7). -/
def freePlace (s : State) (core n : Nat) : Option Nat :=
  let l := allocations s core
  let ok := fun b => decide (b + n ≤ 262144) && l.all fun p => decide (b + n ≤ p.1) || decide (p.1 + p.2 ≤ b)
  (((0 :: l.map fun p => (p.1 + p.2 + 4095) / 4096 * 4096).filter ok).mergeSort (fun a b => decide (a ≤ b))).head?

/-- Whether waves with the given indices of a launch fit on a core (02 R36). -/
def fitsCore (s : State) (l : Launch) (ws : List Nat) (core : Nat) : Bool :=
  (List.range 4).all (fun q =>
    let n := (ws.countP fun w => quadrantOf w == q) * (if l.shadow then 2 else 1)
    let u := quadrantUse s core q
    decide (u.1 + n ≤ 16) && decide (u.2.1 + n * l.vregs ≤ 512) && decide (u.2.2 + n * l.accs ≤ 128)) &&
  (freePlace s core l.spBytes).isSome

/-- The indices of the teams that start together next: the rest of a gang, or one team. -/
def Grid.nextGroup (g : Grid) : List Nat :=
  (List.range (min g.gangSize (g.total - g.nextTeam))).map (g.nextTeam + ·)

/-- Cores that one team of a launch takes. -/
def Launch.cores (l : Launch) : Nat := if l.xredun then 2 else 1

/-- Whether cores lie in a partition, in one enabled cluster, with no other context's team there (01 R10; 02 R37; 08 R203). -/
def coresOk (s : State) (part ctx : Nat) (cores : List Nat) : Bool :=
  (match s.part? part with
    | some p => cores.all fun c => p.clusters.contains (clusterOf c) && enabled s 1 (clusterOf c)
    | none => false) &&
  decide cores.Nodup && cores.all (fun c => clusterOf c == clusterOf (cores.headD 0)) &&
  !(s.teams.any fun t => t.state == .resident && cores.any (fun c => clusterOf c == clusterOf t.core) &&
    ((s.grid? t.grid).map (·.ctx)) != some ctx)

/-- Whether a group of teams fits on cores, each team on its own one or two (02 R36, R37). -/
def groupFits (s : State) (g : Grid) (us cores : List Nat) : Bool :=
  cores.length == us.length * g.launch.cores && coresOk s g.part g.ctx cores &&
  (cores.zip (List.range cores.length)).all fun c =>
    let m := g.member (us.getD (c.2 / g.launch.cores) 0)
    fitsCore s m.1 (createdWaves m.1 m.2.2) c.1

/-- Ordered choices of n different members of a list. -/
def pick : Nat → List Nat → List (List Nat)
  | 0, _ => [[]]
  | n + 1, l => l.flatMap fun x => (pick n (l.filter (· != x))).map (x :: ·)

/-- The cores of a partition on which a group would fit, if any. Log entry 58 (DEDUCED). -/
def somewhere (s : State) (g : Grid) (us : List Nat) : Bool :=
  match s.part? g.part with
  | none => false
  | some p => p.clusters.any fun k => (pick (us.length * g.launch.cores) ((List.range 4).map (4 * k + ·))).any (groupFits s g us)

/-- Whether a grid waits for the placement of a team. -/
def Grid.waiting (g : Grid) : Bool := g.state == .running && !g.aggregating && decide (g.nextTeam < g.total)

/-- Whether a grid taken earlier must be placed first: a team of it fits, or has waited its 65,536 cycles (14 R346). -/
def placedAfter (s : State) (g : Grid) : Bool :=
  s.grids.any fun h => decide (h.id < g.id) && h.part == g.part && h.waiting && (h.expired || somewhere s h h.nextGroup)

/-- The core that owns the sector of a team's key, where the key gives a preference; a child of a merged grid has its own PARAMS
(14 R347, R350). -/
def keyOwner (s : State) (g : Grid) (u : Nat) : Option Nat :=
  let m := g.member u
  match g.launch.keybind, s.ctx? g.ctx with
  | some k, some cx =>
    match s.keyspace? g.part k, translateSpan s cx unitCore false .read (m.1.params + 8 * m.2.2) 8 with
    | some ks, .ok (locs, _) =>
      let loc := locs.headD 0
      let key := readHomeN s loc 8
      if markAt s loc = .ok ∧ keyOk ks key then some (ks.sector (sectorOf ks key)).2.1 else none
    | _, _ => none
  | _, _ => none

/-- How far a core is from the one a team prefers: that core, another of its cluster, or any. -/
def coreRank (owner : Option Nat) (core : Nat) : Nat :=
  match owner with
  | none => 0
  | some k => if core = k then 0 else if clusterOf core = clusterOf k then 1 else 2

/-- Whether a list of ranks comes before another: the first that differs is lower. -/
def rankLt : List Nat → List Nat → Bool
  | a :: l, b :: m => decide (a < b) || (a == b && rankLt l m)
  | _, _ => false

/-- The ranks of the cores of a group, team by team; a redundant team counts its leading core. -/
def groupRanks (s : State) (g : Grid) (us cores : List Nat) : List Nat :=
  (us.zip (List.range us.length)).map fun u => coreRank (keyOwner s g u.1) (cores.getD (g.launch.cores * u.2) 0)

/-- Whether cores respect the preference of a keyspace-bound group: no cores on which it fits come before them, the lowest team
first (14 R347). Log entry 58 (DEDUCED). -/
def prefers (s : State) (g : Grid) (us cores : List Nat) : Bool :=
  g.launch.keybind.isNone || (match s.part? g.part with
    | none => true
    | some p => !(p.clusters.any fun k => (pick (us.length * g.launch.cores) ((List.range 4).map (4 * k + ·))).any fun l =>
        rankLt (groupRanks s g us l) (groupRanks s g us cores) && groupFits s g us l))

/-! ## Team start (02 R40, R41; 08 R203; 19 R444, R447) -/

/-- A cluster cleared for a context other than the last one placed there (08 R203). -/
def clearCluster (s : State) (cluster ctx : Nat) : State :=
  let k := s.cluster cluster
  if k.lastCtx = some ctx then s
  else s.setCluster ⟨cluster, [], [], [], [], [], k.epoch + 1, some ctx⟩

/-! ## The shadow stores (18 R416, R419; 19 R430) -/

/-- Bytes of the shadow store of a cluster (01 Table 01-3). -/
def shadowRoom : Nat := 6 * 2 ^ 20

/-- Bytes of a team's image, or of its shadow copy: its declared registers and accumulators and its scratchpad (18 R419, 19 R430). -/
def imageBytes (s : State) (t : Team) : Nat :=
  match s.grid? t.grid with
  | none => 0
  | some g => (createdCount g.launch (g.member t.t).2.2) * (256 * g.launch.vregs + 512 * g.launch.accs) + g.launch.spBytes

/-- Bytes of a cluster's shadow store in use: the images kept there, that of a cross-core group being the leading team's alone, and the
shadow copies of recoverable teams (18 R416; 19 R430; 20 R456). -/
def shadowUse (s : State) (cluster : Nat) : Nat :=
  ((s.teams.filter fun t => clusterOf t.core == cluster &&
    ((t.state == .saved && t.area.isNone && !t.trailing) || (t.state == .resident && t.interval.recov))).map (imageBytes s)).sum

/-- The context of a team. -/
def teamCtx (s : State) (t : Team) : Option Context := (s.grid? t.grid).bind fun g => s.ctx? g.ctx

/-- The lowest physical address of a context's SAVEAREA past its hull directory and the images that stand there. -/
def areaTop (s : State) (cx : Context) : Nat :=
  (s.teams.filter fun t => t.state == .saved && ((teamCtx s t).map (·.id)) == some cx.id).foldl (fun top t => match t.area with
    | some (pa, n) => max top (pa + 4096 * Config.imageBlocks n)
    | none => top) (cx.saveArea + 4096)

/-- The bytes of the image with a number. -/
def areaImage (n : Nat) : List (BitVec 8) := (List.range (4096 * Config.imageBlocks n)).map (Config.imageByte n)

/-- The image of a saved team moved whole from the shadow store to its context's SAVEAREA, past the hull directory (18 R416; 19 R438).
Log entry 60 (DEDUCED). -/
def moveOut (s : State) (team : Nat) : State :=
  match s.team? team with
  | none => s
  | some t =>
    match teamCtx s t with
    | some cx =>
      if t.state ≠ .saved ∨ t.trailing ∨ t.area.isSome then s else
      let pa := areaTop s cx
      let img := areaImage s.nextId
      let s' := if physOk s (secureCtx s cx) pa img.length then writeHome s (s.here pa) img else s
      { s' with nextId := s.nextId + 1 }.updTeam team fun t => { t with area := some (pa, s.nextId) }
    | none => s

/-- The images of the saved teams of some clusters moved out. -/
def moveImages (s : State) (here : Nat → Bool) : State :=
  ((s.teams.filter fun t => here (clusterOf t.core)).map (·.id)).foldl moveOut s

/-- Images moved whole from a cluster's shadow store to SAVEAREA until what it holds has room (18 R416). Which images Apex firmware moves
is open. Log entry 60 (DEDUCED). -/
def spillImages (s : State) (cluster : Nat) : State :=
  ((s.teams.filter fun t => clusterOf t.core == cluster).map (·.id)).foldl (fun s t =>
    if shadowUse s cluster ≤ shadowRoom then s else moveOut s t) s

/-- The teams and waves of team u of a grid as they start on a core, in a redundant launch with the trailing waves, which in a cross-core
group are another team's on the core `trail`; and the number after those that they take (02 R40, R41; 19 R444, R447). -/
def freshTeams (s : State) (g : Grid) (u core : Nat) (trail : Option Nat) : List Team × List Wave × Nat :=
  let m := g.member u
  let l := m.1
  let ws := createdWaves l m.2.2
  let id := s.nextId
  let two := l.shadow || l.xredun
  let other := if l.xredun then id + 1 else id
  let lead := fun i => id + 2 + (if two then 2 * i else i)
  let waves := (ws.zip (List.range ws.length)).flatMap fun w =>
    newWave (lead w.2) id l m.2.2 w.1 (if two then .leader (lead w.2 + 1) else .solo) ::
      (if two then [newWave (lead w.2 + 1) other l m.2.2 w.1 (.trailer (lead w.2))] else [])
  let mk := fun id core peer trailing =>
    let t := newTeam id g.id core l m.2.2 peer trailing
    firstShadow { t with t := u, spBase := (freePlace s core l.spBytes).getD 0 } (waves.filter fun w => w.team == id)
  let teams := match trail with
    | some c => if l.xredun then [mk id core (some other) false, mk other c (some id) true] else [mk id core none false]
    | none => [mk id core none false]
  (teams, waves, id + 2 + 2 * ws.length)

/-- One team started on a core, and in a redundant launch its trailing waves; the launch start is an acquire at .dev (10 Table 10-2). -/
def startTeam (s : State) (g : Grid) (u core : Nat) (trail : Option Nat) : State :=
  let f := freshTeams s g u core trail
  let s := (core :: trail.toList).foldl (fun s c => freshen { clearCluster s (clusterOf c) g.ctx with gated := del s.gated c } c) s
  spillImages { s with teams := s.teams ++ f.1, waves := s.waves ++ f.2.1, nextId := f.2.2 } (clusterOf core)

/-- TEAM_PLACE: the next team of a grid, or its next gang, starts on the cores named (02 R36, R37; 14 R346, R347). Log entry 58 (DEDUCED). -/
def execTeamPlace (grid : Nat) (cores : List Nat) (s : State) : Host.Outcome State Fault Refusal :=
  match s.grid? grid with
  | none => .next s
  | some g =>
    let us := g.nextGroup
    let stopped := ((s.part? g.part).map fun p => p.halted || p.haltReq).getD true
    if g.waiting && !stopped && !(placedAfter s g) && groupFits s g us cores && prefers s g us cores then
      let n := g.launch.cores
      let s := (us.zip (List.range us.length)).foldl (fun s u =>
        startTeam s g u.1 (cores.getD (n * u.2) 0) (if g.launch.xredun then cores[n * u.2 + 1]? else none)) s
      .next (s.updGrid grid fun g => { g with nextTeam := g.nextTeam + us.length, expired := false })
    else .next s

/-- PLACEMENT_WAIT_EXPIRY: a team that fits nowhere has waited 65,536 cycles (14 R346). Log entry 81 (DESIGN CHOICE). -/
def execPlacementWaitExpiry (grid : Nat) (s : State) : Host.Outcome State Fault Refusal :=
  match s.grid? grid with
  | none => .next s
  | some g => if g.waiting && !(somewhere s g g.nextGroup) then .next (s.updGrid grid fun g => { g with expired := true }) else .next s

/-! ## Age boost and watchdog (14 R337, R355) -/

/-- AGE_BOOST: a Ready wave that has not issued for 64 cycles (14 R355). Log entry 81 (DESIGN CHOICE). -/
def execAgeBoost (wave : Nat) (s : State) : Host.Outcome State Fault Refusal :=
  .next (s.updWave wave fun w => if w.isReady then { w with boost := true } else w)

/-- WATCHDOG, as the device raises it: for the wave that is issuing, with LEFT at 0. A step raises it inside the retirement
itself (14 R337). Log entry 17 (DEDUCED). -/
def execWatchdog (wave : Nat) (s : State) : Host.Outcome State Fault Refusal :=
  if s.cur = wave then
    match issuing s with
    | some c => .next (watchdogCheck c s)
    | none => .next s
  else .next s

/-! ## The end of waves, teams and grids (02 R57 to R59) -/

/-- A completion stamp set going, for STORE_COMPLETE to write (02 R59): an operation of no wave, of a team that has ended. -/
def sendStamp (s : State) (g : Grid) (team : Nat) (l : Launch) (recAddr : Nat) : State :=
  if l.stampAddr = 0 then s
  else
    let s := (s.teamsOf g.id).foldl (fun s t => drainFor s t.core 3) s
    { s.addOp ⟨s.nextId, s.nextId, team, 0, 0, 15, .stamp g.id recAddr l.stampAddr l.stampVal, [], false, [], []⟩ with nextId := s.nextId + 1 }

/-- A halting grid none of whose teams runs any more has come to its halt: after a consumption the record of kind 8, code 2, is
made and the grid waits for action 2 or 4; otherwise it waits for its hull (19 R428, R439). -/
def haltCheck (s : State) (grid : Nat) : State :=
  match s.grid? grid with
  | none => s
  | some g =>
    if g.state = .halting ∧ (s.teamsOf grid).all fun t => t.state != .resident then
      match g.recover with
      | some r => (s.addRec r).updGrid grid fun g => { g with state := .failed, recover := none }
      | none => s.updGrid grid fun g => { g with state := .halted }
    else s

/-- A grid whose teams have all ended completes, one that halts for a hull too, and its stamp is then written (02 R59). -/
def tryComplete (s : State) (grid : Nat) : State :=
  match s.grid? grid with
  | none => s
  | some g =>
    if (g.state = .running ∨ g.state = .halting ∨ g.state = .halted) ∧ ¬ g.aggregating ∧ g.total ≤ g.nextTeam ∧ (s.teamsOf grid).all fun t => t.state == .ended then
      let s := dropReplicas s grid
      let s := if g.merged = [] then sendStamp s g (((s.teamsOf grid).getLast?).elim 0 (·.id)) g.launch g.recAddr else s
      s.updGrid grid fun g => { g with state := .completed }
    else s

/-- A team and the other team of its cross-core group, which end together (19 R447). -/
def endsWith (s : State) (t : Team) : List Team := t :: (t.peer.bind s.team?).toList

/-- One team ended: its buffer is released, the words of its stash mappings are written back, and its allocation is freed (02 R58; 09
R242). -/
def endTeam (s : State) (team : Nat) : State :=
  match s.team? team with
  | none => s
  | some t =>
    let s := match teamCtx s t with
      | some cx => unmapAll s cx team
      | none => s
    let s := (releaseBuffer s team).updTeam team fun t => { t with
      state := .ended, stash := [], saveReq := false
      interval := { t.interval with replay := [], shadowWaves := [], shadowSp := [], shadowBad := [] } }
    { s with tenures := s.tenures.filter fun x => x.team != team }

/-- A team whose waves have all retired ends, with the other team of its cross-core group; a child of a merged grid writes its own stamp,
and a grid whose last team it was completes (02 R58, R59; 14 R350; 19 R447). -/
def tryEndTeam (s : State) (team : Nat) : State :=
  match s.team? team with
  | none => s
  | some t =>
    let ts := endsWith s t
    if t.state = .resident ∧ ts.all fun t => (s.wavesOf t.id).all fun w => w.state == .retired then
      let s := ts.foldl (fun s t => endTeam s t.id) s
      match s.grid? t.grid with
      | none => s
      | some g =>
        let m := g.member t.t
        let s := if g.merged = [] then s else sendStamp s g team m.1 m.2.1
        haltCheck (tryComplete (s.updGrid g.id fun g => { g with ended := g.ended + 1 }) g.id) g.id
    else s

/-- Whether a wave is the last of its team, or cross-core group, to retire. -/
def lastWave (s : State) (w : Wave) (ts : List Team) : Bool :=
  ts.all fun t => (s.wavesOf t.id).all fun x => x.id == w.id || x.state == .retired

/-- WAVE_RETIRE: a wave whose threads have all exited, and those of the other party of its pair, retires once its flags are clear; its
tokens return, and the waves that wait on its stage queues go on (02 R57, 14 R342). The last wave of a team retires once what its core
still holds of the team's stores can reach its homes (02 R58). -/
def execWaveRetire (wave : Nat) (s : State) : Host.Outcome State Fault Refusal :=
  match s.wave? wave, (s.wave? wave).bind fun w => s.team? w.team with
  | some w, some t =>
    let ts := endsWith s t
    let there := w.partner?.all fun p => (s.wave? p).all fun x => x.frontier == []
    if w.state = .ready ∧ w.frontier = [] ∧ w.flagsClear ∧ w.fence.isNone ∧ t.state = .resident ∧ there ∧
        ¬ (lastWave s w ts ∧ ¬ ts.all (storesRest s)) then
      let s := (returnTokens s.awake [wave]).updWave wave fun w => { w with state := .retired, sel := none, held := false, sysMode := false }
      .next (tryEndTeam (wakeQueues s w.team) w.team)
    else .next s
  | _, _ => .next s

/-! ## spawn (14 R348, R349) -/

/-- spawn: a launch record queued on the grid's own launch queue; a release at .dev where it is queued (14 R348, R349). Log entry 54 (DEDUCED). -/
def execSpawn (o : OpF12) (s : State) : Host.Outcome State Fault Refusal :=
  issueAs s true 4 3 fun c =>
    let addr := (c.w.getS o.f2.toNat).toNat
    guarded [noFlag c o.fsel] <| flagRoom c o.fsel <| once c [] [o.f2.toNat] <|
    guarded [faultIf c (addr % 64 != 0) .align addr] <|
    match translateSpan c.s c.cx c.tm.core c.w.sysMode .read addr 256 with
    | .error f => .error ⟨f.code, c.low, f.va⟩
    | .ok (_, xs) =>
      guarded [poisonRegs c [] [o.f2.toNat] []] <| asRelease c 3 fun c =>
        let s := touchLeaves c.s c.tm.core false xs
        let done := fun (s : State) (x : Word) => Except.ok (retireOnce c s (fun w => w.setS o.f1.toNat x) 4)
        match s.queue? c.g.part c.g.queue with
        | none => done s 1
        | some q =>
          if 256 ≤ q.held then done s 1
          else done (advanceTail (physPut s (partSecure s q.part) (q.ring + 8 * (q.tail % 256)) 8 addr)
            { q with spawned := q.spawned ++ [q.tail] }) 0

/-! ## rget (14 R351 to R353) -/

/-- What is known of a range set: its locations read so far, and the translations used. -/
structure Seen where
  locs : List Nat
  xs : List Xl
  deriving Repr

/-- What two parts of a visit have read. -/
def Seen.and (a b : Seen) : Seen := ⟨a.locs ++ b.locs, a.xs ++ b.xs⟩

/-- A byte that an access at .dev meets: the core's own stores and its own dirty copy go first (10 R277, 09 R268). -/
def rmwByte (s : State) (core loc : Nat) : BitVec 8 :=
  match (pendBytes s core (loc / 16)).find? fun b => b.1 == loc % 16 with
  | some b => b.2
  | none => engineByte s core loc

/-- n bytes of a range set, which must translate for reading and writing; `bad` is a data fault that the instruction has taken already, and
comes before one of these bytes, though after every fault of a translation (11 R287; 18 R472). -/
def setRead (c : Issue) (bad : Option Flt) (va n : Nat) : Except Flt (Nat × Seen) :=
  match translateSpan c.s c.cx c.tm.core c.w.sysMode .write va n with
  | .error f => .error ⟨f.code, c.low, f.va⟩
  | .ok (locs, xs) =>
    match locs.find? fun l => viewMark c.s c.tm l != .ok with
    | some l => .error (bad.getD ⟨if viewMark c.s c.tm l = .lost then .lost else .poison, c.low, va⟩)
    | none => .ok (leNat (locs.map (rmwByte c.s c.tm.core)), ⟨locs, xs⟩)

/-- The first victim, from the member after m on, whose range is at least 2·GRAIN long: its index, NEXT and END, and what was read.
`fuel` bounds the members. Log entry 59 (DEDUCED). -/
def victim (c : Issue) (bad : Option Flt) (base n grain m : Nat) : Nat → Nat → Except Flt (Option (Nat × Nat × Nat) × Seen)
  | 0, _ => .ok (none, ⟨[], []⟩)
  | fuel + 1, j =>
    let v := (m + j) % n
    match setRead c bad (base + 0x40 + 16 * v) 16 with
    | .error f => .error f
    | .ok (x, a) =>
      let next := x % 2 ^ 64
      let fin := x / 2 ^ 64
      if next < fin ∧ 2 * grain ≤ fin - next then .ok (some (v, next, fin), a)
      else match victim c bad base n grain m fuel (j + 1) with
        | .error f => .error f
        | .ok (r, b) => .ok (r, a.and b)

/-- What an rget does: the pair it returns, the entries it writes (member, NEXT, END), and what it reads (14 R352). -/
def rgetPlan (c : Issue) (bad : Option Flt) (base : Nat) : Except Flt ((Nat × Nat) × List (Nat × Nat × Nat) × Seen) :=
  match setRead c bad base 64 with
  | .error f => .error f
  | .ok (h, a) =>
    let n := h % 2 ^ 32
    let grain := h / 2 ^ 32 % 2 ^ 32
    if n = 0 ∨ 1024 < n ∨ grain = 0 ∨ h / 2 ^ 64 ≠ 0 then .ok ((0, 2 ^ 64 - 1), [], a)
    else
      let m := (if c.g.merged = [] then c.tm.t else 0) % n
      match setRead c bad (base + 0x40 + 16 * m) 16 with
      | .error f => .error f
      | .ok (x, b) =>
        let next := x % 2 ^ 64
        let fin := x / 2 ^ 64
        if next < fin then
          let k := min grain (fin - next)
          .ok ((next, k), [(m, next + k, fin)], a.and b)
        else match victim c bad base n grain m (n - 1) 1 with
          | .error f => .error f
          | .ok (none, d) => .ok ((0, 0), [], (a.and b).and d)
          | .ok (some (v, lo, hi), d) =>
            let h := (hi - lo) / 2
            .ok ((hi - h, min grain h), [(v, lo, hi - h), (m, hi - h + min grain h, hi)], (a.and b).and d)

/-- rget: the next piece of a range set, whole in one step, each entry by a read-modify-write at its home (14 R352, R353); it comes after
the wave's own accesses to what it reads, engines' writes of it, and recalls of its tenures. Log entry 57 (DEDUCED), Log entry 59 (DEDUCED). -/
def execRget (o : OpY12) (s : State) : Host.Outcome State Fault Refusal :=
  issueAs s (evenReg o.f1) 4 3 fun c =>
    let base := (c.w.getS o.f2.toNat).toNat
    once c [] [o.f2.toNat] <|
    let bad := poisonRegs c [] [o.f2.toNat] []
    guarded [faultIf c (base % 64 != 0) .align base] <|
    match rgetPlan c bad base with
    | .error f => .error f
    | .ok (pair, writes, seen) =>
      guarded [bad] <|
      let words := (seen.locs.map (· / 16)).dedup
      if readWaits c seen.locs || pendOwed c.s c.tm.core (fun e => words.contains e.word) then .ok c.stall else
      match recallFor c.s c.tm.id true seen.locs with
      | none => .ok c.stall
      | some s =>
        let s := touchLeaves s c.tm.core (writes != []) seen.xs
        let s := words.foldl (fun s w => dropWord (drainWord s c.tm.core w) c.tm.core w) s
        let s := writes.foldl (fun s p => match setRead { c with s := s } none (base + 0x40 + 16 * p.1) 16 with
          | .ok (_, a) => writeHome s (a.locs.headD 0) (leBytes 8 p.2.1 ++ leBytes 8 p.2.2)
          | .error _ => s) s
        .ok (retireOnce c s (fun w =>
          (w.setS o.f1.toNat (BitVec.ofNat 64 pair.1)).setS (o.f1.toNat + 1) (BitVec.ofNat 64 pair.2)) 4)

end Sys2Proof.Machine
end

