-- ==== Sys2Proof/Machine/IntOps.lean ====
section
/-! DEFINITION. The integer operations of Tables 06-1 and 06-2 on one element, and the shapes of the lane and uniform
instructions that apply them. -/

namespace Sys2Proof.Machine

/-- a + b (06 Table 06-1). -/
def addW (w a b : Nat) : Nat := (a + b) % 2 ^ w
/-- a − b (06 Table 06-1). -/
def subW (w a b : Nat) : Nat := (a + (2 ^ w - b % 2 ^ w)) % 2 ^ w
/-- The low w bits of a · b (06 Table 06-1). -/
def mulW (w a b : Nat) : Nat := a * b % 2 ^ w
/-- The high w bits of the signed product (06 Table 06-1). -/
def mulhiS (w a b : Nat) : Nat := wrapN w (toSigned w a * toSigned w b / (2 ^ w : Nat))
/-- The high w bits of the unsigned product (06 Table 06-1). -/
def mulhiU (w a b : Nat) : Nat := a * b / 2 ^ w
/-- The lesser of two signed values (06 Table 06-1). -/
def minS (w a b : Nat) : Nat := if toSigned w b < toSigned w a then b else a
/-- The lesser of two unsigned values (06 Table 06-1). -/
def minU (_w a b : Nat) : Nat := min a b
/-- The greater of two signed values (06 Table 06-1). -/
def maxS (w a b : Nat) : Nat := if toSigned w a < toSigned w b then b else a
/-- The greater of two unsigned values (06 Table 06-1). -/
def maxU (_w a b : Nat) : Nat := max a b
/-- a shifted left by b mod w (06 Table 06-1). -/
def shlW (w a b : Nat) : Nat := a * 2 ^ (b % w) % 2 ^ w
/-- a shifted right by b mod w, zeros entering (06 Table 06-1). -/
def shrU (w a b : Nat) : Nat := a / 2 ^ (b % w)
/-- a shifted right by b mod w, sign bits entering (06 Table 06-1). -/
def shrS (w a b : Nat) : Nat := wrapN w (toSigned w a / (2 ^ (b % w) : Nat))

/-- An integer clamped to [lo, hi], with SAT where it was clamped (05 R119). -/
def clampI (lo hi i : Int) : Int × Sticky := if i < lo then (lo, fSat) else if hi < i then (hi, fSat) else (i, 0)

/-- The range of the signed or unsigned w-bit type. -/
def typeLo (sgn : Bool) (w : Nat) : Int := if sgn then -(2 ^ (w - 1) : Nat) else 0
/-- The greatest value of the signed or unsigned w-bit type. -/
def typeHi (sgn : Bool) (w : Nat) : Int := if sgn then (2 ^ (w - 1) : Nat) - 1 else (2 ^ w : Nat) - 1
/-- A w-bit value read as the signed or unsigned type. -/
def typeVal (sgn : Bool) (w x : Nat) : Int := if sgn then toSigned w x else (x % 2 ^ w : Nat)

/-- The exact sum or difference clamped to the type (06 Table 06-1). -/
def satW (sgn sub : Bool) (w a b : Nat) : Nat × Sticky :=
  let x := typeVal sgn w a
  let y := typeVal sgn w b
  let r := clampI (typeLo sgn w) (typeHi sgn w) (if sub then x - y else x + y)
  (wrapN w r.1, r.2)

/-- |a|; the most negative value gives itself (06 Table 06-2). -/
def absW (w a : Nat) : Nat := if toSigned w a < 0 then (2 ^ w - a) % 2 ^ w else a
/-- (0 − a) mod 2^w (06 Table 06-2). -/
def negW (w a : Nat) : Nat := (2 ^ w - a % 2 ^ w) % 2 ^ w
/-- not a (06 Table 06-2). -/
def notW (w a : Nat) : Nat := 2 ^ w - 1 - a
/-- The number of set bits (06 Table 06-2). -/
def popcW (w a : Nat) : Nat := (List.range w).countP fun i => a.testBit i
/-- The zero bits above the highest set bit (06 Table 06-2). -/
def clzW (w a : Nat) : Nat := if a = 0 then w else w - 1 - Nat.log2 a
/-- The bits in reverse order (06 Table 06-2). -/
def brevW (w a : Nat) : Nat := (List.range w).foldl (fun r i => 2 * r + (if a.testBit i then 1 else 0)) 0

/-! ## Shapes -/

/-- A Format A vector instruction whose result in a thread is a function of its two sources. -/
def vec2 (s : State) (o : OpA) (f : Word → Word → Word × Sticky) : Host.Outcome State Fault Refusal :=
  issue s (okCode o.ca && okCode o.cb) 4 fun c =>
    vecEff c 4 o.d.toNat [(o.a.toNat, o.ca.toNat), (o.b.toNat, o.cb.toNat)] [] false fun t =>
      f (c.w.getV o.a.toNat t) (c.w.getV o.b.toNat t)

/-- A Format A vector instruction on elements of width w, without flags. -/
def vecInt (s : State) (o : OpA) (w : Nat) (f : Nat → Nat → Nat → Nat) : Host.Outcome State Fault Refusal :=
  vec2 s o fun a b => (map2 w (f w) a b, 0)

/-- A saturating Format A vector instruction. -/
def vecSat (s : State) (o : OpA) (sgn sub : Bool) (w : Nat) : Host.Outcome State Fault Refusal :=
  vec2 s o fun a b => mapF w (64 / w) fun e => satW sgn sub w (elem w a e) (elem w b e)

/-- A 16-bit two-address instruction, d := d op b (04 R98). -/
def vec16 (s : State) (o : Op16) (f : Word → Word → Word × Sticky) : Host.Outcome State Fault Refusal :=
  issue s true 2 fun c =>
    vecEff c 2 o.d.toNat [(o.d.toNat, 0), (o.b.toNat, 0)] [] false fun t =>
      f (c.w.getV o.d.toNat t) (c.w.getV o.b.toNat t)

/-- A 16-bit integer instruction on elements of width w. -/
def vecInt16 (s : State) (o : Op16) (w : Nat) (f : Nat → Nat → Nat → Nat) : Host.Outcome State Fault Refusal :=
  vec16 s o fun a b => (map2 w (f w) a b, 0)

/-- A one-source integer instruction, group 4 (.i32x2) or 5 (.i64) (06 R154). -/
def vecUI (s : State) (o : OpUI) (f : Nat → Nat → Nat) : Host.Outcome State Fault Refusal :=
  issue s (okCode o.ca) 4 fun c =>
    let w := if o.t = 0 then 32 else 64
    vecEff c 4 o.d.toNat [(o.a.toNat, o.ca.toNat)] [] false fun t => (map1 w (f w) (c.w.getV o.a.toNat t), 0)

/-- A uniform integer instruction of major 10 (06 R153). -/
def uni2 (s : State) (o : OpA) (f : Nat → Nat → Nat → Nat) : Host.Outcome State Fault Refusal :=
  issue s (okCode o.ca && okCode o.cb) 4 fun c =>
    uniEff c 4 o.d.toNat [(o.a.toNat, o.ca.toNat), (o.b.toNat, o.cb.toNat)] []
      (BitVec.ofNat 64 (f 64 (c.w.getS o.a.toNat).toNat (c.w.getS o.b.toNat).toNat))

/-- A vector instruction of major 12: an immediate placed in d, whose old value it may keep (04 R105, 06 R156). -/
def vecImm (s : State) (o : OpL) (keeps : Bool) (f : Word → BitVec 16 → Word) : Host.Outcome State Fault Refusal :=
  issue s true 4 fun c =>
    vecEff c 4 o.d.toNat [] (if keeps then [o.d.toNat] else []) false fun t => (f (c.w.getV o.d.toNat t) o.imm, 0)

/-- A uniform instruction of major 12. -/
def uniImm (s : State) (o : OpL) (keeps : Bool) (f : Word → BitVec 16 → Word) : Host.Outcome State Fault Refusal :=
  issue s true 4 fun c =>
    uniEff c 4 o.d.toNat [] (if keeps then [o.d.toNat] else []) (f (c.w.getS o.d.toNat) o.imm)

/-- Bits [lo + 15 : lo] of a register replaced by an immediate (04 R105). -/
def keep16 (lo : Nat) (x : Word) (imm : BitVec 16) : Word :=
  (x &&& ~~~(0xFFFF#64 <<< lo)) ||| (imm.zeroExtend 64 <<< lo)

end Sys2Proof.Machine
end

