-- ==== Sys2Proof/Machine/Special.lean ====
section
/-! DEFINITION. The special functions (06 R163 to R166, Tables 06-4 and 06-5). A function's value is formed to some 300
bits; f16, bf16 and vsqrt round it once to nearest even, and f32 and f64 take a free value within the bound of
Table 06-4 (log entry 4). -/

namespace Sys2Proof.Machine

/-- π · 2^800, rounded down. -/
def piFix : Nat := 0x3243f6a8885a308d313198a2e03707344a4093822299f31d0082efa98ec4e6c89452821e638d01377be5466cf34e90c6cc0ac29b7c97c50dd3f84d5b5b54709179216d5d98979fb1bd1310ba698dfb5ac2ffd72dbd01adfb7b8e1afed6a267e96ba7c9045

/-- ln 2 · 2^400, rounded down. -/
def ln2Fix : Nat := 0xb17217f7d1cf79abc9e3b39803f2f6af40f343267298b62d8a0d175b8baafa2be7b876206debac98559552fb4afa1b10ed2e

/-- Bits after the point of the series below. -/
def fixBits : Nat := 400

/-- The integer square root of n, by its bits from bit k down. -/
def isqrtFrom : Nat → Nat → Nat → Nat
  | 0, n, r => if (r + 1) * (r + 1) ≤ n then r + 1 else r
  | k + 1, n, r =>
    let r' := r + 2 ^ (k + 1)
    isqrtFrom k n (if r' * r' ≤ n then r' else r)

/-- The integer square root. -/
def isqrt (n : Nat) : Nat := isqrtFrom (Nat.log2 n / 2 + 1) n 0

/-- A quotient a / b to 400 bits, its last bit set where it is not exact. -/
def stickyDiv (a b : Nat) : Nat :=
  let n := a * 2 ^ 400
  2 * (n / b) + (if n % b = 0 then 0 else 1)

/-- A square root of n · 2^x, x even, to at least 400 bits, its last bit set where it is not exact: (mantissa, exponent). -/
def stickySqrt (n : Nat) (x : Int) : Nat × Int :=
  let m := n * 2 ^ 800
  let r := isqrt m
  (2 * r + (if r * r = m then 0 else 1), x / 2 - 401)

/-- exp(y) for a fixed-point y, signed: the terms from the k-th on. -/
def expSeries (y : Int) : Nat → Nat → Int → Int
  | 0, _, _ => 0
  | fuel + 1, k, t => t + expSeries y fuel (k + 1) (t * y / (2 ^ fixBits : Nat) / (k + 1 : Nat))

/-- exp(y), fixed point, for |y| < 1. -/
def expFix (y : Int) : Int := expSeries y 100 0 (2 ^ fixBits : Nat)

/-- The alternating series Σ (−1)^k q^k / ((2k + a)!/a!) of sin y / y (a = 1) and cos y (a = 0), with q = y². -/
def trigSeries (a : Nat) (q : Nat) : Nat → Nat → Int → Int
  | 0, _, _ => 0
  | fuel + 1, k, t =>
    t + trigSeries a q fuel (k + 1) (-(t * q / (2 ^ fixBits : Nat) / ((2 * k + a + 1) * (2 * k + a + 2) : Nat)))

/-- sin(y)/y and cos(y), fixed point, from q = y² in fixed point, for y² < 1. -/
def trigFix (a q : Nat) : Int := trigSeries a q 60 0 (2 ^ fixBits : Nat)

/-- Σ z^(2k+1)/(2k+1), fixed point: atanh z for |z| < 1/4. -/
def atanhSeries (z2 : Nat) : Nat → Nat → Int → Int
  | 0, _, _ => 0
  | fuel + 1, k, t => t / (2 * k + 1 : Nat) + atanhSeries z2 fuel (k + 1) (t * z2 / (2 ^ fixBits : Nat))

/-- n · 2^x in fixed point, rounded toward zero. -/
def toFix (n : Nat) (x : Int) : Nat :=
  if 0 ≤ x + fixBits then n * 2 ^ (x + fixBits).toNat else n / 2 ^ (-(x + fixBits)).toNat

/-- A signed fixed-point number as sign, mantissa, exponent. -/
def ofFix (i : Int) : Bool × Nat × Int := (decide (i < 0), i.natAbs, -(fixBits : Int))

/-- sin or cos of (π/2)·k + y, where y = (−1)^neg · n · 2^x with |y| < 1. A tiny y stands slightly below itself. -/
def trigOf (cos : Bool) (k : Int) (neg : Bool) (n : Nat) (x : Int) : Bool × Nat × Int :=
  let j := ((if cos then k + 1 else k) % 4).toNat
  let y := toFix n x
  let q := y * y / 2 ^ fixBits
  let flip := 2 ≤ j
  if j % 2 = 0 then
    if n ≠ 0 ∧ x + Nat.log2 n < -100 then (neg != flip, n * 2 ^ 400 - 1, x - 400)
    else (neg != flip, n * (trigFix 1 q).natAbs, x - fixBits)
  else
    if q < 2 ^ 40 then (flip, 2 ^ 400 - 1, -400) else (flip, (trigFix 0 q).natAbs, -(fixBits : Int))

/-- sin or cos of a finite nonzero x below 2^24: reduced modulo π/2 with the exact value of x (06 R165). -/
def sincos (cos neg : Bool) (n : Nat) (x : Int) : Bool × Nat × Int :=
  if x + Nat.log2 n < -2 then trigOf cos 0 neg n x
  else
    let v := n * 2 ^ (x + 801).toNat
    let k := (v + piFix / 2) / piFix
    let r : Int := (v : Int) - k * piFix
    let r' := if neg then -r else r
    trigOf cos (if neg then -(k : Int) else k) (decide (r' < 0)) r.natAbs (-801)

/-- sin(πx) or cos(πx) of a finite nonzero x that is no multiple of 1/2: reduced exactly (06 R165). -/
def sincosPi (cos neg : Bool) (n : Nat) (x : Int) : Bool × Nat × Int :=
  if x + Nat.log2 n < -2 then trigOf cos 0 neg (n * piFix) (x - 800)
  else
    let d := (-x).toNat
    let k := (4 * n + 2 ^ d) / 2 ^ (d + 1)
    let r : Int := 2 * n - k * 2 ^ d
    let r' := if neg then -r else r
    trigOf cos (if neg then -(k : Int) else k) (decide (r' < 0)) (r.natAbs * piFix) (x - 801)

/-- 2^x of a finite x of moderate size, x = (−1)^neg · n · 2^e. -/
def exp2Of (neg : Bool) (n : Nat) (e : Int) : Bool × Nat × Int :=
  if e + Nat.log2 n < -200 then (false, if neg then 2 ^ 400 - 1 else 2 ^ 400 + 1, -400)
  else
    let v : Int := n * 2 ^ (e + 1200).toNat
    let v := if neg then -v else v
    let k := (v + (2 ^ 1199 : Nat)) / (2 ^ 1200 : Nat)
    let f := (v - k * (2 ^ 1200 : Nat)) / (2 ^ 800 : Nat)
    (false, (expFix (f * ln2Fix / (2 ^ 400 : Nat))).natAbs, k - fixBits)

/-- log2 of a positive number n · 2^x that is no power of two. -/
def log2Of (n : Nat) (x : Int) : Bool × Nat × Int :=
  let l := Nat.log2 n
  let up := 2 ^ (2 * l + 1) < n * n
  let e : Int := x + l + (if up then 1 else 0)
  let d := 2 ^ (if up then l + 1 else l)
  let z : Int := ((n : Int) - d) * (2 ^ fixBits : Nat) / (n + d : Nat)
  let z2 := (z * z / (2 ^ fixBits : Nat)).natAbs
  let ln := 2 * atanhSeries z2 100 0 z
  ofFix (e * (2 ^ fixBits : Nat) + ln * (2 ^ 400 : Nat) / ln2Fix)

/-- tanh of a finite nonzero x. -/
def tanhOf (neg : Bool) (n : Nat) (x : Int) : Bool × Nat × Int :=
  let top := x + Nat.log2 n
  if top < -100 then (neg, n * 2 ^ 400 - 1, x - 400)
  else if 7 ≤ top then (neg, 2 ^ 400 - 1, -400)
  else
    -- E = exp(−2|x|) = 2^(−2|x|/ln 2)
    let y := toFix n (x + 1) * 2 ^ 400 / ln2Fix
    let E := exp2Of true y (-(fixBits : Int))
    let e := toFix E.2.1 E.2.2
    (neg, (2 ^ fixBits - e) * 2 ^ fixBits / (2 ^ fixBits + e), -(fixBits : Int))

/-- The accuracy bound in ulp of function fn in f64 or f32 (06 Table 06-4). -/
def ulpBound (F : Fmt) (fn : Nat) : Nat :=
  if fn = 11 then (if F.m = 52 then 4 else 2)
  else if F.m = 52 ∧ 5 ≤ fn then 2 else 1

/-- The bits within the bound of a nonzero value, of either sign where the bound reaches past zero: the free choice among them. `norm`
admits no subnormal. Log entry 4 (DESIGN CHOICE). -/
def withinBound (F : Fmt) (fn bits : Nat) (norm neg : Bool) (n : Nat) (x : Int) : Nat :=
  let ux := max (x + Nat.log2 n - F.m) (-(F.sub : Int))
  let b := 2 * ulpBound F fn
  let h := roundAt .rtz false 0 n x (ux - 1)
  let lo : Int := ((if h.2 then h.1 + 1 else h.1 : Nat) : Int) - b
  let at' := fun (neg : Bool) (k : Nat) =>
    let c := convertFp F (.fin neg k (ux - 1)) .rne false false 0
    if c.2 = 0 ∧ (norm = false ∨ 2 ^ F.m ≤ c.1 % F.signBit) then [c.1] else []
  let cs := (List.range ((h.1 : Int) + b + 1 - lo).toNat).flatMap fun i =>
    let z := lo + i
    if z < 0 then at' (!neg) z.natAbs else if z = 0 then at' neg 0 ++ at' (!neg) 0 else at' neg z.natAbs
  cs.getD (Config.specialUlp fn F.m bits % cs.length) 0

/-- A special function's value rounded: once to nearest even in f16 and bf16, within its bound in f32 and f64 (05 R118).
Log entry 4 (DESIGN CHOICE). -/
def specialRound (F : Fmt) (fn bits : Nat) (norm : Bool) (v : Bool × Nat × Int) : Nat :=
  if F.m ≤ 10 then (convertFp F (.fin v.1 v.2.1 v.2.2) .rne false false 0).1
  else withinBound F fn bits norm v.1 v.2.1 v.2.2

/-- Whether a positive number is a power of two, and which: n · 2^x = 2^k. -/
def pow2? (n : Nat) (x : Int) : Option Int := if n = 2 ^ Nat.log2 n then some (x + Nat.log2 n) else none

/-- The bits of (−1)^neg · n · 2^x, which the format holds exactly. -/
def exactBits (F : Fmt) (neg : Bool) (n : Nat) (x : Int) : Nat := (convertFp F (.fin neg n x) .rne false false 0).1

/-- vrcp of a finite nonzero input (06 Table 06-5, R166). -/
def rcpFin (F : Fmt) (bits : Nat) (neg : Bool) (n : Nat) (x : Int) : Nat × Sticky :=
  let big := codeValue F F.largestCode
  if dyLt (big.1 * n) (big.2 + x) 1 0 then (withSign F neg F.infCode, fOverflow)
  else if dyLt 1 ((F.bias : Int) - 1) n x then (withSign F neg 0, fFlush ||| fUnderflow)
  else match pow2? n x with
    | some k => (exactBits F neg 1 (-k), 0)
    | none => (specialRound F 2 bits true (neg, stickyDiv 1 n, -x - 401), 0)

/-- n · 2^x with an even exponent. -/
def evenExp (n : Nat) (x : Int) : Nat × Int := if x % 2 = 0 then (n, x) else (2 * n, x - 1)

/-- vrsqrt of a finite positive input (06 Table 06-5). -/
def rsqrtFin (F : Fmt) (bits n : Nat) (x : Int) : Nat × Sticky :=
  match pow2? n x with
  | some k =>
    if k % 2 = 0 then (exactBits F false 1 (-(k / 2)), 0)
    else (specialRound F 3 bits false (false, (stickySqrt 2 (-k - 1)).1, (stickySqrt 2 (-k - 1)).2), 0)
  | none =>
    let p := evenExp n x
    -- 1/n has its last bit at −401; one more bit makes the exponent even
    let r := stickySqrt (2 * stickyDiv 1 p.1) (-402 - p.2)
    (specialRound F 3 bits false (false, r.1, r.2), 0)

/-- vsqrt of a finite positive input: correctly rounded, with the flags of convert_fp (06 R163). -/
def sqrtFin (F : Fmt) (n : Nat) (x : Int) : Nat × Sticky :=
  let p := evenExp n x
  let r := stickySqrt p.1 p.2
  convertFp F (.fin false r.1 r.2) .rne false false 0

/-- sin or cos of a finite input (06 Table 06-5). -/
def sincosFin (F : Fmt) (cos : Bool) (bits : Nat) (neg : Bool) (n : Nat) (x : Int) : Nat × Sticky :=
  if n = 0 then (if cos then exactBits F false 1 0 else withSign F neg 0, 0)
  else if 24 ≤ x + Nat.log2 n then (F.nanCode, fRange)
  else (specialRound F (if cos then 6 else 5) bits false (sincos cos neg n x), 0)

/-- sin(πx) or cos(πx) of a finite input (06 Table 06-5). -/
def sincosPiFin (F : Fmt) (cos : Bool) (bits : Nat) (neg : Bool) (n : Nat) (x : Int) : Nat × Sticky :=
  -- h = 2|x| where it is an integer
  let h? : Option Nat :=
    if n = 0 then some 0 else if -1 ≤ x then some (n * 2 ^ (x + 1).toNat)
    else if n % 2 ^ (-(x + 1)).toNat = 0 then some (n / 2 ^ (-(x + 1)).toNat) else none
  match h? with
  | some h =>
    if h % 2 = 0 then
      (if cos then exactBits F (h / 2 % 2 == 1) 1 0 else withSign F neg 0, 0)
    else if cos then (0, 0)
    else
      let below : Nat := if neg then h / 2 + 1 else h / 2
      (exactBits F (below % 2 == 1) 1 0, 0)
  | none => (specialRound F (if cos then 8 else 7) bits false (sincosPi cos neg n x), 0)

/-- vexp2 of a finite input (06 Table 06-5). -/
def exp2Fin (F : Fmt) (bits : Nat) (neg : Bool) (n : Nat) (x : Int) : Nat × Sticky :=
  let top := x + Nat.log2 n
  if n ≠ 0 ∧ 12 ≤ top then (if neg then (0, fUnderflow) else (F.infCode, fOverflow))
  else
    let k? : Option Nat :=
      if 0 ≤ x then some (n * 2 ^ x.toNat)
      else if n = 0 then some 0 else if (-x).toNat ≤ 1100 ∧ n % 2 ^ (-x).toNat = 0 then some (n / 2 ^ (-x).toNat) else none
    let k?' := k?.map fun k => if neg then -(k : Int) else k
    if neg ∧ dyLt (F.sub + 1) 0 n x then (0, fUnderflow)
    else match k?' with
      | some k =>
        if (F.bias : Int) < k then (F.infCode, fOverflow)
        else if -(F.sub : Int) ≤ k then (exactBits F false 1 k, 0)
        else (specialRound F 9 bits false (false, 1, k), 0)
      | none =>
        let v := exp2Of neg n x
        let big := codeValue F F.largestCode
        if dyLt big.1 big.2 v.2.1 v.2.2 then (F.infCode, fOverflow)
        else (specialRound F 9 bits false v, 0)

/-- vlog2 of a finite positive input (06 Table 06-5). -/
def log2Fin (F : Fmt) (bits n : Nat) (x : Int) : Nat × Sticky :=
  match pow2? n x with
  | some k => (exactBits F (decide (k < 0)) k.natAbs 0, 0)
  | none => (specialRound F 10 bits false (log2Of n x), 0)

/-- A special function of a number that is no NaN, by its fn code (04 R101, 06 Table 06-5). -/
def specialNum (F : Fmt) (fn bits : Nat) (v : Num) : Nat × Sticky :=
  let nan := F.nanCode
  match fn, v with
  | _, .nan s => (nan, flagIf s fInvalid)
  | 2, .inf neg => (withSign F neg 0, 0)
  | 2, .fin neg n x => if n = 0 then (withSign F neg F.infCode, fDivZero) else rcpFin F bits neg n x
  | 3, .inf neg => if neg then (nan, fInvalid) else (0, 0)
  | 3, .fin neg n x =>
    if n = 0 then (withSign F neg F.infCode, fDivZero) else if neg then (nan, fInvalid) else rsqrtFin F bits n x
  | 4, .inf neg => if neg then (nan, fInvalid) else (F.infCode, 0)
  | 4, .fin neg n x => if n = 0 then (withSign F neg 0, 0) else if neg then (nan, fInvalid) else sqrtFin F n x
  | 5, .inf _ => (nan, fRange ||| fInvalid)
  | 5, .fin neg n x => sincosFin F false bits neg n x
  | 6, .inf _ => (nan, fRange ||| fInvalid)
  | 6, .fin neg n x => sincosFin F true bits neg n x
  | 7, .inf _ => (nan, fInvalid)
  | 7, .fin neg n x => sincosPiFin F false bits neg n x
  | 8, .inf _ => (nan, fInvalid)
  | 8, .fin neg n x => sincosPiFin F true bits neg n x
  | 9, .inf neg => (if neg then 0 else F.infCode, 0)
  | 9, .fin neg n x => exp2Fin F bits neg n x
  | 10, .inf neg => if neg then (nan, fInvalid) else (F.infCode, 0)
  | 10, .fin neg n x =>
    if n = 0 then (withSign F true F.infCode, fDivZero) else if neg then (nan, fInvalid) else log2Fin F bits n x
  | _, .inf neg => (exactBits F neg 1 0, 0)
  | _, .fin neg n x => if n = 0 then (withSign F neg 0, 0) else (specialRound F 11 bits false (tanhOf neg n x), 0)

/-- A special function of the bits of a format. Log entry 4 (DESIGN CHOICE). -/
def special (F : Fmt) (fn a : Nat) : Nat × Sticky := specialNum F fn a (unpack F a)

end Sys2Proof.Machine
end

