-- ==== Sys2Proof/Machine/FpOps.lean ====
section
/-! DEFINITION. The shapes of the floating-point, conversion and compare instructions (06 R157 to R172). -/

namespace Sys2Proof.Machine

/-- The format of a type code of Formats Q and U. -/
def fmtOf (t : BitVec 2) : Fmt := if t = 0 then f64 else if t = 1 then f32 else if t = 2 then f16 else bf16

/-- A Format A floating-point instruction: rne, subnormals honoured (06 R157). -/
def vecFp (s : State) (o : OpA) (F : Fmt) (f : Nat → Nat → Nat × Sticky) : Host.Outcome State Fault Refusal :=
  vec2 s o fun a b => mapF F.width (64 / F.width) fun e => f (elem F.width a e) (elem F.width b e)

/-- vfma in Format A: the old destination is the addend, read plain (06 R157). -/
def vecFma (s : State) (o : OpA) (F : Fmt) : Host.Outcome State Fault Refusal :=
  issue s (okCode o.ca && okCode o.cb) 4 fun c =>
    vecEff c 4 o.d.toNat [(o.a.toNat, o.ca.toNat), (o.b.toNat, o.cb.toNat)] [o.d.toNat] false fun t =>
      mapF F.width (64 / F.width) fun e =>
        fpFma F .rne false 0 (elem F.width (c.w.getV o.a.toNat t) e) (elem F.width (c.w.getV o.b.toNat t) e)
          (elem F.width (c.w.getV o.d.toNat t) e)

/-- A 16-bit floating-point instruction (04 R98). -/
def vecFp16 (s : State) (o : Op16) (F : Fmt) (f : Nat → Nat → Nat × Sticky) : Host.Outcome State Fault Refusal :=
  vec16 s o fun a b => mapF F.width (64 / F.width) fun e => f (elem F.width a e) (elem F.width b e)

/-- A Format Q instruction: a rounding or .ftz, sources plain, SEED advanced under rs (04 R100, 05 R127). -/
def vecQ (s : State) (o : OpQ) (addend : Bool) (f : Fmt → Rnd → Bool → Nat → Nat → Nat → Nat → Nat × Sticky) :
    Host.Outcome State Fault Refusal :=
  issue s (okQ o) 4 fun c =>
    let F := fmtOf o.t
    let r := rndOf o.rnd.toNat
    let x := seedStep c.w.seed
    vecEff c 4 o.d.toNat [(o.a.toNat, 0), (o.b.toNat, 0)] (if addend then [o.d.toNat] else []) (r == .rs) fun t =>
      mapF F.width (64 / F.width) fun e =>
        f F r (o.ftz == 1) (draw x t e) (elem F.width (c.w.getV o.a.toNat t) e) (elem F.width (c.w.getV o.b.toNat t) e)
          (elem F.width (c.w.getV o.d.toNat t) e)

/-- A one-source floating-point instruction (06 R161). -/
def vecU (s : State) (o : OpU) (f : Fmt → Nat → Nat × Sticky) : Host.Outcome State Fault Refusal :=
  issue s (okCode o.ca) 4 fun c =>
    let F := fmtOf o.t
    vecEff c 4 o.d.toNat [(o.a.toNat, o.ca.toNat)] [] false fun t =>
      mapF F.width (64 / F.width) fun e => f F (elem F.width (c.w.getV o.a.toNat t) e)

/-! ## Conversions (06 R167, R168) -/

/-- A conversion type: an integer with signedness and width, or a format (04 Table 04-8). -/
inductive CvtTy where
  | int (sgn : Bool) (w : Nat)
  | fp (F : Fmt)
  deriving DecidableEq, Repr

/-- The type of a code of Table 04-8. -/
def cvtTy : Nat → CvtTy
  | 0 => .int true 8
  | 1 => .int true 16
  | 2 => .int true 32
  | 3 => .int true 64
  | 4 => .int false 8
  | 5 => .int false 16
  | 6 => .int false 32
  | 7 => .int false 64
  | 8 => .fp f64
  | 9 => .fp f32
  | 10 => .fp f16
  | _ => .fp bf16

/-- Bits of a conversion type. -/
def CvtTy.width : CvtTy → Nat
  | .int _ w => w
  | .fp F => F.width

/-- An integer as an exact value. -/
def intNum (i : Int) : Num := .fin (decide (i < 0)) i.natAbs 0

/-- One sub-element converted (06 Table 06-6). A widening conversion is exact, and .sat has no effect on it (06 R169). Log entry 19 (DEDUCED). -/
def cvt1 (src dst : CvtTy) (r : Rnd) (sat : Bool) (u x : Nat) : Nat × Sticky :=
  match src, dst with
  | .int ss ws, .int sd wd =>
    let v := typeVal ss ws x
    if (ss == sd && decide (ws ≤ wd)) || !sat then (wrapN wd v, 0)
    else
      let c := clampI (typeLo sd wd) (typeHi sd wd) v
      (wrapN wd c.1, c.2)
  | .int ss ws, .fp F => convertFp F (intNum (typeVal ss ws x)) r sat false u
  | .fp G, .fp F => convertFp F (unpack G x) r (sat && decide (F.width ≤ G.width)) false u
  | .fp G, .int sd wd =>
    let c := fpToInt (unpack G x) r sat u (typeLo sd wd) (typeHi sd wd)
    (wrapN wd c.1, c.2)

/-! ## Compares (06 R170) -/

/-- The type of a compare or reduction code: 0 i32, 1 n32, 2 i64, 3 n64, 4 f32, 5 f64, 6 f16, 7 bf16 (04 R106, R109). -/
def cmpTy : Nat → CvtTy
  | 0 => .int true 32
  | 1 => .int false 32
  | 2 => .int true 64
  | 3 => .int false 64
  | 4 => .fp f32
  | 5 => .fp f64
  | 6 => .fp f16
  | _ => .fp bf16

/-- The outcome of a compare condition on two integers (06 Table 06-7). -/
def cmpInt (cond : Nat) (a b : Int) : Bool :=
  match cond with
  | 0 => decide (a = b)
  | 1 => decide (a ≠ b)
  | 2 => decide (a < b)
  | 3 => decide (a ≤ b)
  | 4 => decide (b < a)
  | 5 => decide (b ≤ a)
  | 6 => true
  | 7 => false
  | _ => decide (a ≠ b)

/-- The outcome of a compare on two floating-point values, and its flags (06 Table 06-7). -/
def cmpFp (cond : Nat) (a b : Num) : Bool × Sticky :=
  if isNan a || isNan b then
    (decide (7 ≤ cond), if 2 ≤ cond ∧ cond ≤ 5 then fInvalid else sigFlag [a, b])
  else
    let lt := numLt false a b
    let gt := numLt false b a
    (match cond with
      | 0 => !lt && !gt
      | 1 => lt || gt
      | 2 => lt
      | 3 => !gt
      | 4 => gt
      | 5 => !lt
      | 6 => true
      | 7 => false
      | _ => lt || gt, 0)

/-- A compare of two registers under a type code (06 R170). -/
def cmpWord (cond t : Nat) (a b : Word) : Bool × Sticky :=
  match cmpTy t with
  | .int sg w => (cmpInt cond (typeVal sg w a.toNat) (typeVal sg w b.toNat), 0)
  | .fp F => cmpFp cond (unpack F (a.toNat % 2 ^ F.width)) (unpack F (b.toNat % 2 ^ F.width))

/-- A vector compare: pd in each active thread (06 R170). -/
def vecCmp (s : State) (o : OpP) (cond : Nat) : Host.Outcome State Fault Refusal :=
  issue s (okCode o.ca && okPd o.pd && okCmpType cond o.t) 4 fun c =>
    let ts := threads c.mask
    let f := fun t => cmpWord cond o.t.toNat (c.w.getV o.a.toNat t) (c.w.getV o.b.toNat t)
    let rs := [o.a.toNat, o.b.toNat]
    guarded [illegalRegs c rs [], poisonRegs c rs [] []] <|
      .ok (retire c c.s (((useV ts [(o.a.toNat, o.ca.toNat)] c.w).setPs o.pd.toNat ts fun t => (f t).1).raise
        (orAll (ts.map fun t => (f t).2))) 4)

/-- A uniform compare: one result in pd of every active thread (06 R148, R170). -/
def uniCmp (s : State) (o : OpP) (cond : Nat) : Host.Outcome State Fault Refusal :=
  issue s (okCode o.ca && okPd o.pd && okCmpType cond o.t) 4 fun c =>
    let r := cmpWord cond o.t.toNat (c.w.getS o.a.toNat) (c.w.getS o.b.toNat)
    guarded [poisonRegs c [] [o.a.toNat, o.b.toNat] []] <|
      .ok (retire c c.s (((useS [(o.a.toNat, o.ca.toNat)] c.w).setPs o.pd.toNat (threads c.mask) fun _ => r.1).raise r.2) 4)

/-- A predicate instruction: pd in each active thread (06 R172). -/
def predOp (s : State) (pd : BitVec 3) (f : Wave → Nat → Bool) : Host.Outcome State Fault Refusal :=
  issue s (okPd pd) 4 fun c =>
    .ok (retire c c.s (c.w.setPs pd.toNat (threads c.mask) fun t => f c.w t) 4)

end Sys2Proof.Machine
end

