-- ==== Sys2Proof/Machine/CrossLane.lean ====
section
/-! DEFINITION. The lane map, the wave queries and the cross-lane instructions: group 6 of major 7, majors 15 to 17
(07 R180 to R200). A thread outside the issue mask is absent from every one of them. -/

namespace Sys2Proof.Machine

/-! ## The lane map (07 R180, R181) -/

/-- LANEMAP.GOOD of a quadrant of a core; all 17 lanes good where nothing was set (log entry 6). Log entry 21 (DEDUCED). -/
def laneGood (s : State) (core quadrant : Nat) : BitVec 17 := get 0x1FFFF#17 s.lanemap (4 * core + quadrant)

/-- g: the number of active lanes (07 R181). -/
def activeLanes (good : BitVec 17) : Nat := min 16 (popcW 17 good.toNat)

/-- ceil(n / g). Log entry 21 (DEDUCED). -/
def passesOf (n g : Nat) : Nat := (n + g - 1) / g

/-- The register PASSES derived from GOOD (07 Table 07-2); with no good lane left, which the table leaves out, FULL reads 0 and XLAT 8.
Log entry 21 (DEDUCED). -/
def passesWord (good : BitVec 17) : Nat :=
  let g := activeLanes good
  let full := passesOf 32 g
  (8 + 2 * (full - 1)) * 2 ^ 16 + g * 2 ^ 8 + full

/-- GOOD of the quadrant that runs the issuing wave. -/
def Issue.good (c : Issue) : BitVec 17 := laneGood c.s c.tm.core (quadrantOf c.w.w)

/-- A wave query: its value in each active thread (07 R193). -/
def query (s : State) (d : BitVec 6) (f : Issue → Nat → Nat) : Host.Outcome State Fault Refusal :=
  issue s true 4 fun c => vecEff c 4 d.toNat [] [] false fun t => (BitVec.ofNat 64 (f c t), 0)

/-- vlanes: g (07 R193). -/
def execVlanes (o : OpD) (s : State) : Host.Outcome State Fault Refusal :=
  query s o.d fun c _ => activeLanes c.good

/-- vpasses: the passes of this issue (07 R193). -/
def execVpasses (o : OpD) (s : State) : Host.Outcome State Fault Refusal :=
  query s o.d fun c _ => max 1 (passesOf (threads c.mask).length (activeLanes c.good))

/-- vtid: the thread's index in its wave (07 R193). -/
def execVtid (o : OpD) (s : State) : Host.Outcome State Fault Refusal :=
  query s o.d fun _ t => t

/-- vlanemap: LANEMAP (07 R193). -/
def execVlanemap (o : OpD) (s : State) : Host.Outcome State Fault Refusal :=
  query s o.d fun c _ => c.good.toNat

/-! ## Shuffle and broadcast (07 R194, R195) -/

/-- The source thread and sub-element of a shuffle spec with k sub-elements. -/
def shuffleSpec (k spec : Nat) : Nat × Nat := (spec % 32, spec / 32 % k)

/-- Whether every sub-element of a thread's spec names an active thread. -/
def shuffleValid (m : BitVec 32) (w : Nat) (b : Word) : Bool :=
  (List.range (64 / w)).all fun e => m.getLsbD (shuffleSpec (64 / w) (elem w b e)).1

/-- The shuffled register of a thread: sub-elements of `a` in the threads named, the old ones where absent. -/
def shuffleVal (m : BitVec 32) (w : Nat) (a : Nat → Word) (b old : Word) : Word :=
  pack w ((List.range (64 / w)).map fun e =>
    let p := shuffleSpec (64 / w) (elem w b e)
    if m.getLsbD p.1 then elem w (a p.1) p.2 else elem w old e)

/-- vshfl on sub-elements of width w (07 R194). Log entry 20 (DEDUCED). -/
def shuffle (s : State) (o : OpX) (w : Nat) : Host.Outcome State Fault Refusal :=
  issue s (okPd o.p) 4 fun c =>
    let ts := threads c.mask
    let d := o.d.toNat
    let a := o.a.toNat
    let b := o.b.toNat
    guarded [illegalRegs c [d, a, b] [], poisonRegs c [a, b, d] [] []] <|
      .ok (retire c c.s ((c.w.setVs d ts fun t => shuffleVal c.mask w (c.w.getV a) (c.w.getV b t) (c.w.getV d t)).setPs
        o.p.toNat ts fun t => shuffleValid c.mask w (c.w.getV b t)) 4)

/-- vshfl.n64 (07 R194). -/
def execVshflN64 (o : OpX) (s : State) : Host.Outcome State Fault Refusal :=
  shuffle s o 64

/-- vshfl.n32x2 (07 R194). -/
def execVshflN32x2 (o : OpX) (s : State) : Host.Outcome State Fault Refusal :=
  shuffle s o 32

/-- vshfl.n16x4 (07 R194). -/
def execVshflN16x4 (o : OpX) (s : State) : Host.Outcome State Fault Refusal :=
  shuffle s o 16

/-- vshfl.n8x8 (07 R194). -/
def execVshflN8x8 (o : OpX) (s : State) : Host.Outcome State Fault Refusal :=
  shuffle s o 8

/-- vbcast: `a` of the thread that a uniform register names, where that thread is active (07 R195). Log entry 20 (DEDUCED). -/
def execVbcast (o : OpX) (s : State) : Host.Outcome State Fault Refusal :=
  issue s (okPd o.p) 4 fun c =>
    let ts := threads c.mask
    let src := (c.w.getS o.b.toNat).toNat % 32
    let valid := c.mask.getLsbD src
    guarded [illegalRegs c [o.d.toNat, o.a.toNat] [], poisonRegs c [o.a.toNat] [o.b.toNat] []] <|
      .ok (retire c c.s ((if valid then c.w.setVs o.d.toNat ts fun _ => c.w.getV o.a.toNat src else c.w).setPs
        o.p.toNat ts fun _ => valid) 4)

/-! ## Vote, ballot, uniformity, match, first, compact (07 R196, R197) -/

/-- vballot: the mask of the active threads whose p is true (07 Table 07-4). -/
def execVballot (o : OpBal) (s : State) : Host.Outcome State Fault Refusal :=
  issue s true 4 fun c =>
    .ok (retire c c.s (c.w.setS o.d.toNat
      ((maskOf fun t => c.mask.getLsbD t && c.w.getP o.p.toNat t).zeroExtend 64)) 4)

/-- A vote: one truth value in p of every active thread. -/
def vote (s : State) (o : OpVote) (f : List Nat → (Nat → Bool) → Bool) : Host.Outcome State Fault Refusal :=
  issue s (okPd o.p) 4 fun c =>
    let ts := threads c.mask
    .ok (retire c c.s (c.w.setPs o.p.toNat ts fun _ => f ts (c.w.getP o.pa.toNat)) 4)

/-- vall: whether pa is true in every active thread (07 Table 07-4). -/
def execVall (o : OpVote) (s : State) : Host.Outcome State Fault Refusal :=
  vote s o List.all

/-- vany: whether pa is true in some active thread (07 Table 07-4). -/
def execVany (o : OpVote) (s : State) : Host.Outcome State Fault Refusal :=
  vote s o List.any

/-- vuni: whether all active threads hold the same 64 bits (07 Table 07-4). -/
def execVuni (o : OpUni) (s : State) : Host.Outcome State Fault Refusal :=
  issue s (okPd o.p) 4 fun c =>
    let ts := threads c.mask
    let a := c.w.getV o.a.toNat
    guarded [illegalRegs c [o.a.toNat] [], poisonRegs c [o.a.toNat] [] []] <|
      .ok (retire c c.s (c.w.setPs o.p.toNat ts fun _ => ts.all fun t => a t == a c.low) 4)

/-- vcompact: the selected values packed into the lowest active threads (07 R197). -/
def execVcompact (o : OpCmp) (s : State) : Host.Outcome State Fault Refusal :=
  issue s true 4 fun c =>
    let us := threads c.mask
    let ls := us.filter fun t => c.w.getP o.p.toNat t
    guarded [illegalRegs c [o.d.toNat, o.a.toNat] [], poisonRegs c [o.a.toNat] [] []] <|
      .ok (retire c c.s ((us.zip ls).foldl (fun w p => w.setV o.d.toNat p.1 (c.w.getV o.a.toNat p.2)) c.w) 4)

/-- vmatch: the mask of the active threads that hold the same 64 bits (07 Table 07-4). -/
def execVmatch (o : OpAD) (s : State) : Host.Outcome State Fault Refusal :=
  issue s true 4 fun c =>
    let a := c.w.getV o.a.toNat
    vecEff c 4 o.d.toNat [(o.a.toNat, 0)] [] false fun t =>
      ((maskOf fun u => c.mask.getLsbD u && a u == a t).zeroExtend 64, 0)

/-- vrdfirst: `a` of the lowest active thread, to a uniform register (07 Table 07-4). -/
def execVrdfirst (o : OpAD) (s : State) : Host.Outcome State Fault Refusal :=
  issue s true 4 fun c =>
    guarded [illegalRegs c [o.a.toNat] [], poisonRegs c [o.a.toNat] [] []] <|
      .ok (retire c c.s (c.w.setS o.d.toNat (c.w.getV o.a.toNat c.low)) 4)

/-! ## Reduce and scan (05 R146, 07 R198) -/

/-- The operations of Format T. -/
inductive RedOp where
  | add | min | max | and | or | xor
  deriving DecidableEq, Repr

/-- One combine of two values of a type, and its flags (07 R198). -/
def combine (op : RedOp) (t : CvtTy) (a b : Nat) : Nat × Sticky :=
  match op, t with
  | .add, .int _ w => (addW w a b, 0)
  | .add, .fp F => fpAdd F .rne false 0 a b
  | .min, .int true w => (minS w a b, 0)
  | .min, .int false w => (minU w a b, 0)
  | .min, .fp F => fpMinMax F false false a b
  | .max, .int true w => (maxS w a b, 0)
  | .max, .int false w => (maxU w a b, 0)
  | .max, .fp F => fpMinMax F true false a b
  | .and, _ => (a &&& b, 0)
  | .or, _ => (a ||| b, 0)
  | .xor, _ => (a ^^^ b, 0)

/-- combine over values that may be absent (05 R146). -/
def combine? (op : RedOp) (t : CvtTy) : Option Nat → Option Nat → Option Nat × Sticky
  | some a, some b => ((some (combine op t a b).1), (combine op t a b).2)
  | some a, none => (some a, 0)
  | none, b => (b, 0)

/-- One level of the reduction tree: each pair at distance 1 of the values that are left, and its flags. -/
def redLevel (op : RedOp) (t : CvtTy) : List (Option Nat) → List (Option Nat) × Sticky
  | x :: y :: l =>
    let r := combine? op t x y
    let rest := redLevel op t l
    (r.1 :: rest.1, r.2 ||| rest.2)
  | l => (l, 0)

/-- The reduction tree over the 32 threads (05 R146): five levels of pairing. -/
def redTree (op : RedOp) (t : CvtTy) (vals : List (Option Nat)) : Option Nat × Sticky :=
  let r := (List.range 5).foldl (fun p _ =>
    let q := redLevel op t p.1
    (q.1, p.2 ||| q.2)) (vals, (0 : Sticky))
  (r.1.head?.getD none, r.2)

/-- One level of the inclusive scan at distance d (05 R146). -/
def scanLevel (op : RedOp) (t : CvtTy) (d : Nat) (vals : List (Option Nat)) : List (Option Nat) × Sticky :=
  let rs := (List.replicate d none ++ vals).zipWith (fun x y => combine? op t x y) vals
  (rs.map (·.1), orAll (rs.map (·.2)))

/-- The inclusive scan over the 32 threads (05 R146). -/
def scanTree (op : RedOp) (t : CvtTy) (vals : List (Option Nat)) : List (Option Nat) × Sticky :=
  (List.range 5).foldl (fun p k =>
    let q := scanLevel op t (2 ^ k) p.1
    (q.1, p.2 ||| q.2)) (vals, (0 : Sticky))

/-- The identity of an operation on a type (07 Table 07-5). -/
def identity (op : RedOp) : CvtTy → Nat
  | .int sg w =>
    match op with
    | .add | .or | .xor => 0
    | .and => 2 ^ w - 1
    | .min => if sg then 2 ^ (w - 1) - 1 else 2 ^ w - 1
    | .max => if sg then 2 ^ (w - 1) else 0
  | .fp F =>
    match op with
    | .min => F.infCode
    | .max => F.signBit + F.infCode
    | _ => 0

/-- The values of a register in the active threads, under a type; none for an absent thread. -/
def activeVals (c : Issue) (a w : Nat) : List (Option Nat) :=
  (List.range 32).map fun t => if c.mask.getLsbD t then some ((c.w.getV a t).toNat % 2 ^ w) else none

/-- A value of width w placed in the low bits of a register (05 R120). Log entry 18 (DEDUCED). -/
def lowBits (w : Nat) (old : Word) (x : Nat) : Word :=
  BitVec.ofNat 64 (old.toNat / 2 ^ w * 2 ^ w + x % 2 ^ w)

/-- A Format T instruction: its value in each thread, from all the active values, and its flags (07 R198). A 32-bit one keeps the upper
half of its destination, and so takes a poison mark there for an operand. Log entry 18 (DEDUCED). -/
def redScan (s : State) (o : OpT) (bitwise : Bool) (f : CvtTy → List (Option Nat) → (Nat → Nat) × Sticky) :
    Host.Outcome State Fault Refusal :=
  issue s (okRed bitwise o) 4 fun c =>
    let ty := cmpTy o.t.toNat
    let w := ty.width
    let d := o.d.toNat
    let r := f ty (activeVals c o.a.toNat w)
    vecEff c 4 d [(o.a.toNat, o.ca.toNat)] (if w = 64 then [] else [d]) false fun t =>
      (lowBits w (c.w.getV d t) (r.1 t), r.2)

/-- vred: the value of the tree in every active thread. -/
def reduce (s : State) (o : OpT) (bitwise : Bool) (op : RedOp) : Host.Outcome State Fault Refusal :=
  redScan s o bitwise fun ty vals =>
    let r := redTree op ty vals
    (fun _ => r.1.getD (identity op ty), r.2)

/-- vscan: val[t] of the inclusive scan. -/
def scanIncl (s : State) (o : OpT) (bitwise : Bool) (op : RedOp) : Host.Outcome State Fault Refusal :=
  redScan s o bitwise fun ty vals =>
    let r := scanTree op ty vals
    (fun t => (r.1.getD t none).getD (identity op ty), r.2)

/-- vscanx: val[t − 1] of the inclusive scan, or the identity. -/
def scanExcl (s : State) (o : OpT) (bitwise : Bool) (op : RedOp) : Host.Outcome State Fault Refusal :=
  redScan s o bitwise fun ty vals =>
    let r := scanTree op ty vals
    (fun t => if t = 0 then identity op ty else (r.1.getD (t - 1) none).getD (identity op ty), r.2)

/-- vred.add: the reduction tree under add (07 R198). -/
def execVredAdd (o : OpT) (s : State) : Host.Outcome State Fault Refusal :=
  reduce s o false .add

/-- vred.min: the reduction tree under min (07 R198). -/
def execVredMin (o : OpT) (s : State) : Host.Outcome State Fault Refusal :=
  reduce s o false .min

/-- vred.max: the reduction tree under max (07 R198). -/
def execVredMax (o : OpT) (s : State) : Host.Outcome State Fault Refusal :=
  reduce s o false .max

/-- vred.and: the reduction tree under and (07 R198). -/
def execVredAnd (o : OpT) (s : State) : Host.Outcome State Fault Refusal :=
  reduce s o true .and

/-- vred.or: the reduction tree under or (07 R198). -/
def execVredOr (o : OpT) (s : State) : Host.Outcome State Fault Refusal :=
  reduce s o true .or

/-- vred.xor: the reduction tree under xor (07 R198). -/
def execVredXor (o : OpT) (s : State) : Host.Outcome State Fault Refusal :=
  reduce s o true .xor

/-- vscan.add: the inclusive scan under add (07 R198). -/
def execVscanAdd (o : OpT) (s : State) : Host.Outcome State Fault Refusal :=
  scanIncl s o false .add

/-- vscan.min: the inclusive scan under min (07 R198). -/
def execVscanMin (o : OpT) (s : State) : Host.Outcome State Fault Refusal :=
  scanIncl s o false .min

/-- vscan.max: the inclusive scan under max (07 R198). -/
def execVscanMax (o : OpT) (s : State) : Host.Outcome State Fault Refusal :=
  scanIncl s o false .max

/-- vscan.and: the inclusive scan under and (07 R198). -/
def execVscanAnd (o : OpT) (s : State) : Host.Outcome State Fault Refusal :=
  scanIncl s o true .and

/-- vscan.or: the inclusive scan under or (07 R198). -/
def execVscanOr (o : OpT) (s : State) : Host.Outcome State Fault Refusal :=
  scanIncl s o true .or

/-- vscan.xor: the inclusive scan under xor (07 R198). -/
def execVscanXor (o : OpT) (s : State) : Host.Outcome State Fault Refusal :=
  scanIncl s o true .xor

/-- vscanx.add: the exclusive scan under add (07 R198). -/
def execVscanxAdd (o : OpT) (s : State) : Host.Outcome State Fault Refusal :=
  scanExcl s o false .add

/-- vscanx.min: the exclusive scan under min (07 R198). -/
def execVscanxMin (o : OpT) (s : State) : Host.Outcome State Fault Refusal :=
  scanExcl s o false .min

/-- vscanx.max: the exclusive scan under max (07 R198). -/
def execVscanxMax (o : OpT) (s : State) : Host.Outcome State Fault Refusal :=
  scanExcl s o false .max

/-- vscanx.and: the exclusive scan under and (07 R198). -/
def execVscanxAnd (o : OpT) (s : State) : Host.Outcome State Fault Refusal :=
  scanExcl s o true .and

/-- vscanx.or: the exclusive scan under or (07 R198). -/
def execVscanxOr (o : OpT) (s : State) : Host.Outcome State Fault Refusal :=
  scanExcl s o true .or

/-- vscanx.xor: the exclusive scan under xor (07 R198). -/
def execVscanxXor (o : OpT) (s : State) : Host.Outcome State Fault Refusal :=
  scanExcl s o true .xor

/-! ## Top-k (07 R199) -/

/-- Whether `a` ranks above `b` among floating-point values. -/
def fpAbove (abs nanhi : Bool) (a b : Num) : Bool :=
  match a, b with
  | .nan _, .nan _ => false
  | .nan _, _ => nanhi
  | _, .nan _ => !nanhi
  | _, _ =>
    let mag := fun x : Num => match x with
      | .inf _ => Num.inf false
      | .fin _ m e => Num.fin false m e
      | x => x
    if abs then numLt false (mag b) (mag a) else numLt true b a

/-- Whether `a` ranks above `b` (07 R199). -/
def ranksAbove (abs nanhi : Bool) (ty : CvtTy) (a b : Nat) : Bool :=
  match ty with
  | .int sg w =>
    let x := typeVal sg w a
    let y := typeVal sg w b
    if abs then decide (y.natAbs < x.natAbs) else decide (y < x)
  | .fp F => fpAbove abs nanhi (unpack F (a % 2 ^ F.width)) (unpack F (b % 2 ^ F.width))

/-- The rank of thread t among the active ones: equal values rank by thread index. -/
def rankOf (above : Nat → Nat → Bool) (ts : List Nat) (t : Nat) : Nat :=
  (ts.filter fun u => above u t || (!above t u && decide (u < t))).length

/-- vtopk: each thread's rank, and whether it is below k (07 R199). -/
def execVtopk (o : OpK) (s : State) : Host.Outcome State Fault Refusal :=
  issue s (okTopk o) 4 fun c =>
    let ts := threads c.mask
    let a := fun t => (c.w.getV o.a.toNat t).toNat
    let rank := rankOf (fun u t => ranksAbove (o.abs == 1) (o.nanhi == 1) (cmpTy o.t.toNat) (a u) (a t)) ts
    guarded [illegalRegs c [o.d.toNat, o.a.toNat] [], poisonRegs c [o.a.toNat] [] []] <|
      .ok (retire c c.s ((c.w.setVs o.d.toNat ts fun t => BitVec.ofNat 64 (rank t)).setPs o.pd.toNat ts fun t =>
        decide (rank t < o.k.toNat + 1)) 4)

end Sys2Proof.Machine
end

