-- ==== Sys2Proof/Machine/System.lean ====
section
/-! DEFINITION. The instructions of major 28: system registers, the return from system mode, halt, region modes, hull
requests, rollback status and fault injection (18 R410 to R414; 09 R266, R267; 19 R437, R439, R453 to R455). -/

namespace Sys2Proof.Machine

/-! ## System registers (18 R411, Table 18-8) -/

/-- CTXID (18 Table 18-9). -/
def ctxidWord (cx : Context) : Nat := cx.id % 2 ^ 12 + cx.part % 2 ^ 4 * 2 ^ 12 + (if cx.debug then 2 ^ 16 else 0)

/-- LDHINT as it reads: a SPAN of 17 to 31 reads as 16 (09 Table 09-3). -/
def spanRead (l : BitVec 6) : Nat := l.toNat / 32 * 32 + min 16 (l.toNat % 32)

/-- The value of a system register as the issuing wave reads it (18 Table 18-8). Log entry 17 (DEDUCED), Log entry 76 (DEDUCED). -/
def sysValue (c : Issue) (n : Nat) : Word :=
  match n with
  | 0x000 => BitVec.ofNat 64 (c.tm.core % 2 ^ 9)
  | 0x001 => BitVec.ofNat 64 (clusterOf c.tm.core % 2 ^ 7)
  | 0x002 => BitVec.ofNat 64 (dieOf c.tm.core % 2)
  | 0x003 => BitVec.ofNat 64 (c.cx.part % 2 ^ 4)
  | 0x004 => BitVec.ofNat 64 (ctxidWord c.cx)
  | 0x005 => if secureCtx c.s c.cx then 1 else 0
  | 0x010 => c.good.zeroExtend 64
  | 0x011 => BitVec.ofNat 64 (passesWord c.good)
  | 0x012 => (c.s.cluster (clusterOf c.tm.core)).epoch
  | 0x020 => c.w.seed
  | 0x021 => c.w.sticky.zeroExtend 64
  | 0x022 => BitVec.ofNat 64 (spanRead c.w.ldhint)
  | 0x023 => BitVec.ofNat 64 (c.w.left % 2 ^ 22)
  | 0x024 => BitVec.ofNat 64 (c.g.launch.stageDepth % 2 ^ 5)
  | 0x025 => c.w.trapPc
  | 0x026 => c.w.trapCtx
  | 0x027 => c.w.trapHdr
  | 0x030 => BitVec.ofNat 64 (c.cx.pinUsed % 2 ^ 32 * 2 ^ 32 + c.cx.pinLimit % 2 ^ 32)
  | _ => 0

/-- sysrd: s d := the register; a trailer takes its leader's value (18 R411, 19 R445). -/
def execSysrd (o : OpSys) (s : State) : Host.Outcome State Fault Refusal :=
  issue s (sysAssigned o.num.toNat) 4 fun c =>
    match c.w.role with
    | .trailer l => takeLvq c l 4
    | _ =>
      if lvqFull c then .ok c.stall
      else
        let x := sysValue c o.num.toNat
        .ok (retire c c.s ((c.w.setS o.f1.toNat x).lvqPut c.s.nextId (some [.s o.f1.toNat x])) 4)

/-- The bits of TRAPPC, TRAPCTX and TRAPHDR that a write sets (18 Tables 18-8, 18-12). -/
def trapPcBits : Word := 0x000FFFFFFFFFFFFE#64
/-- The RW bits of TRAPCTX. -/
def trapCtxBits : Word := 0x8FFFFFFFFFFFFFFE#64
/-- The RW bits of TRAPHDR. -/
def trapHdrBits : Word := 0x000FFFFFFFFFFFFC#64

/-- The wave with a system register written; reserved bits are ignored (18 R411, R8). Log entry 76 (DEDUCED). -/
def sysPut (w : Wave) (n : Nat) (x : Word) : Wave :=
  match n with
  | 0x020 => { w with seed := if x = 0 then 1 else x }
  | 0x021 => { w with sticky := x.setWidth 9 }
  | 0x022 => { w with ldhint := x.setWidth 6 }
  | 0x025 => { w with trapPc := x &&& trapPcBits }
  | 0x026 => { w with trapCtx := x &&& trapCtxBits }
  | 0x027 => { w with trapHdr := x &&& trapHdrBits }
  | _ => w

/-- syswr: the register's RW fields := s src; TRAPPC, TRAPCTX and TRAPHDR only in system mode (18 R411). -/
def execSyswr (o : OpSys) (s : State) : Host.Outcome State Fault Refusal :=
  issueAs s (sysWritable o.num.toNat) 4 3 fun c =>
    guarded [faultIf c (decide (0x25 ≤ o.num.toNat) && !c.w.sysMode) .illegal 0, poisonRegs c [] [o.f1.toNat] []] <|
      .ok (retire c c.s (sysPut c.w o.num.toNat (c.w.getS o.f1.toNat)) 4)

/-! ## Leaving system mode, and halt (18 R412, R413) -/

/-- tret: the threads of the system mask move as TRAPCTX directs, and the wave leaves system mode (18 R412). Log entry 67 (DEDUCED). -/
def execTret (s : State) : Host.Outcome State Fault Refusal :=
  issueAs s true 4 3 fun c =>
    let x := c.w.trapCtx.toNat
    let past := bitsN x 63 1 == 1 && decide (bitsN x 1 51 ≤ bitsN c.w.trapPc.toNat 1 51)
    guarded [faultIf c (!c.w.sysMode || past) .illegal 0, faultIf c (c.mask != c.w.sysMask) .uniform 0] <|
      .ok (retireMoved c c.s (leaveSystem c c.w))

/-- halt: a record of kind 3, and the wave parks after it (18 R413). -/
def execHalt (s : State) : Host.Outcome State Fault Refusal :=
  issueAs s true 4 3 fun c =>
    guarded [faultIf c (!c.w.sysMode) .illegal 0] <| once c [] [] (.ok (parkAfter c 3 0))

/-! ## Region modes (09 R266, R267; 18 R414) -/

/-- The fault of a page that rmode needs, whose leaf must be writable and of class 0: the class stands with the PERM of R402, before
WORLD (18 R406, R414). -/
def rmodePage (s : State) (cx : Context) (core : Nat) (sys : Bool) (va : Nat) : Except FaultCode Xl :=
  match translate s cx core sys .write va with
  | .ok x => if x.cache = 0 then .ok x else .error .perm
  | .error .world => match walk s cx core va with
    | .ok t => if bitsN t.leaf 52 2 = 0 then .error .world else .error .perm
    | .error _ => .error .world
  | .error f => .error f

/-- The pages of a range and their translations, or the fault of the lowest page that has one (18 R406, R414). `fuel` bounds the pages.
Log entry 44 (DEDUCED). -/
def rmodePages (c : Issue) : Nat → Nat → Nat → Except PageFlt (List Nat × List Xl)
  | 0, _, _ => .ok ([], [])
  | fuel + 1, va, len =>
    if len = 0 then .ok ([], []) else
    match rmodePage c.s c.cx c.tm.core c.w.sysMode va with
    | .error f => .error ⟨f, va⟩
    | .ok x => match rmodePages c fuel (va + 65536) (len - 65536) with
      | .error f => .error f
      | .ok r => .ok (x.loc / 65536 :: r.1, x :: r.2)

/-- rmode: the switch of a range is set going; later accesses to it wait (18 R414). -/
def rmodeEff (s : State) (o : OpF2) (coherent : Bool) : Host.Outcome State Fault Refusal :=
  issueAs s (evenReg o.f2) 4 3 fun c =>
    let r := c.pairRange o.f2.toNat
    let rs := [o.f2.toNat, o.f2.toNat + 1]
    guarded [noFlag c o.fsel] <| flagRoom c o.fsel <| once c [] rs <|
    guarded [faultIf c (r.1 % 65536 != 0 || r.2 % 65536 != 0) .align r.1] <|
    match rmodePages c (pageFuel r.2) r.1 r.2 with
    | .error f => .error ⟨f.code, c.low, f.va⟩
    | .ok (pages, xs) =>
      guarded [poisonRegs c [] rs []] <|
        if r.2 = 0 then .ok (retireOnce c c.s (fun w => w) 4)
        else
          let f := c.flag o.fsel
          let op := { c.newOp f (.rmode coherent pages) (viaOf c.s xs) with writes := pages.map fun p => ⟨none, p * 65536, 65536⟩ }
          .ok (retireOnce c ((touchLeaves c.s c.tm.core false xs).addOp op) (fun w => w.flagUp (some f)) 4)

/-- rmode.swm (09 R267, 18 R414). -/
def execRmodeSwm (o : OpF2) (s : State) : Host.Outcome State Fault Refusal := rmodeEff s o false

/-- rmode.coh (09 R267, 18 R414). -/
def execRmodeCoh (o : OpF2) (s : State) : Host.Outcome State Fault Refusal := rmodeEff s o true

/-- Whether a write to some pages that was issued before an operation is still to be performed at its home (09 R267). Log entry 44
(DEDUCED). -/
def writesOutstanding (s : State) (o : Op) (pages : List Nat) : Bool :=
  (s.ops.any fun e => decide (e.id < o.id) &&
    ((e.isCore && e.isWrite && (locsOf e.accesses).any fun l => pages.contains (l / 65536)) ||
      (!e.isCore && e.writes.any fun r => o.writes.any r.meets))) ||
  s.pend.any fun e => pages.contains (e.word / 4096) && decide (e.since < o.id) && pendOwed s e.core fun x => x.id == e.id

/-- The dirty words of software-managed pages written to their homes, each core's whole; where several cores dirtied one word the order
of those writes is not defined, and the last is a free choice (09 R267). -/
def writeOwn (s : State) (pages : List Nat) : State :=
  let mine := (s.blocks.filter fun b => decide (b.cache < 512) && pages.contains (b.frame / 256)).map (·.cache)
  let words := (mine.dedup.flatMap fun k => cacheWords s k CWord.isDirty).dedup.filter fun w => pages.contains (w / 4096)
  words.foldl (fun s w =>
    let cs := mine.dedup.filter fun k => (held? s k w).any CWord.isDirty
    let last := cs.getD (Config.choice s.tick % cs.length) 0
    (cs.erase last ++ [last]).foldl (fun s k => cleanWord s k w) s.bump) s

/-- RMODE_COMPLETE: a release and an acquire at .dev (10 Table 10-2). Once every outstanding write to the range has been performed, and
what comes before the switch in its core's L1, every cache writes its dirty words of the
range to memory and drops its copies, no directory entry of the range is left, and the range takes its new mode; stores that came
after the switch began go on in it (09 R267). Log entry 44 (DEDUCED). -/
def execRmodeComplete (op : Nat) (s : State) : Host.Outcome State Fault Refusal :=
  match s.op? op with
  | some o =>
    match o.kind with
    | .rmode coherent pages =>
      let kept := (List.range 512).any fun k => cleanWaits s k fun w => pages.contains (w / 4096)
      if writesOutstanding s o pages || !canEngine s o || kept then .next s
      else
        let inRange := fun e : Pend => pages.contains (e.word / 4096)
        let s := beforeEngine (s.dropOp op) o
        let s := performAll s fun e => inRange e && decide (e.since < op)
        let s := writeOwn s pages
        let s : State := { s with
          blocks := s.blocks.filter fun b => !pages.contains (b.frame / 256)
          guests := s.guests.filter fun g => !pages.contains (g.word / 4096)
          swm := pages.foldl (fun m p => put false m p !coherent) s.swm }
        let late := if coherent then [] else s.pend.filter inRange
        let s := late.foldl (fun s e =>
          l1Store { s with pend := s.pend.erase e } e.core e.team e.word e.bytes e.after e.since ⟨false, e.hint, e.lp⟩ e.via) s
        let s := match coreOf s o with
          | some core => fenced s o.wave core 3
          | none => s
        .next (s.updPair o.wave fun w => w.flagDown o.flag)
    | _ => .next s
  | none => .next s

/-! ## Hull requests (19 R438, R439) -/

/-- A slot of a context's hull directory: its address and its bytes (19 Table 19-4). -/
def hullSlot (s : State) (cx : Context) (slot : Nat) : Nat × Nat :=
  let field := physField s (secureCtx s cx)
  (field (cx.saveArea + 16 * slot) 8, field (cx.saveArea + 16 * slot + 8) 8)

/-- The slot a new hull goes to: the one that does not hold the last sealed hull, and slot 0 where there is none
(19 R438, 20 R458). -/
def hullTarget (s : State) (cx : Context) : Nat :=
  let field := physField s (secureCtx s cx)
  if field (cx.saveArea + 0x20) 8 = 0 then 0 else 1 - field (cx.saveArea + 0x28) 1 % 2

/-- Whether a hull slot has room and lies in the context's own partition and world (19 R439). -/
def slotUsable (s : State) (cx : Context) (slot : Nat) : Bool :=
  let p := hullSlot s cx slot
  decide (0 < p.2) && decide (p.1 + p.2 ≤ 2 ^ 52) &&
    (List.range ((p.1 + p.2 - 1) / 2 ^ 21 + 1 - p.1 / 2 ^ 21)).all fun i =>
      tagAt s (s.here ((p.1 / 2 ^ 21 + i) * 2 ^ 21)) == (secureCtx s cx, cx.part)

/-- ckpt's status, and the state it leaves: the grid halts for its hull where the request is accepted (19 R439). -/
def ckptStatus (c : Issue) : State × Nat :=
  match c.g.hullReq with
  | some gen => (c.s, gen * 2 ^ 8 + 1)
  | none =>
    if slotUsable c.s c.cx (hullTarget c.s c.cx) then
      let gen := c.cx.hullGen + 1
      let s := c.s.updCtx c.cx.id fun x => { x with hullGen := gen }
      ((haltGrid s c.g.id).updGrid c.g.id fun g => { g with hullReq := some gen }, gen * 2 ^ 8)
    else (c.s, c.cx.hullGen * 2 ^ 8 + 2)

/-- ckpt: a hull of the grid is asked for; the status is written and the flag has counted up and down (19 R439). -/
def execCkpt (o : OpF1) (s : State) : Host.Outcome State Fault Refusal :=
  issueAs s true 4 3 fun c =>
    guarded [noFlag c o.fsel] <| flagRoom c o.fsel <| once c [] [] <|
      let r := ckptStatus c
      .ok (retireOnce c r.1 (fun w => w.setS o.f1.toNat (BitVec.ofNat 64 r.2)) 4)

/-! ## Rollback status and fault injection (19 R437, R453 to R455) -/

/-- The rollback status of an interval (19 Table 19-3). -/
def rbWord (i : Interval) : Nat :=
  min 65535 i.rollbacks * 2 ^ 48 + min bufferSize i.buffer.length * 2 ^ 32 + i.reason % 2 ^ 8 * 2 ^ 16 +
    (if i.reason = 0 then 1 else 0)

/-- rbstat: s d := the status of the team's interval (19 R437). Log entry 22 (DEDUCED). -/
def execRbstat (o : OpD) (s : State) : Host.Outcome State Fault Refusal :=
  issue s true 4 fun c => .ok (retire c c.s (c.w.setS o.d.toNat (BitVec.ofNat 64 (rbWord c.tm.interval))) 4)

/-- Corrected errors in one run that make a unit worn (19 R452). -/
def wornAt : Nat := 8

/-- A corrected error counted on a unit: it changes no value; a lane, cluster, slice, channel or row with 8 of them in one run of its
partition is to be replaced at the next gap between runs (19 R425, R452). Log entry 33 (DESIGN CHOICE). -/
def countCorrected (s : State) (kind index : Nat) : State :=
  s.updOut fun o =>
    let u := (kind, index)
    let run := at2 0 o.runErrors u + 1
    { o with
      corrected := (u, at2 0 o.corrected u + 1) :: o.corrected.filter fun p => p.1 != u
      runErrors := (u, run) :: o.runErrors.filter fun p => p.1 != u
      due := if kind ≤ 5 ∧ wornAt ≤ run ∧ ¬ o.due.contains u then o.due ++ [u] else o.due }

/-- The physical quadrant of a core's quadrant (21 Table 21-10). -/
def physQuadrant (s : State) (core q : Nat) : Nat := siteOf s 1 (clusterOf core) * 16 + core % 4 * 4 + q

/-- What finj does with a legal spec (19 Table 19-8). Which lane of the quadrant counts a corrected error is open. Log entry 33 (DESIGN CHOICE). -/
def finjEffect (c : Issue) (x : Nat) : State × Wave :=
  let kind := bitsN x 0 3
  let reg := bitsN x 18 6
  let off := bitsN x 32 32
  if bitsN x 3 10 ≠ 0 ∨ 5 ≤ kind then (c.s, c.w)
  else if kind = 1 then
    if c.g.launch.vregs ≤ reg then (c.s, c.w)
    else (c.s, { c.w with finj := none, vBad := put false c.w.vBad (32 * reg + bitsN x 13 5) true })
  else if kind = 2 then
    if off % 8 ≠ 0 ∨ c.g.launch.spBytes < off + 8 then (c.s, c.w)
    else (c.s.updTeam c.tm.id fun t => { t with spBad := put false t.spBad (off / 8) true }, { c.w with finj := none })
  else if kind = 4 then
    (countCorrected c.s.bump 0 (physQuadrant c.s c.tm.core (quadrantOf c.w.w) * 17 + Config.choice c.s.tick % 17), { c.w with finj := none })
  else (c.s, { c.w with finj := some ⟨kind, bitsN x 24 8⟩ })

/-- finj: one injection armed, in a debug context; a trailing wave's has no effect (19 R453, R455). -/
def execFinj (o : OpD) (s : State) : Host.Outcome State Fault Refusal :=
  issue s true 4 fun c =>
    guarded [faultIf c (!c.cx.debug) .illegal 0, poisonRegs c [] [o.d.toNat] []] <|
      match c.w.role with
      | .trailer _ => .ok (retire c c.s c.w 4)
      | _ =>
        let r := finjEffect c (c.w.getS o.d.toNat).toNat
        .ok (retire c r.1 r.2 4)

end Sys2Proof.Machine
end

