-- ==== Sys2Proof/Machine/Copy.lean ====
section
/-! DEFINITION. The copy engine: copy, gather, scatter, compact and pfetch, and the event that completes them (11 R306 to
R315). -/

namespace Sys2Proof.Machine

/-! ## The copy descriptor (11 Table 11-5) -/

/-- EXTi of a copy descriptor. -/
def copyExt (d : List (BitVec 8)) (i : Nat) : Nat := field d (0x40 + 4 * i) 4

/-- DIMS of a copy descriptor. -/
def copyDims (d : List (BitVec 8)) : Nat := field d 0x28 1

/-- Bytes of a row: EXT0 · 2^ESIZE. -/
def copyRowBytes (d : List (BitVec 8)) : Nat := copyExt d 0 * 2 ^ field d 0x29 1

/-- The extents of the outer dimensions, dimension 1 first. -/
def copyOuter (d : List (BitVec 8)) : List Nat := (List.range (copyDims d - 1)).map fun i => copyExt d (i + 1)

/-- The code 2 checks of a copy, in ascending offset order. NSLICES is checked when the gathering begins (11 R310). Log entry 36 (DEDUCED). -/
def copyChecks (c : Issue) (d : List (BitVec 8)) : List (Nat × Bool) :=
  let dims := copyDims d
  let mode := field d 0x2D 1
  let space := field d 0x2A 1
  let total := (copyOuter d).foldl (· * ·) (copyRowBytes d)
  [(0x10, field d 0x10 8 % 8 == 0), (0x28, decide (1 ≤ dims) && decide (dims ≤ 8)), (0x29, decide (field d 0x29 1 ≤ 4)),
    (0x2A, decide (space < 4)), (0x2C, decide (field d 0x2C 1 < 4)),
    (0x2D, decide (mode ≤ 1) && (mode == 0 || (dims == 2 && space == 1))), (0x2E, rowbarOk c (field d 0x2E 2)),
    (0x30, mode == 1 || fieldZero d 0x30 8), (0x38, fieldZero d 0x38 8)] ++
  ((List.range 8).map fun i => (0x40 + 4 * i,
    (if i < dims then decide (1 ≤ copyExt d i) && decide (copyExt d i ≤ 2 ^ 31) else copyExt d i == 0) &&
      (i + 1 != dims || decide (total ≤ 2 ^ 40)))) ++
  ((List.range 7).map fun i => (0x60 + 8 * i, decide (i + 1 < dims) || fieldZero d (0x60 + 8 * i) 8)) ++
  ((List.range 7).map fun i => (0x98 + 8 * i, decide (i + 1 < dims) || fieldZero d (0x98 + 8 * i) 8)) ++
  [(0xD0, fieldZero d 0xD0 48)]

/-- The offset of row r along strides that stand at `o` in the descriptor: dimension 1 varies fastest (11 R310). -/
def rowOffset (d : List (BitVec 8)) (o : Nat) : List Nat → Nat → Int
  | [], _ => 0
  | e :: es, r => ((r % e : Nat) : Int) * toSigned 64 (field d o 8) + rowOffset d (o + 8) es (r / e)

/-- Source and destination address of a row. -/
def copySrc (d : List (BitVec 8)) (r : Nat) : Nat := wrapN 64 ((field d 0 8 : Int) + rowOffset d 0x60 (copyOuter d) r)
/-- The destination address of a row. -/
def copyDst (d : List (BitVec 8)) (r : Nat) : Nat := wrapN 64 ((field d 8 8 : Int) + rowOffset d 0x98 (copyOuter d) r)

/-- The rows of a copy: the union of its slices, limited to the existing rows (11 R310). -/
def copyRows (d : List (BitVec 8)) (slices : List (Nat × Nat × Nat × Nat)) : List Nat :=
  (List.range ((copyOuter d).foldl (· * ·) 1)).filter fun r =>
    slices.any fun s => decide (s.2.2.1 ≤ r) && decide (r < s.2.2.1 + s.2.2.2)

/-- Whether a side lies in scratchpad. -/
def spaceSrc (x : Nat) : Bool := bitsN x 1 1 == 1
/-- Whether the destination lies in scratchpad. -/
def spaceDst (x : Nat) : Bool := bitsN x 0 1 == 1

/-! ## Dense copies (11 R307, R308, R310) -/

/-- The rows of a dense copy moved in ascending order; the copy stops at the first piece it may not use, and at an arrival
that meets no armed barrier. -/
def denseRows (c : Issue) (d : List (BitVec 8)) : List Nat → Done → Bool → Done × Bool
  | [], r, bad => (r, bad)
  | row :: rows, r, bad =>
    let x := field d 0x2A 1
    let m := moveBytes c r.s (spaceSrc x) (spaceDst x) (copySrc d row) (copyDst d row) (copyRowBytes d)
    match m.cause with
    | some f => (⟨m.s, 8, f, r.done + m.done⟩, bad || m.bad)
    | none =>
      let a := rowArrive c m.s (field d 0x2E 2)
      if a.2 ≠ 0 then (⟨a.1, a.2, 0, r.done + m.done⟩, bad || m.bad)
      else denseRows c d rows ⟨a.1, 1, 0, r.done + m.done⟩ (bad || m.bad)

/-- Whether every scratchpad range of a copy's rows may be used. -/
def copySpOk (c : Issue) (d : List (BitVec 8)) (rows : List Nat) : Bool :=
  let x := field d 0x2A 1
  let n := copyRowBytes d
  rows.all fun r => (!(spaceSrc x) || spUsable c false (copySrc d r) n) && (!(spaceDst x) || spUsable c true (copyDst d r) n)

/-! ## Run-length expansion (05 R141, 11 R312) -/

/-- What stopped a read of the code stream or of the values: a code and a field. -/
structure Halt where
  code : Nat
  field : Nat
  deriving Repr

/-- Bytes of the code stream: a page that may not be used stops with code 8, and a poisoned or lost code with code 9. -/
def codeBytes (c : Issue) (s : State) (va n : Nat) : Except Halt (List (BitVec 8)) :=
  match engineRead c s va n with
  | .error f => .error ⟨8, f⟩
  | .ok (_, l) => if l.any (·.2) then .error ⟨9, 0⟩ else .ok (l.map (·.1))

/-- Code i of a row whose stream begins at `va`. -/
def codeAt (c : Issue) (s : State) (va i : Nat) : Except Halt Nat :=
  match codeBytes c s ((va + i / 2) % 2 ^ 64) 1 with
  | .error h => .error h
  | .ok l => .ok (leNat l / 16 ^ (i % 2) % 16)

/-- k codes from code i on as a number, least significant first. -/
def codesAt (c : Issue) (s : State) (va : Nat) : Nat → Nat → Except Halt Nat
  | _, 0 => .ok 0
  | i, k + 1 =>
    match codeAt c s va i, codesAt c s va (i + 1) k with
    | .ok x, .ok y => .ok (x + 16 * y)
    | .error h, _ => .error h
    | _, .error h => .error h

/-- The gap at code i, and the code after it. -/
def gapAt (c : Issue) (s : State) (va i : Nat) : Except Halt (Nat × Nat) :=
  match codeAt c s va i with
  | .error h => .error h
  | .ok g =>
    if g = 15 then
      match codesAt c s va (i + 1) 4 with
      | .ok x => .ok (x, i + 5)
      | .error h => .error h
    else .ok (g, i + 1)

/-- The positions of n elements whose gaps begin at code i, the first position free being `p`, as far as the codes give them; and the
code after them, or what stopped the read: a gap past the row stops it with code 10. -/
def gapPositions (c : Issue) (s : State) (va len : Nat) : Nat → Nat → Nat → List Nat × Except Halt Nat
  | 0, i, _ => ([], .ok i)
  | n + 1, i, p =>
    match gapAt c s va i with
    | .error h => ([], .error h)
    | .ok (gap, i') =>
      if len ≤ p + gap then ([], .error ⟨10, 0⟩) else
      let r := gapPositions c s va len n i' (p + gap + 1)
      ((p + gap) :: r.1, r.2)

/-- One row's positions as far as its codes give them, and the bytes of its stream, or what stopped the read. -/
def expandRow (c : Issue) (s : State) (va len : Nat) : List Nat × Except Halt Nat :=
  match codesAt c s va 0 4 with
  | .error h => ([], .error h)
  | .ok n => match gapPositions c s va len n 4 0 with
    | (ps, .error h) => (ps, .error h)
    | (ps, .ok i) => (ps, .ok ((i + 1) / 2))

/-- The bytes of an expanded row: each value at its position, zero elsewhere. -/
def rowBytes (esz len : Nat) (ps : List Nat) (vals : List (BitVec 8 × Bool)) : List (BitVec 8 × Bool) :=
  (List.range len).flatMap fun e =>
    match ps.findIdx? (· == e) with
    | some k => (vals.drop (k * esz)).take esz
    | none => List.replicate esz (0, false)

/-- The bytes of code stream and the number of values that n rows take from `src` on, as the stream stands. -/
def streamSize (c : Issue) (s : State) (len : Nat) : Nat → Nat → Nat × Nat
  | 0, _ => (0, 0)
  | n + 1, src =>
    match expandRow c s src len with
    | (_, .error _) => (0, 0)
    | (ps, .ok k) =>
      let r := streamSize c s len n ((src + k) % 2 ^ 64)
      (k + r.1, ps.length + r.2)

/-- Global bytes read by an engine page by page, up to the first page it may not read: the state, the bytes with their marks, and the
cause that stopped it (11 R307). `fuel` bounds the pages. -/
def readRun (c : Issue) : Nat → State → Nat → Nat → State × List (BitVec 8 × Bool) × Option Nat
  | 0, s, _, _ => (s, [], none)
  | fuel + 1, s, va, n =>
    if n = 0 then (s, [], none) else
    let here := min n (65536 - va % 65536)
    match engineRead c s va here with
    | .error f => (s, [], some f)
    | .ok (s, l) =>
      let r := readRun c fuel s ((va + here) % 2 ^ 64) (n - here)
      (r.1, l ++ r.2.1, r.2.2)

/-- The bytes of an expanded row that come before the first value that has not been read: all of those up to element `all` where every
value has been. -/
def rowUpTo (esz all : Nat) (ps : List Nat) (vals : List (BitVec 8 × Bool)) : Nat :=
  ps.getD (vals.length / esz) all * esz + vals.length % esz

/-- The rows of a run-length expansion in order, those of the slices written. Where the codes or the values of a row come to a page that
may not be read, the bytes of the row before the first that needs it are written, and the copy stops (11 R307, R312). -/
def expandRows (c : Issue) (d : List (BitVec 8)) (want : List Nat) : List Nat → Nat → Nat → Done → Bool → Done × Bool
  | [], _, _, r, bad => (r, bad)
  | row :: rows, src, val, r, bad =>
    let esz := 2 ^ field d 0x29 1
    let len := copyExt d 0
    let x := expandRow c r.s src len
    let ps := x.1
    let total := esz * ps.length
    let m := readRun c (pageFuel total) r.s val total
    let vals := m.2.1
    let cut := fun (upTo f : Nat) =>
      (⟨engineSp m.1 c.tm (copyDst d row) ((rowBytes esz len ps vals).take upTo), 8, f, r.done + upTo⟩, bad || vals.any (·.2))
    match x.2 with
    | .error h =>
      if h.code = 8 ∧ want.contains row ∧ ps ≠ [] then
        cut (rowUpTo esz ((ps.getLast?).elim 0 (· + 1)) ps vals) (m.2.2.getD h.field)
      else (⟨r.s, h.code, h.field, r.done⟩, bad)
    | .ok n =>
      let src' := (src + n) % 2 ^ 64
      let val' := (val + total) % 2 ^ 64
      if want.contains row then
        match m.2.2 with
        | some f => cut (rowUpTo esz len ps vals) f
        | none =>
          let bad := bad || vals.any (·.2)
          let a := rowArrive c (engineSp m.1 c.tm (copyDst d row) (rowBytes esz len ps vals)) (field d 0x2E 2)
          if a.2 ≠ 0 then (⟨a.1, a.2, 0, r.done + copyRowBytes d⟩, bad)
          else expandRows c d want rows src' val' ⟨a.1, 1, 0, r.done + copyRowBytes d⟩ bad
      else expandRows c d want rows src' val' r bad

/-- The payload of a copy: code 2 and code 4 are found first; bad data makes code 9 of a copy that is otherwise whole. Log entry 36 (DEDUCED). -/
def copyPayload (c : Issue) (d : List (BitVec 8)) (slices : List (Nat × Nat × Nat × Nat)) : Done :=
  match firstBad (copyChecks c d) with
  | some o => ⟨c.s, 2, o, 0⟩
  | none =>
    let rows := copyRows d slices
    if !(copySpOk c d rows) then ⟨c.s, 4, 0, 0⟩ else
    let r := if field d 0x2D 1 = 1 then
        expandRows c d rows (List.range (copyExt d 1)) (field d 0 8) (field d 0x30 8) ⟨c.s, 1, 0, 0⟩ false
      else denseRows c d rows ⟨c.s, 1, 0, 0⟩ false
    if r.2 && r.1.code == 1 then { r.1 with code := 9 } else r.1

/-! ## copy: slices and gatherings (11 R310, R311) -/

/-- The ranges of a copy that has started: its rows, its values and codes, and STATUS. -/
def copyRanges (c : Issue) (d : List (BitVec 8)) (off : Nat) (slices : List (Nat × Nat × Nat × Nat)) : List Rng × List Rng :=
  let st := sideRng c true true (off + 0x20) 8
  if (firstBad (copyChecks c d)).isSome then ([], st) else
  let rows := copyRows d slices
  let x := field d 0x2A 1
  let n := copyRowBytes d
  let src := if field d 0x2D 1 = 1 then
      let z := streamSize c c.s (copyExt d 0) (copyExt d 1) (field d 0 8)
      sideRng c false false (field d 0 8) z.1 ++ sideRng c false false (field d 0x30 8) (z.2 * 2 ^ field d 0x29 1)
    else rows.flatMap fun r => sideRng c (spaceSrc x) false (copySrc d r) n
  (src, (rows.flatMap fun r => sideRng c (spaceDst x) true (copyDst d r) n) ++ st)

/-- A team's gatherings changed. -/
def Team.setGathering (t : Team) (off : Nat) (g : Option Gathering) : Team :=
  { t with gatherings := t.gatherings.filter (fun x => x.desc != off) ++ g.toList }

/-- copy: one slice of a collective copy; the copy starts with the last one (11 R310). -/
def execCopy (o : OpF12) (s : State) : Host.Outcome State Fault Refusal :=
  issueAs s true 4 3 fun c =>
    let off := (c.w.getS o.f2.toNat).toNat
    let x := c.w.getS o.f1.toNat
    let rs := [o.f2.toNat, o.f1.toNat]
    guarded [noFlag c o.fsel] <| flagRoom c o.fsel <| once c [] rs <|
    withSp c off 256 (off + 0x20) 16 (some (off + 0x20)) (poisonRegs c [] rs []) fun c word =>
      let f := c.flag o.fsel
      let slice := (c.w.id, f, x.toNat % 2 ^ 32, x.toNat / 2 ^ 32)
      let g := (c.tm.gatherings.find? fun g => g.desc == off).getD ⟨off, field word 0x0B 1, []⟩
      if g.nslices = 0 ∨ 32 < g.nslices then
        .ok (retireOnce c (writeStatus c.s c.tm (off + 0x20) (copyStatus 2 0x2B 0)) (fun w => w) 4)
      else
        let slices := g.slices ++ [slice]
        if slices.length < g.nslices then
          .ok (retireOnce c (c.s.updTeam c.tm.id fun t => t.setGathering off (some ⟨off, g.nslices, slices⟩))
            (fun w => w.flagUp (some f)) 4)
        else
          withSp c off 256 off 256 none none fun c d =>
            let r := copyRanges c d off slices
            let op := { c.newOp 15 (.copy d off slices) [] with reads := r.1, writes := r.2 }
            if scoreFull c op then .ok c.stall
            else
              let s := c.s.updTeam c.tm.id fun t => t.setGathering off none
              .ok (retireOnce c (startOp s op) (fun w => w.flagUp (some f)) 4)

/-! ## gather and scatter (11 R313) -/

/-- The code 2 checks of a gather or scatter, in ascending offset order (11 Table 11-6). -/
def rowsChecks (c : Issue) (d : List (BitVec 8)) : List (Nat × Bool) :=
  [(0x18, decide (1 ≤ field d 0x18 4) && decide (field d 0x18 4 ≤ 4096)), (0x1C, rowbarOk c (field d 0x1C 2)),
    (0x1E, decide (field d 0x1E 1 < 4)), (0x1F, fieldZero d 0x1F 1), (0x28, fieldZero d 0x28 24)]

/-- The global and the scratchpad address of a thread's row. -/
def rowPlaces (d : List (BitVec 8)) (x : Word) : Nat × Nat :=
  ((field d 0 8 + x.toNat % 2 ^ 32 * field d 8 8) % 2 ^ 64,
    field d 0x10 4 + x.toNat / 2 ^ 32 * field d 0x14 4)

/-- The rows of a gather or scatter in ascending thread order: the first that fails sets the code, and the others are still
performed. -/
def eachRow (c : Issue) (scatter : Bool) (d : List (BitVec 8)) : List (Nat × Word) → Done → Done
  | [], r => r
  | (_, x) :: l, r =>
    let p := rowPlaces d x
    let n := field d 0x18 4
    let m := if scatter then moveBytes c r.s true false p.2 p.1 n else moveBytes c r.s false true p.1 p.2 n
    let mark := fun (r : Done) (code f : Nat) => if r.code = 1 then { r with code := code, field := f } else r
    match m.cause with
    | some f => eachRow c scatter d l (mark { r with s := m.s } 8 f)
    | none =>
      let a := rowArrive c m.s (field d 0x1C 2)
      let r := { r with s := a.1, done := r.done + 1 }
      eachRow c scatter d l (if m.bad then mark r 9 0 else if a.2 ≠ 0 then mark r a.2 0 else r)

/-- The payload of a gather or scatter: codes 2 and 4 are found before any byte is written. Log entry 36 (DEDUCED). -/
def rowsPayload (c : Issue) (scatter : Bool) (d : List (BitVec 8)) (idx : List (Nat × Word)) : Done :=
  match firstBad (rowsChecks c d) with
  | some o => ⟨c.s, 2, o, 0⟩
  | none =>
    if idx.all fun p => spUsable c (!scatter) (rowPlaces d p.2).2 (field d 0x18 4) then eachRow c scatter d idx ⟨c.s, 1, 0, 0⟩
    else ⟨c.s, 4, 0, 0⟩

/-- The ranges of a gather or scatter: its rows, none where its descriptor breaks a rule, and STATUS. -/
def rowsRanges (c : Issue) (scatter : Bool) (d : List (BitVec 8)) (off : Nat) (idx : List (Nat × Word)) : List Rng × List Rng :=
  let legal := (firstBad (rowsChecks c d)).isNone
  let n := field d 0x18 4
  let glob := if legal then idx.flatMap fun p => sideRng c false scatter (rowPlaces d p.2).1 n else []
  let sp := if legal then idx.flatMap fun p => sideRng c true (!scatter) (rowPlaces d p.2).2 n else []
  (if scatter then sp else glob, (if scatter then glob else sp) ++ sideRng c true true (off + 0x20) 8)

/-- A gather or scatter set going (11 R306, R313). -/
def rowsEff (s : State) (o : OpF12) (scatter : Bool) : Host.Outcome State Fault Refusal :=
  issueAs s true 4 3 fun c =>
    let off := (c.w.getS o.f2.toNat).toNat
    let v := o.f1.toNat
    guarded [illegalRegs c [v] [], noFlag c o.fsel] <| flagRoom c o.fsel <| once c [v] [o.f2.toNat] <|
    withDesc c off 64 0x20 (poisonRegs c [v] [o.f2.toNat] []) fun c d =>
      let f := c.flag o.fsel
      let idx := (threads c.mask).map fun t => (t, c.w.getV v t)
      let r := rowsRanges c scatter d off idx
      let op := { c.newOp f (.rows scatter d off idx) [] with reads := r.1, writes := r.2 }
      if scoreFull c op then .ok c.stall
      else .ok (retireOnce c (startOp c.s op) (fun w => w.flagUp (some f)) 4)

/-- gather: one global row per thread into scratchpad (11 R313). -/
def execGather (o : OpF12) (s : State) : Host.Outcome State Fault Refusal := rowsEff s o false

/-- scatter: one scratchpad row per thread to global memory (11 R313). -/
def execScatter (o : OpF12) (s : State) : Host.Outcome State Fault Refusal := rowsEff s o true

/-! ## compact (11 R314) -/

/-- The code 2 checks of a compaction, in ascending offset order (11 Table 11-7). -/
def compactChecks (d : List (BitVec 8)) : List (Nat × Bool) :=
  [(0x08, decide (1 ≤ field d 8 8) && decide (field d 8 8 ≤ 2 ^ 32)), (0x28, decide (1 ≤ field d 0x28 4) && decide (field d 0x28 4 ≤ 65536)),
    (0x2C, decide (field d 0x2C 1 < 4)), (0x2D, decide (field d 0x2D 1 < 4)), (0x2E, fieldZero d 0x2E 2),
    (0x30, field d 0x30 8 % 8 == 0), (0x48, fieldZero d 0x48 56)]

/-- The address of a segment. -/
def segSrc (d : List (BitVec 8)) (i : Nat) : Nat := (field d 0 8 + i * field d 8 8) % 2 ^ 64

/-- The segments that a compaction comes to, with their lengths and offsets, as LENS stands: up to the first it cannot
take. -/
def segments (c : Issue) (s : State) (d : List (BitVec 8)) : Nat → Nat → Nat → List (Nat × Nat × Nat)
  | 0, _, _ => []
  | n + 1, i, off =>
    match engineRead c s ((field d 0x10 8 + 4 * i) % 2 ^ 64) 4 with
    | .error _ => []
    | .ok (_, l) =>
      let len := leNat (l.map (·.1))
      if l.any (·.2) || decide (field d 8 8 < len) then []
      else (i, len, off) :: segments c s d n (i + 1) (off + len)

/-- The segments of a compaction moved in order (11 R314). -/
def compactFrom (c : Issue) (d : List (BitVec 8)) : Nat → Nat → Done → Bool → Done × Bool
  | 0, _, r, bad => (r, bad)
  | n + 1, i, r, bad =>
    let x := field d 0x2C 1
    let offs := field d 0x20 8
    match engineRead c r.s ((field d 0x10 8 + 4 * i) % 2 ^ 64) 4 with
    | .error f => ({ r with code := 8, field := f }, bad)
    | .ok (s, l) =>
      let len := leNat (l.map (·.1))
      if l.any (·.2) then ({ r with code := 9 }, bad)
      else if field d 8 8 < len then ({ r with code := 10 }, bad)
      else
        let oa := (offs + 8 * i) % 2 ^ 64
        match if offs = 0 then .ok ([], []) else translateSpan s c.cx c.tm.core c.w.sysMode .write oa 8 with
        | .error f => ({ r with code := 8, field := pageCause f.code }, bad)
        | .ok (locs, xs) =>
          let m := moveBytes c s (spaceSrc x) (spaceDst x) (segSrc d i) ((field d 0x18 8 + r.done) % 2 ^ 64) len
          match m.cause with
          | some f => (⟨m.s, 8, f, r.done + m.done⟩, bad || m.bad)
          | none =>
            let s := engineWrite (touchLeaves m.s c.tm.core true xs) c.tm.core
              (locs.zip ((leBytes 8 r.done).map fun b => (b, false)))
            compactFrom c d n (i + 1) ⟨s, 1, 0, r.done + len⟩ (bad || m.bad)

/-- The payload of a compaction. -/
def compactPayload (c : Issue) (d : List (BitVec 8)) : Done :=
  match firstBad (compactChecks d) with
  | some o => ⟨c.s, 2, o, 0⟩
  | none =>
    let x := field d 0x2C 1
    let segs := segments c c.s d (field d 0x28 4) 0 0
    if segs.all fun p => (!(spaceSrc x) || spUsable c false (segSrc d p.1) p.2.1) &&
        (!(spaceDst x) || spUsable c true (field d 0x18 8 + p.2.2) p.2.1) then
      let r := compactFrom c d (field d 0x28 4) 0 ⟨c.s, 1, 0, 0⟩ false
      if r.2 && r.1.code == 1 then { r.1 with code := 9 } else r.1
    else ⟨c.s, 4, 0, 0⟩

/-- The ranges of a compaction: lengths and segments read; packed result, offsets and STATUS written. -/
def compactRanges (c : Issue) (d : List (BitVec 8)) (off : Nat) : List Rng × List Rng :=
  let st := sideRng c true true (off + 0x40) 8
  if (firstBad (compactChecks d)).isSome then ([], st) else
  let x := field d 0x2C 1
  let n := field d 0x28 4
  let segs := segments c c.s d n 0 0
  (sideRng c false false (field d 0x10 8) (4 * n) ++ segs.flatMap fun p => sideRng c (spaceSrc x) false (segSrc d p.1) p.2.1,
    (segs.flatMap fun p => sideRng c (spaceDst x) true (field d 0x18 8 + p.2.2) p.2.1) ++
      (if field d 0x20 8 = 0 then [] else sideRng c false true (field d 0x20 8) (8 * n)) ++ st)

/-- compact: a compaction set going (11 R306, R314). -/
def execCompact (o : OpF2) (s : State) : Host.Outcome State Fault Refusal :=
  issueAs s true 4 3 fun c =>
    let off := (c.w.getS o.f2.toNat).toNat
    guarded [noFlag c o.fsel] <| flagRoom c o.fsel <| once c [] [o.f2.toNat] <|
    withDesc c off 128 0x40 (poisonRegs c [] [o.f2.toNat] []) fun c d =>
      let f := c.flag o.fsel
      let r := compactRanges c d off
      let op := { c.newOp f (.compact d off) [] with reads := r.1, writes := r.2 }
      if scoreFull c op then .ok c.stall
      else .ok (retireOnce c (startOp c.s op) (fun w => w.flagUp (some f)) 4)

/-! ## pfetch (09 R256, 11 R315) -/

/-- A run of n bytes cut at page boundaries. `fuel` bounds the pages. -/
def pagePieces : Nat → Nat → Nat → List (Nat × Nat)
  | 0, _, _ => []
  | fuel + 1, va, n =>
    if n = 0 then [] else
    let here := min n (65536 - va % 65536)
    (va, here) :: pagePieces fuel (va + here) (n - here)

/-- The ranges that a prefetch brings, and their translations: up to the first page that does not translate or may not be read, which
ends it quietly; a page that no cache keeps, uncached or plain PCIe memory, is passed over (09 R256, R264; 18 R397). -/
def fetchRanges (c : Issue) : List (Nat × Nat) → List Rng × List Xl
  | [] => ([], [])
  | p :: ps =>
    match translate c.s c.cx c.tm.core c.w.sysMode .read p.1 with
    | .error _ => ([], [])
    | .ok x =>
      let r := fetchRanges c ps
      if directPages c.s [x] = [] then (⟨none, x.loc, p.2⟩ :: r.1, x :: r.2) else r

/-- The source rows that a prefetch by descriptor names, by SRC, DIMS, ESIZE, EXT and SSTR; none where those break their limits
(11 R315). Log entry 40 (DEDUCED). -/
def fetchRows (d : List (BitVec 8)) : List (Nat × Nat) :=
  if 1 ≤ copyDims d ∧ copyDims d ≤ 8 ∧ field d 0x29 1 ≤ 4 then
    (List.range ((copyOuter d).foldl (· * ·) 1)).flatMap fun r => pagePieces (pageFuel (copyRowBytes d)) (copySrc d r) (copyRowBytes d)
  else []

/-- A prefetch set going on some ranges with a hint: ACCESSED is set in the leaves it uses, and its flag counts up (09 R256, 18 R403). -/
def startFetch (c : Issue) (f hint : Nat) (l : List (Nat × Nat)) : State :=
  let r := fetchRanges c l
  retireOnce c ((touchLeaves c.s c.tm.core false r.2).addOp (c.newOp f (.pfetch hint r.1) [])) (fun w => w.flagUp (some f)) 4

/-- pfetch.desc: a prefetch of the source of a copy descriptor (11 R306, R315). -/
def execPfetchDesc (o : OpF2) (s : State) : Host.Outcome State Fault Refusal :=
  issueAs s true 4 3 fun c =>
    let off := (c.w.getS o.f2.toNat).toNat
    guarded [noFlag c o.fsel] <| flagRoom c o.fsel <| once c [] [o.f2.toNat] <|
    withSp c off 256 off 256 none (poisonRegs c [] [o.f2.toNat] []) fun c d =>
      .ok (startFetch c (c.flag o.fsel) (field d 0x2C 1 % 4) (fetchRows d))

/-- The words of a range brought into their home slices with a hint, frame by frame: shared, and in the slots that a pin window reserves
where it has pinned them (09 R246, R254, R256). -/
def fetchHome (s : State) (part hint : Nat) (r : Rng) : State :=
  if hint = 3 ∨ r.len = 0 then s else
  let lo := r.lo / 16
  let hi := (r.lo + r.len - 1) / 16
  ((List.range (hi / 16 + 1 - lo / 16)).map (lo / 16 + ·)).foldl (fun s f =>
    let a := max lo (16 * f)
    let b := min hi (16 * f + 15)
    fillRun s (512 + homeSlice s part (256 * f)) f (a % 16) (b + 1 - a) hint fun _ => .shared) s

/-! ## Completion (11 R308) -/

/-- The ROWBAR of an operation that has one. -/
def Op.rowbar (o : Op) : Nat :=
  match o.kind with
  | .copy d _ _ => field d 0x2E 2
  | .rows _ d _ _ => field d 0x1C 2
  | _ => 0

/-- Whether the checks of an operation's descriptor pass, so that it makes its arrivals. -/
def Op.sound (c : Issue) (o : Op) : Bool :=
  match o.kind with
  | .copy d _ _ => (firstBad (copyChecks c d)).isNone
  | .rows _ d _ _ => (firstBad (rowsChecks c d)).isNone
  | _ => true

/-- An engine copy performed: payload, arrivals, STATUS and stamp. -/
def performCopy (c : Issue) (o : Op) : State :=
  match o.kind with
  | .copy d off slices => finishCopy c (copyPayload c d slices) (off + 0x20) (field d 0x10 8) (field d 0x18 8)
  | .rows scatter d off idx => finishCopy c (rowsPayload c scatter d idx) (off + 0x20) 0 0
  | .compact d off => finishCopy c (compactPayload c d) (off + 0x40) (field d 0x30 8) (field d 0x38 8)
  | .pfetch hint rngs => rngs.foldl (fun s r => fetchHome s c.g.part hint r) c.s
  | _ => c.s

/-- The flags of an operation counted down: that of each slice of a copy, or its own. -/
def copyFlags (s : State) (o : Op) : State :=
  match o.kind with
  | .copy _ _ slices => slices.foldl (fun s p => s.updPair p.1 fun w => w.flagDown p.2.1) s
  | _ => s.updPair o.wave fun w => w.flagDown o.flag

/-- Whether an operation belongs to the copy engine. -/
def Op.isCopy (o : Op) : Bool :=
  match o.kind with
  | .copy _ _ _ | .rows _ _ _ _ | .compact _ _ | .pfetch _ _ => true
  | _ => false

/-- Whether a prefetch waits for room in the queues of the slices it fills (09 R250). -/
def fetchWaits (c : Issue) (o : Op) : Bool :=
  match o.kind with
  | .pfetch _ rngs => slicesFull c.s c.g.part (rngLocs rngs)
  | _ => false

/-- COPY_COMPLETE: what its waves stored before is performed, then payload, row-count arrivals, STATUS, stamp, and then the flags (11 R308). -/
def execCopyComplete (op : Nat) (s : State) : Host.Outcome State Fault Refusal :=
  match s.op? op with
  | some o =>
    match opIssue s o with
    | some c =>
      if o.isCopy && canEngine s o && !(fetchWaits c o) && !(o.sound c && arrivalsWait c s o.rowbar) then
        .next (copyFlags (performCopy { c with s := beforeEngine (s.dropOp op) o } o) o)
      else .next s
    | none => .next s
  | none => .next s

end Sys2Proof.Machine
end

