-- ==== Sys2Proof/Machine/Slots.lean ====
section
/-! DEFINITION. Format slots, scaled elements, blocks and the codebook (05 R124, R132 to R143). -/

namespace Sys2Proof.Machine

/-- ELEM of a slot (05 Table 05-3). -/
def slotElem (x : Nat) : Nat := bitsN x 0 8
/-- SCALE of a slot. -/
def slotScale (x : Nat) : Nat := bitsN x 8 8
/-- BLOCK of a slot. -/
def slotBlock (x : Nat) : Nat := bitsN x 16 8
/-- SPARSE of a slot. -/
def slotSparse (x : Nat) : Nat := bitsN x 24 8
/-- RND of a slot. -/
def slotRnd (x : Nat) : Nat := bitsN x 32 8
/-- The sat flag of a slot. -/
def slotSat (x : Nat) : Bool := bitsN x 40 1 == 1
/-- The ftz flag of a slot. -/
def slotFtz (x : Nat) : Bool := bitsN x 41 1 == 1
/-- LATTICE of a slot. -/
def slotLattice (x : Nat) : Nat := bitsN x 64 64

/-- A slot that breaks neither Table 05-3 nor Table 05-4 (05 R143). -/
def slotValid (x : Nat) : Bool :=
  let e := slotElem x
  let sc := slotScale x
  let sp := slotSparse x
  decide (1 ≤ e) && decide (e ≤ 10)
  && decide (sc ≤ 1) && (if sc = 0 then slotBlock x == 0 else slotBlock x == 16 || slotBlock x == 32)
  && (sp == 0 || sp == 1 || sp == 2 || sp == 4)
  && decide (slotRnd x ≤ 5) && decide (bitsN x 42 6 = 0) && decide (bitsN x 48 16 = 0)
  && (if e = 6 then sc == 1 && sp == 0 && slotLattice x % 1024 == 0 && slotLattice x != 0
      else slotLattice x == 0 && (decide (e < 6) || sc == 0))

/-- Slot n of a launch. -/
def slotOfLaunch (l : Launch) (n : Nat) : Nat := l.slots.getD n 0

/-- The floating-point format of an ELEM code; none for cb2 and the integers (05 Table 05-4). -/
def elemFmt : Nat → Option Fmt
  | 1 => some e4m3
  | 2 => some e5m2
  | 3 => some e3m2
  | 4 => some e2m3
  | 5 => some e2m1
  | 9 => some f16
  | 10 => some bf16
  | _ => none

/-- Memory bits of an element (05 Table 05-4); a cb2 index has 16 for eight weights. -/
def elemBits : Nat → Nat
  | 3 => 6
  | 4 => 6
  | 5 => 4
  | 6 => 2
  | 9 => 16
  | 10 => 16
  | _ => 8

/-- Bits of an element's container in a register (05 R124). -/
def elemBox : Nat → Nat
  | 5 => 4
  | 9 => 16
  | 10 => 16
  | _ => 8

/-- The K-group of a format (05 Table 05-4). -/
def elemGroup : Nat → Nat
  | 5 => 32
  | 6 => 32
  | 9 => 8
  | 10 => 8
  | _ => 16

/-- emax of a format (05 Table 05-4). -/
def elemEmax : Nat → Int
  | 1 => 8
  | 2 => 15
  | 3 => 4
  | 4 => 2
  | 5 => 2
  | _ => 3

/-- A value scaled by 2^k. -/
def scaleNum (v : Num) (k : Int) : Num :=
  match v with
  | .fin neg n x => .fin neg n (x + k)
  | v => v

/-- The value of an element's bits; with ftz a subnormal reads as zero, but for e2m1 (05 R130). -/
def elemVal (e : Nat) (ftz : Bool) (b : Nat) : Num × Sticky :=
  match elemFmt e with
  | some F => readFtz F (ftz && e != 5) (b % 2 ^ F.width)
  | none =>
    let i : Int := if e = 7 then toSigned 8 b else (b % 256 : Nat)
    (.fin (decide (i < 0)) i.natAbs 0, 0)

/-- An f32 input converted to an element on its own; e2m1 results are never flushed (05 R130, 06 R175). -/
def elemOf (e : Nat) (r : Rnd) (sat ftz : Bool) (u x : Nat) : Nat × Sticky :=
  let v := readFtz f32 ftz x
  match elemFmt e with
  | some F =>
    let c := convertFp F v.1 r sat (ftz && e != 5) u
    (c.1, v.2 ||| c.2)
  | none =>
    let c := if e = 7 then fpToInt v.1 r sat u (-128) 127 else fpToInt v.1 r sat u 0 255
    (wrapN 8 c.1, v.2 ||| c.2)

/-- The exponent of a block's scale from its inputs, none where one is a NaN or an infinity (05 R136). -/
def blockExp (e : Nat) (xs : List Num) : Option Int :=
  if xs.any fun v => match v with
    | .fin _ _ _ => false
    | _ => true
  then none
  else
    let tops := xs.filterMap fun v => match v with
      | .fin _ n x => if n = 0 then none else some (x + (Nat.log2 n : Int))
      | _ => none
    match tops with
    | [] => some (-127)
    | t :: ts => some (max (-127) (min 127 (ts.foldl max t - elemEmax e)))

/-- An element of a block under its exponent: always saturating, and never flushed in e2m1 (05 R130, R136). -/
def blockElem (e : Nat) (r : Rnd) (ftz : Bool) (u : Nat) (k : Int) (v : Num) : Nat × Sticky :=
  match elemFmt e with
  | some F => convertFp F (scaleNum v (-k)) r true (ftz && e != 5) u
  | none => (0, 0)

/-! ## The vector codebook (05 R137 to R139) -/

/-- The signed doubled weight of component j: (−1)^sign · (2·m + coset), and its sign bit. -/
def latticeTwice (entry x j : Nat) : Bool × Nat :=
  let signs := bitsN x 8 7
  let neg := if j < 7 then signs.testBit j else ((List.range 7).countP fun i => signs.testBit i) % 2 == 1
  (neg, 2 * bitsN entry (4 * j) 4 + bitsN x 15 1)

/-- Weight j of index x under a scale byte; a scale of 0xFF makes it a NaN (05 R132, R138). -/
def latticeWeight (entry x scale j : Nat) : Num :=
  if scale = 255 then .nan false
  else .fin (latticeTwice entry x j).1 (latticeTwice entry x j).2 ((scale : Int) - 128)

/-- The squared distance of the weights of x at scale 1 from eight inputs given as integers at exponent z ≤ −1. -/
def latticeDist (entry x : Nat) (z : Int) (ys : List Int) : Nat :=
  ((ys.zip (List.range 8)).map fun p =>
    let t := latticeTwice entry x p.2
    let w : Int := t.2 * 2 ^ (-1 - z).toNat
    (p.1 - (if t.1 then -w else w)).natAbs ^ 2).sum

/-- The index of least distance, the lowest among equals (05 R139). -/
def latticeEncode (table : List Nat) (ys : List Num) : Nat :=
  let z := ys.foldl (fun z v => match v with
    | .fin _ n x => if n = 0 then z else min z x
    | _ => z) (-1)
  let is := ys.map fun v => match v with
    | .fin neg n x => if n = 0 then (0 : Int) else (if neg then -1 else 1) * (n * 2 ^ (x - z).toNat : Nat)
    | _ => 0
  ((List.range 65536).foldl (fun (best : Nat × Nat) x =>
    let d := latticeDist (table.getD (x % 256) 0) x z is
    if d < best.2 then (x, d) else best) (0, latticeDist (table.getD 0 0) 0 z is)).1

end Sys2Proof.Machine
end

