-- ==== Sys2Proof/Machine/Tenure.lean ====
section
/-! DEFINITION. Tile handles and tenure: hopen, hacq, hrel, hsplit, hclose and pfetch.handle, and the events that grant, recall
and release tenure (09 R257 to R261; 11 R315, R318 to R322; 18 R417). -/

namespace Sys2Proof.Machine

/-! ## Handles (11 R318) -/

/-- The value of a handle. -/
def Handle.value (h : Handle) : Nat := h.index + h.serial * 2 ^ 16

/-- The open handle that a value names in a context. -/
def handleOf (s : State) (ctx x : Nat) : Option Handle := s.handles.find? fun h => h.ctx == ctx && h.value == x

/-- Free handle indices of a context, ascending. Log entry 41 (DESIGN CHOICE). -/
def freeHandles (s : State) (ctx : Nat) : List Nat :=
  (List.range 1024).filter fun i => !(s.handles.any fun h => h.ctx == ctx && h.index == i)

/-- The serial after another: 1 to 65,535, skipping 0. Log entry 41 (DESIGN CHOICE). -/
def nextSerial (n : Nat) : Nat := n % 65535 + 1

/-- A handle opened at an index: its serial advances. -/
def openHandle (s : State) (ctx index : Nat) (t : Tile) : State × Handle :=
  let serial := nextSerial (((s.ctx? ctx).map fun c => get 0 c.serials index).getD 0)
  let h : Handle := ⟨ctx, index, serial, t⟩
  ({ s.updCtx ctx (fun c => { c with serials := put 0 c.serials index serial }) with handles := s.handles ++ [h] }, h)

/-- The home of a tile: the slice of its base (09 R257). A base that does not translate counts as its own physical address.
Log entry 41 (DESIGN CHOICE). -/
def tileHome (s : State) (ctx : Nat) (t : Tile) : Nat :=
  match s.ctx? ctx with
  | none => 0
  | some cx =>
    match translate s cx unitCore true .read t.base with
    | .ok x => homeSlice s cx.part x.loc
    | .error _ => homeSlice s cx.part (s.here t.base)

/-- HANDLE, where a value names no open handle of the context. -/
def notHandle (c : Issue) (x : Nat) : Option Flt := faultIf c (handleOf c.s c.g.ctx x).isNone .handle x

/-! ## hopen (11 R319, Table 11-10) -/

/-- The checks of a handle descriptor, in ascending offset order; what its reserved fields hold is ignored (00 R8). Log entry 41 (DESIGN CHOICE). -/
def handleChecks (d : List (BitVec 8)) : List (Nat × Bool) :=
  let dims := field d 8 1
  let esize := field d 9 1
  let elem := field d 0x0B 1
  [(0x08, decide (1 ≤ dims) && decide (dims ≤ 8)), (0x09, decide (esize ≤ 4)),
    (0x0B, elem == 0 || (decide (elem ≤ 10) && elemBits elem == 8 * 2 ^ esize))] ++
  ((List.range 8).map fun i => (0x20 + 4 * i,
    if i < dims then decide (1 ≤ field d (0x20 + 4 * i) 4) && decide (field d (0x20 + 4 * i) 4 ≤ 2 ^ 31)
    else fieldZero d (0x20 + 4 * i) 4)) ++
  ((List.range 8).map fun i => (0x40 + 8 * i, decide (i < dims) || fieldZero d (0x40 + 8 * i) 8))

/-- The tile of a handle descriptor. -/
def tileOf (d : List (BitVec 8)) : Tile where
  base := field d 0 8
  esize := field d 9 1
  elem := field d 0x0B 1
  hint := field d 0x0A 1 % 4
  dims := (List.range (field d 8 1)).map fun i => (field d (0x20 + 4 * i) 4, toSigned 64 (field d (0x40 + 8 * i) 8))

/-- Whether a tile's footprint lies in 0 to 2^52 − 1. -/
def Tile.inSpace (t : Tile) : Bool :=
  decide (0 ≤ (t.base : Int) + t.bounds.1) && decide ((t.base : Int) + t.bounds.2 + (2 ^ t.esize : Nat) ≤ (2 ^ 52 : Nat))

/-- The outcome of hopen: the state, the handle's value, and STATUS. -/
def openTile (c : Issue) (d : List (BitVec 8)) : State × Nat × Nat :=
  match firstBad (handleChecks d) with
  | some o => (c.s, 0, 2 + o * 2 ^ 8)
  | none =>
    if !(tileOf d).inSpace then (c.s, 0, 3) else
    match freeHandles c.s c.g.ctx with
    | [] => (c.s, 0, 1)
    | i :: _ =>
      let r := openHandle c.s c.g.ctx i (tileOf d)
      (r.1, r.2.value, 0)

/-- hopen: a handle on the tile that the descriptor names; h and STATUS are written, and the flag has counted up and down
(11 R319). -/
def execHopen (o : OpF12) (s : State) : Host.Outcome State Fault Refusal :=
  issueAs s true 4 3 fun c =>
    let off := (c.w.getS o.f2.toNat).toNat
    guarded [noFlag c o.fsel] <| flagRoom c o.fsel <| once c [] [o.f2.toNat] <|
    withDesc c off 128 0x10 (poisonRegs c [] [o.f2.toNat] []) fun c d =>
      let r := openTile c d
      .ok (retireOnce c (writeStatus r.1 c.tm (off + 0x10) r.2.2) (fun w => w.setS o.f1.toNat (BitVec.ofNat 64 r.2.1)) 4)

/-! ## Tenure (09 R258 to R261) -/

/-- Whether the footprints of two tiles overlap, their pages standing as given. -/
def tilesOverlap (a : Tile) (pa : List (Nat × Nat)) (b : Tile) (pb : List (Nat × Nat)) : Bool :=
  pa.any fun p => (List.range 65536).any fun o =>
    inTile a.esize a.dims ((p.1 * 65536 + o : Nat) - (a.base : Int)) && b.meets pb (p.2 * 65536 + o)

/-- Whether a tenure stands against a request of a mode for a tile. -/
def Tenure.excludes (t : Tenure) (s : State) (ctx : Nat) (tile : Tile) (write : Bool) : Bool :=
  (write || t.write) && tilesOverlap t.tile t.pages tile (tile.pagesAt s ctx)

/-- Whether a tenure stands on a handle: on its index as it was opened with its serial (11 R318). -/
def Tenure.on (t : Tenure) (h : Handle) : Bool := t.ctx == h.ctx && t.index == h.index && t.serial == h.serial

/-- Whether a team holds a tenure of a mode on a handle. -/
def holdsTenure (s : State) (team : Nat) (h : Handle) (write : Bool) : Bool :=
  s.tenures.any fun t => t.team == team && t.on h && t.write == write

/-- TENURE: the handle's home stands below that of a tenure the team holds, or the request conflicts with one (09 R260). -/
def tenureFault (c : Issue) (h : Handle) (write : Bool) : Bool :=
  let home := tileHome c.s h.ctx h.tile
  c.s.tenures.any fun t => t.team == c.tm.id && (decide (home < t.slice) || t.excludes c.s h.ctx h.tile write)

/-- hacq: tenure is asked for; a mode that the team holds already is granted at once (11 R320). Log entry 42 (DEDUCED). -/
def hacqEff (s : State) (o : OpF2) (write : Bool) : Host.Outcome State Fault Refusal :=
  issueAs s true 4 3 fun c =>
    let x := (c.w.getS o.f2.toNat).toNat
    guarded [noFlag c o.fsel] <| flagRoom c o.fsel <| once c [] [o.f2.toNat] <|
    match handleOf c.s c.g.ctx x with
    | none => .error ⟨.handle, c.low, x⟩
    | some h =>
      if holdsTenure c.s c.tm.id h write then
        guarded [poisonRegs c [] [o.f2.toNat] []] <| .ok (retireOnce c c.s (fun w => w) 4)
      else
        guarded [faultIf c (tenureFault c h write) .tenure x, poisonRegs c [] [o.f2.toNat] []] <|
          let f := c.flag o.fsel
          .ok (retireOnce c (c.s.addOp (c.newOp f (.hacq write (BitVec.ofNat 64 x)) [])) (fun w => w.flagUp (some f)) 4)

/-- hacq.rd (11 R320). -/
def execHacqRd (o : OpF2) (s : State) : Host.Outcome State Fault Refusal := hacqEff s o false

/-- hacq.wr (11 R320). -/
def execHacqWr (o : OpF2) (s : State) : Host.Outcome State Fault Refusal := hacqEff s o true

/-- The context of an operation's team. -/
def ctxOf (s : State) (o : Op) : Nat := (((s.team? o.team).bind fun t => s.grid? t.grid).map (·.ctx)).getD 0

/-- Entries a tenure table holds (09 R257). -/
def tenureEntries : Nat := 64

/-- The tiles that have an entry in the tenure table of a slice. -/
def tableTiles (s : State) (slice : Nat) : List (Nat × Nat × Nat) :=
  ((s.tenures.filter fun t => t.slice == slice).map fun t => (t.ctx, t.index, t.serial)).dedup

/-- Room made in the tenure table of a slice for a tile: the oldest read tenure gives way where the table is full; none where
every entry holds write tenure, or where the holder is busy (09 R261). -/
def tableRoom (s : State) (slice : Nat) (h : Handle) : Option State :=
  let tiles := tableTiles s slice
  if tiles.contains (h.ctx, h.index, h.serial) ∨ tiles.length < tenureEntries then some s
  else match s.tenures.find? fun t => t.slice == slice && !t.write with
    | none => none
    | some t =>
      let mine := s.tenures.filter fun x => x.slice == slice && x.ctx == t.ctx && x.index == t.index && x.serial == t.serial
      if mine.any (holderBusy s) then none else some (mine.foldl (fun s x => recallOne s x true) s)

/-- Whether a word meets the footprint of a tile. -/
def tileWord (s : State) (ctx : Nat) (t : Tile) (word : Nat) : Bool := (List.range 16).any fun i => tileMeets s ctx t (16 * word + i)

/-- Whether some store that an L1 holds to a tile has to wait. -/
def tileOwed (s : State) (ctx : Nat) (t : Tile) : Bool :=
  s.pend.any fun e => tileWord s ctx t e.word && pendOwed s e.core fun x => x.word == e.word

/-- Every store that an L1 holds to a tile performed: none then comes between the writes of the tile's holder (10 R281). -/
def settleTile (s : State) (ctx : Nat) (t : Tile) : State := performAll s fun e => tileWord s ctx t e.word

/-- TENURE_GRANT: a request is granted once no other tenure excludes it and every earlier request on its footprint has been
granted (09 R258, R261), after every store to its tile that an L1 holds (10 R281). A request whose handle has been closed is dropped. Log entry 42 (DEDUCED). -/
def execTenureGrant (op : Nat) (s : State) : Host.Outcome State Fault Refusal :=
  match s.op? op with
  | some o =>
    match o.kind with
    | .hacq write x =>
      let ctx := ctxOf s o
      let done := fun s : State => (s.dropOp op).updPair o.wave fun w => w.flagDown o.flag
      match handleOf s ctx x.toNat with
      | none => .next (done s)
      | some h =>
        let before := s.ops.any fun e => decide (e.id < op) && (match e.kind with
          | .hacq _ y => (match handleOf s (ctxOf s e) y.toNat with
            | some k => tilesOverlap k.tile (k.tile.pagesAt s k.ctx) h.tile (h.tile.pagesAt s h.ctx)
            | none => false)
          | _ => false)
        if before || tileOwed s h.ctx h.tile || s.tenures.any fun t => t.excludes s h.ctx h.tile write then .next s
        else
          let slice := tileHome s h.ctx h.tile
          match tableRoom s slice h with
          | none => .next s
          | some s =>
            if tileOwed s h.ctx h.tile then .next s else
            let s := settleTile s h.ctx h.tile
            .next (done { s with tenures := s.tenures ++ [⟨slice, h.ctx, h.index, h.serial, o.team, write, h.tile, false,
              h.tile.pagesAt s h.ctx⟩] })
    | _ => .next s
  | none => .next s

/-- The bytes of memory that a held entry writes. -/
def heldLocs : Held → List Nat
  | .store w bs _ => bs.map fun b => 16 * w + b.1
  | .red _ size pa _ _ _ => (List.range size).map (pa + ·)
  | .logged _ _ _ _ _ _ => []

/-- Whether something waits for a tenure to be recalled: an operation in flight, a store that an L1 or an interval store buffer holds, or
a core's dirty word of a software-managed page. -/
def wantsRecall (s : State) (t : Tenure) (write : Bool) : Bool :=
  (s.ops.any fun e =>
    if e.isCore then e.isWrite == write && t.against e.team write (locsOf e.accesses)
    else t.against e.team write (rngLocs (if write then e.writes else e.reads))) ||
  (write && ((s.pend.any fun e => t.against e.team true (e.bytes.map fun b => 16 * e.word + b.1)) ||
    (s.teams.any fun x => x.interval.buffer.any fun h => t.against x.id true (heldLocs h)) ||
    (List.range 512).any fun core => (cacheWords s core CWord.isDirty).any fun w =>
      coreTenured s core w && (List.range 16).any fun o => t.meets (16 * w + o)))

/-- TENURE_RECALL: an access of a non-holder conflicts with the tenure of a handle; once the holder's operations on the tile
are complete, the tenure drops or is released (09 R259). Log entry 42 (DEDUCED). -/
def execTenureRecall (ctx index : Nat) (write : Bool) (s : State) : Host.Outcome State Fault Refusal :=
  let hit := s.tenures.filter fun t => t.ctx == ctx && t.index == index && wantsRecall s t write
  if hit.any (holderBusy s) then .next s
  else .next ((hit.foldl (fun s t => recallOne s t write) s).awake)

/-- hrel: the release of tenure on its way to the home (11 R320). -/
def hrelEff (s : State) (o : OpF2) (down : Bool) : Host.Outcome State Fault Refusal :=
  issueAs s true 4 3 fun c =>
    let x := (c.w.getS o.f2.toNat).toNat
    guarded [noFlag c o.fsel] <| flagRoom c o.fsel <| once c [] [o.f2.toNat] <|
    guarded [notHandle c x, poisonRegs c [] [o.f2.toNat] []] <|
      let f := c.flag o.fsel
      .ok (retireOnce c (c.s.addOp (c.newOp f (.hrel down (BitVec.ofNat 64 x)) [])) (fun w => w.flagUp (some f)) 4)

/-- hrel.drop (11 R320). -/
def execHrelDrop (o : OpF2) (s : State) : Host.Outcome State Fault Refusal := hrelEff s o false

/-- hrel.down (11 R320). -/
def execHrelDown (o : OpF2) (s : State) : Host.Outcome State Fault Refusal := hrelEff s o true

/-- A team's tenure on a handle dropped, or turned into read tenure. -/
def releaseTenure (s : State) (team : Nat) (h : Handle) (down : Bool) : State :=
  let mine := fun t : Tenure => t.team == team && t.on h
  { s with tenures :=
      if down then s.tenures.map fun t => if mine t then { t with write := false } else t
      else s.tenures.filter fun t => !mine t }

/-- Whether an earlier store of a wave to a tile has still to be performed. -/
def storesOwed (s : State) (wave before ctx : Nat) (t : Tile) : Bool :=
  (s.ops.any fun e => e.wave == wave && decide (e.id < before) && e.isCore && e.isWrite &&
    (locsOf e.accesses).any fun l => tileMeets s ctx t l) ||
  s.held.any fun h => h.wave == wave && decide (h.op.id < before)

/-- HREL_EFFECT: once the wave's earlier stores to the footprint have been performed at their homes, the tenure is dropped or
turned into read tenure, and the flag counts down (11 R320). -/
def execHrelEffect (op : Nat) (s : State) : Host.Outcome State Fault Refusal :=
  match s.op? op with
  | some o =>
    match o.kind, coreOf s o with
    | .hrel down x, some core =>
      let done := fun s : State => (s.dropOp op).updPair o.wave fun w => w.flagDown o.flag
      match handleOf s (ctxOf s o) x.toNat with
      | none => .next (done s)
      | some h =>
        if storesOwed s o.wave op h.ctx h.tile || tileOwed s h.ctx h.tile || cleanWaits s core (tileWord s h.ctx h.tile) then .next s
        else .next (done (releaseTenure (drainCore s core (tileWord s h.ctx h.tile)) o.team h down)).awake
    | _, _ => .next s
  | none => .next s

/-! ## hsplit and hclose (11 R321, R322) -/

/-- The two tiles of a split along dimension d at point p. -/
def splitTile (t : Tile) (d p : Nat) : Option (Tile × Tile) :=
  match t.dims[d]? with
  | none => none
  | some (ext, str) =>
    if 1 ≤ p ∧ p < ext then
      some ({ t with dims := t.dims.set d (p, str) },
        { t with base := wrapN 64 ((t.base : Int) + p * str), dims := t.dims.set d (ext - p, str) })
    else none

/-- A handle closed. -/
def closeHandle (s : State) (h : Handle) : State := { s with handles := s.handles.erase h }

/-- A handle split: the state and the two new handles; none where the split fails (11 R321). -/
def splitHandle (s : State) (h : Handle) (d p : Nat) : Option (State × Nat × Nat) :=
  match splitTile h.tile d p, freeHandles s h.ctx with
  | some (a, b), i :: j :: _ =>
    let home := tileHome s h.ctx b
    if tenureEntries ≤ (tableTiles s home).length then none
    else
      let r := openHandle s h.ctx i a
      let q := openHandle r.1 h.ctx j b
      let s := closeHandle q.1 h
      let split := fun t : Tenure =>
        if t.on h then
          [{ t with index := i, serial := r.2.serial, tile := a }, { t with slice := home, index := j, serial := q.2.serial, tile := b }]
        else [t]
      some ({ s with tenures := s.tenures.flatMap split }, r.2.value, q.2.value)
  | _, _ => none

/-- hsplit: two handles in place of one (11 R321). -/
def execHsplit (o : OpY123) (s : State) : Host.Outcome State Fault Refusal :=
  issueAs s (evenReg o.f1) 4 3 fun c =>
    let x := (c.w.getS o.f2.toNat).toNat
    let spec := (c.w.getS o.f3.toNat).toNat
    let rs := [o.f2.toNat, o.f3.toNat]
    let r := o.f1.toNat
    once c [] rs <|
    match handleOf c.s c.g.ctx x with
    | none => .error ⟨.handle, c.low, x⟩
    | some h =>
      guarded [poisonRegs c [] rs []] <|
      match splitHandle c.s h (bitsN spec 0 3) (bitsN spec 32 32) with
      | some (s, a, b) =>
        .ok (retireOnce c s (fun w => (w.setS r (BitVec.ofNat 64 a)).setS (r + 1) (BitVec.ofNat 64 b)) 4)
      | none => .ok (retireOnce c c.s (fun w => (w.setS r 0).setS (r + 1) 0) 4)

/-- hclose: hrel.drop on any tenure the team holds, and the index is free (11 R322). The instruction waits for the stores that
the release follows. -/
def execHclose (o : OpY2) (s : State) : Host.Outcome State Fault Refusal :=
  issueAs s true 4 3 fun c =>
    let x := (c.w.getS o.f2.toNat).toNat
    once c [] [o.f2.toNat] <|
    match handleOf c.s c.g.ctx x with
    | none => .error ⟨.handle, c.low, x⟩
    | some h =>
      guarded [poisonRegs c [] [o.f2.toNat] []] <|
        if storesOwed c.s c.w.id c.s.nextId h.ctx h.tile || tileOwed c.s h.ctx h.tile ||
            cleanWaits c.s c.tm.core (tileWord c.s h.ctx h.tile) then .ok c.stall
        else
          let s := releaseTenure (drainCore c.s c.tm.core (tileWord c.s h.ctx h.tile)) c.tm.id h false
          .ok (retireOnce c (closeHandle s h) (fun w => w) 4)

/-- The addresses of a tile's elements. -/
def Tile.elems (t : Tile) : List Nat :=
  (t.dims.foldl (fun l d => l.flatMap fun a => (List.range d.1).map fun i => a + (i : Int) * d.2) [(t.base : Int)]).map (wrapN 64)

/-- pfetch.handle: a prefetch of a handle's tile with the hint of its descriptor (11 R315). -/
def execPfetchHandle (o : OpF2) (s : State) : Host.Outcome State Fault Refusal :=
  issueAs s true 4 3 fun c =>
    let x := (c.w.getS o.f2.toNat).toNat
    guarded [noFlag c o.fsel] <| flagRoom c o.fsel <| once c [] [o.f2.toNat] <|
    match handleOf c.s c.g.ctx x with
    | none => .error ⟨.handle, c.low, x⟩
    | some h =>
      guarded [poisonRegs c [] [o.f2.toNat] []] <|
        .ok (startFetch c (c.flag o.fsel) h.tile.hint (h.tile.elems.flatMap fun a => pagePieces 2 a (2 ^ h.tile.esize)))

end Sys2Proof.Machine
end

