-- ==== Sys2Proof/Machine/Save.lean ====
section
/-! DEFINITION. Saving and restoring teams, writing fault records, and writing hulls (02 R53 to R56; 18 R407, R408, R415 to
R418; 19 R435, R438 to R443; 20 R455 to R458). -/

namespace Sys2Proof.Machine

/-! ## Management mailboxes (21 R468), and the halt of a partition -/

/-- OPCODE and SEQ of the command a mailbox holds. -/
def Mailbox.opcode (b : Mailbox) : Nat := bitsN b.cmd.toNat 0 16

/-- Whether a mailbox performs a command (21 Table 21-6). -/
def Mailbox.busy (b : Mailbox) : Bool := bitsN b.stat.toNat 0 8 == 1

/-- A command done (2) or refused (3) with a reason (21 Table 21-6). -/
def Mailbox.finish (b : Mailbox) (state reason : Nat) : Mailbox :=
  { b with stat := BitVec.ofNat 32 (state + reason * 2 ^ 8 + bitsN b.cmd.toNat 16 16 * 2 ^ 16) }

/-- A field of n bytes of the argument that a command was started with (21 R468). -/
def Mailbox.argN (b : Mailbox) (o n : Nat) : Nat := leNat ((List.range n).map fun i => get 0#8 b.taken (o + i))

/-- A mailbox whose PARTHALT of a partition is now done. -/
def Mailbox.halted (b : Mailbox) (part : Nat) : Mailbox :=
  if b.busy && b.opcode == 3 && b.argN 0 1 == part then b.finish 2 0 else b

/-- Whether an HBM stack is in service: some channel of it is. -/
def stackUp (s : State) (stack : Nat) : Bool := (List.range 33).any fun c => unitState s 3 (33 * stack + c) == 0

/-- The enabled counts (21 Table 21-5). Log entry 83 (DESIGN CHOICE). -/
def countsWord (s : State) : Nat :=
  inService s 1 0 + inService s 1 1 * 2 ^ 8 + inService s 2 0 * 2 ^ 16 + inService s 2 1 * 2 ^ 24 +
    (List.range 8).countP (stackUp s) * 2 ^ 32 + (s.out.links.countP fun l => l.up) * 2 ^ 40

/-- The enabled counts written by Apex firmware. -/
def writeCountsReg (s : State) : State := s.updOut fun o => { o with counts := BitVec.ofNat 64 (countsWord s) }

/-- A partition that is set up and not halted. -/
def Partition.running (p : Partition) : Bool := !p.halted

/-- The enabled counts written where no partition runs, after what has left service since (21 R467). -/
def noteCounts (s : State) : State := if s.parts.any Partition.running then s else writeCountsReg s

/-- Whether no team of a partition is resident any more. -/
def partRest (s : State) (part : Nat) : Bool :=
  !(s.teams.any fun t => t.state == .resident && ((s.grid? t.grid).map (·.part)) == some part)

/-- A partition that was to be halted is halted once its last team is saved, and its PARTHALT is done (21 R467, Table 21-7). -/
def settleHalt (s : State) (part : Nat) : State :=
  match s.part? part with
  | some p =>
    if p.haltReq && partRest s part then
      noteCounts ((s.updPart part fun p => { p with haltReq := false, halted := true }).updOut fun o =>
        { o with box := o.box.halted part, port := o.port.halted part })
    else s
  | none => s

/-! ## Fault records (18 R407, R408; 19 R442) -/

/-- Whether a record is one of a wave of a team: a fault, trap, breakpoint or halt, or the team's rollback (18 R408, 19 R442). -/
def recordOf (t : Team) (r : Rec) : Bool :=
  (decide (r.kind ≤ 3) || (r.kind == 8 && r.code == 1)) && r.team == t.t && r.gid == some t.grid

/-- Whether a context's fault queue is full: FQHEAD − FQTAIL is its size (18 R408). -/
def queueFull (s : State) (cx : Context) : Bool :=
  (cx.fqHead + 2 ^ 32 - physField s (secureCtx s cx) (cx.record + 0x1C) 4) % 2 ^ 32 == 2 ^ cx.fqLog

/-- The 64 bytes of a record with its serial number (18 Table 18-7). -/
def recBytes (r : Rec) (seq : Nat) : List (BitVec 8) :=
  leBytes 1 r.kind ++ leBytes 1 r.code ++ leBytes 1 r.thread ++ leBytes 1 r.wave ++ leBytes 4 r.team ++ leBytes 8 r.grid ++
    leBytes 8 r.pc ++ leBytes 8 r.addr ++ leBytes 2 r.field ++ leBytes 2 r.core ++ List.replicate 20 0 ++ leBytes 8 seq

/-- The oldest record of a context that may be written now: one of a saved team's wave waits in the team's image. -/
def nextRecord (s : State) (ctx : Nat) : Option Rec :=
  s.records.find? fun r => r.ctx == ctx && !(s.teams.any fun t => t.state == .saved && recordOf t r)

/-- A grid that has neither completed nor ended. -/
def Grid.live (g : Grid) : Bool := g.state != .completed && g.state != .ended

/-- The location of a context page's field in BAR0 (21 Table 21-1). -/
def ctxPage (ctx : Nat) : Nat := 0x1000000 + 0x1000 * ctx

/-- n bytes of the stored BAR0 registers. -/
def State.barN (s : State) (off n : Nat) : Nat := leNat ((List.range n).map fun i => get 0#8 s.out.bar0 (off + i))

/-- n bytes of the stored BAR0 registers written. -/
def State.barPut (s : State) (off n x : Nat) : State :=
  s.updOut fun o => { o with bar0 := ((leBytes n x).zip (List.range n)).foldl (fun m b => put 0#8 m (off + b.2) b.1) o.bar0 }

/-- A record whose queue cannot be written: it goes to the partition's Apex log, and the grid is ended (18 R408). Log entry 64 (DEDUCED). -/
def logRecord (s : State) (r : Rec) : State :=
  let s := s.updOut fun o => { o with apexLog := o.apexLog ++ [r] }
  match (r.gid.bind s.grid?).filter Grid.live with
  | some g => settleHalt (endGrid s g.id .ended) g.part
  | none => s

/-- MSI-X vectors of a function (21 R460). -/
def msixVectors : Nat := 2048

/-- The owner of a non-secure context signalled: the vector of the virtual function that serves its partition, where the function has it
(18 R408; 21 R460). Log entry 68 (DEDUCED). -/
def signal (s : State) (cx : Context) : State :=
  let v := s.barN (ctxPage cx.id + 0x10) 2
  if secureCtx s cx || decide (msixVectors ≤ v) then s else s.updOut fun o => { o with signals := o.signals ++ [(cx.part, v)] }

/-- A record written at the queue's next place: SEQ last, then FQHEAD raised, and the owner signalled (18 R408); it waits for recalls of
tenures that stand against it (09 R259) and for a census (19 R450). Log entry 64 (DEDUCED), Log entry 68 (DEDUCED). -/
def putRecord (s : State) (cx : Context) (r : Rec) : State :=
  let gone := fun s : State => { s with records := s.records.erase r }
  match translateSpan s cx unitCore true .write (cx.fqBase + 64 * (cx.fqHead % 2 ^ cx.fqLog)) 64 with
  | .error _ => logRecord (gone s) r
  | .ok (locs, xs) =>
    if slicesFull s cx.part locs || locs.any fun l => keptWord s s.nextId (l / 16) then s else
    match recallFor s s.nextId true locs with
    | none => s
    | some s =>
      let s := touchLeaves (gone s) unitCore true xs
      let s := engineWrite s unitCore (locs.zip ((recBytes r (cx.fqHead + 1)).map fun b => (b, false)))
      let s := physPut s (secureCtx s cx) (cx.record + 0x18) 4 (cx.fqHead + 1)
      signal (s.updCtx cx.id fun c => { c with fqHead := c.fqHead + 1 }) cx

/-- FAULT_RECORD_WRITE: the oldest waiting record of a context is written where its queue has room (18 R408). Log entry 64 (DEDUCED). -/
def execFaultRecordWrite (ctx : Nat) (s : State) : Host.Outcome State Fault Refusal :=
  match s.ctx? ctx, nextRecord s ctx with
  | some cx, some r => if queueFull s cx then .next s else .next (putRecord s cx r).awake
  | _, _ => .next s

/-! ## Coming to rest (02 R54, R55; 18 R415; 20 R456) -/

/-- The teams that are saved and restored together with a team: its gang, and the other team of a cross-core group
(02 R37, 19 R447). -/
def companions (s : State) (t : Team) : List Team :=
  match s.grid? t.grid with
  | none => [t]
  | some g => (s.teamsOf t.grid).filter fun x => x.t / g.gangSize == t.t / g.gangSize

/-- The wave whose operations a wave's flags count: the leader's in a redundant pair. -/
def Wave.lead (w : Wave) : Nat :=
  match w.role with
  | .trailer l => l
  | _ => w.id

/-- Whether an operation is a request for tenure that still waits. -/
def Op.isHacq (o : Op) : Bool :=
  match o.kind with
  | .hacq _ _ => true
  | _ => false

/-- Whether all that the flags of a mask count is requests for tenure, and some flag counts one (02 R54). -/
def onlyHacq (s : State) (w : Wave) (m : BitVec 12) : Bool :=
  let ns := (List.range 12).filter fun n => m.getLsbD n
  ns.all (fun n => w.getF n == s.ops.countP fun o => o.isHacq && o.wave == w.lead && o.flag == n) && ns.any fun n => w.getF n != 0

/-- Whether a wave has come to rest (02 R54). A barrier-0 arrival that holds the wave counts as Blocked, and so does a trailer
at the instruction at which its leader is Blocked or held. Log entry 60 (DEDUCED). -/
def atRest (s : State) (w : Wave) : Bool :=
  match w.state with
  | .atYield _ | .blocked | .parked | .retired => true
  | .waitFlags m => onlyHacq s w m
  | .saved => false
  | .ready => w.held || (match w.role with
    | .trailer l => match s.wave? l with
      | some x => (x.state == .blocked || x.held) && w.retired == x.retired
      | none => false
    | _ => false)

/-- Whether a party of a pair stands where the other does, with nothing still to pass between them (20 R456). Log entry 60 (DEDUCED). -/
def pairRest (s : State) (w : Wave) : Bool :=
  match w.partner? with
  | none => true
  | some p => w.sigs == [] && w.lvq == [] && !(s.held.any fun h => h.wave == w.id) && (s.wave? p).all fun x => x.retired == w.retired

/-- Whether a team may be saved: its waves are at rest, their operations are complete but for requests for tenure, the stores of its core
can reach their homes, and their records wait only for want of room (02 R54, R55; 18 R415). Log entry 60 (DEDUCED). -/
def teamRest (s : State) (t : Team) : Bool :=
  (s.wavesOf t.id).all (fun w => atRest s w && pairRest s w) &&
  s.ops.all (fun o => o.team != t.id || o.isHacq) && storesRest s t &&
  !(s.records.any fun r => recordOf t r && !((s.ctx? r.ctx).map (queueFull s)).getD true)

/-! ## Saving (18 R415, R416) -/

/-- The copies of a team that have slices but have not started, withdrawn: code 13, and the slices' flags count down
(11 R311). -/
def withdrawCopies (s : State) (t : Team) : State :=
  (t.gatherings.foldl (fun s g =>
    g.slices.foldl (fun s p => s.updPair p.1 fun w => w.flagDown p.2.1) (writeStatus s t (g.desc + 0x20) (copyStatus 13 0 0))) s).updTeam
      t.id fun t => { t with gatherings := [] }

/-- The tenure requests of a team withdrawn from their homes and kept in its image (09 R261). -/
def withdrawHacqs (s : State) (t : Team) : State :=
  let mine := (s.ops.filter fun o => o.team == t.id).filterMap fun o =>
    match o.kind with
    | .hacq write h => some ⟨o.wave, o.flag, h, write⟩
    | _ => none
  State.updTeam { s with ops := s.ops.filter fun o => o.team != t.id } t.id fun t => { t with withdrawn := t.withdrawn ++ mine }

/-- The state a wave's image gives it back (18 R418). -/
def imageState : WState → WState
  | .parked => .parked
  | .waitFlags m => .waitFlags m
  | _ => .ready

/-- A wave as its image holds it (02 R55, R56; 20 R455): at a yield the registers above the live count are lost.
Log entry 27 (DEDUCED), Log entry 60 (DEDUCED). -/
def Wave.toImage (w : Wave) (vregs launched : Nat) : Wave :=
  let keeps := match w.state with
    | .parked | .waitFlags _ => true
    | _ => false
  let x : Wave := match w.state with
    | .atYield live => (List.range (vregs - live)).foldl (fun (x : Wave) k =>
        x.setVs (live + k) (List.range launched) fun _ => poisonValue (live + k)) w
    | _ => w
  { x with
    state := if w.state = .retired then .retired else .saved
    savedState := imageState w.state
    block := match w.block with
      | some (.barrier t i p pc scope) => some (.barrier t i p pc scope)
      | _ => none
    sel := if keeps then w.sel else none
    boost := false
    finj := none }

/-- The replicas that the team's grid may have filled in the near slice of its core dropped (09 R251). Log entry 9 (DEDUCED). -/
def dropNear (s : State) (core : Nat) : State := { s with blocks := s.blocks.filter fun b => b.cache != replicaCache s core }

/-- One team brought to rest and its image written (09 R251; 18 R415, R416; 19 R435). Log entry 60 (DEDUCED). -/
def saveTeam (s : State) (g : Grid) (t : Team) : State :=
  let s := withdrawHacqs (withdrawCopies s t) t
  let s := returnTokens s ((s.wavesOf t.id).map (·.id))
  let s := match s.ctx? g.ctx with
    | some cx => unmapAll s cx t.id
    | none => s
  let s := dropNear (drainCore (releaseBuffer s t.id) t.core fun _ => true) t.core
  let l := (g.member t.t).1
  let n := fun w : Wave => launched l (g.member t.t).2.2 (w.w % l.waves)
  let image := fun w : Wave => if w.team = t.id then w.toImage l.vregs (n w) else w
  let s := State.updTeam { s with
      monitors := s.monitors.filter fun m => !((s.wavesOf t.id).any fun w => w.id == m.wave)
      waves := s.waves.map image } t.id fun t =>
    { t with state := .saved, saveReq := false, stash := [], area := none, imageBad := []
             interval := { t.interval with buffer := [], locked := [], replay := [], rolled := [] } }
  spillImages s (clusterOf t.core)

/-- Whether a team of which a save is asked for goes no further but by the withdrawal of its copies that have not started: each of its
waves is at rest or waits on flags (11 R311). -/
def copiesHold (s : State) (t : Team) : Bool :=
  t.gatherings != [] && (s.wavesOf t.id).all fun w => atRest s w || (match w.state with
    | .waitFlags _ => true
    | _ => false)

/-- TEAM_SAVE: a team that is to be pre-empted is saved with its gang, or its cross-core group, once all are at rest; until then
the save stands as asked for, and copies that have not started are withdrawn where waves wait for them (11 R311; 18 R415 to R417). -/
def execTeamSave (team : Nat) (s : State) : Host.Outcome State Fault Refusal :=
  match s.team? team with
  | none => .next s
  | some t =>
    match s.grid? t.grid with
    | none => .next s
    | some g =>
      if t.state ≠ .resident then .next s else
      let ts := (companions s t).filter fun x => x.state == .resident
      if ts.all (teamRest s) then
        .next (settleHalt (haltCheck (ts.foldl (fun s x => saveTeam s g x) s) g.id) g.part).awake
      else
        let s := (ts.filter (copiesHold s)).foldl withdrawCopies s
        .next { s with teams := s.teams.map fun x => if ts.any (fun y => y.id == x.id) then { x with saveReq := true } else x }

/-! ## Restoring (18 R418) -/

/-- Whether a record of a grid's recovery waits: until it is written no team of the grid is continued or restored (19 R442). -/
def recoveryWaits (s : State) (g : Grid) : Bool :=
  s.records.any fun r => (r.kind == 7 || (r.kind == 8 && r.code != 1)) && r.gid == some g.id

/-- What the bytes of team images, with the marks of their words, describe where the device has not written them as they stand: the form
is internal to the device (19 R443). Log entry 62 (DESIGN CHOICE). -/
opaque readImages : List (BitVec 8 × Bool) → Option (List Team × List Wave)

/-- Whether a wave of an image holds values that a saved wave of n threads can hold (18 Table 18-11; 19 R443). -/
def Wave.imageOk (l : Launch) (n : Nat) (w : Wave) : Bool :=
  (w.state == .saved || w.state == .retired) &&
  (match w.savedState with
    | .ready | .parked | .waitFlags _ => true
    | _ => false) &&
  w.v.all (fun p => decide (p.1 < 32 * l.vregs)) && w.a.all (fun p => decide (p.1 < 32 * l.accs)) &&
  w.s.all (fun p => decide (p.1 < 64)) && w.p.all (fun p => decide (p.1 < 32 * 7)) &&
  w.flags.all (fun p => decide (p.1 < 12) && decide (p.2 ≤ 63)) && w.seed != 0 && decide (w.left ≤ 2 ^ 21) &&
  w.frontier.all (fun e => decide (e.prio < 8) && e.pc % 2 == 0 && e.mask != 0 && e.mask &&& ~~~(firstThreads n) == 0) &&
  decide (w.frontier.Pairwise fun a b => posLt (a.prio, a.pc) (b.prio, b.pc) = true ∧ a.mask &&& b.mask = 0) &&
  w.rcvMember.all (fun p => decide (p.1 < 4)) && w.rcvWait.all (fun p => decide (p.1 < 4)) &&
  !w.boost && !w.held && w.fence.isNone && w.finj.isNone && w.lvq == [] && w.sigs == []

/-- Whether the images of some teams have the form that the device writes for a grid (18 Table 18-11; 19 R443). -/
def imagesOk (g : Grid) (us : List Team) (ws : List Wave) : Bool :=
  us.all (fun u =>
    let m := g.member u.t
    let mine := ws.filter fun w => w.team == u.id
    u.state == .saved && !u.trailing && decide (u.t < g.total) && u.sp.all (fun c => decide (c.1 < m.1.spBytes)) &&
    u.queues.all (fun q => decide (q.1 < 4 * m.1.waves) && decide (q.2.length ≤ m.1.stageDepth)) &&
    (createdWaves m.1 m.2.2).all (fun n => mine.any fun w => w.w == n) &&
    mine.all (fun w => (createdWaves m.1 m.2.2).contains w.w && w.imageOk m.1 (launched m.1 m.2.2 (w.w % m.1.waves)))) &&
  decide (us.Pairwise fun a b => a.t < b.t)

/-- A saved wave with what an image gives it. -/
def Wave.fillFrom (w x : Wave) : Wave := { x with id := w.id, team := w.team, role := w.role }

/-- A saved team and its waves with what the image of a team gives them; its withdrawn requests name the waves by their indices in the
image. -/
def fillTeam (t u : Team) (ws mine : List Wave) : Team × List Wave :=
  let src := fun w : Wave => mine.find? fun x => x.w == w.w
  let idOf := fun i : Nat => ((mine.find? fun x => x.id == i).bind fun x => (ws.find? fun w => w.w == x.w).map (·.id)).getD i
  ({ t with
      state := .saved, sp := u.sp, spBad := u.spBad, queues := u.queues
      withdrawn := u.withdrawn.map fun x => { x with wave := idOf x.wave } },
    ws.map fun w => ((src w).map w.fillFrom).getD w)

/-- The bytes of n bytes of HBM and whether each lies in a marked word. -/
def markedBytes (s : State) (loc n : Nat) : List (BitVec 8 × Bool) :=
  (List.range n).map fun i => (readHome s (loc + i), markAt s (loc + i) != .ok)

/-- A saved team and its waves as their image holds them: where it stands in SAVEAREA, as HBM has it now; none where what stands there has
not the form of an image (18 R416, R418). Log entry 60 (DEDUCED). -/
def storedImage (s : State) (g : Grid) (t : Team) : Option (Team × List Wave) :=
  match t.area with
  | none => some (t, s.wavesOf t.id)
  | some (pa, n) =>
    let img := areaImage n
    let now := markedBytes s (s.here pa) img.length
    if now = img.map fun b => (b, false) then some (t, s.wavesOf t.id)
    else match readImages now with
      | some ([u], ws) => if u.t == t.t && imagesOk g [u] ws then some (fillTeam t u (s.wavesOf t.id) (ws.filter fun w => w.team == u.id)) else none
      | _ => none

/-- Whether a saved team may be restored now. Log entry 61 (DEDUCED). -/
def mayRestore (s : State) (t : Team) (g : Grid) : Bool :=
  t.state == .saved && g.state == .running && !(recoveryWaits s g) &&
    (companions s t).all (fun x => x.state != .saved || (storedImage s g x).isSome) &&
    ((s.part? g.part).map fun p => !(p.halted || p.haltReq)).getD false

/-- The teams that are placed with a saved team, in the order of their cores: by index, a leading team before its trailing one;
the ended teams of a gang keep their allocations (02 R39). -/
def placedWith (s : State) (t : Team) : List Team :=
  ((companions s t).filter fun x => x.state == .saved || x.state == .ended).mergeSort fun x y =>
    decide (2 * x.t + (if x.trailing then 1 else 0) ≤ 2 * y.t + (if y.trailing then 1 else 0))

/-- Whether the teams restored together fit on cores (02 R36, R37). Log entry 61 (DEDUCED). -/
def restoreFits (s : State) (g : Grid) (ts : List Team) (cores : List Nat) : Bool :=
  cores.length == ts.length && coresOk s g.part g.ctx cores &&
  (ts.zip cores).all fun p =>
    let m := g.member p.1.t
    fitsCore s m.1 (if p.1.state = .saved then createdWaves m.1 m.2.2 else []) p.2

/-- The image of a saved team brought back from SAVEAREA (18 R418). -/
def fetchImage (s : State) (g : Grid) (t : Team) : State :=
  match storedImage s g t with
  | some (u, ws) =>
    if t.area.isNone then s else
    { s with
      teams := s.teams.map fun x => if x.id = t.id then { u with area := none } else x
      waves := s.waves.map fun x => (ws.find? fun w => w.id == x.id).getD x }
  | none => s

/-- A team given its core again. -/
def placeAgain (s : State) (g : Grid) (t : Team) (core : Nat) : State :=
  let s := if t.state = .saved then fetchImage s g t else s
  let base := (freePlace s core g.launch.spBytes).getD 0
  let s := freshen (clearCluster s (clusterOf core) g.ctx) core
  State.updTeam { s with gated := del s.gated core } t.id fun t =>
    { t with core := core, spBase := base, state := if t.state = .saved then .resident else t.state }

/-- The trailing team of a cross-core group recreated from the leading team's image (20 R456). Log entry 61 (DEDUCED). -/
def copyImage (s : State) (t : Team) : State :=
  match t.trailing, t.peer.bind s.team? with
  | true, some l =>
    { s with
      teams := s.teams.map fun x =>
        if x.id = t.id then { x with sp := l.sp, spBad := l.spBad, queues := l.queues, interval := l.interval } else x
      waves := s.waves.map fun w =>
        if w.team = t.id then
          match s.wave? w.lead with
          | some x => { x with id := w.id, team := w.team, role := w.role }
          | none => w
        else w }
  | _, _ => s

/-- The tenure requests of a restored team submitted again, in the order of their homes (09 R261). Log entry 42 (DEDUCED), Log entry 61 (DEDUCED). -/
def resubmit (s : State) (g : Grid) (team : Nat) : State :=
  match s.team? team with
  | none => s
  | some t =>
    let home := fun x : Withdrawn => ((handleOf s g.ctx x.handle.toNat).map fun h => tileHome s g.ctx h.tile).getD 0
    let l := t.withdrawn.mergeSort fun x y => decide (home x ≤ home y)
    (l.foldl (fun s x => s.addOp ⟨s.nextId, x.wave, team, 0, 0, x.flag, .hacq x.write x.handle, [], false, [], []⟩) s).updTeam team
      fun t => { t with withdrawn := [] }

/-- A restored team's waves given their states: one whose threads all wait at an rcvwait waits there again (14 R334, 18 R418). -/
def wakeImage (s : State) (team : Nat) : State :=
  { s with waves := s.waves.map fun w => if w.team = team ∧ w.state = .saved then { w with state := w.savedState }.settle else w }

/-- One saved team restored where it has been placed: its pending arrivals, its waves' states, its requests for tenure, and the
interval that begins, whose shadow copy is the image (18 R418; 19 R429, R435). Log entry 61 (DEDUCED). -/
def restoreTeam (s : State) (g : Grid) (t : Team) : State :=
  if t.state ≠ .saved then s
  else
    let s := resubmit (wakeImage (applyArrivals (copyImage s t) t.id) t.id) g t.id
    spillImages (beginInterval (s.updTeam t.id fun t =>
      { t with interval := { t.interval with shadowWaves := [], shadowBad := t.spBad } }) t.id) (((s.team? t.id).map fun t => clusterOf t.core).getD 0)

/-- TEAM_RESTORE: a saved team, with its gang or cross-core group, placed on the cores named and its image written back
(18 R418). -/
def execTeamRestore (team : Nat) (cores : List Nat) (s : State) : Host.Outcome State Fault Refusal :=
  match s.team? team with
  | none => .next s
  | some t =>
    match s.grid? t.grid with
    | none => .next s
    | some g =>
      let ts := placedWith s t
      if mayRestore s t g && restoreFits s g ts cores then
        let s := (ts.zip cores).foldl (fun s p => placeAgain s g p.1 p.2) s
        .next (wakeArrivals (ts.foldl (fun s x => restoreTeam s g x) s)).awake
      else .next s

/-! ## Hulls (19 R438 to R440; 20 R456, R458) -/

/-- Bytes that the block CRC array of n blocks takes: 4 a block, padded to a multiple of 4 KiB. -/
def arrayBytes (n : Nat) : Nat := (4 * n + 4095) / 4096 * 4096

/-- The image blocks of a hull: their number and bytes are the device's own (19 R440, R443). Log entry 62 (DESIGN CHOICE). -/
def hullImage (gen : Nat) : List (BitVec 8) := (List.range (4096 * Config.hullBlocks gen)).map (Config.hullByte gen)

/-- Block n of an image. -/
def block (img : List (BitVec 8)) (n : Nat) : List (BitVec 8) := (img.drop (4096 * n)).take 4096

/-- The CRCs of the blocks of an image of n blocks. -/
def blockCrcs (img : List (BitVec 8)) (n : Nat) : List (BitVec 8) := (List.range n).flatMap fun i => leBytes 4 (crc32c (block img i)).toNat

/-- The block CRC array of an image of n blocks, with its padding. -/
def crcArray (img : List (BitVec 8)) (n : Nat) : List (BitVec 8) := blockCrcs img n ++ List.replicate (arrayBytes n - 4 * n) 0

/-- A hull's header but for SEALED, which is written last (19 Table 19-5). -/
def hullHeader (gen grid ctx teams next blocks crc ended : Nat) : List (BitVec 8) :=
  leBytes 8 gen ++ leBytes 8 grid ++ leBytes 2 ctx ++ leBytes 2 0 ++ leBytes 4 teams ++ leBytes 8 next ++ leBytes 8 blocks ++
    leBytes 4 crc ++ leBytes 4 0 ++ leBytes 8 0 ++ leBytes 8 ended ++ List.replicate 4032 0

/-- The teams whose images a hull holds, with the ended teams of their gangs, whose allocations stand. -/
def heldTeams (s : State) (grid : Nat) : List Team :=
  (s.teamsOf grid).filter fun t => t.state == .saved || (t.state == .ended && (companions s t).any fun x => x.state == .saved)

/-- A hull of a halted grid written into a slot and sealed; then LASTGEN and LASTSLOT, and the record of kind 7 (19 R439,
R440). Log entry 62 (DESIGN CHOICE). -/
def sealHull (s : State) (cx : Context) (g : Grid) (gen slot : Nat) : State :=
  let pa := (hullSlot s cx slot).1
  let n := Config.hullBlocks gen
  let img := hullImage gen
  let arr := crcArray img n
  let held := heldTeams s g.id
  let count := held.countP fun t => t.state == .saved && !t.trailing
  let crc := (crc32c (img ++ arr)).toNat
  let s := writeHome s (s.here pa) (hullHeader gen g.recAddr cx.id count g.nextTeam n crc g.ended)
  let s := writeHome s (s.here (pa + 4096)) (arr ++ img)
  let s := writeHomeN s (s.here (pa + 0x30)) 8 gen
  let s := physPut s (secureCtx s cx) (cx.saveArea + 0x20) 8 gen
  let s := physPut s (secureCtx s cx) (cx.saveArea + 0x28) 1 slot
  let s : State := { s with hulls := s.hulls ++
    [⟨slot, gen, g.recAddr, cx.id, img, held, s.waves.filter fun w => held.any fun t => t.id == w.team⟩] }
  (s.addRec (g.record 7 0 pa 0)).updGrid g.id fun g => { g with hullReq := none }

/-- HULL_WRITE: the hull of a halted grid, or of one whose last team has ended as it halted, is written and sealed; one that does not fit
its slot is not, and the grid goes on as after action 3 (19 R439). Log entry 63 (DEDUCED). -/
def execHullWrite (grid : Nat) (s : State) : Host.Outcome State Fault Refusal :=
  match s.grid? grid with
  | none => .next s
  | some g =>
    match g.hullReq, s.ctx? g.ctx with
    | some gen, some cx =>
      if g.state ≠ .halted ∧ g.state ≠ .completed then .next s else
      let slot := hullTarget s cx
      let n := Config.hullBlocks gen
      if slotUsable s cx slot && decide (4096 + arrayBytes n + 4096 * n ≤ (hullSlot s cx slot).2) then .next (sealHull s cx g gen slot)
      else .next (tryComplete ((s.addRec (g.record 8 5 0 0)).updGrid grid fun g =>
        { g with hullReq := none, state := if g.state = .completed then .completed else .running }) grid)
    | _, _ => .next s

end Sys2Proof.Machine
end

