-- ==== Sys2Proof/Machine/Service.lean ====
section
/-! DEFINITION. Service commands, the restore of a grid from a hull, and setting up and retiring contexts (18 R398, R405, R409,
R420 to R422; 19 R441 to R443; 21 R463, R473). -/

namespace Sys2Proof.Machine

/-! ## Service commands (18 R409; 19 R441; 20 R457; 21 R463) -/

/-- GRID of a context's service command (21 Table 21-2). -/
def serviceGrid (s : State) (ctx : Nat) : Nat := s.barN (ctxPage ctx + 0x20) 8

/-- The handler or hull slot address of a context's service command. -/
def serviceAddr (s : State) (ctx : Nat) : Nat := s.barN (ctxPage ctx + 0x30) 8

/-- Whether a grid is one that a context's command may name. -/
def namesGrid (s : State) (ctx : Nat) (g : Grid) : Bool := g.live && g.ctx == ctx && g.recAddr == serviceGrid s ctx

/-- The parked wave that a context's command names, and its grid; a redundant pair is named by its leader. -/
def serviceWave (s : State) (ctx : Nat) : Option (Grid × Wave) :=
  let t := s.barN (ctxPage ctx + 0x28) 4
  let n := s.barN (ctxPage ctx + 0x2C) 1
  s.waves.findSome? fun w =>
    match s.team? w.team with
    | none => none
    | some tm => match s.grid? tm.grid with
      | none => none
      | some g =>
        let lead := match w.role with
          | .trailer _ => false
          | _ => true
        if lead && namesGrid s ctx g && tm.t == t && w.w == n && w.state == .parked then some (g, w) else none

/-- A wave resumed: Ready at its PC (18 R409). Log entry 14 (DEDUCED). -/
def Wave.resume (w : Wave) : Wave := { w with state := .ready, sel := none }.settle

/-- SERVICE_RESUME: action 0 (18 R409). -/
def execServiceResume (ctx : Nat) (s : State) : Host.Outcome State Fault Refusal :=
  match serviceWave s ctx with
  | some (_, w) => if w.final then .next s else .next (s.awake.updPair w.id Wave.resume)
  | none => .next s

/-- TRAPCTX of a clause context: INBODY and the context, or zero at a clause header (18 R422). -/
def trapCtxOf : Option Ctx → Word
  | none => 0
  | some x => BitVec.ofNat 64 (2 ^ 63 + x.flagB % 16 * 2 ^ 56 + x.flagA % 16 * 2 ^ 52 + bitsN x.endPc 1 51 * 2)

/-- TRAPHDR of a clause context. -/
def trapHdrOf : Option Ctx → Word
  | none => 0
  | some x => BitVec.ofNat 64 (bitsN x.hdr 2 50 * 4)

/-- A wave entering system mode at a handler: TRAPPC, TRAPCTX and TRAPHDR take the parked entry's place, its threads become the
system mask and move to the handler's clause header (18 R409, R422). Log entry 67 (DEDUCED). -/
def Wave.enterSystem (w : Wave) (p : Nat × Nat) (handler : Nat) : Wave :=
  match w.entry? p with
  | none => w
  | some e =>
    let m := w.issueMask e
    { w with
      state := .ready
      trapPc := BitVec.ofNat 64 (bitsN e.pc 1 51 * 2)
      trapCtx := trapCtxOf e.ctx
      trapHdr := trapHdrOf e.ctx
      sysMode := true
      sysMask := m
      frontier := moveThreads w.frontier m e.prio handler none
      sel := none }

/-- SERVICE_HANDLER: action 1, which a wave in system mode does not take (18 R409, R410). Log entry 65 (DEDUCED). -/
def execServiceHandler (ctx : Nat) (s : State) : Host.Outcome State Fault Refusal :=
  match serviceWave s ctx with
  | some (_, w) =>
    match w.sel with
    | some p =>
      if w.final || w.sysMode then .next s
      else .next (s.awake.updPair w.id fun x => x.enterSystem p (serviceAddr s ctx))
    | none => .next s
  | none => .next s

/-- The grid that an End command ends: that of the parked wave it names, or one that waits after a consumption with its teams saved
(18 R409; 19 R428, R441). -/
def endNamed (s : State) (ctx : Nat) : Option Grid :=
  match serviceWave s ctx with
  | some (g, _) => some g
  | none => s.grids.find? fun g => namesGrid s ctx g && g.state == .failed

/-- SERVICE_END: action 2 (18 R409, R420; 19 R423). Log entry 65 (DEDUCED). -/
def execServiceEnd (ctx : Nat) (s : State) : Host.Outcome State Fault Refusal :=
  match endNamed s ctx with
  | some g => .next (settleHalt (endGrid s.awake g.id .ended) g.part)
  | none => .next s

/-- Whether a grid's teams are all saved, with no recovery action of the device under way (19 R441, R442). -/
def allSaved (s : State) (g : Grid) : Bool :=
  g.live && g.state != .halting && g.hullReq.isNone && !(recoveryWaits s g) &&
    (s.teamsOf g.id).all fun t => t.state == .saved || t.state == .ended || t.state == .lost

/-- SERVICE_CONTINUE: action 3, not after a consumption (19 R428, R441). Log entry 65 (DEDUCED). -/
def execServiceContinue (ctx : Nat) (s : State) : Host.Outcome State Fault Refusal :=
  match s.grids.find? fun g => namesGrid s ctx g && allSaved s g && g.state != .failed with
  | some g => .next (tryComplete (s.awake.updGrid g.id fun g => { g with state := .running }) g.id)
  | none => .next s

/-! ## Restore from a hull (19 R440, R443) -/

/-- Whether a slot holds a sealed hull that a grid may be restarted from (19 R440, R443). -/
def hullSealed (s : State) (g : Grid) (slot : Nat) : Bool :=
  let secure := partSecure s g.part
  let f := fun o n => physField s secure (slot + o) n
  let n := f 0x20 8
  let bytes := fun o k => (List.range k).map fun i => BitVec.ofNat 8 (physField s secure (slot + o + i) 1)
  let arr := bytes 4096 (arrayBytes n)
  let img := bytes (4096 + arrayBytes n) (4096 * n)
  f 0 8 != 0 && f 0x30 8 == f 0 8 && f 8 8 == g.recAddr && f 0x10 2 == g.ctx && decide (g.restored ≤ f 0 8) &&
    arr.take (4 * n) == blockCrcs img n && f 0x28 4 == (crc32c (img ++ arr)).toNat

/-- The teams and waves that the image of a hull holds, and whether they are the device's own, as it wrote them: an image that was changed,
or that another device wrote, is restored as it stands where it has the form (19 R443). Log entry 62 (DESIGN CHOICE). -/
def hullImages (s : State) (g : Grid) (slot : Nat) : Option (List Team × List Wave × Bool) :=
  let f := fun o n => physField s (partSecure s g.part) (slot + o) n
  let n := f 0x20 8
  let img := if physOk s (partSecure s g.part) slot (4096 + arrayBytes n + 4096 * n) then
    markedBytes s (s.here (slot + 4096 + arrayBytes n)) (4096 * n) else []
  match s.hulls.find? fun h => h.gen == f 0 8 && h.ctx == g.ctx && h.grid == g.recAddr && (h.bytes.map fun b => (b, false)) == img with
  | some h => some (h.teams, h.waves, true)
  | none => match readImages img with
    | some (us, ws) => if imagesOk g us ws && decide (us.length = f 0x14 4) && us.all fun u => decide (u.t < f 0x18 8) then some (us, ws, false) else none
    | none => none

/-- A held team recreated, saved, from an image that is not the device's own. -/
def recreate (g : Grid) (ws : List Wave) (s : State) (u : Team) : State :=
  let f := freshTeams s g u.t 0 (if g.launch.xredun then some 0 else none)
  let filled := f.1.map fun t => fillTeam { t with saveReq := false } u (f.2.1.filter fun w => w.team == t.id) (ws.filter fun w => w.team == u.id)
  { s with teams := s.teams ++ filled.map (·.1), waves := s.waves ++ filled.flatMap (·.2), nextId := f.2.2 }

/-- A grid restarted from a hull: its teams are ended as R420 does, the held teams are recreated, saved, for TEAM_RESTORE to
place, dispatch goes on from NEXTTEAM, and the record of kind 8, code 4, is made, before which none of them is restored
(19 R442, R443). Log entry 62 (DESIGN CHOICE). -/
def restartFrom (s : State) (g : Grid) (slot : Nat) (us : List Team) (ws : List Wave) (own : Bool) : State :=
  let f := fun o n => physField s (partSecure s g.part) (slot + o) n
  let mine := fun (t : State) (i : Nat) => (t.teamsOf g.id).any fun x => x.id == i
  let ids := us.map (·.id)
  let held := us.map fun t => { t with grid := g.id, area := none }
  let gone : State := { endGrid s g.id .running with
    teams := s.teams.filter fun t => t.grid != g.id && !(own && ids.contains t.id)
    waves := s.waves.filter fun w => !(mine s w.team) && !(own && ws.any fun x => x.id == w.id) }
  let back : State := if own then { gone with teams := gone.teams ++ held, waves := gone.waves ++ ws } else held.foldl (recreate g ws) gone
  let room := ((back.teamsOf g.id).map fun t => clusterOf t.core).dedup.foldl spillImages back
  (room.updGrid g.id fun x => { x with
    state := .running, nextTeam := f 0x18 8, ended := f 0x38 8, restored := f 0 8, expired := false }).addRec (g.record 8 4 0 0)

/-- SERVICE_RESTORE: action 4 (19 R441, R443). Log entry 63 (DEDUCED). -/
def execServiceRestore (ctx : Nat) (s : State) : Host.Outcome State Fault Refusal :=
  match s.grids.find? fun g => namesGrid s ctx g && allSaved s g with
  | none => .next s
  | some g =>
    let slot := serviceAddr s ctx
    match (if hullSealed s g slot then hullImages s g slot else none) with
    | some (us, ws, own) => .next (tryComplete (restartFrom s.awake g slot us ws own) g.id)
    | none => .next (s.addRec (g.record 8 3 0 0))

/-! ## Contexts (18 R398, R405, R421; 21 R473) -/

/-- The world in which a context's record is read: that of the partition whose context map holds it (18 R394). Log entry 53 (DEDUCED). -/
def ctxWorld (s : State) (ctx : Nat) : Bool := (s.parts.find? fun p => p.ctxs.contains ctx).any (·.secure)

/-- The checks of a context record, in ascending offset order (21 R473). Log entry 66 (DEDUCED). -/
def contextChecks (s : State) (ctx record : Nat) (fn : Option Nat) : List (Nat × Bool) :=
  let f := fun o n => physField s (ctxWorld s ctx) (record + o) n
  let part := s.part? (f 8 1)
  [(0x00, f 0 8 % 65536 == 0 && part.all fun p => ownsRange s p (f 0 8) 32768),
    (0x08, (part.map fun p => p.ctxs.contains ctx).getD false && (fn.map fun n => n == f 8 1).getD true),
    (0x09, decide (f 9 1 ≤ 1)), (0x0A, decide (4 ≤ f 0x0A 1) && decide (f 0x0A 1 ≤ 16)), (0x0B, f 0x0B 5 == 0),
    (0x10, f 0x10 8 % (64 * 2 ^ f 0x0A 1) == 0), (0x24, f 0x24 4 == 0)]

/-- The device's copy of a context record. -/
def contextAt (s : State) (ctx record : Nat) : Context where
  id := ctx
  record := record
  root := physField s (ctxWorld s ctx) record 8
  part := physField s (ctxWorld s ctx) (record + 8) 1
  debug := physField s (ctxWorld s ctx) (record + 9) 1 == 1
  fqLog := physField s (ctxWorld s ctx) (record + 0x0A) 1
  fqBase := physField s (ctxWorld s ctx) (record + 0x10) 8
  fqHead := physField s (ctxWorld s ctx) (record + 0x18) 4
  pinLimit := physField s (ctxWorld s ctx) (record + 0x20) 4
  pinUsed := 0
  saveArea := physField s (ctxWorld s ctx) (record + 0x28) 8
  serials := []
  hullGen := 0

/-- CONTEXT_SETUP: a nonzero write to RECORD; RSTAT says whether the context is set up, or the first field that fails
(21 R473). Log entry 66 (DEDUCED). -/
def execContextSetup (ctx record : Nat) (fn : Option Nat) (s : State) : Host.Outcome State Fault Refusal :=
  if (s.ctx? ctx).isSome || record == 0 then .next s else
  match firstBad (contextChecks s ctx record fn) with
  | some o => .next ((s.barPut (ctxPage ctx) 8 0).barPut (ctxPage ctx + 0x18) 4 (2 + o * 2 ^ 8))
  | none =>
    let s := { s with ctxs := s.ctxs ++ [contextAt s ctx record] }
    .next ((s.barPut (ctxPage ctx) 8 record).barPut (ctxPage ctx + 0x18) 4 1)

/-- The stamps of a context's completed grids that are still to be written, written (14 R354). -/
def flushPending (s : State) (ctx : Nat) : State :=
  s.ops.foldl (fun s o => match o.kind with
    | .stamp g r a x => if (s.grid? g).any fun g => g.ctx == ctx then writeStamp s o g r a x else s
    | _ => s) s

/-- A context retired: its grids end, its windows are unpinned and its handles closed, its TLB entries dropped, its cached words written
back; records that still wait can no longer be written and go to the Apex log (18 R408, R421). What the clusters hold of it is that of
another context for whoever takes its number (08 R203). Log entry 64 (DEDUCED). -/
def retireContext (s : State) (cx : Context) : State :=
  let s := (s.grids.filter fun g => g.ctx == cx.id && g.live).foldl (fun s g => endGrid s g.id .ended) s
  let s := (s.pins.filter fun p => p.ctx == cx.id).foldl endWindow s
  let cores := ((s.part? cx.part).map fun p => p.clusters.flatMap fun k => (List.range 4).map (4 * k + ·)).getD []
  let s := cores.foldl (fun s c => drainCore s c fun _ => true) s
  let s := flushPending { s with tenures := s.tenures.filter fun t => t.ctx != cx.id } cx.id
  let s : State := { s with
    handles := s.handles.filter fun h => h.ctx != cx.id
    tlbs := s.tlbs.filter fun t => t.ctx != cx.id
    clusters := s.clusters.map fun k => if k.lastCtx = some cx.id then { k with lastCtx := none } else k
    ctxs := s.ctxs.filter fun c => c.id != cx.id
    records := s.records.filter fun r => r.ctx != cx.id
    out := { s.out with apexLog := s.out.apexLog ++ s.records.filter fun r => r.ctx == cx.id } }
  (settleHalt s cx.part).awake

/-- CONTEXT_RETIRE: a write of 0 to RECORD (18 R421; 21 R473). -/
def execContextRetire (ctx : Nat) (s : State) : Host.Outcome State Fault Refusal :=
  match s.ctx? ctx with
  | some cx => .next (((retireContext s cx).barPut (ctxPage ctx) 8 0).barPut (ctxPage ctx + 0x18) 4 0)
  | none => .next ((s.barPut (ctxPage ctx) 8 0).barPut (ctxPage ctx + 0x18) 4 0)

/-- SYNC_READ: answers 0 once no store translated under a replaced entry is still on its way to its home; until then the read
waits (18 R405, 10 R285). A page that the function does not see reads zero at once (21 R461). -/
def execSyncRead (page : PageRead) (s : State) : Host.Outcome State Fault Refusal :=
  if !s.hostOpen || (seesPage s page.fn (ctxPage page.index) && (s.ctx? page.index).isSome && staleWrites s) then .next s
  else .next (s.answer 0)

end Sys2Proof.Machine
end

