-- ==== Sys2Proof/Machine/Outside.lean ====
section
/-! DEFINITION. Errors, failed agents and homes, links and spares, the host port, and the writes of BAR0 registers (01 R18 to
R22; 19 R425 to R427, R449 to R452; 21 R460 to R465). -/

namespace Sys2Proof.Machine

/-! ## Errors (19 R425 to R427) -/

/-- CORRECTED_ERROR: an error corrected and counted (19 R425). Log entry 33 (DESIGN CHOICE). -/
def execCorrectedError (kind index : Nat) (s : State) : Host.Outcome State Fault Refusal := .next (countCorrected s kind index)

/-- An uncorrectable error in a word that a cache holds: a clean copy whose source is intact is dropped, to be fetched again, and counts
as corrected on the cluster or the slice; a word that the cache alone holds as it stands is marked, after the stores that its L1 can
perform (19 R425 to R427). -/
def markCached (s : State) (cache word : Nat) : State :=
  let s := if cache < 512 then performPends s cache fun e => e.word == word else s
  let marked := if get Mark.ok s.marks word = .ok then { s with marks := put Mark.ok s.marks word .poison } else s
  match held? s cache word with
  | none => if s.pend.any fun e => e.core == cache && e.word == word then marked else s
  | some .modified => marked
  | some (.own bs true _) => s.setHeld cache word (.own bs true .poison)
  | some _ =>
    let s := dropHeld s cache word
    if cache < 512 then countCorrected s 1 (stopOf s cache) else countCorrected s 2 (cacheStop s cache)

/-- A place in what the shadow store keeps of a wave marked: a vector register by 32·register + thread below 2,048, an accumulator above
that, below 2,560, and a uniform register above that, below 2,624. -/
def markImage (i : Nat) (w : Wave) : Wave :=
  if i < 2048 then { w with vBad := put false w.vBad i true }
  else if i < 2560 then { w with aBad := put false w.aBad (i - 2048) true }
  else if i < 2624 then { w with sBad := put false w.sBad (i - 2560) true }
  else w

/-- An uncorrectable error in the shadow store: in the shadow copy of a recoverable team, or in a saved team's image that stands there:
in an 8-byte unit of its scratchpad (item 0, below 32,768), in a register or accumulator of a wave (item 1 + wave, `markImage`), or in
the rest of Table 18-11 that is kept of the wave, or of the team (19 Table 19-1). What then uses the rest the spec does not say.
Log entry 91 (DESIGN CHOICE). -/
def markShadow (s : State) (team item i : Nat) : State :=
  match s.team? team with
  | none => s
  | some t =>
    let bad := fun w : Wave => if w.id + 1 = item then markImage i w else w
    let image := t.state = .saved ∧ t.area = none
    let copy := t.state = .resident ∧ t.interval.recov
    if (item = 0 ∧ 32768 ≤ i) ∨ (item ≠ 0 ∧ 2624 ≤ i) then
      if image ∨ copy then s.updTeam team fun t => { t with imageBad := item :: t.imageBad } else s
    else if image then
      if item = 0 then s.updTeam team fun t => { t with spBad := put false t.spBad i true }
      else { s with waves := s.waves.map fun w => if w.team = team then bad w else w }
    else if copy then
      s.updTeam team fun t => { t with interval :=
        if item = 0 then { t.interval with shadowBad := put false t.interval.shadowBad i true }
        else { t.interval with shadowWaves := t.interval.shadowWaves.map bad } }
    else s

/-- The i-th entry of a slice's table marked. -/
def markNth {α : Type} (here : α → Bool) (mark : α → α) : Nat → List α → List α
  | _, [] => []
  | i, x :: l => if here x then (if i = 0 then mark x :: l else x :: markNth here mark (i - 1) l) else x :: markNth here mark i l

/-- POISON_MARK: an uncorrectable error in a word of memory (0: location), a vector register (1: wave, register, thread), an
accumulator (2), a uniform register (3: wave, register), a scratchpad unit (4: team, unit), 8 bytes of a column store (5: cluster, unit),
a word of an L1 or of an L2 slice (6: cache, word), the shadow store (7: team, item, place), a tenure table (8: slice, entry) or a monitor
table (9: slice, entry) marks it (19 R425, R426). What then uses a marked table entry the spec does not say. Log entry 91 (DESIGN CHOICE). -/
def execPoisonMark (kind a b c : Nat) (s : State) : Host.Outcome State Fault Refusal :=
  .next <| match kind with
  | 0 => if markAt s a = .ok then { s with marks := put Mark.ok s.marks (a / 16) .poison } else s
  | 1 => s.updWave a fun w => { w with vBad := put false w.vBad (32 * (b % 64) + c % 32) true }
  | 2 => s.updWave a fun w => { w with aBad := put false w.aBad (32 * (b % 16) + c % 32) true }
  | 3 => s.updWave a fun w => { w with sBad := put false w.sBad (b % 64) true }
  | 4 => s.updTeam a fun t => { t with spBad := put false t.spBad b true }
  | 5 => s.setCluster { s.cluster a with
      colBad := (List.range 8).foldl (fun m i => put false m (8 * b + i) true) (s.cluster a).colBad }
  | 6 => markCached s a b
  | 7 => markShadow s a b c
  | 8 => { s with tenures := markNth (fun t => t.slice == a) (fun t => { t with bad := true }) b s.tenures }
  | 9 => { s with monitors := markNth (fun m => m.slice == a) (fun m => { m with bad := true }) b s.monitors }
  | _ => s

/-! ## Failed agents and homes (09 R265; 19 R449, R450) -/

/-- The contexts of the teams that a core runs or has run, those of resident teams first: they held the words that its L1 holds
(09 R265; 19 R449). Log entry 69 (DEDUCED). -/
def ctxsOn (s : State) (core : Nat) : List Nat :=
  let of := fun p : Team → Bool => (s.teams.filter fun t => t.core == core && p t).filterMap fun t => (s.grid? t.grid).map (·.ctx)
  (of (fun t => t.state == .resident) ++ of fun t => t.state != .resident).dedup

/-- The contexts for which a slice holds a word: those of the region's owner, and for a word homed elsewhere those of the partitions that
the slice serves. Log entry 69 (DEDUCED). -/
def ctxsOfWord (s : State) (slice word : Nat) : List Nat :=
  let here := decide (16 * word / homeSpan = s.out.device)
  (s.ctxs.filter fun c => if here then c.part == (tagAt s (16 * word)).2 else ((s.part? c.part).map fun p => p.slices.contains slice).getD false).map (·.id)

/-- A unit that is to be replaced at the next gap between runs (19 R452). -/
def State.addDue (s : State) (kind i : Nat) : State :=
  if s.out.due.contains (kind, i) then s else s.updOut fun o => { o with due := o.due ++ [(kind, i)] }

/-- Words lost, with a record of kind 6 for each and each context that held it (09 R265; 19 R449). -/
def loseWords (s : State) (ws : List Nat) (ctxs : Nat → List Nat) (core : Nat) : State :=
  { s with
    marks := ws.foldl (fun m w => put Mark.ok m w .lost) s.marks
    records := s.records ++ ws.flatMap fun w => (ctxs w).map fun x => { plainRec x 6 0 none 0 (16 * w % homeSpan) 0 with core := core } }

/-- Teams lost with their core, and the other teams of their cross-core groups: their waves retire, and their operations and
monitors are dropped. Log entry 69 (DEDUCED). -/
def loseTeams (s : State) (ids : List Nat) : State :=
  { s with
    teams := s.teams.map fun t => if ids.contains t.id then { t with state := .lost, stash := [], gatherings := [] } else t
    waves := s.waves.map fun w =>
      if ids.contains w.team then { w with state := .retired, block := none, sel := none, frontier := [], flags := [] } else w
    ops := s.ops.filter fun o => !ids.contains o.team
    held := s.held.filter fun h => !ids.contains h.op.team
    monitors := s.monitors.filter fun m => !(s.waves.any fun w => w.id == m.wave && ids.contains w.team)
    tenures := s.tenures.filter fun t => !ids.contains t.team }

/-- What a core's L1 and TLB hold, and its requests, dropped. -/
def dropCore (s : State) (core : Nat) : State :=
  { s with
    pend := s.pend.filter fun e => e.core != core
    blocks := s.blocks.filter fun b => b.cache != core
    fills := s.fills.filter fun f => f.core != core
    tlbs := s.tlbs.filter fun t => t.unit != core }

/-- A core that has failed: the words that it alone held as they stand are lost; its teams are lost, and their grids halt for a hull
(09 R265; 19 R428, R449). -/
def failCore (s : State) (core : Nat) : State :=
  let words := soleWords s core
  let here := s.teams.filter fun t => t.core == core && t.state == .resident
  let ids := here.flatMap Team.both
  let grids := (here.map (·.grid)).dedup
  let s := dropCore (loseWords s words (fun _ => ctxsOn s core) core) core
  let s := returnTokens (loseTeams s ids) ((s.waves.filter fun w => ids.contains w.team).map (·.id))
  (grids.foldl (fun s g =>
    match s.grid? g with
    | some x => haltCheck (needHull s g { x.record 8 2 0 FaultCode.lost.num with core := core }) g
    | none => s) s).addDue 1 (siteOf s 1 (clusterOf core))

/-- A slice that has failed: the modified words that it held, as their home or as guests, are lost (09 R265; 19 R449). -/
def failSlice (s : State) (n : Nat) : State :=
  let s := loseWords s (cacheWords s (512 + n) (· == .modified)) (ctxsOfWord s n) 0
  { s with blocks := s.blocks.filter fun b => !(sameCache s b.cache (512 + n)) }.addDue 2 (siteOf s 2 n)

/-- A home that has failed: until its census ends, accesses to it wait (19 R450). -/
def downHome (s : State) (h : Home) : State :=
  s.updOut fun o => { o with downHomes := h :: o.downHomes.filter fun x => x != h }

/-- A device or a die that has failed, as an agent and as a home: another device's exclusive words of this one are lost, and so is what
the cores and slices of a die held; its words wait for the census (19 R449, R450). -/
def failHome (s : State) (h : Home) : State :=
  match h with
  | .device n =>
    if n = s.out.device then s else
    let s := loseWords s ((s.guests.filter fun g => g.holder == n && g.excl).map (·.word)) (fun _ => []) 0
    downHome { s with guests := s.guests.filter fun g => g.holder != n } h
  | .die n =>
    let s := ((List.range 256).map (256 * n + ·)).foldl failCore s
    downHome (((List.range 64).map (64 * n + ·)).foldl failSlice s) h

/-- AGENT_FAILURE: a core, a slice, a die or another device fails. The words that it alone held as they stand are lost, and a record of
kind 6 goes to each context that held them (09 R265; 19 R428, R449). Log entry 63 (DEDUCED), Log entry 69 (DEDUCED). -/
def execAgentFailure (agent : Agent) (s : State) : Host.Outcome State Fault Refusal :=
  .next <| State.awake <| match agent with
  | .core n => failCore s n
  | .slice n => failSlice s n
  | .home h => failHome s h

/-- One word of a failed home, as its holder has it, put into a partition's refuge region, with its entry in the salvage list (19 Table
19-7). Log entry 69 (DEDUCED). -/
def salvageWord (s : State) (p : Partition) (word : Nat) (data : List (BitVec 8)) (bad : Bool) (ctx : Nat) : State :=
  let n := physField s p.secure p.salvage 8
  let at_ := p.refuge + 16 * n
  if p.refugeLen < 16 * n + 16 then s else
  let s := if physOk s p.secure at_ 16 then commitWord s (s.here at_ / 16) ((List.range 16).zip data) (if bad then .poison else .ok) else s
  let entry := p.salvage + 0x40 + 32 * n
  let s := physPut s p.secure entry 8 (16 * word)
  let s := physPut s p.secure (entry + 8) 8 at_
  let s := physPut s p.secure (entry + 0x10) 8 (1 + (if bad then 2 ^ 8 else 0) + ctx * 2 ^ 16)
  let s := physPut s p.secure (entry + 0x18) 8 0
  physPut s p.secure p.salvage 8 (n + 1)

/-- The holders of words of a home that only they have as they stand: a core, or a slice that keeps them as guests, with the partition
and the context of the holder. -/
def salvageHolders (s : State) : List (Nat × Partition × Nat) :=
  s.parts.flatMap fun p =>
    (p.clusters.flatMap fun k => (List.range 4).map fun i => (4 * k + i, p, (ctxsOn s (4 * k + i)).headD 0)) ++
    p.slices.map fun x => (512 + x, p, ((s.ctxs.find? fun c => c.part == p.id).map (·.id)).getD 0)

/-- CENSUS: the census of a home that has failed. Each surviving holder's modified words that it homed go into its partition's refuge
region and its device's salvage list, and are dropped; from then on the home's words are lost, and accesses to them go on (19 R449, R450).
Log entry 69 (DEDUCED). -/
def execCensus (home : Home) (s : State) : Host.Outcome State Fault Refusal :=
  if !(s.out.downHomes.contains home) then .next s else
  let of := fun w : Nat => homeIn s (16 * w) [home]
  let s1 := (salvageHolders s).foldl (fun s h =>
    let ws := if h.1 < 512 then soleWords s h.1 else cacheWords s h.1 (· == .modified)
    (ws.filter of).foldl (fun s w =>
      let data := if h.1 < 512 then (List.range 16).map fun i => coreByte s h.1 (16 * w + i) else wordBytes s w
      let bad := !(coversWord (pendBytes s h.1 w)) && (match ownCopy s h.1 w with
        | some (_, _, m) => m != .ok
        | none => get Mark.ok s.marks w != .ok)
      salvageWord s h.2.1 w data bad h.2.2) s) s
  .next { s1 with
    pend := s1.pend.filter fun e => !(of e.word)
    blocks := s1.blocks.filter fun b => !(of (16 * b.frame))
    fills := s1.fills.filter fun f => !(of (16 * f.frame))
    out := { s1.out with
      downHomes := s1.out.downHomes.filter fun h => h != home
      failedHomes := home :: s1.out.failedHomes.filter fun h => h != home } }

/-! ## Releitis links (19 R451; 21 R465) -/

/-- A change to a link. -/
def State.updLink (s : State) (n : Nat) (f : Link → Link) : State :=
  s.updOut fun o => { o with links := o.links.map fun l => if l.n = n then f l else l }

/-- Failed resends of one flit before a link retrains (19 R451). -/
def maxResends : Nat := 16

/-- LINK_FLIT_RECEIVE: a flit that is good is delivered; one that is bad is asked for again, and a resend that is bad has failed (19
R451). -/
def execLinkFlitReceive (link : Nat) (good : Bool) (s : State) : Host.Outcome State Fault Refusal :=
  .next (s.updLink link fun l =>
    if !l.up then l
    else if good then { l with asked := false, resends := 0 }
    else if l.asked then { l with resends := min maxResends (l.resends + 1) }
    else { l with asked := true })

/-- The state of a unit set. -/
def setUnit (s : State) (kind i x : Nat) : State :=
  s.updOut fun o => { o with units := ((kind, i), x) :: o.units.filter fun p => p.1 != (kind, i) }

/-- LINK_RETRAIN: a link with 16 failed resends of one flit brings in a spare lane, or leaves service, which the enabled counts show from
the next time that no partition runs (19 R451; 21 R467). Which lane the spare takes the
place of is open. Log entry 75 (DESIGN CHOICE). -/
def execLinkRetrain (link : Nat) (s : State) : Host.Outcome State Fault Refusal :=
  match s.out.links.find? fun l => l.n == link with
  | some l =>
    if l.up && decide (maxResends ≤ l.resends) then
      if 0 < l.spares then
        let old := 16 * link + Config.choice s.tick % 8
        let s := setUnit (setUnit s.bump 6 old 2) 6 (16 * link + 16 - l.spares) 0
        .next (s.updLink link fun l => { l with resends := 0, spares := l.spares - 1 })
      else .next (noteCounts (s.updLink link fun l => { l with up := false }))
    else .next s
  | none => .next s

/-! ## Spares and enabled counts (01 R19 to R22; 19 R452; 21 R467) -/

/-- The logical number in service that a site serves. -/
def servedBy (s : State) (kind site : Nat) : Option Nat := (List.range 128).find? fun n => siteOf s kind n == site && enabled s kind n

/-- Whether a running partition owns a cluster (kind 1) or a slice (kind 2). -/
def numberInUse (s : State) (kind n : Nat) : Bool :=
  s.parts.any fun p => p.running && (if kind = 1 then p.clusters else p.slices).contains n

/-- Whether a running partition owns the unit at a physical place (01 R20). HBM stacks belong to every partition. -/
def unitInUse (s : State) (kind i : Nat) : Bool :=
  match kind with
  | 0 => (servedBy s 1 (i / 17 / 16)).any (numberInUse s 1)
  | 1 | 5 => (servedBy s 1 i).any (numberInUse s 1)
  | 2 => (servedBy s 2 i).any (numberInUse s 2)
  | _ => s.parts.any Partition.running

/-- The good lanes of a quadrant of a cluster's site: neither replaced nor fused off (07 Table 07-1). -/
def lanesAt (s : State) (site q : Nat) : BitVec 17 :=
  (List.range 17).foldl (fun m l => if unitState s 0 (17 * (16 * site + q) + l) < 2 then m ||| BitVec.twoPow 17 l else m) 0

/-- LANEMAP of every quadrant of a cluster set from the unit at its site (07 R180). -/
def refreshLanes (s : State) (k : Nat) : State :=
  { s with lanemap := (List.range 16).foldl (fun m q => put (0x1FFFF#17) m (16 * k + q) (lanesAt s (siteOf s 1 k) q)) s.lanemap }

/-- A lane taken out of its quadrant: its spare lane takes its place where one is left. A quadrant left with fewer than 11 active lanes is
reported (01 R22; 19 R452; 07 R181). -/
def replaceLane (s : State) (i : Nat) : State :=
  let q := i / 17
  let spare := (List.range 17).find? fun l => unitState s 0 (17 * q + l) == 1
  let s := match spare with
    | some l => setUnit (setUnit s 0 i 2) 0 (17 * q + l) 0
    | none => setUnit s 0 i 3
  let s := if activeLanes (lanesAt s (q / 16) (q % 16)) < 11 then s.updOut fun o => { o with failing := true } else s
  match servedBy s 1 (q / 16) with
  | some k => refreshLanes s k
  | none => s

/-- A logical number given another site (01 R18). -/
def setSite (s : State) (kind n site : Nat) : State :=
  s.updOut fun o => { o with sites := ((kind, n), site) :: o.sites.filter fun p => p.1 != (kind, n) }

/-- What stands in a cluster, or a slice, whose site changes: its state is that of another unit, its caches start empty, and the images
in its shadow store have been moved out (01 R21; 18 R416). -/
def changeUnit (s : State) (kind n : Nat) : State :=
  let stops := fun c : Nat => c == 1024 + siteOf s kind n
  if kind = 1 then
    let cores := (List.range 4).map (4 * n + ·)
    let s := moveImages (cores.foldl (fun s c => drainCore s c fun _ => true) s) (· == n)
    refreshLanes { s with
      pend := s.pend.filter fun e => !cores.contains e.core
      fills := s.fills.filter fun f => !cores.contains f.core
      blocks := s.blocks.filter fun b => !(cores.contains b.cache || stops b.cache)
      tlbs := s.tlbs.filter fun t => !(cores.contains t.unit || t.unit == 512 + n)
      clusters := s.clusters.filter fun c => c.id != n } n
  else { s with blocks := s.blocks.filter fun b => !(b.cache == 512 + n || stops b.cache) }

/-- The slices that serve shared regions from now on: what the slices hold of those words is dropped, and requests for them go to their
new homes (18 R397). -/
def serveShared (s : State) (slices : List Nat) : State :=
  let s := { s with shared := slices }
  { s with
    blocks := s.blocks.filter fun b => !(decide (512 ≤ b.cache) && decide (b.cache < 1024) && (tagAt s (256 * b.frame)).2 == 31)
    fills := s.fills.map fun f => { f with slice := homeSlice s (partOfCore s f.core) (256 * f.frame) } }

/-- A number of a slice that has fallen away taken out of the slices that serve shared regions, whose words the others home from then on
(01 R22; 18 R397). -/
def unshare (s : State) (kind n : Nat) : State :=
  if kind = 2 ∧ s.shared.contains n then serveShared s (s.shared.filter fun x => x != n) else s

/-- A cluster or slice replaced by a spare of its die, which takes its logical number (01 R21): the lowest-numbered one, since the spec
does not say which. Where none is left the unit is disabled, and the numbers of the die count the enabled units only: the highest of
them falls away, and the unit that had it takes the disabled one's number (01 R18, R22), which waits while a running partition owns it.
Log entry 39 (DESIGN CHOICE), Log entry 83 (DESIGN CHOICE). -/
def replaceSite (s : State) (kind i : Nat) : State :=
  let die := i / 68
  match servedBy s kind i with
  | none => setUnit s kind i 3
  | some n =>
    match (List.range 68).find? fun k => unitState s kind (68 * die + k) == 1 with
    | some k => changeUnit (setSite (setUnit (setUnit s kind i 2) kind (68 * die + k) 0) kind n (68 * die + k)) kind n
    | none =>
      let last := 64 * die + inService s kind die - 1
      if last = n then changeUnit (unshare (setUnit s kind i 3) kind n) kind n
      else if numberInUse s kind last then s
      else
        let s := unshare s kind last
        let site := siteOf s kind last
        let s := setSite (setSite (setUnit s kind i 3) kind n site) kind last i
        changeUnit (changeUnit s kind n) kind last

/-- A channel or row replaced. Log entry 34 (DESIGN CHOICE), Log entry 83 (DESIGN CHOICE). -/
def replaceOther (s : State) (kind i : Nat) : State :=
  match kind with
  | 3 =>
    let spare := 33 * (i / 33) + 32
    if unitState s 3 spare = 1 then setUnit (setUnit s 3 i 2) 3 spare 0 else setUnit s 3 i 3
  | 4 | 5 => if unitState s kind i < Config.spareRows kind then setUnit s kind i (unitState s kind i + 1) else s
  | _ => s

/-- A unit that has been replaced, and whose errors are those of another from then on. -/
def settleDue (s : State) (kind i : Nat) : State :=
  s.updOut fun o => { o with due := o.due.erase (kind, i), runErrors := o.runErrors.filter fun p => p.1 != (kind, i) }

/-- SPARE_SUBSTITUTION: Apex firmware takes out a unit that is worn or has failed while no partition that owns it runs, brings a spare in
where one is left, and writes the enabled counts (01 R20 to R22; 19 R452; 21 R467). -/
def execSpareSubstitution (kind index : Nat) (s : State) : Host.Outcome State Fault Refusal :=
  if !(s.out.due.contains (kind, index)) || unitInUse s kind index then .next s
  else if kind != 4 && kind != 5 && unitState s kind index != 0 then .next (settleDue s kind index)
  else
    let s' := match kind with
      | 0 => replaceLane s index
      | 1 | 2 => replaceSite s kind index
      | _ => replaceOther s kind index
    let kept := (kind == 1 || kind == 2) && unitState s' kind index == 0
    .next (writeCountsReg (if kept then s' else settleDue s' kind index))

/-! ## Requests from outside (09 R264; 18 R394; 21 R460, R464) -/

/-- Whether a request of a non-secure agent may touch n bytes: one that may not reads zeros and writes nothing (18 R394). Log entry 70 (DEDUCED). -/
def openTo (s : State) (loc n : Nat) : Bool := (List.range n).all fun i => !(tagAt s (loc + i)).1

/-- The words of n bytes at a location. -/
def wordSpan (loc n : Nat) : List Nat := ((List.range n).map fun i => (loc + i) / 16).dedup

/-- Whether an access of n bytes by an agent outside the cores has to wait: behind an engine operation, for room in the slice's queue, for
a census, or for a team that keeps a word. -/
def outsideWaits (s : State) (loc n : Nat) : Bool :=
  (wordSpan loc n).any (fun w => engineOwned s w s.nextId || keptWord s s.nextId w) ||
    slicesFull s (tagAt s loc).2 ((List.range n).map (loc + ·))

/-- An access of n bytes by an agent outside the cores, performed at the home: what it reads, or the bytes it writes. A request of a
non-secure agent to a secure region reads zeros and writes nothing (18 R394); any other waits while a tenure that stands against it cannot
be recalled (09 R259) or an engine operation owns one of its words (09 R262), and comes after the words of the grids whose stamps it
meets (14 R354). `guest` is the device that keeps what it reads or writes (09 R264). It waits too for room in its slice's queue, for a census, and while a team keeps one of its words (09 R250; 10 R277; 19
R450). -/
def outsideAccess (s : State) (secure : Bool) (loc : Nat) (write : Option (List (BitVec 8))) (n : Nat) (guest : Option Nat) : State :=
  let n := write.elim n List.length
  if !(secure || openTo s loc n) then (if write.isNone then s.answer 0 else s)
  else if outsideWaits s loc n then s
  else match recallFor s s.nextId write.isSome ((List.range n).map (loc + ·)) with
    | none => s
    | some s =>
      let s := flushStamps s none loc n
      let s := match write with
        | none => ((wordSpan loc n).foldl downgrade s).answer (readHomeN s loc n)
        | some bs => writeHome s loc bs
      State.awake <| match guest with
        | none => s
        | some d => { s with guests := (s.guests.filter fun g => !(g.holder == d && (wordSpan loc n).contains g.word)) ++
            (wordSpan loc n).map fun w => ⟨d, w, write.isSome⟩ }

/-- REMOTE_REQUEST: a request of another device, which carries the world of its agent, served at its home here; the directory records
the words that the device then holds, exclusive once it has written them (09 R264; 18 R394). Log entry 70 (DEDUCED). -/
def execRemoteRequest (src : Remote) (write : Option (List (BitVec 8))) (size : Nat) (s : State) : Host.Outcome State Fault Refusal :=
  .next (outsideAccess s src.secure (s.here src.pa) write size (some src.device))

/-- HOST_BAR2_ACCESS: a host access to device memory, uncached and performed at the home (21 R460). -/
def execHostBar2Access (pa : Nat) (write : Option (List (BitVec 8))) (size : Nat) (s : State) : Host.Outcome State Fault Refusal :=
  if s.hostOpen then .next (outsideAccess s false (s.here pa) write size none) else .next s

/-- HOST_ATOMICOP: FetchAdd (0), Swap (1) or CAS (2) of the host, an atom at .sys at the home; FetchAdd and Swap of 4 or 8 bytes,
CAS also of 16 (21 R460). -/
def execHostAtomicop (kind size pa x y : Nat) (s : State) : Host.Outcome State Fault Refusal :=
  let loc := s.here pa
  let ok := decide (kind ≤ 2) && (size == 4 || size == 8 || (size == 16 && kind == 2)) && pa % size == 0
  let op : AtomOp := match kind with
    | 0 => .add
    | 1 => .exch
    | _ => .cas
  if !(ok && s.hostOpen) then .next s
  else if !(openTo s loc size) then .next (s.answer 0)
  else if outsideWaits s loc size then .next s
  else match recallFor s s.nextId true ((List.range size).map (loc + ·)) with
    | none => .next s
    | some s =>
      let s := flushStamps s none loc size
      .next ((redHome s op size loc (x % 2 ^ (8 * size)) y).answer (readHomeN s loc size)).awake

/-- The cores whose L1s hold something of some words. -/
def wordCores (s : State) (ws : List Nat) : List Nat :=
  ((s.pend.filter fun e => ws.contains e.word).map (·.core) ++
    (s.blocks.filter fun b => decide (b.cache < 512) && ws.any b.has).map (·.cache)).dedup

/-- HOST_CXL_CACHE: a coherence exchange on host-homed bytes: the device's modified words go to the host, its copies are dropped,
and the host's own write, if any, is performed; stamps that the exchange meets come after the words of their grids (14 R354; 21 R464).
Log entry 31 (DEDUCED). -/
def execHostCxlCache (pa : Nat) (data : List (BitVec 8)) (s : State) : Host.Outcome State Fault Refusal :=
  let loc := hostHome * homeSpan + pa
  let n := max 1 data.length
  if !s.hostOpen then .next s else
  let ws := wordSpan loc n
  if outsideWaits s loc n || (wordCores s ws).any (fun c => pendOwed s c (fun e => ws.contains e.word) || cleanWaits s c ws.contains) then .next s else
  let s := flushStamps s none loc n
  let s := (wordCores s ws).foldl (fun s c => drainCore s c ws.contains) s
  let gone := ws.flatMap fun w => (s.blocks.filter fun b => b.has w).map fun b => (b.cache, w)
  .next (writeHome (gone.foldl (fun s p => dropHeld s p.1 p.2) s) loc data).awake

/-! ## BAR0 (21 R461, R463, R468, Tables 21-1, 21-2) -/

/-- A change to a mailbox: BAR0's, or the management port's. -/
def State.updBox (s : State) (bar0 : Bool) (f : Mailbox → Mailbox) : State :=
  s.updOut fun o => if bar0 then { o with box := f o.box } else { o with port := f o.port }

/-- The mailbox of BAR0, or of the management port. -/
def State.boxOf (s : State) (bar0 : Bool) : Mailbox := if bar0 then s.out.box else s.out.port

/-- The argument bytes that are never readable: the key material of a KEYLOAD, once it has been started (21 R469). -/
def secretArg (b : Mailbox) (c : Host.Cell) : Bool := b.opcode == 6 && decide (16 ≤ c.1) && decide (c.1 < 80)

/-- A write to a mailbox: MBCMD starts a command where none is under way, with the argument as it stands, and an unknown OPCODE is
refused; MBARG takes the bytes; every other byte ignores the write (21 R468, R469, Table 21-8). Log entry 71 (DEDUCED). -/
def mailboxWrite (b : Mailbox) (o size val : Nat) : Mailbox :=
  if o = 0 then
    if b.busy then b
    else
      let b := { b with cmd := BitVec.ofNat 32 val, taken := b.arg }
      let b := { b with arg := b.arg.filter fun c => !(secretArg b c) }
      if 1 ≤ b.opcode ∧ b.opcode ≤ 9 then b.finish 1 0 else b.finish 3 2
  else
    { b with arg := ((leBytes size val).zip (List.range size)).foldl (fun m p =>
        if 0x40 ≤ o + p.2 ∧ o + p.2 < 0x800 then put 0#8 m (o + p.2 - 0x40) p.1 else m) b.arg }

/-- A write to SETUP: its code acts on its index; another code is refused (21 Table 21-1). -/
def setupWrite (s : State) (part val : Nat) : Host.Outcome State Fault Refusal :=
  let i := bitsN val 8 8
  match bitsN val 0 4 with
  | 1 => execSetupBindKeyspace part i s
  | 2 => execSetupUnbindKeyspace part i s
  | 3 => execSetupWorkList part i s
  | 4 => execSetupRereadQueue part i s
  | _ => .next (s.setSetup part 2)

/-- A write to SGO takes the command from the fields as they stand (18 R409; 19 R441; 21 R463). -/
def serviceGo (s : State) (ctx : Nat) : Host.Outcome State Fault Refusal :=
  match s.barN (ctxPage ctx + 0x2D) 1 with
  | 0 => execServiceResume ctx s
  | 1 => execServiceHandler ctx s
  | 2 => execServiceEnd ctx s
  | 3 => execServiceContinue ctx s
  | 4 => execServiceRestore ctx s
  | _ => .next s

/-- The bytes of a context page that a write stores: VECTOR and the fields of a service command (21 Table 21-2). -/
def storedByte (o : Nat) : Bool :=
  (decide (0x10 ≤ o) && decide (o < 0x12)) || (decide (0x20 ≤ o) && decide (o < 0x2E)) || (decide (0x30 ≤ o) && decide (o < 0x38))

/-- A write to a context page. RECORD takes a write that begins at its first byte as its whole value, the bytes that it does not carry
being 0, and ignores one that begins inside it. Log entry 70 (DEDUCED). -/
def contextWrite (s : State) (ctx o size val : Nat) (fn : Option Nat) : Host.Outcome State Fault Refusal :=
  if o = 0 then (if val = 0 then execContextRetire ctx s else execContextSetup ctx val fn s)
  else if o = 0x38 then serviceGo s ctx
  else .next (s.updOut fun x => { x with bar0 := ((leBytes size val).zip (List.range size)).foldl (fun m p =>
      if storedByte (o + p.2) then put 0#8 m (ctxPage ctx + o + p.2) p.1 else m) x.bar0 })

/-- REGISTER_WRITE: a write of `size` bytes to BAR0, or to the management port's mailbox, which Apex firmware serves from boot stage 4
on; CTRL, SETUP and MBCMD take a write as RECORD does (21 R461, R463, R466, R468). Log entry 70 (DEDUCED), Log entry 71 (DEDUCED). -/
def execRegisterWrite (off size val : Nat) (face : Face) (s : State) : Host.Outcome State Fault Refusal :=
  let val := val % 2 ^ (8 * size)
  if face.port then
    .next (if s.hostOpen ∧ 0x1000 ≤ off ∧ off < 0x2000 then s.updBox false fun b => mailboxWrite b (off - 0x1000) size val else s)
  else if !(s.hostOpen && seesPage s face.fn off) then .next s
  else
    match partPage off, ctxPageOf off with
    | some (p, o), _ =>
      if o = 0 then .next (s.updOut fun x => { x with ctrl := put 0 x.ctrl p val })
      else if o = 0x400 then setupWrite s p val
      else .next s
    | _, some (c, o) => contextWrite s c o size val face.fn
    | _, _ => .next (if 0x1000 ≤ off ∧ off < 0x2000 then s.updBox true fun b => mailboxWrite b (off - 0x1000) size val else s)

/-- DEVSTATUS (21 Table 21-4). -/
def devStatus (s : State) : Nat :=
  s.out.stage % 2 ^ 4 + s.out.bootError % 2 ^ 8 * 2 ^ 8 + s.out.therm % 2 ^ 4 * 2 ^ 16 + s.out.clkMhz % 2 ^ 12 * 2 ^ 20

/-- A byte of BAR0 as a function of the host port reads it: write-only fields and unassigned offsets read zero (21 R460, R461,
Tables 21-1, 21-2, 21-6). -/
def barByte (s : State) (fn : Option Nat) (off : Nat) : BitVec 8 :=
  let of := fun (x o : Nat) => BitVec.ofNat 8 (x / 2 ^ (8 * o))
  match partPage off, ctxPageOf off with
  | some (p, o), _ =>
    if !(seesPage s fn off) then 0 else if o < 8 then of (get 0 s.out.ctrl p) o else if o = 0x400 then of (get 0 s.out.setup p) 0 else 0
  | _, some (_, o) =>
    if !(seesPage s fn off) then 0
    else if o < 8 ∨ (0x10 ≤ o ∧ o < 0x12) ∨ (0x18 ≤ o ∧ o < 0x1C) then get 0#8 s.out.bar0 off else 0
  | _, _ =>
    if off < 8 then of (devStatus s) off
    else if off < 16 then of s.out.counts.toNat (off - 8)
    else if fn.isSome ∨ off < 0x1000 ∨ 0x2000 ≤ off then 0
    else
      let o := off - 0x1000
      if 4 ≤ o ∧ o < 8 then of s.out.box.stat.toNat (o - 4)
      else if 0x40 ≤ o ∧ o < 0x800 then get 0#8 s.out.box.arg (o - 0x40)
      else if 0x800 ≤ o then get 0#8 s.out.box.res (o - 0x800)
      else 0

end Sys2Proof.Machine
end

