-- ==== Sys2Proof/Machine/Apex.lean ====
section
/-! DEFINITION. The mailbox commands of Apex firmware, boot, clock and temperature, and power gating (18 R393 to R397; 11 R305; 21
R466 to R471). -/

namespace Sys2Proof.Machine

/-! ## Commands (21 R468, R469) -/

/-- A command performed where its mailbox waits for it: the first reason of Table 21-8 that applies refuses it, and it changes
nothing; otherwise it has its effect and is done, once what it waits for is over. Reasons come in ascending order; the firmware that
performs commands runs at boot stage 4 (21 R466). Log entry 71 (DEDUCED). -/
def command (s : State) (bar0 : Bool) (opcode : Nat) (reasons : Mailbox → List (Nat × Bool)) (eff : Mailbox → State)
    (wait : Mailbox → Bool := fun _ => false) : State :=
  let b := s.boxOf bar0
  if s.hostOpen && b.busy && b.opcode == opcode then
    match (reasons b).find? (·.2) with
    | some r => s.updBox bar0 fun b => b.finish 3 r.1
    | none => if wait b then s else (eff b).awake.updBox bar0 fun b => b.finish 2 0
  else s

/-! ## Partitions (18 R393, R396; 21 Tables 21-7, 21-9) -/

/-- Whether n bytes of an argument are zero. -/
def Mailbox.zero (b : Mailbox) (o n : Nat) : Bool := (List.range n).all fun i => get 0#8 b.taken (o + i) == 0

/-- The members of a bitmap of n bytes. -/
def Mailbox.bits (b : Mailbox) (o n : Nat) : List Nat :=
  (List.range (8 * n)).filter fun i => (get 0#8 b.taken (o + i / 8)).getLsbD (i % 8)

/-- n single-byte fields. -/
def Mailbox.bytes (b : Mailbox) (o n : Nat) : List Nat := (List.range n).map fun i => b.argN (o + i) 1

/-- The partition that a PARTSET argument describes (21 Table 21-9). -/
def partOf (b : Mailbox) : Partition where
  id := b.argN 0 1
  secure := b.argN 1 1 == 1
  slices := b.bytes 0x20 (min 128 (b.argN 2 1))
  ways := b.bytes 0xA0 128
  hbmShare := b.argN 3 1
  clusters := b.bits 8 16
  ctxs := b.bits 0x120 512
  refuge := b.argN 0x320 8
  refugeLen := b.argN 0x328 8
  salvage := b.argN 0x330 8
  halted := false
  haltReq := false

/-- Whether a PARTSET argument keeps the limits of Table 21-9, and names units that are enabled (01 R10, R22). Log entry 72 (DEDUCED). -/
def partFieldsOk (s : State) (b : Mailbox) : Bool :=
  let p := partOf b
  let n := b.argN 2 1
  decide (p.id ≤ 15) && decide (b.argN 1 1 ≤ 1) && (n == 16 || n == 32 || n == 64 || n == 128) && decide (1 ≤ p.hbmShare) &&
  decide (p.hbmShare ≤ 64) && b.zero 4 4 && p.clusters != [] && p.clusters.length % 4 == 0 && b.zero 0x18 8 &&
  p.clusters.all (enabled s 1) && p.slices.all (enabled s 2) && decide p.slices.Nodup && b.zero (0x20 + n) (128 - n) &&
  (p.ways.zip (List.range 128)).all (fun w => decide (w.1 ≤ 8) && (w.1 != 0) == p.slices.contains w.2) &&
  p.refuge % 65536 == 0 && p.refugeLen % 65536 == 0 && ownsRange s p p.refuge p.refugeLen && p.salvage % 64 == 0 && b.zero 0x338 8

/-- Whether a partition would share a cluster with a running one of a list, or have more than a slice's 8 way units with them. -/
def unitsTaken (qs : List Partition) (p : Partition) : Bool :=
  let run := qs.filter Partition.running
  (run.any fun q => p.clusters.any q.clusters.contains) ||
    p.slices.any fun x => decide (8 < ((p :: run).map fun q => q.ways.getD x 0).sum)

/-- The cores of a partition. -/
def Partition.cores (p : Partition) : List Nat := p.clusters.flatMap fun k => (List.range 4).map (4 * k + ·)

/-- What some clusters, and some slices for the words of regions that satisfy a test of their owner, hold zeroed before they change
hands: cached words are written back first, and images in the shadow stores moved out (18 R393, R416). -/
def zeroUnits (s : State) (clusters slices : List Nat) (owner : Nat → Bool) : State :=
  let cores := clusters.flatMap fun k => (List.range 4).map (4 * k + ·)
  let s := moveImages (cores.foldl (fun s c => drainCore s c fun _ => true) s) clusters.contains
  let stops := clusters.map fun k => 1024 + siteOf s 1 k
  { s with
    pend := s.pend.filter fun e => !cores.contains e.core
    fills := s.fills.filter fun f => !cores.contains f.core
    blocks := s.blocks.filter fun b => !(cores.contains b.cache || stops.contains b.cache ||
      (slices.any (fun x => b.cache == 512 + x) && owner (tagAt s (256 * b.frame)).2))
    tlbs := s.tlbs.filter fun t => !(cores.contains t.unit || clusters.any fun k => t.unit == 512 + k)
    clusters := s.clusters.filter fun k => !clusters.contains k.id
    gated := s.gated.filter fun x => !cores.contains x.1 }

/-- Units that halted partitions still own, and others are to have, zeroed (18 R393). -/
def zeroHalted (s : State) (owners : List Partition) (clusters slices : List Nat) : State :=
  zeroUnits s clusters (slices.filter fun x => owners.any fun q => q.slices.contains x) fun o => owners.any fun q => q.id == o

/-- Whether a partition is to have the unit at a physical place; HBM stacks and links belong to every partition. -/
def unitOf (s : State) (p : Partition) (kind i : Nat) : Bool :=
  match kind with
  | 0 => (servedBy s 1 (i / 17 / 16)).any p.clusters.contains
  | 1 | 5 => (servedBy s 1 i).any p.clusters.contains
  | 2 => (servedBy s 2 i).any p.slices.contains
  | _ => true

/-- Whether a unit that a partition is to have is still to be replaced, in the gap before it runs (19 R452). -/
def unitsDue (s : State) (p : Partition) : Bool := s.out.due.any fun u => !(unitInUse s u.1 u.2) && unitOf s p u.1 u.2

/-- A run begins: of the units that no running partition has, no error counts in it so far (19 R452). -/
def beginRun (s : State) : State := s.updOut fun o => { o with runErrors := o.runErrors.filter fun e => unitInUse s e.1.1 e.1.2 }

/-- PARTSET: a partition is set up, and runs; units that halted partitions still own are zeroed first, and worn units replaced (18 R393; 19
R452; 21 Table 21-7). Log entry 72 (DEDUCED). -/
def execPartset (bar0 : Bool) (s : State) : Host.Outcome State Fault Refusal :=
  .next <| command s bar0 1
    (fun b => [(1, bar0 && (b.argN 1 1 == 1 || partSecure s (b.argN 0 1))), (3, !(partFieldsOk s b)), (4, unitsTaken s.parts (partOf b)),
      (5, (s.part? (b.argN 0 1)).isSome)])
    (fun b =>
      let p := partOf b
      let owners := s.parts.filter fun q => q.halted && q.id != p.id
      let s := zeroHalted s owners (p.clusters.filter fun k => owners.any fun q => q.clusters.contains k) p.slices
      beginRun { s with parts := s.parts ++ [p] })
    (fun b => unitsDue s (partOf b))

/-- A halted partition freed: its contexts and grids end, its cached words are written back, and every piece of state that its units
hold is zeroed (14 R354; 18 R393). -/
def freePart (s : State) (p : Partition) : State :=
  let s := (s.ctxs.filter fun c => c.part == p.id).foldl retireContext s
  let s := zeroUnits s p.clusters p.slices fun o => o == p.id
  let mine := fun t : Nat => (((s.team? t).bind fun t => s.grid? t.grid).map (·.part)) == some p.id
  { s with
    pins := s.pins.filter fun x => x.part != p.id
    queues := s.queues.filter fun x => x.part != p.id
    lists := s.lists.filter fun x => x.part != p.id
    keyspaces := s.keyspaces.filter fun x => x.part != p.id
    arrivals := s.arrivals.filter fun a => !(mine a.team)
    teams := s.teams.filter fun t => !(mine t.id)
    waves := s.waves.filter fun w => !(mine w.team)
    monitors := s.monitors.filter fun m => !(s.waves.any fun w => w.id == m.wave && mine w.team)
    grids := s.grids.filter fun g => g.part != p.id
    out := { s.out with ctrl := del s.out.ctrl p.id, setup := del s.out.setup p.id }
    parts := s.parts.filter fun x => x.id != p.id }

/-- PARTFREE (21 Table 21-7). Log entry 72 (DEDUCED). -/
def execPartfree (bar0 : Bool) (s : State) : Host.Outcome State Fault Refusal :=
  .next <| command s bar0 2
    (fun b => [(1, bar0 && partSecure s (b.argN 0 1)), (3, decide (15 < b.argN 0 1)),
      (5, !(((s.part? (b.argN 0 1)).map (·.halted)).getD false))])
    (fun b => match s.part? (b.argN 0 1) with
      | some p => freePart s p
      | none => s)

/-- A partition asked to come to a halt at the yields of its waves; one with no resident team is halted at once. -/
def haltPart (s : State) (part : Nat) : State :=
  settleHalt (s.updPart part fun p => if p.halted then p else { p with haltReq := true }) part

/-- PARTHALT: done when the last team is saved; until then its mailbox stays busy (21 Table 21-7). -/
def execParthalt (bar0 : Bool) (s : State) : Host.Outcome State Fault Refusal :=
  let b := s.boxOf bar0
  .next <|
    if s.hostOpen && b.busy && b.opcode == 3 then
      let part := b.argN 0 1
      if 15 < part then s.updBox bar0 fun b => b.finish 3 3
      else match s.part? part with
        | none => s.updBox bar0 fun b => b.finish 3 5
        | some p => if p.halted then s.updBox bar0 fun b => b.finish 2 0 else haltPart s part
    else s

/-- Whether every unit of a partition is still enabled: one that is not has to be set up again before it runs (01 R22). -/
def unitsThere (s : State) (p : Partition) : Bool := p.clusters.all (enabled s 1) && p.slices.all (enabled s 2)

/-- The clusters of a partition that another's contexts, or none, were the last to run on. -/
def otherClusters (s : State) (p : Partition) : List Nat :=
  p.clusters.filter fun k => !((s.cluster k).lastCtx.any fun c => ((s.ctx? c).map (·.part)) == some p.id)

/-- PARTRUN: the saved teams of a halted partition may be restored; what its units hold of another partition is zeroed first, and worn
units replaced (18 R393, R418; 19 R452; 21 Table 21-7). Log entry 72 (DEDUCED). -/
def execPartrun (bar0 : Bool) (s : State) : Host.Outcome State Fault Refusal :=
  .next <| command s bar0 4
    (fun b => [(3, decide (15 < b.argN 0 1)),
      (4, ((s.part? (b.argN 0 1)).map fun p => unitsTaken (s.parts.filter fun q => q.id != p.id) p).getD false),
      (5, !(((s.part? (b.argN 0 1)).map fun p => p.halted && unitsThere s p).getD false))])
    (fun b => match s.part? (b.argN 0 1) with
      | some p => State.updPart
          (beginRun (zeroHalted s (s.parts.filter fun q => q.halted && q.id != p.id) (otherClusters s p) p.slices)) p.id
          fun p => { p with halted := false }
      | none => s)
    (fun b => ((s.part? (b.argN 0 1)).map (unitsDue s)).getD false)

/-! ## Regions, keys and shared slices (18 R394, R395, R397) -/

/-- Whether a running partition maps a 2 MiB region of this device. -/
def regionMapped (s : State) (region : Nat) : Bool :=
  s.ctxs.any fun cx => ((s.part? cx.part).map Partition.running).getD false &&
    (List.range (2 ^ 36)).any fun page => match translate s cx unitCore true .read (65536 * page) with
      | .ok x => x.loc / 2 ^ 21 == region
      | .error _ => false

/-- The region numbers that a REGTAG argument names. -/
def tagRegions (s : State) (b : Mailbox) : List Nat := (List.range (b.argN 8 4)).map fun i => s.here (b.argN 0 8 + 2 ^ 21 * i) / 2 ^ 21

/-- Regions of 2 MiB in the 640 GB of HBM (01 R10). Log entry 88 (DEDUCED). -/
def hbmRegions : Nat := 640 * 10 ^ 9 / 2 ^ 21

/-- The tags of regions written; their cached words are first written back and dropped (18 R394). -/
def tagWrite (s : State) (regions : List Nat) (tag : Bool × Nat) : State :=
  let hit := fun w : Nat => regions.contains (16 * w / 2 ^ 21)
  let cores := ((s.pend.map (·.core)) ++ (s.blocks.map (·.cache)).filter (· < 512)).dedup
  let s := cores.foldl (fun s c => drainCore s c hit) s
  { s with
    blocks := s.blocks.filter fun b => !(hit (16 * b.frame))
    guests := s.guests.filter fun g => !(hit g.word)
    tags := regions.foldl (fun m r => put (false, 31) m r tag) s.tags }

/-- REGTAG: the tag of each region written (18 R394; 21 Table 21-7). -/
def execRegtag (bar0 : Bool) (s : State) : Host.Outcome State Fault Refusal :=
  .next <| command s bar0 5
    (fun b =>
      let owner := b.argN 13 1
      [(1, bar0 && (b.argN 12 1 == 1 || (tagRegions s b).any fun r => (get (false, 31) s.tags r).1)),
        (3, !(b.argN 0 8 % 2 ^ 21 == 0 && decide (1 ≤ b.argN 8 4) && decide (b.argN 0 8 + 2 ^ 21 * b.argN 8 4 ≤ 2 ^ 21 * hbmRegions) &&
          decide (b.argN 12 1 ≤ 1) && (decide (owner ≤ 15) || owner == 31))),
        (4, (tagRegions s b).any (regionMapped s))])
    (fun b => tagWrite s (tagRegions s b) (b.argN 12 1 == 1, b.argN 13 1))

/-- KEYLOAD: an XTS key loaded and assigned to a partition (18 R395; 21 Table 21-7). Log entry 32 (DEDUCED). -/
def execKeyload (bar0 : Bool) (s : State) : Host.Outcome State Fault Refusal :=
  .next <| command s bar0 6
    (fun b =>
      let id := b.argN 0 1
      let part := b.argN 1 1
      [(1, bar0 && partSecure s part), (3, !(decide (1 ≤ id) && decide (id ≤ 63) && decide (part ≤ 15))),
        (6, s.keys.any fun k => k.1 == id && k.2.1 != part)])
    (fun b =>
      let material := (List.range 64).map fun i => get 0#8 b.taken (16 + i)
      { s with keys := (b.argN 0 1, (b.argN 1 1, material)) :: s.keys.filter fun k => k.1 != b.argN 0 1 })

/-- SHAREDSET: the slices that home regions owned as shared; what they hold of halted partitions is zeroed first (18 R393, R397; 21 Table
21-7). Log entry 72 (DEDUCED). -/
def execSharedset (bar0 : Bool) (s : State) : Host.Outcome State Fault Refusal :=
  let named := fun b : Mailbox => (List.range (b.argN 0 1)).map fun i => b.argN (16 + 2 * i) 2
  .next <| command s bar0 9
    (fun b => [(3, !(decide (1 ≤ b.argN 0 1) && decide (b.argN 0 1 ≤ 16) && (named b).all (enabled s 2))),
      (4, (named b).any fun x => s.parts.any fun p => p.running && p.slices.contains x)])
    (fun b => serveShared (zeroHalted s (s.parts.filter (·.halted)) [] (named b)) (named b))

/-! ## Units and power (19 R452; 21 R470, Table 21-10) -/

/-- Units of a kind (21 Table 21-10). -/
def unitCount (kind : Nat) : Nat :=
  match kind with
  | 0 => 136 * 16 * 17
  | 1 | 2 | 5 => 136
  | 3 => 8 * 33
  | 4 => 8
  | _ => 18 * 16

/-- CORRECTED of a unit's entry: its corrected count, or the spare rows left. Log entry 34 (DESIGN CHOICE). -/
def unitCorrected (s : State) (kind i : Nat) : Nat :=
  if kind = 4 ∨ kind = 5 then Config.spareRows kind - unitState s kind i else at2 0 s.out.corrected (kind, i)

/-- The result of UNITREAD: up to 127 entries (21 Table 21-10). -/
def unitResult (s : State) (kind first : Nat) : List (BitVec 8) :=
  let n := min 127 (unitCount kind - first)
  let next := if first + n < unitCount kind then first + n else 2 ^ 32 - 1
  let st := fun i => if kind = 4 ∨ kind = 5 then 0 else unitState s kind i
  leBytes 4 n ++ leBytes 4 next ++ (List.range n).flatMap fun i =>
    leBytes 4 (first + i) ++ leBytes 1 (st (first + i)) ++ leBytes 3 0 ++ leBytes 8 (unitCorrected s kind (first + i))

/-- Bytes written into MBRES. -/
def Mailbox.putRes (b : Mailbox) (bs : List (BitVec 8)) : Mailbox :=
  { b with res := (bs.zip (List.range bs.length)).foldl (fun m p => put 0#8 m p.2 p.1) b.res }

/-- UNITREAD: unit entries into MBRES (21 Table 21-7). -/
def execUnitread (bar0 : Bool) (s : State) : Host.Outcome State Fault Refusal :=
  .next <| command s bar0 7 (fun b => [(3, !(decide (b.argN 0 1 ≤ 6)))])
    (fun b => s.updBox bar0 fun x => x.putRes (unitResult s (b.argN 0 1) (b.argN 4 4)))

/-- PWRLIMIT: the package power limit (21 R470). -/
def execPwrlimit (bar0 : Bool) (s : State) : Host.Outcome State Fault Refusal :=
  .next <| command s bar0 8 (fun b => [(3, !(decide (1500 ≤ b.argN 0 2) && decide (b.argN 0 2 ≤ 3000)))])
    (fun b => s.updOut fun o => { o with power := b.argN 0 2 })

/-! ## Boot, clock and temperature (21 R466, R470, R471) -/

/-- DEVICE_RESET: the machine right after reset. What the fuses, the firmware's unit records and memory hold stays, and so do the
model's own agenda and counter (00 R9; 21 R466). Log entry 73 (DEDUCED). -/
def execDeviceReset (s : State) : Host.Outcome State Fault Refusal :=
  .next { State.reset with
    agenda := s.agenda
    tick := s.tick
    nextId := s.nextId
    mem := s.mem
    marks := s.marks
    pageKeys := s.pageKeys
    ciphers := s.ciphers
    lanemap := s.lanemap
    out := { Outside.reset with
      corrected := s.out.corrected
      runErrors := s.out.runErrors
      due := s.out.due
      failing := s.out.failing
      units := s.out.units
      sites := s.out.sites
      links := s.out.links } }

/-- What the main firmware sets at boot: the device number, the routing table, and the pages of host memory that are reached as plain PCIe
memory (09 R264; 21 R465). Log entry 31 (DEDUCED). -/
def bootRoutes (s : State) : State :=
  s.updOut fun o => { o with
    device := Config.deviceNumber % 1024
    routes := (List.range 1024).map fun d => (d, (List.range 18).filter fun n => (Config.route d).getLsbD n)
    pcie := Config.pciePages }

/-- BOOT_STAGE_COMPLETE: DEVSTATUS advances, or reports a failed boot; the enabled counts are written at stage 2, and the main firmware
of stage 3 gives the device its number and its routes (21 R465 to R467). No stage sets a clock: CLKMHZ keeps its reset value until the
first CLOCK_CHANGE, since the spec does not say at which stage the firmware first sets it. Log entry 74 (DEDUCED). -/
def execBootStageComplete (error : Option Nat) (s : State) : Host.Outcome State Fault Refusal :=
  if 4 ≤ s.out.stage then .next s else
  match error with
  | some e => .next (s.updOut fun o => { o with stage := 15, bootError := e % 256 })
  | none =>
    let s := s.updOut fun o => { o with stage := o.stage + 1 }
    .next (if s.out.stage = 2 then writeCountsReg s else if s.out.stage = 3 then bootRoutes s else s)

/-- CLOCK_CHANGE: the core clock, in steps of 250 MHz between 1 GHz and 4 GHz; it changes no result (01 R14; 21 R470). Log entry 74 (DEDUCED). -/
def execClockChange (mhz : Nat) (s : State) : Host.Outcome State Fault Refusal :=
  if 1000 ≤ mhz ∧ mhz ≤ 4000 ∧ mhz % 250 = 0 then .next (s.updOut fun o => { o with clkMhz := mhz }) else .next s

/-- THERMAL_LIMIT: the clock is lowered and THERM reads 1, unless the device has been halted for its temperature (21 R471). Log entry 74
(DEDUCED). -/
def execThermalLimit (s : State) : Host.Outcome State Fault Refusal :=
  if s.out.therm = 2 then .next s else .next (s.updOut fun o => { o with therm := 1, clkMhz := if 1250 ≤ o.clkMhz then o.clkMhz - 250 else o.clkMhz })

/-- THERMAL_HALT: every partition is halted at its yields and saved to SAVEAREA; once all are, the clocks stop and THERM reads 2 (21 R471).
Log entry 74 (DEDUCED). -/
def execThermalHalt (s : State) : Host.Outcome State Fault Refusal :=
  let s := s.parts.foldl (fun s p => haltPart s p.id) s
  .next (if s.parts.all (·.halted) then (moveImages s fun _ => true).updOut fun o => { o with therm := 2, clkMhz := 0 } else s)

/-- CORE_POWER_GATE: a core none of whose waves can issue, and with nothing in flight, is power-gated (11 R305). -/
def execCorePowerGate (core : Nat) (s : State) : Host.Outcome State Fault Refusal :=
  let here := s.teams.filter fun t => t.core == core && t.state == .resident
  let idle := here.all fun t => (s.wavesOf t.id).all (fun w => w.state == .blocked || w.state == .parked || w.state == .retired) &&
    s.ops.all fun o => o.team != t.id
  .next (if idle then { s with gated := put false s.gated core true } else s)

end Sys2Proof.Machine
end

