-- ==== Sys2Proof/Machine/FpLane.lean ====
section
/-! DEFINITION. The floating-point, special-function, conversion, compare, select and predicate instructions: majors 4 to
6, groups 0 to 3 of major 7, majors 8, 13 and 14, and their 16-bit forms (06 R157 to R172). -/

namespace Sys2Proof.Machine

/-- vfadd.f64: a + b rounded once to nearest even (06 R157 to R159). -/
def execVfaddF64 (o : OpA) (s : State) : Host.Outcome State Fault Refusal :=
  vecFp s o f64 (fun a b => fpAdd f64 .rne false 0 a b)

/-- vfsub.f64: a − b rounded once to nearest even (06 R157 to R159). -/
def execVfsubF64 (o : OpA) (s : State) : Host.Outcome State Fault Refusal :=
  vecFp s o f64 (fun a b => fpSub f64 .rne false 0 a b)

/-- vfmul.f64: a · b rounded once to nearest even (06 R157 to R159). -/
def execVfmulF64 (o : OpA) (s : State) : Host.Outcome State Fault Refusal :=
  vecFp s o f64 (fun a b => fpMul f64 .rne false 0 a b)

/-- vfma.f64: a · b + d rounded once (06 R157 to R159). -/
def execVfmaF64 (o : OpA) (s : State) : Host.Outcome State Fault Refusal :=
  vecFma s o f64

/-- vfmin.f64: minimumNumber (06 R160). -/
def execVfminF64 (o : OpA) (s : State) : Host.Outcome State Fault Refusal :=
  vecFp s o f64 (fpMinMax f64 false false)

/-- vfmin.f64.nan: the NaN where either input is one (06 R160). -/
def execVfminF64Nan (o : OpA) (s : State) : Host.Outcome State Fault Refusal :=
  vecFp s o f64 (fpMinMax f64 false true)

/-- vfmax.f64: maximumNumber (06 R160). -/
def execVfmaxF64 (o : OpA) (s : State) : Host.Outcome State Fault Refusal :=
  vecFp s o f64 (fpMinMax f64 true false)

/-- vfmax.f64.nan: the NaN where either input is one (06 R160). -/
def execVfmaxF64Nan (o : OpA) (s : State) : Host.Outcome State Fault Refusal :=
  vecFp s o f64 (fpMinMax f64 true true)

/-- vfadd.f32x2: a + b rounded once to nearest even (06 R157 to R159). -/
def execVfaddF32x2 (o : OpA) (s : State) : Host.Outcome State Fault Refusal :=
  vecFp s o f32 (fun a b => fpAdd f32 .rne false 0 a b)

/-- vfsub.f32x2: a − b rounded once to nearest even (06 R157 to R159). -/
def execVfsubF32x2 (o : OpA) (s : State) : Host.Outcome State Fault Refusal :=
  vecFp s o f32 (fun a b => fpSub f32 .rne false 0 a b)

/-- vfmul.f32x2: a · b rounded once to nearest even (06 R157 to R159). -/
def execVfmulF32x2 (o : OpA) (s : State) : Host.Outcome State Fault Refusal :=
  vecFp s o f32 (fun a b => fpMul f32 .rne false 0 a b)

/-- vfma.f32x2: a · b + d rounded once (06 R157 to R159). -/
def execVfmaF32x2 (o : OpA) (s : State) : Host.Outcome State Fault Refusal :=
  vecFma s o f32

/-- vfmin.f32x2: minimumNumber (06 R160). -/
def execVfminF32x2 (o : OpA) (s : State) : Host.Outcome State Fault Refusal :=
  vecFp s o f32 (fpMinMax f32 false false)

/-- vfmin.f32x2.nan: the NaN where either input is one (06 R160). -/
def execVfminF32x2Nan (o : OpA) (s : State) : Host.Outcome State Fault Refusal :=
  vecFp s o f32 (fpMinMax f32 false true)

/-- vfmax.f32x2: maximumNumber (06 R160). -/
def execVfmaxF32x2 (o : OpA) (s : State) : Host.Outcome State Fault Refusal :=
  vecFp s o f32 (fpMinMax f32 true false)

/-- vfmax.f32x2.nan: the NaN where either input is one (06 R160). -/
def execVfmaxF32x2Nan (o : OpA) (s : State) : Host.Outcome State Fault Refusal :=
  vecFp s o f32 (fpMinMax f32 true true)

/-- vfadd.f16x4: a + b rounded once to nearest even (06 R157 to R159). -/
def execVfaddF16x4 (o : OpA) (s : State) : Host.Outcome State Fault Refusal :=
  vecFp s o f16 (fun a b => fpAdd f16 .rne false 0 a b)

/-- vfsub.f16x4: a − b rounded once to nearest even (06 R157 to R159). -/
def execVfsubF16x4 (o : OpA) (s : State) : Host.Outcome State Fault Refusal :=
  vecFp s o f16 (fun a b => fpSub f16 .rne false 0 a b)

/-- vfmul.f16x4: a · b rounded once to nearest even (06 R157 to R159). -/
def execVfmulF16x4 (o : OpA) (s : State) : Host.Outcome State Fault Refusal :=
  vecFp s o f16 (fun a b => fpMul f16 .rne false 0 a b)

/-- vfma.f16x4: a · b + d rounded once (06 R157 to R159). -/
def execVfmaF16x4 (o : OpA) (s : State) : Host.Outcome State Fault Refusal :=
  vecFma s o f16

/-- vfmin.f16x4: minimumNumber (06 R160). -/
def execVfminF16x4 (o : OpA) (s : State) : Host.Outcome State Fault Refusal :=
  vecFp s o f16 (fpMinMax f16 false false)

/-- vfmin.f16x4.nan: the NaN where either input is one (06 R160). -/
def execVfminF16x4Nan (o : OpA) (s : State) : Host.Outcome State Fault Refusal :=
  vecFp s o f16 (fpMinMax f16 false true)

/-- vfmax.f16x4: maximumNumber (06 R160). -/
def execVfmaxF16x4 (o : OpA) (s : State) : Host.Outcome State Fault Refusal :=
  vecFp s o f16 (fpMinMax f16 true false)

/-- vfmax.f16x4.nan: the NaN where either input is one (06 R160). -/
def execVfmaxF16x4Nan (o : OpA) (s : State) : Host.Outcome State Fault Refusal :=
  vecFp s o f16 (fpMinMax f16 true true)

/-- vfadd.bf16x4: a + b rounded once to nearest even (06 R157 to R159). -/
def execVfaddBf16x4 (o : OpA) (s : State) : Host.Outcome State Fault Refusal :=
  vecFp s o bf16 (fun a b => fpAdd bf16 .rne false 0 a b)

/-- vfsub.bf16x4: a − b rounded once to nearest even (06 R157 to R159). -/
def execVfsubBf16x4 (o : OpA) (s : State) : Host.Outcome State Fault Refusal :=
  vecFp s o bf16 (fun a b => fpSub bf16 .rne false 0 a b)

/-- vfmul.bf16x4: a · b rounded once to nearest even (06 R157 to R159). -/
def execVfmulBf16x4 (o : OpA) (s : State) : Host.Outcome State Fault Refusal :=
  vecFp s o bf16 (fun a b => fpMul bf16 .rne false 0 a b)

/-- vfma.bf16x4: a · b + d rounded once (06 R157 to R159). -/
def execVfmaBf16x4 (o : OpA) (s : State) : Host.Outcome State Fault Refusal :=
  vecFma s o bf16

/-- vfmin.bf16x4: minimumNumber (06 R160). -/
def execVfminBf16x4 (o : OpA) (s : State) : Host.Outcome State Fault Refusal :=
  vecFp s o bf16 (fpMinMax bf16 false false)

/-- vfmin.bf16x4.nan: the NaN where either input is one (06 R160). -/
def execVfminBf16x4Nan (o : OpA) (s : State) : Host.Outcome State Fault Refusal :=
  vecFp s o bf16 (fpMinMax bf16 false true)

/-- vfmax.bf16x4: maximumNumber (06 R160). -/
def execVfmaxBf16x4 (o : OpA) (s : State) : Host.Outcome State Fault Refusal :=
  vecFp s o bf16 (fpMinMax bf16 true false)

/-- vfmax.bf16x4.nan: the NaN where either input is one (06 R160). -/
def execVfmaxBf16x4Nan (o : OpA) (s : State) : Host.Outcome State Fault Refusal :=
  vecFp s o bf16 (fpMinMax bf16 true true)

/-- vfadd.f32x2, 16-bit, with a = d (04 R98). -/
def execVfaddF32x2C16 (o : Op16) (s : State) : Host.Outcome State Fault Refusal :=
  vecFp16 s o f32 (fun a b => fpAdd f32 .rne false 0 a b)

/-- vfsub.f32x2, 16-bit, with a = d (04 R98). -/
def execVfsubF32x2C16 (o : Op16) (s : State) : Host.Outcome State Fault Refusal :=
  vecFp16 s o f32 (fun a b => fpSub f32 .rne false 0 a b)

/-- vfmul.f32x2, 16-bit, with a = d (04 R98). -/
def execVfmulF32x2C16 (o : Op16) (s : State) : Host.Outcome State Fault Refusal :=
  vecFp16 s o f32 (fun a b => fpMul f32 .rne false 0 a b)

/-- vfmin.f32x2, 16-bit, with a = d (04 R98). -/
def execVfminF32x2C16 (o : Op16) (s : State) : Host.Outcome State Fault Refusal :=
  vecFp16 s o f32 (fpMinMax f32 false false)

/-- vfmax.f32x2, 16-bit, with a = d (04 R98). -/
def execVfmaxF32x2C16 (o : Op16) (s : State) : Host.Outcome State Fault Refusal :=
  vecFp16 s o f32 (fpMinMax f32 true false)

/-- vfadd.f64, 16-bit, with a = d (04 R98). -/
def execVfaddF64C16 (o : Op16) (s : State) : Host.Outcome State Fault Refusal :=
  vecFp16 s o f64 (fun a b => fpAdd f64 .rne false 0 a b)

/-- vfadd with a rounding or .ftz (04 R100, 06 R157). -/
def execVfaddQ (o : OpQ) (s : State) : Host.Outcome State Fault Refusal :=
  vecQ s o false fun F r ftz u a b _ => fpAdd F r ftz u a b

/-- vfsub with a rounding or .ftz (04 R100, 06 R157). -/
def execVfsubQ (o : OpQ) (s : State) : Host.Outcome State Fault Refusal :=
  vecQ s o false fun F r ftz u a b _ => fpSub F r ftz u a b

/-- vfmul with a rounding or .ftz (04 R100, 06 R157). -/
def execVfmulQ (o : OpQ) (s : State) : Host.Outcome State Fault Refusal :=
  vecQ s o false fun F r ftz u a b _ => fpMul F r ftz u a b

/-- vfma with a rounding or .ftz (04 R100, 06 R157). -/
def execVfmaQ (o : OpQ) (s : State) : Host.Outcome State Fault Refusal :=
  vecQ s o true fun F r ftz u a b d => fpFma F r ftz u a b d

/-- vfabs (06 Table 06-3). -/
def execVfabs (o : OpU) (s : State) : Host.Outcome State Fault Refusal :=
  vecU s o fun F => fpSign F false

/-- vfneg (06 Table 06-3). -/
def execVfneg (o : OpU) (s : State) : Host.Outcome State Fault Refusal :=
  vecU s o fun F => fpSign F true

/-- vrcp (06 Tables 06-4 and 06-5). -/
def execVrcp (o : OpU) (s : State) : Host.Outcome State Fault Refusal :=
  vecU s o fun F => special F 2

/-- vrsqrt (06 Tables 06-4 and 06-5). -/
def execVrsqrt (o : OpU) (s : State) : Host.Outcome State Fault Refusal :=
  vecU s o fun F => special F 3

/-- vsqrt (06 Tables 06-4 and 06-5). -/
def execVsqrt (o : OpU) (s : State) : Host.Outcome State Fault Refusal :=
  vecU s o fun F => special F 4

/-- vsin (06 Tables 06-4 and 06-5). -/
def execVsin (o : OpU) (s : State) : Host.Outcome State Fault Refusal :=
  vecU s o fun F => special F 5

/-- vcos (06 Tables 06-4 and 06-5). -/
def execVcos (o : OpU) (s : State) : Host.Outcome State Fault Refusal :=
  vecU s o fun F => special F 6

/-- vsinpi (06 Tables 06-4 and 06-5). -/
def execVsinpi (o : OpU) (s : State) : Host.Outcome State Fault Refusal :=
  vecU s o fun F => special F 7

/-- vcospi (06 Tables 06-4 and 06-5). -/
def execVcospi (o : OpU) (s : State) : Host.Outcome State Fault Refusal :=
  vecU s o fun F => special F 8

/-- vexp2 (06 Tables 06-4 and 06-5). -/
def execVexp2 (o : OpU) (s : State) : Host.Outcome State Fault Refusal :=
  vecU s o fun F => special F 9

/-- vlog2 (06 Tables 06-4 and 06-5). -/
def execVlog2 (o : OpU) (s : State) : Host.Outcome State Fault Refusal :=
  vecU s o fun F => special F 10

/-- vtanh (06 Tables 06-4 and 06-5). -/
def execVtanh (o : OpU) (s : State) : Host.Outcome State Fault Refusal :=
  vecU s o fun F => special F 11

/-- vfrintn: an integral value, ties to even (06 Table 06-3). -/
def execVfrintn (o : OpU) (s : State) : Host.Outcome State Fault Refusal :=
  vecU s o fun F => fpRint F .rne

/-- vfrintz: an integral value, toward zero (06 Table 06-3). -/
def execVfrintz (o : OpU) (s : State) : Host.Outcome State Fault Refusal :=
  vecU s o fun F => fpRint F .rtz

/-- vfrintm: an integral value, toward −∞ (06 Table 06-3). -/
def execVfrintm (o : OpU) (s : State) : Host.Outcome State Fault Refusal :=
  vecU s o fun F => fpRint F .rdn

/-- vfrintp: an integral value, toward +∞ (06 Table 06-3). -/
def execVfrintp (o : OpU) (s : State) : Host.Outcome State Fault Refusal :=
  vecU s o fun F => fpRint F .rup

/-- vfclass (06 R162). -/
def execVfclass (o : OpU) (s : State) : Host.Outcome State Fault Refusal :=
  vecU s o fun F a => (fpClass F a, 0)

/-- vcvt: n sub-elements converted, the bits of d above them zero; SEED advances under rs whatever the types (06 R167 to R169). -/
def execVcvt (o : OpC) (s : State) : Host.Outcome State Fault Refusal :=
  issue s (okCvt o) 4 fun c =>
    let src := cvtTy o.st.toNat
    let dst := cvtTy o.dt.toNat
    let r := rndOf o.rnd.toNat
    let x := seedStep c.w.seed
    vecEff c 4 o.d.toNat [(o.a.toNat, o.ca.toNat)] [] (r == .rs) fun t =>
      mapF dst.width (64 / max src.width dst.width) fun e =>
        cvt1 src dst r (o.sat == 1) (draw x t e) (elem src.width (c.w.getV o.a.toNat t) e)

/-- vceq (06 Table 06-7). -/
def execVceq (o : OpP) (s : State) : Host.Outcome State Fault Refusal :=
  vecCmp s o 0

/-- sceq (06 Table 06-7). -/
def execSceq (o : OpP) (s : State) : Host.Outcome State Fault Refusal :=
  uniCmp s o 0

/-- vcne (06 Table 06-7). -/
def execVcne (o : OpP) (s : State) : Host.Outcome State Fault Refusal :=
  vecCmp s o 1

/-- scne (06 Table 06-7). -/
def execScne (o : OpP) (s : State) : Host.Outcome State Fault Refusal :=
  uniCmp s o 1

/-- vclt (06 Table 06-7). -/
def execVclt (o : OpP) (s : State) : Host.Outcome State Fault Refusal :=
  vecCmp s o 2

/-- sclt (06 Table 06-7). -/
def execSclt (o : OpP) (s : State) : Host.Outcome State Fault Refusal :=
  uniCmp s o 2

/-- vcle (06 Table 06-7). -/
def execVcle (o : OpP) (s : State) : Host.Outcome State Fault Refusal :=
  vecCmp s o 3

/-- scle (06 Table 06-7). -/
def execScle (o : OpP) (s : State) : Host.Outcome State Fault Refusal :=
  uniCmp s o 3

/-- vcgt (06 Table 06-7). -/
def execVcgt (o : OpP) (s : State) : Host.Outcome State Fault Refusal :=
  vecCmp s o 4

/-- scgt (06 Table 06-7). -/
def execScgt (o : OpP) (s : State) : Host.Outcome State Fault Refusal :=
  uniCmp s o 4

/-- vcge (06 Table 06-7). -/
def execVcge (o : OpP) (s : State) : Host.Outcome State Fault Refusal :=
  vecCmp s o 5

/-- scge (06 Table 06-7). -/
def execScge (o : OpP) (s : State) : Host.Outcome State Fault Refusal :=
  uniCmp s o 5

/-- vcord (06 Table 06-7). -/
def execVcord (o : OpP) (s : State) : Host.Outcome State Fault Refusal :=
  vecCmp s o 6

/-- scord (06 Table 06-7). -/
def execScord (o : OpP) (s : State) : Host.Outcome State Fault Refusal :=
  uniCmp s o 6

/-- vcunord (06 Table 06-7). -/
def execVcunord (o : OpP) (s : State) : Host.Outcome State Fault Refusal :=
  vecCmp s o 7

/-- scunord (06 Table 06-7). -/
def execScunord (o : OpP) (s : State) : Host.Outcome State Fault Refusal :=
  uniCmp s o 7

/-- vcneu (06 Table 06-7). -/
def execVcneu (o : OpP) (s : State) : Host.Outcome State Fault Refusal :=
  vecCmp s o 8

/-- scneu (06 Table 06-7). -/
def execScneu (o : OpP) (s : State) : Host.Outcome State Fault Refusal :=
  uniCmp s o 8

/-- vsel: a where p is true, otherwise b; both are read (06 R171). -/
def execVsel (o : OpE) (s : State) : Host.Outcome State Fault Refusal :=
  issue s (okCode o.ca && okCode o.cb) 4 fun c =>
    vecEff c 4 o.d.toNat [(o.a.toNat, o.ca.toNat), (o.b.toNat, o.cb.toNat)] [] false fun t =>
      (if c.w.getP o.p.toNat t then c.w.getV o.a.toNat t else c.w.getV o.b.toNat t, 0)

/-- pand (04 R107, 06 R172). -/
def execPand (o : OpPL) (s : State) : Host.Outcome State Fault Refusal :=
  predOp s o.pd fun w t => w.getP o.pa.toNat t && w.getP o.pb.toNat t

/-- por (04 R107, 06 R172). -/
def execPor (o : OpPL) (s : State) : Host.Outcome State Fault Refusal :=
  predOp s o.pd fun w t => w.getP o.pa.toNat t || w.getP o.pb.toNat t

/-- pxor (04 R107, 06 R172). -/
def execPxor (o : OpPL) (s : State) : Host.Outcome State Fault Refusal :=
  predOp s o.pd fun w t => w.getP o.pa.toNat t != w.getP o.pb.toNat t

/-- pandn (04 R107, 06 R172). -/
def execPandn (o : OpPL) (s : State) : Host.Outcome State Fault Refusal :=
  predOp s o.pd fun w t => w.getP o.pa.toNat t && !w.getP o.pb.toNat t

/-- pnot (04 R107, 06 R172). -/
def execPnot (o : OpPN) (s : State) : Host.Outcome State Fault Refusal :=
  predOp s o.pd fun w t => !w.getP o.pa.toNat t

/-- pmov (04 R107, 06 R172). -/
def execPmov (o : OpPN) (s : State) : Host.Outcome State Fault Refusal :=
  predOp s o.pd fun w t => w.getP o.pa.toNat t

end Sys2Proof.Machine
end

