-- ==== Sys2Proof/Machine/IntLane.lean ====
section
/-! DEFINITION. The integer, bitwise, move and immediate instructions: majors 0 to 3, 10 to 12, groups 4 and 5 of major 7,
and their 16-bit forms (06 R153 to R156). -/

namespace Sys2Proof.Machine

/-- vadd.i8x8: a + b on each sub-element (06 Table 06-1). -/
def execVaddI8x8 (o : OpA) (s : State) : Host.Outcome State Fault Refusal :=
  vecInt s o 8 addW

/-- vsub.i8x8: a − b on each sub-element (06 Table 06-1). -/
def execVsubI8x8 (o : OpA) (s : State) : Host.Outcome State Fault Refusal :=
  vecInt s o 8 subW

/-- vmin.i8x8: the signed minimum on each sub-element (06 Table 06-1). -/
def execVminI8x8 (o : OpA) (s : State) : Host.Outcome State Fault Refusal :=
  vecInt s o 8 minS

/-- vmin.n8x8: the unsigned minimum on each sub-element (06 Table 06-1). -/
def execVminN8x8 (o : OpA) (s : State) : Host.Outcome State Fault Refusal :=
  vecInt s o 8 minU

/-- vmax.i8x8: the signed maximum on each sub-element (06 Table 06-1). -/
def execVmaxI8x8 (o : OpA) (s : State) : Host.Outcome State Fault Refusal :=
  vecInt s o 8 maxS

/-- vmax.n8x8: the unsigned maximum on each sub-element (06 Table 06-1). -/
def execVmaxN8x8 (o : OpA) (s : State) : Host.Outcome State Fault Refusal :=
  vecInt s o 8 maxU

/-- vadd.i8x8.sat: the clamped sum, SAT where clamped (06 Table 06-1). -/
def execVaddI8x8Sat (o : OpA) (s : State) : Host.Outcome State Fault Refusal :=
  vecSat s o true false 8

/-- vadd.n8x8.sat: the clamped sum, SAT where clamped (06 Table 06-1). -/
def execVaddN8x8Sat (o : OpA) (s : State) : Host.Outcome State Fault Refusal :=
  vecSat s o false false 8

/-- vadd.i16x4: a + b on each sub-element (06 Table 06-1). -/
def execVaddI16x4 (o : OpA) (s : State) : Host.Outcome State Fault Refusal :=
  vecInt s o 16 addW

/-- vsub.i16x4: a − b on each sub-element (06 Table 06-1). -/
def execVsubI16x4 (o : OpA) (s : State) : Host.Outcome State Fault Refusal :=
  vecInt s o 16 subW

/-- vmin.i16x4: the signed minimum on each sub-element (06 Table 06-1). -/
def execVminI16x4 (o : OpA) (s : State) : Host.Outcome State Fault Refusal :=
  vecInt s o 16 minS

/-- vmin.n16x4: the unsigned minimum on each sub-element (06 Table 06-1). -/
def execVminN16x4 (o : OpA) (s : State) : Host.Outcome State Fault Refusal :=
  vecInt s o 16 minU

/-- vmax.i16x4: the signed maximum on each sub-element (06 Table 06-1). -/
def execVmaxI16x4 (o : OpA) (s : State) : Host.Outcome State Fault Refusal :=
  vecInt s o 16 maxS

/-- vmax.n16x4: the unsigned maximum on each sub-element (06 Table 06-1). -/
def execVmaxN16x4 (o : OpA) (s : State) : Host.Outcome State Fault Refusal :=
  vecInt s o 16 maxU

/-- vadd.i16x4.sat: the clamped sum, SAT where clamped (06 Table 06-1). -/
def execVaddI16x4Sat (o : OpA) (s : State) : Host.Outcome State Fault Refusal :=
  vecSat s o true false 16

/-- vadd.n16x4.sat: the clamped sum, SAT where clamped (06 Table 06-1). -/
def execVaddN16x4Sat (o : OpA) (s : State) : Host.Outcome State Fault Refusal :=
  vecSat s o false false 16

/-- vadd.i32x2: a + b on each sub-element (06 Table 06-1). -/
def execVaddI32x2 (o : OpA) (s : State) : Host.Outcome State Fault Refusal :=
  vecInt s o 32 addW

/-- vsub.i32x2: a − b on each sub-element (06 Table 06-1). -/
def execVsubI32x2 (o : OpA) (s : State) : Host.Outcome State Fault Refusal :=
  vecInt s o 32 subW

/-- vmul.i32x2: the low bits of a · b on each sub-element (06 Table 06-1). -/
def execVmulI32x2 (o : OpA) (s : State) : Host.Outcome State Fault Refusal :=
  vecInt s o 32 mulW

/-- vmulhi.i32x2: the high bits of the signed product on each sub-element (06 Table 06-1). -/
def execVmulhiI32x2 (o : OpA) (s : State) : Host.Outcome State Fault Refusal :=
  vecInt s o 32 mulhiS

/-- vmulhi.n32x2: the high bits of the unsigned product on each sub-element (06 Table 06-1). -/
def execVmulhiN32x2 (o : OpA) (s : State) : Host.Outcome State Fault Refusal :=
  vecInt s o 32 mulhiU

/-- vmin.i32x2: the signed minimum on each sub-element (06 Table 06-1). -/
def execVminI32x2 (o : OpA) (s : State) : Host.Outcome State Fault Refusal :=
  vecInt s o 32 minS

/-- vmin.n32x2: the unsigned minimum on each sub-element (06 Table 06-1). -/
def execVminN32x2 (o : OpA) (s : State) : Host.Outcome State Fault Refusal :=
  vecInt s o 32 minU

/-- vmax.i32x2: the signed maximum on each sub-element (06 Table 06-1). -/
def execVmaxI32x2 (o : OpA) (s : State) : Host.Outcome State Fault Refusal :=
  vecInt s o 32 maxS

/-- vmax.n32x2: the unsigned maximum on each sub-element (06 Table 06-1). -/
def execVmaxN32x2 (o : OpA) (s : State) : Host.Outcome State Fault Refusal :=
  vecInt s o 32 maxU

/-- vshl.i32x2: a shifted left on each sub-element (06 Table 06-1). -/
def execVshlI32x2 (o : OpA) (s : State) : Host.Outcome State Fault Refusal :=
  vecInt s o 32 shlW

/-- vshr.n32x2: a shifted right, zeros entering on each sub-element (06 Table 06-1). -/
def execVshrN32x2 (o : OpA) (s : State) : Host.Outcome State Fault Refusal :=
  vecInt s o 32 shrU

/-- vshr.i32x2: a shifted right, sign bits entering on each sub-element (06 Table 06-1). -/
def execVshrI32x2 (o : OpA) (s : State) : Host.Outcome State Fault Refusal :=
  vecInt s o 32 shrS

/-- vadd.i32x2.sat: the clamped sum, SAT where clamped (06 Table 06-1). -/
def execVaddI32x2Sat (o : OpA) (s : State) : Host.Outcome State Fault Refusal :=
  vecSat s o true false 32

/-- vadd.n32x2.sat: the clamped sum, SAT where clamped (06 Table 06-1). -/
def execVaddN32x2Sat (o : OpA) (s : State) : Host.Outcome State Fault Refusal :=
  vecSat s o false false 32

/-- vsub.i32x2.sat: the clamped difference, SAT where clamped (06 Table 06-1). -/
def execVsubI32x2Sat (o : OpA) (s : State) : Host.Outcome State Fault Refusal :=
  vecSat s o true true 32

/-- vsub.n32x2.sat: the clamped difference, SAT where clamped (06 Table 06-1). -/
def execVsubN32x2Sat (o : OpA) (s : State) : Host.Outcome State Fault Refusal :=
  vecSat s o false true 32

/-- vadd.i64: a + b on each sub-element (06 Table 06-1). -/
def execVaddI64 (o : OpA) (s : State) : Host.Outcome State Fault Refusal :=
  vecInt s o 64 addW

/-- vsub.i64: a − b on each sub-element (06 Table 06-1). -/
def execVsubI64 (o : OpA) (s : State) : Host.Outcome State Fault Refusal :=
  vecInt s o 64 subW

/-- vmul.i64: the low bits of a · b on each sub-element (06 Table 06-1). -/
def execVmulI64 (o : OpA) (s : State) : Host.Outcome State Fault Refusal :=
  vecInt s o 64 mulW

/-- vmulhi.i64: the high bits of the signed product on each sub-element (06 Table 06-1). -/
def execVmulhiI64 (o : OpA) (s : State) : Host.Outcome State Fault Refusal :=
  vecInt s o 64 mulhiS

/-- vmulhi.n64: the high bits of the unsigned product on each sub-element (06 Table 06-1). -/
def execVmulhiN64 (o : OpA) (s : State) : Host.Outcome State Fault Refusal :=
  vecInt s o 64 mulhiU

/-- vmin.i64: the signed minimum on each sub-element (06 Table 06-1). -/
def execVminI64 (o : OpA) (s : State) : Host.Outcome State Fault Refusal :=
  vecInt s o 64 minS

/-- vmin.n64: the unsigned minimum on each sub-element (06 Table 06-1). -/
def execVminN64 (o : OpA) (s : State) : Host.Outcome State Fault Refusal :=
  vecInt s o 64 minU

/-- vmax.i64: the signed maximum on each sub-element (06 Table 06-1). -/
def execVmaxI64 (o : OpA) (s : State) : Host.Outcome State Fault Refusal :=
  vecInt s o 64 maxS

/-- vmax.n64: the unsigned maximum on each sub-element (06 Table 06-1). -/
def execVmaxN64 (o : OpA) (s : State) : Host.Outcome State Fault Refusal :=
  vecInt s o 64 maxU

/-- vshl.i64: a shifted left on each sub-element (06 Table 06-1). -/
def execVshlI64 (o : OpA) (s : State) : Host.Outcome State Fault Refusal :=
  vecInt s o 64 shlW

/-- vshr.n64: a shifted right, zeros entering on each sub-element (06 Table 06-1). -/
def execVshrN64 (o : OpA) (s : State) : Host.Outcome State Fault Refusal :=
  vecInt s o 64 shrU

/-- vshr.i64: a shifted right, sign bits entering on each sub-element (06 Table 06-1). -/
def execVshrI64 (o : OpA) (s : State) : Host.Outcome State Fault Refusal :=
  vecInt s o 64 shrS

/-- vadd.i64.sat: the clamped sum, SAT where clamped (06 Table 06-1). -/
def execVaddI64Sat (o : OpA) (s : State) : Host.Outcome State Fault Refusal :=
  vecSat s o true false 64

/-- vadd.n64.sat: the clamped sum, SAT where clamped (06 Table 06-1). -/
def execVaddN64Sat (o : OpA) (s : State) : Host.Outcome State Fault Refusal :=
  vecSat s o false false 64

/-- vsub.i64.sat: the clamped difference, SAT where clamped (06 Table 06-1). -/
def execVsubI64Sat (o : OpA) (s : State) : Host.Outcome State Fault Refusal :=
  vecSat s o true true 64

/-- vsub.n64.sat: the clamped difference, SAT where clamped (06 Table 06-1). -/
def execVsubN64Sat (o : OpA) (s : State) : Host.Outcome State Fault Refusal :=
  vecSat s o false true 64

/-- vand: a and b on all 64 bits (06 Table 06-1). -/
def execVand (o : OpA) (s : State) : Host.Outcome State Fault Refusal :=
  vec2 s o fun a b => (a &&& b, 0)

/-- vor: a or b on all 64 bits (06 Table 06-1). -/
def execVor (o : OpA) (s : State) : Host.Outcome State Fault Refusal :=
  vec2 s o fun a b => (a ||| b, 0)

/-- vxor: a exclusive-or b on all 64 bits (06 Table 06-1). -/
def execVxor (o : OpA) (s : State) : Host.Outcome State Fault Refusal :=
  vec2 s o fun a b => (a ^^^ b, 0)

/-- vandn: a and not b on all 64 bits (06 Table 06-1). -/
def execVandn (o : OpA) (s : State) : Host.Outcome State Fault Refusal :=
  vec2 s o fun a b => (a &&& ~~~b, 0)

/-- vmov: d := a (06 Table 06-1). -/
def execVmov (o : OpDA) (s : State) : Host.Outcome State Fault Refusal :=
  issue s (okCode o.ca) 4 fun c =>
    vecEff c 4 o.d.toNat [(o.a.toNat, o.ca.toNat)] [] false fun t => (c.w.getV o.a.toNat t, 0)

/-- vsplat: d := the uniform register a, in every active thread (04 R99); its code acts once on that register (04 R91). -/
def execVsplat (o : OpDA) (s : State) : Host.Outcome State Fault Refusal :=
  issue s (okCode o.ca) 4 fun c =>
    let ts := threads c.mask
    let x := c.w.getS o.a.toNat
    guarded [illegalRegs c [o.d.toNat] [], poisonRegs c [] [o.a.toNat] []] <|
      .ok (retire c c.s ((useS [(o.a.toNat, o.ca.toNat)] c.w).setVs o.d.toNat ts fun _ => x) 4)

/-- sadd.i64: a + b (06 Table 06-1). -/
def execSaddI64 (o : OpA) (s : State) : Host.Outcome State Fault Refusal :=
  uni2 s o addW

/-- ssub.i64: a − b (06 Table 06-1). -/
def execSsubI64 (o : OpA) (s : State) : Host.Outcome State Fault Refusal :=
  uni2 s o subW

/-- smul.i64: the low bits of a · b (06 Table 06-1). -/
def execSmulI64 (o : OpA) (s : State) : Host.Outcome State Fault Refusal :=
  uni2 s o mulW

/-- smulhi.i64: the high bits of the signed product (06 Table 06-1). -/
def execSmulhiI64 (o : OpA) (s : State) : Host.Outcome State Fault Refusal :=
  uni2 s o mulhiS

/-- smulhi.n64: the high bits of the unsigned product (06 Table 06-1). -/
def execSmulhiN64 (o : OpA) (s : State) : Host.Outcome State Fault Refusal :=
  uni2 s o mulhiU

/-- smin.i64: the signed minimum (06 Table 06-1). -/
def execSminI64 (o : OpA) (s : State) : Host.Outcome State Fault Refusal :=
  uni2 s o minS

/-- smin.n64: the unsigned minimum (06 Table 06-1). -/
def execSminN64 (o : OpA) (s : State) : Host.Outcome State Fault Refusal :=
  uni2 s o minU

/-- smax.i64: the signed maximum (06 Table 06-1). -/
def execSmaxI64 (o : OpA) (s : State) : Host.Outcome State Fault Refusal :=
  uni2 s o maxS

/-- smax.n64: the unsigned maximum (06 Table 06-1). -/
def execSmaxN64 (o : OpA) (s : State) : Host.Outcome State Fault Refusal :=
  uni2 s o maxU

/-- sshl.i64: a shifted left by b mod 64 (06 Table 06-1). -/
def execSshlI64 (o : OpA) (s : State) : Host.Outcome State Fault Refusal :=
  uni2 s o shlW

/-- sshr.n64: a shifted right by b mod 64, zeros entering (06 Table 06-1). -/
def execSshrN64 (o : OpA) (s : State) : Host.Outcome State Fault Refusal :=
  uni2 s o shrU

/-- sshr.i64: a shifted right by b mod 64, sign bits entering (06 Table 06-1). -/
def execSshrI64 (o : OpA) (s : State) : Host.Outcome State Fault Refusal :=
  uni2 s o shrS

/-- sand: bitwise on all 64 bits (06 Table 06-1). -/
def execSand (o : OpA) (s : State) : Host.Outcome State Fault Refusal :=
  uni2 s o fun _ x y => x &&& y

/-- sor: bitwise on all 64 bits (06 Table 06-1). -/
def execSor (o : OpA) (s : State) : Host.Outcome State Fault Refusal :=
  uni2 s o fun _ x y => x ||| y

/-- sxor: bitwise on all 64 bits (06 Table 06-1). -/
def execSxor (o : OpA) (s : State) : Host.Outcome State Fault Refusal :=
  uni2 s o fun _ x y => x ^^^ y

/-- smov: d := a (06 Table 06-1). -/
def execSmov (o : OpDA) (s : State) : Host.Outcome State Fault Refusal :=
  issue s (okCode o.ca) 4 fun c =>
    uniEff c 4 o.d.toNat [(o.a.toNat, o.ca.toNat)] [] (c.w.getS o.a.toNat)

/-- nop: it retires (04 R98). -/
def execNop (s : State) : Host.Outcome State Fault Refusal :=
  issue s true 2 fun c => .ok (retire c c.s c.w 2)

/-- vmov, 16-bit: d := b (04 R98). -/
def execVmovC16 (o : Op16) (s : State) : Host.Outcome State Fault Refusal :=
  issue s true 2 fun c =>
    vecEff c 2 o.d.toNat [(o.b.toNat, 0)] [] false fun t => (c.w.getV o.b.toNat t, 0)

/-- vadd, 16-bit: a + b on each 32-bit element, with a = d (04 R98). -/
def execVaddI32x2C16 (o : Op16) (s : State) : Host.Outcome State Fault Refusal :=
  vecInt16 s o 32 addW

/-- vsub, 16-bit: a − b on each 32-bit element, with a = d (04 R98). -/
def execVsubI32x2C16 (o : Op16) (s : State) : Host.Outcome State Fault Refusal :=
  vecInt16 s o 32 subW

/-- vmul, 16-bit: the low bits of a · b on each 32-bit element, with a = d (04 R98). -/
def execVmulI32x2C16 (o : Op16) (s : State) : Host.Outcome State Fault Refusal :=
  vecInt16 s o 32 mulW

/-- vshl, 16-bit: a shifted left on each 32-bit element, with a = d (04 R98). -/
def execVshlI32x2C16 (o : Op16) (s : State) : Host.Outcome State Fault Refusal :=
  vecInt16 s o 32 shlW

/-- vshr, 16-bit: a shifted right, zeros entering on each 32-bit element, with a = d (04 R98). -/
def execVshrN32x2C16 (o : Op16) (s : State) : Host.Outcome State Fault Refusal :=
  vecInt16 s o 32 shrU

/-- vand, 16-bit: a and b with a = d (04 R98). -/
def execVandC16 (o : Op16) (s : State) : Host.Outcome State Fault Refusal :=
  vec16 s o fun a b => (a &&& b, 0)

/-- vor, 16-bit: a or b with a = d (04 R98). -/
def execVorC16 (o : Op16) (s : State) : Host.Outcome State Fault Refusal :=
  vec16 s o fun a b => (a ||| b, 0)

/-- vxor, 16-bit: a exclusive-or b with a = d (04 R98). -/
def execVxorC16 (o : Op16) (s : State) : Host.Outcome State Fault Refusal :=
  vec16 s o fun a b => (a ^^^ b, 0)

/-- vabs (06 Table 06-2). -/
def execVabs (o : OpUI) (s : State) : Host.Outcome State Fault Refusal :=
  vecUI s o absW

/-- vneg (06 Table 06-2). -/
def execVneg (o : OpUI) (s : State) : Host.Outcome State Fault Refusal :=
  vecUI s o negW

/-- vnot (06 Table 06-2). -/
def execVnot (o : OpUI) (s : State) : Host.Outcome State Fault Refusal :=
  vecUI s o notW

/-- vpopc (06 Table 06-2). -/
def execVpopc (o : OpUI) (s : State) : Host.Outcome State Fault Refusal :=
  vecUI s o popcW

/-- vclz (06 Table 06-2). -/
def execVclz (o : OpUI) (s : State) : Host.Outcome State Fault Refusal :=
  vecUI s o clzW

/-- vbrev (06 Table 06-2). -/
def execVbrev (o : OpUI) (s : State) : Host.Outcome State Fault Refusal :=
  vecUI s o brevW

/-- saddi: a + imm, sign-extended (06 R155). -/
def execSaddi (o : OpI) (s : State) : Host.Outcome State Fault Refusal :=
  issue s true 4 fun c =>
    uniEff c 4 o.d.toNat [] [o.a.toNat] (c.w.getS o.a.toNat + o.imm.signExtend 64)

/-- sandi: a and imm, zero-extended (06 R155). -/
def execSandi (o : OpI) (s : State) : Host.Outcome State Fault Refusal :=
  issue s true 4 fun c =>
    uniEff c 4 o.d.toNat [] [o.a.toNat] (c.w.getS o.a.toNat &&& o.imm.zeroExtend 64)

/-- vaddi.i32x2: imm added to each element with wrap (06 R155). -/
def execVaddiI32x2 (o : OpI) (s : State) : Host.Outcome State Fault Refusal :=
  issue s true 4 fun c =>
    vecEff c 4 o.d.toNat [] [o.a.toNat] false fun t =>
      (map1 32 (fun x => addW 32 x (o.imm.signExtend 32).toNat) (c.w.getV o.a.toNat t), 0)

/-- vaddi.i64: a + imm, sign-extended (06 R155). -/
def execVaddiI64 (o : OpI) (s : State) : Host.Outcome State Fault Refusal :=
  issue s true 4 fun c =>
    vecEff c 4 o.d.toNat [] [o.a.toNat] false fun t => (c.w.getV o.a.toNat t + o.imm.signExtend 64, 0)

/-- smovz: the immediate zero-extended (04 R105). -/
def execSmovz (o : OpL) (s : State) : Host.Outcome State Fault Refusal :=
  uniImm s o false fun _ i => i.zeroExtend 64

/-- smovs: the immediate sign-extended (04 R105). -/
def execSmovs (o : OpL) (s : State) : Host.Outcome State Fault Refusal :=
  uniImm s o false fun _ i => i.signExtend 64

/-- smovk16: bits [31:16] replaced, the others kept (04 R105, 06 R156). -/
def execSmovk16 (o : OpL) (s : State) : Host.Outcome State Fault Refusal :=
  uniImm s o true (keep16 16)

/-- smovk32: bits [47:32] replaced, the others kept (04 R105, 06 R156). -/
def execSmovk32 (o : OpL) (s : State) : Host.Outcome State Fault Refusal :=
  uniImm s o true (keep16 32)

/-- smovk48: bits [63:48] replaced, the others kept (04 R105, 06 R156). -/
def execSmovk48 (o : OpL) (s : State) : Host.Outcome State Fault Refusal :=
  uniImm s o true (keep16 48)

/-- vmovz: the immediate zero-extended (04 R105). -/
def execVmovz (o : OpL) (s : State) : Host.Outcome State Fault Refusal :=
  vecImm s o false fun _ i => i.zeroExtend 64

/-- vmovs: the immediate sign-extended (04 R105). -/
def execVmovs (o : OpL) (s : State) : Host.Outcome State Fault Refusal :=
  vecImm s o false fun _ i => i.signExtend 64

/-- vmovk16: bits [31:16] replaced, the others kept (04 R105, 06 R156). -/
def execVmovk16 (o : OpL) (s : State) : Host.Outcome State Fault Refusal :=
  vecImm s o true (keep16 16)

/-- vmovk32: bits [47:32] replaced, the others kept (04 R105, 06 R156). -/
def execVmovk32 (o : OpL) (s : State) : Host.Outcome State Fault Refusal :=
  vecImm s o true (keep16 32)

/-- vmovk48: bits [63:48] replaced, the others kept (04 R105, 06 R156). -/
def execVmovk48 (o : OpL) (s : State) : Host.Outcome State Fault Refusal :=
  vecImm s o true (keep16 48)

end Sys2Proof.Machine
end

