-- ==== Sys2Proof/Machine/SlotLane.lean ====
section
/-! DEFINITION. Major 9: the slot conversions, the codebook decode and the accumulator file (06 R173 to R179). -/

namespace Sys2Proof.Machine

/-- A read of the Lattice table by the wave: n bytes at an address, or the fault of a load there (05 R138, 11 R287). -/
def latticeRead (c : Issue) (va n thread : Nat) : Except Flt (List (BitVec 8) × List Xl) :=
  match translateSpan c.s c.cx c.tm.core c.w.sysMode .read va n with
  | .error f => .error ⟨f.code, thread, f.va⟩
  | .ok (locs, xs) =>
    match locs.find? fun l => markAt c.s l != .ok with
    | some l => .error ⟨if markAt c.s l = .lost then .lost else .poison, thread, va⟩
    | none => .ok (locs.map fun l => viewByte c.s c.w c.tm l, xs)

/-- SLOT, where the slot named is invalid, sparse, or of a kind the instruction cannot use (05 R143, 06 R173). -/
def slotFault (c : Issue) (n : Nat) (usable : Nat → Bool) : Option Flt :=
  let x := slotOfLaunch c.g.launch n
  faultIf c (!(slotValid x && slotSparse x == 0 && usable (slotElem x))) .slot n

/-- The four f32 inputs of vquant in a thread (06 R174). -/
def quantIn (c : Issue) (o : OpS) (t : Nat) : List Nat :=
  let a := c.w.getV o.a.toNat t
  let b := c.w.getV o.b.toNat t
  [elem 32 a 0, elem 32 a 1, elem 32 b 0, elem 32 b 1]

/-- The active threads of the block that thread t belongs to (06 R176). -/
def quantBlock (c : Issue) (L t : Nat) : List Nat :=
  (threads c.mask).filter fun u => u / (L / 4) == t / (L / 4)

/-- The scaled result of vquant in one thread (06 R176). -/
def quantScaled (c : Issue) (o : OpS) (x : Nat) (table : List Nat) (seed : Word) (t : Nat) : Word × Sticky :=
  let e := slotElem x
  let ftz := slotFtz x
  let ins := fun t => (quantIn c o t).map (readFtz f32 ftz)
  let block := quantBlock c (slotBlock x) t
  let all := block.flatMap ins
  let own := orAll ((ins t).map (·.2))
  match blockExp e (all.map (·.1)) with
  | none => (BitVec.ofNat 64 (255 * 2 ^ 56), own ||| fInvalid)
  | some k =>
    let sc := (k + 127).toNat * 2 ^ 56
    if e = 6 then
      let pair := t / 2 * 2
      let half := fun u => if c.mask.getLsbD u then (ins u).map fun v => scaleNum v.1 (-k) else List.replicate 4 (.fin false 0 0)
      (BitVec.ofNat 64 (latticeEncode table (half pair ++ half (pair + 1)) + sc), own)
    else
      let r := rndOf (slotRnd x)
      let rs := ((ins t).zip (List.range 4)).map fun p => blockElem e r ftz (draw seed t p.2) k p.1.1
      (BitVec.ofNat 64 (packN (elemBox e) (rs.map (·.1)) + sc), own ||| orAll (rs.map (·.2)))

/-- The unscaled result of vquant in one thread (06 R175). -/
def quantPlain (c : Issue) (o : OpS) (x : Nat) (seed : Word) (t : Nat) : Word × Sticky :=
  let e := slotElem x
  let rs := ((quantIn c o t).zip (List.range 4)).map fun p =>
    elemOf e (rndOf (slotRnd x)) (slotSat x) (slotFtz x) (draw seed t p.2) p.1
  (pack (elemBox e) (rs.map (·.1)), orAll (rs.map (·.2)))

/-- vquant: four f32 inputs of each thread to elements, with a block scale across threads where the slot has one
(06 R174 to R176). -/
def execVquant (o : OpS) (s : State) : Host.Outcome State Fault Refusal :=
  issue s (okCode o.ca) 4 fun c =>
    let n := o.slot.toNat
    let x := slotOfLaunch c.g.launch n
    let ts := threads c.mask
    let rs := [o.a.toNat, o.b.toNat]
    guarded [illegalRegs c (o.d.toNat :: rs) [], slotFault c n fun _ => true] <|
      match if slotElem x = 6 then latticeRead c (slotLattice x) 1024 c.low else .ok ([], []) with
      | .error f => .error f
      | .ok (bs, xs) =>
        let table := (List.range 256).map fun i => leNat ((bs.drop (4 * i)).take 4)
        guarded [poisonRegs c rs [] []] <|
          let seed := seedStep c.w.seed
          let f := if slotScale x = 1 then quantScaled c o x table seed else quantPlain c o x seed
          let w := useV ts [(o.a.toNat, o.ca.toNat)] (stepSeed (slotRnd x == 5) c.w)
          .ok (retire c (touchLeaves c.s c.tm.core false xs)
            ((w.setVs o.d.toNat ts fun t => (f t).1).raise (orAll (ts.map fun t => (f t).2))) 4)

/-- One value of vdequant: element i of a. A subnormal element that ftz reads as zero sets FLUSH under a scale of 0xFF too
(05 R130, 06 R177). Log entry 5 (DEDUCED). -/
def dequant1 (x : Nat) (a : Word) (i : Nat) : Nat × Sticky :=
  let e := slotElem x
  let v := elemVal e (slotFtz x) (elem (elemBox e) a i)
  let sc := elem 8 a 7
  if slotScale x = 1 ∧ sc = 255 then (f32.nanCode, v.2)
  else
    let w := if slotScale x = 1 then scaleNum v.1 ((sc : Int) - 127) else v.1
    let r := convertFp f32 w .rne false (slotFtz x) 0
    (r.1, v.2 ||| r.2)

/-- vdequant: elements 2h and 2h + 1 of a as f32 (06 R177). -/
def execVdequant (o : OpS) (s : State) : Host.Outcome State Fault Refusal :=
  issue s (okCode o.ca) 4 fun c =>
    let n := o.slot.toNat
    let x := slotOfLaunch c.g.launch n
    guarded [illegalRegs c [o.d.toNat, o.a.toNat, o.b.toNat] [], slotFault c n fun e => e != 6] <|
      vecEff c 4 o.d.toNat [(o.a.toNat, o.ca.toNat)] [o.b.toNat] false fun t =>
        let h := (c.w.getV o.b.toNat t).toNat % 2
        mapF 32 2 fun e => dequant1 x (c.w.getV o.a.toNat t) (2 * h + e)

/-- The Lattice entry that a thread's index names. -/
def entryRead (c : Issue) (o : OpS) (x t : Nat) : Except Flt (Nat × List Xl) :=
  match latticeRead c (slotLattice x + 4 * (elem 16 (c.w.getV o.a.toNat t) 0 % 256)) 4 t with
  | .error f => .error f
  | .ok (bs, xs) => .ok (leNat bs, xs)

/-- The Lattice entries of a list of threads, each thread with its entry. -/
def entryReads (c : Issue) (o : OpS) (x : Nat) : List Nat → Except Flt (List (Nat × Nat) × List Xl)
  | [] => .ok ([], [])
  | t :: ts =>
    match entryRead c o x t with
    | .error f => .error f
    | .ok (e, xs) => match entryReads c o x ts with
      | .error f => .error f
      | .ok (es, ys) => .ok ((t, e) :: es, xs ++ ys)

/-- vcbdec: weights 2q and 2q + 1 of a codebook index as f32, tiny ones flushed where the slot has ftz (05 R130, R138; 06 R177). -/
def execVcbdec (o : OpS) (s : State) : Host.Outcome State Fault Refusal :=
  issue s (okCode o.ca) 4 fun c =>
    let n := o.slot.toNat
    let x := slotOfLaunch c.g.launch n
    let rs := [o.a.toNat, o.b.toNat]
    guarded [illegalRegs c (o.d.toNat :: rs) [], slotFault c n fun e => e == 6] <|
      match entryReads c o x (threads c.mask) with
      | .error f => .error f
      | .ok (es, xs) =>
        vecEff { c with s := touchLeaves c.s c.tm.core false xs } 4 o.d.toNat [(o.a.toNat, o.ca.toNat)] [o.b.toNat] false fun t =>
          let a := c.w.getV o.a.toNat t
          let q := (c.w.getV o.b.toNat t).toNat % 4
          mapF 32 2 fun e =>
            convertFp f32 (latticeWeight (get 0 es t) (elem 16 a 0) (elem 8 a 7) (2 * q + e)) .rne false (slotFtz x) 0

/-! ## The accumulator file (06 R178, R179) -/

/-- Element j of width w of an accumulator. -/
def accElem (w : Nat) (x : BitVec 128) (j : Nat) : Nat := x.toNat / 2 ^ (w * j) % 2 ^ w

/-- An amad form: the new accumulator of a thread from the old one and the two sources, with its flags. -/
def accEff (s : State) (o : OpA) (f : BitVec 128 → Word → Word → BitVec 128 × Sticky) : Host.Outcome State Fault Refusal :=
  issue s (okCode o.ca && okCode o.cb && o.d.toNat < 16) 4 fun c =>
    let ts := threads c.mask
    let rs := [o.a.toNat, o.b.toNat]
    let g := fun t => f (c.w.getA o.d.toNat t) (c.w.getV o.a.toNat t) (c.w.getV o.b.toNat t)
    guarded [illegalRegs c rs [o.d.toNat], poisonRegs c rs [] [o.d.toNat]] <|
      .ok (retire c c.s (((useV ts [(o.a.toNat, o.ca.toNat), (o.b.toNat, o.cb.toNat)] c.w).setAs o.d.toNat ts
        fun t => (g t).1).raise (orAll (ts.map fun t => (g t).2))) 4)

/-- An accumulator from its elements of width w, with their flags. -/
def accPack (w n : Nat) (f : Nat → Nat × Sticky) : BitVec 128 × Sticky :=
  let rs := (List.range n).map f
  (BitVec.ofNat 128 (packN w (rs.map (·.1))), orAll (rs.map (·.2)))

/-- An integer amad on 4 × 32 bits (06 Table 06-9). -/
def amadInt (sgn : Bool) (acc : BitVec 128) (a b : Word) : BitVec 128 × Sticky :=
  accPack 32 4 fun j =>
    let p := fun k => typeVal sgn 8 (elem 8 a k) * typeVal sgn 8 (elem 8 b k)
    (wrapN 32 ((accElem 32 acc j : Int) + p (2 * j) + p (2 * j + 1)), 0)

/-- A floating-point amad: the exact acc + a · b rounded once to format G (06 Table 06-9). The flags are those of
convert_fp, and INVALID of a signalling input (05 R123; log entry 5). -/
def amadFp (F G : Fmt) (n : Nat) (acc : BitVec 128) (a b : Word) : BitVec 128 × Sticky :=
  accPack G.width n fun j =>
    let x := unpack F (elem F.width a j)
    let y := unpack F (elem F.width b j)
    let z := unpack G (accElem G.width acc j)
    let r := convertFp G (addNum .rne z (mulNum x y).1).1 .rne false false 0
    (r.1, r.2 ||| sigFlag [x, y, z])

/-- amad.f64: a compensated sum, its rounding error in element 1 (06 Table 06-9). Log entry 5 (DEDUCED). -/
def amadF64 (acc : BitVec 128) (a b : Word) : BitVec 128 × Sticky :=
  let p := unpack f64 a.toNat
  let q := unpack f64 b.toNat
  let z := unpack f64 (accElem 64 acc 0)
  let e := unpack f64 (accElem 64 acc 1)
  let x := (addNum .rne z (mulNum p q).1).1
  let r := convertFp f64 x .rne false false 0
  let sum := unpack f64 r.1
  match x, sum with
  | .fin _ _ _, .fin _ _ _ =>
    let t := convertFp f64 (addNum .rne e (addNum .rne x (negNum sum)).1).1 .rne false false 0
    (BitVec.ofNat 128 (packN 64 [r.1, t.1]), r.2 ||| t.2 ||| sigFlag [p, q, z, e])
  | _, _ => (BitVec.ofNat 128 (packN 64 [r.1, accElem 64 acc 1]), r.2 ||| sigFlag [p, q, z])

/-- amad.i8x8 (06 Table 06-9). -/
def execAmadI8x8 (o : OpA) (s : State) : Host.Outcome State Fault Refusal := accEff s o (amadInt true)

/-- amad.n8x8 (06 Table 06-9). -/
def execAmadN8x8 (o : OpA) (s : State) : Host.Outcome State Fault Refusal := accEff s o (amadInt false)

/-- amad.f16x4 (06 Table 06-9). -/
def execAmadF16x4 (o : OpA) (s : State) : Host.Outcome State Fault Refusal := accEff s o (amadFp f16 f32 4)

/-- amad.bf16x4 (06 Table 06-9). -/
def execAmadBf16x4 (o : OpA) (s : State) : Host.Outcome State Fault Refusal := accEff s o (amadFp bf16 f32 4)

/-- amad.f32x2 (06 Table 06-9). -/
def execAmadF32x2 (o : OpA) (s : State) : Host.Outcome State Fault Refusal := accEff s o (amadFp f32 f64 2)

/-- amad.f64 (06 Table 06-9). -/
def execAmadF64 (o : OpA) (s : State) : Host.Outcome State Fault Refusal := accEff s o amadF64

/-- azero: every bit of the accumulator 0 (06 R179). -/
def execAzero (o : OpD) (s : State) : Host.Outcome State Fault Refusal :=
  issue s (o.d.toNat < 16) 4 fun c =>
    guarded [illegalRegs c [] [o.d.toNat]] <|
      .ok (retire c c.s (c.w.setAs o.d.toNat (threads c.mask) fun _ => 0) 4)

/-- amov: the low half from a, the high half from b (06 R179). -/
def execAmov (o : OpA) (s : State) : Host.Outcome State Fault Refusal :=
  issue s (okCode o.ca && okCode o.cb && o.d.toNat < 16) 4 fun c =>
    let ts := threads c.mask
    let rs := [o.a.toNat, o.b.toNat]
    guarded [illegalRegs c rs [o.d.toNat], poisonRegs c rs [] []] <|
      .ok (retire c c.s ((useV ts [(o.a.toNat, o.ca.toNat), (o.b.toNat, o.cb.toNat)] c.w).setAs o.d.toNat ts
        fun t => c.w.getV o.b.toNat t ++ c.w.getV o.a.toNat t) 4)

/-- A narrowing move: a vector register from an accumulator (06 R179). -/
def narrow (s : State) (o : OpAD) (f : BitVec 128 → Word × Sticky) : Host.Outcome State Fault Refusal :=
  issue s (o.a.toNat < 16) 4 fun c =>
    let ts := threads c.mask
    let g := fun t => f (c.w.getA o.a.toNat t)
    guarded [illegalRegs c [o.d.toNat] [o.a.toNat], poisonRegs c [] [] [o.a.toNat]] <|
      .ok (retire c c.s ((c.w.setVs o.d.toNat ts fun t => (g t).1).raise (orAll (ts.map fun t => (g t).2))) 4)

/-- vnarrow.lo (06 R179). -/
def execVnarrowLo (o : OpAD) (s : State) : Host.Outcome State Fault Refusal := narrow s o fun x => (x.extractLsb' 0 64, 0)

/-- vnarrow.hi (06 R179). -/
def execVnarrowHi (o : OpAD) (s : State) : Host.Outcome State Fault Refusal := narrow s o fun x => (x.extractLsb' 64 64, 0)

/-- vnarrow.i16x4.sat: each i32 element clamped to i16 (06 R179). -/
def execVnarrowI16x4Sat (o : OpAD) (s : State) : Host.Outcome State Fault Refusal :=
  narrow s o fun x => mapF 16 4 fun j =>
    let r := clampI (-32768) 32767 (toSigned 32 (accElem 32 x j))
    (wrapN 16 r.1, r.2)

/-- vnarrow.f16x4: each f32 element rounded to f16 (06 R179). -/
def execVnarrowF16x4 (o : OpAD) (s : State) : Host.Outcome State Fault Refusal :=
  narrow s o fun x => mapF 16 4 fun j => convertFp f16 (unpack f32 (accElem 32 x j)) .rne false false 0

end Sys2Proof.Machine
end

