-- ==== Sys2Proof/Machine/Matrix.lean ====
section
/-! DEFINITION. The matrix engine: mma and its arbiter, tokens and banks, tread and twrite, and colload into the column store
(05 R145; 08 R201 to R229). -/

namespace Sys2Proof.Machine

/-! ## Tiles, tokens and the column store (08 R201 to R203, R218, R220) -/

/-- The cluster an operation works in. -/
def opCluster (s : State) (o : Op) : Nat := ((coreOf s o).map clusterOf).getD 0

/-- The physical bank of a tile that plays a role: the banks exchange roles at each tswap. -/
def Cluster.bank (k : Cluster) (tile : Nat) (working : Bool) : Nat := if get false k.swapped tile == working then 1 else 0

/-- The key of an element's first byte. -/
def tileKey (k : Cluster) (tile : Nat) (working : Bool) (row col : Nat) : Nat :=
  (2 * tile + k.bank tile working) * 65536 + 4 * (128 * row + col)

/-- An element of a tile. -/
def Cluster.elem (k : Cluster) (tile : Nat) (working : Bool) (row col : Nat) : Nat :=
  leNat ((List.range 4).map fun i => get 0#8 k.tiles (tileKey k tile working row col + i))

/-- An element of a tile written. -/
def Cluster.setElem (k : Cluster) (tile : Nat) (working : Bool) (row col x : Nat) : Cluster :=
  { k with tiles := ((leBytes 4 x).zip (List.range 4)).foldl (fun m b => put 0#8 m (tileKey k tile working row col + b.2) b.1) k.tiles }

/-- Every element of a tile's working bank 0. -/
def Cluster.zeroTile (k : Cluster) (tile : Nat) : Cluster :=
  { k with tiles := k.tiles.filter fun b => b.1 / 65536 != 2 * tile + k.bank tile true }

/-- A byte of the column store. -/
def Cluster.colByte (k : Cluster) (slice o : Nat) : BitVec 8 := get 0#8 k.cols (49152 * slice + o)

/-- Bytes of the column store written, each with whether it is bad. -/
def Cluster.setCols (k : Cluster) (slice o : Nat) (l : List (BitVec 8 × Bool)) : Cluster :=
  (l.zip (List.range l.length)).foldl (fun k b =>
    let i := 49152 * slice + o + b.2
    { k with cols := put 0#8 k.cols i b.1.1, colBad := put false k.colBad i b.1.2 }) k

/-- The tile an operation names, and whether it acts on the working and on the visible bank. -/
def Op.tile? (o : Op) : Option (Nat × Bool × Bool) :=
  match o.kind with
  | .mma p _ _ _ _ _ _ => some (field p 0 1 % 8, true, false)
  | .tile minor t => some (t, true, minor == 3)
  | .tileRows _ t _ rows _ _ _ => some (t, bitsN rows 16 1 == 1, bitsN rows 16 1 == 0)
  | _ => none

/-- Whether two operations on a tile keep their order (08 R218). -/
def tileOrdered (a b : Op) : Bool :=
  match a.tile?, b.tile? with
  | some x, some y => x.1 == y.1 && ((x.2.1 && y.2.1) || (x.2.2 && y.2.2))
  | _, _ => false

/-- Whether an operation is a tkrel, and the other a tread or twrite of its wave on the same tile (08 Table 08-6). -/
def relWaits (o e : Op) : Bool :=
  match o.kind, e.kind with
  | .tile 2 t, .tileRows _ u _ _ _ _ _ => t == u && e.wave == o.wave
  | _, _ => false

/-- Whether acceptance order lets an operation take effect on its tile (08 R218). -/
def tileTurn (s : State) (o : Op) : Bool :=
  !(s.ops.any fun e => decide (e.id < o.id) && opCluster s e == opCluster s o && (tileOrdered e o || relWaits o e))

/-- The holder of a token: none is the engine. -/
def Cluster.holder (k : Cluster) (tile : Nat) : Option Nat := (k.tokens.find? fun t => t.1 == tile).map (·.2)

/-- The holder of a token once every instruction on the tile accepted so far has taken effect (08 R220). -/
def holderAt (s : State) (cluster tile : Nat) : Option Nat :=
  (s.ops.filter fun e => opCluster s e == cluster).foldl (fun h e =>
    match e.kind with
    | .tile 1 t => if t = tile then some e.wave else h
    | .tile 2 t => if t = tile then none else h
    | _ => h) ((s.cluster cluster).holder tile)

/-- TOKEN, unless the tile's token is where the instruction needs it: with the engine, with the wave, or either. Log entry 45 (DEDUCED). -/
def tokenFault (c : Issue) (tile : Nat) (engine own : Bool) : Option Flt :=
  match holderAt c.s (clusterOf c.tm.core) tile with
  | none => faultIf c (!engine) .token tile
  | some w => faultIf c (!(own && w == c.w.id)) .token tile

/-- STATUS of a matrix operation or engine copy (08 Table 08-4). -/
def mxStatus (code fld count : Nat) (exc : Sticky) : Nat := code + fld * 2 ^ 8 + count * 2 ^ 16 + exc.toNat * 2 ^ 32

/-- The first failing check of a list in ascending offset order: its offset and code (08 R210). -/
def firstCode : List (Nat × Nat × Bool) → Option (Nat × Nat)
  | [] => none
  | (o, code, ok) :: l => if ok then firstCode l else some (o, code)

/-! ## Format pairs and operands (08 R204 to R207; 05 R125, R132, R138, R140) -/

/-- A permitted pair: whether it is an integer pair, its K-group, and K per pass dense and sparse (08 Table 08-2). -/
def mxPair (ea eb : Nat) : Option (Bool × Nat × Nat × Nat) :=
  if 1 ≤ ea ∧ ea ≤ 4 ∧ 1 ≤ eb ∧ eb ≤ 4 then some (false, 16, 64, 128)
  else if ea = 5 ∧ (eb = 5 ∨ eb = 6) then some (false, 32, 128, 256)
  else if (ea = 7 ∨ ea = 8) ∧ (eb = 7 ∨ eb = 8) then some (true, 16, 64, 128)
  else if ea = eb ∧ (ea = 9 ∨ ea = 10) then some (false, 8, 32, 64)
  else none

/-- Bytes of n elements of a format, densely packed. -/
def packedBytes (e n : Nat) : Nat := (n * elemBits e + 7) / 8

/-- Bytes of a column's elements or stored values in the column store (08 R207, R226). -/
def columnBytes (x k : Nat) : Nat := if slotSparse x = 0 then packedBytes (slotElem x) k else packedBytes (slotElem x) (k / 8 * slotSparse x)

/-- Whether the blocks of a scaled sparse operand start at multiples of 4 bytes (05 R134); those of a dense one do. -/
def blocksAligned (x k : Nat) : Bool :=
  slotScale x == 0 || slotSparse x == 0 || decide (k ≤ slotBlock x) ||
    slotBlock x / 8 * slotSparse x * elemBits (slotElem x) % 32 == 0

/-- Element k of a densely packed array of w-bit elements from `base` (05 R125). -/
def elemAt (byte : Nat → BitVec 8) (w base k : Nat) : Nat :=
  let o := base + w * k / 8
  ((byte o).toNat + 256 * (byte (o + 1)).toNat) / 2 ^ (w * k % 8) % 2 ^ w

/-- An element's value times its block's scale; a scale of 0xFF makes a NaN (05 R132), a quiet one whatever the element. Log entry 89
(DEDUCED). -/
def scaled (x : Nat) (v : Num) (scale : Nat) : Num :=
  if slotScale x = 0 then v else if scale = 255 then .nan false else scaleNum v ((scale : Int) - 127)

/-- A byte of a team's scratchpad as its engine streams it: its own, or the global byte it is mapped onto, with whether it is bad
(08 R206, 09 R242). Log entry 38 (DEDUCED). -/
def streamByte (s : State) (c : Issue) (o : Nat) : BitVec 8 × Bool :=
  match c.tm.stashAt o with
  | none => (c.tm.spByte o, c.tm.spPoisoned o 1)
  | some va => match translate s c.cx c.tm.core c.w.sysMode .read va with
    | .ok x => placeSeen s c.tm (.mem x.loc)
    | .error _ => (c.tm.spByte o, c.tm.spPoisoned o 1)

/-- A[i][k] times its scale, and its flags (08 R206). -/
def mmaA (p : List (BitVec 8)) (x : Nat) (byte : Nat → BitVec 8) (i k : Nat) : Num × Sticky :=
  let e := slotElem x
  let v := elemVal e (slotFtz x) (elemAt byte (elemBits e) (field p 0x10 4 + i * field p 0x14 4) k)
  (scaled x v.1 (byte (field p 0x18 4 + i * field p 0x1C 4 + k / slotBlock x)).toNat, v.2)

/-- The position of element k among the stored values of a sparse column, none where it is absent; and whether its metadata
names another number than N (05 R140). -/
def sparsePos (n k metaByte : Nat) : Option Nat × Bool :=
  let below := (List.range (k % 8)).countP fun i => metaByte.testBit i
  let all := (List.range 8).countP fun i => metaByte.testBit i
  (if metaByte.testBit (k % 8) ∧ below < n then some (k / 8 * n + below) else none, all != n)

/-- B[k][j] times its scale, none where a sparse position is absent; and its flags (08 R207). -/
def mmaB (p : List (BitVec 8)) (x : Nat) (table : Nat → BitVec 8) (col : Nat → BitVec 8) (k : Nat) : Option Num × Sticky :=
  let e := slotElem x
  let off := field p 0x20 4
  let sc := (col (field p 0x24 4 + k / slotBlock x)).toNat
  if e = 6 then
    let i := leNat [col (off + 2 * (k / 8)), col (off + 2 * (k / 8) + 1)]
    let entry := leNat ((List.range 4).map fun b => table (4 * (i % 256) + b))
    (some (latticeWeight entry i sc (k % 8)), 0)
  else
    let pos := if slotSparse x = 0 then (some k, false)
      else sparsePos (slotSparse x) k (col (field p 0x28 4 + k / 8)).toNat
    match pos.1 with
    | none => (none, flagIf pos.2 fMeta)
    | some q =>
      let v := elemVal e (slotFtz x) (elemAt col (elemBits e) off q)
      (some (scaled x v.1 sc), v.2 ||| flagIf pos.2 fMeta)

/-- The product of two elements with the flags of reading them: an absent element contributes an exact zero, whatever the element of A
(05 R145). A product of zero and infinity raises INVALID. Log entry 89 (DEDUCED). -/
def mmaProduct (a : Num × Sticky) (b : Option Num × Sticky) : Num × Sticky :=
  match b.1 with
  | none => (.fin false 0 0, a.2 ||| b.2)
  | some y =>
    let r := mulNum a.1 y
    (r.1, a.2 ||| b.2 ||| sigFlag [a.1, y] ||| r.2)

/-- The exact sum of a group's products (05 R145); a sum of zeros has the sign that 06 R159 gives, and one of opposite infinities raises
INVALID. Log entry 89 (DEDUCED). -/
def groupSum : List (Num × Sticky) → Num × Sticky
  | [] => (.fin false 0 0, 0)
  | v :: vs => vs.foldl (fun s v =>
      let r := addNum .rne s.1 v.1
      (r.1, s.2 ||| v.2 ||| r.2)) v

/-- The signed value of an exact integer. -/
def numInt : Num → Int
  | .fin neg n _ => if neg then -n else n
  | _ => 0

/-- One element of C after a list of groups (05 R145). -/
def mmaSum (int ftz : Bool) (ab : Nat → Num × Sticky) (size : Nat) : List Nat → Nat × Sticky → Nat × Sticky
  | [], x => x
  | g :: gs, x =>
    let ps := (List.range size).map fun i => ab (g * size + i)
    if int then mmaSum int ftz ab size gs (wrapN 32 (x.1 + (ps.map fun v => numInt v.1).sum), x.2 ||| orAll (ps.map (·.2)))
    else
      let s := groupSum ps
      let c := readFtz f32 ftz x.1
      let z := addNum .rne c.1 s.1
      let r := convertFp f32 z.1 .rne false ftz 0
      mmaSum int ftz ab size gs (r.1, x.2 ||| s.2 ||| c.2 ||| sigFlag [c.1] ||| z.2 ||| r.2)

/-! ## The parameter block (08 R208 to R210) -/

/-- K of a parameter block. -/
def mmaK (p : List (BitVec 8)) : Nat := field p 8 4

/-- The slot of B. -/
def mmaBSlot (l : Launch) (p : List (BitVec 8)) : Nat := slotOfLaunch l (field p 1 1 % 8)

/-- The checks of a parameter block, in ascending offset order, each with its code (08 R210, Table 08-3). Log entry 46 (DEDUCED). -/
def mmaChecks (l : Launch) (p : List (BitVec 8)) (aslot : Nat) : List (Nat × Nat × Bool) :=
  let xa := slotOfLaunch l aslot
  let xb := mmaBSlot l p
  let pair := mxPair (slotElem xa) (slotElem xb)
  let f := field p
  let k := mmaK p
  let m := f 4 1
  let n := f 5 1
  let row := packedBytes (slotElem xa) k
  let sa := slotScale xa == 1
  let sb := slotScale xb == 1
  let step := fun b => b == 0 || k % b == 0
  [(0x00, 2, decide (f 0 1 < 8)), (0x01, 2, decide (f 1 1 < 8)), (0x01, 3, pair.isSome), (0x02, 2, decide (f 2 1 < 4)),
    (0x03, 2, decide (f 3 1 < 2)), (0x04, 2, decide (1 ≤ m) && decide (m ≤ 128)), (0x05, 2, decide (1 ≤ n) && decide (n ≤ 128)),
    (0x06, 2, decide (f 6 1 < 128)), (0x06, 7, decide (f 6 1 + m ≤ 128)), (0x07, 2, decide (f 7 1 < 128)),
    (0x07, 7, decide (f 7 1 + n ≤ 128)), (0x08, 2, decide (1 ≤ k) && decide (k ≤ 16384)),
    (0x08, 6, step ((pair.map fun q => q.2.1).getD 0) && step (slotBlock xa) && step (slotBlock xb)), (0x0C, 2, fieldZero p 0x0C 4),
    (0x14, 2, decide (row ≤ f 0x14 4)), (0x14, 4, decide (f 0x10 4 + (m - 1) * f 0x14 4 + row ≤ l.spBytes)),
    (0x18, 2, sa || fieldZero p 0x18 4), (0x1C, 2, if sa then decide (k / slotBlock xa ≤ f 0x1C 4) else fieldZero p 0x1C 4),
    (0x1C, 4, !sa || decide (f 0x18 4 + (m - 1) * f 0x1C 4 + k / slotBlock xa ≤ l.spBytes)),
    (0x20, 5, decide (f 0x20 4 + columnBytes xb k ≤ 49152)), (0x24, 2, sb || fieldZero p 0x24 4),
    (0x24, 5, !sb || decide (f 0x24 4 + k / slotBlock xb ≤ 49152)), (0x28, 2, slotSparse xb != 0 || fieldZero p 0x28 4),
    (0x28, 5, slotSparse xb == 0 || decide (f 0x28 4 + k / 8 ≤ 49152)), (0x2C, 2, fieldZero p 0x2C 12)]

/-- The ranges of A: rows, and scales. -/
def mmaRanges (l : Launch) (p : List (BitVec 8)) (aslot : Nat) : List (Nat × Nat) :=
  let xa := slotOfLaunch l aslot
  let k := mmaK p
  (List.range (field p 4 1)).flatMap fun i =>
    (field p 0x10 4 + i * field p 0x14 4, packedBytes (slotElem xa) k) ::
      (if slotScale xa = 1 then [(field p 0x18 4 + i * field p 0x1C 4, k / slotBlock xa)] else [])

/-- The ranges of B in each of its slices. -/
def mmaCols (l : Launch) (p : List (BitVec 8)) : List (Nat × Nat) :=
  let xb := mmaBSlot l p
  let k := mmaK p
  (field p 0x20 4, columnBytes xb k) ::
    ((if slotScale xb = 1 then [(field p 0x24 4, k / slotBlock xb)] else []) ++
     (if slotSparse xb = 0 then [] else [(field p 0x28 4, k / 8)]))

/-- K per engine pass of an operation (08 R204). -/
def mmaStep (l : Launch) (p : List (BitVec 8)) (aslot : Nat) : Nat :=
  let xb := mmaBSlot l p
  match mxPair (slotElem (slotOfLaunch l aslot)) (slotElem xb) with
  | some (_, _, dense, sparse) => if slotSparse xb = 0 then dense else sparse
  | none => 1

/-- The engine passes of an operation. -/
def mmaPasses (l : Launch) (p : List (BitVec 8)) (aslot : Nat) : Nat :=
  (mmaK p + mmaStep l p aslot - 1) / mmaStep l p aslot

/-! ## mma (08 R211 to R216) -/

/-- SLOT, where a slot is invalid or not of a kind (05 R143, 08 R205, R223, R231). -/
def slotIs (c : Issue) (n : Nat) (usable : Nat → Bool) : Option Flt :=
  let x := slotOfLaunch c.g.launch n
  faultIf c (!(slotValid x && usable x)) .slot n

/-- The fault of the pages of a slot's Lattice table, where it is a codebook slot (05 R138). -/
def latticePages (c : Issue) (x : Nat) : Option Flt :=
  if slotElem x = 6 then
    match translateSpan c.s c.cx c.tm.core c.w.sysMode .read (slotLattice x) 1024 with
    | .error f => some ⟨f.code, c.low, f.va⟩
    | .ok _ => none
  else none

/-- The Lattice table of a slot, where it is a codebook slot: its location, and the translation used; or the fault of reading
it (05 R138). -/
def latticeAt (c : Issue) (x : Nat) : Except Flt (Option Nat × List Xl) :=
  if slotElem x = 6 then
    match latticeRead c (slotLattice x) 1024 c.low with
    | .error f => .error f
    | .ok (_, xs) => .ok (xs.head?.map (·.loc), xs)
  else .ok (none, [])

/-- The lowest page among the stash mappings that A and its scales stand on that faults (09 R243). -/
def streamPages (c : Issue) (p : List (BitVec 8)) (a : Nat) : Option Flt :=
  if c.tm.stash = [] ∨ (firstCode (mmaChecks c.g.launch p a)).isSome then none
  else ((mmaRanges c.g.launch p a).filter fun r => c.tm.stashed r.1 r.2).foldl (fun f r =>
    match resolve c .own .read r.1 r.2 with
    | .error g => lowerPage f (some ⟨g.code, c.low, g.va⟩)
    | .ok _ => f) none

/-- The pages of A that a matrix operation has used at issue. -/
def streamXs (c : Issue) (p : List (BitVec 8)) (a : Nat) : List Xl :=
  if c.tm.stash = [] ∨ (firstCode (mmaChecks c.g.launch p a)).isSome then []
  else ((mmaRanges c.g.launch p a).filter fun r => c.tm.stashed r.1 r.2).flatMap fun r =>
    match resolve c .own .read r.1 r.2 with
    | .error _ => []
    | .ok f => f.xs

/-- The ranges of its team's scratchpad that a matrix operation reads; none where its parameter block breaks a rule. -/
def mmaReads (c : Issue) (p : List (BitVec 8)) (a : Nat) : List Rng :=
  if (firstCode (mmaChecks c.g.launch p a)).isNone then (mmaRanges c.g.launch p a).flatMap fun r => sideRng c true false r.1 r.2 else []

/-- mma: the parameter block read, and the operation accepted into the reservation table; its faults in the order of R212
(08 R211 to R214). Log entry 45 (DEDUCED). -/
def execMma (o : OpFG2) (s : State) : Host.Outcome State Fault Refusal :=
  issueAs s true 4 3 fun c =>
    let off := (c.w.getS o.f2.toNat).toNat
    let a := o.g.toNat
    let whole := (peek c off 0 64).getD []
    let quad := fun o' => peekField c off o' 4 fun x => faultIf c (x % 4 != 0) .align x
    guarded [noFlag c o.fsel] <| flagRoom c o.fsel <| once c [] [o.f2.toNat] <|
    guarded [slotIs c a fun x => slotSparse x == 0 && slotElem x != 6,
      peekField c off 1 1 fun b => slotIs c (b % 8) fun _ => true, peekField c off 0 1 fun t => tokenFault c (t % 8) true false,
      faultIf c (off % 64 != 0) .align off, quad 0x10, quad 0x14, quad 0x20,
      faultIf c (whole != [] && !(blocksAligned (mmaBSlot c.g.launch whole) (mmaK whole))) .align (field whole 0x20 4)] <|
    withSpAnd c (if whole = [] then none else lowerPage (streamPages c whole a) (latticePages c (mmaBSlot c.g.launch whole)))
        off 64 off 64 (some (off + 0x38)) (poisonRegs c [] [o.f2.toNat] []) fun c p =>
      match latticeAt c (mmaBSlot c.g.launch p) with
      | .error f => .error f
      | .ok (lat, xs) =>
        let f := c.flag o.fsel
        let op := { c.newOp f (.mma p off a lat false 0 0) [] with
          reads := mmaReads c p a, writes := sideRng c true true (off + 0x38) 8 }
        let mine := c.s.ops.filter fun e => coreOf c.s e == some c.tm.core && (match e.kind with
          | .mma _ _ _ _ _ _ _ => true
          | _ => false)
        if scoreFull c op || decide (4 ≤ mine.length) then .ok c.stall
        else .ok (retireOnce c (startOp (touchLeaves c.s c.tm.core false (streamXs c p a ++ xs)) op) (fun w => w.flagUp (some f)) 4)

/-- An operation's flag counted down. -/
def Op.down (o : Op) (s : State) : State := s.updPair o.wave fun w => w.flagDown o.flag

/-- An operation's kind changed. -/
def State.setKind (s : State) (id : Nat) (k : OpKind) : State :=
  { s with ops := s.ops.map fun e => if e.id = id then { e with kind := k } else e }

/-- MMA_ACCEPT: the fields of an accepted mma are checked; one that fails ends with its code (08 R210, R215). -/
def execMmaAccept (op : Nat) (s : State) : Host.Outcome State Fault Refusal :=
  match s.op? op with
  | some o =>
    match opIssue s o, o.kind with
    | some c, .mma p off a lat false _ _ =>
      match firstCode (mmaChecks c.g.launch p a) with
      | some (fld, code) => .next (o.down (writeStatus (s.dropOp op) c.tm (off + 0x38) (mxStatus code fld 0 0)))
      | none => .next (s.setKind op (.mma p off a lat true 0 0))
    | _, _ => .next s
  | none => .next s

/-! ## The arbiter (08 R219) -/

/-- The slices and the ranges in each of them that a column-store load writes. -/
def colWrites (l : Launch) (d : List (BitVec 8)) : Nat × Nat × List (Nat × Nat) :=
  let x := slotOfLaunch l (field d 0x0C 1 % 8)
  let k := field d 0x10 4
  let parts := field d 0x0F 1
  (field d 0x0D 1, field d 0x0E 1,
    (if parts.testBit 0 then [(field d 0x14 4, columnBytes x k)] else []) ++
    (if parts.testBit 1 then [(field d 0x24 4, k / slotBlock x)] else []) ++
    (if parts.testBit 2 then [(field d 0x34 4, k / 8)] else []))

/-- What an operation touches of the column store: first slice, number of slices, ranges in each. -/
def colUse (s : State) (o : Op) : Nat × Nat × List (Nat × Nat) :=
  match opIssue s o, o.kind with
  | some c, .mma p _ _ _ _ _ _ => (field p 7 1, field p 5 1, mmaCols c.g.launch p)
  | some c, .colload d _ => colWrites c.g.launch d
  | _, _ => (0, 0, [])

/-- Whether two operations of one cluster meet in the column store, one of them writing (08 R229). -/
def colMeets (s : State) (a b : Op) : Bool :=
  let x := colUse s a
  let y := colUse s b
  decide (x.1 < y.1 + y.2.1) && decide (y.1 < x.1 + x.2.1) &&
    x.2.2.any fun p => y.2.2.any fun q => decide (p.1 < q.1 + q.2) && decide (q.1 < p.1 + p.2)

/-- A column-store load. -/
def Op.isColload (o : Op) : Bool :=
  match o.kind with
  | .colload _ _ => true
  | _ => false

/-- Whether an earlier operation of the cluster holds back the column-store accesses of an operation: an earlier load those of
any, and an earlier mma those of a load. -/
def colWaits (s : State) (o : Op) : Bool :=
  s.ops.any fun e => decide (e.id < o.id) && opCluster s e == opCluster s o && (e.isColload || o.isColload) && colMeets s e o

/-- The entries of a cluster that may be granted a pass, oldest first: R219 names two conditions that are needed, and an entry that
still waits for what comes before it in engine order is not eligible either (09 R262, 10 R280). Every condition waits for earlier
operations only. Log entry 46 (DEDUCED). -/
def eligible (s : State) (cluster : Nat) : List Op :=
  s.ops.filter fun o =>
    (match o.kind with
      | .mma _ _ _ _ acc _ _ => acc
      | _ => false) && opCluster s o == cluster && tileTurn s o && !(colWaits s o) && canEngine s o

/-- The class and the skip count of an entry. -/
def Op.classSkip (o : Op) : Nat × Nat :=
  match o.kind with
  | .mma p _ _ _ _ skip _ => (field p 2 1 % 4, skip)
  | _ => (0, 0)

/-- The entry that receives a grant. -/
def grantee (l : List Op) : Option Op :=
  match l.find? fun o => decide (6 ≤ o.classSkip.2) with
  | some o => some o
  | none =>
    let top := l.foldl (fun m o => max m o.classSkip.1) 0
    l.find? fun o => o.classSkip.1 == top

/-- The entries that a grant passes over: the oldest eligible one of each class that does not receive it. -/
def passedOver (l : List Op) (w : Op) : List Nat :=
  ((List.range 4).filterMap fun k => l.find? fun o => o.classSkip.1 == k).filterMap fun o => if o.id = w.id then none else some o.id

/-- An operation whose skip count or passes change at a grant. -/
def Op.granted (o : Op) (w : Nat) (others : List Nat) : Op :=
  match o.kind with
  | .mma p off a lat acc skip passes =>
    if o.id = w then { o with kind := .mma p off a lat acc 0 (passes + 1) }
    else if others.contains o.id then { o with kind := .mma p off a lat acc (skip + 1) passes }
    else o
  | _ => o

/-- Whether the engine reads uncorrectable data: in A, in B, or in a Lattice table (08 R217). Log entry 46 (DEDUCED). -/
def mmaBad (s : State) (c : Issue) (k : Cluster) (p : List (BitVec 8)) (a : Nat) (lat : Option Nat) : Bool :=
  (mmaRanges c.g.launch p a).any (fun r => (List.range r.2).any fun i => (streamByte s c (r.1 + i)).2) ||
  (List.range (field p 5 1)).any (fun j => (mmaCols c.g.launch p).any fun r =>
    k.colBad.any fun b => decide (49152 * (field p 7 1 + j) + r.1 ≤ b.1) && decide (b.1 < 49152 * (field p 7 1 + j) + r.1 + r.2)) ||
  (match lat with
    | some loc => (List.range 1024).any fun i => engineBad s c.tm.core (loc + i)
    | none => false)

/-- The window of an operation computed: each element's row, column, value and flags (08 R215). -/
def mmaWindow (s : State) (c : Issue) (k : Cluster) (p : List (BitVec 8)) (a : Nat) (lat : Option Nat) :
    List (Nat × Nat × Nat × Sticky) :=
  let xa := slotOfLaunch c.g.launch a
  let xb := mmaBSlot c.g.launch p
  let tile := field p 0 1 % 8
  let table := fun i => match lat with
    | some loc => engineByte s c.tm.core (loc + i)
    | none => 0
  match mxPair (slotElem xa) (slotElem xb) with
  | none => []
  | some (int, size, _, _) =>
    (List.range (field p 4 1)).flatMap fun i => (List.range (field p 5 1)).map fun j =>
      let row := field p 6 1 + i
      let col := field p 7 1 + j
      let ab := fun q => mmaProduct (mmaA p xa (fun o => (streamByte s c o).1) i q) (mmaB p xb table (k.colByte col) q)
      let x := if field p 3 1 = 1 then 0 else k.elem tile true row col
      let r := mmaSum int (slotFtz xa) ab size (List.range (mmaK p / size)) (x, 0)
      (row, col, r.1, r.2)

/-- The value that a window holds after uncorrectable data (08 R217). Log entry 47 (DEDUCED). -/
def mmaPoison (l : Launch) (p : List (BitVec 8)) (a : Nat) : Nat :=
  match mxPair (slotElem (slotOfLaunch l a)) (slotElem (mmaBSlot l p)) with
  | some (true, _) => 0x80000000
  | _ => 0x7FC00000

/-- An operation performed with its last pass: the window, STATUS, and the flag (08 R215, R217). Log entry 46 (DEDUCED). -/
def performMma (s : State) (c : Issue) (o : Op) (p : List (BitVec 8)) (off a : Nat) (lat : Option Nat) : State :=
  let k := s.cluster (opCluster s o)
  let tile := field p 0 1 % 8
  let passes := mmaPasses c.g.launch p a
  let bad := mmaBad s c k p a lat
  let win := if bad then (List.range (field p 4 1)).flatMap fun i => (List.range (field p 5 1)).map fun j =>
      (field p 6 1 + i, field p 7 1 + j, mmaPoison c.g.launch p a, (0 : Sticky))
    else mmaWindow s c k p a lat
  let k' := win.foldl (fun k e => k.setElem tile true e.1 e.2.1 e.2.2.1) k
  let s := (s.dropOp o.id).setCluster k'
  let s := writeStatus s c.tm (off + 0x38) (mxStatus (if bad then 9 else 1) 0 passes (orAll (win.map (·.2.2.2))))
  o.down (if bad then consume c s 0 else s)

/-- MMA_GRANT: one engine pass to one eligible entry; an operation's last pass performs it whole (08 R215, R219). -/
def execMmaGrant (cluster : Nat) (s : State) : Host.Outcome State Fault Refusal :=
  let l := eligible s cluster
  match grantee l with
  | none => .next s
  | some w =>
    match opIssue s w, w.kind with
    | some c, .mma p off a lat _ _ passes =>
      let s' : State := { s with ops := s.ops.map fun e => e.granted w.id (passedOver l w) }
      if passes + 1 < mmaPasses c.g.launch p a then .next s'
      else
        let s' := beforeEngine s' w
        .next (performMma s' { c with s := s' } w p off a lat)
    | _, _ => .next s

/-! ## Tokens and banks (08 R220, R221) -/

/-- A token or bank instruction accepted. -/
def tileEff (s : State) (o : OpTile) (minor : Nat) (engine own : Bool) : Host.Outcome State Fault Refusal :=
  issueAs s true 4 3 fun c =>
    guarded [noFlag c o.fsel] <| flagRoom c o.fsel <| once c [] [] <|
    guarded [tokenFault c o.c.toNat engine own] <|
      let f := c.flag o.fsel
      .ok (retireOnce c (c.s.addOp (c.newOp f (.tile minor o.c.toNat) [])) (fun w => w.flagUp (some f)) 4)

/-- tkacq: the tile's token to the issuing wave (08 Table 08-6). -/
def execTkacq (o : OpTile) (s : State) : Host.Outcome State Fault Refusal := tileEff s o 1 true false

/-- tkrel: the tile's token back to the engine (08 Table 08-6). -/
def execTkrel (o : OpTile) (s : State) : Host.Outcome State Fault Refusal := tileEff s o 2 false true

/-- tswap: the banks of the tile exchange roles (08 Table 08-6). -/
def execTswap (o : OpTile) (s : State) : Host.Outcome State Fault Refusal := tileEff s o 3 true true

/-- tzero: the working bank of the tile zero (08 Table 08-6). -/
def execTzero (o : OpTile) (s : State) : Host.Outcome State Fault Refusal := tileEff s o 4 true true

/-- The effect of a token or bank instruction on its cluster (08 Table 08-6). -/
def Cluster.tileStep (k : Cluster) (minor tile wave : Nat) : Cluster :=
  match minor with
  | 1 => { k with tokens := (tile, wave) :: k.tokens.filter fun t => t.1 != tile }
  | 2 => { k with tokens := k.tokens.filter fun t => t.1 != tile }
  | 3 => { k with swapped := put false k.swapped tile (!(get false k.swapped tile)) }
  | _ => k.zeroTile tile

/-- TILE_INSTR_EFFECT: a token or bank instruction takes effect once acceptance order allows (08 R218, R221). -/
def execTileInstrEffect (op : Nat) (s : State) : Host.Outcome State Fault Refusal :=
  match s.op? op with
  | some o =>
    match o.kind with
    | .tile minor tile =>
      if tileTurn s o then
        .next (o.down ((s.dropOp op).setCluster ((s.cluster (opCluster s o)).tileStep minor tile o.wave)))
      else .next s
    | _ => .next s
  | none => .next s

/-! ## tread and twrite (08 R222 to R224) -/

/-- FIRST, and the number of rows moved (08 Table 08-7). -/
def rowSpan (rows : Nat) : Nat × Nat := (bitsN rows 0 7, min 127 (bitsN rows 0 7 + bitsN rows 8 7) + 1 - bitsN rows 0 7)

/-- Bytes of an element in scratchpad (08 R223). -/
def rowElemBytes (rows x : Nat) : Nat := if bitsN rows 17 1 = 1 then 4 else elemBits (slotElem x) / 8

/-- A tile element as tread writes it (08 R224). Log entry 48 (DEDUCED). -/
def tileOut (rows x u t : Nat) : Nat × Sticky :=
  let e := slotElem x
  let r := rndOf (slotRnd x)
  if bitsN rows 17 1 = 1 then (t, 0)
  else if bitsN rows 18 1 = 0 then elemOf e r (slotSat x) (slotFtz x) u t
  else match elemFmt e with
    | some F => cvt1 (.int true 32) (.fp F) r (slotSat x) u t
    | none => cvt1 (.int true 32) (.int (e == 7) 8) r (slotSat x) u t

/-- A scratchpad element as twrite puts it into a tile (08 R224). Log entry 48 (DEDUCED). -/
def tileIn (rows x u b : Nat) : Nat × Sticky :=
  let e := slotElem x
  let r := rndOf (slotRnd x)
  if bitsN rows 17 1 = 1 then (b, 0)
  else
    let v := elemVal e (slotFtz x) b
    if bitsN rows 18 1 = 0 then
      let c := convertFp f32 v.1 .rne false false 0
      (c.1, v.2 ||| c.2)
    else match elemFmt e with
      | some _ =>
        let c := fpToInt v.1 r (slotSat x) u (-(2 ^ 31)) (2 ^ 31 - 1)
        (wrapN 32 c.1, v.2 ||| c.2)
      | none => (wrapN 32 (numInt v.1), 0)

/-- ELEM kinds that tread and twrite convert (08 R223). -/
def rowSlot (x : Nat) : Bool :=
  let e := slotElem x
  slotScale x == 0 && slotSparse x == 0 && (e == 1 || e == 2 || e == 9 || e == 10 || e == 7 || e == 8)

/-- tread or twrite set going (08 R222, R223). -/
def tileRowsEff (s : State) (o : OpTRow) (write : Bool) : Host.Outcome State Fault Refusal :=
  issueAs s true 4 3 fun c =>
    let sp := (c.w.getS o.sp.toNat).toNat
    let rows := (c.w.getS o.rows.toNat).toNat
    let raw := bitsN rows 17 1 == 1
    let x := slotOfLaunch c.g.launch o.g.toNat
    let n := (rowSpan rows).2 * rowElemBytes rows x * 128
    let rs := [o.sp.toNat, o.rows.toNat]
    let token := if bitsN rows 16 1 = 1 then tokenFault c o.c.toNat false true else none
    guarded [noFlag c o.fsel] <| flagRoom c o.fsel <| once c [] rs <|
    guarded [if raw then none else slotIs c o.g.toNat rowSlot, token, faultIf c (sp % 16 != 0) .align sp,
      faultIf c (decide (sp < 256) || decide (c.g.launch.spBytes < sp + n)) .perm sp] <|
    match resolve c .own (if write then .read else .write) sp n with
    | .error f => .error ⟨f.code, c.low, f.va⟩
    | .ok r =>
      guarded [poisonRegs c [] rs [], if write then dataFault c [(⟨c.low, r.places, sp⟩, sp)] else none] <|
      let f := c.flag o.fsel
      let adv := !raw && slotRnd x == 5
      let w := stepSeed adv c.w
      let op := { c.newOp f (.tileRows write o.c.toNat sp (rows % 2 ^ 19) o.g.toNat w.seed r.places) (viaOf c.s r.xs) with
        reads := if write then sideRng c true false sp n else []
        writes := if write then [] else sideRng c true true sp n }
      if scoreFull c op then .ok c.stall
      else .ok (retireOnce c (startOp (touchLeaves c.s c.tm.core (!write) r.xs) op) (fun w => (stepSeed adv w).flagUp (some f)) 4)

/-- tread: rows of a tile bank into scratchpad (08 R222). -/
def execTread (o : OpTRow) (s : State) : Host.Outcome State Fault Refusal := tileRowsEff s o false

/-- twrite: rows from scratchpad into a tile bank (08 R222). -/
def execTwrite (o : OpTRow) (s : State) : Host.Outcome State Fault Refusal := tileRowsEff s o true

/-- The elements of a transfer: row and column in the tile, and index counted row by row. -/
def rowElems (rows : Nat) : List (Nat × Nat × Nat) :=
  (List.range (rowSpan rows).2).flatMap fun n => (List.range 128).map fun j => ((rowSpan rows).1 + n, j, 128 * n + j)

/-- The bytes of a tread stored by its core: in the team's allocation, and in that of the trailing team, or as a store of the wave
through the mappings of a stash (08 R224, 09 R242). Log entry 38 (DEDUCED). -/
def rowsOut (s : State) (c : Issue) (via : List (Nat × Nat)) (sp : Nat) (ps : List Place) (l : List (BitVec 8)) : State :=
  let glob := (ps.zip l).filterMap fun p => match p.1 with
    | .mem loc => some (loc, p.2)
    | .sp _ _ => none
  let s := (groupWords glob).foldl (fun s p => storeWord s c.tm.id c.w.fenced s.nextId releasedHow via p.1 p.2) s
  if glob = [] then spWriteBoth s c.tm.id sp l
  else (ps.zip l).foldl (fun s p => match p.1 with
    | .sp _ o => spWriteBoth s c.tm.id o [p.2]
    | .mem _ => s) s

/-- A tread performed: the state, and the flags raised. -/
def performTread (s : State) (c : Issue) (via : List (Nat × Nat)) (k : Cluster) (tile sp rows slot : Nat) (seed : Word)
    (ps : List Place) : State × Sticky :=
  let x := slotOfLaunch c.g.launch slot
  let out := (rowElems rows).map fun e => tileOut rows x (draw seed 0 e.2.2) (k.elem tile (bitsN rows 16 1 == 1) e.1 e.2.1)
  (rowsOut s c via sp ps (out.flatMap fun v => leBytes (rowElemBytes rows x) v.1), orAll (out.map (·.2)))

/-- A twrite performed: the cluster, and the flags raised. Log entry 48 (DEDUCED). -/
def performTwrite (c : Issue) (k : Cluster) (tile rows slot : Nat) (seed : Word) (bs : List (BitVec 8)) : Cluster × Sticky :=
  let x := slotOfLaunch c.g.launch slot
  let n := rowElemBytes rows x
  let ins := (rowElems rows).map fun e => (e, tileIn rows x (draw seed 0 e.2.2) (leNat ((bs.drop (n * e.2.2)).take n)))
  (ins.foldl (fun k e => k.setElem tile (bitsN rows 16 1 == 1) e.1.1 e.1.2.1 e.2.1) k, orAll (ins.map (·.2.2)))

/-- TILE_ROWS_COMPLETE: a tread or twrite moves its rows and raises its flags (08 R218, R224). -/
def execTileRowsComplete (op : Nat) (s : State) : Host.Outcome State Fault Refusal :=
  match s.op? op with
  | some o =>
    match opIssue s o, o.kind with
    | some c, .tileRows write tile sp rows slot seed ps =>
      if tileTurn s o && canEngine s o then
        let k := s.cluster (opCluster s o)
        let s := beforeEngine (s.dropOp op) o
        let r := if write then
            let r := performTwrite c k tile rows slot seed (ps.map (placeByte s c.w c.tm))
            let s := s.setCluster r.1
            (if ps.any fun p => placeMark s c.tm p != .ok then consume c s sp else s, r.2)
          else performTread s c o.via k tile sp rows slot seed ps
        .next (r.1.updPair o.wave fun w => (w.raise r.2).flagDown o.flag)
      else .next s
    | _, _ => .next s
  | none => .next s

/-! ## colload (08 R225 to R229) -/

/-- The checks of a column-store load, in ascending offset order, each with its code (08 R226, Table 08-8). Log entry 49 (DEDUCED). -/
def colChecks (l : Launch) (d : List (BitVec 8)) : List (Nat × Nat × Bool) :=
  let x := slotOfLaunch l (field d 0x0C 1 % 8)
  let f := field d
  let parts := f 0x0F 1
  let k := f 0x10 4
  [(0x0C, 2, decide (f 0x0C 1 < 8)), (0x0D, 2, decide (f 0x0D 1 < 128)), (0x0E, 2, decide (1 ≤ f 0x0E 1) && decide (f 0x0E 1 ≤ 128)),
    (0x0E, 7, decide (f 0x0D 1 + f 0x0E 1 ≤ 128)), (0x0F, 2, decide (1 ≤ parts) && decide (parts < 8)),
    (0x0F, 3, (!(parts.testBit 1) || slotScale x == 1) && (!(parts.testBit 2) || slotSparse x != 0)),
    (0x10, 2, decide (1 ≤ k) && decide (k ≤ 16384)), (0x10, 6, k % 8 == 0 && (slotBlock x == 0 || k % slotBlock x == 0)),
    (0x14, 5, !(parts.testBit 0) || decide (f 0x14 4 + columnBytes x k ≤ 49152)), (0x18, 2, parts.testBit 1 || fieldZero d 0x18 8),
    (0x24, 5, !(parts.testBit 1) || decide (f 0x24 4 + k / slotBlock x ≤ 49152)), (0x28, 2, parts.testBit 2 || fieldZero d 0x28 8),
    (0x34, 5, !(parts.testBit 2) || decide (f 0x34 4 + k / 8 ≤ 49152))]

/-- The sources of one column: address and length of its elements, scales and metadata. -/
def colSources (l : Launch) (d : List (BitVec 8)) (col : Nat) : List (Nat × Nat) :=
  let x := slotOfLaunch l (field d 0x0C 1 % 8)
  let k := field d 0x10 4
  let parts := field d 0x0F 1
  (if parts.testBit 0 then [((field d 0 8 + col * field d 8 4) % 2 ^ 64, columnBytes x k)] else []) ++
  (if parts.testBit 1 then [((field d 0x18 8 + col * field d 0x20 4) % 2 ^ 64, k / slotBlock x)] else []) ++
  (if parts.testBit 2 then [((field d 0x28 8 + col * field d 0x30 4) % 2 ^ 64, k / 8)] else [])

/-- A run of bytes of one column cut at its pages: source, length, slice offset. `fuel` bounds the pages. -/
def colPieces : Nat → Nat → Nat → Nat → List (List (Nat × Nat × Nat))
  | 0, _, _, _ => []
  | fuel + 1, src, len, off =>
    if len = 0 then [] else
    let n := min len (65536 - src % 65536)
    [(src, n, off)] :: colPieces fuel ((src + n) % 2 ^ 64) (len - n) (off + n)

/-- The units in which one column is loaded: the elements of a scaled slot block by block, each with its scale where both are loaded,
and pieces otherwise (05 R135, 08 R227). -/
def colUnits (l : Launch) (d : List (BitVec 8)) (col : Nat) : List (List (Nat × Nat × Nat)) :=
  let x := slotOfLaunch l (field d 0x0C 1 % 8)
  let k := field d 0x10 4
  let parts := field d 0x0F 1
  let src := (field d 0 8 + col * field d 8 4) % 2 ^ 64
  let ssrc := (field d 0x18 8 + col * field d 0x20 4) % 2 ^ 64
  let msrc := (field d 0x28 8 + col * field d 0x30 4) % 2 ^ 64
  let whole := columnBytes x k
  let plain := fun (on : Bool) src len off => if on then colPieces (pageFuel len) src len off else []
  (if parts.testBit 0 && slotScale x == 1 then
      let n := columnBytes x (slotBlock x)
      (List.range (k / slotBlock x)).map fun b =>
        ((src + n * b) % 2 ^ 64, n, field d 0x14 4 + n * b) ::
          (if parts.testBit 1 then [((ssrc + b) % 2 ^ 64, 1, field d 0x24 4 + b)] else [])
    else plain (parts.testBit 0) src whole (field d 0x14 4) ++ plain (parts.testBit 1) ssrc (k / slotBlock x) (field d 0x24 4)) ++
  plain (parts.testBit 2) msrc (k / 8) (field d 0x34 4)

/-- The pieces of a unit read: each slice offset with its bytes; none where a page may not be used. -/
def readUnit (c : Issue) (s : State) : List (Nat × Nat × Nat) → Option (State × List (Nat × List (BitVec 8 × Bool)))
  | [] => some (s, [])
  | (src, n, off) :: l =>
    match engineRead c s src n with
    | .error _ => none
    | .ok (s, bs) => match readUnit c s l with
      | none => none
      | some (s, r) => some (s, (off, bs) :: r)

/-- The units of one column loaded in order, up to the first that may not be read: the state, the cluster, whether all were,
and whether bad data was read. Log entry 49 (DEDUCED). -/
def loadUnits (c : Issue) (slice : Nat) : List (List (Nat × Nat × Nat)) → State → Cluster → Bool → State × Cluster × Bool × Bool
  | [], s, k, bad => (s, k, true, bad)
  | u :: us, s, k, bad =>
    match readUnit c s u with
    | none => (s, k, false, bad)
    | some (s, r) =>
      loadUnits c slice us s (r.foldl (fun k p => k.setCols slice p.1 p.2) k) (bad || r.any fun p => p.2.any (·.2))

/-- Columns loaded in order: the columns completed (08 R227). -/
def loadCols (c : Issue) (d : List (BitVec 8)) : Nat → Nat → State → Cluster → Bool → State × Cluster × Nat × Bool × Bool
  | 0, col, s, k, bad => (s, k, col, true, bad)
  | n + 1, col, s, k, bad =>
    match loadUnits c (field d 0x0D 1 + col) (colUnits c.g.launch d col) s k bad with
    | (s, k, true, bad) => loadCols c d n (col + 1) s k bad
    | (s, k, false, bad) => (s, k, col, false, bad)

/-- The global ranges that a column-store load reads; none where its parameter block breaks a rule. -/
def colReads (c : Issue) (d : List (BitVec 8)) : List Rng :=
  if (firstCode (colChecks c.g.launch d)).isNone then (List.range (field d 0x0E 1)).flatMap fun i =>
    (colSources c.g.launch d i).flatMap fun r => sideRng c false false r.1 r.2
  else []

/-- colload: a column-store load set going (08 R225, R226). -/
def execColload (o : OpF2) (s : State) : Host.Outcome State Fault Refusal :=
  issueAs s true 4 3 fun c =>
    let off := (c.w.getS o.f2.toNat).toNat
    let whole := (peek c off 0 64).getD []
    guarded [noFlag c o.fsel] <| flagRoom c o.fsel <| once c [] [o.f2.toNat] <|
    guarded [peekField c off 0x0C 1 fun n => slotIs c (n % 8) fun _ => true, faultIf c (off % 64 != 0) .align off,
      peekField c off 0 8 fun x => faultIf c (x % 4 != 0) .align x, peekField c off 8 4 fun x => faultIf c (x % 4 != 0) .align x,
      peekField c off 0x14 4 fun x => faultIf c (x % 4 != 0) .align x,
      faultIf c (whole != [] && (field whole 0x0F 1).testBit 0 &&
        !(blocksAligned (slotOfLaunch c.g.launch (field whole 0x0C 1 % 8)) (field whole 0x10 4))) .align (field whole 0x14 4)] <|
    withDesc c off 64 0x38 (poisonRegs c [] [o.f2.toNat] []) fun c d =>
      let f := c.flag o.fsel
      let op := { c.newOp f (.colload d off) [] with reads := colReads c d, writes := sideRng c true true (off + 0x38) 8 }
      if scoreFull c op then .ok c.stall
      else .ok (retireOnce c (startOp c.s op) (fun w => w.flagUp (some f)) 4)

/-- COLLOAD_COMPLETE: the columns and STATUS are written, once no earlier operation that meets it is left (08 R227 to R229). -/
def execColloadComplete (op : Nat) (s : State) : Host.Outcome State Fault Refusal :=
  match s.op? op with
  | some o =>
    match opIssue s o, o.kind with
    | some c, .colload d off =>
      match firstCode (colChecks c.g.launch d) with
      | some (fld, code) => .next (o.down (writeStatus (s.dropOp op) c.tm (off + 0x38) (mxStatus code fld 0 0)))
      | none =>
        if canEngine s o && !(colWaits s o) then
          let r := loadCols c d (field d 0x0E 1) 0 (beforeEngine (s.dropOp op) o) (s.cluster (opCluster s o)) false
          let code := if r.2.2.2.1 then (if r.2.2.2.2 then 9 else 1) else 8
          .next (o.down (writeStatus (r.1.setCluster r.2.1) c.tm (off + 0x38) (mxStatus code 0 r.2.2.1 0)))
        else .next s
    | _, _ => .next s
  | none => .next s

/-! ## qcopy (08 R230 to R232) -/

/-- Bytes of a row of elements. -/
def qRowBytes (x cols : Nat) : Nat := packedBytes (slotElem x) cols

/-- The checks of a quantising copy, in ascending offset order, each with its code (08 R231, Table 08-9). Log entry 49 (DEDUCED). -/
def qChecks (c : Issue) (d : List (BitVec 8)) (x : Nat) : List (Nat × Nat × Bool) :=
  let f := field d
  let rows := f 0x0C 2
  let cols := f 0x0E 2
  let sc := slotScale x == 1
  let sp := f 0x1E 1
  let span := fun base stride n => (base, (rows - 1) * stride + n)
  let inSp := fun (dest : Bool) (r : Nat × Nat) => decide (r.1 + r.2 ≤ c.g.launch.spBytes) && (!dest || decide (256 ≤ r.1))
  [(0x0C, 2, decide (1 ≤ rows) && decide (rows ≤ 4096)), (0x0E, 2, decide (1 ≤ cols) && decide (cols ≤ 4096)),
    (0x0E, 6, (slotBlock x == 0 || cols % slotBlock x == 0) && (slotElem x != 6 || cols % 8 == 0)),
    (0x0E, 2, decide (4 * cols ≤ f 8 4)), (0x18, 2, decide (qRowBytes x cols ≤ f 0x18 4)), (0x1C, 2, fieldZero d 0x1C 2),
    (0x1E, 2, decide (sp < 4)), (0x1E, 4, !(spaceSrcQ sp) || inSp false (span (f 0 8) (f 8 4) (4 * cols))),
    (0x1E, 4, !(spaceDstQ sp) || inSp true (span (f 0x10 8) (f 0x18 4) (qRowBytes x cols))), (0x1F, 2, fieldZero d 0x1F 1),
    (0x20, 2, sc || fieldZero d 0x20 8), (0x28, 2, if sc then decide (cols / slotBlock x ≤ f 0x28 4) else fieldZero d 0x28 4),
    (0x28, 4, !sc || !(spaceDstQ sp) || inSp true (span (f 0x20 8) (f 0x28 4) (cols / slotBlock x))), (0x2C, 2, fieldZero d 0x2C 12)]
where
  spaceSrcQ (x : Nat) : Bool := bitsN x 1 1 == 1
  spaceDstQ (x : Nat) : Bool := bitsN x 0 1 == 1

/-- The elements of a block and its scale, from its f32 inputs: the value of the packed bits, the scale byte, the flags
(05 R136, R139; 08 R231). `u` is the draw of each element. -/
def quantUnit (x : Nat) (table : List Nat) (u : Nat → Nat) (ins : List Nat) : Nat × Nat × Sticky :=
  let e := slotElem x
  let ftz := slotFtz x
  let r := rndOf (slotRnd x)
  if slotScale x = 0 then
    let rs := (ins.zip (List.range ins.length)).map fun p => elemOf e r (slotSat x) ftz (u p.2) p.1
    (packN (elemBits e) (rs.map (·.1)), 0, orAll (rs.map (·.2)))
  else
    let vs := ins.map (readFtz f32 ftz)
    let fl := orAll (vs.map (·.2))
    match blockExp e (vs.map (·.1)) with
    | none => (0, 255, fl ||| fInvalid)
    | some k =>
      if e = 6 then
        let ys := vs.map fun v => scaleNum v.1 (-k)
        (packN 16 ((List.range (ys.length / 8)).map fun g => latticeEncode table ((ys.drop (8 * g)).take 8)), (k + 127).toNat, fl)
      else
        let rs := (vs.zip (List.range vs.length)).map fun p => blockElem e r ftz (u p.2) k p.1.1
        (packN (elemBits e) (rs.map (·.1)), (k + 127).toNat, fl ||| orAll (rs.map (·.2)))

/-- Bytes read on a side of a quantising copy; none where a page forbids it. -/
def sideRead (c : Issue) (s : State) (sp : Bool) (addr n : Nat) : Option (State × List (BitVec 8 × Bool)) :=
  match if sp then spIn c s addr n else engineRead c s (addr % 2 ^ 64) n with
  | .ok r => some r
  | .error _ => none

/-- Bytes written on a side of a quantising copy; none where a page forbids it. -/
def sideWrite (c : Issue) (s : State) (sp : Bool) (addr : Nat) (l : List (BitVec 8 × Bool)) : Option State :=
  match if sp then spOut c s addr l else enginePut c s (addr % 2 ^ 64) l with
  | .ok s => some s
  | .error _ => none

/-- The bytes of a run that lie before the first page that forbids it, page by page. `fuel` bounds the pages. -/
def sideReadRun (c : Issue) (sp : Bool) : Nat → State → Nat → Nat → State × List (BitVec 8 × Bool)
  | 0, s, _, _ => (s, [])
  | fuel + 1, s, addr, n =>
    if n = 0 then (s, []) else
    let here := min n (65536 - addr % 65536)
    match sideRead c s sp addr here with
    | none => (s, [])
    | some (s, l) =>
      let r := sideReadRun c sp fuel s (addr + here) (n - here)
      (r.1, l ++ r.2)

/-- A run written up to the first page that forbids it: the state, and whether all of it was. `fuel` bounds the pages. -/
def sideWriteRun (c : Issue) (sp : Bool) : Nat → State → Nat → List (BitVec 8 × Bool) → State × Bool
  | 0, s, _, _ => (s, true)
  | fuel + 1, s, addr, l =>
    if l = [] then (s, true) else
    let here := min l.length (65536 - addr % 65536)
    match sideWrite c s sp addr (l.take here) with
    | none => (s, false)
    | some s => sideWriteRun c sp fuel s (addr + here) (l.drop here)

/-- How far a quantising copy has come. -/
structure QRun where
  s : State
  ok : Bool
  bad : Bool
  exc : Sticky
  deriving Repr

/-- The f32 values of some bytes. -/
def floatsOf (bs : List (BitVec 8 × Bool)) : List Nat :=
  (List.range (bs.length / 4)).map fun i => leNat (((bs.drop (4 * i)).take 4).map (·.1))

/-- One block of a scaled row: read whole, then written whole with its scale, or not at all (05 R135, 08 R232). -/
def quantBlockAt (c : Issue) (d : List (BitVec 8)) (x : Nat) (table : List Nat) (seed : Word) (row b : Nat) (r : QRun) : QRun :=
  let f := field d
  let L := slotBlock x
  let sp := f 0x1E 1
  let dsp := bitsN sp 0 1 == 1
  match sideRead c r.s (bitsN sp 1 1 == 1) (f 0 8 + row * f 8 4 + 4 * L * b) (4 * L) with
  | none => { r with ok := false }
  | some (s, bs) =>
    let q := quantUnit x table (fun i => draw seed 0 (row * f 0x0E 2 + L * b + i)) (floatsOf bs)
    let bad := bs.any (·.2)
    let out := (leBytes (packedBytes (slotElem x) L) q.1).map fun y => (y, bad)
    match sideWrite c s dsp (f 0x10 8 + row * f 0x18 4 + packedBytes (slotElem x) (L * b)) out with
    | none => { r with s := s, ok := false }
    | some s' => match sideWrite c s' dsp (f 0x20 8 + row * f 0x28 4 + b) [(BitVec.ofNat 8 q.2.1, bad)] with
      | none => { r with s := s, ok := false }
      | some s => ⟨s, true, r.bad || bad, r.exc ||| q.2.2⟩

/-- A row of a scaled slot, block by block. -/
def quantBlocks (c : Issue) (d : List (BitVec 8)) (x : Nat) (table : List Nat) (seed : Word) (row : Nat) (r : QRun) : QRun :=
  (List.range (field d 0x0E 2 / slotBlock x)).foldl (fun r b => if r.ok then quantBlockAt c d x table seed row b r else r) r

/-- A row of an unscaled slot: every byte that lies before the first page which may not be read or written (11 R307). Bits of the
last byte past the row's last element are free values, the same for the same elements (05 R117). Log entry 50 (DEDUCED). -/
def quantRow (c : Issue) (d : List (BitVec 8)) (x : Nat) (seed : Word) (row : Nat) (r : QRun) : QRun :=
  let f := field d
  let cols := f 0x0E 2
  let w := elemBits (slotElem x)
  let sp := f 0x1E 1
  let got := sideReadRun c (bitsN sp 1 1 == 1) (pageFuel (4 * cols)) r.s (f 0 8 + row * f 8 4) (4 * cols)
  let ins := floatsOf got.2
  let q := quantUnit x [] (fun i => draw seed 0 (row * cols + i)) ins
  let all := decide (ins.length = cols)
  let len := if all then packedBytes (slotElem x) cols else ins.length * w / 8
  let bits := ins.length * w
  let pad := if all ∧ bits % 8 ≠ 0 then (Config.padBits q.1).toNat / 2 ^ (bits % 8) * 2 ^ bits else 0
  let badAt := fun i => (((got.2.drop (4 * (8 * i / w))).take (4 * ((8 * i + 7) / w + 1) - 4 * (8 * i / w))).any (·.2))
  let out := (leBytes len (q.1 + pad)).zip ((List.range len).map badAt)
  let put := sideWriteRun c (bitsN sp 0 1 == 1) (pageFuel len) got.1 (f 0x10 8 + row * f 0x18 4) out
  ⟨put.1, all && put.2, r.bad || out.any (·.2), r.exc ||| q.2.2⟩

/-- Rows quantised in order: the run, and the rows fully written (08 R232). Log entry 49 (DEDUCED). -/
def quantRows (c : Issue) (d : List (BitVec 8)) (x : Nat) (table : List Nat) (seed : Word) : Nat → Nat → QRun → QRun × Nat
  | 0, row, r => (r, row)
  | n + 1, row, r =>
    let r := if slotScale x = 1 then quantBlocks c d x table seed row r else quantRow c d x seed row r
    if r.ok then quantRows c d x table seed n (row + 1) r else (r, row)

/-- The ranges of a quantising copy under a slot: the rows it reads, and the rows, the scales and STATUS that it writes. -/
def qcopyRanges (c : Issue) (d : List (BitVec 8)) (off x : Nat) : List Rng × List Rng :=
  let st := sideRng c true true (off + 0x38) 8
  if (firstCode (qChecks c d x)).isSome then ([], st) else
  let rows := List.range (field d 0x0C 2)
  let cols := field d 0x0E 2
  let sp := field d 0x1E 1
  (rows.flatMap fun r => sideRng c (bitsN sp 1 1 == 1) false (field d 0 8 + r * field d 8 4) (4 * cols),
    (rows.flatMap fun r => sideRng c (bitsN sp 0 1 == 1) true (field d 0x10 8 + r * field d 0x18 4) (qRowBytes x cols) ++
      (if slotScale x = 1 then
        sideRng c (bitsN sp 0 1 == 1) true (field d 0x20 8 + r * field d 0x28 4) (cols / slotBlock x) else [])) ++ st)

/-- qcopy: a quantising copy set going (08 R230, R231). -/
def execQcopy (o : OpFG2) (s : State) : Host.Outcome State Fault Refusal :=
  issueAs s true 4 3 fun c =>
    let off := (c.w.getS o.f2.toNat).toNat
    let x := slotOfLaunch c.g.launch o.g.toNat
    let quad := fun o' n => peekField c off o' n fun x => faultIf c (x % 4 != 0) .align x
    guarded [noFlag c o.fsel] <| flagRoom c o.fsel <| once c [] [o.f2.toNat] <|
    guarded [slotIs c o.g.toNat fun x => slotSparse x == 0 && slotElem x != 7 && slotElem x != 8,
      faultIf c (off % 64 != 0) .align off, quad 0 8, quad 8 4, quad 0x10 8, quad 0x18 4] <|
    withSpAnd c (latticePages c x) off 64 off 64 (some (off + 0x38)) (poisonRegs c [] [o.f2.toNat] []) fun c d =>
      match latticeAt c x with
      | .error f => .error f
      | .ok (lat, xs) =>
        let f := c.flag o.fsel
        let w := stepSeed (slotRnd x == 5) c.w
        let r := qcopyRanges c d off x
        let op := { c.newOp f (.qcopy d off o.g.toNat lat w.seed) [] with reads := r.1, writes := r.2 }
        if scoreFull c op then .ok c.stall
        else .ok (retireOnce c (startOp (touchLeaves c.s c.tm.core false xs) op)
          (fun w => (stepSeed (slotRnd x == 5) w).flagUp (some f)) 4)

/-- A quantising copy performed: the state, the rows written, the code and the flags. A Lattice table that has become bad
stops it with code 9. -/
def performQcopy (c : Issue) (s : State) (d : List (BitVec 8)) (x : Nat) (lat : Option Nat) (seed : Word) :
    State × Nat × Nat × Sticky :=
  let loc := lat.getD 0
  let entry := fun i => leNat ((List.range 4).map fun b => engineByte s c.tm.core (loc + 4 * i + b))
  let table := if lat.isSome then (List.range 256).map entry else []
  if lat.isSome && (List.range 1024).any fun i => engineBad s c.tm.core (loc + i) then (s, 0, 9, 0)
  else
    let r := quantRows c d x table seed (field d 0x0C 2) 0 ⟨s, true, false, 0⟩
    (r.1.s, r.2, if r.1.ok then (if r.1.bad then 9 else 1) else 8, r.1.exc)

/-- QCOPY_COMPLETE: rows, scales and STATUS are written (08 R231, R232). -/
def execQcopyComplete (op : Nat) (s : State) : Host.Outcome State Fault Refusal :=
  match s.op? op with
  | some o =>
    match opIssue s o, o.kind with
    | some c, .qcopy d off slot lat seed =>
      let x := slotOfLaunch c.g.launch slot
      match firstCode (qChecks c d x) with
      | some (fld, code) => .next (o.down (writeStatus (s.dropOp op) c.tm (off + 0x38) (mxStatus code fld 0 0)))
      | none =>
        if canEngine s o then
          let r := performQcopy c (beforeEngine (s.dropOp op) o) d x lat seed
          .next (o.down (writeStatus r.1 c.tm (off + 0x38) (mxStatus r.2.2.1 0 r.2.1 r.2.2.2)))
        else .next s
    | _, _ => .next s
  | none => .next s

end Sys2Proof.Machine
end

