-- ==== Sys2Proof/Machine/Dispatch.lean ====
section
/-! DEFINITION. One arm per instruction: the meaning it calls. -/

namespace Sys2Proof.Machine

/-- The effect of one instruction, or of one event of the device. -/
def exec (i : Instr) (s : State) : Host.Outcome State Fault Refusal :=
  match i with
  | .launchTake part => Sys2Proof.Machine.execLaunchTake part s
  | .teamPlace grid cores => Sys2Proof.Machine.execTeamPlace grid cores s
  | .placementWaitExpiry grid => Sys2Proof.Machine.execPlacementWaitExpiry grid s
  | .aggregatorRelease grid => Sys2Proof.Machine.execAggregatorRelease grid s
  | .ageBoost wave => Sys2Proof.Machine.execAgeBoost wave s
  | .watchdog wave => Sys2Proof.Machine.execWatchdog wave s
  | .waveRetire wave => Sys2Proof.Machine.execWaveRetire wave s
  | .loadComplete part => Sys2Proof.Machine.execLoadComplete part s
  | .storeComplete part => Sys2Proof.Machine.execStoreComplete part s
  | .atomicComplete op => Sys2Proof.Machine.execAtomicComplete op s
  | .fenceComplete wave => Sys2Proof.Machine.execFenceComplete wave s
  | .racqDrain op => Sys2Proof.Machine.execRacqDrain op s
  | .cacheFillArrive core run => Sys2Proof.Machine.execCacheFillArrive core run s
  | .sliceAdmit die n => Sys2Proof.Machine.execSliceAdmit die n s
  | .monitorWake wave => Sys2Proof.Machine.execMonitorWake wave s
  | .monitorRepoll wave => Sys2Proof.Machine.execMonitorRepoll wave s
  | .pendingArrivalApply core => Sys2Proof.Machine.execPendingArrivalApply core s
  | .tenureGrant op => Sys2Proof.Machine.execTenureGrant op s
  | .tenureRecall ctx index write => Sys2Proof.Machine.execTenureRecall ctx index write s
  | .hrelEffect op => Sys2Proof.Machine.execHrelEffect op s
  | .flushComplete op => Sys2Proof.Machine.execFlushComplete op s
  | .rmodeComplete op => Sys2Proof.Machine.execRmodeComplete op s
  | .mmaAccept op => Sys2Proof.Machine.execMmaAccept op s
  | .mmaGrant cluster => Sys2Proof.Machine.execMmaGrant cluster s
  | .tileInstrEffect op => Sys2Proof.Machine.execTileInstrEffect op s
  | .tileRowsComplete op => Sys2Proof.Machine.execTileRowsComplete op s
  | .colloadComplete op => Sys2Proof.Machine.execColloadComplete op s
  | .qcopyComplete op => Sys2Proof.Machine.execQcopyComplete op s
  | .copyComplete op => Sys2Proof.Machine.execCopyComplete op s
  | .teamSave team => Sys2Proof.Machine.execTeamSave team s
  | .teamRestore team cores => Sys2Proof.Machine.execTeamRestore team cores s
  | .faultRecordWrite ctx => Sys2Proof.Machine.execFaultRecordWrite ctx s
  | .hullWrite grid => Sys2Proof.Machine.execHullWrite grid s
  | .signatureCompare wave => Sys2Proof.Machine.execSignatureCompare wave s
  | .bisectorSnapshot part k => Sys2Proof.Machine.execBisectorSnapshot part k s
  | .cutAnnounce part k => Sys2Proof.Machine.execCutAnnounce part k s
  | .patchHandOver part k => Sys2Proof.Machine.execPatchHandOver part k s
  | .bisectorStopShort part k => Sys2Proof.Machine.execBisectorStopShort part k s
  | .cutCommit part k => Sys2Proof.Machine.execCutCommit part k s
  | .linkFlitReceive link good => Sys2Proof.Machine.execLinkFlitReceive link good s
  | .linkRetrain link => Sys2Proof.Machine.execLinkRetrain link s
  | .remoteRequest src write size => Sys2Proof.Machine.execRemoteRequest src write size s
  | .agentFailure agent => Sys2Proof.Machine.execAgentFailure agent s
  | .census home => Sys2Proof.Machine.execCensus home s
  | .correctedError kind index => Sys2Proof.Machine.execCorrectedError kind index s
  | .poisonMark kind a b c => Sys2Proof.Machine.execPoisonMark kind a b c s
  | .spareSubstitution kind index => Sys2Proof.Machine.execSpareSubstitution kind index s
  | .hostBar2Access pa write size => Sys2Proof.Machine.execHostBar2Access pa write size s
  | .hostAtomicop kind size pa x y => Sys2Proof.Machine.execHostAtomicop kind size pa x y s
  | .hostCxlCache pa data => Sys2Proof.Machine.execHostCxlCache pa data s
  | .qrsvRead part q => Sys2Proof.Machine.execQrsvRead part q s
  | .setupBindKeyspace part k => Sys2Proof.Machine.execSetupBindKeyspace part k s
  | .setupUnbindKeyspace part k => Sys2Proof.Machine.execSetupUnbindKeyspace part k s
  | .setupWorkList part n => Sys2Proof.Machine.execSetupWorkList part n s
  | .setupRereadQueue part q => Sys2Proof.Machine.execSetupRereadQueue part q s
  | .contextSetup ctx record fn => Sys2Proof.Machine.execContextSetup ctx record fn s
  | .contextRetire ctx => Sys2Proof.Machine.execContextRetire ctx s
  | .syncRead page => Sys2Proof.Machine.execSyncRead page s
  | .serviceResume ctx => Sys2Proof.Machine.execServiceResume ctx s
  | .serviceHandler ctx => Sys2Proof.Machine.execServiceHandler ctx s
  | .serviceEnd ctx => Sys2Proof.Machine.execServiceEnd ctx s
  | .serviceContinue ctx => Sys2Proof.Machine.execServiceContinue ctx s
  | .serviceRestore ctx => Sys2Proof.Machine.execServiceRestore ctx s
  | .registerWrite off size val face => Sys2Proof.Machine.execRegisterWrite off size val face s
  | .partset bar0 => Sys2Proof.Machine.execPartset bar0 s
  | .partfree bar0 => Sys2Proof.Machine.execPartfree bar0 s
  | .parthalt bar0 => Sys2Proof.Machine.execParthalt bar0 s
  | .partrun bar0 => Sys2Proof.Machine.execPartrun bar0 s
  | .regtag bar0 => Sys2Proof.Machine.execRegtag bar0 s
  | .keyload bar0 => Sys2Proof.Machine.execKeyload bar0 s
  | .unitread bar0 => Sys2Proof.Machine.execUnitread bar0 s
  | .pwrlimit bar0 => Sys2Proof.Machine.execPwrlimit bar0 s
  | .sharedset bar0 => Sys2Proof.Machine.execSharedset bar0 s
  | .deviceReset => Sys2Proof.Machine.execDeviceReset s
  | .bootStageComplete error => Sys2Proof.Machine.execBootStageComplete error s
  | .clockChange mhz => Sys2Proof.Machine.execClockChange mhz s
  | .thermalLimit => Sys2Proof.Machine.execThermalLimit s
  | .thermalHalt => Sys2Proof.Machine.execThermalHalt s
  | .keyUnitStep op => Sys2Proof.Machine.execKeyUnitStep op s
  | .workListStep op => Sys2Proof.Machine.execWorkListStep op s
  | .corePowerGate core => Sys2Proof.Machine.execCorePowerGate core s
  | .clauseHeader o => Sys2Proof.Machine.execClauseHeader o s
  | .vaddI8x8 o => Sys2Proof.Machine.execVaddI8x8 o s
  | .vsubI8x8 o => Sys2Proof.Machine.execVsubI8x8 o s
  | .vminI8x8 o => Sys2Proof.Machine.execVminI8x8 o s
  | .vminN8x8 o => Sys2Proof.Machine.execVminN8x8 o s
  | .vmaxI8x8 o => Sys2Proof.Machine.execVmaxI8x8 o s
  | .vmaxN8x8 o => Sys2Proof.Machine.execVmaxN8x8 o s
  | .vaddI8x8Sat o => Sys2Proof.Machine.execVaddI8x8Sat o s
  | .vaddN8x8Sat o => Sys2Proof.Machine.execVaddN8x8Sat o s
  | .vaddI16x4 o => Sys2Proof.Machine.execVaddI16x4 o s
  | .vsubI16x4 o => Sys2Proof.Machine.execVsubI16x4 o s
  | .vminI16x4 o => Sys2Proof.Machine.execVminI16x4 o s
  | .vminN16x4 o => Sys2Proof.Machine.execVminN16x4 o s
  | .vmaxI16x4 o => Sys2Proof.Machine.execVmaxI16x4 o s
  | .vmaxN16x4 o => Sys2Proof.Machine.execVmaxN16x4 o s
  | .vaddI16x4Sat o => Sys2Proof.Machine.execVaddI16x4Sat o s
  | .vaddN16x4Sat o => Sys2Proof.Machine.execVaddN16x4Sat o s
  | .vaddI32x2 o => Sys2Proof.Machine.execVaddI32x2 o s
  | .vsubI32x2 o => Sys2Proof.Machine.execVsubI32x2 o s
  | .vmulI32x2 o => Sys2Proof.Machine.execVmulI32x2 o s
  | .vmulhiI32x2 o => Sys2Proof.Machine.execVmulhiI32x2 o s
  | .vmulhiN32x2 o => Sys2Proof.Machine.execVmulhiN32x2 o s
  | .vminI32x2 o => Sys2Proof.Machine.execVminI32x2 o s
  | .vminN32x2 o => Sys2Proof.Machine.execVminN32x2 o s
  | .vmaxI32x2 o => Sys2Proof.Machine.execVmaxI32x2 o s
  | .vmaxN32x2 o => Sys2Proof.Machine.execVmaxN32x2 o s
  | .vshlI32x2 o => Sys2Proof.Machine.execVshlI32x2 o s
  | .vshrN32x2 o => Sys2Proof.Machine.execVshrN32x2 o s
  | .vshrI32x2 o => Sys2Proof.Machine.execVshrI32x2 o s
  | .vaddI32x2Sat o => Sys2Proof.Machine.execVaddI32x2Sat o s
  | .vaddN32x2Sat o => Sys2Proof.Machine.execVaddN32x2Sat o s
  | .vsubI32x2Sat o => Sys2Proof.Machine.execVsubI32x2Sat o s
  | .vsubN32x2Sat o => Sys2Proof.Machine.execVsubN32x2Sat o s
  | .vaddI64 o => Sys2Proof.Machine.execVaddI64 o s
  | .vsubI64 o => Sys2Proof.Machine.execVsubI64 o s
  | .vmulI64 o => Sys2Proof.Machine.execVmulI64 o s
  | .vmulhiI64 o => Sys2Proof.Machine.execVmulhiI64 o s
  | .vmulhiN64 o => Sys2Proof.Machine.execVmulhiN64 o s
  | .vminI64 o => Sys2Proof.Machine.execVminI64 o s
  | .vminN64 o => Sys2Proof.Machine.execVminN64 o s
  | .vmaxI64 o => Sys2Proof.Machine.execVmaxI64 o s
  | .vmaxN64 o => Sys2Proof.Machine.execVmaxN64 o s
  | .vshlI64 o => Sys2Proof.Machine.execVshlI64 o s
  | .vshrN64 o => Sys2Proof.Machine.execVshrN64 o s
  | .vshrI64 o => Sys2Proof.Machine.execVshrI64 o s
  | .vaddI64Sat o => Sys2Proof.Machine.execVaddI64Sat o s
  | .vaddN64Sat o => Sys2Proof.Machine.execVaddN64Sat o s
  | .vsubI64Sat o => Sys2Proof.Machine.execVsubI64Sat o s
  | .vsubN64Sat o => Sys2Proof.Machine.execVsubN64Sat o s
  | .vand o => Sys2Proof.Machine.execVand o s
  | .vor o => Sys2Proof.Machine.execVor o s
  | .vxor o => Sys2Proof.Machine.execVxor o s
  | .vandn o => Sys2Proof.Machine.execVandn o s
  | .vmov o => Sys2Proof.Machine.execVmov o s
  | .vsplat o => Sys2Proof.Machine.execVsplat o s
  | .vfaddF64 o => Sys2Proof.Machine.execVfaddF64 o s
  | .vfsubF64 o => Sys2Proof.Machine.execVfsubF64 o s
  | .vfmulF64 o => Sys2Proof.Machine.execVfmulF64 o s
  | .vfmaF64 o => Sys2Proof.Machine.execVfmaF64 o s
  | .vfminF64 o => Sys2Proof.Machine.execVfminF64 o s
  | .vfmaxF64 o => Sys2Proof.Machine.execVfmaxF64 o s
  | .vfminF64Nan o => Sys2Proof.Machine.execVfminF64Nan o s
  | .vfmaxF64Nan o => Sys2Proof.Machine.execVfmaxF64Nan o s
  | .vfaddF32x2 o => Sys2Proof.Machine.execVfaddF32x2 o s
  | .vfsubF32x2 o => Sys2Proof.Machine.execVfsubF32x2 o s
  | .vfmulF32x2 o => Sys2Proof.Machine.execVfmulF32x2 o s
  | .vfmaF32x2 o => Sys2Proof.Machine.execVfmaF32x2 o s
  | .vfminF32x2 o => Sys2Proof.Machine.execVfminF32x2 o s
  | .vfmaxF32x2 o => Sys2Proof.Machine.execVfmaxF32x2 o s
  | .vfminF32x2Nan o => Sys2Proof.Machine.execVfminF32x2Nan o s
  | .vfmaxF32x2Nan o => Sys2Proof.Machine.execVfmaxF32x2Nan o s
  | .vfaddF16x4 o => Sys2Proof.Machine.execVfaddF16x4 o s
  | .vfsubF16x4 o => Sys2Proof.Machine.execVfsubF16x4 o s
  | .vfmulF16x4 o => Sys2Proof.Machine.execVfmulF16x4 o s
  | .vfmaF16x4 o => Sys2Proof.Machine.execVfmaF16x4 o s
  | .vfminF16x4 o => Sys2Proof.Machine.execVfminF16x4 o s
  | .vfmaxF16x4 o => Sys2Proof.Machine.execVfmaxF16x4 o s
  | .vfminF16x4Nan o => Sys2Proof.Machine.execVfminF16x4Nan o s
  | .vfmaxF16x4Nan o => Sys2Proof.Machine.execVfmaxF16x4Nan o s
  | .vfaddBf16x4 o => Sys2Proof.Machine.execVfaddBf16x4 o s
  | .vfsubBf16x4 o => Sys2Proof.Machine.execVfsubBf16x4 o s
  | .vfmulBf16x4 o => Sys2Proof.Machine.execVfmulBf16x4 o s
  | .vfmaBf16x4 o => Sys2Proof.Machine.execVfmaBf16x4 o s
  | .vfminBf16x4 o => Sys2Proof.Machine.execVfminBf16x4 o s
  | .vfmaxBf16x4 o => Sys2Proof.Machine.execVfmaxBf16x4 o s
  | .vfminBf16x4Nan o => Sys2Proof.Machine.execVfminBf16x4Nan o s
  | .vfmaxBf16x4Nan o => Sys2Proof.Machine.execVfmaxBf16x4Nan o s
  | .saddI64 o => Sys2Proof.Machine.execSaddI64 o s
  | .ssubI64 o => Sys2Proof.Machine.execSsubI64 o s
  | .smulI64 o => Sys2Proof.Machine.execSmulI64 o s
  | .smulhiI64 o => Sys2Proof.Machine.execSmulhiI64 o s
  | .smulhiN64 o => Sys2Proof.Machine.execSmulhiN64 o s
  | .sand o => Sys2Proof.Machine.execSand o s
  | .sor o => Sys2Proof.Machine.execSor o s
  | .sxor o => Sys2Proof.Machine.execSxor o s
  | .sshlI64 o => Sys2Proof.Machine.execSshlI64 o s
  | .sshrN64 o => Sys2Proof.Machine.execSshrN64 o s
  | .sshrI64 o => Sys2Proof.Machine.execSshrI64 o s
  | .sminI64 o => Sys2Proof.Machine.execSminI64 o s
  | .sminN64 o => Sys2Proof.Machine.execSminN64 o s
  | .smaxI64 o => Sys2Proof.Machine.execSmaxI64 o s
  | .smaxN64 o => Sys2Proof.Machine.execSmaxN64 o s
  | .smov o => Sys2Proof.Machine.execSmov o s
  | .nop => Sys2Proof.Machine.execNop s
  | .vmovC16 o => Sys2Proof.Machine.execVmovC16 o s
  | .vaddI32x2C16 o => Sys2Proof.Machine.execVaddI32x2C16 o s
  | .vsubI32x2C16 o => Sys2Proof.Machine.execVsubI32x2C16 o s
  | .vmulI32x2C16 o => Sys2Proof.Machine.execVmulI32x2C16 o s
  | .vandC16 o => Sys2Proof.Machine.execVandC16 o s
  | .vorC16 o => Sys2Proof.Machine.execVorC16 o s
  | .vxorC16 o => Sys2Proof.Machine.execVxorC16 o s
  | .vshlI32x2C16 o => Sys2Proof.Machine.execVshlI32x2C16 o s
  | .vshrN32x2C16 o => Sys2Proof.Machine.execVshrN32x2C16 o s
  | .vfaddF32x2C16 o => Sys2Proof.Machine.execVfaddF32x2C16 o s
  | .vfsubF32x2C16 o => Sys2Proof.Machine.execVfsubF32x2C16 o s
  | .vfmulF32x2C16 o => Sys2Proof.Machine.execVfmulF32x2C16 o s
  | .vfminF32x2C16 o => Sys2Proof.Machine.execVfminF32x2C16 o s
  | .vfmaxF32x2C16 o => Sys2Proof.Machine.execVfmaxF32x2C16 o s
  | .vfaddF64C16 o => Sys2Proof.Machine.execVfaddF64C16 o s
  | .vfaddQ o => Sys2Proof.Machine.execVfaddQ o s
  | .vfsubQ o => Sys2Proof.Machine.execVfsubQ o s
  | .vfmulQ o => Sys2Proof.Machine.execVfmulQ o s
  | .vfmaQ o => Sys2Proof.Machine.execVfmaQ o s
  | .vfabs o => Sys2Proof.Machine.execVfabs o s
  | .vfneg o => Sys2Proof.Machine.execVfneg o s
  | .vrcp o => Sys2Proof.Machine.execVrcp o s
  | .vrsqrt o => Sys2Proof.Machine.execVrsqrt o s
  | .vsqrt o => Sys2Proof.Machine.execVsqrt o s
  | .vsin o => Sys2Proof.Machine.execVsin o s
  | .vcos o => Sys2Proof.Machine.execVcos o s
  | .vsinpi o => Sys2Proof.Machine.execVsinpi o s
  | .vcospi o => Sys2Proof.Machine.execVcospi o s
  | .vexp2 o => Sys2Proof.Machine.execVexp2 o s
  | .vlog2 o => Sys2Proof.Machine.execVlog2 o s
  | .vtanh o => Sys2Proof.Machine.execVtanh o s
  | .vfrintn o => Sys2Proof.Machine.execVfrintn o s
  | .vfrintz o => Sys2Proof.Machine.execVfrintz o s
  | .vfrintm o => Sys2Proof.Machine.execVfrintm o s
  | .vfrintp o => Sys2Proof.Machine.execVfrintp o s
  | .vfclass o => Sys2Proof.Machine.execVfclass o s
  | .vabs o => Sys2Proof.Machine.execVabs o s
  | .vneg o => Sys2Proof.Machine.execVneg o s
  | .vnot o => Sys2Proof.Machine.execVnot o s
  | .vpopc o => Sys2Proof.Machine.execVpopc o s
  | .vclz o => Sys2Proof.Machine.execVclz o s
  | .vbrev o => Sys2Proof.Machine.execVbrev o s
  | .vlanes o => Sys2Proof.Machine.execVlanes o s
  | .vpasses o => Sys2Proof.Machine.execVpasses o s
  | .vtid o => Sys2Proof.Machine.execVtid o s
  | .vlanemap o => Sys2Proof.Machine.execVlanemap o s
  | .vcvt o => Sys2Proof.Machine.execVcvt o s
  | .vquant o => Sys2Proof.Machine.execVquant o s
  | .vdequant o => Sys2Proof.Machine.execVdequant o s
  | .vcbdec o => Sys2Proof.Machine.execVcbdec o s
  | .amadI8x8 o => Sys2Proof.Machine.execAmadI8x8 o s
  | .amadN8x8 o => Sys2Proof.Machine.execAmadN8x8 o s
  | .amadF16x4 o => Sys2Proof.Machine.execAmadF16x4 o s
  | .amadBf16x4 o => Sys2Proof.Machine.execAmadBf16x4 o s
  | .amadF32x2 o => Sys2Proof.Machine.execAmadF32x2 o s
  | .amadF64 o => Sys2Proof.Machine.execAmadF64 o s
  | .azero o => Sys2Proof.Machine.execAzero o s
  | .amov o => Sys2Proof.Machine.execAmov o s
  | .vnarrowLo o => Sys2Proof.Machine.execVnarrowLo o s
  | .vnarrowHi o => Sys2Proof.Machine.execVnarrowHi o s
  | .vnarrowI16x4Sat o => Sys2Proof.Machine.execVnarrowI16x4Sat o s
  | .vnarrowF16x4 o => Sys2Proof.Machine.execVnarrowF16x4 o s
  | .saddi o => Sys2Proof.Machine.execSaddi o s
  | .sandi o => Sys2Proof.Machine.execSandi o s
  | .vaddiI32x2 o => Sys2Proof.Machine.execVaddiI32x2 o s
  | .vaddiI64 o => Sys2Proof.Machine.execVaddiI64 o s
  | .smovz o => Sys2Proof.Machine.execSmovz o s
  | .smovs o => Sys2Proof.Machine.execSmovs o s
  | .smovk16 o => Sys2Proof.Machine.execSmovk16 o s
  | .smovk32 o => Sys2Proof.Machine.execSmovk32 o s
  | .smovk48 o => Sys2Proof.Machine.execSmovk48 o s
  | .vmovz o => Sys2Proof.Machine.execVmovz o s
  | .vmovs o => Sys2Proof.Machine.execVmovs o s
  | .vmovk16 o => Sys2Proof.Machine.execVmovk16 o s
  | .vmovk32 o => Sys2Proof.Machine.execVmovk32 o s
  | .vmovk48 o => Sys2Proof.Machine.execVmovk48 o s
  | .vceq o => Sys2Proof.Machine.execVceq o s
  | .vcne o => Sys2Proof.Machine.execVcne o s
  | .vclt o => Sys2Proof.Machine.execVclt o s
  | .vcle o => Sys2Proof.Machine.execVcle o s
  | .vcgt o => Sys2Proof.Machine.execVcgt o s
  | .vcge o => Sys2Proof.Machine.execVcge o s
  | .vcord o => Sys2Proof.Machine.execVcord o s
  | .vcunord o => Sys2Proof.Machine.execVcunord o s
  | .vcneu o => Sys2Proof.Machine.execVcneu o s
  | .sceq o => Sys2Proof.Machine.execSceq o s
  | .scne o => Sys2Proof.Machine.execScne o s
  | .sclt o => Sys2Proof.Machine.execSclt o s
  | .scle o => Sys2Proof.Machine.execScle o s
  | .scgt o => Sys2Proof.Machine.execScgt o s
  | .scge o => Sys2Proof.Machine.execScge o s
  | .scord o => Sys2Proof.Machine.execScord o s
  | .scunord o => Sys2Proof.Machine.execScunord o s
  | .scneu o => Sys2Proof.Machine.execScneu o s
  | .vsel o => Sys2Proof.Machine.execVsel o s
  | .pand o => Sys2Proof.Machine.execPand o s
  | .por o => Sys2Proof.Machine.execPor o s
  | .pxor o => Sys2Proof.Machine.execPxor o s
  | .pandn o => Sys2Proof.Machine.execPandn o s
  | .pnot o => Sys2Proof.Machine.execPnot o s
  | .pmov o => Sys2Proof.Machine.execPmov o s
  | .vshflN64 o => Sys2Proof.Machine.execVshflN64 o s
  | .vshflN32x2 o => Sys2Proof.Machine.execVshflN32x2 o s
  | .vshflN16x4 o => Sys2Proof.Machine.execVshflN16x4 o s
  | .vshflN8x8 o => Sys2Proof.Machine.execVshflN8x8 o s
  | .vbcast o => Sys2Proof.Machine.execVbcast o s
  | .vballot o => Sys2Proof.Machine.execVballot o s
  | .vall o => Sys2Proof.Machine.execVall o s
  | .vany o => Sys2Proof.Machine.execVany o s
  | .vuni o => Sys2Proof.Machine.execVuni o s
  | .vcompact o => Sys2Proof.Machine.execVcompact o s
  | .vmatch o => Sys2Proof.Machine.execVmatch o s
  | .vrdfirst o => Sys2Proof.Machine.execVrdfirst o s
  | .vredAdd o => Sys2Proof.Machine.execVredAdd o s
  | .vredMin o => Sys2Proof.Machine.execVredMin o s
  | .vredMax o => Sys2Proof.Machine.execVredMax o s
  | .vredAnd o => Sys2Proof.Machine.execVredAnd o s
  | .vredOr o => Sys2Proof.Machine.execVredOr o s
  | .vredXor o => Sys2Proof.Machine.execVredXor o s
  | .vscanAdd o => Sys2Proof.Machine.execVscanAdd o s
  | .vscanMin o => Sys2Proof.Machine.execVscanMin o s
  | .vscanMax o => Sys2Proof.Machine.execVscanMax o s
  | .vscanAnd o => Sys2Proof.Machine.execVscanAnd o s
  | .vscanOr o => Sys2Proof.Machine.execVscanOr o s
  | .vscanXor o => Sys2Proof.Machine.execVscanXor o s
  | .vscanxAdd o => Sys2Proof.Machine.execVscanxAdd o s
  | .vscanxMin o => Sys2Proof.Machine.execVscanxMin o s
  | .vscanxMax o => Sys2Proof.Machine.execVscanxMax o s
  | .vscanxAnd o => Sys2Proof.Machine.execVscanxAnd o s
  | .vscanxOr o => Sys2Proof.Machine.execVscanxOr o s
  | .vscanxXor o => Sys2Proof.Machine.execVscanxXor o s
  | .vtopk o => Sys2Proof.Machine.execVtopk o s
  | .ldg o => Sys2Proof.Machine.execLdg o s
  | .lds o => Sys2Proof.Machine.execLds o s
  | .ldc o => Sys2Proof.Machine.execLdc o s
  | .stg o => Sys2Proof.Machine.execStg o s
  | .sts o => Sys2Proof.Machine.execSts o s
  | .atomAdd o => Sys2Proof.Machine.execAtomAdd o s
  | .atomAnd o => Sys2Proof.Machine.execAtomAnd o s
  | .atomOr o => Sys2Proof.Machine.execAtomOr o s
  | .atomXor o => Sys2Proof.Machine.execAtomXor o s
  | .atomMinI o => Sys2Proof.Machine.execAtomMinI o s
  | .atomMinN o => Sys2Proof.Machine.execAtomMinN o s
  | .atomMaxI o => Sys2Proof.Machine.execAtomMaxI o s
  | .atomMaxN o => Sys2Proof.Machine.execAtomMaxN o s
  | .atomExch o => Sys2Proof.Machine.execAtomExch o s
  | .atomCas o => Sys2Proof.Machine.execAtomCas o s
  | .atomFadd o => Sys2Proof.Machine.execAtomFadd o s
  | .atomLdo o => Sys2Proof.Machine.execAtomLdo o s
  | .redAdd o => Sys2Proof.Machine.execRedAdd o s
  | .redAnd o => Sys2Proof.Machine.execRedAnd o s
  | .redOr o => Sys2Proof.Machine.execRedOr o s
  | .redXor o => Sys2Proof.Machine.execRedXor o s
  | .redMinI o => Sys2Proof.Machine.execRedMinI o s
  | .redMinN o => Sys2Proof.Machine.execRedMinN o s
  | .redMaxI o => Sys2Proof.Machine.execRedMaxI o s
  | .redMaxN o => Sys2Proof.Machine.execRedMaxN o s
  | .redExch o => Sys2Proof.Machine.execRedExch o s
  | .redCas o => Sys2Proof.Machine.execRedCas o s
  | .redFadd o => Sys2Proof.Machine.execRedFadd o s
  | .redSto o => Sys2Proof.Machine.execRedSto o s
  | .fence o => Sys2Proof.Machine.execFence o s
  | .racq o => Sys2Proof.Machine.execRacq o s
  | .mwait o => Sys2Proof.Machine.execMwait o s
  | .barInit o => Sys2Proof.Machine.execBarInit o s
  | .barArrive o => Sys2Proof.Machine.execBarArrive o s
  | .barWait o => Sys2Proof.Machine.execBarWait o s
  | .barSync o => Sys2Proof.Machine.execBarSync o s
  | .barRarrive o => Sys2Proof.Machine.execBarRarrive o s
  | .copy o => Sys2Proof.Machine.execCopy o s
  | .gather o => Sys2Proof.Machine.execGather o s
  | .scatter o => Sys2Proof.Machine.execScatter o s
  | .compact o => Sys2Proof.Machine.execCompact o s
  | .pfetchDesc o => Sys2Proof.Machine.execPfetchDesc o s
  | .pfetchHandle o => Sys2Proof.Machine.execPfetchHandle o s
  | .pin o => Sys2Proof.Machine.execPin o s
  | .unpin o => Sys2Proof.Machine.execUnpin o s
  | .flush o => Sys2Proof.Machine.execFlush o s
  | .inval o => Sys2Proof.Machine.execInval o s
  | .hopen o => Sys2Proof.Machine.execHopen o s
  | .hacqRd o => Sys2Proof.Machine.execHacqRd o s
  | .hacqWr o => Sys2Proof.Machine.execHacqWr o s
  | .hrelDrop o => Sys2Proof.Machine.execHrelDrop o s
  | .hrelDown o => Sys2Proof.Machine.execHrelDown o s
  | .hsplit o => Sys2Proof.Machine.execHsplit o s
  | .hclose o => Sys2Proof.Machine.execHclose o s
  | .smap o => Sys2Proof.Machine.execSmap o s
  | .sunmap o => Sys2Proof.Machine.execSunmap o s
  | .mma o => Sys2Proof.Machine.execMma o s
  | .tkacq o => Sys2Proof.Machine.execTkacq o s
  | .tkrel o => Sys2Proof.Machine.execTkrel o s
  | .tswap o => Sys2Proof.Machine.execTswap o s
  | .tzero o => Sys2Proof.Machine.execTzero o s
  | .tread o => Sys2Proof.Machine.execTread o s
  | .twrite o => Sys2Proof.Machine.execTwrite o s
  | .colload o => Sys2Proof.Machine.execColload o s
  | .qcopy o => Sys2Proof.Machine.execQcopy o s
  | .bra o => Sys2Proof.Machine.execBra o s
  | .brx o => Sys2Proof.Machine.execBrx o s
  | .call o => Sys2Proof.Machine.execCall o s
  | .ret o => Sys2Proof.Machine.execRet o s
  | .bprio o => Sys2Proof.Machine.execBprio o s
  | .rcvset o => Sys2Proof.Machine.execRcvset o s
  | .rcvwait o => Sys2Proof.Machine.execRcvwait o s
  | .yield o => Sys2Proof.Machine.execYield o s
  | .exit => Sys2Proof.Machine.execExit s
  | .trap o => Sys2Proof.Machine.execTrap o s
  | .brk => Sys2Proof.Machine.execBrk s
  | .qsend o => Sys2Proof.Machine.execQsend o s
  | .qrecv o => Sys2Proof.Machine.execQrecv o s
  | .spawn o => Sys2Proof.Machine.execSpawn o s
  | .rget o => Sys2Proof.Machine.execRget o s
  | .krefine o => Sys2Proof.Machine.execKrefine o s
  | .kcoarsen o => Sys2Proof.Machine.execKcoarsen o s
  | .kneigh o => Sys2Proof.Machine.execKneigh o s
  | .kowner o => Sys2Proof.Machine.execKowner o s
  | .kcost o => Sys2Proof.Machine.execKcost o s
  | .kclaim o => Sys2Proof.Machine.execKclaim o s
  | .krelease o => Sys2Proof.Machine.execKrelease o s
  | .kiter o => Sys2Proof.Machine.execKiter o s
  | .krebal o => Sys2Proof.Machine.execKrebal o s
  | .wpush o => Sys2Proof.Machine.execWpush o s
  | .wpop o => Sys2Proof.Machine.execWpop o s
  | .wins o => Sys2Proof.Machine.execWins o s
  | .wcount o => Sys2Proof.Machine.execWcount o s
  | .sysrd o => Sys2Proof.Machine.execSysrd o s
  | .syswr o => Sys2Proof.Machine.execSyswr o s
  | .tret => Sys2Proof.Machine.execTret s
  | .rmodeSwm o => Sys2Proof.Machine.execRmodeSwm o s
  | .rmodeCoh o => Sys2Proof.Machine.execRmodeCoh o s
  | .halt => Sys2Proof.Machine.execHalt s
  | .ckpt o => Sys2Proof.Machine.execCkpt o s
  | .rbstat o => Sys2Proof.Machine.execRbstat o s
  | .finj o => Sys2Proof.Machine.execFinj o s

end Sys2Proof.Machine
end

