-- ==== Sys2Proof/Machine/Moves.lean ====
section
/-! DEFINITION. The moves that are open in a state, and the choice among them. -/

namespace Sys2Proof.Machine

/-- The waves that may issue and that their quadrants choose. -/
def issueMoves (s : State) : List Turn :=
  let ready := readyWaves s
  (ready.filter (chosen s ready)).map fun w => .issue w.id

/-- The event that takes an operation in flight further. Log entry 78 (DEDUCED). -/
def opEvent (s : State) (o : Op) : Instr :=
  match o.kind with
  | .load _ _ _ _ _ => .loadComplete ⟨o.id, none⟩
  | .store _ _ | .stamp _ _ _ _ => .storeComplete ⟨o.id, none⟩
  | .atom _ _ _ _ _ _ _ _ => .atomicComplete o.id
  | .result _ => .atomicComplete o.id
  | .racq _ _ => .racqDrain o.id
  | .flush _ _ _ => .flushComplete o.id
  | .rmode _ _ => .rmodeComplete o.id
  | .copy _ _ _ | .rows _ _ _ _ | .compact _ _ | .pfetch _ _ => .copyComplete o.id
  | .mma _ _ _ _ accepted _ _ => if accepted then .mmaGrant (((s.team? o.team).map fun t => clusterOf t.core).getD 0) else .mmaAccept o.id
  | .tile _ _ => .tileInstrEffect o.id
  | .tileRows _ _ _ _ _ _ _ => .tileRowsComplete o.id
  | .colload _ _ => .colloadComplete o.id
  | .qcopy _ _ _ _ _ => .qcopyComplete o.id
  | .hacq _ _ => .tenureGrant o.id
  | .hrel _ _ => .hrelEffect o.id
  | .key _ _ _ _ _ _ | .krebal _ _ => .keyUnitStep o.id
  | .list _ _ _ _ _ => .workListStep o.id

/-- The events that may change a wave without its issue. -/
def waveEvents (s : State) (w : Wave) : List Instr :=
  (match w.state, w.block with
    | .blocked, some (.monitor _ _) =>
      match s.monitors.find? fun m => m.wave == w.id with
      | some m => if m.hit then [.monitorWake w.id] else []
      | none => [.monitorRepoll w.id]
    | .ready, _ => (if w.fence.isSome then [.fenceComplete w.id] else []) ++ (if w.frontier = [] then [.waveRetire w.id] else [])
    | _, _ => []) ++
  if w.isReady && !w.boost then [.ageBoost w.id] else []

/-- The steps of the caches that are open: a slice admits a request that waits, the answer to an admitted one arrives, and a core asks for
the exclusive state of a word that it holds a store to. -/
def cacheEvents (s : State) : List Instr :=
  ((s.fills.filter fun f => !f.queued).map (·.slice)).dedup.map (fun n => .sliceAdmit (n / 64) (n % 64)) ++
  (s.fills.filter fun f => f.queued && f.op.isNone).map (fun f => .cacheFillArrive f.core ⟨f.frame, f.start, f.excl⟩) ++
  s.pend.map fun e => .cacheFillArrive e.core ⟨e.word / 16, e.word % 16, true⟩

/-- The ordered choices of n cores of one cluster of a partition. -/
def coreChoices (p : Partition) (n : Nat) : List (List Nat) :=
  p.clusters.flatMap fun k => pick n ((List.range 4).map (4 * k + ·))

/-- The events that may change a grid, and the places open to its next teams. -/
def gridEvents (s : State) (g : Grid) : List Instr :=
  (if g.aggregating then [.aggregatorRelease g.id] else []) ++
  (if (g.state = .halted ∨ g.state = .completed) ∧ g.hullReq.isSome then [.hullWrite g.id] else []) ++
  (if g.waiting then
    .placementWaitExpiry g.id :: (match s.part? g.part with
      | some p => ((coreChoices p (g.nextGroup.length * g.launch.cores)).filter (groupFits s g g.nextGroup)).map (.teamPlace g.id)
      | none => [])
  else [])

/-- The events that save or restore a team. -/
def teamEvents (s : State) (t : Team) : List Instr :=
  match s.grid? t.grid with
  | none => []
  | some g =>
    match s.part? g.part with
    | none => []
    | some p =>
      if t.state = .resident ∧ (t.saveReq ∨ p.haltReq) then [.teamSave t.id]
      else if mayRestore s t g then
        let ts := placedWith s t
        ((coreChoices p ts.length).filter (restoreFits s g ts)).map (.teamRestore t.id)
      else []

/-- The events of a keyspace: those of its rebalance, and its unbinding once nothing holds it back (15 R360). -/
def keyspaceEvents (k : Keyspace) : List Instr :=
  match k.rebalance with
  | none => if k.unbindReq then [.setupUnbindKeyspace k.part k.k] else []
  | some _ => [.bisectorSnapshot k.part k.k, .cutAnnounce k.part k.k, .patchHandOver k.part k.k, .bisectorStopShort k.part k.k,
      .cutCommit k.part k.k]

/-- The command that a mailbox waits to have performed (21 Table 21-7). -/
def boxEvents (bar0 : Bool) (b : Mailbox) : List Instr :=
  if b.busy then
    match b.opcode with
    | 1 => [.partset bar0]
    | 2 => [.partfree bar0]
    | 3 => [.parthalt bar0]
    | 4 => [.partrun bar0]
    | 5 => [.regtag bar0]
    | 6 => [.keyload bar0]
    | 7 => [.unitread bar0]
    | 8 => [.pwrlimit bar0]
    | 9 => [.sharedset bar0]
    | _ => []
  else []

/-- The events of the device itself that are open. What the outside does and errors come only through the agenda. Log entry 78 (DEDUCED). -/
def eventMoves (s : State) : List Instr :=
  s.ops.map (opEvent s) ++ s.waves.flatMap (waveEvents s) ++ s.grids.flatMap (gridEvents s) ++ s.teams.flatMap (teamEvents s) ++
  cacheEvents s ++ s.held.map (fun h => .signatureCompare h.wave) ++
  s.parts.map (fun p => .launchTake p.id) ++ s.ctxs.map (fun c => .faultRecordWrite c.id) ++
  s.arrivals.map (fun a => .pendingArrivalApply (((s.team? a.team).map (·.core)).getD 0)) ++
  s.tenures.flatMap (fun t => [.tenureRecall t.ctx t.index false, .tenureRecall t.ctx t.index true]) ++
  s.keyspaces.flatMap keyspaceEvents ++ (s.out.links.filter fun l => l.up && decide (16 ≤ l.resends)).map (fun l => .linkRetrain l.n) ++
  boxEvents true s.out.box ++ boxEvents false s.out.port

/-- Every move that is open. Log entry 2 (DESIGN CHOICE). -/
def moves (s : State) : List Turn := issueMoves s ++ (eventMoves s).map .event

/-- The move made where the agenda names none: a free choice among the open ones (log entry 2). -/
def pickMove (s : State) : Option Turn := (moves s)[Config.choice s.tick % (moves s).length]?

end Sys2Proof.Machine
end

