-- ==== Sys2Proof/Machine/Step.lean ====
section
/-! DEFINITION. One step: the head of the agenda moves, or else a free choice of the open moves; and the state in which a
given word is the next instruction. -/

namespace Sys2Proof.Machine

noncomputable section

/-- One turn: an event happens, or a wave issues the instruction its code holds. A wave that may not issue leaves the
state as it is. Log entry 2 (DESIGN CHOICE). -/
def runTurn (s : State) (t : Turn) : Host.Outcome State Fault Refusal :=
  match t with
  | .event i => exec i s.awake
  | .issue w =>
    match fetchTurn s w with
    | none => .next s
    | some (s', none) => .next s'
    | some (s', some i) => exec i s'

/-- One step of the machine: the heads of the launch queues that have become ready are noted (14 R345), and one move is made.
Log entry 2 (DESIGN CHOICE). -/
def step (s : State) : Host.Outcome State Fault Refusal :=
  let s := noteReady s
  match s.agenda with
  | t :: rest => runTurn { s with agenda := rest } t
  | [] =>
    match pickMove s with
    | some t => runTurn s.bump t
    | none => .next s

/-- `s` with the instruction of the bits `w` where the next step fetches (log entry 3). -/
def State.withFetchWord (s : State) (_nbits w : Nat) : State := placeWord s w

end

end Sys2Proof.Machine
end

