-- ==== Sys2Proof/Safety.lean ====
section
/-! DEFINITION. What a safe step and a sound state are, and the words in which statements say that an instruction runs, what
it writes and what it leaves alone. -/

namespace Sys2Proof

open Machine

/-- A step that goes on: neither a fault of the model nor a refusal. -/
def StepsOn (s : Machine.State) : Prop := ∃ t, Machine.step s = .next t

/-- Two blocks of one frame in one cache hold no word in common (09 R244, R246). -/
abbrev Apart (a b : CBlock) : Prop :=
  a.cache = b.cache → a.frame = b.frame → a.start + a.words.length ≤ b.start ∨ b.start + b.words.length ≤ a.start

/-- Every block holds at least one word and lies within its frame, and no cache holds a word twice (09 R244). -/
abbrev SoundBlocks (l : List CBlock) : Prop := (∀ b ∈ l, b.words ≠ [] ∧ b.start + b.words.length ≤ 16) ∧ l.Pairwise Apart

/-- The stores that the L1s hold stand in the order in which they entered, and a number not yet given is above theirs. -/
abbrev SoundPends (s : Machine.State) : Prop := s.pend.Pairwise (fun a b => a.id < b.id) ∧ ∀ e ∈ s.pend, e.id < s.nextId

/-- The state keeps the canonical form of memory, the caches hold each word at most once, and the L1s hold their stores in order. -/
abbrev SoundMemory (s : Machine.State) : Prop := Machine.Memory.wf s.mem = true ∧ SoundBlocks s.blocks ∧ SoundPends s

/-- The wave that the state names issues at `c`, inside a clause body that holds an instruction of `len` bytes there, with
instructions left before its watchdog (04 R86, 14 R337). -/
structure Runs (s : Machine.State) (c : Issue) (len : Nat) : Prop where
  issues : issuing s = some c
  body : ∃ x, c.e.ctx = some x ∧ c.e.pc + len ≤ x.endPc
  left : c.w.left ≠ 0

/-- `s1` is the state in which an instruction issues that ends the rollback safety of its team's interval for a reason of Table 19-2 (0 for
none): what the interval has held back can be released, and has been (19 R433). -/
abbrev EndsSafety (s s1 : Machine.State) (reason : Nat) : Prop := s1 = unsafely s reason ∧ releaseWaits s reason = none

/-- Every register named lies below the wave's declared counts (04 R90). -/
abbrev Declared (c : Issue) (vs as : List Nat) : Prop :=
  (∀ r ∈ vs, r < c.g.launch.vregs) ∧ (∀ r ∈ as, r < c.g.launch.accs)

/-- No register named is poisoned in an active thread (19 R426). -/
abbrev Unpoisoned (c : Issue) (vs ss as : List Nat) : Prop :=
  (∀ r ∈ ss, Machine.get false c.w.sBad r = false) ∧
  ∀ t ∈ threads c.mask, (∀ r ∈ vs, Machine.get false c.w.vBad (32 * r + t) = false) ∧
    ∀ r ∈ as, Machine.get false c.w.aBad (32 * r + t) = false

/-- Nothing but the issuing wave has changed, and it is now `w`: memory, every other wave and every other piece of the
device stand as before, with every stalled wave given its turn. -/
def OnlyWave (s t : Machine.State) (c : Issue) (w : Wave) : Prop :=
  t.wave? c.w.id = some w ∧ (∀ i, i ≠ c.w.id → t.wave? i = s.wave? i) ∧
    t = { s with waves := t.waves, stalled := [] }

/-- The wave `w` after an instruction that retired from `c.w` with its position moved and nothing else changed but what the
record update before it names. -/
def Moved (c : Issue) (w' w : Wave) : Prop :=
  w = { w' with frontier := w.frontier, sel := w.sel, state := w.state, block := w.block,
                left := c.w.left - 1, retired := c.w.retired + 1 }

/-- A thread stands at a position of the frontier. -/
def StandsAt (l : List Entry) (th prio pc : Nat) : Prop := ∃ e ∈ l, e.mask.getLsbD th = true ∧ e.prio = prio ∧ e.pc = pc

/-- Each active thread of the issue stands at its own target, with priority `prio`; every other thread stands where it did. -/
def Jumped (c : Issue) (w : Wave) (prio : Nat) (f : Nat → Nat) : Prop :=
  ∀ th < 32, ∀ p q, StandsAt w.frontier th p q ↔
    if c.mask.getLsbD th then p = prio ∧ q = f th else StandsAt c.w.frontier th p q

/-- The wave `w` after an instruction of `len` bytes that retired as an ordinary one does: as `Moved`, and the active threads stand past
the instruction, with the priority they had (04 R86). -/
def Passed (c : Issue) (len : Nat) (w' w : Wave) : Prop := Moved c w' w ∧ Jumped c w c.e.prio fun _ => c.e.pc + len

/-- A vector instruction has run: it answers a next state in which each active thread holds in `d` what `R` says, sources
marked last-use read as poison there, FPSTICKY has gained `fl`, SEED is `seed`, and every other register of every thread,
every other field of the wave and the rest of the device is as before. -/
def VecDone (i : Instr) (s : Machine.State) (c : Issue) (len d : Nat) (used : List Nat) (fl : Sticky) (seed : Word)
    (R : Nat → Word → Prop) : Prop :=
  ∃ t w, exec i s = .next t ∧ OnlyWave s t c w ∧
    Passed c len { c.w with v := w.v, vBad := w.vBad, vDirty := w.vDirty, sticky := c.w.sticky ||| fl, seed := seed } w ∧
    ∀ r th, th < 32 →
      if c.mask.getLsbD th ∧ r = d then R th (w.getV r th) ∧ Machine.get false w.vBad (32 * r + th) = false
      else if c.mask.getLsbD th ∧ r ∈ used then w.getV r th = poisonValue r
      else w.getV r th = c.w.getV r th

/-- A vector instruction that reads memory has run: as `VecDone`, with the rest of the device as in `s0`, which is `s` with the
ACCESSED bits of the pages it read. -/
def VecDoneIn (i : Instr) (s s0 : Machine.State) (c : Issue) (len d : Nat) (used : List Nat) (fl : Sticky) (seed : Word)
    (R : Nat → Word → Prop) : Prop :=
  ∃ t w, exec i s = .next t ∧ OnlyWave s0 t c w ∧
    Passed c len { c.w with v := w.v, vBad := w.vBad, vDirty := w.vDirty, sticky := c.w.sticky ||| fl, seed := seed } w ∧
    ∀ r th, th < 32 →
      if c.mask.getLsbD th ∧ r = d then R th (w.getV r th) ∧ Machine.get false w.vBad (32 * r + th) = false
      else if c.mask.getLsbD th ∧ r ∈ used then w.getV r th = poisonValue r
      else w.getV r th = c.w.getV r th

/-- A uniform instruction has run: `d` holds what `R` says, sources marked last-use read as poison, and everything else is
as before. -/
def UniDone (i : Instr) (s : Machine.State) (c : Issue) (len d : Nat) (used : List Nat) (R : Word → Prop) : Prop :=
  ∃ t w, exec i s = .next t ∧ OnlyWave s t c w ∧
    Passed c len { c.w with s := w.s, sBad := w.sBad } w ∧
    ∀ r, if r = d then R (w.getS r) ∧ Machine.get false w.sBad r = false
      else if r ∈ used then w.getS r = poisonValue r
      else w.getS r = c.w.getS r

/-- A predicate-writing instruction has run: `pd` holds `f` in each active thread, the vector and uniform sources marked
last-use read as poison, FPSTICKY has gained `fl`, and everything else is as before. -/
def PredDone (i : Instr) (s : Machine.State) (c : Issue) (len pd : Nat) (vused sused : List Nat) (fl : Sticky)
    (f : Nat → Prop) : Prop :=
  ∃ t w, exec i s = .next t ∧ OnlyWave s t c w ∧
    Passed c len { c.w with p := w.p, v := w.v, vBad := w.vBad, vDirty := w.vDirty, s := w.s, sBad := w.sBad, sticky := c.w.sticky ||| fl } w ∧
    (∀ p th, th < 32 →
      if c.mask.getLsbD th ∧ p = pd then (w.getP p th = true ↔ f th) else w.getP p th = c.w.getP p th) ∧
    (∀ r th, th < 32 →
      w.getV r th = if c.mask.getLsbD th ∧ r ∈ vused then poisonValue r else c.w.getV r th) ∧
    ∀ r, w.getS r = if r ∈ sused then poisonValue r else c.w.getS r

/-- An accumulator instruction has run: each active thread's accumulator `d` holds what `R` says, vector sources marked
last-use read as poison, FPSTICKY has gained `fl`, and everything else is as before. -/
def AccDone (i : Instr) (s : Machine.State) (c : Issue) (len d : Nat) (used : List Nat) (fl : Sticky)
    (R : Nat → BitVec 128 → Prop) : Prop :=
  ∃ t w, exec i s = .next t ∧ OnlyWave s t c w ∧
    Passed c len { c.w with a := w.a, aBad := w.aBad, aDirty := w.aDirty, v := w.v, vBad := w.vBad, vDirty := w.vDirty, sticky := c.w.sticky ||| fl } w ∧
    (∀ r th, th < 32 →
      if c.mask.getLsbD th ∧ r = d then R th (w.getA r th) else w.getA r th = c.w.getA r th) ∧
    ∀ r th, th < 32 →
      w.getV r th = if c.mask.getLsbD th ∧ r ∈ used then poisonValue r else c.w.getV r th

/-! ## What an operation's result is to its operands (06 Tables 06-1 and 06-2) -/

/-- A relation between the operands and the result of one sub-element of width w. -/
abbrev ElemRel := Nat → Nat → Nat → Nat → Prop

/-- a + b modulo 2^w. -/
def addR : ElemRel := fun w a b r => r = (a + b) % 2 ^ w
/-- The result and b add up to a modulo 2^w. -/
def subR : ElemRel := fun w a b r => (r + b) % 2 ^ w = a
/-- The low w bits of the exact product. -/
def mulR : ElemRel := fun w a b r => r = a * b % 2 ^ w
/-- The high half of the exact signed product. -/
def mulhiSR : ElemRel := fun w a b r => toSigned w r = toSigned w a * toSigned w b / (2 ^ w : Nat)
/-- The high half of the exact unsigned product. -/
def mulhiUR : ElemRel := fun w a b r => r = a * b / 2 ^ w
/-- The lesser, compared as signed. -/
def minSR : ElemRel := fun w a b r => toSigned w r = min (toSigned w a) (toSigned w b)
/-- The lesser, compared as unsigned. -/
def minUR : ElemRel := fun _ a b r => r = min a b
/-- The greater, compared as signed. -/
def maxSR : ElemRel := fun w a b r => toSigned w r = max (toSigned w a) (toSigned w b)
/-- The greater, compared as unsigned. -/
def maxUR : ElemRel := fun _ a b r => r = max a b
/-- a moved left by b mod w places, zeros entering. -/
def shlR : ElemRel := fun w a b r => ∀ i < w, r.testBit i = (decide (b % w ≤ i) && a.testBit (i - b % w))
/-- a moved right by b mod w places, zeros entering. -/
def shrUR : ElemRel := fun w a b r => ∀ i < w, r.testBit i = (decide (i + b % w < w) && a.testBit (i + b % w))
/-- a moved right by b mod w places, copies of the sign bit entering. -/
def shrSR : ElemRel := fun w a b r => ∀ i < w, r.testBit i = a.testBit (min (i + b % w) (w - 1))

/-- a and b, bitwise. -/
def andR : ElemRel := fun _ a b r => r = a &&& b
/-- a or b, bitwise. -/
def orR : ElemRel := fun _ a b r => r = a ||| b
/-- a exclusive-or b, bitwise. -/
def xorR : ElemRel := fun _ a b r => r = a ^^^ b

noncomputable section

/-- A row of a table of packed integer instructions: the instruction, the width of its sub-elements, and what each computes. -/
abbrev IntRow := Instr × Nat × ElemRel

/-- The packed forms on 8-bit sub-elements. -/
def int8Rows (o : OpA) : List IntRow :=
  [(.vaddI8x8 o, 8, addR), (.vsubI8x8 o, 8, subR), (.vminI8x8 o, 8, minSR), (.vminN8x8 o, 8, minUR),
   (.vmaxI8x8 o, 8, maxSR), (.vmaxN8x8 o, 8, maxUR)]

/-- The packed forms on 16-bit sub-elements. -/
def int16x4Rows (o : OpA) : List IntRow :=
  [(.vaddI16x4 o, 16, addR), (.vsubI16x4 o, 16, subR), (.vminI16x4 o, 16, minSR), (.vminN16x4 o, 16, minUR),
   (.vmaxI16x4 o, 16, maxSR), (.vmaxN16x4 o, 16, maxUR)]

/-- The packed forms on 32-bit sub-elements. -/
def int32Rows (o : OpA) : List IntRow :=
  [(.vaddI32x2 o, 32, addR), (.vsubI32x2 o, 32, subR), (.vmulI32x2 o, 32, mulR), (.vmulhiI32x2 o, 32, mulhiSR),
   (.vmulhiN32x2 o, 32, mulhiUR), (.vminI32x2 o, 32, minSR), (.vminN32x2 o, 32, minUR), (.vmaxI32x2 o, 32, maxSR),
   (.vmaxN32x2 o, 32, maxUR), (.vshlI32x2 o, 32, shlR), (.vshrN32x2 o, 32, shrUR), (.vshrI32x2 o, 32, shrSR)]

/-- The forms on the whole register. -/
def int64Rows (o : OpA) : List IntRow :=
  [(.vaddI64 o, 64, addR), (.vsubI64 o, 64, subR), (.vmulI64 o, 64, mulR), (.vmulhiI64 o, 64, mulhiSR),
   (.vmulhiN64 o, 64, mulhiUR), (.vminI64 o, 64, minSR), (.vminN64 o, 64, minUR), (.vmaxI64 o, 64, maxSR),
   (.vmaxN64 o, 64, maxUR), (.vshlI64 o, 64, shlR), (.vshrN64 o, 64, shrUR), (.vshrI64 o, 64, shrSR)]

/-- The packed integer instructions without saturation. -/
def intRows (o : OpA) : List IntRow := int8Rows o ++ int16x4Rows o ++ int32Rows o ++ int64Rows o

/-- The saturating forms: signedness, whether it subtracts, and the width. -/
def satRows (o : OpA) : List (Instr × Bool × Bool × Nat) :=
  [(.vaddI8x8Sat o, true, false, 8), (.vaddN8x8Sat o, false, false, 8), (.vaddI16x4Sat o, true, false, 16),
   (.vaddN16x4Sat o, false, false, 16), (.vaddI32x2Sat o, true, false, 32), (.vaddN32x2Sat o, false, false, 32),
   (.vsubI32x2Sat o, true, true, 32), (.vsubN32x2Sat o, false, true, 32), (.vaddI64Sat o, true, false, 64),
   (.vaddN64Sat o, false, false, 64), (.vsubI64Sat o, true, true, 64), (.vsubN64Sat o, false, true, 64)]

/-- The least and the greatest value of the signed or unsigned w-bit type. -/
def rangeOf (sgn : Bool) (w : Nat) : Int × Int :=
  if sgn then (-(2 ^ (w - 1) : Nat), (2 ^ (w - 1) : Nat) - 1) else (0, (2 ^ w : Nat) - 1)

/-- The value of w bits read as signed or unsigned. -/
def readAs (sgn : Bool) (w x : Nat) : Int := if sgn then toSigned w x else (x % 2 ^ w : Nat)

/-- The exact sum or difference of two sub-elements. -/
def exactAddSub (sgn sub : Bool) (w a b : Nat) : Int :=
  if sub then readAs sgn w a - readAs sgn w b else readAs sgn w a + readAs sgn w b

/-- A value clamped to a range. -/
def clampTo (r : Int × Int) (i : Int) : Int := max r.1 (min r.2 i)

/-- The 64-bit bitwise forms and the moves of Format A. -/
def bitRows (o : OpA) : List (Instr × (Nat → Bool → Bool → Bool)) :=
  [(.vand o, fun _ a b => a && b), (.vor o, fun _ a b => a || b), (.vxor o, fun _ a b => a != b),
   (.vandn o, fun _ a b => a && !b)]

/-- The 16-bit packed integer forms, whose first source is their destination (04 R98). -/
def int16Rows (o : Op16) : List (Instr × ElemRel) :=
  [(.vaddI32x2C16 o, addR), (.vsubI32x2C16 o, subR), (.vmulI32x2C16 o, mulR), (.vshlI32x2C16 o, shlR),
   (.vshrN32x2C16 o, shrUR)]

/-- The uniform integer instructions of major 10. -/
def uniRows (o : OpA) : List (Instr × ElemRel) :=
  [(.saddI64 o, addR), (.ssubI64 o, subR), (.smulI64 o, mulR), (.smulhiI64 o, mulhiSR), (.smulhiN64 o, mulhiUR),
   (.sminI64 o, minSR), (.sminN64 o, minUR), (.smaxI64 o, maxSR), (.smaxN64 o, maxUR), (.sshlI64 o, shlR),
   (.sshrN64 o, shrUR), (.sshrI64 o, shrSR), (.sand o, andR), (.sor o, orR), (.sxor o, xorR)]

/-- The one-source integer instructions (06 Table 06-2). -/
def unaryRows (o : OpUI) : List (Instr × (Nat → Nat → Nat → Prop)) :=
  [(.vabs o, fun w a r => (r : Int) = |toSigned w a|),
   (.vneg o, fun w a r => (r + a) % 2 ^ w = 0),
   (.vnot o, fun w a r => ∀ i < w, r.testBit i = !a.testBit i),
   (.vpopc o, fun w a r => r = ((List.range w).filter fun i => a.testBit i).length),
   (.vclz o, fun w a r => r ≤ w ∧ (∀ i < w, w - r ≤ i → a.testBit i = false) ∧ (r < w → a.testBit (w - r - 1) = true)),
   (.vbrev o, fun w a r => ∀ i < w, r.testBit i = a.testBit (w - 1 - i))]

/-- A row of a table of packed floating-point instructions: the instruction, whether it also reads its destination, and the
result and flags of one sub-element from those of a, b and d. -/
abbrev FpRow := Instr × Bool × (Nat → Nat → Nat → Nat × Sticky)

/-- The eight Format A forms of one format (06 R157, R160): rne, subnormals honoured. -/
def fpRowsOf (F : Fmt) (add sub mul fma mn mnNan mx mxNan : Instr) : List FpRow :=
  [(add, false, fun a b _ => fpAdd F .rne false 0 a b), (sub, false, fun a b _ => fpSub F .rne false 0 a b),
   (mul, false, fun a b _ => fpMul F .rne false 0 a b), (fma, true, fun a b d => fpFma F .rne false 0 a b d),
   (mn, false, fun a b _ => fpMinMax F false false a b), (mnNan, false, fun a b _ => fpMinMax F false true a b),
   (mx, false, fun a b _ => fpMinMax F true false a b), (mxNan, false, fun a b _ => fpMinMax F true true a b)]

/-- The Format A floating-point instructions of each format. -/
def fpRows (o : OpA) : List (Fmt × List FpRow) :=
  [(f64, fpRowsOf f64 (.vfaddF64 o) (.vfsubF64 o) (.vfmulF64 o) (.vfmaF64 o) (.vfminF64 o) (.vfminF64Nan o)
      (.vfmaxF64 o) (.vfmaxF64Nan o)),
   (f32, fpRowsOf f32 (.vfaddF32x2 o) (.vfsubF32x2 o) (.vfmulF32x2 o) (.vfmaF32x2 o) (.vfminF32x2 o) (.vfminF32x2Nan o)
      (.vfmaxF32x2 o) (.vfmaxF32x2Nan o)),
   (f16, fpRowsOf f16 (.vfaddF16x4 o) (.vfsubF16x4 o) (.vfmulF16x4 o) (.vfmaF16x4 o) (.vfminF16x4 o) (.vfminF16x4Nan o)
      (.vfmaxF16x4 o) (.vfmaxF16x4Nan o)),
   (bf16, fpRowsOf bf16 (.vfaddBf16x4 o) (.vfsubBf16x4 o) (.vfmulBf16x4 o) (.vfmaBf16x4 o) (.vfminBf16x4 o)
      (.vfminBf16x4Nan o) (.vfmaxBf16x4 o) (.vfmaxBf16x4Nan o))]

/-- The 16-bit floating-point forms, whose first source is their destination (04 R98). -/
def fp16Rows (o : Op16) : List (Instr × Fmt × (Nat → Nat → Nat × Sticky)) :=
  [(.vfaddF32x2C16 o, f32, fpAdd f32 .rne false 0), (.vfsubF32x2C16 o, f32, fpSub f32 .rne false 0),
   (.vfmulF32x2C16 o, f32, fpMul f32 .rne false 0), (.vfminF32x2C16 o, f32, fpMinMax f32 false false),
   (.vfmaxF32x2C16 o, f32, fpMinMax f32 true false), (.vfaddF64C16 o, f64, fpAdd f64 .rne false 0)]

/-- The Format Q forms: whether they also read their destination, and the result of one sub-element. -/
def fpQRows (o : OpQ) : List (Instr × Bool × (Fmt → Rnd → Bool → Nat → Nat → Nat → Nat → Nat × Sticky)) :=
  [(.vfaddQ o, false, fun F r z u a b _ => fpAdd F r z u a b), (.vfsubQ o, false, fun F r z u a b _ => fpSub F r z u a b),
   (.vfmulQ o, false, fun F r z u a b _ => fpMul F r z u a b), (.vfmaQ o, true, fun F r z u a b d => fpFma F r z u a b d)]

/-- The one-source floating-point instructions (06 Table 06-3 and R163): the result of one sub-element. -/
def fpURows (o : OpU) : List (Instr × (Fmt → Nat → Nat × Sticky)) :=
  [(.vfabs o, fun F => fpSign F false), (.vfneg o, fun F => fpSign F true), (.vrcp o, fun F => special F 2),
   (.vrsqrt o, fun F => special F 3), (.vsqrt o, fun F => special F 4), (.vsin o, fun F => special F 5),
   (.vcos o, fun F => special F 6), (.vsinpi o, fun F => special F 7), (.vcospi o, fun F => special F 8),
   (.vexp2 o, fun F => special F 9), (.vlog2 o, fun F => special F 10), (.vtanh o, fun F => special F 11),
   (.vfrintn o, fun F => fpRint F .rne), (.vfrintz o, fun F => fpRint F .rtz), (.vfrintm o, fun F => fpRint F .rdn),
   (.vfrintp o, fun F => fpRint F .rup), (.vfclass o, fun F a => (fpClass F a, 0))]

/-- The compares of a register class, by condition (06 Table 06-7). -/
def vcmpRows (o : OpP) : List (Instr × Nat) :=
  [(.vceq o, 0), (.vcne o, 1), (.vclt o, 2), (.vcle o, 3), (.vcgt o, 4), (.vcge o, 5), (.vcord o, 6), (.vcunord o, 7),
   (.vcneu o, 8)]

/-- The uniform compares, by condition. -/
def scmpRows (o : OpP) : List (Instr × Nat) :=
  [(.sceq o, 0), (.scne o, 1), (.sclt o, 2), (.scle o, 3), (.scgt o, 4), (.scge o, 5), (.scord o, 6), (.scunord o, 7),
   (.scneu o, 8)]

/-- The two-source predicate instructions. -/
def predRows (o : OpPL) : List (Instr × (Bool → Bool → Bool)) :=
  [(.pand o, and), (.por o, or), (.pxor o, xor), (.pandn o, fun a b => a && !b)]

/-- The accumulate instructions on integers and on floating-point sub-elements (06 Table 06-9). -/
def amadFpRows (o : OpA) : List (Instr × Fmt × Fmt × Nat) :=
  [(.amadF16x4 o, f16, f32, 4), (.amadBf16x4 o, bf16, f32, 4), (.amadF32x2 o, f32, f64, 2)]

/-- The reductions, the inclusive and the exclusive scans, each with its operation. -/
def redRows (o : OpT) : List (Instr × RedOp) :=
  [(.vredAdd o, .add), (.vredMin o, .min), (.vredMax o, .max), (.vredAnd o, .and), (.vredOr o, .or), (.vredXor o, .xor)]
/-- The inclusive scans. -/
def scanRows (o : OpT) : List (Instr × RedOp) :=
  [(.vscanAdd o, .add), (.vscanMin o, .min), (.vscanMax o, .max), (.vscanAnd o, .and), (.vscanOr o, .or),
   (.vscanXor o, .xor)]
/-- The exclusive scans. -/
def scanxRows (o : OpT) : List (Instr × RedOp) :=
  [(.vscanxAdd o, .add), (.vscanxMin o, .min), (.vscanxMax o, .max), (.vscanxAnd o, .and), (.vscanxOr o, .or),
   (.vscanxXor o, .xor)]

/-- The shuffles, by the width of their sub-elements. -/
def shuffleRows (o : OpX) : List (Instr × Nat) :=
  [(.vshflN64 o, 64), (.vshflN32x2 o, 32), (.vshflN16x4 o, 16), (.vshflN8x8 o, 8)]

open Classical in
/-- SAT, where some of the n sub-elements of some active thread satisfies a test (06 R152). -/
def satIfAny (c : Issue) (n : Nat) (p : Nat → Nat → Prop) : Sticky :=
  if ∃ t ∈ threads c.mask, ∃ e < n, p t e then fSat else 0

end

/-- The vector registers of the wave with register `d` of the active threads replaced. -/
def putV (c : Issue) (d : Nat) (f : Nat → Word) : Nat → Nat → Word :=
  fun r th => if c.mask.getLsbD th ∧ r = d then f th else c.w.getV r th

/-- The predicates of the wave with predicate `p` of the active threads replaced. -/
def putP (c : Issue) (p : Nat) (f : Nat → Bool) : Nat → Nat → Bool :=
  fun q th => if c.mask.getLsbD th ∧ q = p then f th else c.w.getP q th

/-- The uniform registers of the wave with register `d` replaced. -/
def putS (c : Issue) (d : Nat) (x : Word) : Nat → Word := fun r => if r = d then x else c.w.getS r

/-- An instruction has run that reads and writes registers only: its wave's vector registers, uniform registers and
predicates are those given, and everything else is as before. -/
def RegsDone (i : Instr) (s : Machine.State) (c : Issue) (len : Nat) (V : Nat → Nat → Word) (S : Nat → Word) (P : Nat → Nat → Bool) : Prop :=
  ∃ t w, exec i s = .next t ∧ OnlyWave s t c w ∧
    Passed c len { c.w with v := w.v, vBad := w.vBad, vDirty := w.vDirty, s := w.s, sBad := w.sBad, p := w.p } w ∧
    (∀ r th, th < 32 → w.getV r th = V r th) ∧ (∀ r, w.getS r = S r) ∧ ∀ p th, th < 32 → w.getP p th = P p th

/-- The flag that an instruction chose stands for one, and has room (04 R88). -/
abbrev FlagFree (c : Issue) (fsel : BitVec 1) : Prop := c.flag fsel ≠ 15 ∧ c.w.getF (c.flag fsel) < 63

/-- A long-latency instruction has issued: an operation that `K` describes is in flight for its wave, the flag
chosen has counted up, sources marked last-use read as poison, SEED is `seed`, and everything else is as in `s0`, which is the
state it issues in with the ACCESSED and DIRTY bits of the pages it named. -/
def OpIssuedIn (i : Instr) (s s0 : Machine.State) (c : Issue) (flag : Nat) (used : List Nat) (seed : Word) (K : Op → Prop) :
    Prop :=
  ∃ t w o, exec i s = .next t ∧ t.wave? c.w.id = some w ∧ (∀ j, j ≠ c.w.id → t.wave? j = s0.wave? j) ∧
    t = { s0 with waves := t.waves, ops := s0.ops ++ [o], nextId := max s0.nextId (o.id + 1), stalled := [] } ∧
    o.id = c.s.nextId ∧ o.wave = c.w.id ∧ o.team = c.tm.id ∧ o.flag = flag ∧ K o ∧
    Passed c 4 { c.w with flags := w.flags, v := w.v, vBad := w.vBad, vDirty := w.vDirty, seed := seed } w ∧
    (∀ f, w.getF f = if f = flag then c.w.getF f + 1 else c.w.getF f) ∧
    ∀ r th, th < 32 → w.getV r th = if c.mask.getLsbD th ∧ r ∈ used then poisonValue r else c.w.getV r th

/-- A long-latency instruction that leaves SEED as it is has issued. -/
def OpIssued (i : Instr) (s s0 : Machine.State) (c : Issue) (flag : Nat) (used : List Nat) (K : OpKind → Prop) : Prop :=
  OpIssuedIn i s s0 c flag used c.w.seed fun o => K o.kind

/-- An engine operation has issued: it reads and writes the ranges given, and the stores that any L1 holds to words of its destination
are performed first, but for those that have to wait (09 R262, R263). -/
def EngineIssued (i : Instr) (s s0 : Machine.State) (c : Issue) (flag : Nat) (seed : Word) (kind : OpKind) (reads writes : List Rng) : Prop :=
  OpIssuedIn i s (takeWords s0 writes) c flag [] seed fun o => o.kind = kind ∧ o.reads = reads ∧ o.writes = writes

/-- The state of a wave once its flags stand as they do in `w'`: one that waits for flags that are clear now is Ready (02 Table 02-4). -/
def woken (w w' : Wave) : WState := ({ w with flags := w'.flags } : Wave).flagWake.state

/-- An operation in flight completes for its wave: the event answers a next state in which the operation is gone, its flag
has counted down, and of the wave only registers and flags have changed; `fence` is the number that stands in it for its last fence
or acquire. -/
def OpDoneAt (fence : Wave → Nat) (i : Instr) (s : Machine.State) (o : Op) (P : Machine.State → Wave → Prop) : Prop :=
  ∃ t w w', exec i s = .next t ∧ s.wave? o.wave = some w ∧ t.wave? o.wave = some w' ∧
    (∀ j, j ≠ o.wave → t.wave? j = s.wave? j) ∧ t.ops = s.ops.filter (fun x => x.id != o.id) ∧
    w' = { w with v := w'.v, vBad := w'.vBad, vDirty := w'.vDirty, s := w'.s, sBad := w'.sBad, flags := w'.flags, lvq := w'.lvq,
                  fenced := fence w, state := woken w w' } ∧
    (∀ f, w'.getF f = if f = o.flag then w.getF f - 1 else w.getF f) ∧ P t w'

/-- An operation that is no acquire completes for its wave. -/
def OpDone (i : Instr) (s : Machine.State) (o : Op) (P : Machine.State → Wave → Prop) : Prop := OpDoneAt Wave.fenced i s o P

noncomputable section

/-- The load forms: the instruction, its space, and its fields. -/
def loadForms (g : OpLdg) (p : OpLds) : List (Instr × Space × BitVec 3 × BitVec 6 × BitVec 1 × BitVec 6 × BitVec 4) :=
  [(.ldg g, .global, g.size, g.d, g.fsel, g.base, g.off), (.lds p, .own, p.size, p.d, p.fsel, p.base, p.off),
   (.ldc p, .cluster, p.size, p.d, p.fsel, p.base, p.off)]

/-- The store forms. -/
def storeForms (g : OpStg) (p : OpSts) :
    List (Instr × Space × BitVec 3 × BitVec 6 × BitVec 2 × Nat × BitVec 1 × BitVec 6 × BitVec 4) :=
  [(.stg g, .global, g.size, g.data, g.dcode, g.hint.toNat, g.fsel, g.base, g.off),
   (.sts p, .own, p.size, p.data, p.dcode, 0, p.fsel, p.base, p.off)]

/-- The atomics that return a value, and those that do not (11 Table 11-2). -/
def atomRows (o : OpN) : List (Instr × AtomOp × Bool) :=
  [(.atomAdd o, .add, true), (.atomAnd o, .and, true), (.atomOr o, .or, true), (.atomXor o, .xor, true),
   (.atomMinI o, .minI, true), (.atomMinN o, .minN, true), (.atomMaxI o, .maxI, true), (.atomMaxN o, .maxN, true),
   (.atomExch o, .exch, true), (.atomCas o, .cas, true), (.atomFadd o, .fadd, true), (.atomLdo o, .ldo, true),
   (.redAdd o, .add, false), (.redAnd o, .and, false), (.redOr o, .or, false), (.redXor o, .xor, false),
   (.redMinI o, .minI, false), (.redMinN o, .minN, false), (.redMaxI o, .maxI, false), (.redMaxN o, .maxN, false),
   (.redExch o, .exch, false), (.redCas o, .cas, false), (.redFadd o, .fadd, false), (.redSto o, .sto, false)]

end

/-- The address of a Format M access (11 R290): base plus the signed offset in units of the access size, in 64 bits. -/
def formAddr (c : Issue) (base : BitVec 6) (off : BitVec 4) (size : BitVec 3) (t : Nat) : Nat :=
  wrapN 64 ((baseVal c base.toNat t : Int) + off.toInt * (sizeBytes size.toNat : Nat))

/-- The value that a load of a size code leaves in a register, from the bytes it read (11 R291). -/
def loadedWord (size v : Nat) : Word :=
  if sizeSigned size then BitVec.ofInt 64 (toSigned (8 * sizeBytes size) v) else BitVec.ofNat 64 v

/-- The barrier word `id` of a team's allocation is `b`. -/
def BarrierIs (s : Machine.State) (team id b : Nat) : Prop := ∃ tm, s.team? team = some tm ∧ tm.barrier id = b

/-- Every barrier word of every team but this one is as it was. -/
def OtherBarriers (s t : Machine.State) (team id : Nat) : Prop :=
  ∀ tm k b, k < 32 → (tm ≠ team ∨ k ≠ id) → (BarrierIs t tm k b ↔ BarrierIs s tm k b)

/-- The issuing wave has earlier accesses neither in flight nor held back (11 R297). -/
abbrev Settled (c : Issue) : Prop :=
  (∀ e ∈ c.s.ops, e.wave = c.w.id → e.isCore = false ∧ e.isAcquire = false ∧ e.isKey = false) ∧ ∀ h ∈ c.s.held, h.wave ≠ c.w.id

/-- The wave `w` of the issue is Blocked on `b` with its PC at the instruction, and nothing else of it has changed. -/
def BlockedOn (t : Machine.State) (c : Issue) (b : Block) : Prop :=
  t.wave? c.w.id = some { c.w with state := .blocked, block := some b, sel := none }

/-- The wave `w` after an instruction that retired and wrote only the uniform registers listed. -/
def SetsS (c : Issue) (w : Wave) (l : List (Nat × Word)) : Prop :=
  Passed c 4 { c.w with s := w.s, sBad := w.sBad } w ∧
    ∀ r, w.getS r = match l.find? fun p => p.1 == r with
      | some p => p.2
      | none => c.w.getS r

/-- A descriptor of n bytes at a scratchpad offset may be used: aligned, inside the allocation, and with its STATUS clear of
armed barrier words (11 R306). -/
abbrev DescOk (c : Issue) (off n status : Nat) : Prop :=
  off % 64 = 0 ∧ off + n ≤ c.g.launch.spBytes ∧ c.tm.clobbers (off + status) 8 = false

/-- An instruction reads n bytes of its team's own scratchpad at an offset: each where its mapping puts it, readable and unmarked
(09 R242, 11 R306). -/
abbrev SpRead (c : Issue) (at' n : Nat) (r : Found) : Prop :=
  resolve c .own .read at' n = .ok r ∧ dataFault c [(⟨c.low, r.places, at'⟩, at')] = none

/-- The bytes that an issue reads at some places. -/
def bytesAt (c : Issue) (r : Found) : List (BitVec 8) := r.places.map (placeByte c.s c.w c.tm)

/-- The issue once it has read what its mappings name: the leaves of those pages are marked ACCESSED. -/
def touching (c : Issue) (r : Found) : Issue := { c with s := touchLeaves c.s c.tm.core false r.xs }

/-- The range scoreboard of the core has room for n more ranges (09 R263). -/
abbrev ScoreRoom (c : Issue) (n : Nat) : Prop :=
  ((c.s.ops.filter fun e => coreOf c.s e == some c.tm.core).map Op.slots).sum + n ≤ 32

/-- The sources whose operand code is last-use (04 R91). -/
def lastUse (srcs : List (Nat × BitVec 2)) : List Nat := (srcs.filter fun p => p.2 == 1).map (·.1)

/-- The flags that the active threads raise together (05 R131, 06 R152). -/
def allFlags (c : Issue) (f : Nat → Sticky) : Sticky := orAll ((threads c.mask).map f)

/-- The flags that the n sub-elements of a register raise together. -/
def elemFlags (n : Nat) (f : Nat → Sticky) : Sticky := orAll ((List.range n).map f)

/-- The issue stands at the last instruction of its clause body (04 R85). -/
def LastOf (c : Issue) : Prop := ∀ x, c.e.ctx = some x → c.e.pc + 4 = x.endPc

/-- A wave whose completion flag has counted down, with FPSTICKY raised and nothing else changed. -/
def FlagDown (w w' : Wave) (flag : Nat) (fl : Sticky) : Prop :=
  w' = { w with flags := w'.flags, sticky := w.sticky ||| fl, state := woken w w' } ∧ ∀ f, w'.getF f = if f = flag then w.getF f - 1 else w.getF f

/-- The operation of the wave `w`, one of a lone wave, whose issue is `c`. -/
structure Flying (s : Machine.State) (o : Op) (w : Wave) (c : Issue) : Prop where
  op : s.op? o.id = some o
  issue : opIssue s o = some c
  wave : s.wave? o.wave = some w
  role : w.role = .solo
  peer : c.tm.peer = none

/-- Fewer than four matrix operations of the issuing core are in the reservation table (08 R213). -/
abbrev MmaRoom (c : Issue) : Prop :=
  (c.s.ops.filter fun e => coreOf c.s e == some c.tm.core && (match e.kind with
    | .mma _ _ _ _ _ _ _ => true
    | _ => false)).length < 4

noncomputable section

/-- The key instructions that act on one key of each thread: the instruction, its minor, face, destination, key and amount
registers, and the registers it writes and reads (15 Table 15-5). -/
def keyRows (o : OpK12) (n : OpKneigh) (p : OpKcost) (r : OpFG2) :
    List (Instr × BitVec 1 × Nat × Nat × Nat × Nat × Nat × Nat × List Nat × List Nat) :=
  let k := o.k.toNat
  let a := o.f1.toNat
  let b := o.f2.toNat
  [(.krefine o, o.fsel, k, 0, 0, a, b, b, [a], [b]), (.kcoarsen o, o.fsel, k, 1, 0, a, b, b, [a], [b]),
   (.kneigh n, n.fsel, n.k.toNat, 2, n.face.toNat, n.f1.toNat, n.f2.toNat, n.f2.toNat, [n.f1.toNat, n.f1.toNat + 1], [n.f2.toNat]),
   (.kowner o, o.fsel, k, 3, 0, a, b, b, [a], [b]),
   (.kcost p, p.fsel, p.k.toNat, 4, 0, 0, p.f2.toNat, p.f3.toNat, [], [p.f2.toNat, p.f3.toNat]),
   (.kclaim o, o.fsel, k, 5, 0, a, b, b, [a], [b]),
   (.krelease r, r.fsel, r.g.toNat, 6, 0, 0, r.f2.toNat, r.f2.toNat, [], [r.f2.toNat]),
   (.kiter o, o.fsel, k, 7, 0, a, b, b, [a, a + 1], [b])]

end

/-- The fault of an instruction is taken and nothing else happens: the wave parks with its PC at the instruction, a record of kind 0
names the fault, the thread and that PC, and every register, flag and other piece of state is as before (04 R116, 18 R406). -/
def FaultTaken (i : Instr) (s : Machine.State) (c : Issue) (code : FaultCode) (thread addr : Nat) : Prop :=
  ∃ t, exec i s = .next t ∧
    t.wave? c.w.id = some { c.w with state := .parked, block := none, fence := none, held := false } ∧
    (∀ j, j ≠ c.w.id → t.wave? j = s.wave? j) ∧
    t = { s with waves := t.waves, records := s.records ++ [c.record 0 code.num thread c.e.pc addr 0], stalled := [] }

/-- A mailbox performs a command, at boot stage 4 (21 R466, Table 21-6). -/
def Commanded (s : Machine.State) (bar0 : Bool) (opcode : Nat) : Prop :=
  s.out.stage = 4 ∧ (s.boxOf bar0).busy = true ∧ (s.boxOf bar0).opcode = opcode

/-- The command of a mailbox is done: STATE is 2, REASON 0 and SEQ the command's, and the device stands as `P` says. -/
def CommandDone (i : Instr) (s : Machine.State) (bar0 : Bool) (P : Machine.State → Prop) : Prop :=
  ∃ t, exec i s = .next t ∧ (t.boxOf bar0).stat = ((s.boxOf bar0).finish 2 0).stat ∧ P t

/-- The command of a mailbox is refused for a reason, and nothing else changes. -/
def CommandRefused (i : Instr) (s : Machine.State) (bar0 : Bool) (reason : Nat) : Prop :=
  exec i s = .next (s.updBox bar0 fun b => b.finish 3 reason)

/-- Nothing stands in the way of an access from outside to n bytes: no tenure is held; no engine operation owns one of their words, no
team keeps one, and their homes take requests; and no grid's stamp is among them (09 R250, R259, R262; 10 R277; 14 R354; 19 R450). -/
abbrev OutsideClear (s : Machine.State) (loc n : Nat) : Prop :=
  s.tenures = [] ∧ outsideWaits s loc n = false ∧ ∀ g ∈ s.grids, stampAt s g loc n = false

/-- No stamp of a grid of another partition than the observer's stands in the words of some locations (14 R354). -/
abbrev StampsClear (s : Machine.State) (part : Option Nat) (locs : List Nat) : Prop :=
  ∀ g ∈ s.grids, some g.part ≠ part → ∀ l ∈ locs, stampAt s g (16 * (l / 16)) 16 = false

/-- The requests that operations other than this one have under way are the same. -/
def OtherRequests (s t : Machine.State) (id : Nat) : Prop :=
  t.fills.filter (fun f => f.op != some id) = s.fills.filter fun f => f.op != some id

/-- Memory with the n bytes of a number put at a location, little-endian. -/
def withBytes (m : Nat → BitVec 8) (loc n v : Nat) : Nat → BitVec 8 :=
  fun l => if loc ≤ l ∧ l < loc + n then BitVec.ofNat 8 (v / 2 ^ (8 * (l - loc))) else m l

noncomputable section

/-- Atomics on n bytes performed one after another, each at its location with its operands (11 R289, R293): what memory holds then, and
the old value that each has read. -/
def atomsInOrder (op : AtomOp) (n : Nat) : (Nat → BitVec 8) → List (Nat × Nat × Nat) → (Nat → BitVec 8) × List Nat
  | m, [] => (m, [])
  | m, (loc, x, y) :: l =>
    let old := leNat ((List.range n).map fun i => m (loc + i))
    let rest := atomsInOrder op n (withBytes m loc n ((atomNew op (8 * n) old x y).getD old)) l
    (rest.1, old :: rest.2)

end

/-- A stretch of memory holds the bytes listed, and every byte outside it is as it was. -/
def Stored (s t : Machine.State) (loc : Nat) (bs : List (BitVec 8)) : Prop :=
  ∀ l, readHome t l = if loc ≤ l ∧ l < loc + bs.length then bs.getD (l - loc) 0 else readHome s l

end Sys2Proof
end

