-- ==== Sys2Proof/WellFormed.lean ====
section
/-! DEFINITION. Well-formed instructions: those whose fields hold no reserved value. -/

namespace Sys2Proof

/-- Every field of `i` holds a value that its row permits (04 R90 to R95). -/
abbrev WellFormed (i : Instr) : Prop := legal i = true

end Sys2Proof
end

