-- ==== Sys2Proof/Certificates/Slice0/Obligations.lean ====
section
/-! DEFINITION. The statements for the provers. -/

open Sys2Proof Sys2Proof.Machine

/-! ## The lane instructions -/

/-- 06 R147, R150, R153 and Table 06-1: in each active thread every sub-element of d is what its row says of the matching
sub-elements of a and b; nothing else changes but sources marked last-use. -/
def Obligations.PackedIntegerResults : Prop :=
  ∀ (o : OpA) (s : State) (c : Issue), Runs s c 4 → o.ca ≠ 3 → o.cb ≠ 3 →
    Declared c [o.d.toNat, o.a.toNat, o.b.toNat] [] → Unpoisoned c [o.a.toNat, o.b.toNat] [] [] →
    ∀ row ∈ intRows o, VecDone row.1 s c 4 o.d.toNat (lastUse [(o.a.toNat, o.ca), (o.b.toNat, o.cb)]) 0 c.w.seed
      fun t r => ∀ e < 64 / row.2.1, row.2.2 row.2.1 (elem row.2.1 (c.w.getV o.a.toNat t) e)
        (elem row.2.1 (c.w.getV o.b.toNat t) e) (elem row.2.1 r e)

/-- 06 Table 06-1, saturating rows, and R152: the exact sum or difference clamped to the type's range, with SAT raised where
some sub-element of some active thread was clamped. -/
def Obligations.SaturatingResults : Prop :=
  ∀ (o : OpA) (s : State) (c : Issue), Runs s c 4 → o.ca ≠ 3 → o.cb ≠ 3 →
    Declared c [o.d.toNat, o.a.toNat, o.b.toNat] [] → Unpoisoned c [o.a.toNat, o.b.toNat] [] [] →
    ∀ row ∈ satRows o,
      let sgn := row.2.1
      let w := row.2.2.2
      let exact := fun t e => exactAddSub sgn row.2.2.1 w (elem w (c.w.getV o.a.toNat t) e) (elem w (c.w.getV o.b.toNat t) e)
      VecDone row.1 s c 4 o.d.toNat (lastUse [(o.a.toNat, o.ca), (o.b.toNat, o.cb)])
        (satIfAny c (64 / w) fun t e => clampTo (rangeOf sgn w) (exact t e) ≠ exact t e) c.w.seed
        fun t r => ∀ e < 64 / w, readAs sgn w (elem w r e) = clampTo (rangeOf sgn w) (exact t e)

/-- 06 Table 06-1: vand, vor, vxor and vandn act on each of the 64 bits; vmov copies a and vsplat copies a uniform
register into every active thread. -/
def Obligations.BitwiseAndMoveResults : Prop :=
  (∀ (o : OpA) (s : State) (c : Issue), Runs s c 4 → o.ca ≠ 3 → o.cb ≠ 3 →
    Declared c [o.d.toNat, o.a.toNat, o.b.toNat] [] → Unpoisoned c [o.a.toNat, o.b.toNat] [] [] →
    ∀ row ∈ bitRows o, VecDone row.1 s c 4 o.d.toNat (lastUse [(o.a.toNat, o.ca), (o.b.toNat, o.cb)]) 0 c.w.seed
      fun t r => ∀ i < 64, r.getLsbD i = row.2 i ((c.w.getV o.a.toNat t).getLsbD i) ((c.w.getV o.b.toNat t).getLsbD i)) ∧
  (∀ (o : OpDA) (s : State) (c : Issue), Runs s c 4 → o.ca ≠ 3 →
    Declared c [o.d.toNat, o.a.toNat] [] → Unpoisoned c [o.a.toNat] [] [] →
    VecDone (.vmov o) s c 4 o.d.toNat (lastUse [(o.a.toNat, o.ca)]) 0 c.w.seed fun t r => r = c.w.getV o.a.toNat t) ∧
  ∀ (o : OpDA) (s : State) (c : Issue), Runs s c 4 → o.ca ≠ 3 → Declared c [o.d.toNat] [] → Unpoisoned c [] [o.a.toNat] [] →
    RegsDone (.vsplat o) s c 4 (putV c o.d.toNat fun _ => c.w.getS o.a.toNat)
      (putS c o.a.toNat (if o.ca = 1 then poisonValue o.a.toNat else c.w.getS o.a.toNat)) c.w.getP

/-- 04 R98: the 16-bit forms act as their 32-bit forms with a = d, and every source plain. -/
def Obligations.ShortFormResults : Prop :=
  (∀ (s : State) (c : Issue), Runs s c 2 → RegsDone .nop s c 2 c.w.getV c.w.getS c.w.getP) ∧
  (∀ (o : Op16) (s : State) (c : Issue), Runs s c 2 → Declared c [o.d.toNat, o.b.toNat] [] →
    Unpoisoned c [o.b.toNat] [] [] → VecDone (.vmovC16 o) s c 2 o.d.toNat [] 0 c.w.seed fun t r => r = c.w.getV o.b.toNat t) ∧
  ∀ (o : Op16) (s : State) (c : Issue), Runs s c 2 → Declared c [o.d.toNat, o.b.toNat] [] →
    Unpoisoned c [o.d.toNat, o.b.toNat] [] [] →
    (∀ row ∈ int16Rows o, VecDone row.1 s c 2 o.d.toNat [] 0 c.w.seed fun t r => ∀ e < 2,
      row.2 32 (elem 32 (c.w.getV o.d.toNat t) e) (elem 32 (c.w.getV o.b.toNat t) e) (elem 32 r e)) ∧
    (∀ row ∈ fp16Rows o,
      let F := row.2.1
      let f := fun t e => row.2.2 (elem F.width (c.w.getV o.d.toNat t) e) (elem F.width (c.w.getV o.b.toNat t) e)
      VecDone row.1 s c 2 o.d.toNat [] (allFlags c fun t => elemFlags (64 / F.width) fun e => (f t e).2) c.w.seed
        fun t r => ∀ e < 64 / F.width, elem F.width r e = (f t e).1 % 2 ^ F.width) ∧
    VecDone (.vandC16 o) s c 2 o.d.toNat [] 0 c.w.seed (fun t r => r = c.w.getV o.d.toNat t &&& c.w.getV o.b.toNat t) ∧
    VecDone (.vorC16 o) s c 2 o.d.toNat [] 0 c.w.seed (fun t r => r = c.w.getV o.d.toNat t ||| c.w.getV o.b.toNat t) ∧
    VecDone (.vxorC16 o) s c 2 o.d.toNat [] 0 c.w.seed (fun t r => r = c.w.getV o.d.toNat t ^^^ c.w.getV o.b.toNat t)

/-- 06 R148, R153: a uniform instruction acts once, on 64-bit registers. -/
def Obligations.UniformResults : Prop :=
  (∀ (o : OpA) (s : State) (c : Issue), Runs s c 4 → o.ca ≠ 3 → o.cb ≠ 3 → Unpoisoned c [] [o.a.toNat, o.b.toNat] [] →
    ∀ row ∈ uniRows o, UniDone row.1 s c 4 o.d.toNat (lastUse [(o.a.toNat, o.ca), (o.b.toNat, o.cb)])
      fun r => row.2 64 (c.w.getS o.a.toNat).toNat (c.w.getS o.b.toNat).toNat r.toNat) ∧
  ∀ (o : OpDA) (s : State) (c : Issue), Runs s c 4 → o.ca ≠ 3 → Unpoisoned c [] [o.a.toNat] [] →
    UniDone (.smov o) s c 4 o.d.toNat (lastUse [(o.a.toNat, o.ca)]) fun r => r = c.w.getS o.a.toNat

/-- 06 R155, R156; 04 R104, R105: the immediates of majors 11 and 12. -/
def Obligations.ImmediateResults : Prop :=
  (∀ (o : OpI) (s : State) (c : Issue), Runs s c 4 →
    (Unpoisoned c [] [o.a.toNat] [] →
      UniDone (.saddi o) s c 4 o.d.toNat [] (fun r => r.toNat = ((c.w.getS o.a.toNat).toNat + wrapN 64 o.imm.toInt) % 2 ^ 64) ∧
      UniDone (.sandi o) s c 4 o.d.toNat [] fun r => r.toNat = (c.w.getS o.a.toNat).toNat &&& o.imm.toNat) ∧
    (Declared c [o.d.toNat, o.a.toNat] [] → Unpoisoned c [o.a.toNat] [] [] →
      VecDone (.vaddiI32x2 o) s c 4 o.d.toNat [] 0 c.w.seed
        (fun t r => ∀ e < 2, elem 32 r e = (elem 32 (c.w.getV o.a.toNat t) e + wrapN 32 o.imm.toInt) % 2 ^ 32) ∧
      VecDone (.vaddiI64 o) s c 4 o.d.toNat [] 0 c.w.seed
        fun t r => r.toNat = ((c.w.getV o.a.toNat t).toNat + wrapN 64 o.imm.toInt) % 2 ^ 64)) ∧
  ∀ (o : OpL) (s : State) (c : Issue), Runs s c 4 →
    UniDone (.smovz o) s c 4 o.d.toNat [] (fun r => r.toNat = o.imm.toNat) ∧
    UniDone (.smovs o) s c 4 o.d.toNat [] (fun r => r.toInt = o.imm.toInt) ∧
    (Unpoisoned c [] [o.d.toNat] [] → ∀ row ∈ [(Instr.smovk16 o, 16), (.smovk32 o, 32), (.smovk48 o, 48)],
      UniDone row.1 s c 4 o.d.toNat [] fun r => ∀ i < 64, r.getLsbD i =
        if row.2 ≤ i ∧ i < row.2 + 16 then o.imm.getLsbD (i - row.2) else (c.w.getS o.d.toNat).getLsbD i) ∧
    (Declared c [o.d.toNat] [] →
      VecDone (.vmovz o) s c 4 o.d.toNat [] 0 c.w.seed (fun _ r => r.toNat = o.imm.toNat) ∧
      VecDone (.vmovs o) s c 4 o.d.toNat [] 0 c.w.seed (fun _ r => r.toInt = o.imm.toInt) ∧
      (Unpoisoned c [o.d.toNat] [] [] → ∀ row ∈ [(Instr.vmovk16 o, 16), (.vmovk32 o, 32), (.vmovk48 o, 48)],
        VecDone row.1 s c 4 o.d.toNat [] 0 c.w.seed fun t r => ∀ i < 64, r.getLsbD i =
          if row.2 ≤ i ∧ i < row.2 + 16 then o.imm.getLsbD (i - row.2) else (c.w.getV o.d.toNat t).getLsbD i))

/-- 06 R154, Table 06-2. -/
def Obligations.UnaryIntegerResults : Prop :=
  ∀ (o : OpUI) (s : State) (c : Issue), Runs s c 4 → o.ca ≠ 3 →
    Declared c [o.d.toNat, o.a.toNat] [] → Unpoisoned c [o.a.toNat] [] [] →
    let w := if o.t = 0 then 32 else 64
    ∀ row ∈ unaryRows o, VecDone row.1 s c 4 o.d.toNat (lastUse [(o.a.toNat, o.ca)]) 0 c.w.seed
      fun t r => ∀ e < 64 / w, row.2 w (elem w (c.w.getV o.a.toNat t) e) (elem w r e)

/-- 06 R152, R157, R160: the Format A floating-point forms, with the flags that their elements raise. -/
def Obligations.FloatingPointResults : Prop :=
  ∀ (o : OpA) (s : State) (c : Issue), Runs s c 4 → o.ca ≠ 3 → o.cb ≠ 3 →
    Declared c [o.d.toNat, o.a.toNat, o.b.toNat] [] → Unpoisoned c [o.a.toNat, o.b.toNat] [] [] →
    ∀ table ∈ fpRows o, ∀ row ∈ table.2, (row.2.1 = true → Unpoisoned c [o.d.toNat] [] []) →
      let F := table.1
      let f := fun t e => row.2.2 (elem F.width (c.w.getV o.a.toNat t) e) (elem F.width (c.w.getV o.b.toNat t) e)
        (elem F.width (c.w.getV o.d.toNat t) e)
      VecDone row.1 s c 4 o.d.toNat (lastUse [(o.a.toNat, o.ca), (o.b.toNat, o.cb)])
        (allFlags c fun t => elemFlags (64 / F.width) fun e => (f t e).2) c.w.seed
        fun t r => ∀ e < 64 / F.width, elem F.width r e = (f t e).1 % 2 ^ F.width

/-- 04 R100, 05 R127, 06 R157: the Format Q forms, whose SEED advances once under rs. -/
def Obligations.RoundedFormResults : Prop :=
  ∀ (o : OpQ) (s : State) (c : Issue), Runs s c 4 → WellFormed (.vfaddQ o) →
    Declared c [o.d.toNat, o.a.toNat, o.b.toNat] [] → Unpoisoned c [o.a.toNat, o.b.toNat] [] [] →
    ∀ row ∈ fpQRows o, (row.2.1 = true → Unpoisoned c [o.d.toNat] [] []) →
      let F := fmtOf o.t
      let rnd := rndOf o.rnd.toNat
      let f := fun t e => row.2.2 F rnd (o.ftz == 1) (draw (seedStep c.w.seed) t e)
        (elem F.width (c.w.getV o.a.toNat t) e) (elem F.width (c.w.getV o.b.toNat t) e) (elem F.width (c.w.getV o.d.toNat t) e)
      VecDone row.1 s c 4 o.d.toNat [] (allFlags c fun t => elemFlags (64 / F.width) fun e => (f t e).2)
        (if rnd = .rs then seedStep c.w.seed else c.w.seed)
        fun t r => ∀ e < 64 / F.width, elem F.width r e = (f t e).1 % 2 ^ F.width

/-- 06 R161 to R164: the one-source floating-point forms.
It rests on the choices of log entry 4. -/
def Obligations.OneSourceResults : Prop :=
  ∀ (o : OpU) (s : State) (c : Issue), Runs s c 4 → o.ca ≠ 3 →
    Declared c [o.d.toNat, o.a.toNat] [] → Unpoisoned c [o.a.toNat] [] [] →
    ∀ row ∈ fpURows o,
      let F := fmtOf o.t
      let f := fun t e => row.2 F (elem F.width (c.w.getV o.a.toNat t) e)
      VecDone row.1 s c 4 o.d.toNat (lastUse [(o.a.toNat, o.ca)])
        (allFlags c fun t => elemFlags (64 / F.width) fun e => (f t e).2) c.w.seed
        fun t r => ∀ e < 64 / F.width, elem F.width r e = (f t e).1 % 2 ^ F.width

/-- 06 R167, R169: n = 64 / max(ws, wd) sub-elements are converted, the bits of d above n·wd are zero, and SEED advances at
every issue under rs.
It rests on the choices of log entry 19. -/
def Obligations.ConversionResults : Prop :=
  ∀ (o : OpC) (s : State) (c : Issue), Runs s c 4 → WellFormed (.vcvt o) →
    Declared c [o.d.toNat, o.a.toNat] [] → Unpoisoned c [o.a.toNat] [] [] →
      let src := cvtTy o.st.toNat
      let dst := cvtTy o.dt.toNat
      let n := 64 / max src.width dst.width
      let rnd := rndOf o.rnd.toNat
      let f := fun t e => cvt1 src dst rnd (o.sat == 1) (draw (seedStep c.w.seed) t e) (elem src.width (c.w.getV o.a.toNat t) e)
      VecDone (.vcvt o) s c 4 o.d.toNat (lastUse [(o.a.toNat, o.ca)])
        (allFlags c fun t => elemFlags n fun e => (f t e).2)
        (if rnd = .rs then seedStep c.w.seed else c.w.seed)
        fun t r => (∀ e < n, elem dst.width r e = (f t e).1 % 2 ^ dst.width) ∧ r.toNat < 2 ^ (n * dst.width)

/-- 06 R148, R170, R172, 04 R90: a compare sets pd in each active thread, and a uniform compare computes one outcome for all of them;
the predicate instructions, where p7 reads true and is never the destination. -/
def Obligations.CompareAndPredicateResults : Prop :=
  (∀ (o : OpP) (s : State) (c : Issue), Runs s c 4 →
    (Declared c [o.a.toNat, o.b.toNat] [] → Unpoisoned c [o.a.toNat, o.b.toNat] [] [] →
      ∀ row ∈ vcmpRows o, WellFormed row.1 →
        let f := fun t => cmpWord row.2 o.t.toNat (c.w.getV o.a.toNat t) (c.w.getV o.b.toNat t)
        PredDone row.1 s c 4 o.pd.toNat (lastUse [(o.a.toNat, o.ca)]) [] (allFlags c fun t => (f t).2) fun t => (f t).1 = true) ∧
    (Unpoisoned c [] [o.a.toNat, o.b.toNat] [] →
      ∀ row ∈ scmpRows o, WellFormed row.1 →
        let r := cmpWord row.2 o.t.toNat (c.w.getS o.a.toNat) (c.w.getS o.b.toNat)
        PredDone row.1 s c 4 o.pd.toNat [] (lastUse [(o.a.toNat, o.ca)]) r.2 fun _ => r.1 = true)) ∧
  (∀ (o : OpPL) (s : State) (c : Issue), Runs s c 4 → o.pd ≠ 7 → ∀ row ∈ predRows o,
    PredDone row.1 s c 4 o.pd.toNat [] [] 0 fun t => row.2 (c.w.getP o.pa.toNat t) (c.w.getP o.pb.toNat t) = true) ∧
  ∀ (o : OpPN) (s : State) (c : Issue), Runs s c 4 → o.pd ≠ 7 →
    PredDone (.pnot o) s c 4 o.pd.toNat [] [] 0 (fun t => c.w.getP o.pa.toNat t = false) ∧
    PredDone (.pmov o) s c 4 o.pd.toNat [] [] 0 fun t => c.w.getP o.pa.toNat t = true

/-- 06 R171. -/
def Obligations.SelectResult : Prop :=
  ∀ (o : OpE) (s : State) (c : Issue), Runs s c 4 → o.ca ≠ 3 → o.cb ≠ 3 →
    Declared c [o.d.toNat, o.a.toNat, o.b.toNat] [] → Unpoisoned c [o.a.toNat, o.b.toNat] [] [] →
    VecDone (.vsel o) s c 4 o.d.toNat (lastUse [(o.a.toNat, o.ca), (o.b.toNat, o.cb)]) 0 c.w.seed fun t r =>
      (c.w.getP o.p.toNat t = true → r = c.w.getV o.a.toNat t) ∧ (c.w.getP o.p.toNat t = false → r = c.w.getV o.b.toNat t)

/-- 06 R178, R179, Table 06-9: the accumulator file.
It rests on the choices of log entry 5. -/
def Obligations.AccumulatorResults : Prop :=
  (∀ (o : OpA) (s : State) (c : Issue), Runs s c 4 → o.ca ≠ 3 → o.cb ≠ 3 → o.d.toNat < 16 →
    Declared c [o.a.toNat, o.b.toNat] [o.d.toNat] → Unpoisoned c [o.a.toNat, o.b.toNat] [] [] →
    let used := lastUse [(o.a.toNat, o.ca), (o.b.toNat, o.cb)]
    AccDone (.amov o) s c 4 o.d.toNat used 0
      (fun t x => x = c.w.getV o.b.toNat t ++ c.w.getV o.a.toNat t) ∧
    (Unpoisoned c [] [] [o.d.toNat] →
      (∀ row ∈ [(Instr.amadI8x8 o, true), (.amadN8x8 o, false)],
        AccDone row.1 s c 4 o.d.toNat used 0 fun t x => ∀ j < 4,
          let p := fun k => readAs row.2 8 (elem 8 (c.w.getV o.a.toNat t) k) * readAs row.2 8 (elem 8 (c.w.getV o.b.toNat t) k)
          (accElem 32 x j : Int) = (accElem 32 (c.w.getA o.d.toNat t) j + p (2 * j) + p (2 * j + 1)) % (2 ^ 32 : Nat)) ∧
      (∀ row ∈ amadFpRows o,
        let F := row.2.1
        let G := row.2.2.1
        let a := fun t j => unpack F (elem F.width (c.w.getV o.a.toNat t) j)
        let b := fun t j => unpack F (elem F.width (c.w.getV o.b.toNat t) j)
        let z := fun t j => unpack G (accElem G.width (c.w.getA o.d.toNat t) j)
        let r := fun t j => convertFp G (addNum .rne (z t j) (mulNum (a t j) (b t j)).1).1 .rne false false 0
        AccDone row.1 s c 4 o.d.toNat used
          (allFlags c fun t => elemFlags row.2.2.2 fun j => (r t j).2 ||| sigFlag [a t j, b t j, z t j])
          fun t x => ∀ j < row.2.2.2, accElem G.width x j = (r t j).1 % 2 ^ G.width) ∧
      let f := fun t => amadF64 (c.w.getA o.d.toNat t) (c.w.getV o.a.toNat t) (c.w.getV o.b.toNat t)
      AccDone (.amadF64 o) s c 4 o.d.toNat used (allFlags c fun t => (f t).2) fun t x => x = (f t).1)) ∧
  (∀ (o : OpD) (s : State) (c : Issue), Runs s c 4 → o.d.toNat < 16 → Declared c [] [o.d.toNat] →
    AccDone (.azero o) s c 4 o.d.toNat [] 0 fun _ x => x = 0) ∧
  ∀ (o : OpAD) (s : State) (c : Issue), Runs s c 4 → o.a.toNat < 16 → Declared c [o.d.toNat] [o.a.toNat] →
    Unpoisoned c [] [] [o.a.toNat] →
    let a := c.w.getA o.a.toNat
    VecDone (.vnarrowLo o) s c 4 o.d.toNat [] 0 c.w.seed (fun t r => r = (a t).extractLsb' 0 64) ∧
    VecDone (.vnarrowHi o) s c 4 o.d.toNat [] 0 c.w.seed (fun t r => r = (a t).extractLsb' 64 64) ∧
    VecDone (.vnarrowI16x4Sat o) s c 4 o.d.toNat []
      (satIfAny c 4 fun t j => clampTo (-32768, 32767) (toSigned 32 (accElem 32 (a t) j)) ≠
        toSigned 32 (accElem 32 (a t) j)) c.w.seed
      (fun t r => ∀ j < 4, toSigned 16 (elem 16 r j) = clampTo (-32768, 32767) (toSigned 32 (accElem 32 (a t) j))) ∧
    let f := fun t j => convertFp f16 (unpack f32 (accElem 32 (a t) j)) .rne false false 0
    VecDone (.vnarrowF16x4 o) s c 4 o.d.toNat [] (allFlags c fun t => elemFlags 4 fun j => (f t j).2) c.w.seed
      fun t r => ∀ j < 4, elem 16 r j = (f t j).1 % 2 ^ 16

/-! ## Wave queries and the cross-lane instructions -/

/-- 07 R194, R195: a shuffle takes each sub-element from the active thread that its spec names, and keeps the old one where
that thread is not in the issue mask; p says whether every source was. A broadcast does the same with one uniform index. -/
def Obligations.ShuffleResults : Prop :=
  ∀ (o : OpX) (s : State) (c : Issue), Runs s c 4 → o.p ≠ 7 →
    (Declared c [o.d.toNat, o.a.toNat, o.b.toNat] [] → Unpoisoned c [o.a.toNat, o.b.toNat, o.d.toNat] [] [] →
      ∀ row ∈ shuffleRows o,
        let w := row.2
        let k := 64 / w
        let src := fun t e => elem w (c.w.getV o.b.toNat t) e % 32
        let se := fun t e => elem w (c.w.getV o.b.toNat t) e / 32 % k
        ∃ out : Nat → Word,
          (∀ t ∈ threads c.mask, ∀ e < k, elem w (out t) e =
            if c.mask.getLsbD (src t e) then elem w (c.w.getV o.a.toNat (src t e)) (se t e) else elem w (c.w.getV o.d.toNat t) e) ∧
          RegsDone row.1 s c 4 (putV c o.d.toNat out) c.w.getS
            (putP c o.p.toNat fun t => (List.range k).all fun e => c.mask.getLsbD (src t e))) ∧
    (Declared c [o.d.toNat, o.a.toNat] [] → Unpoisoned c [o.a.toNat] [o.b.toNat] [] →
      let src := (c.w.getS o.b.toNat).toNat % 32
      RegsDone (.vbcast o) s c 4
        (putV c o.d.toNat fun t => if c.mask.getLsbD src then c.w.getV o.a.toNat src else c.w.getV o.d.toNat t) c.w.getS
        (putP c o.p.toNat fun _ => c.mask.getLsbD src))

/-- 07 R193, R196, R197, Table 07-4: the wave queries; votes, ballots, the first active thread's value; and vcompact, which packs
the values of the active threads whose p is true into the lowest active threads. What vpasses gives where no good lane is left is the
model's choice (log entry 21), which none of these rules states. -/
def Obligations.QueryAndVoteResults : Prop :=
  (∀ (o : OpD) (s : State) (c : Issue), Runs s c 4 → Declared c [o.d.toNat] [] →
    let good := laneGood s c.tm.core (quadrantOf c.w.w)
    let g := min 16 ((List.range 17).filter fun i => good.getLsbD i).length
    VecDone (.vlanes o) s c 4 o.d.toNat [] 0 c.w.seed (fun _ r => r = BitVec.ofNat 64 g) ∧
    VecDone (.vpasses o) s c 4 o.d.toNat [] 0 c.w.seed
      (fun _ r => r = BitVec.ofNat 64 (max 1 (((threads c.mask).length + g - 1) / g))) ∧
    VecDone (.vtid o) s c 4 o.d.toNat [] 0 c.w.seed (fun t r => r = BitVec.ofNat 64 t) ∧
    VecDone (.vlanemap o) s c 4 o.d.toNat [] 0 c.w.seed fun _ r => r.toNat = good.toNat) ∧
  (∀ (o : OpBal) (s : State) (c : Issue), Runs s c 4 →
    ∃ x : Word, (∀ i < 64, x.getLsbD i = (decide (i < 32) && c.mask.getLsbD i && c.w.getP o.p.toNat i)) ∧
      RegsDone (.vballot o) s c 4 c.w.getV (putS c o.d.toNat x) c.w.getP) ∧
  (∀ (o : OpVote) (s : State) (c : Issue), Runs s c 4 → o.p ≠ 7 →
    RegsDone (.vall o) s c 4 c.w.getV c.w.getS
      (putP c o.p.toNat fun _ => (threads c.mask).all fun t => c.w.getP o.pa.toNat t) ∧
    RegsDone (.vany o) s c 4 c.w.getV c.w.getS
      (putP c o.p.toNat fun _ => (threads c.mask).any fun t => c.w.getP o.pa.toNat t)) ∧
  (∀ (o : OpUni) (s : State) (c : Issue), Runs s c 4 → o.p ≠ 7 → Declared c [o.a.toNat] [] → Unpoisoned c [o.a.toNat] [] [] →
    ∃ u : Bool, (u = true ↔ ∀ t ∈ threads c.mask, ∀ t' ∈ threads c.mask, c.w.getV o.a.toNat t = c.w.getV o.a.toNat t') ∧
      RegsDone (.vuni o) s c 4 c.w.getV c.w.getS (putP c o.p.toNat fun _ => u)) ∧
  (∀ (o : OpAD) (s : State) (c : Issue), Runs s c 4 → Declared c [o.a.toNat] [] → Unpoisoned c [o.a.toNat] [] [] →
    (Declared c [o.d.toNat] [] → ∃ m : Nat → Word,
      (∀ t ∈ threads c.mask, ∀ i < 64, (m t).getLsbD i =
        (decide (i < 32) && c.mask.getLsbD i && decide (c.w.getV o.a.toNat i = c.w.getV o.a.toNat t))) ∧
      RegsDone (.vmatch o) s c 4 (putV c o.d.toNat m) c.w.getS c.w.getP) ∧
    RegsDone (.vrdfirst o) s c 4 c.w.getV
      (putS c o.d.toNat (c.w.getV o.a.toNat ((threads c.mask).headD 0))) c.w.getP) ∧
  ∀ (o : OpCmp) (s : State) (c : Issue), Runs s c 4 → Declared c [o.d.toNat, o.a.toNat] [] → Unpoisoned c [o.a.toNat] [] [] →
    let us := threads c.mask
    let ls := us.filter fun t => c.w.getP o.p.toNat t
    RegsDone (.vcompact o) s c 4
      (putV c o.d.toNat fun t => match ls[us.idxOf t]? with
        | some l => c.w.getV o.a.toNat l
        | none => c.w.getV o.d.toNat t) c.w.getS c.w.getP

/-- 07 R198, 05 R146: reductions and scans over the active threads, in the fixed tree; a value narrower than the register
leaves the bits above it unchanged.
It rests on the choices of log entry 18. -/
def Obligations.ReduceAndScanResults : Prop :=
  ∀ (o : OpT) (s : State) (c : Issue), Runs s c 4 →
    let ty := cmpTy o.t.toNat
    let w := ty.width
    Declared c [o.d.toNat, o.a.toNat] [] → Unpoisoned c [o.a.toNat] [] [] → (w ≠ 64 → Unpoisoned c [o.d.toNat] [] []) →
    let vals := activeVals c o.a.toNat w
    let low := fun (x : Nat) (t : Nat) (r : Word) =>
      r.toNat % 2 ^ w = x % 2 ^ w ∧ r.toNat / 2 ^ w = (c.w.getV o.d.toNat t).toNat / 2 ^ w
    (∀ row ∈ redRows o, WellFormed row.1 →
      VecDone row.1 s c 4 o.d.toNat (lastUse [(o.a.toNat, o.ca)]) (allFlags c fun _ => (redTree row.2 ty vals).2) c.w.seed
        (low ((redTree row.2 ty vals).1.getD (identity row.2 ty)))) ∧
    (∀ row ∈ scanRows o, WellFormed row.1 →
      VecDone row.1 s c 4 o.d.toNat (lastUse [(o.a.toNat, o.ca)]) (allFlags c fun _ => (scanTree row.2 ty vals).2) c.w.seed
        fun t r => low (((scanTree row.2 ty vals).1.getD t none).getD (identity row.2 ty)) t r) ∧
    ∀ row ∈ scanxRows o, WellFormed row.1 →
      VecDone row.1 s c 4 o.d.toNat (lastUse [(o.a.toNat, o.ca)]) (allFlags c fun _ => (scanTree row.2 ty vals).2) c.w.seed
        fun t r => low (if t = 0 then identity row.2 ty
          else ((scanTree row.2 ty vals).1.getD (t - 1) none).getD (identity row.2 ty)) t r

/-- 05 R146, 07 R198: on integers the tree of vred.add and the scan of vscan.add give the sum, modulo 2^w, of the values
present. -/
def Obligations.IntegerSumIsTree : Prop :=
  ∀ (sgn : Bool) (w : Nat) (vals : List (Option Nat)), vals.length = 32 → (∀ v ∈ vals, ∀ x ∈ v, x < 2 ^ w) →
    ((redTree .add (.int sgn w) vals).1.getD 0 = (vals.map (·.getD 0)).sum % 2 ^ w) ∧
    ∀ t < 32, vals.getD t none ≠ none →
      ((scanTree .add (.int sgn w) vals).1.getD t none).getD 0 = ((vals.take (t + 1)).map (·.getD 0)).sum % 2 ^ w

/-- 07 R199: each active thread's rank, and pd where the rank is below k. -/
def Obligations.TopKResult : Prop :=
  ∀ (o : OpK) (s : State) (c : Issue), Runs s c 4 → WellFormed (.vtopk o) →
    Declared c [o.d.toNat, o.a.toNat] [] → Unpoisoned c [o.a.toNat] [] [] →
    let above := fun u t => ranksAbove (o.abs == 1) (o.nanhi == 1) (cmpTy o.t.toNat) (c.w.getV o.a.toNat u).toNat
      (c.w.getV o.a.toNat t).toNat
    let rank := fun t => ((threads c.mask).filter fun u => above u t || (!above t u && decide (u < t))).length
    RegsDone (.vtopk o) s c 4 (putV c o.d.toNat fun t => BitVec.ofNat 64 (rank t)) c.w.getS
      (putP c o.pd.toNat fun t => decide (rank t < o.k.toNat + 1))

/-! ## Memory -/

/-- 11 R287, R290 to R292, 09 R245; 12 R325: a load whose addresses resolve, whose base is unpoisoned and whose words are unmarked
puts one operation in flight for all its active threads, and its flag counts up; what its core's L1 misses of the words that its
threads touch is asked for, frame by frame, with a run of LDHINT's length, or of the predictor's where that is 0.
It rests on the choices of log entries 9, 30, 85 and 92. -/
def Obligations.LoadIssues : Prop :=
  ∀ (g : OpLdg) (p : OpLds), ∀ row ∈ loadForms g p, WellFormed row.1 →
    let (i, sp, size, d, fsel, base, off) := row
    ∀ (s : State) (c : Issue), Runs s c 4 → c.w.role = .solo → c.w.finj = none → FlagFree c fsel →
      Declared c (dataRegs size.toNat d.toNat ++ baseV base.toNat) [] →
      Unpoisoned c (baseV base.toNat) (baseS base.toNat) [] →
      ∀ acc xs, resolveAll c sp .read (formAddr c base off size) (sizeBytes size.toNat) = .ok (acc, xs) →
        dataFault c acc = none →
        let how := loadHow c sp (if sp = .global then g.hint.toNat else 0) c.w xs
        OpIssued i s (askWords c.tm.core how (memWords (acc.map (·.1))) (touchLeaves s c.tm.core false xs)) c (c.flag fsel) []
          fun k => k = .load size.toNat d.toNat how (acc.map (·.1)) []

/-- 11 R291, R292; 09 R245, R249: where its core's L1 has every word of a load, its completion leaves in each thread's register
the bytes its access reads then, little-endian, extended as the size code says (a pair for 128 bits); no other register of the
wave changes, and no memory does. One piece of it, a word that one thread touches, may be read by itself, and the load then has
only the others still to read. A word that the L1 misses is asked for of its home slice with a run of the length proposed, which
takes its place in the slice's queue where that has room and waits outside it otherwise. Under conditions on the state and the
operands alone `exec` answers a next state for loadComplete.
It rests on the choices of log entries 8, 9 and 92. -/
def Obligations.LoadCompletes : Prop :=
  (∀ (s : State) (o : Op) (w : Wave) (tm : Team) (size d : Nat) (how : LoadHow) (acc : List Access),
    s.op? o.id = some o → o.kind = .load size d how acc [] → s.wave? o.wave = some w → s.team? o.team = some tm →
    canPerform s o = true → (s.tenures = [] ∨ how.hint ≠ 2) → (acc.map (·.thread)).Nodup → (∀ a ∈ acc, a.thread < 32) →
    (∀ a ∈ acc, ∀ p ∈ a.places, placeMark s tm p = .ok) → StampsClear s (partOfTeam s tm) (locsOf acc) →
    (∀ a ∈ acc, ∀ loc, .mem loc ∈ a.places → how.direct.contains (loc / 65536) = false ∧ pendBytes s tm.core (loc / 16) = [] ∧
      ∃ x, held? s tm.core (loc / 16) = some x ∧ x.isStale = false) →
    OpDone (.loadComplete ⟨o.id, none⟩) s o (fun t w' =>
      t = { s with waves := t.waves, ops := t.ops, blocks := t.blocks, fills := s.fills.filter fun f => f.op != some o.id } ∧
      (∀ a ∈ acc, let v := leNat (a.places.map (placeByte s w tm))
        if size = 7 then w'.getV d a.thread = BitVec.ofNat 64 v ∧ w'.getV (d + 1) a.thread = BitVec.ofNat 64 (v / 2 ^ 64)
        else w'.getV d a.thread = loadedWord size v) ∧
      (∀ r th, th < 32 → (th ∉ acc.map (·.thread) ∨ r ∉ dataRegs size d) → w'.getV r th = w.getV r th) ∧
      ∀ r, w'.getS r = w.getS r) ∧
    ∀ k p, o.pieces[k]? = some p → ∃ t o', exec (.loadComplete ⟨o.id, some k⟩) s = .next t ∧
      t = { s with ops := t.ops, blocks := t.blocks, fills := t.fills } ∧ OtherRequests s t o.id ∧ t.op? o.id = some o' ∧ o' = { o with kind := o'.kind } ∧
      ∀ q, q ∈ o'.pieces ↔ q ∈ o.pieces ∧ q ≠ p) ∧
  ∀ (s : State) (o : Op) (w : Wave) (tm : Team) (size d word : Nat) (how : LoadHow) (a : Access),
    s.op? o.id = some o → o.kind = .load size d how [a] [] → s.wave? o.wave = some w → s.team? o.team = some tm →
    canPerform s o = true → a.places ≠ [] → (∀ p ∈ a.places, ∃ loc, p = .mem loc ∧ loc / 16 = word) →
    (∀ p ∈ a.places, placeMark s tm p = .ok) → StampsClear s (partOfTeam s tm) [16 * word] → how.hint ≠ 3 → how.repl = false → how.direct = [] →
    held? s tm.core word = none → pendBytes s tm.core word = [] → tm.interval.buffer = [] → (∀ h ∈ s.held, h.wave ≠ w.id) →
    (∀ f ∈ s.fills, f.core = tm.core → f.frame ≠ word / 16) →
    ∃ t f, exec (.loadComplete ⟨o.id, none⟩) s = .next t ∧ t = { s with fills := s.fills ++ [f] } ∧ f.core = tm.core ∧
      f.slice = homeSlice s (partOfCore s tm.core) (256 * (word / 16)) ∧ f.frame = word / 16 ∧ f.start = word % 16 ∧
      f.len = min (16 - word % 16) (max how.lp 1) ∧ f.excl = false ∧ f.hint = how.hint ∧ f.op = none ∧ f.queued = slotFree s f.slice

/-- 11 R287, R290 to R292, 09 R240: a store whose addresses resolve for writing, that overlaps no armed barrier word and
whose operands are unpoisoned puts one operation in flight with the data of each active thread.
It rests on the choices of log entries 30 and 85. -/
def Obligations.StoreIssues : Prop :=
  ∀ (g : OpStg) (p : OpSts), ∀ row ∈ storeForms g p, WellFormed row.1 →
    let (i, sp, size, d, dcode, hint, fsel, base, off) := row
    ∀ (s : State) (c : Issue), Runs s c 4 → c.w.role = .solo → FlagFree c fsel →
      Declared c (dataRegs size.toNat d.toNat ++ baseV base.toNat) [] →
      Unpoisoned c (dataRegs size.toNat d.toNat ++ baseV base.toNat) (baseS base.toNat) [] →
      ∀ acc xs, resolveAll c sp .write (formAddr c base off size) (sizeBytes size.toNat) = .ok (acc, xs) →
        clobberFault c acc = none → failedFault c acc = none →
        OpIssued i s (touchLeaves s c.tm.core true xs) c (c.flag fsel)
          (if dcode = 1 then dataRegs size.toNat d.toNat else [])
          fun k => k = .store (storeHow c hint xs) (acc.map fun a => (a.1,
            packN 64 ((dataRegs size.toNat d.toNat).map fun r => (c.w.getV r a.1.thread).toNat) %
              2 ^ (8 * sizeBytes size.toNat)))

/-- 11 R289, R292; 09 R238, R240, R249, R266: at its completion a store of a team outside a rollback-safe interval is performed
in the core's own view, threads in ascending order, so that of two threads' bytes at one location the later stays; every other
byte that the core sees is unchanged, and so is every byte at its home where the core's L1 has no word of the store exclusive; a
word whose exclusive state the L1 lacks is then asked for. A piece of it that is performed by itself leaves the wave as it is. A
store to scratchpad outside the barrier words does the same in the allocation. Under conditions on the state and the operands alone
`exec` answers a next state for storeComplete.
It rests on the choices of log entries 8 and 92. -/
def Obligations.StoreCompletes : Prop :=
  (∀ (s : State) (o : Op) (w : Wave) (tm : Team) (how : StoreHow) (acc : List (Access × Nat)),
    SoundPends s → s.op? o.id = some o → o.kind = .store how acc → how.home = false → s.wave? o.wave = some w → w.role = .solo →
    s.team? o.team = some tm → tm.holds = false →
    (∀ a ∈ acc, ∀ p ∈ a.1.places, ∃ loc, p = .mem loc ∧
      (isSwm s loc = false ∨ pendBytes s tm.core (loc / 16) = [] ∧ ∃ bs d m, ownCopy s tm.core (loc / 16) = some (bs, d, m) ∧ bs.length = 16)) →
    (canPerform s o = true → OpDone (.storeComplete ⟨o.id, none⟩) s o fun t w' =>
      t.teams = s.teams ∧ w'.v = w.v ∧ w'.s = w.s ∧
      ((∀ a ∈ acc, ∀ loc, .mem loc ∈ a.1.places → ownsExclusive s tm.core (loc / 16) = false) → t.mem = s.mem) ∧
      (∀ a ∈ acc, ∀ loc, .mem loc ∈ a.1.places → isSwm s loc = true ∨ ownsExclusive t tm.core (loc / 16) = true ∨
        ∃ f ∈ t.fills, f.brings tm.core (loc / 256) (loc / 16 % 16) (loc / 16 % 16) = true) ∧
      ∀ loc, coreByte t tm.core loc =
        match ((acc.flatMap fun a => memBytes a.1 a.2).reverse.find? fun b => b.1 == loc) with
        | some b => b.2
        | none => coreByte s tm.core loc) ∧
    ∀ k p, o.pieces[k]? = some p → ∃ t, exec (.storeComplete ⟨o.id, some k⟩) s = .next t ∧ t.waves = s.waves ∧ t.teams = s.teams ∧
      t.ops.map (·.id) = s.ops.map (·.id)) ∧
  ∀ (s : State) (o : Op) (w : Wave) (tm : Team) (how : StoreHow) (acc : List (Access × Nat)),
    s.op? o.id = some o → o.kind = .store how acc → s.wave? o.wave = some w → w.role = .solo →
    s.team? o.team = some tm → canPerform s o = true →
    (∀ a ∈ acc, ∀ p ∈ a.1.places, ∃ off, p = .sp o.team off ∧ 256 ≤ off) →
    OpDone (.storeComplete ⟨o.id, none⟩) s o fun t w' =>
      t.mem = s.mem ∧ t.pend = s.pend ∧ t.blocks = s.blocks ∧ w'.v = w.v ∧ w'.s = w.s ∧
      ∃ tm', t.team? o.team = some tm' ∧ tm' = { tm with sp := tm'.sp, spBad := tm'.spBad, spDirty := tm'.spDirty } ∧
        ∀ off, tm'.spByte off =
          match ((acc.flatMap fun a => spBytesOf a.1 a.2).reverse.find? fun b => b.2.1 == off) with
          | some b => b.2.2
          | none => tm.spByte off

/-- 11 R293 to R296: an atomic or reduction of a team outside a rollback-safe interval puts one operation in flight with the
operands of each active thread, whose addresses resolve, on operations that plain PCIe memory performs where they lie there. One that
the rules of 19 Table 19-2 name first ends the interval's rollback safety. Whether its core is to take ownership of the words is its
contention predictor's.
It rests on the choices of log entries 11, 30 and 93. -/
def Obligations.AtomicIssues : Prop :=
  ∀ (o : OpN), ∀ row ∈ atomRows o, WellFormed row.1 →
    let (i, op, ret) := row
    let n := 2 ^ o.size.toNat
    let rs := atomRegs op o.size.toNat o.b.toNat
    ∀ (s s1 : State) (c : Issue), EndsSafety s s1 (atomReason o) → Runs s1 c 4 → c.w.role = .solo →
      (∃ tm, s1.team? c.tm.id = some tm ∧ tm.holds = false) → FlagFree c o.fsel →
      Declared c (rs ++ baseV o.base.toNat) [] →
      Unpoisoned c ((if op = .ldo then [] else rs) ++ baseV o.base.toNat) (baseS o.base.toNat) [] →
      (∀ t ∈ threads c.mask, baseVal c o.base.toNat t % n = 0) →
      ∀ acc xs, resolveAtoms c op o.size.toNat (fun t => baseVal c o.base.toNat t) = .ok (acc, xs) →
        failedFault c acc = none → (ret = true → dataFault c acc = none) →
        OpIssued i s (touchLeaves s1 c.tm.core (op != .ldo) xs) c (c.flag o.fsel) []
          fun k => k = .atom op o.size.toNat ret o.order.toNat o.scope.toNat o.b.toNat (takesWord c xs)
            (acc.map fun a => (a.1, atomArgs c op o.size.toNat o.b.toNat a.1.thread))

/-- 11 R289, R293, R296, Table 11-2; 10 R273, R274: the atomics of the threads are performed one after another in ascending order, at
the words' homes or in the core's L1: memory holds what Table 11-2 makes of each in turn, and every other byte is unchanged, but for
own copies that the L1 may write back where it takes ownership of the words; a returning form leaves each thread's old value,
extended, in its register. An acquire comes before what its wave stores from then on; a release at .cluster scope or wider comes
after every store that its core's L1 held. Under conditions on the state and the operands alone `exec` answers a next state for
atomicComplete.
It rests on the choices of log entries 9, 10, 11 and 93. -/
def Obligations.AtomicCompletes : Prop :=
  ∀ (s : State) (o : Op) (w : Wave) (tm : Team) (op : AtomOp) (size order scope b : Nat) (ret own : Bool)
    (acc : List (Access × Nat × Nat)),
    SoundMemory s → s.op? o.id = some o → o.kind = .atom op size ret order scope b own acc → size ≤ 4 →
    (op = .fadd → size = 2 ∨ size = 3) → (acc.map (·.1.thread)).Nodup →
    (∀ p ∈ acc, p.1.thread < 32 ∧ locOf p.1 % 2 ^ size = 0 ∧ p.1.places = (List.range (2 ^ size)).map fun i => .mem (locOf p.1 + i)) →
    s.wave? o.wave = some w → w.role = .solo → w.team = o.team → s.team? o.team = some tm → tm.holds = false →
    canPerform s o = true → (2 ≤ order → owes s tm.core scope (o.horizon s) = false) →
    (ret = true → ∀ p ∈ acc, viewMark s tm (locOf p.1) = .ok) → (∀ g ∈ s.grids, g.part = partOfCore s tm.core ∨ g.stamps = []) →
    let s1 := performPends (if 2 ≤ order then drainFor s tm.core scope else s) tm.core (comesFirst s o (acc.map (·.1)))
    (∀ p ∈ acc, markAt s1 (locOf p.1) = .ok ∧ (∀ e ∈ s1.pend, e.core = tm.core → e.word ≠ locOf p.1 / 16) ∧
      (held? s1 tm.core (locOf p.1 / 16) = none ∨
        (ownsExclusive s1 tm.core (locOf p.1 / 16) = true ∧ isSwm s1 (locOf p.1) = false))) →
    (order % 2 = 1 → 2 ≤ scope → cacheWords s1 tm.core CWord.isStale = []) →
    let after := atomsInOrder op (2 ^ size) (readHome s1) (acc.map fun p => (locOf p.1, p.2.1, p.2.2))
    OpDoneAt (fun w => if order % 2 = 1 then s.nextId else w.fenced) (.atomicComplete o.id) s o fun t w' =>
      (∀ l, (own = false ∨ ∀ bs m, ownCopy s1 tm.core (l / 16) ≠ some (bs, true, m)) → readHome t l = after.1 l) ∧
      (2 ≤ order → 2 ≤ scope → ∀ e ∈ t.pend, e.core = tm.core → o.horizon s ≤ e.since) ∧
      (ret = true → ∀ (k : Nat) (p : Access × Nat × Nat) (old : Nat), acc[k]? = some p → after.2[k]? = some old →
        w'.getV b p.1.thread = BitVec.ofNat 64 (if size = 4 then old else atomReturn op (8 * 2 ^ size) old) ∧
        (size = 4 → w'.getV (b + 1) p.1.thread = BitVec.ofNat 64 (old / 2 ^ 64))) ∧
      ∀ r u, u < 32 → (ret = false ∨ u ∉ acc.map (·.1.thread) ∨ (r ≠ b ∧ (size ≠ 4 ∨ r ≠ b + 1))) → w'.getV r u = w.getV r u

/-- 18 R403, R404: what a translation writes: ACCESSED, and DIRTY for a write, in the leaf of each page, and no other byte of memory
while the page is used under one key; and it fills the TLB of its core, where the entries of its walk still stand. Nothing else
changes but the caches' own copies, the monitors, and the records of other devices.
It rests on the choices of log entries 30 and 32. -/
def Obligations.WalkWritesOnlyLeaves : Prop :=
  ∀ (s : State) (core : Nat) (write : Bool) (x : Xl), (∀ e ∈ s.pend, e.core = core → e.word ≠ x.leafLoc / 16) →
    held? s core (x.leafLoc / 16) = none → x.leafLoc % 8 = 0 →
    (x.loc / homeSpan ≠ s.out.device ∨ get 0 s.pageKeys (x.loc / 65536) = keyTag s (bitsN x.leaf 10 6)) →
    (∀ v ∈ x.via, ∀ e ∈ s.pend, e.core = core → e.word ≠ v.1 / 16) → (∀ t ∈ s.teams, t.core = core → t.stash = []) →
    (∀ t ∈ s.tenures, ∀ i < 8, t.meets (x.leafLoc + i) = false) →
    let t := touchLeaf s core write x
    readHomeN t x.leafLoc 8 = readHomeN s x.leafLoc 8 ||| (2 ^ 7 + if write then 2 ^ 8 else 0) ∧
    (∀ l, (l < x.leafLoc ∨ x.leafLoc + 8 ≤ l) → readHome t l = readHome s l) ∧
    (core < 512 → (∀ v ∈ x.via, v.1 % 8 = 0 ∧ entryCore (entryAt s core v.1) = entryCore v.2) →
      ∃ e ∈ t.tlbs, e.unit = core ∧ e.ctx = x.ctx ∧ e.page = x.page ∧ e.large = x.large ∧ e.leafLoc = x.leafLoc) ∧
    t = { s with mem := t.mem, marks := t.marks, blocks := t.blocks, tlbs := t.tlbs, monitors := t.monitors, guests := t.guests,
                 tick := t.tick }

/-! ## Ordering and synchronisation -/

/-- 11 R297, 09 Table 09-1, 10 R273: a fence holds its wave Issuing with its PC unmoved; once the wave's earlier accesses have
been performed (and, for .dev and .sys, no write translated under a replaced entry is on its way) it retires, and at .cluster
scope or wider every store that its core's L1 held has been performed at its home. What the wave stores from then on comes after
it. Under conditions on the state and the operands alone `exec` answers a next state for fenceComplete and fence.
It rests on the choices of log entries 9 and 10. -/
def Obligations.FenceResults : Prop :=
  (∀ (o : OpFence) (s s1 : State) (c : Issue), WellFormed (.fence o) → EndsSafety s s1 (if 2 ≤ o.scope.toNat then 4 else 0) →
    Runs s1 c 4 → ∃ t, exec (.fence o) s = .next t ∧ OnlyWave s1 t c { c.w with fence := some o.scope.toNat }) ∧
  ∀ (s : State) (wave scope : Nat) (c : Issue), SoundMemory s → Runs { s with cur := wave } c 4 → c.w.fence = some scope →
    Settled c → owes s c.tm.core scope s.nextId = false →
    (4 ≤ scope → staleWrites (drainFor { s with cur := wave } c.tm.core scope) = false) →
    ∃ t w, exec (.fenceComplete wave) s = .next t ∧ t.wave? c.w.id = some w ∧
      Passed c 4 { c.w with fence := none, fenced := s.nextId } w ∧
      (scope < 2 → t.mem = s.mem ∧ t.pend = s.pend ∧ t.blocks = s.blocks) ∧
      (2 ≤ scope → (∀ e ∈ t.pend, e.core ≠ c.tm.core) ∧ cacheWords t c.tm.core CWord.isStale = [] ∧
        ((∀ e ∈ s.pend, ∀ b ∈ e.bytes, b.1 < 16) → ∀ e ∈ s.pend, e.core = c.tm.core → ∀ b ∈ pendBytes s c.tm.core e.word,
          readHome t (16 * e.word + b.1) = b.2))

/-- 11 R298, R317; 10 R284: racq, flush and inval put an operation on the range that their pair of registers names in flight; once no
store that it holds has to wait, racq's victim performs every one, has no word of its own left to write back, and drops its words of
the range; a flush performs and writes back the core's words of the range, which inval also drops. Under conditions on the state and the operands alone `exec` answers a next state for racqDrain, flushComplete,
racq, flush and inval.
It rests on the choices of log entries 10 and 30. -/
def Obligations.RangeOperationResults : Prop :=
  let named := fun (c : Issue) (r : Nat) =>
    rangeLocs c.s c.cx c.tm.core c.w.sysMode (pageFuel (c.pairRange r).2) (c.pairRange r).1 (c.pairRange r).2
  (∀ (o : OpRacq) (s s1 : State) (c : Issue) (p : Partition), WellFormed (.racq o) →
    EndsSafety s s1 (if 2 ≤ o.scope.toNat then 4 else 0) → Runs s1 c 4 → c.w.role = .solo → FlagFree c o.fsel →
    Unpoisoned c [] [o.core.toNat, o.range.toNat, o.range.toNat + 1] [] → s1.part? c.g.part = some p →
    (c.w.getS o.core.toNat).toNat < 512 → clusterOf (c.w.getS o.core.toNat).toNat ∈ p.clusters →
    OpIssued (.racq o) s (c.rangeTouched (c.pairRange o.range.toNat)) c (c.flag o.fsel) []
      fun k => k = .racq (c.w.getS o.core.toNat).toNat (named c o.range.toNat)) ∧
  (∀ (o : OpFG2) (s s1 : State) (c : Issue), WellFormed (.flush o) → EndsSafety s s1 3 → Runs s1 c 4 → c.w.role = .solo →
    FlagFree c o.fsel → Unpoisoned c [] [o.f2.toNat, o.f2.toNat + 1] [] →
    OpIssued (.flush o) s (c.rangeTouched (c.pairRange o.f2.toNat)) c (c.flag o.fsel) [] (fun k => k = .flush false o.g.toNat (named c o.f2.toNat)) ∧
    OpIssued (.inval o) s (c.rangeTouched (c.pairRange o.f2.toNat)) c (c.flag o.fsel) [] fun k => k = .flush true o.g.toNat (named c o.f2.toNat)) ∧
  (∀ (s : State) (o : Op) (w : Wave) (tm : Team) (v : Nat) (rngs : List Rng), SoundMemory s → s.op? o.id = some o →
    o.kind = .racq v rngs → s.wave? o.wave = some w → w.role = .solo → s.team? o.team = some tm → v < 512 →
    (∀ e ∈ s.ops, e.wave = o.wave → e.id < o.id → e.isAcquire = false) → pendOwed s v (fun _ => true) = false →
    cleanWaits s v (fun _ => true) = false →
    OpDoneAt (fun _ => s.nextId) (.racqDrain o.id) s o fun t _ => (∀ e ∈ t.pend, e.core ≠ v) ∧
      cacheWords t v CWord.isDirty = [] ∧ ∀ word, (∃ r ∈ rngs, r.word word = true) → held? t v word = none) ∧
  ∀ (s : State) (o : Op) (w : Wave) (tm : Team) (inval : Bool) (scope : Nat) (rngs : List Rng), SoundMemory s →
    s.op? o.id = some o → o.kind = .flush inval scope rngs → s.wave? o.wave = some w → w.role = .solo →
    s.team? o.team = some tm → tm.core < 512 →
    pendOwed s tm.core (fun e => rngs.any fun r => r.word e.word) = false →
    cleanWaits s tm.core (fun word => rngs.any fun r => r.word word) = false →
    OpDone (.flushComplete o.id) s o fun t _ =>
      (∀ e ∈ t.pend, e.core = tm.core → ∀ r ∈ rngs, r.word e.word = false) ∧
      ∀ word x, (∃ r ∈ rngs, r.word word = true) → held? t tm.core word = some x → x.isDirty = false ∧ inval = false

/-- 11 R299, R300; 09 R268; 10 R283: an mwait judges the word at its home; where its condition holds it retires, and is an
acquire where it says so; otherwise its wave is Blocked with its PC at the mwait, and armed in the monitor table of the word's
home slice where that has room. A write of the word meets its monitors; a wave whose monitor is met is Ready again, and so is
one that found the table full when it polls. Under conditions on the state and the operands alone `exec` answers a next state
for monitorWake, monitorRepoll and mwait.
It rests on the choices of log entries 9, 24 and 26. -/
def Obligations.MonitorWaitResults : Prop :=
  (∀ (o : OpMwait) (s s1 : State) (c : Issue) (locs : List Nat) (xs : List Xl), WellFormed (.mwait o) →
    EndsSafety s s1 (if o.acq = 1 ∧ 2 ≤ o.scope.toNat then 4 else 0) → Runs s1 c 4 → c.w.role = .solo →
    let n := if o.wide = 1 then 8 else 4
    let addr := (c.w.getS o.addr.toNat).toNat
    addr % n = 0 → translateSpan s1 c.cx c.tm.core c.w.sysMode .read addr n = .ok (locs, xs) →
    Unpoisoned c [] [o.addr.toNat, o.val.toNat] [] → dataFault c [(⟨c.low, locs.map .mem, addr⟩, addr)] = none →
    readWaits c locs = false → slicesFull s1 c.g.part locs = false → s1.tenures = [] →
    (∀ g ∈ s1.grids, g.part = c.g.part ∨ g.stamps = []) → (∀ e ∈ s1.pend, e.core ≠ c.tm.core) → c.tm.interval.buffer = [] →
    (∀ h ∈ s1.held, h.wave ≠ c.w.id) →
    let s2 := touchLeaves s1 c.tm.core false xs
    let loc := locs.headD 0
    ((∀ l ∈ locs, isSwm s2 l = true) ∨ (∀ l ∈ locs, isSwm s2 l = false ∧ held? s2 c.tm.core (l / 16) = none)) →
    let acquires := o.acq = 1 ∧ 2 ≤ o.scope.toNat
    if mwaitHolds o.cond.toNat n (leNat (locs.map (readHome s2))) (c.w.getS o.val.toNat).toNat then
      ∃ t w, exec (.mwait o) s = .next t ∧ OnlyWave (if acquires then freshen s2 c.tm.core else s2) t c w ∧
        Passed c 4 { c.w with fenced := if o.acq = 1 then s1.nextId else c.w.fenced } w
    else ∃ t, exec (.mwait o) s = .next t ∧ BlockedOn t c (.monitor loc n) ∧ t.mem = s2.mem ∧
      let slice := homeSlice s2 c.g.part loc
      t.monitors = s2.monitors ++
        (if (s2.monitors.filter fun m => m.slice == slice).length < 256 then [⟨slice, c.w.id, loc / 16, false, false⟩] else [])) ∧
  (∀ (s : State) (word : Nat) (bytes : List (Nat × BitVec 8)) (mk : Mark), (commitWord s word bytes mk).monitors =
    s.monitors.map fun m => if m.word = word then { m with hit := true } else m) ∧
  (∀ (s : State) (w : Wave) (loc n : Nat) (m : Monitor), s.wave? w.id = some w → w.state = .blocked →
    w.block = some (.monitor loc n) → m ∈ s.monitors → m.wave = w.id → m.hit = true →
    ∃ t, exec (.monitorWake w.id) s = .next t ∧ t.wave? w.id = some { w with state := .ready, block := none } ∧
      t.monitors = s.monitors.filter fun x => x.wave != w.id) ∧
  ∀ (s : State) (w : Wave) (loc n : Nat), s.wave? w.id = some w → w.state = .blocked →
    w.block = some (.monitor loc n) → (∀ m ∈ s.monitors, m.wave ≠ w.id) →
    ∃ t, exec (.monitorRepoll w.id) s = .next t ∧ t.wave? w.id = some { w with state := .ready, block := none }

/-- 11 R301 to R303: bar.init on a barrier of its own team that is unarmed, or armed with no arrival and no wave waiting. An arrival
that does not complete the phase adds 1 to ARRIVED, and one that does clears ARRIVED and flips PHASE; the phase register takes
the PHASE that the arrival joined. A wave that waits on the completed phase goes on.
It rests on the choices of log entry 25. -/
def Obligations.BarrierInitAndArriveResults : Prop :=
  (∀ (o : OpBarInit) (s : State) (c : Issue), Runs s c 4 → c.w.role = .solo → c.tm.peer = none →
    Unpoisoned c [] [o.count.toNat] [] →
    let id := o.id.toNat
    let n := (c.w.getS o.count.toNat).toNat
    let b := c.tm.barrier id
    n ≤ 65535 →
    (barArmed b = true → barArrived b = 0 ∧
      ∀ w ∈ s.waves, w.state = .blocked → ∀ p pc sc, w.block ≠ some (.barrier c.tm.id id p pc sc)) →
    ∃ t w, exec (.barInit o) s = .next t ∧ t.wave? c.w.id = some w ∧ Passed c 4 c.w w ∧ t.mem = s.mem ∧
      OtherBarriers s t c.tm.id id ∧
      BarrierIs t c.tm.id id (if n = 0 then (if barArmed b then 0 else b) else
        barWord 0 n (if barArmed b then barPhase b else 0))) ∧
  ∀ (o : OpBarPh) (s s1 : State) (c : Issue), WellFormed (.barArrive o) → EndsSafety s s1 (barReason o.bs) → Runs s1 c 4 →
    c.w.role = .solo → c.w.state = .ready → Settled c → owes s1 c.tm.core (barScope o.bs) s1.nextId = false →
    let id := o.id.toNat
    let owner := barOwner c o.bs
    ∀ ow, s1.team? owner = some ow → ow.peer = none → barArmed (ow.barrier id) = true → ow.state ≠ .lost →
    holdsArrivals s1 ow = false → (c.atBoundary owner id = true → c.w.flagsClear = true) →
    let b := ow.barrier id
    (barArrived b + 1 ≠ barExpected b →
      ∃ t w, exec (.barArrive o) s = .next t ∧ t.wave? c.w.id = some w ∧
        Passed c 4 { c.w with s := w.s, sBad := w.sBad, held := c.atBoundary owner id } w ∧
        w.getS o.phase.toNat = BitVec.ofNat 64 (barPhase b) ∧
        BarrierIs t owner id (barWord ((barArrived b + 1) % 2 ^ 16) (barExpected b) (barPhase b))) ∧
    (barArrived b + 1 = barExpected b → boundaryHeld s1 owner id = false → waiters s1 owner id (barPhase b) = [] →
      ∃ t w, exec (.barArrive o) s = .next t ∧ t.wave? c.w.id = some w ∧ w.held = false ∧
        w.getS o.phase.toNat = BitVec.ofNat 64 (barPhase b) ∧
        (∀ r, r ≠ o.phase.toNat → w.getS r = c.w.getS r) ∧
        BarrierIs t owner id (barWord 0 (barExpected b) (1 - barPhase b))) ∧
    (barArrived b + 1 = barExpected b → boundaryHeld s1 owner id = false → ∀ (x : Wave) (e : Entry) (xt : Team) (xg : Grid) (xc : Context) (sc : Nat),
      waiters s1 owner id (barPhase b) = [(x.id, e.pc, sc)] → x.id ≠ c.w.id → s1.wave? x.id = some x → x.role = .solo →
      x.state = .blocked → x.left ≠ 0 → x.entry? (e.prio, e.pc) = some e →
      (x.frontier.find? fun y => y.pc == e.pc && x.issueMask y != 0) = some e →
      s1.team? x.team = some xt → s1.grid? xt.grid = some xg → s1.ctx? xg.ctx = some xc →
      ∃ t w, exec (.barArrive o) s = .next t ∧ t.wave? x.id = some w ∧ w.retired = x.retired + 1 ∧
        ∀ p pc k, w.block ≠ some (.barrier owner id p pc k) ∨ w.state ≠ .blocked)

/-- 11 R303, 13 R328; 10 R274: a wait on an armed barrier goes on where PHASE differs from bit 0 of its register, an acquire of the
barrier's scope, and its wave is Blocked otherwise. bar.sync arrives and waits on the phase that it joined; once it has arrived it
only waits.
It rests on the choices of log entries 9, 14 and 25. -/
def Obligations.BarrierWaitResults : Prop :=
  let goesOn := fun (i : Instr) (s s1 : State) (c : Issue) (bs : BitVec 3) =>
    ∃ t w, exec i s = .next t ∧ OnlyWave (if bs = 2 then freshen s1 c.tm.core else s1) t c w ∧
      Passed c 4 { c.w with block := none, fenced := s1.nextId } w
  (∀ (o : OpBarPh) (s s1 : State) (c : Issue), WellFormed (.barWait o) → EndsSafety s s1 (barReason o.bs) → Runs s1 c 4 →
    c.w.role = .solo → Unpoisoned c [] [o.phase.toNat] [] →
    let id := o.id.toNat
    let owner := barOwner c o.bs
    let p := (c.w.getS o.phase.toNat).toNat % 2
    ∀ ow, s1.team? owner = some ow → barArmed (ow.barrier id) = true →
    if barPhase (ow.barrier id) ≠ p then goesOn (.barWait o) s s1 c o.bs
    else ∃ t, exec (.barWait o) s = .next t ∧ BlockedOn t c (.barrier owner id p c.e.pc (barScope o.bs)) ∧ t.teams = s1.teams) ∧
  ∀ (o : OpBarSync) (s s1 : State) (c : Issue), WellFormed (.barSync o) → EndsSafety s s1 (barReason o.bs) → Runs s1 c 4 →
    c.w.role = .solo → c.w.state = .ready →
    let id := o.id.toNat
    let owner := barOwner c o.bs
    ∀ ow, s1.team? owner = some ow → ow.peer = none → barArmed (ow.barrier id) = true →
    let b := ow.barrier id
    (c.w.block = none → Settled c → owes s1 c.tm.core (barScope o.bs) s1.nextId = false → ow.state ≠ .lost →
      holdsArrivals s1 ow = false → (c.atBoundary owner id = true → c.w.flagsClear = true) →
      (barArrived b + 1 ≠ barExpected b → ∃ t, exec (.barSync o) s = .next t ∧
        BlockedOn t c (.barrier owner id (barPhase b) c.e.pc (barScope o.bs)) ∧
        BarrierIs t owner id (barWord ((barArrived b + 1) % 2 ^ 16) (barExpected b) (barPhase b))) ∧
      (barArrived b + 1 = barExpected b → boundaryHeld s1 owner id = false → waiters s1 owner id (barPhase b) = [] →
        ∃ t w, exec (.barSync o) s = .next t ∧ t.wave? c.w.id = some w ∧ w.retired = c.w.retired + 1 ∧
          BarrierIs t owner id (barWord 0 (barExpected b) (1 - barPhase b)))) ∧
    ∀ p sc, c.w.block = some (.barrier owner id p c.e.pc sc) →
      if barPhase b ≠ p then goesOn (.barSync o) s s1 c o.bs
      else ∃ t, exec (.barSync o) s = .next t ∧ BlockedOn t c (.barrier owner id p c.e.pc (barScope o.bs)) ∧ t.teams = s1.teams

/-- 11 R304, R305; 19 R429: a remote arrival counts at the word of the gang member that its address names; one aimed at a saved
team or a power-gated core is held, one entry for each team and barrier, and is applied when the core is woken, also where the
team has ended. Under conditions on the state and the operands alone `exec` answers a next state for pendingArrivalApply and
barRarrive.
It rests on the choices of log entry 25. -/
def Obligations.RemoteArrivalResults : Prop :=
  (∀ (o : OpY2) (s s1 : State) (c : Issue) (ow : Team), EndsSafety s s1 4 → Runs s1 c 4 → c.w.role = .solo →
    c.w.state = .ready → Settled c → owes s1 c.tm.core 2 s1.nextId = false → Unpoisoned c [] [o.f2.toNat] [] →
    let a := (c.w.getS o.f2.toNat).toNat
    a % 8 = 0 → a < 2 ^ 20 → a % 2 ^ 18 < 256 → gangTeam s1 c.tm c.g (a / 2 ^ 18 % 4) = some ow → s1.team? ow.id = some ow →
    let id := a % 2 ^ 18 / 8
    let b := ow.barrier id
    ow.state ≠ .lost → (c.atBoundary ow.id id = true → c.w.flagsClear = true) → boundaryHeld s1 ow.id id = false →
    (holdsArrivals s1 ow = false → ow.peer = none → barArmed b = true → barArrived b + 1 ≠ barExpected b →
      ∃ t w, exec (.barRarrive o) s = .next t ∧ t.wave? c.w.id = some w ∧ Passed c 4 { c.w with held := c.atBoundary ow.id id } w ∧
        BarrierIs t ow.id id (barWord ((barArrived b + 1) % 2 ^ 16) (barExpected b) (barPhase b))) ∧
    (holdsArrivals s1 ow = true → arrivalsFull s1 ow id = false →
      (∀ x ∈ s1.arrivals, ¬ (x.team = ow.id ∧ x.id = id)) →
      ∃ t w, exec (.barRarrive o) s = .next t ∧ t.wave? c.w.id = some w ∧ Passed c 4 { c.w with held := c.atBoundary ow.id id } w ∧
        t.arrivals = s1.arrivals ++ [⟨ow.id, id, 1⟩]) ∧
    (holdsArrivals s1 ow = true → arrivalsFull s1 ow id = true →
      ∃ t, exec (.barRarrive o) s = .next t ∧ BlockedOn t c .arrivals)) ∧
  ∀ (s : State) (tm : Team) (id : Nat), s.teams = [tm] → (tm.state = .resident ∨ tm.state = .ended) → tm.peer = none → id < 32 →
    s.arrivals = [⟨tm.id, id, 1⟩] → boundaryHeld s tm.id id = false → s.waves = [] → barArmed (tm.barrier id) = true →
    barArrived (tm.barrier id) + 1 ≠ barExpected (tm.barrier id) →
    ∃ t, exec (.pendingArrivalApply tm.core) s = .next t ∧ t.arrivals = [] ∧ Machine.get false t.gated tm.core = false ∧
      BarrierIs t tm.id id (barWord ((barArrived (tm.barrier id) + 1) % 2 ^ 16) (barExpected (tm.barrier id))
        (barPhase (tm.barrier id)))

/-! ## The copy engine, tenure, windows and the stash -/

/-- 09 R256, R262, R263; 11 R306, R310, R313 to R315: an engine copy whose descriptor may be used is put in flight with the ranges of its
rows and of STATUS, and its flag counts up; the stores that L1s hold to words of its destination are performed first. A slice of a
collective copy that is not the last one is recorded with the team's gathering, and nothing else changes. A prefetch names the pages
that its descriptor or its tile names, up to the first that it may not read.
It rests on the choices of log entries 30, 35 and 40. -/
def Obligations.EngineCopyIssues : Prop :=
  ∀ (s s1 : State) (c : Issue), EndsSafety s s1 3 → Runs s1 c 4 → c.w.role = .solo →
    (∀ (o : OpF12), FlagFree c o.fsel → Declared c [o.f1.toNat] [] → Unpoisoned c [o.f1.toNat] [o.f2.toNat] [] → ScoreRoom c 2 →
      let off := (c.w.getS o.f2.toNat).toNat
      let idx := (threads c.mask).map fun t => (t, c.w.getV o.f1.toNat t)
      DescOk c off 64 0x20 → ∀ r, SpRead c off 64 r →
        ∀ row ∈ [(Instr.gather o, false), (.scatter o, true)],
          let rs := rowsRanges (touching c r) row.2 (bytesAt c r) off idx
          EngineIssued row.1 s (touching c r).s c (c.flag o.fsel) c.w.seed (.rows row.2 (bytesAt c r) off idx) rs.1 rs.2) ∧
    (∀ (o : OpF2), FlagFree c o.fsel → Unpoisoned c [] [o.f2.toNat] [] →
      let off := (c.w.getS o.f2.toNat).toNat
      let fetches := fun (i : Instr) (c1 : Issue) (hint : Nat) (l : List (Nat × Nat)) =>
        OpIssued i s (touchLeaves c1.s c.tm.core false (fetchRanges c1 l).2) c (c.flag o.fsel) []
          fun k => k = .pfetch hint (fetchRanges c1 l).1
      (DescOk c off 128 0x40 → ScoreRoom c 2 → ∀ r, SpRead c off 128 r →
        let rs := compactRanges (touching c r) (bytesAt c r) off
        EngineIssued (.compact o) s (touching c r).s c (c.flag o.fsel) c.w.seed (.compact (bytesAt c r) off) rs.1 rs.2) ∧
      (off % 64 = 0 → off + 256 ≤ c.g.launch.spBytes → ∀ r, SpRead c off 256 r →
        fetches (.pfetchDesc o) (touching c r) (field (bytesAt c r) 0x2C 1 % 4) (fetchRows (bytesAt c r))) ∧
      ∀ h, handleOf s1 c.g.ctx off = some h →
        fetches (.pfetchHandle o) c h.tile.hint (h.tile.elems.flatMap fun a => pagePieces 2 a (2 ^ h.tile.esize))) ∧
    ∀ (o : OpF12), FlagFree c o.fsel → Unpoisoned c [] [o.f2.toNat, o.f1.toNat] [] →
      let off := (c.w.getS o.f2.toNat).toNat
      let x := (c.w.getS o.f1.toNat).toNat
      DescOk c off 256 0x20 → ∀ q, SpRead c (off + 0x20) 16 q →
      let g := (c.tm.gatherings.find? fun g => g.desc == off).getD ⟨off, field (bytesAt c q) 0x0B 1, []⟩
      let slices := g.slices ++ [(c.w.id, c.flag o.fsel, x % 2 ^ 32, x / 2 ^ 32)]
      1 ≤ g.nslices → g.nslices ≤ 32 →
      let flagged := fun (t : State) => ∃ w, t.wave? c.w.id = some w ∧ Passed c 4 { c.w with flags := w.flags } w ∧
        ∀ f, w.getF f = if f = c.flag o.fsel then c.w.getF f + 1 else c.w.getF f
      (slices.length < g.nslices → ∃ t, exec (.copy o) s = .next t ∧ flagged t ∧
        t = { (touching c q).s.updTeam c.tm.id fun tm => tm.setGathering off (some ⟨off, g.nslices, slices⟩) with
          waves := t.waves, stalled := [] }) ∧
      (g.nslices ≤ slices.length → ScoreRoom c 2 → ∀ r, SpRead (touching c q) off 256 r →
        let c2 := touching (touching c q) r
        let d := bytesAt (touching c q) r
        let rs := copyRanges c2 d off slices
        let op := { c.newOp 15 (.copy d off slices) [] with reads := rs.1, writes := rs.2 }
        ∃ t, exec (.copy o) s = .next t ∧ flagged t ∧
          t = { takeWords (c2.s.updTeam c.tm.id fun tm => tm.setGathering off none) rs.2 with
            waves := t.waves, ops := s1.ops ++ [op], nextId := max s1.nextId (op.id + 1), stalled := [] })

/-- 09 R256; 10 R280; 11 R307, R308, Table 11-3: once what its core stored before it has been performed, an engine copy
completes: it leaves STATUS with its code and the bytes done, and the flag of each of its slices counts down. A dense copy of
one row inside scratchpad moves the bytes as they stood before it. A prefetch changes no value. Under conditions on the state
and the operands alone `exec` answers a next state for copyComplete.
It rests on the choices of log entries 36 and 37. -/
def Obligations.EngineCopyCompletes : Prop :=
  (∀ (s : State) (o : Op) (c : Issue) (w : Wave), s.op? o.id = some o → opIssue s o = some c → s.wave? o.wave = some w →
    w.role = .solo → canEngine s o = true → barOn o.rowbar = false → c.tm.peer = none →
    let c' := { c with s := beforeEngine (s.dropOp o.id) o }
    let down := fun (t : State) (w' : Wave) => t.wave? o.wave = some w' ∧ w' = { w with flags := w'.flags, state := woken w w' } ∧
      ∀ f, w'.getF f = if f = o.flag then w.getF f - 1 else w.getF f
    (∀ hint rngs, o.kind = .pfetch hint rngs → fetchWaits c o = false →
      ∃ t w', exec (.copyComplete o.id) s = .next t ∧ down t w' ∧ t.teams = s.teams ∧ t.mem = c'.s.mem) ∧
    (∀ scatter d off idx, o.kind = .rows scatter d off idx → 256 ≤ off + 0x20 → c.tm.stashed (off + 0x20) 8 = false →
      ∃ t w' tm, exec (.copyComplete o.id) s = .next t ∧ down t w' ∧ t.team? c.tm.id = some tm ∧
        tm.spNat (off + 0x20) 8 = copyStatus (rowsPayload c' scatter d idx).code (rowsPayload c' scatter d idx).field
          (rowsPayload c' scatter d idx).done % 2 ^ 64) ∧
    (∀ d off, o.kind = .compact d off → 256 ≤ off + 0x40 → c.tm.stashed (off + 0x40) 8 = false → field d 0x30 8 = 0 →
      ∃ t w' tm, exec (.copyComplete o.id) s = .next t ∧ down t w' ∧ t.team? c.tm.id = some tm ∧
        tm.spNat (off + 0x40) 8 = copyStatus (compactPayload c' d).code (compactPayload c' d).field
          (compactPayload c' d).done % 2 ^ 64)) ∧
  ∀ (s : State) (o : Op) (c : Issue) (w : Wave) (d : List (BitVec 8)) (off f rows : Nat), s.op? o.id = some o →
    opIssue s o = some c → s.wave? o.wave = some w → w.role = .solo → o.kind = .copy d off [(o.wave, f, 0, rows)] →
    canEngine s o = true → c.tm.peer = none → c.tm.spBad = [] → firstBad (copyChecks c d) = none → field d 0x2D 1 = 0 →
    copyDims d = 1 → field d 0x2A 1 = 3 → barOn (field d 0x2E 2) = false → field d 0x10 8 = 0 → 1 ≤ rows → 256 ≤ off + 0x20 →
    c.tm.stashed (off + 0x20) 8 = false →
    let n := copyRowBytes d
    let src := field d 0 8
    let dst := field d 8 8
    spUsable c false src n = true → spUsable c true dst n = true →
    ∃ t w' tm, exec (.copyComplete o.id) s = .next t ∧ t.wave? o.wave = some w' ∧
      w' = { w with flags := w'.flags, state := woken w w' } ∧
      (∀ g, w'.getF g = if g = f then w.getF g - 1 else w.getF g) ∧ t.mem = (beforeEngine (s.dropOp o.id) o).mem ∧
      t.team? c.tm.id = some tm ∧ tm.spNat (off + 0x20) 8 = copyStatus 1 0 n % 2 ^ 64 ∧
      ∀ b, (b < off + 0x20 ∨ off + 0x28 ≤ b) →
        tm.spByte b = if dst ≤ b ∧ b < dst + n then c.tm.spByte (src + (b - dst)) else c.tm.spByte b

/-- 11 R318, R319, R321, R322: opening, splitting and closing a handle.
It rests on the choices of log entry 41. -/
def Obligations.HandleResults : Prop :=
  ∀ (s s1 : State) (c : Issue), EndsSafety s s1 3 → Runs s1 c 4 → c.w.role = .solo → c.tm.peer = none →
    (∀ (o : OpF12) (r : Found), FlagFree c o.fsel → Unpoisoned c [] [o.f2.toNat] [] →
      let off := (c.w.getS o.f2.toNat).toNat
      DescOk c off 128 0x10 → SpRead c off 128 r →
      let d := bytesAt c r
      (∀ bad, firstBad (handleChecks d) = some bad →
        ∃ t w, exec (.hopen o) s = .next t ∧ t.wave? c.w.id = some w ∧ SetsS c w [(o.f1.toNat, 0)] ∧ t.handles = s1.handles) ∧
      (firstBad (handleChecks d) = none → (tileOf d).inSpace = true → ∀ i l, freeHandles s1 c.g.ctx = i :: l →
        ∃ t w h, exec (.hopen o) s = .next t ∧ t.wave? c.w.id = some w ∧
          SetsS c w [(o.f1.toNat, BitVec.ofNat 64 h.value)] ∧ t.handles = s1.handles ++ [h] ∧ h.ctx = c.g.ctx ∧ h.index = i ∧
          h.tile = tileOf d ∧ 1 ≤ h.serial ∧ h.serial ≤ 65535)) ∧
    (∀ (o : OpY123) (h : Handle), WellFormed (.hsplit o) → Unpoisoned c [] [o.f2.toNat, o.f3.toNat] [] →
      handleOf s1 c.g.ctx (c.w.getS o.f2.toNat).toNat = some h →
      let spec := (c.w.getS o.f3.toNat).toNat
      match splitHandle s1 h (bitsN spec 0 3) (bitsN spec 32 32) with
      | some (s2, a, b) => ∃ t w, exec (.hsplit o) s = .next t ∧ t.wave? c.w.id = some w ∧
          SetsS c w [(o.f1.toNat, BitVec.ofNat 64 a), (o.f1.toNat + 1, BitVec.ofNat 64 b)] ∧ t.handles = s2.handles ∧
          t.tenures = s2.tenures ∧ t.mem = s1.mem
      | none => ∃ t w, exec (.hsplit o) s = .next t ∧ OnlyWave s1 t c w ∧ SetsS c w [(o.f1.toNat, 0), (o.f1.toNat + 1, 0)]) ∧
    ∀ (o : OpY2) (h : Handle), Unpoisoned c [] [o.f2.toNat] [] → handleOf s1 c.g.ctx (c.w.getS o.f2.toNat).toNat = some h →
      storesOwed s1 c.w.id s1.nextId h.ctx h.tile = false → tileOwed s1 h.ctx h.tile = false →
      cleanWaits s1 c.tm.core (tileWord s1 h.ctx h.tile) = false →
      ∃ t w, exec (.hclose o) s = .next t ∧ t.wave? c.w.id = some w ∧ Passed c 4 c.w w ∧ t.handles = s1.handles.erase h ∧
        ∀ x ∈ t.tenures, ¬ (x.team = c.tm.id ∧ x.on h = true)

/-- 09 R258, R259; 10 R281; 11 R320: a request for tenure goes in flight, unless the team holds that mode already; it is granted
once nothing excludes it, after every store to its tile that an L1 holds; a release drops it or turns it into read tenure; and a
recall takes it for the access that waits. Under conditions on the state and the operands alone `exec` answers a next state for
tenureGrant, tenureRecall, hrelEffect, hacqRd, hacqWr, hrelDrop and hrelDown.
It rests on the choices of log entry 42. -/
def Obligations.TenureResults : Prop :=
  (∀ (s s1 : State) (c : Issue) (o : OpF2) (h : Handle), EndsSafety s s1 3 → Runs s1 c 4 → c.w.role = .solo →
    FlagFree c o.fsel → Unpoisoned c [] [o.f2.toNat] [] →
    let x := c.w.getS o.f2.toNat
    handleOf s1 c.g.ctx x.toNat = some h →
    (∀ row ∈ [(Instr.hacqRd o, false), (.hacqWr o, true)],
      (holdsTenure s1 c.tm.id h row.2 = true → ∃ t w, exec row.1 s = .next t ∧ OnlyWave s1 t c w ∧ Passed c 4 c.w w) ∧
      (holdsTenure s1 c.tm.id h row.2 = false → tenureFault c h row.2 = false →
        OpIssued row.1 s s1 c (c.flag o.fsel) [] fun k => k = .hacq row.2 x)) ∧
    ∀ row ∈ [(Instr.hrelDrop o, false), (.hrelDown o, true)],
      OpIssued row.1 s s1 c (c.flag o.fsel) [] fun k => k = .hrel row.2 x) ∧
  (∀ (s : State) (o : Op) (w : Wave) (write : Bool) (x : Word) (h : Handle), s.op? o.id = some o → o.kind = .hacq write x →
    s.wave? o.wave = some w → w.role = .solo → handleOf s (ctxOf s o) x.toNat = some h →
    (∀ e ∈ s.ops, e.id < o.id → ∀ m y, e.kind ≠ .hacq m y) → (∀ t ∈ s.tenures, t.excludes s h.ctx h.tile write = false) →
    (tableTiles s (tileHome s h.ctx h.tile)).length < tenureEntries → tileOwed s h.ctx h.tile = false →
    OpDone (.tenureGrant o.id) s o fun t _ =>
      t.tenures = s.tenures ++ [⟨tileHome s h.ctx h.tile, h.ctx, h.index, h.serial, o.team, write, h.tile, false,
        h.tile.pagesAt (settleTile s h.ctx h.tile) h.ctx⟩] ∧
      (SoundPends s → ∀ e ∈ t.pend, tileWord s h.ctx h.tile e.word = false)) ∧
  (∀ (s : State) (o : Op) (w : Wave) (tm : Team) (down : Bool) (x : Word) (h : Handle), s.op? o.id = some o →
    o.kind = .hrel down x → s.wave? o.wave = some w → w.role = .solo → s.team? o.team = some tm →
    handleOf s (ctxOf s o) x.toNat = some h → storesOwed s o.wave o.id h.ctx h.tile = false → tileOwed s h.ctx h.tile = false →
    cleanWaits s tm.core (tileWord s h.ctx h.tile) = false →
    OpDone (.hrelEffect o.id) s o fun t _ => ∀ y ∈ t.tenures, y.team = o.team → y.on h = true →
      down = true ∧ y.write = false) ∧
  ∀ (s : State) (x : Tenure) (write : Bool), s.tenures = [x] → wantsRecall s x write = true → holderBusy s x = false →
    ∃ t, exec (.tenureRecall x.ctx x.index write) s = .next t ∧
      t.tenures = if write || !x.write then [] else [{ x with write := false }]

/-- 11 R316, R323: pin and unpin, smap and sunmap answer with their status, 0 (or the window's number) where they act.
It rests on the choices of log entry 43. -/
def Obligations.WindowResults : Prop :=
  ∀ (s s1 : State) (c : Issue), EndsSafety s s1 3 → Runs s1 c 4 → c.w.role = .solo → c.tm.peer = none →
    (∀ (o : OpY12) (r : Found), Unpoisoned c [] [o.f2.toNat] [] →
      let off := (c.w.getS o.f2.toNat).toNat
      off % 64 = 0 → off + 64 ≤ c.g.launch.spBytes → SpRead c off 64 r →
      let p := pinWindow (touching c r) (bytesAt c r)
      ∃ t w, exec (.pin o) s = .next t ∧ t.wave? c.w.id = some w ∧
        SetsS c w [(o.f1.toNat, BitVec.ofNat 64 p.2)] ∧ t.pins = p.1.pins) ∧
    (∀ (o : OpY12), Unpoisoned c [] [o.f2.toNat] [] →
      let x := (c.w.getS o.f2.toNat).toNat
      (∃ t w, exec (.unpin o) s = .next t ∧ t.wave? c.w.id = some w ∧ match s1.pins.find? fun p => p.ctx == c.cx.id && p.num == x with
        | some p => SetsS c w [(o.f1.toNat, 0)] ∧ t.pins = s1.pins.erase p
        | none => SetsS c w [(o.f1.toNat, 7)] ∧ t.pins = s1.pins) ∧
      (c.teamBusy = false → storesRest s1 c.tm = true →
        ∃ t w tm, exec (.sunmap o) s = .next t ∧ t.wave? c.w.id = some w ∧ t.team? c.tm.id = some tm ∧
        match c.tm.stash.find? fun m => m.spBase == x with
        | some m => SetsS c w [(o.f1.toNat, 0)] ∧ tm.stash = c.tm.stash.filter fun y => y.spBase != m.spBase
        | none => SetsS c w [(o.f1.toNat, 5)] ∧ tm.stash = c.tm.stash)) ∧
    ∀ (o : OpY123), WellFormed (.smap o) → Unpoisoned c [] [o.f2.toNat, o.f2.toNat + 1, o.f3.toNat] [] →
      let base := (c.w.getS o.f2.toNat).toNat
      let len := (c.w.getS (o.f2.toNat + 1)).toNat
      let sp := (c.w.getS o.f3.toNat).toNat
      ∃ t w tm, exec (.smap o) s = .next t ∧ t.wave? c.w.id = some w ∧ t.team? c.tm.id = some tm ∧
        (cacheWords s1 c.tm.core CWord.isDirty = [] → t.mem = s1.mem) ∧
        SetsS c w [(o.f1.toNat, BitVec.ofNat 64 (smapCode c base len sp))] ∧
        (smapCode c base len sp = 0 → base % 256 = 0 ∧ len % 256 = 0 ∧ sp % 256 = 0 ∧ 256 ≤ len ∧ 256 ≤ sp ∧ len ≤ 65536 ∧
          sp + len ≤ c.g.launch.spBytes) ∧
        tm.stash = c.tm.stash ++ (if smapCode c base len sp = 0 then [⟨base, len, sp, rangePages c base len⟩] else [])

/-! ## Format slots and the matrix engine -/

/-- 05 R132, R136, R138, R139; 06 R173 to R177: the conversions of major 9 under a valid dense slot.
It rests on the choices of log entry 5. -/
def Obligations.SlotConversionResults : Prop :=
  ∀ (o : OpS) (s : State) (c : Issue), Runs s c 4 → o.ca ≠ 3 → Declared c [o.d.toNat, o.a.toNat, o.b.toNat] [] →
    Unpoisoned c [o.a.toNat, o.b.toNat] [] [] →
    let x := slotOfLaunch c.g.launch o.slot.toNat
    let e := slotElem x
    let used := lastUse [(o.a.toNat, o.ca)]
    let rnd := rndOf (slotRnd x)
    let next := seedStep c.w.seed
    let seed := if slotRnd x = 5 then next else c.w.seed
    let ins := fun t => (quantIn c o t).map (readFtz f32 (slotFtz x))
    slotValid x = true → slotSparse x = 0 →
    (slotScale x = 0 →
      let f := fun t k => elemOf e rnd (slotSat x) (slotFtz x) (draw next t k) ((quantIn c o t).getD k 0)
      VecDone (.vquant o) s c 4 o.d.toNat used (allFlags c fun t => elemFlags 4 fun k => (f t k).2) seed
        fun t r => (∀ k < 4, elem (elemBox e) r k = (f t k).1 % 2 ^ elemBox e) ∧ r.toNat < 2 ^ (4 * elemBox e)) ∧
    (slotScale x = 1 → ∀ bs xs,
      (if e = 6 then latticeRead c (slotLattice x) 1024 c.low = .ok (bs, xs) else bs = [] ∧ xs = []) →
      let table := (List.range 256).map fun i => leNat ((bs.drop (4 * i)).take 4)
      VecDoneIn (.vquant o) s (touchLeaves s c.tm.core false xs) c 4 o.d.toNat used
        (allFlags c fun t => (quantScaled c o x table next t).2) seed
        fun t r => match blockExp e (((quantBlock c (slotBlock x) t).flatMap ins).map (·.1)) with
          | none => r.toNat = 255 * 2 ^ 56
          | some k => elem 8 r 7 = (k + 127).toNat ∧
              (e ≠ 6 → ∀ i < 4, elem (elemBox e) r i =
                (blockElem e rnd (slotFtz x) (draw next t i) k ((ins t).getD i (.nan false, 0)).1).1 % 2 ^ elemBox e) ∧
              (e = 6 →
                let half := fun u => if c.mask.getLsbD u then (ins u).map fun v => scaleNum v.1 (-k)
                  else List.replicate 4 (.fin false 0 0)
                elem 16 r 0 = latticeEncode table (half (t / 2 * 2) ++ half (t / 2 * 2 + 1)) % 2 ^ 16)) ∧
    (e ≠ 6 →
      let f := fun t k => dequant1 x (c.w.getV o.a.toNat t) (2 * ((c.w.getV o.b.toNat t).toNat % 2) + k)
      VecDone (.vdequant o) s c 4 o.d.toNat used (allFlags c fun t => elemFlags 2 fun k => (f t k).2) c.w.seed
        fun t r => ∀ k < 2, elem 32 r k = (f t k).1 % 2 ^ 32) ∧
    (e = 6 → ∀ es xs, entryReads c o x (threads c.mask) = .ok (es, xs) →
      let f := fun t k => convertFp f32 (latticeWeight (Machine.get 0 es t) (elem 16 (c.w.getV o.a.toNat t) 0)
        (elem 8 (c.w.getV o.a.toNat t) 7) (2 * ((c.w.getV o.b.toNat t).toNat % 4) + k)) .rne false (slotFtz x) 0
      VecDoneIn (.vcbdec o) s (touchLeaves s c.tm.core false xs) c 4 o.d.toNat used
        (allFlags c fun t => elemFlags 2 fun k => (f t k).2) c.w.seed
        fun t r => ∀ k < 2, elem 32 r k = (f t k).1 % 2 ^ 32)

/-- 08 R210 to R214, R220 to R223, R225, R230; 09 R262, R263: a matrix instruction whose slots, block, token and ranges may be used is
accepted with the ranges that its parameter block names, and its flag counts up; the stores that L1s hold to words of its destination
are performed first.
It rests on the choices of log entries 30, 35 and 45. -/
def Obligations.MatrixIssues : Prop :=
  ∀ (s s1 : State) (c : Issue), EndsSafety s s1 3 → Runs s1 c 4 → c.w.role = .solo →
    (∀ (o : OpFG2), FlagFree c o.fsel → Unpoisoned c [] [o.f2.toNat] [] →
      let off := (c.w.getS o.f2.toNat).toNat
      let x := slotOfLaunch c.g.launch o.g.toNat
      off % 64 = 0 → off + 64 ≤ c.g.launch.spBytes → c.tm.clobbers (off + 0x38) 8 = false →
      slotValid x = true → slotSparse x = 0 → ∀ r, SpRead c off 64 r →
      let p := bytesAt c r
      let c1 := touching c r
      (slotElem x ≠ 6 → MmaRoom c → ScoreRoom c 3 →
        let xb := mmaBSlot c.g.launch p
        slotValid xb = true → tokenFault c (field p 0 1 % 8) true false = none → field p 0x10 4 % 4 = 0 →
        field p 0x14 4 % 4 = 0 → field p 0x20 4 % 4 = 0 → blocksAligned xb (mmaK p) = true → streamPages c p o.g.toNat = none →
        latticePages c xb = none → ∀ lat xs, latticeAt c1 xb = .ok (lat, xs) →
          EngineIssued (.mma o) s (touchLeaves c1.s c.tm.core false (streamXs c1 p o.g.toNat ++ xs)) c (c.flag o.fsel) c.w.seed
            (.mma p off o.g.toNat lat false 0 0) (mmaReads c1 p o.g.toNat) (sideRng c1 true true (off + 0x38) 8)) ∧
      (slotElem x ≠ 7 → slotElem x ≠ 8 → ScoreRoom c 2 → field p 0 8 % 4 = 0 → field p 8 4 % 4 = 0 →
        field p 0x10 8 % 4 = 0 → field p 0x18 4 % 4 = 0 → latticePages c x = none → ∀ lat xs, latticeAt c1 x = .ok (lat, xs) →
          let seed := if slotRnd x = 5 then seedStep c.w.seed else c.w.seed
          EngineIssued (.qcopy o) s (touchLeaves c1.s c.tm.core false xs) c (c.flag o.fsel) seed
            (.qcopy p off o.g.toNat lat seed) (qcopyRanges c1 p off x).1 (qcopyRanges c1 p off x).2)) ∧
    (∀ (o : OpTile), FlagFree c o.fsel →
      ∀ row ∈ [(Instr.tkacq o, 1, true, false), (.tkrel o, 2, false, true), (.tswap o, 3, true, true), (.tzero o, 4, true, true)],
        (match holderAt s1 (clusterOf c.tm.core) o.c.toNat with
          | none => row.2.2.1 = true
          | some w => row.2.2.2 = true ∧ w = c.w.id) →
        OpIssued row.1 s s1 c (c.flag o.fsel) [] fun k => k = .tile row.2.1 o.c.toNat) ∧
    (∀ (o : OpTRow), FlagFree c o.fsel → Unpoisoned c [] [o.sp.toNat, o.rows.toNat] [] → ScoreRoom c 1 →
      let sp := (c.w.getS o.sp.toNat).toNat
      let rows := (c.w.getS o.rows.toNat).toNat
      let raw := bitsN rows 17 1 = 1
      let x := slotOfLaunch c.g.launch o.g.toNat
      let n := (rowSpan rows).2 * rowElemBytes rows x * 128
      let seed := if ¬ raw ∧ slotRnd x = 5 then seedStep c.w.seed else c.w.seed
      (raw ∨ (slotValid x = true ∧ rowSlot x = true)) → (bitsN rows 16 1 = 1 → tokenFault c o.c.toNat false true = none) →
      sp % 16 = 0 → 256 ≤ sp → sp + n ≤ c.g.launch.spBytes →
      (∀ r, resolve c .own .write sp n = .ok r →
        EngineIssued (.tread o) s (touchLeaves s1 c.tm.core true r.xs) c (c.flag o.fsel) seed
          (.tileRows false o.c.toNat sp (rows % 2 ^ 19) o.g.toNat seed r.places) [] (sideRng c true true sp n)) ∧
      ∀ r, SpRead c sp n r →
        EngineIssued (.twrite o) s (touching c r).s c (c.flag o.fsel) seed
          (.tileRows true o.c.toNat sp (rows % 2 ^ 19) o.g.toNat seed r.places) (sideRng c true false sp n) []) ∧
    ∀ (o : OpF2), FlagFree c o.fsel → Unpoisoned c [] [o.f2.toNat] [] → ScoreRoom c 2 →
      let off := (c.w.getS o.f2.toNat).toNat
      off % 64 = 0 → off + 64 ≤ c.g.launch.spBytes → c.tm.clobbers (off + 0x38) 8 = false → ∀ r, SpRead c off 64 r →
      let d := bytesAt c r
      let x := slotOfLaunch c.g.launch (field d 0x0C 1 % 8)
      slotValid x = true → field d 0 8 % 4 = 0 → field d 8 4 % 4 = 0 → field d 0x14 4 % 4 = 0 →
      ((field d 0x0F 1).testBit 0 = true → blocksAligned x (field d 0x10 4) = true) →
      EngineIssued (.colload o) s (touching c r).s c (c.flag o.fsel) c.w.seed (.colload d off) (colReads (touching c r) d)
        (sideRng (touching c r) true true (off + 0x38) 8)

/-- 08 R218, R220 to R224, Tables 08-6 and 08-7: a token or bank instruction takes effect in acceptance order, on its own tile
alone; tread and twrite move the rows they name, element by element, and nothing else, once what their core stored before them
has been performed. Under conditions on the state and the operands alone `exec` answers a next state for tileInstrEffect and
tileRowsComplete.
It rests on the choices of log entry 48. -/
def Obligations.TileResults : Prop :=
  ∀ (s : State) (o : Op) (w : Wave) (c : Issue), Flying s o w c → tileTurn s o = true →
    let n := opCluster s o
    let k := s.cluster n
    (∀ minor tile, o.kind = .tile minor tile →
      OpDone (.tileInstrEffect o.id) s o fun t _ =>
        let k' := t.cluster n
        (minor = 1 → k'.holder tile = some o.wave) ∧ (minor = 2 → k'.holder tile = none) ∧
        (∀ row < 128, ∀ col < 128,
          (minor = 3 → ∀ b, k'.elem tile b row col = k.elem tile (!b) row col) ∧
          (minor = 4 → k'.elem tile true row col = 0 ∧ k'.elem tile false row col = k.elem tile false row col) ∧
          ((minor = 1 ∨ minor = 2) → ∀ b, k'.elem tile b row col = k.elem tile b row col) ∧
          ∀ u b, u ≠ tile → k'.elem u b row col = k.elem u b row col) ∧ k'.cols = k.cols ∧ t.mem = s.mem) ∧
    ∀ write tile sp rows slot seed ps, o.kind = .tileRows write tile sp rows slot seed ps → canEngine s o = true →
      let s1 := beforeEngine (s.dropOp o.id) o
      let x := slotOfLaunch c.g.launch slot
      let z := rowElemBytes rows x
      let bank := bitsN rows 16 1 == 1
      let first := (rowSpan rows).1
      let count := (rowSpan rows).2
      (write = true → (∀ q ∈ ps, placeMark s1 c.tm q = .ok) →
        let bs := ps.map (placeByte s1 c.w c.tm)
        let v := fun i => tileIn rows x (draw seed 0 i) (leNat ((bs.drop (z * i)).take z))
        ∃ t w', exec (.tileRowsComplete o.id) s = .next t ∧ t.wave? o.wave = some w' ∧
          FlagDown w w' o.flag (orAll ((List.range (128 * count)).map fun i => (v i).2)) ∧ t.teams = s.teams ∧ t.mem = s1.mem ∧
          ∀ row < 128, ∀ col < 128, ∀ u b, (t.cluster n).elem u b row col =
            if u = tile ∧ b = bank ∧ first ≤ row ∧ row < first + count then (v (128 * (row - first) + col)).1 % 2 ^ 32
            else k.elem u b row col) ∧
      (write = false → ps = (List.range (z * (128 * count))).map (fun i => .sp c.tm.id (sp + i)) → 256 ≤ sp →
        let v := fun i => tileOut rows x (draw seed 0 i) (k.elem tile bank (first + i / 128) (i % 128))
        ∃ t w' tm, exec (.tileRowsComplete o.id) s = .next t ∧ t.wave? o.wave = some w' ∧
          FlagDown w w' o.flag (orAll ((List.range (128 * count)).map fun i => (v i).2)) ∧ t.clusters = s.clusters ∧
          t.mem = s1.mem ∧ t.team? c.tm.id = some tm ∧
          (∀ i < 128 * count, tm.spNat (sp + z * i) z = (v i).1 % 2 ^ (8 * z)) ∧
          ∀ a, (a < sp ∨ sp + z * (128 * count) ≤ a) → tm.spByte a = c.tm.spByte a)

/-- 08 R204, R206, R207, R210, R215, R219, R227, R231; 05 R145: a parameter block that breaks a rule ends its operation with its
code; a grant advances one operation by one pass; the last pass writes the whole window and nothing else; a column-store load
and a quantising copy report their columns and rows. Each ends by writing STATUS and counting its flag down, and acts once what
its core stored before it has been performed. Under conditions on the state and the operands alone `exec` answers a next state
for mmaAccept, mmaGrant, colloadComplete and qcopyComplete.
It rests on the choices of log entries 46, 49, 50 and 89. -/
def Obligations.MatrixCompletes : Prop :=
  ∀ (s : State) (o : Op) (w : Wave) (c : Issue), Flying s o w c →
    let n := opCluster s o
    let k := s.cluster n
    let s1 := beforeEngine (s.dropOp o.id) o
    let ends := fun (i : Instr) (off st : Nat) (P : State → Prop) =>
      ∃ t w' tm, exec i s = .next t ∧ t.wave? o.wave = some w' ∧ FlagDown w w' o.flag 0 ∧ t.op? o.id = none ∧
        t.team? c.tm.id = some tm ∧ tm.spNat (off + 0x38) 8 = st % 2 ^ 64 ∧ P t
    (∀ p off a lat acc skip passes, o.kind = .mma p off a lat acc skip passes → 256 ≤ off + 0x38 →
      c.tm.stashed (off + 0x38) 8 = false →
      (acc = false → match firstCode (mmaChecks c.g.launch p a) with
        | some (fld, code) => ends (.mmaAccept o.id) off (mxStatus code fld 0 0) fun t => t.clusters = s.clusters
        | none => ∃ t, exec (.mmaAccept o.id) s = .next t ∧ t.waves = s.waves ∧ t.teams = s.teams ∧ t.clusters = s.clusters ∧
            t.op? o.id = some { o with kind := .mma p off a lat true 0 0 }) ∧
      (acc = true → grantee (eligible s n) = some o →
        (passes + 1 < mmaPasses c.g.launch p a → ∃ t o', exec (.mmaGrant n) s = .next t ∧ t.waves = s.waves ∧
          t.clusters = s.clusters ∧ t.op? o.id = some o' ∧ o'.kind = .mma p off a lat true 0 (passes + 1)) ∧
        (let s2 := beforeEngine { s with ops := s.ops.map fun e => e.granted o.id (passedOver (eligible s n) o) } o
         let c2 := { c with s := s2 }
         mmaPasses c.g.launch p a ≤ passes + 1 → mmaBad s2 c2 k p a lat = false →
          firstCode (mmaChecks c.g.launch p a) = none →
          let win := mmaWindow s2 c2 k p a lat
          ends (.mmaGrant n) off (mxStatus 1 0 (mmaPasses c.g.launch p a) (orAll (win.map (·.2.2.2)))) fun t =>
            ∀ row < 128, ∀ col < 128, ∀ u b, (t.cluster n).elem u b row col =
              match if u = field p 0 1 % 8 ∧ b = true then win.find? fun e => e.1 == row && e.2.1 == col else none with
              | some e => e.2.2.1 % 2 ^ 32
              | none => k.elem u b row col))) ∧
    (∀ d off, o.kind = .colload d off → 256 ≤ off + 0x38 → c.tm.stashed (off + 0x38) 8 = false →
      match firstCode (colChecks c.g.launch d) with
      | some (fld, code) => ends (.colloadComplete o.id) off (mxStatus code fld 0 0) fun t => t.clusters = s.clusters
      | none => canEngine s o = true → colWaits s o = false →
          let r := loadCols c d (field d 0x0E 1) 0 s1 k false
          ends (.colloadComplete o.id) off
            (mxStatus (if r.2.2.2.1 then (if r.2.2.2.2 then 9 else 1) else 8) 0 r.2.2.1 0) fun t =>
              ∀ s2 bs, field d 0x0E 1 = 1 → field d 0x0F 1 = 1 →
                let x := slotOfLaunch c.g.launch (field d 0x0C 1 % 8)
                let len := columnBytes x (field d 0x10 4)
                slotScale x = 0 → field d 0 8 % 65536 + len ≤ 65536 → engineRead c s1 (field d 0 8) len = .ok (s2, bs) →
                ∀ i < 49152, (t.cluster n).colByte (field d 0x0D 1) i =
                  if field d 0x14 4 ≤ i ∧ i < field d 0x14 4 + len then ((bs.map (·.1)).getD (i - field d 0x14 4) 0)
                  else k.colByte (field d 0x0D 1) i) ∧
    ∀ d off slot lat seed, o.kind = .qcopy d off slot lat seed → 256 ≤ off + 0x38 → c.tm.stashed (off + 0x38) 8 = false →
      let x := slotOfLaunch c.g.launch slot
      match firstCode (qChecks c d x) with
      | some (fld, code) => ends (.qcopyComplete o.id) off (mxStatus code fld 0 0) fun t => t.mem = s.mem
      | none => canEngine s o = true →
          let r := performQcopy c s1 d x lat seed
          ends (.qcopyComplete o.id) off (mxStatus r.2.2.1 0 r.2.1 r.2.2.2) fun t => t.mem = r.1.mem

/-! ## Control -/

/-- 04 R83, R84, R113; 14 R331 to R333; 18 R412; 02 R47: a clause header enters its clause and waits for the flags it names; a branch,
call or return at the end of its body moves each active thread to its own target; bprio gives the threads their new priority;
tret returns them from system mode.
It rests on the choices of log entries 16 and 67. -/
def Obligations.ControlTransferResults : Prop :=
  (∀ (o : OpHdr) (s : State) (c : Issue), issuing s = some c → c.e.ctx = none → okHeader o = true →
    ∃ t w, exec (.clauseHeader o) s = .next t ∧ OnlyWave s t c w ∧
      w = { c.w with frontier := w.frontier, sel := some (c.e.prio, c.e.pc + 4), state := w.state } ∧
      (if ((List.range 12).all fun n => !o.wait.getLsbD n || c.w.getF n == 0) = true then w.state = .ready else w.state = .waitFlags o.wait) ∧
      Jumped c w c.e.prio (fun _ => c.e.pc + 4) ∧
      (c.mask ≠ 0 → (∀ x ∈ c.w.frontier, x.prio = c.e.prio → x.pc ≠ c.e.pc + 4) →
        ⟨c.e.prio, c.e.pc + 4, c.mask,
          some ⟨c.e.pc, o.flagA.toNat, o.flagB.toNat, c.e.pc + 4 + 2 * (o.len.toNat + 1)⟩⟩ ∈ w.frontier)) ∧
  (∀ (s : State) (c : Issue), Runs s c 4 →
    (∀ (o : OpBprio), ∃ t w, exec (.bprio o) s = .next t ∧ OnlyWave s t c w ∧ Moved c c.w w ∧
      Jumped c w o.n.toNat fun _ => c.e.pc + 4) ∧
    (LastOf c →
      (∀ (o : OpBra),
        let takes := fun th => c.w.getP o.p.toNat th != (o.neg == 1)
        (o.uni = 1 → ∀ th ∈ threads c.mask, takes th = takes c.low) →
        ∃ t w, exec (.bra o) s = .next t ∧ OnlyWave s t c w ∧ Moved c c.w w ∧ Jumped c w c.e.prio fun th =>
          if takes th then wrapN 64 (((c.e.ctx.map (·.hdr)).getD 0 : Int) + 4 * o.off.toInt) else c.e.pc + 4) ∧
      (∀ (o : OpBrx), Declared c [o.t.toNat] [] → Unpoisoned c [o.t.toNat] [] [] →
        (o.uni = 1 → ∀ th ∈ threads c.mask, c.w.getV o.t.toNat th = c.w.getV o.t.toNat c.low) →
        ∃ t w, exec (.brx o) s = .next t ∧ OnlyWave s t c w ∧ Moved c c.w w ∧
          Jumped c w c.e.prio fun th => (c.w.getV o.t.toNat th).toNat) ∧
      (∀ (o : OpY12), Declared c [o.f1.toNat] [] → Unpoisoned c [] [o.f2.toNat] [] →
        ∃ t w, exec (.call o) s = .next t ∧ OnlyWave s t c w ∧ Moved c { c.w with v := w.v, vBad := w.vBad, vDirty := w.vDirty } w ∧
          (∀ r th, th < 32 → w.getV r th = putV c o.f1.toNat (fun _ => BitVec.ofNat 64 (c.e.pc + 4)) r th) ∧
          Jumped c w c.e.prio fun _ => (c.w.getS o.f2.toNat).toNat) ∧
      ∀ (o : OpY2), Declared c [o.f2.toNat] [] → Unpoisoned c [o.f2.toNat] [] [] →
        ∃ t w, exec (.ret o) s = .next t ∧ OnlyWave s t c w ∧ Moved c c.w w ∧
          Jumped c w c.e.prio fun th => (c.w.getV o.f2.toNat th).toNat)) ∧
  ∀ (s s1 : State) (c : Issue), EndsSafety s s1 3 → Runs s1 c 4 → c.w.sysMode = true → c.mask = c.w.sysMask →
    (bitsN c.w.trapCtx.toNat 63 1 = 1 → bitsN c.w.trapPc.toNat 1 51 < bitsN c.w.trapCtx.toNat 1 51) →
    ∃ t w, exec .tret s = .next t ∧ OnlyWave s1 t c w ∧ Moved c { c.w with sysMode := false, sysMask := 0 } w ∧
      Jumped c w c.e.prio fun _ => 2 * bitsN c.w.trapPc.toNat 1 51

/-- 14 R334, R336 to R340; 18 R413: reconvergence barriers, yields, exits, traps and breakpoints, and halt.
It rests on the choices of log entry 14. -/
def Obligations.WaveControlResults : Prop :=
  (∀ (s : State) (c : Issue), Runs s c 4 →
    (∀ (o : OpRcv),
      let i := o.id.toNat
      let member := Machine.get 0#32 c.w.rcvMember i
      let waiting := Machine.get 0#32 c.w.rcvWait i ||| (c.mask &&& member)
      (Machine.get 0#32 c.w.rcvWait i = 0 → ∃ t w, exec (.rcvset o) s = .next t ∧ OnlyWave s t c w ∧
        Passed c 4 { c.w with rcvMember := w.rcvMember } w ∧
        ∀ j, Machine.get 0#32 w.rcvMember j = if j = i then c.mask else Machine.get 0#32 c.w.rcvMember j) ∧
      ∃ t w, exec (.rcvwait o) s = .next t ∧ OnlyWave s t c w ∧ Moved c { c.w with rcvWait := w.rcvWait } w ∧
        (Machine.get 0#32 w.rcvWait i = if waiting ≠ 0 ∧ member &&& ~~~waiting = 0 then 0 else waiting) ∧
        ((∀ j, j ≠ i → Machine.get 0#32 c.w.rcvWait j ≠ 0 → Machine.get 0#32 c.w.rcvMember j &&& ~~~Machine.get 0#32 c.w.rcvWait j ≠ 0) →
          ∀ th < 32, waiting.getLsbD th = false ∨ member &&& ~~~waiting ≠ 0 → ∀ p q,
            (StandsAt w.frontier th p q ↔
              if c.mask.getLsbD th = true ∧ waiting.getLsbD th = false then p = c.e.prio ∧ q = c.e.pc + 4 else StandsAt c.w.frontier th p q))) ∧
    (∃ t w, exec .exit s = .next t ∧ OnlyWave s t c w ∧
      Moved c { c.w with rcvMember := w.rcvMember, rcvWait := w.rcvWait, sysMode := w.sysMode,
                         sysMask := c.w.sysMask &&& ~~~c.mask } w ∧
      ∀ th < 32, ((∃ p q, StandsAt w.frontier th p q) ↔ c.mask.getLsbD th = false ∧ ∃ p q, StandsAt c.w.frontier th p q)) ∧
    (c.w.role = .solo → c.w.state = .ready →
      let parks := fun (i : Instr) kind code => ∃ t w, exec i s = .next t ∧ t.wave? c.w.id = some w ∧
        (∀ j, j ≠ c.w.id → t.wave? j = s.wave? j) ∧
        t = { s with waves := t.waves, stalled := [], records := s.records ++ [c.record kind code c.low (c.e.pc + 4) 0 0] } ∧
        w = { c.w with state := .parked, block := none, fence := none, held := false, frontier := w.frontier,
                       sel := some (c.e.prio, c.e.pc + 4), left := c.w.left - 1, retired := c.w.retired + 1 } ∧
        Jumped c w c.e.prio fun _ => c.e.pc + 4
      (∀ (o : OpTrap), parks (.trap o) 1 o.code.toNat) ∧ (c.cx.debug = true → parks .brk 2 0)) ∧
    (c.cx.debug = false → ∃ t w, exec .brk s = .next t ∧ OnlyWave s t c w ∧ Passed c 4 c.w w)) ∧
  (∀ (s s1 : State) (c : Issue), EndsSafety s s1 3 → Runs s1 c 4 → c.w.role = .solo → c.w.state = .ready → c.w.sysMode = true →
    ∃ t w, exec .halt s = .next t ∧ t.wave? c.w.id = some w ∧ w.state = .parked ∧ w.retired = c.w.retired + 1 ∧
      t.records = s1.records ++ [c.record 3 0 c.low (c.e.pc + 4) 0 0] ∧ t.mem = s1.mem) ∧
  ∀ (o : OpYield) (s : State) (c : Issue), issuing s = some c → (∃ x, c.e.ctx = some x ∧ c.e.pc + 4 ≤ x.endPc) →
    o.live.toNat ≤ 64 → o.n.toNat ≤ c.g.launch.yieldMax → o.live.toNat ≤ c.g.launch.vregs →
    ∃ t w, exec (.yield o) s = .next t ∧ OnlyWave s t c w ∧
      w = { c.w with frontier := w.frontier, sel := w.sel, state := w.state, block := w.block,
                     left := 2 ^ (o.n.toNat + 6), retired := c.w.retired + 1 } ∧
      (c.halting = true → w.state = .atYield o.live.toNat) ∧ Jumped c w c.e.prio fun _ => c.e.pc + 4

/-- 14 R341, R342: a stage queue takes 63 bits of a value while it has room, gives its oldest entry (an acquire), and holds its wave
Blocked otherwise; with the other side retired, a send is discarded and a receive answers 2^63.
It rests on the choices of log entry 14. -/
def Obligations.StageQueueResults : Prop :=
  (∀ (o : OpY2) (s s1 : State) (c : Issue), EndsSafety s s1 3 → Runs s1 c 4 → c.w.role = .solo → Settled c →
    c.stage + 1 < c.g.launch.stages → c.g.launch.stages ≤ 4 → Unpoisoned c [] [o.f2.toNat] [] →
    let q := c.tm.queue c.spatial c.stage
    (waveRetired s1 c.tm.id (c.w.w + c.g.launch.waves) = true →
      ∃ t w, exec (.qsend o) s = .next t ∧ OnlyWave s1 t c w ∧ Passed c 4 c.w w) ∧
    (waveRetired s1 c.tm.id (c.w.w + c.g.launch.waves) = false → q.length < c.g.launch.stageDepth →
      ∃ t w tm, exec (.qsend o) s = .next t ∧ t.wave? c.w.id = some w ∧ Passed c 4 c.w w ∧ t.mem = s1.mem ∧
        t.team? c.tm.id = some tm ∧
        ∀ i st, i < 32 → st < 4 → tm.queue i st = if i = c.spatial ∧ st = c.stage
          then q ++ [BitVec.ofNat 64 ((c.w.getS o.f2.toNat).toNat % 2 ^ 63)] else c.tm.queue i st) ∧
    (waveRetired s1 c.tm.id (c.w.w + c.g.launch.waves) = false → c.g.launch.stageDepth ≤ q.length →
      ∃ t, exec (.qsend o) s = .next t ∧ BlockedOn t c .queue ∧ t.teams = s1.teams)) ∧
  ∀ (o : OpD) (s : State) (c : Issue), Runs s c 4 → c.w.role = .solo → c.stage ≠ 0 →
    (∀ x q, c.tm.queue c.spatial (c.stage - 1) = x :: q →
      ∃ t w tm, exec (.qrecv o) s = .next t ∧ t.wave? c.w.id = some w ∧
        Passed c 4 { c.w with s := w.s, sBad := w.sBad, fenced := s.nextId } w ∧ (∀ r, w.getS r = putS c o.d.toNat x r) ∧ t.mem = s.mem ∧
        t.team? c.tm.id = some tm ∧ tm.queue c.spatial (c.stage - 1) = q) ∧
    (c.tm.queue c.spatial (c.stage - 1) = [] →
      (waveRetired s c.tm.id (c.w.w - c.g.launch.waves) = true →
        ∃ t w, exec (.qrecv o) s = .next t ∧ OnlyWave s t c w ∧ SetsS c w [(o.d.toNat, BitVec.ofNat 64 (2 ^ 63))]) ∧
      (waveRetired s c.tm.id (c.w.w - c.g.launch.waves) = false →
        ∃ t, exec (.qrecv o) s = .next t ∧ BlockedOn t c .queue ∧ t.teams = s.teams))

/-! ## Keyspaces and work lists -/

/-- 15 R366 to R376, R382 to R384; 09 R262: a key or list instruction whose keyspace or list is set up and whose keys are well formed
goes to its unit, which owns the words that it may write from then on; there one thread after another has its action, in the order of the instructions; and with the last one the
results are written and the flag counts down. Under conditions on the state and the operands alone `exec` answers a next state
for keyUnitStep, workListStep, krefine, kcoarsen, kneigh, kowner, kcost, kclaim, krelease, kiter, wpush, wpop, wins and wcount.
It rests on the choices of log entries 35, 51 and 77. -/
def Obligations.KeyInstructionResults : Prop :=
  (∀ (a : OpK12) (n : OpKneigh) (p : OpKcost) (r : OpFG2), ∀ row ∈ keyRows a n p r, WellFormed row.1 →
    let (i, fsel, k, minor, face, f1, f2, f3, dests, srcs) := row
    ∀ (s s1 : State) (c : Issue) (ks : Keyspace), EndsSafety s s1 3 → Runs s1 c 4 → c.w.role = .solo → FlagFree c fsel → ScoreRoom c 1 →
      Declared c (dests ++ srcs) [] → Unpoisoned c srcs [] [] → s1.keyspace? c.g.part k = some ks →
      (minor = 2 → face < 2 * ks.dim) →
      (∀ t ∈ threads c.mask, let key := (c.w.getV f2 t).toNat
        (if minor = 7 then bitsN key 0 10 < ks.sectors.length else keyOk ks key = true) ∧
        pageBlocked s1 ks (keyReads s1 ks minor face key) = none ∧ markBlocked s1 ks (keyReads s1 ks minor face key) = none) →
      EngineIssued i s s1 c (c.flag fsel) c.w.seed
        (.key minor k face f1 ((threads c.mask).map fun t => (t, c.w.getV f2 t, c.w.getV f3 t)) []) []
        (keyDests s1 ks minor face ((threads c.mask).map fun t => (c.w.getV f2 t).toNat))) ∧
  (∀ (a : OpWpush) (b : OpWout) (d : OpWins),
    ∀ row ∈ [(Instr.wpush a, a.fsel, a.list.toNat, 9, 0, some a.f2.toNat, ([] : List Nat)), (.wpop b, b.fsel, b.list.toNat, 10,
        b.f1.toNat, none, [b.f1.toNat]), (.wins d, d.fsel, d.list.toNat, 11, d.f1.toNat, some d.f2.toNat, [d.f1.toNat]),
        (.wcount b, b.fsel, b.list.toNat, 12, b.f1.toNat, none, [])],
      let (i, fsel, n, minor, f1, f2, dests) := row
      ∀ (s s1 : State) (c : Issue), EndsSafety s s1 3 → Runs s1 c 4 → c.w.role = .solo → FlagFree c fsel →
        Declared c (dests ++ f2.toList) [] → Unpoisoned c f2.toList [] [] → (s1.list? c.g.part n).isSome = true →
        (∀ r ∈ f2, ∀ t ∈ threads c.mask, c.w.getV r t ≠ -1) →
        OpIssued i s s1 c (c.flag fsel) [] fun x => ∃ todo, x = .list minor n f1 todo [] ∧
          (minor = 12 → todo = [(0, 0)]) ∧ (minor ≠ 12 → todo = (threads c.mask).map fun t => (t, c.w.getV (f2.getD 0) t))) ∧
  (∀ (s : State) (o : Op) (w : Wave) (part minor k face f1 th : Nat) (key amount : Word) (todo : List (Nat × Word × Word))
      (done : List RegWrite) (ks : Keyspace),
    s.op? o.id = some o → o.kind = .key minor k face f1 ((th, key, amount) :: todo) done → opPart s o = some part →
    s.wave? o.wave = some w → w.role = .solo → s.keyspace? part k = some ks → oldestOf s o Op.keyOf = true →
    stepWaits s o o.keyReleases = false → s.tenures = [] →
    let reads := keyReads s ks minor face key.toNat
    markBlocked s ks reads = none → actionWaits s o part minor (rngLocs (actionRngs s ks minor reads)) = false →
    let r := keyAction (stepOrders s o o.keyReleases false) ks minor face f1 th key amount
    let w1 := if keyAcquired minor r.2 then { w with fenced := s.nextId } else w
    (minor = 3 → r.2 = [.v f1 th (BitVec.ofNat 64 (lookupWord ks key.toNat (findLive s ks key.toNat).isSome 0 0))]) ∧
    (todo = [] → ∃ t w', exec (.keyUnitStep o.id) s = .next t ∧ t.wave? o.wave = some w' ∧
      w' = ((w1.writes (done ++ r.2)).flagDown o.flag).lvqDrop o.id ∧ t.op? o.id = none) ∧
    (todo ≠ [] → ∃ t, exec (.keyUnitStep o.id) s = .next t ∧ t.wave? o.wave = some w1 ∧ t.mem = r.1.mem ∧
      t.op? o.id = some { o with kind := .key minor k face f1 todo (done ++ r.2) })) ∧
  ∀ (s : State) (o : Op) (w : Wave) (part minor n f1 th : Nat) (key : Word) (l : WorkList),
    s.op? o.id = some o → o.kind = .list minor n f1 [(th, key)] [] → opPart s o = some part →
    s.wave? o.wave = some w → w.role = .solo → s.list? part n = some l → oldestOf s o Op.listOf = true →
    stepWaits s o o.keyReleases = false →
    ∃ t w' l', exec (.workListStep o.id) s = .next t ∧ t.wave? o.wave = some w' ∧ t.list? part n = some l' ∧ t.op? o.id = none ∧
      (∀ f, w'.getF f = if f = o.flag then w.getF f - 1 else w.getF f) ∧
      (minor = 9 →
        l' = if 2 ^ l.lcap ≤ l.keys.length ∨ (l.dedup = true ∧ key ∉ l.keys ∧ l.setFull = true) then { l with dropped := min (2 ^ 32 - 1) (l.dropped + 1) }
          else { l with keys := l.keys ++ [key] }) ∧
      (minor = 10 → match l.keys with
        | [] => l' = l ∧ (th < 32 → w'.getV f1 th = -1)
        | x :: rest => l' = { l with keys := rest } ∧ (th < 32 → w'.getV f1 th = x)) ∧
      (minor = 11 → th < 32 →
        (l.dedup = false → l' = l ∧ w'.getV f1 th = 4) ∧
        (l.dedup = true → key ∈ l.keys → l' = l ∧ w'.getV f1 th = 1) ∧
        (l.dedup = true → key ∉ l.keys → 2 ^ l.lcap ≤ l.keys.length → l' = l ∧ w'.getV f1 th = 2) ∧
        (l.dedup = true → key ∉ l.keys → l.keys.length < 2 ^ l.lcap → l.setFull = true → l' = l ∧ w'.getV f1 th = 3) ∧
        (l.dedup = true → key ∉ l.keys → l.keys.length < 2 ^ l.lcap → l.setFull = false →
          l' = { l with keys := l.keys ++ [key] } ∧ w'.getV f1 th = 0)) ∧
      (minor = 12 → l' = l ∧ w'.getS f1 = BitVec.ofNat 64 (l.keys.length + l.dropped * 2 ^ 32))

/-- 15 R377 to R381; 16 R387, R389: krebal starts a rebalance, or says why not; its events take the snapshot, announce a move, hand
patches over, each into a slot of the receiving table with a stub in its place, wait for claims, 4,096 steps in a move, and stop short
then or before a full table, and commit the cut; the rebalance goes on with the moves that are left. Under conditions on the state and the operands alone
`exec` answers a next state for bisectorSnapshot, cutAnnounce, patchHandOver, bisectorStopShort, cutCommit, keyUnitStep and
krebal.
It rests on the choices of log entry 52. -/
def Obligations.RebalanceResults : Prop :=
  (∀ (o : OpKreb) (s s1 : State) (c : Issue), EndsSafety s s1 3 → Runs s1 c 4 → c.w.role = .solo → FlagFree c o.fsel →
    (s1.keyspace? c.g.part o.k.toNat).isSome = true →
    OpIssued (.krebal o) s s1 c (c.flag o.fsel) [] fun x => x = .krebal o.k.toNat o.f1.toNat) ∧
  ∀ (s : State) (part k : Nat) (ks : Keyspace), s.keyspace? part k = some ks → ks.unbindReq = false →
    (∀ (o : Op) (w : Wave) (f1 : Nat), s.op? o.id = some o → o.kind = .krebal k f1 → opPart s o = some part →
      s.wave? o.wave = some w → w.role = .solo → oldestOf s o Op.keyOf = true → stepWaits s o false = false →
      let st := if ks.sectors.length = 1 then 2 else if ks.rebalance.isSome then 1 else 0
      ∃ t w', exec (.keyUnitStep o.id) s = .next t ∧ t.wave? o.wave = some w' ∧
        w' = ((w.writes [.s f1 (BitVec.ofNat 64 st)]).flagDown o.flag).lvqDrop o.id ∧
        t.keyspace? part k = some { ks with rebalance := if st = 0 then some ⟨false, [], none⟩ else ks.rebalance }) ∧
    (∀ l m, ks.rebalance = some ⟨false, l, m⟩ →
      ∃ t, exec (.bisectorSnapshot part k) s = .next t ∧
        match movesLeft ks (movesInOrder ks.cuts (targetCuts s ks)) with
        | [] => t.keyspace? part k = some { ks with rebalance := none }
        | x :: l => t.keyspace? part k = some { ks with rebalance := some ⟨true, x :: l, none⟩ } ∧ t.mem = s.mem) ∧
    (∀ j target l, ks.rebalance = some ⟨true, (j, target) :: l, none⟩ →
      ∃ t, exec (.cutAnnounce part k) s = .next t ∧ t.mem = s.mem ∧
        t.keyspace? part k = some { ks with
          gen := (ks.gen + 1) % 2 ^ 64, rebalance := some ⟨true, l, some ⟨j, cutAt ks j, clampCut ks j target, 0, none⟩⟩ }) ∧
    ∀ l m, ks.rebalance = some ⟨true, l, some m⟩ →
      (∀ i x, m.stop = none → nextPatch s ks m = some (i, x) →
        let give := m.sides.1
        let take := m.sides.2
        (m.waited < waitLimit → x.claims = 0 → fits ks take ((tableSlots s ks take).length + 1) = true → s.tenures = [] →
          let ks' := (ks.addLive give (-1)).addLive take 1
          exec (.patchHandOver part k) s = .next (writeCounts ((writeSlot (insertSlot s ks take x) ks give i
            ⟨x.key, 2, take, 0, 0, 0, 0⟩).setKeyspace ks') ks')) ∧
        (m.waited < waitLimit → x.claims = 0 → fits ks take ((tableSlots s ks take).length + 1) = false →
          exec (.patchHandOver part k) s = .next (s.setKeyspace (ks.setMove { m with stop := some (m.short x.key) }))) ∧
        (m.waited < waitLimit → 0 < x.claims →
          exec (.patchHandOver part k) s = .next (s.setKeyspace (ks.setMove { m with waited := m.waited + 1 }))) ∧
        (waitLimit ≤ m.waited → exec (.patchHandOver part k) s = .next s ∧
          exec (.bisectorStopShort part k) s = .next (s.setKeyspace (ks.setMove { m with stop := some (m.short x.key) })))) ∧
      (m.stop ≠ none ∨ nextPatch s ks m = none →
        let ks' := { ks with gen := (ks.gen + 1) % 2 ^ 64, cuts := ks.cuts.set (m.j - 1) (m.stop.getD m.target), rebalance := none }
        ∃ t, exec (.cutCommit part k) s = .next t ∧
          t.keyspace? part k = some { ks' with rebalance := match movesLeft ks' l with
            | [] => none
            | x :: l => some ⟨true, x :: l, none⟩ })

/-- 15 R360, R382; 17 R390; 18 Table 18-3; 21 R462: the codes of SETUP bind and unbind a keyspace, set up a work list and read a
queue again, where their descriptors keep the limits; each leaves SETUP 0 where it has acted and 2 where it is refused; QRSV_READ reserves a ring slot, and reads zero
through a function that does not see the page (21 R461). Under conditions on the state and the operands alone `exec` answers a next state for qrsvRead, setupBindKeyspace, setupUnbindKeyspace,
setupWorkList and setupRereadQueue.
It rests on the choices of log entries 53 and 54. -/
def Obligations.SetupResults : Prop :=
  ∀ (s : State) (part n : Nat) (p : Partition), s.part? part = some p →
    let ctrl := Machine.get 0 s.out.ctrl part
    let setup := fun (t : State) (x : Nat) => t.parts = s.parts ∧
      ∀ k, Machine.get 0 t.out.setup k = if k = part then x else Machine.get 0 s.out.setup k
    (let d := physField s p.secure (ctrl + 8 * n) 8
      let ks := keyspaceAt s p.id n d
      if n < 8 ∧ s.keyspace? p.id n = none ∧ ((s.ctx? ks.bctx).map fun c => c.part == p.id) = some true ∧ descOk s ks = true ∧
          pagesOk s ks = true ∧ noRegisters s p = false then
        ∃ t ks', exec (.setupBindKeyspace part n) s = .next t ∧ setup t 0 ∧ t.keyspaces = s.keyspaces ++ [ks'] ∧
          ks' = { ks with sectors := ks'.sectors }
      else ∃ t, exec (.setupBindKeyspace part n) s = .next t ∧ setup t 2 ∧ t.keyspaces = s.keyspaces ∧ t.mem = s.mem) ∧
    (s.keyspace? part n = none → ∃ t, exec (.setupUnbindKeyspace part n) s = .next t ∧ setup t 2 ∧ t.keyspaces = s.keyspaces) ∧
    (∀ ks, s.keyspace? part n = some ks → ∃ t, exec (.setupUnbindKeyspace part n) s = .next t ∧
      if ks.rebalance = none ∧ ∀ o ∈ s.ops, o.keyOf = some n → opPart s o ≠ some part then
        setup t 0 ∧ t.keyspace? part n = none
      else setup t 1 ∧ t.keyspace? part n = some { ks with unbindReq := true }) ∧
    (let d := physField s p.secure (ctrl + 0x40 + 8 * n) 8
      let f := fun o k => physField s p.secure (d + o) k
      let dedup := bitsN (f 9 1) 0 1
      let keeps := d ≠ 0 ∧ n < 64 ∧ 13 ≤ f 8 1 ∧ f 8 1 ≤ 28 ∧ f 0 8 % (8 * 2 ^ f 8 1) = 0 ∧ ownsRange s p (f 0 8) (8 * 2 ^ f 8 1) = true ∧
        ownsRange s p d 32 = true ∧ (dedup = 1 → 6 ≤ f 0x0A 1 ∧ f 0x0A 1 ≤ 24 ∧ ownsRange s p (f 0x10 8) (16 * 2 ^ f 0x0A 1) = true) ∧
        (dedup = 0 → f 0x0A 1 = 0 ∧ f 0x10 8 = 0)
      (keeps → ∃ t, exec (.setupWorkList part n) s = .next t ∧ setup t 0 ∧
        t.lists = s.lists.filter (fun l => !(l.part == part && l.n == n)) ++ [⟨part, n, f 8 1, dedup == 1, f 0x0A 1, [], 0⟩]) ∧
      (¬ keeps → ∃ t, exec (.setupWorkList part n) s = .next t ∧ setup t 2 ∧ t.lists = s.lists)) ∧
    (let d := queueDesc s p n
      let f := fun o k => physField s p.secure (d + o) k
      (64 ≤ n → ∃ t, exec (.setupRereadQueue part n) s = .next t ∧ setup t 2 ∧ t.queues = s.queues) ∧
      (n < 64 → f 0 8 = 0 → ∃ t, exec (.setupRereadQueue part n) s = .next t ∧ setup t 0 ∧ t.queue? part n = none) ∧
      (n < 64 → f 0 8 ≠ 0 → f 0 8 % 2048 = 0 → ownsRange s p (f 0 8) 2048 = true → f 8 2 ∈ p.ctxs → f 0x0A 1 ≤ 7 →
        (f 0x14 4 + 2 ^ 32 - f 0x10 4) % 2 ^ 32 ≤ 256 →
        ∃ t, exec (.setupRereadQueue part n) s = .next t ∧ setup t 0 ∧
          t.queue? part n = some ⟨part, n, f 0 8, f 8 2, f 0x0A 1, f 0x10 4, f 0x14 4, 0, none, []⟩)) ∧
    (∀ fn, s.out.stage = 4 → seesPage s fn (partOff part) = false →
      exec (.qrsvRead part ⟨n, fn⟩) s = .next { s with out := { s.out with readback := 0 } }) ∧
    (∀ fn, s.out.stage = 4 → seesPage s fn (partOff part) = true → ∃ t, exec (.qrsvRead part ⟨n, fn⟩) s = .next t ∧ match s.queue? part n with
      | none => t.out.readback = BitVec.ofNat 128 (2 ^ 63 + 2 ^ 62) ∧ t.queues = s.queues
      | some q => if 256 ≤ q.held then t.out.readback = BitVec.ofNat 128 (2 ^ 63) ∧ t.queues = s.queues
          else t.out.readback = BitVec.ofNat 128 (q.tail % 256) ∧ t.queue? part n = some { q with tail := (q.tail + 1) % 2 ^ 32 })

/-! ## System instructions -/

/-- 18 R411, R414, Tables 18-8 and 18-9; 09 R266, R267; 19 R437, R439, R453 to R455: the system registers, the switch of a
region's mode, the request for a hull, the status of the interval, and an injection. Under conditions on the state and the
operands alone `exec` answers a next state for rmodeComplete, sysrd, syswr, rmodeSwm, rmodeCoh, ckpt, rbstat and finj.
It rests on the choices of log entries 17, 44 and 76. -/
def Obligations.SystemInstructionResults : Prop :=
  (∀ (o : OpSys) (s : State) (c : Issue), WellFormed (.sysrd o) → Runs s c 4 → c.w.role = .solo →
    UniDone (.sysrd o) s c 4 o.f1.toNat [] (fun r => r = sysValue c o.num.toNat) ∧
    ∀ row ∈ [(0x000, BitVec.ofNat 64 (c.tm.core % 512)), (0x001, BitVec.ofNat 64 (c.tm.core / 4 % 128)), (0x020, c.w.seed),
        (0x021, c.w.sticky.zeroExtend 64), (0x022, BitVec.ofNat 64 (c.w.ldhint.toNat / 32 * 32 + min 16 (c.w.ldhint.toNat % 32))), (0x025, c.w.trapPc), (0x026, c.w.trapCtx),
        (0x027, c.w.trapHdr)], o.num.toNat = row.1 → sysValue c o.num.toNat = row.2) ∧
  (∀ (o : OpSys) (s s1 : State) (c : Issue), WellFormed (.syswr o) → EndsSafety s s1 3 → Runs s1 c 4 →
    (0x25 ≤ o.num.toNat → c.w.sysMode = true) → Unpoisoned c [] [o.f1.toNat] [] →
    let n := o.num.toNat
    let x := c.w.getS o.f1.toNat
    ∃ t w, exec (.syswr o) s = .next t ∧ OnlyWave s1 t c w ∧ Passed c 4 { c.w with
      seed := if n = 0x20 then (if x = 0 then 1 else x) else c.w.seed
      sticky := if n = 0x21 then x.setWidth 9 else c.w.sticky
      ldhint := if n = 0x22 then x.setWidth 6 else c.w.ldhint
      trapPc := if n = 0x25 then x &&& 0x000FFFFFFFFFFFFE#64 else c.w.trapPc
      trapCtx := if n = 0x26 then x &&& 0x8FFFFFFFFFFFFFFE#64 else c.w.trapCtx
      trapHdr := if n = 0x27 then x &&& 0x000FFFFFFFFFFFFC#64 else c.w.trapHdr } w) ∧
  (∀ (o : OpF2), ∀ row ∈ [(Instr.rmodeSwm o, false), (.rmodeCoh o, true)], WellFormed row.1 →
    ∀ (s s1 : State) (c : Issue), EndsSafety s s1 3 → Runs s1 c 4 → c.w.role = .solo → FlagFree c o.fsel →
    Unpoisoned c [] [o.f2.toNat, o.f2.toNat + 1] [] →
    let base := (c.w.getS o.f2.toNat).toNat
    let len := (c.w.getS (o.f2.toNat + 1)).toNat
    base % 65536 = 0 → len % 65536 = 0 → ∀ pages xs, rmodePages c (pageFuel len) base len = .ok (pages, xs) →
    (len = 0 → ∃ t w, exec row.1 s = .next t ∧ OnlyWave s1 t c w ∧ Passed c 4 c.w w) ∧
    (len ≠ 0 → OpIssued row.1 s (touchLeaves s1 c.tm.core false xs) c (c.flag o.fsel) [] fun k => k = .rmode row.2 pages)) ∧
  (∀ (s : State) (o : Op) (w : Wave) (coherent : Bool) (pages : List Nat), s.op? o.id = some o → o.kind = .rmode coherent pages →
    s.wave? o.wave = some w → w.role = .solo → (s.team? o.team).isSome = true → writesOutstanding s o pages = false →
    canEngine s o = true → (∀ k < 512, cleanWaits s k (fun word => pages.contains (word / 4096)) = false) →
    OpDoneAt (fun _ => s.nextId) (.rmodeComplete o.id) s o fun t _ =>
      (∀ p, Machine.get false t.swm p = if p ∈ pages then !coherent else Machine.get false s.swm p) ∧
      ((coherent = true ∨ ∀ e ∈ s.pend, e.word / 4096 ∉ pages) →
        (∀ b ∈ t.blocks, b.frame / 256 ∉ pages) ∧ ∀ g ∈ t.guests, g.word / 4096 ∉ pages)) ∧
  (∀ (o : OpF1) (s s1 : State) (c : Issue), EndsSafety s s1 3 → Runs s1 c 4 → c.w.role = .solo → FlagFree c o.fsel →
    let answers := fun x (P : State → Prop) => ∃ t w, exec (.ckpt o) s = .next t ∧ t.wave? c.w.id = some w ∧
      SetsS c w [(o.f1.toNat, BitVec.ofNat 64 x)] ∧ t.mem = s1.mem ∧ P t
    (∀ gen, c.g.hullReq = some gen → answers (gen * 256 + 1) fun t => t.grids = s1.grids) ∧
    (c.g.hullReq = none → slotUsable s1 c.cx (hullTarget s1 c.cx) = false →
      answers (c.cx.hullGen * 256 + 2) fun t => t.grids = s1.grids) ∧
    (c.g.hullReq = none → slotUsable s1 c.cx (hullTarget s1 c.cx) = true →
      answers ((c.cx.hullGen + 1) * 256) fun t =>
        t.grid? c.g.id = some { c.g with state := .halting, hullReq := some (c.cx.hullGen + 1) } ∧
        (t.ctx? c.cx.id).map (·.hullGen) = some (c.cx.hullGen + 1))) ∧
  (∀ (o : OpD) (s : State) (c : Issue), Runs s c 4 →
    UniDone (.rbstat o) s c 4 o.d.toNat [] fun r => r = BitVec.ofNat 64 (rbWord c.tm.interval)) ∧
  ∀ (o : OpD) (s : State) (c : Issue), Runs s c 4 → c.cx.debug = true → Unpoisoned c [] [o.d.toNat] [] →
    let x := (c.w.getS o.d.toNat).toNat
    let kind := bitsN x 0 3
    (∀ l, c.w.role = .trailer l → ∃ t w, exec (.finj o) s = .next t ∧ OnlyWave s t c w ∧ Passed c 4 c.w w) ∧
    ((∀ l, c.w.role ≠ .trailer l) → bitsN x 3 10 = 0 →
      (kind = 0 ∨ kind = 3 → ∃ t w, exec (.finj o) s = .next t ∧ OnlyWave s t c w ∧
        Passed c 4 { c.w with finj := some ⟨kind, bitsN x 24 8⟩ } w) ∧
      (kind = 1 → bitsN x 18 6 < c.g.launch.vregs → ∃ t w, exec (.finj o) s = .next t ∧ OnlyWave s t c w ∧
        Passed c 4 { c.w with finj := none, vBad := w.vBad } w ∧
        ∀ k, Machine.get false w.vBad k = (decide (k = 32 * bitsN x 18 6 + bitsN x 13 5) || Machine.get false c.w.vBad k)) ∧
      (kind = 2 → bitsN x 32 32 % 8 = 0 → bitsN x 32 32 + 8 ≤ c.g.launch.spBytes →
        ∃ t w tm, exec (.finj o) s = .next t ∧ t.wave? c.w.id = some w ∧ Passed c 4 { c.w with finj := none } w ∧ t.mem = s.mem ∧
          t.team? c.tm.id = some tm ∧ tm.sp = c.tm.sp ∧ Machine.get false tm.spBad (bitsN x 32 32 / 8) = true) ∧
      (kind = 4 → ∃ t w, exec (.finj o) s = .next t ∧ t.wave? c.w.id = some w ∧ Passed c 4 { c.w with finj := none } w ∧
        t.mem = s.mem ∧ t.teams = s.teams) ∧
      (5 ≤ kind → ∃ t w, exec (.finj o) s = .next t ∧ OnlyWave s t c w ∧ Passed c 4 c.w w))

/-! ## Launches, teams and waves -/

/-- 02 R31, R32, R36, R40, R57 to R59; 14 R337, R345, R346, R348 to R355: spawn and rget; a launch is taken or rejected; a team is
placed and its waves start; a wave retires, and with the last one its team ends; a grid whose last team ends completes, and its
stamp is put in flight and written as it is translated then; a watchdog ends its grid. Under conditions on the state and the
operands alone `exec` answers a next state for launchTake, teamPlace, placementWaitExpiry, aggregatorRelease, ageBoost, watchdog,
waveRetire, spawn and rget.
It rests on the choices of log entries 7, 17, 54, 55, 56, 57, 58, 59 and 60. -/
def Obligations.LaunchResults : Prop :=
  (∀ (o : OpF12) (s s1 : State) (c : Issue) (p : Partition), EndsSafety s s1 3 → Runs s1 c 4 → c.w.role = .solo →
    FlagFree c o.fsel → Settled c → owes s1 c.tm.core 3 s1.nextId = false → Unpoisoned c [] [o.f2.toNat] [] → s1.part? c.g.part = some p →
    let addr := (c.w.getS o.f2.toNat).toNat
    addr % 64 = 0 → ∀ locs xs, translateSpan s1 c.cx c.tm.core c.w.sysMode .read addr 256 = .ok (locs, xs) →
    let answers := fun x (P : State → Prop) => ∃ t w, exec (.spawn o) s = .next t ∧ t.wave? c.w.id = some w ∧
      SetsS c w [(o.f1.toNat, x)] ∧ P t
    match s1.queue? c.g.part c.g.queue with
    | none => answers 1 fun t => t.queues = s1.queues
    | some q => if 256 ≤ q.held then answers 1 fun t => t.queues = s1.queues
        else answers 0 fun t => t.queue? c.g.part c.g.queue = some { q with
            tail := (q.tail + 1) % 2 ^ 32, spawned := q.spawned ++ [q.tail] }) ∧
  (∀ (o : OpY12) (s s1 : State) (c : Issue), WellFormed (.rget o) → EndsSafety s s1 3 → Runs s1 c 4 → c.w.role = .solo →
    Unpoisoned c [] [o.f2.toNat] [] →
    let base := (c.w.getS o.f2.toNat).toNat
    base % 64 = 0 →
    (∀ pair ws seen, rgetPlan c none base = .ok (pair, ws, seen) → readWaits c seen.locs = false →
      pendOwed s1 c.tm.core (fun e => (seen.locs.map (· / 16)).dedup.contains e.word) = false → s1.tenures = [] →
      ∃ t w, exec (.rget o) s = .next t ∧ t.wave? c.w.id = some w ∧
        SetsS c w [(o.f1.toNat, BitVec.ofNat 64 pair.1), (o.f1.toNat + 1, BitVec.ofNat 64 pair.2)]) ∧
    ∀ h a x b, setRead c none base 64 = .ok (h, a) →
      let n := h % 2 ^ 32
      let grain := h / 2 ^ 32 % 2 ^ 32
      1 ≤ n → n ≤ 1024 → 1 ≤ grain → h / 2 ^ 64 = 0 →
      let m := (if c.g.merged = [] then c.tm.t else 0) % n
      setRead c none (base + 0x40 + 16 * m) 16 = .ok (x, b) → x % 2 ^ 64 < x / 2 ^ 64 →
      let k := min grain (x / 2 ^ 64 - x % 2 ^ 64)
      rgetPlan c none base = .ok ((x % 2 ^ 64, k), [(m, x % 2 ^ 64 + k, x / 2 ^ 64)], a.and b)) ∧
  (∀ (s : State) (p : Partition) (x : Queue) (cx : Context), s.part? p.id = some p → p.halted = false → p.haltReq = false →
    s.tenures = [] →
    let s1 := noteReady s
    takeFrom s1 p.id = some x → s1.ctx? x.ctx = some cx →
    let e := headEntry s1 x
    let s2 := (popHead s1 p x).bump
    ∃ t, exec (.launchTake p.id) s = .next t ∧ (t.queue? p.id x.q).map (·.head) = some ((x.head + 1) % 2 ^ 32) ∧ t.mem = s2.mem ∧
      match recordLocs s1 cx e with
      | none => t.records = s.records ++ [plainRec x.ctx 4 0 none e 0 0] ∧ t.grids = s.grids
      | some locs =>
        let d := locs.map (readHome s1)
        match launchBad s1 p.id cx locs d with
        | some off => t.records = s.records ++ [plainRec x.ctx 4 0 none e 0 off] ∧ t.grids = s.grids
        | none => t.records = s.records ∧ ((∀ g ∈ s.grids, g.aggregating = false) → ∃ g, t.grids = s.grids ++ [g] ∧
            g.recAddr = e ∧ g.ctx = x.ctx ∧ g.part = p.id ∧ g.queue = x.q ∧ g.launch = launchOf d ∧ g.state = .running ∧
            g.nextTeam = 0)) ∧
  (∀ (s : State) (g : Grid) (cores : List Nat) (p : Partition), s.grid? g.id = some g → s.part? g.part = some p →
    p.halted = false → p.haltReq = false → g.waiting = true → placedAfter s g = false → groupFits s g g.nextGroup cores = true →
    prefers s g g.nextGroup cores = true →
    ∃ t teams waves, exec (.teamPlace g.id cores) s = .next t ∧
      let off := fun x : Team => { x with area := none }
      t.teams.map off = s.teams.map off ++ teams ∧ t.waves = s.waves ++ waves ∧
      t.grid? g.id = some { g with nextTeam := g.nextTeam + g.nextGroup.length, expired := false } ∧
      ((∀ x ∈ s.teams, x.state = .saved → x.trailing = true ∨ x.area.isSome = true ∨ ∀ k ∈ cores, clusterOf x.core ≠ clusterOf k) →
        (∀ k ∈ cores, cacheWords s k CWord.isStale = []) → t.mem = s.mem) ∧
      teams.map (·.core) = cores ∧ (∀ tm ∈ teams, tm.state = .resident ∧ tm.grid = g.id ∧ tm.t ∈ g.nextGroup) ∧
      ∀ w ∈ waves, w.state = .ready ∧ w.sysMode = false ∧ w.flags = [] ∧ w.sel = none ∧ w.retired = 0) ∧
  (∀ (s : State) (g : Grid), s.grid? g.id = some g →
    (∃ t, exec (.aggregatorRelease g.id) s = .next t ∧ t.grid? g.id = some { g with aggregating := false } ∧ t.waves = s.waves) ∧
    (g.waiting = true → somewhere s g g.nextGroup = false →
      ∃ t, exec (.placementWaitExpiry g.id) s = .next t ∧ t.grid? g.id = some { g with expired := true } ∧ t.waves = s.waves)) ∧
  (∀ (s : State) (w : Wave), s.wave? w.id = some w →
    (w.isReady = true → ∃ t, exec (.ageBoost w.id) s = .next t ∧ t.wave? w.id = some { w with boost := true } ∧ t.mem = s.mem) ∧
    ∀ tm g, w.state = .ready → s.team? w.team = some tm → tm.state = .resident → s.grid? tm.grid = some g → w.frontier = [] →
      w.flagsClear = true → w.fence = none → (∀ p x, w.partner? = some p → s.wave? p = some x → x.frontier = []) →
      (lastWave s w (endsWith s tm) = true → ∀ x ∈ endsWith s tm, storesRest s x = true) →
      ∃ t w', exec (.waveRetire w.id) s = .next t ∧ t.wave? w.id = some w' ∧ w'.state = .retired ∧ w'.v = w.v ∧
        (∀ k ∈ t.clusters, ∀ x ∈ k.tokens, x.2 ≠ w.id) ∧
        (lastWave s w (endsWith s tm) = false → (t.team? tm.id).map (·.state) = some .resident ∧ t.grid? g.id = some g) ∧
        (lastWave s w (endsWith s tm) = true → ∃ x, t.grid? g.id = some x ∧ x.ended = g.ended + 1 ∧
          (∀ y ∈ endsWith s tm, (t.team? y.id).map (·.state) = some .ended) ∧
          let complete := g.aggregating = false ∧ g.total ≤ g.nextTeam ∧
            ∀ y ∈ s.teamsOf g.id, y.state = .ended ∨ ∃ z ∈ endsWith s tm, z.id = y.id
          (complete → g.state = .running ∨ g.state = .halting → x.state = .completed) ∧
          (¬ complete → g.state = .running → x.state = .running) ∧
          let stamps := fun a l => ∃ o ∈ t.ops, o.kind = .stamp g.id a l.stampAddr l.stampVal
          (complete → g.state = .running ∨ g.state = .halting → g.merged = [] → g.launch.stampAddr ≠ 0 → stamps g.recAddr g.launch) ∧
          (g.merged ≠ [] → (g.member tm.t).1.stampAddr ≠ 0 → stamps (g.member tm.t).2.1 (g.member tm.t).1))) ∧
  (∀ (s : State) (o : Op) (g : Grid) (cx : Context) (recAddr addr val : Nat), s.op? o.id = some o →
    o.kind = .stamp g.id recAddr addr val → s.grid? g.id = some g → s.ctx? g.ctx = some cx →
    let i := Instr.storeComplete ⟨o.id, none⟩
    (∀ f, translateSpan s cx unitCore false .write addr 8 = .error f → ∃ t, exec i s = .next t ∧ t.mem = s.mem ∧
      t.records = s.records ++ [plainRec g.ctx 9 f.code.num (some g.id) recAddr addr 0] ∧ ∀ x ∈ t.ops, x.id ≠ o.id) ∧
    ∀ locs xs, translateSpan s cx unitCore false .write addr 8 = .ok (locs, xs) → (∀ tm ∈ s.teamsOf g.id, owes s tm.core 3 o.id = false) →
      let word := locs.headD 0 / 16
      engineOwned s word o.id = false → keptWord s s.nextId word = false → slicesFull s g.part locs = false → s.tenures = [] →
      ∃ t, exec i s = .next t ∧ t.records = s.records ∧ (∀ x ∈ t.ops, x.id ≠ o.id) ∧ readHomeN t (locs.headD 0) 8 = val % 2 ^ 64) ∧
  ∀ (s : State) (c : Issue), issuing s = some c → c.w.left = 0 →
    ∃ t g, exec (.watchdog s.cur) s = .next t ∧ t.records = s.records ++ [c.record 0 16 c.low c.e.pc 0 0] ∧
      t.grid? c.g.id = some g ∧ g.state = .ended ∧ t.mem = s.mem
/-! ## Saving, records and hulls -/

/-- 18 R407, R408, R415 to R418; 19 R438, R439, Table 19-4; 11 R311: a resident team whose companions are at rest is saved with them, and
otherwise the save stands as asked for, with the copies withdrawn that hold its waves back; a saved team that fits is placed again; a waiting record is written in its 64 bytes at
the queue's place and FQHEAD rises; the hull of a grid that has come to its halt is sealed, or refused with a record of kind 8, code 5. The form of a
hull's image is a free value (Config). Under conditions on the state and the operands alone `exec` answers a next state for
teamSave, teamRestore, faultRecordWrite and hullWrite.
It rests on the choices of log entries 60, 61, 62, 63 and 64. -/
def Obligations.SaveResults : Prop :=
  (∀ (s : State) (tm : Team) (g : Grid), s.team? tm.id = some tm → s.grid? tm.grid = some g → tm.state = .resident →
    let ts := (companions s tm).filter fun x => x.state == .resident
    ((∀ x ∈ ts, teamRest s x = true) → ∃ t x, exec (.teamSave tm.id) s = .next t ∧ t.team? tm.id = some x ∧ x.state = .saved ∧
      x.saveReq = false ∧ ∀ w ∈ t.waves, w.team = tm.id → w.state = .saved ∨ w.state = .retired) ∧
    ((∃ x ∈ ts, teamRest s x = false) → ∃ t x, exec (.teamSave tm.id) s = .next t ∧ t.team? tm.id = some x ∧ x.saveReq = true ∧
      x.state = .resident ∧ (copiesHold s tm = true → x.gatherings = []) ∧
      ((∀ y ∈ ts, copiesHold s y = false) → x = { tm with saveReq := true } ∧ t = { s with teams := t.teams }))) ∧
  (∀ (s : State) (tm : Team) (g : Grid) (cores : List Nat), s.team? tm.id = some tm → s.grid? tm.grid = some g →
    mayRestore s tm g = true → restoreFits s g (placedWith s tm) cores = true →
    ∃ t x, exec (.teamRestore tm.id cores) s = .next t ∧ t.team? tm.id = some x ∧ x.state = .resident ∧ x.core ∈ cores ∧
      (s.arrivals = [] → (∀ y ∈ s.teams, y.trailing = false ∧ y.area = none) → ∀ w, s.wave? w.id = some w → w.team = tm.id → w.state = .saved →
        w.savedState ≠ .blocked → ∃ w', t.wave? w.id = some w' ∧
          w' = { ({ w with state := w.savedState } : Wave).settle with vDirty := w'.vDirty, aDirty := w'.aDirty })) ∧
  (∀ (s : State) (cx : Context) (r : Rec) (locs : List Nat) (xs : List Xl), s.ctx? cx.id = some cx → nextRecord s cx.id = some r →
    queueFull s cx = false → s.tenures = [] →
    translateSpan s cx unitCore true .write (cx.fqBase + 64 * (cx.fqHead % 2 ^ cx.fqLog)) 64 = .ok (locs, xs) →
    physOk s (secureCtx s cx) (cx.record + 0x18) 4 = true →
    slicesFull s cx.part locs = false → (∀ l ∈ locs, keptWord s s.nextId (l / 16) = false) →
    ∃ t, exec (.faultRecordWrite cx.id) s = .next t ∧ t.records = s.records.erase r ∧ t.waves = s.waves ∧
      (t.ctx? cx.id).map (·.fqHead) = some (cx.fqHead + 1) ∧
      readHomeN t (s.here (cx.record + 0x18)) 4 = (cx.fqHead + 1) % 2 ^ 32 ∧
      (locs.Nodup → (∀ i < 4, s.here (cx.record + 0x18) + i ∉ locs) →
        locs.map (readHome t) = recBytes r (cx.fqHead + 1))) ∧
  ∀ (s : State) (g : Grid) (cx : Context) (gen : Nat), s.grid? g.id = some g → g.state = .halted ∨ g.state = .completed → g.hullReq = some gen →
    s.ctx? g.ctx = some cx →
    let reaches := fun o n => physOk s (secureCtx s cx) (cx.saveArea + o) n
    let slot := hullTarget s cx
    let n := Config.hullBlocks gen
    if slotUsable s cx slot = true ∧ 4096 + (4 * n + 4095) / 4096 * 4096 + 4096 * n ≤ (hullSlot s cx slot).2 then
      ∃ t h, exec (.hullWrite g.id) s = .next t ∧ t.hulls = s.hulls ++ [h] ∧ h.gen = gen ∧ h.grid = g.recAddr ∧ h.slot = slot ∧
        t.records = s.records ++ [g.record 7 0 (hullSlot s cx slot).1 0] ∧
        t.grid? g.id = some { g with hullReq := none } ∧
        (reaches 0x20 8 = true → readHomeN t (s.here (cx.saveArea + 0x20)) 8 = gen % 2 ^ 64) ∧
        (reaches 0x28 1 = true → readHomeN t (s.here (cx.saveArea + 0x28)) 1 = slot)
    else ∃ t l, exec (.hullWrite g.id) s = .next t ∧ t.records = s.records ++ g.record 8 5 0 0 :: l ∧
      t.hulls = s.hulls ∧ (t.grid? g.id).map (·.hullReq) = some none

/-! ## Service commands and contexts -/

/-- 18 R398, R405, R409, R420 to R422; 19 R441, R443; 21 R473: a parked wave resumed, or sent to its handler in system mode; a
grid ended, continued or restored from a sealed hull; a context set up or refused by its first failing field, and retired; SYNC, which
a function that does not see the page reads as zero at once (21 R461). Under conditions on the state and the operands alone
`exec` answers a next state for contextSetup, contextRetire, syncRead, serviceResume, serviceHandler, serviceEnd,
serviceContinue and serviceRestore.
It rests on the choices of log entries 14, 62, 63, 65 and 66. -/
def Obligations.ServiceResults : Prop :=
  (∀ (s : State) (ctx : Nat) (g : Grid) (w : Wave), serviceWave s ctx = some (g, w) → s.wave? w.id = some w → w.role = .solo →
    w.final = false →
    (w.first?.isSome = true → ∃ t, exec (.serviceResume ctx) s = .next t ∧ t.wave? w.id = some { w with state := .ready, sel := none } ∧
      (∀ j, j ≠ w.id → t.wave? j = s.wave? j) ∧ t.mem = s.mem) ∧
    ∀ p e, w.sel = some p → w.entry? p = some e → w.sysMode = false →
      let m := w.issueMask e
      let handler := s.barN (ctxPage ctx + 0x30) 8
      ∃ t w', exec (.serviceHandler ctx) s = .next t ∧ t.wave? w.id = some w' ∧ (∀ j, j ≠ w.id → t.wave? j = s.wave? j) ∧
        w' = { w with
          state := .ready, sel := none, sysMode := true, sysMask := m, frontier := w'.frontier
          trapPc := BitVec.ofNat 64 (bitsN e.pc 1 51 * 2)
          trapCtx := match e.ctx with
            | none => 0
            | some x => BitVec.ofNat 64 (2 ^ 63 + x.flagB % 16 * 2 ^ 56 + x.flagA % 16 * 2 ^ 52 + bitsN x.endPc 1 51 * 2)
          trapHdr := match e.ctx with
            | none => 0
            | some x => BitVec.ofNat 64 (bitsN x.hdr 2 50 * 4) } ∧
        ∀ th < 32, ∀ a b, StandsAt w'.frontier th a b ↔
          if m.getLsbD th then a = e.prio ∧ b = handler else StandsAt w.frontier th a b) ∧
  (∀ (s : State) (ctx : Nat) (g : Grid), endNamed s ctx = some g → s.grid? g.id = some g →
    ∃ t, exec (.serviceEnd ctx) s = .next t ∧ (t.grid? g.id).map (·.state) = some .ended ∧ t.mem = s.mem ∧ t.records = s.records ∧
      (∀ w ∈ t.waves, (∃ tm ∈ s.teams, tm.grid = g.id ∧ tm.id = w.team) → w.state = .retired) ∧
      ∀ o ∈ t.ops, ¬ ∃ tm ∈ s.teams, tm.grid = g.id ∧ tm.id = o.team) ∧
  (∀ (s : State) (ctx : Nat) (g : Grid), (s.grids.find? fun g => namesGrid s ctx g && allSaved s g && g.state != .failed) = some g →
    s.grid? g.id = some g →
    ∃ t x, exec (.serviceContinue ctx) s = .next t ∧ t.grid? g.id = some x ∧ (x.state = .running ∨ x.state = .completed)) ∧
  (∀ (s : State) (ctx : Nat) (g : Grid), (s.grids.find? fun g => namesGrid s ctx g && allSaved s g) = some g →
    s.grid? g.id = some g →
    let slot := s.barN (ctxPage ctx + 0x30) 8
    let f := fun o n => physField s (partSecure s g.part) (slot + o) n
    match (if hullSealed s g slot then hullImages s g slot else none) with
    | none => exec (.serviceRestore ctx) s = .next { s with records := s.records ++ [g.record 8 3 0 0] }
    | some (us, _, own) => ∃ t l, exec (.serviceRestore ctx) s = .next t ∧
        t.records = s.records ++ g.record 8 4 0 0 :: l ∧
        (t.grid? g.id).map (fun x => (x.nextTeam, x.ended, x.restored)) = some (f 0x18 8, f 0x38 8, f 0 8) ∧
        ∀ u ∈ us, ∃ y ∈ t.teams, y.grid = g.id ∧ y.t = u.t ∧ y.state = u.state ∧ y.sp = u.sp ∧ y.queues = u.queues ∧
          (own = true → y = { u with grid := g.id, area := y.area })) ∧
  (∀ (s : State) (ctx record : Nat) (fn : Option Nat), s.ctx? ctx = none → record ≠ 0 →
    match firstBad (contextChecks s ctx record fn) with
    | none => ∃ t, exec (.contextSetup ctx record fn) s = .next t ∧ t.ctxs = s.ctxs ++ [contextAt s ctx record] ∧
        t.barN (ctxPage ctx + 0x18) 4 = 1 ∧ t.barN (ctxPage ctx) 8 = record % 2 ^ 64
    | some o => ∃ t, exec (.contextSetup ctx record fn) s = .next t ∧ t.ctxs = s.ctxs ∧
        t.barN (ctxPage ctx + 0x18) 4 = (2 + o * 256) % 2 ^ 32 ∧ t.barN (ctxPage ctx) 8 = 0) ∧
  (∀ (s : State) (cx : Context), s.ctx? cx.id = some cx →
    ∃ t, exec (.contextRetire cx.id) s = .next t ∧ t.ctx? cx.id = none ∧ t.barN (ctxPage cx.id + 0x18) 4 = 0 ∧
      (∀ g ∈ t.grids, g.ctx = cx.id → g.state = .completed ∨ g.state = .ended) ∧ ∀ h ∈ t.handles, h.ctx ≠ cx.id) ∧
  ∀ (s : State) (ctx : Nat) (fn : Option Nat), s.out.stage = 4 →
    s.ctx? ctx = none ∨ staleWrites s = false ∨ seesPage s fn (ctxPage ctx) = false →
    exec (.syncRead ⟨ctx, fn⟩) s = .next { s with out := { s.out with readback := 0 } }

/-! ## Errors and the outside -/

/-- 09 R245, R246, R248, R250, R264; 12 R326, R327; 19 R425 to R427, R445, R449 to R452, R457; 21 R460, R464: signatures
compared, links, remote and host requests, a failed core, slice, device or die and the census of a failed home, errors, spares, and the caches' own steps. Under
conditions on the state and the operands alone `exec` answers a next state for cacheFillArrive, sliceAdmit, signatureCompare,
linkFlitReceive, linkRetrain, remoteRequest, agentFailure, census, correctedError, poisonMark, spareSubstitution,
hostBar2Access, hostAtomicop and hostCxlCache.
It rests on the choices of log entries 22, 31, 33, 34, 69, 70, 83, 91, 92 and 94. -/
def Obligations.OutsideResults : Prop :=
  (∀ (s : State) (w x : Wave) (tr : Nat) (h : HeldIssue) (tm : Team) (g : Grid) (cx : Context) (sig : BitVec 32) (rest : List (BitVec 32)),
    s.wave? w.id = some w → w.role = .leader tr → (s.held.find? fun h => h.wave == w.id) = some h → s.wave? tr = some x →
    s.team? w.team = some tm → x.sigs = sig :: rest → s.grid? tm.grid = some g → s.ctx? g.ctx = some cx →
    ((if h.flip then sig ^^^ 1 else sig) = h.sig → mustWait s h.op = false → badAtom s tm h.op = none →
      ∃ t, exec (.signatureCompare w.id) s = .next t ∧ t.held = s.held.erase h ∧ (t.wave? tr).map (·.sigs) = some rest) ∧
    ((if h.flip then sig ^^^ 1 else sig) ≠ h.sig → g.launch.recov = false → faultWaits s tm h.addr = false →
      w.state ≠ .retired → x.state ≠ .retired →
      ∃ t r, exec (.signatureCompare w.id) s = .next t ∧ t.records = s.records ++ [r] ∧ r.kind = 0 ∧ r.code = 15 ∧ r.pc = h.pc ∧
        r.addr = h.addr ∧ (t.wave? w.id).map (·.state) = some .parked ∧ (t.wave? tr).map (·.state) = some .parked ∧
        ∀ k ∈ t.held, k.wave ≠ w.id)) ∧
  (∀ (s : State) (n : Nat) (good : Bool), ∃ t, exec (.linkFlitReceive n good) s = .next t ∧
    t = { s with out := { s.out with links := s.out.links.map fun l =>
      if l.n = n ∧ l.up = true then
        (if good then { l with asked := false, resends := 0 }
          else if l.asked then { l with resends := min 16 (l.resends + 1) } else { l with asked := true })
      else l } }) ∧
  (∀ (s : State) (l : Link), (s.out.links.find? fun x => x.n == l.n) = some l → l.up = true → 16 ≤ l.resends →
    ∃ t, exec (.linkRetrain l.n) s = .next t ∧ t.mem = s.mem ∧ t.out.links = s.out.links.map fun x =>
      if x.n = l.n then (if l.spares = 0 then { x with up := false } else { x with resends := 0, spares := x.spares - 1 }) else x) ∧
  (∀ (s : State) (device pa size : Nat) (sec : Bool) (bs : List (BitVec 8)),
    let loc := s.here pa
    let opens := fun (secure : Bool) n => secure = true ∨ ∀ i < n, (tagAt s (loc + i)).1 = false
    ∀ row ∈ [(true, sec, fun w => Instr.remoteRequest ⟨device, sec, pa⟩ w size),
        (s.out.stage == 4, false, fun w => Instr.hostBar2Access pa w size)], row.1 = true →
      (¬ opens row.2.1 size → ∃ t, exec (row.2.2 none) s = .next t ∧ t.mem = s.mem ∧ t.out.readback = 0) ∧
      (¬ opens row.2.1 bs.length → exec (row.2.2 (some bs)) s = .next s) ∧
      (opens row.2.1 size → OutsideClear s loc size → ∃ t, exec (row.2.2 none) s = .next t ∧ t.mem = s.mem ∧
        t.out.readback = BitVec.ofNat 128 (readHomeN s loc size)) ∧
      (opens row.2.1 bs.length → OutsideClear s loc bs.length → ∃ t, exec (row.2.2 (some bs)) s = .next t ∧ Stored s t loc bs)) ∧
  (∀ (s : State) (device pa size : Nat) (bs : List (BitVec 8)), let loc := s.here pa
    (OutsideClear s loc size → ∃ t, exec (.remoteRequest ⟨device, true, pa⟩ none size) s = .next t ∧
      ∀ w ∈ wordSpan loc size, ⟨device, w, false⟩ ∈ t.guests) ∧
    (OutsideClear s loc bs.length → ∃ t, exec (.remoteRequest ⟨device, true, pa⟩ (some bs) size) s = .next t ∧
      ∀ w ∈ wordSpan loc bs.length, ⟨device, w, true⟩ ∈ t.guests)) ∧
  (∀ (s : State) (core : Nat), ∃ t, exec (.agentFailure (.core core)) s = .next t ∧ t.mem = s.mem ∧
    (∀ w ∈ soleWords s core, Machine.get Mark.ok t.marks w = .lost) ∧ (∀ e ∈ t.pend, e.core ≠ core) ∧
    (∀ b ∈ t.blocks, b.cache ≠ core) ∧
    ∀ tm ∈ s.teams, tm.core = core →
      (tm.state = .resident → ∀ x ∈ t.teams, x.id = tm.id → x.state = .lost) ∧
      ∀ g, s.grid? tm.grid = some g → ∀ w ∈ soleWords s core,
        ∃ r ∈ t.records, r.kind = 6 ∧ r.ctx = g.ctx ∧ r.addr = 16 * w % 2 ^ 52 ∧ r.core = core) ∧
  (∀ (s : State) (n : Nat), ∃ t, exec (.agentFailure (.slice n)) s = .next t ∧ t.mem = s.mem ∧ (∀ b ∈ t.blocks, b.cache ≠ 512 + n) ∧
    ∀ w ∈ cacheWords s (512 + n) (· == .modified), Machine.get Mark.ok t.marks w = .lost ∧
      ∀ c ∈ ctxsOfWord s n w, ∃ r ∈ t.records, r.kind = 6 ∧ r.ctx = c ∧ r.addr = 16 * w % 2 ^ 52) ∧
  (∀ (s : State) (n : Nat),
    (n ≠ s.out.device → ∃ t, exec (.agentFailure (.home (.device n))) s = .next t ∧ t.mem = s.mem ∧ .device n ∈ t.out.downHomes ∧
      (∀ x ∈ s.guests, x.holder = n → x.excl = true → Machine.get Mark.ok t.marks x.word = .lost) ∧ ∀ x ∈ t.guests, x.holder ≠ n) ∧
    ∃ t, exec (.agentFailure (.home (.die n))) s = .next t ∧ t.mem = s.mem ∧ .die n ∈ t.out.downHomes ∧
      (∀ e ∈ t.pend, e.core / 256 ≠ n) ∧ ∀ b ∈ t.blocks, b.cache < 512 → b.cache / 256 ≠ n) ∧
  (∀ (s : State) (home : Home),
    let of := fun w : Nat => homeIn s (16 * w) [home]
    (home ∉ s.out.downHomes → exec (.census home) s = .next s) ∧
    (home ∈ s.out.downHomes → ∃ t, exec (.census home) s = .next t ∧ (∀ e ∈ t.pend, of e.word = false) ∧
      (∀ b ∈ t.blocks, of (16 * b.frame) = false) ∧ home ∉ t.out.downHomes ∧
      (∀ loc, homeIn t loc [home] = true → markAt t loc = .lost) ∧
      ∀ (core word ctx : Nat) (p : Partition), (∀ b ∈ s.blocks, b.cache < 512) → core < 512 →
        ((salvageHolders s).flatMap fun h =>
          ((if h.1 < 512 then soleWords s h.1 else cacheWords s h.1 (· == .modified)).filter of).map fun w => (h, w)) =
            [((core, p, ctx), word)] →
        physOk s p.secure p.salvage 8 = true → 16 * physField s p.secure p.salvage 8 + 16 ≤ p.refugeLen →
        readHomeN t (s.here p.salvage) 8 = (physField s p.secure p.salvage 8 + 1) % 2 ^ 64)) ∧
  (∀ (s : State) (kind index : Nat), ∃ t, exec (.correctedError kind index) s = .next t ∧
    t = { s with out := { s.out with corrected := t.out.corrected, runErrors := t.out.runErrors, due := t.out.due } } ∧
    (∀ k, at2 0 t.out.corrected k = if k = (kind, index) then at2 0 s.out.corrected k + 1 else at2 0 s.out.corrected k) ∧
    (∀ k, at2 0 t.out.runErrors k = if k = (kind, index) then at2 0 s.out.runErrors k + 1 else at2 0 s.out.runErrors k) ∧
    ∀ u, u ∈ t.out.due ↔ u ∈ s.out.due ∨ (u = (kind, index) ∧ kind ≤ 5 ∧ 8 ≤ at2 0 t.out.runErrors u)) ∧
  (∀ (s : State) (a b c : Nat),
    (markAt s a = .ok → ∃ t, exec (.poisonMark 0 a b c) s = .next t ∧ markAt t a = .poison ∧ t.mem = s.mem) ∧
    (∀ w, s.wave? a = some w →
      (∃ t w', exec (.poisonMark 1 a b c) s = .next t ∧ t.wave? a = some w' ∧ w' = { w with vBad := w'.vBad } ∧
        Machine.get false w'.vBad (32 * (b % 64) + c % 32) = true) ∧
      (∃ t w', exec (.poisonMark 2 a b c) s = .next t ∧ t.wave? a = some w' ∧ w' = { w with aBad := w'.aBad } ∧
        Machine.get false w'.aBad (32 * (b % 16) + c % 32) = true) ∧
      ∃ t w', exec (.poisonMark 3 a b c) s = .next t ∧ t.wave? a = some w' ∧ w' = { w with sBad := w'.sBad } ∧
        Machine.get false w'.sBad (b % 64) = true) ∧
    (∀ tm, s.team? a = some tm → ∃ t x, exec (.poisonMark 4 a b c) s = .next t ∧ t.team? a = some x ∧
      x = { tm with spBad := x.spBad } ∧ Machine.get false x.spBad b = true) ∧
    (∃ t, exec (.poisonMark 5 a b c) s = .next t ∧ t.mem = s.mem ∧
      ∀ i < 8, Machine.get false (t.cluster a).colBad (8 * b + i) = true) ∧
    (a < 512 → (∀ e ∈ s.pend, e.core ≠ a) →
      (held? s a b = some .modified → Machine.get Mark.ok s.marks b = .ok → ∃ t, exec (.poisonMark 6 a b c) s = .next t ∧
        t = { s with marks := t.marks } ∧ Machine.get Mark.ok t.marks b = .poison) ∧
      (SoundBlocks s.blocks → held? s a b = some .shared ∨ held? s a b = some .exclusive → ∃ t, exec (.poisonMark 6 a b c) s = .next t ∧
        held? t a b = none ∧ at2 0 t.out.corrected (1, stopOf s a) = at2 0 s.out.corrected (1, stopOf s a) + 1)) ∧
    (∀ tm, s.team? a = some tm →
      (tm.state = .resident → tm.interval.recov = true →
        (c < 32768 → ∃ t x, exec (.poisonMark 7 a 0 c) s = .next t ∧ t.team? a = some x ∧
          x = { tm with interval := { tm.interval with shadowBad := x.interval.shadowBad } } ∧
          Machine.get false x.interval.shadowBad c = true) ∧
        (c < 2624 → ∃ t, exec (.poisonMark 7 a (b + 1) c) s = .next t ∧ t.team? a = some { tm with interval := { tm.interval with
          shadowWaves := tm.interval.shadowWaves.map fun y => if y.id = b then markImage c y else y } })) ∧
      (tm.state = .saved → tm.area = none →
        (c < 32768 → ∃ t x, exec (.poisonMark 7 a 0 c) s = .next t ∧ t.team? a = some x ∧ x = { tm with spBad := x.spBad } ∧
          Machine.get false x.spBad c = true) ∧
        (c < 2624 → ∀ y, s.wave? b = some y → y.team = a → ∃ t, exec (.poisonMark 7 a (b + 1) c) s = .next t ∧
          t.wave? b = some (markImage c y)))) ∧
    (∀ x, (s.tenures.filter fun e => e.slice == a)[b]? = some x → ∃ t, exec (.poisonMark 8 a b c) s = .next t ∧
      t = { s with tenures := t.tenures } ∧ (t.tenures.filter fun e => e.slice == a)[b]? = some { x with bad := true }) ∧
    ∀ x, (s.monitors.filter fun e => e.slice == a)[b]? = some x → ∃ t, exec (.poisonMark 9 a b c) s = .next t ∧
      t = { s with monitors := t.monitors } ∧ (t.monitors.filter fun e => e.slice == a)[b]? = some { x with bad := true }) ∧
  (∀ (s : State) (kind i : Nat), (kind, i) ∉ s.out.due → exec (.spareSubstitution kind i) s = .next s) ∧
  (∀ (s : State) (kind i : Nat), (kind, i) ∈ s.out.due → unitInUse s kind i = false →
    (kind ≤ 3 → unitState s kind i = 0 →
      (kind = 1 ∨ kind = 2 → ∀ n, servedBy s kind i = some n → (∃ k < 68, unitState s kind (68 * (i / 68) + k) = 1) ∨
        numberInUse s kind (64 * (i / 68) + inService s kind (i / 68) - 1) = false) →
      ∃ t, exec (.spareSubstitution kind i) s = .next t ∧ (kind ≠ 1 → t.mem = s.mem) ∧
      (unitState t kind i = 2 ∨ unitState t kind i = 3) ∧ t.out.counts = BitVec.ofNat 64 (countsWord t) ∧
      t.out.due = s.out.due.erase (kind, i)) ∧
    (kind = 4 ∨ kind = 5 → ∃ t, exec (.spareSubstitution kind i) s = .next t ∧ t.mem = s.mem ∧
      unitState t kind i = unitState s kind i + (if unitState s kind i < Config.spareRows kind then 1 else 0) ∧
      t.out.due = s.out.due.erase (kind, i))) ∧
  (∀ (s : State) (kind size pa x y : Nat), s.out.stage = 4 → OutsideClear s (s.here pa) size → kind ≤ 2 →
    size = 4 ∨ size = 8 ∨ (size = 16 ∧ kind = 2) → pa % size = 0 →
    let loc := s.here pa
    (∀ i < size, (tagAt s (loc + i)).1 = false) → markAt s loc = .ok →
    let old := readHomeN s loc size
    let m := 2 ^ (8 * size)
    let new := if kind = 0 then (old + x) % m else if kind = 1 then x % m else if old = x % m then y % m else old
    ∃ t, exec (.hostAtomicop kind size pa x y) s = .next t ∧ t.out.readback = BitVec.ofNat 128 old ∧
      Stored s t loc (leBytes size new)) ∧
  (∀ (s : State) (pa : Nat) (bs : List (BitVec 8)), s.out.stage = 4 →
    let loc := 1024 * 2 ^ 52 + pa
    let ws := wordSpan loc (max 1 bs.length)
    outsideWaits s loc (max 1 bs.length) = false →
    (∀ c ∈ wordCores s ws, pendOwed s c (fun e => ws.contains e.word) = false ∧ cleanWaits s c ws.contains = false) →
    ∃ t, exec (.hostCxlCache pa bs) s = .next t ∧ (∀ i < bs.length, readHome t (loc + i) = bs.getD i 0) ∧
      ∀ b ∈ t.blocks, ∀ w ∈ ws, b.has w = false) ∧
  (∀ (s : State) (f : Fill),
    (s.fills.find? fun x => x.op.isNone && x.core == f.core && x.frame == f.frame && x.start == f.start && x.excl == f.excl) = some f →
    let i := Instr.cacheFillArrive f.core ⟨f.frame, f.start, f.excl⟩
    (f.queued = false → exec i s = .next s) ∧
    (f.queued = true → SoundBlocks s.blocks → f.core < 512 → f.start + f.len ≤ 16 → s.tenures = [] → s.out.downHomes = [] →
      (setOthers s f.core f.frame).length ≤ 16 → waitingLoads s f.core = [] → (∀ e ∈ s.pend, e.core ≠ f.core) →
      ∃ t, exec i s = .next t ∧ t.fills = s.fills.erase f ∧ t.waves = s.waves ∧ t.ops = s.ops ∧
        ((∀ b ∈ s.blocks, ∀ x ∈ b.words, x.isDirty = false) → t.mem = s.mem) ∧
        ∀ k < f.len, let w := 16 * f.frame + f.start + k
          (held? t f.core w).isSome = true ∧ (held? s f.core w = none → isSwm s (16 * w) = false → held? t f.core w = some .shared))) ∧
  ∀ (s : State) (die n : Nat), let slice := 64 * die + n
    let room := decide ((s.fills.filter fun x => x.slice == slice && x.queued).length < 32)
    match s.fills.find? fun f => f.slice == slice && !f.queued with
    | none => exec (.sliceAdmit die n) s = .next s
    | some f => (room = false → exec (.sliceAdmit die n) s = .next s) ∧ (room = true → ∃ t, exec (.sliceAdmit die n) s = .next t ∧
        t = { s with fills := s.fills.map fun x => if x = f then { x with queued := true } else x })

/-! ## Registers of BAR0, mailbox commands, boot and power -/

/-- 18 R393 to R397, R409; 21 R461 to R463, R466 to R471, Tables 21-1, 21-2, 21-6 to 21-8; 11 R305; 01 R14: what a write to a
mailbox, a partition page or a context page does; each command's first reason for refusal and its effect; reset, boot, clock,
temperature and the gating of an idle core. Under conditions on the state and the operands alone `exec` answers a next state for
registerWrite, partset, partfree, parthalt, partrun, regtag, keyload, unitread, pwrlimit, sharedset, deviceReset,
bootStageComplete, clockChange, thermalLimit, thermalHalt and corePowerGate.
It rests on the choices of log entries 32, 60, 70, 71, 72, 73, 74 and 88. -/
def Obligations.ManagementResults : Prop :=
  (∀ (s : State) (size val : Nat) (port : Bool),
    let b := s.boxOf (!port)
    let b1 : Mailbox := { b with cmd := BitVec.ofNat 32 (val % 2 ^ (8 * size)), taken := b.arg }
    let seq := bitsN b1.cmd.toNat 16 16 * 2 ^ 16
    let i := Instr.registerWrite 0x1000 size val ⟨port, none⟩
    (s.out.stage ≠ 4 → exec i s = .next s) ∧ (s.out.stage = 4 → b.busy = true → exec i s = .next s) ∧
    (s.out.stage = 4 → b.busy = false → ∃ t, exec i s = .next t ∧ t.mem = s.mem ∧
      t.boxOf (!port) = { b1 with
        arg := if b1.opcode = 6 then b.arg.filter fun c => !(decide (16 ≤ c.1) && decide (c.1 < 80)) else b.arg
        stat := BitVec.ofNat 32 (if 1 ≤ b1.opcode ∧ b1.opcode ≤ 9 then 1 + seq else 3 + 2 * 2 ^ 8 + seq) })) ∧
  (∀ (s : State) (size val p c : Nat), s.out.stage = 4 → p < 16 → c < 4096 →
    let v := val % 2 ^ (8 * size)
    let write := fun off => exec (.registerWrite off size val ⟨false, none⟩) s
    let page := 0x1000000 + 0x1000 * c
    (∃ t, write (0x100000 + 0x10000 * p) = .next t ∧ Machine.get 0 t.out.ctrl p = v ∧ t = { s with out := { s.out with ctrl := t.out.ctrl } }) ∧
    (∀ row ∈ [(1, Instr.setupBindKeyspace p (bitsN v 8 8)), (2, .setupUnbindKeyspace p (bitsN v 8 8)),
        (3, .setupWorkList p (bitsN v 8 8)), (4, .setupRereadQueue p (bitsN v 8 8))],
      v % 16 = row.1 → write (0x100400 + 0x10000 * p) = exec row.2 s) ∧
    (v % 16 = 0 ∨ 4 < v % 16 → ∃ t, write (0x100400 + 0x10000 * p) = .next t ∧ Machine.get 0 t.out.setup p = 2 ∧
      t = { s with out := { s.out with setup := t.out.setup } }) ∧
    (v = 0 → write page = exec (.contextRetire c) s) ∧ (v ≠ 0 → write page = exec (.contextSetup c v none) s) ∧
    (∀ row ∈ [(0, Instr.serviceResume c), (1, .serviceHandler c), (2, .serviceEnd c), (3, .serviceContinue c), (4, .serviceRestore c)],
      s.barN (page + 0x2D) 1 = row.1 → write (page + 0x38) = exec row.2 s) ∧
    (size = 2 → ∃ t, write (page + 0x10) = .next t ∧ t.barN (page + 0x10) 2 = v ∧ t.mem = s.mem)) ∧
  (∀ (s : State) (bar0 : Bool), s.out.stage ≠ 4 → ∀ i ∈ [Instr.partset bar0, .partfree bar0, .parthalt bar0, .partrun bar0,
      .regtag bar0, .keyload bar0, .unitread bar0, .pwrlimit bar0, .sharedset bar0], exec i s = .next s) ∧
  (∀ (s : State) (bar0 : Bool),
    let b := s.boxOf bar0
    (Commanded s bar0 1 → let p := b.argN 0 1
      let i := Instr.partset bar0
      if bar0 = true ∧ (b.argN 1 1 = 1 ∨ partSecure s p = true) then CommandRefused i s bar0 1
      else if partFieldsOk s b = false then CommandRefused i s bar0 3
      else if unitsTaken s.parts (partOf b) = true then CommandRefused i s bar0 4
      else if (s.part? p).isSome then CommandRefused i s bar0 5
      else if unitsDue s (partOf b) = true then exec i s = .next s
      else CommandDone i s bar0 fun t => t.parts = s.parts ++ [partOf b]) ∧
    (Commanded s bar0 2 → let p := b.argN 0 1
      let i := Instr.partfree bar0
      if bar0 = true ∧ partSecure s p = true then CommandRefused i s bar0 1
      else if 15 < p then CommandRefused i s bar0 3
      else match s.part? p with
        | none => CommandRefused i s bar0 5
        | some x => if x.halted = false then CommandRefused i s bar0 5
          else CommandDone i s bar0 fun t => t.part? p = none ∧ (∀ g ∈ t.grids, g.part ≠ p) ∧ (∀ cx ∈ t.ctxs, cx.part ≠ p) ∧
            ∀ k ∈ t.clusters, k.id ∉ x.clusters) ∧
    (Commanded s bar0 3 → let p := b.argN 0 1
      let i := Instr.parthalt bar0
      if 15 < p then CommandRefused i s bar0 3
      else match s.part? p with
        | none => CommandRefused i s bar0 5
        | some x => if x.halted = true then CommandDone i s bar0 fun t => t.parts = s.parts
          else if partRest s p = true then CommandDone i s bar0 fun t => t.part? p = some { x with haltReq := false, halted := true }
          else ∃ t, exec i s = .next t ∧ t.out = s.out ∧ t.part? p = some { x with haltReq := true }) ∧
    (Commanded s bar0 4 → let p := b.argN 0 1
      let i := Instr.partrun bar0
      if 15 < p then CommandRefused i s bar0 3
      else match s.part? p with
        | none => CommandRefused i s bar0 5
        | some x => if unitsTaken (s.parts.filter fun q => q.id != p) x = true then CommandRefused i s bar0 4
          else if x.halted = false ∨ (∃ k ∈ x.clusters, enabled s 1 k = false) ∨ (∃ k ∈ x.slices, enabled s 2 k = false) then
            CommandRefused i s bar0 5
          else if unitsDue s x = true then exec i s = .next s
          else CommandDone i s bar0 fun t => t.part? p = some { x with halted := false }) ∧
    (Commanded s bar0 5 → let i := Instr.regtag bar0
      let base := b.argN 0 8
      let n := b.argN 8 4
      let sec := b.argN 12 1
      let owner := b.argN 13 1
      let regions := (List.range n).map fun k => s.here (base + 2 ^ 21 * k) / 2 ^ 21
      if bar0 = true ∧ (sec = 1 ∨ ∃ r ∈ regions, (Machine.get (false, 31) s.tags r).1 = true) then CommandRefused i s bar0 1
      else if base % 2 ^ 21 ≠ 0 ∨ n = 0 ∨ 2 ^ 21 * (640 * 10 ^ 9 / 2 ^ 21) < base + 2 ^ 21 * n ∨ 1 < sec ∨ (15 < owner ∧ owner ≠ 31) then CommandRefused i s bar0 3
      else if ∃ r ∈ regions, regionMapped s r = true then CommandRefused i s bar0 4
      else CommandDone i s bar0 fun t =>
        (∀ r, Machine.get (false, 31) t.tags r = if r ∈ regions then (sec == 1, owner) else Machine.get (false, 31) s.tags r) ∧
        (∀ b ∈ t.blocks, 256 * b.frame / 2 ^ 21 ∉ regions) ∧ ∀ g ∈ t.guests, 16 * g.word / 2 ^ 21 ∉ regions) ∧
    (Commanded s bar0 6 → let i := Instr.keyload bar0
      let key := b.argN 0 1
      let p := b.argN 1 1
      if bar0 = true ∧ partSecure s p = true then CommandRefused i s bar0 1
      else if key = 0 ∨ 63 < key ∨ 15 < p then CommandRefused i s bar0 3
      else if ∃ k ∈ s.keys, k.1 = key ∧ k.2.1 ≠ p then CommandRefused i s bar0 6
      else CommandDone i s bar0 fun t =>
        (t.keys.find? fun k => k.1 == key) = some (key, p, (List.range 64).map fun j => Machine.get 0#8 b.taken (16 + j))) ∧
    (Commanded s bar0 7 → let i := Instr.unitread bar0
      if 6 < b.argN 0 1 then CommandRefused i s bar0 3
      else CommandDone i s bar0 fun t => let r := unitResult s (b.argN 0 1) (b.argN 4 4)
        (∀ j < r.length, Machine.get 0#8 (t.boxOf bar0).res j = r.getD j 0) ∧ t.mem = s.mem) ∧
    (Commanded s bar0 8 → let i := Instr.pwrlimit bar0
      let w := b.argN 0 2
      if w < 1500 ∨ 3000 < w then CommandRefused i s bar0 3 else CommandDone i s bar0 fun t => t.out.power = w) ∧
    (Commanded s bar0 9 → let i := Instr.sharedset bar0
      let n := b.argN 0 1
      let named := (List.range n).map fun k => b.argN (16 + 2 * k) 2
      if n = 0 ∨ 16 < n ∨ ∃ x ∈ named, enabled s 2 x = false then CommandRefused i s bar0 3
      else if ∃ x ∈ named, ∃ p ∈ s.parts, p.halted = false ∧ x ∈ p.slices then CommandRefused i s bar0 4
      else CommandDone i s bar0 fun t => t.shared = named)) ∧
  (∀ (s : State),
    (∃ t, exec .deviceReset s = .next t ∧ t.mem = s.mem ∧ t.out.stage = 0 ∧ t.waves = [] ∧ t.teams = [] ∧ t.grids = [] ∧ t.ops = [] ∧
      t.ctxs = [] ∧ t.parts = [] ∧ t.queues = [] ∧ t.tags = [] ∧ t.keys = []) ∧
    (s.out.stage < 4 →
      (∃ t, exec (.bootStageComplete none) s = .next t ∧ t.out.stage = s.out.stage + 1 ∧ t.mem = s.mem ∧
        (s.out.stage = 1 → t.out.counts = BitVec.ofNat 64 (countsWord s)) ∧
        (s.out.stage = 2 → t.out.device = Config.deviceNumber % 1024 ∧ t.out.pcie = Config.pciePages)) ∧
      ∀ e, exec (.bootStageComplete (some e)) s = .next { s with out := { s.out with stage := 15, bootError := e % 256 } }) ∧
    (∀ mhz, 1000 ≤ mhz → mhz ≤ 4000 → mhz % 250 = 0 →
      exec (.clockChange mhz) s = .next { s with out := { s.out with clkMhz := mhz } }) ∧
    (s.out.therm = 2 → exec .thermalLimit s = .next s) ∧
    (s.out.therm ≠ 2 → ∃ t, exec .thermalLimit s = .next t ∧ t = { s with out := { s.out with therm := 1, clkMhz := t.out.clkMhz } } ∧
      (1250 ≤ s.out.clkMhz → t.out.clkMhz = s.out.clkMhz - 250)) ∧
    (∃ t, exec .thermalHalt s = .next t ∧ t.waves = s.waves ∧
      ((∀ x ∈ s.teams, x.state = .saved → x.trailing = true ∨ x.area.isSome = true) → t.mem = s.mem) ∧
      (∀ p x, s.part? p = some x → ∃ y, t.part? p = some y ∧ (y.haltReq = true ∨ y.halted = true)) ∧
      ((∀ p ∈ s.parts, p.halted = true) → t.out.therm = 2 ∧ t.out.clkMhz = 0 ∧
        ∀ x, s.team? x.id = some x → x.state = .saved → x.trailing = false → (teamCtx s x).isSome = true →
          ∃ y, t.team? x.id = some y ∧ y.area.isSome = true))) ∧
  ∀ (s : State) (core : Nat), (∀ tm ∈ s.teams, tm.core = core → tm.state = .resident →
      (∀ w ∈ s.waves, w.team = tm.id → w.state = .blocked ∨ w.state = .parked ∨ w.state = .retired) ∧ ∀ o ∈ s.ops, o.team ≠ tm.id) →
    ∃ t, exec (.corePowerGate core) s = .next t ∧ Machine.get false t.gated core = true ∧ t = { s with gated := t.gated }

/-! ## Faults, the step, the encoding, and the state as a whole -/

/-- 04 R116: an instruction that raises ILLEGAL has no effect in any thread: no register, flag count or last-use code; the wave parks
with its PC at it, and the record names that PC. It is raised for every instruction whose fields hold a value its row does not permit
(R115), and for the packed integer instructions also where a register lies at or above VREGS, whatever else is wrong with it, and
where the instruction stands outside a clause body or reaches past its end.
It rests on the choices of log entry 15. -/
def Obligations.IllegalHasNoEffect : Prop :=
  (∀ (i : Instr) (s : State) (c : Issue), ¬ WellFormed i → issuing s = some c → c.w.role = .solo → c.w.state ≠ .retired →
    FaultTaken i s c .illegal c.low 0) ∧
  ∀ (o : OpA) (s : State) (c : Issue), ∀ row ∈ intRows o, WellFormed row.1 → issuing s = some c → c.w.role = .solo →
    c.w.state ≠ .retired →
    (c.e.ctx = none ∨ (∃ x, c.e.ctx = some x ∧ x.endPc < c.e.pc + 4) ∨ c.g.launch.vregs ≤ o.d.toNat ∨
      c.g.launch.vregs ≤ o.a.toNat ∨ c.g.launch.vregs ≤ o.b.toNat) → FaultTaken row.1 s c .illegal c.low 0

/-- 18 R406, R407; 19 R426, R428, R433, R434: a packed integer instruction that reads a poisoned register takes POISON in the lowest
such thread: in a launch without recovery its wave parks, a record of kind 0 is made, and the grid halts for its hull with a record of
kind 8, code 2, to follow; in a rollback-safe interval its team goes back to the shadow copy, with a record of kind 8, code 1.
It rests on the choices of log entries 15 and 23. -/
def Obligations.PoisonIsTaken : Prop :=
  ∀ (o : OpA) (s : State) (c : Issue) (th : Nat), Runs s c 4 → o.ca ≠ 3 → o.cb ≠ 3 → c.w.role = .solo → c.w.state = .ready →
    Declared c [o.d.toNat, o.a.toNat, o.b.toNat] [] → th ∈ threads c.mask →
    let bad := fun k => Machine.get false c.w.vBad (32 * o.a.toNat + k) = true ∨ Machine.get false c.w.vBad (32 * o.b.toNat + k) = true
    bad th → (∀ k ∈ threads c.mask, k < th → ¬ bad k) → ∀ row ∈ intRows o,
      (c.g.launch.recov = false → c.tm.interval.buffer = [] → ∃ t g, exec row.1 s = .next t ∧
        t.wave? c.w.id = some { c.w with state := .parked, block := none, fence := none, held := false } ∧
        (∀ j, j ≠ c.w.id → t.wave? j = s.wave? j) ∧ t.mem = s.mem ∧
        t.records = s.records ++ [c.record 0 13 th c.e.pc 0 0] ∧ t.grid? c.g.id = some g ∧ g.state = .halting ∧
        g.hullReq = none ∧ g.recover = some (c.g.recover.getD (c.record 8 2 th c.e.pc 0 13))) ∧
      (c.g.launch.recov = true → c.tm.interval.reason = 0 → 0 ∉ c.tm.interval.rolled → ∃ t tm, exec row.1 s = .next t ∧
        t.records = s.records ++ [c.record 8 1 th c.e.pc 0 13] ∧ t.mem = s.mem ∧ t.team? c.tm.id = some tm ∧
        tm.sp = c.tm.interval.shadowSp ∧ tm.spBad = c.tm.interval.shadowBad ∧ (∀ e ∈ t.ops, e.team ≠ c.tm.id) ∧
        ∀ b, (c.tm.interval.shadowWaves.find? fun x => x.id == c.w.id) = some b →
          t.wave? c.w.id = some { (if b.state = .retired then b else ({ b with
            state := .ready, block := none, sel := none, fence := none, held := false, flags := [] } : Wave).settle) with
              finj := c.w.finj, fenced := c.w.fenced })

/-- 02 R46; 04 R84 to R89, R115: the wave whose turn it is issues the instruction that the bytes at its PC decode to, with ACCESSED set in
the pages fetched from; a clause header stands only where no body is entered, and nothing else stands there. An event of the agenda
happens as it is. Before either, the heads of the launch queues that have become ready are noted (14 R345).
It rests on the choices of log entries 2, 29 and 80. -/
def Obligations.StepRunsTheDecodedInstruction : Prop :=
  (∀ (s s1 : State) (id : Nat) (rest : List Turn) (c : Issue) (i : Instr), s.agenda = .issue id :: rest →
    begin? { noteReady s with agenda := rest } id = some s1 → issuing s1 = some c →
    (∀ b0 b1 b2 b3 xs, c.e.ctx = none → c.e.pc % 4 = 0 → fetchCode c c.e.pc 4 = .ok ([b0, b1, b2, b3], xs) →
      decode [b0, b1, b2, b3] = .ok (i, []) → isHeader i = true → step s = exec i (touchLeaves s1 c.tm.core false xs)) ∧
    (∀ b0 b1 xs x, c.e.ctx = some x → fetchCode c c.e.pc 2 = .ok ([b0, b1], xs) → b0.getLsbD 0 = false →
      decode [b0, b1] = .ok (i, []) → step s = exec i (touchLeaves s1 c.tm.core false xs)) ∧
    (∀ b0 b1 b2 b3 xs ys x, c.e.ctx = some x → fetchCode c c.e.pc 2 = .ok ([b0, b1], xs) → b0.getLsbD 0 = true →
      c.e.pc + 4 ≤ x.endPc → fetchCode c (c.e.pc + 2) 2 = .ok ([b2, b3], ys) → decode [b0, b1, b2, b3] = .ok (i, []) →
      isHeader i = false → step s = exec i (touchLeaves s1 c.tm.core false (xs ++ ys)))) ∧
  ∀ (s : State) (i : Instr) (rest : List Turn), s.agenda = .event i :: rest →
    step s = exec i { noteReady s with agenda := rest, stalled := [] }

/-- 04 Tables 04-12, 06-10; 07; 11 Table 11-13; 18 Table 18-10: the words that the spec writes out decode to the instructions that it gives
for them. -/
def Obligations.SampleWordsDecode : Prop :=
  ∀ row ∈ [(0x0FC4003F, Instr.clauseHeader ⟨3, 15, 1, 0⟩), (0x1300_00E5, .ldg ⟨1, 6, 0, 0, 0, 3⟩),
      (0xA4302089, .vfmulF32x2 ⟨1, 3, 0, 2, 2⟩), (0x23040127, .stg ⟨2, 6, 0, 0, 1, 0, 4⟩), (0x70000035, .exit),
      (0xFF004117, .saddi ⟨0xFF0, 4, 4⟩), (0x2050425D, .vsel ⟨2, 0, 5, 0, 4, 9⟩), (0x110C211F, .vshflN32x2 ⟨1, 3, 2, 4⟩),
      (0x10022139, .syswr ⟨0x22, 4⟩), (0x280C41B7, .kneigh ⟨1, 0, 3, 4, 6⟩)],
    decode (bytesOfNat 4 row.1) = .ok (row.2, [])

/-- 04 R82 to R115, Tables 04-2 to 04-11: for every instruction that a wave issues, with every operand at every value that its row
permits, the decoder reads from its encoding that instruction and leaves the bytes after it. -/
def Obligations.DecodeEncode : Prop :=
  ∀ (i : Instr) (rest : List Byte), WellFormed i → encoded i = true → decode (encode i ++ rest) = .ok (i, rest)

/-- Every step keeps the state sound: memory stays in its canonical form; every block of a cache lies within its frame and no cache holds a
word twice (09 R244, R246); and the stores that the L1s hold stand in the order in which they entered (10 R273).
It rests on the choices of log entries 1 and 8. -/
def Obligations.StepKeepsMemorySound : Prop :=
  ∀ s t : State, SoundMemory s → step s = .next t → SoundMemory t

/-- 21 R466, Tables 21-4 to 21-6: after reset the state is sound, DEVSTATUS and the enabled counts read 0, both mailboxes are idle, and no
wave, team, grid, context or partition exists. That a byte nothing has written reads 0 is the model's choice (log entry 1). -/
def Obligations.ResetState : Prop :=
  SoundMemory State.reset ∧ devStatus State.reset = 0 ∧ State.reset.out.counts = 0 ∧ State.reset.out.box.stat = 0 ∧
    State.reset.out.port.stat = 0 ∧ State.reset.waves = [] ∧ State.reset.teams = [] ∧ State.reset.grids = [] ∧
    State.reset.ctxs = [] ∧ State.reset.parts = [] ∧ ∀ loc, readHome State.reset loc = 0
end

