-- ==== Sys2Proof/Laws/Arms.lean ====
section
/-! SUPPORT. One lemma per arm: the meaning that `exec` calls, and the check that `legal` makes. Unfolding either of the two as a
whole is slow; these are true by computation. -/

namespace Sys2Proof.Machine.Laws

/-! ## The arms of exec -/

@[simp] theorem exec_launchTake (part : Nat) (s : State) : exec (.launchTake part) s = execLaunchTake part s := rfl
@[simp] theorem exec_teamPlace (grid : Nat) (cores : List Nat) (s : State) : exec (.teamPlace grid cores) s = execTeamPlace grid cores s := rfl
@[simp] theorem exec_placementWaitExpiry (grid : Nat) (s : State) : exec (.placementWaitExpiry grid) s = execPlacementWaitExpiry grid s := rfl
@[simp] theorem exec_aggregatorRelease (grid : Nat) (s : State) : exec (.aggregatorRelease grid) s = execAggregatorRelease grid s := rfl
@[simp] theorem exec_ageBoost (wave : Nat) (s : State) : exec (.ageBoost wave) s = execAgeBoost wave s := rfl
@[simp] theorem exec_watchdog (wave : Nat) (s : State) : exec (.watchdog wave) s = execWatchdog wave s := rfl
@[simp] theorem exec_waveRetire (wave : Nat) (s : State) : exec (.waveRetire wave) s = execWaveRetire wave s := rfl
@[simp] theorem exec_loadComplete (part : OpPart) (s : State) : exec (.loadComplete part) s = execLoadComplete part s := rfl
@[simp] theorem exec_storeComplete (part : OpPart) (s : State) : exec (.storeComplete part) s = execStoreComplete part s := rfl
@[simp] theorem exec_atomicComplete (op : Nat) (s : State) : exec (.atomicComplete op) s = execAtomicComplete op s := rfl
@[simp] theorem exec_fenceComplete (wave : Nat) (s : State) : exec (.fenceComplete wave) s = execFenceComplete wave s := rfl
@[simp] theorem exec_racqDrain (op : Nat) (s : State) : exec (.racqDrain op) s = execRacqDrain op s := rfl
@[simp] theorem exec_cacheFillArrive (core : Nat) (run : FillRun) (s : State) : exec (.cacheFillArrive core run) s = execCacheFillArrive core run s := rfl
@[simp] theorem exec_sliceAdmit (die n : Nat) (s : State) : exec (.sliceAdmit die n) s = execSliceAdmit die n s := rfl
@[simp] theorem exec_monitorWake (wave : Nat) (s : State) : exec (.monitorWake wave) s = execMonitorWake wave s := rfl
@[simp] theorem exec_monitorRepoll (wave : Nat) (s : State) : exec (.monitorRepoll wave) s = execMonitorRepoll wave s := rfl
@[simp] theorem exec_pendingArrivalApply (core : Nat) (s : State) : exec (.pendingArrivalApply core) s = execPendingArrivalApply core s := rfl
@[simp] theorem exec_tenureGrant (op : Nat) (s : State) : exec (.tenureGrant op) s = execTenureGrant op s := rfl
@[simp] theorem exec_tenureRecall (ctx : Nat) (index : Nat) (write : Bool) (s : State) : exec (.tenureRecall ctx index write) s = execTenureRecall ctx index write s := rfl
@[simp] theorem exec_hrelEffect (op : Nat) (s : State) : exec (.hrelEffect op) s = execHrelEffect op s := rfl
@[simp] theorem exec_flushComplete (op : Nat) (s : State) : exec (.flushComplete op) s = execFlushComplete op s := rfl
@[simp] theorem exec_rmodeComplete (op : Nat) (s : State) : exec (.rmodeComplete op) s = execRmodeComplete op s := rfl
@[simp] theorem exec_mmaAccept (op : Nat) (s : State) : exec (.mmaAccept op) s = execMmaAccept op s := rfl
@[simp] theorem exec_mmaGrant (cluster : Nat) (s : State) : exec (.mmaGrant cluster) s = execMmaGrant cluster s := rfl
@[simp] theorem exec_tileInstrEffect (op : Nat) (s : State) : exec (.tileInstrEffect op) s = execTileInstrEffect op s := rfl
@[simp] theorem exec_tileRowsComplete (op : Nat) (s : State) : exec (.tileRowsComplete op) s = execTileRowsComplete op s := rfl
@[simp] theorem exec_colloadComplete (op : Nat) (s : State) : exec (.colloadComplete op) s = execColloadComplete op s := rfl
@[simp] theorem exec_qcopyComplete (op : Nat) (s : State) : exec (.qcopyComplete op) s = execQcopyComplete op s := rfl
@[simp] theorem exec_copyComplete (op : Nat) (s : State) : exec (.copyComplete op) s = execCopyComplete op s := rfl
@[simp] theorem exec_teamSave (team : Nat) (s : State) : exec (.teamSave team) s = execTeamSave team s := rfl
@[simp] theorem exec_teamRestore (team : Nat) (cores : List Nat) (s : State) : exec (.teamRestore team cores) s = execTeamRestore team cores s := rfl
@[simp] theorem exec_faultRecordWrite (ctx : Nat) (s : State) : exec (.faultRecordWrite ctx) s = execFaultRecordWrite ctx s := rfl
@[simp] theorem exec_hullWrite (grid : Nat) (s : State) : exec (.hullWrite grid) s = execHullWrite grid s := rfl
@[simp] theorem exec_signatureCompare (wave : Nat) (s : State) : exec (.signatureCompare wave) s = execSignatureCompare wave s := rfl
@[simp] theorem exec_bisectorSnapshot (part k : Nat) (s : State) : exec (.bisectorSnapshot part k) s = execBisectorSnapshot part k s := rfl
@[simp] theorem exec_cutAnnounce (part k : Nat) (s : State) : exec (.cutAnnounce part k) s = execCutAnnounce part k s := rfl
@[simp] theorem exec_patchHandOver (part k : Nat) (s : State) : exec (.patchHandOver part k) s = execPatchHandOver part k s := rfl
@[simp] theorem exec_bisectorStopShort (part k : Nat) (s : State) : exec (.bisectorStopShort part k) s = execBisectorStopShort part k s := rfl
@[simp] theorem exec_cutCommit (part k : Nat) (s : State) : exec (.cutCommit part k) s = execCutCommit part k s := rfl
@[simp] theorem exec_linkFlitReceive (link : Nat) (good : Bool) (s : State) : exec (.linkFlitReceive link good) s = execLinkFlitReceive link good s := rfl
@[simp] theorem exec_linkRetrain (link : Nat) (s : State) : exec (.linkRetrain link) s = execLinkRetrain link s := rfl
@[simp] theorem exec_remoteRequest (src : Remote) (write : Option (List (BitVec 8))) (size : Nat) (s : State) : exec (.remoteRequest src write size) s = execRemoteRequest src write size s := rfl
@[simp] theorem exec_agentFailure (core : Agent) (s : State) : exec (.agentFailure core) s = execAgentFailure core s := rfl
@[simp] theorem exec_census (home : Home) (s : State) : exec (.census home) s = execCensus home s := rfl
@[simp] theorem exec_correctedError (kind index : Nat) (s : State) : exec (.correctedError kind index) s = execCorrectedError kind index s := rfl
@[simp] theorem exec_poisonMark (kind a b c : Nat) (s : State) : exec (.poisonMark kind a b c) s = execPoisonMark kind a b c s := rfl
@[simp] theorem exec_spareSubstitution (kind index : Nat) (s : State) : exec (.spareSubstitution kind index) s = execSpareSubstitution kind index s := rfl
@[simp] theorem exec_hostBar2Access (pa : Nat) (write : Option (List (BitVec 8))) (size : Nat) (s : State) : exec (.hostBar2Access pa write size) s = execHostBar2Access pa write size s := rfl
@[simp] theorem exec_hostAtomicop (kind : Nat) (size : Nat) (pa : Nat) (x y : Nat) (s : State) : exec (.hostAtomicop kind size pa x y) s = execHostAtomicop kind size pa x y s := rfl
@[simp] theorem exec_hostCxlCache (pa : Nat) (data : List (BitVec 8)) (s : State) : exec (.hostCxlCache pa data) s = execHostCxlCache pa data s := rfl
@[simp] theorem exec_qrsvRead (part : Nat) (q : PageRead) (s : State) : exec (.qrsvRead part q) s = execQrsvRead part q s := rfl
@[simp] theorem exec_setupBindKeyspace (part k : Nat) (s : State) : exec (.setupBindKeyspace part k) s = execSetupBindKeyspace part k s := rfl
@[simp] theorem exec_setupUnbindKeyspace (part k : Nat) (s : State) : exec (.setupUnbindKeyspace part k) s = execSetupUnbindKeyspace part k s := rfl
@[simp] theorem exec_setupWorkList (part n : Nat) (s : State) : exec (.setupWorkList part n) s = execSetupWorkList part n s := rfl
@[simp] theorem exec_setupRereadQueue (part q : Nat) (s : State) : exec (.setupRereadQueue part q) s = execSetupRereadQueue part q s := rfl
@[simp] theorem exec_contextSetup (ctx : Nat) (record : Nat) (fn : Option Nat) (s : State) : exec (.contextSetup ctx record fn) s = execContextSetup ctx record fn s := rfl
@[simp] theorem exec_contextRetire (ctx : Nat) (s : State) : exec (.contextRetire ctx) s = execContextRetire ctx s := rfl
@[simp] theorem exec_syncRead (page : PageRead) (s : State) : exec (.syncRead page) s = execSyncRead page s := rfl
@[simp] theorem exec_serviceResume (ctx : Nat) (s : State) : exec (.serviceResume ctx) s = execServiceResume ctx s := rfl
@[simp] theorem exec_serviceHandler (ctx : Nat) (s : State) : exec (.serviceHandler ctx) s = execServiceHandler ctx s := rfl
@[simp] theorem exec_serviceEnd (ctx : Nat) (s : State) : exec (.serviceEnd ctx) s = execServiceEnd ctx s := rfl
@[simp] theorem exec_serviceContinue (ctx : Nat) (s : State) : exec (.serviceContinue ctx) s = execServiceContinue ctx s := rfl
@[simp] theorem exec_serviceRestore (ctx : Nat) (s : State) : exec (.serviceRestore ctx) s = execServiceRestore ctx s := rfl
@[simp] theorem exec_registerWrite (off size val : Nat) (face : Face) (s : State) : exec (.registerWrite off size val face) s = execRegisterWrite off size val face s := rfl
@[simp] theorem exec_partset (bar0 : Bool) (s : State) : exec (.partset bar0) s = execPartset bar0 s := rfl
@[simp] theorem exec_partfree (bar0 : Bool) (s : State) : exec (.partfree bar0) s = execPartfree bar0 s := rfl
@[simp] theorem exec_parthalt (bar0 : Bool) (s : State) : exec (.parthalt bar0) s = execParthalt bar0 s := rfl
@[simp] theorem exec_partrun (bar0 : Bool) (s : State) : exec (.partrun bar0) s = execPartrun bar0 s := rfl
@[simp] theorem exec_regtag (bar0 : Bool) (s : State) : exec (.regtag bar0) s = execRegtag bar0 s := rfl
@[simp] theorem exec_keyload (bar0 : Bool) (s : State) : exec (.keyload bar0) s = execKeyload bar0 s := rfl
@[simp] theorem exec_unitread (bar0 : Bool) (s : State) : exec (.unitread bar0) s = execUnitread bar0 s := rfl
@[simp] theorem exec_pwrlimit (bar0 : Bool) (s : State) : exec (.pwrlimit bar0) s = execPwrlimit bar0 s := rfl
@[simp] theorem exec_sharedset (bar0 : Bool) (s : State) : exec (.sharedset bar0) s = execSharedset bar0 s := rfl
@[simp] theorem exec_deviceReset (s : State) : exec (.deviceReset) s = execDeviceReset s := rfl
@[simp] theorem exec_bootStageComplete (error : Option Nat) (s : State) : exec (.bootStageComplete error) s = execBootStageComplete error s := rfl
@[simp] theorem exec_clockChange (mhz : Nat) (s : State) : exec (.clockChange mhz) s = execClockChange mhz s := rfl
@[simp] theorem exec_thermalLimit (s : State) : exec (.thermalLimit) s = execThermalLimit s := rfl
@[simp] theorem exec_thermalHalt (s : State) : exec (.thermalHalt) s = execThermalHalt s := rfl
@[simp] theorem exec_keyUnitStep (op : Nat) (s : State) : exec (.keyUnitStep op) s = execKeyUnitStep op s := rfl
@[simp] theorem exec_workListStep (op : Nat) (s : State) : exec (.workListStep op) s = execWorkListStep op s := rfl
@[simp] theorem exec_corePowerGate (core : Nat) (s : State) : exec (.corePowerGate core) s = execCorePowerGate core s := rfl
@[simp] theorem exec_clauseHeader (o : OpHdr) (s : State) : exec (.clauseHeader o) s = execClauseHeader o s := rfl
@[simp] theorem exec_vaddI8x8 (o : OpA) (s : State) : exec (.vaddI8x8 o) s = execVaddI8x8 o s := rfl
@[simp] theorem exec_vsubI8x8 (o : OpA) (s : State) : exec (.vsubI8x8 o) s = execVsubI8x8 o s := rfl
@[simp] theorem exec_vminI8x8 (o : OpA) (s : State) : exec (.vminI8x8 o) s = execVminI8x8 o s := rfl
@[simp] theorem exec_vminN8x8 (o : OpA) (s : State) : exec (.vminN8x8 o) s = execVminN8x8 o s := rfl
@[simp] theorem exec_vmaxI8x8 (o : OpA) (s : State) : exec (.vmaxI8x8 o) s = execVmaxI8x8 o s := rfl
@[simp] theorem exec_vmaxN8x8 (o : OpA) (s : State) : exec (.vmaxN8x8 o) s = execVmaxN8x8 o s := rfl
@[simp] theorem exec_vaddI8x8Sat (o : OpA) (s : State) : exec (.vaddI8x8Sat o) s = execVaddI8x8Sat o s := rfl
@[simp] theorem exec_vaddN8x8Sat (o : OpA) (s : State) : exec (.vaddN8x8Sat o) s = execVaddN8x8Sat o s := rfl
@[simp] theorem exec_vaddI16x4 (o : OpA) (s : State) : exec (.vaddI16x4 o) s = execVaddI16x4 o s := rfl
@[simp] theorem exec_vsubI16x4 (o : OpA) (s : State) : exec (.vsubI16x4 o) s = execVsubI16x4 o s := rfl
@[simp] theorem exec_vminI16x4 (o : OpA) (s : State) : exec (.vminI16x4 o) s = execVminI16x4 o s := rfl
@[simp] theorem exec_vminN16x4 (o : OpA) (s : State) : exec (.vminN16x4 o) s = execVminN16x4 o s := rfl
@[simp] theorem exec_vmaxI16x4 (o : OpA) (s : State) : exec (.vmaxI16x4 o) s = execVmaxI16x4 o s := rfl
@[simp] theorem exec_vmaxN16x4 (o : OpA) (s : State) : exec (.vmaxN16x4 o) s = execVmaxN16x4 o s := rfl
@[simp] theorem exec_vaddI16x4Sat (o : OpA) (s : State) : exec (.vaddI16x4Sat o) s = execVaddI16x4Sat o s := rfl
@[simp] theorem exec_vaddN16x4Sat (o : OpA) (s : State) : exec (.vaddN16x4Sat o) s = execVaddN16x4Sat o s := rfl
@[simp] theorem exec_vaddI32x2 (o : OpA) (s : State) : exec (.vaddI32x2 o) s = execVaddI32x2 o s := rfl
@[simp] theorem exec_vsubI32x2 (o : OpA) (s : State) : exec (.vsubI32x2 o) s = execVsubI32x2 o s := rfl
@[simp] theorem exec_vmulI32x2 (o : OpA) (s : State) : exec (.vmulI32x2 o) s = execVmulI32x2 o s := rfl
@[simp] theorem exec_vmulhiI32x2 (o : OpA) (s : State) : exec (.vmulhiI32x2 o) s = execVmulhiI32x2 o s := rfl
@[simp] theorem exec_vmulhiN32x2 (o : OpA) (s : State) : exec (.vmulhiN32x2 o) s = execVmulhiN32x2 o s := rfl
@[simp] theorem exec_vminI32x2 (o : OpA) (s : State) : exec (.vminI32x2 o) s = execVminI32x2 o s := rfl
@[simp] theorem exec_vminN32x2 (o : OpA) (s : State) : exec (.vminN32x2 o) s = execVminN32x2 o s := rfl
@[simp] theorem exec_vmaxI32x2 (o : OpA) (s : State) : exec (.vmaxI32x2 o) s = execVmaxI32x2 o s := rfl
@[simp] theorem exec_vmaxN32x2 (o : OpA) (s : State) : exec (.vmaxN32x2 o) s = execVmaxN32x2 o s := rfl
@[simp] theorem exec_vshlI32x2 (o : OpA) (s : State) : exec (.vshlI32x2 o) s = execVshlI32x2 o s := rfl
@[simp] theorem exec_vshrN32x2 (o : OpA) (s : State) : exec (.vshrN32x2 o) s = execVshrN32x2 o s := rfl
@[simp] theorem exec_vshrI32x2 (o : OpA) (s : State) : exec (.vshrI32x2 o) s = execVshrI32x2 o s := rfl
@[simp] theorem exec_vaddI32x2Sat (o : OpA) (s : State) : exec (.vaddI32x2Sat o) s = execVaddI32x2Sat o s := rfl
@[simp] theorem exec_vaddN32x2Sat (o : OpA) (s : State) : exec (.vaddN32x2Sat o) s = execVaddN32x2Sat o s := rfl
@[simp] theorem exec_vsubI32x2Sat (o : OpA) (s : State) : exec (.vsubI32x2Sat o) s = execVsubI32x2Sat o s := rfl
@[simp] theorem exec_vsubN32x2Sat (o : OpA) (s : State) : exec (.vsubN32x2Sat o) s = execVsubN32x2Sat o s := rfl
@[simp] theorem exec_vaddI64 (o : OpA) (s : State) : exec (.vaddI64 o) s = execVaddI64 o s := rfl
@[simp] theorem exec_vsubI64 (o : OpA) (s : State) : exec (.vsubI64 o) s = execVsubI64 o s := rfl
@[simp] theorem exec_vmulI64 (o : OpA) (s : State) : exec (.vmulI64 o) s = execVmulI64 o s := rfl
@[simp] theorem exec_vmulhiI64 (o : OpA) (s : State) : exec (.vmulhiI64 o) s = execVmulhiI64 o s := rfl
@[simp] theorem exec_vmulhiN64 (o : OpA) (s : State) : exec (.vmulhiN64 o) s = execVmulhiN64 o s := rfl
@[simp] theorem exec_vminI64 (o : OpA) (s : State) : exec (.vminI64 o) s = execVminI64 o s := rfl
@[simp] theorem exec_vminN64 (o : OpA) (s : State) : exec (.vminN64 o) s = execVminN64 o s := rfl
@[simp] theorem exec_vmaxI64 (o : OpA) (s : State) : exec (.vmaxI64 o) s = execVmaxI64 o s := rfl
@[simp] theorem exec_vmaxN64 (o : OpA) (s : State) : exec (.vmaxN64 o) s = execVmaxN64 o s := rfl
@[simp] theorem exec_vshlI64 (o : OpA) (s : State) : exec (.vshlI64 o) s = execVshlI64 o s := rfl
@[simp] theorem exec_vshrN64 (o : OpA) (s : State) : exec (.vshrN64 o) s = execVshrN64 o s := rfl
@[simp] theorem exec_vshrI64 (o : OpA) (s : State) : exec (.vshrI64 o) s = execVshrI64 o s := rfl
@[simp] theorem exec_vaddI64Sat (o : OpA) (s : State) : exec (.vaddI64Sat o) s = execVaddI64Sat o s := rfl
@[simp] theorem exec_vaddN64Sat (o : OpA) (s : State) : exec (.vaddN64Sat o) s = execVaddN64Sat o s := rfl
@[simp] theorem exec_vsubI64Sat (o : OpA) (s : State) : exec (.vsubI64Sat o) s = execVsubI64Sat o s := rfl
@[simp] theorem exec_vsubN64Sat (o : OpA) (s : State) : exec (.vsubN64Sat o) s = execVsubN64Sat o s := rfl
@[simp] theorem exec_vand (o : OpA) (s : State) : exec (.vand o) s = execVand o s := rfl
@[simp] theorem exec_vor (o : OpA) (s : State) : exec (.vor o) s = execVor o s := rfl
@[simp] theorem exec_vxor (o : OpA) (s : State) : exec (.vxor o) s = execVxor o s := rfl
@[simp] theorem exec_vandn (o : OpA) (s : State) : exec (.vandn o) s = execVandn o s := rfl
@[simp] theorem exec_vmov (o : OpDA) (s : State) : exec (.vmov o) s = execVmov o s := rfl
@[simp] theorem exec_vsplat (o : OpDA) (s : State) : exec (.vsplat o) s = execVsplat o s := rfl
@[simp] theorem exec_vfaddF64 (o : OpA) (s : State) : exec (.vfaddF64 o) s = execVfaddF64 o s := rfl
@[simp] theorem exec_vfsubF64 (o : OpA) (s : State) : exec (.vfsubF64 o) s = execVfsubF64 o s := rfl
@[simp] theorem exec_vfmulF64 (o : OpA) (s : State) : exec (.vfmulF64 o) s = execVfmulF64 o s := rfl
@[simp] theorem exec_vfmaF64 (o : OpA) (s : State) : exec (.vfmaF64 o) s = execVfmaF64 o s := rfl
@[simp] theorem exec_vfminF64 (o : OpA) (s : State) : exec (.vfminF64 o) s = execVfminF64 o s := rfl
@[simp] theorem exec_vfmaxF64 (o : OpA) (s : State) : exec (.vfmaxF64 o) s = execVfmaxF64 o s := rfl
@[simp] theorem exec_vfminF64Nan (o : OpA) (s : State) : exec (.vfminF64Nan o) s = execVfminF64Nan o s := rfl
@[simp] theorem exec_vfmaxF64Nan (o : OpA) (s : State) : exec (.vfmaxF64Nan o) s = execVfmaxF64Nan o s := rfl
@[simp] theorem exec_vfaddF32x2 (o : OpA) (s : State) : exec (.vfaddF32x2 o) s = execVfaddF32x2 o s := rfl
@[simp] theorem exec_vfsubF32x2 (o : OpA) (s : State) : exec (.vfsubF32x2 o) s = execVfsubF32x2 o s := rfl
@[simp] theorem exec_vfmulF32x2 (o : OpA) (s : State) : exec (.vfmulF32x2 o) s = execVfmulF32x2 o s := rfl
@[simp] theorem exec_vfmaF32x2 (o : OpA) (s : State) : exec (.vfmaF32x2 o) s = execVfmaF32x2 o s := rfl
@[simp] theorem exec_vfminF32x2 (o : OpA) (s : State) : exec (.vfminF32x2 o) s = execVfminF32x2 o s := rfl
@[simp] theorem exec_vfmaxF32x2 (o : OpA) (s : State) : exec (.vfmaxF32x2 o) s = execVfmaxF32x2 o s := rfl
@[simp] theorem exec_vfminF32x2Nan (o : OpA) (s : State) : exec (.vfminF32x2Nan o) s = execVfminF32x2Nan o s := rfl
@[simp] theorem exec_vfmaxF32x2Nan (o : OpA) (s : State) : exec (.vfmaxF32x2Nan o) s = execVfmaxF32x2Nan o s := rfl
@[simp] theorem exec_vfaddF16x4 (o : OpA) (s : State) : exec (.vfaddF16x4 o) s = execVfaddF16x4 o s := rfl
@[simp] theorem exec_vfsubF16x4 (o : OpA) (s : State) : exec (.vfsubF16x4 o) s = execVfsubF16x4 o s := rfl
@[simp] theorem exec_vfmulF16x4 (o : OpA) (s : State) : exec (.vfmulF16x4 o) s = execVfmulF16x4 o s := rfl
@[simp] theorem exec_vfmaF16x4 (o : OpA) (s : State) : exec (.vfmaF16x4 o) s = execVfmaF16x4 o s := rfl
@[simp] theorem exec_vfminF16x4 (o : OpA) (s : State) : exec (.vfminF16x4 o) s = execVfminF16x4 o s := rfl
@[simp] theorem exec_vfmaxF16x4 (o : OpA) (s : State) : exec (.vfmaxF16x4 o) s = execVfmaxF16x4 o s := rfl
@[simp] theorem exec_vfminF16x4Nan (o : OpA) (s : State) : exec (.vfminF16x4Nan o) s = execVfminF16x4Nan o s := rfl
@[simp] theorem exec_vfmaxF16x4Nan (o : OpA) (s : State) : exec (.vfmaxF16x4Nan o) s = execVfmaxF16x4Nan o s := rfl
@[simp] theorem exec_vfaddBf16x4 (o : OpA) (s : State) : exec (.vfaddBf16x4 o) s = execVfaddBf16x4 o s := rfl
@[simp] theorem exec_vfsubBf16x4 (o : OpA) (s : State) : exec (.vfsubBf16x4 o) s = execVfsubBf16x4 o s := rfl
@[simp] theorem exec_vfmulBf16x4 (o : OpA) (s : State) : exec (.vfmulBf16x4 o) s = execVfmulBf16x4 o s := rfl
@[simp] theorem exec_vfmaBf16x4 (o : OpA) (s : State) : exec (.vfmaBf16x4 o) s = execVfmaBf16x4 o s := rfl
@[simp] theorem exec_vfminBf16x4 (o : OpA) (s : State) : exec (.vfminBf16x4 o) s = execVfminBf16x4 o s := rfl
@[simp] theorem exec_vfmaxBf16x4 (o : OpA) (s : State) : exec (.vfmaxBf16x4 o) s = execVfmaxBf16x4 o s := rfl
@[simp] theorem exec_vfminBf16x4Nan (o : OpA) (s : State) : exec (.vfminBf16x4Nan o) s = execVfminBf16x4Nan o s := rfl
@[simp] theorem exec_vfmaxBf16x4Nan (o : OpA) (s : State) : exec (.vfmaxBf16x4Nan o) s = execVfmaxBf16x4Nan o s := rfl
@[simp] theorem exec_saddI64 (o : OpA) (s : State) : exec (.saddI64 o) s = execSaddI64 o s := rfl
@[simp] theorem exec_ssubI64 (o : OpA) (s : State) : exec (.ssubI64 o) s = execSsubI64 o s := rfl
@[simp] theorem exec_smulI64 (o : OpA) (s : State) : exec (.smulI64 o) s = execSmulI64 o s := rfl
@[simp] theorem exec_smulhiI64 (o : OpA) (s : State) : exec (.smulhiI64 o) s = execSmulhiI64 o s := rfl
@[simp] theorem exec_smulhiN64 (o : OpA) (s : State) : exec (.smulhiN64 o) s = execSmulhiN64 o s := rfl
@[simp] theorem exec_sand (o : OpA) (s : State) : exec (.sand o) s = execSand o s := rfl
@[simp] theorem exec_sor (o : OpA) (s : State) : exec (.sor o) s = execSor o s := rfl
@[simp] theorem exec_sxor (o : OpA) (s : State) : exec (.sxor o) s = execSxor o s := rfl
@[simp] theorem exec_sshlI64 (o : OpA) (s : State) : exec (.sshlI64 o) s = execSshlI64 o s := rfl
@[simp] theorem exec_sshrN64 (o : OpA) (s : State) : exec (.sshrN64 o) s = execSshrN64 o s := rfl
@[simp] theorem exec_sshrI64 (o : OpA) (s : State) : exec (.sshrI64 o) s = execSshrI64 o s := rfl
@[simp] theorem exec_sminI64 (o : OpA) (s : State) : exec (.sminI64 o) s = execSminI64 o s := rfl
@[simp] theorem exec_sminN64 (o : OpA) (s : State) : exec (.sminN64 o) s = execSminN64 o s := rfl
@[simp] theorem exec_smaxI64 (o : OpA) (s : State) : exec (.smaxI64 o) s = execSmaxI64 o s := rfl
@[simp] theorem exec_smaxN64 (o : OpA) (s : State) : exec (.smaxN64 o) s = execSmaxN64 o s := rfl
@[simp] theorem exec_smov (o : OpDA) (s : State) : exec (.smov o) s = execSmov o s := rfl
@[simp] theorem exec_nop (s : State) : exec (.nop) s = execNop s := rfl
@[simp] theorem exec_vmovC16 (o : Op16) (s : State) : exec (.vmovC16 o) s = execVmovC16 o s := rfl
@[simp] theorem exec_vaddI32x2C16 (o : Op16) (s : State) : exec (.vaddI32x2C16 o) s = execVaddI32x2C16 o s := rfl
@[simp] theorem exec_vsubI32x2C16 (o : Op16) (s : State) : exec (.vsubI32x2C16 o) s = execVsubI32x2C16 o s := rfl
@[simp] theorem exec_vmulI32x2C16 (o : Op16) (s : State) : exec (.vmulI32x2C16 o) s = execVmulI32x2C16 o s := rfl
@[simp] theorem exec_vandC16 (o : Op16) (s : State) : exec (.vandC16 o) s = execVandC16 o s := rfl
@[simp] theorem exec_vorC16 (o : Op16) (s : State) : exec (.vorC16 o) s = execVorC16 o s := rfl
@[simp] theorem exec_vxorC16 (o : Op16) (s : State) : exec (.vxorC16 o) s = execVxorC16 o s := rfl
@[simp] theorem exec_vshlI32x2C16 (o : Op16) (s : State) : exec (.vshlI32x2C16 o) s = execVshlI32x2C16 o s := rfl
@[simp] theorem exec_vshrN32x2C16 (o : Op16) (s : State) : exec (.vshrN32x2C16 o) s = execVshrN32x2C16 o s := rfl
@[simp] theorem exec_vfaddF32x2C16 (o : Op16) (s : State) : exec (.vfaddF32x2C16 o) s = execVfaddF32x2C16 o s := rfl
@[simp] theorem exec_vfsubF32x2C16 (o : Op16) (s : State) : exec (.vfsubF32x2C16 o) s = execVfsubF32x2C16 o s := rfl
@[simp] theorem exec_vfmulF32x2C16 (o : Op16) (s : State) : exec (.vfmulF32x2C16 o) s = execVfmulF32x2C16 o s := rfl
@[simp] theorem exec_vfminF32x2C16 (o : Op16) (s : State) : exec (.vfminF32x2C16 o) s = execVfminF32x2C16 o s := rfl
@[simp] theorem exec_vfmaxF32x2C16 (o : Op16) (s : State) : exec (.vfmaxF32x2C16 o) s = execVfmaxF32x2C16 o s := rfl
@[simp] theorem exec_vfaddF64C16 (o : Op16) (s : State) : exec (.vfaddF64C16 o) s = execVfaddF64C16 o s := rfl
@[simp] theorem exec_vfaddQ (o : OpQ) (s : State) : exec (.vfaddQ o) s = execVfaddQ o s := rfl
@[simp] theorem exec_vfsubQ (o : OpQ) (s : State) : exec (.vfsubQ o) s = execVfsubQ o s := rfl
@[simp] theorem exec_vfmulQ (o : OpQ) (s : State) : exec (.vfmulQ o) s = execVfmulQ o s := rfl
@[simp] theorem exec_vfmaQ (o : OpQ) (s : State) : exec (.vfmaQ o) s = execVfmaQ o s := rfl
@[simp] theorem exec_vfabs (o : OpU) (s : State) : exec (.vfabs o) s = execVfabs o s := rfl
@[simp] theorem exec_vfneg (o : OpU) (s : State) : exec (.vfneg o) s = execVfneg o s := rfl
@[simp] theorem exec_vrcp (o : OpU) (s : State) : exec (.vrcp o) s = execVrcp o s := rfl
@[simp] theorem exec_vrsqrt (o : OpU) (s : State) : exec (.vrsqrt o) s = execVrsqrt o s := rfl
@[simp] theorem exec_vsqrt (o : OpU) (s : State) : exec (.vsqrt o) s = execVsqrt o s := rfl
@[simp] theorem exec_vsin (o : OpU) (s : State) : exec (.vsin o) s = execVsin o s := rfl
@[simp] theorem exec_vcos (o : OpU) (s : State) : exec (.vcos o) s = execVcos o s := rfl
@[simp] theorem exec_vsinpi (o : OpU) (s : State) : exec (.vsinpi o) s = execVsinpi o s := rfl
@[simp] theorem exec_vcospi (o : OpU) (s : State) : exec (.vcospi o) s = execVcospi o s := rfl
@[simp] theorem exec_vexp2 (o : OpU) (s : State) : exec (.vexp2 o) s = execVexp2 o s := rfl
@[simp] theorem exec_vlog2 (o : OpU) (s : State) : exec (.vlog2 o) s = execVlog2 o s := rfl
@[simp] theorem exec_vtanh (o : OpU) (s : State) : exec (.vtanh o) s = execVtanh o s := rfl
@[simp] theorem exec_vfrintn (o : OpU) (s : State) : exec (.vfrintn o) s = execVfrintn o s := rfl
@[simp] theorem exec_vfrintz (o : OpU) (s : State) : exec (.vfrintz o) s = execVfrintz o s := rfl
@[simp] theorem exec_vfrintm (o : OpU) (s : State) : exec (.vfrintm o) s = execVfrintm o s := rfl
@[simp] theorem exec_vfrintp (o : OpU) (s : State) : exec (.vfrintp o) s = execVfrintp o s := rfl
@[simp] theorem exec_vfclass (o : OpU) (s : State) : exec (.vfclass o) s = execVfclass o s := rfl
@[simp] theorem exec_vabs (o : OpUI) (s : State) : exec (.vabs o) s = execVabs o s := rfl
@[simp] theorem exec_vneg (o : OpUI) (s : State) : exec (.vneg o) s = execVneg o s := rfl
@[simp] theorem exec_vnot (o : OpUI) (s : State) : exec (.vnot o) s = execVnot o s := rfl
@[simp] theorem exec_vpopc (o : OpUI) (s : State) : exec (.vpopc o) s = execVpopc o s := rfl
@[simp] theorem exec_vclz (o : OpUI) (s : State) : exec (.vclz o) s = execVclz o s := rfl
@[simp] theorem exec_vbrev (o : OpUI) (s : State) : exec (.vbrev o) s = execVbrev o s := rfl
@[simp] theorem exec_vlanes (o : OpD) (s : State) : exec (.vlanes o) s = execVlanes o s := rfl
@[simp] theorem exec_vpasses (o : OpD) (s : State) : exec (.vpasses o) s = execVpasses o s := rfl
@[simp] theorem exec_vtid (o : OpD) (s : State) : exec (.vtid o) s = execVtid o s := rfl
@[simp] theorem exec_vlanemap (o : OpD) (s : State) : exec (.vlanemap o) s = execVlanemap o s := rfl
@[simp] theorem exec_vcvt (o : OpC) (s : State) : exec (.vcvt o) s = execVcvt o s := rfl
@[simp] theorem exec_vquant (o : OpS) (s : State) : exec (.vquant o) s = execVquant o s := rfl
@[simp] theorem exec_vdequant (o : OpS) (s : State) : exec (.vdequant o) s = execVdequant o s := rfl
@[simp] theorem exec_vcbdec (o : OpS) (s : State) : exec (.vcbdec o) s = execVcbdec o s := rfl
@[simp] theorem exec_amadI8x8 (o : OpA) (s : State) : exec (.amadI8x8 o) s = execAmadI8x8 o s := rfl
@[simp] theorem exec_amadN8x8 (o : OpA) (s : State) : exec (.amadN8x8 o) s = execAmadN8x8 o s := rfl
@[simp] theorem exec_amadF16x4 (o : OpA) (s : State) : exec (.amadF16x4 o) s = execAmadF16x4 o s := rfl
@[simp] theorem exec_amadBf16x4 (o : OpA) (s : State) : exec (.amadBf16x4 o) s = execAmadBf16x4 o s := rfl
@[simp] theorem exec_amadF32x2 (o : OpA) (s : State) : exec (.amadF32x2 o) s = execAmadF32x2 o s := rfl
@[simp] theorem exec_amadF64 (o : OpA) (s : State) : exec (.amadF64 o) s = execAmadF64 o s := rfl
@[simp] theorem exec_azero (o : OpD) (s : State) : exec (.azero o) s = execAzero o s := rfl
@[simp] theorem exec_amov (o : OpA) (s : State) : exec (.amov o) s = execAmov o s := rfl
@[simp] theorem exec_vnarrowLo (o : OpAD) (s : State) : exec (.vnarrowLo o) s = execVnarrowLo o s := rfl
@[simp] theorem exec_vnarrowHi (o : OpAD) (s : State) : exec (.vnarrowHi o) s = execVnarrowHi o s := rfl
@[simp] theorem exec_vnarrowI16x4Sat (o : OpAD) (s : State) : exec (.vnarrowI16x4Sat o) s = execVnarrowI16x4Sat o s := rfl
@[simp] theorem exec_vnarrowF16x4 (o : OpAD) (s : State) : exec (.vnarrowF16x4 o) s = execVnarrowF16x4 o s := rfl
@[simp] theorem exec_saddi (o : OpI) (s : State) : exec (.saddi o) s = execSaddi o s := rfl
@[simp] theorem exec_sandi (o : OpI) (s : State) : exec (.sandi o) s = execSandi o s := rfl
@[simp] theorem exec_vaddiI32x2 (o : OpI) (s : State) : exec (.vaddiI32x2 o) s = execVaddiI32x2 o s := rfl
@[simp] theorem exec_vaddiI64 (o : OpI) (s : State) : exec (.vaddiI64 o) s = execVaddiI64 o s := rfl
@[simp] theorem exec_smovz (o : OpL) (s : State) : exec (.smovz o) s = execSmovz o s := rfl
@[simp] theorem exec_smovs (o : OpL) (s : State) : exec (.smovs o) s = execSmovs o s := rfl
@[simp] theorem exec_smovk16 (o : OpL) (s : State) : exec (.smovk16 o) s = execSmovk16 o s := rfl
@[simp] theorem exec_smovk32 (o : OpL) (s : State) : exec (.smovk32 o) s = execSmovk32 o s := rfl
@[simp] theorem exec_smovk48 (o : OpL) (s : State) : exec (.smovk48 o) s = execSmovk48 o s := rfl
@[simp] theorem exec_vmovz (o : OpL) (s : State) : exec (.vmovz o) s = execVmovz o s := rfl
@[simp] theorem exec_vmovs (o : OpL) (s : State) : exec (.vmovs o) s = execVmovs o s := rfl
@[simp] theorem exec_vmovk16 (o : OpL) (s : State) : exec (.vmovk16 o) s = execVmovk16 o s := rfl
@[simp] theorem exec_vmovk32 (o : OpL) (s : State) : exec (.vmovk32 o) s = execVmovk32 o s := rfl
@[simp] theorem exec_vmovk48 (o : OpL) (s : State) : exec (.vmovk48 o) s = execVmovk48 o s := rfl
@[simp] theorem exec_vceq (o : OpP) (s : State) : exec (.vceq o) s = execVceq o s := rfl
@[simp] theorem exec_vcne (o : OpP) (s : State) : exec (.vcne o) s = execVcne o s := rfl
@[simp] theorem exec_vclt (o : OpP) (s : State) : exec (.vclt o) s = execVclt o s := rfl
@[simp] theorem exec_vcle (o : OpP) (s : State) : exec (.vcle o) s = execVcle o s := rfl
@[simp] theorem exec_vcgt (o : OpP) (s : State) : exec (.vcgt o) s = execVcgt o s := rfl
@[simp] theorem exec_vcge (o : OpP) (s : State) : exec (.vcge o) s = execVcge o s := rfl
@[simp] theorem exec_vcord (o : OpP) (s : State) : exec (.vcord o) s = execVcord o s := rfl
@[simp] theorem exec_vcunord (o : OpP) (s : State) : exec (.vcunord o) s = execVcunord o s := rfl
@[simp] theorem exec_vcneu (o : OpP) (s : State) : exec (.vcneu o) s = execVcneu o s := rfl
@[simp] theorem exec_sceq (o : OpP) (s : State) : exec (.sceq o) s = execSceq o s := rfl
@[simp] theorem exec_scne (o : OpP) (s : State) : exec (.scne o) s = execScne o s := rfl
@[simp] theorem exec_sclt (o : OpP) (s : State) : exec (.sclt o) s = execSclt o s := rfl
@[simp] theorem exec_scle (o : OpP) (s : State) : exec (.scle o) s = execScle o s := rfl
@[simp] theorem exec_scgt (o : OpP) (s : State) : exec (.scgt o) s = execScgt o s := rfl
@[simp] theorem exec_scge (o : OpP) (s : State) : exec (.scge o) s = execScge o s := rfl
@[simp] theorem exec_scord (o : OpP) (s : State) : exec (.scord o) s = execScord o s := rfl
@[simp] theorem exec_scunord (o : OpP) (s : State) : exec (.scunord o) s = execScunord o s := rfl
@[simp] theorem exec_scneu (o : OpP) (s : State) : exec (.scneu o) s = execScneu o s := rfl
@[simp] theorem exec_vsel (o : OpE) (s : State) : exec (.vsel o) s = execVsel o s := rfl
@[simp] theorem exec_pand (o : OpPL) (s : State) : exec (.pand o) s = execPand o s := rfl
@[simp] theorem exec_por (o : OpPL) (s : State) : exec (.por o) s = execPor o s := rfl
@[simp] theorem exec_pxor (o : OpPL) (s : State) : exec (.pxor o) s = execPxor o s := rfl
@[simp] theorem exec_pandn (o : OpPL) (s : State) : exec (.pandn o) s = execPandn o s := rfl
@[simp] theorem exec_pnot (o : OpPN) (s : State) : exec (.pnot o) s = execPnot o s := rfl
@[simp] theorem exec_pmov (o : OpPN) (s : State) : exec (.pmov o) s = execPmov o s := rfl
@[simp] theorem exec_vshflN64 (o : OpX) (s : State) : exec (.vshflN64 o) s = execVshflN64 o s := rfl
@[simp] theorem exec_vshflN32x2 (o : OpX) (s : State) : exec (.vshflN32x2 o) s = execVshflN32x2 o s := rfl
@[simp] theorem exec_vshflN16x4 (o : OpX) (s : State) : exec (.vshflN16x4 o) s = execVshflN16x4 o s := rfl
@[simp] theorem exec_vshflN8x8 (o : OpX) (s : State) : exec (.vshflN8x8 o) s = execVshflN8x8 o s := rfl
@[simp] theorem exec_vbcast (o : OpX) (s : State) : exec (.vbcast o) s = execVbcast o s := rfl
@[simp] theorem exec_vballot (o : OpBal) (s : State) : exec (.vballot o) s = execVballot o s := rfl
@[simp] theorem exec_vall (o : OpVote) (s : State) : exec (.vall o) s = execVall o s := rfl
@[simp] theorem exec_vany (o : OpVote) (s : State) : exec (.vany o) s = execVany o s := rfl
@[simp] theorem exec_vuni (o : OpUni) (s : State) : exec (.vuni o) s = execVuni o s := rfl
@[simp] theorem exec_vcompact (o : OpCmp) (s : State) : exec (.vcompact o) s = execVcompact o s := rfl
@[simp] theorem exec_vmatch (o : OpAD) (s : State) : exec (.vmatch o) s = execVmatch o s := rfl
@[simp] theorem exec_vrdfirst (o : OpAD) (s : State) : exec (.vrdfirst o) s = execVrdfirst o s := rfl
@[simp] theorem exec_vredAdd (o : OpT) (s : State) : exec (.vredAdd o) s = execVredAdd o s := rfl
@[simp] theorem exec_vredMin (o : OpT) (s : State) : exec (.vredMin o) s = execVredMin o s := rfl
@[simp] theorem exec_vredMax (o : OpT) (s : State) : exec (.vredMax o) s = execVredMax o s := rfl
@[simp] theorem exec_vredAnd (o : OpT) (s : State) : exec (.vredAnd o) s = execVredAnd o s := rfl
@[simp] theorem exec_vredOr (o : OpT) (s : State) : exec (.vredOr o) s = execVredOr o s := rfl
@[simp] theorem exec_vredXor (o : OpT) (s : State) : exec (.vredXor o) s = execVredXor o s := rfl
@[simp] theorem exec_vscanAdd (o : OpT) (s : State) : exec (.vscanAdd o) s = execVscanAdd o s := rfl
@[simp] theorem exec_vscanMin (o : OpT) (s : State) : exec (.vscanMin o) s = execVscanMin o s := rfl
@[simp] theorem exec_vscanMax (o : OpT) (s : State) : exec (.vscanMax o) s = execVscanMax o s := rfl
@[simp] theorem exec_vscanAnd (o : OpT) (s : State) : exec (.vscanAnd o) s = execVscanAnd o s := rfl
@[simp] theorem exec_vscanOr (o : OpT) (s : State) : exec (.vscanOr o) s = execVscanOr o s := rfl
@[simp] theorem exec_vscanXor (o : OpT) (s : State) : exec (.vscanXor o) s = execVscanXor o s := rfl
@[simp] theorem exec_vscanxAdd (o : OpT) (s : State) : exec (.vscanxAdd o) s = execVscanxAdd o s := rfl
@[simp] theorem exec_vscanxMin (o : OpT) (s : State) : exec (.vscanxMin o) s = execVscanxMin o s := rfl
@[simp] theorem exec_vscanxMax (o : OpT) (s : State) : exec (.vscanxMax o) s = execVscanxMax o s := rfl
@[simp] theorem exec_vscanxAnd (o : OpT) (s : State) : exec (.vscanxAnd o) s = execVscanxAnd o s := rfl
@[simp] theorem exec_vscanxOr (o : OpT) (s : State) : exec (.vscanxOr o) s = execVscanxOr o s := rfl
@[simp] theorem exec_vscanxXor (o : OpT) (s : State) : exec (.vscanxXor o) s = execVscanxXor o s := rfl
@[simp] theorem exec_vtopk (o : OpK) (s : State) : exec (.vtopk o) s = execVtopk o s := rfl
@[simp] theorem exec_ldg (o : OpLdg) (s : State) : exec (.ldg o) s = execLdg o s := rfl
@[simp] theorem exec_lds (o : OpLds) (s : State) : exec (.lds o) s = execLds o s := rfl
@[simp] theorem exec_ldc (o : OpLds) (s : State) : exec (.ldc o) s = execLdc o s := rfl
@[simp] theorem exec_stg (o : OpStg) (s : State) : exec (.stg o) s = execStg o s := rfl
@[simp] theorem exec_sts (o : OpSts) (s : State) : exec (.sts o) s = execSts o s := rfl
@[simp] theorem exec_atomAdd (o : OpN) (s : State) : exec (.atomAdd o) s = execAtomAdd o s := rfl
@[simp] theorem exec_atomAnd (o : OpN) (s : State) : exec (.atomAnd o) s = execAtomAnd o s := rfl
@[simp] theorem exec_atomOr (o : OpN) (s : State) : exec (.atomOr o) s = execAtomOr o s := rfl
@[simp] theorem exec_atomXor (o : OpN) (s : State) : exec (.atomXor o) s = execAtomXor o s := rfl
@[simp] theorem exec_atomMinI (o : OpN) (s : State) : exec (.atomMinI o) s = execAtomMinI o s := rfl
@[simp] theorem exec_atomMinN (o : OpN) (s : State) : exec (.atomMinN o) s = execAtomMinN o s := rfl
@[simp] theorem exec_atomMaxI (o : OpN) (s : State) : exec (.atomMaxI o) s = execAtomMaxI o s := rfl
@[simp] theorem exec_atomMaxN (o : OpN) (s : State) : exec (.atomMaxN o) s = execAtomMaxN o s := rfl
@[simp] theorem exec_atomExch (o : OpN) (s : State) : exec (.atomExch o) s = execAtomExch o s := rfl
@[simp] theorem exec_atomCas (o : OpN) (s : State) : exec (.atomCas o) s = execAtomCas o s := rfl
@[simp] theorem exec_atomFadd (o : OpN) (s : State) : exec (.atomFadd o) s = execAtomFadd o s := rfl
@[simp] theorem exec_atomLdo (o : OpN) (s : State) : exec (.atomLdo o) s = execAtomLdo o s := rfl
@[simp] theorem exec_redAdd (o : OpN) (s : State) : exec (.redAdd o) s = execRedAdd o s := rfl
@[simp] theorem exec_redAnd (o : OpN) (s : State) : exec (.redAnd o) s = execRedAnd o s := rfl
@[simp] theorem exec_redOr (o : OpN) (s : State) : exec (.redOr o) s = execRedOr o s := rfl
@[simp] theorem exec_redXor (o : OpN) (s : State) : exec (.redXor o) s = execRedXor o s := rfl
@[simp] theorem exec_redMinI (o : OpN) (s : State) : exec (.redMinI o) s = execRedMinI o s := rfl
@[simp] theorem exec_redMinN (o : OpN) (s : State) : exec (.redMinN o) s = execRedMinN o s := rfl
@[simp] theorem exec_redMaxI (o : OpN) (s : State) : exec (.redMaxI o) s = execRedMaxI o s := rfl
@[simp] theorem exec_redMaxN (o : OpN) (s : State) : exec (.redMaxN o) s = execRedMaxN o s := rfl
@[simp] theorem exec_redExch (o : OpN) (s : State) : exec (.redExch o) s = execRedExch o s := rfl
@[simp] theorem exec_redCas (o : OpN) (s : State) : exec (.redCas o) s = execRedCas o s := rfl
@[simp] theorem exec_redFadd (o : OpN) (s : State) : exec (.redFadd o) s = execRedFadd o s := rfl
@[simp] theorem exec_redSto (o : OpN) (s : State) : exec (.redSto o) s = execRedSto o s := rfl
@[simp] theorem exec_fence (o : OpFence) (s : State) : exec (.fence o) s = execFence o s := rfl
@[simp] theorem exec_racq (o : OpRacq) (s : State) : exec (.racq o) s = execRacq o s := rfl
@[simp] theorem exec_mwait (o : OpMwait) (s : State) : exec (.mwait o) s = execMwait o s := rfl
@[simp] theorem exec_barInit (o : OpBarInit) (s : State) : exec (.barInit o) s = execBarInit o s := rfl
@[simp] theorem exec_barArrive (o : OpBarPh) (s : State) : exec (.barArrive o) s = execBarArrive o s := rfl
@[simp] theorem exec_barWait (o : OpBarPh) (s : State) : exec (.barWait o) s = execBarWait o s := rfl
@[simp] theorem exec_barSync (o : OpBarSync) (s : State) : exec (.barSync o) s = execBarSync o s := rfl
@[simp] theorem exec_barRarrive (o : OpY2) (s : State) : exec (.barRarrive o) s = execBarRarrive o s := rfl
@[simp] theorem exec_copy (o : OpF12) (s : State) : exec (.copy o) s = execCopy o s := rfl
@[simp] theorem exec_gather (o : OpF12) (s : State) : exec (.gather o) s = execGather o s := rfl
@[simp] theorem exec_scatter (o : OpF12) (s : State) : exec (.scatter o) s = execScatter o s := rfl
@[simp] theorem exec_compact (o : OpF2) (s : State) : exec (.compact o) s = execCompact o s := rfl
@[simp] theorem exec_pfetchDesc (o : OpF2) (s : State) : exec (.pfetchDesc o) s = execPfetchDesc o s := rfl
@[simp] theorem exec_pfetchHandle (o : OpF2) (s : State) : exec (.pfetchHandle o) s = execPfetchHandle o s := rfl
@[simp] theorem exec_pin (o : OpY12) (s : State) : exec (.pin o) s = execPin o s := rfl
@[simp] theorem exec_unpin (o : OpY12) (s : State) : exec (.unpin o) s = execUnpin o s := rfl
@[simp] theorem exec_flush (o : OpFG2) (s : State) : exec (.flush o) s = execFlush o s := rfl
@[simp] theorem exec_inval (o : OpFG2) (s : State) : exec (.inval o) s = execInval o s := rfl
@[simp] theorem exec_hopen (o : OpF12) (s : State) : exec (.hopen o) s = execHopen o s := rfl
@[simp] theorem exec_hacqRd (o : OpF2) (s : State) : exec (.hacqRd o) s = execHacqRd o s := rfl
@[simp] theorem exec_hacqWr (o : OpF2) (s : State) : exec (.hacqWr o) s = execHacqWr o s := rfl
@[simp] theorem exec_hrelDrop (o : OpF2) (s : State) : exec (.hrelDrop o) s = execHrelDrop o s := rfl
@[simp] theorem exec_hrelDown (o : OpF2) (s : State) : exec (.hrelDown o) s = execHrelDown o s := rfl
@[simp] theorem exec_hsplit (o : OpY123) (s : State) : exec (.hsplit o) s = execHsplit o s := rfl
@[simp] theorem exec_hclose (o : OpY2) (s : State) : exec (.hclose o) s = execHclose o s := rfl
@[simp] theorem exec_smap (o : OpY123) (s : State) : exec (.smap o) s = execSmap o s := rfl
@[simp] theorem exec_sunmap (o : OpY12) (s : State) : exec (.sunmap o) s = execSunmap o s := rfl
@[simp] theorem exec_mma (o : OpFG2) (s : State) : exec (.mma o) s = execMma o s := rfl
@[simp] theorem exec_tkacq (o : OpTile) (s : State) : exec (.tkacq o) s = execTkacq o s := rfl
@[simp] theorem exec_tkrel (o : OpTile) (s : State) : exec (.tkrel o) s = execTkrel o s := rfl
@[simp] theorem exec_tswap (o : OpTile) (s : State) : exec (.tswap o) s = execTswap o s := rfl
@[simp] theorem exec_tzero (o : OpTile) (s : State) : exec (.tzero o) s = execTzero o s := rfl
@[simp] theorem exec_tread (o : OpTRow) (s : State) : exec (.tread o) s = execTread o s := rfl
@[simp] theorem exec_twrite (o : OpTRow) (s : State) : exec (.twrite o) s = execTwrite o s := rfl
@[simp] theorem exec_colload (o : OpF2) (s : State) : exec (.colload o) s = execColload o s := rfl
@[simp] theorem exec_qcopy (o : OpFG2) (s : State) : exec (.qcopy o) s = execQcopy o s := rfl
@[simp] theorem exec_bra (o : OpBra) (s : State) : exec (.bra o) s = execBra o s := rfl
@[simp] theorem exec_brx (o : OpBrx) (s : State) : exec (.brx o) s = execBrx o s := rfl
@[simp] theorem exec_call (o : OpY12) (s : State) : exec (.call o) s = execCall o s := rfl
@[simp] theorem exec_ret (o : OpY2) (s : State) : exec (.ret o) s = execRet o s := rfl
@[simp] theorem exec_bprio (o : OpBprio) (s : State) : exec (.bprio o) s = execBprio o s := rfl
@[simp] theorem exec_rcvset (o : OpRcv) (s : State) : exec (.rcvset o) s = execRcvset o s := rfl
@[simp] theorem exec_rcvwait (o : OpRcv) (s : State) : exec (.rcvwait o) s = execRcvwait o s := rfl
@[simp] theorem exec_yield (o : OpYield) (s : State) : exec (.yield o) s = execYield o s := rfl
@[simp] theorem exec_exit (s : State) : exec (.exit) s = execExit s := rfl
@[simp] theorem exec_trap (o : OpTrap) (s : State) : exec (.trap o) s = execTrap o s := rfl
@[simp] theorem exec_brk (s : State) : exec (.brk) s = execBrk s := rfl
@[simp] theorem exec_qsend (o : OpY2) (s : State) : exec (.qsend o) s = execQsend o s := rfl
@[simp] theorem exec_qrecv (o : OpD) (s : State) : exec (.qrecv o) s = execQrecv o s := rfl
@[simp] theorem exec_spawn (o : OpF12) (s : State) : exec (.spawn o) s = execSpawn o s := rfl
@[simp] theorem exec_rget (o : OpY12) (s : State) : exec (.rget o) s = execRget o s := rfl
@[simp] theorem exec_krefine (o : OpK12) (s : State) : exec (.krefine o) s = execKrefine o s := rfl
@[simp] theorem exec_kcoarsen (o : OpK12) (s : State) : exec (.kcoarsen o) s = execKcoarsen o s := rfl
@[simp] theorem exec_kneigh (o : OpKneigh) (s : State) : exec (.kneigh o) s = execKneigh o s := rfl
@[simp] theorem exec_kowner (o : OpK12) (s : State) : exec (.kowner o) s = execKowner o s := rfl
@[simp] theorem exec_kcost (o : OpKcost) (s : State) : exec (.kcost o) s = execKcost o s := rfl
@[simp] theorem exec_kclaim (o : OpK12) (s : State) : exec (.kclaim o) s = execKclaim o s := rfl
@[simp] theorem exec_krelease (o : OpFG2) (s : State) : exec (.krelease o) s = execKrelease o s := rfl
@[simp] theorem exec_kiter (o : OpK12) (s : State) : exec (.kiter o) s = execKiter o s := rfl
@[simp] theorem exec_krebal (o : OpKreb) (s : State) : exec (.krebal o) s = execKrebal o s := rfl
@[simp] theorem exec_wpush (o : OpWpush) (s : State) : exec (.wpush o) s = execWpush o s := rfl
@[simp] theorem exec_wpop (o : OpWout) (s : State) : exec (.wpop o) s = execWpop o s := rfl
@[simp] theorem exec_wins (o : OpWins) (s : State) : exec (.wins o) s = execWins o s := rfl
@[simp] theorem exec_wcount (o : OpWout) (s : State) : exec (.wcount o) s = execWcount o s := rfl
@[simp] theorem exec_sysrd (o : OpSys) (s : State) : exec (.sysrd o) s = execSysrd o s := rfl
@[simp] theorem exec_syswr (o : OpSys) (s : State) : exec (.syswr o) s = execSyswr o s := rfl
@[simp] theorem exec_tret (s : State) : exec (.tret) s = execTret s := rfl
@[simp] theorem exec_rmodeSwm (o : OpF2) (s : State) : exec (.rmodeSwm o) s = execRmodeSwm o s := rfl
@[simp] theorem exec_rmodeCoh (o : OpF2) (s : State) : exec (.rmodeCoh o) s = execRmodeCoh o s := rfl
@[simp] theorem exec_halt (s : State) : exec (.halt) s = execHalt s := rfl
@[simp] theorem exec_ckpt (o : OpF1) (s : State) : exec (.ckpt o) s = execCkpt o s := rfl
@[simp] theorem exec_rbstat (o : OpD) (s : State) : exec (.rbstat o) s = execRbstat o s := rfl
@[simp] theorem exec_finj (o : OpD) (s : State) : exec (.finj o) s = execFinj o s := rfl

/-! ## The checks of legal -/

@[simp] theorem legal_vaddI8x8 (o : OpA) : legal (.vaddI8x8 o) = (okCode o.ca && okCode o.cb) := rfl
@[simp] theorem legal_vsubI8x8 (o : OpA) : legal (.vsubI8x8 o) = (okCode o.ca && okCode o.cb) := rfl
@[simp] theorem legal_vminI8x8 (o : OpA) : legal (.vminI8x8 o) = (okCode o.ca && okCode o.cb) := rfl
@[simp] theorem legal_vminN8x8 (o : OpA) : legal (.vminN8x8 o) = (okCode o.ca && okCode o.cb) := rfl
@[simp] theorem legal_vmaxI8x8 (o : OpA) : legal (.vmaxI8x8 o) = (okCode o.ca && okCode o.cb) := rfl
@[simp] theorem legal_vmaxN8x8 (o : OpA) : legal (.vmaxN8x8 o) = (okCode o.ca && okCode o.cb) := rfl
@[simp] theorem legal_vaddI8x8Sat (o : OpA) : legal (.vaddI8x8Sat o) = (okCode o.ca && okCode o.cb) := rfl
@[simp] theorem legal_vaddN8x8Sat (o : OpA) : legal (.vaddN8x8Sat o) = (okCode o.ca && okCode o.cb) := rfl
@[simp] theorem legal_vaddI16x4 (o : OpA) : legal (.vaddI16x4 o) = (okCode o.ca && okCode o.cb) := rfl
@[simp] theorem legal_vsubI16x4 (o : OpA) : legal (.vsubI16x4 o) = (okCode o.ca && okCode o.cb) := rfl
@[simp] theorem legal_vminI16x4 (o : OpA) : legal (.vminI16x4 o) = (okCode o.ca && okCode o.cb) := rfl
@[simp] theorem legal_vminN16x4 (o : OpA) : legal (.vminN16x4 o) = (okCode o.ca && okCode o.cb) := rfl
@[simp] theorem legal_vmaxI16x4 (o : OpA) : legal (.vmaxI16x4 o) = (okCode o.ca && okCode o.cb) := rfl
@[simp] theorem legal_vmaxN16x4 (o : OpA) : legal (.vmaxN16x4 o) = (okCode o.ca && okCode o.cb) := rfl
@[simp] theorem legal_vaddI16x4Sat (o : OpA) : legal (.vaddI16x4Sat o) = (okCode o.ca && okCode o.cb) := rfl
@[simp] theorem legal_vaddN16x4Sat (o : OpA) : legal (.vaddN16x4Sat o) = (okCode o.ca && okCode o.cb) := rfl
@[simp] theorem legal_vaddI32x2 (o : OpA) : legal (.vaddI32x2 o) = (okCode o.ca && okCode o.cb) := rfl
@[simp] theorem legal_vsubI32x2 (o : OpA) : legal (.vsubI32x2 o) = (okCode o.ca && okCode o.cb) := rfl
@[simp] theorem legal_vmulI32x2 (o : OpA) : legal (.vmulI32x2 o) = (okCode o.ca && okCode o.cb) := rfl
@[simp] theorem legal_vmulhiI32x2 (o : OpA) : legal (.vmulhiI32x2 o) = (okCode o.ca && okCode o.cb) := rfl
@[simp] theorem legal_vmulhiN32x2 (o : OpA) : legal (.vmulhiN32x2 o) = (okCode o.ca && okCode o.cb) := rfl
@[simp] theorem legal_vminI32x2 (o : OpA) : legal (.vminI32x2 o) = (okCode o.ca && okCode o.cb) := rfl
@[simp] theorem legal_vminN32x2 (o : OpA) : legal (.vminN32x2 o) = (okCode o.ca && okCode o.cb) := rfl
@[simp] theorem legal_vmaxI32x2 (o : OpA) : legal (.vmaxI32x2 o) = (okCode o.ca && okCode o.cb) := rfl
@[simp] theorem legal_vmaxN32x2 (o : OpA) : legal (.vmaxN32x2 o) = (okCode o.ca && okCode o.cb) := rfl
@[simp] theorem legal_vshlI32x2 (o : OpA) : legal (.vshlI32x2 o) = (okCode o.ca && okCode o.cb) := rfl
@[simp] theorem legal_vshrN32x2 (o : OpA) : legal (.vshrN32x2 o) = (okCode o.ca && okCode o.cb) := rfl
@[simp] theorem legal_vshrI32x2 (o : OpA) : legal (.vshrI32x2 o) = (okCode o.ca && okCode o.cb) := rfl
@[simp] theorem legal_vaddI32x2Sat (o : OpA) : legal (.vaddI32x2Sat o) = (okCode o.ca && okCode o.cb) := rfl
@[simp] theorem legal_vaddN32x2Sat (o : OpA) : legal (.vaddN32x2Sat o) = (okCode o.ca && okCode o.cb) := rfl
@[simp] theorem legal_vsubI32x2Sat (o : OpA) : legal (.vsubI32x2Sat o) = (okCode o.ca && okCode o.cb) := rfl
@[simp] theorem legal_vsubN32x2Sat (o : OpA) : legal (.vsubN32x2Sat o) = (okCode o.ca && okCode o.cb) := rfl
@[simp] theorem legal_vaddI64 (o : OpA) : legal (.vaddI64 o) = (okCode o.ca && okCode o.cb) := rfl
@[simp] theorem legal_vsubI64 (o : OpA) : legal (.vsubI64 o) = (okCode o.ca && okCode o.cb) := rfl
@[simp] theorem legal_vmulI64 (o : OpA) : legal (.vmulI64 o) = (okCode o.ca && okCode o.cb) := rfl
@[simp] theorem legal_vmulhiI64 (o : OpA) : legal (.vmulhiI64 o) = (okCode o.ca && okCode o.cb) := rfl
@[simp] theorem legal_vmulhiN64 (o : OpA) : legal (.vmulhiN64 o) = (okCode o.ca && okCode o.cb) := rfl
@[simp] theorem legal_vminI64 (o : OpA) : legal (.vminI64 o) = (okCode o.ca && okCode o.cb) := rfl
@[simp] theorem legal_vminN64 (o : OpA) : legal (.vminN64 o) = (okCode o.ca && okCode o.cb) := rfl
@[simp] theorem legal_vmaxI64 (o : OpA) : legal (.vmaxI64 o) = (okCode o.ca && okCode o.cb) := rfl
@[simp] theorem legal_vmaxN64 (o : OpA) : legal (.vmaxN64 o) = (okCode o.ca && okCode o.cb) := rfl
@[simp] theorem legal_vshlI64 (o : OpA) : legal (.vshlI64 o) = (okCode o.ca && okCode o.cb) := rfl
@[simp] theorem legal_vshrN64 (o : OpA) : legal (.vshrN64 o) = (okCode o.ca && okCode o.cb) := rfl
@[simp] theorem legal_vshrI64 (o : OpA) : legal (.vshrI64 o) = (okCode o.ca && okCode o.cb) := rfl
@[simp] theorem legal_vaddI64Sat (o : OpA) : legal (.vaddI64Sat o) = (okCode o.ca && okCode o.cb) := rfl
@[simp] theorem legal_vaddN64Sat (o : OpA) : legal (.vaddN64Sat o) = (okCode o.ca && okCode o.cb) := rfl
@[simp] theorem legal_vsubI64Sat (o : OpA) : legal (.vsubI64Sat o) = (okCode o.ca && okCode o.cb) := rfl
@[simp] theorem legal_vsubN64Sat (o : OpA) : legal (.vsubN64Sat o) = (okCode o.ca && okCode o.cb) := rfl
@[simp] theorem legal_vand (o : OpA) : legal (.vand o) = (okCode o.ca && okCode o.cb) := rfl
@[simp] theorem legal_vor (o : OpA) : legal (.vor o) = (okCode o.ca && okCode o.cb) := rfl
@[simp] theorem legal_vxor (o : OpA) : legal (.vxor o) = (okCode o.ca && okCode o.cb) := rfl
@[simp] theorem legal_vandn (o : OpA) : legal (.vandn o) = (okCode o.ca && okCode o.cb) := rfl
@[simp] theorem legal_vmov (o : OpDA) : legal (.vmov o) = (okCode o.ca) := rfl
@[simp] theorem legal_vsplat (o : OpDA) : legal (.vsplat o) = (okCode o.ca) := rfl
@[simp] theorem legal_vfaddF64 (o : OpA) : legal (.vfaddF64 o) = (okCode o.ca && okCode o.cb) := rfl
@[simp] theorem legal_vfsubF64 (o : OpA) : legal (.vfsubF64 o) = (okCode o.ca && okCode o.cb) := rfl
@[simp] theorem legal_vfmulF64 (o : OpA) : legal (.vfmulF64 o) = (okCode o.ca && okCode o.cb) := rfl
@[simp] theorem legal_vfmaF64 (o : OpA) : legal (.vfmaF64 o) = (okCode o.ca && okCode o.cb) := rfl
@[simp] theorem legal_vfminF64 (o : OpA) : legal (.vfminF64 o) = (okCode o.ca && okCode o.cb) := rfl
@[simp] theorem legal_vfmaxF64 (o : OpA) : legal (.vfmaxF64 o) = (okCode o.ca && okCode o.cb) := rfl
@[simp] theorem legal_vfminF64Nan (o : OpA) : legal (.vfminF64Nan o) = (okCode o.ca && okCode o.cb) := rfl
@[simp] theorem legal_vfmaxF64Nan (o : OpA) : legal (.vfmaxF64Nan o) = (okCode o.ca && okCode o.cb) := rfl
@[simp] theorem legal_vfaddF32x2 (o : OpA) : legal (.vfaddF32x2 o) = (okCode o.ca && okCode o.cb) := rfl
@[simp] theorem legal_vfsubF32x2 (o : OpA) : legal (.vfsubF32x2 o) = (okCode o.ca && okCode o.cb) := rfl
@[simp] theorem legal_vfmulF32x2 (o : OpA) : legal (.vfmulF32x2 o) = (okCode o.ca && okCode o.cb) := rfl
@[simp] theorem legal_vfmaF32x2 (o : OpA) : legal (.vfmaF32x2 o) = (okCode o.ca && okCode o.cb) := rfl
@[simp] theorem legal_vfminF32x2 (o : OpA) : legal (.vfminF32x2 o) = (okCode o.ca && okCode o.cb) := rfl
@[simp] theorem legal_vfmaxF32x2 (o : OpA) : legal (.vfmaxF32x2 o) = (okCode o.ca && okCode o.cb) := rfl
@[simp] theorem legal_vfminF32x2Nan (o : OpA) : legal (.vfminF32x2Nan o) = (okCode o.ca && okCode o.cb) := rfl
@[simp] theorem legal_vfmaxF32x2Nan (o : OpA) : legal (.vfmaxF32x2Nan o) = (okCode o.ca && okCode o.cb) := rfl
@[simp] theorem legal_vfaddF16x4 (o : OpA) : legal (.vfaddF16x4 o) = (okCode o.ca && okCode o.cb) := rfl
@[simp] theorem legal_vfsubF16x4 (o : OpA) : legal (.vfsubF16x4 o) = (okCode o.ca && okCode o.cb) := rfl
@[simp] theorem legal_vfmulF16x4 (o : OpA) : legal (.vfmulF16x4 o) = (okCode o.ca && okCode o.cb) := rfl
@[simp] theorem legal_vfmaF16x4 (o : OpA) : legal (.vfmaF16x4 o) = (okCode o.ca && okCode o.cb) := rfl
@[simp] theorem legal_vfminF16x4 (o : OpA) : legal (.vfminF16x4 o) = (okCode o.ca && okCode o.cb) := rfl
@[simp] theorem legal_vfmaxF16x4 (o : OpA) : legal (.vfmaxF16x4 o) = (okCode o.ca && okCode o.cb) := rfl
@[simp] theorem legal_vfminF16x4Nan (o : OpA) : legal (.vfminF16x4Nan o) = (okCode o.ca && okCode o.cb) := rfl
@[simp] theorem legal_vfmaxF16x4Nan (o : OpA) : legal (.vfmaxF16x4Nan o) = (okCode o.ca && okCode o.cb) := rfl
@[simp] theorem legal_vfaddBf16x4 (o : OpA) : legal (.vfaddBf16x4 o) = (okCode o.ca && okCode o.cb) := rfl
@[simp] theorem legal_vfsubBf16x4 (o : OpA) : legal (.vfsubBf16x4 o) = (okCode o.ca && okCode o.cb) := rfl
@[simp] theorem legal_vfmulBf16x4 (o : OpA) : legal (.vfmulBf16x4 o) = (okCode o.ca && okCode o.cb) := rfl
@[simp] theorem legal_vfmaBf16x4 (o : OpA) : legal (.vfmaBf16x4 o) = (okCode o.ca && okCode o.cb) := rfl
@[simp] theorem legal_vfminBf16x4 (o : OpA) : legal (.vfminBf16x4 o) = (okCode o.ca && okCode o.cb) := rfl
@[simp] theorem legal_vfmaxBf16x4 (o : OpA) : legal (.vfmaxBf16x4 o) = (okCode o.ca && okCode o.cb) := rfl
@[simp] theorem legal_vfminBf16x4Nan (o : OpA) : legal (.vfminBf16x4Nan o) = (okCode o.ca && okCode o.cb) := rfl
@[simp] theorem legal_vfmaxBf16x4Nan (o : OpA) : legal (.vfmaxBf16x4Nan o) = (okCode o.ca && okCode o.cb) := rfl
@[simp] theorem legal_saddI64 (o : OpA) : legal (.saddI64 o) = (okCode o.ca && okCode o.cb) := rfl
@[simp] theorem legal_ssubI64 (o : OpA) : legal (.ssubI64 o) = (okCode o.ca && okCode o.cb) := rfl
@[simp] theorem legal_smulI64 (o : OpA) : legal (.smulI64 o) = (okCode o.ca && okCode o.cb) := rfl
@[simp] theorem legal_smulhiI64 (o : OpA) : legal (.smulhiI64 o) = (okCode o.ca && okCode o.cb) := rfl
@[simp] theorem legal_smulhiN64 (o : OpA) : legal (.smulhiN64 o) = (okCode o.ca && okCode o.cb) := rfl
@[simp] theorem legal_sand (o : OpA) : legal (.sand o) = (okCode o.ca && okCode o.cb) := rfl
@[simp] theorem legal_sor (o : OpA) : legal (.sor o) = (okCode o.ca && okCode o.cb) := rfl
@[simp] theorem legal_sxor (o : OpA) : legal (.sxor o) = (okCode o.ca && okCode o.cb) := rfl
@[simp] theorem legal_sshlI64 (o : OpA) : legal (.sshlI64 o) = (okCode o.ca && okCode o.cb) := rfl
@[simp] theorem legal_sshrN64 (o : OpA) : legal (.sshrN64 o) = (okCode o.ca && okCode o.cb) := rfl
@[simp] theorem legal_sshrI64 (o : OpA) : legal (.sshrI64 o) = (okCode o.ca && okCode o.cb) := rfl
@[simp] theorem legal_sminI64 (o : OpA) : legal (.sminI64 o) = (okCode o.ca && okCode o.cb) := rfl
@[simp] theorem legal_sminN64 (o : OpA) : legal (.sminN64 o) = (okCode o.ca && okCode o.cb) := rfl
@[simp] theorem legal_smaxI64 (o : OpA) : legal (.smaxI64 o) = (okCode o.ca && okCode o.cb) := rfl
@[simp] theorem legal_smaxN64 (o : OpA) : legal (.smaxN64 o) = (okCode o.ca && okCode o.cb) := rfl
@[simp] theorem legal_smov (o : OpDA) : legal (.smov o) = (okCode o.ca) := rfl
@[simp] theorem legal_vfaddQ (o : OpQ) : legal (.vfaddQ o) = (okQ o) := rfl
@[simp] theorem legal_vfsubQ (o : OpQ) : legal (.vfsubQ o) = (okQ o) := rfl
@[simp] theorem legal_vfmulQ (o : OpQ) : legal (.vfmulQ o) = (okQ o) := rfl
@[simp] theorem legal_vfmaQ (o : OpQ) : legal (.vfmaQ o) = (okQ o) := rfl
@[simp] theorem legal_vfabs (o : OpU) : legal (.vfabs o) = (okCode o.ca) := rfl
@[simp] theorem legal_vfneg (o : OpU) : legal (.vfneg o) = (okCode o.ca) := rfl
@[simp] theorem legal_vrcp (o : OpU) : legal (.vrcp o) = (okCode o.ca) := rfl
@[simp] theorem legal_vrsqrt (o : OpU) : legal (.vrsqrt o) = (okCode o.ca) := rfl
@[simp] theorem legal_vsqrt (o : OpU) : legal (.vsqrt o) = (okCode o.ca) := rfl
@[simp] theorem legal_vsin (o : OpU) : legal (.vsin o) = (okCode o.ca) := rfl
@[simp] theorem legal_vcos (o : OpU) : legal (.vcos o) = (okCode o.ca) := rfl
@[simp] theorem legal_vsinpi (o : OpU) : legal (.vsinpi o) = (okCode o.ca) := rfl
@[simp] theorem legal_vcospi (o : OpU) : legal (.vcospi o) = (okCode o.ca) := rfl
@[simp] theorem legal_vexp2 (o : OpU) : legal (.vexp2 o) = (okCode o.ca) := rfl
@[simp] theorem legal_vlog2 (o : OpU) : legal (.vlog2 o) = (okCode o.ca) := rfl
@[simp] theorem legal_vtanh (o : OpU) : legal (.vtanh o) = (okCode o.ca) := rfl
@[simp] theorem legal_vfrintn (o : OpU) : legal (.vfrintn o) = (okCode o.ca) := rfl
@[simp] theorem legal_vfrintz (o : OpU) : legal (.vfrintz o) = (okCode o.ca) := rfl
@[simp] theorem legal_vfrintm (o : OpU) : legal (.vfrintm o) = (okCode o.ca) := rfl
@[simp] theorem legal_vfrintp (o : OpU) : legal (.vfrintp o) = (okCode o.ca) := rfl
@[simp] theorem legal_vfclass (o : OpU) : legal (.vfclass o) = (okCode o.ca) := rfl
@[simp] theorem legal_vabs (o : OpUI) : legal (.vabs o) = (okCode o.ca) := rfl
@[simp] theorem legal_vneg (o : OpUI) : legal (.vneg o) = (okCode o.ca) := rfl
@[simp] theorem legal_vnot (o : OpUI) : legal (.vnot o) = (okCode o.ca) := rfl
@[simp] theorem legal_vpopc (o : OpUI) : legal (.vpopc o) = (okCode o.ca) := rfl
@[simp] theorem legal_vclz (o : OpUI) : legal (.vclz o) = (okCode o.ca) := rfl
@[simp] theorem legal_vbrev (o : OpUI) : legal (.vbrev o) = (okCode o.ca) := rfl
@[simp] theorem legal_vcvt (o : OpC) : legal (.vcvt o) = (okCvt o) := rfl
@[simp] theorem legal_vquant (o : OpS) : legal (.vquant o) = (okCode o.ca) := rfl
@[simp] theorem legal_vdequant (o : OpS) : legal (.vdequant o) = (okCode o.ca) := rfl
@[simp] theorem legal_vcbdec (o : OpS) : legal (.vcbdec o) = (okCode o.ca) := rfl
@[simp] theorem legal_amadI8x8 (o : OpA) : legal (.amadI8x8 o) = (okCode o.ca && okCode o.cb && o.d.toNat < 16) := rfl
@[simp] theorem legal_amadN8x8 (o : OpA) : legal (.amadN8x8 o) = (okCode o.ca && okCode o.cb && o.d.toNat < 16) := rfl
@[simp] theorem legal_amadF16x4 (o : OpA) : legal (.amadF16x4 o) = (okCode o.ca && okCode o.cb && o.d.toNat < 16) := rfl
@[simp] theorem legal_amadBf16x4 (o : OpA) : legal (.amadBf16x4 o) = (okCode o.ca && okCode o.cb && o.d.toNat < 16) := rfl
@[simp] theorem legal_amadF32x2 (o : OpA) : legal (.amadF32x2 o) = (okCode o.ca && okCode o.cb && o.d.toNat < 16) := rfl
@[simp] theorem legal_amadF64 (o : OpA) : legal (.amadF64 o) = (okCode o.ca && okCode o.cb && o.d.toNat < 16) := rfl
@[simp] theorem legal_azero (o : OpD) : legal (.azero o) = (decide (o.d.toNat < 16)) := rfl
@[simp] theorem legal_amov (o : OpA) : legal (.amov o) = (okCode o.ca && okCode o.cb && o.d.toNat < 16) := rfl
@[simp] theorem legal_vnarrowLo (o : OpAD) : legal (.vnarrowLo o) = (decide (o.a.toNat < 16)) := rfl
@[simp] theorem legal_vnarrowHi (o : OpAD) : legal (.vnarrowHi o) = (decide (o.a.toNat < 16)) := rfl
@[simp] theorem legal_vnarrowI16x4Sat (o : OpAD) : legal (.vnarrowI16x4Sat o) = (decide (o.a.toNat < 16)) := rfl
@[simp] theorem legal_vnarrowF16x4 (o : OpAD) : legal (.vnarrowF16x4 o) = (decide (o.a.toNat < 16)) := rfl
@[simp] theorem legal_vceq (o : OpP) : legal (.vceq o) = (okCode o.ca && okPd o.pd && okCmpType 0 o.t) := rfl
@[simp] theorem legal_vcne (o : OpP) : legal (.vcne o) = (okCode o.ca && okPd o.pd && okCmpType 1 o.t) := rfl
@[simp] theorem legal_vclt (o : OpP) : legal (.vclt o) = (okCode o.ca && okPd o.pd && okCmpType 2 o.t) := rfl
@[simp] theorem legal_vcle (o : OpP) : legal (.vcle o) = (okCode o.ca && okPd o.pd && okCmpType 3 o.t) := rfl
@[simp] theorem legal_vcgt (o : OpP) : legal (.vcgt o) = (okCode o.ca && okPd o.pd && okCmpType 4 o.t) := rfl
@[simp] theorem legal_vcge (o : OpP) : legal (.vcge o) = (okCode o.ca && okPd o.pd && okCmpType 5 o.t) := rfl
@[simp] theorem legal_vcord (o : OpP) : legal (.vcord o) = (okCode o.ca && okPd o.pd && okCmpType 6 o.t) := rfl
@[simp] theorem legal_vcunord (o : OpP) : legal (.vcunord o) = (okCode o.ca && okPd o.pd && okCmpType 7 o.t) := rfl
@[simp] theorem legal_vcneu (o : OpP) : legal (.vcneu o) = (okCode o.ca && okPd o.pd && okCmpType 8 o.t) := rfl
@[simp] theorem legal_sceq (o : OpP) : legal (.sceq o) = (okCode o.ca && okPd o.pd && okCmpType 0 o.t) := rfl
@[simp] theorem legal_scne (o : OpP) : legal (.scne o) = (okCode o.ca && okPd o.pd && okCmpType 1 o.t) := rfl
@[simp] theorem legal_sclt (o : OpP) : legal (.sclt o) = (okCode o.ca && okPd o.pd && okCmpType 2 o.t) := rfl
@[simp] theorem legal_scle (o : OpP) : legal (.scle o) = (okCode o.ca && okPd o.pd && okCmpType 3 o.t) := rfl
@[simp] theorem legal_scgt (o : OpP) : legal (.scgt o) = (okCode o.ca && okPd o.pd && okCmpType 4 o.t) := rfl
@[simp] theorem legal_scge (o : OpP) : legal (.scge o) = (okCode o.ca && okPd o.pd && okCmpType 5 o.t) := rfl
@[simp] theorem legal_scord (o : OpP) : legal (.scord o) = (okCode o.ca && okPd o.pd && okCmpType 6 o.t) := rfl
@[simp] theorem legal_scunord (o : OpP) : legal (.scunord o) = (okCode o.ca && okPd o.pd && okCmpType 7 o.t) := rfl
@[simp] theorem legal_scneu (o : OpP) : legal (.scneu o) = (okCode o.ca && okPd o.pd && okCmpType 8 o.t) := rfl
@[simp] theorem legal_vsel (o : OpE) : legal (.vsel o) = (okCode o.ca && okCode o.cb) := rfl
@[simp] theorem legal_pand (o : OpPL) : legal (.pand o) = (okPd o.pd) := rfl
@[simp] theorem legal_por (o : OpPL) : legal (.por o) = (okPd o.pd) := rfl
@[simp] theorem legal_pxor (o : OpPL) : legal (.pxor o) = (okPd o.pd) := rfl
@[simp] theorem legal_pandn (o : OpPL) : legal (.pandn o) = (okPd o.pd) := rfl
@[simp] theorem legal_pnot (o : OpPN) : legal (.pnot o) = (okPd o.pd) := rfl
@[simp] theorem legal_pmov (o : OpPN) : legal (.pmov o) = (okPd o.pd) := rfl
@[simp] theorem legal_vshflN64 (o : OpX) : legal (.vshflN64 o) = (okPd o.p) := rfl
@[simp] theorem legal_vshflN32x2 (o : OpX) : legal (.vshflN32x2 o) = (okPd o.p) := rfl
@[simp] theorem legal_vshflN16x4 (o : OpX) : legal (.vshflN16x4 o) = (okPd o.p) := rfl
@[simp] theorem legal_vshflN8x8 (o : OpX) : legal (.vshflN8x8 o) = (okPd o.p) := rfl
@[simp] theorem legal_vbcast (o : OpX) : legal (.vbcast o) = (okPd o.p) := rfl
@[simp] theorem legal_vall (o : OpVote) : legal (.vall o) = (okPd o.p) := rfl
@[simp] theorem legal_vany (o : OpVote) : legal (.vany o) = (okPd o.p) := rfl
@[simp] theorem legal_vuni (o : OpUni) : legal (.vuni o) = (okPd o.p) := rfl
@[simp] theorem legal_vredAdd (o : OpT) : legal (.vredAdd o) = (okRed false o) := rfl
@[simp] theorem legal_vredMin (o : OpT) : legal (.vredMin o) = (okRed false o) := rfl
@[simp] theorem legal_vredMax (o : OpT) : legal (.vredMax o) = (okRed false o) := rfl
@[simp] theorem legal_vredAnd (o : OpT) : legal (.vredAnd o) = (okRed true o) := rfl
@[simp] theorem legal_vredOr (o : OpT) : legal (.vredOr o) = (okRed true o) := rfl
@[simp] theorem legal_vredXor (o : OpT) : legal (.vredXor o) = (okRed true o) := rfl
@[simp] theorem legal_vscanAdd (o : OpT) : legal (.vscanAdd o) = (okRed false o) := rfl
@[simp] theorem legal_vscanMin (o : OpT) : legal (.vscanMin o) = (okRed false o) := rfl
@[simp] theorem legal_vscanMax (o : OpT) : legal (.vscanMax o) = (okRed false o) := rfl
@[simp] theorem legal_vscanAnd (o : OpT) : legal (.vscanAnd o) = (okRed true o) := rfl
@[simp] theorem legal_vscanOr (o : OpT) : legal (.vscanOr o) = (okRed true o) := rfl
@[simp] theorem legal_vscanXor (o : OpT) : legal (.vscanXor o) = (okRed true o) := rfl
@[simp] theorem legal_vscanxAdd (o : OpT) : legal (.vscanxAdd o) = (okRed false o) := rfl
@[simp] theorem legal_vscanxMin (o : OpT) : legal (.vscanxMin o) = (okRed false o) := rfl
@[simp] theorem legal_vscanxMax (o : OpT) : legal (.vscanxMax o) = (okRed false o) := rfl
@[simp] theorem legal_vscanxAnd (o : OpT) : legal (.vscanxAnd o) = (okRed true o) := rfl
@[simp] theorem legal_vscanxOr (o : OpT) : legal (.vscanxOr o) = (okRed true o) := rfl
@[simp] theorem legal_vscanxXor (o : OpT) : legal (.vscanxXor o) = (okRed true o) := rfl
@[simp] theorem legal_vtopk (o : OpK) : legal (.vtopk o) = (okTopk o) := rfl
@[simp] theorem legal_ldg (o : OpLdg) : legal (.ldg o) = (okLoadReg o.size o.d) := rfl
@[simp] theorem legal_lds (o : OpLds) : legal (.lds o) = (okLoadReg o.size o.d) := rfl
@[simp] theorem legal_ldc (o : OpLds) : legal (.ldc o) = (okLoadReg o.size o.d) := rfl
@[simp] theorem legal_stg (o : OpStg) : legal (.stg o) = (okStore o.size o.dcode o.data) := rfl
@[simp] theorem legal_sts (o : OpSts) : legal (.sts o) = (okStore o.size o.dcode o.data) := rfl
@[simp] theorem legal_atomAdd (o : OpN) : legal (.atomAdd o) = (okAtomInt o) := rfl
@[simp] theorem legal_atomAnd (o : OpN) : legal (.atomAnd o) = (okAtomInt o) := rfl
@[simp] theorem legal_atomOr (o : OpN) : legal (.atomOr o) = (okAtomInt o) := rfl
@[simp] theorem legal_atomXor (o : OpN) : legal (.atomXor o) = (okAtomInt o) := rfl
@[simp] theorem legal_atomMinI (o : OpN) : legal (.atomMinI o) = (okAtomInt o) := rfl
@[simp] theorem legal_atomMinN (o : OpN) : legal (.atomMinN o) = (okAtomInt o) := rfl
@[simp] theorem legal_atomMaxI (o : OpN) : legal (.atomMaxI o) = (okAtomInt o) := rfl
@[simp] theorem legal_atomMaxN (o : OpN) : legal (.atomMaxN o) = (okAtomInt o) := rfl
@[simp] theorem legal_atomExch (o : OpN) : legal (.atomExch o) = (okExch o) := rfl
@[simp] theorem legal_atomCas (o : OpN) : legal (.atomCas o) = (okCas o) := rfl
@[simp] theorem legal_atomFadd (o : OpN) : legal (.atomFadd o) = (okAtomInt o) := rfl
@[simp] theorem legal_atomLdo (o : OpN) : legal (.atomLdo o) = (okLdo o) := rfl
@[simp] theorem legal_redAdd (o : OpN) : legal (.redAdd o) = (okAtomInt o) := rfl
@[simp] theorem legal_redAnd (o : OpN) : legal (.redAnd o) = (okAtomInt o) := rfl
@[simp] theorem legal_redOr (o : OpN) : legal (.redOr o) = (okAtomInt o) := rfl
@[simp] theorem legal_redXor (o : OpN) : legal (.redXor o) = (okAtomInt o) := rfl
@[simp] theorem legal_redMinI (o : OpN) : legal (.redMinI o) = (okAtomInt o) := rfl
@[simp] theorem legal_redMinN (o : OpN) : legal (.redMinN o) = (okAtomInt o) := rfl
@[simp] theorem legal_redMaxI (o : OpN) : legal (.redMaxI o) = (okAtomInt o) := rfl
@[simp] theorem legal_redMaxN (o : OpN) : legal (.redMaxN o) = (okAtomInt o) := rfl
@[simp] theorem legal_redExch (o : OpN) : legal (.redExch o) = (okExch o) := rfl
@[simp] theorem legal_redCas (o : OpN) : legal (.redCas o) = (okCas o) := rfl
@[simp] theorem legal_redFadd (o : OpN) : legal (.redFadd o) = (okAtomInt o) := rfl
@[simp] theorem legal_redSto (o : OpN) : legal (.redSto o) = (okSto o) := rfl
@[simp] theorem legal_fence (o : OpFence) : legal (.fence o) = (okScope o.scope) := rfl
@[simp] theorem legal_racq (o : OpRacq) : legal (.racq o) = (okScope o.scope && evenReg o.range) := rfl
@[simp] theorem legal_mwait (o : OpMwait) : legal (.mwait o) = (okMwait o) := rfl
@[simp] theorem legal_barArrive (o : OpBarPh) : legal (.barArrive o) = (okBs o.bs) := rfl
@[simp] theorem legal_barWait (o : OpBarPh) : legal (.barWait o) = (okBs o.bs) := rfl
@[simp] theorem legal_barSync (o : OpBarSync) : legal (.barSync o) = (okBs o.bs) := rfl
@[simp] theorem legal_flush (o : OpFG2) : legal (.flush o) = (okScope o.g && evenReg o.f2) := rfl
@[simp] theorem legal_inval (o : OpFG2) : legal (.inval o) = (okScope o.g && evenReg o.f2) := rfl
@[simp] theorem legal_hsplit (o : OpY123) : legal (.hsplit o) = (evenReg o.f1) := rfl
@[simp] theorem legal_smap (o : OpY123) : legal (.smap o) = (evenReg o.f2) := rfl
@[simp] theorem legal_yield (o : OpYield) : legal (.yield o) = (decide (o.live.toNat ≤ 64)) := rfl
@[simp] theorem legal_rget (o : OpY12) : legal (.rget o) = (evenReg o.f1) := rfl
@[simp] theorem legal_kneigh (o : OpKneigh) : legal (.kneigh o) = (evenReg o.f1 && o.face.toNat < 6) := rfl
@[simp] theorem legal_kiter (o : OpK12) : legal (.kiter o) = (evenReg o.f1) := rfl
@[simp] theorem legal_sysrd (o : OpSys) : legal (.sysrd o) = (sysAssigned o.num.toNat) := rfl
@[simp] theorem legal_syswr (o : OpSys) : legal (.syswr o) = (sysWritable o.num.toNat) := rfl
@[simp] theorem legal_rmodeSwm (o : OpF2) : legal (.rmodeSwm o) = (evenReg o.f2) := rfl
@[simp] theorem legal_rmodeCoh (o : OpF2) : legal (.rmodeCoh o) = (evenReg o.f2) := rfl

end Sys2Proof.Machine.Laws
end

