-- ==== Sys2Proof/Laws/Maps.lean ====
section
/-! SUPPORT. Sparse maps: what a read after a write gives, and that every write keeps the canonical form. -/

namespace Sys2Proof.Machine.Laws

variable {α : Type}

theorem get_del_same (d : α) (m : List (Nat × α)) (i : Nat) : get d (del m i) i = d := by
  induction m with
  | nil => rfl
  | cons p m ih =>
    obtain ⟨k, x⟩ := p
    by_cases h : k = i <;> simp [del, get, h, ih]

theorem get_del_other (d : α) (m : List (Nat × α)) {i j : Nat} (h : j ≠ i) : get d (del m i) j = get d m j := by
  induction m with
  | nil => rfl
  | cons p m ih =>
    obtain ⟨k, x⟩ := p
    by_cases hk : k = i
    · subst hk
      simp [del, get, ih, Ne.symm h]
    · simp only [del, hk, if_false, get, ih]

theorem get_ins_same (d : α) (m : List (Nat × α)) (i : Nat) (y : α) (hm : ∀ p ∈ m, p.1 ≠ i) :
    get d (ins m i y) i = y := by
  induction m with
  | nil => simp [ins, get]
  | cons p m ih =>
    obtain ⟨k, x⟩ := p
    have hk : k ≠ i := hm (k, x) (by simp)
    by_cases hl : i < k
    · simp [ins, get, hl]
    · simp [ins, get, hl, hk, ih fun p hp => hm p (by simp [hp])]

theorem get_ins_other (d : α) (m : List (Nat × α)) {i j : Nat} (y : α) (h : j ≠ i) : get d (ins m i y) j = get d m j := by
  induction m with
  | nil => simp [ins, get, Ne.symm h]
  | cons p m ih =>
    obtain ⟨k, x⟩ := p
    by_cases hl : i < k
    · simp [ins, get, hl, Ne.symm h]
    · simp only [ins, hl, if_false, get, ih]

theorem keys_del (m : List (Nat × α)) (i : Nat) : ∀ p ∈ del m i, p.1 ≠ i := by
  induction m with
  | nil => simp [del]
  | cons p m ih =>
    obtain ⟨k, x⟩ := p
    by_cases h : k = i
    · simpa [del, h] using ih
    · intro q hq
      simp only [del, h, if_false, List.mem_cons] at hq
      rcases hq with rfl | hq
      · exact h
      · exact ih q hq

@[simp] theorem get_put_same [DecidableEq α] (d : α) (m : List (Nat × α)) (i : Nat) (y : α) : get d (put d m i y) i = y := by
  unfold put
  split
  · next h => rw [get_del_same, h]
  · exact get_ins_same d _ i y (keys_del m i)

theorem get_put_other [DecidableEq α] (d : α) (m : List (Nat × α)) {i j : Nat} (y : α) (h : j ≠ i) :
    get d (put d m i y) j = get d m j := by
  unfold put
  split
  · exact get_del_other d m h
  · rw [get_ins_other d _ y h, get_del_other d m h]

/-- A read after a write, at any key. -/
theorem get_put [DecidableEq α] (d : α) (m : List (Nat × α)) (i j : Nat) (y : α) :
    get d (put d m i y) j = if j = i then y else get d m j := by
  split
  · next h => subst h; simp
  · next h => exact get_put_other d m y h

/-! ## The canonical form -/

/-- The canonical form as two facts about the whole list. -/
def Canon (d : α) (m : List (Nat × α)) : Prop := m.Pairwise (fun p q => p.1 < q.1) ∧ ∀ p ∈ m, p.2 ≠ d

theorem canon_iff [DecidableEq α] (d : α) (m : List (Nat × α)) : canon d m = true ↔ Canon d m := by
  induction m with
  | nil => simp [canon, Canon]
  | cons p m ih =>
    obtain ⟨k, x⟩ := p
    cases m with
    | nil => simp [canon, Canon]
    | cons q m =>
      obtain ⟨k', x'⟩ := q
      simp only [canon, Bool.and_eq_true, decide_eq_true_eq, ih, Canon, List.pairwise_cons, List.mem_cons]
      constructor
      · rintro ⟨⟨hx, hk⟩, ⟨hp, hs⟩, hd⟩
        refine ⟨⟨?_, hp, hs⟩, ?_⟩
        · rintro a (rfl | ha)
          · exact hk
          · exact hk.trans (hp a ha)
        · rintro a (rfl | ha)
          · exact hx
          · exact hd a ha
      · rintro ⟨⟨h1, hp, hs⟩, hd⟩
        exact ⟨⟨hd _ (.inl rfl), h1 _ (.inl rfl)⟩, ⟨hp, hs⟩, fun a ha => hd a (.inr ha)⟩

theorem mem_del {m : List (Nat × α)} {i : Nat} {p : Nat × α} (h : p ∈ del m i) : p ∈ m := by
  induction m with
  | nil => simp [del] at h
  | cons q m ih =>
    obtain ⟨k, x⟩ := q
    by_cases hk : k = i
    · simp only [del, hk, if_true] at h
      exact List.mem_cons_of_mem _ (ih h)
    · simp only [del, hk, if_false, List.mem_cons] at h
      rcases h with rfl | h
      · simp
      · exact List.mem_cons_of_mem _ (ih h)

theorem mem_ins {m : List (Nat × α)} {i : Nat} {y : α} {p : Nat × α} (h : p ∈ ins m i y) : p = (i, y) ∨ p ∈ m := by
  induction m with
  | nil => simpa [ins] using h
  | cons q m ih =>
    obtain ⟨k, x⟩ := q
    by_cases hl : i < k
    · simpa [ins, hl] using h
    · simp only [ins, hl, if_false, List.mem_cons] at h
      rcases h with rfl | h
      · simp
      · rcases ih h with h | h
        · exact .inl h
        · exact .inr (List.mem_cons_of_mem _ h)

theorem canon_del {d : α} {m : List (Nat × α)} (i : Nat) (h : Canon d m) : Canon d (del m i) := by
  refine ⟨?_, fun p hp => h.2 p (mem_del hp)⟩
  have h1 := h.1
  clear h
  induction m with
  | nil => simp [del]
  | cons q m ih =>
    obtain ⟨k, x⟩ := q
    rw [List.pairwise_cons] at h1
    by_cases hk : k = i
    · simpa [del, hk] using ih h1.2
    · simp only [del, hk, if_false, List.pairwise_cons]
      exact ⟨fun a ha => h1.1 a (mem_del ha), ih h1.2⟩

theorem canon_ins {d : α} {m : List (Nat × α)} {i : Nat} {y : α} (hy : y ≠ d) (hi : ∀ p ∈ m, p.1 ≠ i) (h : Canon d m) :
    Canon d (ins m i y) := by
  refine ⟨?_, fun p hp => (mem_ins hp).elim (fun e => by rw [e]; exact hy) (h.2 p)⟩
  have h1 := h.1
  clear h
  induction m with
  | nil => simp [ins]
  | cons q m ih =>
    obtain ⟨k, x⟩ := q
    have hs := h1
    rw [List.pairwise_cons] at h1
    by_cases hl : i < k
    · simp only [ins, hl, if_true, List.pairwise_cons]
      refine ⟨?_, h1⟩
      rintro a ha
      rcases List.mem_cons.1 ha with rfl | ha
      · exact hl
      · exact hl.trans (h1.1 a ha)
    · simp only [ins, hl, if_false, List.pairwise_cons]
      refine ⟨fun a ha => ?_, ih (fun p hp => hi p (by simp [hp])) h1.2⟩
      rcases mem_ins ha with rfl | ha
      · have := hi (k, x) (by simp)
        simp only at this ⊢
        omega
      · exact h1.1 a ha

/-- A write keeps the canonical form. -/
theorem canon_put [DecidableEq α] {d : α} {m : List (Nat × α)} (i : Nat) (y : α) (h : canon d m = true) :
    canon d (put d m i y) = true := by
  rw [canon_iff] at h ⊢
  unfold put
  split
  · exact canon_del i h
  · next hy => exact canon_ins hy (keys_del m i) (canon_del i h)

/-- Writes over a list keep the canonical form. -/
theorem canon_foldl_put [DecidableEq α] {β : Type} {d : α} (l : List β) (k : β → Nat) (y : β → α) (m : List (Nat × α))
    (h : canon d m = true) : canon d (l.foldl (fun m b => put d m (k b) (y b)) m) = true := by
  induction l generalizing m with
  | nil => exact h
  | cons b l ih => exact ih _ (canon_put _ _ h)

/-- A byte of memory written keeps memory's canonical form. -/
theorem wf_put {m : List Host.Cell} (i : Nat) (b : BitVec 8) (h : Memory.wf m = true) : Memory.wf (put 0#8 m i b) = true :=
  canon_put i b h

theorem wf_foldl {β : Type} (l : List β) (k : β → Nat) (y : β → BitVec 8) (m : List Host.Cell)
    (h : Memory.wf m = true) : Memory.wf (l.foldl (fun m b => put 0#8 m (k b) (y b)) m) = true :=
  canon_foldl_put l k y m h

theorem commitWord_wf {s : State} (word : Nat) (bytes : List (Nat × BitVec 8)) (mk : Mark) (h : Memory.wf s.mem = true) :
    Memory.wf (commitWord s word bytes mk).mem = true :=
  wf_foldl bytes (fun b => 16 * word + b.1) (·.2) s.mem h

theorem writeHome_wf {s : State} (loc : Nat) (bytes : List (BitVec 8)) (h : Memory.wf s.mem = true) :
    Memory.wf (writeHome s loc bytes).mem = true := by
  unfold writeHome
  generalize cutWords loc bytes = l
  induction l generalizing s with
  | nil => exact h
  | cons p l ih => exact ih (commitWord_wf _ _ _ h)

theorem writeHomeN_wf {s : State} (loc n x : Nat) (h : Memory.wf s.mem = true) : Memory.wf (writeHomeN s loc n x).mem = true :=
  writeHome_wf loc _ h

theorem redHome_wf {s : State} (op : AtomOp) (size loc x y : Nat) (h : Memory.wf s.mem = true) :
    Memory.wf (redHome s op size loc x y).mem = true := by
  unfold redHome
  split
  · exact commitWord_wf _ _ _ h
  · split
    · exact writeHomeN_wf _ _ _ h
    · exact h

end Sys2Proof.Machine.Laws
end

