-- ==== Sys2Proof/Laws/Caches.lean ====
section
/-! SUPPORT. Every operation of the caches keeps the state sound: memory in its canonical form, no word twice in a cache, and the
stores of the L1s in their order. -/

namespace Sys2Proof.Machine.Laws

/-! ## Blocks -/

/-- A block has the place of another: its cache, its frame, and the words it covers. -/
abbrev SamePlace (a b : CBlock) : Prop :=
  a.cache = b.cache ∧ a.frame = b.frame ∧ a.start = b.start ∧ a.words.length = b.words.length

theorem setWord_samePlace (b : CBlock) (w : Nat) (x : CWord) : SamePlace (b.setWord w x) b := by
  unfold CBlock.setWord
  split <;> simp [SamePlace]

theorem overwritten_samePlace (old : List (BitVec 8)) (m : Mark) (now w : Nat) (b : CBlock) :
    SamePlace (b.overwritten old m now w) b := by
  unfold CBlock.overwritten
  split
  · split
    · exact ⟨rfl, rfl, rfl, rfl⟩
    · split <;> exact setWord_samePlace _ _ _
  · exact ⟨rfl, rfl, rfl, rfl⟩

/-- A change of the words of blocks in their places keeps the blocks sound. -/
theorem soundBlocks_map {l : List CBlock} (f : CBlock → CBlock) (hf : ∀ b, SamePlace (f b) b) (h : SoundBlocks l) :
    SoundBlocks (l.map f) := by
  refine ⟨fun b hb => ?_, ?_⟩
  · obtain ⟨a, ha, rfl⟩ := List.mem_map.1 hb
    obtain ⟨-, -, h3, h4⟩ := hf a
    have := h.1 a ha
    rw [← List.length_pos_iff_ne_nil] at this ⊢
    omega
  · rw [List.pairwise_map]
    refine h.2.imp fun {a b} hab hc hr => ?_
    obtain ⟨a1, a2, a3, a4⟩ := hf a
    obtain ⟨b1, b2, b3, b4⟩ := hf b
    have := hab (by omega) (by omega)
    omega

theorem soundBlocks_sublist {l l' : List CBlock} (hs : l'.Sublist l) (h : SoundBlocks l) : SoundBlocks l' :=
  ⟨fun b hb => h.1 b (hs.subset hb), h.2.sublist hs⟩

/-- Blocks of different caches or frames stand beside each other. -/
theorem soundBlocks_append {l l' : List CBlock} (h : SoundBlocks l) (h' : SoundBlocks l') (hd : ∀ a ∈ l, ∀ b ∈ l', Apart a b) :
    SoundBlocks (l ++ l') :=
  ⟨fun b hb => (List.mem_append.1 hb).elim (h.1 b) (h'.1 b), List.pairwise_append.2 ⟨h.2, h'.2, hd⟩⟩

theorem apart_symm {a b : CBlock} (h : Apart a b) : Apart b a := fun hc hf => (h hc.symm hf.symm).symm

/-- Two blocks at different places of a sound list stand apart. -/
theorem soundBlocks_apart {l : List CBlock} (h : SoundBlocks l) {a b : CBlock} (ha : a ∈ l) (hb : b ∈ l) (hne : a ≠ b) : Apart a b := by
  have h2 := h.2
  clear h
  induction l with
  | nil => simp at ha
  | cons x l ih =>
    rw [List.pairwise_cons] at h2
    rcases List.mem_cons.1 ha with ea | ha' <;> rcases List.mem_cons.1 hb with eb | hb'
    · exact absurd (ea.trans eb.symm) hne
    · rw [ea]; exact h2.1 b hb'
    · rw [eb]; exact apart_symm (h2.1 a ha')
    · exact ih ha' hb' h2.2

/-- In a sound list a block stands once. -/
theorem soundBlocks_nodup {l : List CBlock} (h : SoundBlocks l) : l.Nodup := by
  rw [List.Nodup, List.pairwise_iff_forall_sublist]
  intro a b hab hne
  subst hne
  have := List.pairwise_iff_forall_sublist.1 h.2 hab rfl rfl
  have hw := (h.1 a (hab.subset (by simp))).1
  rw [← List.length_pos_iff_ne_nil] at hw
  omega

/-! ## States -/

/-- A change that keeps memory's form, the blocks sound and the stores in order keeps the state sound. -/
theorem sound_of {s t : State} (h : SoundMemory s) (hm : Memory.wf s.mem = true → Memory.wf t.mem = true)
    (hb : SoundBlocks s.blocks → SoundBlocks t.blocks) (hp : t.pend.Sublist s.pend) (hn : s.nextId ≤ t.nextId) : SoundMemory t :=
  ⟨hm h.1, hb h.2.1, h.2.2.1.sublist hp, fun e he => (h.2.2.2 e (hp.subset he)).trans_le hn⟩

/-- A change of what is no memory, no block and no store keeps the state sound. -/
theorem sound_same {s t : State} (h : SoundMemory s) (hm : t.mem = s.mem) (hb : t.blocks = s.blocks) (hp : t.pend = s.pend)
    (hn : s.nextId ≤ t.nextId) : SoundMemory t :=
  sound_of h (by rw [hm]; exact id) (by rw [hb]; exact id) (by rw [hp]) hn

/-- A fold of steps that each keep the state sound keeps it sound. -/
theorem sound_fold {β : Type} (f : State → β → State) (hf : ∀ s b, SoundMemory s → SoundMemory (f s b)) (l : List β) (s : State)
    (h : SoundMemory s) : SoundMemory (l.foldl f s) := by
  induction l generalizing s with
  | nil => exact h
  | cons b l ih => exact ih _ (hf s b h)

theorem commitWord_sound {s : State} (word : Nat) (bytes : List (Nat × BitVec 8)) (mk : Mark) (h : SoundMemory s) :
    SoundMemory (commitWord s word bytes mk) :=
  sound_of h (commitWord_wf _ _ _) (soundBlocks_map _ (overwritten_samePlace _ _ _ _)) (List.Sublist.refl _) le_rfl

theorem writeHome_sound {s : State} (loc : Nat) (bytes : List (BitVec 8)) (h : SoundMemory s) : SoundMemory (writeHome s loc bytes) :=
  sound_fold _ (fun _ _ h => commitWord_sound _ _ _ h) _ _ h

theorem writeHomeN_sound {s : State} (loc n x : Nat) (h : SoundMemory s) : SoundMemory (writeHomeN s loc n x) := writeHome_sound _ _ h

theorem setHeld_sound {s : State} (cache word : Nat) (x : CWord) (h : SoundMemory s) : SoundMemory (s.setHeld cache word x) := by
  refine sound_of h id (soundBlocks_map _ fun b => ?_) (List.Sublist.refl _) le_rfl
  split
  · exact setWord_samePlace _ _ _
  · exact ⟨rfl, rfl, rfl, rfl⟩

theorem writeBackWord_sound {s : State} (word : Nat) (h : SoundMemory s) : SoundMemory (writeBackWord s word) := by
  refine sound_of h id (soundBlocks_map _ fun b => ?_) (List.Sublist.refl _) le_rfl
  split
  · exact setWord_samePlace _ _ _
  · exact ⟨rfl, rfl, rfl, rfl⟩

theorem leaveWord_sound {s : State} (cache word : Nat) (x : CWord) (h : SoundMemory s) : SoundMemory (leaveWord s cache word x) := by
  unfold leaveWord
  split
  · split
    · exact writeBackWord_sound _ h
    · exact h
  · split
    · exact commitWord_sound _ _ _ h
    · exact h
  · exact h

theorem dropBlocks_sound {s : State} (l : List CBlock) (hl : l.Sublist s.blocks) (h : SoundMemory s) :
    SoundMemory { s with blocks := l } :=
  sound_of h id (soundBlocks_sublist hl) (List.Sublist.refl _) le_rfl

theorem evictBlock_sound {s : State} (b : CBlock) (h : SoundMemory s) : SoundMemory (evictBlock s b) :=
  sound_fold _ (fun _ _ h => leaveWord_sound _ _ _ h) _ _ (dropBlocks_sound _ List.erase_sublist h)

theorem tick_sound {s : State} (n : Nat) (h : SoundMemory s) : SoundMemory { s with tick := n } := sound_same h rfl rfl rfl le_rfl

theorem makeRoom_sound (cache frame : Nat) (new : List CBlock) (fuel : Nat) {s t : State} (h : SoundMemory s)
    (ht : makeRoom cache frame new fuel s = some t) : SoundMemory t := by
  induction fuel generalizing s with
  | zero => simp [makeRoom] at ht
  | succ fuel ih =>
    simp only [makeRoom] at ht
    split at ht
    · cases ht; exact h
    · split at ht
      · cases ht
      · exact ih (tick_sound _ (evictBlock_sound _ h)) ht

/-! ## Fills -/

/-- The runs of a test lie in the words looked at, hold only words that satisfy it, and stand apart, each before the next. -/
theorem runsOf_spec (p : Nat → Bool) (o n : Nat) :
    (∀ r ∈ runsOf p o n, o ≤ r.1 ∧ 0 < r.2 ∧ r.1 + r.2 ≤ o + n ∧ ∀ i < r.2, p (r.1 + i) = true) ∧
      (runsOf p o n).Pairwise fun a b => a.1 + a.2 ≤ b.1 := by
  induction n generalizing o with
  | zero => simp [runsOf]
  | succ n ih =>
    obtain ⟨h1, h2⟩ := ih (o + 1)
    simp only [runsOf]
    split
    · rename_i hp
      split
      · rename_i a k l hr
        rw [hr] at h1 h2
        have ha := h1 (a, k) (by simp)
        rw [List.pairwise_cons] at h2
        split
        · rename_i hao
          refine ⟨fun r hr' => ?_, List.pairwise_cons.2 ⟨fun b hb => ?_, h2.2⟩⟩
          · rcases List.mem_cons.1 hr' with rfl | hr'
            · refine ⟨le_rfl, by simp, by simp only at ha ⊢; omega, fun i hi => ?_⟩
              rcases i with _ | i
              · exact hp
              · have := ha.2.2.2 i (by simp only at hi ⊢; omega)
                simpa [hao, Nat.add_assoc, Nat.add_comm 1 i] using this
            · have := h1 r (by simp [hr'])
              exact ⟨by omega, this.2.1, by omega, this.2.2.2⟩
          · have := h2.1 b hb
            simp only at this ⊢
            omega
        · refine ⟨fun r hr' => ?_, List.pairwise_cons.2 ⟨fun b hb => ?_, List.pairwise_cons.2 h2⟩⟩
          · rcases List.mem_cons.1 hr' with rfl | hr'
            · refine ⟨le_rfl, by simp, by simp, fun i hi => ?_⟩
              obtain rfl : i = 0 := by simpa using hi
              exact hp
            · have := h1 r hr'
              exact ⟨by omega, this.2.1, by omega, this.2.2.2⟩
          · have := h1 b hb
            simp only at this ⊢
            omega
      · refine ⟨fun r hr' => ?_, by simp⟩
        simp only [List.mem_singleton] at hr'
        subst hr'
        refine ⟨le_rfl, by simp, by simp, fun i hi => ?_⟩
        obtain rfl : i = 0 := by simpa using hi
        exact hp
    · refine ⟨fun r hr' => ?_, h2⟩
      have := h1 r hr'
      exact ⟨by omega, this.2.1, by omega, this.2.2.2⟩

/-- One word past the last of a block. -/
abbrev blockEnd (b : CBlock) : Nat := b.start + b.words.length

/-- Of the blocks of one frame at most one satisfies a test that only overlapping blocks share. -/
theorem filter_le_one {bs : List CBlock} {c f : Nat} (h : SoundBlocks bs) (hbs : ∀ b ∈ bs, b.cache = c ∧ b.frame = f) (p : CBlock → Bool)
    (hp : ∀ a b, p a = true → p b = true → blockEnd a = blockEnd b ∨ a.start = b.start) :
    bs.filter p = [] ∨ ∃ b, bs.filter p = [b] := by
  have hs := soundBlocks_sublist (List.filter_sublist (p := p)) h
  rcases hl : bs.filter p with _ | ⟨a, _ | ⟨b, l⟩⟩
  · exact .inl rfl
  · exact .inr ⟨a, rfl⟩
  · have ha : a ∈ bs.filter p := by simp [hl]
    have hb : b ∈ bs.filter p := by simp [hl]
    rw [hl] at hs
    have hab := (List.pairwise_cons.1 hs.2).1 b (by simp)
    have wa := (hs.1 a (by simp)).1
    have wb := (hs.1 b (by simp)).1
    rw [← List.length_pos_iff_ne_nil] at wa wb
    rw [List.mem_filter] at ha hb
    obtain ⟨a1, a2⟩ := hbs a ha.1
    obtain ⟨b1, b2⟩ := hbs b hb.1
    have := hab (a1.trans b1.symm) (a2.trans b2.symm)
    rcases hp a b ha.2 hb.2 with he | he
    · simp only [blockEnd] at he; omega
    · omega

/-- A piece joined with the blocks of its frame leaves sound blocks of that frame, which keep clear of whatever the blocks and the
piece kept clear of. -/
theorem joinPiece_spec {bs : List CBlock} {c f : Nat} {p : CBlock} (h : SoundBlocks bs) (hbs : ∀ b ∈ bs, b.cache = c ∧ b.frame = f)
    (hpc : p.cache = c ∧ p.frame = f) (hpw : 0 < p.words.length) (hpe : blockEnd p ≤ 16)
    (hd : ∀ b ∈ bs, blockEnd b ≤ p.start ∨ blockEnd p ≤ b.start) :
    SoundBlocks (joinPiece bs p) ∧ (∀ b ∈ joinPiece bs p, b.cache = c ∧ b.frame = f) ∧
      ∀ x y, x < y → (∀ b ∈ bs, blockEnd b ≤ x ∨ y ≤ b.start) → (blockEnd p ≤ x ∨ y ≤ p.start) →
        ∀ b ∈ joinPiece bs p, blockEnd b ≤ x ∨ y ≤ b.start := by
  have hL := filter_le_one h hbs (fun b => b.start + b.words.length == p.start)
    (fun a b ha hb => .inl (by simp only [beq_iff_eq] at ha hb; simp only [blockEnd]; omega))
  have hR := filter_le_one h hbs (fun b => p.start + p.words.length == b.start)
    (fun a b ha hb => .inr (by simp only [beq_iff_eq] at ha hb; omega))
  set L := bs.filter fun b => b.start + b.words.length == p.start with hLd
  set R := bs.filter fun b => p.start + p.words.length == b.start with hRd
  have hLm : ∀ b ∈ L, b ∈ bs ∧ blockEnd b = p.start := fun b hb => by
    rw [hLd, List.mem_filter] at hb; exact ⟨hb.1, by simpa using hb.2⟩
  have hRm : ∀ b ∈ R, b ∈ bs ∧ blockEnd p = b.start := fun b hb => by
    rw [hRd, List.mem_filter] at hb; exact ⟨hb.1, by simpa using hb.2⟩
  set j : CBlock := { p with start := (L.head?.map (·.start)).getD p.start, words := L.flatMap (·.words) ++ p.words ++ R.flatMap (·.words) }
    with hj
  have hjoin : joinPiece bs p =
      bs.filter (fun b => b.start + b.words.length != p.start && p.start + p.words.length != b.start) ++ [j] := rfl
  have hspan : j.start ≤ p.start ∧ blockEnd p ≤ blockEnd j ∧
      (j.start = p.start ∨ ∃ l ∈ L, j.start = l.start) ∧ (blockEnd j = blockEnd p ∨ ∃ r ∈ R, blockEnd j = blockEnd r) := by
    rcases hL with hL | ⟨l, hL⟩ <;> rcases hR with hR | ⟨r, hR⟩
    · simp [hj, hL, hR, blockEnd]
    · have hr := (hRm r (by simp [hR])).2
      simp only [hj, hL, hR, blockEnd] at hr ⊢
      simp
      omega
    · have hl := (hLm l (by simp [hL])).2
      simp only [hj, hL, hR, blockEnd] at hl ⊢
      simp
      omega
    · have hl := (hLm l (by simp [hL])).2
      have hr := (hRm r (by simp [hR])).2
      simp only [hj, hL, hR, blockEnd] at hl hr ⊢
      simp
      omega
  have hkeep : ∀ b ∈ bs.filter (fun b => b.start + b.words.length != p.start && p.start + p.words.length != b.start),
      b ∈ bs ∧ blockEnd b ≠ p.start ∧ blockEnd p ≠ b.start := fun b hb => by
    rw [List.mem_filter] at hb
    simpa using hb
  have hclear : ∀ x y, x < y → (∀ b ∈ bs, blockEnd b ≤ x ∨ y ≤ b.start) → (blockEnd p ≤ x ∨ y ≤ p.start) →
      blockEnd j ≤ x ∨ y ≤ j.start := by
    intro x y hxy hb hp
    obtain ⟨s1, s2, s3, s4⟩ := hspan
    rcases hp with hp | hp
    · left
      rcases s4 with e | ⟨r, hr, e⟩
      · omega
      · obtain ⟨hr1, hr2⟩ := hRm r hr
        have := hb r hr1
        omega
    · right
      rcases s3 with e | ⟨l, hl, e⟩
      · omega
      · obtain ⟨hl1, hl2⟩ := hLm l hl
        have := hb l hl1
        omega
  refine ⟨?_, ?_, ?_⟩
  · rw [hjoin]
    refine soundBlocks_append (soundBlocks_sublist List.filter_sublist h) ⟨fun b hb => ?_, by simp⟩ fun a ha b hb hc hf => ?_
    · obtain rfl : b = j := by simpa using hb
      obtain ⟨s1, s2, s3, s4⟩ := hspan
      refine ⟨?_, ?_⟩
      · rw [← List.length_pos_iff_ne_nil]
        simp only [blockEnd] at s2
        omega
      · rcases s4 with e | ⟨r, hr, e⟩
        · simp only [blockEnd] at e hpe; omega
        · have := (h.1 r (hRm r hr).1).2
          simp only [blockEnd] at e; omega
    · obtain rfl : b = j := by simpa using hb
      obtain ⟨ha1, ha2, ha3⟩ := hkeep a ha
      have wa := (h.1 a ha1).1
      rw [← List.length_pos_iff_ne_nil] at wa
      have hap : ∀ b ∈ bs, b ≠ a → blockEnd b ≤ a.start ∨ blockEnd a ≤ b.start := fun b hb hne => by
        obtain ⟨x1, x2⟩ := hbs a ha1
        obtain ⟨y1, y2⟩ := hbs b hb
        exact soundBlocks_apart h hb ha1 hne (y1.trans x1.symm) (y2.trans x2.symm)
      obtain ⟨s1, s2, s3, s4⟩ := hspan
      have h0 := hd a ha1
      rcases h0 with h0 | h0
      · left
        rcases s3 with e | ⟨l, hl, e⟩
        · simp only [blockEnd] at *; omega
        · obtain ⟨hl1, hl2⟩ := hLm l hl
          have := hap l hl1 (fun e => by subst e; exact ha2 hl2)
          have wl := (h.1 l hl1).1
          rw [← List.length_pos_iff_ne_nil] at wl
          simp only [blockEnd] at *
          omega
      · right
        rcases s4 with e | ⟨r, hr, e⟩
        · simp only [blockEnd] at *; omega
        · obtain ⟨hr1, hr2⟩ := hRm r hr
          have := hap r hr1 (fun e => by subst e; exact ha3 hr2)
          have wr := (h.1 r hr1).1
          rw [← List.length_pos_iff_ne_nil] at wr
          simp only [blockEnd] at *
          omega
  · intro b hb
    rw [hjoin, List.mem_append] at hb
    rcases hb with hb | hb
    · exact hbs b (hkeep b hb).1
    · obtain rfl : b = j := by simpa using hb
      exact hpc
  · intro x y hxy hb hp b hb'
    rw [hjoin, List.mem_append] at hb'
    rcases hb' with hb' | hb'
    · exact hb b (hkeep b hb').1
    · obtain rfl : b = j := by simpa using hb'
      exact hclear x y hxy hb hp

/-- A word, by its place in its frame, that a block does not cover. -/
abbrev ClearOf (x : Nat) (b : CBlock) : Prop := blockEnd b ≤ x ∨ x + 1 ≤ b.start

/-- Pieces joined one after another with the blocks of their frame leave sound blocks of that frame, which cover no word that neither
the blocks nor the pieces covered. -/
theorem joinPieces_spec {c f : Nat} (mk : Nat × Nat → CBlock) (hmk : ∀ r, (mk r).cache = c ∧ (mk r).frame = f ∧ (mk r).start = r.1 ∧
    (mk r).words.length = r.2) (ps : List (Nat × Nat)) {bs : List CBlock} (h : SoundBlocks bs)
    (hbs : ∀ b ∈ bs, b.cache = c ∧ b.frame = f) (hp : ∀ r ∈ ps, 0 < r.2 ∧ r.1 + r.2 ≤ 16)
    (hd : ∀ r ∈ ps, ∀ b ∈ bs, blockEnd b ≤ r.1 ∨ r.1 + r.2 ≤ b.start) (hps : ps.Pairwise fun a b => a.1 + a.2 ≤ b.1) :
    SoundBlocks (ps.foldl (fun bs r => joinPiece bs (mk r)) bs) ∧
      (∀ b ∈ ps.foldl (fun bs r => joinPiece bs (mk r)) bs, b.cache = c ∧ b.frame = f) ∧
      ∀ x, (∀ b ∈ bs, ClearOf x b) → (∀ r ∈ ps, r.1 + r.2 ≤ x ∨ x + 1 ≤ r.1) →
        ∀ b ∈ ps.foldl (fun bs r => joinPiece bs (mk r)) bs, ClearOf x b := by
  induction ps generalizing bs with
  | nil => exact ⟨h, hbs, fun x hx _ => hx⟩
  | cons r ps ih =>
    obtain ⟨m1, m2, m3, m4⟩ := hmk r
    rw [List.pairwise_cons] at hps
    have hr := hp r (by simp)
    obtain ⟨j1, j2, j3⟩ := joinPiece_spec (p := mk r) h hbs ⟨m1, m2⟩ (by omega) (by simp only [blockEnd]; omega)
      (fun b hb => by have := hd r (by simp) b hb; simp only [blockEnd] at this ⊢; omega)
    obtain ⟨k1, k2, k3⟩ := ih j1 j2 (fun q hq => hp q (by simp [hq])) (fun q hq b hb => by
      have hq' := hp q (by simp [hq])
      refine j3 q.1 (q.1 + q.2) (by omega) (hd q (by simp [hq])) ?_ b hb
      have := hps.1 q hq
      simp only [blockEnd]
      omega) hps.2
    refine ⟨k1, k2, fun x hx hxr => k3 x (j3 x (x + 1) (by omega) hx ?_) fun q hq => hxr q (by simp [hq])⟩
    have := hxr r (by simp)
    simp only [blockEnd]
    omega

/-- Blocks that are not empty and share no word stand beside each other. -/
theorem apart_of_clear {a b : CBlock} (ha : a.words ≠ []) (hb : b.words ≠ []) (h : ∀ x, ClearOf x a ∨ ClearOf x b) : Apart a b := by
  intro _ _
  rw [← List.length_pos_iff_ne_nil] at ha hb
  have := h (max a.start b.start)
  simp only [ClearOf, blockEnd] at this
  omega

/-- A word that no block of a frame holds lies clear of them. -/
theorem not_has_clear {bs : List CBlock} {f : Nat} (hbs : ∀ b ∈ bs, b.frame = f) {x n : Nat} (hn : 0 < n)
    (hw : ∀ b ∈ bs, b.words ≠ [])
    (h : ∀ i < n, (!(bs.any fun b => b.has (16 * f + (x + i)))) = true) (hx : x + n ≤ 16) :
    ∀ b ∈ bs, blockEnd b ≤ x ∨ x + n ≤ b.start := by
  intro b hb
  by_contra hc
  have hwb := hw b hb
  rw [← List.length_pos_iff_ne_nil] at hwb
  simp only [blockEnd, not_or, not_le] at hc
  have := h (max x b.start - x) (by omega)
  simp only [Bool.not_eq_true', List.any_eq_false] at this
  refine this b hb ?_
  have e1 : (16 * f + (x + (max x b.start - x))) / 16 = f := by omega
  have e2 : (16 * f + (x + (max x b.start - x))) % 16 = max x b.start := by omega
  simp only [CBlock.has, e1, e2, hbs b hb, beq_self_eq_true, Bool.true_and, Bool.and_eq_true, decide_eq_true_eq]
  omega

/-- Every block of a state stands in the place of one of another, and in a stash as that one does. -/
def Within (s t : State) : Prop := ∀ b ∈ t.blocks, ∃ a ∈ s.blocks, SamePlace b a ∧ b.stash = a.stash

theorem Within.refl (s : State) : Within s s := fun b hb => ⟨b, hb, ⟨rfl, rfl, rfl, rfl⟩, rfl⟩

theorem Within.trans {s t u : State} (h : Within s t) (h' : Within t u) : Within s u := fun c hc => by
  obtain ⟨b, hb, ⟨p1, p2, p3, p4⟩, p5⟩ := h' c hc
  obtain ⟨a, ha, ⟨q1, q2, q3, q4⟩, q5⟩ := h b hb
  exact ⟨a, ha, ⟨p1.trans q1, p2.trans q2, p3.trans q3, p4.trans q4⟩, p5.trans q5⟩

theorem Within.map {s : State} (f : CBlock → CBlock) (hf : ∀ b, SamePlace (f b) b ∧ (f b).stash = b.stash) :
    Within s { s with blocks := s.blocks.map f } := fun b hb => by
  obtain ⟨a, ha, rfl⟩ := List.mem_map.1 hb
  exact ⟨a, ha, hf a⟩

theorem setWord_stash (b : CBlock) (w : Nat) (x : CWord) : (b.setWord w x).stash = b.stash := by
  unfold CBlock.setWord
  split <;> rfl

theorem overwritten_stash (old : List (BitVec 8)) (m : Mark) (now w : Nat) (b : CBlock) : (b.overwritten old m now w).stash = b.stash := by
  unfold CBlock.overwritten
  split
  · split
    · rfl
    · split <;> exact setWord_stash _ _ _
  · rfl

theorem leaveWord_within (s : State) (cache word : Nat) (x : CWord) : Within s (leaveWord s cache word x) := by
  unfold leaveWord
  split
  · split
    · refine Within.map _ fun b => ?_
      split
      · exact ⟨setWord_samePlace _ _ _, setWord_stash _ _ _⟩
      · exact ⟨⟨rfl, rfl, rfl, rfl⟩, rfl⟩
    · exact Within.refl s
  · split
    · exact Within.map _ fun b => ⟨overwritten_samePlace _ _ _ _ b, overwritten_stash _ _ _ _ b⟩
    · exact Within.refl s
  · exact Within.refl s

theorem evictBlock_within (s : State) (b : CBlock) : Within s (evictBlock s b) := by
  have h : ∀ (l : List (CWord × Nat)) (t : State), Within s t →
      Within s (l.foldl (fun s p => leaveWord s b.cache (16 * b.frame + b.start + p.2) p.1) t) := fun l => by
    induction l with
    | nil => exact fun t h => h
    | cons p l ih => exact fun t h => ih _ (h.trans (leaveWord_within t _ _ _))
  exact h _ _ fun c hc => ⟨c, List.mem_of_mem_erase hc, ⟨rfl, rfl, rfl, rfl⟩, rfl⟩

theorem makeRoom_within (cache frame : Nat) (new : List CBlock) (fuel : Nat) {s t : State} (ht : makeRoom cache frame new fuel s = some t) :
    Within s t := by
  induction fuel generalizing s with
  | zero => simp [makeRoom] at ht
  | succ fuel ih =>
    simp only [makeRoom] at ht
    split at ht
    · cases ht; exact Within.refl _
    · split at ht
      · cases ht
      · have hr := ih ht
        exact (evictBlock_within s _).trans hr

/-- The runs of the words that the blocks of a frame lack, and a test admits, joined with some of those blocks: the result is sound, and
covers only words of those blocks and of the runs. -/
theorem joinPieces_sound {here mine : List CBlock} {cache frame start len : Nat} (hint : Nat) (stash : Bool) (f : Nat → CWord) (q : Nat → Bool)
    (h : SoundBlocks here) (hc : ∀ b ∈ here, b.cache = cache ∧ b.frame = frame) (hm : mine.Sublist here) (hl : start + len ≤ 16 ∨ len = 0) :
    SoundBlocks (joinPieces mine cache frame hint stash f (runsOf (fun o => !(here.any fun b => b.has (16 * frame + o)) && q o) start len)) ∧
      (∀ b ∈ joinPieces mine cache frame hint stash f (runsOf (fun o => !(here.any fun b => b.has (16 * frame + o)) && q o) start len),
        b.cache = cache ∧ b.frame = frame) ∧
      ∀ x, (∀ b ∈ mine, ClearOf x b) → ((∃ b ∈ here, ¬ ClearOf x b) ∨ q x = false) →
        ∀ b ∈ joinPieces mine cache frame hint stash f (runsOf (fun o => !(here.any fun b => b.has (16 * frame + o)) && q o) start len),
          ClearOf x b := by
  obtain ⟨r1, r2⟩ := runsOf_spec (fun o => !(here.any fun b => b.has (16 * frame + o)) && q o) start len
  have hs := soundBlocks_sublist hm h
  have hr : ∀ r ∈ runsOf (fun o => !(here.any fun b => b.has (16 * frame + o)) && q o) start len, 0 < r.2 ∧ r.1 + r.2 ≤ 16 :=
    fun r hr => by have := r1 r hr; omega
  have hclear : ∀ r ∈ runsOf (fun o => !(here.any fun b => b.has (16 * frame + o)) && q o) start len, ∀ b ∈ here,
      blockEnd b ≤ r.1 ∨ r.1 + r.2 ≤ b.start := fun r hr' =>
    not_has_clear (fun b hb => (hc b hb).2) (hr r hr').1 (fun b hb => (h.1 b hb).1)
      (fun i hi => by have := (r1 r hr').2.2.2 i hi; simp only [Bool.and_eq_true] at this; exact this.1) (hr r hr').2
  obtain ⟨j1, j2, j3⟩ := joinPieces_spec (c := cache) (f := frame)
    (fun p => ⟨cache, frame, p.1, (List.range p.2).map fun i => f (p.1 + i), hint, stash⟩)
    (fun r => by simp) _ hs (fun b hb => hc b (hm.subset hb)) hr (fun r hr' b hb => hclear r hr' b (hm.subset hb)) r2
  refine ⟨j1, j2, fun x hx hq => j3 x hx fun r hr' => ?_⟩
  rcases hq with ⟨b, hb, hbx⟩ | hq
  · have := hclear r hr' b hb
    simp only [ClearOf] at hbx
    omega
  · by_contra hn
    have := (r1 r hr').2.2.2 (x - r.1) (by omega)
    rw [show r.1 + (x - r.1) = x by omega, hq, Bool.and_false] at this
    exact absurd this (by simp)

theorem hintedBlocks_eq (s : State) (mine : List CBlock) (cache frame hint : Nat) (f : Nat → CWord) (pieces : List (Nat × Nat)) :
    ∃ hint', hintedBlocks s mine cache frame hint f pieces = joinPieces mine cache frame hint' false f pieces := by
  unfold hintedBlocks
  dsimp only
  split
  exacts [⟨0, rfl⟩, ⟨hint, rfl⟩]

theorem fillRun_sound {s : State} (cache frame start n hint : Nat) (f : Nat → CWord) (h : SoundMemory s) :
    SoundMemory (fillRun s cache frame start n hint f) := by
  unfold fillRun
  dsimp only
  set here := s.blocks.filter fun b => b.cache == cache && b.frame == frame with hhere
  set rest := s.blocks.filter fun b => !(b.cache == cache && b.frame == frame) with hrest
  set mapped : Nat → Bool := fun o => decide (cache < 512) && mappedWord s cache (16 * frame + o) with hmapped
  have hs : SoundBlocks here := soundBlocks_sublist List.filter_sublist h.2.1
  have hc : ∀ b ∈ here, b.cache = cache ∧ b.frame = frame := fun b hb => by simpa using (List.mem_filter.1 hb).2
  have hl : start + min n (16 - start) ≤ 16 ∨ min n (16 - start) = 0 := by omega
  obtain ⟨o1, o2, o3⟩ := joinPieces_sound (start := start) hint true f (fun o => mapped o) hs hc
    (List.filter_sublist (p := fun b : CBlock => b.stash)) hl
  have hnew : ∀ hint', SoundBlocks (joinPieces (here.filter fun b => !b.stash) cache frame hint' false f
        (runsOf (fun o => !(here.any fun b => b.has (16 * frame + o)) && !(mapped o)) start (min n (16 - start)))) ∧ _ ∧ _ := fun hint' =>
    joinPieces_sound (start := start) hint' false f (fun o => !(mapped o)) hs hc (List.filter_sublist (p := fun b : CBlock => !b.stash)) hl
  set own := joinPieces (here.filter fun b => b.stash) cache frame hint true f
    (runsOf (fun o => !(here.any fun b => b.has (16 * frame + o)) && mapped o) start (min n (16 - start))) with hown
  set mine := here.filter fun b => !b.stash with hmine
  set pieces := runsOf (fun o => !(here.any fun b => b.has (16 * frame + o)) && !(mapped o)) start (min n (16 - start)) with hpieces
  -- a word of a block of the stash is in no block beside it
  have hbeside : ∀ x, (∀ b ∈ here.filter fun b => b.stash, ClearOf x b) ∨ (∀ b ∈ mine, ClearOf x b) := fun x => by
    by_contra hn
    push Not at hn
    obtain ⟨⟨a, ha, hax⟩, b, hb, hbx⟩ := hn
    rw [List.mem_filter] at ha
    rw [hmine, List.mem_filter] at hb
    have hab : a ≠ b := fun e => by subst e; simp [ha.2] at hb
    have := soundBlocks_apart hs ha.1 hb.1 hab ((hc a ha.1).1.trans (hc b hb.1).1.symm) ((hc a ha.1).2.trans (hc b hb.1).2.symm)
    simp only [blockEnd] at hax hbx
    omega
  have hcross : ∀ hint' x, (∀ b ∈ own, ClearOf x b) ∨ ∀ b ∈ joinPieces mine cache frame hint' false f pieces, ClearOf x b := fun hint' x => by
    by_cases hx : ∀ b ∈ here, ClearOf x b
    · cases hq : mapped x
      · exact .inl (o3 x (fun b hb => hx b (List.mem_of_mem_filter hb)) (.inr hq))
      · exact .inr ((hnew hint').2.2 x (fun b hb => hx b (List.mem_of_mem_filter hb)) (.inr (by simp [hq])))
    · push Not at hx
      obtain ⟨b, hb, hbx⟩ := hx
      rcases hbeside x with hx | hx
      · exact .inl (o3 x hx (.inl ⟨b, hb, by simp only [ClearOf] at hbx ⊢; omega⟩))
      · exact .inr ((hnew hint').2.2 x hx (.inl ⟨b, hb, by simp only [ClearOf] at hbx ⊢; omega⟩))
  have hmo : ∀ a ∈ mine, ∀ b ∈ own, Apart a b := fun a ha b hb => by
    refine apart_of_clear (hs.1 a (List.mem_of_mem_filter ha)).1 (o1.1 b hb).1 fun x => ?_
    by_cases hax : ClearOf x a
    · exact .inl hax
    · rcases hbeside x with hx | hx
      · exact .inr (o3 x hx (.inl ⟨a, List.mem_of_mem_filter ha, hax⟩) b hb)
      · exact absurd (hx a ha) hax
  -- the state with the stash filled
  have h1 : SoundMemory (if runsOf (fun o => !(here.any fun b => b.has (16 * frame + o)) && mapped o) start (min n (16 - start)) = [] then s
      else { s with blocks := rest ++ mine ++ own }) := by
    split
    · exact h
    · refine sound_of h id (fun hb => ?_) (List.Sublist.refl _) le_rfl
      have hrm : ∀ a ∈ rest, ∀ b, (b.cache = cache ∧ b.frame = frame) → Apart a b := fun a ha b hb hca hfa => by
        have := (List.mem_filter.1 ha).2
        simp [hca.trans hb.1, hfa.trans hb.2] at this
      refine soundBlocks_append (soundBlocks_append (soundBlocks_sublist List.filter_sublist hb)
        (soundBlocks_sublist List.filter_sublist hs) fun a ha b hb => hrm a ha b (hc b (List.mem_of_mem_filter hb))) o1
        fun a ha b hb => ?_
      rcases List.mem_append.1 ha with ha | ha
      · exact hrm a ha b (o2 b hb)
      · exact hmo a ha b hb
  have hstash : ∀ a ∈ State.blocks (if runsOf (fun o => !(here.any fun b => b.has (16 * frame + o)) && mapped o) start
        (min n (16 - start)) = [] then s else { s with blocks := rest ++ mine ++ own }),
      a.cache = cache → a.frame = frame → a.stash = true → a ∈ own := fun a ha hca hfa hsa => by
    split at ha
    · rename_i he
      rw [hown, he]
      exact List.mem_filter.2 ⟨List.mem_filter.2 ⟨ha, by simp [hca, hfa]⟩, hsa⟩
    · simp only [List.mem_append] at ha
      rcases ha with (ha | ha) | ha
      · have := (List.mem_filter.1 ha).2
        simp [hca, hfa] at this
      · have := (List.mem_filter.1 ha).2
        simp [hsa] at this
      · exact ha
  split
  · exact h1
  · split
    · rename_i t ht
      have h2 := makeRoom_sound _ _ _ _ h1 ht
      have hw := makeRoom_within _ _ _ _ ht
      obtain ⟨hint', hnb⟩ := hintedBlocks_eq (if runsOf (fun o => !(here.any fun b => b.has (16 * frame + o)) && mapped o) start
          (min n (16 - start)) = [] then s else { s with blocks := rest ++ mine ++ own }) mine cache frame hint f pieces
      rw [hnb]
      obtain ⟨n1, n2, -⟩ := hnew hint'
      refine sound_of h2 id (fun hbl => ?_) (List.Sublist.refl _) le_rfl
      refine soundBlocks_append (soundBlocks_sublist List.filter_sublist hbl) n1 fun a ha b hb => ?_
      obtain ⟨ha1, ha2⟩ := List.mem_filter.1 ha
      intro hca hfa
      obtain ⟨b1, b2⟩ := n2 b hb
      simp only [hca.trans b1, hfa.trans b2, beq_self_eq_true, Bool.true_and, Bool.not_not] at ha2
      obtain ⟨a', ha', ⟨p1, p2, p3, p4⟩, p5⟩ := hw a ha1
      have hao := hstash a' ha' (p1.symm.trans (hca.trans b1)) (p2.symm.trans (hfa.trans b2)) (p5.symm.trans ha2)
      have := apart_of_clear (o1.1 a' hao).1 (n1.1 b hb).1 (fun x => (hcross hint' x).imp (· a' hao) (· b hb))
        (p1.symm.trans hca) (p2.symm.trans hfa)
      simp only [p3, p4]
      exact this
    · exact h1

theorem hitHint_sound {s : State} (cache word hint : Nat) (h : SoundMemory s) : SoundMemory (hitHint s cache word hint) := by
  unfold hitHint
  split
  · refine sound_of h id (soundBlocks_map _ fun b => ?_) (List.Sublist.refl _) le_rfl
    split <;> exact ⟨rfl, rfl, rfl, rfl⟩
  · exact h

theorem gainWord_sound {s : State} (core word hint : Nat) (x : CWord) (h : SoundMemory s) : SoundMemory (gainWord s core word hint x) := by
  unfold gainWord
  split
  · exact setHeld_sound _ _ _ h
  · exact fillRun_sound _ _ _ _ _ _ h

theorem split_spec {b : CBlock} (word : Nat) (hb : blockEnd b ≤ 16) :
    SoundBlocks (b.split word) ∨ b.words = [] := by
  by_cases hw : b.words = []
  · exact .inr hw
  left
  unfold CBlock.split
  split
  · rename_i hh
    simp only [CBlock.has, Bool.and_eq_true, beq_iff_eq, decide_eq_true_eq] at hh
    simp only [blockEnd] at hb
    refine soundBlocks_sublist (l := [{ b with words := b.words.take (word % 16 - b.start) },
      { b with start := word % 16 + 1, words := b.words.drop (word % 16 - b.start + 1) }].filter fun x => x.words != [])
      (List.Sublist.refl _) ⟨fun x hx => ?_, ?_⟩
    · rw [List.mem_filter] at hx
      simp only [List.mem_cons, List.not_mem_nil, or_false, bne_iff_ne] at hx
      refine ⟨hx.2, ?_⟩
      rcases hx.1 with rfl | rfl <;> simp <;> omega
    · refine List.Pairwise.sublist List.filter_sublist ?_
      simp only [List.pairwise_cons, List.mem_singleton, forall_eq, List.not_mem_nil, false_imp_iff, implies_true, List.Pairwise.nil,
        and_self, and_true]
      intro _ _
      left
      simp
      omega
  · exact ⟨fun x hx => by
      obtain rfl := List.mem_singleton.1 hx
      exact ⟨hw, hb⟩, by simp⟩

/-- The pieces of a block lie where it lay. -/
theorem split_within {b x : CBlock} {word : Nat} (hx : x ∈ b.split word) :
    x.cache = b.cache ∧ x.frame = b.frame ∧ b.start ≤ x.start ∧ blockEnd x ≤ blockEnd b := by
  unfold CBlock.split at hx
  split at hx
  · rename_i hh
    simp only [CBlock.has, Bool.and_eq_true, beq_iff_eq, decide_eq_true_eq] at hh
    rw [List.mem_filter] at hx
    simp only [List.mem_cons, List.not_mem_nil, or_false] at hx
    rcases hx.1 with rfl | rfl <;> simp [blockEnd]; omega
  · obtain rfl := List.mem_singleton.1 hx
    exact ⟨rfl, rfl, le_rfl, le_rfl⟩

theorem dropHeld_sound {s : State} (cache word : Nat) (h : SoundMemory s) : SoundMemory (dropHeld s cache word) := by
  unfold dropHeld
  split
  · exact h
  · rename_i b hb
    have hmem := List.mem_of_find?_eq_some hb
    dsimp only
    split
    · exact evictBlock_sound _ h
    · refine sound_of h id (fun hs => ?_) (List.Sublist.refl _) le_rfl
      refine soundBlocks_append (soundBlocks_sublist List.erase_sublist hs) ?_ fun a ha x hx hc hf => ?_
      · exact (split_spec word (hs.1 b hmem).2).resolve_right (hs.1 b hmem).1
      · obtain ⟨x1, x2, x3, x4⟩ := split_within hx
        have ha' := (soundBlocks_nodup hs).mem_erase_iff.1 ha
        have := soundBlocks_apart hs ha'.2 hmem ha'.1 (hc.trans x1) (hf.trans x2)
        simp only [blockEnd] at x4
        omega

theorem freshen_sound {s : State} (core : Nat) (h : SoundMemory s) : SoundMemory (freshen s core) :=
  sound_fold _ (fun _ _ h => dropHeld_sound _ _ h) _ _ h

theorem freshenBy_sound {s : State} (core n : Nat) (h : SoundMemory s) : SoundMemory (freshenBy s core n) :=
  sound_fold _ (fun _ _ h => dropHeld_sound _ _ h) _ _ h

theorem downgrade_sound {s : State} (word : Nat) (h : SoundMemory s) : SoundMemory (downgrade s word) := by
  have h' : SoundMemory (if (holders s word).any (fun h => h.2 == .modified) then writeBackWord s word else s) := by
    split
    · exact writeBackWord_sound _ h
    · exact h
  refine sound_of h' id (soundBlocks_map _ fun b => ?_) (List.Sublist.refl _) le_rfl
  split
  · split
    · exact setWord_samePlace _ _ _
    · exact ⟨rfl, rfl, rfl, rfl⟩
  · split
    · exact setWord_samePlace _ _ _
    · exact ⟨rfl, rfl, rfl, rfl⟩
  · exact ⟨rfl, rfl, rfl, rfl⟩

theorem takeExclusive_sound {s : State} (core word : Nat) (h : SoundMemory s) : SoundMemory (takeExclusive s core word) := by
  have h' : SoundMemory (if (holders s word).any (fun h => h.1 != core && h.2 == .modified) then writeBackWord s word else s) := by
    split
    · exact writeBackWord_sound _ h
    · exact h
  refine sound_of h' id (soundBlocks_map _ fun b => ?_) (List.Sublist.refl _) le_rfl
  split
  · exact setWord_samePlace _ _ _
  · split
    · exact setWord_samePlace _ _ _
    · exact ⟨rfl, rfl, rfl, rfl⟩

/-! ## Requests -/

theorem fills_sound {s : State} (l : List Fill) (h : SoundMemory s) : SoundMemory { s with fills := l } :=
  sound_same h rfl rfl rfl le_rfl

theorem sendFill_sound {s : State} (f : Fill) (h : SoundMemory s) : SoundMemory (sendFill s f) := fills_sound _ h

theorem admitFill_sound {s : State} (slice : Nat) (h : SoundMemory s) : SoundMemory (admitFill s slice) := by
  unfold admitFill
  split
  · exact h
  · split
    · exact fills_sound _ h
    · exact h

theorem askRun_sound {s : State} (core frame lo hi lp hint : Nat) (excl repl : Bool) (h : SoundMemory s) :
    SoundMemory (askRun s core frame lo hi lp hint excl repl) := by
  unfold askRun
  split
  · exact h
  · exact sendFill_sound _ h

theorem answerFor_sound {s : State} (f : Fill) (mine : Nat → Bool) (h : SoundMemory s) : SoundMemory (answerFor s f mine) := by
  have h1 := fills_sound (s.fills.erase f) h
  have h2 := sound_fold (fun s w => if mine w then takeExclusive s f.core w else downgrade s w)
    (fun s w h => by
      split
      · exact takeExclusive_sound _ _ h
      · exact downgrade_sound _ h) ((List.range f.len).map fun i => 16 * f.frame + f.start + i) _ h1
  have h3 := sound_fold (fun s w => hitHint s (512 + f.slice) w f.hint) (fun _ _ h => hitHint_sound _ _ _ h)
    ((List.range f.len).map fun i => 16 * f.frame + f.start + i) _ h2
  unfold answerFor
  dsimp only
  split_ifs <;> (repeat' apply fillRun_sound) <;> exact h3

theorem answerFill_sound {s : State} (f : Fill) (h : SoundMemory s) : SoundMemory (answerFill s f) := answerFor_sound _ _ h

theorem askPend_sound {s : State} (e : Pend) (h : SoundMemory s) : SoundMemory (askPend s e) := by
  unfold askPend
  split
  · exact h
  · exact sendFill_sound _ h

/-! ## The stores that an L1 holds -/

theorem dropPends_sound {s : State} (l : List Pend) (hl : l.Sublist s.pend) (h : SoundMemory s) : SoundMemory { s with pend := l } :=
  sound_of h id id hl le_rfl

theorem known_sound {s : State} (l : List (Nat × Nat)) (h : SoundMemory s) : SoundMemory { s with known := l } := h

theorem performPend_sound {s : State} (e : Pend) (h : SoundMemory s) : SoundMemory (performPend s e) := by
  have h' : SoundMemory (if ownsExclusive s e.core e.word then s else answerFill s ((pendFill s e).getD (pendMiss s e))) := by
    split
    · exact h
    · exact answerFill_sound _ h
  exact gainWord_sound _ _ _ _ (known_sound _ (commitWord_sound _ _ _ (takeExclusive_sound _ _ (dropPends_sound _ List.erase_sublist h'))))

theorem performAll_sound {s : State} (p : Pend → Bool) (h : SoundMemory s) : SoundMemory (performAll s p) := by
  refine sound_fold _ (fun _ _ h => ?_) _ _ h
  split
  · exact h
  · exact performPend_sound _ h

theorem performPends_sound {s : State} (core : Nat) (p : Pend → Bool) (h : SoundMemory s) : SoundMemory (performPends s core p) :=
  performAll_sound _ h

theorem cleanWord_sound {s : State} (core word : Nat) (h : SoundMemory s) : SoundMemory (cleanWord s core word) := by
  unfold cleanWord
  split
  · split
    · exact h
    · exact setHeld_sound _ _ _ (commitWord_sound _ _ _ h)
  · exact h

theorem drainWord_sound {s : State} (core word : Nat) (h : SoundMemory s) : SoundMemory (drainWord s core word) := by
  have h' := cleanWord_sound core word (performPends_sound core (fun e => e.word == word) h)
  unfold drainWord
  dsimp only
  split
  · exact setHeld_sound _ _ _ (writeBackWord_sound _ h')
  · exact h'

theorem dropWord_sound {s : State} (core word : Nat) (h : SoundMemory s) : SoundMemory (dropWord s core word) := dropHeld_sound _ _ h

theorem drainCore_sound {s : State} (core : Nat) (p : Nat → Bool) (h : SoundMemory s) : SoundMemory (drainCore s core p) :=
  sound_fold _ (fun _ _ h => drainWord_sound _ _ h) _ _ (performPends_sound _ _ h)

/-- A store put behind those that are held keeps them in order. -/
theorem addPend_sound {s : State} (e : Pend) (he : e.id = s.nextId) (h : SoundMemory s) :
    SoundMemory { s with pend := s.pend ++ [e], nextId := s.nextId + 1 } := by
  refine ⟨h.1, h.2.1, List.pairwise_append.2 ⟨h.2.2.1, by simp, fun a ha b hb => ?_⟩, fun a ha => ?_⟩
  · obtain rfl := List.mem_singleton.1 hb
    have := h.2.2.2 a ha
    omega
  · rcases List.mem_append.1 ha with ha | ha
    · have := h.2.2.2 a ha
      simp only
      omega
    · obtain rfl := List.mem_singleton.1 ha
      simp only
      omega

theorem l1Store_sound {s : State} (core team word : Nat) (bytes : List (Nat × BitVec 8)) (after since : Nat) (how : StoreHow)
    (via : List (Nat × Nat)) (h : SoundMemory s) : SoundMemory (l1Store s core team word bytes after since how via) := by
  unfold l1Store
  split
  · split
    · exact setHeld_sound _ _ _ h
    · exact gainWord_sound _ _ _ _ (dropHeld_sound _ _ h)
  · dsimp only
    split
    · split
      · refine ⟨h.1, h.2.1, ?_, fun a ha => ?_⟩
        · rw [List.pairwise_map]
          exact h.2.2.1.imp fun {a b} hab => by split <;> split <;> exact hab
        · obtain ⟨x, hx, rfl⟩ := List.mem_map.1 ha
          have := h.2.2.2 x hx
          split <;> exact this
      · exact addPend_sound _ rfl h
    · split
      · exact performPend_sound _ (addPend_sound ⟨s.nextId, core, word, bytes, after, since, via, team, how.hint, how.lp, since⟩ rfl h)
      · exact addPend_sound _ rfl h

theorem drainTile_sound {s : State} (core : Nat) (t : Tenure) (h : SoundMemory s) : SoundMemory (drainTile s core t) :=
  drainCore_sound _ _ h

theorem recallOne_sound {s : State} (t : Tenure) (write : Bool) (h : SoundMemory s) : SoundMemory (recallOne s t write) := by
  unfold recallOne
  dsimp only
  split
  · split
    · exact drainTile_sound _ _ h
    · exact h
  · exact h

theorem restash_sound {s : State} (core : Nat) (h : SoundMemory s) : SoundMemory (restash s core) :=
  sound_fold _ (fun s w h => by
    split
    · exact fillRun_sound _ _ _ _ _ _ (dropHeld_sound _ _ h)
    · exact h) _ _ h

theorem unstash_sound {s : State} (core : Nat) (h : SoundMemory s) : SoundMemory (unstash s core) :=
  sound_fold _ (fun _ _ h => dropWord_sound _ _ (drainWord_sound _ _ h)) _ _ h

end Sys2Proof.Machine.Laws
end

