-- ==== Sys2Proof/Laws/Waves.lean ====
section
/-! SUPPORT. Registers of a wave: what a read after a write gives; and what an instruction that retires leaves alone. -/

namespace Sys2Proof.Machine.Laws

/-! ## Threads of a mask -/

theorem mem_threads (m : BitVec 32) (t : Nat) : t ∈ threads m ↔ t < 32 ∧ m.getLsbD t = true := by
  simp [threads]

theorem lt_of_mem_threads {m : BitVec 32} {t : Nat} (h : t ∈ threads m) : t < 32 := ((mem_threads m t).1 h).1

theorem key_inj {r t r' t' : Nat} (ht : t < 32) (ht' : t' < 32) : 32 * r + t = 32 * r' + t' ↔ r = r' ∧ t = t' := by
  omega

/-! ## Register reads after register writes -/

theorem getV_setV (w : Wave) (r t r' t' : Nat) (x : Word) (ht : t < 32) (ht' : t' < 32) :
    (w.setV r t x).getV r' t' = if r' = r ∧ t' = t then x else w.getV r' t' := by
  simp only [Wave.setV, Wave.getV, get_put, key_inj ht' ht]

theorem bad_setV (w : Wave) (r t r' t' : Nat) (x : Word) (ht : t < 32) (ht' : t' < 32) :
    get false (w.setV r t x).vBad (32 * r' + t') = if r' = r ∧ t' = t then false else get false w.vBad (32 * r' + t') := by
  simp only [Wave.setV]
  split
  · next h => rw [(key_inj ht' ht).2 h, get_del_same]
  · next h => exact get_del_other _ _ fun e => h ((key_inj ht' ht).1 e)

theorem getV_setVs (w : Wave) (r : Nat) (ts : List Nat) (f : Nat → Word) (r' t' : Nat) (hts : ∀ t ∈ ts, t < 32) (ht' : t' < 32) :
    (w.setVs r ts f).getV r' t' = if r' = r ∧ t' ∈ ts then f t' else w.getV r' t' := by
  unfold Wave.setVs
  induction ts generalizing w with
  | nil => simp
  | cons t ts ih =>
    rw [List.foldl_cons, ih _ fun u hu => hts u (by simp [hu])]
    rw [getV_setV _ _ _ _ _ _ (hts t (by simp)) ht']
    by_cases h1 : r' = r <;> by_cases h2 : t' ∈ ts <;> by_cases h3 : t' = t <;> simp [h1, h2, h3]

theorem bad_setVs (w : Wave) (r : Nat) (ts : List Nat) (f : Nat → Word) (r' t' : Nat) (hts : ∀ t ∈ ts, t < 32) (ht' : t' < 32) :
    get false (w.setVs r ts f).vBad (32 * r' + t') =
      if r' = r ∧ t' ∈ ts then false else get false w.vBad (32 * r' + t') := by
  unfold Wave.setVs
  induction ts generalizing w with
  | nil => simp
  | cons t ts ih =>
    rw [List.foldl_cons, ih _ fun u hu => hts u (by simp [hu])]
    rw [bad_setV _ _ _ _ _ _ (hts t (by simp)) ht']
    by_cases h1 : r' = r <;> by_cases h2 : t' ∈ ts <;> by_cases h3 : t' = t <;> simp [h1, h2, h3]

theorem getS_setS (w : Wave) (r r' : Nat) (x : Word) : (w.setS r x).getS r' = if r' = r then x else w.getS r' := by
  simp only [Wave.setS, Wave.getS, get_put]

theorem getA_setA (w : Wave) (r t r' t' : Nat) (x : BitVec 128) (ht : t < 32) (ht' : t' < 32) :
    (w.setA r t x).getA r' t' = if r' = r ∧ t' = t then x else w.getA r' t' := by
  simp only [Wave.setA, Wave.getA, get_put, key_inj ht' ht]

theorem getA_setAs (w : Wave) (r : Nat) (ts : List Nat) (f : Nat → BitVec 128) (r' t' : Nat) (hts : ∀ t ∈ ts, t < 32)
    (ht' : t' < 32) : (w.setAs r ts f).getA r' t' = if r' = r ∧ t' ∈ ts then f t' else w.getA r' t' := by
  unfold Wave.setAs
  induction ts generalizing w with
  | nil => simp
  | cons t ts ih =>
    rw [List.foldl_cons, ih _ fun u hu => hts u (by simp [hu])]
    rw [getA_setA _ _ _ _ _ _ (hts t (by simp)) ht']
    by_cases h1 : r' = r <;> by_cases h2 : t' ∈ ts <;> by_cases h3 : t' = t <;> simp [h1, h2, h3]

theorem getP_setP (w : Wave) (p t p' t' : Nat) (b : Bool) (hp : p ≠ 7) (ht : t < 32) (ht' : t' < 32) :
    (w.setP p t b).getP p' t' = if p' = p ∧ t' = t then b else w.getP p' t' := by
  unfold Wave.setP Wave.getP
  rw [if_neg hp]
  by_cases h7 : p' = 7
  · subst h7
    simp [Ne.symm hp]
  · simp only [h7, if_false, get_put, key_inj ht' ht]

theorem getP_setPs (w : Wave) (p : Nat) (ts : List Nat) (f : Nat → Bool) (p' t' : Nat) (hp : p ≠ 7) (hts : ∀ t ∈ ts, t < 32)
    (ht' : t' < 32) : (w.setPs p ts f).getP p' t' = if p' = p ∧ t' ∈ ts then f t' else w.getP p' t' := by
  unfold Wave.setPs
  induction ts generalizing w with
  | nil => simp
  | cons t ts ih =>
    rw [List.foldl_cons, ih _ fun u hu => hts u (by simp [hu])]
    rw [getP_setP _ _ _ _ _ _ hp (hts t (by simp)) ht']
    by_cases h1 : p' = p <;> by_cases h2 : t' ∈ ts <;> by_cases h3 : t' = t <;> simp [h1, h2, h3]

/-! ## What a write leaves of the rest of the wave -/

theorem setVs_eq (w : Wave) (r : Nat) (ts : List Nat) (f : Nat → Word) :
    w.setVs r ts f = { w with v := (w.setVs r ts f).v, vBad := (w.setVs r ts f).vBad, vDirty := (w.setVs r ts f).vDirty } := by
  unfold Wave.setVs
  induction ts generalizing w with
  | nil => rfl
  | cons t ts ih =>
    rw [List.foldl_cons, ih]
    rfl

theorem setAs_eq (w : Wave) (r : Nat) (ts : List Nat) (f : Nat → BitVec 128) :
    w.setAs r ts f = { w with a := (w.setAs r ts f).a, aBad := (w.setAs r ts f).aBad, aDirty := (w.setAs r ts f).aDirty } := by
  unfold Wave.setAs
  induction ts generalizing w with
  | nil => rfl
  | cons t ts ih =>
    rw [List.foldl_cons, ih]
    rfl

theorem setPs_eq (w : Wave) (p : Nat) (ts : List Nat) (f : Nat → Bool) :
    w.setPs p ts f = { w with p := (w.setPs p ts f).p } := by
  unfold Wave.setPs
  induction ts generalizing w with
  | nil => rfl
  | cons t ts ih =>
    rw [List.foldl_cons, ih]
    unfold Wave.setP
    split <;> rfl

theorem useV_eq (ts : List Nat) (srcs : List (Nat × Nat)) (w : Wave) :
    useV ts srcs w = { w with v := (useV ts srcs w).v, vBad := (useV ts srcs w).vBad, vDirty := (useV ts srcs w).vDirty } := by
  unfold useV
  induction srcs generalizing w with
  | nil => rfl
  | cons p l ih =>
    rw [List.foldl_cons]
    by_cases hp : p.2 = 1
    · simp only [hp, if_true]
      rw [ih, setVs_eq]
    · simp only [hp, if_false]
      exact ih w

theorem getV_useV (ts : List Nat) (srcs : List (Nat × Nat)) (w : Wave) (r t : Nat) (hts : ∀ t ∈ ts, t < 32) (ht : t < 32) :
    (useV ts srcs w).getV r t = if t ∈ ts ∧ (r, 1) ∈ srcs then poisonValue r else w.getV r t := by
  unfold useV
  induction srcs generalizing w with
  | nil => simp
  | cons p l ih =>
    obtain ⟨a, b⟩ := p
    rw [List.foldl_cons, ih]
    by_cases hb : b = 1
    · subst hb
      simp only [if_true, getV_setVs _ _ _ _ _ _ hts ht, List.mem_cons, Prod.mk.injEq, and_true]
      by_cases h1 : t ∈ ts <;> by_cases h2 : (r, 1) ∈ l <;> by_cases h3 : r = a <;> simp [h1, h2, h3]
    · have hb' : ¬ (1 = b) := fun h => hb h.symm
      simp only [hb, if_false, List.mem_cons, Prod.mk.injEq, hb', and_false, false_or]

theorem getS_useS (srcs : List (Nat × Nat)) (w : Wave) (r : Nat) :
    (useS srcs w).getS r = if (r, 1) ∈ srcs then poisonValue r else w.getS r := by
  unfold useS
  induction srcs generalizing w with
  | nil => simp
  | cons p l ih =>
    obtain ⟨a, b⟩ := p
    rw [List.foldl_cons, ih]
    by_cases hb : b = 1
    · subst hb
      simp only [if_true, getS_setS, List.mem_cons, Prod.mk.injEq, and_true]
      by_cases h2 : (r, 1) ∈ l <;> by_cases h3 : r = a <;> simp [h2, h3]
    · have hb' : ¬ (1 = b) := fun h => hb h.symm
      simp only [hb, if_false, List.mem_cons, Prod.mk.injEq, hb', and_false, false_or]

theorem useS_eq (srcs : List (Nat × Nat)) (w : Wave) :
    useS srcs w = { w with s := (useS srcs w).s, sBad := (useS srcs w).sBad } := by
  unfold useS
  induction srcs generalizing w with
  | nil => rfl
  | cons p l ih =>
    rw [List.foldl_cons]
    by_cases hp : p.2 = 1
    · simp only [hp, if_true]
      rw [ih]
      rfl
    · simp only [hp, if_false]
      exact ih w

/-- A wave settles only in its state, block and selection. -/
theorem settle_eq (w : Wave) : w.settle = { w with state := w.settle.state, block := w.settle.block, sel := w.settle.sel } := by
  unfold Wave.settle
  split <;> rfl

@[simp] theorem settle_id (w : Wave) : w.settle.id = w.id := by rw [settle_eq]

/-! ## Operand checks -/

theorem illegalRegs_none {c : Issue} {vs as : List Nat} (h : Declared c vs as) : illegalRegs c vs as = none := by
  unfold illegalRegs
  rw [if_pos]
  simp only [Bool.and_eq_true, List.all_eq_true, decide_eq_true_eq]
  exact h

theorem poisonRegs_none {c : Issue} {vs ss as : List Nat} (h : Unpoisoned c vs ss as) : poisonRegs c vs ss as = none := by
  unfold poisonRegs
  rw [if_neg]
  · have : (threads c.mask).find? (fun t =>
        (vs.any fun r => get false c.w.vBad (32 * r + t)) || (as.any fun r => get false c.w.aBad (32 * r + t))) = none := by
      rw [List.find?_eq_none]
      intro t ht
      simp only [Bool.or_eq_true, List.any_eq_true, not_or, not_exists, not_and, Bool.not_eq_true]
      exact ⟨(h.2 t ht).1, (h.2 t ht).2⟩
    rw [this]
  · simp only [List.any_eq_true, not_exists, not_and, Bool.not_eq_true]
    exact h.1

/-! ## Issue and retirement -/

theorem issuing_s {s : State} {c : Issue} (h : issuing s = some c) : c.s = s := by
  unfold issuing at h
  split at h
  · simp at h
  · split at h
    · split at h
      · split at h
        · simp only [Option.some.injEq] at h
          rw [← h]
        · simp at h
      · simp at h
    · simp at h

theorem issuing_wave {s : State} {c : Issue} (h : issuing s = some c) : s.wave? c.w.id = some c.w := by
  unfold issuing at h
  split at h
  · simp at h
  · next w hw =>
    split at h
    · split at h
      · split at h
        · simp only [Option.some.injEq] at h
          rw [← h]
          have hid : w.id = s.cur := by
            have := List.find?_some hw
            simpa using this
          simpa [hid] using hw
        · simp at h
      · simp at h
    · simp at h

theorem wave?_setWave_same {s : State} {w x : Wave} (h : s.wave? w.id = some x) : (s.setWave w).wave? w.id = some w := by
  unfold State.wave? at *
  unfold State.setWave
  simp only
  generalize s.waves = l at h
  induction l with
  | nil => simp at h
  | cons y l ih =>
    by_cases hy : y.id = w.id
    · simp [hy]
    · rw [List.find?_cons_of_neg (by simpa using hy)] at h
      rw [List.map_cons, if_neg hy, List.find?_cons_of_neg (by simpa using hy)]
      exact ih h

theorem wave?_setWave_other {s : State} {w : Wave} {i : Nat} (h : i ≠ w.id) : (s.setWave w).wave? i = s.wave? i := by
  unfold State.wave? State.setWave
  simp only
  induction s.waves with
  | nil => rfl
  | cons y l ih =>
    by_cases hy : y.id = w.id
    · have h1 : (w.id == i) = false := beq_eq_false_iff_ne.2 (Ne.symm h)
      have h2 : (y.id == i) = false := by rw [hy]; exact h1
      rw [List.map_cons, if_pos hy, List.find?_cons, List.find?_cons, h1, h2]
      exact ih
    · simp only [List.map_cons, hy, if_false, List.find?_cons]
      split
      · rfl
      · exact ih

/-- An instruction that retires with nothing but its wave changed. -/
theorem retire_onlyWave {s : State} {c : Issue} {len : Nat} (h : Runs s c len) (w : Wave) (n : Nat) (hw : w.id = c.w.id) :
    OnlyWave s (retire c c.s w n) c (advance c w.count n).settle := by
  have hs := issuing_s h.issues
  have hid : (advance c w.count n).settle.id = c.w.id := by simpa [advance, Wave.count] using hw
  unfold retire watchdogCheck
  rw [if_neg h.left, hs]
  refine ⟨?_, fun i hi => ?_, rfl⟩
  · rw [← hid]
    refine wave?_setWave_same (x := c.w) ?_
    rw [hid]
    exact (issuing_wave h.issues : s.wave? c.w.id = some c.w)
  · rw [wave?_setWave_other (by rw [hid]; exact hi)]
    rfl

theorem moved_retire (c : Issue) (w : Wave) (n : Nat) (hl : w.left = c.w.left) (hr : w.retired = c.w.retired) :
    Moved c w (advance c w.count n).settle := by
  unfold Moved
  rw [settle_eq]
  simp [advance, Wave.count, hl, hr]

/-- A thread stands, among the entries that `addEntry` leaves, where it stood, or at the entry added. -/
theorem standsAt_addEntry (l : List Entry) (e : Entry) (th p q : Nat) :
    StandsAt (addEntry l e) th p q ↔ StandsAt l th p q ∨ (e.mask.getLsbD th = true ∧ e.prio = p ∧ e.pc = q) := by
  have h0 : e.mask.getLsbD th = true → e.mask ≠ 0 := fun h h' => by rw [h'] at h; simp at h
  induction l with
  | nil =>
    unfold addEntry
    split
    · next h => exact ⟨fun ⟨_, hx, _⟩ => by simp at hx, fun hx => hx.elim (fun ⟨_, hx, _⟩ => by simp at hx) fun hx => absurd h (h0 hx.1)⟩
    · exact ⟨fun ⟨x, hx, hy⟩ => .inr (by rw [List.mem_singleton] at hx; rwa [hx] at hy),
        fun hx => hx.elim (fun ⟨_, hx, _⟩ => by simp at hx) fun hx => ⟨e, by simp, hx⟩⟩
  | cons x l ih =>
    have hc : ∀ y l', StandsAt (y :: l') th p q ↔ (y.mask.getLsbD th = true ∧ y.prio = p ∧ y.pc = q) ∨ StandsAt l' th p q := fun y l' => by
      simp [StandsAt]
    unfold addEntry
    split
    · next h => exact ⟨.inl, fun hx => hx.elim id fun hx => absurd h (h0 hx.1)⟩
    · split
      · next h =>
        rw [hc, hc, ← h.1, ← h.2]
        show ((x.mask ||| e.mask).getLsbD th = true ∧ x.prio = p ∧ x.pc = q) ∨ _ ↔ _
        rw [BitVec.getLsbD_or, Bool.or_eq_true, or_right_comm, or_and_right]
      · split
        · rw [hc, or_comm]
        · rw [hc, hc, or_assoc]
          exact or_congr Iff.rfl ih

/-- Where threads stand once those of a mask have left. -/
theorem standsAt_dropThreads (l : List Entry) (m : BitVec 32) {th : Nat} (hth : th < 32) (p q : Nat) :
    StandsAt (dropThreads l m) th p q ↔ m.getLsbD th = false ∧ StandsAt l th p q := by
  constructor
  · rintro ⟨e, he, h1, h2, h3⟩
    obtain ⟨e', he', rfl⟩ := List.mem_map.1 (List.mem_filter.1 he).1
    simp only [BitVec.getLsbD_and, BitVec.getLsbD_not, hth, decide_true, Bool.true_and, Bool.and_eq_true, Bool.not_eq_true'] at h1
    exact ⟨h1.2, e', he', h1.1, h2, h3⟩
  · rintro ⟨hm, e, he, h1, h2, h3⟩
    have hb : (e.mask &&& ~~~m).getLsbD th = true := by simp only [BitVec.getLsbD_and, BitVec.getLsbD_not, h1, hm, hth]; rfl
    refine ⟨_, List.mem_filter.2 ⟨List.mem_map.2 ⟨e, he, rfl⟩, ?_⟩, hb, h2, h3⟩
    simp only [bne_iff_ne, ne_eq]
    exact fun h => by rw [h] at hb; simp at hb

/-- Where threads stand once those of a mask have moved. -/
theorem standsAt_moveThreads (l : List Entry) (m : BitVec 32) (prio pc : Nat) (ctx : Option Ctx) {th : Nat} (hth : th < 32) (p q : Nat) :
    StandsAt (moveThreads l m prio pc ctx) th p q ↔ if m.getLsbD th then p = prio ∧ q = pc else StandsAt l th p q := by
  unfold moveThreads
  rw [standsAt_addEntry, standsAt_dropThreads _ _ hth]
  cases m.getLsbD th <;> simp [eq_comm]

/-- The active threads of an issue stand past an ordinary instruction once it has retired. -/
theorem advance_jumped (c : Issue) (w : Wave) (hw : w.frontier = c.w.frontier) (len : Nat) :
    Jumped c (advance c w.count len).settle c.e.prio fun _ => c.e.pc + len := by
  intro th hth p q
  rw [settle_eq, ← hw]
  exact standsAt_moveThreads _ _ _ _ _ hth _ _

/-- What an issue comes to, once it stands in its clause body. -/
theorem issue_runs {s : State} {c : Issue} {len : Nat} {ok : Bool} (h : Runs s c len) (hok : ok = true)
    (eff : Issue → Except Flt State) :
    issue s ok len eff = match eff c with
      | .ok s' => .next s'
      | .error f => .next (takeFault c f) := by
  obtain ⟨x, hx, hb⟩ := h.body
  unfold issue
  rw [h.issues]
  simp only [hx, hok, Bool.true_and, decide_eq_true hb, if_true]
  all_goals rfl

/-- A vector instruction with its operands declared and unpoisoned. -/
theorem vecEff_ok {c : Issue} {len d : Nat} {srcs : List (Nat × Nat)} {plain : List Nat} {adv : Bool}
    {f : Nat → Word × Sticky} (h1 : Declared c (d :: (srcs.map (·.1) ++ plain)) [])
    (h2 : Unpoisoned c (srcs.map (·.1) ++ plain) [] []) :
    vecEff c len d srcs plain adv f = .ok (retire c c.s
      (((useV (threads c.mask) srcs (stepSeed adv c.w)).setVs d (threads c.mask) fun t => (f t).1).raise
        (orAll ((threads c.mask).map fun t => (f t).2))) len) := by
  unfold vecEff guarded
  simp only [illegalRegs_none h1, poisonRegs_none h2, firstFault]

/-- The spec of every vector instruction: its form, once its operands are declared and unpoisoned. -/
theorem vec_done {i : Instr} {s : State} {c : Issue} {len d : Nat} {srcs : List (Nat × Nat)} {plain used : List Nat}
    {adv : Bool} {f : Nat → Word × Sticky} {fl : Sticky} {seed : Word} {R : Nat → Word → Prop} (h : Runs s c len)
    (he : exec i s = match vecEff c len d srcs plain adv f with
      | .ok s' => .next s'
      | .error e => .next (takeFault c e))
    (h1 : Declared c (d :: (srcs.map (·.1) ++ plain)) []) (h2 : Unpoisoned c (srcs.map (·.1) ++ plain) [] [])
    (hu : ∀ r, r ∈ used ↔ (r, 1) ∈ srcs) (hf : fl = allFlags c fun t => (f t).2)
    (hseed : seed = if adv then seedStep c.w.seed else c.w.seed)
    (hR : ∀ t, t < 32 → c.mask.getLsbD t = true → R t (f t).1) : VecDone i s c len d used fl seed R := by
  rw [vecEff_ok h1 h2] at he
  have hlt : ∀ t ∈ threads c.mask, t < 32 := fun t ht => lt_of_mem_threads ht
  refine ⟨_, _, he, retire_onlyWave h _ _ ?_, ⟨?_, advance_jumped c _ ?_ len⟩, ?_⟩
  · rw [Wave.raise, setVs_eq, useV_eq]
    cases adv <;> rfl
  · unfold Moved
    rw [settle_eq]
    simp only [advance, Wave.count, Wave.raise]
    rw [setVs_eq, useV_eq]
    cases adv <;> simp_all [stepSeed, allFlags]
  · rw [Wave.raise, setVs_eq, useV_eq]
    cases adv <;> rfl
  · intro r th hth
    have hv : ∀ r, (advance c ((((useV (threads c.mask) srcs (stepSeed adv c.w)).setVs d (threads c.mask) fun t => (f t).1).raise
        (orAll ((threads c.mask).map fun t => (f t).2)))).count len).settle.getV r th =
        ((useV (threads c.mask) srcs (stepSeed adv c.w)).setVs d (threads c.mask) fun t => (f t).1).getV r th := by
      intro r
      rw [settle_eq]
      rfl
    have hb : (advance c ((((useV (threads c.mask) srcs (stepSeed adv c.w)).setVs d (threads c.mask) fun t => (f t).1).raise
        (orAll ((threads c.mask).map fun t => (f t).2)))).count len).settle.vBad =
        ((useV (threads c.mask) srcs (stepSeed adv c.w)).setVs d (threads c.mask) fun t => (f t).1).vBad := by
      rw [settle_eq]
      rfl
    have hs : ∀ r, (stepSeed adv c.w).getV r th = c.w.getV r th := by
      intro r
      cases adv <;> rfl
    rw [hv, hb, getV_setVs _ _ _ _ _ _ hlt hth, bad_setVs _ _ _ _ _ _ hlt hth, getV_useV _ _ _ _ _ hlt hth, hs]
    have hm : th ∈ threads c.mask ↔ c.mask.getLsbD th = true := by simp [mem_threads, hth]
    by_cases ha : c.mask.getLsbD th = true
    · by_cases hd : r = d
      · simp only [ha, hd, hm, and_self, if_true, and_true]
        exact hR th hth ha
      · by_cases hr : r ∈ used
        · rw [if_neg (fun x => hd x.2), if_pos ⟨ha, hr⟩, if_neg (fun x => hd x.1), if_pos ⟨hm.2 ha, (hu r).1 hr⟩]
        · rw [if_neg (fun x => hd x.2), if_neg (fun x => hr x.2), if_neg (fun x => hd x.1), if_neg fun x => hr ((hu r).2 x.2)]
    · rw [if_neg (fun x => ha x.1), if_neg (fun x => ha x.1), if_neg (fun x => ha (hm.1 x.2)), if_neg fun x => ha (hm.1 x.1)]

end Sys2Proof.Machine.Laws
end

