-- ==== Sys2Proof/Laws/Issue.lean ====
section
/-! SUPPORT. What each way to end an issue comes to: a uniform result, a fault taken, a stall, an operation put in flight, and an
operation that completes. -/

namespace Sys2Proof.Machine.Laws

/-! ## Retirement -/

/-- An instruction that retires with instructions left before its watchdog. -/
theorem retire_eq {c : Issue} (h : c.w.left ≠ 0) (s : State) (w : Wave) (len : Nat) :
    retire c s w len = s.awake.setWave (advance c w.count len).settle := by
  unfold retire watchdogCheck
  rw [if_neg h]

/-- As `retire_eq`, where the instruction has moved its threads itself. -/
theorem retireMoved_eq {c : Issue} (h : c.w.left ≠ 0) (s : State) (w : Wave) :
    retireMoved c s w = s.awake.setWave w.count.settle := by
  unfold retireMoved watchdogCheck
  rw [if_neg h]

/-- A lone wave makes an operation performed once as any other. -/
theorem once_solo {c : Issue} (h : c.w.role = .solo) (vs ss : List Nat) (k : Except Flt State) : once c vs ss k = k := by
  unfold once Issue.twin lvqFull
  simp [h]

theorem retireOnce_solo {c : Issue} (h : c.w.role = .solo) (s : State) (f : Wave → Wave) (len : Nat) :
    retireOnce c s f len = retire c s (f c.w) len := by
  unfold retireOnce Issue.twin
  simp only [h]

theorem ahead_solo {c : Issue} (h : c.w.role = .solo) : c.ahead = false := by
  unfold Issue.ahead
  simp only [h]

/-! ## Uniform instructions -/

theorem badS_setS (w : Wave) (r r' : Nat) (x : Word) :
    get false (w.setS r x).sBad r' = if r' = r then false else get false w.sBad r' := by
  simp only [Wave.setS]
  split
  · next h => rw [h, get_del_same]
  · next h => exact get_del_other _ _ h

/-- The spec of every uniform instruction, once its sources are unpoisoned. -/
theorem uni_done {i : Instr} {s : State} {c : Issue} {len d : Nat} {srcs : List (Nat × Nat)} {plain used : List Nat}
    {x : Word} {R : Word → Prop} (h : Runs s c len)
    (he : exec i s = match uniEff c len d srcs plain x with
      | .ok s' => .next s'
      | .error e => .next (takeFault c e))
    (h2 : Unpoisoned c [] (srcs.map (·.1) ++ plain) []) (hu : ∀ r, r ∈ used ↔ (r, 1) ∈ srcs) (hR : R x) :
    UniDone i s c len d used R := by
  unfold uniEff guarded at he
  simp only [poisonRegs_none h2, firstFault] at he
  refine ⟨_, _, he, retire_onlyWave h _ _ ?_, ⟨?_, advance_jumped c _ ?_ len⟩, fun r => ?_⟩
  · rw [useS_eq]
    rfl
  · unfold Moved
    rw [settle_eq, useS_eq]
    rfl
  · rw [useS_eq]
    rfl
  · have hv : ∀ r, (advance c ((useS srcs c.w).setS d x).count len).settle.getS r = ((useS srcs c.w).setS d x).getS r := by
      intro r
      rw [settle_eq]
      rfl
    have hb : (advance c ((useS srcs c.w).setS d x).count len).settle.sBad = ((useS srcs c.w).setS d x).sBad := by
      rw [settle_eq]
      rfl
    rw [hv, hb, getS_setS, badS_setS, getS_useS]
    by_cases hd : r = d
    · simpa [hd] using hR
    · by_cases hr : r ∈ used
      · rw [if_neg hd, if_neg hd, if_pos hr, if_pos ((hu r).1 hr)]
      · rw [if_neg hd, if_neg hd, if_neg hr, if_neg fun y => hr ((hu r).2 y)]

/-! ## Faults -/

/-- A lone wave parks by itself. -/
theorem park_solo (s : State) {w : Wave} (h : w.role = .solo) : park s w = s.setWave w.parkHere := by
  have hl : ∀ (s : State) (l : Wave), l.role = .solo → laggard? s l = none := fun s l hl => by simp [laggard?, hl]
  have hp : w.partner? = none := by simp [Wave.partner?, h]
  unfold park
  rw [hp]
  unfold together
  rw [h]
  dsimp only
  split
  · rename_i l hw
    have hr : l.role = .solo := by
      have hm := List.find?_some hw
      obtain ⟨y, -, rfl⟩ := List.mem_map.1 (List.mem_of_find?_eq_some hw)
      have hi : w.parkHere.id = w.id := by unfold Wave.parkHere; split <;> rfl
      simp only [beq_iff_eq] at hm
      split at hm
      · rw [if_pos (by assumption)]
        unfold Wave.parkHere
        split <;> exact h
      · next hne => exact absurd (hm.trans hi.symm) hne
    simp only [hl _ _ hr, Option.isSome_none, Bool.false_eq_true, if_false]
    split <;> rfl
  · rfl

/-- The spec of taking a fault that is neither POISON, LOST nor MISMATCH, for a lone wave. -/
theorem fault_taken {i : Instr} {s : State} {c : Issue} {f : Flt} (hc : issuing s = some c) (hr : c.w.role = .solo)
    (hs : c.w.state ≠ .retired) (hf : f.code ≠ .poison ∧ f.code ≠ .lost ∧ f.code ≠ .mismatch)
    (he : exec i s = .next (takeFault c f)) : FaultTaken i s c f.code f.thread f.addr := by
  have hS := issuing_s hc
  have ht : takeFault c f = ((s.awake.setWave c.w.parkHere).addRec (c.record 0 f.code.num f.thread c.e.pc f.addr 0)) := by
    unfold takeFault takeFaultNow Issue.ownBusy
    simp [ahead_solo hr, hr, park_solo _ hr, hf.1, hf.2.1, hf.2.2, hS]
  have hid : c.w.parkHere.id = c.w.id := by simp [Wave.parkHere, hs]
  refine ⟨_, he.trans (by rw [ht]), ?_, fun j hj => ?_, ?_⟩
  · have := wave?_setWave_same (s := s.awake) (w := c.w.parkHere) (x := c.w) (by rw [hid]; exact (issuing_wave hc : s.wave? c.w.id = some c.w))
    rw [hid] at this
    simpa [State.addRec, State.wave?, Wave.parkHere, hs] using this
  · exact wave?_setWave_other (s := s.awake) (by rw [hid]; exact hj)
  · rfl

/-- An instruction with a reserved field, outside a body or past its end takes ILLEGAL. -/
theorem issue_illegal {s : State} {c : Issue} {len : Nat} {ok : Bool} {eff : Issue → Except Flt State}
    (hc : issuing s = some c) (h : ok = false ∨ c.e.ctx = none ∨ ∃ x, c.e.ctx = some x ∧ x.endPc < c.e.pc + len) :
    issue s ok len eff = .next (takeFault c ⟨.illegal, c.low, 0⟩) := by
  unfold issue
  simp only [hc]
  split
  · rfl
  · next x hx =>
    rw [if_neg]
    rcases h with h | h | ⟨y, hy, h⟩
    · simp [h]
    · simp [h] at hx
    · rw [hx] at hy
      cases hy
      simp
      omega

/-! ## Operations put in flight -/

theorem getF_setF (w : Wave) (n x f : Nat) : (w.setF n x).getF f = if f = n then x else w.getF f := by
  simp only [Wave.setF, Wave.getF, get_put]

/-- The spec of putting an operation in flight: the state that is left behind it, whose waves are those of `s`, and its flag up. -/
theorem op_issued {i : Instr} {s s0 : State} {c : Issue} {o : Op} {used : List (Nat × Nat)} {K : OpKind → Prop}
    (h : Runs s c 4) (hr : s0.waves = s.waves)
    (he : exec i s = .next (retire c (s0.addOp o) ((useV (threads c.mask) used c.w).flagUp (some o.flag)) 4))
    (ho : o.id = c.s.nextId ∧ o.wave = c.w.id ∧ o.team = c.tm.id) (hK : K o.kind) :
    OpIssued i s s0 c o.flag (used.filter (fun p => p.2 == 1) |>.map (·.1)) K := by
  have hlt : ∀ t ∈ threads c.mask, t < 32 := fun t ht => lt_of_mem_threads ht
  rw [retire_eq h.left] at he
  generalize hW : (advance c (((useV (threads c.mask) used c.w).flagUp (some o.flag)).count) 4).settle = W at he
  have hid : W.id = c.w.id := by
    rw [← hW, settle_id, useV_eq]
    rfl
  have hw : ((s0.addOp o).awake.setWave W).wave? c.w.id = some W := by
    rw [← hid]
    refine wave?_setWave_same (x := c.w) ?_
    rw [hid]
    show s0.waves.find? _ = _
    rw [hr]
    exact issuing_wave h.issues
  refine ⟨_, W, o, he, hw, fun j hj => ?_, ?_, ho.1, ho.2.1, ho.2.2, rfl, hK, ⟨?_, ?_⟩, fun f => ?_, fun r th hth => ?_⟩
  · exact wave?_setWave_other (s := (s0.addOp o).awake) (by rw [hid]; exact hj)
  · rfl
  · unfold Moved
    rw [← hW, settle_eq, useV_eq]
    rfl
  · rw [← hW]
    refine advance_jumped c _ ?_ 4
    rw [useV_eq]
    rfl
  · have hg : W.getF f = ((useV (threads c.mask) used c.w).flagUp (some o.flag)).getF f := by
      rw [← hW, settle_eq]
      rfl
    have hu : ∀ n, (useV (threads c.mask) used c.w).getF n = c.w.getF n := by
      intro n
      rw [useV_eq]
      rfl
    rw [hg]
    simp only [Wave.flagUp, getF_setF, hu]
    by_cases hf : f = o.flag <;> simp [hf]
  · have hg : W.getV r th = (useV (threads c.mask) used c.w).getV r th := by
      rw [← hW, settle_eq]
      rfl
    rw [hg, getV_useV _ _ _ _ _ hlt hth]
    have hm : th ∈ threads c.mask ↔ c.mask.getLsbD th = true := by simp [mem_threads, hth]
    simp [hm]

end Sys2Proof.Machine.Laws
end

