-- ==== Sys2Proof/Laws/Memory.lean ====
section
/-! SUPPORT. Every operation that writes memory keeps the state sound: memory's canonical form among the rest. -/

namespace Sys2Proof.Machine.Laws

/-- Memory after reset is in its canonical form. -/
theorem reset_wf : Memory.wf State.reset.mem = true := rfl

theorem reset_sound : SoundMemory State.reset :=
  ⟨reset_wf, ⟨by simp [State.reset], by simp [State.reset]⟩, by simp [State.reset], by simp [State.reset]⟩

theorem bump_sound {s : State} (h : SoundMemory s) : SoundMemory s.bump := h

theorem updTeam_sound {s : State} (i : Nat) (f : Team → Team) (h : SoundMemory s) : SoundMemory (s.updTeam i f) := h

theorem setWave_sound {s : State} (w : Wave) (h : SoundMemory s) : SoundMemory (s.setWave w) := h

theorem redHome_sound {s : State} (op : AtomOp) (size loc x y : Nat) (h : SoundMemory s) : SoundMemory (redHome s op size loc x y) := by
  unfold redHome
  split
  · exact commitWord_sound _ _ _ (bump_sound h)
  · split
    · exact writeHomeN_sound _ _ _ h
    · exact h

/-! ## Translation -/

theorem physPut_sound {s : State} (secure : Bool) (pa n x : Nat) (h : SoundMemory s) : SoundMemory (physPut s secure pa n x) := by
  unfold physPut
  split
  · exact writeHomeN_sound _ _ _ h
  · exact h

theorem homeWord_sound {s : State} (core word : Nat) (bytes : List (Nat × BitVec 8)) (mk : Mark) (h : SoundMemory s) :
    SoundMemory (homeWord s core word bytes mk) :=
  commitWord_sound _ _ _ (dropWord_sound _ _ (drainWord_sound _ _ h))

theorem fillTlb_sound {s : State} (room : Nat) (t : Tlb) (h : SoundMemory s) : SoundMemory (fillTlb s room t) := by
  unfold fillTlb
  dsimp only
  split
  · exact h
  · split <;> exact h

theorem rekeyWord_sound {s : State} (old new word : Nat) (h : SoundMemory s) : SoundMemory (rekeyWord old new s word) :=
  sound_of h (wf_foldl _ _ _ _) id (List.Sublist.refl _) le_rfl

theorem rekeyPage_sound {s : State} (page new : Nat) (h : SoundMemory s) : SoundMemory (rekeyPage s page new) := by
  unfold rekeyPage
  generalize List.range 4096 = l
  dsimp only
  split
  · exact h
  · exact sound_fold _ (fun _ _ h => rekeyWord_sound _ _ _ h) _ _ h

theorem useKey_sound {s : State} (x : Xl) (h : SoundMemory s) : SoundMemory (useKey s x) := by
  unfold useKey
  split
  · exact h
  · exact rekeyPage_sound _ _ h

theorem noteStash_sound {s : State} (core ctx vpage ppage : Nat) (h : SoundMemory s) : SoundMemory (noteStash s core ctx vpage ppage) := by
  unfold noteStash
  dsimp only
  split
  · exact restash_sound _ h
  · exact h

theorem recallWord_sound {s : State} (team word : Nat) (bytes : List Nat) (h : SoundMemory s) : SoundMemory (recallWord s team word bytes) :=
  sound_fold _ (fun _ _ h => recallOne_sound _ _ h) _ _ h

theorem gens_sound {s : State} (l k : List (Nat × Nat)) (h : SoundMemory s) : SoundMemory { s with gens := l, known := k } := h

theorem markLeaf_sound {s : State} (core loc e : Nat) (h : SoundMemory s) : SoundMemory (markLeaf s core loc e) := by
  unfold markLeaf
  dsimp only
  exact gens_sound _ _ (commitWord_sound _ _ _ (dropWord_sound _ _ (drainWord_sound _ _ (recallWord_sound _ _ _ h))))

theorem touchLeaf_sound {s : State} (core : Nat) (write : Bool) (x : Xl) (h : SoundMemory s) : SoundMemory (touchLeaf s core write x) := by
  unfold touchLeaf
  generalize 2 ^ 7 + (if write then 2 ^ 8 else 0) = want
  have hn : SoundMemory (noteStash (useKey s x) core x.ctx x.vpage (x.loc / 65536)) := noteStash_sound _ _ _ _ (useKey_sound x h)
  generalize noteStash (useKey s x) core x.ctx x.vpage (x.loc / 65536) = s1 at hn ⊢
  have hd : SoundMemory (if x.via.any fun v => s1.pend.any fun e => e.core == core && e.word == v.1 / 16 then
      x.via.foldl (fun s v => drainWord s core (v.1 / 16)) s1 else s1) := by
    split
    · exact sound_fold _ (fun _ _ h => drainWord_sound _ _ h) _ _ hn
    · exact hn
  dsimp only
  generalize (if x.via.any fun v => s1.pend.any fun e => e.core == core && e.word == v.1 / 16 then
      x.via.foldl (fun s v => drainWord s core (v.1 / 16)) s1 else s1) = s2 at hd ⊢
  have hk : SoundMemory (if leNat ((List.range 8).map fun i => coreByte s2 core (x.leafLoc + i)) ||| want =
        leNat ((List.range 8).map fun i => coreByte s2 core (x.leafLoc + i)) then s2
      else markLeaf s2 core x.leafLoc (leNat ((List.range 8).map fun i => coreByte s2 core (x.leafLoc + i)) ||| want)) := by
    split
    · exact hd
    · exact markLeaf_sound _ _ _ hd
  generalize (if leNat ((List.range 8).map fun i => coreByte s2 core (x.leafLoc + i)) ||| want =
        leNat ((List.range 8).map fun i => coreByte s2 core (x.leafLoc + i)) then s2
      else markLeaf s2 core x.leafLoc (leNat ((List.range 8).map fun i => coreByte s2 core (x.leafLoc + i)) ||| want)) = s3 at hk ⊢
  split
  · exact fillTlb_sound _ _ (fillTlb_sound _ _ hk)
  · exact hk

theorem touchLeaves_sound {s : State} (core : Nat) (write : Bool) (xs : List Xl) (h : SoundMemory s) :
    SoundMemory (touchLeaves s core write xs) :=
  sound_fold _ (fun _ _ h => touchLeaf_sound _ _ _ h) _ _ h

/-! ## Releases and recalls -/

theorem drainFor_sound {s : State} (core scope : Nat) (h : SoundMemory s) : SoundMemory (drainFor s core scope) := by
  unfold drainFor
  split
  · exact performPends_sound _ _ h
  · exact h

theorem beforeEngine_sound {s : State} (o : Op) (h : SoundMemory s) : SoundMemory (beforeEngine s o) := by
  unfold beforeEngine
  split
  · exact performPends_sound _ _ h
  · exact h

theorem updPair_sound {s : State} (i : Nat) (f : Wave → Wave) (h : SoundMemory s) : SoundMemory (s.updPair i f) := by
  unfold State.updPair
  split
  · exact h
  · dsimp only
    split <;> exact h

theorem fenced_sound {s : State} (wave core scope : Nat) (h : SoundMemory s) : SoundMemory (fenced s wave core scope) := by
  unfold fenced
  dsimp only
  split
  · exact updPair_sound _ _ (freshen_sound _ h)
  · exact updPair_sound _ _ h

theorem acquired_sound {s : State} (wave core order scope : Nat) (need : Option Nat) (h : SoundMemory s) :
    SoundMemory (acquired s wave core order scope need) := by
  unfold acquired
  split
  · exact h
  · split
    · split
      · exact updPair_sound _ _ (freshenBy_sound _ _ h)
      · exact updPair_sound _ _ h
    · exact fenced_sound _ _ _ h

theorem recallFor_sound {s t : State} {team : Nat} {write : Bool} {locs : List Nat} (h : SoundMemory s)
    (ht : recallFor s team write locs = some t) : SoundMemory t := by
  unfold recallFor at ht
  dsimp only at ht
  split at ht
  · cases ht
  · cases ht
    exact sound_fold _ (fun _ _ h => recallOne_sound _ _ h) _ _ h

theorem flushStamps_sound {s : State} (part : Option Nat) (loc n : Nat) (h : SoundMemory s) : SoundMemory (flushStamps s part loc n) :=
  sound_fold _ (fun _ _ h => sound_fold _ (fun _ _ h => drainCore_sound _ _ h) _ _ h) _ _ h

/-! ## Intervals -/

theorem releaseHeld_sound (t : Team) (l : List Held) {s : State} (kept : Bool) (h : SoundMemory s) : SoundMemory (releaseHeld t kept s l) := by
  induction l generalizing s kept with
  | nil => exact h
  | cons e l ih =>
    cases e
    · simp only [releaseHeld]
      split_ifs
      · exact ih _ (l1Store_sound _ _ _ _ _ _ _ _ h)
      · exact ih _ (l1Store_sound _ _ _ _ _ _ _ _ h)
      · exact ih _ (commitWord_sound _ _ _ (dropWord_sound _ _ (drainWord_sound _ _ h)))
    · exact ih _ (redHome_sound _ _ _ _ _ (dropWord_sound _ _ (drainWord_sound _ _ h)))
    · exact ih _ h

theorem releaseBuffer_sound {s : State} (team : Nat) (h : SoundMemory s) : SoundMemory (releaseBuffer s team) := by
  unfold releaseBuffer
  split
  · exact h
  · exact releaseHeld_sound _ _ _ h

theorem unsafeInterval_sound {s : State} (team reason : Nat) (h : SoundMemory s) : SoundMemory (unsafeInterval s team reason) := by
  unfold unsafeInterval
  split
  · exact h
  · split
    · exact releaseBuffer_sound _ h
    · exact h

theorem unsafely_sound {s : State} (reason : Nat) (h : SoundMemory s) : SoundMemory (unsafely s reason) := by
  unfold unsafely
  split
  · split
    · exact h
    · exact unsafeInterval_sound _ _ h
  · exact h

theorem beginInterval_sound {s : State} (team : Nat) (h : SoundMemory s) : SoundMemory (beginInterval s team) := by
  unfold beginInterval
  split
  · exact h
  · split
    · exact releaseBuffer_sound team h
    · exact h

theorem rollback_sound {s : State} (team addr : Nat) (h : SoundMemory s) : SoundMemory (rollback s team addr) := by
  unfold rollback
  split
  · exact h
  · exact h

/-! ## Accesses -/

theorem storeWord_sound {s : State} (team after since : Nat) (how : StoreHow) (via : List (Nat × Nat)) (word : Nat)
    (bytes : List (Nat × BitVec 8)) (h : SoundMemory s) : SoundMemory (storeWord s team after since how via word bytes) := by
  unfold storeWord
  split
  · exact h
  · rename_i t _
    have hp : ∀ s : State, SoundMemory s → SoundMemory
        (if how.home then homeWord (performPends s t.core fun e => decide (e.id < after)) t.core word bytes .ok
          else l1Store s t.core team word bytes after since how via) := fun s h => by
      split
      · exact homeWord_sound _ _ _ _ (performPends_sound _ _ h)
      · exact l1Store_sound _ _ _ _ _ _ _ _ h
    dsimp only
    split
    · split
      · exact h
      · exact hp _ (unsafeInterval_sound _ _ h)
    · exact hp _ h

theorem storeSp_sound {s : State} (l : List (Nat × Nat × BitVec 8)) (h : SoundMemory s) : SoundMemory (storeSp s l) := by
  unfold storeSp
  split <;> exact h

theorem storeAccess_sound {s : State} (team after since : Nat) (how : StoreHow) (via : List (Nat × Nat)) (a : Access) (v : Nat)
    (h : SoundMemory s) : SoundMemory (storeAccess s team after since how via a v) :=
  storeSp_sound _ (sound_fold _ (fun _ _ h => storeWord_sound _ _ _ _ _ _ _ h) _ _ h)

theorem ownWord_sound {s : State} (core word : Nat) (h : SoundMemory s) : SoundMemory (ownWord s core word) := answerFor_sound _ _ h

theorem atomHome_sound {s : State} (core : Nat) (own : Bool) (op : AtomOp) (size loc x y : Nat) (h : SoundMemory s) :
    SoundMemory (atomHome s core own op size loc x y).1 := by
  have hp := performPends_sound core (fun e => e.word == loc / 16) (flushStamps_sound (some (partOfCore s core)) (16 * (loc / 16)) 16 h)
  unfold atomHome
  dsimp only
  generalize performPends (flushStamps s (some (partOfCore s core)) (16 * (loc / 16)) 16) core (fun e => e.word == loc / 16) = s1 at hp ⊢
  have ho : SoundMemory (if own && !(isSwm s1 loc) && !(ownsExclusive s1 core (loc / 16)) then ownWord s1 core (loc / 16) else s1) := by
    split
    · exact ownWord_sound _ _ hp
    · exact hp
  generalize (if own && !(isSwm s1 loc) && !(ownsExclusive s1 core (loc / 16)) then ownWord s1 core (loc / 16) else s1) = s2 at ho ⊢
  split
  · exact setHeld_sound _ _ _ (redHome_sound _ _ _ _ _ ho)
  · exact redHome_sound _ _ _ _ _ (dropWord_sound _ _ (drainWord_sound _ _ ho))

theorem redAccess_sound {s : State} (team : Nat) (via : List (Nat × Nat)) (own : Bool) (op : AtomOp) (size loc x y : Nat)
    (h : SoundMemory s) : SoundMemory (redAccess s team via own op size loc x y) := by
  unfold redAccess
  split
  · exact h
  · split
    · split
      · exact h
      · exact atomHome_sound _ _ _ _ _ _ _ (unsafeInterval_sound _ _ h)
    · exact atomHome_sound _ _ _ _ _ _ _ h

theorem atomAccess_sound {s : State} (w : Wave) (own : Bool) (op : AtomOp) (size loc x y : Nat) (h : SoundMemory s) :
    SoundMemory (atomAccess s w own op size loc x y).1 := by
  unfold atomAccess
  split
  · exact h
  · dsimp only
    split
    · split
      · exact h
      · split
        · exact h
        · exact atomHome_sound _ _ _ _ _ _ _ (unsafeInterval_sound _ _ h)
    · exact atomHome_sound _ _ _ _ _ _ _ h

/-! ## Engines -/

theorem takeWords_sound {s : State} (rngs : List Rng) (h : SoundMemory s) : SoundMemory (takeWords s rngs) :=
  performAll_sound _ h

theorem addOp_sound {s : State} (o : Op) (h : SoundMemory s) : SoundMemory (s.addOp o) :=
  sound_same h rfl rfl rfl (le_max_left _ _)

theorem startOp_sound {s : State} (o : Op) (h : SoundMemory s) : SoundMemory (startOp s o) := addOp_sound _ (takeWords_sound _ h)

theorem engineWord_sound {s : State} (core word : Nat) (bytes : List (Nat × BitVec 8)) (bad : Bool) (h : SoundMemory s) :
    SoundMemory (engineWord s core word bytes bad) := homeWord_sound _ _ _ _ h

theorem engineWrite_sound {s : State} (core : Nat) (l : List (Nat × BitVec 8 × Bool)) (h : SoundMemory s) :
    SoundMemory (engineWrite s core l) := sound_fold _ (fun _ _ h => engineWord_sound _ _ _ _ h) _ _ h

end Sys2Proof.Machine.Laws
end

