-- ==== Sys2Proof/Laws/Packed.lean ====
section
/-! SUPPORT. Packed registers: the sub-elements of a register that was put together, and the flags of its elements. -/

namespace Sys2Proof.Machine.Laws

theorem packN_lt (w : Nat) (xs : List Nat) : packN w xs < 2 ^ (w * xs.length) := by
  induction xs with
  | nil => simp [packN]
  | cons x xs ih =>
    have h1 : x % 2 ^ w < 2 ^ w := Nat.mod_lt _ (by positivity)
    have h2 : 2 ^ (w * (x :: xs).length) = 2 ^ w * 2 ^ (w * xs.length) := by
      rw [List.length_cons, Nat.mul_succ, Nat.pow_add, Nat.mul_comm]
    rw [h2]
    simp only [packN]
    have h3 : packN w xs + 1 ≤ 2 ^ (w * xs.length) := ih
    calc x % 2 ^ w + 2 ^ w * packN w xs < 2 ^ w * 1 + 2 ^ w * packN w xs := by omega
      _ = 2 ^ w * (packN w xs + 1) := by ring
      _ ≤ 2 ^ w * 2 ^ (w * xs.length) := Nat.mul_le_mul_left _ h3

theorem packN_elem (w : Nat) (xs : List Nat) (e : Nat) (h : e < xs.length) :
    packN w xs / 2 ^ (w * e) % 2 ^ w = xs.getD e 0 % 2 ^ w := by
  induction xs generalizing e with
  | nil => simp at h
  | cons x xs ih =>
    have hx : x % 2 ^ w < 2 ^ w := Nat.mod_lt _ (by positivity)
    cases e with
    | zero => simp [packN, Nat.add_mul_mod_self_left]
    | succ e =>
      have : packN w (x :: xs) / 2 ^ (w * (e + 1)) = packN w xs / 2 ^ (w * e) := by
        rw [Nat.mul_succ, Nat.add_comm (w * e) w, Nat.pow_add, ← Nat.div_div_eq_div_mul, packN,
          Nat.add_mul_div_left _ _ (by positivity), Nat.div_eq_of_lt hx, Nat.zero_add]
      rw [this, ih e (by simpa using h)]
      simp

/-- Sub-element e of a register put together from values of width w. -/
theorem elem_pack (w : Nat) (xs : List Nat) (e : Nat) (h : e < xs.length) (hw : w * xs.length ≤ 64) :
    elem w (pack w xs) e = xs.getD e 0 % 2 ^ w := by
  have hlt : packN w xs < 2 ^ 64 := (packN_lt w xs).trans_le (Nat.pow_le_pow_right (by norm_num) hw)
  unfold elem pack
  rw [BitVec.toNat_ofNat, Nat.mod_eq_of_lt hlt]
  exact packN_elem w xs e h

theorem pack_lt (w : Nat) (xs : List Nat) (hw : w * xs.length ≤ 64) : (pack w xs).toNat < 2 ^ (w * xs.length) := by
  have hlt : packN w xs < 2 ^ 64 := (packN_lt w xs).trans_le (Nat.pow_le_pow_right (by norm_num) hw)
  unfold pack
  rw [BitVec.toNat_ofNat, Nat.mod_eq_of_lt hlt]
  exact packN_lt w xs

theorem elem_lt (w : Nat) (x : Word) (e : Nat) : elem w x e < 2 ^ w := Nat.mod_lt _ (by positivity)

theorem elem_map2 (w : Nat) (f : Nat → Nat → Nat) (a b : Word) (e : Nat) (h : e < 64 / w) :
    elem w (map2 w f a b) e = f (elem w a e) (elem w b e) % 2 ^ w := by
  unfold map2
  rw [elem_pack _ _ _ (by simpa using h) (by simpa using Nat.mul_div_le 64 w)]
  simp [List.getD_eq_getElem?_getD, h]

theorem elem_map1 (w : Nat) (f : Nat → Nat) (a : Word) (e : Nat) (h : e < 64 / w) :
    elem w (map1 w f a) e = f (elem w a e) % 2 ^ w := by
  unfold map1
  rw [elem_pack _ _ _ (by simpa using h) (by simpa using Nat.mul_div_le 64 w)]
  simp [List.getD_eq_getElem?_getD, h]

theorem elem_mapF (w n : Nat) (f : Nat → Nat × Sticky) (e : Nat) (h : e < n) (hw : w * n ≤ 64) :
    elem w (mapF w n f).1 e = (f e).1 % 2 ^ w := by
  unfold mapF
  simp only
  rw [elem_pack _ _ _ (by simpa using h) (by simpa using hw)]
  simp [List.getD_eq_getElem?_getD, h]

theorem mapF_flags (w n : Nat) (f : Nat → Nat × Sticky) : (mapF w n f).2 = elemFlags n fun e => (f e).2 := by
  simp [mapF, elemFlags, List.map_map, Function.comp_def]

theorem lastUse_mem (srcs : List (Nat × BitVec 2)) (r : Nat) :
    r ∈ lastUse srcs ↔ (r, 1) ∈ srcs.map fun p => (p.1, p.2.toNat) := by
  unfold lastUse
  simp only [List.mem_map, List.mem_filter, beq_iff_eq, Prod.mk.injEq, Prod.exists]
  constructor
  · rintro ⟨a, b, ⟨h, rfl⟩, rfl⟩
    exact ⟨a, 1#2, h, rfl, rfl⟩
  · rintro ⟨a, b, h, rfl, hb⟩
    exact ⟨a, b, ⟨h, BitVec.eq_of_toNat_eq hb⟩, rfl⟩

end Sys2Proof.Machine.Laws
end

