-- ==== Sys2Proof/Laws/State.lean ====
section
/-! SUPPORT. What each update of the state, and of a wave, leaves as it is: one lemma for each field that it does not touch. -/

namespace Sys2Proof.Machine

/-- A wave that waits on flags changes in nothing but its state. -/
theorem Wave.flagWake_eq (w : Wave) : w.flagWake = { w with state := w.flagWake.state } := by
  unfold Wave.flagWake
  split
  · split <;> rfl
  · rfl

section
variable (s : State) (w : Wave)
@[simp] theorem State.setWave_cur : (s.setWave w).cur = s.cur := rfl
@[simp] theorem State.setWave_agenda : (s.setWave w).agenda = s.agenda := rfl
@[simp] theorem State.setWave_tick : (s.setWave w).tick = s.tick := rfl
@[simp] theorem State.setWave_nextId : (s.setWave w).nextId = s.nextId := rfl
@[simp] theorem State.setWave_mem : (s.setWave w).mem = s.mem := rfl
@[simp] theorem State.setWave_marks : (s.setWave w).marks = s.marks := rfl
@[simp] theorem State.setWave_tags : (s.setWave w).tags = s.tags := rfl
@[simp] theorem State.setWave_swm : (s.setWave w).swm = s.swm := rfl
@[simp] theorem State.setWave_pend : (s.setWave w).pend = s.pend := rfl
@[simp] theorem State.setWave_blocks : (s.setWave w).blocks = s.blocks := rfl
@[simp] theorem State.setWave_fills : (s.setWave w).fills = s.fills := rfl
@[simp] theorem State.setWave_tlbs : (s.setWave w).tlbs = s.tlbs := rfl
@[simp] theorem State.setWave_monitors : (s.setWave w).monitors = s.monitors := rfl
@[simp] theorem State.setWave_guests : (s.setWave w).guests = s.guests := rfl
@[simp] theorem State.setWave_gens : (s.setWave w).gens = s.gens := rfl
@[simp] theorem State.setWave_known : (s.setWave w).known = s.known := rfl
@[simp] theorem State.setWave_pageKeys : (s.setWave w).pageKeys = s.pageKeys := rfl
@[simp] theorem State.setWave_ciphers : (s.setWave w).ciphers = s.ciphers := rfl
@[simp] theorem State.setWave_teams : (s.setWave w).teams = s.teams := rfl
@[simp] theorem State.setWave_grids : (s.setWave w).grids = s.grids := rfl
@[simp] theorem State.setWave_ops : (s.setWave w).ops = s.ops := rfl
@[simp] theorem State.setWave_held : (s.setWave w).held = s.held := rfl
@[simp] theorem State.setWave_clusters : (s.setWave w).clusters = s.clusters := rfl
@[simp] theorem State.setWave_gated : (s.setWave w).gated = s.gated := rfl
@[simp] theorem State.setWave_lanemap : (s.setWave w).lanemap = s.lanemap := rfl
@[simp] theorem State.setWave_arrivals : (s.setWave w).arrivals = s.arrivals := rfl
@[simp] theorem State.setWave_handles : (s.setWave w).handles = s.handles := rfl
@[simp] theorem State.setWave_tenures : (s.setWave w).tenures = s.tenures := rfl
@[simp] theorem State.setWave_pins : (s.setWave w).pins = s.pins := rfl
@[simp] theorem State.setWave_parts : (s.setWave w).parts = s.parts := rfl
@[simp] theorem State.setWave_shared : (s.setWave w).shared = s.shared := rfl
@[simp] theorem State.setWave_keys : (s.setWave w).keys = s.keys := rfl
@[simp] theorem State.setWave_ctxs : (s.setWave w).ctxs = s.ctxs := rfl
@[simp] theorem State.setWave_queues : (s.setWave w).queues = s.queues := rfl
@[simp] theorem State.setWave_lists : (s.setWave w).lists = s.lists := rfl
@[simp] theorem State.setWave_keyspaces : (s.setWave w).keyspaces = s.keyspaces := rfl
@[simp] theorem State.setWave_records : (s.setWave w).records = s.records := rfl
@[simp] theorem State.setWave_hulls : (s.setWave w).hulls = s.hulls := rfl
@[simp] theorem State.setWave_stalled : (s.setWave w).stalled = s.stalled := rfl
@[simp] theorem State.setWave_out : (s.setWave w).out = s.out := rfl
end

section
variable (s : State) (i : Nat) (f : Wave → Wave)
@[simp] theorem State.updWave_cur : (s.updWave i f).cur = s.cur := rfl
@[simp] theorem State.updWave_agenda : (s.updWave i f).agenda = s.agenda := rfl
@[simp] theorem State.updWave_tick : (s.updWave i f).tick = s.tick := rfl
@[simp] theorem State.updWave_nextId : (s.updWave i f).nextId = s.nextId := rfl
@[simp] theorem State.updWave_mem : (s.updWave i f).mem = s.mem := rfl
@[simp] theorem State.updWave_marks : (s.updWave i f).marks = s.marks := rfl
@[simp] theorem State.updWave_tags : (s.updWave i f).tags = s.tags := rfl
@[simp] theorem State.updWave_swm : (s.updWave i f).swm = s.swm := rfl
@[simp] theorem State.updWave_pend : (s.updWave i f).pend = s.pend := rfl
@[simp] theorem State.updWave_blocks : (s.updWave i f).blocks = s.blocks := rfl
@[simp] theorem State.updWave_fills : (s.updWave i f).fills = s.fills := rfl
@[simp] theorem State.updWave_tlbs : (s.updWave i f).tlbs = s.tlbs := rfl
@[simp] theorem State.updWave_monitors : (s.updWave i f).monitors = s.monitors := rfl
@[simp] theorem State.updWave_guests : (s.updWave i f).guests = s.guests := rfl
@[simp] theorem State.updWave_gens : (s.updWave i f).gens = s.gens := rfl
@[simp] theorem State.updWave_known : (s.updWave i f).known = s.known := rfl
@[simp] theorem State.updWave_pageKeys : (s.updWave i f).pageKeys = s.pageKeys := rfl
@[simp] theorem State.updWave_ciphers : (s.updWave i f).ciphers = s.ciphers := rfl
@[simp] theorem State.updWave_teams : (s.updWave i f).teams = s.teams := rfl
@[simp] theorem State.updWave_grids : (s.updWave i f).grids = s.grids := rfl
@[simp] theorem State.updWave_ops : (s.updWave i f).ops = s.ops := rfl
@[simp] theorem State.updWave_held : (s.updWave i f).held = s.held := rfl
@[simp] theorem State.updWave_clusters : (s.updWave i f).clusters = s.clusters := rfl
@[simp] theorem State.updWave_gated : (s.updWave i f).gated = s.gated := rfl
@[simp] theorem State.updWave_lanemap : (s.updWave i f).lanemap = s.lanemap := rfl
@[simp] theorem State.updWave_arrivals : (s.updWave i f).arrivals = s.arrivals := rfl
@[simp] theorem State.updWave_handles : (s.updWave i f).handles = s.handles := rfl
@[simp] theorem State.updWave_tenures : (s.updWave i f).tenures = s.tenures := rfl
@[simp] theorem State.updWave_pins : (s.updWave i f).pins = s.pins := rfl
@[simp] theorem State.updWave_parts : (s.updWave i f).parts = s.parts := rfl
@[simp] theorem State.updWave_shared : (s.updWave i f).shared = s.shared := rfl
@[simp] theorem State.updWave_keys : (s.updWave i f).keys = s.keys := rfl
@[simp] theorem State.updWave_ctxs : (s.updWave i f).ctxs = s.ctxs := rfl
@[simp] theorem State.updWave_queues : (s.updWave i f).queues = s.queues := rfl
@[simp] theorem State.updWave_lists : (s.updWave i f).lists = s.lists := rfl
@[simp] theorem State.updWave_keyspaces : (s.updWave i f).keyspaces = s.keyspaces := rfl
@[simp] theorem State.updWave_records : (s.updWave i f).records = s.records := rfl
@[simp] theorem State.updWave_hulls : (s.updWave i f).hulls = s.hulls := rfl
@[simp] theorem State.updWave_stalled : (s.updWave i f).stalled = s.stalled := rfl
@[simp] theorem State.updWave_out : (s.updWave i f).out = s.out := rfl
end

section
variable (s : State) (i : Nat) (f : Team → Team)
@[simp] theorem State.updTeam_cur : (s.updTeam i f).cur = s.cur := rfl
@[simp] theorem State.updTeam_agenda : (s.updTeam i f).agenda = s.agenda := rfl
@[simp] theorem State.updTeam_tick : (s.updTeam i f).tick = s.tick := rfl
@[simp] theorem State.updTeam_nextId : (s.updTeam i f).nextId = s.nextId := rfl
@[simp] theorem State.updTeam_mem : (s.updTeam i f).mem = s.mem := rfl
@[simp] theorem State.updTeam_marks : (s.updTeam i f).marks = s.marks := rfl
@[simp] theorem State.updTeam_tags : (s.updTeam i f).tags = s.tags := rfl
@[simp] theorem State.updTeam_swm : (s.updTeam i f).swm = s.swm := rfl
@[simp] theorem State.updTeam_pend : (s.updTeam i f).pend = s.pend := rfl
@[simp] theorem State.updTeam_blocks : (s.updTeam i f).blocks = s.blocks := rfl
@[simp] theorem State.updTeam_fills : (s.updTeam i f).fills = s.fills := rfl
@[simp] theorem State.updTeam_tlbs : (s.updTeam i f).tlbs = s.tlbs := rfl
@[simp] theorem State.updTeam_monitors : (s.updTeam i f).monitors = s.monitors := rfl
@[simp] theorem State.updTeam_guests : (s.updTeam i f).guests = s.guests := rfl
@[simp] theorem State.updTeam_gens : (s.updTeam i f).gens = s.gens := rfl
@[simp] theorem State.updTeam_known : (s.updTeam i f).known = s.known := rfl
@[simp] theorem State.updTeam_pageKeys : (s.updTeam i f).pageKeys = s.pageKeys := rfl
@[simp] theorem State.updTeam_ciphers : (s.updTeam i f).ciphers = s.ciphers := rfl
@[simp] theorem State.updTeam_waves : (s.updTeam i f).waves = s.waves := rfl
@[simp] theorem State.updTeam_grids : (s.updTeam i f).grids = s.grids := rfl
@[simp] theorem State.updTeam_ops : (s.updTeam i f).ops = s.ops := rfl
@[simp] theorem State.updTeam_held : (s.updTeam i f).held = s.held := rfl
@[simp] theorem State.updTeam_clusters : (s.updTeam i f).clusters = s.clusters := rfl
@[simp] theorem State.updTeam_gated : (s.updTeam i f).gated = s.gated := rfl
@[simp] theorem State.updTeam_lanemap : (s.updTeam i f).lanemap = s.lanemap := rfl
@[simp] theorem State.updTeam_arrivals : (s.updTeam i f).arrivals = s.arrivals := rfl
@[simp] theorem State.updTeam_handles : (s.updTeam i f).handles = s.handles := rfl
@[simp] theorem State.updTeam_tenures : (s.updTeam i f).tenures = s.tenures := rfl
@[simp] theorem State.updTeam_pins : (s.updTeam i f).pins = s.pins := rfl
@[simp] theorem State.updTeam_parts : (s.updTeam i f).parts = s.parts := rfl
@[simp] theorem State.updTeam_shared : (s.updTeam i f).shared = s.shared := rfl
@[simp] theorem State.updTeam_keys : (s.updTeam i f).keys = s.keys := rfl
@[simp] theorem State.updTeam_ctxs : (s.updTeam i f).ctxs = s.ctxs := rfl
@[simp] theorem State.updTeam_queues : (s.updTeam i f).queues = s.queues := rfl
@[simp] theorem State.updTeam_lists : (s.updTeam i f).lists = s.lists := rfl
@[simp] theorem State.updTeam_keyspaces : (s.updTeam i f).keyspaces = s.keyspaces := rfl
@[simp] theorem State.updTeam_records : (s.updTeam i f).records = s.records := rfl
@[simp] theorem State.updTeam_hulls : (s.updTeam i f).hulls = s.hulls := rfl
@[simp] theorem State.updTeam_stalled : (s.updTeam i f).stalled = s.stalled := rfl
@[simp] theorem State.updTeam_out : (s.updTeam i f).out = s.out := rfl
end

section
variable (s : State) (i : Nat) (f : Grid → Grid)
@[simp] theorem State.updGrid_cur : (s.updGrid i f).cur = s.cur := rfl
@[simp] theorem State.updGrid_agenda : (s.updGrid i f).agenda = s.agenda := rfl
@[simp] theorem State.updGrid_tick : (s.updGrid i f).tick = s.tick := rfl
@[simp] theorem State.updGrid_nextId : (s.updGrid i f).nextId = s.nextId := rfl
@[simp] theorem State.updGrid_mem : (s.updGrid i f).mem = s.mem := rfl
@[simp] theorem State.updGrid_marks : (s.updGrid i f).marks = s.marks := rfl
@[simp] theorem State.updGrid_tags : (s.updGrid i f).tags = s.tags := rfl
@[simp] theorem State.updGrid_swm : (s.updGrid i f).swm = s.swm := rfl
@[simp] theorem State.updGrid_pend : (s.updGrid i f).pend = s.pend := rfl
@[simp] theorem State.updGrid_blocks : (s.updGrid i f).blocks = s.blocks := rfl
@[simp] theorem State.updGrid_fills : (s.updGrid i f).fills = s.fills := rfl
@[simp] theorem State.updGrid_tlbs : (s.updGrid i f).tlbs = s.tlbs := rfl
@[simp] theorem State.updGrid_monitors : (s.updGrid i f).monitors = s.monitors := rfl
@[simp] theorem State.updGrid_guests : (s.updGrid i f).guests = s.guests := rfl
@[simp] theorem State.updGrid_gens : (s.updGrid i f).gens = s.gens := rfl
@[simp] theorem State.updGrid_known : (s.updGrid i f).known = s.known := rfl
@[simp] theorem State.updGrid_pageKeys : (s.updGrid i f).pageKeys = s.pageKeys := rfl
@[simp] theorem State.updGrid_ciphers : (s.updGrid i f).ciphers = s.ciphers := rfl
@[simp] theorem State.updGrid_waves : (s.updGrid i f).waves = s.waves := rfl
@[simp] theorem State.updGrid_teams : (s.updGrid i f).teams = s.teams := rfl
@[simp] theorem State.updGrid_ops : (s.updGrid i f).ops = s.ops := rfl
@[simp] theorem State.updGrid_held : (s.updGrid i f).held = s.held := rfl
@[simp] theorem State.updGrid_clusters : (s.updGrid i f).clusters = s.clusters := rfl
@[simp] theorem State.updGrid_gated : (s.updGrid i f).gated = s.gated := rfl
@[simp] theorem State.updGrid_lanemap : (s.updGrid i f).lanemap = s.lanemap := rfl
@[simp] theorem State.updGrid_arrivals : (s.updGrid i f).arrivals = s.arrivals := rfl
@[simp] theorem State.updGrid_handles : (s.updGrid i f).handles = s.handles := rfl
@[simp] theorem State.updGrid_tenures : (s.updGrid i f).tenures = s.tenures := rfl
@[simp] theorem State.updGrid_pins : (s.updGrid i f).pins = s.pins := rfl
@[simp] theorem State.updGrid_parts : (s.updGrid i f).parts = s.parts := rfl
@[simp] theorem State.updGrid_shared : (s.updGrid i f).shared = s.shared := rfl
@[simp] theorem State.updGrid_keys : (s.updGrid i f).keys = s.keys := rfl
@[simp] theorem State.updGrid_ctxs : (s.updGrid i f).ctxs = s.ctxs := rfl
@[simp] theorem State.updGrid_queues : (s.updGrid i f).queues = s.queues := rfl
@[simp] theorem State.updGrid_lists : (s.updGrid i f).lists = s.lists := rfl
@[simp] theorem State.updGrid_keyspaces : (s.updGrid i f).keyspaces = s.keyspaces := rfl
@[simp] theorem State.updGrid_records : (s.updGrid i f).records = s.records := rfl
@[simp] theorem State.updGrid_hulls : (s.updGrid i f).hulls = s.hulls := rfl
@[simp] theorem State.updGrid_stalled : (s.updGrid i f).stalled = s.stalled := rfl
@[simp] theorem State.updGrid_out : (s.updGrid i f).out = s.out := rfl
end

section
variable (s : State) (i : Nat) (f : Context → Context)
@[simp] theorem State.updCtx_cur : (s.updCtx i f).cur = s.cur := rfl
@[simp] theorem State.updCtx_agenda : (s.updCtx i f).agenda = s.agenda := rfl
@[simp] theorem State.updCtx_tick : (s.updCtx i f).tick = s.tick := rfl
@[simp] theorem State.updCtx_nextId : (s.updCtx i f).nextId = s.nextId := rfl
@[simp] theorem State.updCtx_mem : (s.updCtx i f).mem = s.mem := rfl
@[simp] theorem State.updCtx_marks : (s.updCtx i f).marks = s.marks := rfl
@[simp] theorem State.updCtx_tags : (s.updCtx i f).tags = s.tags := rfl
@[simp] theorem State.updCtx_swm : (s.updCtx i f).swm = s.swm := rfl
@[simp] theorem State.updCtx_pend : (s.updCtx i f).pend = s.pend := rfl
@[simp] theorem State.updCtx_blocks : (s.updCtx i f).blocks = s.blocks := rfl
@[simp] theorem State.updCtx_fills : (s.updCtx i f).fills = s.fills := rfl
@[simp] theorem State.updCtx_tlbs : (s.updCtx i f).tlbs = s.tlbs := rfl
@[simp] theorem State.updCtx_monitors : (s.updCtx i f).monitors = s.monitors := rfl
@[simp] theorem State.updCtx_guests : (s.updCtx i f).guests = s.guests := rfl
@[simp] theorem State.updCtx_gens : (s.updCtx i f).gens = s.gens := rfl
@[simp] theorem State.updCtx_known : (s.updCtx i f).known = s.known := rfl
@[simp] theorem State.updCtx_pageKeys : (s.updCtx i f).pageKeys = s.pageKeys := rfl
@[simp] theorem State.updCtx_ciphers : (s.updCtx i f).ciphers = s.ciphers := rfl
@[simp] theorem State.updCtx_waves : (s.updCtx i f).waves = s.waves := rfl
@[simp] theorem State.updCtx_teams : (s.updCtx i f).teams = s.teams := rfl
@[simp] theorem State.updCtx_grids : (s.updCtx i f).grids = s.grids := rfl
@[simp] theorem State.updCtx_ops : (s.updCtx i f).ops = s.ops := rfl
@[simp] theorem State.updCtx_held : (s.updCtx i f).held = s.held := rfl
@[simp] theorem State.updCtx_clusters : (s.updCtx i f).clusters = s.clusters := rfl
@[simp] theorem State.updCtx_gated : (s.updCtx i f).gated = s.gated := rfl
@[simp] theorem State.updCtx_lanemap : (s.updCtx i f).lanemap = s.lanemap := rfl
@[simp] theorem State.updCtx_arrivals : (s.updCtx i f).arrivals = s.arrivals := rfl
@[simp] theorem State.updCtx_handles : (s.updCtx i f).handles = s.handles := rfl
@[simp] theorem State.updCtx_tenures : (s.updCtx i f).tenures = s.tenures := rfl
@[simp] theorem State.updCtx_pins : (s.updCtx i f).pins = s.pins := rfl
@[simp] theorem State.updCtx_parts : (s.updCtx i f).parts = s.parts := rfl
@[simp] theorem State.updCtx_shared : (s.updCtx i f).shared = s.shared := rfl
@[simp] theorem State.updCtx_keys : (s.updCtx i f).keys = s.keys := rfl
@[simp] theorem State.updCtx_queues : (s.updCtx i f).queues = s.queues := rfl
@[simp] theorem State.updCtx_lists : (s.updCtx i f).lists = s.lists := rfl
@[simp] theorem State.updCtx_keyspaces : (s.updCtx i f).keyspaces = s.keyspaces := rfl
@[simp] theorem State.updCtx_records : (s.updCtx i f).records = s.records := rfl
@[simp] theorem State.updCtx_hulls : (s.updCtx i f).hulls = s.hulls := rfl
@[simp] theorem State.updCtx_stalled : (s.updCtx i f).stalled = s.stalled := rfl
@[simp] theorem State.updCtx_out : (s.updCtx i f).out = s.out := rfl
end

section
variable (s : State) (i : Nat) (f : Partition → Partition)
@[simp] theorem State.updPart_cur : (s.updPart i f).cur = s.cur := rfl
@[simp] theorem State.updPart_agenda : (s.updPart i f).agenda = s.agenda := rfl
@[simp] theorem State.updPart_tick : (s.updPart i f).tick = s.tick := rfl
@[simp] theorem State.updPart_nextId : (s.updPart i f).nextId = s.nextId := rfl
@[simp] theorem State.updPart_mem : (s.updPart i f).mem = s.mem := rfl
@[simp] theorem State.updPart_marks : (s.updPart i f).marks = s.marks := rfl
@[simp] theorem State.updPart_tags : (s.updPart i f).tags = s.tags := rfl
@[simp] theorem State.updPart_swm : (s.updPart i f).swm = s.swm := rfl
@[simp] theorem State.updPart_pend : (s.updPart i f).pend = s.pend := rfl
@[simp] theorem State.updPart_blocks : (s.updPart i f).blocks = s.blocks := rfl
@[simp] theorem State.updPart_fills : (s.updPart i f).fills = s.fills := rfl
@[simp] theorem State.updPart_tlbs : (s.updPart i f).tlbs = s.tlbs := rfl
@[simp] theorem State.updPart_monitors : (s.updPart i f).monitors = s.monitors := rfl
@[simp] theorem State.updPart_guests : (s.updPart i f).guests = s.guests := rfl
@[simp] theorem State.updPart_gens : (s.updPart i f).gens = s.gens := rfl
@[simp] theorem State.updPart_known : (s.updPart i f).known = s.known := rfl
@[simp] theorem State.updPart_pageKeys : (s.updPart i f).pageKeys = s.pageKeys := rfl
@[simp] theorem State.updPart_ciphers : (s.updPart i f).ciphers = s.ciphers := rfl
@[simp] theorem State.updPart_waves : (s.updPart i f).waves = s.waves := rfl
@[simp] theorem State.updPart_teams : (s.updPart i f).teams = s.teams := rfl
@[simp] theorem State.updPart_grids : (s.updPart i f).grids = s.grids := rfl
@[simp] theorem State.updPart_ops : (s.updPart i f).ops = s.ops := rfl
@[simp] theorem State.updPart_held : (s.updPart i f).held = s.held := rfl
@[simp] theorem State.updPart_clusters : (s.updPart i f).clusters = s.clusters := rfl
@[simp] theorem State.updPart_gated : (s.updPart i f).gated = s.gated := rfl
@[simp] theorem State.updPart_lanemap : (s.updPart i f).lanemap = s.lanemap := rfl
@[simp] theorem State.updPart_arrivals : (s.updPart i f).arrivals = s.arrivals := rfl
@[simp] theorem State.updPart_handles : (s.updPart i f).handles = s.handles := rfl
@[simp] theorem State.updPart_tenures : (s.updPart i f).tenures = s.tenures := rfl
@[simp] theorem State.updPart_pins : (s.updPart i f).pins = s.pins := rfl
@[simp] theorem State.updPart_shared : (s.updPart i f).shared = s.shared := rfl
@[simp] theorem State.updPart_keys : (s.updPart i f).keys = s.keys := rfl
@[simp] theorem State.updPart_ctxs : (s.updPart i f).ctxs = s.ctxs := rfl
@[simp] theorem State.updPart_queues : (s.updPart i f).queues = s.queues := rfl
@[simp] theorem State.updPart_lists : (s.updPart i f).lists = s.lists := rfl
@[simp] theorem State.updPart_keyspaces : (s.updPart i f).keyspaces = s.keyspaces := rfl
@[simp] theorem State.updPart_records : (s.updPart i f).records = s.records := rfl
@[simp] theorem State.updPart_hulls : (s.updPart i f).hulls = s.hulls := rfl
@[simp] theorem State.updPart_stalled : (s.updPart i f).stalled = s.stalled := rfl
@[simp] theorem State.updPart_out : (s.updPart i f).out = s.out := rfl
end

section
variable (s : State) (c : Cluster)
@[simp] theorem State.setCluster_cur : (s.setCluster c).cur = s.cur := rfl
@[simp] theorem State.setCluster_agenda : (s.setCluster c).agenda = s.agenda := rfl
@[simp] theorem State.setCluster_tick : (s.setCluster c).tick = s.tick := rfl
@[simp] theorem State.setCluster_nextId : (s.setCluster c).nextId = s.nextId := rfl
@[simp] theorem State.setCluster_mem : (s.setCluster c).mem = s.mem := rfl
@[simp] theorem State.setCluster_marks : (s.setCluster c).marks = s.marks := rfl
@[simp] theorem State.setCluster_tags : (s.setCluster c).tags = s.tags := rfl
@[simp] theorem State.setCluster_swm : (s.setCluster c).swm = s.swm := rfl
@[simp] theorem State.setCluster_pend : (s.setCluster c).pend = s.pend := rfl
@[simp] theorem State.setCluster_blocks : (s.setCluster c).blocks = s.blocks := rfl
@[simp] theorem State.setCluster_fills : (s.setCluster c).fills = s.fills := rfl
@[simp] theorem State.setCluster_tlbs : (s.setCluster c).tlbs = s.tlbs := rfl
@[simp] theorem State.setCluster_monitors : (s.setCluster c).monitors = s.monitors := rfl
@[simp] theorem State.setCluster_guests : (s.setCluster c).guests = s.guests := rfl
@[simp] theorem State.setCluster_gens : (s.setCluster c).gens = s.gens := rfl
@[simp] theorem State.setCluster_known : (s.setCluster c).known = s.known := rfl
@[simp] theorem State.setCluster_pageKeys : (s.setCluster c).pageKeys = s.pageKeys := rfl
@[simp] theorem State.setCluster_ciphers : (s.setCluster c).ciphers = s.ciphers := rfl
@[simp] theorem State.setCluster_waves : (s.setCluster c).waves = s.waves := rfl
@[simp] theorem State.setCluster_teams : (s.setCluster c).teams = s.teams := rfl
@[simp] theorem State.setCluster_grids : (s.setCluster c).grids = s.grids := rfl
@[simp] theorem State.setCluster_ops : (s.setCluster c).ops = s.ops := rfl
@[simp] theorem State.setCluster_held : (s.setCluster c).held = s.held := rfl
@[simp] theorem State.setCluster_gated : (s.setCluster c).gated = s.gated := rfl
@[simp] theorem State.setCluster_lanemap : (s.setCluster c).lanemap = s.lanemap := rfl
@[simp] theorem State.setCluster_arrivals : (s.setCluster c).arrivals = s.arrivals := rfl
@[simp] theorem State.setCluster_handles : (s.setCluster c).handles = s.handles := rfl
@[simp] theorem State.setCluster_tenures : (s.setCluster c).tenures = s.tenures := rfl
@[simp] theorem State.setCluster_pins : (s.setCluster c).pins = s.pins := rfl
@[simp] theorem State.setCluster_parts : (s.setCluster c).parts = s.parts := rfl
@[simp] theorem State.setCluster_shared : (s.setCluster c).shared = s.shared := rfl
@[simp] theorem State.setCluster_keys : (s.setCluster c).keys = s.keys := rfl
@[simp] theorem State.setCluster_ctxs : (s.setCluster c).ctxs = s.ctxs := rfl
@[simp] theorem State.setCluster_queues : (s.setCluster c).queues = s.queues := rfl
@[simp] theorem State.setCluster_lists : (s.setCluster c).lists = s.lists := rfl
@[simp] theorem State.setCluster_keyspaces : (s.setCluster c).keyspaces = s.keyspaces := rfl
@[simp] theorem State.setCluster_records : (s.setCluster c).records = s.records := rfl
@[simp] theorem State.setCluster_hulls : (s.setCluster c).hulls = s.hulls := rfl
@[simp] theorem State.setCluster_stalled : (s.setCluster c).stalled = s.stalled := rfl
@[simp] theorem State.setCluster_out : (s.setCluster c).out = s.out := rfl
end

section
variable (s : State) (i : Nat)
@[simp] theorem State.dropOp_cur : (s.dropOp i).cur = s.cur := rfl
@[simp] theorem State.dropOp_agenda : (s.dropOp i).agenda = s.agenda := rfl
@[simp] theorem State.dropOp_tick : (s.dropOp i).tick = s.tick := rfl
@[simp] theorem State.dropOp_nextId : (s.dropOp i).nextId = s.nextId := rfl
@[simp] theorem State.dropOp_mem : (s.dropOp i).mem = s.mem := rfl
@[simp] theorem State.dropOp_marks : (s.dropOp i).marks = s.marks := rfl
@[simp] theorem State.dropOp_tags : (s.dropOp i).tags = s.tags := rfl
@[simp] theorem State.dropOp_swm : (s.dropOp i).swm = s.swm := rfl
@[simp] theorem State.dropOp_pend : (s.dropOp i).pend = s.pend := rfl
@[simp] theorem State.dropOp_blocks : (s.dropOp i).blocks = s.blocks := rfl
@[simp] theorem State.dropOp_tlbs : (s.dropOp i).tlbs = s.tlbs := rfl
@[simp] theorem State.dropOp_monitors : (s.dropOp i).monitors = s.monitors := rfl
@[simp] theorem State.dropOp_guests : (s.dropOp i).guests = s.guests := rfl
@[simp] theorem State.dropOp_gens : (s.dropOp i).gens = s.gens := rfl
@[simp] theorem State.dropOp_known : (s.dropOp i).known = s.known := rfl
@[simp] theorem State.dropOp_pageKeys : (s.dropOp i).pageKeys = s.pageKeys := rfl
@[simp] theorem State.dropOp_ciphers : (s.dropOp i).ciphers = s.ciphers := rfl
@[simp] theorem State.dropOp_waves : (s.dropOp i).waves = s.waves := rfl
@[simp] theorem State.dropOp_teams : (s.dropOp i).teams = s.teams := rfl
@[simp] theorem State.dropOp_grids : (s.dropOp i).grids = s.grids := rfl
@[simp] theorem State.dropOp_held : (s.dropOp i).held = s.held := rfl
@[simp] theorem State.dropOp_clusters : (s.dropOp i).clusters = s.clusters := rfl
@[simp] theorem State.dropOp_gated : (s.dropOp i).gated = s.gated := rfl
@[simp] theorem State.dropOp_lanemap : (s.dropOp i).lanemap = s.lanemap := rfl
@[simp] theorem State.dropOp_arrivals : (s.dropOp i).arrivals = s.arrivals := rfl
@[simp] theorem State.dropOp_handles : (s.dropOp i).handles = s.handles := rfl
@[simp] theorem State.dropOp_tenures : (s.dropOp i).tenures = s.tenures := rfl
@[simp] theorem State.dropOp_pins : (s.dropOp i).pins = s.pins := rfl
@[simp] theorem State.dropOp_parts : (s.dropOp i).parts = s.parts := rfl
@[simp] theorem State.dropOp_shared : (s.dropOp i).shared = s.shared := rfl
@[simp] theorem State.dropOp_keys : (s.dropOp i).keys = s.keys := rfl
@[simp] theorem State.dropOp_ctxs : (s.dropOp i).ctxs = s.ctxs := rfl
@[simp] theorem State.dropOp_queues : (s.dropOp i).queues = s.queues := rfl
@[simp] theorem State.dropOp_lists : (s.dropOp i).lists = s.lists := rfl
@[simp] theorem State.dropOp_keyspaces : (s.dropOp i).keyspaces = s.keyspaces := rfl
@[simp] theorem State.dropOp_records : (s.dropOp i).records = s.records := rfl
@[simp] theorem State.dropOp_hulls : (s.dropOp i).hulls = s.hulls := rfl
@[simp] theorem State.dropOp_stalled : (s.dropOp i).stalled = s.stalled := rfl
@[simp] theorem State.dropOp_out : (s.dropOp i).out = s.out := rfl
end

section
variable (s : State) (f : Outside → Outside)
@[simp] theorem State.updOut_cur : (s.updOut f).cur = s.cur := rfl
@[simp] theorem State.updOut_agenda : (s.updOut f).agenda = s.agenda := rfl
@[simp] theorem State.updOut_tick : (s.updOut f).tick = s.tick := rfl
@[simp] theorem State.updOut_nextId : (s.updOut f).nextId = s.nextId := rfl
@[simp] theorem State.updOut_mem : (s.updOut f).mem = s.mem := rfl
@[simp] theorem State.updOut_marks : (s.updOut f).marks = s.marks := rfl
@[simp] theorem State.updOut_tags : (s.updOut f).tags = s.tags := rfl
@[simp] theorem State.updOut_swm : (s.updOut f).swm = s.swm := rfl
@[simp] theorem State.updOut_pend : (s.updOut f).pend = s.pend := rfl
@[simp] theorem State.updOut_blocks : (s.updOut f).blocks = s.blocks := rfl
@[simp] theorem State.updOut_fills : (s.updOut f).fills = s.fills := rfl
@[simp] theorem State.updOut_tlbs : (s.updOut f).tlbs = s.tlbs := rfl
@[simp] theorem State.updOut_monitors : (s.updOut f).monitors = s.monitors := rfl
@[simp] theorem State.updOut_guests : (s.updOut f).guests = s.guests := rfl
@[simp] theorem State.updOut_gens : (s.updOut f).gens = s.gens := rfl
@[simp] theorem State.updOut_known : (s.updOut f).known = s.known := rfl
@[simp] theorem State.updOut_pageKeys : (s.updOut f).pageKeys = s.pageKeys := rfl
@[simp] theorem State.updOut_ciphers : (s.updOut f).ciphers = s.ciphers := rfl
@[simp] theorem State.updOut_waves : (s.updOut f).waves = s.waves := rfl
@[simp] theorem State.updOut_teams : (s.updOut f).teams = s.teams := rfl
@[simp] theorem State.updOut_grids : (s.updOut f).grids = s.grids := rfl
@[simp] theorem State.updOut_ops : (s.updOut f).ops = s.ops := rfl
@[simp] theorem State.updOut_held : (s.updOut f).held = s.held := rfl
@[simp] theorem State.updOut_clusters : (s.updOut f).clusters = s.clusters := rfl
@[simp] theorem State.updOut_gated : (s.updOut f).gated = s.gated := rfl
@[simp] theorem State.updOut_lanemap : (s.updOut f).lanemap = s.lanemap := rfl
@[simp] theorem State.updOut_arrivals : (s.updOut f).arrivals = s.arrivals := rfl
@[simp] theorem State.updOut_handles : (s.updOut f).handles = s.handles := rfl
@[simp] theorem State.updOut_tenures : (s.updOut f).tenures = s.tenures := rfl
@[simp] theorem State.updOut_pins : (s.updOut f).pins = s.pins := rfl
@[simp] theorem State.updOut_parts : (s.updOut f).parts = s.parts := rfl
@[simp] theorem State.updOut_shared : (s.updOut f).shared = s.shared := rfl
@[simp] theorem State.updOut_keys : (s.updOut f).keys = s.keys := rfl
@[simp] theorem State.updOut_ctxs : (s.updOut f).ctxs = s.ctxs := rfl
@[simp] theorem State.updOut_queues : (s.updOut f).queues = s.queues := rfl
@[simp] theorem State.updOut_lists : (s.updOut f).lists = s.lists := rfl
@[simp] theorem State.updOut_keyspaces : (s.updOut f).keyspaces = s.keyspaces := rfl
@[simp] theorem State.updOut_records : (s.updOut f).records = s.records := rfl
@[simp] theorem State.updOut_hulls : (s.updOut f).hulls = s.hulls := rfl
@[simp] theorem State.updOut_stalled : (s.updOut f).stalled = s.stalled := rfl
end

section
variable (s : State)
@[simp] theorem State.bump_cur : s.bump.cur = s.cur := rfl
@[simp] theorem State.bump_agenda : s.bump.agenda = s.agenda := rfl
@[simp] theorem State.bump_nextId : s.bump.nextId = s.nextId := rfl
@[simp] theorem State.bump_mem : s.bump.mem = s.mem := rfl
@[simp] theorem State.bump_marks : s.bump.marks = s.marks := rfl
@[simp] theorem State.bump_tags : s.bump.tags = s.tags := rfl
@[simp] theorem State.bump_swm : s.bump.swm = s.swm := rfl
@[simp] theorem State.bump_pend : s.bump.pend = s.pend := rfl
@[simp] theorem State.bump_blocks : s.bump.blocks = s.blocks := rfl
@[simp] theorem State.bump_fills : s.bump.fills = s.fills := rfl
@[simp] theorem State.bump_tlbs : s.bump.tlbs = s.tlbs := rfl
@[simp] theorem State.bump_monitors : s.bump.monitors = s.monitors := rfl
@[simp] theorem State.bump_guests : s.bump.guests = s.guests := rfl
@[simp] theorem State.bump_gens : s.bump.gens = s.gens := rfl
@[simp] theorem State.bump_known : s.bump.known = s.known := rfl
@[simp] theorem State.bump_pageKeys : s.bump.pageKeys = s.pageKeys := rfl
@[simp] theorem State.bump_ciphers : s.bump.ciphers = s.ciphers := rfl
@[simp] theorem State.bump_waves : s.bump.waves = s.waves := rfl
@[simp] theorem State.bump_teams : s.bump.teams = s.teams := rfl
@[simp] theorem State.bump_grids : s.bump.grids = s.grids := rfl
@[simp] theorem State.bump_ops : s.bump.ops = s.ops := rfl
@[simp] theorem State.bump_held : s.bump.held = s.held := rfl
@[simp] theorem State.bump_clusters : s.bump.clusters = s.clusters := rfl
@[simp] theorem State.bump_gated : s.bump.gated = s.gated := rfl
@[simp] theorem State.bump_lanemap : s.bump.lanemap = s.lanemap := rfl
@[simp] theorem State.bump_arrivals : s.bump.arrivals = s.arrivals := rfl
@[simp] theorem State.bump_handles : s.bump.handles = s.handles := rfl
@[simp] theorem State.bump_tenures : s.bump.tenures = s.tenures := rfl
@[simp] theorem State.bump_pins : s.bump.pins = s.pins := rfl
@[simp] theorem State.bump_parts : s.bump.parts = s.parts := rfl
@[simp] theorem State.bump_shared : s.bump.shared = s.shared := rfl
@[simp] theorem State.bump_keys : s.bump.keys = s.keys := rfl
@[simp] theorem State.bump_ctxs : s.bump.ctxs = s.ctxs := rfl
@[simp] theorem State.bump_queues : s.bump.queues = s.queues := rfl
@[simp] theorem State.bump_lists : s.bump.lists = s.lists := rfl
@[simp] theorem State.bump_keyspaces : s.bump.keyspaces = s.keyspaces := rfl
@[simp] theorem State.bump_records : s.bump.records = s.records := rfl
@[simp] theorem State.bump_hulls : s.bump.hulls = s.hulls := rfl
@[simp] theorem State.bump_stalled : s.bump.stalled = s.stalled := rfl
@[simp] theorem State.bump_out : s.bump.out = s.out := rfl
end

section
variable (s : State)
@[simp] theorem State.awake_cur : s.awake.cur = s.cur := rfl
@[simp] theorem State.awake_agenda : s.awake.agenda = s.agenda := rfl
@[simp] theorem State.awake_tick : s.awake.tick = s.tick := rfl
@[simp] theorem State.awake_nextId : s.awake.nextId = s.nextId := rfl
@[simp] theorem State.awake_mem : s.awake.mem = s.mem := rfl
@[simp] theorem State.awake_marks : s.awake.marks = s.marks := rfl
@[simp] theorem State.awake_tags : s.awake.tags = s.tags := rfl
@[simp] theorem State.awake_swm : s.awake.swm = s.swm := rfl
@[simp] theorem State.awake_pend : s.awake.pend = s.pend := rfl
@[simp] theorem State.awake_blocks : s.awake.blocks = s.blocks := rfl
@[simp] theorem State.awake_fills : s.awake.fills = s.fills := rfl
@[simp] theorem State.awake_tlbs : s.awake.tlbs = s.tlbs := rfl
@[simp] theorem State.awake_monitors : s.awake.monitors = s.monitors := rfl
@[simp] theorem State.awake_guests : s.awake.guests = s.guests := rfl
@[simp] theorem State.awake_gens : s.awake.gens = s.gens := rfl
@[simp] theorem State.awake_known : s.awake.known = s.known := rfl
@[simp] theorem State.awake_pageKeys : s.awake.pageKeys = s.pageKeys := rfl
@[simp] theorem State.awake_ciphers : s.awake.ciphers = s.ciphers := rfl
@[simp] theorem State.awake_waves : s.awake.waves = s.waves := rfl
@[simp] theorem State.awake_teams : s.awake.teams = s.teams := rfl
@[simp] theorem State.awake_grids : s.awake.grids = s.grids := rfl
@[simp] theorem State.awake_ops : s.awake.ops = s.ops := rfl
@[simp] theorem State.awake_held : s.awake.held = s.held := rfl
@[simp] theorem State.awake_clusters : s.awake.clusters = s.clusters := rfl
@[simp] theorem State.awake_gated : s.awake.gated = s.gated := rfl
@[simp] theorem State.awake_lanemap : s.awake.lanemap = s.lanemap := rfl
@[simp] theorem State.awake_arrivals : s.awake.arrivals = s.arrivals := rfl
@[simp] theorem State.awake_handles : s.awake.handles = s.handles := rfl
@[simp] theorem State.awake_tenures : s.awake.tenures = s.tenures := rfl
@[simp] theorem State.awake_pins : s.awake.pins = s.pins := rfl
@[simp] theorem State.awake_parts : s.awake.parts = s.parts := rfl
@[simp] theorem State.awake_shared : s.awake.shared = s.shared := rfl
@[simp] theorem State.awake_keys : s.awake.keys = s.keys := rfl
@[simp] theorem State.awake_ctxs : s.awake.ctxs = s.ctxs := rfl
@[simp] theorem State.awake_queues : s.awake.queues = s.queues := rfl
@[simp] theorem State.awake_lists : s.awake.lists = s.lists := rfl
@[simp] theorem State.awake_keyspaces : s.awake.keyspaces = s.keyspaces := rfl
@[simp] theorem State.awake_records : s.awake.records = s.records := rfl
@[simp] theorem State.awake_hulls : s.awake.hulls = s.hulls := rfl
@[simp] theorem State.awake_out : s.awake.out = s.out := rfl
end

section
variable (s : State) (r : Rec)
@[simp] theorem State.addRec_cur : (s.addRec r).cur = s.cur := rfl
@[simp] theorem State.addRec_agenda : (s.addRec r).agenda = s.agenda := rfl
@[simp] theorem State.addRec_tick : (s.addRec r).tick = s.tick := rfl
@[simp] theorem State.addRec_nextId : (s.addRec r).nextId = s.nextId := rfl
@[simp] theorem State.addRec_mem : (s.addRec r).mem = s.mem := rfl
@[simp] theorem State.addRec_marks : (s.addRec r).marks = s.marks := rfl
@[simp] theorem State.addRec_tags : (s.addRec r).tags = s.tags := rfl
@[simp] theorem State.addRec_swm : (s.addRec r).swm = s.swm := rfl
@[simp] theorem State.addRec_pend : (s.addRec r).pend = s.pend := rfl
@[simp] theorem State.addRec_blocks : (s.addRec r).blocks = s.blocks := rfl
@[simp] theorem State.addRec_fills : (s.addRec r).fills = s.fills := rfl
@[simp] theorem State.addRec_tlbs : (s.addRec r).tlbs = s.tlbs := rfl
@[simp] theorem State.addRec_monitors : (s.addRec r).monitors = s.monitors := rfl
@[simp] theorem State.addRec_guests : (s.addRec r).guests = s.guests := rfl
@[simp] theorem State.addRec_gens : (s.addRec r).gens = s.gens := rfl
@[simp] theorem State.addRec_known : (s.addRec r).known = s.known := rfl
@[simp] theorem State.addRec_pageKeys : (s.addRec r).pageKeys = s.pageKeys := rfl
@[simp] theorem State.addRec_ciphers : (s.addRec r).ciphers = s.ciphers := rfl
@[simp] theorem State.addRec_waves : (s.addRec r).waves = s.waves := rfl
@[simp] theorem State.addRec_teams : (s.addRec r).teams = s.teams := rfl
@[simp] theorem State.addRec_grids : (s.addRec r).grids = s.grids := rfl
@[simp] theorem State.addRec_ops : (s.addRec r).ops = s.ops := rfl
@[simp] theorem State.addRec_held : (s.addRec r).held = s.held := rfl
@[simp] theorem State.addRec_clusters : (s.addRec r).clusters = s.clusters := rfl
@[simp] theorem State.addRec_gated : (s.addRec r).gated = s.gated := rfl
@[simp] theorem State.addRec_lanemap : (s.addRec r).lanemap = s.lanemap := rfl
@[simp] theorem State.addRec_arrivals : (s.addRec r).arrivals = s.arrivals := rfl
@[simp] theorem State.addRec_handles : (s.addRec r).handles = s.handles := rfl
@[simp] theorem State.addRec_tenures : (s.addRec r).tenures = s.tenures := rfl
@[simp] theorem State.addRec_pins : (s.addRec r).pins = s.pins := rfl
@[simp] theorem State.addRec_parts : (s.addRec r).parts = s.parts := rfl
@[simp] theorem State.addRec_shared : (s.addRec r).shared = s.shared := rfl
@[simp] theorem State.addRec_keys : (s.addRec r).keys = s.keys := rfl
@[simp] theorem State.addRec_ctxs : (s.addRec r).ctxs = s.ctxs := rfl
@[simp] theorem State.addRec_queues : (s.addRec r).queues = s.queues := rfl
@[simp] theorem State.addRec_lists : (s.addRec r).lists = s.lists := rfl
@[simp] theorem State.addRec_keyspaces : (s.addRec r).keyspaces = s.keyspaces := rfl
@[simp] theorem State.addRec_hulls : (s.addRec r).hulls = s.hulls := rfl
@[simp] theorem State.addRec_stalled : (s.addRec r).stalled = s.stalled := rfl
@[simp] theorem State.addRec_out : (s.addRec r).out = s.out := rfl
end

section
variable (s : State) (o : Op)
@[simp] theorem State.addOp_cur : (s.addOp o).cur = s.cur := rfl
@[simp] theorem State.addOp_agenda : (s.addOp o).agenda = s.agenda := rfl
@[simp] theorem State.addOp_tick : (s.addOp o).tick = s.tick := rfl
@[simp] theorem State.addOp_mem : (s.addOp o).mem = s.mem := rfl
@[simp] theorem State.addOp_marks : (s.addOp o).marks = s.marks := rfl
@[simp] theorem State.addOp_tags : (s.addOp o).tags = s.tags := rfl
@[simp] theorem State.addOp_swm : (s.addOp o).swm = s.swm := rfl
@[simp] theorem State.addOp_pend : (s.addOp o).pend = s.pend := rfl
@[simp] theorem State.addOp_blocks : (s.addOp o).blocks = s.blocks := rfl
@[simp] theorem State.addOp_fills : (s.addOp o).fills = s.fills := rfl
@[simp] theorem State.addOp_tlbs : (s.addOp o).tlbs = s.tlbs := rfl
@[simp] theorem State.addOp_monitors : (s.addOp o).monitors = s.monitors := rfl
@[simp] theorem State.addOp_guests : (s.addOp o).guests = s.guests := rfl
@[simp] theorem State.addOp_gens : (s.addOp o).gens = s.gens := rfl
@[simp] theorem State.addOp_known : (s.addOp o).known = s.known := rfl
@[simp] theorem State.addOp_pageKeys : (s.addOp o).pageKeys = s.pageKeys := rfl
@[simp] theorem State.addOp_ciphers : (s.addOp o).ciphers = s.ciphers := rfl
@[simp] theorem State.addOp_waves : (s.addOp o).waves = s.waves := rfl
@[simp] theorem State.addOp_teams : (s.addOp o).teams = s.teams := rfl
@[simp] theorem State.addOp_grids : (s.addOp o).grids = s.grids := rfl
@[simp] theorem State.addOp_held : (s.addOp o).held = s.held := rfl
@[simp] theorem State.addOp_clusters : (s.addOp o).clusters = s.clusters := rfl
@[simp] theorem State.addOp_gated : (s.addOp o).gated = s.gated := rfl
@[simp] theorem State.addOp_lanemap : (s.addOp o).lanemap = s.lanemap := rfl
@[simp] theorem State.addOp_arrivals : (s.addOp o).arrivals = s.arrivals := rfl
@[simp] theorem State.addOp_handles : (s.addOp o).handles = s.handles := rfl
@[simp] theorem State.addOp_tenures : (s.addOp o).tenures = s.tenures := rfl
@[simp] theorem State.addOp_pins : (s.addOp o).pins = s.pins := rfl
@[simp] theorem State.addOp_parts : (s.addOp o).parts = s.parts := rfl
@[simp] theorem State.addOp_shared : (s.addOp o).shared = s.shared := rfl
@[simp] theorem State.addOp_keys : (s.addOp o).keys = s.keys := rfl
@[simp] theorem State.addOp_ctxs : (s.addOp o).ctxs = s.ctxs := rfl
@[simp] theorem State.addOp_queues : (s.addOp o).queues = s.queues := rfl
@[simp] theorem State.addOp_lists : (s.addOp o).lists = s.lists := rfl
@[simp] theorem State.addOp_keyspaces : (s.addOp o).keyspaces = s.keyspaces := rfl
@[simp] theorem State.addOp_records : (s.addOp o).records = s.records := rfl
@[simp] theorem State.addOp_hulls : (s.addOp o).hulls = s.hulls := rfl
@[simp] theorem State.addOp_stalled : (s.addOp o).stalled = s.stalled := rfl
@[simp] theorem State.addOp_out : (s.addOp o).out = s.out := rfl
end

section
variable (w : Wave) (r t : Nat) (x : Word)
@[simp] theorem Wave.setV_id : (w.setV r t x).id = w.id := rfl
@[simp] theorem Wave.setV_team : (w.setV r t x).team = w.team := rfl
@[simp] theorem Wave.setV_w : (w.setV r t x).w = w.w := rfl
@[simp] theorem Wave.setV_role : (w.setV r t x).role = w.role := rfl
@[simp] theorem Wave.setV_state : (w.setV r t x).state = w.state := rfl
@[simp] theorem Wave.setV_block : (w.setV r t x).block = w.block := rfl
@[simp] theorem Wave.setV_savedState : (w.setV r t x).savedState = w.savedState := rfl
@[simp] theorem Wave.setV_a : (w.setV r t x).a = w.a := rfl
@[simp] theorem Wave.setV_s : (w.setV r t x).s = w.s := rfl
@[simp] theorem Wave.setV_p : (w.setV r t x).p = w.p := rfl
@[simp] theorem Wave.setV_flags : (w.setV r t x).flags = w.flags := rfl
@[simp] theorem Wave.setV_sticky : (w.setV r t x).sticky = w.sticky := rfl
@[simp] theorem Wave.setV_seed : (w.setV r t x).seed = w.seed := rfl
@[simp] theorem Wave.setV_ldhint : (w.setV r t x).ldhint = w.ldhint := rfl
@[simp] theorem Wave.setV_left : (w.setV r t x).left = w.left := rfl
@[simp] theorem Wave.setV_trapPc : (w.setV r t x).trapPc = w.trapPc := rfl
@[simp] theorem Wave.setV_trapCtx : (w.setV r t x).trapCtx = w.trapCtx := rfl
@[simp] theorem Wave.setV_trapHdr : (w.setV r t x).trapHdr = w.trapHdr := rfl
@[simp] theorem Wave.setV_sysMode : (w.setV r t x).sysMode = w.sysMode := rfl
@[simp] theorem Wave.setV_sysMask : (w.setV r t x).sysMask = w.sysMask := rfl
@[simp] theorem Wave.setV_frontier : (w.setV r t x).frontier = w.frontier := rfl
@[simp] theorem Wave.setV_sel : (w.setV r t x).sel = w.sel := rfl
@[simp] theorem Wave.setV_rcvMember : (w.setV r t x).rcvMember = w.rcvMember := rfl
@[simp] theorem Wave.setV_rcvWait : (w.setV r t x).rcvWait = w.rcvWait := rfl
@[simp] theorem Wave.setV_boost : (w.setV r t x).boost = w.boost := rfl
@[simp] theorem Wave.setV_final : (w.setV r t x).final = w.final := rfl
@[simp] theorem Wave.setV_held : (w.setV r t x).held = w.held := rfl
@[simp] theorem Wave.setV_fence : (w.setV r t x).fence = w.fence := rfl
@[simp] theorem Wave.setV_fenced : (w.setV r t x).fenced = w.fenced := rfl
@[simp] theorem Wave.setV_finj : (w.setV r t x).finj = w.finj := rfl
@[simp] theorem Wave.setV_sBad : (w.setV r t x).sBad = w.sBad := rfl
@[simp] theorem Wave.setV_aBad : (w.setV r t x).aBad = w.aBad := rfl
@[simp] theorem Wave.setV_aDirty : (w.setV r t x).aDirty = w.aDirty := rfl
@[simp] theorem Wave.setV_lvq : (w.setV r t x).lvq = w.lvq := rfl
@[simp] theorem Wave.setV_sigs : (w.setV r t x).sigs = w.sigs := rfl
@[simp] theorem Wave.setV_retired : (w.setV r t x).retired = w.retired := rfl
end

section
variable (w : Wave) (r : Nat) (x : Word)
@[simp] theorem Wave.setS_id : (w.setS r x).id = w.id := rfl
@[simp] theorem Wave.setS_team : (w.setS r x).team = w.team := rfl
@[simp] theorem Wave.setS_w : (w.setS r x).w = w.w := rfl
@[simp] theorem Wave.setS_role : (w.setS r x).role = w.role := rfl
@[simp] theorem Wave.setS_state : (w.setS r x).state = w.state := rfl
@[simp] theorem Wave.setS_block : (w.setS r x).block = w.block := rfl
@[simp] theorem Wave.setS_savedState : (w.setS r x).savedState = w.savedState := rfl
@[simp] theorem Wave.setS_v : (w.setS r x).v = w.v := rfl
@[simp] theorem Wave.setS_a : (w.setS r x).a = w.a := rfl
@[simp] theorem Wave.setS_p : (w.setS r x).p = w.p := rfl
@[simp] theorem Wave.setS_flags : (w.setS r x).flags = w.flags := rfl
@[simp] theorem Wave.setS_sticky : (w.setS r x).sticky = w.sticky := rfl
@[simp] theorem Wave.setS_seed : (w.setS r x).seed = w.seed := rfl
@[simp] theorem Wave.setS_ldhint : (w.setS r x).ldhint = w.ldhint := rfl
@[simp] theorem Wave.setS_left : (w.setS r x).left = w.left := rfl
@[simp] theorem Wave.setS_trapPc : (w.setS r x).trapPc = w.trapPc := rfl
@[simp] theorem Wave.setS_trapCtx : (w.setS r x).trapCtx = w.trapCtx := rfl
@[simp] theorem Wave.setS_trapHdr : (w.setS r x).trapHdr = w.trapHdr := rfl
@[simp] theorem Wave.setS_sysMode : (w.setS r x).sysMode = w.sysMode := rfl
@[simp] theorem Wave.setS_sysMask : (w.setS r x).sysMask = w.sysMask := rfl
@[simp] theorem Wave.setS_frontier : (w.setS r x).frontier = w.frontier := rfl
@[simp] theorem Wave.setS_sel : (w.setS r x).sel = w.sel := rfl
@[simp] theorem Wave.setS_rcvMember : (w.setS r x).rcvMember = w.rcvMember := rfl
@[simp] theorem Wave.setS_rcvWait : (w.setS r x).rcvWait = w.rcvWait := rfl
@[simp] theorem Wave.setS_boost : (w.setS r x).boost = w.boost := rfl
@[simp] theorem Wave.setS_final : (w.setS r x).final = w.final := rfl
@[simp] theorem Wave.setS_held : (w.setS r x).held = w.held := rfl
@[simp] theorem Wave.setS_fence : (w.setS r x).fence = w.fence := rfl
@[simp] theorem Wave.setS_fenced : (w.setS r x).fenced = w.fenced := rfl
@[simp] theorem Wave.setS_finj : (w.setS r x).finj = w.finj := rfl
@[simp] theorem Wave.setS_vBad : (w.setS r x).vBad = w.vBad := rfl
@[simp] theorem Wave.setS_aBad : (w.setS r x).aBad = w.aBad := rfl
@[simp] theorem Wave.setS_vDirty : (w.setS r x).vDirty = w.vDirty := rfl
@[simp] theorem Wave.setS_aDirty : (w.setS r x).aDirty = w.aDirty := rfl
@[simp] theorem Wave.setS_lvq : (w.setS r x).lvq = w.lvq := rfl
@[simp] theorem Wave.setS_sigs : (w.setS r x).sigs = w.sigs := rfl
@[simp] theorem Wave.setS_retired : (w.setS r x).retired = w.retired := rfl
end

section
variable (w : Wave) (r t : Nat) (x : BitVec 128)
@[simp] theorem Wave.setA_id : (w.setA r t x).id = w.id := rfl
@[simp] theorem Wave.setA_team : (w.setA r t x).team = w.team := rfl
@[simp] theorem Wave.setA_w : (w.setA r t x).w = w.w := rfl
@[simp] theorem Wave.setA_role : (w.setA r t x).role = w.role := rfl
@[simp] theorem Wave.setA_state : (w.setA r t x).state = w.state := rfl
@[simp] theorem Wave.setA_block : (w.setA r t x).block = w.block := rfl
@[simp] theorem Wave.setA_savedState : (w.setA r t x).savedState = w.savedState := rfl
@[simp] theorem Wave.setA_v : (w.setA r t x).v = w.v := rfl
@[simp] theorem Wave.setA_s : (w.setA r t x).s = w.s := rfl
@[simp] theorem Wave.setA_p : (w.setA r t x).p = w.p := rfl
@[simp] theorem Wave.setA_flags : (w.setA r t x).flags = w.flags := rfl
@[simp] theorem Wave.setA_sticky : (w.setA r t x).sticky = w.sticky := rfl
@[simp] theorem Wave.setA_seed : (w.setA r t x).seed = w.seed := rfl
@[simp] theorem Wave.setA_ldhint : (w.setA r t x).ldhint = w.ldhint := rfl
@[simp] theorem Wave.setA_left : (w.setA r t x).left = w.left := rfl
@[simp] theorem Wave.setA_trapPc : (w.setA r t x).trapPc = w.trapPc := rfl
@[simp] theorem Wave.setA_trapCtx : (w.setA r t x).trapCtx = w.trapCtx := rfl
@[simp] theorem Wave.setA_trapHdr : (w.setA r t x).trapHdr = w.trapHdr := rfl
@[simp] theorem Wave.setA_sysMode : (w.setA r t x).sysMode = w.sysMode := rfl
@[simp] theorem Wave.setA_sysMask : (w.setA r t x).sysMask = w.sysMask := rfl
@[simp] theorem Wave.setA_frontier : (w.setA r t x).frontier = w.frontier := rfl
@[simp] theorem Wave.setA_sel : (w.setA r t x).sel = w.sel := rfl
@[simp] theorem Wave.setA_rcvMember : (w.setA r t x).rcvMember = w.rcvMember := rfl
@[simp] theorem Wave.setA_rcvWait : (w.setA r t x).rcvWait = w.rcvWait := rfl
@[simp] theorem Wave.setA_boost : (w.setA r t x).boost = w.boost := rfl
@[simp] theorem Wave.setA_final : (w.setA r t x).final = w.final := rfl
@[simp] theorem Wave.setA_held : (w.setA r t x).held = w.held := rfl
@[simp] theorem Wave.setA_fence : (w.setA r t x).fence = w.fence := rfl
@[simp] theorem Wave.setA_fenced : (w.setA r t x).fenced = w.fenced := rfl
@[simp] theorem Wave.setA_finj : (w.setA r t x).finj = w.finj := rfl
@[simp] theorem Wave.setA_vBad : (w.setA r t x).vBad = w.vBad := rfl
@[simp] theorem Wave.setA_sBad : (w.setA r t x).sBad = w.sBad := rfl
@[simp] theorem Wave.setA_vDirty : (w.setA r t x).vDirty = w.vDirty := rfl
@[simp] theorem Wave.setA_lvq : (w.setA r t x).lvq = w.lvq := rfl
@[simp] theorem Wave.setA_sigs : (w.setA r t x).sigs = w.sigs := rfl
@[simp] theorem Wave.setA_retired : (w.setA r t x).retired = w.retired := rfl
end

section
variable (w : Wave) (n x : Nat)
@[simp] theorem Wave.setF_id : (w.setF n x).id = w.id := rfl
@[simp] theorem Wave.setF_team : (w.setF n x).team = w.team := rfl
@[simp] theorem Wave.setF_w : (w.setF n x).w = w.w := rfl
@[simp] theorem Wave.setF_role : (w.setF n x).role = w.role := rfl
@[simp] theorem Wave.setF_state : (w.setF n x).state = w.state := rfl
@[simp] theorem Wave.setF_block : (w.setF n x).block = w.block := rfl
@[simp] theorem Wave.setF_savedState : (w.setF n x).savedState = w.savedState := rfl
@[simp] theorem Wave.setF_v : (w.setF n x).v = w.v := rfl
@[simp] theorem Wave.setF_a : (w.setF n x).a = w.a := rfl
@[simp] theorem Wave.setF_s : (w.setF n x).s = w.s := rfl
@[simp] theorem Wave.setF_p : (w.setF n x).p = w.p := rfl
@[simp] theorem Wave.setF_sticky : (w.setF n x).sticky = w.sticky := rfl
@[simp] theorem Wave.setF_seed : (w.setF n x).seed = w.seed := rfl
@[simp] theorem Wave.setF_ldhint : (w.setF n x).ldhint = w.ldhint := rfl
@[simp] theorem Wave.setF_left : (w.setF n x).left = w.left := rfl
@[simp] theorem Wave.setF_trapPc : (w.setF n x).trapPc = w.trapPc := rfl
@[simp] theorem Wave.setF_trapCtx : (w.setF n x).trapCtx = w.trapCtx := rfl
@[simp] theorem Wave.setF_trapHdr : (w.setF n x).trapHdr = w.trapHdr := rfl
@[simp] theorem Wave.setF_sysMode : (w.setF n x).sysMode = w.sysMode := rfl
@[simp] theorem Wave.setF_sysMask : (w.setF n x).sysMask = w.sysMask := rfl
@[simp] theorem Wave.setF_frontier : (w.setF n x).frontier = w.frontier := rfl
@[simp] theorem Wave.setF_sel : (w.setF n x).sel = w.sel := rfl
@[simp] theorem Wave.setF_rcvMember : (w.setF n x).rcvMember = w.rcvMember := rfl
@[simp] theorem Wave.setF_rcvWait : (w.setF n x).rcvWait = w.rcvWait := rfl
@[simp] theorem Wave.setF_boost : (w.setF n x).boost = w.boost := rfl
@[simp] theorem Wave.setF_final : (w.setF n x).final = w.final := rfl
@[simp] theorem Wave.setF_held : (w.setF n x).held = w.held := rfl
@[simp] theorem Wave.setF_fence : (w.setF n x).fence = w.fence := rfl
@[simp] theorem Wave.setF_fenced : (w.setF n x).fenced = w.fenced := rfl
@[simp] theorem Wave.setF_finj : (w.setF n x).finj = w.finj := rfl
@[simp] theorem Wave.setF_vBad : (w.setF n x).vBad = w.vBad := rfl
@[simp] theorem Wave.setF_sBad : (w.setF n x).sBad = w.sBad := rfl
@[simp] theorem Wave.setF_aBad : (w.setF n x).aBad = w.aBad := rfl
@[simp] theorem Wave.setF_vDirty : (w.setF n x).vDirty = w.vDirty := rfl
@[simp] theorem Wave.setF_aDirty : (w.setF n x).aDirty = w.aDirty := rfl
@[simp] theorem Wave.setF_lvq : (w.setF n x).lvq = w.lvq := rfl
@[simp] theorem Wave.setF_sigs : (w.setF n x).sigs = w.sigs := rfl
@[simp] theorem Wave.setF_retired : (w.setF n x).retired = w.retired := rfl
end

section
variable (w : Wave) (f : Sticky)
@[simp] theorem Wave.raise_id : (w.raise f).id = w.id := rfl
@[simp] theorem Wave.raise_team : (w.raise f).team = w.team := rfl
@[simp] theorem Wave.raise_w : (w.raise f).w = w.w := rfl
@[simp] theorem Wave.raise_role : (w.raise f).role = w.role := rfl
@[simp] theorem Wave.raise_state : (w.raise f).state = w.state := rfl
@[simp] theorem Wave.raise_block : (w.raise f).block = w.block := rfl
@[simp] theorem Wave.raise_savedState : (w.raise f).savedState = w.savedState := rfl
@[simp] theorem Wave.raise_v : (w.raise f).v = w.v := rfl
@[simp] theorem Wave.raise_a : (w.raise f).a = w.a := rfl
@[simp] theorem Wave.raise_s : (w.raise f).s = w.s := rfl
@[simp] theorem Wave.raise_p : (w.raise f).p = w.p := rfl
@[simp] theorem Wave.raise_flags : (w.raise f).flags = w.flags := rfl
@[simp] theorem Wave.raise_seed : (w.raise f).seed = w.seed := rfl
@[simp] theorem Wave.raise_ldhint : (w.raise f).ldhint = w.ldhint := rfl
@[simp] theorem Wave.raise_left : (w.raise f).left = w.left := rfl
@[simp] theorem Wave.raise_trapPc : (w.raise f).trapPc = w.trapPc := rfl
@[simp] theorem Wave.raise_trapCtx : (w.raise f).trapCtx = w.trapCtx := rfl
@[simp] theorem Wave.raise_trapHdr : (w.raise f).trapHdr = w.trapHdr := rfl
@[simp] theorem Wave.raise_sysMode : (w.raise f).sysMode = w.sysMode := rfl
@[simp] theorem Wave.raise_sysMask : (w.raise f).sysMask = w.sysMask := rfl
@[simp] theorem Wave.raise_frontier : (w.raise f).frontier = w.frontier := rfl
@[simp] theorem Wave.raise_sel : (w.raise f).sel = w.sel := rfl
@[simp] theorem Wave.raise_rcvMember : (w.raise f).rcvMember = w.rcvMember := rfl
@[simp] theorem Wave.raise_rcvWait : (w.raise f).rcvWait = w.rcvWait := rfl
@[simp] theorem Wave.raise_boost : (w.raise f).boost = w.boost := rfl
@[simp] theorem Wave.raise_final : (w.raise f).final = w.final := rfl
@[simp] theorem Wave.raise_held : (w.raise f).held = w.held := rfl
@[simp] theorem Wave.raise_fence : (w.raise f).fence = w.fence := rfl
@[simp] theorem Wave.raise_fenced : (w.raise f).fenced = w.fenced := rfl
@[simp] theorem Wave.raise_finj : (w.raise f).finj = w.finj := rfl
@[simp] theorem Wave.raise_vBad : (w.raise f).vBad = w.vBad := rfl
@[simp] theorem Wave.raise_sBad : (w.raise f).sBad = w.sBad := rfl
@[simp] theorem Wave.raise_aBad : (w.raise f).aBad = w.aBad := rfl
@[simp] theorem Wave.raise_vDirty : (w.raise f).vDirty = w.vDirty := rfl
@[simp] theorem Wave.raise_aDirty : (w.raise f).aDirty = w.aDirty := rfl
@[simp] theorem Wave.raise_lvq : (w.raise f).lvq = w.lvq := rfl
@[simp] theorem Wave.raise_sigs : (w.raise f).sigs = w.sigs := rfl
@[simp] theorem Wave.raise_retired : (w.raise f).retired = w.retired := rfl
end

section
variable (w : Wave)
@[simp] theorem Wave.count_id : w.count.id = w.id := rfl
@[simp] theorem Wave.count_team : w.count.team = w.team := rfl
@[simp] theorem Wave.count_w : w.count.w = w.w := rfl
@[simp] theorem Wave.count_role : w.count.role = w.role := rfl
@[simp] theorem Wave.count_state : w.count.state = w.state := rfl
@[simp] theorem Wave.count_block : w.count.block = w.block := rfl
@[simp] theorem Wave.count_savedState : w.count.savedState = w.savedState := rfl
@[simp] theorem Wave.count_v : w.count.v = w.v := rfl
@[simp] theorem Wave.count_a : w.count.a = w.a := rfl
@[simp] theorem Wave.count_s : w.count.s = w.s := rfl
@[simp] theorem Wave.count_p : w.count.p = w.p := rfl
@[simp] theorem Wave.count_flags : w.count.flags = w.flags := rfl
@[simp] theorem Wave.count_sticky : w.count.sticky = w.sticky := rfl
@[simp] theorem Wave.count_seed : w.count.seed = w.seed := rfl
@[simp] theorem Wave.count_ldhint : w.count.ldhint = w.ldhint := rfl
@[simp] theorem Wave.count_trapPc : w.count.trapPc = w.trapPc := rfl
@[simp] theorem Wave.count_trapCtx : w.count.trapCtx = w.trapCtx := rfl
@[simp] theorem Wave.count_trapHdr : w.count.trapHdr = w.trapHdr := rfl
@[simp] theorem Wave.count_sysMode : w.count.sysMode = w.sysMode := rfl
@[simp] theorem Wave.count_sysMask : w.count.sysMask = w.sysMask := rfl
@[simp] theorem Wave.count_frontier : w.count.frontier = w.frontier := rfl
@[simp] theorem Wave.count_sel : w.count.sel = w.sel := rfl
@[simp] theorem Wave.count_rcvMember : w.count.rcvMember = w.rcvMember := rfl
@[simp] theorem Wave.count_rcvWait : w.count.rcvWait = w.rcvWait := rfl
@[simp] theorem Wave.count_boost : w.count.boost = w.boost := rfl
@[simp] theorem Wave.count_final : w.count.final = w.final := rfl
@[simp] theorem Wave.count_held : w.count.held = w.held := rfl
@[simp] theorem Wave.count_fence : w.count.fence = w.fence := rfl
@[simp] theorem Wave.count_fenced : w.count.fenced = w.fenced := rfl
@[simp] theorem Wave.count_finj : w.count.finj = w.finj := rfl
@[simp] theorem Wave.count_vBad : w.count.vBad = w.vBad := rfl
@[simp] theorem Wave.count_sBad : w.count.sBad = w.sBad := rfl
@[simp] theorem Wave.count_aBad : w.count.aBad = w.aBad := rfl
@[simp] theorem Wave.count_vDirty : w.count.vDirty = w.vDirty := rfl
@[simp] theorem Wave.count_aDirty : w.count.aDirty = w.aDirty := rfl
@[simp] theorem Wave.count_lvq : w.count.lvq = w.lvq := rfl
@[simp] theorem Wave.count_sigs : w.count.sigs = w.sigs := rfl
end

section
variable (w : Wave)
@[simp] theorem Wave.flagWake_id : w.flagWake.id = w.id := by rw [w.flagWake_eq]
@[simp] theorem Wave.flagWake_team : w.flagWake.team = w.team := by rw [w.flagWake_eq]
@[simp] theorem Wave.flagWake_w : w.flagWake.w = w.w := by rw [w.flagWake_eq]
@[simp] theorem Wave.flagWake_role : w.flagWake.role = w.role := by rw [w.flagWake_eq]
@[simp] theorem Wave.flagWake_block : w.flagWake.block = w.block := by rw [w.flagWake_eq]
@[simp] theorem Wave.flagWake_savedState : w.flagWake.savedState = w.savedState := by rw [w.flagWake_eq]
@[simp] theorem Wave.flagWake_v : w.flagWake.v = w.v := by rw [w.flagWake_eq]
@[simp] theorem Wave.flagWake_a : w.flagWake.a = w.a := by rw [w.flagWake_eq]
@[simp] theorem Wave.flagWake_s : w.flagWake.s = w.s := by rw [w.flagWake_eq]
@[simp] theorem Wave.flagWake_p : w.flagWake.p = w.p := by rw [w.flagWake_eq]
@[simp] theorem Wave.flagWake_flags : w.flagWake.flags = w.flags := by rw [w.flagWake_eq]
@[simp] theorem Wave.flagWake_sticky : w.flagWake.sticky = w.sticky := by rw [w.flagWake_eq]
@[simp] theorem Wave.flagWake_seed : w.flagWake.seed = w.seed := by rw [w.flagWake_eq]
@[simp] theorem Wave.flagWake_ldhint : w.flagWake.ldhint = w.ldhint := by rw [w.flagWake_eq]
@[simp] theorem Wave.flagWake_left : w.flagWake.left = w.left := by rw [w.flagWake_eq]
@[simp] theorem Wave.flagWake_trapPc : w.flagWake.trapPc = w.trapPc := by rw [w.flagWake_eq]
@[simp] theorem Wave.flagWake_trapCtx : w.flagWake.trapCtx = w.trapCtx := by rw [w.flagWake_eq]
@[simp] theorem Wave.flagWake_trapHdr : w.flagWake.trapHdr = w.trapHdr := by rw [w.flagWake_eq]
@[simp] theorem Wave.flagWake_sysMode : w.flagWake.sysMode = w.sysMode := by rw [w.flagWake_eq]
@[simp] theorem Wave.flagWake_sysMask : w.flagWake.sysMask = w.sysMask := by rw [w.flagWake_eq]
@[simp] theorem Wave.flagWake_frontier : w.flagWake.frontier = w.frontier := by rw [w.flagWake_eq]
@[simp] theorem Wave.flagWake_sel : w.flagWake.sel = w.sel := by rw [w.flagWake_eq]
@[simp] theorem Wave.flagWake_rcvMember : w.flagWake.rcvMember = w.rcvMember := by rw [w.flagWake_eq]
@[simp] theorem Wave.flagWake_rcvWait : w.flagWake.rcvWait = w.rcvWait := by rw [w.flagWake_eq]
@[simp] theorem Wave.flagWake_boost : w.flagWake.boost = w.boost := by rw [w.flagWake_eq]
@[simp] theorem Wave.flagWake_final : w.flagWake.final = w.final := by rw [w.flagWake_eq]
@[simp] theorem Wave.flagWake_held : w.flagWake.held = w.held := by rw [w.flagWake_eq]
@[simp] theorem Wave.flagWake_fence : w.flagWake.fence = w.fence := by rw [w.flagWake_eq]
@[simp] theorem Wave.flagWake_fenced : w.flagWake.fenced = w.fenced := by rw [w.flagWake_eq]
@[simp] theorem Wave.flagWake_finj : w.flagWake.finj = w.finj := by rw [w.flagWake_eq]
@[simp] theorem Wave.flagWake_vBad : w.flagWake.vBad = w.vBad := by rw [w.flagWake_eq]
@[simp] theorem Wave.flagWake_sBad : w.flagWake.sBad = w.sBad := by rw [w.flagWake_eq]
@[simp] theorem Wave.flagWake_aBad : w.flagWake.aBad = w.aBad := by rw [w.flagWake_eq]
@[simp] theorem Wave.flagWake_vDirty : w.flagWake.vDirty = w.vDirty := by rw [w.flagWake_eq]
@[simp] theorem Wave.flagWake_aDirty : w.flagWake.aDirty = w.aDirty := by rw [w.flagWake_eq]
@[simp] theorem Wave.flagWake_lvq : w.flagWake.lvq = w.lvq := by rw [w.flagWake_eq]
@[simp] theorem Wave.flagWake_sigs : w.flagWake.sigs = w.sigs := by rw [w.flagWake_eq]
@[simp] theorem Wave.flagWake_retired : w.flagWake.retired = w.retired := by rw [w.flagWake_eq]
end

section
variable (w : Wave) (n : Nat)
@[simp] theorem Wave.flagDown_id : (w.flagDown n).id = w.id := by simp [Wave.flagDown]
@[simp] theorem Wave.flagDown_team : (w.flagDown n).team = w.team := by simp [Wave.flagDown]
@[simp] theorem Wave.flagDown_w : (w.flagDown n).w = w.w := by simp [Wave.flagDown]
@[simp] theorem Wave.flagDown_role : (w.flagDown n).role = w.role := by simp [Wave.flagDown]
@[simp] theorem Wave.flagDown_block : (w.flagDown n).block = w.block := by simp [Wave.flagDown]
@[simp] theorem Wave.flagDown_savedState : (w.flagDown n).savedState = w.savedState := by simp [Wave.flagDown]
@[simp] theorem Wave.flagDown_v : (w.flagDown n).v = w.v := by simp [Wave.flagDown]
@[simp] theorem Wave.flagDown_a : (w.flagDown n).a = w.a := by simp [Wave.flagDown]
@[simp] theorem Wave.flagDown_s : (w.flagDown n).s = w.s := by simp [Wave.flagDown]
@[simp] theorem Wave.flagDown_p : (w.flagDown n).p = w.p := by simp [Wave.flagDown]
@[simp] theorem Wave.flagDown_sticky : (w.flagDown n).sticky = w.sticky := by simp [Wave.flagDown]
@[simp] theorem Wave.flagDown_seed : (w.flagDown n).seed = w.seed := by simp [Wave.flagDown]
@[simp] theorem Wave.flagDown_ldhint : (w.flagDown n).ldhint = w.ldhint := by simp [Wave.flagDown]
@[simp] theorem Wave.flagDown_left : (w.flagDown n).left = w.left := by simp [Wave.flagDown]
@[simp] theorem Wave.flagDown_trapPc : (w.flagDown n).trapPc = w.trapPc := by simp [Wave.flagDown]
@[simp] theorem Wave.flagDown_trapCtx : (w.flagDown n).trapCtx = w.trapCtx := by simp [Wave.flagDown]
@[simp] theorem Wave.flagDown_trapHdr : (w.flagDown n).trapHdr = w.trapHdr := by simp [Wave.flagDown]
@[simp] theorem Wave.flagDown_sysMode : (w.flagDown n).sysMode = w.sysMode := by simp [Wave.flagDown]
@[simp] theorem Wave.flagDown_sysMask : (w.flagDown n).sysMask = w.sysMask := by simp [Wave.flagDown]
@[simp] theorem Wave.flagDown_frontier : (w.flagDown n).frontier = w.frontier := by simp [Wave.flagDown]
@[simp] theorem Wave.flagDown_sel : (w.flagDown n).sel = w.sel := by simp [Wave.flagDown]
@[simp] theorem Wave.flagDown_rcvMember : (w.flagDown n).rcvMember = w.rcvMember := by simp [Wave.flagDown]
@[simp] theorem Wave.flagDown_rcvWait : (w.flagDown n).rcvWait = w.rcvWait := by simp [Wave.flagDown]
@[simp] theorem Wave.flagDown_boost : (w.flagDown n).boost = w.boost := by simp [Wave.flagDown]
@[simp] theorem Wave.flagDown_final : (w.flagDown n).final = w.final := by simp [Wave.flagDown]
@[simp] theorem Wave.flagDown_held : (w.flagDown n).held = w.held := by simp [Wave.flagDown]
@[simp] theorem Wave.flagDown_fence : (w.flagDown n).fence = w.fence := by simp [Wave.flagDown]
@[simp] theorem Wave.flagDown_fenced : (w.flagDown n).fenced = w.fenced := by simp [Wave.flagDown]
@[simp] theorem Wave.flagDown_finj : (w.flagDown n).finj = w.finj := by simp [Wave.flagDown]
@[simp] theorem Wave.flagDown_vBad : (w.flagDown n).vBad = w.vBad := by simp [Wave.flagDown]
@[simp] theorem Wave.flagDown_sBad : (w.flagDown n).sBad = w.sBad := by simp [Wave.flagDown]
@[simp] theorem Wave.flagDown_aBad : (w.flagDown n).aBad = w.aBad := by simp [Wave.flagDown]
@[simp] theorem Wave.flagDown_vDirty : (w.flagDown n).vDirty = w.vDirty := by simp [Wave.flagDown]
@[simp] theorem Wave.flagDown_aDirty : (w.flagDown n).aDirty = w.aDirty := by simp [Wave.flagDown]
@[simp] theorem Wave.flagDown_lvq : (w.flagDown n).lvq = w.lvq := by simp [Wave.flagDown]
@[simp] theorem Wave.flagDown_sigs : (w.flagDown n).sigs = w.sigs := by simp [Wave.flagDown]
@[simp] theorem Wave.flagDown_retired : (w.flagDown n).retired = w.retired := by simp [Wave.flagDown]
end

end Sys2Proof.Machine
end

