-- ==== Sys2Proof/Tests/Slice0.lean ====
section
/-! SUPPORT. Tests: ill-formed terms that the checks refuse, words of the spec that decode to their instructions, single steps
against the spec's own examples, and for each statement a state and operands that meet its hypotheses. -/

namespace Sys2Proof.Tests

open Machine

-- One theorem is elaborated after another: each is a computation of its own, and together they would need a thread each.
set_option Elab.async false

/-! ## A setting, and what a witness shows in it -/

/-- The setting of log entry 3 with its wave issuing a four-byte instruction that ends its clause body: 32 threads active,
registers as at launch, memory mapped, and nothing in flight. -/
def base : State := (begin? (placeWord State.reset 0x35) 0).getD State.reset

/-- The setting with its wave, its team and its grid changed. -/
def baseWith (f : Wave → Wave) (g : Team → Team := id) (h : Grid → Grid := id) : State :=
  { base with waves := base.waves.map f, teams := base.teams.map g, grids := base.grids.map h }

/-- The wave that `s` names issues `len` bytes at some issue that satisfies `P`. -/
def Seen (s : State) (len : Nat) (P : Issue → Prop) : Prop := ∃ c, Runs s c len ∧ P c

theorem any_some {α : Type} {x : Option α} {p : α → Bool} (h : x.any p = true) : ∃ a, x = some a ∧ p a = true := by
  cases x with
  | none => simp at h
  | some a => exact ⟨a, rfl, h⟩

theorem seen_of {s : State} {len : Nat} {P : Issue → Prop} [DecidablePred P]
    (h : ((issuing s).any fun c => (c.e.ctx.any fun x => decide (c.e.pc + len ≤ x.endPc)) && decide (c.w.left ≠ 0) && decide (P c)) = true) :
    Seen s len P := by
  obtain ⟨c, hc, h⟩ := any_some h
  simp only [Bool.and_eq_true, decide_eq_true_eq] at h
  obtain ⟨x, hx, hb⟩ := any_some h.1.1
  exact ⟨c, ⟨hc, ⟨x, hx, of_decide_eq_true hb⟩, h.1.2⟩, h.2⟩

/-- An operation in flight of a lone wave, with the wave and the issue that made it. -/
theorem flying_of {s : State} {o : Op} {P : Wave → Issue → Prop} [∀ w c, Decidable (P w c)]
    (h : ((s.wave? o.wave).any fun w => (opIssue s o).any fun c =>
      decide (s.op? o.id = some o ∧ w.role = .solo ∧ c.tm.peer = none ∧ P w c)) = true) :
    ∃ w c, Flying s o w c ∧ P w c := by
  obtain ⟨w, hw, h⟩ := any_some h
  obtain ⟨c, hc, h⟩ := any_some h
  obtain ⟨h1, h2, h3, h4⟩ := of_decide_eq_true h
  exact ⟨w, c, ⟨h1, hc, hw, h2, h3⟩, h4⟩

/-! ## Each statement's hypotheses are met: the lane instructions -/

/-- The hypotheses of the statements about Format A forms, with a last-use source that is also the destination. -/
theorem witness_formA : ∃ o : OpA, o.ca ≠ 3 ∧ o.cb ≠ 3 ∧ o.ca = 1 ∧ o.d = o.a ∧ o.d.toNat < 16 ∧ Seen base 4 fun c =>
    Declared c [o.d.toNat, o.a.toNat, o.b.toNat] [] ∧ Unpoisoned c [o.a.toNat, o.b.toNat] [] [] ∧
      Unpoisoned c [o.d.toNat] [] [] ∧ Declared c [o.a.toNat, o.b.toNat] [o.d.toNat] ∧ Unpoisoned c [] [] [o.d.toNat] ∧
      Unpoisoned c [] [o.a.toNat, o.b.toNat] [] ∧ c.mask ≠ 0 :=
  ⟨⟨0, 63, 1, 1, 1⟩, by decide, by decide, rfl, rfl, by decide, seen_of (by decide +kernel)⟩

/-- BitwiseAndMoveResults and UniformResults: vmov, vsplat and the uniform forms. -/
theorem witness_moves : ∃ o : OpDA, o.ca ≠ 3 ∧ Seen base 4 fun c => Declared c [o.d.toNat, o.a.toNat] [] ∧
    Unpoisoned c [o.a.toNat] [o.a.toNat] [] ∧ Unpoisoned c [] [63, o.a.toNat] [] :=
  ⟨⟨1, 2, 63⟩, by decide, seen_of (by decide +kernel)⟩

/-- The setting at a two-byte instruction. -/
def base2 : State := (begin? (placeWord State.reset 0x7C2) 0).getD State.reset

/-- ShortFormResults. -/
theorem witness_shortForms : ∃ o : Op16, Seen base2 2 fun c => Declared c [o.d.toNat, o.b.toNat] [] ∧
    Unpoisoned c [o.d.toNat, o.b.toNat] [] [] :=
  ⟨⟨31, 63⟩, seen_of (by decide +kernel)⟩

/-- ImmediateResults, at the least immediate of Format I and the greatest of Format L. -/
theorem witness_immediates : ∃ (i : OpI) (l : OpL), Seen base 4 fun c => Unpoisoned c [] [i.a.toNat, l.d.toNat] [] ∧
    Declared c [i.d.toNat, i.a.toNat, l.d.toNat] [] ∧ Unpoisoned c [i.a.toNat, l.d.toNat] [] [] :=
  ⟨⟨0x800, 0, 4⟩, ⟨0xFFFF, 63⟩, seen_of (by decide +kernel)⟩

/-- UnaryIntegerResults and OneSourceResults, at the last type of each. -/
theorem witness_unary : ∃ (o : OpUI) (u : OpU), o.ca ≠ 3 ∧ u.ca ≠ 3 ∧ Seen base 4 fun c =>
    Declared c [o.d.toNat, o.a.toNat, u.d.toNat, u.a.toNat] [] ∧ Unpoisoned c [o.a.toNat, u.a.toNat] [] [] :=
  ⟨⟨1, 1, 0, 0⟩, ⟨3, 0, 0, 1⟩, by decide, by decide, seen_of (by decide +kernel)⟩

/-- RoundedFormResults under rs, and under another rounding. -/
theorem witness_rounded : ∃ o p : OpQ, WellFormed (.vfaddQ o) ∧ WellFormed (.vfaddQ p) ∧ rndOf o.rnd.toNat = .rs ∧
    rndOf p.rnd.toNat ≠ .rs ∧ Seen base 4 fun c => Declared c [o.d.toNat, o.a.toNat, o.b.toNat, p.d.toNat, p.a.toNat, p.b.toNat] [] ∧
      Unpoisoned c [o.d.toNat, o.a.toNat, o.b.toNat, p.d.toNat, p.a.toNat, p.b.toNat] [] [] :=
  ⟨⟨2, 5, 1, 0, 0, 1⟩, ⟨3, 0, 0, 0, 0, 1⟩, by decide, by decide, by decide, by decide, seen_of (by decide +kernel)⟩

/-- ConversionResults, to a narrower type under rs. -/
theorem witness_conversion : ∃ o : OpC, WellFormed (.vcvt o) ∧ rndOf o.rnd.toNat = .rs ∧ Seen base 4 fun c =>
    Declared c [o.d.toNat, o.a.toNat] [] ∧ Unpoisoned c [o.a.toNat] [] [] :=
  ⟨⟨1, 5, 2, 1, 0, 0, 1⟩, by decide, by decide, seen_of (by decide +kernel)⟩

/-- CompareAndPredicateResults: one form of each class is well formed, and p0 is written. -/
theorem witness_compares : ∃ (o : OpP) (l : OpPL) (n : OpPN), WellFormed (.vceq o) ∧ WellFormed (.scneu { o with t := 5 }) ∧
    l.pd ≠ 7 ∧ n.pd ≠ 7 ∧ l.pa = 7 ∧ Seen base 4 fun c => Declared c [o.a.toNat, o.b.toNat] [] ∧
      Unpoisoned c [o.a.toNat, o.b.toNat] [o.a.toNat, o.b.toNat] [] :=
  ⟨⟨0, 1, 2, 6, 0⟩, ⟨0, 7, 6⟩, ⟨7, 0⟩, by decide, by decide, by decide, by decide, rfl, seen_of (by decide +kernel)⟩

/-- SelectResult and ShuffleResults, with a source that no thread holds alike. -/
theorem witness_select : ∃ (o : OpE) (x : OpX), o.ca ≠ 3 ∧ o.cb ≠ 3 ∧ x.p ≠ 7 ∧ Seen base 4 fun c =>
    Declared c [o.d.toNat, o.a.toNat, o.b.toNat, x.d.toNat, x.a.toNat, x.b.toNat] [] ∧
      Unpoisoned c [o.a.toNat, o.b.toNat, x.a.toNat, x.b.toNat, x.d.toNat] [x.b.toNat] [] ∧
      c.w.getV o.a.toNat 0 ≠ c.w.getV o.a.toNat 31 :=
  ⟨⟨2, 0, 1, 1, 0, 2⟩, ⟨6, 0, 0, 1⟩, by decide, by decide, by decide, seen_of (by decide +kernel)⟩

/-- AccumulatorResults: azero and the narrowing moves. -/
theorem witness_accumulators : ∃ (o : OpD) (n : OpAD), o.d.toNat < 16 ∧ n.a.toNat < 16 ∧ Seen base 4 fun c =>
    Declared c [n.d.toNat] [o.d.toNat, n.a.toNat] ∧ Unpoisoned c [] [] [n.a.toNat] :=
  ⟨⟨15⟩, ⟨15, 63⟩, by decide, by decide, seen_of (by decide +kernel)⟩

/-- QueryAndVoteResults, with half of the threads active. -/
theorem witness_votes : ∃ (d : OpD) (v : OpVote) (u : OpUni) (a : OpAD) (m : OpCmp), v.p ≠ 7 ∧ u.p ≠ 7 ∧
    Seen (baseWith fun w => { w with frontier := w.frontier.map fun e => { e with mask := 0x0F0F0F0F } }) 4 fun c =>
      c.mask = 0x0F0F0F0F ∧ Declared c [d.d.toNat, u.a.toNat, a.a.toNat, a.d.toNat, m.d.toNat, m.a.toNat] [] ∧
        Unpoisoned c [u.a.toNat, a.a.toNat, m.a.toNat] [] [] :=
  ⟨⟨63⟩, ⟨0, 7⟩, ⟨6, 0⟩, ⟨0, 1⟩, ⟨7, 0, 1⟩, by decide, by decide, seen_of (by decide +kernel)⟩

/-- ReduceAndScanResults and TopKResult, on a narrow type and on the widest. -/
theorem witness_reductions : ∃ (o p : OpT) (k : OpK), WellFormed (.vredAdd o) ∧ WellFormed (.vscanAdd p) ∧
    WellFormed (.vscanxAdd o) ∧ WellFormed (.vtopk k) ∧ (cmpTy o.t.toNat).width ≠ 64 ∧ (cmpTy p.t.toNat).width = 64 ∧
    Seen base 4 fun c => Declared c [o.d.toNat, o.a.toNat, p.d.toNat, p.a.toNat, k.d.toNat, k.a.toNat] [] ∧
      Unpoisoned c [o.d.toNat, o.a.toNat, p.a.toNat, k.a.toNat] [] [] :=
  ⟨⟨0, 1, 0, 1⟩, ⟨2, 0, 0, 0⟩, ⟨31, 0, 0, 0, 0, 0, 1⟩, by decide, by decide, by decide, by decide, by decide, by decide,
    seen_of (by decide +kernel)⟩

/-- IntegerSumIsTree, with threads absent and values at the top of the type. -/
theorem witness_sum : ∃ vals : List (Option Nat), vals.length = 32 ∧ (∀ v ∈ vals, ∀ x ∈ v, x < 2 ^ 32) ∧
    vals.getD 31 none ≠ none :=
  ⟨List.replicate 16 none ++ List.replicate 16 (some (2 ^ 32 - 1)), by decide, by decide, by decide⟩

/-! ## Memory -/

/-- The setting with s10 and each thread's v1 holding usable addresses, s11 a length and s12 a number. -/
def placed : State := baseWith fun w =>
  ({ w with s := (put 0#64 (put 0#64 (put 0#64 w.s 10 0x400) 11 0x100) 12 (BitVec.ofNat 64 0x40)) }).setVs 1 (List.range 32) fun t =>
    BitVec.ofNat 64 (0x400 + 16 * t)

/-- LoadIssues: each space, from vector and uniform bases, with the greatest size and the least offset. -/
theorem witness_loadIssues : ∃ (g : OpLdg) (p : OpLds), ∀ row ∈ loadForms g p, WellFormed row.1 ∧
    let (_, sp, size, d, fsel, base, off) := row
    Seen placed 4 fun c => c.w.role = .solo ∧ c.w.finj = none ∧ FlagFree c fsel ∧
      Declared c (dataRegs size.toNat d.toNat ++ baseV base.toNat) [] ∧ Unpoisoned c (baseV base.toNat) (baseS base.toNat) [] ∧
      (resolveAll c sp .read (formAddr c base off size) (sizeBytes size.toNat)).toOption.any fun r => dataFault c r.1 = none :=
  ⟨⟨8, 7, 0, 0, 33, 62⟩, ⟨8, 7, 1, 10, 62⟩, List.forall_mem_cons.2 ⟨⟨rfl, seen_of (by decide +kernel)⟩,
    List.forall_mem_cons.2 ⟨⟨rfl, seen_of (by decide +kernel)⟩,
    List.forall_mem_cons.2 ⟨⟨rfl, seen_of (by decide +kernel)⟩, List.forall_mem_nil _⟩⟩⟩⟩

/-- StoreIssues: both forms, with a last-use pair as data. -/
theorem witness_storeIssues : ∃ (g : OpStg) (p : OpSts), ∀ row ∈ storeForms g p, WellFormed row.1 ∧
    let (_, sp, size, d, dcode, _, fsel, base, off) := row
    dcode = 1 ∧ Seen placed 4 fun c => c.w.role = .solo ∧ FlagFree c fsel ∧
      Declared c (dataRegs size.toNat d.toNat ++ baseV base.toNat) [] ∧
      Unpoisoned c (dataRegs size.toNat d.toNat ++ baseV base.toNat) (baseS base.toNat) [] ∧
      (resolveAll c sp .write (formAddr c base off size) (sizeBytes size.toNat)).toOption.any fun r =>
        clobberFault c r.1 = none ∧ failedFault c r.1 = none :=
  ⟨⟨7, 7, 0, 0, 1, 33, 62⟩, ⟨8, 7, 1, 1, 33, 62⟩, List.forall_mem_cons.2 ⟨⟨rfl, rfl, seen_of (by decide +kernel)⟩,
    List.forall_mem_cons.2 ⟨⟨rfl, rfl, seen_of (by decide +kernel)⟩, List.forall_mem_nil _⟩⟩⟩

/-- The wave, the team and the grid of the setting. -/
def wave0 : Wave := (base.wave? 0).getD (newWave 0 0 setLaunch 0 0 .solo)
def team0 : Team := newTeam 0 0 0 setLaunch 0 none false
def grid0 : Grid := ⟨0, 0x2000, 1, 0, 0, setLaunch, .running, 1, 0, false, false, [], none, none, 0⟩

/-- A context, where the setting's is asked for. -/
def ctx0 : Context := ⟨1, 0, 0, 0, true, 4, 0, 0, 0, 0, 0, [], 0⟩

/-- A store that its core keeps, with no hint and a run of one word. -/
abbrev kept : StoreHow := ⟨false, 0, 1⟩

/-- An operation of the setting's wave, counted on f1. -/
def flight (k : OpKind) : Op := ⟨5, 0, 0, 0x1004, 0, 1, k, [], false, [], []⟩

/-- The setting with operations in flight. -/
def flying (l : List Op) : State := { base with ops := l }

/-- One thread's access to n bytes of memory, and to n bytes of the team's scratchpad. -/
def memAccess (t loc n : Nat) : Access := ⟨t, (List.range n).map fun i => .mem (loc + i), loc⟩
def spAccess (t off n : Nat) : Access := ⟨t, (List.range n).map fun i => .sp 0 (off + i), off⟩

/-- A block of core 0's L1 with n words of the frame of a location, from its first, held so. -/
def heldAt (loc n : Nat) (x : CWord) : CBlock := ⟨0, loc / 256, 0, List.replicate n x, 0, false⟩

/-- LoadCompletes: a 128-bit load of two threads, one from memory and one from scratchpad, whole and one piece of it. -/
theorem witness_loadCompletes : ∃ (s : State) (o : Op) (w : Wave) (tm : Team) (size d : Nat) (how : LoadHow) (acc : List Access)
    (p : Nat × Option Nat × Nat), s.op? o.id = some o ∧ o.kind = .load size d how acc [] ∧ s.wave? o.wave = some w ∧
    s.team? o.team = some tm ∧ canPerform s o = true ∧ s.tenures = [] ∧ StampsClear s (partOfTeam s tm) (locsOf acc) ∧ (acc.map (·.thread)).Nodup ∧ (∀ a ∈ acc, a.thread < 32) ∧
    (∀ a ∈ acc, ∀ p ∈ a.places, placeMark s tm p = .ok) ∧
    (∀ a ∈ acc, ∀ p ∈ a.places, match p with
      | .mem loc => how.direct.contains (loc / 65536) = false ∧ pendBytes s tm.core (loc / 16) = [] ∧ held? s tm.core (loc / 16) = some .shared
      | .sp _ _ => True) ∧ o.pieces[1]? = some p :=
  let acc := [memAccess 0 0x1000 16, spAccess 31 0xFF0 16]
  let o := flight (.load 7 62 ⟨2, 1, false, []⟩ acc [])
  ⟨{ flying [o] with blocks := [heldAt 0x1000 2 .shared] }, o, wave0, team0, 7, 62, ⟨2, 1, false, []⟩, acc, (o.pieces.getD 1 (0, none, 0)), by
    refine ⟨by decide +kernel, by decide +kernel, by decide +kernel, by decide +kernel, by decide +kernel, by decide +kernel, by decide +kernel,
      by decide +kernel, by decide +kernel, by decide +kernel, fun a ha q hq => ?_, by decide +kernel⟩
    cases q with
    | mem loc =>
      revert loc
      simp only [acc, List.mem_cons, List.not_mem_nil, or_false] at ha
      rcases ha with rfl | rfl
      · simp only [memAccess, List.mem_map, List.mem_range, Place.mem.injEq]
        rintro loc ⟨i, hi, rfl⟩
        revert i
        decide +kernel
      · simp [spAccess]
    | sp _ _ => trivial⟩

/-- LoadCompletes: a load of a word that the core's L1 misses, in the last place of its frame. -/
theorem witness_loadMisses : ∃ (s : State) (o : Op) (w : Wave) (tm : Team) (a : Access) (how : LoadHow), s.op? o.id = some o ∧
    o.kind = .load 4 20 how [a] [] ∧ s.wave? o.wave = some w ∧ s.team? o.team = some tm ∧ canPerform s o = true ∧ a.places ≠ [] ∧
    (∀ p ∈ a.places, ∃ i < 4, p = .mem (0x10F0 + i)) ∧ (∀ p ∈ a.places, placeMark s tm p = .ok) ∧ StampsClear s (partOfTeam s tm) [16 * 0x10F] ∧ how.hint ≠ 3 ∧ how.repl = false ∧
    how.direct = [] ∧ held? s tm.core 0x10F = none ∧ pendBytes s tm.core 0x10F = [] ∧ tm.interval.buffer = [] ∧ s.held = [] ∧
    ∀ f ∈ s.fills, f.core = tm.core → f.frame ≠ 0x10F / 16 :=
  let o := flight (.load 4 20 ⟨1, 16, false, []⟩ [memAccess 0 0x10F0 4] [])
  ⟨{ flying [o] with blocks := [heldAt 0x1000 15 .shared], fills := [⟨0, 0, 0x11, 0, 1, false, 0, false, true, none⟩] }, o, wave0, team0,
    memAccess 0 0x10F0 4, ⟨1, 16, false, []⟩, by decide +kernel⟩

/-- StoreCompletes to memory: two threads whose bytes overlap, behind a store that the core's L1 holds. -/
theorem witness_storeCompletes : ∃ (s : State) (o : Op) (w : Wave) (tm : Team) (acc : List (Access × Nat)) (p : Nat × Option Nat × Nat),
    SoundPends s ∧ s.op? o.id = some o ∧ o.kind = .store kept acc ∧ s.wave? o.wave = some w ∧ w.role = .solo ∧
    s.team? o.team = some tm ∧ tm.holds = false ∧ canPerform s o = true ∧
    (∀ a ∈ acc, ∀ p ∈ a.1.places, ∃ i < 16, p = .mem (0x2000 + i)) ∧ (∀ i < 16, isSwm s (0x2000 + i) = false) ∧
    ownsExclusive s tm.core 0x200 = false ∧ o.pieces[1]? = some p :=
  let acc := [(memAccess 3 0x2000 4, 0x11223344), (memAccess 9 0x2002 4, 0x55667788)]
  let o := flight (.store kept acc)
  ⟨{ flying [o] with pend := [⟨3, 0, 0x200, [(0, 9)], 0, 2, [], 0, 0, 1, 2⟩], nextId := 6 }, o, wave0, team0, acc, (o.pieces.getD 1 (0, none, 0)), by decide +kernel⟩

/-- StoreCompletes to a word of a software-managed page that the core holds as its own. -/
theorem witness_storeOwn : ∃ (s : State) (tm : Team) (bs : List (BitVec 8)), s.team? 0 = some tm ∧ isSwm s 0x2000 = true ∧
    pendBytes s tm.core 0x200 = [] ∧ ownCopy s tm.core 0x200 = some (bs, true, .ok) ∧ bs.length = 16 :=
  ⟨{ base with swm := [(0, true)], blocks := [heldAt 0x2000 1 (.own (List.replicate 16 7) true .ok)] }, team0, List.replicate 16 7, by decide +kernel⟩

/-- StoreCompletes to scratchpad: the first byte past the barrier words and the last of the allocation. -/
theorem witness_storeCompletes_scratchpad : ∃ (s : State) (o : Op) (w : Wave) (tm : Team) (acc : List (Access × Nat)),
    s.op? o.id = some o ∧ o.kind = .store kept acc ∧ s.wave? o.wave = some w ∧ w.role = .solo ∧
    s.team? o.team = some tm ∧ canPerform s o = true ∧
    (∀ a ∈ acc, a.1.places.all fun p => match p with | .mem _ => false | .sp t off => t == o.team && decide (256 ≤ off)) :=
  let acc := [(spAccess 0 256 8, 1), (spAccess 1 4092 4, 2)]
  let o := flight (.store kept acc)
  ⟨flying [o], o, wave0, team0, acc, by decide +kernel⟩

/-- AtomicIssues: a release cas of a pair, an acquiring ldo and a relaxed sto. -/
theorem witness_atomicIssues : ∃ o p q : OpN,
    ∀ row ∈ [(Instr.atomCas o, o, AtomOp.cas, true), (.atomLdo p, p, .ldo, true), (.redSto q, q, .sto, false)], WellFormed row.1 ∧
      let (_, o, op, ret) := row
      let rs := atomRegs op o.size.toNat o.b.toNat
      EndsSafety placed placed (atomReason o) ∧ Seen placed 4 fun c => c.w.role = .solo ∧
        ((placed.team? c.tm.id).any fun tm => tm.holds = false) ∧ FlagFree c o.fsel ∧ Declared c (rs ++ baseV o.base.toNat) [] ∧
        Unpoisoned c ((if op = .ldo then [] else rs) ++ baseV o.base.toNat) (baseS o.base.toNat) [] ∧
        (∀ t ∈ threads c.mask, baseVal c o.base.toNat t % 2 ^ o.size.toNat = 0) ∧
        (resolveAtoms c op o.size.toNat (fun t => baseVal c o.base.toNat t)).toOption.any
          fun r => failedFault c r.1 = none ∧ (ret = true → dataFault c r.1 = none) :=
  ⟨⟨0, 2, 5, 4, 33, 60⟩, ⟨1, 1, 2, 0, 10, 63⟩, ⟨1, 0, 0, 3, 33, 0⟩,
    List.forall_mem_cons.2 ⟨⟨rfl, by decide +kernel, seen_of (by decide +kernel)⟩,
    List.forall_mem_cons.2 ⟨⟨rfl, by decide +kernel, seen_of (by decide +kernel)⟩,
    List.forall_mem_cons.2 ⟨⟨rfl, by decide +kernel, seen_of (by decide +kernel)⟩, List.forall_mem_nil _⟩⟩⟩⟩

/-- AtomicCompletes: a 128-bit exchange that acquires; a 64-bit fadd to a word that the L1 holds exclusive, of which its core takes
ownership; and an add of two threads that acquires and releases. -/
theorem witness_atomicCompletes : ∀ row ∈ [(AtomOp.exch, 4, 1, 3, false, [(31, 0x3000, 2 ^ 127 + 1)]), (.fadd, 3, 0, 1, true, [(0, 0x3FF8, 2 ^ 62)]),
      (.add, 2, 3, 4, false, [(0, 0x3000, 1), (31, 0x3004, 2)])],
    let (op, size, order, scope, own, l) := row
    let acc : List (Access × Nat × Nat) := l.map fun x => (memAccess x.1 x.2.1 (2 ^ size), x.2.2, 0)
    ∃ (s : State) (o : Op) (w : Wave) (tm : Team), SoundMemory s ∧ s.op? o.id = some o ∧ o.kind = .atom op size true order scope 20 own acc ∧
      size ≤ 4 ∧ (op = .fadd → size = 2 ∨ size = 3) ∧ (acc.map (·.1.thread)).Nodup ∧
      (∀ p ∈ acc, p.1.thread < 32 ∧ locOf p.1 % 2 ^ size = 0 ∧ p.1.places = (List.range (2 ^ size)).map fun i => .mem (locOf p.1 + i)) ∧
      s.wave? o.wave = some w ∧ w.role = .solo ∧ w.team = o.team ∧ s.team? o.team = some tm ∧ tm.holds = false ∧ canPerform s o = true ∧
      (2 ≤ order → owes s tm.core scope (o.horizon s) = false) ∧ (∀ p ∈ acc, viewMark s tm (locOf p.1) = .ok) ∧
      (∀ g ∈ s.grids, g.part = partOfCore s tm.core ∨ g.stamps = []) ∧
      let s1 := performPends (if 2 ≤ order then drainFor s tm.core scope else s) tm.core (comesFirst s o (acc.map (·.1)))
      (∀ p ∈ acc, markAt s1 (locOf p.1) = .ok ∧ (∀ e ∈ s1.pend, e.core = tm.core → e.word ≠ locOf p.1 / 16) ∧
        (held? s1 tm.core (locOf p.1 / 16) = none ∨
          (ownsExclusive s1 tm.core (locOf p.1 / 16) = true ∧ isSwm s1 (locOf p.1) = false))) ∧
      (order % 2 = 1 → 2 ≤ scope → cacheWords s1 tm.core CWord.isStale = []) := by
  let on := fun o : Op => ({ flying [o] with nextId := 6, blocks := [heldAt 0x3F00 16 .exclusive],
                                             pend := [⟨3, 0, 0x3F0, [(0, 9)], 0, 2, [], 0, 0, 1, 2⟩] } : State)
  simp only [List.forall_mem_cons]
  let o1 := flight (.atom .exch 4 true 1 3 20 false [(memAccess 31 0x3000 16, 2 ^ 127 + 1, 0)])
  let o2 := flight (.atom .fadd 3 true 0 1 20 true [(memAccess 0 0x3FF8 8, 2 ^ 62, 0)])
  let o3 := flight (.atom .add 2 true 3 4 20 false [(memAccess 0 0x3000 4, 1, 0), (memAccess 31 0x3004 4, 2, 0)])
  exact ⟨⟨on o1, o1, wave0, team0, by decide +kernel⟩, ⟨on o2, o2, wave0, team0, by decide +kernel⟩, ⟨on o3, o3, wave0, team0, by decide +kernel⟩,
    List.forall_mem_nil _⟩

/-- WalkWritesOnlyLeaves: the leaf of the setting, at its place, of a page that is used under key 3. -/
theorem witness_walk : ∃ (s : State) (core : Nat) (x : Xl), (∀ e ∈ s.pend, e.core = core → e.word ≠ x.leafLoc / 16) ∧
    held? s core (x.leafLoc / 16) = none ∧ x.leafLoc % 8 = 0 ∧ get 0 s.pageKeys (x.loc / 65536) = keyTag s (bitsN x.leaf 10 6) ∧
    keyTag s (bitsN x.leaf 10 6) ≠ 0 ∧ (∀ v ∈ x.via, ∀ e ∈ s.pend, e.core = core → e.word ≠ v.1 / 16) ∧
    (∀ t ∈ s.teams, t.core = core → t.stash = []) ∧ (∀ t ∈ s.tenures, ∀ i < 8, t.meets (x.leafLoc + i) = false) ∧
    core < 512 ∧ x.via ≠ [] ∧ ∀ v ∈ x.via, v.1 % 8 = 0 ∧ entryCore (entryAt s core v.1) = entryCore v.2 :=
  let leaf := 0x399 + 3 * 2 ^ 10
  ⟨writeHomeN { base with keys := [(3, 0, [5#8])], pageKeys := [(0, 6)] } 0x110000 8 leaf, 0,
    ⟨0x1000, 0x110000, leaf, 0, [(0x110000, leaf)], 1, 0, false⟩, by decide +kernel⟩


/-! ## Synchronisation -/

/-- A store of core 0 that has not yet been performed for other cores. -/
def dirty : Pend := ⟨3, 0, 0x300, [(0, 7#8), (15, 9#8)], 0, 2, [], 0, 0, 1, 2⟩

/-- The setting with that store, a stale word and one of a software-managed page, changed in the L1. -/
def stored (f : Wave → Wave) : State :=
  { baseWith f with pend := [dirty], nextId := 6, blocks := [heldAt 0x1000 1 (.stale (List.replicate 16 0) .ok 5), heldAt 0x5000 2 (.own (List.replicate 16 7) true .ok)] }

/-- FenceResults: a fence at .sys issues; and one at .team, and one at .cluster beside a held store, complete. -/
theorem witness_fences : (∃ o : OpFence, WellFormed (.fence o) ∧ EndsSafety base base 4 ∧ Seen base 4 fun _ => o.scope = 5) ∧
    ∀ n ∈ [1, 2, 5], ∃ (s : State) (wave : Nat), SoundMemory s ∧ s.pend = [dirty] ∧ Seen { s with cur := wave } 4 fun c =>
      c.w.fence = some n ∧ Settled c ∧ owes s c.tm.core n s.nextId = false ∧
        (4 ≤ n → staleWrites (drainFor { s with cur := wave } c.tm.core n) = false) :=
  ⟨⟨⟨5⟩, rfl, by decide +kernel, seen_of (by decide +kernel)⟩, List.forall_mem_cons.2
    ⟨⟨stored fun w => { w with fence := some 1 }, 0, by decide +kernel, rfl, seen_of (by decide +kernel)⟩, List.forall_mem_cons.2
    ⟨⟨stored fun w => { w with fence := some 2 }, 0, by decide +kernel, rfl, seen_of (by decide +kernel)⟩, List.forall_mem_cons.2
    ⟨⟨stored fun w => { w with fence := some 5 }, 0, by decide +kernel, rfl, seen_of (by decide +kernel)⟩, List.forall_mem_nil _⟩⟩⟩⟩

/-- RangeOperationResults, at issue: racq of the highest core of the partition, and flush. -/
theorem witness_ranges : (∃ o : OpRacq, WellFormed (.racq o) ∧ EndsSafety placed placed 4 ∧ Seen (baseWith fun w =>
      { w with s := (put 0#64 (put 0#64 (put 0#64 w.s 10 0x4000) 11 0x100) 12 15) }) 4 fun c => c.w.role = .solo ∧ FlagFree c o.fsel ∧
      Unpoisoned c [] [o.core.toNat, o.range.toNat, o.range.toNat + 1] [] ∧
      ((c.s.part? c.g.part).any fun p => (c.w.getS o.core.toNat).toNat < 512 ∧ clusterOf (c.w.getS o.core.toNat).toNat ∈ p.clusters)) ∧
    ∃ o : OpFG2, WellFormed (.flush o) ∧ Seen placed 4 fun c => c.w.role = .solo ∧ FlagFree c o.fsel ∧
      Unpoisoned c [] [o.f2.toNat, o.f2.toNat + 1] [] :=
  ⟨⟨⟨1, 5, 10, 12⟩, rfl, by decide +kernel, seen_of (by decide +kernel)⟩, ⟨⟨0, 4, 10⟩, rfl, seen_of (by decide +kernel)⟩⟩

/-- RangeOperationResults, at completion. -/
theorem witness_rangeDone : ∃ (s : State) (o p : Op) (w : Wave) (tm : Team) (rngs : List Rng), SoundMemory s ∧ s.pend = [dirty] ∧
    s.op? o.id = some o ∧ o.kind = .racq 0 rngs ∧ s.op? p.id = some p ∧ p.kind = .flush true 4 rngs ∧ s.wave? o.wave = some w ∧
    w.role = .solo ∧ p.wave = o.wave ∧ s.team? o.team = some tm ∧ p.team = o.team ∧ tm.core < 512 ∧
    (∀ e ∈ s.ops, e.wave = o.wave → e.id < o.id → e.isAcquire = false) ∧ pendOwed s 0 (fun _ => true) = false ∧
    cleanWaits s 0 (fun _ => true) = false ∧ pendOwed s tm.core (fun e => rngs.any fun r => r.word e.word) = false ∧
    cleanWaits s tm.core (fun word => rngs.any fun r => r.word word) = false :=
  let rngs := [⟨none, 0x3000, 0x2100⟩]
  let o := flight (.racq 0 rngs)
  let p := { flight (.flush true 4 rngs) with id := 6 }
  ⟨{ stored id with ops := [o, p] }, o, p, wave0, team0, rngs, by decide +kernel⟩

/-- MonitorWaitResults: an mwait whose condition holds, and one whose does not, on a coherent and on a software-managed page. -/
theorem witness_mwait : ∀ cond ∈ [0, 1], ∃ (o : OpMwait), WellFormed (.mwait o) ∧ o.cond.toNat = cond ∧ EndsSafety placed placed 4 ∧
    Seen placed 4 fun c => c.w.role = .solo ∧
      let n := if o.wide = 1 then 8 else 4
      let addr := (c.w.getS o.addr.toNat).toNat
      addr % n = 0 ∧ Unpoisoned c [] [o.addr.toNat, o.val.toNat] [] ∧ placed.tenures = [] ∧ placed.pend = [] ∧ c.tm.interval.buffer = [] ∧
      placed.held = [] ∧ (translateSpan placed c.cx c.tm.core c.w.sysMode .read addr n).toOption.any fun r =>
        let s2 := touchLeaves placed c.tm.core false r.2
        dataFault c [(⟨c.low, r.1.map .mem, addr⟩, addr)] = none ∧ readWaits c r.1 = false ∧ slicesFull placed c.g.part r.1 = false ∧
        (∀ g ∈ placed.grids, g.part = c.g.part ∨ g.stamps = []) ∧
        (∀ l ∈ r.1, isSwm s2 l = false ∧ held? s2 c.tm.core (l / 16) = none) ∧
        mwaitHolds o.cond.toNat n (leNat (r.1.map (readHome s2))) (c.w.getS o.val.toNat).toNat = (cond = 0) :=
  List.forall_mem_cons.2 ⟨⟨⟨1, 2, 1, 0, 10, 13⟩, rfl, rfl, by decide +kernel, seen_of (by decide +kernel)⟩, List.forall_mem_cons.2
    ⟨⟨⟨0, 0, 1, 1, 10, 13⟩, rfl, rfl, by decide +kernel, seen_of (by decide +kernel)⟩, List.forall_mem_nil _⟩⟩

theorem witness_mwaitOwn : ∃ o : OpMwait, WellFormed (.mwait o) ∧ Seen { placed with swm := [(0, true)] } 4 fun c =>
    (translateSpan c.s c.cx c.tm.core c.w.sysMode .read (c.w.getS o.addr.toNat).toNat 8).toOption.any fun r =>
      ∀ l ∈ r.1, isSwm (touchLeaves c.s c.tm.core false r.2) l = true :=
  ⟨⟨0, 0, 1, 0, 10, 13⟩, rfl, seen_of (by decide +kernel)⟩

/-- MonitorWaitResults: a wave whose monitor has been met, and one without a monitor. -/
theorem witness_monitors : ∀ hit ∈ [true, false], ∃ (s : State) (w : Wave), s.wave? w.id = some w ∧ w.state = .blocked ∧
    w.block = some (.monitor 0x3000 4) ∧ (hit = true → ⟨0, w.id, 0x300, true, false⟩ ∈ s.monitors) ∧
    (hit = false → ∀ m ∈ s.monitors, m.wave ≠ w.id) :=
  let w := { wave0 with state := .blocked, block := some (.monitor 0x3000 4), sel := none }
  List.forall_mem_cons.2 ⟨⟨{ base with waves := [w], monitors := [⟨0, 0, 0x300, true, false⟩] }, w, by decide +kernel⟩,
    List.forall_mem_cons.2 ⟨⟨{ base with waves := [w], monitors := [⟨0, 9, 0x300, true, false⟩] }, w, by decide +kernel⟩, List.forall_mem_nil _⟩⟩

/-- The setting with barrier `id` of its team at a word, and s10 at a number. -/
def barAt (id word n : Nat) : State := baseWith (fun w => { w with s := put 0#64 w.s 10 (BitVec.ofNat 64 n) })
  fun t => { t with sp := spNum t.sp (8 * id) 8 word }

/-- BarrierInitAndArriveResults: counts 65,535 and 0, on the last barrier, unarmed and armed. -/
theorem witness_barInit : ∀ p ∈ [(0, 65535), (barWord 0 3 1, 0)], ∃ o : OpBarInit, Seen (barAt 31 p.1 p.2) 4 fun c =>
    let id := o.id.toNat
    let n := (c.w.getS o.count.toNat).toNat
    c.w.role = .solo ∧ c.tm.peer = none ∧ Unpoisoned c [] [o.count.toNat] [] ∧ n = p.2 ∧ n ≤ 65535 ∧
      c.tm.barrier id = p.1 ∧ (barArmed (c.tm.barrier id) = true → barArrived (c.tm.barrier id) = 0 ∧ ∀ w ∈ c.s.waves, w.state ≠ .blocked) :=
  List.forall_mem_cons.2 ⟨⟨⟨10, 31⟩, seen_of (by decide +kernel)⟩,
    List.forall_mem_cons.2 ⟨⟨⟨10, 31⟩, seen_of (by decide +kernel)⟩, List.forall_mem_nil _⟩⟩

/-- What an arrival at barrier 1 of the setting's team needs. -/
abbrev CanArrive (c : Issue) (bs : BitVec 3) (id left : Nat) : Prop :=
  c.w.role = .solo ∧ c.w.state = .ready ∧ c.w.block = none ∧ Settled c ∧ owes c.s c.tm.core (barScope bs) c.s.nextId = false ∧
    (c.atBoundary (barOwner c bs) id = true → c.w.flagsClear = true) ∧ boundaryHeld c.s (barOwner c bs) id = false ∧
    (c.s.team? (barOwner c bs)).any fun ow => ow.peer = none ∧ ow.state ≠ .lost ∧ holdsArrivals c.s ow = false ∧ barArmed (ow.barrier id) = true ∧
      barArrived (ow.barrier id) + left = barExpected (ow.barrier id)

/-- The setting with a second wave of its team, which waits at a bar.wait on phase 0 of barrier 1 of one arrival. -/
def beside : State :=
  let s := barAt 1 (barWord 0 1 0) 0
  { s with waves := s.waves ++ [{ wave0 with id := 7, state := .blocked, block := some (.barrier 0 1 0 0x1004 1), sel := none }] }

/-- BarrierInitAndArriveResults and BarrierWaitResults: arrivals that leave the phase open and that complete it. -/
theorem witness_barArrive : ∀ left ∈ [1, 2], ∃ (o : OpBarPh) (y : OpBarSync), WellFormed (.barArrive o) ∧ WellFormed (.barSync y) ∧
    barReason o.bs = 4 ∧ Seen (barAt 1 (barWord (65535 - left) 65535 1) 0) 4 fun c => CanArrive c o.bs o.id.toNat left ∧
      CanArrive c y.bs y.id.toNat left ∧ EndsSafety c.s c.s 4 ∧ waiters c.s (barOwner c o.bs) o.id.toNat 1 = [] :=
  List.forall_mem_cons.2 ⟨⟨⟨2, 63, 1⟩, ⟨1, 1⟩, rfl, rfl, rfl, seen_of (by decide +kernel)⟩,
    List.forall_mem_cons.2 ⟨⟨⟨2, 63, 1⟩, ⟨1, 1⟩, rfl, rfl, rfl, seen_of (by decide +kernel)⟩, List.forall_mem_nil _⟩⟩

/-- BarrierInitAndArriveResults: an arrival that completes a phase on which another wave waits. -/
theorem witness_barWaiter : ∃ (o : OpBarPh) (x : Wave) (e : Entry) (xt : Team) (xg : Grid) (xc : Context), WellFormed (.barArrive o) ∧
    Seen beside 4 fun c => CanArrive c o.bs o.id.toNat 1 ∧
      waiters c.s (barOwner c o.bs) o.id.toNat 0 = [(x.id, e.pc, 1)] ∧ x.id ≠ c.w.id ∧ c.s.wave? x.id = some x ∧ x.role = .solo ∧
      x.state = .blocked ∧ x.left ≠ 0 ∧ x.entry? (e.prio, e.pc) = some e ∧
      (x.frontier.find? fun y => y.pc == e.pc && x.issueMask y != 0) = some e ∧ c.s.team? x.team = some xt ∧
      c.s.grid? xt.grid = some xg ∧ c.s.ctx? xg.ctx = some xc :=
  let x := { wave0 with id := 7, state := .blocked, block := some (.barrier 0 1 0 0x1004 1), sel := none }
  ⟨⟨1, 6, 1⟩, x, ⟨0, 0x1004, firstThreads 32, some ⟨0x1000, 0, 1, 0x1008⟩⟩,
    { team0 with sp := spNum team0.sp 8 8 (barWord 0 1 0) }, grid0, (base.ctx? 1).getD ctx0, rfl,
    seen_of (by decide +kernel)⟩

/-- BarrierWaitResults: waits on a phase that is over, and on one that is not; and a bar.sync that has arrived. -/
theorem witness_barWait : ∀ phase ∈ [0, 1], ∃ (o : OpBarPh), WellFormed (.barWait o) ∧
    Seen (barAt 1 (barWord 0 1 0) phase) 4 fun c => c.w.role = .solo ∧ Unpoisoned c [] [o.phase.toNat] [] ∧
      (c.w.getS o.phase.toNat).toNat % 2 = phase ∧ (c.s.team? (barOwner c o.bs)).any fun ow =>
        barArmed (ow.barrier o.id.toNat) = true ∧ barPhase (ow.barrier o.id.toNat) = 0 :=
  List.forall_mem_cons.2 ⟨⟨⟨1, 10, 1⟩, rfl, seen_of (by decide +kernel)⟩,
    List.forall_mem_cons.2 ⟨⟨⟨1, 10, 1⟩, rfl, seen_of (by decide +kernel)⟩, List.forall_mem_nil _⟩⟩

theorem witness_barSyncAgain : ∀ p ∈ [0, 1], ∃ o : OpBarSync, WellFormed (.barSync o) ∧
    Seen (baseWith (fun w => { w with block := some (.barrier 0 1 p 0x1004 1) }) fun t =>
      { t with sp := spNum t.sp 8 8 (barWord 1 2 0) }) 4 fun c =>
      c.w.role = .solo ∧ c.w.state = .ready ∧ c.w.block = some (.barrier (barOwner c o.bs) o.id.toNat p c.e.pc 1) ∧
      (c.s.team? (barOwner c o.bs)).any fun ow => ow.peer = none ∧ barArmed (ow.barrier o.id.toNat) = true :=
  List.forall_mem_cons.2 ⟨⟨⟨1, 1⟩, rfl, seen_of (by decide +kernel)⟩,
    List.forall_mem_cons.2 ⟨⟨⟨1, 1⟩, rfl, seen_of (by decide +kernel)⟩, List.forall_mem_nil _⟩⟩

/-- What a bar.rarrive at the setting's own team needs. -/
abbrev CanReach (c : Issue) (o : OpY2) (P : Team → Nat → Prop) [∀ t n, Decidable (P t n)] : Prop :=
  let a := (c.w.getS o.f2.toNat).toNat
  c.w.role = .solo ∧ c.w.state = .ready ∧ Settled c ∧ owes c.s c.tm.core 2 c.s.nextId = false ∧ Unpoisoned c [] [o.f2.toNat] [] ∧
    a % 8 = 0 ∧ a < 2 ^ 20 ∧ a % 2 ^ 18 < 256 ∧ (gangTeam c.s c.tm c.g (a / 2 ^ 18 % 4)).any fun ow =>
      c.s.team? ow.id = some ow ∧ ow.state ≠ .lost ∧ (c.atBoundary ow.id (a % 2 ^ 18 / 8) = true → c.w.flagsClear = true) ∧
      boundaryHeld c.s ow.id (a % 2 ^ 18 / 8) = false ∧ P ow (a % 2 ^ 18 / 8)

/-- RemoteArrivalResults: an arrival that counts at once. -/
theorem witness_rarrive : ∃ o : OpY2, EndsSafety (barAt 31 (barWord 0 2 1) 248) (barAt 31 (barWord 0 2 1) 248) 4 ∧
    Seen (barAt 31 (barWord 0 2 1) 248) 4 fun c => CanReach c o fun ow id => holdsArrivals c.s ow = false ∧ ow.peer = none ∧
      barArmed (ow.barrier id) = true ∧ barArrived (ow.barrier id) + 1 ≠ barExpected (ow.barrier id) :=
  ⟨⟨10⟩, by decide +kernel, seen_of (by decide +kernel)⟩

/-- RemoteArrivalResults: an arrival that is held, and one that finds the queue full. -/
theorem witness_rarriveHeld : ∀ n ∈ [0, 64], ∃ o : OpY2,
    Seen { barAt 1 (barWord 0 2 1) 8 with gated := [(0, true)], teams := (barAt 1 (barWord 0 2 1) 8).teams ++
      ((List.range 2).map fun i => { team0 with id := 90 + i, core := 1 }), arrivals := (List.range n).map fun i => ⟨90 + i / 32, i % 32, 1⟩ } 4
      fun c => CanReach c o fun ow id => holdsArrivals c.s ow = true ∧ (arrivalsFull c.s ow id = true ↔ n = 64) ∧
        ∀ x ∈ c.s.arrivals, ¬ (x.team = ow.id ∧ x.id = id) :=
  List.forall_mem_cons.2 ⟨⟨⟨10⟩, seen_of (by decide +kernel)⟩,
    List.forall_mem_cons.2 ⟨⟨⟨10⟩, seen_of (by decide +kernel)⟩, List.forall_mem_nil _⟩⟩

/-- RemoteArrivalResults: a held arrival at a core that wakes, at a team that has ended. -/
theorem witness_pendingArrival : ∃ (s : State) (tm : Team) (id : Nat), s.teams = [tm] ∧ tm.state = .ended ∧ tm.peer = none ∧
    id < 32 ∧ s.arrivals = [⟨tm.id, id, 1⟩] ∧ boundaryHeld s tm.id id = false ∧ s.waves = [] ∧ barArmed (tm.barrier id) = true ∧
    barArrived (tm.barrier id) + 1 ≠ barExpected (tm.barrier id) :=
  let tm := { team0 with state := .ended, sp := spNum team0.sp 248 8 (barWord 0 2 0) }
  ⟨{ base with teams := [tm], waves := [], arrivals := [⟨0, 31, 1⟩], gated := [(0, true)] }, tm, 31, by decide +kernel⟩

/-- An acquire drops a copy that was overwritten before what it reads could happen, and may leave a later one (10 R274, Test 4). -/
theorem test_acquire_needs : cacheWords (freshenBy (stored id) 0 5) 0 CWord.isStale = [] ∧
    cacheWords (freshenBy (stored id) 0 4) 0 CWord.isStale = [0x100] := by decide +kernel

/-! ## Engines, tenure and windows -/

/-- Fields written into n bytes of zeros: (offset, width, value). -/
def descBytes (n : Nat) (l : List (Nat × Nat × Nat)) : List (BitVec 8) :=
  (List.range n).map fun i => (l.findSome? fun f => if f.1 ≤ i ∧ i < f.1 + f.2.1 then (leBytes f.2.1 f.2.2)[i - f.1]? else none).getD 0

/-- The setting with s10 = 0x400, s11 = x, s12 = y and the given fields of a descriptor at 0x400. -/
def described (x y : Nat) (l : List (Nat × Nat × Nat)) : State :=
  baseWith (fun w => { w with s := put 0#64 (put 0#64 (put 0#64 w.s 10 0x400) 11 (BitVec.ofNat 64 x)) 12 (BitVec.ofNat 64 y) })
    fun t => { t with sp := l.foldl (fun m f => spNum m (0x400 + f.1) f.2.1 f.2.2) t.sp }

/-- `SpRead` of n bytes at an offset, with what the issue finds there. -/
abbrev Finds (c : Issue) (off n : Nat) (P : Issue → List (BitVec 8) → Prop) [∀ c d, Decidable (P c d)] : Prop :=
  (resolve c .own .read off n).toOption.any fun r => dataFault c [(⟨c.low, r.places, off⟩, off)] = none ∧ P (touching c r) (bytesAt c r)

/-- EngineCopyIssues: gather, scatter, compact and the prefetch of a descriptor. -/
theorem witness_engineIssues : ∃ (o : OpF12) (p : OpF2), EndsSafety (described 0 0 []) (described 0 0 []) 3 ∧
    Seen (described 0 0 []) 4 fun c => c.w.role = .solo ∧ FlagFree c o.fsel ∧ Declared c [o.f1.toNat] [] ∧
      Unpoisoned c [o.f1.toNat] [o.f2.toNat] [] ∧ ScoreRoom c 2 ∧ FlagFree c p.fsel ∧ Unpoisoned c [] [p.f2.toNat] [] ∧
      let off := (c.w.getS o.f2.toNat).toNat
      DescOk c off 64 0x20 ∧ Finds c off 64 (fun _ _ => True) ∧ p.f2 = o.f2 ∧ DescOk c off 128 0x40 ∧
      Finds c off 128 (fun _ _ => True) ∧ off + 256 ≤ c.g.launch.spBytes ∧ Finds c off 256 fun _ _ => True :=
  ⟨⟨0, 10, 63⟩, ⟨1, 10⟩, by decide +kernel, seen_of (by decide +kernel)⟩

/-- An open handle of the setting's context on 64 bytes at 0x3000, whose value is 65,536. -/
def handle0 : Handle := ⟨1, 0, 1, ⟨0x3000, 0, 0, 0, [(64, 1)]⟩⟩

/-- The setting with that handle open, its value in s10, and y in s12. -/
def opened (y : Nat) : State :=
  { baseWith (fun w => { w with s := put 0#64 (put 0#64 w.s 10 65536) 12 (BitVec.ofNat 64 y) }) with handles := [handle0] }

/-- EngineCopyIssues: a prefetch by handle; and slices of a copy, the last one (1) and one that is not (2). -/
theorem witness_copySlices : (∃ p : OpF2, Seen (opened 0) 4 fun c => c.w.role = .solo ∧ FlagFree c p.fsel ∧ Unpoisoned c [] [p.f2.toNat] [] ∧
      handleOf c.s c.g.ctx (c.w.getS p.f2.toNat).toNat = some handle0) ∧
    ∀ n ∈ [1, 2], ∃ o : OpF12, EndsSafety (described (2 ^ 32) 0 [(0x2B, 1, n)]) (described (2 ^ 32) 0 [(0x2B, 1, n)]) 3 ∧
      Seen (described (2 ^ 32) 0 [(0x2B, 1, n)]) 4 fun c => c.w.role = .solo ∧ FlagFree c o.fsel ∧
      Unpoisoned c [] [o.f2.toNat, o.f1.toNat] [] ∧
      let off := (c.w.getS o.f2.toNat).toNat
      DescOk c off 256 0x20 ∧ c.tm.gatherings = [] ∧ ScoreRoom c 2 ∧
      Finds c (off + 0x20) 16 fun c1 word => field word 0x0B 1 = n ∧ Finds c1 off 256 fun _ _ => True :=
  ⟨⟨⟨0, 10⟩, seen_of (by decide +kernel)⟩, List.forall_mem_cons.2 ⟨⟨⟨1, 10, 11⟩, by decide +kernel, seen_of (by decide +kernel)⟩,
    List.forall_mem_cons.2 ⟨⟨⟨1, 10, 11⟩, by decide +kernel, seen_of (by decide +kernel)⟩, List.forall_mem_nil _⟩⟩⟩

/-- EngineCopyCompletes: each kind of engine copy in flight. -/
theorem witness_engineCompletes : ∀ k ∈ [OpKind.pfetch 2 [⟨none, 0x3000, 64⟩], .rows false (descBytes 64 []) 0x400 [(0, 3)],
      .compact (descBytes 128 []) 0xF80], barOn (flight k).rowbar = false ∧ canEngine (flying [flight k]) (flight k) = true ∧
      ∃ w c, Flying (flying [flight k]) (flight k) w c ∧ fetchWaits c (flight k) = false ∧ c.tm.stashed 0x420 8 = false ∧ c.tm.stashed 0xFC0 8 = false ∧ c.s.blocks = [] :=
  List.forall_mem_cons.2 ⟨⟨by decide, by decide +kernel, flying_of (by decide +kernel)⟩,
    List.forall_mem_cons.2 ⟨⟨by decide, by decide +kernel, flying_of (by decide +kernel)⟩,
    List.forall_mem_cons.2 ⟨⟨by decide, by decide +kernel, flying_of (by decide +kernel)⟩, List.forall_mem_nil _⟩⟩⟩

/-- EngineCopyCompletes: a copy of one row of 64 bytes onto a place that overlaps its source. -/
theorem witness_copyRow : ∃ (s : State) (o : Op) (d : List (BitVec 8)) (w : Wave) (c : Issue), Flying s o w c ∧
    o.kind = .copy d 0x400 [(o.wave, 1, 0, 1)] ∧ canEngine s o = true ∧ c.tm.stashed 0x420 8 = false ∧ c.tm.spBad = [] ∧ firstBad (copyChecks c d) = none ∧
    field d 0x2D 1 = 0 ∧ copyDims d = 1 ∧ field d 0x2A 1 = 3 ∧ barOn (field d 0x2E 2) = false ∧ field d 0x10 8 = 0 ∧
    copyRowBytes d = 64 ∧ field d 0 8 = 0x200 ∧ field d 8 8 = 0x220 ∧ spUsable c false 0x200 64 = true ∧ spUsable c true 0x220 64 = true :=
  let d := descBytes 256 [(0, 8, 0x200), (8, 8, 0x220), (0x28, 1, 1), (0x2A, 1, 3), (0x40, 4, 64)]
  let o := flight (.copy d 0x400 [(0, 1, 0, 1)])
  ⟨flying [o], o, d, flying_of (by decide +kernel)⟩

/-- HandleResults: a descriptor that breaks a rule (DIMS 0), and one that does not. -/
theorem witness_hopen : ∀ n ∈ [0, 1], ∃ o : OpF12, EndsSafety (described 0 0 [(8, 1, n), (0x20, 4, 64 * n)]) (described 0 0 [(8, 1, n), (0x20, 4, 64 * n)]) 3 ∧
    Seen (described 0 0 [(8, 1, n), (0x20, 4, 64 * n)]) 4 fun c => c.w.role = .solo ∧ c.tm.peer = none ∧ FlagFree c o.fsel ∧
      Unpoisoned c [] [o.f2.toNat] [] ∧ DescOk c (c.w.getS o.f2.toNat).toNat 128 0x10 ∧
      (Finds c (c.w.getS o.f2.toNat).toNat 128 fun _ d =>
        firstBad (handleChecks d) = (if n = 0 then some 8 else none) ∧ (tileOf d).inSpace = true) ∧ freeHandles c.s c.g.ctx ≠ [] :=
  List.forall_mem_cons.2 ⟨⟨⟨0, 10, 20⟩, by decide +kernel, seen_of (by decide +kernel)⟩,
    List.forall_mem_cons.2 ⟨⟨⟨0, 10, 20⟩, by decide +kernel, seen_of (by decide +kernel)⟩, List.forall_mem_nil _⟩⟩

/-- HandleResults and TenureResults at issue: a split that is possible (at 1 and at 63), one that is not (at 64), a close, a
request and a release. -/
theorem witness_handles : ∀ p ∈ [1, 63, 64], ∃ (o : OpY123) (q : OpF2), WellFormed (.hsplit o) ∧ EndsSafety (opened (p * 2 ^ 32)) (opened (p * 2 ^ 32)) 3 ∧
    Seen (opened (p * 2 ^ 32)) 4 fun c => c.w.role = .solo ∧ c.tm.peer = none ∧ Unpoisoned c [] [o.f2.toNat, o.f3.toNat] [] ∧
      handleOf c.s c.g.ctx (c.w.getS o.f2.toNat).toNat = some handle0 ∧
      ((splitHandle c.s handle0 (bitsN (c.w.getS o.f3.toNat).toNat 0 3) (bitsN (c.w.getS o.f3.toNat).toNat 32 32)).isSome ↔ p < 64) ∧
      storesOwed c.s c.w.id c.s.nextId handle0.ctx handle0.tile = false ∧ tileOwed c.s handle0.ctx handle0.tile = false ∧
      cleanWaits c.s c.tm.core (tileWord c.s handle0.ctx handle0.tile) = false ∧ FlagFree c q.fsel ∧ q.f2 = o.f2 ∧
      holdsTenure c.s c.tm.id handle0 true = false ∧ tenureFault c handle0 true = false :=
  List.forall_mem_cons.2 ⟨⟨⟨12, 10, 20⟩, ⟨0, 10⟩, rfl, by decide +kernel, seen_of (by decide +kernel)⟩,
    List.forall_mem_cons.2 ⟨⟨⟨12, 10, 20⟩, ⟨0, 10⟩, rfl, by decide +kernel, seen_of (by decide +kernel)⟩,
    List.forall_mem_cons.2 ⟨⟨⟨12, 10, 20⟩, ⟨0, 10⟩, rfl, by decide +kernel, seen_of (by decide +kernel)⟩, List.forall_mem_nil _⟩⟩⟩

/-- Write tenure of that handle, held by a team. -/
def tenureOf (team : Nat) : Tenure := ⟨tileHome base 1 handle0.tile, 1, 0, 1, team, true, handle0.tile, false, [(0, 0)]⟩

/-- TenureResults: a request for a mode that the team holds. -/
theorem witness_holds : ∃ o : OpF2, Seen { opened 0 with tenures := [tenureOf 0] } 4 fun c => c.w.role = .solo ∧ FlagFree c o.fsel ∧
    Unpoisoned c [] [o.f2.toNat] [] ∧ handleOf c.s c.g.ctx (c.w.getS o.f2.toNat).toNat = some handle0 ∧
      holdsTenure c.s c.tm.id handle0 true = true :=
  ⟨⟨0, 10⟩, seen_of (by decide +kernel)⟩

/-- TenureResults: a request that may be granted, and a release of a held tenure. -/
theorem witness_tenureEffects : ∃ (s : State) (o p : Op) (w : Wave) (tm : Team) (x : Word), s.op? o.id = some o ∧ o.kind = .hacq true x ∧
    s.op? p.id = some p ∧ p.kind = .hrel true x ∧ p.wave = o.wave ∧ p.team = o.team ∧ s.wave? o.wave = some w ∧ w.role = .solo ∧
    s.team? o.team = some tm ∧ handleOf s (ctxOf s o) x.toNat = some handle0 ∧
    (∀ e ∈ s.ops, e.id < o.id → (match e.kind with | .hacq _ _ => false | _ => true) = true) ∧
    (∀ t ∈ s.tenures, t.excludes s 1 handle0.tile true = false) ∧
    (tableTiles s (tileHome s 1 handle0.tile)).length < tenureEntries ∧ storesOwed s p.wave p.id 1 handle0.tile = false ∧
    tileOwed s 1 handle0.tile = false ∧ cleanWaits s tm.core (tileWord s 1 handle0.tile) = false ∧ SoundPends s ∧ s.pend = [dirty] :=
  let o := flight (.hacq true 65536)
  let p := { flight (.hrel true 65536) with id := 6 }
  ⟨{ flying [o, p] with handles := [handle0], pend := [dirty], nextId := 6 }, o, p, wave0, team0, 65536, by decide +kernel⟩

/-- TenureResults: a write of another team that calls the tenure back. -/
theorem witness_recall : ∃ (s : State) (x : Tenure), s.tenures = [x] ∧ wantsRecall s x true = true ∧ holderBusy s x = false :=
  ⟨{ flying [{ flight (.store kept [(memAccess 0 0x3010 4, 1)]) with team := 3 }] with tenures := [tenureOf 0] }, tenureOf 0, by decide +kernel⟩

/-- WindowResults: pin, unpin (a window that exists, and none), smap, and sunmap (a mapping that exists, and none). -/
theorem witness_windows : ∀ n ∈ [0, 1], ∃ (o : OpY12) (p : OpY123), WellFormed (.smap p) ∧
    Seen { described 0x400 0 [] with pins := if n = 0 then [] else [⟨0x400, 0, 1, 0, 0, 1, [], []⟩],
                                     teams := (described 0x400 0 []).teams.map fun t => { t with stash := if n = 0 then [] else [⟨0, 256, 0x400, []⟩] } } 4 fun c =>
      let off := (c.w.getS o.f2.toNat).toNat
      c.w.role = .solo ∧ c.tm.peer = none ∧ Unpoisoned c [] [o.f2.toNat] [] ∧ off % 64 = 0 ∧ off + 64 ≤ c.g.launch.spBytes ∧ (n = 0 → Finds c off 64 fun _ _ => True) ∧
        ((c.s.pins.find? fun p => p.ctx == c.cx.id && p.num == off).isSome ↔ n = 1) ∧
        ((c.tm.stash.find? fun m => m.spBase == off).isSome ↔ n = 1) ∧ c.teamBusy = false ∧ storesRest c.s c.tm = true ∧
      Unpoisoned c [] [p.f2.toNat, p.f2.toNat + 1, p.f3.toNat] [] ∧ EndsSafety c.s c.s 3 :=
  List.forall_mem_cons.2 ⟨⟨⟨10, 20⟩, ⟨11, 10, 20⟩, rfl, seen_of (by decide +kernel)⟩,
    List.forall_mem_cons.2 ⟨⟨⟨10, 20⟩, ⟨11, 10, 20⟩, rfl, seen_of (by decide +kernel)⟩, List.forall_mem_nil _⟩⟩

/-! ## Format slots and the matrix engine -/

/-- The setting with slots: 0 e4m3 dense; 1 e4m3 scaled in blocks of 16 under rs; 2 cb2 scaled in blocks of 32, its lattice at 0x4000. -/
def slotted (s : State) : State := { s with grids := s.grids.map fun g => { g with launch := { g.launch with slots :=
  [0x1, 0x1 + 2 ^ 8 + 16 * 2 ^ 16 + 5 * 2 ^ 32, 0x6 + 2 ^ 8 + 32 * 2 ^ 16 + 0x4000 * 2 ^ 64, 0x9, 0, 0, 0, 0] } } }

/-- SlotConversionResults: each of the three kinds of slot. -/
theorem witness_slots : ∀ n ∈ [0, 1, 2], ∃ o : OpS, o.ca ≠ 3 ∧ o.slot.toNat = n ∧ Seen (slotted base) 4 fun c =>
    let x := slotOfLaunch c.g.launch o.slot.toNat
    Declared c [o.d.toNat, o.a.toNat, o.b.toNat] [] ∧ Unpoisoned c [o.a.toNat, o.b.toNat] [] [] ∧ slotValid x = true ∧
      slotSparse x = 0 ∧ slotScale x = min n 1 ∧ (slotElem x = 6 ↔ n = 2) ∧
      (n = 2 → ((latticeRead c (slotLattice x) 1024 c.low).toOption.any fun _ => true) ∧
        (entryReads c o x (threads c.mask)).toOption.any fun _ => true) :=
  List.forall_mem_cons.2 ⟨⟨⟨0, 0, 1, 1, 0⟩, by decide, rfl, seen_of (by decide +kernel)⟩,
    List.forall_mem_cons.2 ⟨⟨⟨1, 0, 1, 1, 0⟩, by decide, rfl, seen_of (by decide +kernel)⟩,
    List.forall_mem_cons.2 ⟨⟨⟨2, 31, 0, 0, 0⟩, by decide, rfl, seen_of (by decide +kernel)⟩, List.forall_mem_nil _⟩⟩⟩

/-- MatrixIssues: mma, qcopy and colload, with no token taken. -/
theorem witness_matrixIssues : ∃ (o : OpFG2) (q : OpFG2) (l : OpF2),
    Seen (slotted (described 0 0 [])) 4 fun c => c.w.role = .solo ∧
      EndsSafety c.s c.s 3 ∧ FlagFree c o.fsel ∧ FlagFree c q.fsel ∧ FlagFree c l.fsel ∧ Unpoisoned c [] [o.f2.toNat] [] ∧
      q.f2 = o.f2 ∧ l.f2 = o.f2 ∧
      let off := (c.w.getS o.f2.toNat).toNat
      let x := slotOfLaunch c.g.launch o.g.toNat
      let y := slotOfLaunch c.g.launch q.g.toNat
      off % 64 = 0 ∧ off + 64 ≤ c.g.launch.spBytes ∧ c.tm.clobbers (off + 0x38) 8 = false ∧ slotValid x = true ∧ slotSparse x = 0 ∧
      slotValid y = true ∧ slotSparse y = 0 ∧ slotElem x ≠ 6 ∧ slotElem y = 6 ∧ MmaRoom c ∧ ScoreRoom c 3 ∧
      slotElem y ≠ 7 ∧ slotElem y ≠ 8 ∧ latticePages c y = none ∧ Finds c off 64 fun c1 p =>
        let xb := mmaBSlot c.g.launch p
        slotValid xb = true ∧ tokenFault c (field p 0 1 % 8) true false = none ∧ field p 0x10 4 % 4 = 0 ∧ field p 0x14 4 % 4 = 0 ∧
          field p 0x20 4 % 4 = 0 ∧ blocksAligned xb (mmaK p) = true ∧ streamPages c p o.g.toNat = none ∧
          latticePages c xb = none ∧ ((latticeAt c1 xb).toOption.any fun _ => true) ∧
          field p 0 8 % 4 = 0 ∧ field p 8 4 % 4 = 0 ∧ field p 0x10 8 % 4 = 0 ∧ field p 0x18 4 % 4 = 0 ∧
          ((latticeAt c1 y).toOption.any fun _ => true) ∧ slotValid (slotOfLaunch c.g.launch (field p 0x0C 1 % 8)) = true ∧
          ((field p 0x0F 1).testBit 0 = true → blocksAligned (slotOfLaunch c.g.launch (field p 0x0C 1 % 8)) (field p 0x10 4) = true) :=
  ⟨⟨0, 0, 10⟩, ⟨1, 2, 10⟩, ⟨0, 10⟩, seen_of (by decide +kernel)⟩

/-- MatrixIssues: the tile instructions on a tile that no wave holds, and on one that the wave holds. -/
theorem witness_tiles : ∃ (a b : OpTile), Seen { base with clusters := [⟨0, [], [], [], [], [(7, 0)], 0, none⟩] } 4 fun c =>
    c.w.role = .solo ∧ FlagFree c a.fsel ∧ FlagFree c b.fsel ∧ holderAt c.s (clusterOf c.tm.core) a.c.toNat = none ∧
      holderAt c.s (clusterOf c.tm.core) b.c.toNat = some c.w.id :=
  ⟨⟨0, 6⟩, ⟨1, 7⟩, seen_of (by decide +kernel)⟩

/-- MatrixIssues: tread and twrite of the last row of the accumulating bank, raw and through a slot. -/
theorem witness_tileRows : ∀ raw ∈ [0, 1], ∃ o : OpTRow,
    Seen { slotted (described (127 + 2 ^ 16 + raw * 2 ^ 17) 0 []) with clusters := [⟨0, [], [], [], [], [(0, 0)], 0, none⟩] } 4 fun c =>
      let sp := (c.w.getS o.sp.toNat).toNat
      let rows := (c.w.getS o.rows.toNat).toNat
      let x := slotOfLaunch c.g.launch o.g.toNat
      let n := (rowSpan rows).2 * rowElemBytes rows x * 128
      c.w.role = .solo ∧ FlagFree c o.fsel ∧ Unpoisoned c [] [o.sp.toNat, o.rows.toNat] [] ∧ ScoreRoom c 1 ∧
        bitsN rows 17 1 = raw ∧ bitsN rows 16 1 = 1 ∧ (raw = 1 ∨ slotValid x = true ∧ rowSlot x = true) ∧
        tokenFault c o.c.toNat false true = none ∧ sp % 16 = 0 ∧ 256 ≤ sp ∧ sp + n ≤ c.g.launch.spBytes ∧
        ((resolve c .own .write sp n).toOption.any fun _ => true) ∧ Finds c sp n fun _ _ => True :=
  List.forall_mem_cons.2 ⟨⟨⟨0, 0, 11, 10, 0⟩, seen_of (by decide +kernel)⟩,
    List.forall_mem_cons.2 ⟨⟨⟨0, 0, 11, 10, 0⟩, seen_of (by decide +kernel)⟩, List.forall_mem_nil _⟩⟩

/-- An operation in flight in the slotted setting. -/
def slotFlight (k : OpKind) : State := slotted (flying [flight k])

/-- n bytes of the setting's team's scratchpad. -/
def spPlaces (off n : Nat) : List Place := (List.range n).map fun i => .sp 0 (off + i)

/-- TileResults: each token and bank instruction, and both row moves. -/
theorem witness_tileEffects : ∀ k ∈ [OpKind.tile 1 7, .tile 2 7, .tile 3 7, .tile 4 7, .tileRows true 0 0x400 127 0 1 (spPlaces 0x400 128),
    .tileRows false 7 0x400 (127 + 2 ^ 16) 0 1 (spPlaces 0x400 128)], ∃ w c, Flying (slotFlight k) (flight k) w c ∧
      tileTurn (slotFlight k) (flight k) = true ∧ canEngine (slotFlight k) (flight k) = true ∧
      rowElemBytes 127 (slotOfLaunch c.g.launch 0) * (128 * (rowSpan 127).2) = 128 ∧
      ∀ q ∈ spPlaces 0x400 128, placeMark (beforeEngine ((slotFlight k).dropOp 5) (flight k)) c.tm q = .ok := by
  simp only [List.forall_mem_cons]
  exact ⟨flying_of (by decide +kernel), flying_of (by decide +kernel), flying_of (by decide +kernel), flying_of (by decide +kernel),
    flying_of (by decide +kernel), flying_of (by decide +kernel), List.forall_mem_nil _⟩

/-- A parameter block of mma: tile 0, slot 0, one row and one column of k elements, A at 0x600. -/
def mmaBlock (k : Nat) : List (BitVec 8) := descBytes 64 [(4, 1, 1), (5, 1, 1), (8, 4, k), (0x10, 4, 0x600), (0x14, 4, k)]

/-- MatrixCompletes: a block that breaks a rule (K = 0) and one that does not, offered; and passes granted, the first of many
and the last. -/
theorem witness_mma : (∀ k ∈ [0, 512], ∃ w c, Flying (slotFlight (.mma (mmaBlock k) 0x400 0 none false 0 0))
      (flight (.mma (mmaBlock k) 0x400 0 none false 0 0)) w c ∧ c.tm.stashed 0x438 8 = false ∧
      (firstCode (mmaChecks c.g.launch (mmaBlock k) 0) = none ↔ k = 512)) ∧
    ∀ p ∈ [0, 1000],
      let o := flight (.mma (mmaBlock 512) 0x400 0 none true 0 p)
      ∃ w c, Flying (slotFlight (.mma (mmaBlock 512) 0x400 0 none true 0 p)) o w c ∧
        let es := eligible c.s (opCluster c.s o)
        let s2 := beforeEngine { c.s with ops := c.s.ops.map fun e => e.granted 5 (passedOver es o) } o
        grantee es = some o ∧ (p + 1 < mmaPasses c.g.launch (mmaBlock 512) 0 ↔ p = 0) ∧
          mmaBad s2 { c with s := s2 } (c.s.cluster 0) (mmaBlock 512) 0 none = false ∧ firstCode (mmaChecks c.g.launch (mmaBlock 512) 0) = none := by
  simp only [List.forall_mem_cons]
  exact ⟨⟨flying_of (by decide +kernel), flying_of (by decide +kernel), List.forall_mem_nil _⟩,
    flying_of (by decide +kernel), flying_of (by decide +kernel), List.forall_mem_nil _⟩

/-- A descriptor of colload: slot 0, the last column, its elements alone, k of them, from 0x5000. -/
def colBlock (k : Nat) : List (BitVec 8) := descBytes 64 [(0, 8, 0x5000), (0x0D, 1, 127), (0x0E, 1, 1), (0x0F, 1, 1), (0x10, 4, k)]

/-- A descriptor of qcopy: one row of c columns, from 0x5000 to 0x6000. -/
def qBlock (c : Nat) : List (BitVec 8) :=
  descBytes 64 [(0, 8, 0x5000), (8, 4, 1024), (0x0C, 2, 1), (0x0E, 2, c), (0x10, 8, 0x6000), (0x18, 4, 1024)]

/-- MatrixCompletes: colload and qcopy, each with a block that breaks a rule (no element) and one that does not. -/
theorem witness_colload : ∀ k ∈ [0, 16], (∃ w c, Flying (slotFlight (.colload (colBlock k) 0x400)) (flight (.colload (colBlock k) 0x400)) w c ∧
      (firstCode (colChecks c.g.launch (colBlock k)) = none ↔ k = 16) ∧ canEngine c.s (flight (.colload (colBlock k) 0x400)) = true ∧
      colWaits c.s (flight (.colload (colBlock k) 0x400)) = false ∧
      field (colBlock k) 0 8 % 65536 + columnBytes (slotOfLaunch c.g.launch 0) k ≤ 65536 ∧
      slotScale (slotOfLaunch c.g.launch 0) = 0 ∧
      (engineRead c (beforeEngine (c.s.dropOp 5) (flight (.colload (colBlock k) 0x400))) (field (colBlock k) 0 8) (columnBytes (slotOfLaunch c.g.launch 0) k)).toOption.any fun _ => true) ∧
    ∃ w c, Flying (slotFlight (.qcopy (qBlock k) 0x400 0 none 1)) (flight (.qcopy (qBlock k) 0x400 0 none 1)) w c ∧
      (firstCode (qChecks c (qBlock k) (slotOfLaunch c.g.launch 0)) = none ↔ k = 16) ∧
      canEngine c.s (flight (.qcopy (qBlock k) 0x400 0 none 1)) = true := by
  simp only [List.forall_mem_cons]
  exact ⟨⟨flying_of (by decide +kernel), flying_of (by decide +kernel)⟩, ⟨flying_of (by decide +kernel), flying_of (by decide +kernel)⟩,
    List.forall_mem_nil _⟩

/-! ## Control -/

theorem issues_of {s : State} {P : Issue → Prop} [DecidablePred P] (h : ((issuing s).any fun c => decide (P c)) = true) :
    ∃ c, issuing s = some c ∧ P c := by
  obtain ⟨c, hc, h⟩ := any_some h
  exact ⟨c, hc, of_decide_eq_true h⟩

/-- The setting at a clause header, with n operations counted on f11. -/
def header (n : Nat) : State :=
  let s := (begin? (placeWord State.reset 0x0FC4003F) 0).getD State.reset
  { s with waves := s.waves.map fun w => { w with flags := put 0 w.flags 11 n } }

/-- ControlTransferResults: a header whose flags are clear, and one that waits. -/
theorem witness_header : ∀ n ∈ [0, 63], ∃ o : OpHdr, okHeader o = true ∧
    ∃ c, issuing (header n) = some c ∧
      c.e.ctx = none ∧ c.mask ≠ 0 ∧ (∀ x ∈ c.w.frontier, x.prio = c.e.prio → x.pc ≠ c.e.pc + 4) ∧
      (((List.range 12).all fun k => !o.wait.getLsbD k || c.w.getF k == 0) = true ↔ n = 0) :=
  List.forall_mem_cons.2 ⟨⟨⟨1, 15, 0, 0xFFF⟩, rfl, issues_of (by decide +kernel)⟩,
    List.forall_mem_cons.2 ⟨⟨⟨31, 15, 15, 0x800⟩, rfl, issues_of (by decide +kernel)⟩, List.forall_mem_nil _⟩⟩

/-- ControlTransferResults: the transfers at the end of a body, uniform where they say so. -/
theorem witness_branches : ∃ (a : OpBra) (b : OpBrx) (d : OpY12) (r : OpY2), a.uni = 1 ∧ b.uni = 1 ∧ Seen base 4 fun c =>
    (c.e.ctx.any fun x => c.e.pc + 4 = x.endPc) ∧
      (∀ th ∈ threads c.mask, (c.w.getP a.p.toNat th != (a.neg == 1)) = (c.w.getP a.p.toNat c.low != (a.neg == 1))) ∧
      (∀ th ∈ threads c.mask, c.w.getV b.t.toNat th = c.w.getV b.t.toNat c.low) ∧ Declared c [b.t.toNat, d.f1.toNat, r.f2.toNat] [] ∧
      Unpoisoned c [b.t.toNat, r.f2.toNat] [d.f2.toNat] [] :=
  ⟨⟨0x80000, 1, 1, 7⟩, ⟨1, 63⟩, ⟨0, 1⟩, ⟨0⟩, rfl, rfl, seen_of (by decide +kernel)⟩

/-- ControlTransferResults and WaveControlResults: tret into a clause body, and halt. -/
theorem witness_system : Seen (baseWith fun w => { w with
    sysMode := true, sysMask := firstThreads 32, trapPc := 0x1004, trapCtx := 0x8000000000001008 }) 4 fun c =>
      EndsSafety c.s c.s 3 ∧ c.w.sysMode = true ∧ c.mask = c.w.sysMask ∧ bitsN c.w.trapCtx.toNat 63 1 = 1 ∧
      bitsN c.w.trapPc.toNat 1 51 < bitsN c.w.trapCtx.toNat 1 51 ∧ c.w.role = .solo ∧ c.w.state = .ready :=
  seen_of (by decide +kernel)

/-- WaveControlResults: reconvergence barriers, a trap, and brk in a context with and without DEBUG. -/
theorem witness_waveControl : ∀ debug ∈ [true, false], ∃ (o : OpRcv) (y : OpYield),
    Seen { base with ctxs := base.ctxs.map fun x => { x with debug := debug } } 4 fun c => Machine.get 0#32 c.w.rcvWait o.id.toNat = 0 ∧
      c.w.role = .solo ∧ c.w.state = .ready ∧ c.cx.debug = debug ∧ y.live.toNat = 64 ∧ y.n.toNat ≤ c.g.launch.yieldMax ∧
      y.live.toNat ≤ c.g.launch.vregs :=
  List.forall_mem_cons.2 ⟨⟨⟨3⟩, ⟨15, 64⟩, seen_of (by decide +kernel)⟩,
    List.forall_mem_cons.2 ⟨⟨⟨3⟩, ⟨15, 64⟩, seen_of (by decide +kernel)⟩, List.forall_mem_nil _⟩⟩

/-- WaveControlResults: a yield of a wave whose watchdog has run out and whose partition is halting. -/
theorem witness_yield : ∃ o : OpYield, ∃ c, issuing { baseWith (fun w => { w with left := 0 }) with
      parts := base.parts.map fun p => { p with haltReq := true } } = some c ∧
    (c.e.ctx.any fun x => c.e.pc + 4 ≤ x.endPc) ∧ o.live.toNat ≤ 64 ∧ o.n.toNat ≤ c.g.launch.yieldMax ∧
      o.live.toNat ≤ c.g.launch.vregs ∧ c.halting = true :=
  ⟨⟨4, 8⟩, issues_of (by decide +kernel)⟩

/-- The setting with two stages, its wave at stage k of them and the other one in a state, and queue entries between them. -/
def staged (k : Nat) (other : WState) (q : List Word) : State :=
  let s := baseWith (fun w => { w with w := k }) (fun t => { t with queues := put [] [] 0 q }) fun g =>
    { g with launch := { g.launch with stages := 2, stageDepth := 1 } }
  { s with waves := s.waves ++ [{ wave0 with id := 9, w := 1 - k, state := other }] }

/-- StageQueueResults: a send with room, with none, and to a stage that has retired. -/
theorem witness_qsend : ∀ p ∈ [(WState.ready, []), (.ready, [5#64]), (.retired, [])], ∃ o : OpY2,
    Seen (staged 0 p.1 p.2) 4 fun c => EndsSafety c.s c.s 3 ∧ c.w.role = .solo ∧ Settled c ∧ c.stage + 1 < c.g.launch.stages ∧
      c.g.launch.stages ≤ 4 ∧ Unpoisoned c [] [o.f2.toNat] [] ∧
      (waveRetired c.s c.tm.id (c.w.w + c.g.launch.waves) = true ↔ p.1 = .retired) ∧
      ((c.tm.queue c.spatial c.stage).length < c.g.launch.stageDepth ↔ p.2 = []) := by
  simp only [List.forall_mem_cons]
  exact ⟨⟨⟨3⟩, seen_of (by decide +kernel)⟩, ⟨⟨3⟩, seen_of (by decide +kernel)⟩, ⟨⟨3⟩, seen_of (by decide +kernel)⟩,
    List.forall_mem_nil _⟩

/-- StageQueueResults: a receive of an entry, from an empty queue, and from a stage that has retired. -/
theorem witness_qrecv : ∀ p ∈ [(WState.ready, [5#64]), (.ready, []), (.retired, [])],
    Seen (staged 1 p.1 p.2) 4 fun c => c.w.role = .solo ∧ c.stage ≠ 0 ∧ c.tm.queue c.spatial (c.stage - 1) = p.2 ∧
      (waveRetired c.s c.tm.id (c.w.w - c.g.launch.waves) = true ↔ p.1 = .retired) := by
  simp only [List.forall_mem_cons]
  exact ⟨seen_of (by decide +kernel), seen_of (by decide +kernel), seen_of (by decide +kernel), List.forall_mem_nil _⟩

/-! ## Keyspaces and work lists -/

/-- A keyspace of two sectors, its cut at 4,096: the table of sector 0 has eight slots at 0x10000, that of sector 1 has 2^n at 0x20000. -/
def ks0 (n : Nat) (r : Option Rebalance) : Keyspace :=
  ⟨0, 0, 0x200000, 2, 4, 0, 1, 0x8000, 16, 0, 7, 0, [(0x10000, 0, 3, 1), (0x20000, 1, n, 0)], [4096], r, false⟩

/-- A work list of capacity 2. -/
def list0 (dedup : Bool) (keys : List Word) : WorkList := ⟨0, 63, 1, dedup, 6, keys, 2 ^ 32 - 1⟩

/-- The setting with one thread active, that keyspace with the root patch (with c claims on it) in sector 0, and a list. -/
def keyed (ks : Keyspace) (c : Nat) (l : WorkList) : State :=
  let s := baseWith fun w => { w with frontier := w.frontier.map fun e => { e with mask := 1 } }
  { writeHomeN (writeHomeN s 0x10008 8 1) 0x10018 8 (c * 2 ^ 32) with keyspaces := [ks], lists := [l] }

/-- KeyInstructionResults: every key instruction on the root patch; the highest face of the domain. -/
theorem witness_keys : ∃ (a : OpK12) (n : OpKneigh) (p : OpKcost) (r : OpFG2), ∀ row ∈ keyRows a n p r, WellFormed row.1 ∧
    let (_, fsel, k, minor, face, _, f2, _, dests, srcs) := row
    Seen (keyed (ks0 3 none) 0 (list0 true [])) 4 fun c => EndsSafety c.s c.s 3 ∧ c.w.role = .solo ∧ FlagFree c fsel ∧ ScoreRoom c 1 ∧
      Declared c (dests ++ srcs) [] ∧ Unpoisoned c srcs [] [] ∧ c.s.keyspace? c.g.part k = some (ks0 3 none) ∧
      (minor = 2 → face < 2 * (ks0 3 none).dim) ∧ ∀ t ∈ threads c.mask, let key := (c.w.getV f2 t).toNat
        (if minor = 7 then bitsN key 0 10 < (ks0 3 none).sectors.length else keyOk (ks0 3 none) key = true) ∧
          pageBlocked c.s (ks0 3 none) (keyReads c.s (ks0 3 none) minor face key) = none ∧
          markBlocked c.s (ks0 3 none) (keyReads c.s (ks0 3 none) minor face key) = none := by
  refine ⟨⟨0, 0, 0, 62⟩, ⟨1, 0, 3, 0, 62⟩, ⟨0, 0, 1, 0⟩, ⟨1, 0, 0⟩, ?_⟩
  simp only [keyRows, List.forall_mem_cons]
  exact ⟨⟨rfl, seen_of (by decide +kernel)⟩, ⟨rfl, seen_of (by decide +kernel)⟩, ⟨rfl, seen_of (by decide +kernel)⟩,
    ⟨rfl, seen_of (by decide +kernel)⟩, ⟨rfl, seen_of (by decide +kernel)⟩, ⟨rfl, seen_of (by decide +kernel)⟩,
    ⟨rfl, seen_of (by decide +kernel)⟩, ⟨rfl, seen_of (by decide +kernel)⟩, List.forall_mem_nil _⟩

/-- KeyInstructionResults: list 63 is set up, and the key pushed is not all ones. RebalanceResults: a krebal. -/
theorem witness_lists : ∃ (a : OpWpush) (b : OpWout) (d : OpWins) (k : OpKreb), Seen (keyed (ks0 3 none) 0 (list0 true [])) 4 fun c =>
    EndsSafety c.s c.s 3 ∧ c.w.role = .solo ∧ FlagFree c a.fsel ∧ FlagFree c b.fsel ∧ FlagFree c d.fsel ∧ FlagFree c k.fsel ∧
      Declared c [b.f1.toNat, d.f1.toNat, a.f2.toNat, d.f2.toNat] [] ∧ Unpoisoned c [a.f2.toNat, d.f2.toNat] [] [] ∧
      (∀ n ∈ [a.list.toNat, b.list.toNat, d.list.toNat], (c.s.list? c.g.part n).isSome = true) ∧
      (∀ t ∈ threads c.mask, c.w.getV a.f2.toNat t ≠ -1 ∧ c.w.getV d.f2.toNat t ≠ -1) ∧
      (c.s.keyspace? c.g.part k.k.toNat).isSome = true :=
  ⟨⟨0, 63, 0⟩, ⟨1, 63, 5⟩, ⟨0, 63, 0, 6⟩, ⟨1, 0, 7⟩, seen_of (by decide +kernel)⟩

/-- The setting's partition of an operation in flight there. -/
def keyFlight (ks : Keyspace) (c : Nat) (l : WorkList) (k : OpKind) : State := { keyed ks c l with ops := [flight k] }

/-- KeyInstructionResults: a lookup by the last thread of its operation, and a claim with more to come. -/
theorem witness_keyStep : ∀ row ∈ [(3, []), (5, [(1, 0#64, 0#64)])], ∃ (s : State) (o : Op) (w : Wave),
    s.op? o.id = some o ∧ o.kind = .key row.1 0 0 62 ((31, 0, 0) :: row.2) [] ∧ opPart s o = some 0 ∧ s.wave? o.wave = some w ∧
      w.role = .solo ∧ s.keyspace? 0 0 = some (ks0 3 none) ∧ oldestOf s o Op.keyOf = true ∧ stepWaits s o o.keyReleases = false ∧ s.tenures = [] ∧
      let reads := keyReads s (ks0 3 none) row.1 0 0
      markBlocked s (ks0 3 none) reads = none ∧ actionWaits s o 0 row.1 (rngLocs (actionRngs s (ks0 3 none) row.1 reads)) = false := by
  simp only [List.forall_mem_cons]
  let w : Wave := { wave0 with frontier := wave0.frontier.map fun e => { e with mask := 1 } }
  exact ⟨⟨keyFlight (ks0 3 none) 0 (list0 true []) (.key 3 0 0 62 [(31, 0, 0)] []), flight (.key 3 0 0 62 [(31, 0, 0)] []), w, by decide +kernel⟩,
    ⟨keyFlight (ks0 3 none) 0 (list0 true []) (.key 5 0 0 62 [(31, 0, 0), (1, 0, 0)] []),
      flight (.key 5 0 0 62 [(31, 0, 0), (1, 0, 0)] []), w, by decide +kernel⟩, List.forall_mem_nil _⟩

/-- KeyInstructionResults: a push with room and without, and to a list with DEDUP of a key present and of one its full set turns away
(minor 9), a pop of a key and of none (10), an insertion into a list
without DEDUP, of a key present and of a new one (11), and a count (12). -/
theorem witness_listStep : ∀ row ∈ [(9, list0 false [1]), (9, list0 false [1, 2]), (9, list0 true [5]), (9, { list0 true [1] with scap := 0 }),
    (10, list0 true [1]), (10, list0 true []),
    (11, list0 false []), (11, list0 true [5]), (11, list0 true [1]), (12, list0 true [1])], ∃ (s : State) (o : Op) (w : Wave),
    s.op? o.id = some o ∧ o.kind = .list row.1 63 62 [(31, 5)] [] ∧ opPart s o = some 0 ∧ s.wave? o.wave = some w ∧ w.role = .solo ∧
      s.list? 0 63 = some row.2 ∧ row.2.setFull = decide (row.2.scap = 0) ∧ oldestOf s o Op.listOf = true ∧
      stepWaits s o o.keyReleases = false := by
  intro row hrow
  refine ⟨keyFlight (ks0 3 none) 0 row.2 (.list row.1 63 62 [(31, 5)] []), flight (.list row.1 63 62 [(31, 5)] []),
    { wave0 with frontier := wave0.frontier.map fun e => { e with mask := 1 } }, ?_⟩
  revert row
  decide +kernel

/-- A move of the cut from 4,096 to 0, which gives the patches of sector 0 to sector 1. -/
def move0 (waited : Nat) (stop : Option Nat) : Move := ⟨1, 4096, 0, waited, stop⟩

/-- RebalanceResults: krebal with one sector, with a rebalance in progress and with none; the snapshot; the announcement. -/
theorem witness_krebal : ∀ p ∈ [(({ ks0 3 none with sectors := [(0x10000, 0, 3, 1)], cuts := [] } : Keyspace), 2),
      (ks0 3 (some ⟨false, [], none⟩), 1), (ks0 3 none, 0)], ∃ (s : State) (o : Op) (w : Wave), s.keyspace? 0 0 = some p.1 ∧
    p.1.unbindReq = false ∧ s.op? o.id = some o ∧ o.kind = .krebal 0 20 ∧ opPart s o = some 0 ∧ s.wave? o.wave = some w ∧
      w.role = .solo ∧ oldestOf s o Op.keyOf = true ∧ stepWaits s o false = false ∧
      (if p.1.sectors.length = 1 then 2 else if p.1.rebalance.isSome then 1 else 0) = p.2 := by
  intro p hp
  refine ⟨keyFlight p.1 0 (list0 true []) (.krebal 0 20), flight (.krebal 0 20),
    { wave0 with frontier := wave0.frontier.map fun e => { e with mask := 1 } }, ?_⟩
  revert p
  decide +kernel

/-- RebalanceResults: a snapshot that leaves moves, and one that leaves none (no patch has a cost). -/
theorem witness_snapshot : ∀ cost ∈ [0, 9], ∃ (s : State) (ks : Keyspace), s.keyspace? 0 0 = some ks ∧ ks.unbindReq = false ∧
    ks.rebalance = some ⟨false, [], none⟩ ∧ (movesLeft ks (movesInOrder ks.cuts (targetCuts s ks)) = [] ↔ cost = 0) := by
  intro cost hc
  refine ⟨writeHomeN (keyed (ks0 3 (some ⟨false, [], none⟩)) 0 (list0 true [])) 0x10018 4 cost, ks0 3 (some ⟨false, [], none⟩), ?_⟩
  revert cost
  decide +kernel

/-- RebalanceResults: a move announced; and, with the move in progress, a patch that passes, one for which the taker has no room,
one that is claimed, one claimed too long, a move stopped, and one with no patch left. -/
theorem witness_cutMoves : (∃ (s : State) (ks : Keyspace), s.keyspace? 0 0 = some ks ∧ ks.unbindReq = false ∧
      ks.rebalance = some ⟨true, [(1, 0)], none⟩) ∧
    ∀ p ∈ [(3, 0, move0 0 none), (0, 0, move0 0 none), (3, 1, move0 4095 none), (3, 1, move0 4096 none), (3, 1, move0 0 (some 1)),
        (3, 0, ⟨1, 4096, 1, 0, none⟩)], ∃ (s : State) (ks : Keyspace), s.tenures = [] ∧ s.keyspace? 0 0 = some ks ∧ ks.unbindReq = false ∧
      ks.rebalance = some ⟨true, [], some p.2.2⟩ ∧ (nextPatch s ks p.2.2).isSome = (p.2.2.target == 0) ∧
      (p.2.2.target = 0 → ((nextPatch s ks p.2.2).any fun x => x.2.claims = p.2.1) ∧
        fits ks p.2.2.sides.2 ((tableSlots s ks p.2.2.sides.2).length + 1) = (p.1 == 3)) := by
  refine ⟨⟨keyed (ks0 3 (some ⟨true, [(1, 0)], none⟩)) 0 (list0 true []), ks0 3 (some ⟨true, [(1, 0)], none⟩), by decide +kernel, rfl, rfl⟩, fun p hp => ?_⟩
  refine ⟨keyed (ks0 p.1 (some ⟨true, [], some p.2.2⟩)) p.2.1 (list0 true []), ks0 p.1 (some ⟨true, [], some p.2.2⟩), ?_⟩
  revert p
  decide +kernel

/-! ## Setup, system instructions and launches -/

/-- The setting with its partition's control block at 0x140000 and numbers written: (physical address, width, value). -/
def governed (l : List (Nat × Nat × Nat)) : State :=
  let s := l.foldl (fun s f => writeHomeN s (s.here f.1) f.2.1 f.2.2) base
  { s with out := { s.out with stage := 4, ctrl := [(0, 0x140000)] } }

/-- The partition of that setting. -/
def part0 : Partition := ⟨0, false, List.range 16, [], 1, [0, 1, 2, 3], [1], 0, 0, 0, false, false⟩

/-- A keyspace descriptor at 0x150000: two sectors, dim d. -/
def keyDesc (d : Nat) : List (Nat × Nat × Nat) :=
  [(0x140000, 8, 0x150000), (0x150000, 1, d), (0x150001, 1, 4), (0x150002, 2, 2), (0x150006, 2, 1), (0x150008, 4, 256), (0x150010, 8, 0x8000),
    (0x150018, 4, 16), (0x150040, 8, 0x10000), (0x15004A, 1, 6), (0x150050, 8, 0x20000), (0x15005A, 1, 6), (0x150060, 8, 4096)]

/-- SetupResults: a bind that is accepted, and one whose descriptor breaks a rule (four dimensions). -/
theorem witness_bind : ∀ d ∈ [2, 4], ∃ (s : State) (p : Partition), s.part? 0 = some p ∧
    let ks := keyspaceAt s p.id 0 (physField s p.secure (Machine.get 0 s.out.ctrl 0) 8)
    s.keyspace? p.id 0 = none ∧ ((s.ctx? ks.bctx).map fun c => c.part == p.id) = some true ∧ descOk s ks = (d == 2) ∧
      (d = 2 → pagesOk s ks = true) ∧ noRegisters s p = false := by
  intro d hd
  refine ⟨governed (keyDesc d), part0, ?_⟩
  revert d
  decide +kernel

/-- SetupResults: an unbind of a keyspace that is idle, and of one with an operation in flight. -/
theorem witness_unbind : ∀ l ∈ [[], [flight (.key 3 0 0 62 [(31, 0, 0)] [])]], ∃ (s : State) (ks : Keyspace), s.part? 0 = some part0 ∧
    s.keyspace? 0 0 = some ks ∧ ks.rebalance = none ∧ ((∀ o ∈ s.ops, o.keyOf = some 0 → opPart s o ≠ some 0) ↔ l = []) := by
  intro l hl
  refine ⟨{ governed [] with keyspaces := [⟨0, 0, 0x200000, 2, 4, 0, 1, 0x8000, 16, 0, 7, 0, [], [], none, false⟩], ops := l },
    ⟨0, 0, 0x200000, 2, 4, 0, 1, 0x8000, 16, 0, 7, 0, [], [], none, false⟩, ?_⟩
  revert l
  decide +kernel

/-- SetupResults: queue 63 read again with no ring, and with one whose 256 entries are all held. -/
theorem witness_reread : ∀ ring ∈ [0, 0x170000], ∃ s : State, s.part? 0 = some part0 ∧
    let f := fun o k => physField s part0.secure (queueDesc s part0 63 + o) k
    f 0 8 = ring ∧ (ring ≠ 0 → f 0 8 % 2048 = 0 ∧ ownsRange s part0 (f 0 8) 2048 = true ∧ f 8 2 ∈ part0.ctxs ∧ f 0x0A 1 ≤ 7 ∧
      (f 0x14 4 + 2 ^ 32 - f 0x10 4) % 2 ^ 32 ≤ 256) := by
  intro ring hr
  refine ⟨governed [(0x140A20, 8, ring), (0x140A28, 2, 1), (0x140A2A, 1, 7), (0x140A30, 4, 2 ^ 32 - 1), (0x140A34, 4, 255)], ?_⟩
  revert ring
  decide +kernel

/-- SetupResults: list 63 set up without DEDUP and with it; and one whose descriptor gives a set where DEDUP is clear. -/
theorem witness_workList : ∀ row ∈ [(0, 0, 0, true), (1, 6, 0x1D0000, true), (0, 6, 0, false)], ∃ s : State, s.part? 0 = some part0 ∧
    let d := physField s part0.secure (Machine.get 0 s.out.ctrl 0 + 0x40 + 8 * 63) 8
    let f := fun o k => physField s part0.secure (d + o) k
    let dedup := bitsN (f 9 1) 0 1
    ((d ≠ 0 ∧ 13 ≤ f 8 1 ∧ f 8 1 ≤ 28 ∧ f 0 8 % (8 * 2 ^ f 8 1) = 0 ∧ ownsRange s part0 (f 0 8) (8 * 2 ^ f 8 1) = true ∧
      ownsRange s part0 d 32 = true ∧ (dedup = 1 → 6 ≤ f 0x0A 1 ∧ f 0x0A 1 ≤ 24 ∧ ownsRange s part0 (f 0x10 8) (16 * 2 ^ f 0x0A 1) = true) ∧
      (dedup = 0 → f 0x0A 1 = 0 ∧ f 0x10 8 = 0)) ↔ row.2.2.2 = true) := by
  intro row hr
  refine ⟨governed [(0x140238, 8, 0x160000), (0x160000, 8, 0x1C0000), (0x160008, 1, 13), (0x160009, 1, row.1), (0x16000A, 1, row.2.1),
    (0x160010, 8, row.2.2.1)], ?_⟩
  revert row
  decide +kernel

/-- A launch queue with n slots held. -/
def queue0 (n : Nat) : Queue := ⟨0, 0, 0x170000, 1, 3, 0, n, 0, none, []⟩

/-- SetupResults and LaunchResults: a queue that is not set up, one with room and one that is full. -/
theorem witness_queues : ∀ l ∈ [[], [queue0 255], [queue0 256]], ∃ o : OpF12, ∃ c, Runs { governed [] with queues := l } c 4 ∧
    c.s.out.stage = 4 ∧ EndsSafety c.s c.s 3 ∧ c.w.role = .solo ∧ FlagFree c o.fsel ∧ Settled c ∧ owes c.s c.tm.core 3 c.s.nextId = false ∧ Unpoisoned c [] [o.f2.toNat] [] ∧
      c.s.part? c.g.part = some part0 ∧ (c.w.getS o.f2.toNat).toNat % 64 = 0 ∧
      ((translateSpan c.s c.cx c.tm.core c.w.sysMode .read (c.w.getS o.f2.toNat).toNat 256).toOption.any fun _ => true) ∧
      c.s.queue? c.g.part c.g.queue = l.head? := by
  simp only [List.forall_mem_cons]
  exact ⟨⟨⟨1, 5, 20⟩, seen_of (by decide +kernel)⟩, ⟨⟨1, 5, 20⟩, seen_of (by decide +kernel)⟩,
    ⟨⟨1, 5, 20⟩, seen_of (by decide +kernel)⟩, List.forall_mem_nil _⟩

/-- SystemInstructionResults: sysrd of the lowest and the highest register, syswr in user and in system mode. -/
theorem witness_sysregs : ∀ sys ∈ [true, false], ∃ (r q : OpSys) (x : OpSys), WellFormed (.sysrd r) ∧ WellFormed (.sysrd q) ∧
    WellFormed (.syswr x) ∧ r.num = 0 ∧ q.num = 0x30 ∧ Seen (baseWith fun w => { w with sysMode := sys }) 4 fun c =>
      EndsSafety c.s c.s 3 ∧ c.w.role = .solo ∧ (0x25 ≤ x.num.toNat → c.w.sysMode = true) ∧ Unpoisoned c [] [x.f1.toNat] [] := by
  simp only [List.forall_mem_cons]
  exact ⟨⟨⟨0, 1⟩, ⟨0x30, 1⟩, ⟨0x27, 63⟩, rfl, rfl, rfl, rfl, rfl, seen_of (by decide +kernel)⟩,
    ⟨⟨0, 1⟩, ⟨0x30, 1⟩, ⟨0x22, 63⟩, rfl, rfl, rfl, rfl, rfl, seen_of (by decide +kernel)⟩, List.forall_mem_nil _⟩

/-- SystemInstructionResults: rmode of no page and of one, and its operation in flight. -/
theorem witness_rmode : (∀ len ∈ [0, 65536], ∃ o : OpF2, WellFormed (.rmodeSwm o) ∧
      Seen (baseWith fun w => { w with s := put 0#64 (put 0#64 w.s 10 0x30000) 11 (BitVec.ofNat 64 len) }) 4 fun c =>
        EndsSafety c.s c.s 3 ∧ c.w.role = .solo ∧ FlagFree c o.fsel ∧ Unpoisoned c [] [o.f2.toNat, o.f2.toNat + 1] [] ∧
        (c.w.getS o.f2.toNat).toNat % 65536 = 0 ∧ (c.w.getS (o.f2.toNat + 1)).toNat = len ∧
        (rmodePages c (pageFuel len) (c.w.getS o.f2.toNat).toNat len).toOption.any fun r => r.1.length = len / 65536) ∧
    ∃ (s : State) (o : Op) (w : Wave), s.op? o.id = some o ∧ o.kind = .rmode true [3] ∧ s.wave? o.wave = some w ∧ w.role = .solo ∧
      (s.team? o.team).isSome = true ∧ writesOutstanding s o [3] = false ∧ canEngine s o = true ∧
      ∀ k < 512, cleanWaits s k (fun word => [3].contains (word / 4096)) = false := by
  simp only [List.forall_mem_cons]
  exact ⟨⟨⟨⟨0, 10⟩, rfl, seen_of (by decide +kernel)⟩, ⟨⟨0, 10⟩, rfl, seen_of (by decide +kernel)⟩, List.forall_mem_nil _⟩,
    ⟨flying [flight (.rmode true [3])], flight (.rmode true [3]), wave0, by decide +kernel⟩⟩

/-- SystemInstructionResults: ckpt while a request stands, with no usable slot, and with one. -/
theorem witness_ckpt : ∀ p ∈ [(some 4, 0), (none, 0), (none, 0x10000)], ∃ o : OpF1,
    Seen { governed [(0x190000, 8, 0x1A0000), (0x190008, 8, p.2)] with grids := base.grids.map fun g => { g with hullReq := p.1 } } 4 fun c =>
      EndsSafety c.s c.s 3 ∧ c.w.role = .solo ∧ FlagFree c o.fsel ∧ c.g.hullReq = p.1 ∧
        slotUsable c.s c.cx (hullTarget c.s c.cx) = (p.2 != 0) := by
  simp only [List.forall_mem_cons]
  exact ⟨⟨⟨0, 20⟩, seen_of (by decide +kernel)⟩, ⟨⟨0, 20⟩, seen_of (by decide +kernel)⟩, ⟨⟨0, 20⟩, seen_of (by decide +kernel)⟩,
    List.forall_mem_nil _⟩

/-- SystemInstructionResults: an injection of each kind, at a register and at a place that exist. -/
theorem witness_finj : ∀ kind ∈ [0, 1, 2, 3, 4, 5, 7], ∃ o : OpD,
    Seen (baseWith fun w => { w with s := put 0#64 w.s 10 (BitVec.ofNat 64 (kind + 31 * 2 ^ 13 + 63 * 2 ^ 18 + 9 * 2 ^ 24 + 4088 * 2 ^ 32)) }) 4 fun c =>
      let x := (c.w.getS o.d.toNat).toNat
      c.cx.debug = true ∧ Unpoisoned c [] [o.d.toNat] [] ∧ c.w.role = .solo ∧ bitsN x 3 10 = 0 ∧ bitsN x 0 3 = kind ∧
        bitsN x 18 6 < c.g.launch.vregs ∧ bitsN x 32 32 % 8 = 0 ∧ bitsN x 32 32 + 8 ≤ c.g.launch.spBytes := by
  intro kind hk
  refine ⟨⟨10⟩, seen_of ?_⟩
  revert kind
  decide +kernel

/-- SystemInstructionResults: an injection in a trailing wave. -/
theorem witness_finjTrailer : ∃ o : OpD, Seen (baseWith fun w => { w with role := .trailer 3 }) 4 fun c =>
    c.cx.debug = true ∧ Unpoisoned c [] [o.d.toNat] [] ∧ c.w.role = .trailer 3 :=
  ⟨⟨10⟩, seen_of (by decide +kernel)⟩

/-- LaunchResults: rget of a set of two ranges, the last of which is shorter than the grain, and of an unusable set. -/
theorem witness_rget : ∀ n ∈ [0, 2], ∃ o : OpY12, WellFormed (.rget o) ∧
    Seen { governed [(0x3000, 4, n), (0x3004, 4, 8), (0x3040, 8, 5), (0x3048, 8, 9)] with
      waves := (baseWith fun w => { w with s := put 0#64 w.s 10 0x3000 }).waves } 4 fun c =>
      let base := (c.w.getS o.f2.toNat).toNat
      EndsSafety c.s c.s 3 ∧ c.w.role = .solo ∧ Unpoisoned c [] [o.f2.toNat] [] ∧ base % 64 = 0 ∧ c.s.tenures = [] ∧ c.s.ops = [] ∧
        ((rgetPlan c none base).toOption.any fun r => (r.1 = if n = 0 then (0, 2 ^ 64 - 1) else (5, 4)) ∧ readWaits c r.2.2.locs = false ∧
          pendOwed c.s c.tm.core (fun e => (r.2.2.locs.map (· / 16)).dedup.contains e.word) = false) ∧
        ((setRead c none base 64).toOption.any fun h => h.1 % 2 ^ 32 = n ∧ h.1 / 2 ^ 32 % 2 ^ 32 = 8 ∧ h.1 / 2 ^ 64 = 0) ∧
        (setRead c none (base + 0x40) 16).toOption.any fun x => x.1 % 2 ^ 64 < x.1 / 2 ^ 64 := by
  simp only [List.forall_mem_cons]
  exact ⟨⟨⟨10, 62⟩, rfl, seen_of (by decide +kernel)⟩, ⟨⟨10, 62⟩, rfl, seen_of (by decide +kernel)⟩, List.forall_mem_nil _⟩

/-- A launch record at 0x2000: one team of one wave, with an entry point. -/
def launchRec (entry : Nat) : List (Nat × Nat × Nat) :=
  [(0x2000, 8, entry), (0x2010, 4, 1), (0x2014, 4, 1), (0x2018, 4, 1), (0x2020, 8, 32), (0x2028, 1, 1), (0x2029, 1, 1), (0x202B, 1, 8),
    (0x2030, 4, 256)]

theorem takeFrom_only {s : State} {part t : Nat} {x : Queue} (h : s.queues = [x]) (hp : x.part = part) (hr : x.readyAt = some t) :
    takeFrom s part = some x := by
  unfold takeFrom earliest
  by_cases hl : 16 ≤ x.passed <;> simp [h, hp, hr, hl, Nat.mod_one]

/-- LaunchResults: a take of a record that does not translate, of one that fails a check, and of one that is accepted. -/
theorem witness_take : ∀ p ∈ [(0x10000000, 0x1000), (0x2000, 0x1001), (0x2000, 0x1000)], ∃ (s : State) (x : Queue) (cx : Context),
    s.part? 0 = some part0 ∧ part0.halted = false ∧ part0.haltReq = false ∧ s.tenures = [] ∧ (∀ g ∈ s.grids, g.aggregating = false) ∧
    let s1 := noteReady s
    takeFrom s1 part0.id = some x ∧ s1.ctx? x.ctx = some cx ∧ headEntry s1 x = p.1 ∧ (recordLocs s1 cx p.1).isSome = (p.1 == 0x2000) ∧
      ((recordLocs s1 cx p.1).any fun locs => launchBad s1 part0.id cx locs (locs.map (readHome s1)) = none) = (p.1 == 0x2000 && p.2 == 0x1000) := by
  simp only [List.forall_mem_cons]
  let s := fun p : Nat × Nat => ({ governed ([(0x170000, 8, p.1)] ++ launchRec p.2) with queues := [queue0 1] } : State)
  let q : Queue := { queue0 1 with readyAt := some 0 }
  let cx : Context := (base.ctx? 1).getD ctx0
  exact ⟨⟨s (0x10000000, 0x1000), q, cx, by decide +kernel, rfl, rfl, by decide +kernel, by decide +kernel, takeFrom_only (by decide +kernel) rfl rfl, by decide +kernel⟩,
    ⟨s (0x2000, 0x1001), q, cx, by decide +kernel, rfl, rfl, by decide +kernel, by decide +kernel, takeFrom_only (by decide +kernel) rfl rfl, by decide +kernel⟩,
    ⟨s (0x2000, 0x1000), q, cx, by decide +kernel, rfl, rfl, by decide +kernel, by decide +kernel, takeFrom_only (by decide +kernel) rfl rfl, by decide +kernel⟩,
    List.forall_mem_nil _⟩

/-- The setting's grid with n teams in all, of which the first is placed. -/
def crowd (n : Nat) : Grid := { grid0 with launch := { setLaunch with gx := n, nthreads := 32 * n } }

/-- LaunchResults: a second team placed on another core of the partition; and one that fits on none. -/
theorem witness_place : (∃ (s : State) (p : Partition), s.grid? (crowd 2).id = some (crowd 2) ∧ s.part? (crowd 2).part = some p ∧ p.halted = false ∧
      p.haltReq = false ∧ (crowd 2).waiting = true ∧ placedAfter s (crowd 2) = false ∧ groupFits s (crowd 2) (crowd 2).nextGroup [15] = true ∧
      prefers s (crowd 2) (crowd 2).nextGroup [15] = true) ∧
    ∃ s : State, s.grid? (crowd 2).id = some (crowd 2) ∧ (crowd 2).waiting = true ∧ somewhere s (crowd 2) (crowd 2).nextGroup = false :=
  ⟨⟨{ governed [] with grids := [crowd 2] }, part0, by decide +kernel⟩,
    ⟨{ governed [] with grids := [crowd 2], parts := [{ part0 with clusters := [] }] }, by decide +kernel⟩⟩

/-- The setting with its wave's threads exited, and beside another one (0); alone, in a grid that is then complete (1), that has a team to
come (2), or into which a child was merged (3). The grid has a stamp. -/
def leaving (k : Nat) : State :=
  let l : Launch := { setLaunch with stampAddr := 0x3000, gx := if k = 2 then 2 else 1 }
  let s := baseWith (fun w => { w with frontier := [], sel := none }) id fun g =>
    { g with launch := l, merged := if k = 3 then [(0x2100, l)] else [] }
  { s with waves := s.waves ++ if k = 0 then [{ wave0 with id := 7 }] else [] }

/-- LaunchResults: a wave with no thread left, which retires: not the team's last, and the last; a wave that is Ready; and one whose watchdog
has run out. -/
theorem witness_retire : (∀ k ∈ [0, 1, 2, 3], ∃ (s : State) (w : Wave) (tm : Team) (g : Grid), s.wave? w.id = some w ∧ w.state = .ready ∧
      s.team? w.team = some tm ∧ tm.state = .resident ∧ s.grid? tm.grid = some g ∧ w.frontier = [] ∧ w.flagsClear = true ∧ w.fence = none ∧
      w.partner? = none ∧ lastWave s w (endsWith s tm) = decide (k ≠ 0) ∧ (∀ x ∈ endsWith s tm, storesRest s x = true) ∧ g.state = .running ∧
      g.aggregating = false ∧ decide (g.total ≤ g.nextTeam) = decide (k < 2) ∧ (∀ y ∈ s.teamsOf g.id, ∃ z ∈ endsWith s tm, z.id = y.id) ∧
      (g.merged = [] ↔ k ≠ 3) ∧ g.launch.stampAddr ≠ 0 ∧ (g.member tm.t).1.stampAddr ≠ 0) ∧
    base.wave? 0 = some wave0 ∧ wave0.isReady = true ∧ ∃ (s : State), ∃ c, issuing s = some c ∧ c.w.left = 0 := by
  refine ⟨fun k hk => ⟨leaving k, ((leaving k).wave? 0).getD wave0, ((leaving k).team? 0).getD team0, ((leaving k).grid? 0).getD grid0, ?_⟩,
    by decide +kernel, by decide +kernel, baseWith fun w => { w with left := 0 }, issues_of (by decide +kernel)⟩
  revert k
  decide +kernel

/-- LaunchResults: a stamp on its way to an address that no entry maps, and to one that is mapped. -/
theorem witness_stamp : ∀ addr ∈ [0x10000000, 0x3000], ∃ (s : State) (o : Op) (g : Grid) (cx : Context), s.op? o.id = some o ∧
    o.kind = .stamp g.id 0x2000 addr 5 ∧ s.grid? g.id = some g ∧ s.ctx? g.ctx = some cx ∧
    if addr = 0x3000 then (translateSpan s cx unitCore false .write addr 8).toOption.any fun r =>
      (∀ tm ∈ s.teamsOf g.id, owes s tm.core 3 o.id = false) ∧ engineOwned s (r.1.headD 0 / 16) o.id = false ∧
        keptWord s s.nextId (r.1.headD 0 / 16) = false ∧ slicesFull s g.part r.1 = false ∧ s.tenures = []
    else (translateSpan s cx unitCore false .write addr 8).toOption = none := by
  intro addr ha
  refine ⟨flying [flight (.stamp 0 0x2000 addr 5)], flight (.stamp 0 0x2000 addr 5), grid0, (base.ctx? 1).getD ctx0, ?_⟩
  revert addr
  decide +kernel


/-! ## Saving, service, the outside, and the step -/

/-- The setting's context. -/
def ctx1 : Context := ⟨1, 0x180000, 0x100000, 0, true, 4, 0x2000000, 0, 0, 0, 0x190000, [], 0⟩

/-- SaveResults: a team whose wave is at a yield, one whose wave runs, and one whose wave waits on flags while slices of a copy are gathered;
a saved team that fits on a core. -/
theorem witness_save : (∀ st ∈ [WState.atYield 8, .ready, .waitFlags 1], ∃ (s : State) (tm : Team) (g : Grid), s.team? tm.id = some tm ∧
      s.grid? tm.grid = some g ∧ tm.state = .resident ∧
      ((∀ x ∈ (companions s tm).filter fun x => x.state == .resident, teamRest s x = true) ↔ st = .atYield 8) ∧ copiesHold s tm = (st == .waitFlags 1)) ∧
    ∃ (s : State) (tm : Team) (g : Grid), s.team? tm.id = some tm ∧ s.grid? tm.grid = some g ∧ mayRestore s tm g = true ∧
      restoreFits s g (placedWith s tm) [15] = true ∧ s.arrivals = [] ∧ (∀ y ∈ s.teams, y.trailing = false ∧ y.area = none) ∧
      s.wave? 0 = some { wave0 with state := .saved, savedState := .ready } ∧ wave0.team = tm.id := by
  simp only [List.forall_mem_cons]
  exact ⟨⟨⟨baseWith fun w => { w with state := .atYield 8 }, team0, grid0, by decide +kernel⟩, ⟨base, team0, grid0, by decide +kernel⟩,
    ⟨baseWith (fun w => { w with state := .waitFlags 1, flags := [(0, 1)] }) fun t => { t with gatherings := [⟨0x400, 2, [(0, 0, 0, 1)]⟩] },
      { team0 with gatherings := [⟨0x400, 2, [(0, 0, 0, 1)]⟩] }, grid0, by decide +kernel⟩,
    List.forall_mem_nil _⟩, ⟨baseWith (fun w => { w with state := .saved }) fun t => { t with state := .saved },
    { team0 with state := .saved }, grid0, by decide +kernel⟩⟩

/-- SaveResults: a record that finds room, its queue's bytes apart from the context record; a hull that no slot takes. -/
theorem witness_record : (∃ (s : State) (r : Rec), s.ctx? 1 = some ctx1 ∧ nextRecord s 1 = some r ∧ queueFull s ctx1 = false ∧
      s.tenures = [] ∧ physOk s (secureCtx s ctx1) (ctx1.record + 0x18) 4 = true ∧ (translateSpan s ctx1 unitCore true .write
        (ctx1.fqBase + 64 * (ctx1.fqHead % 2 ^ ctx1.fqLog)) 64).toOption.any fun l =>
          slicesFull s ctx1.part l.1 = false ∧ (∀ x ∈ l.1, keptWord s s.nextId (x / 16) = false) ∧ l.1.Nodup ∧ ∀ i < 4, s.here (ctx1.record + 0x18) + i ∉ l.1) ∧
    ∀ st ∈ [GState.halted, .completed], ∃ (s : State) (g : Grid), s.grid? g.id = some g ∧ g.state = st ∧ g.hullReq = some 3 ∧ s.ctx? g.ctx = some ctx1 ∧
      slotUsable s ctx1 (hullTarget s ctx1) = false :=
  ⟨⟨{ base with records := [plainRec 1 4 0 none 0x2000 0 8] }, plainRec 1 4 0 none 0x2000 0 8, by decide +kernel⟩,
    fun st hst => ⟨baseWith id id fun g => { g with state := st, hullReq := some 3 }, { grid0 with state := st, hullReq := some 3 }, by
      revert st; decide +kernel⟩⟩

/-- The setting with its grid and wave named in context 1's page, its wave changed. -/
def served (f : Wave → Wave) (g : Team → Team) (h : Grid → Grid) : State :=
  let s := baseWith f g h
  { s with out := { s.out with stage := 4, bar0 := put 0#8 s.out.bar0 (ctxPage 1 + 0x21) 0x20 } }

/-- ServiceResults: a parked wave, resumed or sent to its handler, or ended. -/
theorem witness_parked : ∃ (s : State) (g : Grid) (w : Wave) (e : Entry), serviceWave s 1 = some (g, w) ∧ s.wave? w.id = some w ∧ w.role = .solo ∧
    w.final = false ∧ w.first?.isSome = true ∧ w.sel = some (0, 0x1004) ∧ w.entry? (0, 0x1004) = some e ∧ w.sysMode = false ∧
    endNamed s 1 = some g ∧ s.grid? g.id = some g :=
  ⟨served (fun w => { w with state := .parked }) id id, grid0, { wave0 with state := .parked },
    ⟨0, 0x1004, firstThreads 32, some ⟨0x1000, 0, 1, 0x1008⟩⟩, by decide +kernel⟩

/-- ServiceResults: a grid whose teams are saved, continued, and restored from no hull and from a hull of no page. -/
theorem witness_saved : ∀ hull ∈ [false, true], ∃ (s : State) (g : Grid),
    (s.grids.find? fun g => namesGrid s 1 g && allSaved s g && g.state != .failed) = some g ∧
      (s.grids.find? fun g => namesGrid s 1 g && allSaved s g) = some g ∧ s.grid? g.id = some g ∧
      let slot := s.barN (ctxPage 1 + 0x30) 8
      (if hullSealed s g slot then hullImages s g slot else none).isSome = hull := by
  intro hull hh
  let s := served (fun w => { w with state := .saved }) (fun t => { t with state := .saved }) id
  refine ⟨{ [(0x1A0000, 8, if hull then 5 else 0), (0x1A0030, 8, 5), (0x1A0008, 8, 0x2000), (0x1A0010, 2, 1)].foldl
      (fun s f => writeHomeN s (s.here f.1) f.2.1 f.2.2) s with
    hulls := [⟨0, 5, 0x2000, 1, [], [], []⟩], out := { s.out with bar0 := put 0#8 s.out.bar0 (ctxPage 1 + 0x32) 0x1A } }, grid0, ?_⟩
  revert hull
  decide +kernel

/-- ServiceResults: a context set up, and one refused for its queue's size; one that is retired; SYNC. -/
theorem witness_contexts : (∀ n ∈ [16, 17], ∃ s : State, s.ctx? 2 = none ∧ s.out.stage = 4 ∧
      firstBad (contextChecks s 2 0x160000 (some 0)) = if n = 16 then none else some 0x0A) ∧
    ∃ s : State, s.ctx? 1 = some ctx1 ∧ staleWrites s = false := by
  refine ⟨fun n hn => ⟨{ governed [(0x160000, 8, 0x100000), (0x16000A, 1, n)] with parts := [{ part0 with ctxs := [1, 2] }] }, ?_⟩,
    base, by decide +kernel⟩
  revert n
  decide +kernel

/-- The setting with its wave the leader of a pair whose trailer has formed a signature, and an issue held. -/
def paired (sig : BitVec 32) : State :=
  let s := baseWith fun w => { w with role := .leader 4 }
  { s with waves := s.waves ++ [{ wave0 with id := 4, role := .trailer 0, sigs := [sig] }],
           held := [⟨0, 7, flight (.store kept [(memAccess 0 0x3000 4, 1)]), 0x1000, 0x3000, false⟩] }

/-- OutsideResults: signatures that agree, and that do not. -/
theorem witness_signatures : ∀ sig ∈ [7#32, 8#32], ∃ (s : State) (w x : Wave) (h : HeldIssue) (tm : Team) (g : Grid) (cx : Context),
    s.wave? w.id = some w ∧ w.role = .leader 4 ∧ (s.held.find? fun h => h.wave == w.id) = some h ∧ s.wave? 4 = some x ∧
      s.team? w.team = some tm ∧ x.sigs = [sig] ∧ s.grid? tm.grid = some g ∧ s.ctx? g.ctx = some cx ∧
      ((if h.flip then sig ^^^ 1 else sig) = h.sig ↔ sig = 7) ∧ mustWait s h.op = false ∧ badAtom s tm h.op = none ∧ faultWaits s tm h.addr = false ∧ g.launch.recov = false ∧ w.state ≠ .retired ∧
      x.state ≠ .retired := by
  simp only [List.forall_mem_cons]
  let h : HeldIssue := ⟨0, 7, flight (.store kept [(memAccess 0 0x3000 4, 1)]), 0x1000, 0x3000, false⟩
  exact ⟨⟨paired 7, { wave0 with role := .leader 4 }, { wave0 with id := 4, role := .trailer 0, sigs := [7] }, h, team0, grid0, ctx1, by decide +kernel⟩,
    ⟨paired 8, { wave0 with role := .leader 4 }, { wave0 with id := 4, role := .trailer 0, sigs := [8] }, h, team0, grid0, ctx1, by decide +kernel⟩,
    List.forall_mem_nil _⟩

/-- OutsideResults: a link that has failed 16 times, with spare lanes and with none. -/
theorem witness_links : ∀ spares ∈ [8, 0], ∃ (s : State) (l : Link), (s.out.links.find? fun x => x.n == l.n) = some l ∧ l.up = true ∧
    16 ≤ l.resends ∧ l.spares = spares :=
  fun spares _ => ⟨{ base with out := { base.out with links := [⟨17, true, true, 16, spares⟩] } }, ⟨17, true, true, 16, spares⟩, by simp⟩

/-- OutsideResults: requests, an AtomicOp and a CXL write at secure and at other memory, once the device has booted. -/
theorem witness_requests : ∀ sec ∈ [true, false], ∃ (s : State) (pa : Nat), OutsideClear s (s.here pa) 16 ∧ s.out.stage = 4 ∧ pa % 16 = 0 ∧
    (∀ i < 16, (tagAt s (s.here pa + i)).1 = sec) ∧ markAt s (s.here pa) = .ok := by
  intro sec hs
  refine ⟨{ governed [] with tags := [(0, (sec, 31))] }, 0x3000, ?_⟩
  revert sec
  decide +kernel

/-- OutsideResults: a core, a slice and another device that fail, each with words that it alone has; and a home that has failed, with one
word modified in an L1 that the partition's refuge can hold. -/
theorem witness_failures : (∃ s : State, soleWords s 0 = [0x300] ∧ (∃ tm ∈ s.teams, tm.core = 0 ∧ tm.state = .resident ∧ (s.grid? tm.grid).isSome = true) ∧
      cacheWords s (512 + 3) (· == .modified) = [0x310] ∧ ctxsOfWord s 3 0x310 ≠ [] ∧ 7 ≠ s.out.device ∧ ∃ x ∈ s.guests, x.holder = 7 ∧ x.excl = true) ∧
    ∃ (s : State) (p : Partition) (w : Nat), SoundMemory s ∧ .device 7 ∈ s.out.downHomes ∧ .die 1 ∉ s.out.downHomes ∧ (∀ b ∈ s.blocks, b.cache < 512) ∧
      ((salvageHolders s).flatMap fun h => ((if h.1 < 512 then soleWords s h.1 else cacheWords s h.1 (· == .modified)).filter fun w =>
        homeIn s (16 * w) [.device 7]).map fun w => (h, w)) = [((0, p, 1), w)] ∧
      physOk s p.secure p.salvage 8 = true ∧ 16 * physField s p.secure p.salvage 8 + 16 ≤ p.refugeLen :=
  let p : Partition := { part0 with salvage := 0x40000, refuge := 0x50000, refugeLen := 65536 }
  ⟨⟨{ base with blocks := [heldAt 0x3000 1 .modified, ⟨512 + 3, 0x31, 0, [.modified], 0, false⟩], guests := [⟨7, 0x320, true⟩] }, by decide +kernel⟩,
    { base with blocks := [heldAt (7 * homeSpan + 0x3000) 1 .modified], parts := [p], out := { base.out with downHomes := [.device 7] } },
    p, (7 * homeSpan + 0x3000) / 16, by decide +kernel⟩

/-- OutsideResults: a mark at each place, on a word that an L1 holds modified and on one that it holds shared. -/
theorem witness_marks : ∃ (s : State) (tm : Team), markAt s 0x3000 = .ok ∧ s.wave? 0 = some wave0 ∧ s.team? 0 = some tm ∧ tm.state = .resident ∧
    tm.interval.recov = true ∧ s.pend = [] ∧ SoundBlocks s.blocks ∧ held? s 0 0x300 = some .modified ∧ get Mark.ok s.marks 0x300 = .ok ∧
    held? s 0 0x301 = some .shared ∧ (s.tenures.filter fun e => e.slice == 7) = [{ tenureOf 0 with slice := 7 }] ∧
    (s.monitors.filter fun e => e.slice == 9) = [⟨9, 0, 0x300, false, false⟩] ∧
    ∃ (s : State) (tm : Team), s.team? 0 = some tm ∧ tm.state = .saved ∧ tm.area = none ∧ (s.wave? 0).any fun y => y.team = 0 :=
  ⟨{ baseWith id (fun t => { t with interval := { t.interval with recov := true } }) id with
      blocks := [⟨0, 0x30, 0, [.modified, .shared], 0, false⟩], tenures := [{ tenureOf 0 with slice := 7 }], monitors := [⟨9, 0, 0x300, false, false⟩] },
    { team0 with interval := { team0.interval with recov := true } }, by decide +kernel, by decide +kernel, by decide +kernel, by decide +kernel,
    by decide +kernel, by decide +kernel, by decide +kernel, by decide +kernel, by decide +kernel, by decide +kernel, by decide +kernel,
    by decide +kernel, baseWith id fun t => { t with state := .saved }, { team0 with state := .saved }, by decide +kernel⟩

/-- OutsideResults: a unit of each kind that is due and that nothing uses; and of clusters and slices one with a spare left, and one with none. -/
theorem witness_spares : (∀ kind ≤ 5, let s : State := { State.reset with out := { Outside.reset with due := [(kind, 0)] } }
      (kind, 0) ∈ s.out.due ∧ unitInUse s kind 0 = false ∧ unitState s kind 0 = 0 ∧ (kind, 1) ∉ s.out.due) ∧
    ∀ kind ∈ [1, 2], (∃ k < 68, unitState State.reset kind (68 * (0 / 68) + k) = 1) ∧
      let s : State := { State.reset with out := { Outside.reset with units := (List.range 4).map (fun k => ((kind, 64 + k), 3)), due := [(kind, 0)] } }
      unitInUse s kind 0 = false ∧ unitState s kind 0 = 0 ∧ servedBy s kind 0 = some 0 ∧ (¬ ∃ k < 68, unitState s kind k = 1) ∧
        numberInUse s kind (64 * (0 / 68) + inService s kind (0 / 68) - 1) = false := by decide +kernel

/-- OutsideResults: a CXL exchange on bytes of host memory that core 0 has modified. -/
theorem witness_cxl : ∃ (s : State) (pa : Nat), s.out.stage = 4 ∧ let loc := 1024 * 2 ^ 52 + pa
    let ws := wordSpan loc 4
    outsideWaits s loc 4 = false ∧ wordCores s ws = [0] ∧ ∀ c ∈ wordCores s ws, pendOwed s c (fun e => ws.contains e.word) = false ∧
      cleanWaits s c ws.contains = false :=
  ⟨{ governed [] with blocks := [heldAt (1024 * 2 ^ 52 + 0x3000) 1 .modified] }, 0x3000, by decide +kernel⟩

/-- A request of core 0 for the last three words of a frame. -/
def request (excl queued : Bool) : Fill := ⟨0, 5, 0x30, 13, 3, excl, 0, false, queued, none⟩

/-- OutsideResults: requests that may be answered, one still outside its slice's queue, and a queue that is full. -/
theorem witness_fills : (∀ f ∈ [request false true, request true true, request false false], ∃ s : State,
      (s.fills.find? fun x => x.op.isNone && x.core == f.core && x.frame == f.frame && x.start == f.start && x.excl == f.excl) = some f ∧
      SoundBlocks s.blocks ∧ f.core < 512 ∧ f.start + f.len ≤ 16 ∧ s.tenures = [] ∧ s.out.downHomes = [] ∧ (setOthers s f.core f.frame).length ≤ 16 ∧ waitingLoads s f.core = [] ∧
      s.pend = [] ∧ held? s f.core 0x30D = some .shared ∧ held? s f.core 0x30E = none ∧ ∀ b ∈ s.blocks, ∀ x ∈ b.words, x.isDirty = false) ∧
    ∀ n ∈ [31, 32], ∃ s : State, (s.fills.find? fun f => f.slice == 5 && !f.queued) = some (request false false) ∧
      (s.fills.filter fun x => x.slice == 5 && x.queued).length = n :=
  ⟨fun f hf => ⟨{ base with fills := [f], blocks := [heldAt 0x3000 14 .shared] }, by revert f; decide +kernel⟩,
    fun n hn => ⟨{ base with fills := (List.range n).map (fun i => { request false true with frame := i }) ++ [request false false] }, by
      revert n; decide +kernel⟩⟩

/-- ManagementResults: both mailboxes perform each command; a mailbox is free, and busy; a partition page and a context page. -/
theorem witness_mailbox : (∀ op ∈ [1, 2, 3, 4, 5, 6, 7, 8, 9], ∀ bar0 ∈ [true, false], ∃ s : State, Commanded s bar0 op) ∧
    (∃ s : State, s.out.stage = 4 ∧ (s.boxOf true).busy = false ∧ (s.boxOf false).busy = true ∧ s.part? 0 = some part0) ∧
    State.reset.out.stage < 4 ∧ ∃ s : State, (∀ p ∈ s.parts, p.halted = true) ∧ s.parts ≠ [] ∧ ∃ x : Team, s.team? x.id = some x ∧
      x.state = .saved ∧ x.trailing = false ∧ (teamCtx s x).isSome = true := by
  refine ⟨fun op _ bar0 _ => ⟨{ base with out := { base.out with stage := 4, box := ⟨1, BitVec.ofNat 32 op, [], [], []⟩, port := ⟨1, BitVec.ofNat 32 op, [], [], []⟩ } }, ?_⟩,
    ⟨{ governed [] with out := { (governed []).out with port := ⟨1, 1, [], [], []⟩ } }, by decide +kernel⟩, by decide,
    { baseWith id fun t => { t with state := .saved } with parts := [{ part0 with halted := true }] }, by decide +kernel, by decide,
    { team0 with state := .saved }, by decide +kernel⟩
  unfold Commanded
  revert op bar0
  decide +kernel

/-- IllegalHasNoEffect: a reserved field; and a register at VREGS, and an instruction that reaches past its body. -/
theorem witness_illegal : ¬ WellFormed (.vaddI32x2 ⟨3, 0, 0, 0, 0⟩) ∧ (∃ c, issuing base = some c ∧ c.w.role = .solo ∧ c.w.state ≠ .retired) ∧
    (∃ c, issuing (baseWith id id fun g => { g with launch := { g.launch with vregs := 8 } }) = some c ∧ c.w.role = .solo ∧
      c.w.state ≠ .retired ∧ c.g.launch.vregs = 8) ∧
    ∃ c, issuing base2 = some c ∧ c.w.role = .solo ∧ c.w.state ≠ .retired ∧ c.e.ctx.any fun x => x.endPc < c.e.pc + 4 :=
  ⟨by decide, issues_of (by decide +kernel), issues_of (by decide +kernel), issues_of (by decide +kernel)⟩

/-- PoisonIsTaken: v1 poisoned in thread 31 alone, without recovery and with it. -/
theorem witness_poison : ∀ recov ∈ [false, true], ∃ o : OpA, o.ca ≠ 3 ∧ o.cb ≠ 3 ∧
    Seen (baseWith (fun w => { w with vBad := [(63, true)] })
      (fun t => { t with interval := { t.interval with reason := if recov then 0 else 1, shadowWaves := [wave0] } })
      fun g => { g with launch := { g.launch with recov := recov } }) 4 fun c =>
      c.w.role = .solo ∧ c.w.state = .ready ∧ Declared c [o.d.toNat, o.a.toNat, o.b.toNat] [] ∧ 31 ∈ threads c.mask ∧
      Machine.get false c.w.vBad (32 * o.a.toNat + 31) = true ∧ (∀ k ∈ threads c.mask, k < 31 →
        ¬ (Machine.get false c.w.vBad (32 * o.a.toNat + k) = true ∨ Machine.get false c.w.vBad (32 * o.b.toNat + k) = true)) ∧
      c.g.launch.recov = recov ∧ c.tm.interval.buffer = [] ∧ (recov = true → c.tm.interval.reason = 0) ∧ 0 ∉ c.tm.interval.rolled ∧
      (c.tm.interval.shadowWaves.find? fun x => x.id == c.w.id).isSome = true := by
  simp only [List.forall_mem_cons]
  exact ⟨⟨⟨0, 2, 0, 1, 3⟩, by decide, by decide, seen_of (by decide +kernel)⟩,
    ⟨⟨0, 2, 0, 1, 3⟩, by decide, by decide, seen_of (by decide +kernel)⟩, List.forall_mem_nil _⟩

/-- StepRunsTheDecodedInstruction: a wave whose turn it is stands at a header, at a two-byte and at a four-byte instruction. -/
theorem witness_turns : ∀ w ∈ [0x0FC4003F, 0x7C2, 0xA4302089], ∃ (s s1 : State) (c : Issue), s.agenda = [.issue 0] ∧
    begin? { noteReady s with agenda := [] } 0 = some s1 ∧ issuing s1 = some c ∧
      if w = 0x7C2 then c.e.ctx.isSome = true ∧ (fetchCode c c.e.pc 2).toOption.any fun r => r.1 = leBytes 2 w
      else (c.e.ctx = none ∧ c.e.pc % 4 = 0 ∧ (fetchCode c c.e.pc 4).toOption.any fun r => r.1 = leBytes 4 w) ∨
        ((c.e.ctx.any fun x => c.e.pc + 4 ≤ x.endPc) ∧ ((fetchCode c c.e.pc 2).toOption.any fun r => r.1 = leBytes 2 w) ∧
          (fetchCode c (c.e.pc + 2) 2).toOption.any fun r => r.1 = leBytes 2 (w / 65536)) := by
  have h : ∀ w s1, begin? { noteReady (placeWord State.reset w) with agenda := [] } 0 = some s1 → ∀ P : Issue → Prop, (∃ c, issuing s1 = some c ∧ P c) →
      ∃ (s s1 : State) (c : Issue), s.agenda = [.issue 0] ∧ begin? { noteReady s with agenda := [] } 0 = some s1 ∧ issuing s1 = some c ∧ P c :=
    fun w s1 hs P hp => let ⟨c, hc, hp⟩ := hp; ⟨placeWord State.reset w, s1, c, rfl, hs, hc, hp⟩
  simp only [List.forall_mem_cons]
  let at' := fun w : Nat => ((begin? { noteReady (placeWord State.reset w) with agenda := [] } 0).getD State.reset)
  exact ⟨h 0x0FC4003F (at' 0x0FC4003F) (by decide +kernel) _ (issues_of (by decide +kernel)),
    h 0x7C2 (at' 0x7C2) (by decide +kernel) _ (issues_of (by decide +kernel)),
    h 0xA4302089 (at' 0xA4302089) (by decide +kernel) _ (issues_of (by decide +kernel)), List.forall_mem_nil _⟩

/-- DecodeEncode and StepKeepsMemorySound: an encoded instruction, and a sound state that steps. -/
theorem witness_encoded : ∃ i : Instr, WellFormed i ∧ encoded i = true := ⟨.vtopk ⟨31, 0, 0, 0, 0, 63, 63⟩, rfl, rfl⟩

theorem witness_step : ∃ s t : State, SoundMemory s ∧ s.pend = [dirty] ∧ s.blocks ≠ [] ∧ Machine.step s = .next t :=
  ⟨{ stored id with agenda := [.event (.ageBoost 0)] }, _, by decide +kernel, rfl, by decide +kernel, rfl⟩

/-- SetupResults and ServiceResults: the page of partition 0 and that of its context 1, which the physical function and virtual
function 0 see and virtual function 1 does not (21 R461). -/
theorem witness_pages : (governed []).out.stage = 4 ∧ ∀ x ∈ [(none, true), (some 0, true), (some 1, false)],
    seesPage (governed []) x.1 (partOff 0) = x.2 ∧ seesPage (governed []) x.1 (ctxPage 1) = x.2 := by
  decide +kernel

/-! ## Ill-formed terms, one for each check of a field -/

/-- Operand code 3, on each source of the formats that carry codes (04 R91). -/
theorem test_reserved_codes : ∀ i ∈ [Instr.vaddI32x2 ⟨0, 2, 3, 1, 0⟩, .vaddI32x2 ⟨3, 2, 0, 1, 0⟩, .vmov ⟨3, 1, 0⟩, .vabs ⟨0, 3, 1, 0⟩,
    .vsel ⟨0, 0, 2, 3, 1, 0⟩, .vcvt ⟨0, 0, 9, 10, 3, 1, 0⟩, .vredAdd ⟨0, 3, 1, 0⟩, .stg ⟨0, 6, 0, 0, 3, 0, 4⟩], ¬ WellFormed i := by decide

/-- p7 as a destination (04 R90). -/
theorem test_p7_destination : ∀ i ∈ [Instr.pand ⟨0, 1, 7⟩, .pnot ⟨0, 7⟩, .vceq ⟨7, 0, 1, 0, 7⟩, .vshflN64 ⟨7, 1, 2, 3⟩, .vany ⟨7, 0⟩,
    .vtopk ⟨0, 0, 0, 0, 7, 1, 0⟩], ¬ WellFormed i := by decide

/-- Odd pairs, and quads that start at no multiple of 4 (04 R92). -/
theorem test_odd_pairs : ∀ i ∈ [Instr.hsplit ⟨2, 1, 3⟩, .rget ⟨4, 7⟩, .kiter ⟨0, 0, 1, 7⟩, .smap ⟨2, 5, 1⟩, .rmodeSwm ⟨0, 9⟩, .flush ⟨0, 2, 9⟩,
    .racq ⟨0, 2, 9, 1⟩, .ldg ⟨0, 7, 0, 0, 0, 3⟩, .sts ⟨0, 7, 0, 0, 0, 3⟩, .atomExch ⟨0, 0, 0, 4, 0, 3⟩, .atomCas ⟨0, 0, 0, 3, 0, 3⟩,
    .atomCas ⟨0, 0, 0, 4, 0, 2⟩, .kneigh ⟨0, 0, 0, 4, 7⟩], ¬ WellFormed i := by decide

/-- Types, roundings and sizes that a row does not take (04 R100, R102, R106, R109 to R112). -/
theorem test_reserved_types : ∀ i ∈ [Instr.vfaddQ ⟨1, 4, 0, 2, 1, 0⟩, .vcvt ⟨0, 6, 9, 10, 0, 1, 0⟩, .vcvt ⟨0, 0, 9, 9, 0, 1, 0⟩, .vcvt ⟨0, 0, 12, 9, 0, 1, 0⟩,
    .vcord ⟨1, 0, 0, 3, 0⟩, .vredAdd ⟨6, 0, 1, 0⟩, .vredAnd ⟨4, 0, 1, 0⟩, .vtopk ⟨0, 0, 1, 1, 0, 1, 0⟩, .vtopk ⟨0, 1, 0, 3, 0, 1, 0⟩,
    .vtopk ⟨0, 0, 0, 6, 0, 1, 0⟩, .stg ⟨0, 1, 0, 0, 0, 0, 4⟩, .redAdd ⟨0, 0, 0, 1, 0, 3⟩, .atomLdo ⟨0, 2, 0, 3, 0, 3⟩, .redSto ⟨0, 1, 0, 3, 0, 3⟩],
    ¬ WellFormed i := by decide

/-- Scopes, barrier scopes, conditions, faces, counts and register numbers out of range (04 Table 04-3; 11 R299, R324; 15 R371; 18
Table 18-8; 14 R336; 04 R90). -/
theorem test_out_of_range : ∀ i ∈ [Instr.fence ⟨6⟩, .atomAdd ⟨0, 0, 7, 3, 0, 3⟩, .inval ⟨0, 6, 2⟩, .barArrive ⟨0, 4, 1⟩, .barSync ⟨3, 1⟩,
    .mwait ⟨0, 0, 0, 6, 1, 2⟩, .kneigh ⟨0, 0, 6, 4, 6⟩, .yield ⟨0, 65⟩, .sysrd ⟨6, 1⟩, .syswr ⟨0, 1⟩, .amov ⟨0, 1, 0, 2, 16⟩, .azero ⟨16⟩,
    .vnarrowHi ⟨16, 0⟩], ¬ WellFormed i := by decide

/-! ## Words that the spec writes out -/

/-- A four-byte word decodes to an instruction and nothing is left. -/
def Reads (p : Nat × Instr) : Prop := decode (bytesOfNat 4 p.1) = .ok (p.2, [])

/-- Lane instructions (03; 04 Table 04-12; 06 Table 06-10; 07). -/
theorem test_decode_lane : ∀ p ∈ [(0x84202109, Instr.vfaddF32x2 ⟨1, 2, 0, 2, 4⟩), (0x00905143, .vaddI32x2 ⟨0, 9, 0, 5, 5⟩),
    (0xD208120D, .vfmaQ ⟨1, 1, 0, 2, 1, 8⟩), (0x1020614F, .vrcp ⟨1, 0, 6, 5⟩), (0x09A040D1, .vcvt ⟨0, 0, 9, 10, 0, 4, 3⟩),
    (0x01234159, .smovz ⟨0x1234, 5⟩), (0x2070189B, .vclt ⟨7, 0, 1, 4, 2⟩), (0x60302053, .amadF16x4 ⟨0, 3, 0, 2, 1⟩),
    (0x010081E1, .vscanxAdd ⟨0, 0, 8, 7⟩), (0x08886163, .vtopk ⟨2, 0, 0, 4, 2, 6, 5⟩), (0x00E4B69B, .vceq ⟨14, 1, 11, 3, 2⟩),
    (0x002092E1, .vredAdd ⟨2, 0, 9, 11⟩)], Reads p := by unfold Reads; decide

/-- The 16-bit word 0x48A4 (04), and the refusal of 0x0020. -/
theorem test_decode_short : decode (bytesOfNat 2 0x48A4) = .ok (.vaddI32x2C16 ⟨9, 5⟩, []) ∧
    ¬ ∃ r, decode (bytesOfNat 2 0x0020) = .ok r := by
  refine ⟨by decide, ?_⟩
  rintro ⟨r, h⟩
  have : (decode (bytesOfNat 2 0x0020)).toOption = none := by decide
  rw [h] at this
  exact absurd this (by simp [Except.toOption])

/-- Memory, synchronisation and the copy engine (10; 11; 13; 16). -/
theorem test_decode_memory : ∀ p ∈ [(0x030000A5, Instr.ldg ⟨0, 6, 0, 0, 0, 2⟩), (0xE322A165, .ldg ⟨0xE, 6, 0, 2, 42, 5⟩),
    (0x178242A5, .lds ⟨1, 7, 0, 36, 10⟩), (0x13128127, .stg ⟨1, 6, 0, 1, 0, 40, 4⟩), (0x17824227, .sts ⟨1, 7, 0, 0, 36, 8⟩),
    (0x008E80E9, .atomAdd ⟨0, 0, 4, 3, 40, 3⟩), (0xC68C70A9, .redSto ⟨0, 2, 4, 3, 7, 2⟩), (0x9BAC41A9, .atomCas ⟨1, 3, 5, 3, 4, 6⟩),
    (0x0400002B, .fence ⟨4⟩), (0x246082EB, .mwait ⟨4, 1, 1, 0, 8, 11⟩), (0x246451AB, .mwait ⟨4, 1, 1, 1, 5, 6⟩), (0x3000D06B, .barInit ⟨13, 1⟩),
    (0x420140EB, .barArrive ⟨2, 20, 3⟩), (0x5100A0AB, .barWait ⟨1, 10, 2⟩), (0x6100006B, .barSync ⟨1, 1⟩), (0x000092AD, .copy ⟨0, 9, 10⟩),
    (0x180041AD, .gather ⟨1, 4, 6⟩), (0x5100C02F, .hacqWr ⟨0, 12⟩), (0x0000616F, .pin ⟨6, 5⟩)], Reads p := by unfold Reads; decide

/-- The matrix engine and keyspaces (08; 15; 16). -/
theorem test_decode_engines : ∀ p ∈ [(0x0200A031, Instr.mma ⟨0, 2, 10⟩), (0x100000F1, .tkacq ⟨0, 3⟩), (0x380000F1, .tswap ⟨1, 3⟩),
    (0x51184171, .tread ⟨0, 1, 6, 4, 5⟩), (0x70008031, .colload ⟨0, 8⟩), (0x83009031, .qcopy ⟨0, 3, 9⟩), (0x02004177, .krefine ⟨0, 2, 4, 5⟩),
    (0x10002377, .kcoarsen ⟨0, 0, 2, 13⟩), (0x28085237, .kneigh ⟨1, 0, 2, 5, 8⟩), (0x3800E3F7, .kowner ⟨1, 0, 14, 15⟩),
    (0x51004237, .kclaim ⟨0, 1, 4, 8⟩), (0x83000277, .krebal ⟨0, 3, 9⟩), (0x90303037, .wpush ⟨0, 12, 3⟩), (0xA03002B7, .wpop ⟨0, 12, 10⟩),
    (0xC0300137, .wcount ⟨0, 12, 4⟩)], Reads p := by unfold Reads; decide

/-- Control, queues and headers (04; 12; 14; 16; 17). -/
theorem test_decode_control : ∀ p ∈ [(0x1FC800BF, Instr.clauseHeader ⟨7, 15, 2, 2⟩), (0x4550023F, .clauseHeader ⟨17, 5, 4, 8⟩),
    (0x00010073, .bra ⟨16, 0, 0, 1⟩), (0xFFFEE1F3, .bra ⟨0xFFFEE, 0, 0, 7⟩), (0x0000C2B3, .bra ⟨12, 0, 1, 2⟩),
    (0x01009035, .brx ⟨1, 9⟩), (0x100080B5, .call ⟨8, 2⟩), (0x300000F5, .bprio ⟨3⟩), (0x60100435, .yield ⟨4, 16⟩), (0x80001075, .trap ⟨65⟩),
    (0xB0000275, .qrecv ⟨9⟩), (0xC0006175, .spawn ⟨0, 6, 5⟩), (0xD00041B5, .rget ⟨4, 6⟩)], Reads p := by unfold Reads; decide

/-- Words that raise ILLEGAL are no instruction, or break a check (06 Table 06-10; 08; 15). -/
theorem test_decode_refuses : ∀ w ∈ [0xD808120D, 0x100002F1, 0x280C41F7], ∀ i, decode (bytesOfNat 4 w) = .ok (i, []) → ¬ WellFormed i := by
  intro w hw
  have e : (decode (bytesOfNat 4 w)).toOption.any (fun p => legal p.1) = false := by
    revert w
    decide
  intro i h
  rw [h] at e
  simpa [Except.toOption, WellFormed] using e

/-! ## Values that the spec works out -/

/-- 06, the worked values of R157 to R160 on f32: result and FPSTICKY. -/
theorem test_fp_worked : ∀ p ∈ [(fpAdd f32 .rne false 0 0x3F800000 0x33800000, 0x3F800000, fInexact),
    (fpAdd f32 .rup false 0 0x3F800000 0x33800000, 0x3F800001, fInexact), (fpSub f32 .rne false 0 0x80000000 0, 0x80000000, 0),
    (fpFma f32 .rne false 0 0x7F800000 0 0x7FC00001, 0x7FC00000, fInvalid), (fpMul f32 .rne true 0 0x00400000 0x40000000, 0, fFlush),
    (fpMinMax f32 false false 0x7F800001 0xC0000000, 0xC0000000, fInvalid), (fpMinMax f32 false true 0x7FC00000 0xC0000000, 0x7FC00000, 0),
    (fpMinMax f32 true false 0x80000000 0, 0, 0)], p.1 = p.2 := by decide +kernel

/-- 06 R166: the worked values of vrcp.f32x2, and of vsin at 2^24. -/
theorem test_special_worked : ∀ p ∈ [(special f32 2 1, 0x7F800000, fOverflow), (special f32 2 0x00400000, 0x7F000000, 0),
    (special f32 2 0x80000000, 0xFF800000, fDivZero), (special f32 2 0x7F000000, 0, fFlush ||| fUnderflow),
    (special f32 2 0xFF800000, 0x80000000, 0), (special f32 2 0x40000000, 0x3F000000, 0), (special f32 2 0x7FA00000, 0x7FC00000, fInvalid),
    (special f32 5 0x4B800000, 0x7FC00000, fRange)], p.1 = p.2 := by decide +kernel

/-- 06 R167 to R169: the worked conversions. -/
theorem test_convert_worked : ∀ p ∈ [(cvt1 (.fp f32) (.int true 32) .rtz false 0 0x40300000, 2, fInexact),
    (cvt1 (.fp f32) (.int true 32) .rtz false 0 0xC0600000, 2 ^ 32 - 3, fInexact), (cvt1 (.fp f32) (.int true 32) .rna false 0 0x40200000, 3, fInexact),
    (cvt1 (.fp f32) (.int true 32) .rna false 0 0xC0600000, 2 ^ 32 - 4, fInexact), (cvt1 (.fp f64) (.int false 8) .rne true 0 0x4072C00000000000, 255, fSat),
    (cvt1 (.fp f32) (.int true 16) .rne false 0 0x7FC00000, 0, fInvalid), (cvt1 (.fp f32) (.int true 16) .rne false 0 0xD01502F9, 0x8000, fInvalid),
    (cvt1 (.int true 32) (.int true 8) .rne false 0 0x181, 0x81, 0), (cvt1 (.fp f64) (.fp f16) .rne false 0 0x40EFFE0000000000, 0x7C00, fOverflow ||| fInexact),
    (cvt1 (.fp f64) (.fp f16) .rne true 0 0x40EFFE0000000000, 0x7BFF, fOverflow ||| fInexact ||| fSat)],
    (p.1.1 % 2 ^ 32 = p.2.1 ∨ p.1.1 % 2 ^ 16 = p.2.1 ∨ p.1.1 % 2 ^ 8 = p.2.1) ∧ p.1.2 = p.2.2 := by decide +kernel

/-- 06 R178: amad.f64 of 1.0 and 2^−53 leaves 1.0 and the error 2^−53. -/
theorem test_amad_worked : amadF64 0x3FF0000000000000#128 0x3CA0000000000000#64 0x3FF0000000000000#64 =
    (0x3CA00000000000003FF0000000000000#128, fInexact) := by decide +kernel

/-- 05 R138: the weights of index 0x8305 under scale byte 0x7E, in quarters. -/
theorem test_lattice_worked : (List.range 8).map (latticeWeight 0x20113201 0x8305 0x7E) =
    [(true, 3), (true, 1), (false, 5), (false, 7), (false, 3), (false, 3), (false, 1), (false, 5)].map fun p => .fin p.1 p.2 (-2) := by
  decide +kernel

/-- 05 R132: amax 20.0 gives e4m3 the scale exponent −4. -/
theorem test_block_worked : blockExp 1 [.fin false 20 0, .fin true 3 0] = some (-4) := by decide +kernel

/-- 12: block 37 of the first run is homed on slice 6 of 16. -/
theorem test_slice_worked : sliceHash 16 0x10025000 = 6 := by decide +kernel

/-- 15 R358: the key of the patch at (2, 0, 2) and its children. -/
theorem test_key_worked : let ks : Keyspace := ⟨0, 0, 0, 3, 2, 0, 1, 0, 0, 0, 0, 0, [], [], none, false⟩
    mortonOf 3 2 (fun a => if a = 1 then 0 else 2) = 40 ∧
      keyChildren ks 0x501 = [0x502, 0x522, 0x542, 0x562, 0x582, 0x5A2, 0x5C2, 0x5E2] := by decide +kernel

/-- The tables of 18 R402's example of a walk, on device 3. -/
def walked : State := [(3 * homeSpan + 0x100000, 0x200001), (3 * homeSpan + 0x200918, 0x300001), (3 * homeSpan + 0x3022B0, 0x00C000000ABC0089)].foldl
  (fun s p => writeHomeN s p.1 8 p.2)
  { base with tags := [0, 1, 0xABC0000 / 2 ^ 21].map fun r => (3 * homeSpan / 2 ^ 21 + r, false, 0), out.device := 3 }

/-- 18 R402: VA 0x12_3456_789A comes to PA 0x0ABC_789A of home 3, and a store sets DIRTY. -/
theorem test_walk_worked : ((translate walked ctx1 0 false .write 0x123456789A).toOption.any fun x => x.loc = 3 * homeSpan + 0x0ABC789A ∧
    readHomeN (touchLeaf walked 0 true x) (3 * homeSpan + 0x3022B0) 8 = 0x00C000000ABC0189) = true := by decide +kernel

/-! ## Single steps -/

noncomputable section

/-- What an instruction's next state, and wave 0 in it, must satisfy. -/
def After (s : State) (i : Instr) (p : State → Wave → Bool) : Prop :=
  (match exec i s with
    | .next t => (t.wave? 0).any (p t)
    | _ => false) = true

end

/-- The setting with v1 and v2 holding a number in every thread, and s10 another. -/
def given (x y : Word) (z : Word := 0) : State := baseWith fun w =>
  ({ w with s := put 0#64 w.s 10 z }.setVs 1 (List.range 32) fun _ => x).setVs 2 (List.range 32) fun _ => y

/-- 06 Table 06-1: sub-elements wrap apart, and a last-use source that is not the destination is gone. -/
theorem test_step_add : After (given 0xFFFFFFFF00000001 0x00000002FFFFFFFF) (.vaddI32x2 ⟨1, 2, 0, 1, 1⟩) fun _ w =>
    w.getV 1 31 = 0x0000000100000000 ∧ w.getV 2 31 = poisonValue 2 ∧ w.retired = 1 := by unfold After; decide +kernel

/-- 06 Table 06-1: the signed minimum clamps, and SAT is raised. -/
theorem test_step_sat : After (given 0x8000000000000000 1) (.vsubI64Sat ⟨0, 2, 0, 1, 3⟩) fun _ w =>
    w.getV 3 0 = 0x8000000000000000 ∧ w.sticky = fSat := by unfold After; decide +kernel

/-- 06: the high half of −1 · 2, signed; a shift takes its count modulo the width. -/
theorem test_step_mulhi : After (given (-1) 2) (.vmulhiI64 ⟨0, 2, 0, 1, 3⟩) fun _ w => w.getV 3 5 = -1 := by unfold After; decide +kernel
theorem test_step_shift : After (given 0x8000000000000001 65) (.vshrI64 ⟨0, 2, 0, 1, 3⟩) fun _ w => w.getV 3 5 = 0xC000000000000000 := by
  unfold After; decide +kernel

/-- 06 R156: a negative immediate is extended; R155: smovk32 keeps the other bits. -/
theorem test_step_saddi : After (given 0 0 8) (.saddi ⟨0xFF0, 10, 11⟩) fun _ w => w.getS 11 = -8 := by unfold After; decide +kernel
theorem test_step_smovk : After (given 0 0 (-1)) (.smovk32 ⟨0x1234, 10⟩) fun _ w => w.getS 10 = 0xFFFF1234FFFFFFFF := by
  unfold After; decide +kernel

/-- 06 R170: an ordered compare of a NaN is false, and p7 stays true. -/
theorem test_step_compare : After (given 0x7FC00000 0) (.vclt ⟨2, 0, 1, 4, 0⟩) fun _ w => w.getP 0 3 = false ∧ w.getP 7 3 = true := by
  unfold After; decide +kernel

/-- 07: the worked shuffle, thread 0: 34 names element 1 of thread 2, 1 names element 0 of thread 1. -/
theorem test_step_shuffle :
    let s := baseWith fun w =>
      let x : Wave := { w with frontier := w.frontier.map fun e => { e with mask := 15 } }
      (((x.setVs 2 (List.range 4) fun t =>
      BitVec.ofNat 64 (0x0000020000000100 + t * 0x0000000100000001)).setVs 3 [0] fun _ => 0x0000002200000001).setVs 3 [1, 2, 3] fun t =>
      if t = 1 then 5 else 0).setVs 4 (List.range 4) fun _ => -1
    After s (.vshflN32x2 ⟨1, 3, 2, 4⟩) fun _ w => w.getV 4 0 = 0x0000020200000101 ∧ w.getV 4 1 = 0x00000100FFFFFFFF ∧
      w.getP 1 0 = true ∧ w.getP 1 1 = false := by unfold After; decide +kernel

/-- 07: the worked scan of 5, 7 and 4 in threads 0, 1 and 3. -/
theorem test_step_scan :
    let s := baseWith fun w =>
      let x : Wave := { w with frontier := w.frontier.map fun e => { e with mask := 11 } }
      x.setVs 8 [0, 1, 3] fun t =>
      if t = 0 then 5 else if t = 1 then 7 else 4
    After s (.vscanxAdd ⟨0, 0, 8, 7⟩) fun _ w => [0, 1, 3].map (fun t => w.getV 7 t) = [0, 5, 12] := by unfold After; decide +kernel

/-- 07: the worked ranks of vtopk, and of its .nanhi form. -/
theorem test_step_topk :
    let s := baseWith fun w =>
      let x : Wave := { w with frontier := w.frontier.map fun e => { e with mask := 63 } }
      x.setVs 6 (List.range 6) fun t =>
      [0x40000000, 0x7FC00000, 0x40A00000, 0x40A00000, 0xFF800000, 0x80000000].getD t 0
    After s (.vtopk ⟨2, 0, 0, 4, 2, 6, 5⟩) (fun _ w => (List.range 6).map (fun t => w.getV 5 t) = [2, 5, 0, 1, 4, 3] ∧ w.getP 2 0 = true ∧
      w.getP 2 5 = false) ∧
    After s (.vtopk ⟨2, 1, 0, 4, 2, 6, 5⟩) fun _ w => (List.range 6).map (fun t => w.getV 5 t) = [3, 0, 1, 2, 5, 4] := by
  unfold After; decide +kernel

/-- 11 R291: a signed 16-bit load, little-endian, extends its sign. -/
theorem test_step_load :
    let o := flight (.load 3 20 ⟨0, 1, false, []⟩ [memAccess 4 0x3000 2] [])
    After { writeHomeN (flying []) 0x3000 2 0x80FE with ops := [o], blocks := [heldAt 0x3000 1 .shared] } (.loadComplete ⟨5, none⟩) fun t w =>
      w.getV 20 4 = 0xFFFFFFFFFFFF80FE ∧ t.ops = [] := by unfold After; decide +kernel

/-- 11 R292, R289: of two threads' stores to one byte the higher thread's stays. -/
theorem test_step_store : After (flying [flight (.store kept [(memAccess 1 0x3000 2, 0x1122), (memAccess 2 0x3001 1, 0x33)])]) (.storeComplete ⟨5, none⟩)
    fun t _ => [0, 1].map (fun i => coreByte t 0 (0x3000 + i)) = [0x22, 0x33] := by unfold After; decide +kernel

/-- 11 R294: the worked uniform add of 1 by threads 0 to 3 on 10. -/
theorem test_step_atomic :
    let acc := (List.range 4).map fun t => (memAccess t 0x3000 4, 1, 0)
    After { writeHomeN (flying []) 0x3000 4 10 with ops := [flight (.atom .add 2 true 0 4 20 false acc)] } (.atomicComplete 5) fun t w =>
      readHomeN t 0x3000 4 = 14 ∧ (List.range 4).map (fun t => w.getV 20 t) = [10, 11, 12, 13] := by unfold After; decide +kernel

/-- 11 R302: the second of two arrivals clears ARRIVED and flips PHASE. -/
theorem test_step_barrier : After (barAt 1 (barWord 1 2 0) 0) (.barArrive ⟨1, 20, 1⟩) fun t w =>
    w.getS 20 = 0 ∧ (t.team? 0).any fun tm => tm.barrier 1 = 2 * 2 ^ 16 + 2 ^ 32 + 2 ^ 33 := by unfold After; decide +kernel

/-- 04 R113, 14 R331: a taken branch counts from the header in units of 4 bytes; one not taken falls through. -/
theorem test_step_branch : After base (.bra ⟨0xFFFFE, 1, 0, 7⟩) (fun _ w => w.frontier.map (·.pc) = [0x0FF8]) ∧
    After base (.bra ⟨0xFFFFE, 1, 1, 7⟩) fun _ w => w.frontier.map (·.pc) = [0x1008] := by unfold After; decide +kernel

/-- 14 R333: call leaves the return address in each active thread. -/
theorem test_step_call : After (given 0 0 0x2000) (.call ⟨10, 2⟩) fun _ w => w.getV 2 9 = 0x1008 ∧ w.frontier.map (·.pc) = [0x2000] := by
  unfold After; decide +kernel

/-- 04 R116, 18 R406: a reserved code parks the wave at the instruction with a record of code 1, and no register is written. -/
theorem test_step_illegal : After (given 1 2) (.vaddI32x2 ⟨3, 2, 0, 1, 1⟩) fun t w => w.state = .parked ∧ w.getV 1 0 = 1 ∧ w.retired = 0 ∧
    t.records.map (fun r => (r.kind, r.code, r.pc)) = [(0, 1, 0x1004)] := by unfold After; decide +kernel

/-- 18 Table 18-6: a load from an address that no entry maps raises XLATE (7) in the lowest thread, with that address. -/
theorem test_step_xlate : After (given 0 0 0x10000000) (.ldg ⟨0, 6, 0, 0, 10, 20⟩) fun t w => w.state = .parked ∧
    t.records.map (fun r => (r.kind, r.code, r.thread, r.addr)) = [(0, 7, 0, 0x10000000)] := by unfold After; decide +kernel

/-- 14 R339: a trap parks the wave past it, with its code. -/
theorem test_step_trap : After base (.trap ⟨65⟩) fun t w => w.state = .parked ∧ w.retired = 1 ∧
    t.records.map (fun r => (r.kind, r.code, r.pc)) = [(1, 65, 0x1008)] := by unfold After; decide +kernel

/-- 05 R128: SEED takes 1 where 0 is written; 18 R411: a write of TRAPPC outside system mode raises ILLEGAL (1). -/
theorem test_step_syswr : After (given 0 0) (.syswr ⟨0x20, 10⟩) (fun _ w => w.seed = 1) ∧
    After (given 0 0) (.syswr ⟨0x25, 10⟩) fun t w => w.state = .parked ∧ t.records.map (·.code) = [1] := by unfold After; decide +kernel

/-- 14 R342: 63 bits of a value pass through a stage queue. -/
theorem test_step_queue : After (staged 0 .ready []) (.qsend ⟨10⟩) (fun t _ => (t.team? 0).any fun tm => tm.queue 0 0 = [0]) ∧
    After { staged 0 .ready [] with waves := (staged 0 .ready []).waves.map fun w => { w with s := [(10, -1)] } } (.qsend ⟨10⟩) fun t _ =>
      (t.team? 0).any fun tm => tm.queue 0 0 = [0x7FFFFFFFFFFFFFFF] := by unfold After; decide +kernel

/-- 08 R220: tzero clears the accumulating bank of its tile alone. -/
theorem test_step_tzero : After { flying [flight (.tile 4 1)] with
      clusters := [⟨0, [(2 * 65536, 7#8), (3 * 65536, 8#8), (4 * 65536, 9#8)], [], [], [], [], 0, none⟩] } (.tileInstrEffect 5) fun t _ =>
    ([true, false].map fun b => (t.cluster 0).elem 1 b 0 0) = [0, 8] ∧ (t.cluster 0).elem 2 true 0 0 = 9 := by
  unfold After; decide +kernel

/-- 15 R383: wins refuses a list without DEDUP with 4; a push past the capacity is dropped and counted, saturating. -/
theorem test_step_list : After (keyFlight (ks0 3 none) 0 (list0 false [1, 2]) (.list 9 63 62 [(0, 5)] [])) (.workListStep 5) (fun t _ =>
      (t.list? 0 63).any fun l => l.keys = [1, 2] ∧ l.dropped = 2 ^ 32 - 1) ∧
    After (keyFlight (ks0 3 none) 0 (list0 false []) (.list 11 63 62 [(0, 5)] [])) (.workListStep 5) fun _ w => w.getV 62 0 = 4 := by
  unfold After; decide +kernel

end Sys2Proof.Tests
end

/-! # The execution model (02): what a step runs, and where a team is placed -/

namespace Sys2Proof.ExecutionModel

open Sys2Proof.Machine

/-! ## The instruction that is fetched (04 R84 to R86, R115) -/

section
variable {c : Issue} {i : Instr} {b0 b1 b2 b3 : Byte} {xs ys : List Xl} {x : Ctx}

/-- Outside a body an aligned clause header is fetched whole. -/
theorem fetch_header (hctx : c.e.ctx = none) (hpc : c.e.pc % 4 = 0) (hcode : fetchCode c c.e.pc 4 = .ok ([b0, b1, b2, b3], xs))
    (hdec : decode [b0, b1, b2, b3] = .ok (i, [])) (hi : isHeader i = true) : fetch c = .ok (i, xs) := by
  simp [fetch, hctx, hpc, hcode, hdec, hi]

/-- In a body a parcel whose bit 0 is clear is an instruction by itself. -/
theorem fetch_short (hctx : c.e.ctx = some x) (hcode : fetchCode c c.e.pc 2 = .ok ([b0, b1], xs)) (hbit : b0.getLsbD 0 = false)
    (hdec : decode [b0, b1] = .ok (i, [])) : fetch c = .ok (i, xs) := by
  simp only [fetch, hctx, hcode, List.head?_cons, Option.getD_some, hbit, Bool.false_eq_true, if_false, hdec]

/-- In a body a parcel whose bit 0 is set takes the next one with it, where the body holds both; they are no clause header. -/
theorem fetch_long (hctx : c.e.ctx = some x) (hcode : fetchCode c c.e.pc 2 = .ok ([b0, b1], xs)) (hbit : b0.getLsbD 0 = true)
    (hend : c.e.pc + 4 ≤ x.endPc) (hcode' : fetchCode c (c.e.pc + 2) 2 = .ok ([b2, b3], ys))
    (hdec : decode [b0, b1, b2, b3] = .ok (i, [])) (hi : isHeader i = false) : fetch c = .ok (i, xs ++ ys) := by
  simp [fetch, hctx, hcode, hbit, Nat.not_lt.2 hend, hcode', hdec, hi]

end

/-! ## One step -/

/-- A step at a turn of the agenda notes the ready heads and makes that turn. -/
theorem step_agenda {s : State} {t : Turn} {rest : List Turn} (h : s.agenda = t :: rest) :
    step s = runTurn { noteReady s with agenda := rest } t := by
  have hn : (noteReady s).agenda = t :: rest := h
  unfold step
  simp only [hn]

/-- The turn of a wave that may issue runs what it fetches, in the state with ACCESSED set in the pages fetched from. -/
theorem runTurn_issue {s s1 : State} {id : Nat} {c : Issue} {i : Instr} {xs : List Xl} (hb : begin? s id = some s1)
    (hc : issuing s1 = some c) (hf : fetch c = .ok (i, xs)) :
    runTurn s (.issue id) = exec i (touchLeaves s1 c.tm.core false xs) := by
  simp only [runTurn, fetchTurn, hb, hc, hf]

/-- Settles O56: a step makes the first turn of the agenda, and a wave's turn runs what `fetch` answers for the header, the two-byte or the
four-byte instruction that stands at its PC. -/
theorem stepRunsTheDecodedInstruction : Obligations.StepRunsTheDecodedInstruction := by
  refine ⟨fun s s1 id rest c i ha hb hc => ?_, fun s i rest ha => step_agenda ha⟩
  have run : ∀ xs, fetch c = .ok (i, xs) → step s = exec i (touchLeaves s1 c.tm.core false xs) :=
    fun xs hf => (step_agenda ha).trans (runTurn_issue hb hc hf)
  refine ⟨fun b0 b1 b2 b3 xs hctx hpc hcode hdec hi => ?_, fun b0 b1 xs x hctx hcode hbit hdec => ?_,
    fun b0 b1 b2 b3 xs ys x hctx hcode hbit hend hcode' hdec hi => ?_⟩
  · exact run xs (fetch_header hctx hpc hcode hdec hi)
  · exact run xs (fetch_short hctx hcode hbit hdec)
  · exact run (xs ++ ys) (fetch_long hctx hcode hbit hend hcode' hdec hi)

/-! ## A merged grid whose launches differ in XREDUN -/

/-- A grid of a redundant launch with a child merged into it whose launch is not redundant: team 1, the next to be placed. -/
def mixedGrid : Grid :=
  ⟨0, 0x2000, 1, 0, 0, { setLaunch with xredun := true }, .running, 1, 0, false, false, [(0x2100, setLaunch)], none, none, 0⟩

/-- A partition of cluster 0. -/
def cluster0 : Partition := ⟨0, false, [], [], 0, [0], [], 0, 0, 0, false, false⟩

/-- The device with that partition and that grid, and no team. -/
def mixedState : State := { State.reset with parts := [cluster0], grids := [mixedGrid] }

/-- The placement of team 1 asks for the two cores of a redundant team. -/
theorem mixedState_places : mixedGrid.waiting = true ∧ placedAfter mixedState mixedGrid = false ∧
    groupFits mixedState mixedGrid mixedGrid.nextGroup [0, 1] = true ∧ prefers mixedState mixedGrid mixedGrid.nextGroup [0, 1] = true := by
  decide +kernel

/-- The teams of the state that an outcome goes on with. -/
def teamCount : Host.Outcome State Fault Refusal → Nat
  | .next t => t.teams.length
  | _ => 0

/-- The placement starts one team, since the launch of team 1 itself is not redundant. -/
theorem mixedState_placed : teamCount (exec (.teamPlace mixedGrid.id [0, 1]) mixedState) = 1 := by decide +kernel

/-- Refutes O49: `teamPlace` takes the number of cores of a team from the grid's own launch, and the number of teams to start from the
launch merged in for it. Where the first is redundant and the second is not, one team starts for two cores, and the cores of the teams
started are not the cores named. The aggregator merges only launches that agree in XREDUN (14 R350), so that no run comes to such a grid;
but the statement is about every state, and no premise of it says so. -/
theorem not_launchResults : ¬ Obligations.LaunchResults := by
  rintro ⟨-, -, -, hplace, -⟩
  obtain ⟨hwait, hafter, hfits, hprefers⟩ := mixedState_places
  obtain ⟨t, teams, waves, ht, hteams, -, -, -, hcores, -⟩ :=
    hplace mixedState mixedGrid [0, 1] cluster0 rfl rfl rfl rfl hwait hafter hfits hprefers
  have hone : t.teams.length = 1 := by simpa only [ht, teamCount] using mixedState_placed
  have htwo : teams.length = 2 := by simpa using congrArg List.length hcores
  have hadded : t.teams.length = mixedState.teams.length + teams.length := by simpa using congrArg List.length hteams
  have hnone : mixedState.teams.length = 0 := rfl
  omega

end Sys2Proof.ExecutionModel

/-! # The encoding (04) -/

namespace Sys2Proof.Encoding

open BitVec (extractLsb'_append_eq_of_le extractLsb'_append_eq_of_add_le extractLsb'_append_extractLsb'_eq_extractLsb'
  extractLsb'_eq_self)

/-! ## The fields of a form, read back from a word that holds them

A row's word is its fields put side by side, with constants between them; every row of one form has them at the same places. -/

theorem getOpHdr_append (o : OpHdr) (k : BitVec 1) (m : BitVec 6) :
    getOpHdr (k ++ o.len ++ o.flagB ++ o.flagA ++ o.wait ++ m) = o := by
  simp (disch := decide) only [getOpHdr, fld, extractLsb'_append_eq_of_le, extractLsb'_append_eq_of_add_le]
  simp

theorem getOpA_append (o : OpA) (k : BitVec 4) (m : BitVec 6) :
    getOpA (k ++ o.cb ++ o.b ++ o.ca ++ o.a ++ o.d ++ m) = o := by
  simp (disch := decide) only [getOpA, fld, extractLsb'_append_eq_of_le, extractLsb'_append_eq_of_add_le]
  simp

theorem getOpDA_append (o : OpDA) (k : BitVec 12) (m : BitVec 6) : getOpDA (k ++ o.ca ++ o.a ++ o.d ++ m) = o := by
  simp (disch := decide) only [getOpDA, fld, extractLsb'_append_eq_of_le, extractLsb'_append_eq_of_add_le]
  simp

theorem getOpQ_append (o : OpQ) (k : BitVec 2) (m : BitVec 6) :
    getOpQ (k ++ o.t ++ o.rnd ++ o.ftz ++ o.b ++ o.a ++ o.d ++ m) = o := by
  simp (disch := decide) only [getOpQ, fld, extractLsb'_append_eq_of_le, extractLsb'_append_eq_of_add_le]
  simp

theorem getOpU_append (o : OpU) (k : BitVec 2) (m : BitVec 8) (n : BitVec 6) :
    getOpU (k ++ o.t ++ m ++ o.ca ++ o.a ++ o.d ++ n) = o := by
  simp (disch := decide) only [getOpU, fld, extractLsb'_append_eq_of_le, extractLsb'_append_eq_of_add_le]
  simp

theorem getOpUI_append (o : OpUI) (k : BitVec 3) (m : BitVec 8) (n : BitVec 6) :
    getOpUI (k ++ o.t ++ m ++ o.ca ++ o.a ++ o.d ++ n) = o := by
  simp (disch := decide) only [getOpUI, fld, extractLsb'_append_eq_of_le, extractLsb'_append_eq_of_add_le]
  simp

theorem getOpD_append (o : OpD) (k : BitVec 20) (m : BitVec 6) : getOpD (k ++ o.d ++ m) = o := by
  simp (disch := decide) only [getOpD, fld, extractLsb'_append_eq_of_le, extractLsb'_append_eq_of_add_le]
  simp

theorem getOpC_append (o : OpC) (k : BitVec 6) : getOpC (o.sat ++ o.rnd ++ o.dt ++ o.st ++ o.ca ++ o.a ++ o.d ++ k) = o := by
  simp (disch := decide) only [getOpC, fld, extractLsb'_append_eq_of_le, extractLsb'_append_eq_of_add_le]
  simp

theorem getOpS_append (o : OpS) (k : BitVec 4) (m : BitVec 6) :
    getOpS (k ++ o.slot ++ o.b ++ o.ca ++ o.a ++ o.d ++ m) = o := by
  simp (disch := decide) only [getOpS, fld, extractLsb'_append_eq_of_le, extractLsb'_append_eq_of_add_le]
  simp

theorem getOpAD_append (o : OpAD) (k : BitVec 14) (m : BitVec 6) : getOpAD (k ++ o.a ++ o.d ++ m) = o := by
  simp (disch := decide) only [getOpAD, fld, extractLsb'_append_eq_of_le, extractLsb'_append_eq_of_add_le]
  simp

theorem getOpI_append (o : OpI) (k : BitVec 2) (m : BitVec 6) : getOpI (o.imm ++ k ++ o.a ++ o.d ++ m) = o := by
  simp (disch := decide) only [getOpI, fld, extractLsb'_append_eq_of_le, extractLsb'_append_eq_of_add_le]
  simp

theorem getOpL_append (o : OpL) (k : BitVec 4) (m : BitVec 6) : getOpL (k ++ o.imm ++ o.d ++ m) = o := by
  simp (disch := decide) only [getOpL, fld, extractLsb'_append_eq_of_le, extractLsb'_append_eq_of_add_le]
  simp

theorem getOpP_append (o : OpP) (k : BitVec 6) (m : BitVec 6) :
    getOpP (k ++ o.b ++ o.ca ++ o.a ++ o.t ++ o.pd ++ m) = o := by
  simp (disch := decide) only [getOpP, fld, extractLsb'_append_eq_of_le, extractLsb'_append_eq_of_add_le]
  simp

theorem getOpE_append (o : OpE) (k : BitVec 1) (m : BitVec 6) :
    getOpE (k ++ o.p ++ o.cb ++ o.b ++ o.ca ++ o.a ++ o.d ++ m) = o := by
  simp (disch := decide) only [getOpE, fld, extractLsb'_append_eq_of_le, extractLsb'_append_eq_of_add_le]
  simp

theorem getOpPL_append (o : OpPL) (k : BitVec 14) (m : BitVec 3) (n : BitVec 6) :
    getOpPL (k ++ o.pb ++ o.pa ++ m ++ o.pd ++ n) = o := by
  simp (disch := decide) only [getOpPL, fld, extractLsb'_append_eq_of_le, extractLsb'_append_eq_of_add_le]
  simp

theorem getOpPN_append (o : OpPN) (k : BitVec 17) (m : BitVec 3) (n : BitVec 6) :
    getOpPN (k ++ o.pa ++ m ++ o.pd ++ n) = o := by
  simp (disch := decide) only [getOpPN, fld, extractLsb'_append_eq_of_le, extractLsb'_append_eq_of_add_le]
  simp

theorem getOpX_append (o : OpX) (k : BitVec 5) (m : BitVec 6) : getOpX (k ++ o.p ++ o.b ++ o.a ++ o.d ++ m) = o := by
  simp (disch := decide) only [getOpX, fld, extractLsb'_append_eq_of_le, extractLsb'_append_eq_of_add_le]
  simp

theorem getOpBal_append (o : OpBal) (k : BitVec 5) (m : BitVec 12) (n : BitVec 6) :
    getOpBal (k ++ o.p ++ m ++ o.d ++ n) = o := by
  simp (disch := decide) only [getOpBal, fld, extractLsb'_append_eq_of_le, extractLsb'_append_eq_of_add_le]
  simp

theorem getOpVote_append (o : OpVote) (k : BitVec 5) (m : BitVec 9) (n : BitVec 12) :
    getOpVote (k ++ o.p ++ m ++ o.pa ++ n) = o := by
  simp (disch := decide) only [getOpVote, fld, extractLsb'_append_eq_of_le, extractLsb'_append_eq_of_add_le]
  simp

theorem getOpUni_append (o : OpUni) (k : BitVec 5) (m : BitVec 6) (n : BitVec 12) :
    getOpUni (k ++ o.p ++ m ++ o.a ++ n) = o := by
  simp (disch := decide) only [getOpUni, fld, extractLsb'_append_eq_of_le, extractLsb'_append_eq_of_add_le]
  simp

theorem getOpCmp_append (o : OpCmp) (k : BitVec 5) (m : BitVec 6) (n : BitVec 6) :
    getOpCmp (k ++ o.p ++ m ++ o.a ++ o.d ++ n) = o := by
  simp (disch := decide) only [getOpCmp, fld, extractLsb'_append_eq_of_le, extractLsb'_append_eq_of_add_le]
  simp

theorem getOpT_append (o : OpT) (k : BitVec 9) (m : BitVec 6) : getOpT (k ++ o.t ++ o.ca ++ o.a ++ o.d ++ m) = o := by
  simp (disch := decide) only [getOpT, fld, extractLsb'_append_eq_of_le, extractLsb'_append_eq_of_add_le]
  simp

theorem getOpK_append (o : OpK) (k : BitVec 1) (m : BitVec 6) :
    getOpK (k ++ o.k ++ o.nanhi ++ o.abs ++ o.t ++ o.pd ++ o.a ++ o.d ++ m) = o := by
  simp (disch := decide) only [getOpK, fld, extractLsb'_append_eq_of_le, extractLsb'_append_eq_of_add_le]
  simp

theorem getOpLdg_append (o : OpLdg) (k : BitVec 2) (m : BitVec 2) (n : BitVec 6) :
    getOpLdg (o.off ++ k ++ o.size ++ o.fsel ++ o.hint ++ m ++ o.base ++ o.d ++ n) = o := by
  simp (disch := decide) only [getOpLdg, fld, extractLsb'_append_eq_of_le, extractLsb'_append_eq_of_add_le]
  simp

theorem getOpLds_append (o : OpLds) (k : BitVec 2) (m : BitVec 4) (n : BitVec 6) :
    getOpLds (o.off ++ k ++ o.size ++ o.fsel ++ m ++ o.base ++ o.d ++ n) = o := by
  simp (disch := decide) only [getOpLds, fld, extractLsb'_append_eq_of_le, extractLsb'_append_eq_of_add_le]
  simp

theorem getOpStg_append (o : OpStg) (k : BitVec 2) (m : BitVec 6) :
    getOpStg (o.off ++ k ++ o.size ++ o.fsel ++ o.hint ++ o.dcode ++ o.base ++ o.data ++ m) = o := by
  simp (disch := decide) only [getOpStg, fld, extractLsb'_append_eq_of_le, extractLsb'_append_eq_of_add_le]
  simp

theorem getOpSts_append (o : OpSts) (k : BitVec 2) (m : BitVec 2) (n : BitVec 6) :
    getOpSts (o.off ++ k ++ o.size ++ o.fsel ++ m ++ o.dcode ++ o.base ++ o.data ++ n) = o := by
  simp (disch := decide) only [getOpSts, fld, extractLsb'_append_eq_of_le, extractLsb'_append_eq_of_add_le]
  simp

theorem getOpN_append (o : OpN) (k : BitVec 4) (m : BitVec 1) (n : BitVec 6) :
    getOpN (k ++ o.fsel ++ m ++ o.order ++ o.scope ++ o.size ++ o.base ++ o.b ++ n) = o := by
  simp (disch := decide) only [getOpN, fld, extractLsb'_append_eq_of_le, extractLsb'_append_eq_of_add_le]
  simp

theorem getOpFence_append (o : OpFence) (k : BitVec 5) (m : BitVec 24) : getOpFence (k ++ o.scope ++ m) = o := by
  simp (disch := decide) only [getOpFence, fld, extractLsb'_append_eq_of_le, extractLsb'_append_eq_of_add_le]
  simp

theorem getOpRacq_append (o : OpRacq) (k : BitVec 4) (m : BitVec 6) (n : BitVec 6) :
    getOpRacq (k ++ o.fsel ++ o.scope ++ m ++ o.range ++ o.core ++ n) = o := by
  simp (disch := decide) only [getOpRacq, fld, extractLsb'_append_eq_of_le, extractLsb'_append_eq_of_add_le]
  simp

theorem getOpMwait_append (o : OpMwait) (k : BitVec 5) (m : BitVec 1) (n : BitVec 6) :
    getOpMwait (k ++ o.scope ++ m ++ o.acq ++ o.wide ++ o.cond ++ o.addr ++ o.val ++ n) = o := by
  simp (disch := decide) only [getOpMwait, fld, extractLsb'_append_eq_of_le, extractLsb'_append_eq_of_add_le]
  simp

theorem getOpBarInit_append (o : OpBarInit) (k : BitVec 14) (m : BitVec 1) (n : BitVec 6) :
    getOpBarInit (k ++ o.count ++ m ++ o.id ++ n) = o := by
  simp (disch := decide) only [getOpBarInit, fld, extractLsb'_append_eq_of_le, extractLsb'_append_eq_of_add_le]
  simp

theorem getOpBarPh_append (o : OpBarPh) (k : BitVec 5) (m : BitVec 6) (n : BitVec 1) (l : BitVec 6) :
    getOpBarPh (k ++ o.bs ++ m ++ o.phase ++ n ++ o.id ++ l) = o := by
  simp (disch := decide) only [getOpBarPh, fld, extractLsb'_append_eq_of_le, extractLsb'_append_eq_of_add_le]
  simp

theorem getOpBarSync_append (o : OpBarSync) (k : BitVec 5) (m : BitVec 13) (n : BitVec 6) :
    getOpBarSync (k ++ o.bs ++ m ++ o.id ++ n) = o := by
  simp (disch := decide) only [getOpBarSync, fld, extractLsb'_append_eq_of_le, extractLsb'_append_eq_of_add_le]
  simp

theorem getOpY2_append (o : OpY2) (k : BitVec 14) (m : BitVec 12) : getOpY2 (k ++ o.f2 ++ m) = o := by
  simp (disch := decide) only [getOpY2, fld, extractLsb'_append_eq_of_le, extractLsb'_append_eq_of_add_le]
  simp

theorem getOpF12_append (o : OpF12) (k : BitVec 4) (m : BitVec 9) (n : BitVec 6) :
    getOpF12 (k ++ o.fsel ++ m ++ o.f2 ++ o.f1 ++ n) = o := by
  simp (disch := decide) only [getOpF12, fld, extractLsb'_append_eq_of_le, extractLsb'_append_eq_of_add_le]
  simp

theorem getOpF2_append (o : OpF2) (k : BitVec 4) (m : BitVec 9) (n : BitVec 12) :
    getOpF2 (k ++ o.fsel ++ m ++ o.f2 ++ n) = o := by
  simp (disch := decide) only [getOpF2, fld, extractLsb'_append_eq_of_le, extractLsb'_append_eq_of_add_le]
  simp

theorem getOpY12_append (o : OpY12) (k : BitVec 14) (m : BitVec 6) : getOpY12 (k ++ o.f2 ++ o.f1 ++ m) = o := by
  simp (disch := decide) only [getOpY12, fld, extractLsb'_append_eq_of_le, extractLsb'_append_eq_of_add_le]
  simp

theorem getOpFG2_append (o : OpFG2) (k : BitVec 4) (m : BitVec 6) (n : BitVec 12) :
    getOpFG2 (k ++ o.fsel ++ o.g ++ m ++ o.f2 ++ n) = o := by
  simp (disch := decide) only [getOpFG2, fld, extractLsb'_append_eq_of_le, extractLsb'_append_eq_of_add_le]
  simp

theorem getOpY123_append (o : OpY123) (k : BitVec 8) (m : BitVec 6) : getOpY123 (k ++ o.f3 ++ o.f2 ++ o.f1 ++ m) = o := by
  simp (disch := decide) only [getOpY123, fld, extractLsb'_append_eq_of_le, extractLsb'_append_eq_of_add_le]
  simp

theorem getOpTile_append (o : OpTile) (k : BitVec 4) (m : BitVec 18) (n : BitVec 6) :
    getOpTile (k ++ o.fsel ++ m ++ o.c ++ n) = o := by
  simp (disch := decide) only [getOpTile, fld, extractLsb'_append_eq_of_le, extractLsb'_append_eq_of_add_le]
  simp

theorem getOpTRow_append (o : OpTRow) (k : BitVec 4) (m : BitVec 3) (n : BitVec 6) :
    getOpTRow (k ++ o.fsel ++ o.g ++ o.rows ++ o.sp ++ m ++ o.c ++ n) = o := by
  simp (disch := decide) only [getOpTRow, fld, extractLsb'_append_eq_of_le, extractLsb'_append_eq_of_add_le]
  simp

theorem getOpBra_append (o : OpBra) (k : BitVec 1) (m : BitVec 6) :
    getOpBra (o.off ++ k ++ o.uni ++ o.neg ++ o.p ++ m) = o := by
  simp (disch := decide) only [getOpBra, fld, extractLsb'_append_eq_of_le, extractLsb'_append_eq_of_add_le]
  simp

theorem getOpBrx_append (o : OpBrx) (k : BitVec 7) (m : BitVec 6) (n : BitVec 12) :
    getOpBrx (k ++ o.uni ++ m ++ o.t ++ n) = o := by
  simp (disch := decide) only [getOpBrx, fld, extractLsb'_append_eq_of_le, extractLsb'_append_eq_of_add_le]
  simp

theorem getOpBprio_append (o : OpBprio) (k : BitVec 22) (m : BitVec 6) : getOpBprio (k ++ o.n ++ m) = o := by
  simp (disch := decide) only [getOpBprio, fld, extractLsb'_append_eq_of_le, extractLsb'_append_eq_of_add_le]
  simp

theorem getOpRcv_append (o : OpRcv) (k : BitVec 24) (m : BitVec 6) : getOpRcv (k ++ o.id ++ m) = o := by
  simp (disch := decide) only [getOpRcv, fld, extractLsb'_append_eq_of_le, extractLsb'_append_eq_of_add_le]
  simp

theorem getOpYield_append (o : OpYield) (k : BitVec 10) (m : BitVec 5) (n : BitVec 6) :
    getOpYield (k ++ o.n ++ m ++ o.live ++ n) = o := by
  simp (disch := decide) only [getOpYield, fld, extractLsb'_append_eq_of_le, extractLsb'_append_eq_of_add_le]
  simp

theorem getOpTrap_append (o : OpTrap) (k : BitVec 18) (m : BitVec 6) : getOpTrap (k ++ o.code ++ m) = o := by
  simp (disch := decide) only [getOpTrap, fld, extractLsb'_append_eq_of_le, extractLsb'_append_eq_of_add_le]
  simp

theorem getOpK12_append (o : OpK12) (k : BitVec 4) (m : BitVec 6) (n : BitVec 6) :
    getOpK12 (k ++ o.fsel ++ o.k ++ m ++ o.f2 ++ o.f1 ++ n) = o := by
  simp (disch := decide) only [getOpK12, fld, extractLsb'_append_eq_of_le, extractLsb'_append_eq_of_add_le]
  simp

theorem getOpKneigh_append (o : OpKneigh) (k : BitVec 4) (m : BitVec 3) (n : BitVec 6) :
    getOpKneigh (k ++ o.fsel ++ o.k ++ m ++ o.face ++ o.f2 ++ o.f1 ++ n) = o := by
  simp (disch := decide) only [getOpKneigh, fld, extractLsb'_append_eq_of_le, extractLsb'_append_eq_of_add_le]
  simp

theorem getOpKcost_append (o : OpKcost) (k : BitVec 4) (m : BitVec 12) :
    getOpKcost (k ++ o.fsel ++ o.k ++ o.f3 ++ o.f2 ++ m) = o := by
  simp (disch := decide) only [getOpKcost, fld, extractLsb'_append_eq_of_le, extractLsb'_append_eq_of_add_le]
  simp

theorem getOpKreb_append (o : OpKreb) (k : BitVec 4) (m : BitVec 12) (n : BitVec 6) :
    getOpKreb (k ++ o.fsel ++ o.k ++ m ++ o.f1 ++ n) = o := by
  simp (disch := decide) only [getOpKreb, fld, extractLsb'_append_eq_of_le, extractLsb'_append_eq_of_add_le]
  simp

theorem getOpWpush_append (o : OpWpush) (k : BitVec 4) (m : BitVec 3) (n : BitVec 12) :
    getOpWpush (k ++ o.fsel ++ m ++ o.list ++ o.f2 ++ n) = o := by
  simp (disch := decide) only [getOpWpush, fld, extractLsb'_append_eq_of_le, extractLsb'_append_eq_of_add_le]
  simp

theorem getOpWout_append (o : OpWout) (k : BitVec 4) (m : BitVec 3) (n : BitVec 6) (l : BitVec 6) :
    getOpWout (k ++ o.fsel ++ m ++ o.list ++ n ++ o.f1 ++ l) = o := by
  simp (disch := decide) only [getOpWout, fld, extractLsb'_append_eq_of_le, extractLsb'_append_eq_of_add_le]
  simp

theorem getOpWins_append (o : OpWins) (k : BitVec 4) (m : BitVec 3) (n : BitVec 6) :
    getOpWins (k ++ o.fsel ++ m ++ o.list ++ o.f2 ++ o.f1 ++ n) = o := by
  simp (disch := decide) only [getOpWins, fld, extractLsb'_append_eq_of_le, extractLsb'_append_eq_of_add_le]
  simp

theorem getOpSys_append (o : OpSys) (k : BitVec 8) (m : BitVec 6) : getOpSys (k ++ o.num ++ o.f1 ++ m) = o := by
  simp (disch := decide) only [getOpSys, fld, extractLsb'_append_eq_of_le, extractLsb'_append_eq_of_add_le]
  simp

theorem getOpF1_append (o : OpF1) (k : BitVec 4) (m : BitVec 15) (n : BitVec 6) :
    getOpF1 (k ++ o.fsel ++ m ++ o.f1 ++ n) = o := by
  simp (disch := decide) only [getOpF1, fld, extractLsb'_append_eq_of_le, extractLsb'_append_eq_of_add_le]
  simp

theorem getOp16_append (o : Op16) (k : BitVec 5) : getOp16 (o.b ++ o.d ++ k) = o := by
  simp (disch := decide) only [getOp16, extractLsb'_append_eq_of_le, extractLsb'_append_eq_of_add_le]
  simp

/-! ## The rows of each major -/

/-- An instruction whose word, where it has one, has bit 0 set and decodes to it again. -/
def DecodesBack (i : Instr) : Prop := ∀ w, encode32 i = some w → fld w 0 1 = 1 ∧ decode32 w = .ok i

theorem decodesBack_of {i : Instr} {w : BitVec 32} (hw : encode32 i = some w) (hbit : fld w 0 1 = 1) (hdec : decode32 w = .ok i) :
    DecodesBack i := by
  intro w' hw'
  obtain rfl := Option.some.inj (hw.symm.trans hw')
  exact ⟨hbit, hdec⟩

theorem typeCode_cases (t : BitVec 2) : t = 0 ∨ t = 1 ∨ t = 2 ∨ t = 3 := by
  revert t
  decide

theorem typeBit_cases (t : BitVec 1) : t = 0 ∨ t = 1 := by
  revert t
  decide

theorem decodesBack_major0 :
    (∀ o, DecodesBack (.vaddI8x8 o)) ∧ (∀ o, DecodesBack (.vsubI8x8 o)) ∧ (∀ o, DecodesBack (.vminI8x8 o)) ∧
    (∀ o, DecodesBack (.vminN8x8 o)) ∧ (∀ o, DecodesBack (.vmaxI8x8 o)) ∧ (∀ o, DecodesBack (.vmaxN8x8 o)) ∧
    (∀ o, DecodesBack (.vaddI8x8Sat o)) ∧ (∀ o, DecodesBack (.vaddN8x8Sat o)) ∧ (∀ o, DecodesBack (.vaddI16x4 o)) ∧
    (∀ o, DecodesBack (.vsubI16x4 o)) ∧ (∀ o, DecodesBack (.vminI16x4 o)) ∧ (∀ o, DecodesBack (.vminN16x4 o)) ∧
    (∀ o, DecodesBack (.vmaxI16x4 o)) ∧ (∀ o, DecodesBack (.vmaxN16x4 o)) ∧ (∀ o, DecodesBack (.vaddI16x4Sat o)) ∧
    (∀ o, DecodesBack (.vaddN16x4Sat o)) := by
  and_intros <;> intros <;> refine decodesBack_of rfl ?_ ?_
  all_goals
    simp (disch := decide) only [decode32, decodeMajor0, getOpA_append, fld, extractLsb'_append_eq_of_le,
      extractLsb'_append_eq_of_add_le,
      Nat.reduceSub, BitVec.reduceExtractLsb', BitVec.reduceToNat, BitVec.reduceEq]

theorem decodesBack_major1 :
    (∀ o, DecodesBack (.vaddI32x2 o)) ∧ (∀ o, DecodesBack (.vsubI32x2 o)) ∧ (∀ o, DecodesBack (.vmulI32x2 o)) ∧
    (∀ o, DecodesBack (.vmulhiI32x2 o)) ∧ (∀ o, DecodesBack (.vmulhiN32x2 o)) ∧ (∀ o, DecodesBack (.vminI32x2 o)) ∧
    (∀ o, DecodesBack (.vminN32x2 o)) ∧ (∀ o, DecodesBack (.vmaxI32x2 o)) ∧ (∀ o, DecodesBack (.vmaxN32x2 o)) ∧
    (∀ o, DecodesBack (.vshlI32x2 o)) ∧ (∀ o, DecodesBack (.vshrN32x2 o)) ∧ (∀ o, DecodesBack (.vshrI32x2 o)) ∧
    (∀ o, DecodesBack (.vaddI32x2Sat o)) ∧ (∀ o, DecodesBack (.vaddN32x2Sat o)) ∧ (∀ o, DecodesBack (.vsubI32x2Sat o)) ∧
    (∀ o, DecodesBack (.vsubN32x2Sat o)) := by
  and_intros <;> intros <;> refine decodesBack_of rfl ?_ ?_
  all_goals
    simp (disch := decide) only [decode32, decodeMajor1, getOpA_append, fld, extractLsb'_append_eq_of_le,
      extractLsb'_append_eq_of_add_le,
      Nat.reduceSub, BitVec.reduceExtractLsb', BitVec.reduceToNat, BitVec.reduceEq]

theorem decodesBack_major2 :
    (∀ o, DecodesBack (.vaddI64 o)) ∧ (∀ o, DecodesBack (.vsubI64 o)) ∧ (∀ o, DecodesBack (.vmulI64 o)) ∧
    (∀ o, DecodesBack (.vmulhiI64 o)) ∧ (∀ o, DecodesBack (.vmulhiN64 o)) ∧ (∀ o, DecodesBack (.vminI64 o)) ∧
    (∀ o, DecodesBack (.vminN64 o)) ∧ (∀ o, DecodesBack (.vmaxI64 o)) ∧ (∀ o, DecodesBack (.vmaxN64 o)) ∧
    (∀ o, DecodesBack (.vshlI64 o)) ∧ (∀ o, DecodesBack (.vshrN64 o)) ∧ (∀ o, DecodesBack (.vshrI64 o)) ∧
    (∀ o, DecodesBack (.vaddI64Sat o)) ∧ (∀ o, DecodesBack (.vaddN64Sat o)) ∧ (∀ o, DecodesBack (.vsubI64Sat o)) ∧
    (∀ o, DecodesBack (.vsubN64Sat o)) := by
  and_intros <;> intros <;> refine decodesBack_of rfl ?_ ?_
  all_goals
    simp (disch := decide) only [decode32, decodeMajor2, getOpA_append, fld, extractLsb'_append_eq_of_le,
      extractLsb'_append_eq_of_add_le,
      Nat.reduceSub, BitVec.reduceExtractLsb', BitVec.reduceToNat, BitVec.reduceEq]

theorem decodesBack_major3 :
    (∀ o, DecodesBack (.vand o)) ∧ (∀ o, DecodesBack (.vor o)) ∧ (∀ o, DecodesBack (.vxor o)) ∧ (∀ o, DecodesBack (.vandn o)) ∧
    (∀ o, DecodesBack (.vmov o)) ∧ (∀ o, DecodesBack (.vsplat o)) := by
  and_intros <;> intros <;> refine decodesBack_of rfl ?_ ?_
  all_goals
    simp (disch := decide) only [decode32, decodeMajor3, getOpA_append, getOpDA_append, fld, extractLsb'_append_eq_of_le,
      extractLsb'_append_eq_of_add_le,
      Nat.reduceSub, BitVec.reduceExtractLsb', BitVec.reduceToNat, BitVec.reduceEq, if_true]

theorem decodesBack_major4 :
    (∀ o, DecodesBack (.vfaddF64 o)) ∧ (∀ o, DecodesBack (.vfsubF64 o)) ∧ (∀ o, DecodesBack (.vfmulF64 o)) ∧
    (∀ o, DecodesBack (.vfmaF64 o)) ∧ (∀ o, DecodesBack (.vfminF64 o)) ∧ (∀ o, DecodesBack (.vfmaxF64 o)) ∧
    (∀ o, DecodesBack (.vfminF64Nan o)) ∧ (∀ o, DecodesBack (.vfmaxF64Nan o)) ∧ (∀ o, DecodesBack (.vfaddF32x2 o)) ∧
    (∀ o, DecodesBack (.vfsubF32x2 o)) ∧ (∀ o, DecodesBack (.vfmulF32x2 o)) ∧ (∀ o, DecodesBack (.vfmaF32x2 o)) ∧
    (∀ o, DecodesBack (.vfminF32x2 o)) ∧ (∀ o, DecodesBack (.vfmaxF32x2 o)) ∧ (∀ o, DecodesBack (.vfminF32x2Nan o)) ∧
    (∀ o, DecodesBack (.vfmaxF32x2Nan o)) := by
  and_intros <;> intros <;> refine decodesBack_of rfl ?_ ?_
  all_goals
    simp (disch := decide) only [decode32, decodeMajor4, getOpA_append, fld, extractLsb'_append_eq_of_le,
      extractLsb'_append_eq_of_add_le,
      Nat.reduceSub, BitVec.reduceExtractLsb', BitVec.reduceToNat, BitVec.reduceEq]

theorem decodesBack_major5 :
    (∀ o, DecodesBack (.vfaddF16x4 o)) ∧ (∀ o, DecodesBack (.vfsubF16x4 o)) ∧ (∀ o, DecodesBack (.vfmulF16x4 o)) ∧
    (∀ o, DecodesBack (.vfmaF16x4 o)) ∧ (∀ o, DecodesBack (.vfminF16x4 o)) ∧ (∀ o, DecodesBack (.vfmaxF16x4 o)) ∧
    (∀ o, DecodesBack (.vfminF16x4Nan o)) ∧ (∀ o, DecodesBack (.vfmaxF16x4Nan o)) ∧ (∀ o, DecodesBack (.vfaddBf16x4 o)) ∧
    (∀ o, DecodesBack (.vfsubBf16x4 o)) ∧ (∀ o, DecodesBack (.vfmulBf16x4 o)) ∧ (∀ o, DecodesBack (.vfmaBf16x4 o)) ∧
    (∀ o, DecodesBack (.vfminBf16x4 o)) ∧ (∀ o, DecodesBack (.vfmaxBf16x4 o)) ∧ (∀ o, DecodesBack (.vfminBf16x4Nan o)) ∧
    (∀ o, DecodesBack (.vfmaxBf16x4Nan o)) := by
  and_intros <;> intros <;> refine decodesBack_of rfl ?_ ?_
  all_goals
    simp (disch := decide) only [decode32, decodeMajor5, getOpA_append, fld, extractLsb'_append_eq_of_le,
      extractLsb'_append_eq_of_add_le,
      Nat.reduceSub, BitVec.reduceExtractLsb', BitVec.reduceToNat, BitVec.reduceEq]

theorem decodesBack_major6 :
    (∀ o, DecodesBack (.vfaddQ o)) ∧ (∀ o, DecodesBack (.vfsubQ o)) ∧ (∀ o, DecodesBack (.vfmulQ o)) ∧
    (∀ o, DecodesBack (.vfmaQ o)) := by
  and_intros <;> intros <;> refine decodesBack_of rfl ?_ ?_
  all_goals
    simp (disch := decide) only [decode32, decodeMajor6, getOpQ_append, fld, extractLsb'_append_eq_of_le,
      extractLsb'_append_eq_of_add_le,
      Nat.reduceSub, BitVec.reduceExtractLsb', BitVec.reduceToNat, BitVec.reduceEq]

/-- Groups 0 to 3 of major 7 are one row each: the group's low bits are the type (04 R101). -/
theorem decodesBack_major7_float :
    (∀ o, DecodesBack (.vfabs o)) ∧ (∀ o, DecodesBack (.vfneg o)) ∧ (∀ o, DecodesBack (.vrcp o)) ∧
    (∀ o, DecodesBack (.vrsqrt o)) ∧ (∀ o, DecodesBack (.vsqrt o)) ∧ (∀ o, DecodesBack (.vsin o)) ∧ (∀ o, DecodesBack (.vcos o)) ∧
    (∀ o, DecodesBack (.vsinpi o)) ∧ (∀ o, DecodesBack (.vcospi o)) ∧ (∀ o, DecodesBack (.vexp2 o)) ∧
    (∀ o, DecodesBack (.vlog2 o)) ∧ (∀ o, DecodesBack (.vtanh o)) ∧ (∀ o, DecodesBack (.vfrintn o)) ∧
    (∀ o, DecodesBack (.vfrintz o)) ∧ (∀ o, DecodesBack (.vfrintm o)) ∧ (∀ o, DecodesBack (.vfrintp o)) ∧
    (∀ o, DecodesBack (.vfclass o)) := by
  and_intros <;> intro o <;> refine decodesBack_of rfl ?_ ?_
  all_goals
    simp (disch := decide) only [decode32, decodeMajor7, getOpU_append, fld, extractLsb'_append_eq_of_le,
      extractLsb'_append_eq_of_add_le,
      Nat.reduceSub, BitVec.reduceExtractLsb', BitVec.reduceToNat, BitVec.reduceEq]
  all_goals obtain h | h | h | h := typeCode_cases o.t <;> rw [h] <;> rfl

/-- Groups 4 and 5 of major 7 are one row each. -/
theorem decodesBack_major7_int :
    (∀ o, DecodesBack (.vabs o)) ∧ (∀ o, DecodesBack (.vneg o)) ∧ (∀ o, DecodesBack (.vnot o)) ∧ (∀ o, DecodesBack (.vpopc o)) ∧
    (∀ o, DecodesBack (.vclz o)) ∧ (∀ o, DecodesBack (.vbrev o)) := by
  and_intros <;> intro o <;> refine decodesBack_of rfl ?_ ?_
  all_goals
    simp (disch := decide) only [decode32, decodeMajor7, getOpUI_append, fld, extractLsb'_append_eq_of_le,
      extractLsb'_append_eq_of_add_le,
      Nat.reduceSub, BitVec.reduceExtractLsb', BitVec.reduceToNat, BitVec.reduceEq]
  all_goals obtain h | h := typeBit_cases o.t <;> rw [h] <;> rfl

theorem decodesBack_major7_lane :
    (∀ o, DecodesBack (.vlanes o)) ∧ (∀ o, DecodesBack (.vpasses o)) ∧ (∀ o, DecodesBack (.vtid o)) ∧
    (∀ o, DecodesBack (.vlanemap o)) := by
  and_intros <;> intros <;> refine decodesBack_of rfl ?_ ?_
  all_goals
    simp (disch := decide) only [decode32, decodeMajor7, getOpD_append, fld, extractLsb'_append_eq_of_le,
      extractLsb'_append_eq_of_add_le,
      Nat.reduceSub, BitVec.reduceExtractLsb', BitVec.reduceToNat, BitVec.reduceEq, ne_eq, not_true_eq_false, if_false, if_true]

theorem decodesBack_major8 (o) : DecodesBack (.vcvt o) := by
  refine decodesBack_of rfl ?_ ?_
  all_goals
    simp (disch := decide) only [decode32, decodeMajor8, getOpC_append, fld, 
      extractLsb'_append_eq_of_add_le,
      BitVec.reduceExtractLsb', BitVec.reduceToNat, BitVec.reduceEq]

theorem decodesBack_major9 :
    (∀ o, DecodesBack (.vquant o)) ∧ (∀ o, DecodesBack (.vdequant o)) ∧ (∀ o, DecodesBack (.vcbdec o)) ∧
    (∀ o, DecodesBack (.amadI8x8 o)) ∧ (∀ o, DecodesBack (.amadN8x8 o)) ∧ (∀ o, DecodesBack (.amadF16x4 o)) ∧
    (∀ o, DecodesBack (.amadBf16x4 o)) ∧ (∀ o, DecodesBack (.amadF32x2 o)) ∧ (∀ o, DecodesBack (.amadF64 o)) ∧
    (∀ o, DecodesBack (.azero o)) ∧ (∀ o, DecodesBack (.amov o)) ∧ (∀ o, DecodesBack (.vnarrowLo o)) ∧
    (∀ o, DecodesBack (.vnarrowHi o)) ∧ (∀ o, DecodesBack (.vnarrowI16x4Sat o)) ∧ (∀ o, DecodesBack (.vnarrowF16x4 o)) := by
  and_intros <;> intros <;> refine decodesBack_of rfl ?_ ?_
  all_goals
    simp (disch := decide) only [decode32, decodeMajor9, getOpS_append, getOpA_append, getOpD_append, getOpAD_append, fld,
      extractLsb'_append_eq_of_le, extractLsb'_append_eq_of_add_le,
      Nat.reduceSub, BitVec.reduceExtractLsb', BitVec.reduceToNat, BitVec.reduceEq, if_true]

theorem decodesBack_major10 :
    (∀ o, DecodesBack (.saddI64 o)) ∧ (∀ o, DecodesBack (.ssubI64 o)) ∧ (∀ o, DecodesBack (.smulI64 o)) ∧
    (∀ o, DecodesBack (.smulhiI64 o)) ∧ (∀ o, DecodesBack (.smulhiN64 o)) ∧ (∀ o, DecodesBack (.sand o)) ∧
    (∀ o, DecodesBack (.sor o)) ∧ (∀ o, DecodesBack (.sxor o)) ∧ (∀ o, DecodesBack (.sshlI64 o)) ∧
    (∀ o, DecodesBack (.sshrN64 o)) ∧ (∀ o, DecodesBack (.sshrI64 o)) ∧ (∀ o, DecodesBack (.sminI64 o)) ∧
    (∀ o, DecodesBack (.sminN64 o)) ∧ (∀ o, DecodesBack (.smaxI64 o)) ∧ (∀ o, DecodesBack (.smaxN64 o)) ∧
    (∀ o, DecodesBack (.smov o)) := by
  and_intros <;> intros <;> refine decodesBack_of rfl ?_ ?_
  all_goals
    simp (disch := decide) only [decode32, decodeMajor10, getOpA_append, getOpDA_append, fld, extractLsb'_append_eq_of_le,
      extractLsb'_append_eq_of_add_le,
      Nat.reduceSub, BitVec.reduceExtractLsb', BitVec.reduceToNat, BitVec.reduceEq, if_true]

theorem decodesBack_major11 :
    (∀ o, DecodesBack (.saddi o)) ∧ (∀ o, DecodesBack (.sandi o)) ∧ (∀ o, DecodesBack (.vaddiI32x2 o)) ∧
    (∀ o, DecodesBack (.vaddiI64 o)) := by
  and_intros <;> intros <;> refine decodesBack_of rfl ?_ ?_
  all_goals
    simp (disch := decide) only [decode32, decodeMajor11, getOpI_append, fld, extractLsb'_append_eq_of_le,
      extractLsb'_append_eq_of_add_le,
      Nat.reduceSub, BitVec.reduceExtractLsb', BitVec.reduceToNat, BitVec.reduceEq]

theorem decodesBack_major12 :
    (∀ o, DecodesBack (.smovz o)) ∧ (∀ o, DecodesBack (.smovs o)) ∧ (∀ o, DecodesBack (.smovk16 o)) ∧
    (∀ o, DecodesBack (.smovk32 o)) ∧ (∀ o, DecodesBack (.smovk48 o)) ∧ (∀ o, DecodesBack (.vmovz o)) ∧
    (∀ o, DecodesBack (.vmovs o)) ∧ (∀ o, DecodesBack (.vmovk16 o)) ∧ (∀ o, DecodesBack (.vmovk32 o)) ∧
    (∀ o, DecodesBack (.vmovk48 o)) := by
  and_intros <;> intros <;> refine decodesBack_of rfl ?_ ?_
  all_goals
    simp (disch := decide) only [decode32, decodeMajor12, getOpL_append, fld, extractLsb'_append_eq_of_le,
      extractLsb'_append_eq_of_add_le,
      Nat.reduceSub, BitVec.reduceExtractLsb', BitVec.reduceToNat, BitVec.reduceEq]

theorem decodesBack_major13 :
    (∀ o, DecodesBack (.vceq o)) ∧ (∀ o, DecodesBack (.vcne o)) ∧ (∀ o, DecodesBack (.vclt o)) ∧ (∀ o, DecodesBack (.vcle o)) ∧
    (∀ o, DecodesBack (.vcgt o)) ∧ (∀ o, DecodesBack (.vcge o)) ∧ (∀ o, DecodesBack (.vcord o)) ∧
    (∀ o, DecodesBack (.vcunord o)) ∧ (∀ o, DecodesBack (.vcneu o)) ∧ (∀ o, DecodesBack (.sceq o)) ∧
    (∀ o, DecodesBack (.scne o)) ∧ (∀ o, DecodesBack (.sclt o)) ∧ (∀ o, DecodesBack (.scle o)) ∧ (∀ o, DecodesBack (.scgt o)) ∧
    (∀ o, DecodesBack (.scge o)) ∧ (∀ o, DecodesBack (.scord o)) ∧ (∀ o, DecodesBack (.scunord o)) ∧ (∀ o, DecodesBack (.scneu o)) := by
  and_intros <;> intros <;> refine decodesBack_of rfl ?_ ?_
  all_goals
    simp (disch := decide) only [decode32, decodeMajor13, getOpP_append, fld, extractLsb'_append_eq_of_le,
      extractLsb'_append_eq_of_add_le,
      Nat.reduceSub, BitVec.reduceExtractLsb', BitVec.reduceToNat, BitVec.reduceEq, if_true]

theorem decodesBack_major14 :
    (∀ o, DecodesBack (.vsel o)) ∧ (∀ o, DecodesBack (.pand o)) ∧ (∀ o, DecodesBack (.por o)) ∧ (∀ o, DecodesBack (.pxor o)) ∧
    (∀ o, DecodesBack (.pandn o)) ∧ (∀ o, DecodesBack (.pnot o)) ∧ (∀ o, DecodesBack (.pmov o)) := by
  and_intros <;> intros <;> refine decodesBack_of rfl ?_ ?_
  all_goals
    simp (disch := decide) only [decode32, decodeMajor14, getOpE_append, getOpPL_append, getOpPN_append, fld,
      extractLsb'_append_eq_of_le, extractLsb'_append_eq_of_add_le,
      Nat.reduceSub, BitVec.reduceExtractLsb', BitVec.reduceToNat, BitVec.reduceEq, if_true, and_self]

theorem decodesBack_major15 :
    (∀ o, DecodesBack (.vshflN64 o)) ∧ (∀ o, DecodesBack (.vshflN32x2 o)) ∧ (∀ o, DecodesBack (.vshflN16x4 o)) ∧
    (∀ o, DecodesBack (.vshflN8x8 o)) ∧ (∀ o, DecodesBack (.vbcast o)) ∧ (∀ o, DecodesBack (.vballot o)) ∧
    (∀ o, DecodesBack (.vall o)) ∧ (∀ o, DecodesBack (.vany o)) ∧ (∀ o, DecodesBack (.vuni o)) ∧
    (∀ o, DecodesBack (.vcompact o)) ∧ (∀ o, DecodesBack (.vmatch o)) ∧ (∀ o, DecodesBack (.vrdfirst o)) := by
  and_intros <;> intros <;> refine decodesBack_of rfl ?_ ?_
  all_goals
    simp (disch := decide) only [decode32, decodeMajor15, getOpX_append, getOpBal_append, getOpVote_append, getOpUni_append,
      getOpCmp_append, getOpAD_append, fld, extractLsb'_append_eq_of_le, extractLsb'_append_eq_of_add_le,
      Nat.reduceSub, BitVec.reduceExtractLsb', BitVec.reduceToNat, BitVec.reduceEq, if_true, and_self]

theorem decodesBack_major16 :
    (∀ o, DecodesBack (.vredAdd o)) ∧ (∀ o, DecodesBack (.vredMin o)) ∧ (∀ o, DecodesBack (.vredMax o)) ∧
    (∀ o, DecodesBack (.vredAnd o)) ∧ (∀ o, DecodesBack (.vredOr o)) ∧ (∀ o, DecodesBack (.vredXor o)) ∧
    (∀ o, DecodesBack (.vscanAdd o)) ∧ (∀ o, DecodesBack (.vscanMin o)) ∧ (∀ o, DecodesBack (.vscanMax o)) ∧
    (∀ o, DecodesBack (.vscanAnd o)) ∧ (∀ o, DecodesBack (.vscanOr o)) ∧ (∀ o, DecodesBack (.vscanXor o)) ∧
    (∀ o, DecodesBack (.vscanxAdd o)) ∧ (∀ o, DecodesBack (.vscanxMin o)) ∧ (∀ o, DecodesBack (.vscanxMax o)) ∧
    (∀ o, DecodesBack (.vscanxAnd o)) ∧ (∀ o, DecodesBack (.vscanxOr o)) ∧ (∀ o, DecodesBack (.vscanxXor o)) := by
  and_intros <;> intros <;> refine decodesBack_of rfl ?_ ?_
  all_goals
    simp (disch := decide) only [decode32, decodeMajor16, getOpT_append, fld, extractLsb'_append_eq_of_le,
      extractLsb'_append_eq_of_add_le,
      Nat.reduceSub, BitVec.reduceExtractLsb', BitVec.reduceToNat, BitVec.reduceEq, if_true]

theorem decodesBack_major17 (o) : DecodesBack (.vtopk o) := by
  refine decodesBack_of rfl ?_ ?_
  all_goals
    simp (disch := decide) only [decode32, decodeMajor17, getOpK_append, fld, extractLsb'_append_eq_of_le,
      extractLsb'_append_eq_of_add_le,
      Nat.reduceSub, BitVec.reduceExtractLsb', BitVec.reduceToNat, BitVec.reduceEq, if_true]

theorem decodesBack_major18 :
    (∀ o, DecodesBack (.ldg o)) ∧ (∀ o, DecodesBack (.lds o)) ∧ (∀ o, DecodesBack (.ldc o)) := by
  and_intros <;> intros <;> refine decodesBack_of rfl ?_ ?_
  all_goals
    simp (disch := decide) only [decode32, decodeMajor18, getOpLdg_append, getOpLds_append, fld, extractLsb'_append_eq_of_le,
      extractLsb'_append_eq_of_add_le,
      Nat.reduceSub, BitVec.reduceExtractLsb', BitVec.reduceToNat, BitVec.reduceEq, if_true]

theorem decodesBack_major19 :
    (∀ o, DecodesBack (.stg o)) ∧ (∀ o, DecodesBack (.sts o)) := by
  and_intros <;> intros <;> refine decodesBack_of rfl ?_ ?_
  all_goals
    simp (disch := decide) only [decode32, decodeMajor19, getOpStg_append, getOpSts_append, fld, extractLsb'_append_eq_of_le,
      extractLsb'_append_eq_of_add_le,
      Nat.reduceSub, BitVec.reduceExtractLsb', BitVec.reduceToNat, BitVec.reduceEq, if_true]

theorem decodesBack_major20 :
    (∀ o, DecodesBack (.atomAdd o)) ∧ (∀ o, DecodesBack (.atomAnd o)) ∧ (∀ o, DecodesBack (.atomOr o)) ∧
    (∀ o, DecodesBack (.atomXor o)) ∧ (∀ o, DecodesBack (.atomMinI o)) ∧ (∀ o, DecodesBack (.atomMinN o)) ∧
    (∀ o, DecodesBack (.atomMaxI o)) ∧ (∀ o, DecodesBack (.atomMaxN o)) ∧ (∀ o, DecodesBack (.atomExch o)) ∧
    (∀ o, DecodesBack (.atomCas o)) ∧ (∀ o, DecodesBack (.atomFadd o)) ∧ (∀ o, DecodesBack (.atomLdo o)) ∧
    (∀ o, DecodesBack (.redAdd o)) ∧ (∀ o, DecodesBack (.redAnd o)) ∧ (∀ o, DecodesBack (.redOr o)) ∧
    (∀ o, DecodesBack (.redXor o)) ∧ (∀ o, DecodesBack (.redMinI o)) ∧ (∀ o, DecodesBack (.redMinN o)) ∧
    (∀ o, DecodesBack (.redMaxI o)) ∧ (∀ o, DecodesBack (.redMaxN o)) ∧ (∀ o, DecodesBack (.redExch o)) ∧
    (∀ o, DecodesBack (.redCas o)) ∧ (∀ o, DecodesBack (.redFadd o)) ∧ (∀ o, DecodesBack (.redSto o)) := by
  and_intros <;> intros <;> refine decodesBack_of rfl ?_ ?_
  all_goals
    simp (disch := decide) only [decode32, decodeMajor20, getOpN_append, fld, extractLsb'_append_eq_of_le,
      extractLsb'_append_eq_of_add_le,
      Nat.reduceSub, BitVec.reduceExtractLsb', BitVec.reduceToNat, BitVec.reduceEq]

theorem decodesBack_major21 :
    (∀ o, DecodesBack (.fence o)) ∧ (∀ o, DecodesBack (.racq o)) ∧ (∀ o, DecodesBack (.mwait o)) ∧
    (∀ o, DecodesBack (.barInit o)) ∧ (∀ o, DecodesBack (.barArrive o)) ∧ (∀ o, DecodesBack (.barWait o)) ∧
    (∀ o, DecodesBack (.barSync o)) ∧ (∀ o, DecodesBack (.barRarrive o)) := by
  and_intros <;> intros <;> refine decodesBack_of rfl ?_ ?_
  all_goals
    simp (disch := decide) only [decode32, decodeMajor21, getOpFence_append, getOpRacq_append, getOpMwait_append,
      getOpBarInit_append, getOpBarPh_append, getOpBarSync_append, getOpY2_append, fld, extractLsb'_append_eq_of_le,
      extractLsb'_append_eq_of_add_le,
      Nat.reduceSub, BitVec.reduceExtractLsb', BitVec.reduceToNat, BitVec.reduceEq, if_true, and_self]

theorem decodesBack_major22 :
    (∀ o, DecodesBack (.copy o)) ∧ (∀ o, DecodesBack (.gather o)) ∧ (∀ o, DecodesBack (.scatter o)) ∧
    (∀ o, DecodesBack (.compact o)) ∧ (∀ o, DecodesBack (.pfetchDesc o)) ∧ (∀ o, DecodesBack (.pfetchHandle o)) := by
  and_intros <;> intros <;> refine decodesBack_of rfl ?_ ?_
  all_goals
    simp (disch := decide) only [decode32, decodeMajor22, getOpF12_append, getOpF2_append, fld, extractLsb'_append_eq_of_le,
      extractLsb'_append_eq_of_add_le,
      Nat.reduceSub, BitVec.reduceExtractLsb', BitVec.reduceToNat, BitVec.reduceEq, if_true, and_self]

theorem decodesBack_major23 :
    (∀ o, DecodesBack (.pin o)) ∧ (∀ o, DecodesBack (.unpin o)) ∧ (∀ o, DecodesBack (.flush o)) ∧ (∀ o, DecodesBack (.inval o)) ∧
    (∀ o, DecodesBack (.hopen o)) ∧ (∀ o, DecodesBack (.hacqRd o)) ∧ (∀ o, DecodesBack (.hacqWr o)) ∧
    (∀ o, DecodesBack (.hrelDrop o)) ∧ (∀ o, DecodesBack (.hrelDown o)) ∧ (∀ o, DecodesBack (.hsplit o)) ∧
    (∀ o, DecodesBack (.hclose o)) ∧ (∀ o, DecodesBack (.smap o)) ∧ (∀ o, DecodesBack (.sunmap o)) := by
  and_intros <;> intros <;> refine decodesBack_of rfl ?_ ?_
  all_goals
    simp (disch := decide) only [decode32, decodeMajor23, getOpY12_append, getOpFG2_append, getOpF12_append, getOpF2_append,
      getOpY123_append, getOpY2_append, fld, extractLsb'_append_eq_of_le, extractLsb'_append_eq_of_add_le,
      Nat.reduceSub, BitVec.reduceExtractLsb', BitVec.reduceToNat, BitVec.reduceEq, if_true, and_self]

theorem decodesBack_major24 :
    (∀ o, DecodesBack (.mma o)) ∧ (∀ o, DecodesBack (.tkacq o)) ∧ (∀ o, DecodesBack (.tkrel o)) ∧ (∀ o, DecodesBack (.tswap o)) ∧
    (∀ o, DecodesBack (.tzero o)) ∧ (∀ o, DecodesBack (.tread o)) ∧ (∀ o, DecodesBack (.twrite o)) ∧
    (∀ o, DecodesBack (.colload o)) ∧ (∀ o, DecodesBack (.qcopy o)) := by
  and_intros <;> intros <;> refine decodesBack_of rfl ?_ ?_
  all_goals
    simp (disch := decide) only [decode32, decodeMajor24, getOpFG2_append, getOpTile_append, getOpTRow_append, getOpF2_append,
      fld, extractLsb'_append_eq_of_le, extractLsb'_append_eq_of_add_le,
      Nat.reduceSub, BitVec.reduceExtractLsb', BitVec.reduceToNat, BitVec.reduceEq, if_true, and_self]

theorem decodesBack_major25 (o) : DecodesBack (.bra o) := by
  refine decodesBack_of rfl ?_ ?_
  all_goals
    simp (disch := decide) only [decode32, decodeMajor25, getOpBra_append, fld, extractLsb'_append_eq_of_le,
      extractLsb'_append_eq_of_add_le,
      Nat.reduceSub, BitVec.reduceExtractLsb', BitVec.reduceToNat, BitVec.reduceEq, if_true]

theorem decodesBack_major26 :
    (∀ o, DecodesBack (.brx o)) ∧ (∀ o, DecodesBack (.call o)) ∧ (∀ o, DecodesBack (.ret o)) ∧ (∀ o, DecodesBack (.bprio o)) ∧
    (∀ o, DecodesBack (.rcvset o)) ∧ (∀ o, DecodesBack (.rcvwait o)) ∧ (∀ o, DecodesBack (.yield o)) ∧ DecodesBack .exit ∧
    (∀ o, DecodesBack (.trap o)) ∧ DecodesBack .brk ∧ (∀ o, DecodesBack (.qsend o)) ∧ (∀ o, DecodesBack (.qrecv o)) ∧
    (∀ o, DecodesBack (.spawn o)) ∧ (∀ o, DecodesBack (.rget o)) := by
  and_intros <;> intros <;> refine decodesBack_of rfl ?_ ?_
  all_goals
    simp (disch := decide) only [decode32, decodeMajor26, getOpBrx_append, getOpY12_append, getOpY2_append, getOpBprio_append,
      getOpRcv_append, getOpYield_append, getOpTrap_append, getOpD_append, getOpF12_append, fld, extractLsb'_append_eq_of_le,
      extractLsb'_append_eq_of_add_le,
      Nat.reduceSub, BitVec.reduceExtractLsb', BitVec.reduceToNat, BitVec.reduceEq, if_true, and_self]

theorem decodesBack_major27 :
    (∀ o, DecodesBack (.krefine o)) ∧ (∀ o, DecodesBack (.kcoarsen o)) ∧ (∀ o, DecodesBack (.kneigh o)) ∧
    (∀ o, DecodesBack (.kowner o)) ∧ (∀ o, DecodesBack (.kcost o)) ∧ (∀ o, DecodesBack (.kclaim o)) ∧
    (∀ o, DecodesBack (.krelease o)) ∧ (∀ o, DecodesBack (.kiter o)) ∧ (∀ o, DecodesBack (.krebal o)) ∧
    (∀ o, DecodesBack (.wpush o)) ∧ (∀ o, DecodesBack (.wpop o)) ∧ (∀ o, DecodesBack (.wins o)) ∧ (∀ o, DecodesBack (.wcount o)) := by
  and_intros <;> intros <;> refine decodesBack_of rfl ?_ ?_
  all_goals
    simp (disch := decide) only [decode32, decodeMajor27, getOpK12_append, getOpKneigh_append, getOpKcost_append, getOpFG2_append,
      getOpKreb_append, getOpWpush_append, getOpWout_append, getOpWins_append, fld, extractLsb'_append_eq_of_le,
      extractLsb'_append_eq_of_add_le,
      Nat.reduceSub, BitVec.reduceExtractLsb', BitVec.reduceToNat, BitVec.reduceEq, if_true, and_self]

theorem decodesBack_major28 :
    (∀ o, DecodesBack (.sysrd o)) ∧ (∀ o, DecodesBack (.syswr o)) ∧ DecodesBack .tret ∧ (∀ o, DecodesBack (.rmodeSwm o)) ∧
    (∀ o, DecodesBack (.rmodeCoh o)) ∧ DecodesBack .halt ∧ (∀ o, DecodesBack (.ckpt o)) ∧ (∀ o, DecodesBack (.rbstat o)) ∧
    (∀ o, DecodesBack (.finj o)) := by
  and_intros <;> intros <;> refine decodesBack_of rfl ?_ ?_
  all_goals
    simp (disch := decide) only [decode32, decodeMajor28, getOpSys_append, getOpF2_append, getOpF1_append, getOpD_append, fld,
      extractLsb'_append_eq_of_le, extractLsb'_append_eq_of_add_le,
      Nat.reduceSub, BitVec.reduceExtractLsb', BitVec.reduceToNat, BitVec.reduceEq, if_true, and_self]

theorem decodesBack_major31 (o) : DecodesBack (.clauseHeader o) := by
  refine decodesBack_of rfl ?_ ?_
  all_goals
    simp (disch := decide) only [decode32, getOpHdr_append, fld, extractLsb'_append_eq_of_le, extractLsb'_append_eq_of_add_le,
      Nat.reduceSub, BitVec.reduceExtractLsb', BitVec.reduceToNat, BitVec.reduceEq, if_true]

/-- Every row with a word is one of a major's; the events and the 16-bit rows have none. -/
theorem decodesBack (i : Instr) : DecodesBack i := by
  cases i
  case launchTake | teamPlace | placementWaitExpiry | aggregatorRelease | ageBoost | watchdog | waveRetire | loadComplete
      | storeComplete | atomicComplete | fenceComplete | racqDrain | cacheFillArrive | sliceAdmit | monitorWake | monitorRepoll
      | pendingArrivalApply | tenureGrant | tenureRecall | hrelEffect | flushComplete | rmodeComplete | mmaAccept | mmaGrant
      | tileInstrEffect | tileRowsComplete | colloadComplete | qcopyComplete | copyComplete | teamSave | teamRestore
      | faultRecordWrite | hullWrite | signatureCompare | bisectorSnapshot | cutAnnounce | patchHandOver | bisectorStopShort
      | cutCommit | linkFlitReceive | linkRetrain | remoteRequest | agentFailure | census | correctedError | poisonMark
      | spareSubstitution | hostBar2Access | hostAtomicop | hostCxlCache | qrsvRead | setupBindKeyspace | setupUnbindKeyspace
      | setupWorkList | setupRereadQueue | contextSetup | contextRetire | syncRead | serviceResume | serviceHandler | serviceEnd
      | serviceContinue | serviceRestore | registerWrite | partset | partfree | parthalt | partrun | regtag | keyload | unitread
      | pwrlimit | sharedset | deviceReset | bootStageComplete | clockChange | thermalLimit | thermalHalt | keyUnitStep
      | workListStep | corePowerGate | nop | vmovC16 | vaddI32x2C16 | vsubI32x2C16 | vmulI32x2C16 | vandC16 | vorC16 | vxorC16
      | vshlI32x2C16 | vshrN32x2C16 | vfaddF32x2C16 | vfsubF32x2C16 | vfmulF32x2C16 | vfminF32x2C16 | vfmaxF32x2C16
      | vfaddF64C16 => exact fun _ h => nomatch h
  all_goals
    simp only [decodesBack_major0, decodesBack_major1, decodesBack_major2, decodesBack_major3, decodesBack_major4,
      decodesBack_major5,
    decodesBack_major6, decodesBack_major7_float, decodesBack_major7_int, decodesBack_major7_lane, decodesBack_major8,
    decodesBack_major9, decodesBack_major10, decodesBack_major11, decodesBack_major12, decodesBack_major13, decodesBack_major14,
    decodesBack_major15, decodesBack_major16, decodesBack_major17, decodesBack_major18, decodesBack_major19, decodesBack_major20,
    decodesBack_major21, decodesBack_major22, decodesBack_major23, decodesBack_major24, decodesBack_major25, decodesBack_major26,
    decodesBack_major27, decodesBack_major28, decodesBack_major31]

/-! ## The 16-bit rows -/

theorem decode16_encode16 {i : Instr} {h : BitVec 16} (hi : encode16 i = some h) : h.extractLsb' 0 1 = 0 ∧ decode16 h = .ok i := by
  cases i
  case nop =>
    obtain rfl := Option.some.inj hi
    exact ⟨rfl, rfl⟩
  case vmovC16 | vaddI32x2C16 | vsubI32x2C16 | vmulI32x2C16 | vandC16 | vorC16 | vxorC16 | vshlI32x2C16 | vshrN32x2C16
      | vfaddF32x2C16 | vfsubF32x2C16 | vfmulF32x2C16 | vfminF32x2C16 | vfmaxF32x2C16 | vfaddF64C16 =>
    obtain rfl := Option.some.inj hi
    simp (disch := decide) only [decode16, getOp16_append, extractLsb'_append_eq_of_add_le,
      BitVec.reduceExtractLsb', BitVec.reduceToNat, BitVec.reduceEq, and_self]
  all_goals cases hi

/-! ## Bytes and words -/

theorem append_bytes16 (h : BitVec 16) : h.extractLsb' 8 8 ++ h.extractLsb' 0 8 = h := by
  simp only [extractLsb'_append_extractLsb'_eq_extractLsb', extractLsb'_eq_self]
theorem append_bytes32 (w : BitVec 32) : w.extractLsb' 24 8 ++ w.extractLsb' 16 8 ++ w.extractLsb' 8 8 ++ w.extractLsb' 0 8 = w := by
  simp only [extractLsb'_append_extractLsb'_eq_extractLsb', extractLsb'_eq_self]

theorem bit0_byte0 {n : Nat} (w : BitVec n) : (w.extractLsb' 0 8).extractLsb' 0 1 = w.extractLsb' 0 1 := by
  ext k hk
  simp

theorem decode_parcel {h : BitVec 16} {i : Instr} (hbit : h.extractLsb' 0 1 = 0) (hdec : decode16 h = .ok i) (rest : List Byte) :
    decode (h.extractLsb' 0 8 :: h.extractLsb' 8 8 :: rest) = .ok (i, rest) := by
  simp only [decode, append_bytes16, bit0_byte0, hbit, if_true, hdec]

theorem decode_word {w : BitVec 32} {i : Instr} (hbit : fld w 0 1 = 1) (hdec : decode32 w = .ok i) (rest : List Byte) :
    decode (w.extractLsb' 0 8 :: w.extractLsb' 8 8 :: w.extractLsb' 16 8 :: w.extractLsb' 24 8 :: rest) = .ok (i, rest) := by
  have hset : w.extractLsb' 0 1 ≠ 0 := fun h => absurd (hbit.symm.trans h) (by decide)
  simp only [decode, append_bytes32, bit0_byte0, hset, if_false, hdec]

theorem decode_encode (i : Instr) (h : encoded i = true) (rest : List Byte) : decode (encode i ++ rest) = .ok (i, rest) := by
  unfold encode
  unfold encoded at h
  cases h16 : encode16 i with
  | some p =>
    obtain ⟨hbit, hdec⟩ := decode16_encode16 h16
    exact decode_parcel hbit hdec rest
  | none =>
    obtain ⟨w, h32⟩ := Option.isSome_iff_exists.1 (by simpa only [h16, Option.isSome_none, Bool.false_or] using h)
    obtain ⟨hbit, hdec⟩ := decodesBack i _ h32
    rw [h32]
    exact decode_word hbit hdec rest

/-- Settles O58: a 16-bit row's parcel has bit 0 clear and a 32-bit row's word has it set, and each word, row by row of its major, gives
back the fields that stand in it (`decodesBack`). -/
theorem decodeEncode : Obligations.DecodeEncode :=
  fun i rest _ h => decode_encode i h rest

/-! ## The words that the spec writes out -/

theorem decode_of_bytes_eq {n : Nat} {i : Instr} (h : encoded i = true ∧ bytesOfNat 4 n = encode i) :
    decode (bytesOfNat 4 n) = .ok (i, []) := by
  obtain ⟨hi, hbytes⟩ := h
  rw [hbytes, ← List.append_nil (encode i)]
  exact decode_encode i hi []

/-- Settles O57: each word is the encoding of its instruction, byte by byte, so it decodes to that. -/
theorem sampleWordsDecode : Obligations.SampleWordsDecode := by
  intro row hrow
  refine decode_of_bytes_eq ?_
  revert row
  decide

end Sys2Proof.Encoding

/-! # The 16-bit forms and the forms with a rounding mode (04 R98, R100) -/

namespace Sys2Proof.ShortForms

open Sys2Proof.Machine Sys2Proof.Machine.Laws

/-! ## Flags -/

theorem orAll_zeros {α : Type} (l : List α) : orAll (l.map fun _ => 0) = 0 := by
  induction l with
  | nil => rfl
  | cons x l ih => simpa [orAll] using ih

theorem allFlags_zero (c : Issue) : (0 : Sticky) = allFlags c fun _ => 0 := (orAll_zeros _).symm

/-! ## The integer rows' elements, each against its own relation -/

theorem subR_subW {w a : Nat} (b : Nat) (ha : a < 2 ^ w) : subR w a b (subW w a b) := by
  have hb : b % 2 ^ w < 2 ^ w := Nat.mod_lt _ (by positivity)
  have hmod : (a + (2 ^ w - b % 2 ^ w)) % 2 ^ w + b ≡ a [MOD 2 ^ w] :=
    calc (a + (2 ^ w - b % 2 ^ w)) % 2 ^ w + b ≡ a + (2 ^ w - b % 2 ^ w) + b % 2 ^ w [MOD 2 ^ w] :=
          (Nat.mod_modEq _ _).add (Nat.mod_modEq _ _).symm
      _ = a + 2 ^ w := by omega
      _ ≡ a [MOD 2 ^ w] := Nat.add_mod_right _ _
  exact Eq.trans hmod (Nat.mod_eq_of_lt ha)

theorem shlR_shlW (w a b : Nat) : shlR w a b (shlW w a b) := by
  intro i hi
  rw [shlW, Nat.testBit_mod_two_pow, Nat.testBit_mul_two_pow, decide_eq_true hi, Bool.true_and]

theorem shrUR_shrU {w a : Nat} (b : Nat) (ha : a < 2 ^ w) : shrUR w a b (shrU w a b) := by
  intro i _
  rw [shrU, Nat.testBit_div_two_pow, Nat.add_comm i]
  by_cases hi : b % w + i < w
  · rw [decide_eq_true hi, Bool.true_and]
  · rw [decide_eq_false hi, Bool.false_and]
    exact Nat.testBit_lt_two_pow (ha.trans_le (Nat.pow_le_pow_right (by decide) (Nat.le_of_not_lt hi)))

theorem shrU_lt {w a : Nat} (b : Nat) (ha : a < 2 ^ w) : shrU w a b < 2 ^ w := (Nat.div_le_self _ _).trans_lt ha

/-! ## The 16-bit forms -/

section
variable {s : State} {c : Issue} {o : Op16} {i : Instr}

/-- A 16-bit form with two sources: d is the first of them and the destination. -/
theorem vec16_done {f : Word → Word → Word × Sticky} {fl : Sticky} {R : Nat → Word → Prop} (h : Runs s c 2)
    (he : exec i s = vec16 s o f) (hdecl : Declared c [o.d.toNat, o.b.toNat] [])
    (hclean : Unpoisoned c [o.d.toNat, o.b.toNat] [] [])
    (hfl : fl = allFlags c fun t => (f (c.w.getV o.d.toNat t) (c.w.getV o.b.toNat t)).2)
    (hR : ∀ t, R t (f (c.w.getV o.d.toNat t) (c.w.getV o.b.toNat t)).1) : VecDone i s c 2 o.d.toNat [] fl c.w.seed R :=
  vec_done h (he.trans (issue_runs h rfl _)) ⟨by simpa using hdecl.1, hdecl.2⟩ hclean (by simp) hfl rfl fun t _ _ => hR t

theorem vecInt16_done {f : Nat → Nat → Nat → Nat} {rel : ElemRel} (h : Runs s c 2) (he : exec i s = vecInt16 s o 32 f)
    (hdecl : Declared c [o.d.toNat, o.b.toNat] []) (hclean : Unpoisoned c [o.d.toNat, o.b.toNat] [] [])
    (hrel : ∀ a b, a < 2 ^ 32 → rel 32 a b (f 32 a b % 2 ^ 32)) :
    VecDone i s c 2 o.d.toNat [] 0 c.w.seed fun t r => ∀ e < 2,
      rel 32 (elem 32 (c.w.getV o.d.toNat t) e) (elem 32 (c.w.getV o.b.toNat t) e) (elem 32 r e) :=
  vec16_done h he hdecl hclean (allFlags_zero c) fun t e he => by
    rw [elem_map2 32 _ _ _ e he]
    exact hrel _ _ (elem_lt _ _ _)

theorem vecFp16_done {F : Fmt} {f : Nat → Nat → Nat × Sticky} (h : Runs s c 2) (he : exec i s = vecFp16 s o F f)
    (hdecl : Declared c [o.d.toNat, o.b.toNat] []) (hclean : Unpoisoned c [o.d.toNat, o.b.toNat] [] []) :
    VecDone i s c 2 o.d.toNat []
      (allFlags c fun t => elemFlags (64 / F.width) fun e =>
        (f (elem F.width (c.w.getV o.d.toNat t) e) (elem F.width (c.w.getV o.b.toNat t) e)).2) c.w.seed
      fun t r => ∀ e < 64 / F.width,
        elem F.width r e = (f (elem F.width (c.w.getV o.d.toNat t) e) (elem F.width (c.w.getV o.b.toNat t) e)).1 % 2 ^ F.width :=
  vec16_done h he hdecl hclean (by simp only [mapF_flags]) fun t e he => elem_mapF _ _ _ e he (Nat.mul_div_le 64 _)

theorem int16Rows_done (h : Runs s c 2) (hdecl : Declared c [o.d.toNat, o.b.toNat] [])
    (hclean : Unpoisoned c [o.d.toNat, o.b.toNat] [] []) :
    ∀ row ∈ int16Rows o, VecDone row.1 s c 2 o.d.toNat [] 0 c.w.seed fun t r => ∀ e < 2,
      row.2 32 (elem 32 (c.w.getV o.d.toNat t) e) (elem 32 (c.w.getV o.b.toNat t) e) (elem 32 r e) := by
  simp only [int16Rows, List.forall_mem_cons, List.not_mem_nil, false_imp_iff, implies_true, and_true]
  refine ⟨vecInt16_done (f := addW) h rfl hdecl hclean ?add, vecInt16_done (f := subW) h rfl hdecl hclean ?sub,
    vecInt16_done (f := mulW) h rfl hdecl hclean ?mul, vecInt16_done (f := shlW) h rfl hdecl hclean ?shl,
    vecInt16_done (f := shrU) h rfl hdecl hclean ?shr⟩
  case add | mul => exact fun a b _ => Nat.mod_mod _ _
  case sub =>
    intro a b ha
    rw [show subW 32 a b % 2 ^ 32 = subW 32 a b from Nat.mod_mod _ _]
    exact subR_subW b ha
  case shl =>
    intro a b _
    rw [show shlW 32 a b % 2 ^ 32 = shlW 32 a b from Nat.mod_mod _ _]
    exact shlR_shlW 32 a b
  case shr =>
    intro a b ha
    rw [Nat.mod_eq_of_lt (shrU_lt b ha)]
    exact shrUR_shrU b ha

theorem vmovC16_done (h : Runs s c 2) (hdecl : Declared c [o.d.toNat, o.b.toNat] []) (hclean : Unpoisoned c [o.b.toNat] [] []) :
    VecDone (.vmovC16 o) s c 2 o.d.toNat [] 0 c.w.seed fun t r => r = c.w.getV o.b.toNat t := by
  have he := (exec_vmovC16 o s).trans (issue_runs h rfl _)
  exact vec_done (srcs := [(o.b.toNat, 0)]) h he hdecl hclean (by simp) (allFlags_zero c) rfl fun _ _ _ => rfl

theorem nop_done (h : Runs s c 2) : RegsDone .nop s c 2 c.w.getV c.w.getS c.w.getP := by
  refine ⟨_, _, issue_runs h rfl fun c => .ok (retire c c.s c.w 2), retire_onlyWave h c.w 2 rfl, ⟨?_, advance_jumped c c.w rfl 2⟩, ?_, ?_, ?_⟩
  · have hw := moved_retire c c.w 2 rfl rfl
    unfold Moved at hw ⊢
    rw [hw]
  all_goals
    intros
    rw [settle_eq]
    rfl

end

/-- Settles O4: `exec` of a 16-bit form is the vector effect of its 32-bit form with d as the first source (`vec16_done`). -/
theorem shortFormResults : Obligations.ShortFormResults := by
  refine ⟨fun s c h => nop_done h, fun o s c h hdecl hclean => ?_, fun o s c h hdecl hclean => ⟨int16Rows_done h hdecl hclean, ?_, ?_⟩⟩
  · exact vmovC16_done h hdecl hclean
  · simp only [fp16Rows, List.forall_mem_cons, List.not_mem_nil, false_imp_iff, implies_true, and_true]
    exact ⟨vecFp16_done h rfl hdecl hclean, vecFp16_done h rfl hdecl hclean, vecFp16_done h rfl hdecl hclean,
      vecFp16_done h rfl hdecl hclean, vecFp16_done h rfl hdecl hclean, vecFp16_done h rfl hdecl hclean⟩
  · exact ⟨vec16_done h (exec_vandC16 o s) hdecl hclean (allFlags_zero c) fun _ => rfl,
      vec16_done h (exec_vorC16 o s) hdecl hclean (allFlags_zero c) fun _ => rfl,
      vec16_done h (exec_vxorC16 o s) hdecl hclean (allFlags_zero c) fun _ => rfl⟩

/-! ## The forms with a rounding mode -/

section
variable {s : State} {c : Issue}

theorem declared_append {vs ws : List Nat} (hv : Declared c vs []) (hw : Declared c ws []) : Declared c (vs ++ ws) [] :=
  ⟨fun r hr => (List.mem_append.1 hr).elim (hv.1 r) (hw.1 r), hv.2⟩

theorem unpoisoned_append {vs ws : List Nat} (hv : Unpoisoned c vs [] []) (hw : Unpoisoned c ws [] []) :
    Unpoisoned c (vs ++ ws) [] [] :=
  ⟨hv.1, fun t ht => ⟨fun r hr => (List.mem_append.1 hr).elim ((hv.2 t ht).1 r) ((hw.2 t ht).1 r), (hv.2 t ht).2⟩⟩

theorem unpoisoned_nil : Unpoisoned c [] [] [] := ⟨by simp, fun t _ => ⟨by simp, by simp⟩⟩

/-- A Format Q form, which reads d only where d is its addend. -/
theorem vecQ_done {o : OpQ} {i : Instr} {addend : Bool} {f : Fmt → Rnd → Bool → Nat → Nat → Nat → Nat → Nat × Sticky}
    (h : Runs s c 4) (he : exec i s = vecQ s o addend f) (hok : okQ o = true)
    (hdecl : Declared c [o.d.toNat, o.a.toNat, o.b.toNat] []) (hclean : Unpoisoned c [o.a.toNat, o.b.toNat] [] [])
    (hadd : addend = true → Unpoisoned c [o.d.toNat] [] []) :
    let F := fmtOf o.t
    let rnd := rndOf o.rnd.toNat
    let g := fun t e => f F rnd (o.ftz == 1) (draw (seedStep c.w.seed) t e)
      (elem F.width (c.w.getV o.a.toNat t) e) (elem F.width (c.w.getV o.b.toNat t) e) (elem F.width (c.w.getV o.d.toNat t) e)
    VecDone i s c 4 o.d.toNat [] (allFlags c fun t => elemFlags (64 / F.width) fun e => (g t e).2)
      (if rnd = .rs then seedStep c.w.seed else c.w.seed)
      fun t r => ∀ e < 64 / F.width, elem F.width r e = (g t e).1 % 2 ^ F.width := by
  intro F rnd g
  have hd : Declared c [o.d.toNat] [] := ⟨fun r hr => hdecl.1 r (by rw [List.mem_singleton.1 hr]; exact List.mem_cons_self), hdecl.2⟩
  have hplain : Declared c (if addend then [o.d.toNat] else []) [] ∧ Unpoisoned c (if addend then [o.d.toNat] else []) [] [] := by
    cases addend with
    | true => exact ⟨hd, hadd rfl⟩
    | false => exact ⟨⟨by simp, hdecl.2⟩, unpoisoned_nil⟩
  refine vec_done h (he.trans (issue_runs h hok _)) (declared_append hdecl hplain.1) (unpoisoned_append hclean hplain.2) (by simp) ?_ ?_ ?_
  · simp only [mapF_flags]
    rfl
  · simp only [beq_iff_eq]
    rfl
  · exact fun t _ _ e he => elem_mapF _ _ _ e he (Nat.mul_div_le 64 _)

end

/-- Settles O9: each Format Q form is `vecQ` of its function (`vecQ_done`). -/
theorem roundedFormResults : Obligations.RoundedFormResults := by
  intro o s c h hok hdecl hclean
  simp only [fpQRows, List.forall_mem_cons, List.not_mem_nil, false_imp_iff, implies_true, and_true]
  exact ⟨(vecQ_done h (exec_vfaddQ o s) hok hdecl hclean :), (vecQ_done h (exec_vfsubQ o s) hok hdecl hclean :),
    (vecQ_done h (exec_vfmulQ o s) hok hdecl hclean :), fun hd => (vecQ_done h (exec_vfmaQ o s) hok hdecl hclean fun _ => hd trivial :)⟩

end Sys2Proof.ShortForms

/-! # Instructions that raise ILLEGAL (04 R115, R116) -/

namespace Sys2Proof.Illegal

open Sys2Proof.Machine Sys2Proof.Machine.Laws

section
variable {s : State} {c : Issue}

theorem illegal_taken {i : Instr} (hc : issuing s = some c) (hr : c.w.role = .solo) (hs : c.w.state ≠ .retired)
    (he : exec i s = .next (takeFault c ⟨.illegal, c.low, 0⟩)) : FaultTaken i s c .illegal c.low 0 :=
  fault_taken hc hr hs (by simp) he

/-! ## Faults before any effect -/

/-- A fault that an effect takes as ILLEGAL is taken as such where the fields or the place are wrong too. -/
theorem issue_illegal_of_eff {len : Nat} {ok : Bool} {eff : Issue → Except Flt State} (hc : issuing s = some c)
    (heff : eff c = .error ⟨.illegal, c.low, 0⟩) : issue s ok len eff = .next (takeFault c ⟨.illegal, c.low, 0⟩) := by
  unfold issue
  simp only [hc, heff]
  split
  · rfl
  · split <;> rfl

theorem illegalRegs_some {vs as : List Nat} {r : Nat} (hmem : r ∈ vs) (hr : c.g.launch.vregs ≤ r) :
    illegalRegs c vs as = some ⟨.illegal, c.low, 0⟩ := by
  have hall : (vs.all fun r => decide (r < c.g.launch.vregs)) = false :=
    List.all_eq_false.2 ⟨r, hmem, by simpa using hr⟩
  rw [illegalRegs, hall, Bool.false_and, if_neg Bool.false_ne_true]

theorem vecEff_illegal {len d r : Nat} {srcs : List (Nat × Nat)} {plain : List Nat} {adv : Bool} {f : Nat → Word × Sticky}
    (hmem : r ∈ d :: (srcs.map (·.1) ++ plain)) (hr : c.g.launch.vregs ≤ r) :
    vecEff c len d srcs plain adv f = .error ⟨.illegal, c.low, 0⟩ := by
  simp only [vecEff, guarded, illegalRegs_some hmem hr, firstFault]

/-! ## Fields that hold a value their row does not permit -/

/-- An instruction of one wave, whose check is that its fields are well formed. -/
theorem illegal_of_issue {i : Instr} {len : Nat} {eff : Issue → Except Flt State} (hc : issuing s = some c) (hr : c.w.role = .solo)
    (hs : c.w.state ≠ .retired) (he : exec i s = issue s (legal i) len eff) (hi : legal i = false) :
    FaultTaken i s c .illegal c.low 0 :=
  illegal_taken hc hr hs (he.trans (issue_illegal hc (.inl hi)))

/-- An instruction that would end a rollback-safe interval checks its fields first. -/
theorem illegal_of_issueAs {i : Instr} {len reason : Nat} {eff : Issue → Except Flt State} (hc : issuing s = some c)
    (hr : c.w.role = .solo) (hs : c.w.state ≠ .retired) (he : exec i s = issueAs s (legal i) len reason eff) (hi : legal i = false) :
    FaultTaken i s c .illegal c.low 0 := by
  refine illegal_of_issue (len := len) (eff := eff) hc hr hs (he.trans ?_) hi
  rw [issueAs, hi, if_neg Bool.false_ne_true]

variable (hc : issuing s = some c) (hr : c.w.role = .solo) (hs : c.w.state ≠ .retired)
include hc hr hs

/-- The three ways a row checks its fields: as one that may end a rollback-safe interval, not at all, and where it issues. -/
theorem illegal_of_not_legal {i : Instr} (hi : legal i = false) : FaultTaken i s c .illegal c.low 0 := by
  cases i
  case atomAdd | atomAnd | atomOr | atomXor | atomMinI | atomMinN | atomMaxI | atomMaxN | atomExch | atomCas | atomFadd | atomLdo
      | redAdd | redAnd | redOr | redXor | redMinI | redMinN | redMaxI | redMaxN | redExch | redCas | redFadd | redSto | fence
      | racq | mwait | barArrive | barWait | barSync | flush | inval | hsplit | smap | rget | kneigh | kiter | syswr | rmodeSwm
      | rmodeCoh =>
    exact illegal_of_issueAs hc hr hs rfl hi
  case launchTake | teamPlace | placementWaitExpiry | aggregatorRelease | ageBoost | watchdog | waveRetire | loadComplete
      | storeComplete | atomicComplete | fenceComplete | racqDrain | cacheFillArrive | sliceAdmit | monitorWake | monitorRepoll
      | pendingArrivalApply | tenureGrant | tenureRecall | hrelEffect | flushComplete | rmodeComplete | mmaAccept | mmaGrant
      | tileInstrEffect | tileRowsComplete | colloadComplete | qcopyComplete | copyComplete | teamSave | teamRestore
      | faultRecordWrite | hullWrite | signatureCompare | bisectorSnapshot | cutAnnounce | patchHandOver | bisectorStopShort
      | cutCommit | linkFlitReceive | linkRetrain | remoteRequest | agentFailure | census | correctedError | poisonMark
      | spareSubstitution | hostBar2Access | hostAtomicop | hostCxlCache | qrsvRead | setupBindKeyspace | setupUnbindKeyspace
      | setupWorkList | setupRereadQueue | contextSetup | contextRetire | syncRead | serviceResume | serviceHandler | serviceEnd
      | serviceContinue | serviceRestore | registerWrite | partset | partfree | parthalt | partrun | regtag | keyload | unitread
      | pwrlimit | sharedset | deviceReset | bootStageComplete | clockChange | thermalLimit | thermalHalt | keyUnitStep
      | workListStep | corePowerGate | clauseHeader | nop | vmovC16 | vaddI32x2C16 | vsubI32x2C16 | vmulI32x2C16 | vandC16
      | vorC16 | vxorC16 | vshlI32x2C16 | vshrN32x2C16 | vfaddF32x2C16 | vfsubF32x2C16 | vfmulF32x2C16 | vfminF32x2C16
      | vfmaxF32x2C16 | vfaddF64C16 | vlanes | vpasses | vtid | vlanemap | saddi | sandi | vaddiI32x2 | vaddiI64 | smovz | smovs
      | smovk16 | smovk32 | smovk48 | vmovz | vmovs | vmovk16 | vmovk32 | vmovk48 | vballot | vcompact | vmatch | vrdfirst
      | barInit | barRarrive | copy | gather | scatter | compact | pfetchDesc | pfetchHandle | pin | unpin | hopen | hacqRd
      | hacqWr | hrelDrop | hrelDown | hclose | sunmap | mma | tkacq | tkrel | tswap | tzero | tread | twrite | colload | qcopy
      | bra | brx | call | ret | bprio | rcvset | rcvwait | exit | trap | brk | qsend | qrecv | spawn | krefine | kcoarsen
      | kowner | kcost | kclaim | krelease | krebal | wpush | wpop | wins | wcount | tret | halt | ckpt | rbstat | finj =>
    cases hi
  case pand | por | pxor | pandn | pnot | pmov | vall | vany =>
    exact illegal_of_issue (len := 4) (eff := fun _ => .ok _) hc hr hs rfl hi
  all_goals exact illegal_of_issue hc hr hs rfl hi

/-! ## The packed integer instructions, wherever they stand and whatever they name -/

theorem illegal_of_vec2 {i : Instr} {o : OpA} {f : Word → Word → Word × Sticky} (he : exec i s = vec2 s o f)
    (hbad : c.e.ctx = none ∨ (∃ x, c.e.ctx = some x ∧ x.endPc < c.e.pc + 4) ∨ c.g.launch.vregs ≤ o.d.toNat ∨
      c.g.launch.vregs ≤ o.a.toNat ∨ c.g.launch.vregs ≤ o.b.toNat) : FaultTaken i s c .illegal c.low 0 := by
  refine illegal_taken hc hr hs (he.trans ?_)
  have hreg : ∀ r ∈ [o.d.toNat, o.a.toNat, o.b.toNat], c.g.launch.vregs ≤ r → vec2 s o f = .next (takeFault c ⟨.illegal, c.low, 0⟩) :=
    fun r hmem hr => issue_illegal_of_eff hc (vecEff_illegal hmem hr)
  rcases hbad with hctx | hend | hd | ha | hb
  · exact issue_illegal hc (.inr (.inl hctx))
  · exact issue_illegal hc (.inr (.inr hend))
  · exact hreg _ (by simp) hd
  · exact hreg _ (by simp) ha
  · exact hreg _ (by simp) hb

end

theorem intRows_vecInt (o : OpA) (s : State) : ∀ row ∈ intRows o, ∃ w f, exec row.1 s = vecInt s o w f := by
  simp only [intRows, int8Rows, int16x4Rows, int32Rows, int64Rows, List.forall_mem_append, List.forall_mem_cons, List.not_mem_nil,
    false_imp_iff, implies_true, and_true]
  and_intros <;> exact ⟨_, _, rfl⟩

/-- Settles O54: an instruction issues with its fields' check (`illegal_of_not_legal`), and a packed integer instruction checks its
registers before all else that its effect looks at (`illegal_of_vec2`). -/
theorem illegalHasNoEffect : Obligations.IllegalHasNoEffect := by
  refine ⟨fun i s c hi hc hr hs => illegal_of_not_legal hc hr hs (Bool.eq_false_of_not_eq_true hi),
    fun o s c row hrow _ hc hr hs hbad => ?_⟩
  obtain ⟨w, f, he⟩ := intRows_vecInt o s row hrow
  exact illegal_of_vec2 hc hr hs he hbad

end Sys2Proof.Illegal

/-! # Control transfer (04 R83, R84; 14 R331 to R333; 18 R412) -/

namespace Sys2Proof.ControlTransfer

open Sys2Proof.Machine Sys2Proof.Machine.Laws

/-! ## Where threads stand -/

theorem mem_addEntry_of_free {e : Entry} (he : e.mask ≠ 0) {l : List Entry} (hl : ∀ x ∈ l, x.prio = e.prio → x.pc ≠ e.pc) :
    e ∈ addEntry l e := by
  induction l with
  | nil =>
    rw [addEntry, if_neg he]
    exact List.mem_singleton_self e
  | cons x l ih =>
    have hx : ¬ (x.prio = e.prio ∧ x.pc = e.pc) := fun h => hl x (by simp) h.1 h.2
    rw [addEntry, if_neg he, if_neg hx]
    split
    · simp
    · exact List.mem_cons_of_mem _ (ih fun y hy => hl y (List.mem_cons_of_mem _ hy))

theorem mem_dropThreads {l : List Entry} {m : BitVec 32} {e : Entry} (h : e ∈ dropThreads l m) : ∃ x ∈ l, x.prio = e.prio ∧ x.pc = e.pc := by
  obtain ⟨x, hx, rfl⟩ := List.mem_map.1 (List.mem_filter.1 h).1
  exact ⟨x, hx, rfl, rfl⟩

/-- Threads whose place no other entry has form an entry of their own. -/
theorem mem_moveThreads_of_free {l : List Entry} {m : BitVec 32} {prio pc : Nat} (ctx : Option Ctx) (hm : m ≠ 0)
    (hl : ∀ x ∈ l, x.prio = prio → x.pc ≠ pc) : ⟨prio, pc, m, ctx⟩ ∈ moveThreads l m prio pc ctx := by
  refine mem_addEntry_of_free hm fun e he hprio hpc => ?_
  obtain ⟨x, hx, hxprio, hxpc⟩ := mem_dropThreads he
  exact hl x hx (hxprio.trans hprio) (hxpc.trans hpc)

/-- Threads that move one by one, each to its own target. -/
theorem standsAt_foldl_addEntry (prio : Nat) (f : Nat → Nat) {ts : List Nat} {l : List Entry} {th : Nat} (hth : th < 32) (p q : Nat) :
    StandsAt (ts.foldl (fun l t => addEntry l ⟨prio, f t, BitVec.twoPow 32 t, none⟩) l) th p q ↔
      StandsAt l th p q ∨ th ∈ ts ∧ p = prio ∧ q = f th := by
  induction ts generalizing l with
  | nil => simp
  | cons t ts ih =>
    have hbit : (BitVec.twoPow 32 t).getLsbD th = true ↔ th = t := by simp [hth, eq_comm]
    rw [List.foldl_cons, ih, standsAt_addEntry, hbit, List.mem_cons]
    constructor
    · rintro ((h | ⟨rfl, rfl, rfl⟩) | ⟨ht, hpq⟩)
      · exact .inl h
      · exact .inr ⟨.inl rfl, rfl, rfl⟩
      · exact .inr ⟨.inr ht, hpq⟩
    · rintro (h | ⟨rfl | ht, rfl, rfl⟩)
      · exact .inl (.inl h)
      · exact .inl (.inr ⟨rfl, rfl, rfl⟩)
      · exact .inr ⟨ht, rfl, rfl⟩

section
variable {s : State} {c : Issue}

theorem standsAt_jump {w : Wave} (hw : w.frontier = c.w.frontier) (f : Nat → Nat) {th : Nat} (hth : th < 32) (p q : Nat) :
    StandsAt (jump c w f).frontier th p q ↔
      if c.mask.getLsbD th then p = c.e.prio ∧ q = f th else StandsAt c.w.frontier th p q := by
  unfold jump
  rw [standsAt_foldl_addEntry _ _ hth, standsAt_dropThreads _ _ hth, mem_threads, hw]
  cases c.mask.getLsbD th <;> simp [hth]

/-! ## The end of a transfer -/

theorem setWave_onlyWave (hc : issuing s = some c) {w : Wave} (hw : w.id = c.w.id) : OnlyWave s (s.awake.setWave w) c w := by
  refine ⟨?_, fun i hi => ?_, rfl⟩
  · rw [← hw]
    refine wave?_setWave_same (x := c.w) ?_
    rw [hw]
    exact (issuing_wave hc : s.wave? c.w.id = some c.w)
  · exact wave?_setWave_other (s := s.awake) (by rwa [hw])

theorem retireMoved_onlyWave {len : Nat} (h : Runs s c len) {w : Wave} (hw : w.id = c.w.id) :
    OnlyWave s (retireMoved c c.s w) c w.count.settle := by
  rw [retireMoved_eq h.left, issuing_s h.issues]
  exact setWave_onlyWave h.issues (by rw [settle_id]; exact hw)

theorem moved_count_settle {w w' : Wave} (hw : w = { w' with frontier := w.frontier, sel := w.sel }) (hl : w'.left = c.w.left)
    (hr : w'.retired = c.w.retired) : Moved c w' w.count.settle := by
  unfold Moved
  rw [settle_eq, hw]
  simp [Wave.count, hl, hr]

theorem frontier_count_settle (w : Wave) : w.count.settle.frontier = w.frontier := by
  rw [settle_eq]
  rfl

/-- An instruction that has moved its threads itself, and retires. -/
theorem transfer_done {i : Instr} {s0 : State} {len prio : Nat} {w w' : Wave} {f : Nat → Nat} (h : Runs s c len)
    (he : exec i s0 = .next (retireMoved c c.s w)) (hw : w = { w' with frontier := w.frontier, sel := w.sel }) (hid : w'.id = c.w.id)
    (hl : w'.left = c.w.left) (hr : w'.retired = c.w.retired) (hj : Jumped c w prio f) :
    ∃ t x, exec i s0 = .next t ∧ OnlyWave s t c x ∧ Moved c w' x ∧ Jumped c x prio f := by
  refine ⟨_, _, he, retireMoved_onlyWave h (by rw [hw]; exact hid), moved_count_settle hw hl hr, ?_⟩
  unfold Jumped
  rwa [frontier_count_settle]

/-! ## Checks that pass -/

theorem notLast_none (h : Runs s c 4) (hlast : LastOf c) : notLast c = none := by
  obtain ⟨x, hx, -⟩ := h.body
  simp [notLast, hx, faultIf, Issue.fall, hlast x hx]

theorem notUniform_none {α : Type} {uni : BitVec 1} {g : Nat → α} (h : uni = 1 → ∀ th ∈ threads c.mask, g th = g c.low) (f : α → Nat) :
    notUniform c uni (fun th => f (g th)) = none := by
  rw [notUniform, faultIf, if_neg]
  rw [Bool.and_eq_true, beq_iff_eq, Bool.not_eq_true']
  rintro ⟨hu, hall⟩
  exact Bool.false_ne_true (hall.symm.trans (List.all_eq_true.2 fun t ht => beq_iff_eq.2 (congrArg f (h hu t ht))))

/-! ## What each transfer runs -/

theorem exec_bra_passed (h : Runs s c 4) (hlast : LastOf c) (o : OpBra)
    (hu : o.uni = 1 → ∀ th ∈ threads c.mask, (c.w.getP o.p.toNat th != (o.neg == 1)) = (c.w.getP o.p.toNat c.low != (o.neg == 1))) :
    exec (.bra o) s = .next (retireMoved c c.s (jump c c.w fun th =>
      if c.w.getP o.p.toNat th != (o.neg == 1) then wrapN 64 (((c.e.ctx.map (·.hdr)).getD 0 : Int) + 4 * toSigned 20 o.off.toNat)
      else c.fall)) := by
  rw [exec_bra, execBra, issue_runs h rfl]
  simp only [guarded, notLast_none h hlast, notUniform_none hu fun b => if b then 1 else 0, firstFault]

theorem exec_brx_passed (h : Runs s c 4) (hlast : LastOf c) (o : OpBrx) (hd : Declared c [o.t.toNat] [])
    (hp : Unpoisoned c [o.t.toNat] [] []) (hu : o.uni = 1 → ∀ th ∈ threads c.mask, c.w.getV o.t.toNat th = c.w.getV o.t.toNat c.low) :
    exec (.brx o) s = .next (retireMoved c c.s (jump c c.w fun th => (c.w.getV o.t.toNat th).toNat)) := by
  rw [exec_brx, execBrx, issue_runs h rfl]
  simp only [guarded, notLast_none h hlast, notUniform_none hu BitVec.toNat, illegalRegs_none hd,
    poisonRegs_none hp, firstFault]

theorem exec_call_passed (h : Runs s c 4) (hlast : LastOf c) (o : OpY12) (hd : Declared c [o.f1.toNat] [])
    (hp : Unpoisoned c [] [o.f2.toNat] []) :
    exec (.call o) s = .next (retireMoved c c.s (jump c (c.w.setVs o.f1.toNat (threads c.mask) fun _ => BitVec.ofNat 64 c.fall)
      fun _ => (c.w.getS o.f2.toNat).toNat)) := by
  rw [exec_call, execCall, issue_runs h rfl]
  simp only [guarded, notLast_none h hlast, illegalRegs_none hd, poisonRegs_none hp, firstFault]

theorem exec_ret_passed (h : Runs s c 4) (hlast : LastOf c) (o : OpY2) (hd : Declared c [o.f2.toNat] [])
    (hp : Unpoisoned c [o.f2.toNat] [] []) :
    exec (.ret o) s = .next (retireMoved c c.s (jump c c.w fun th => (c.w.getV o.f2.toNat th).toNat)) := by
  rw [exec_ret, execRet, issue_runs h rfl]
  simp only [guarded, notLast_none h hlast, illegalRegs_none hd, poisonRegs_none hp, firstFault]

theorem exec_tret_passed {s0 : State} (hsafe : EndsSafety s0 s 3) (h : Runs s c 4) (hsys : c.w.sysMode = true) (hmask : c.mask = c.w.sysMask)
    (hbody : bitsN c.w.trapCtx.toNat 63 1 = 1 → bitsN c.w.trapPc.toNat 1 51 < bitsN c.w.trapCtx.toNat 1 51) :
    exec .tret s0 = .next (retireMoved c c.s (leaveSystem c c.w)) := by
  obtain ⟨rfl, hwaits⟩ := hsafe
  have hpast : (bitsN c.w.trapCtx.toNat 63 1 == 1 && decide (bitsN c.w.trapCtx.toNat 1 51 ≤ bitsN c.w.trapPc.toNat 1 51)) = false := by
    simpa using hbody
  rw [exec_tret, execTret, issueAs, if_pos rfl, hwaits]
  simp only [issue_runs h rfl, guarded, faultIf, hsys, hmask, hpast, Bool.not_true, Bool.false_or, bne_self_eq_false, Bool.false_eq_true,
    if_false, firstFault]

/-! ## Each transfer -/

theorem toSigned_toNat {n : Nat} (x : BitVec n) : toSigned n x.toNat = x.toInt := by
  rw [toSigned, BitVec.toInt_eq_toNat_cond, Nat.mod_eq_of_lt x.isLt]

theorem header_done (hc : issuing s = some c) (hctx : c.e.ctx = none) (o : OpHdr) (hok : okHeader o = true) :
    ∃ t w, exec (.clauseHeader o) s = .next t ∧ OnlyWave s t c w ∧
      w = { c.w with frontier := w.frontier, sel := some (c.e.prio, c.e.pc + 4), state := w.state } ∧
      (if ((List.range 12).all fun n => !o.wait.getLsbD n || c.w.getF n == 0) = true then w.state = .ready else w.state = .waitFlags o.wait) ∧
      Jumped c w c.e.prio (fun _ => c.e.pc + 4) ∧
      (c.mask ≠ 0 → (∀ x ∈ c.w.frontier, x.prio = c.e.prio → x.pc ≠ c.e.pc + 4) →
        ⟨c.e.prio, c.e.pc + 4, c.mask,
          some ⟨c.e.pc, o.flagA.toNat, o.flagB.toNat, c.e.pc + 4 + 2 * (o.len.toNat + 1)⟩⟩ ∈ w.frontier) := by
  have he : exec (.clauseHeader o) s = _ := exec_clauseHeader o s
  simp only [execClauseHeader, hc, hctx, hok, Option.isNone_none, Bool.and_self, if_true] at he
  refine ⟨_, _, he, setWave_onlyWave hc rfl, rfl, ?_, fun th hth p q => standsAt_moveThreads _ _ _ _ _ hth p q, fun hm hfree => ?_⟩
  · split <;> rfl
  · exact mem_moveThreads_of_free _ hm hfree

theorem bprio_done (h : Runs s c 4) (o : OpBprio) : ∃ t w, exec (.bprio o) s = .next t ∧ OnlyWave s t c w ∧ Moved c c.w w ∧
    Jumped c w o.n.toNat fun _ => c.e.pc + 4 :=
  transfer_done h ((exec_bprio o s).trans (issue_runs h rfl _)) rfl rfl rfl rfl fun _ hth p q => standsAt_moveThreads _ _ _ _ _ hth p q

theorem bra_done (h : Runs s c 4) (hlast : LastOf c) (o : OpBra)
    (hu : o.uni = 1 → ∀ th ∈ threads c.mask, (c.w.getP o.p.toNat th != (o.neg == 1)) = (c.w.getP o.p.toNat c.low != (o.neg == 1))) :
    ∃ t w, exec (.bra o) s = .next t ∧ OnlyWave s t c w ∧ Moved c c.w w ∧ Jumped c w c.e.prio fun th =>
      if c.w.getP o.p.toNat th != (o.neg == 1) then wrapN 64 (((c.e.ctx.map (·.hdr)).getD 0 : Int) + 4 * o.off.toInt) else c.e.pc + 4 := by
  rw [← toSigned_toNat]
  exact transfer_done h (exec_bra_passed h hlast o hu) rfl rfl rfl rfl fun _ hth => standsAt_jump rfl _ hth

theorem call_done (h : Runs s c 4) (hlast : LastOf c) (o : OpY12) (hd : Declared c [o.f1.toNat] [])
    (hp : Unpoisoned c [] [o.f2.toNat] []) :
    ∃ t w, exec (.call o) s = .next t ∧ OnlyWave s t c w ∧ Moved c { c.w with v := w.v, vBad := w.vBad, vDirty := w.vDirty } w ∧
      (∀ r th, th < 32 → w.getV r th = putV c o.f1.toNat (fun _ => BitVec.ofNat 64 (c.e.pc + 4)) r th) ∧
      Jumped c w c.e.prio fun _ => (c.w.getS o.f2.toNat).toNat := by
  obtain ⟨t, w, he, honly, hmoved, hjumped⟩ := transfer_done (w' := c.w.setVs o.f1.toNat (threads c.mask) fun _ => BitVec.ofNat 64 c.fall)
    h (exec_call_passed h hlast o hd hp) rfl (by rw [setVs_eq]) (by rw [setVs_eq]) (by rw [setVs_eq])
    fun _ hth => standsAt_jump (by rw [setVs_eq]) _ hth
  refine ⟨t, w, he, honly, ?_, fun r th hth => ?_, hjumped⟩
  · unfold Moved at hmoved ⊢
    rw [hmoved, setVs_eq]
  · have hv : w.getV r th = (c.w.setVs o.f1.toNat (threads c.mask) fun _ => BitVec.ofNat 64 c.fall).getV r th := by
      rw [hmoved]
      rfl
    rw [hv, getV_setVs _ _ _ _ _ _ (fun _ ht => lt_of_mem_threads ht) hth]
    simp only [putV, Issue.fall, mem_threads, hth, true_and, and_comm]

end

/-- Settles O42: each transfer moves the active threads in the frontier and retires (`transfer_done`); a header only selects its body. -/
theorem controlTransferResults : Obligations.ControlTransferResults := by
  refine ⟨fun o s c hc hctx hok => header_done hc hctx o hok,
    fun s c h => ⟨bprio_done h, fun hlast => ⟨bra_done h hlast, fun o hd hp hu => ?_, call_done h hlast, fun o hd hp => ?_⟩⟩,
    fun s s1 c hsafe h hsys hmask hbody => ?_⟩
  · exact transfer_done h (exec_brx_passed h hlast o hd hp hu) rfl rfl rfl rfl fun _ hth => standsAt_jump rfl _ hth
  · exact transfer_done h (exec_ret_passed h hlast o hd hp) rfl rfl rfl rfl fun _ hth => standsAt_jump rfl _ hth
  · rw [Nat.mul_comm]
    exact transfer_done h (exec_tret_passed hsafe h hsys hmask hbody) rfl rfl rfl rfl fun _ hth p q => standsAt_moveThreads _ _ _ _ _ hth p q

end Sys2Proof.ControlTransfer

/-! # Reductions and scans (05 R146, 07 R198) -/

namespace Sys2Proof.ReduceScan

open Sys2Proof.Machine Sys2Proof.Machine.Laws Sys2Proof.ShortForms

/-! ## Format T instructions -/

theorem cmpTy_width_cases (t : Nat) : (cmpTy t).width = 16 ∨ (cmpTy t).width = 32 ∨ (cmpTy t).width = 64 := by
  unfold cmpTy
  split <;> decide

theorem two_pow_width_dvd (t : Nat) : 2 ^ (cmpTy t).width ∣ 2 ^ 64 := by
  rcases cmpTy_width_cases t with h | h | h <;> rw [h] <;> decide

/-- The low w bits of a register are those of `x`, and the bits above them those of `old`. -/
abbrev LowIs (w : Nat) (old : Word) (x : Nat) (r : Word) : Prop := r.toNat % 2 ^ w = x % 2 ^ w ∧ r.toNat / 2 ^ w = old.toNat / 2 ^ w

/-- A value put in the low bits of a register leaves the bits above it (05 R120). -/
theorem lowBits_low {w : Nat} (hw : 2 ^ w ∣ 2 ^ 64) (old : Word) (x : Nat) : LowIs w old x (lowBits w old x) := by
  have hx : x % 2 ^ w < 2 ^ w := Nat.mod_lt _ (by positivity)
  have hlt : old.toNat / 2 ^ w * 2 ^ w + x % 2 ^ w < 2 ^ 64 := by
    obtain ⟨n, hn⟩ := hw
    have hq : old.toNat / 2 ^ w < n := Nat.div_lt_of_lt_mul (hn ▸ old.isLt)
    calc old.toNat / 2 ^ w * 2 ^ w + x % 2 ^ w < old.toNat / 2 ^ w * 2 ^ w + 2 ^ w := by omega
      _ = (old.toNat / 2 ^ w + 1) * 2 ^ w := (Nat.succ_mul _ _).symm
      _ ≤ n * 2 ^ w := Nat.mul_le_mul_right _ hq
      _ = 2 ^ 64 := by rw [hn, Nat.mul_comm]
  rw [LowIs, lowBits, BitVec.toNat_ofNat, Nat.mod_eq_of_lt hlt]
  constructor
  · rw [Nat.mul_add_mod_self_right, Nat.mod_mod]
  · rw [Nat.add_comm, Nat.add_mul_div_right _ _ (by positivity), Nat.div_eq_of_lt hx, Nat.zero_add]

section
variable {s : State} {c : Issue} {o : OpT} {i : Instr} {bitwise : Bool} (h : Runs s c 4)
  (hdecl : Declared c [o.d.toNat, o.a.toNat] []) (ha : Unpoisoned c [o.a.toNat] [] [])
  (hd : (cmpTy o.t.toNat).width ≠ 64 → Unpoisoned c [o.d.toNat] [] []) (hok : okRed bitwise o = true)
include h hdecl ha hd hok

/-- A Format T instruction: the value of each thread in the low bits of its destination, and the flags of all its combines. -/
theorem redScan_done {f : CvtTy → List (Option Nat) → (Nat → Nat) × Sticky} (he : exec i s = redScan s o bitwise f) :
    let ty := cmpTy o.t.toNat
    let r := f ty (activeVals c o.a.toNat ty.width)
    VecDone i s c 4 o.d.toNat (lastUse [(o.a.toNat, o.ca)]) (allFlags c fun _ => r.2) c.w.seed
      fun t => LowIs ty.width (c.w.getV o.d.toNat t) (r.1 t) := by
  intro ty r
  have hd' : Declared c [o.d.toNat] [] := ⟨fun x hx => hdecl.1 x (by rw [List.mem_singleton.1 hx]; exact List.mem_cons_self), hdecl.2⟩
  have hplain : Declared c (if ty.width = 64 then [] else [o.d.toNat]) [] ∧
      Unpoisoned c (if ty.width = 64 then [] else [o.d.toNat]) [] [] := by
    by_cases hw : ty.width = 64
    · rw [if_pos hw]
      exact ⟨⟨by simp, hdecl.2⟩, unpoisoned_nil⟩
    · rw [if_neg hw]
      exact ⟨hd', hd hw⟩
  exact vec_done h (he.trans (issue_runs h hok _)) (declared_append hdecl hplain.1) (unpoisoned_append ha hplain.2) (lastUse_mem _) rfl rfl
    fun t _ _ => lowBits_low (two_pow_width_dvd _) _ _

theorem reduce_done {op : RedOp} (he : exec i s = reduce s o bitwise op) :
    let ty := cmpTy o.t.toNat
    let r := redTree op ty (activeVals c o.a.toNat ty.width)
    VecDone i s c 4 o.d.toNat (lastUse [(o.a.toNat, o.ca)]) (allFlags c fun _ => r.2) c.w.seed
      fun t => LowIs ty.width (c.w.getV o.d.toNat t) (r.1.getD (identity op ty)) := by
  unfold reduce at he
  exact (redScan_done h hdecl ha hd hok he :)

theorem scanIncl_done {op : RedOp} (he : exec i s = scanIncl s o bitwise op) :
    let ty := cmpTy o.t.toNat
    let r := scanTree op ty (activeVals c o.a.toNat ty.width)
    VecDone i s c 4 o.d.toNat (lastUse [(o.a.toNat, o.ca)]) (allFlags c fun _ => r.2) c.w.seed
      fun t => LowIs ty.width (c.w.getV o.d.toNat t) ((r.1.getD t none).getD (identity op ty)) := by
  unfold scanIncl at he
  exact (redScan_done h hdecl ha hd hok he :)

theorem scanExcl_done {op : RedOp} (he : exec i s = scanExcl s o bitwise op) :
    let ty := cmpTy o.t.toNat
    let r := scanTree op ty (activeVals c o.a.toNat ty.width)
    VecDone i s c 4 o.d.toNat (lastUse [(o.a.toNat, o.ca)]) (allFlags c fun _ => r.2) c.w.seed
      fun t => LowIs ty.width (c.w.getV o.d.toNat t)
        (if t = 0 then identity op ty else (r.1.getD (t - 1) none).getD (identity op ty)) := by
  unfold scanExcl at he
  exact (redScan_done h hdecl ha hd hok he :)

end

/-- Settles O17: a reduction, an inclusive and an exclusive scan each put the value that they take from their tree into the low bits of
the destination (`reduce_done`, `scanIncl_done`, `scanExcl_done`). -/
theorem reduceAndScanResults : Obligations.ReduceAndScanResults := by
  intro o s c h ty w hdecl ha hd vals low
  simp only [redRows, scanRows, scanxRows, List.forall_mem_cons, List.not_mem_nil, false_imp_iff, implies_true, and_true]
  refine ⟨⟨?_, ?_, ?_, ?_, ?_, ?_⟩, ⟨?_, ?_, ?_, ?_, ?_, ?_⟩, ?_, ?_, ?_, ?_, ?_, ?_⟩ <;> intro hok
  · exact reduce_done h hdecl ha hd hok (exec_vredAdd o s)
  · exact reduce_done h hdecl ha hd hok (exec_vredMin o s)
  · exact reduce_done h hdecl ha hd hok (exec_vredMax o s)
  · exact reduce_done h hdecl ha hd hok (exec_vredAnd o s)
  · exact reduce_done h hdecl ha hd hok (exec_vredOr o s)
  · exact reduce_done h hdecl ha hd hok (exec_vredXor o s)
  · exact scanIncl_done h hdecl ha hd hok (exec_vscanAdd o s)
  · exact scanIncl_done h hdecl ha hd hok (exec_vscanMin o s)
  · exact scanIncl_done h hdecl ha hd hok (exec_vscanMax o s)
  · exact scanIncl_done h hdecl ha hd hok (exec_vscanAnd o s)
  · exact scanIncl_done h hdecl ha hd hok (exec_vscanOr o s)
  · exact scanIncl_done h hdecl ha hd hok (exec_vscanXor o s)
  · exact scanExcl_done h hdecl ha hd hok (exec_vscanxAdd o s)
  · exact scanExcl_done h hdecl ha hd hok (exec_vscanxMin o s)
  · exact scanExcl_done h hdecl ha hd hok (exec_vscanxMax o s)
  · exact scanExcl_done h hdecl ha hd hok (exec_vscanxAnd o s)
  · exact scanExcl_done h hdecl ha hd hok (exec_vscanxOr o s)
  · exact scanExcl_done h hdecl ha hd hok (exec_vscanxXor o s)

/-! ## Integer sums -/

/-- The value of a thread that may be absent, as a term of a sum. -/
abbrev orZero (v : Option Nat) : Nat := v.getD 0

/-- Every value present fits in w bits. -/
abbrev Fits (w : Nat) (vals : List (Option Nat)) : Prop := ∀ v ∈ vals, orZero v < 2 ^ w

section
variable (sgn : Bool) {w : Nat}

theorem combine?_add_lt {x y : Option Nat} (hx : orZero x < 2 ^ w) (hy : orZero y < 2 ^ w) :
    orZero (combine? .add (.int sgn w) x y).1 < 2 ^ w := by
  cases x with
  | none => exact hy
  | some a =>
    cases y with
    | none => exact hx
    | some b => exact Nat.mod_lt _ (by positivity)

theorem combine?_add_modEq (x y : Option Nat) :
    orZero (combine? .add (.int sgn w) x y).1 ≡ orZero x + orZero y [MOD 2 ^ w] := by
  cases x with
  | none => rw [show orZero none = 0 from rfl, Nat.zero_add]; rfl
  | some a =>
    cases y with
    | none => rfl
    | some b => exact Nat.mod_modEq _ _

/-! ### The reduction tree -/

/-- One level of the tree: half as many values, of the same sum. -/
theorem redLevel_add (n : Nat) {vals : List (Option Nat)} (hl : vals.length = 2 * n) (hf : Fits w vals) :
    let l := (redLevel .add (.int sgn w) vals).1
    l.length = n ∧ Fits w l ∧ (l.map orZero).sum ≡ (vals.map orZero).sum [MOD 2 ^ w] := by
  induction n generalizing vals with
  | zero =>
    obtain rfl := List.length_eq_zero_iff.1 hl
    exact ⟨rfl, hf, rfl⟩
  | succ n ih =>
    match vals, hl, hf with
    | x :: y :: l, hl, hf =>
      obtain ⟨hn, hfit, hsum⟩ := ih (vals := l) (by simp at hl; omega) fun v hv => hf v (by simp [hv])
      refine ⟨by simp [redLevel, hn], List.forall_mem_cons.2 ⟨combine?_add_lt sgn (hf x (by simp)) (hf y (by simp)), hfit⟩, ?_⟩
      simpa [redLevel, Nat.add_assoc] using (combine?_add_modEq sgn x y).add hsum
    | [_], hl, _ => simp at hl; omega

/-- Five levels of the tree leave one of 32 values. -/
theorem redTree_add {vals : List (Option Nat)} (hl : vals.length = 32) (hf : Fits w vals) :
    orZero (redTree .add (.int sgn w) vals).1 = (vals.map orZero).sum % 2 ^ w := by
  obtain ⟨hl1, hf1, hs1⟩ := redLevel_add sgn 16 hl hf
  obtain ⟨hl2, hf2, hs2⟩ := redLevel_add sgn 8 hl1 hf1
  obtain ⟨hl3, hf3, hs3⟩ := redLevel_add sgn 4 hl2 hf2
  obtain ⟨hl4, hf4, hs4⟩ := redLevel_add sgn 2 hl3 hf3
  obtain ⟨hl5, hf5, hs5⟩ := redLevel_add sgn 1 hl4 hf4
  obtain ⟨v, hv⟩ := List.length_eq_one_iff.1 hl5
  have hroot : (redTree .add (.int sgn w) vals).1 = v := congrArg (fun l => l.head?.getD none) hv
  rw [hv] at hf5 hs5
  have hsum : orZero v ≡ (vals.map orZero).sum [MOD 2 ^ w] := by
    simpa using hs5.trans (hs4.trans (hs3.trans (hs2.trans hs1)))
  rw [hroot, ← Nat.mod_eq_of_lt (hf5 v (List.mem_singleton_self v))]
  exact hsum

/-! ### The inclusive scan -/

/-- The sum of the values of the first n threads. -/
def firstSum (vals : List (Option Nat)) (n : Nat) : Nat := ((vals.take n).map orZero).sum

theorem getD_fits {l : List (Option Nat)} (hf : Fits w l) (t : Nat) : orZero (l.getD t none) < 2 ^ w := by
  rw [List.getD_eq_getElem?_getD]
  cases h : l[t]? with
  | none => exact Nat.two_pow_pos w
  | some v => exact hf v (List.mem_of_getElem? h)

theorem firstSum_succ (vals : List (Option Nat)) (n : Nat) : firstSum vals (n + 1) = firstSum vals n + orZero (vals.getD n none) := by
  unfold firstSum
  rw [List.take_add_one, List.map_append, List.sum_append, List.getD_eq_getElem?_getD]
  cases vals[n]? <;> simp

/-- The values of a scan once each thread holds the sum, modulo 2^w, of the d threads up to it. -/
structure Window (w d : Nat) (vals l : List (Option Nat)) : Prop where
  length : l.length = vals.length
  fits : Fits w l
  sum : ∀ t < vals.length, orZero (l.getD t none) + firstSum vals (t + 1 - d) ≡ firstSum vals (t + 1) [MOD 2 ^ w]

theorem window_one {vals : List (Option Nat)} (hf : Fits w vals) : Window w 1 vals vals :=
  ⟨rfl, hf, fun t _ => by rw [Nat.add_sub_cancel, firstSum_succ, Nat.add_comm]⟩

/-- Thread t of a level at distance d: its value combined with that of thread t − d. -/
theorem scanLevel_getD (op : RedOp) (ty : CvtTy) (d : Nat) {l : List (Option Nat)} {t : Nat} (ht : t < l.length) :
    (scanLevel op ty d l).1.getD t none =
      (combine? op ty (if t < d then none else l.getD (t - d) none) (l.getD t none)).1 := by
  have hshift : (List.replicate d none ++ l).getD t none = if t < d then none else l.getD (t - d) none := by
    split
    · next h => simp [List.getD_eq_getElem?_getD, List.getElem?_append, h]
    · next h => simp [List.getD_eq_getElem?_getD, List.getElem?_append, h]
  have hlen : t < (List.replicate d none ++ l).length := by rw [List.length_append]; omega
  rw [← hshift]
  simp [scanLevel, List.getD_eq_getElem?_getD, ht, List.getElem?_eq_getElem hlen]

theorem scanLevel_length (op : RedOp) (ty : CvtTy) (d : Nat) (l : List (Option Nat)) : (scanLevel op ty d l).1.length = l.length := by
  simp [scanLevel]

/-- A level at distance d doubles the number of threads summed. -/
theorem scanLevel_window {d : Nat} {vals l : List (Option Nat)} (h : Window w d vals l) :
    Window w (2 * d) vals (scanLevel .add (.int sgn w) d l).1 := by
  have hlen := (scanLevel_length .add (.int sgn w) d l).trans h.length
  refine ⟨hlen, fun v hv => ?_, fun t ht => ?_⟩
  · obtain ⟨t, ht, rfl⟩ := List.getElem_of_mem hv
    have htl : t < l.length := by rwa [scanLevel_length] at ht
    rw [← List.getD_eq_getElem _ none ht, scanLevel_getD _ _ _ htl]
    refine combine?_add_lt sgn ?_ (getD_fits h.fits t)
    split
    · exact Nat.two_pow_pos w
    · exact getD_fits h.fits _
  · rw [scanLevel_getD _ _ _ (h.length ▸ ht)]
    by_cases htd : t < d
    · rw [if_pos htd, show t + 1 - 2 * d = t + 1 - d by omega]
      exact h.sum t ht
    · have hprev := h.sum (t - d) (by omega)
      rw [show t - d + 1 - d = t + 1 - 2 * d by omega, show t - d + 1 = t + 1 - d by omega] at hprev
      rw [if_neg htd]
      calc _ ≡ orZero (l.getD (t - d) none) + orZero (l.getD t none) + firstSum vals (t + 1 - 2 * d) [MOD 2 ^ w] :=
            (combine?_add_modEq sgn _ _).add_right _
        _ = orZero (l.getD t none) + (orZero (l.getD (t - d) none) + firstSum vals (t + 1 - 2 * d)) := by omega
        _ ≡ orZero (l.getD t none) + firstSum vals (t + 1 - d) [MOD 2 ^ w] := hprev.add_left _
        _ ≡ firstSum vals (t + 1) [MOD 2 ^ w] := h.sum t ht

/-- After five levels each of the 32 threads holds the sum of all the threads up to it. -/
theorem scanTree_window {vals : List (Option Nat)} (hf : Fits w vals) : Window w 32 vals (scanTree .add (.int sgn w) vals).1 :=
  scanLevel_window sgn (scanLevel_window sgn (scanLevel_window sgn (scanLevel_window sgn (scanLevel_window sgn (window_one hf)))))

end

/-- Settles O18: each level of the tree keeps the sum modulo 2^w (`redLevel_add`), and each level of the scan doubles the number of
threads that a value sums (`scanLevel_window`). -/
theorem integerSumIsTree : Obligations.IntegerSumIsTree := by
  intro sgn w vals hl hv
  have hf : Fits w vals := fun v hmem => by
    cases v with
    | none => exact Nat.two_pow_pos w
    | some x => exact hv (some x) hmem x rfl
  refine ⟨redTree_add sgn hl hf, fun t ht _ => ?_⟩
  have hwin := scanTree_window sgn hf
  have hsum := hwin.sum t (hl ▸ ht)
  rw [show t + 1 - 32 = 0 by omega, show firstSum vals 0 = 0 from rfl, Nat.add_zero] at hsum
  exact (Nat.mod_eq_of_lt (getD_fits hwin.fits t)).symm.trans hsum

end Sys2Proof.ReduceScan

/-! # What the caches and the translations leave of the waves

An access of memory, of whatever kind, changes no wave: one lemma per operation of the caches, down to the marking of the leaves that a
read has used (18 R403). -/

namespace Sys2Proof.WavesKept

open Sys2Proof.Machine

/-- Operations that keep the waves, one after another. -/
theorem foldl_waves {α : Type} {f : State → α → State} (hf : ∀ s x, (f s x).waves = s.waves) (l : List α) (s : State) :
    (l.foldl f s).waves = s.waves := by
  induction l generalizing s with
  | nil => rfl
  | cons x l ih => rw [List.foldl_cons, ih, hf]

/-! ## The blocks of a cache -/

@[simp] theorem commitWord_waves (s : State) (word : Nat) (bytes : List (Nat × BitVec 8)) (mk : Mark) :
    (commitWord s word bytes mk).waves = s.waves := rfl

@[simp] theorem setHeld_waves (s : State) (cache word : Nat) (x : CWord) : (s.setHeld cache word x).waves = s.waves := rfl

@[simp] theorem writeBackWord_waves (s : State) (word : Nat) : (writeBackWord s word).waves = s.waves := rfl

@[simp] theorem leaveWord_waves (s : State) (cache word : Nat) (x : CWord) : (leaveWord s cache word x).waves = s.waves := by
  unfold leaveWord
  split
  · split <;> rfl
  · split <;> rfl
  · rfl

@[simp] theorem evictBlock_waves (s : State) (b : CBlock) : (evictBlock s b).waves = s.waves :=
  foldl_waves (fun _ _ => leaveWord_waves _ _ _ _) _ _

theorem makeRoom_waves {cache frame fuel : Nat} {new : List CBlock} {s t : State} (h : makeRoom cache frame new fuel s = some t) :
    t.waves = s.waves := by
  induction fuel generalizing s with
  | zero => cases h
  | succ fuel ih =>
    simp only [makeRoom] at h
    split at h
    · cases h
      rfl
    · split at h
      · cases h
      · exact (ih h).trans (evictBlock_waves _ _)

@[simp] theorem fillRun_waves (s : State) (cache frame start n hint : Nat) (f : Nat → CWord) :
    (fillRun s cache frame start n hint f).waves = s.waves := by
  unfold fillRun
  lift_lets
  intro here rest len mapped lacks pieces stashed own mine s1
  have h1 : s1.waves = s.waves := by
    unfold s1
    split <;> rfl
  split
  · exact h1
  · intro new
    split
    · next t ht => exact (makeRoom_waves ht).trans h1
    · exact h1

@[simp] theorem hitHint_waves (s : State) (cache word hint : Nat) : (hitHint s cache word hint).waves = s.waves := by
  unfold hitHint
  split <;> rfl

@[simp] theorem gainWord_waves (s : State) (core word hint : Nat) (x : CWord) : (gainWord s core word hint x).waves = s.waves := by
  unfold gainWord
  split
  · rfl
  · exact fillRun_waves _ _ _ _ _ _ _

@[simp] theorem dropHeld_waves (s : State) (cache word : Nat) : (dropHeld s cache word).waves = s.waves := by
  unfold dropHeld
  split
  · rfl
  · dsimp only
    split
    · exact evictBlock_waves _ _
    · rfl

@[simp] theorem restash_waves (s : State) (core : Nat) : (restash s core).waves = s.waves :=
  foldl_waves (fun s w => by
    split
    · rw [fillRun_waves, dropHeld_waves]
    · rfl) _ _

/-! ## The stores that an L1 holds -/

@[simp] theorem downgrade_waves (s : State) (word : Nat) : (downgrade s word).waves = s.waves := by
  unfold downgrade
  dsimp only
  split <;> rfl

@[simp] theorem takeExclusive_waves (s : State) (core word : Nat) : (takeExclusive s core word).waves = s.waves := by
  unfold takeExclusive
  dsimp only
  split <;> rfl

@[simp] theorem answerFor_waves (s : State) (f : Fill) (mine : Nat → Bool) : (answerFor s f mine).waves = s.waves := by
  have hown : ∀ (s : State) (w : Nat), (if mine w then takeExclusive s f.core w else downgrade s w).waves = s.waves := fun s w => by
    split <;> simp
  unfold answerFor
  dsimp only
  rw [fillRun_waves]
  split <;> simp only [fillRun_waves, foldl_waves (fun _ _ => hitHint_waves _ _ _ _), foldl_waves hown]

@[simp] theorem answerFill_waves (s : State) (f : Fill) : (answerFill s f).waves = s.waves := answerFor_waves _ _ _

@[simp] theorem performPend_waves (s : State) (e : Pend) : (performPend s e).waves = s.waves := by
  unfold performPend
  dsimp only
  rw [gainWord_waves]
  refine (takeExclusive_waves _ _ _).trans ?_
  dsimp only
  split
  · rfl
  · exact answerFill_waves _ _

@[simp] theorem performPends_waves (s : State) (core : Nat) (p : Pend → Bool) : (performPends s core p).waves = s.waves :=
  foldl_waves (fun t e => by
    split
    · rfl
    · exact performPend_waves _ _) _ _

@[simp] theorem cleanWord_waves (s : State) (core word : Nat) : (cleanWord s core word).waves = s.waves := by
  unfold cleanWord
  split
  · split <;> rfl
  · rfl

@[simp] theorem drainWord_waves (s : State) (core word : Nat) : (drainWord s core word).waves = s.waves := by
  unfold drainWord
  dsimp only
  split <;> simp

@[simp] theorem drainTile_waves (s : State) (core : Nat) (t : Tenure) : (drainTile s core t).waves = s.waves :=
  (foldl_waves (fun _ _ => drainWord_waves _ _ _) _ _).trans (performPends_waves _ _ _)

@[simp] theorem recallOne_waves (s : State) (t : Tenure) (write : Bool) : (recallOne s t write).waves = s.waves := by
  unfold recallOne
  dsimp only
  split
  · split
    · exact drainTile_waves _ _ _
    · rfl
  · rfl

/-! ## Translations -/

@[simp] theorem fillTlb_waves (s : State) (room : Nat) (t : Tlb) : (fillTlb s room t).waves = s.waves := by
  unfold fillTlb
  dsimp only
  split
  · rfl
  · split <;> rfl

@[simp] theorem rekeyWord_waves (old new : Nat) (s : State) (word : Nat) : (rekeyWord old new s word).waves = s.waves := rfl

@[simp] theorem rekeyPage_waves (s : State) (page new : Nat) : (rekeyPage s page new).waves = s.waves := by
  unfold rekeyPage
  generalize List.range 4096 = l
  dsimp only
  split
  · rfl
  · exact foldl_waves (fun _ _ => rekeyWord_waves _ _ _ _) _ _

@[simp] theorem useKey_waves (s : State) (x : Xl) : (useKey s x).waves = s.waves := by
  unfold useKey
  split
  · rfl
  · exact rekeyPage_waves _ _ _

@[simp] theorem noteStash_waves (s : State) (core ctx vpage ppage : Nat) : (noteStash s core ctx vpage ppage).waves = s.waves := by
  unfold noteStash
  dsimp only
  split
  · exact restash_waves _ _
  · rfl

@[simp] theorem markLeaf_waves (s : State) (core loc e : Nat) : (markLeaf s core loc e).waves = s.waves := by
  unfold markLeaf dropWord recallWord
  simp [foldl_waves]

@[simp] theorem touchLeaf_waves (s : State) (core : Nat) (write : Bool) (x : Xl) : (touchLeaf s core write x).waves = s.waves := by
  unfold touchLeaf
  lift_lets
  intro s1 s2 e want s3
  have h1 : s1.waves = s.waves := by simp [s1]
  have h2 : s2.waves = s.waves := by
    unfold s2
    split
    · exact (foldl_waves (fun _ _ => drainWord_waves _ _ _) _ _).trans h1
    · exact h1
  have h3 : s3.waves = s.waves := by
    unfold s3
    split
    · exact h2
    · exact (markLeaf_waves _ _ _ _).trans h2
  split
  · intro t
    simpa using h3
  · exact h3

/-- ACCESSED and DIRTY set in the leaves of some translations change no wave. -/
@[simp] theorem touchLeaves_waves (s : State) (core : Nat) (write : Bool) (xs : List Xl) : (touchLeaves s core write xs).waves = s.waves :=
  foldl_waves (fun _ _ => touchLeaf_waves _ _ _ _) _ _

end Sys2Proof.WavesKept

/-! # The slot conversions (05 R132 to R139, 06 R173 to R177) -/

namespace Sys2Proof.SlotConversion

open Sys2Proof.Machine Sys2Proof.Machine.Laws

/-! ## A vector instruction that has read memory -/

/-- The wave that a vector instruction leaves before it is counted: its sources used, its results written, its flags raised. -/
def vecWave (c : Issue) (d : Nat) (srcs : List (Nat × Nat)) (adv : Bool) (f : Nat → Word × Sticky) : Wave :=
  ((useV (threads c.mask) srcs (stepSeed adv c.w)).setVs d (threads c.mask) fun t => (f t).1).raise
    (orAll ((threads c.mask).map fun t => (f t).2))

section
variable {s s0 : State} {c : Issue} {i : Instr} {d : Nat} {srcs : List (Nat × Nat)} {used : List Nat} {adv : Bool} {f : Nat → Word × Sticky}

theorem vecWave_eq : vecWave c d srcs adv f = { c.w with
    v := (vecWave c d srcs adv f).v, vBad := (vecWave c d srcs adv f).vBad, vDirty := (vecWave c d srcs adv f).vDirty
    sticky := c.w.sticky ||| allFlags c fun t => (f t).2, seed := if adv then seedStep c.w.seed else c.w.seed } := by
  rw [vecWave, Wave.raise, setVs_eq, useV_eq]
  cases adv <;> rfl

/-- The vector registers of that wave. -/
theorem vecWave_getV (hu : ∀ r, r ∈ used ↔ (r, 1) ∈ srcs) (r th : Nat) (hth : th < 32) :
    if c.mask.getLsbD th ∧ r = d then
      (vecWave c d srcs adv f).getV r th = (f th).1 ∧ get false (vecWave c d srcs adv f).vBad (32 * r + th) = false
    else if c.mask.getLsbD th ∧ r ∈ used then (vecWave c d srcs adv f).getV r th = poisonValue r
    else (vecWave c d srcs adv f).getV r th = c.w.getV r th := by
  have hlt : ∀ t ∈ threads c.mask, t < 32 := fun t ht => lt_of_mem_threads ht
  have hm : th ∈ threads c.mask ↔ c.mask.getLsbD th = true := by simp [mem_threads, hth]
  have hv : (vecWave c d srcs adv f).getV r th = if r = d ∧ th ∈ threads c.mask then (f th).1
      else if th ∈ threads c.mask ∧ (r, 1) ∈ srcs then poisonValue r else c.w.getV r th := by
    refine (getV_setVs _ _ _ _ _ _ hlt hth).trans ?_
    rw [getV_useV _ _ _ _ _ hlt hth]
    cases adv <;> rfl
  have hb : r = d ∧ th ∈ threads c.mask → get false (vecWave c d srcs adv f).vBad (32 * r + th) = false := fun hd =>
    (bad_setVs _ _ _ _ _ _ hlt hth).trans (if_pos hd)
  rw [hv]
  simp only [hm, hu, and_comm (b := r = d)] at hb ⊢
  split
  · next hd => exact ⟨rfl, hb hd⟩
  · split <;> rfl

/-- The spec of a vector instruction that has read memory: as `vec_done`, with the rest of the device as the reads have left it. -/
theorem vecIn_done {fl : Sticky} {seed : Word} {R : Nat → Word → Prop} (h : Runs s c 4) (hw : s0.waves = s.waves)
    (he : exec i s = .next (retire c s0 (vecWave c d srcs adv f) 4)) (hu : ∀ r, r ∈ used ↔ (r, 1) ∈ srcs)
    (hf : fl = allFlags c fun t => (f t).2) (hseed : seed = if adv then seedStep c.w.seed else c.w.seed)
    (hR : ∀ t, t < 32 → c.mask.getLsbD t = true → R t (f t).1) : VecDoneIn i s s0 c 4 d used fl seed R := by
  have hid : (advance c (vecWave c d srcs adv f).count 4).settle.id = c.w.id := by
    rw [settle_id, vecWave_eq]
    rfl
  have hfound : s0.awake.wave? (advance c (vecWave c d srcs adv f).count 4).settle.id = some c.w := by
    rw [hid, State.wave?, State.awake_waves, hw]
    exact issuing_wave h.issues
  rw [retire_eq h.left] at he
  refine ⟨_, (advance c (vecWave c d srcs adv f).count 4).settle, he, ⟨?_, fun j hj => ?_, rfl⟩, ⟨?_, advance_jumped c _ ?_ 4⟩,
    fun r th hth => ?_⟩
  · rw [← hid]
    exact wave?_setWave_same hfound
  · exact wave?_setWave_other (by rw [hid]; exact hj)
  · unfold Moved
    rw [settle_eq, vecWave_eq, hf, hseed]
    rfl
  · rw [vecWave_eq]
  · have hv : (advance c (vecWave c d srcs adv f).count 4).settle.getV r th = (vecWave c d srcs adv f).getV r th := by
      rw [settle_eq]
      rfl
    have hb : (advance c (vecWave c d srcs adv f).count 4).settle.vBad = (vecWave c d srcs adv f).vBad := by
      rw [settle_eq]
      rfl
    have hr := vecWave_getV (c := c) (d := d) (adv := adv) (f := f) hu r th hth
    rw [hv, hb]
    split at hr
    · next hd =>
      rw [if_pos hd, hr.1]
      exact ⟨hR th hth hd.1, hr.2⟩
    · next hd => rwa [if_neg hd]

/-- Where no memory has been read, the rest of the device is as it was. -/
theorem vecDone_of_in {len : Nat} {fl : Sticky} {seed : Word} {R : Nat → Word → Prop} (h : VecDoneIn i s s c len d used fl seed R) :
    VecDone i s c len d used fl seed R := h

/-- An issue once memory has been read retires as the issue itself. -/
theorem retire_at (hl : c.w.left ≠ 0) (s1 : State) (w : Wave) : retire { c with s := s1 } s0 w 4 = retire c s0 w 4 := by
  rw [retire_eq hl, retire_eq (c := { c with s := s1 }) hl]
  rfl

end

/-! ## The slot -/

theorem guarded_of_none {checks : List (Option Flt)} {k : Except Flt State} (h : firstFault checks = none) : guarded checks k = k := by
  rw [guarded, h]

theorem slotFault_none {c : Issue} {n : Nat} {usable : Nat → Bool} (hv : slotValid (slotOfLaunch c.g.launch n) = true)
    (hs : slotSparse (slotOfLaunch c.g.launch n) = 0) (hu : usable (slotElem (slotOfLaunch c.g.launch n)) = true) :
    slotFault c n usable = none := by
  simp [slotFault, faultIf, hv, hs, hu]

/-- A slot without scales holds no codebook. -/
theorem elem_ne_six {x : Nat} (hv : slotValid x = true) (hs : slotScale x = 0) : slotElem x ≠ 6 := by
  intro he
  simp [slotValid, he, hs] at hv

/-- A slot with scales holds a codebook or elements of at most 8 bits. -/
theorem elem_lt_six {x : Nat} (hv : slotValid x = true) (hs : slotScale x = 1) (he : slotElem x ≠ 6) : slotElem x < 6 := by
  simp [slotValid, he, hs] at hv
  omega

theorem elemBox_le (e : Nat) : elemBox e * 4 ≤ 64 := by
  unfold elemBox
  split <;> decide

theorem elemBox_le_of_lt {e : Nat} (he : e < 6) : elemBox e * 4 ≤ 32 := by
  unfold elemBox
  split <;> omega

theorem mapF_lt {w n : Nat} (hw : w * n ≤ 64) (f : Nat → Nat × Sticky) : (mapF w n f).1.toNat < 2 ^ (n * w) := by
  have h := pack_lt w (((List.range n).map f).map (·.1)) (by simpa using hw)
  rwa [List.length_map, List.length_map, List.length_range, Nat.mul_comm] at h

/-! ## Words with a scale byte on top (05 R132) -/

theorem scaled_toNat {p n : Nat} (hp : p < 2 ^ 56) (hn : n < 256) : (BitVec.ofNat 64 (p + n * 2 ^ 56)).toNat = p + n * 2 ^ 56 := by
  rw [BitVec.toNat_ofNat]
  omega

theorem elem_scale {p n : Nat} (hp : p < 2 ^ 56) (hn : n < 256) : elem 8 (BitVec.ofNat 64 (p + n * 2 ^ 56)) 7 = n := by
  rw [elem, scaled_toNat hp hn]
  omega

theorem elem_below_scale {p n w i : Nat} (hp : p < 2 ^ 56) (hn : n < 256) (hw : w * (i + 1) ≤ 56) :
    elem w (BitVec.ofNat 64 (p + n * 2 ^ 56)) i = p / 2 ^ (w * i) % 2 ^ w := by
  have hsplit : 2 ^ 56 = 2 ^ (w * i) * (2 ^ w * 2 ^ (56 - w * (i + 1))) := by
    rw [← Nat.pow_add, ← Nat.pow_add]
    congr 1
    rw [Nat.mul_succ] at hw ⊢
    omega
  rw [elem, scaled_toNat hp hn, hsplit, Nat.mul_left_comm n, Nat.add_mul_div_left _ _ (by positivity), Nat.mul_left_comm n,
    Nat.add_mul_mod_self_left]

/-! ## The scale of a block (05 R136) and the codebook's index (05 R139) -/

theorem blockExp_bounds {e : Nat} {xs : List Machine.Num} {k : Int} (h : blockExp e xs = some k) : -127 ≤ k ∧ k ≤ 127 := by
  unfold blockExp at h
  split at h
  · cases h
  · dsimp only at h
    split at h <;> cases h <;> omega

/-- The scale byte of a block is no NaN. -/
theorem blockExp_byte {e : Nat} {xs : List Machine.Num} {k : Int} (h : blockExp e xs = some k) : (k + 127).toNat < 256 := by
  have := blockExp_bounds h
  omega

/-- The best of some candidates is one of them or the one it began with. -/
theorem foldl_best_lt {n : Nat} (dist : Nat → Nat) (l : List Nat) (hl : ∀ x ∈ l, x < n) (best : Nat × Nat) (hb : best.1 < n) :
    (l.foldl (fun best x => if dist x < best.2 then (x, dist x) else best) best).1 < n := by
  induction l generalizing best with
  | nil => exact hb
  | cons x l ih =>
    refine ih (fun y hy => hl y (List.mem_cons_of_mem _ hy)) _ ?_
    dsimp only
    split
    · exact hl x List.mem_cons_self
    · exact hb

/-- An index of the codebook has 16 bits. The list of candidates is put away before the search is looked at, so that nothing evaluates
it. -/
theorem latticeEncode_lt (table : List Nat) (ys : List Machine.Num) : latticeEncode table ys < 65536 := by
  have hl : ∀ x ∈ List.range 65536, x < 65536 := fun _ => List.mem_range.1
  obtain ⟨f, hf⟩ : ∃ f, f = latticeEncode := ⟨_, rfl⟩
  rw [← hf]
  delta latticeEncode at hf
  generalize List.range 65536 = l at hl hf
  subst hf
  exact foldl_best_lt _ l hl _ (Nat.succ_pos _)

/-! ## The results of vquant in a thread (06 R174 to R176) -/

section
variable {c : Issue} {o : OpS} {x t : Nat} {table : List Nat} {seed : Word}

/-- The inputs of vquant in a thread, as the slot reads them. -/
abbrev quantVals (c : Issue) (o : OpS) (x t : Nat) : List (Machine.Num × Sticky) := (quantIn c o t).map (readFtz f32 (slotFtz x))

/-- The inputs of a thread's block. -/
abbrev blockVals (c : Issue) (o : OpS) (x t : Nat) : List Machine.Num :=
  ((quantBlock c (slotBlock x) t).flatMap (quantVals c o x)).map (·.1)

/-- The inputs of a thread under the block's scale, zeros where it is absent. -/
abbrev scaledVals (c : Issue) (o : OpS) (x : Nat) (k : Int) (u : Nat) : List Machine.Num :=
  if c.mask.getLsbD u then (quantVals c o x u).map fun v => scaleNum v.1 (-k) else List.replicate 4 (.fin false 0 0)

/-- Element i of a thread under the block's scale. -/
abbrev scaledElem (c : Issue) (o : OpS) (x t : Nat) (seed : Word) (k : Int) (i : Nat) : Nat × Sticky :=
  blockElem (slotElem x) (rndOf (slotRnd x)) (slotFtz x) (draw seed t i) k ((quantVals c o x t).getD i (.nan false, 0)).1

theorem quantPlain_eq : quantPlain c o x seed t = mapF (elemBox (slotElem x)) 4 fun k =>
    elemOf (slotElem x) (rndOf (slotRnd x)) (slotSat x) (slotFtz x) (draw seed t k) ((quantIn c o t).getD k 0) := rfl

theorem quantScaled_nan (h : blockExp (slotElem x) (blockVals c o x t) = none) :
    (quantScaled c o x table seed t).1 = BitVec.ofNat 64 (255 * 2 ^ 56) := by
  unfold quantScaled
  simp only [h]

theorem quantScaled_lattice {k : Int} (h : blockExp (slotElem x) (blockVals c o x t) = some k) (he : slotElem x = 6) :
    (quantScaled c o x table seed t).1 = BitVec.ofNat 64
      (latticeEncode table (scaledVals c o x k (t / 2 * 2) ++ scaledVals c o x k (t / 2 * 2 + 1)) + (k + 127).toNat * 2 ^ 56) := by
  unfold quantScaled
  simp only [h, if_pos he]

theorem quantScaled_elems {k : Int} (h : blockExp (slotElem x) (blockVals c o x t) = some k) (he : slotElem x ≠ 6) :
    (quantScaled c o x table seed t).1 = BitVec.ofNat 64
      (packN (elemBox (slotElem x)) ((List.range 4).map fun i => (scaledElem c o x t seed k i).1) + (k + 127).toNat * 2 ^ 56) := by
  unfold quantScaled
  simp only [h, if_neg he]
  rfl

variable (hv : slotValid x = true) (hs : slotScale x = 1)
include hv hs

/-- The word of a block with a scale: its scale byte, and below it either four elements or the codebook's index. -/
theorem quantScaled_parts {k : Int} (h : blockExp (slotElem x) (blockVals c o x t) = some k) :
    let r := (quantScaled c o x table seed t).1
    elem 8 r 7 = (k + 127).toNat ∧
      (slotElem x ≠ 6 → ∀ i < 4, elem (elemBox (slotElem x)) r i = (scaledElem c o x t seed k i).1 % 2 ^ elemBox (slotElem x)) ∧
      (slotElem x = 6 → elem 16 r 0 =
        latticeEncode table (scaledVals c o x k (t / 2 * 2) ++ scaledVals c o x k (t / 2 * 2 + 1)) % 2 ^ 16) := by
  intro r
  have hn := blockExp_byte h
  by_cases he : slotElem x = 6
  · have hr : r = _ := quantScaled_lattice h he
    have hp := latticeEncode_lt table (scaledVals c o x k (t / 2 * 2) ++ scaledVals c o x k (t / 2 * 2 + 1))
    have hp' := hp.trans (show 65536 < 2 ^ 56 by decide)
    rw [hr]
    exact ⟨elem_scale hp' hn, fun hne => absurd he hne, fun _ => by
      rw [elem_below_scale hp' hn (by decide), Nat.mul_zero, Nat.pow_zero, Nat.div_one]⟩
  · have hr : r = _ := quantScaled_elems h he
    have hbox := elemBox_le_of_lt (elem_lt_six hv hs he)
    have hp := (packN_lt (elemBox (slotElem x)) ((List.range 4).map fun i => (scaledElem c o x t seed k i).1)).trans_le
      (Nat.pow_le_pow_right (by decide) (show _ ≤ 56 by rw [List.length_map, List.length_range]; omega))
    rw [hr]
    refine ⟨elem_scale hp hn, fun _ i hi => ?_, fun h6 => absurd h6 he⟩
    have hw : elemBox (slotElem x) * (i + 1) ≤ 56 := (Nat.mul_le_mul_left _ (show i + 1 ≤ 4 from hi)).trans (by omega)
    rw [elem_below_scale hp hn hw, packN_elem _ _ _ (by simpa using hi)]
    simp [List.getD_eq_getElem?_getD, hi]

end

/-! ## What each conversion comes to under a valid dense slot -/

/-- The slot that a conversion names. -/
abbrev slotOf (c : Issue) (o : OpS) : Nat := slotOfLaunch c.g.launch o.slot.toNat

/-- The codebook's entries in the bytes of its table (05 R138). -/
abbrev tableOf (bs : List (BitVec 8)) : List Nat := (List.range 256).map fun i => leNat ((bs.drop (4 * i)).take 4)

section
variable {s : State} {c : Issue} {o : OpS} (h : Runs s c 4) (hca : o.ca ≠ 3) (hdecl : Declared c [o.d.toNat, o.a.toNat, o.b.toNat] [])
  (hclean : Unpoisoned c [o.a.toNat, o.b.toNat] [] []) (hv : slotValid (slotOf c o) = true)
  (hs : slotSparse (slotOf c o) = 0)
include h hca hdecl hclean hv hs

/-- vquant retires with its elements, once the codebook, where the slot has one, has been read. -/
theorem exec_vquant_next {bs : List (BitVec 8)} {xs : List Xl}
    (hread : (if slotElem (slotOf c o) = 6 then
      latticeRead c (slotLattice (slotOf c o)) 1024 c.low else .ok ([], [])) = .ok (bs, xs)) :
    exec (.vquant o) s = .next (retire c (touchLeaves s c.tm.core false xs) (vecWave c o.d.toNat [(o.a.toNat, o.ca.toNat)]
      (slotRnd (slotOf c o) == 5) (if slotScale (slotOf c o) = 1 then quantScaled c o (slotOf c o) (tableOf bs) (seedStep c.w.seed)
        else quantPlain c o (slotOf c o) (seedStep c.w.seed))) 4) := by
  have hok : okCode o.ca = true := bne_iff_ne.2 hca
  have hchecks : firstFault [illegalRegs c [o.d.toNat, o.a.toNat, o.b.toNat] [], slotFault c o.slot.toNat fun _ => true] = none := by
    rw [illegalRegs_none hdecl, slotFault_none hv hs rfl]
    rfl
  have hpoison : firstFault [poisonRegs c [o.a.toNat, o.b.toNat] [] []] = none := by
    rw [poisonRegs_none hclean]
    rfl
  rw [exec_vquant, execVquant, issue_runs h hok]
  simp only [guarded_of_none hchecks, hread, guarded_of_none hpoison, issuing_s h.issues]
  rfl

theorem vdequant_done (he : slotElem (slotOf c o) ≠ 6) :
    let f := fun t k => dequant1 (slotOf c o) (c.w.getV o.a.toNat t) (2 * ((c.w.getV o.b.toNat t).toNat % 2) + k)
    VecDone (.vdequant o) s c 4 o.d.toNat (lastUse [(o.a.toNat, o.ca)]) (allFlags c fun t => elemFlags 2 fun k => (f t k).2) c.w.seed
      fun t r => ∀ k < 2, elem 32 r k = (f t k).1 % 2 ^ 32 := by
  intro f
  have hchecks : firstFault [illegalRegs c [o.d.toNat, o.a.toNat, o.b.toNat] [], slotFault c o.slot.toNat fun e => e != 6] = none := by
    rw [illegalRegs_none hdecl, slotFault_none (usable := fun e => e != 6) hv hs (bne_iff_ne.2 he)]
    rfl
  have hexec := (exec_vdequant o s).trans (issue_runs h (bne_iff_ne.2 hca : okCode o.ca = true) _)
  simp only [guarded_of_none hchecks] at hexec
  refine vec_done h hexec hdecl hclean (lastUse_mem _) ?_ rfl fun t _ _ k hk => ?_
  · simp only [mapF_flags]
    rfl
  · exact elem_mapF _ _ _ k hk (by decide)

theorem vcbdec_done (he : slotElem (slotOf c o) = 6) {es : List (Nat × Nat)} {xs : List Xl}
    (hread : entryReads c o (slotOf c o) (threads c.mask) = .ok (es, xs)) :
    let f := fun t k => convertFp f32 (latticeWeight (Machine.get 0 es t) (elem 16 (c.w.getV o.a.toNat t) 0)
      (elem 8 (c.w.getV o.a.toNat t) 7) (2 * ((c.w.getV o.b.toNat t).toNat % 4) + k)) .rne false
      (slotFtz (slotOf c o)) 0
    VecDoneIn (.vcbdec o) s (touchLeaves s c.tm.core false xs) c 4 o.d.toNat (lastUse [(o.a.toNat, o.ca)])
      (allFlags c fun t => elemFlags 2 fun k => (f t k).2) c.w.seed fun t r => ∀ k < 2, elem 32 r k = (f t k).1 % 2 ^ 32 := by
  intro f
  have hok : okCode o.ca = true := bne_iff_ne.2 hca
  have hchecks : firstFault [illegalRegs c [o.d.toNat, o.a.toNat, o.b.toNat] [], slotFault c o.slot.toNat fun e => e == 6] = none := by
    rw [illegalRegs_none hdecl, slotFault_none (usable := fun e => e == 6) hv hs (beq_iff_eq.2 he)]
    rfl
  have hexec : exec (.vcbdec o) s = .next (retire c (touchLeaves s c.tm.core false xs)
      (vecWave c o.d.toNat [(o.a.toNat, o.ca.toNat)] false fun t => mapF 32 2 (f t)) 4) := by
    rw [exec_vcbdec, execVcbdec, issue_runs h hok]
    simp only [guarded_of_none hchecks, hread]
    rw [vecEff_ok (c := { c with s := touchLeaves c.s c.tm.core false xs }) hdecl hclean]
    simp only [retire_at h.left, issuing_s h.issues]
    rfl
  refine vecIn_done h (WavesKept.touchLeaves_waves _ _ _ _) hexec (lastUse_mem _) ?_ rfl fun t _ _ k hk => ?_
  · simp only [mapF_flags]
  · exact elem_mapF _ _ _ k hk (by decide)

end

/-- Settles O38: each conversion retires with its elements (`exec_vquant_next`, `vdequant_done`, `vcbdec_done`), and the word of a scaled
block holds its scale byte above its elements (`quantScaled_parts`). -/
theorem slotConversionResults : Obligations.SlotConversionResults := by
  intro o s c h hca hdecl hclean x e used rnd next seed ins hv hs
  refine ⟨fun hscale => ?_, fun hscale bs xs hread => ?_, vdequant_done h hca hdecl hclean hv hs, fun he es xs hread =>
    vcbdec_done h hca hdecl hclean hv hs he hread⟩
  · intro f
    have hexec := exec_vquant_next (bs := []) (xs := []) h hca hdecl hclean hv hs (if_neg (elem_ne_six hv hscale))
    rw [if_neg (hscale.trans_ne (by decide) : slotScale (slotOf c o) ≠ 1)] at hexec
    refine vecDone_of_in (vecIn_done h rfl hexec (lastUse_mem _) ?_ ?_ fun t _ _ => ?_)
    · simp only [quantPlain_eq, mapF_flags]
      rfl
    · simp only [beq_iff_eq]
      rfl
    · rw [quantPlain_eq]
      exact ⟨fun k hk => elem_mapF _ _ _ k hk (elemBox_le e), mapF_lt (elemBox_le e) _⟩
  · intro table
    have hread' : (if e = 6 then latticeRead c (slotLattice x) 1024 c.low else .ok ([], [])) = .ok (bs, xs) := by
      by_cases he : e = 6
      · rwa [if_pos he] at hread ⊢
      · rw [if_neg he] at hread ⊢
        rw [hread.1, hread.2]
    have hexec := exec_vquant_next h hca hdecl hclean hv hs hread'
    rw [if_pos (show slotScale (slotOf c o) = 1 from hscale)] at hexec
    refine vecIn_done h (WavesKept.touchLeaves_waves _ _ _ _) hexec (lastUse_mem _) rfl ?_ fun t _ _ => ?_
    · simp only [beq_iff_eq]
      rfl
    · split
      · next hk =>
        rw [quantScaled_nan hk]
        decide
      · next k hk => exact quantScaled_parts hv hscale hk

end Sys2Proof.SlotConversion

/-! # The elements of the integer instructions (06 Tables 06-1 and 06-2)

Each operation of the model against the relation of its row, for every width. -/

namespace Sys2Proof.IntegerElements

open Sys2Proof.Machine Sys2Proof.Machine.Laws Sys2Proof.ShortForms Sys2Proof.ControlTransfer

/-! ## Signed values and their bits -/

section
variable {w : Nat}

theorem toSigned_eq_toInt (w x : Nat) : toSigned w x = (BitVec.ofNat w x).toInt := by
  rw [toSigned, BitVec.toInt_eq_toNat_cond, BitVec.toNat_ofNat]

theorem wrapN_eq_toNat (w : Nat) (i : Int) : wrapN w i = (BitVec.ofInt w i).toNat := (BitVec.toNat_ofInt i).symm

theorem wrapN_lt (w : Nat) (i : Int) : wrapN w i < 2 ^ w := by
  rw [wrapN_eq_toNat]
  exact BitVec.isLt _

theorem coe_wrapN (w : Nat) (i : Int) : (wrapN w i : Int) = i % (2 ^ w : Nat) :=
  Int.toNat_of_nonneg (Int.emod_nonneg _ (by positivity))

theorem toSigned_lt (w x : Nat) : toSigned w x < 2 ^ (w - 1) := by
  rw [toSigned_eq_toInt]
  exact BitVec.toInt_lt

theorem le_toSigned (w x : Nat) : -2 ^ (w - 1) ≤ toSigned w x := by
  rw [toSigned_eq_toInt]
  exact BitVec.le_toInt _

/-- A value within the signed range is what its bits read as. -/
theorem toSigned_wrapN (hw : 0 < w) {i : Int} (hlo : -2 ^ (w - 1) ≤ i) (hhi : i < 2 ^ (w - 1)) : toSigned w (wrapN w i) = i := by
  rw [wrapN_eq_toNat, toSigned_toNat, BitVec.toInt_ofInt_eq_self hw hlo hhi]

end

/-! ## The two-source operations (06 Table 06-1) -/

/-- An operation makes a w-bit value of two of them, and it is what a row of the table says. -/
def Meets (w : Nat) (rel : ElemRel) (f : Nat → Nat → Nat → Nat) : Prop :=
  ∀ a b, a < 2 ^ w → b < 2 ^ w → f w a b < 2 ^ w ∧ rel w a b (f w a b)

section
variable {w : Nat}

theorem addW_meets : Meets w addR addW := fun _ _ _ _ => ⟨Nat.mod_lt _ (by positivity), rfl⟩

theorem subW_meets : Meets w subR subW := fun _ b ha _ => ⟨Nat.mod_lt _ (by positivity), subR_subW b ha⟩

theorem mulW_meets : Meets w mulR mulW := fun _ _ _ _ => ⟨Nat.mod_lt _ (by positivity), rfl⟩

/-- The high half of a signed product is within the signed range. -/
theorem mulhi_bounds (hw : 0 < w) (a b : Nat) :
    -2 ^ (w - 1) ≤ toSigned w a * toSigned w b / (2 ^ w : Nat) ∧ toSigned w a * toSigned w b / (2 ^ w : Nat) < 2 ^ (w - 1) := by
  have hpow : ((2 ^ w : Nat) : Int) = 2 * 2 ^ (w - 1) := by
    rw [← pow_succ', Nat.sub_add_cancel hw]
    exact Nat.cast_pow 2 w
  have hm : (0 : Int) < 2 ^ (w - 1) := by positivity
  have hx := abs_le.2 ⟨le_toSigned w a, (toSigned_lt w a).le⟩
  have hy := abs_le.2 ⟨le_toSigned w b, (toSigned_lt w b).le⟩
  have hxy : |toSigned w a * toSigned w b| ≤ 2 ^ (w - 1) * 2 ^ (w - 1) := by
    rw [abs_mul]
    exact mul_le_mul hx hy (abs_nonneg _) hm.le
  obtain ⟨hlo, hhi⟩ := abs_le.1 hxy
  rw [hpow]
  exact ⟨(Int.le_ediv_iff_mul_le (by positivity)).2 (by nlinarith), Int.ediv_lt_of_lt_mul (by positivity) (by nlinarith)⟩

theorem mulhiS_meets (hw : 0 < w) : Meets w mulhiSR mulhiS := fun a b _ _ =>
  ⟨wrapN_lt _ _, toSigned_wrapN hw (mulhi_bounds hw a b).1 (mulhi_bounds hw a b).2⟩

theorem mulhiU_meets : Meets w mulhiUR mulhiU := fun a b ha hb =>
  ⟨Nat.div_lt_of_lt_mul (Nat.mul_lt_mul_of_lt_of_le ha hb.le (by positivity)), rfl⟩

theorem minS_meets : Meets w minSR minS := fun a b ha hb => by
  unfold minSR minS
  split
  · next h => exact ⟨hb, (min_eq_right h.le).symm⟩
  · next h => exact ⟨ha, (min_eq_left (le_of_not_gt h)).symm⟩

theorem minU_meets : Meets w minUR minU := fun _ _ ha _ => ⟨min_lt_of_left_lt ha, rfl⟩

theorem maxS_meets : Meets w maxSR maxS := fun a b ha hb => by
  unfold maxSR maxS
  split
  · next h => exact ⟨hb, (max_eq_right h.le).symm⟩
  · next h => exact ⟨ha, (max_eq_left (le_of_not_gt h)).symm⟩

theorem maxU_meets : Meets w maxUR maxU := fun _ _ ha hb => ⟨max_lt ha hb, rfl⟩

theorem shlW_meets : Meets w shlR shlW := fun a b _ _ => ⟨Nat.mod_lt _ (by positivity), shlR_shlW w a b⟩

theorem shrU_meets : Meets w shrUR shrU := fun _ b ha _ => ⟨shrU_lt b ha, shrUR_shrU b ha⟩

theorem shrS_eq_sshiftRight (w a b : Nat) : shrS w a b = ((BitVec.ofNat w a).sshiftRight (b % w)).toNat := by
  rw [shrS, wrapN_eq_toNat, toSigned_eq_toInt, BitVec.sshiftRight_eq, Int.shiftRight_eq_div_pow]

theorem shrS_meets : Meets w shrSR shrS := fun a b ha _ => by
  refine ⟨wrapN_lt _ _, fun i hi => ?_⟩
  have hbit : ∀ j, (BitVec.ofNat w a).getLsbD j = a.testBit j := fun j => by
    rw [BitVec.getLsbD, BitVec.toNat_ofNat, Nat.mod_eq_of_lt ha]
  rw [shrS_eq_sshiftRight, BitVec.testBit_toNat, BitVec.getLsbD_sshiftRight, BitVec.msb_eq_getLsbD_last, hbit, hbit,
    decide_eq_false (Nat.not_le.2 hi), Bool.not_false, Bool.true_and, Nat.add_comm i]
  split
  · next h => rw [min_eq_left (Nat.le_sub_one_of_lt h)]
  · next h => rw [min_eq_right (by omega)]

theorem and_meets : Meets w andR fun _ a b => a &&& b := fun _ _ ha _ => ⟨Nat.and_le_left.trans_lt ha, rfl⟩

theorem or_meets : Meets w orR fun _ a b => a ||| b := fun _ _ ha hb => ⟨Nat.or_lt_two_pow ha hb, rfl⟩

theorem xor_meets : Meets w xorR fun _ a b => a ^^^ b := fun _ _ ha hb => ⟨Nat.xor_lt_two_pow ha hb, rfl⟩

end

/-! ## The one-source operations (06 Table 06-2) -/

/-- An operation makes a w-bit value of one, and it is what a row of the table says. -/
def Meets1 (w : Nat) (rel : Nat → Nat → Nat → Prop) (f : Nat → Nat → Nat) : Prop := ∀ a, a < 2 ^ w → f w a < 2 ^ w ∧ rel w a (f w a)

section
variable {w : Nat}

theorem toSigned_of_lt {a : Nat} (ha : a < 2 ^ w) :
    toSigned w a = if 2 * a < 2 ^ w then (a : Int) else a - (2 ^ w : Nat) := by
  rw [toSigned, Nat.mod_eq_of_lt ha]

theorem absW_meets : Meets1 w (fun w a r => (r : Int) = |toSigned w a|) absW := fun a ha => by
  unfold absW
  dsimp only
  rw [toSigned_of_lt ha]
  generalize 2 ^ w = n at ha
  by_cases hneg : 2 * a < n
  · rw [if_pos hneg, if_neg (by omega)]
    exact ⟨ha, (abs_of_nonneg (by omega)).symm⟩
  · rw [if_neg hneg, if_pos (by omega), Nat.mod_eq_of_lt (by omega), abs_of_neg (by omega)]
    omega

theorem negW_meets : Meets1 w (fun w a r => (r + a) % 2 ^ w = 0) negW := fun a ha => by
  refine ⟨Nat.mod_lt _ (by positivity), ?_⟩
  dsimp only
  rw [negW, Nat.mod_eq_of_lt ha, Nat.mod_add_mod, Nat.sub_add_cancel ha.le, Nat.mod_self]

theorem notW_meets : Meets1 w (fun w a r => ∀ i < w, r.testBit i = !a.testBit i) notW := fun a ha => by
  refine ⟨by unfold notW; omega, fun i hi => ?_⟩
  rw [notW, Nat.sub_sub, Nat.add_comm 1, Nat.testBit_two_pow_sub_succ ha, decide_eq_true hi, Bool.true_and]

theorem popcW_meets : Meets1 w (fun w a r => r = ((List.range w).filter fun i => a.testBit i).length) popcW := fun a _ => by
  have hle : popcW w a ≤ w := List.countP_le_length.trans_eq List.length_range
  exact ⟨hle.trans_lt Nat.lt_two_pow_self, List.countP_eq_length_filter⟩

theorem clzW_meets : Meets1 w (fun w a r => r ≤ w ∧ (∀ i < w, w - r ≤ i → a.testBit i = false) ∧
    (r < w → a.testBit (w - r - 1) = true)) clzW := fun a ha => by
  have hle : clzW w a ≤ w := by
    unfold clzW
    split <;> omega
  refine ⟨hle.trans_lt Nat.lt_two_pow_self, hle, ?_⟩
  unfold clzW
  by_cases h0 : a = 0
  · rw [if_pos h0, h0]
    exact ⟨fun i _ _ => Nat.zero_testBit i, fun h => absurd h (lt_irrefl w)⟩
  · have hlog : a.log2 < w := (Nat.log2_lt h0).2 ha
    rw [if_neg h0]
    refine ⟨fun i _ hi => Nat.testBit_lt_two_pow (Nat.lt_log2_self.trans_le (Nat.pow_le_pow_right (by decide) (by omega))), fun _ => ?_⟩
    rw [show w - (w - 1 - a.log2) - 1 = a.log2 by omega]
    exact Nat.testBit_log2 h0

/-- The first n bits of a value in reverse order. -/
def brevFirst (a n : Nat) : Nat := (List.range n).foldl (fun r i => 2 * r + (if a.testBit i then 1 else 0)) 0

theorem brevFirst_succ (a n : Nat) : brevFirst a (n + 1) = 2 * brevFirst a n + (a.testBit n).toNat := by
  rw [brevFirst, List.range_succ, List.foldl_concat, brevFirst]
  cases a.testBit n <;> rfl

theorem brevFirst_lt (a n : Nat) : brevFirst a n < 2 ^ n := by
  induction n with
  | zero => exact Nat.one_pos
  | succ n ih =>
    have := Bool.toNat_le (a.testBit n)
    rw [brevFirst_succ, pow_succ]
    omega

theorem testBit_brevFirst (a n i : Nat) (hi : i < n) : (brevFirst a n).testBit i = a.testBit (n - 1 - i) := by
  induction n generalizing i with
  | zero => cases hi
  | succ n ih =>
    rw [brevFirst_succ]
    cases i with
    | zero => cases h : a.testBit n <;> simp [h, Nat.testBit_zero, Nat.add_mod]
    | succ i =>
      have hhalf : (2 * brevFirst a n + (a.testBit n).toNat) / 2 = brevFirst a n := by
        have := Bool.toNat_le (a.testBit n)
        omega
      rw [Nat.testBit_succ, hhalf, ih i (by omega)]
      congr 1
      omega

theorem brevW_meets : Meets1 w (fun w a r => ∀ i < w, r.testBit i = a.testBit (w - 1 - i)) brevW := fun a _ =>
  ⟨brevFirst_lt a w, testBit_brevFirst a w⟩

end

/-! ## Clamping to a type (05 R119, 06 R152) -/

theorem clampI_val {lo hi : Int} (h : lo ≤ hi) (i : Int) : (clampI lo hi i).1 = clampTo (lo, hi) i := by
  unfold clampI clampTo
  dsimp only
  split
  · next h' => rw [max_eq_left (by omega)]
  · split
    · rw [min_eq_left (by omega), max_eq_right h]
    · rw [min_eq_right (by omega), max_eq_right (by omega)]

theorem clampTo_eq_self_iff {lo hi : Int} (h : lo ≤ hi) (i : Int) : clampTo (lo, hi) i = i ↔ lo ≤ i ∧ i ≤ hi := by
  unfold clampTo
  dsimp only
  omega

theorem clampI_flag {lo hi : Int} (h : lo ≤ hi) (i : Int) :
    (clampI lo hi i).2 = if clampTo (lo, hi) i ≠ i then fSat else 0 := by
  rw [if_congr (not_congr (clampTo_eq_self_iff h i)) rfl rfl]
  unfold clampI
  split
  · rw [if_pos (by omega)]
  · split
    · rw [if_pos (by omega)]
    · rw [if_neg (by omega)]

theorem clampTo_mem {lo hi : Int} (h : lo ≤ hi) (i : Int) : lo ≤ clampTo (lo, hi) i ∧ clampTo (lo, hi) i ≤ hi := by
  unfold clampTo
  dsimp only
  omega

theorem rangeOf_le (sgn : Bool) (w : Nat) : (rangeOf sgn w).1 ≤ (rangeOf sgn w).2 := by
  have h1 := Nat.two_pow_pos (w - 1)
  have h2 := Nat.two_pow_pos w
  cases sgn <;> simp only [rangeOf, Bool.false_eq_true, if_true, if_false] <;> omega

/-- A value within a type's range is what its bits read as. -/
theorem readAs_wrapN {sgn : Bool} {w : Nat} (hw : 0 < w) {i : Int} (hlo : (rangeOf sgn w).1 ≤ i) (hhi : i ≤ (rangeOf sgn w).2) :
    readAs sgn w (wrapN w i) = i := by
  cases sgn with
  | true =>
    simp only [rangeOf, if_true, Nat.cast_pow, Nat.cast_ofNat] at hlo hhi
    exact toSigned_wrapN hw hlo (by omega)
  | false =>
    simp only [rangeOf, Bool.false_eq_true, if_false] at hlo hhi
    rw [readAs, if_neg Bool.false_ne_true, Nat.mod_eq_of_lt (wrapN_lt _ _), coe_wrapN, Int.emod_eq_of_lt hlo (by omega)]

theorem satW_eq (sgn sub : Bool) (w a b : Nat) : satW sgn sub w a b =
    (wrapN w (clampI (rangeOf sgn w).1 (rangeOf sgn w).2 (exactAddSub sgn sub w a b)).1,
      (clampI (rangeOf sgn w).1 (rangeOf sgn w).2 (exactAddSub sgn sub w a b)).2) := by
  cases sgn <;> rfl

/-- A value clamped to a type, as the type reads it. -/
theorem readAs_clamped {sgn : Bool} {w : Nat} (hw : 0 < w) (i : Int) :
    readAs sgn w (wrapN w (clampI (rangeOf sgn w).1 (rangeOf sgn w).2 i).1) = clampTo (rangeOf sgn w) i := by
  have hmem := clampTo_mem (rangeOf_le sgn w) i
  rw [clampI_val (rangeOf_le sgn w)]
  exact readAs_wrapN hw hmem.1 hmem.2

end Sys2Proof.IntegerElements

/-! # What an instruction that retires leaves of its wave

The registers of the wave that `retire` leaves are those of the wave it is given; one lemma for each of the frames in which the statements
speak: registers and predicates, a predicate alone, an accumulator. -/

namespace Sys2Proof.LaneFrames

open Sys2Proof.Machine Sys2Proof.Machine.Laws Sys2Proof.ShortForms

section
variable {s : State} {c : Issue} {i : Instr} {len : Nat} {w : Wave}

theorem retired_getV : (advance c w.count len).settle.getV = w.getV := by rw [settle_eq]; rfl

theorem retired_getS : (advance c w.count len).settle.getS = w.getS := by rw [settle_eq]; rfl

theorem retired_getP : (advance c w.count len).settle.getP = w.getP := by rw [settle_eq]; rfl

theorem retired_getA : (advance c w.count len).settle.getA = w.getA := by rw [settle_eq]; rfl

variable (h : Runs s c len) (he : exec i s = .next (retire c c.s w len))
include h he

theorem regs_done {V : Nat → Nat → Word} {S : Nat → Word} {P : Nat → Nat → Bool}
    (hw : w = { c.w with v := w.v, vBad := w.vBad, vDirty := w.vDirty, s := w.s, sBad := w.sBad, p := w.p })
    (hV : ∀ r th, th < 32 → w.getV r th = V r th) (hS : ∀ r, w.getS r = S r) (hP : ∀ p th, th < 32 → w.getP p th = P p th) :
    RegsDone i s c len V S P := by
  refine ⟨_, _, he, retire_onlyWave h w len (by rw [hw]), ⟨?_, advance_jumped c w (by rw [hw]) len⟩, ?_, ?_, ?_⟩
  · unfold Moved
    rw [settle_eq, hw]
    rfl
  · rwa [retired_getV]
  · rwa [retired_getS]
  · rwa [retired_getP]

theorem pred_done {pd : Nat} {vused sused : List Nat} {fl : Sticky} {f : Nat → Prop}
    (hw : w = { c.w with p := w.p, v := w.v, vBad := w.vBad, vDirty := w.vDirty, s := w.s, sBad := w.sBad, sticky := c.w.sticky ||| fl })
    (hP : ∀ p th, th < 32 → if c.mask.getLsbD th ∧ p = pd then (w.getP p th = true ↔ f th) else w.getP p th = c.w.getP p th)
    (hV : ∀ r th, th < 32 → w.getV r th = if c.mask.getLsbD th ∧ r ∈ vused then poisonValue r else c.w.getV r th)
    (hS : ∀ r, w.getS r = if r ∈ sused then poisonValue r else c.w.getS r) : PredDone i s c len pd vused sused fl f := by
  refine ⟨_, _, he, retire_onlyWave h w len (by rw [hw]), ⟨?_, advance_jumped c w (by rw [hw]) len⟩, ?_, ?_, ?_⟩
  · unfold Moved
    rw [settle_eq, hw]
    rfl
  · rwa [retired_getP]
  · rwa [retired_getV]
  · rwa [retired_getS]

theorem acc_done {d : Nat} {used : List Nat} {fl : Sticky} {R : Nat → BitVec 128 → Prop}
    (hw : w = { c.w with a := w.a, aBad := w.aBad, aDirty := w.aDirty, v := w.v, vBad := w.vBad, vDirty := w.vDirty, sticky := c.w.sticky ||| fl })
    (hA : ∀ r th, th < 32 → if c.mask.getLsbD th ∧ r = d then R th (w.getA r th) else w.getA r th = c.w.getA r th)
    (hV : ∀ r th, th < 32 → w.getV r th = if c.mask.getLsbD th ∧ r ∈ used then poisonValue r else c.w.getV r th) :
    AccDone i s c len d used fl R := by
  refine ⟨_, _, he, retire_onlyWave h w len (by rw [hw]), ⟨?_, advance_jumped c w (by rw [hw]) len⟩, ?_, ?_⟩
  · unfold Moved
    rw [settle_eq, hw]
    rfl
  · rwa [retired_getA]
  · rwa [retired_getV]

end

/-! ## The sources of an instruction, marked last-use or not -/

section
variable {c : Issue} {w : Wave} {th : Nat} (hth : th < 32)
include hth

theorem mem_threads_iff : th ∈ threads c.mask ↔ c.mask.getLsbD th = true := by simp [mem_threads, hth]

/-- Vector sources used in the active threads, as the statements name them. -/
theorem getV_lastUse (srcs : List (Nat × BitVec 2)) (r : Nat) :
    (useV (threads c.mask) (srcs.map fun p => (p.1, p.2.toNat)) w).getV r th =
      if c.mask.getLsbD th ∧ r ∈ lastUse srcs then poisonValue r else w.getV r th := by
  rw [getV_useV _ _ _ _ _ (fun _ => lt_of_mem_threads) hth]
  simp only [mem_threads_iff hth, lastUse_mem]

end

theorem getS_lastUse (srcs : List (Nat × BitVec 2)) (w : Wave) (r : Nat) :
    (useS (srcs.map fun p => (p.1, p.2.toNat)) w).getS r = if r ∈ lastUse srcs then poisonValue r else w.getS r := by
  rw [getS_useS]
  simp only [lastUse_mem]

/-- A destination that an instruction may keep, and reads plain where it does. -/
theorem kept_checked {c : Issue} {keeps : Bool} {d : Nat} (hdecl : Declared c [d] []) (hclean : keeps = true → Unpoisoned c [d] [] []) :
    Declared c (if keeps then [d] else []) [] ∧ Unpoisoned c (if keeps then [d] else []) [] [] := by
  cases keeps with
  | true => exact ⟨hdecl, hclean rfl⟩
  | false => exact ⟨⟨by simp, hdecl.2⟩, unpoisoned_nil⟩

/-! ## Flags that elements raise together -/

theorem foldl_or (l : List Sticky) (x : Sticky) : l.foldl (· ||| ·) x = x ||| orAll l := by
  induction l generalizing x with
  | nil => exact BitVec.or_zero.symm
  | cons y l ih =>
    have hl : orAll (y :: l) = y ||| orAll l := (ih (0#9 ||| y)).trans (by rw [BitVec.zero_or])
    rw [List.foldl_cons, ih, hl, BitVec.or_assoc]

theorem orAll_cons (x : Sticky) (l : List Sticky) : orAll (x :: l) = x ||| orAll l :=
  (foldl_or l (0#9 ||| x)).trans (by rw [BitVec.zero_or])

/-- A flag that each of some elements raises or not is raised where one of them raises it. -/
theorem orAll_if {α : Type} (l : List α) (p : α → Prop) [DecidablePred p] (fl : Sticky) :
    orAll (l.map fun x => if p x then fl else 0) = if l.any fun x => p x then fl else 0 := by
  induction l with
  | nil => rfl
  | cons x l ih =>
    rw [List.map_cons, orAll_cons, ih, List.any_cons]
    by_cases hx : p x <;> by_cases hl : (l.any fun x => decide (p x)) = true <;> simp [hx, hl]

theorem satIfAny_eq (c : Issue) (n : Nat) (p : Nat → Nat → Prop) [∀ t e, Decidable (p t e)] :
    satIfAny c n p = allFlags c fun t => elemFlags n fun e => if p t e then fSat else 0 := by
  have hany : ((threads c.mask).any fun t => (List.range n).any fun e => decide (p t e)) = true ↔
      ∃ t ∈ threads c.mask, ∃ e < n, p t e := by simp
  simp only [allFlags, elemFlags, orAll_if, Bool.decide_eq_true]
  by_cases hex : ∃ t ∈ threads c.mask, ∃ e < n, p t e
  · rw [satIfAny, if_pos hex, if_pos (hany.2 hex)]
  · rw [satIfAny, if_neg hex, if_neg fun h => hex (hany.1 h)]

end Sys2Proof.LaneFrames

/-! # The integer lane instructions (06 R147 to R156) -/

namespace Sys2Proof.IntegerLanes

open Sys2Proof.Machine Sys2Proof.Machine.Laws Sys2Proof.ShortForms Sys2Proof.IntegerElements Sys2Proof.LaneFrames

theorem okCode_of_ne {x : BitVec 2} (h : x ≠ 3) : okCode x = true := bne_iff_ne.2 h

theorem okCodes_of_ne {x y : BitVec 2} (hx : x ≠ 3) (hy : y ≠ 3) : (okCode x && okCode y) = true := by
  rw [okCode_of_ne hx, okCode_of_ne hy, Bool.and_self]

/-! ## Format A -/

section
variable {s : State} {c : Issue} {o : OpA} {i : Instr} (h : Runs s c 4) (hca : o.ca ≠ 3) (hcb : o.cb ≠ 3)
  (hdecl : Declared c [o.d.toNat, o.a.toNat, o.b.toNat] []) (hclean : Unpoisoned c [o.a.toNat, o.b.toNat] [] [])
include h hca hcb hdecl hclean

theorem vec2_done {f : Word → Word → Word × Sticky} {fl : Sticky} {R : Nat → Word → Prop} (he : exec i s = vec2 s o f)
    (hfl : fl = allFlags c fun t => (f (c.w.getV o.a.toNat t) (c.w.getV o.b.toNat t)).2)
    (hR : ∀ t, R t (f (c.w.getV o.a.toNat t) (c.w.getV o.b.toNat t)).1) :
    VecDone i s c 4 o.d.toNat (lastUse [(o.a.toNat, o.ca), (o.b.toNat, o.cb)]) fl c.w.seed R :=
  vec_done h (he.trans (issue_runs h (okCodes_of_ne hca hcb) _)) hdecl hclean (lastUse_mem _) hfl rfl fun t _ _ => hR t

theorem vecInt_done {w : Nat} {rel : ElemRel} {f : Nat → Nat → Nat → Nat} (hm : Meets w rel f) (he : exec i s = vecInt s o w f) :
    VecDone i s c 4 o.d.toNat (lastUse [(o.a.toNat, o.ca), (o.b.toNat, o.cb)]) 0 c.w.seed fun t r => ∀ e < 64 / w,
      rel w (elem w (c.w.getV o.a.toNat t) e) (elem w (c.w.getV o.b.toNat t) e) (elem w r e) :=
  vec2_done h hca hcb hdecl hclean he (allFlags_zero c) fun t e he => by
    obtain ⟨hlt, hrel⟩ := hm _ _ (elem_lt w (c.w.getV o.a.toNat t) e) (elem_lt w (c.w.getV o.b.toNat t) e)
    rwa [elem_map2 w _ _ _ e he, Nat.mod_eq_of_lt hlt]

theorem vecSat_done {sgn sub : Bool} {w : Nat} (hw : 0 < w) (he : exec i s = vecSat s o sgn sub w) :
    let exact := fun t e => exactAddSub sgn sub w (elem w (c.w.getV o.a.toNat t) e) (elem w (c.w.getV o.b.toNat t) e)
    VecDone i s c 4 o.d.toNat (lastUse [(o.a.toNat, o.ca), (o.b.toNat, o.cb)])
      (satIfAny c (64 / w) fun t e => clampTo (rangeOf sgn w) (exact t e) ≠ exact t e) c.w.seed
      fun t r => ∀ e < 64 / w, readAs sgn w (elem w r e) = clampTo (rangeOf sgn w) (exact t e) := by
  intro exact
  refine vec2_done h hca hcb hdecl hclean he ?_ fun t e he => ?_
  · simp only [mapF_flags, satW_eq, clampI_flag (rangeOf_le sgn w)]
    exact satIfAny_eq _ _ _
  · rw [elem_mapF _ _ _ e he (Nat.mul_div_le 64 w), satW_eq, Nat.mod_eq_of_lt (wrapN_lt _ _)]
    exact readAs_clamped hw _

end

/-- Each packed row's instruction is the lane form of an operation that meets the row. -/
theorem intRows_meet (o : OpA) (s : State) :
    ∀ row ∈ intRows o, ∃ f, Meets row.2.1 row.2.2 f ∧ exec row.1 s = vecInt s o row.2.1 f := by
  simp only [intRows, int8Rows, int16x4Rows, int32Rows, int64Rows, List.forall_mem_append, List.forall_mem_cons, List.not_mem_nil,
    false_imp_iff, implies_true, and_true]
  have h32 : 0 < 32 := by decide
  have h64 : 0 < 64 := by decide
  refine ⟨⟨⟨?_, ?_⟩, ?_⟩, ?_⟩
  · exact ⟨⟨_, addW_meets, rfl⟩, ⟨_, subW_meets, rfl⟩, ⟨_, minS_meets, rfl⟩, ⟨_, minU_meets, rfl⟩, ⟨_, maxS_meets, rfl⟩,
      ⟨_, maxU_meets, rfl⟩⟩
  · exact ⟨⟨_, addW_meets, rfl⟩, ⟨_, subW_meets, rfl⟩, ⟨_, minS_meets, rfl⟩, ⟨_, minU_meets, rfl⟩, ⟨_, maxS_meets, rfl⟩,
      ⟨_, maxU_meets, rfl⟩⟩
  · exact ⟨⟨_, addW_meets, rfl⟩, ⟨_, subW_meets, rfl⟩, ⟨_, mulW_meets, rfl⟩, ⟨_, mulhiS_meets h32, rfl⟩, ⟨_, mulhiU_meets, rfl⟩,
      ⟨_, minS_meets, rfl⟩, ⟨_, minU_meets, rfl⟩, ⟨_, maxS_meets, rfl⟩, ⟨_, maxU_meets, rfl⟩, ⟨_, shlW_meets, rfl⟩,
      ⟨_, shrU_meets, rfl⟩, ⟨_, shrS_meets, rfl⟩⟩
  · exact ⟨⟨_, addW_meets, rfl⟩, ⟨_, subW_meets, rfl⟩, ⟨_, mulW_meets, rfl⟩, ⟨_, mulhiS_meets h64, rfl⟩, ⟨_, mulhiU_meets, rfl⟩,
      ⟨_, minS_meets, rfl⟩, ⟨_, minU_meets, rfl⟩, ⟨_, maxS_meets, rfl⟩, ⟨_, maxU_meets, rfl⟩, ⟨_, shlW_meets, rfl⟩,
      ⟨_, shrU_meets, rfl⟩, ⟨_, shrS_meets, rfl⟩⟩

/-- Settles O1: each row is the lane form of an operation that meets it (`intRows_meet`), and a lane form gives each element its own
(`vecInt_done`). -/
theorem packedIntegerResults : Obligations.PackedIntegerResults := by
  intro o s c h hca hcb hdecl hclean row hrow
  obtain ⟨f, hm, he⟩ := intRows_meet o s row hrow
  exact vecInt_done h hca hcb hdecl hclean hm he

theorem satRows_vecSat (o : OpA) (s : State) :
    ∀ row ∈ satRows o, 0 < row.2.2.2 ∧ exec row.1 s = vecSat s o row.2.1 row.2.2.1 row.2.2.2 := by
  simp only [satRows, List.forall_mem_cons, List.not_mem_nil, false_imp_iff, implies_true, and_true]
  refine ⟨⟨?_, rfl⟩, ⟨?_, rfl⟩, ⟨?_, rfl⟩, ⟨?_, rfl⟩, ⟨?_, rfl⟩, ⟨?_, rfl⟩, ⟨?_, rfl⟩, ⟨?_, rfl⟩, ⟨?_, rfl⟩, ⟨?_, rfl⟩, ⟨?_, rfl⟩, ?_, rfl⟩
  all_goals decide

/-- Settles O2: a saturating row clamps the exact value of each element, and raises SAT where that changes it (`vecSat_done`). -/
theorem saturatingResults : Obligations.SaturatingResults := by
  intro o s c h hca hcb hdecl hclean row hrow
  obtain ⟨hw, he⟩ := satRows_vecSat o s row hrow
  exact vecSat_done h hca hcb hdecl hclean hw he

/-! ## Moves and bitwise instructions -/

section
variable {s : State} {c : Issue} {o : OpDA} (h : Runs s c 4) (hca : o.ca ≠ 3)
include h hca

theorem vmov_done (hdecl : Declared c [o.d.toNat, o.a.toNat] []) (hclean : Unpoisoned c [o.a.toNat] [] []) :
    VecDone (.vmov o) s c 4 o.d.toNat (lastUse [(o.a.toNat, o.ca)]) 0 c.w.seed fun t r => r = c.w.getV o.a.toNat t :=
  vec_done h ((exec_vmov o s).trans (issue_runs h (okCode_of_ne hca) _)) hdecl hclean (lastUse_mem _) (allFlags_zero c) rfl fun _ _ _ => rfl

theorem smov_done (hclean : Unpoisoned c [] [o.a.toNat] []) :
    UniDone (.smov o) s c 4 o.d.toNat (lastUse [(o.a.toNat, o.ca)]) fun r => r = c.w.getS o.a.toNat :=
  uni_done h ((exec_smov o s).trans (issue_runs h (okCode_of_ne hca) _)) hclean (lastUse_mem _) rfl

theorem vsplat_done (hdecl : Declared c [o.d.toNat] []) (hclean : Unpoisoned c [] [o.a.toNat] []) :
    RegsDone (.vsplat o) s c 4 (putV c o.d.toNat fun _ => c.w.getS o.a.toNat)
      (putS c o.a.toNat (if o.ca = 1 then poisonValue o.a.toNat else c.w.getS o.a.toNat)) c.w.getP := by
  have hexec := (exec_vsplat o s).trans (issue_runs h (okCode_of_ne hca) _)
  simp only [illegalRegs_none hdecl, poisonRegs_none hclean, guarded, firstFault] at hexec
  refine regs_done h hexec ?_ (fun r th hth => ?_) (fun r => ?_) fun p th _ => ?_
  · rw [setVs_eq, useS_eq]
  · rw [getV_setVs _ _ _ _ _ _ (fun _ => lt_of_mem_threads) hth, useS_eq, putV]
    simp only [mem_threads_iff hth, and_comm (a := r = o.d.toNat)]
    rfl
  · have hs : ((useS [(o.a.toNat, o.ca.toNat)] c.w).setVs o.d.toNat (threads c.mask) fun _ => c.w.getS o.a.toNat).getS r =
        (useS [(o.a.toNat, o.ca.toNat)] c.w).getS r := by
      rw [setVs_eq]
      rfl
    rw [hs, getS_useS, putS]
    by_cases hr : r = o.a.toNat
    · simp [hr, ← BitVec.toNat_inj, eq_comm]
    · simp [hr]
  · rw [setVs_eq, useS_eq]
    rfl

end

/-- Settles O3: the bitwise forms act on the whole register (`vec2_done`); vmov and vsplat copy one (`vmov_done`, `vsplat_done`). -/
theorem bitwiseAndMoveResults : Obligations.BitwiseAndMoveResults := by
  refine ⟨fun o s c h hca hcb hdecl hclean => ?_, fun o s c h hca hdecl hclean => vmov_done h hca hdecl hclean,
    fun o s c h hca hdecl hclean => vsplat_done h hca hdecl hclean⟩
  simp only [bitRows, List.forall_mem_cons, List.not_mem_nil, false_imp_iff, implies_true, and_true]
  refine ⟨vec2_done h hca hcb hdecl hclean (exec_vand o s) (allFlags_zero c) fun t i _ => ?_,
    vec2_done h hca hcb hdecl hclean (exec_vor o s) (allFlags_zero c) fun t i _ => ?_,
    vec2_done h hca hcb hdecl hclean (exec_vxor o s) (allFlags_zero c) fun t i _ => ?_,
    vec2_done h hca hcb hdecl hclean (exec_vandn o s) (allFlags_zero c) fun t i hi => ?_⟩
  · exact BitVec.getLsbD_and
  · exact BitVec.getLsbD_or
  · exact BitVec.getLsbD_xor
  · rw [BitVec.getLsbD_and, BitVec.getLsbD_not, decide_eq_true hi, Bool.true_and]

/-! ## One-source instructions -/

theorem vecUI_done {s : State} {c : Issue} {o : OpUI} {i : Instr} (h : Runs s c 4) (hca : o.ca ≠ 3)
    (hdecl : Declared c [o.d.toNat, o.a.toNat] []) (hclean : Unpoisoned c [o.a.toNat] [] []) {rel : Nat → Nat → Nat → Prop}
    {f : Nat → Nat → Nat} (hm : ∀ w, Meets1 w rel f) (he : exec i s = vecUI s o f) :
    let w := if o.t = 0 then 32 else 64
    VecDone i s c 4 o.d.toNat (lastUse [(o.a.toNat, o.ca)]) 0 c.w.seed
      fun t r => ∀ e < 64 / w, rel w (elem w (c.w.getV o.a.toNat t) e) (elem w r e) := by
  intro w
  refine vec_done h (he.trans (issue_runs h (okCode_of_ne hca) _)) hdecl hclean (lastUse_mem _) (allFlags_zero c) rfl fun t _ _ e he => ?_
  obtain ⟨hlt, hrel⟩ := hm w _ (elem_lt w (c.w.getV o.a.toNat t) e)
  rwa [elem_map1 w _ _ e he, Nat.mod_eq_of_lt hlt]

/-- Settles O7: each operation of Table 06-2 meets its row at every width, and `vecUI_done` gives each element its own. -/
theorem unaryIntegerResults : Obligations.UnaryIntegerResults := by
  intro o s c h hca hdecl hclean w
  simp only [unaryRows, List.forall_mem_cons, List.not_mem_nil, false_imp_iff, implies_true, and_true]
  exact ⟨vecUI_done h hca hdecl hclean (fun _ => absW_meets) (exec_vabs o s), vecUI_done h hca hdecl hclean (fun _ => negW_meets) (exec_vneg o s),
    vecUI_done h hca hdecl hclean (fun _ => notW_meets) (exec_vnot o s), vecUI_done h hca hdecl hclean (fun _ => popcW_meets) (exec_vpopc o s),
    vecUI_done h hca hdecl hclean (fun _ => clzW_meets) (exec_vclz o s), vecUI_done h hca hdecl hclean (fun _ => brevW_meets) (exec_vbrev o s)⟩

/-! ## Uniform instructions -/

theorem uni2_done {s : State} {c : Issue} {o : OpA} {i : Instr} (h : Runs s c 4) (hca : o.ca ≠ 3) (hcb : o.cb ≠ 3)
    (hclean : Unpoisoned c [] [o.a.toNat, o.b.toNat] []) {rel : ElemRel} {f : Nat → Nat → Nat → Nat} (hm : Meets 64 rel f)
    (he : exec i s = uni2 s o f) : UniDone i s c 4 o.d.toNat (lastUse [(o.a.toNat, o.ca), (o.b.toNat, o.cb)])
      fun r => rel 64 (c.w.getS o.a.toNat).toNat (c.w.getS o.b.toNat).toNat r.toNat := by
  refine uni_done h (he.trans (issue_runs h (okCodes_of_ne hca hcb) _)) hclean (lastUse_mem _) ?_
  obtain ⟨hlt, hrel⟩ := hm _ _ (c.w.getS o.a.toNat).isLt (c.w.getS o.b.toNat).isLt
  rwa [BitVec.toNat_ofNat, Nat.mod_eq_of_lt hlt]

theorem uniRows_meet (o : OpA) (s : State) : ∀ row ∈ uniRows o, ∃ f, Meets 64 row.2 f ∧ exec row.1 s = uni2 s o f := by
  have h64 : 0 < 64 := by decide
  simp only [uniRows, List.forall_mem_cons, List.not_mem_nil, false_imp_iff, implies_true, and_true]
  exact ⟨⟨_, addW_meets, rfl⟩, ⟨_, subW_meets, rfl⟩, ⟨_, mulW_meets, rfl⟩, ⟨_, mulhiS_meets h64, rfl⟩, ⟨_, mulhiU_meets, rfl⟩,
    ⟨_, minS_meets, rfl⟩, ⟨_, minU_meets, rfl⟩, ⟨_, maxS_meets, rfl⟩, ⟨_, maxU_meets, rfl⟩, ⟨_, shlW_meets, rfl⟩,
    ⟨_, shrU_meets, rfl⟩, ⟨_, shrS_meets, rfl⟩, ⟨_, and_meets, rfl⟩, ⟨_, or_meets, rfl⟩, ⟨_, xor_meets, rfl⟩⟩

/-- Settles O5: each uniform row is an operation that meets it at 64 bits (`uniRows_meet`, `uni2_done`), and smov a copy (`smov_done`). -/
theorem uniformResults : Obligations.UniformResults := by
  refine ⟨fun o s c h hca hcb hclean row hrow => ?_, fun o s c h hca hclean => smov_done h hca hclean⟩
  obtain ⟨f, hm, he⟩ := uniRows_meet o s row hrow
  exact uni2_done h hca hcb hclean hm he

/-! ## Immediates (06 R155, R156; 04 R104, R105) -/

/-- A sign-extended immediate is its value's bits at the wider width. -/
theorem signExtend_toNat {n : Nat} (w : Nat) (x : BitVec n) : (x.signExtend w).toNat = wrapN w x.toInt := by
  rw [BitVec.signExtend, ← wrapN_eq_toNat]

theorem zeroExtend_toNat {n w : Nat} (hw : n ≤ w) (x : BitVec n) : (x.zeroExtend w).toNat = x.toNat := BitVec.toNat_setWidth_of_le hw

theorem getLsbD_keep16 (lo : Nat) (x : Word) (imm : BitVec 16) (i : Nat) (hi : i < 64) :
    (keep16 lo x imm).getLsbD i = if lo ≤ i ∧ i < lo + 16 then imm.getLsbD (i - lo) else x.getLsbD i := by
  have hmask : ∀ j, (0xFFFF#64).getLsbD j = decide (j < 16) := fun j => by
    have : (0xFFFF#64) = BitVec.setWidth 64 (BitVec.allOnes 16) := rfl
    rw [this, BitVec.getLsbD_setWidth, BitVec.getLsbD_allOnes]
    by_cases hj : j < 16
    · simp [hj, hj.trans (by decide : 16 < 64)]
    · simp [hj]
  simp only [keep16, BitVec.getLsbD_or, BitVec.getLsbD_and, BitVec.getLsbD_not, BitVec.getLsbD_shiftLeft, hmask, BitVec.truncate_eq_setWidth,
    BitVec.getLsbD_setWidth, hi, decide_true, Bool.true_and]
  by_cases hlo : i < lo
  · simp [hlo]
  · by_cases hhi : i < lo + 16
    · simp [hlo, Nat.le_of_not_lt hlo, hhi, show i - lo < 16 by omega, show i - lo < 64 by omega]
    · simp [hlo, hhi, show ¬ i - lo < 16 by omega, BitVec.getLsbD_of_ge imm (i - lo) (by omega)]

section
variable {s : State} {c : Issue} {i : Instr} (h : Runs s c 4)
include h

theorem uniImm_done {o : OpL} {keeps : Bool} {f : Word → BitVec 16 → Word} {R : Word → Prop} (he : exec i s = uniImm s o keeps f)
    (hclean : keeps = true → Unpoisoned c [] [o.d.toNat] []) (hR : R (f (c.w.getS o.d.toNat) o.imm)) :
    UniDone i s c 4 o.d.toNat [] R := by
  have hplain : Unpoisoned c [] (if keeps then [o.d.toNat] else []) [] := by
    cases keeps with
    | true => exact hclean rfl
    | false => exact unpoisoned_nil
  exact uni_done h (he.trans (issue_runs h rfl _)) hplain (by simp) hR

theorem vecImm_done {o : OpL} {keeps : Bool} {f : Word → BitVec 16 → Word} {R : Nat → Word → Prop} (he : exec i s = vecImm s o keeps f)
    (hdecl : Declared c [o.d.toNat] []) (hclean : keeps = true → Unpoisoned c [o.d.toNat] [] [])
    (hR : ∀ t, R t (f (c.w.getV o.d.toNat t) o.imm)) : VecDone i s c 4 o.d.toNat [] 0 c.w.seed R := by
  obtain ⟨hdecl', hclean'⟩ := kept_checked hdecl hclean
  exact vec_done h (he.trans (issue_runs h rfl _)) (declared_append hdecl hdecl') hclean' (by simp) (allFlags_zero c) rfl fun t _ _ => hR t

theorem saddi_done {o : OpI} (hclean : Unpoisoned c [] [o.a.toNat] []) :
    UniDone (.saddi o) s c 4 o.d.toNat [] fun r => r.toNat = ((c.w.getS o.a.toNat).toNat + wrapN 64 o.imm.toInt) % 2 ^ 64 :=
  uni_done h ((exec_saddi o s).trans (issue_runs h rfl _)) hclean (by simp) (by rw [BitVec.toNat_add, signExtend_toNat])

theorem sandi_done {o : OpI} (hclean : Unpoisoned c [] [o.a.toNat] []) :
    UniDone (.sandi o) s c 4 o.d.toNat [] fun r => r.toNat = (c.w.getS o.a.toNat).toNat &&& o.imm.toNat :=
  uni_done h ((exec_sandi o s).trans (issue_runs h rfl _)) hclean (by simp) (by
    rw [BitVec.toNat_and, zeroExtend_toNat (by decide)])

theorem vaddiI32x2_done {o : OpI} (hdecl : Declared c [o.d.toNat, o.a.toNat] []) (hclean : Unpoisoned c [o.a.toNat] [] []) :
    VecDone (.vaddiI32x2 o) s c 4 o.d.toNat [] 0 c.w.seed
      fun t r => ∀ e < 2, elem 32 r e = (elem 32 (c.w.getV o.a.toNat t) e + wrapN 32 o.imm.toInt) % 2 ^ 32 :=
  vec_done h ((exec_vaddiI32x2 o s).trans (issue_runs h rfl _)) hdecl hclean (by simp) (allFlags_zero c) rfl fun t _ _ e he => by
    rw [elem_map1 32 _ _ e he, addW, Nat.mod_mod, signExtend_toNat]

theorem vaddiI64_done {o : OpI} (hdecl : Declared c [o.d.toNat, o.a.toNat] []) (hclean : Unpoisoned c [o.a.toNat] [] []) :
    VecDone (.vaddiI64 o) s c 4 o.d.toNat [] 0 c.w.seed
      fun t r => r.toNat = ((c.w.getV o.a.toNat t).toNat + wrapN 64 o.imm.toInt) % 2 ^ 64 :=
  vec_done h ((exec_vaddiI64 o s).trans (issue_runs h rfl _)) hdecl hclean (by simp) (allFlags_zero c) rfl fun t _ _ => by
    rw [BitVec.toNat_add, signExtend_toNat]

end

/-- Settles O6: the immediates extended (`signExtend_toNat`), and the 16 bits that a keep form replaces (`getLsbD_keep16`). -/
theorem immediateResults : Obligations.ImmediateResults := by
  have hz : ∀ x : BitVec 16, (x.zeroExtend 64).toNat = x.toNat := zeroExtend_toNat (by decide)
  have hs : ∀ x : BitVec 16, (x.signExtend 64).toInt = x.toInt := fun x => BitVec.toInt_signExtend_of_le (by decide)
  refine ⟨fun o s c h => ⟨fun hclean => ⟨saddi_done h hclean, sandi_done h hclean⟩,
    fun hdecl hclean => ⟨vaddiI32x2_done h hdecl hclean, vaddiI64_done h hdecl hclean⟩⟩, fun o s c h => ?_⟩
  simp only [List.forall_mem_cons, List.not_mem_nil, false_imp_iff, implies_true, and_true]
  refine ⟨uniImm_done h (exec_smovz o s) nofun (hz _), uniImm_done h (exec_smovs o s) nofun (hs _), fun hclean => ⟨?_, ?_, ?_⟩, fun hdecl =>
    ⟨vecImm_done h (exec_vmovz o s) hdecl nofun fun _ => hz _, vecImm_done h (exec_vmovs o s) hdecl nofun fun _ => hs _, fun hclean => ⟨?_, ?_, ?_⟩⟩⟩
  · exact uniImm_done h (exec_smovk16 o s) (fun _ => hclean) (getLsbD_keep16 16 _ _)
  · exact uniImm_done h (exec_smovk32 o s) (fun _ => hclean) (getLsbD_keep16 32 _ _)
  · exact uniImm_done h (exec_smovk48 o s) (fun _ => hclean) (getLsbD_keep16 48 _ _)
  · exact vecImm_done h (exec_vmovk16 o s) hdecl (fun _ => hclean) fun _ => getLsbD_keep16 16 _ _
  · exact vecImm_done h (exec_vmovk32 o s) hdecl (fun _ => hclean) fun _ => getLsbD_keep16 32 _ _
  · exact vecImm_done h (exec_vmovk48 o s) hdecl (fun _ => hclean) fun _ => getLsbD_keep16 48 _ _

end Sys2Proof.IntegerLanes

/-! # The floating-point lane instructions (06 R157 to R169) -/

namespace Sys2Proof.FpLanes

open Sys2Proof.Machine Sys2Proof.Machine.Laws Sys2Proof.ShortForms Sys2Proof.SlotConversion Sys2Proof.LaneFrames Sys2Proof.IntegerLanes

section
variable {s : State} {c : Issue} {i : Instr} (h : Runs s c 4)

/-! ## Format A -/

/-- A Format A form that applies a row of the table to the sub-elements of a, b and d, and reads d only where d is its addend. -/
def vecFpRow (s : State) (o : OpA) (F : Fmt) (addend : Bool) (f : Nat → Nat → Nat → Nat × Sticky) : Host.Outcome State Fault Refusal :=
  issue s (okCode o.ca && okCode o.cb) 4 fun c =>
    vecEff c 4 o.d.toNat [(o.a.toNat, o.ca.toNat), (o.b.toNat, o.cb.toNat)] (if addend then [o.d.toNat] else []) false fun t =>
      mapF F.width (64 / F.width) fun e => f (elem F.width (c.w.getV o.a.toNat t) e) (elem F.width (c.w.getV o.b.toNat t) e)
        (elem F.width (c.w.getV o.d.toNat t) e)

theorem fpRows_vecFpRow (o : OpA) (s : State) :
    ∀ table ∈ fpRows o, ∀ row ∈ table.2, exec row.1 s = vecFpRow s o table.1 row.2.1 row.2.2 := by
  simp only [fpRows, fpRowsOf, List.forall_mem_cons, List.not_mem_nil, false_imp_iff, implies_true, and_true]
  and_intros <;> rfl

include h in
theorem vecFpRow_done {o : OpA} {F : Fmt} {addend : Bool} {f : Nat → Nat → Nat → Nat × Sticky} (hca : o.ca ≠ 3) (hcb : o.cb ≠ 3)
    (hdecl : Declared c [o.d.toNat, o.a.toNat, o.b.toNat] []) (hclean : Unpoisoned c [o.a.toNat, o.b.toNat] [] [])
    (hadd : addend = true → Unpoisoned c [o.d.toNat] [] []) (he : exec i s = vecFpRow s o F addend f) :
    let g := fun t e => f (elem F.width (c.w.getV o.a.toNat t) e) (elem F.width (c.w.getV o.b.toNat t) e)
      (elem F.width (c.w.getV o.d.toNat t) e)
    VecDone i s c 4 o.d.toNat (lastUse [(o.a.toNat, o.ca), (o.b.toNat, o.cb)])
      (allFlags c fun t => elemFlags (64 / F.width) fun e => (g t e).2) c.w.seed
      fun t r => ∀ e < 64 / F.width, elem F.width r e = (g t e).1 % 2 ^ F.width := by
  intro g
  have hd : Declared c [o.d.toNat] [] := ⟨fun r hr => hdecl.1 r (by rw [List.mem_singleton.1 hr]; exact List.mem_cons_self), hdecl.2⟩
  obtain ⟨hdecl', hclean'⟩ := kept_checked hd hadd
  refine vec_done h (he.trans (issue_runs h (okCodes_of_ne hca hcb) _)) (declared_append hdecl hdecl') (unpoisoned_append hclean hclean') (lastUse_mem _) ?_ rfl
    fun t _ _ e he => elem_mapF _ _ _ e he (Nat.mul_div_le 64 _)
  simp only [mapF_flags]
  rfl

/-! ## One source -/

theorem fpURows_vecU (o : OpU) (s : State) : ∀ row ∈ fpURows o, exec row.1 s = vecU s o row.2 := by
  simp only [fpURows, List.forall_mem_cons, List.not_mem_nil, false_imp_iff, implies_true, and_true]
  and_intros <;> rfl

include h in
theorem vecU_done {o : OpU} {f : Fmt → Nat → Nat × Sticky} (hca : o.ca ≠ 3) (hdecl : Declared c [o.d.toNat, o.a.toNat] [])
    (hclean : Unpoisoned c [o.a.toNat] [] []) (he : exec i s = vecU s o f) :
    let F := fmtOf o.t
    let g := fun t e => f F (elem F.width (c.w.getV o.a.toNat t) e)
    VecDone i s c 4 o.d.toNat (lastUse [(o.a.toNat, o.ca)]) (allFlags c fun t => elemFlags (64 / F.width) fun e => (g t e).2) c.w.seed
      fun t r => ∀ e < 64 / F.width, elem F.width r e = (g t e).1 % 2 ^ F.width := by
  intro F g
  refine vec_done h (he.trans (issue_runs h (okCode_of_ne hca) _)) hdecl hclean (lastUse_mem _) ?_ rfl
    fun t _ _ e he => elem_mapF _ _ _ e he (Nat.mul_div_le 64 _)
  simp only [mapF_flags]
  rfl

/-! ## Conversions -/

/-- The elements that a conversion makes fit in a register (06 R167). -/
theorem cvt_width_le (ws wd : Nat) : wd * (64 / max ws wd) ≤ 64 :=
  (Nat.mul_le_mul_right _ (le_max_right ws wd)).trans (Nat.mul_div_le 64 _)

include h in
theorem vcvt_done {o : OpC} (hok : okCvt o = true) (hdecl : Declared c [o.d.toNat, o.a.toNat] []) (hclean : Unpoisoned c [o.a.toNat] [] []) :
    let src := cvtTy o.st.toNat
    let dst := cvtTy o.dt.toNat
    let n := 64 / max src.width dst.width
    let rnd := rndOf o.rnd.toNat
    let f := fun t e => cvt1 src dst rnd (o.sat == 1) (draw (seedStep c.w.seed) t e) (elem src.width (c.w.getV o.a.toNat t) e)
    VecDone (.vcvt o) s c 4 o.d.toNat (lastUse [(o.a.toNat, o.ca)]) (allFlags c fun t => elemFlags n fun e => (f t e).2)
      (if rnd = .rs then seedStep c.w.seed else c.w.seed)
      fun t r => (∀ e < n, elem dst.width r e = (f t e).1 % 2 ^ dst.width) ∧ r.toNat < 2 ^ (n * dst.width) := by
  intro src dst n rnd f
  have hfit : dst.width * n ≤ 64 := cvt_width_le _ _
  refine vec_done h ((exec_vcvt o s).trans (issue_runs h hok _)) hdecl hclean (lastUse_mem _) ?_ ?_
    fun t _ _ => ⟨fun e he => elem_mapF _ _ _ e he hfit, mapF_lt hfit _⟩
  · simp only [mapF_flags]
    rfl
  · simp only [beq_iff_eq]
    rfl

/-! ## vsel -/

include h in
theorem vsel_done {o : OpE} (hca : o.ca ≠ 3) (hcb : o.cb ≠ 3) (hdecl : Declared c [o.d.toNat, o.a.toNat, o.b.toNat] [])
    (hclean : Unpoisoned c [o.a.toNat, o.b.toNat] [] []) :
    VecDone (.vsel o) s c 4 o.d.toNat (lastUse [(o.a.toNat, o.ca), (o.b.toNat, o.cb)]) 0 c.w.seed fun t r =>
      (c.w.getP o.p.toNat t = true → r = c.w.getV o.a.toNat t) ∧ (c.w.getP o.p.toNat t = false → r = c.w.getV o.b.toNat t) := by
  refine vec_done h ((exec_vsel o s).trans (issue_runs h (okCodes_of_ne hca hcb) _)) hdecl hclean (lastUse_mem _) (allFlags_zero c) rfl fun t _ _ => ?_
  dsimp only
  constructor <;> intro hp
  · rw [if_pos hp]
  · rw [if_neg (Bool.eq_false_iff.1 hp)]

end

/-- Settles O8: each row is the lane form of its function (`fpRows_vecFpRow`, `vecFpRow_done`). -/
theorem floatingPointResults : Obligations.FloatingPointResults := by
  intro o s c h hca hcb hdecl hclean table htable row hrow hadd
  exact vecFpRow_done h hca hcb hdecl hclean hadd (fpRows_vecFpRow o s table htable row hrow)

/-- Settles O10: each row is the one-source form of its function (`fpURows_vecU`, `vecU_done`). -/
theorem oneSourceResults : Obligations.OneSourceResults := by
  intro o s c h hca hdecl hclean row hrow
  exact vecU_done h hca hdecl hclean (fpURows_vecU o s row hrow)

/-- Settles O11: the elements converted fill no more than a register (`cvt_width_le`), and the bits above them are zero (`mapF_lt`). -/
theorem conversionResults : Obligations.ConversionResults :=
  fun _ _ _ h hok hdecl hclean => vcvt_done h hok hdecl hclean

/-- Settles O13, by the two values of the predicate (`vsel_done`). -/
theorem selectResult : Obligations.SelectResult :=
  fun _ _ _ h hca hcb hdecl hclean => vsel_done h hca hcb hdecl hclean

end Sys2Proof.FpLanes

/-! # Compares and predicate instructions (06 R170, R172) -/

namespace Sys2Proof.Predicates

open Sys2Proof.Machine Sys2Proof.Machine.Laws Sys2Proof.LaneFrames

theorem raise_zero (w : Wave) : w.raise 0 = w := by
  simp [Wave.raise]

section
variable {s : State} {c : Issue} {i : Instr} (h : Runs s c 4)
include h

/-- An instruction that writes a predicate once its sources have been used. -/
theorem setPs_done {w : Wave} {pd : Nat} {vused sused : List Nat} {fl : Sticky} {f : Nat → Bool} {F : Nat → Prop} (hpd : pd ≠ 7)
    (he : exec i s = .next (retire c c.s ((w.setPs pd (threads c.mask) f).raise fl) 4))
    (hw : w = { c.w with v := w.v, vBad := w.vBad, vDirty := w.vDirty, s := w.s, sBad := w.sBad })
    (hV : ∀ r th, th < 32 → w.getV r th = if c.mask.getLsbD th ∧ r ∈ vused then poisonValue r else c.w.getV r th)
    (hS : ∀ r, w.getS r = if r ∈ sused then poisonValue r else c.w.getS r) (hf : ∀ t, f t = true ↔ F t) :
    PredDone i s c 4 pd vused sused fl F := by
  refine pred_done h he ?_ (fun p th hth => ?_) (fun r th hth => ?_) fun r => ?_
  · rw [Wave.raise, setPs_eq, hw]
  · have hp : ((w.setPs pd (threads c.mask) f).raise fl).getP p th = if p = pd ∧ th ∈ threads c.mask then f th else c.w.getP p th := by
      refine (getP_setPs _ _ _ _ _ _ hpd (fun _ => lt_of_mem_threads) hth).trans ?_
      rw [hw]
      rfl
    rw [hp]
    simp only [mem_threads_iff hth, and_comm (a := p = pd)]
    split
    · exact hf th
    · rfl
  · rw [← hV r th hth, Wave.raise, setPs_eq]
    rfl
  · rw [← hS r, Wave.raise, setPs_eq]
    rfl

variable {o : OpP} {cond : Nat} (hok : (okCode o.ca && okPd o.pd && okCmpType cond o.t) = true)

include hok in
omit h in
theorem pd_ne_seven : o.pd.toNat ≠ 7 := by
  simp only [Bool.and_eq_true, okPd, bne_iff_ne] at hok
  exact fun h7 => hok.1.2 (BitVec.eq_of_toNat_eq h7)

include hok in
theorem vecCmp_done (hdecl : Declared c [o.a.toNat, o.b.toNat] []) (hclean : Unpoisoned c [o.a.toNat, o.b.toNat] [] [])
    (he : exec i s = vecCmp s o cond) :
    let f := fun t => cmpWord cond o.t.toNat (c.w.getV o.a.toNat t) (c.w.getV o.b.toNat t)
    PredDone i s c 4 o.pd.toNat (lastUse [(o.a.toNat, o.ca)]) [] (allFlags c fun t => (f t).2) fun t => (f t).1 = true := by
  intro f
  have hexec := he.trans (issue_runs h hok _)
  simp only [illegalRegs_none hdecl, poisonRegs_none hclean, guarded, firstFault] at hexec
  refine setPs_done h (pd_ne_seven hok) hexec ?_ (fun r th hth => getV_lastUse hth [(o.a.toNat, o.ca)] r) (fun r => ?_) fun _ => Iff.rfl
  · rw [useV_eq]
  · rw [useV_eq]
    rfl

include hok in
theorem uniCmp_done (hclean : Unpoisoned c [] [o.a.toNat, o.b.toNat] []) (he : exec i s = uniCmp s o cond) :
    let r := cmpWord cond o.t.toNat (c.w.getS o.a.toNat) (c.w.getS o.b.toNat)
    PredDone i s c 4 o.pd.toNat [] (lastUse [(o.a.toNat, o.ca)]) r.2 fun _ => r.1 = true := by
  intro r
  have hexec := he.trans (issue_runs h hok _)
  simp only [poisonRegs_none hclean, guarded, firstFault] at hexec
  refine setPs_done h (pd_ne_seven hok) hexec ?_ (fun r th hth => ?_) (getS_lastUse [(o.a.toNat, o.ca)] c.w) fun _ => Iff.rfl
  · rw [useS_eq]
  · rw [useS_eq]
    simp only [List.not_mem_nil, and_false, if_false]
    rfl

theorem predOp_done {pd : BitVec 3} {f : Wave → Nat → Bool} {F : Nat → Prop} (hpd : pd ≠ 7) (he : exec i s = predOp s pd f)
    (hf : ∀ t, f c.w t = true ↔ F t) : PredDone i s c 4 pd.toNat [] [] 0 F := by
  have hexec := he.trans (issue_runs h (bne_iff_ne.2 hpd : okPd pd = true) _)
  rw [← raise_zero (c.w.setPs pd.toNat (threads c.mask) fun t => f c.w t)] at hexec
  exact setPs_done h (fun h7 => hpd (BitVec.eq_of_toNat_eq h7)) hexec rfl (by simp) (by simp) hf

end

theorem vcmpRows_vecCmp (o : OpP) (s : State) : ∀ row ∈ vcmpRows o,
    exec row.1 s = vecCmp s o row.2 ∧ legal row.1 = (okCode o.ca && okPd o.pd && okCmpType row.2 o.t) := by
  simp only [vcmpRows, List.forall_mem_cons, List.not_mem_nil, false_imp_iff, implies_true, and_true]
  and_intros <;> rfl

theorem scmpRows_uniCmp (o : OpP) (s : State) : ∀ row ∈ scmpRows o,
    exec row.1 s = uniCmp s o row.2 ∧ legal row.1 = (okCode o.ca && okPd o.pd && okCmpType row.2 o.t) := by
  simp only [scmpRows, List.forall_mem_cons, List.not_mem_nil, false_imp_iff, implies_true, and_true]
  and_intros <;> rfl

theorem predRows_predOp (o : OpPL) (s : State) : ∀ row ∈ predRows o,
    exec row.1 s = predOp s o.pd fun w t => row.2 (w.getP o.pa.toNat t) (w.getP o.pb.toNat t) := by
  simp only [predRows, List.forall_mem_cons, List.not_mem_nil, false_imp_iff, implies_true, and_true]
  and_intros <;> rfl

/-- Settles O12: each compare is the vector or the uniform form of its condition (`vecCmp_done`, `uniCmp_done`), and each predicate
instruction writes its function of the predicates named (`predOp_done`). -/
theorem compareAndPredicateResults : Obligations.CompareAndPredicateResults := by
  refine ⟨fun o s c h => ⟨fun hdecl hclean row hrow hok => ?_, fun hclean row hrow hok => ?_⟩, fun o s c h hpd row hrow => ?_,
    fun o s c h hpd => ⟨?_, ?_⟩⟩
  · obtain ⟨he, hlegal⟩ := vcmpRows_vecCmp o s row hrow
    exact vecCmp_done h (hlegal.symm.trans hok) hdecl hclean he
  · obtain ⟨he, hlegal⟩ := scmpRows_uniCmp o s row hrow
    exact uniCmp_done h (hlegal.symm.trans hok) hclean he
  · exact predOp_done h hpd (predRows_predOp o s row hrow) fun _ => Iff.rfl
  · exact predOp_done h hpd (exec_pnot o s) fun _ => iff_of_eq (Bool.not_eq_true' _)
  · exact predOp_done h hpd (exec_pmov o s) fun _ => Iff.rfl

end Sys2Proof.Predicates

/-! # The accumulator file (06 R178, R179) -/

namespace Sys2Proof.Accumulators

open Sys2Proof.Machine Sys2Proof.Machine.Laws Sys2Proof.ShortForms Sys2Proof.SlotConversion Sys2Proof.IntegerElements Sys2Proof.LaneFrames
  Sys2Proof.IntegerLanes Sys2Proof.Predicates

/-! ## Packed accumulators -/

theorem accElem_accPack {w n : Nat} (hw : w * n ≤ 128) (f : Nat → Nat × Sticky) {j : Nat} (hj : j < n) :
    accElem w (accPack w n f).1 j = (f j).1 % 2 ^ w := by
  have hlen : (((List.range n).map f).map (·.1)).length = n := by simp
  have hlt : packN w (((List.range n).map f).map (·.1)) < 2 ^ 128 :=
    (packN_lt w _).trans_le (Nat.pow_le_pow_right (by decide) (by rwa [hlen]))
  rw [accElem, accPack, BitVec.toNat_ofNat, Nat.mod_eq_of_lt hlt, packN_elem w _ j (by rwa [hlen])]
  simp [List.getD_eq_getElem?_getD, hj]

theorem accPack_flags (w n : Nat) (f : Nat → Nat × Sticky) : (accPack w n f).2 = elemFlags n fun j => (f j).2 := by
  simp [accPack, elemFlags, List.map_map, Function.comp_def]

/-! ## Writes of an accumulator -/

section
variable {s : State} {c : Issue} {i : Instr} (h : Runs s c 4)
include h

/-- An instruction that writes an accumulator once its sources have been used. -/
theorem setAs_done {w : Wave} {d : Nat} {used : List Nat} {fl : Sticky} {f : Nat → BitVec 128} {R : Nat → BitVec 128 → Prop}
    (he : exec i s = .next (retire c c.s ((w.setAs d (threads c.mask) f).raise fl) 4))
    (hw : w = { c.w with v := w.v, vBad := w.vBad, vDirty := w.vDirty })
    (hV : ∀ r th, th < 32 → w.getV r th = if c.mask.getLsbD th ∧ r ∈ used then poisonValue r else c.w.getV r th)
    (hR : ∀ t, R t (f t)) : AccDone i s c 4 d used fl R := by
  refine acc_done h he ?_ (fun r th hth => ?_) fun r th hth => ?_
  · rw [Wave.raise, setAs_eq, hw]
  · have ha : ((w.setAs d (threads c.mask) f).raise fl).getA r th = if r = d ∧ th ∈ threads c.mask then f th else c.w.getA r th := by
      refine (getA_setAs _ _ _ _ _ _ (fun _ => lt_of_mem_threads) hth).trans ?_
      rw [hw]
      rfl
    rw [ha]
    simp only [mem_threads_iff hth, and_comm (a := r = d)]
    split
    · exact hR th
    · rfl
  · rw [← hV r th hth, Wave.raise, setAs_eq]
    rfl

section
variable {o : OpA} (hca : o.ca ≠ 3) (hcb : o.cb ≠ 3) (hd : o.d.toNat < 16) (hdecl : Declared c [o.a.toNat, o.b.toNat] [o.d.toNat])
  (hclean : Unpoisoned c [o.a.toNat, o.b.toNat] [] [])

omit h in
include hca hcb hd in
theorem acc_ok : (okCode o.ca && okCode o.cb && decide (o.d.toNat < 16)) = true := by
  rw [okCodes_of_ne hca hcb, decide_eq_true hd, Bool.and_self]

include hca hcb hd hdecl hclean

theorem amov_done : AccDone (.amov o) s c 4 o.d.toNat (lastUse [(o.a.toNat, o.ca), (o.b.toNat, o.cb)]) 0
    fun t x => x = c.w.getV o.b.toNat t ++ c.w.getV o.a.toNat t := by
  have hexec := (exec_amov o s).trans (issue_runs h (acc_ok hca hcb hd) _)
  simp only [illegalRegs_none hdecl, poisonRegs_none hclean, guarded, firstFault] at hexec
  rw [← raise_zero (Wave.setAs _ _ _ _)] at hexec
  refine setAs_done h hexec ?_ (fun r th hth => getV_lastUse hth [(o.a.toNat, o.ca), (o.b.toNat, o.cb)] r) fun _ => rfl
  rw [useV_eq]

variable (hacc : Unpoisoned c [] [] [o.d.toNat])
include hacc

theorem accEff_done {f : BitVec 128 → Word → Word → BitVec 128 × Sticky} {fl : Sticky} {R : Nat → BitVec 128 → Prop}
    (he : exec i s = accEff s o f)
    (hfl : fl = allFlags c fun t => (f (c.w.getA o.d.toNat t) (c.w.getV o.a.toNat t) (c.w.getV o.b.toNat t)).2)
    (hR : ∀ t, R t (f (c.w.getA o.d.toNat t) (c.w.getV o.a.toNat t) (c.w.getV o.b.toNat t)).1) :
    AccDone i s c 4 o.d.toNat (lastUse [(o.a.toNat, o.ca), (o.b.toNat, o.cb)]) fl R := by
  have hread : Unpoisoned c [o.a.toNat, o.b.toNat] [] [o.d.toNat] :=
    ⟨hclean.1, fun t ht => ⟨(hclean.2 t ht).1, (hacc.2 t ht).2⟩⟩
  have hexec := he.trans (issue_runs h (acc_ok hca hcb hd) _)
  simp only [illegalRegs_none hdecl, poisonRegs_none hread, guarded, firstFault] at hexec
  rw [hfl]
  refine setAs_done h hexec ?_ (fun r th hth => getV_lastUse hth [(o.a.toNat, o.ca), (o.b.toNat, o.cb)] r) hR
  rw [useV_eq]

theorem amadInt_done {sgn : Bool} (he : exec i s = accEff s o (amadInt sgn)) :
    AccDone i s c 4 o.d.toNat (lastUse [(o.a.toNat, o.ca), (o.b.toNat, o.cb)]) 0 fun t x => ∀ j < 4,
      let p := fun k => readAs sgn 8 (elem 8 (c.w.getV o.a.toNat t) k) * readAs sgn 8 (elem 8 (c.w.getV o.b.toNat t) k)
      (accElem 32 x j : Int) = (accElem 32 (c.w.getA o.d.toNat t) j + p (2 * j) + p (2 * j + 1)) % (2 ^ 32 : Nat) := by
  refine accEff_done h hca hcb hd hdecl hclean hacc he ?_ fun t j hj => ?_
  · simp only [amadInt, accPack_flags, elemFlags, orAll_zeros]
    exact allFlags_zero c
  · rw [amadInt, accElem_accPack (by decide) _ hj, Nat.mod_eq_of_lt (wrapN_lt _ _), coe_wrapN]
    rfl

theorem amadFp_done {F G : Fmt} {n : Nat} (hn : G.width * n ≤ 128) (he : exec i s = accEff s o (amadFp F G n)) :
    let a := fun t j => unpack F (elem F.width (c.w.getV o.a.toNat t) j)
    let b := fun t j => unpack F (elem F.width (c.w.getV o.b.toNat t) j)
    let z := fun t j => unpack G (accElem G.width (c.w.getA o.d.toNat t) j)
    let r := fun t j => convertFp G (addNum .rne (z t j) (mulNum (a t j) (b t j)).1).1 .rne false false 0
    AccDone i s c 4 o.d.toNat (lastUse [(o.a.toNat, o.ca), (o.b.toNat, o.cb)])
      (allFlags c fun t => elemFlags n fun j => (r t j).2 ||| sigFlag [a t j, b t j, z t j])
      fun t x => ∀ j < n, accElem G.width x j = (r t j).1 % 2 ^ G.width := by
  intro a b z r
  refine accEff_done h hca hcb hd hdecl hclean hacc he ?_ fun t j hj => accElem_accPack hn _ hj
  simp only [amadFp, accPack_flags]
  rfl

end

theorem azero_done {o : OpD} (hd : o.d.toNat < 16) (hdecl : Declared c [] [o.d.toNat]) :
    AccDone (.azero o) s c 4 o.d.toNat [] 0 fun _ x => x = 0 := by
  have hexec := (exec_azero o s).trans (issue_runs h (decide_eq_true hd) _)
  simp only [illegalRegs_none hdecl, guarded, firstFault] at hexec
  rw [← raise_zero (Wave.setAs _ _ _ _)] at hexec
  exact setAs_done h hexec rfl (by simp) fun _ => rfl

/-! ## Narrowing moves -/

theorem narrow_done {o : OpAD} {f : BitVec 128 → Word × Sticky} {fl : Sticky} {R : Nat → Word → Prop} (ha : o.a.toNat < 16)
    (hdecl : Declared c [o.d.toNat] [o.a.toNat]) (hclean : Unpoisoned c [] [] [o.a.toNat]) (he : exec i s = narrow s o f)
    (hfl : fl = allFlags c fun t => (f (c.w.getA o.a.toNat t)).2) (hR : ∀ t, R t (f (c.w.getA o.a.toNat t)).1) :
    VecDone i s c 4 o.d.toNat [] fl c.w.seed R := by
  have hexec := he.trans (issue_runs h (decide_eq_true ha) _)
  simp only [illegalRegs_none hdecl, poisonRegs_none hclean, guarded, firstFault, issuing_s h.issues] at hexec
  exact vecDone_of_in (vecIn_done (srcs := []) (adv := false) h rfl hexec (by simp) hfl rfl fun t _ _ => hR t)

end

/-- Settles O14: a write of an accumulator leaves the rest of the wave (`setAs_done`), under which each amad form is its function of the
old accumulator and the sources (`amadInt_done`, `amadFp_done`); vnarrow reads one (`narrow_done`). -/
theorem accumulatorResults : Obligations.AccumulatorResults := by
  refine ⟨fun o s c h hca hcb hd hdecl hclean => ⟨amov_done h hca hcb hd hdecl hclean, fun hacc => ⟨?_, ?_, ?_⟩⟩,
    fun o s c h hd hdecl => azero_done h hd hdecl, fun o s c h ha hdecl hclean => ⟨?_, ?_, ?_, ?_⟩⟩
  · simp only [List.forall_mem_cons, List.not_mem_nil, false_imp_iff, implies_true, and_true]
    exact ⟨amadInt_done h hca hcb hd hdecl hclean hacc (exec_amadI8x8 o s), amadInt_done h hca hcb hd hdecl hclean hacc (exec_amadN8x8 o s)⟩
  · simp only [amadFpRows, List.forall_mem_cons, List.not_mem_nil, false_imp_iff, implies_true, and_true]
    exact ⟨amadFp_done h hca hcb hd hdecl hclean hacc (by decide) (exec_amadF16x4 o s),
      amadFp_done h hca hcb hd hdecl hclean hacc (by decide) (exec_amadBf16x4 o s),
      amadFp_done h hca hcb hd hdecl hclean hacc (by decide) (exec_amadF32x2 o s)⟩
  · exact accEff_done h hca hcb hd hdecl hclean hacc (exec_amadF64 o s) rfl fun _ => rfl
  · exact narrow_done h ha hdecl hclean (exec_vnarrowLo o s) (allFlags_zero c) fun _ => rfl
  · exact narrow_done h ha hdecl hclean (exec_vnarrowHi o s) (allFlags_zero c) fun _ => rfl
  · have hrange : (-32768 : Int) ≤ 32767 := by decide
    refine narrow_done h ha hdecl hclean (exec_vnarrowI16x4Sat o s) ?_ fun t j hj => ?_
    · simp only [mapF_flags, clampI_flag hrange]
      exact satIfAny_eq _ _ _
    · obtain ⟨hlo, hhi⟩ := clampTo_mem hrange (toSigned 32 (accElem 32 (c.w.getA o.a.toNat t) j))
      rw [elem_mapF _ _ _ j hj (by decide), Nat.mod_eq_of_lt (wrapN_lt _ _), clampI_val hrange]
      exact toSigned_wrapN (by decide) hlo (by omega)
  · refine narrow_done h ha hdecl hclean (exec_vnarrowF16x4 o s) ?_ fun t j hj => elem_mapF _ _ _ j hj (by decide)
    simp only [mapF_flags]

end Sys2Proof.Accumulators

/-! # Wave queries and the cross-lane instructions (07 R193 to R197, R199) -/

namespace Sys2Proof.CrossLane

open Sys2Proof.Machine Sys2Proof.Machine.Laws Sys2Proof.ShortForms Sys2Proof.LaneFrames

/-! ## The active threads -/

theorem threads_nodup (m : BitVec 32) : (threads m).Nodup := List.nodup_range.filter _

/-- The lowest active thread. -/
theorem low_eq_headD (c : Issue) : c.low = (threads c.mask).headD 0 := by rw [Issue.low, List.headD_eq_head?_getD]

theorem getLsbD_foldl_twoPow (f : Nat → Bool) (i : Nat) (l : List Nat) (m : BitVec 32) :
    (l.foldl (fun m t => if f t then m ||| BitVec.twoPow 32 t else m) m).getLsbD i =
      (m.getLsbD i || (decide (i ∈ l) && decide (i < 32) && f i)) := by
  induction l generalizing m with
  | nil => simp
  | cons t l ih =>
    rw [List.foldl_cons, ih]
    by_cases hi : i = t
    · subst hi
      by_cases h32 : i < 32 <;> cases f i <;> simp [h32, BitVec.getLsbD_twoPow]
    · cases f t <;> simp [hi, Ne.symm hi, BitVec.getLsbD_twoPow]

theorem getLsbD_maskOf (f : Nat → Bool) (i : Nat) : (maskOf f).getLsbD i = (decide (i < 32) && f i) := by
  rw [maskOf, getLsbD_foldl_twoPow]
  simp

/-- A mask of threads as the 64 bits of a register (07 Table 07-4). -/
theorem getLsbD_maskWord (f : Nat → Bool) {i : Nat} (hi : i < 64) :
    ((maskOf f).zeroExtend 64).getLsbD i = (decide (i < 32) && f i) := by
  rw [BitVec.getLsbD_setWidth, decide_eq_true hi, Bool.true_and, getLsbD_maskOf]

/-! ## Instructions that write registers and predicates -/

section
variable {s : State} {c : Issue} {i : Instr} {len : Nat}

theorem getV_setVs_threads (w : Wave) (d : Nat) (f : Nat → Word) (r : Nat) {th : Nat} (hth : th < 32) :
    (w.setVs d (threads c.mask) f).getV r th = if c.mask.getLsbD th ∧ r = d then f th else w.getV r th := by
  rw [getV_setVs _ _ _ _ _ _ (fun _ => lt_of_mem_threads) hth]
  simp only [mem_threads_iff hth, and_comm]

/-- A vector instruction that leaves no source poisoned and raises no flag writes its destination only. -/
theorem regsDone_of_vecDone {d : Nat} {f : Nat → Word} (h : VecDone i s c len d [] 0 c.w.seed fun t r => r = f t) :
    RegsDone i s c len (putV c d f) c.w.getS c.w.getP := by
  obtain ⟨t, w, he, hother, ⟨hmoved, hjumped⟩, hregs⟩ := h
  unfold Moved at hmoved
  refine ⟨t, w, he, hother, ⟨?_, hjumped⟩, fun r th hth => ?_, ?_, ?_⟩
  · unfold Moved
    rw [hmoved]
    simp
  · have hr := hregs r th hth
    simp only [List.not_mem_nil, and_false, if_false] at hr
    rw [putV]
    split at hr
    · next hd => rw [if_pos hd, hr.1]
    · next hd => rw [if_neg hd, hr]
  all_goals
    intros
    rw [hmoved]
    rfl

variable (h : Runs s c len)
include h

/-- One predicate written in the active threads, after writes of vector registers. -/
theorem setPs_regsDone {w : Wave} {p : Nat} {f : Nat → Bool} {V : Nat → Nat → Word} (hp : p ≠ 7)
    (he : exec i s = .next (retire c c.s (w.setPs p (threads c.mask) f) len))
    (hw : w = { c.w with v := w.v, vBad := w.vBad, vDirty := w.vDirty }) (hV : ∀ r th, th < 32 → w.getV r th = V r th) :
    RegsDone i s c len V c.w.getS (putP c p f) := by
  refine regs_done h he ?_ (fun r th hth => ?_) (fun r => ?_) fun q th hth => ?_
  · rw [setPs_eq, hw]
  · rw [← hV r th hth, setPs_eq]
    rfl
  · rw [setPs_eq, hw]
    rfl
  · rw [getP_setPs _ _ _ _ _ _ hp (fun _ => lt_of_mem_threads) hth, putP, hw]
    simp only [mem_threads_iff hth, and_comm]
    rfl

/-- One vector register and one predicate written in the active threads. -/
theorem setVs_setPs_regsDone {d p : Nat} {f : Nat → Word} {g : Nat → Bool} (hp : p ≠ 7)
    (he : exec i s = .next (retire c c.s ((c.w.setVs d (threads c.mask) f).setPs p (threads c.mask) g) len)) :
    RegsDone i s c len (putV c d f) c.w.getS (putP c p g) :=
  setPs_regsDone h hp he (setVs_eq _ _ _ _) fun r _ hth => getV_setVs_threads c.w d f r hth

theorem setS_regsDone {d : Nat} {x : Word} (he : exec i s = .next (retire c c.s (c.w.setS d x) len)) :
    RegsDone i s c len c.w.getV (putS c d x) c.w.getP :=
  regs_done h he rfl (fun _ _ _ => rfl) (fun r => getS_setS c.w d r x) fun _ _ _ => rfl

end

theorem toNat_ne_seven {p : BitVec 3} (hp : p ≠ 7) : p.toNat ≠ 7 := fun h7 => hp (BitVec.eq_of_toNat_eq h7)

theorem okPd_of_ne {p : BitVec 3} (hp : p ≠ 7) : okPd p = true := bne_iff_ne.2 hp

/-! ## Shuffle and broadcast (07 R194, R195) -/

theorem elem_shuffleVal (m : BitVec 32) (w : Nat) (a : Nat → Word) (b old : Word) {e : Nat} (he : e < 64 / w) :
    let src := shuffleSpec (64 / w) (elem w b e)
    elem w (shuffleVal m w a b old) e = if m.getLsbD src.1 then elem w (a src.1) src.2 else elem w old e := by
  intro src
  rw [shuffleVal, elem_pack w _ e (by simpa using he) (by simpa using Nat.mul_div_le 64 w)]
  simp only [List.getD_eq_getElem?_getD, List.getElem?_map, List.getElem?_range he, Option.map_some, Option.getD_some]
  refine Nat.mod_eq_of_lt ?_
  split <;> exact elem_lt _ _ _

section
variable {s : State} {c : Issue} {o : OpX} {i : Instr} (h : Runs s c 4) (hp : o.p ≠ 7)
include h hp

theorem shuffle_done {w : Nat} (hdecl : Declared c [o.d.toNat, o.a.toNat, o.b.toNat] [])
    (hclean : Unpoisoned c [o.a.toNat, o.b.toNat, o.d.toNat] [] []) (he : exec i s = shuffle s o w) :
    RegsDone i s c 4
      (putV c o.d.toNat fun t => shuffleVal c.mask w (c.w.getV o.a.toNat) (c.w.getV o.b.toNat t) (c.w.getV o.d.toNat t)) c.w.getS
      (putP c o.p.toNat fun t => shuffleValid c.mask w (c.w.getV o.b.toNat t)) := by
  have hexec := he.trans (issue_runs h (okPd_of_ne hp) _)
  simp only [illegalRegs_none hdecl, poisonRegs_none hclean, guarded, firstFault] at hexec
  exact setVs_setPs_regsDone h (toNat_ne_seven hp) hexec

theorem vbcast_done (hdecl : Declared c [o.d.toNat, o.a.toNat] []) (hclean : Unpoisoned c [o.a.toNat] [o.b.toNat] []) :
    let src := (c.w.getS o.b.toNat).toNat % 32
    RegsDone (.vbcast o) s c 4
      (putV c o.d.toNat fun t => if c.mask.getLsbD src then c.w.getV o.a.toNat src else c.w.getV o.d.toNat t) c.w.getS
      (putP c o.p.toNat fun _ => c.mask.getLsbD src) := by
  intro src
  have hexec := (exec_vbcast o s).trans (issue_runs h (okPd_of_ne hp) _)
  simp only [illegalRegs_none hdecl, poisonRegs_none hclean, guarded, firstFault] at hexec
  refine setPs_regsDone h (toNat_ne_seven hp) hexec ?_ fun r th hth => ?_
  · split
    · rw [setVs_eq]
    · rfl
  · rw [putV]
    by_cases hsrc : c.mask.getLsbD src = true
    · rw [if_pos hsrc, if_pos hsrc, getV_setVs_threads _ _ _ _ hth]
    · rw [if_neg hsrc, if_neg hsrc]
      split
      · next hd => rw [hd.2]
      · rfl

end

theorem shuffleRows_shuffle (o : OpX) (s : State) : ∀ row ∈ shuffleRows o, exec row.1 s = shuffle s o row.2 := by
  simp only [shuffleRows, List.forall_mem_cons, List.not_mem_nil, false_imp_iff, implies_true, and_true]
  exact ⟨exec_vshflN64 o s, exec_vshflN32x2 o s, exec_vshflN16x4 o s, exec_vshflN8x8 o s⟩

/-- Settles O15: a shuffle writes the register put together from its specs (`shuffle_done`), whose sub-elements are those that they name
(`elem_shuffleVal`); a broadcast writes one thread's value or nothing (`vbcast_done`). -/
theorem shuffleResults : Obligations.ShuffleResults := by
  intro o s c h hp
  refine ⟨fun hdecl hclean row hrow => ?_, fun hdecl hclean => vbcast_done h hp hdecl hclean⟩
  exact ⟨_, fun t _ e he => elem_shuffleVal _ _ _ _ _ he, shuffle_done h hp hdecl hclean (shuffleRows_shuffle o s row hrow)⟩

/-! ## Wave queries (07 R193) -/

theorem activeLanes_eq (good : BitVec 17) : activeLanes good = min 16 ((List.range 17).filter fun i => good.getLsbD i).length := by
  rw [activeLanes, popcW, List.countP_eq_length_filter]
  rfl

section
variable {s : State} {c : Issue} {i : Instr} (h : Runs s c 4)
include h

theorem good_eq_laneGood : c.good = laneGood s c.tm.core (quadrantOf c.w.w) := by rw [Issue.good, issuing_s h.issues]

theorem query_done {o : OpD} {f : Issue → Nat → Nat} {R : Nat → Word → Prop} (he : exec i s = query s o.d f)
    (hdecl : Declared c [o.d.toNat] []) (hR : ∀ t, R t (BitVec.ofNat 64 (f c t))) : VecDone i s c 4 o.d.toNat [] 0 c.w.seed R :=
  vec_done h (he.trans (issue_runs h rfl _)) hdecl unpoisoned_nil (by simp) (allFlags_zero c) rfl fun t _ _ => hR t

/-! ## Votes, ballots, matches (07 R196) -/

theorem vballot_done (o : OpBal) : RegsDone (.vballot o) s c 4 c.w.getV
    (putS c o.d.toNat ((maskOf fun t => c.mask.getLsbD t && c.w.getP o.p.toNat t).zeroExtend 64)) c.w.getP :=
  setS_regsDone h ((exec_vballot o s).trans (issue_runs h rfl _))

theorem vote_done {o : OpVote} {f : List Nat → (Nat → Bool) → Bool} (hp : o.p ≠ 7) (he : exec i s = vote s o f) :
    RegsDone i s c 4 c.w.getV c.w.getS (putP c o.p.toNat fun _ => f (threads c.mask) (c.w.getP o.pa.toNat)) :=
  setPs_regsDone h (toNat_ne_seven hp) (he.trans (issue_runs h (okPd_of_ne hp) _)) rfl fun _ _ _ => rfl

theorem vuni_done {o : OpUni} (hp : o.p ≠ 7) (hdecl : Declared c [o.a.toNat] []) (hclean : Unpoisoned c [o.a.toNat] [] []) :
    RegsDone (.vuni o) s c 4 c.w.getV c.w.getS
      (putP c o.p.toNat fun _ => (threads c.mask).all fun t => c.w.getV o.a.toNat t == c.w.getV o.a.toNat c.low) := by
  have hexec := (exec_vuni o s).trans (issue_runs h (okPd_of_ne hp) _)
  simp only [illegalRegs_none hdecl, poisonRegs_none hclean, guarded, firstFault] at hexec
  exact setPs_regsDone h (toNat_ne_seven hp) hexec rfl fun _ _ _ => rfl

section
variable {o : OpAD} (ha : Declared c [o.a.toNat] []) (hclean : Unpoisoned c [o.a.toNat] [] [])
include ha hclean

theorem vmatch_done (hd : Declared c [o.d.toNat] []) : RegsDone (.vmatch o) s c 4
    (putV c o.d.toNat fun t =>
      (maskOf fun u => c.mask.getLsbD u && c.w.getV o.a.toNat u == c.w.getV o.a.toNat t).zeroExtend 64) c.w.getS c.w.getP :=
  regsDone_of_vecDone <| vec_done (srcs := [(o.a.toNat, 0)]) h ((exec_vmatch o s).trans (issue_runs h rfl _)) (declared_append hd ha)
    hclean (by simp) (allFlags_zero c) rfl fun _ _ _ => rfl

theorem vrdfirst_done : RegsDone (.vrdfirst o) s c 4 c.w.getV (putS c o.d.toNat (c.w.getV o.a.toNat c.low)) c.w.getP := by
  have hexec := (exec_vrdfirst o s).trans (issue_runs h rfl _)
  simp only [illegalRegs_none ha, poisonRegs_none hclean, guarded, firstFault] at hexec
  exact setS_regsDone h hexec

end

end

/-- The comparison with the first value decides whether all are alike. -/
theorem all_eq_head_iff {α β : Type} [DecidableEq β] (l : List α) (x : α) (f : α → β) :
    (l.all fun t => f t == f (l.headD x)) = true ↔ ∀ t ∈ l, ∀ t' ∈ l, f t = f t' := by
  simp only [List.all_eq_true, beq_iff_eq]
  cases l with
  | nil => simp
  | cons y l => exact ⟨fun hy t ht t' ht' => (hy t ht).trans (hy t' ht').symm, fun hall t ht => hall t ht y List.mem_cons_self⟩

/-! ## Compact (07 R197) -/

/-- Writes of the values of `ls` to the threads of `us`, in their order. -/
theorem getV_packed (d : Nat) (x : Nat → Word) (us ls : List Nat) (hnodup : us.Nodup) (hus : ∀ u ∈ us, u < 32) (w : Wave) (r : Nat)
    {th : Nat} (hth : th < 32) :
    ((us.zip ls).foldl (fun w p => w.setV d p.1 (x p.2)) w).getV r th =
      if th ∈ us ∧ r = d then (ls[us.idxOf th]?.map x).getD (w.getV r th) else w.getV r th := by
  induction us generalizing ls w with
  | nil => simp
  | cons u us ih =>
    cases ls with
    | nil => simp
    | cons l ls =>
      obtain ⟨hu, hnodup⟩ := List.nodup_cons.1 hnodup
      rw [List.zip_cons_cons, List.foldl_cons, ih ls hnodup (fun v hv => hus v (List.mem_cons_of_mem _ hv)),
        getV_setV _ _ _ _ _ _ (hus u List.mem_cons_self) hth]
      by_cases ht : th = u
      · subst ht
        simp [hu]
      · simp [ht, List.idxOf_cons_ne _ (Ne.symm ht)]

theorem packed_eq (d : Nat) (x : Nat → Word) (l : List (Nat × Nat)) (w : Wave) :
    let w' := l.foldl (fun w p => w.setV d p.1 (x p.2)) w
    w' = { w with v := w'.v, vBad := w'.vBad, vDirty := w'.vDirty } := by
  induction l generalizing w with
  | nil => rfl
  | cons p l ih =>
    intro w'
    rw [show w' = l.foldl (fun w p => w.setV d p.1 (x p.2)) (w.setV d p.1 (x p.2)) from rfl, ih]
    rfl

theorem vcompact_done {s : State} {c : Issue} {o : OpCmp} (h : Runs s c 4) (hdecl : Declared c [o.d.toNat, o.a.toNat] [])
    (hclean : Unpoisoned c [o.a.toNat] [] []) :
    let us := threads c.mask
    let ls := us.filter fun t => c.w.getP o.p.toNat t
    RegsDone (.vcompact o) s c 4
      (putV c o.d.toNat fun t => (ls[us.idxOf t]?.map (c.w.getV o.a.toNat)).getD (c.w.getV o.d.toNat t)) c.w.getS c.w.getP := by
  intro us ls
  have hexec := (exec_vcompact o s).trans (issue_runs h rfl _)
  simp only [illegalRegs_none hdecl, poisonRegs_none hclean, guarded, firstFault] at hexec
  have hkept := packed_eq o.d.toNat (c.w.getV o.a.toNat) (us.zip ls) c.w
  refine regs_done h hexec ?_ (fun r th hth => ?_) (fun r => ?_) fun p th _ => ?_
  · rw [hkept]
  · rw [getV_packed _ _ _ _ (threads_nodup _) (fun _ => lt_of_mem_threads) _ _ hth, putV]
    simp only [mem_threads_iff hth]
    split
    · next hd => rw [hd.2]
    · rfl
  · rw [hkept]
    rfl
  · rw [hkept]
    rfl

/-- Settles O16: a query writes its value (`query_done`), with g the good lanes counted (`activeLanes_eq`); a vote or uniformity test
writes one predicate and a ballot or first value one uniform register; vmatch writes each thread's mask, and vcompact its threads in
order (`getV_packed`). -/
theorem queryAndVoteResults : Obligations.QueryAndVoteResults := by
  refine ⟨fun o s c h hdecl => ?_, fun o s c h => ⟨_, fun i hi => ?_, vballot_done h o⟩,
    fun o s c h hp => ⟨vote_done h hp (exec_vall o s), vote_done h hp (exec_vany o s)⟩,
    fun o s c h hp hdecl hclean => ⟨_, ?_, vuni_done h hp hdecl hclean⟩,
    fun o s c h ha hclean => ⟨fun hd => ⟨_, fun t _ i hi => ?_, vmatch_done h ha hclean hd⟩, ?_⟩,
    fun o s c h hdecl hclean => ?_⟩
  · intro good g
    have hgood : c.good = good := good_eq_laneGood h
    have hg : activeLanes c.good = g := by rw [hgood, activeLanes_eq]
    exact ⟨query_done h (exec_vlanes o s) hdecl fun _ => by rw [hg], query_done h (exec_vpasses o s) hdecl fun _ => by rw [hg, passesOf],
      query_done h (exec_vtid o s) hdecl fun _ => rfl, query_done h (exec_vlanemap o s) hdecl fun _ => by
        rw [hgood, BitVec.toNat_ofNat, Nat.mod_eq_of_lt (good.isLt.trans (by decide))]⟩
  · rw [getLsbD_maskWord _ hi, Bool.and_assoc]
  · rw [low_eq_headD]
    exact all_eq_head_iff _ _ _
  · rw [getLsbD_maskWord _ hi, Bool.and_assoc, beq_eq_decide]
  · rw [← low_eq_headD]
    exact vrdfirst_done h ha hclean
  · have hdone := vcompact_done h hdecl hclean
    dsimp only at hdone ⊢
    convert hdone using 3 with t
    split
    · next l hl => rw [hl, Option.map_some, Option.getD_some]
    · next hl => rw [hl, Option.map_none, Option.getD_none]

/-! ## Top-k (07 R199) -/

theorem pd_ne_seven_of_okTopk {o : OpK} (hok : okTopk o = true) : o.pd ≠ 7 := by
  simp only [okTopk, okPd, Bool.and_eq_true, bne_iff_ne] at hok
  obtain ⟨⟨⟨-, hpd⟩, -⟩, -⟩ := hok
  exact hpd

/-- Settles O19: the ranks of `rankOf` are those of the statement, written with the predicate that marks the k best
(`setVs_setPs_regsDone`). -/
theorem topKResult : Obligations.TopKResult := by
  intro o s c h hok hdecl hclean above rank
  have hexec := (exec_vtopk o s).trans (issue_runs h hok _)
  simp only [illegalRegs_none hdecl, poisonRegs_none hclean, guarded, firstFault] at hexec
  exact setVs_setPs_regsDone h (toNat_ne_seven (pd_ne_seven_of_okTopk hok)) hexec

end Sys2Proof.CrossLane

/-! # What the caches, the translations and the engines leave of the device

An access of memory changes no operation in flight, no cluster and no wave, and of a team at most what its scratchpad holds and the pages
that its mappings have touched. As in `WavesKept`, one lemma for each operation of the caches; here on everything that the matrix
instructions read again after it. -/

namespace Sys2Proof.FramesKept

open Sys2Proof.Machine

/-- What stands outside the caches: waves, teams, operations in flight, clusters and the number of the next operation. -/
structure Frame where
  waves : List Wave
  teams : List Team
  ops : List Op
  clusters : List Cluster
  nextId : Nat

/-- The frame of a state. -/
def frameOf (s : State) : Frame := ⟨s.waves, s.teams, s.ops, s.clusters, s.nextId⟩

/-- A team without the bytes of its scratchpad and the pages that its mappings have touched. -/
def outlineTeam (t : Team) : Team :=
  { t with sp := [], spDirty := [], spBad := [], stash := t.stash.map fun m => { m with pages := [] } }

/-- A frame with its teams in outline. -/
def Frame.outline (f : Frame) : Frame := { f with teams := f.teams.map outlineTeam }

/-- The frame of a state with its teams in outline. -/
def outlineOf (s : State) : Frame := (frameOf s).outline

/-- Steps that keep a part of the state, one after another. -/
theorem foldl_keeps {α β : Type} {π : State → β} {f : State → α → State} (hf : ∀ s x, π (f s x) = π s) (l : List α) (s : State) :
    π (l.foldl f s) = π s := by
  induction l generalizing s with
  | nil => rfl
  | cons x l ih => rw [List.foldl_cons, ih, hf]

theorem frameOf_congr {s t : State} (hwaves : t.waves = s.waves) (hteams : t.teams = s.teams) (hops : t.ops = s.ops)
    (hclusters : t.clusters = s.clusters) (hnext : t.nextId = s.nextId) : frameOf t = frameOf s := by
  rw [frameOf, hwaves, hteams, hops, hclusters, hnext, frameOf]

theorem outlineOf_of_frameOf {s t : State} (h : frameOf t = frameOf s) : outlineOf t = outlineOf s := congrArg Frame.outline h

/-! ## The blocks of a cache -/

@[simp] theorem frameOf_commitWord (s : State) (word : Nat) (bytes : List (Nat × BitVec 8)) (mk : Mark) :
    frameOf (commitWord s word bytes mk) = frameOf s := rfl

@[simp] theorem frameOf_setHeld (s : State) (cache word : Nat) (x : CWord) : frameOf (s.setHeld cache word x) = frameOf s := rfl

@[simp] theorem frameOf_writeBackWord (s : State) (word : Nat) : frameOf (writeBackWord s word) = frameOf s := rfl

@[simp] theorem frameOf_leaveWord (s : State) (cache word : Nat) (x : CWord) : frameOf (leaveWord s cache word x) = frameOf s := by
  unfold leaveWord
  split
  · split <;> rfl
  · split <;> rfl
  · rfl

@[simp] theorem frameOf_evictBlock (s : State) (b : CBlock) : frameOf (evictBlock s b) = frameOf s :=
  foldl_keeps (π := frameOf) (fun _ _ => frameOf_leaveWord _ _ _ _) _ _

theorem frameOf_makeRoom {cache frame fuel : Nat} {new : List CBlock} {s t : State} (h : makeRoom cache frame new fuel s = some t) :
    frameOf t = frameOf s := by
  induction fuel generalizing s with
  | zero => cases h
  | succ fuel ih =>
    simp only [makeRoom] at h
    split at h
    · cases h
      rfl
    · split at h
      · cases h
      · exact (ih h).trans (frameOf_evictBlock _ _)

@[simp] theorem frameOf_fillRun (s : State) (cache frame start n hint : Nat) (f : Nat → CWord) :
    frameOf (fillRun s cache frame start n hint f) = frameOf s := by
  unfold fillRun
  lift_lets
  intro here rest len mapped lacks pieces stashed own mine s1
  have h1 : frameOf s1 = frameOf s := by
    unfold s1
    split <;> rfl
  split
  · exact h1
  · intro new
    split
    · next t ht => exact (frameOf_makeRoom ht).trans h1
    · exact h1

@[simp] theorem frameOf_hitHint (s : State) (cache word hint : Nat) : frameOf (hitHint s cache word hint) = frameOf s := by
  unfold hitHint
  split <;> rfl

@[simp] theorem frameOf_gainWord (s : State) (core word hint : Nat) (x : CWord) : frameOf (gainWord s core word hint x) = frameOf s := by
  unfold gainWord
  split
  · rfl
  · exact frameOf_fillRun _ _ _ _ _ _ _

@[simp] theorem frameOf_dropWord (s : State) (cache word : Nat) : frameOf (dropWord s cache word) = frameOf s := by
  unfold dropWord dropHeld
  split
  · rfl
  · dsimp only
    split
    · exact frameOf_evictBlock _ _
    · rfl

@[simp] theorem frameOf_restash (s : State) (core : Nat) : frameOf (restash s core) = frameOf s :=
  foldl_keeps (π := frameOf) (fun s w => by
    split
    · exact (frameOf_fillRun _ _ _ _ _ _ _).trans (frameOf_dropWord _ _ _)
    · rfl) _ _

/-! ## The stores that an L1 holds -/

@[simp] theorem frameOf_downgrade (s : State) (word : Nat) : frameOf (downgrade s word) = frameOf s := by
  unfold downgrade
  dsimp only
  split <;> rfl

@[simp] theorem frameOf_takeExclusive (s : State) (core word : Nat) : frameOf (takeExclusive s core word) = frameOf s := by
  unfold takeExclusive
  dsimp only
  split <;> rfl

@[simp] theorem frameOf_answerFor (s : State) (f : Fill) (mine : Nat → Bool) : frameOf (answerFor s f mine) = frameOf s := by
  have hown : ∀ (s : State) (w : Nat), frameOf (if mine w then takeExclusive s f.core w else downgrade s w) = frameOf s := fun s w => by
    split <;> simp
  have hasked : frameOf { s with fills := s.fills.erase f } = frameOf s := rfl
  unfold answerFor
  dsimp only
  rw [frameOf_fillRun]
  split <;> simp only [frameOf_fillRun, foldl_keeps (π := frameOf) (fun _ _ => frameOf_hitHint _ _ _ _),
    foldl_keeps (π := frameOf) hown, hasked]

@[simp] theorem frameOf_performPend (s : State) (e : Pend) : frameOf (performPend s e) = frameOf s := by
  unfold performPend
  dsimp only
  rw [frameOf_gainWord]
  refine (frameOf_takeExclusive _ _ _).trans ?_
  show frameOf (if _ then _ else _) = _
  split
  · rfl
  · exact frameOf_answerFor _ _ _

@[simp] theorem frameOf_performAll (s : State) (p : Pend → Bool) : frameOf (performAll s p) = frameOf s :=
  foldl_keeps (π := frameOf) (fun t e => by
    split
    · rfl
    · exact frameOf_performPend _ _) _ _

@[simp] theorem frameOf_performPends (s : State) (core : Nat) (p : Pend → Bool) : frameOf (performPends s core p) = frameOf s :=
  frameOf_performAll _ _

@[simp] theorem frameOf_cleanWord (s : State) (core word : Nat) : frameOf (cleanWord s core word) = frameOf s := by
  unfold cleanWord
  split
  · split <;> rfl
  · rfl

@[simp] theorem frameOf_drainWord (s : State) (core word : Nat) : frameOf (drainWord s core word) = frameOf s := by
  unfold drainWord
  dsimp only
  split <;> simp

@[simp] theorem frameOf_drainTile (s : State) (core : Nat) (t : Tenure) : frameOf (drainTile s core t) = frameOf s :=
  (foldl_keeps (π := frameOf) (fun _ _ => frameOf_drainWord _ _ _) _ _).trans (frameOf_performPends _ _ _)

@[simp] theorem frameOf_recallOne (s : State) (t : Tenure) (write : Bool) : frameOf (recallOne s t write) = frameOf s := by
  unfold recallOne
  dsimp only
  split
  · split
    · exact frameOf_drainTile _ _ _
    · rfl
  · rfl

@[simp] theorem frameOf_homeWord (s : State) (core word : Nat) (bytes : List (Nat × BitVec 8)) (mk : Mark) :
    frameOf (homeWord s core word bytes mk) = frameOf s := by
  unfold homeWord
  simp

/-! ## Translations -/

@[simp] theorem frameOf_fillTlb (s : State) (room : Nat) (t : Tlb) : frameOf (fillTlb s room t) = frameOf s := by
  unfold fillTlb
  dsimp only
  split
  · rfl
  · split <;> rfl

@[simp] theorem frameOf_rekeyWord (old new : Nat) (s : State) (word : Nat) : frameOf (rekeyWord old new s word) = frameOf s :=
  frameOf_congr rfl rfl rfl rfl rfl

@[simp] theorem frameOf_rekeyPage (s : State) (page new : Nat) : frameOf (rekeyPage s page new) = frameOf s := by
  unfold rekeyPage
  generalize List.range 4096 = l
  dsimp only
  split
  · rfl
  · refine (frameOf_congr ?_ ?_ ?_ ?_ ?_).trans (foldl_keeps (π := frameOf)
      (f := fun t i => rekeyWord (get 0 s.pageKeys page) new t (4096 * page + i)) (fun _ _ => frameOf_rekeyWord _ _ _ _) l s) <;> rfl

@[simp] theorem frameOf_useKey (s : State) (x : Xl) : frameOf (useKey s x) = frameOf s := by
  unfold useKey
  split
  · rfl
  · exact frameOf_rekeyPage _ _ _

@[simp] theorem frameOf_markLeaf (s : State) (core loc e : Nat) : frameOf (markLeaf s core loc e) = frameOf s := by
  unfold markLeaf recallWord
  lift_lets
  intro bytes s1 s2
  have hs2 : frameOf s2 = frameOf s := (frameOf_dropWord _ _ _).trans ((frameOf_drainWord _ _ _).trans
    (foldl_keeps (π := frameOf) (fun _ _ => frameOf_recallOne _ _ _) _ _))
  refine (frameOf_congr (s := s2) ?_ ?_ ?_ ?_ ?_).trans hs2 <;> rfl

theorem outlineTeam_touched (t : Team) (vpage ppage : Nat) :
    outlineTeam { t with stash := t.stash.map fun m => m.touched vpage ppage } = outlineTeam t := by
  have hm : ∀ m : Stash, { m.touched vpage ppage with pages := [] } = ({ m with pages := [] } : Stash) := fun m => by
    unfold Stash.touched
    split <;> rfl
  simp only [outlineTeam, List.map_map, Function.comp_def, hm]

@[simp] theorem outlineOf_noteStash (s : State) (core ctx vpage ppage : Nat) : outlineOf (noteStash s core ctx vpage ppage) = outlineOf s := by
  unfold noteStash
  dsimp only
  split
  · refine (outlineOf_of_frameOf (frameOf_restash _ _)).trans ?_
    unfold outlineOf frameOf Frame.outline
    simp only [List.map_map, Frame.mk.injEq, true_and, and_true, List.map_inj_left, Function.comp_apply]
    intro t _
    split
    · exact outlineTeam_touched _ _ _
    · rfl
  · rfl

@[simp] theorem outlineOf_touchLeaf (s : State) (core : Nat) (write : Bool) (x : Xl) : outlineOf (touchLeaf s core write x) = outlineOf s := by
  unfold touchLeaf
  lift_lets
  intro s1 s2 e want s3
  have h1 : outlineOf s1 = outlineOf s := (outlineOf_noteStash _ _ _ _ _).trans (outlineOf_of_frameOf (frameOf_useKey _ _))
  have h2 : frameOf s2 = frameOf s1 := by
    unfold s2
    split
    · exact foldl_keeps (π := frameOf) (fun _ _ => frameOf_drainWord _ _ _) _ _
    · rfl
  have h3 : frameOf s3 = frameOf s2 := by
    unfold s3
    split
    · rfl
    · exact frameOf_markLeaf _ _ _ _
  have h : outlineOf s3 = outlineOf s := (outlineOf_of_frameOf (h3.trans h2)).trans h1
  split
  · intro t
    exact (outlineOf_of_frameOf ((frameOf_fillTlb _ _ _).trans (frameOf_fillTlb _ _ _))).trans h
  · exact h

@[simp] theorem outlineOf_touchLeaves (s : State) (core : Nat) (write : Bool) (xs : List Xl) :
    outlineOf (touchLeaves s core write xs) = outlineOf s :=
  foldl_keeps (π := outlineOf) (fun _ _ => outlineOf_touchLeaf _ _ _ _) _ _

/-! ## Engines -/

theorem outlineOf_updTeam (s : State) (id : Nat) {f : Team → Team} (hf : ∀ t, outlineTeam (f t) = outlineTeam t) :
    outlineOf (s.updTeam id f) = outlineOf s := by
  unfold outlineOf frameOf Frame.outline State.updTeam
  simp only [List.map_map, Frame.mk.injEq, true_and, and_true, List.map_inj_left, Function.comp_apply]
  intro t _
  split
  · exact hf t
  · rfl

@[simp] theorem outlineOf_spWriteBoth (s : State) (team o : Nat) (bytes : List (BitVec 8)) :
    outlineOf (spWriteBoth s team o bytes) = outlineOf s := by
  have hw : ∀ (s : State) (id : Nat), outlineOf (s.updTeam id fun t => t.spWrite o bytes) = outlineOf s :=
    fun s id => outlineOf_updTeam s id fun _ => rfl
  unfold spWriteBoth
  split
  · rfl
  · dsimp only
    split
    · rw [hw, hw]
    · exact hw _ _

@[simp] theorem outlineOf_engineSp (s : State) (tm : Team) (o : Nat) (l : List (BitVec 8 × Bool)) :
    outlineOf (engineSp s tm o l) = outlineOf s := by
  unfold engineSp
  exact (foldl_keeps (π := outlineOf) (fun s id => outlineOf_updTeam s id (by intro _; rfl)) _ _).trans (outlineOf_spWriteBoth _ _ _ _)

@[simp] theorem outlineOf_engineWrite (s : State) (core : Nat) (l : List (Nat × BitVec 8 × Bool)) :
    outlineOf (engineWrite s core l) = outlineOf s :=
  foldl_keeps (π := outlineOf) (fun _ _ => outlineOf_of_frameOf (frameOf_homeWord _ _ _ _ _)) _ _

@[simp] theorem outlineOf_engineSpOut (s : State) (tm : Team) (o : Nat) (ps : List Place) (l : List (BitVec 8 × Bool)) :
    outlineOf (engineSpOut s tm o ps l) = outlineOf s := by
  unfold engineSpOut
  dsimp only
  split
  · rw [outlineOf_engineSp, outlineOf_engineWrite]
  · refine (foldl_keeps (π := outlineOf) (fun s p => ?_) _ _).trans (outlineOf_engineWrite _ _ _)
    split
    · exact outlineOf_engineSp _ _ _ _
    · rfl

theorem outlineOf_engineRead {c : Issue} {s t : State} {va n : Nat} {bs : List (BitVec 8 × Bool)}
    (h : engineRead c s va n = .ok (t, bs)) : outlineOf t = outlineOf s := by
  unfold engineRead at h
  split at h
  · cases h
  · cases h
    exact outlineOf_touchLeaves _ _ _ _

theorem outlineOf_enginePut {c : Issue} {s t : State} {va : Nat} {l : List (BitVec 8 × Bool)} (h : enginePut c s va l = .ok t) :
    outlineOf t = outlineOf s := by
  unfold enginePut at h
  split at h
  · cases h
  · cases h
    rw [outlineOf_engineWrite, outlineOf_touchLeaves]

theorem outlineOf_spIn {c : Issue} {s t : State} {o n : Nat} {bs : List (BitVec 8 × Bool)} (h : spIn c s o n = .ok (t, bs)) :
    outlineOf t = outlineOf s := by
  unfold spIn at h
  split at h
  · cases h
    rfl
  · split at h
    · split at h
      · cases h
      · cases h
        exact outlineOf_touchLeaves _ _ _ _
    · cases h
      rfl

theorem outlineOf_spOut {c : Issue} {s t : State} {o : Nat} {l : List (BitVec 8 × Bool)} (h : spOut c s o l = .ok t) :
    outlineOf t = outlineOf s := by
  unfold spOut at h
  split at h
  · cases h
    rfl
  · split at h
    · split at h
      · cases h
      · cases h
        rw [outlineOf_engineSpOut, outlineOf_touchLeaves]
    · cases h
      exact outlineOf_engineSp _ _ _ _

/-! ## What the frame and the outline say -/

@[simp] theorem frameOf_beforeEngine (s : State) (o : Op) : frameOf (beforeEngine s o) = frameOf s := by
  unfold beforeEngine
  split
  · exact frameOf_performPends _ _ _
  · rfl

section
variable (s : State) (o : Op)
@[simp] theorem beforeEngine_waves : (beforeEngine s o).waves = s.waves := congrArg Frame.waves (frameOf_beforeEngine s o)
@[simp] theorem beforeEngine_teams : (beforeEngine s o).teams = s.teams := congrArg Frame.teams (frameOf_beforeEngine s o)
@[simp] theorem beforeEngine_clusters : (beforeEngine s o).clusters = s.clusters := congrArg Frame.clusters (frameOf_beforeEngine s o)
end

section
variable {s t : State} (h : outlineOf t = outlineOf s)
include h

theorem waves_of_outlineOf : t.waves = s.waves := congrArg Frame.waves h
theorem ops_of_outlineOf : t.ops = s.ops := congrArg Frame.ops h
theorem nextId_of_outlineOf : t.nextId = s.nextId := congrArg Frame.nextId h

/-- A team is found where it was, and its outline is the same. -/
theorem team?_of_outlineOf (id : Nat) : (t.team? id).map outlineTeam = (s.team? id).map outlineTeam := by
  have find : ∀ l : List Team, (l.find? fun x => x.id == id).map outlineTeam = (l.map outlineTeam).find? fun x => x.id == id := fun l => by
    rw [List.find?_map]
    rfl
  unfold State.team?
  rw [find, find]
  exact congrArg (List.find? fun x => x.id == id) (congrArg Frame.teams h)

theorem coreOf_of_outlineOf (o : Op) : coreOf t o = coreOf s o := by
  have core : ∀ x : Option Team, x.map (·.core) = (x.map outlineTeam).map (·.core) := fun x => by cases x <;> rfl
  unfold coreOf
  rw [core (t.team? _), core (s.team? _), team?_of_outlineOf h]

end

end Sys2Proof.FramesKept

/-! # Matrix instructions accepted (08 R210 to R214, R220 to R225, R230)

Each instruction whose checks pass puts its operation in flight: what the parameter block says at each check is the field of the block
that is then read, and the scoreboard has room for the ranges that the operation holds. -/

namespace Sys2Proof.MatrixIssue

open Sys2Proof.Machine Sys2Proof.Machine.Laws Sys2Proof.FramesKept Sys2Proof.SlotConversion

/-! ## The bytes of a block (09 R242, 11 R306) -/

section
variable {s : State} {cx : Context} {core : Nat} {sys : Bool} {n : Need} {tm : Team}

/-- Within one page a translation gives one location for each byte. -/
theorem translateSpan_length {va len : Nat} {locs : List Nat} {xs : List Xl} (h : translateSpan s cx core sys n va len = .ok (locs, xs))
    (hpage : va % 65536 + len ≤ 65536) : locs.length = len := by
  unfold translateSpan pageFuel at h
  simp only [translatePages] at h
  by_cases hlen : len = 0
  · simp only [hlen, if_true] at h
    cases h
    exact hlen.symm
  · have hhere : min len (65536 - va % 2 ^ 64 % 65536) = len := by omega
    simp only [hlen, if_false, hhere, Nat.sub_self, if_true] at h
    split at h
    · cases h
    · next l hl =>
      split at hl
      · cases hl
      · cases hl
        cases h
        simp

theorem resolveSpBytes_length {o k : Nat} {r : Found} (h : resolveSpBytes s cx core sys n tm o k = .ok r) : r.places.length = k := by
  induction k generalizing o r with
  | zero =>
    cases h
    rfl
  | succ k ih =>
    simp only [resolveSpBytes] at h
    split at h
    · cases h
    · next a ha =>
      have hone : a.places.length = 1 := by
        split at ha
        · cases ha
          rfl
        · split at ha
          · cases ha
          · next hspan =>
            cases ha
            rw [List.length_map, translateSpan_length hspan (by omega)]
      split at h
      · cases h
      · next b hb =>
        cases h
        rw [List.length_append, hone, ih hb, Nat.add_comm]

/-- The bytes of a range that begin a longer one, and those that follow them. -/
theorem resolveSpBytes_append {o j k : Nat} {r : Found} (h : resolveSpBytes s cx core sys n tm o (j + k) = .ok r) :
    ∃ a b, resolveSpBytes s cx core sys n tm o j = .ok a ∧ resolveSpBytes s cx core sys n tm (o + j) k = .ok b ∧
      r.places = a.places ++ b.places := by
  induction j generalizing o r with
  | zero => exact ⟨⟨[], []⟩, r, rfl, by simpa using h, rfl⟩
  | succ j ih =>
    rw [Nat.succ_add, resolveSpBytes] at h
    rw [resolveSpBytes]
    split at h
    · cases h
    · next a ha =>
      split at h
      · cases h
      · next b hb =>
        cases h
        obtain ⟨a', b', ha', hb', hplaces⟩ := ih hb
        rw [ha']
        exact ⟨_, b', rfl, by rwa [Nat.add_assoc, Nat.add_comm 1 j] at hb', by rw [hplaces, List.append_assoc]⟩

end

section
variable {c : Issue} {off : Nat} {r : Found}

/-- A part of a range that can be read holds its part of the places. -/
theorem resolve_part {len o n : Nat} (h : resolve c .own .read off len = .ok r) (hn : o + n ≤ len) :
    ∃ q, resolve c .own .read (off + o) n = .ok q ∧ q.places = (r.places.drop o).take n := by
  unfold resolve at h ⊢
  dsimp only at h ⊢
  split at h
  · cases h
  · next hroom =>
    obtain ⟨m, rfl⟩ := Nat.exists_eq_add_of_le hn
    rw [Nat.add_assoc] at h
    obtain ⟨a, b, ha, hb, hab⟩ := resolveSpBytes_append h
    obtain ⟨q, d, hq, -, hqd⟩ := resolveSpBytes_append hb
    refine ⟨q, by rw [if_neg (by omega), hq], ?_⟩
    rw [hab, hqd, ← resolveSpBytes_length ha, List.drop_left, ← resolveSpBytes_length hq, List.take_left]

section
variable {len o n : Nat} (h : SpRead c off len r) (hn : o + n ≤ len)
include h hn

theorem peek_part : peek c off o n = some (((bytesAt c r).drop o).take n) := by
  obtain ⟨q, hq, hplaces⟩ := resolve_part h.1 hn
  rw [peek, hq]
  simp only [hplaces, bytesAt, List.map_take, List.map_drop]

/-- A check at issue sees the field that the block holds. -/
theorem peekField_part (f : Nat → Option Flt) : peekField c off o n f = f (field (bytesAt c r) o n) := by
  rw [peekField, peek_part h hn]
  rfl

end

theorem peek_whole {len : Nat} (h : SpRead c off len r) : (peek c off 0 len).getD [] = bytesAt c r := by
  have hr : resolve c .own .read (off + 0) len = .ok r := h.1
  rw [peek, hr]
  rfl

@[simp] theorem touching_w : (touching c r).w = c.w := rfl
@[simp] theorem touching_tm : (touching c r).tm = c.tm := rfl
@[simp] theorem touching_g : (touching c r).g = c.g := rfl
@[simp] theorem outlineOf_touching : outlineOf (touching c r).s = outlineOf c.s := outlineOf_touchLeaves _ _ _ _

theorem faultIf_of_eq_false {p : Bool} (h : p = false) (code : FaultCode) (a : Nat) : faultIf c p code a = none := by
  rw [h]
  rfl

/-- A block at a multiple of 64 inside the allocation, with its STATUS clear of armed barrier words, is read. -/
theorem withSpAnd_read {pages regs : Option Flt} {room at' n so : Nat} {k : Issue → List (BitVec 8) → Except Flt State}
    (halign : off % 64 = 0) (hroom : off + room ≤ c.g.launch.spBytes) (hread : SpRead c at' n r) (hpages : pages = none)
    (hclear : c.tm.clobbers so 8 = false) (hregs : regs = none) :
    withSpAnd c pages off room at' n (some so) regs k = k (touching c r) (bytesAt c r) := by
  have hplace : firstFault [faultIf c (off % 64 != 0) .align off, faultIf c (decide (c.g.launch.spBytes < off + room)) .perm off] = none := by
    rw [faultIf_of_eq_false (by simpa using halign), faultIf_of_eq_false (by simpa using hroom)]
    rfl
  rw [withSpAnd, guarded_of_none hplace, hread.1]
  dsimp only
  rw [guarded_of_none]
  · rfl
  · rw [hpages, hregs, hread.2, Option.bind_some, faultIf_of_eq_false hclear]
    rfl

end

/-- As `withSpAnd_read`, where no other page is used. -/
theorem withDesc_read {c : Issue} {off so : Nat} {r : Found} {regs : Option Flt} {k : Issue → List (BitVec 8) → Except Flt State}
    (halign : off % 64 = 0) (hroom : off + 64 ≤ c.g.launch.spBytes) (hread : SpRead c off 64 r) (hclear : c.tm.clobbers (off + so) 8 = false)
    (hregs : regs = none) : withDesc c off 64 so regs k = k (touching c r) (bytesAt c r) :=
  withSpAnd_read halign hroom hread rfl hclear hregs

/-! ## The checks of an issue -/

section
variable {c : Issue} {fsel : BitVec 1}

theorem noFlag_of_free (h : FlagFree c fsel) : noFlag c fsel = none := faultIf_of_eq_false (beq_false_of_ne h.1) _ _

theorem flagRoom_of_free (h : FlagFree c fsel) (k : Except Flt State) : flagRoom c fsel k = k := if_neg (Nat.not_le.2 h.2)

theorem slotIs_none {n : Nat} {usable : Nat → Bool} (hv : slotValid (slotOfLaunch c.g.launch n) = true)
    (hu : usable (slotOfLaunch c.g.launch n) = true) : slotIs c n usable = none := by
  simp [slotIs, faultIf, hv, hu]

theorem align_none {x a : Nat} {m : Nat} (h : x % m = 0) : faultIf c (x % m != 0) .align a = none :=
  faultIf_of_eq_false (by simpa using h) _ _

/-- An operation finds room on the scoreboard of its core, in any state with the same operations and teams. -/
theorem scoreFull_eq_false {c' : Issue} {o : Op} {n : Nat} (hs : outlineOf c'.s = outlineOf c.s) (htm : c'.tm = c.tm)
    (hroom : ScoreRoom c n) (ho : o.slots ≤ n) : scoreFull c' o = false := by
  rw [scoreFull, htm, ops_of_outlineOf hs, decide_eq_false_iff_not]
  simp only [coreOf_of_outlineOf hs]
  omega

/-- An operation of a kind other than mma and rmode holds a range for each side that it has. -/
theorem slots_le_two {o : Op} (h : o.slots = (if o.reads = [] then 0 else 1) + if o.writes = [] then 0 else 1) : o.slots ≤ 2 := by
  rw [h]
  split <;> split <;> decide

/-- One with a single side holds one range at most. -/
theorem slots_le_one {o : Op} (h : o.slots = (if o.reads = [] then 0 else 1) + if o.writes = [] then 0 else 1)
    (hside : o.reads = [] ∨ o.writes = []) : o.slots ≤ 1 := by
  rw [h]
  rcases hside with hside | hside <;> rw [if_pos hside] <;> split <;> decide

end

/-! ## Acceptance -/

section
variable {s s0 s1 : State} {c : Issue} {i : Instr}

theorem issueAs_runs {reason : Nat} (hsafe : EndsSafety s0 s reason) (h : Runs s c 4) (eff : Issue → Except Flt State) :
    issueAs s0 true 4 reason eff = match eff c with
      | .ok s' => .next s'
      | .error f => .next (takeFault c f) := by
  obtain ⟨rfl, hwaits⟩ := hsafe
  rw [issueAs, if_pos rfl, hwaits]
  exact issue_runs h rfl eff

/-- The spec of an operation accepted: it is in flight, its flag has counted up, and SEED has moved where it draws on it. -/
theorem opIssuedIn_of_retire {adv : Bool} {o : Op} {seed : Word} {K : Op → Prop} (h : Runs s c 4) (hw : s1.waves = s.waves)
    (he : exec i s0 = .next (retire c (s1.addOp o) ((stepSeed adv c.w).flagUp (some o.flag)) 4))
    (ho : o.id = c.s.nextId ∧ o.wave = c.w.id ∧ o.team = c.tm.id) (hseed : seed = if adv then seedStep c.w.seed else c.w.seed)
    (hK : K o) : OpIssuedIn i s0 s1 c o.flag [] seed K := by
  obtain ⟨hid, hwave, hteam⟩ := ho
  have hup : (stepSeed adv c.w).flagUp (some o.flag) =
      { c.w with flags := put 0 c.w.flags o.flag (c.w.getF o.flag + 1), seed := seed } := by
    rw [hseed]
    cases adv <;> rfl
  rw [retire_eq h.left, hup] at he
  generalize hu : ({ c.w with flags := put 0 c.w.flags o.flag (c.w.getF o.flag + 1), seed := seed } : Wave) = u at he
  have hmoved : Moved c u (advance c u.count 4).settle := by
    subst hu
    exact moved_retire c _ 4 rfl rfl
  have hjumped : Jumped c (advance c u.count 4).settle c.e.prio fun _ => c.e.pc + 4 := by
    subst hu
    refine advance_jumped c _ ?_ 4
    rfl
  generalize (advance c u.count 4).settle = w at he hmoved hjumped
  rw [Moved, ← hu] at hmoved
  have hown : w.id = c.w.id := by rw [hmoved]
  have hfound : (s1.addOp o).awake.wave? w.id = some c.w := by
    rw [hown]
    show s1.waves.find? _ = _
    rw [hw]
    exact issuing_wave h.issues
  refine ⟨_, w, o, he, ?_, fun j hj => ?_, rfl, hid, hwave, hteam, rfl, hK, ⟨?_, hjumped⟩, fun f => ?_, fun r th _ => ?_⟩
  · exact hown ▸ wave?_setWave_same hfound
  · exact wave?_setWave_other (s := (s1.addOp o).awake) (hown.symm ▸ hj)
  · rw [Moved, hmoved]
  · have hf : w.flags = put 0 c.w.flags o.flag (c.w.getF o.flag + 1) := by rw [hmoved]
    rw [Wave.getF, hf, get_put]
    split
    · next he => rw [he]
    · rfl
  · have hv : w.v = c.w.v := by rw [hmoved]
    simp [Wave.getV, hv]

/-- An operation that finds room retires its wave as the issue itself does. -/
theorem next_of_room {c' : Issue} {full : Bool} (hrole : c.w.role = .solo) (hleft : c.w.left ≠ 0) (hc' : c' = { c with s := c'.s })
    (hfull : full = false) (t : State) (f : Wave → Wave) :
    (match (if full = true then .ok c'.stall else .ok (retireOnce c' t f 4) : Except Flt State) with
      | .ok s' => .next s'
      | .error e => .next (takeFault c e) : Host.Outcome State Fault Refusal) = .next (retire c t (f c.w) 4) := by
  rw [hfull, if_neg Bool.false_ne_true, hc', retireOnce_solo (c := { c with s := c'.s }) hrole]
  exact congrArg Host.Outcome.next (retire_at hleft _ _)

/-- An engine operation accepted by the wrapper of a lone wave: its destination words are taken first. -/
theorem engineIssued_of_retire {adv : Bool} {o : Op} {seed : Word} {kind : OpKind} {reads writes : List Rng} {flag : Nat}
    (h : Runs s c 4) (hs : outlineOf s1 = outlineOf c.s)
    (he : exec i s0 = .next (retire c (startOp s1 o) ((stepSeed adv c.w).flagUp (some o.flag)) 4))
    (ho : o.id = c.s.nextId ∧ o.wave = c.w.id ∧ o.team = c.tm.id) (hseed : seed = if adv then seedStep c.w.seed else c.w.seed)
    (hflag : o.flag = flag) (hkind : o.kind = kind) (hreads : o.reads = reads) (hwrites : o.writes = writes) :
    EngineIssued i s0 s1 c flag seed kind reads writes := by
  have hw : (takeWords s1 o.writes).waves = s.waves :=
    (congrArg Frame.waves (frameOf_performAll s1 _)).trans
      ((waves_of_outlineOf hs).trans (congrArg State.waves (issuing_s h.issues)))
  rw [← hflag, EngineIssued, ← hwrites]
  exact opIssuedIn_of_retire h hw he ho hseed ⟨hkind, hreads, rfl⟩

end

/-! ## The instructions -/

section
variable {s s0 : State} {c : Issue} (hsafe : EndsSafety s0 s 3) (h : Runs s c 4) (hrole : c.w.role = .solo)
include hsafe h hrole

/-- mma (08 R211 to R214). -/
theorem mma_issued {o : OpFG2} {r : Found} {lat : Option Nat} {xs : List Xl} (hflag : FlagFree c o.fsel)
    (hclean : Unpoisoned c [] [o.f2.toNat] []) :
    let off := (c.w.getS o.f2.toNat).toNat
    let a := o.g.toNat
    let x := slotOfLaunch c.g.launch a
    let p := bytesAt c r
    let c1 := touching c r
    let xb := mmaBSlot c.g.launch p
    off % 64 = 0 → off + 64 ≤ c.g.launch.spBytes → c.tm.clobbers (off + 0x38) 8 = false → slotValid x = true → slotSparse x = 0 →
    SpRead c off 64 r → slotElem x ≠ 6 → MmaRoom c → ScoreRoom c 3 → slotValid xb = true →
    tokenFault c (field p 0 1 % 8) true false = none → field p 0x10 4 % 4 = 0 → field p 0x14 4 % 4 = 0 → field p 0x20 4 % 4 = 0 →
    blocksAligned xb (mmaK p) = true → streamPages c p a = none → latticePages c xb = none → latticeAt c1 xb = .ok (lat, xs) →
    EngineIssued (.mma o) s0 (touchLeaves c1.s c.tm.core false (streamXs c1 p a ++ xs)) c (c.flag o.fsel) c.w.seed
      (.mma p off a lat false 0 0) (mmaReads c1 p a) (sideRng c1 true true (off + 0x38) 8) := by
  intro off a x p c1 xb halign hroom hclear hv hsp hread helem hmma hscore hvb htoken h10 h14 h20 hblocks hpages hlat hat
  have hs : outlineOf c1.s = outlineOf c.s := outlineOf_touching
  have hchecks : firstFault [slotIs c a fun x => slotSparse x == 0 && slotElem x != 6,
      peekField c off 1 1 fun b => slotIs c (b % 8) fun _ => true, peekField c off 0 1 fun t => tokenFault c (t % 8) true false,
      faultIf c (off % 64 != 0) .align off, peekField c off 0x10 4 fun x => faultIf c (x % 4 != 0) .align x,
      peekField c off 0x14 4 fun x => faultIf c (x % 4 != 0) .align x, peekField c off 0x20 4 fun x => faultIf c (x % 4 != 0) .align x,
      faultIf c (p != [] && !(blocksAligned xb (mmaK p))) .align (field p 0x20 4)] = none := by
    rw [slotIs_none hv (by simp [hsp, helem, x] at *), peekField_part hread (by decide), peekField_part hread (by decide),
      peekField_part hread (by decide), peekField_part hread (by decide), peekField_part hread (by decide), slotIs_none hvb rfl, htoken,
      align_none halign, align_none h10, align_none h14, align_none h20, faultIf_of_eq_false (by rw [hblocks]; simp)]
    rfl
  have hpeek : (peek c off 0 64).getD [] = p := peek_whole hread
  have hpages : (if p = [] then none else lowerPage (streamPages c p a) (latticePages c xb)) = none := by
    rw [hpages, hlat]
    exact ite_self _
  have hexec := (exec_mma o s0).trans (issueAs_runs hsafe h _)
  dsimp only at hexec
  rw [noFlag_of_free hflag] at hexec
  rw [hpeek] at hexec
  rw [guarded_of_none rfl, flagRoom_of_free hflag, once_solo hrole, guarded_of_none hchecks,
    withSpAnd_read halign hroom hread hpages hclear (poisonRegs_none hclean)] at hexec
  have hat' : latticeAt (touching c r) (mmaBSlot (touching c r).g.launch (bytesAt c r)) = .ok (lat, xs) := hat
  rw [hat'] at hexec
  have hfew : decide (4 ≤ (c1.s.ops.filter fun e => coreOf c1.s e == some c1.tm.core && (match e.kind with
      | .mma _ _ _ _ _ _ _ => true
      | _ => false)).length) = false := by
    simp only [coreOf_of_outlineOf hs, ops_of_outlineOf hs]
    exact decide_eq_false (Nat.not_le.2 hmma)
  exact engineIssued_of_retire (adv := false) h ((outlineOf_touchLeaves _ _ _ _).trans hs)
    (hexec.trans (next_of_room hrole h.left rfl (Bool.or_eq_false_iff.2 ⟨scoreFull_eq_false hs rfl hscore le_rfl, hfew⟩) _ _))
    ⟨nextId_of_outlineOf hs, rfl, rfl⟩ rfl rfl rfl rfl rfl

/-- qcopy (08 R230). -/
theorem qcopy_issued {o : OpFG2} {r : Found} {lat : Option Nat} {xs : List Xl} (hflag : FlagFree c o.fsel)
    (hclean : Unpoisoned c [] [o.f2.toNat] []) :
    let off := (c.w.getS o.f2.toNat).toNat
    let x := slotOfLaunch c.g.launch o.g.toNat
    let p := bytesAt c r
    let c1 := touching c r
    let seed := if slotRnd x = 5 then seedStep c.w.seed else c.w.seed
    off % 64 = 0 → off + 64 ≤ c.g.launch.spBytes → c.tm.clobbers (off + 0x38) 8 = false → slotValid x = true → slotSparse x = 0 →
    SpRead c off 64 r → slotElem x ≠ 7 → slotElem x ≠ 8 → ScoreRoom c 2 → field p 0 8 % 4 = 0 → field p 8 4 % 4 = 0 →
    field p 0x10 8 % 4 = 0 → field p 0x18 4 % 4 = 0 → latticePages c x = none → latticeAt c1 x = .ok (lat, xs) →
    EngineIssued (.qcopy o) s0 (touchLeaves c1.s c.tm.core false xs) c (c.flag o.fsel) seed
      (.qcopy p off o.g.toNat lat seed) (qcopyRanges c1 p off x).1 (qcopyRanges c1 p off x).2 := by
  intro off x p c1 seed halign hroom hclear hv hsp hread h7 h8 hscore hsrc hstride hdst hdstride hlat hat
  have hs : outlineOf c1.s = outlineOf c.s := outlineOf_touching
  have hseed : (stepSeed (slotRnd x == 5) c.w).seed = seed := by
    simp only [seed, stepSeed, beq_iff_eq]
    split <;> rfl
  have hchecks : firstFault [slotIs c o.g.toNat fun x => slotSparse x == 0 && slotElem x != 7 && slotElem x != 8,
      faultIf c (off % 64 != 0) .align off, peekField c off 0 8 fun x => faultIf c (x % 4 != 0) .align x,
      peekField c off 8 4 fun x => faultIf c (x % 4 != 0) .align x, peekField c off 0x10 8 fun x => faultIf c (x % 4 != 0) .align x,
      peekField c off 0x18 4 fun x => faultIf c (x % 4 != 0) .align x] = none := by
    rw [slotIs_none hv (by simp [hsp, h7, h8, x] at *), peekField_part hread (by decide), peekField_part hread (by decide),
      peekField_part hread (by decide), peekField_part hread (by decide), align_none halign, align_none hsrc, align_none hstride,
      align_none hdst, align_none hdstride]
    rfl
  have hexec := (exec_qcopy o s0).trans (issueAs_runs hsafe h _)
  dsimp only at hexec
  rw [noFlag_of_free hflag, guarded_of_none rfl, flagRoom_of_free hflag, once_solo hrole, guarded_of_none hchecks,
    withSpAnd_read halign hroom hread hlat hclear (poisonRegs_none hclean)] at hexec
  have hat' : latticeAt (touching c r) (slotOfLaunch c.g.launch o.g.toNat) = .ok (lat, xs) := hat
  rw [hat'] at hexec
  exact engineIssued_of_retire (adv := slotRnd x == 5) h ((outlineOf_touchLeaves _ _ _ _).trans hs)
    (hexec.trans (next_of_room hrole h.left rfl (scoreFull_eq_false hs rfl hscore (slots_le_two rfl)) _ _))
    ⟨nextId_of_outlineOf hs, rfl, rfl⟩ (by simp only [beq_iff_eq]; rfl) rfl (by rw [← hseed]; rfl) rfl rfl

/-- colload (08 R225). -/
theorem colload_issued {o : OpF2} {r : Found} (hflag : FlagFree c o.fsel) (hclean : Unpoisoned c [] [o.f2.toNat] []) (hscore : ScoreRoom c 2) :
    let off := (c.w.getS o.f2.toNat).toNat
    let d := bytesAt c r
    let x := slotOfLaunch c.g.launch (field d 0x0C 1 % 8)
    off % 64 = 0 → off + 64 ≤ c.g.launch.spBytes → c.tm.clobbers (off + 0x38) 8 = false → SpRead c off 64 r → slotValid x = true →
    field d 0 8 % 4 = 0 → field d 8 4 % 4 = 0 → field d 0x14 4 % 4 = 0 →
    ((field d 0x0F 1).testBit 0 = true → blocksAligned x (field d 0x10 4) = true) →
    EngineIssued (.colload o) s0 (touching c r).s c (c.flag o.fsel) c.w.seed (.colload d off) (colReads (touching c r) d)
      (sideRng (touching c r) true true (off + 0x38) 8) := by
  intro off d x halign hroom hclear hread hv hsrc hstride hdst hblocks
  have hs : outlineOf (touching c r).s = outlineOf c.s := outlineOf_touching
  have hunits : (d != [] && (field d 0x0F 1).testBit 0 && !(blocksAligned x (field d 0x10 4))) = false := by
    cases hbit : (field d 0x0F 1).testBit 0
    · simp
    · simp [hblocks hbit]
  have hchecks : firstFault [peekField c off 0x0C 1 fun n => slotIs c (n % 8) fun _ => true, faultIf c (off % 64 != 0) .align off,
      peekField c off 0 8 fun x => faultIf c (x % 4 != 0) .align x, peekField c off 8 4 fun x => faultIf c (x % 4 != 0) .align x,
      peekField c off 0x14 4 fun x => faultIf c (x % 4 != 0) .align x,
      faultIf c (d != [] && (field d 0x0F 1).testBit 0 && !(blocksAligned x (field d 0x10 4))) .align (field d 0x14 4)] = none := by
    rw [peekField_part hread (by decide), peekField_part hread (by decide), peekField_part hread (by decide),
      peekField_part hread (by decide), slotIs_none hv rfl, align_none halign, align_none hsrc, align_none hstride, align_none hdst,
      faultIf_of_eq_false hunits]
    rfl
  have hpeek : (peek c off 0 64).getD [] = d := peek_whole hread
  have hexec := (exec_colload o s0).trans (issueAs_runs hsafe h _)
  dsimp only at hexec
  rw [hpeek, noFlag_of_free hflag, guarded_of_none rfl, flagRoom_of_free hflag, once_solo hrole, guarded_of_none hchecks,
    withDesc_read halign hroom hread hclear (poisonRegs_none hclean)] at hexec
  exact engineIssued_of_retire (adv := false) h hs
    (hexec.trans (next_of_room hrole h.left rfl (scoreFull_eq_false hs rfl hscore (slots_le_two rfl)) _ _))
    ⟨nextId_of_outlineOf hs, rfl, rfl⟩ rfl rfl rfl rfl rfl

/-- tread and twrite (08 R222, R223). -/
theorem tileRows_issued {i : Instr} {o : OpTRow} {write : Bool} {r : Found} (he : exec i s0 = tileRowsEff s0 o write)
    (hflag : FlagFree c o.fsel) (hclean : Unpoisoned c [] [o.sp.toNat, o.rows.toNat] []) (hscore : ScoreRoom c 1) :
    let sp := (c.w.getS o.sp.toNat).toNat
    let rows := (c.w.getS o.rows.toNat).toNat
    let raw := bitsN rows 17 1 = 1
    let x := slotOfLaunch c.g.launch o.g.toNat
    let n := (rowSpan rows).2 * rowElemBytes rows x * 128
    let seed := if ¬ raw ∧ slotRnd x = 5 then seedStep c.w.seed else c.w.seed
    (raw ∨ (slotValid x = true ∧ rowSlot x = true)) → (bitsN rows 16 1 = 1 → tokenFault c o.c.toNat false true = none) →
    sp % 16 = 0 → 256 ≤ sp → sp + n ≤ c.g.launch.spBytes → resolve c .own (if write then .read else .write) sp n = .ok r →
    (write = true → dataFault c [(⟨c.low, r.places, sp⟩, sp)] = none) →
    EngineIssued i s0 (touchLeaves c.s c.tm.core (!write) r.xs) c (c.flag o.fsel) seed
      (.tileRows write o.c.toNat sp (rows % 2 ^ 19) o.g.toNat seed r.places)
      (if write then sideRng c true false sp n else []) (if write then [] else sideRng c true true sp n) := by
  intro sp rows raw x n seed hslot htoken halign hlow hroom hres hdata
  let adv := !(bitsN rows 17 1 == 1) && slotRnd x == 5
  have hadv : seed = if adv then seedStep c.w.seed else c.w.seed := by
    simp [seed, adv, raw]
  have hseed : (stepSeed adv c.w).seed = seed := by
    rw [hadv]
    cases adv <;> rfl
  have hchecks : firstFault [if (bitsN rows 17 1 == 1) = true then none else slotIs c o.g.toNat rowSlot,
      if bitsN rows 16 1 = 1 then tokenFault c o.c.toNat false true else none, faultIf c (sp % 16 != 0) .align sp,
      faultIf c (decide (sp < 256) || decide (c.g.launch.spBytes < sp + n)) .perm sp] = none := by
    have h1 : (if (bitsN rows 17 1 == 1) = true then none else slotIs c o.g.toNat rowSlot) = none := by
      split
      · rfl
      · next hraw =>
        obtain ⟨hv, hrow⟩ := hslot.resolve_left (by simpa using hraw)
        exact slotIs_none hv hrow
    have h2 : (if bitsN rows 16 1 = 1 then tokenFault c o.c.toNat false true else none) = none := by
      split
      · next hbank => exact htoken hbank
      · rfl
    rw [h1, h2, align_none halign, faultIf_of_eq_false (by simp [hlow, hroom])]
    rfl
  have hpoison : firstFault [poisonRegs c [] [o.sp.toNat, o.rows.toNat] [],
      if write = true then dataFault c [(⟨c.low, r.places, sp⟩, sp)] else none] = none := by
    rw [poisonRegs_none hclean]
    cases write
    · rfl
    · rw [if_pos rfl, hdata rfl]
      rfl
  have hexec := he.trans (issueAs_runs hsafe h _)
  dsimp only at hexec
  rw [noFlag_of_free hflag, guarded_of_none rfl, flagRoom_of_free hflag, once_solo hrole, guarded_of_none hchecks, hres] at hexec
  dsimp only at hexec
  rw [guarded_of_none hpoison] at hexec
  exact engineIssued_of_retire (adv := adv) h (outlineOf_touchLeaves _ _ _ _)
    (hexec.trans (next_of_room hrole h.left rfl (scoreFull_eq_false rfl rfl hscore
      (slots_le_one rfl (by cases write <;> [exact .inl rfl; exact .inr rfl]))) _ _))
    ⟨rfl, rfl, rfl⟩ hadv rfl (by rw [← hseed]; rfl) rfl rfl

/-- A token or bank instruction whose tile's token is where it needs it (08 R220, R221). -/
theorem tileEff_issued {i : Instr} {o : OpTile} {minor : Nat} {engine own : Bool} (he : exec i s0 = tileEff s0 o minor engine own)
    (hflag : FlagFree c o.fsel)
    (htoken : match holderAt s (clusterOf c.tm.core) o.c.toNat with
      | none => engine = true
      | some w => own = true ∧ w = c.w.id) :
    OpIssued i s0 s c (c.flag o.fsel) [] fun k => k = .tile minor o.c.toNat := by
  obtain rfl := issuing_s h.issues
  have htoken' : tokenFault c o.c.toNat engine own = none := by
    unfold tokenFault
    revert htoken
    cases holderAt c.s (clusterOf c.tm.core) o.c.toNat with
    | none =>
      rintro rfl
      rfl
    | some w =>
      rintro ⟨rfl, rfl⟩
      exact faultIf_of_eq_false (by simp) _ _
  have hexec := he.trans (issueAs_runs hsafe h _)
  dsimp only at hexec
  rw [noFlag_of_free hflag, guarded_of_none rfl, flagRoom_of_free hflag, once_solo hrole, htoken', guarded_of_none rfl,
    retireOnce_solo hrole] at hexec
  exact opIssuedIn_of_retire (adv := false) h rfl hexec ⟨rfl, rfl, rfl⟩ rfl rfl

end

/-- Settles O39: each matrix instruction passes its checks, which see the fields that its block holds (`peekField_part`), and finds room
on the scoreboard (`scoreFull_eq_false`); its operation is then in flight (`opIssuedIn_of_retire`). -/
theorem matrixIssues : Obligations.MatrixIssues := by
  intro s s1 c hsafe h hrole
  refine ⟨fun o hflag hclean halign hroom hclear hv hsp r hread => ⟨fun helem hmma hscore hvb htoken h10 h14 h20 hblocks hpages hlat
      lat xs hat => ?_, fun h7 h8 hscore hsrc hstride hdst hdstride hlat lat xs hat => ?_⟩,
    fun o hflag row hrow htoken => ?_, fun o hflag hclean hscore hslot htoken halign hlow hroom => ⟨fun r hres => ?_, fun r hread => ?_⟩,
    fun o hflag hclean hscore halign hroom hclear r hread hv hsrc hstride hdst hblocks => ?_⟩
  · exact mma_issued hsafe h hrole hflag hclean halign hroom hclear hv hsp hread helem hmma hscore hvb htoken h10 h14 h20 hblocks hpages
      hlat hat
  · exact qcopy_issued hsafe h hrole hflag hclean halign hroom hclear hv hsp hread h7 h8 hscore hsrc hstride hdst hdstride hlat hat
  · simp only [List.mem_cons, List.not_mem_nil, or_false] at hrow
    rcases hrow with rfl | rfl | rfl | rfl
    · exact tileEff_issued hsafe h hrole (exec_tkacq o s) hflag htoken
    · exact tileEff_issued hsafe h hrole (exec_tkrel o s) hflag htoken
    · exact tileEff_issued hsafe h hrole (exec_tswap o s) hflag htoken
    · exact tileEff_issued hsafe h hrole (exec_tzero o s) hflag htoken
  · obtain rfl := issuing_s h.issues
    exact tileRows_issued (write := false) hsafe h hrole (exec_tread o s) hflag hclean hscore hslot htoken halign hlow hroom hres (by simp)
  · exact tileRows_issued (write := true) hsafe h hrole (exec_twrite o s) hflag hclean hscore hslot htoken halign hlow hroom hread.1 fun _ => hread.2
  · exact colload_issued hsafe h hrole hflag hclean hscore halign hroom hclear hread hv hsrc hstride hdst hblocks

end Sys2Proof.MatrixIssue

/-! # What matrix operations leave when they take effect (08 R215 to R232)

The rules that the completions share: a flag that counts down, bytes of a scratchpad, and the elements and columns of a cluster. -/

namespace Sys2Proof.MatrixEffect

open Sys2Proof.Machine Sys2Proof.Machine.Laws Sys2Proof.FramesKept

/-! ## Bytes of sparse maps and numbers -/

theorem leNat_leBytes (n x : Nat) : leNat (leBytes n x) = x % 2 ^ (8 * n) := by
  induction n generalizing x with
  | zero => simp [leBytes, leNat, Nat.mod_one]
  | succ n ih =>
    rw [leBytes, leNat, ih, BitVec.toNat_ofNat, Nat.mul_succ, Nat.add_comm (8 * n), Nat.pow_add, Nat.mod_mul]

@[simp] theorem leBytes_length (n x : Nat) : (leBytes n x).length = n := by
  induction n generalizing x with
  | zero => rfl
  | succ n ih => rw [leBytes, List.length_cons, ih]

/-- Values written at consecutive keys. -/
theorem get_foldl_put {α β : Type} [DecidableEq α] (d : α) (f : β → Nat → α) (base : Nat) (l : List β) (m : List (Nat × α)) (i : Nat) :
    get d ((l.zip (List.range l.length)).foldl (fun m b => put d m (base + b.2) (f b.1 b.2)) m) i =
      (if base ≤ i then l[i - base]?.map fun x => f x (i - base) else none).getD (get d m i) := by
  induction l using List.reverseRecOn with
  | nil => simp
  | append_singleton l x ih =>
    rw [List.length_append, List.length_singleton, List.range_succ, List.zip_append (by simp), List.foldl_append]
    simp only [List.zip_cons_cons, List.zip_nil_right, List.foldl_cons, List.foldl_nil, get_put, ih]
    by_cases hi : i = base + l.length
    · simp [hi]
    · rw [if_neg hi]
      by_cases hb : base ≤ i
      · simp only [hb, if_true]
        by_cases hlt : i - base < l.length
        · rw [List.getElem?_append_left hlt]
        · rw [List.getElem?_eq_none (by omega), List.getElem?_eq_none (by simp; omega)]
      · simp [hb]

theorem get_filter {α : Type} (d : α) (q : Nat → Bool) (m : List (Nat × α)) (i : Nat) :
    get d (m.filter fun b => q b.1) i = if q i then get d m i else d := by
  induction m with
  | nil => exact (ite_self d).symm
  | cons p m ih =>
    obtain ⟨k, x⟩ := p
    by_cases hk : k = i
    · subst hk
      cases hq : q k <;> simp [Machine.get, hq, ih]
    · cases hq : q k <;> simp [Machine.get, hq, ih, hk]

/-- Part i of a list put together from parts of one length. -/
theorem take_drop_flatMap {α β : Type} {z : Nat} {f : α → List β} (hf : ∀ x, (f x).length = z) {l : List α} {i : Nat} {x : α}
    (hx : l[i]? = some x) : ((l.flatMap f).drop (z * i)).take z = f x := by
  induction l generalizing i with
  | nil => simp at hx
  | cons y l ih =>
    rw [List.flatMap_cons]
    cases i with
    | zero =>
      obtain rfl : y = x := by simpa using hx
      rw [Nat.mul_zero, List.drop_zero, ← hf y, List.take_left]
    | succ i =>
      rw [Nat.mul_succ, Nat.add_comm, ← List.drop_drop, ← hf y, List.drop_left, hf y]
      exact ih (by simpa using hx)

theorem length_flatMap_of_length {α β : Type} {z : Nat} {f : α → List β} (hf : ∀ x, (f x).length = z) (l : List α) :
    (l.flatMap f).length = z * l.length := by
  induction l with
  | nil => rfl
  | cons x l ih => rw [List.flatMap_cons, List.length_append, hf, ih, List.length_cons, Nat.mul_succ, Nat.add_comm]

theorem flatMap_range_range {α : Type} (k m : Nat) (g : Nat → Nat → α) :
    ((List.range m).flatMap fun n => (List.range k).map fun j => g n j) = (List.range (k * m)).map fun i => g (i / k) (i % k) := by
  induction m with
  | zero => simp
  | succ m ih =>
    rw [List.range_succ, List.flatMap_append, ih, Nat.mul_succ, List.range_add, List.map_append, List.flatMap_singleton, List.map_map]
    congr 1
    refine List.map_congr_left fun j hj => ?_
    have hj : j < k := List.mem_range.1 hj
    rw [Function.comp_apply, Nat.mul_add_div (by omega), Nat.div_eq_of_lt hj, Nat.mul_add_mod, Nat.mod_eq_of_lt hj, Nat.add_zero]

/-! ## Scratchpad (09 R238 to R240) -/

section
variable {t : Team} {o : Nat} {bytes : List (BitVec 8)} (ho : 256 ≤ o)
include ho

/-- Above the barrier words a byte is written as it is. -/
theorem spByte_spWrite (a : Nat) :
    (t.spWrite o bytes).spByte a = (if o ≤ a then bytes[a - o]? else none).getD (t.spByte a) := by
  refine (get_foldl_put (0#8) (fun b i => barrierByte (o + i) b) o bytes t.sp a).trans ?_
  have hbyte : ∀ i b, barrierByte (o + i) b = b := fun i b => if_pos (.inl (by omega))
  simp only [hbyte, Option.map_id']
  rfl

theorem spNat_spWrite {j n : Nat} (hj : j + n ≤ bytes.length) :
    (t.spWrite o bytes).spNat (o + j) n = leNat ((bytes.drop j).take n) := by
  unfold Team.spNat
  congr 1
  refine List.ext_getElem (by simp; omega) fun i hi _ => ?_
  have hi : i < n := by simpa using hi
  rw [List.getElem_map, List.getElem_range, spByte_spWrite ho, if_pos (by omega), List.getElem_take, List.getElem_drop,
    show o + j + i - o = j + i by omega, List.getElem?_eq_getElem (by omega), Option.getD_some]

end

/-! ## Clusters (08 R201 to R203) -/

section
variable {s : State} {k : Cluster} {n : Nat}

@[simp] theorem cluster_id : (s.cluster n).id = n := by
  unfold State.cluster
  cases hfind : s.clusters.find? fun c => c.id == n with
  | none => rfl
  | some c => simpa using List.find?_some hfind

theorem cluster_setCluster (hk : k.id = n) : (s.setCluster k).cluster n = k := by
  unfold State.cluster State.setCluster
  rw [List.find?_cons_of_pos (by simpa using hk), Option.getD_some]

theorem cluster_of_clusters {t : State} (h : t.clusters = s.clusters) : t.cluster n = s.cluster n := by
  unfold State.cluster
  rw [h]

end

section
variable {k : Cluster} {tile row col : Nat} {b : Bool}

theorem bank_lt (k : Cluster) (tile : Nat) (b : Bool) : k.bank tile b < 2 := by
  unfold Cluster.bank
  split <;> decide

/-- The bytes of two elements share a key only where they are one byte of one element. -/
theorem tileKey_inj {u row' col' i j : Nat} {b' : Bool} (hrow : row < 128) (hcol : col < 128) (hrow' : row' < 128) (hcol' : col' < 128)
    (hi : i < 4) (hj : j < 4) (h : tileKey k tile b row col + i = tileKey k u b' row' col' + j) :
    tile = u ∧ b = b' ∧ row = row' ∧ col = col' ∧ i = j := by
  have hb := bank_lt k tile b
  have hb' := bank_lt k u b'
  unfold tileKey at h
  obtain ⟨htile, hbank, hrow, hcol, hi⟩ : tile = u ∧ k.bank tile b = k.bank u b' ∧ row = row' ∧ col = col' ∧ i = j := by omega
  subst htile
  refine ⟨rfl, ?_, hrow, hcol, hi⟩
  unfold Cluster.bank at hbank
  revert hbank
  cases get false k.swapped tile <;> cases b <;> cases b' <;> simp

theorem elem_setElem (x : Nat) {u row' col' : Nat} {b' : Bool} (hrow : row < 128) (hcol : col < 128) (hrow' : row' < 128)
    (hcol' : col' < 128) : (k.setElem tile b row col x).elem u b' row' col' =
      if u = tile ∧ b' = b ∧ row' = row ∧ col' = col then x % 2 ^ 32 else k.elem u b' row' col' := by
  have hget : ∀ i, get 0#8 (k.setElem tile b row col x).tiles i =
      (if tileKey k tile b row col ≤ i then (leBytes 4 x)[i - tileKey k tile b row col]? else none).getD (get 0#8 k.tiles i) := fun i => by
    refine (get_foldl_put (0#8) (fun y _ => y) _ (leBytes 4 x) k.tiles i).trans ?_
    simp only [Option.map_id']
  unfold Cluster.elem
  have hkey : ∀ i, tileKey (k.setElem tile b row col x) u b' row' col' + i = tileKey k u b' row' col' + i := fun _ => rfl
  simp only [hget, hkey]
  split
  · next h =>
    obtain ⟨rfl, rfl, rfl, rfl⟩ := h
    rw [← leNat_leBytes 4 x]
    congr 1
    refine List.ext_getElem (by simp) fun i hi hi' => ?_
    rw [List.getElem_map, List.getElem_range, if_pos (by omega), Nat.add_sub_cancel_left, List.getElem?_eq_getElem hi', Option.getD_some]
  · next h =>
    congr 1
    refine List.map_congr_left fun i hi => ?_
    have hi : i < 4 := List.mem_range.1 hi
    split
    · next hle =>
      rw [List.getElem?_eq_none, Option.getD_none]
      rw [leBytes_length]
      by_contra hlt
      obtain ⟨h1, h2, h3, h4, -⟩ := tileKey_inj hrow hcol hrow' hcol' (Nat.not_le.1 hlt) hi
        (Nat.add_sub_cancel' hle : tileKey k tile b row col + (tileKey k u b' row' col' + i - tileKey k tile b row col) = _)
      exact h ⟨h1.symm, h2.symm, h3.symm, h4.symm⟩
    · rfl

/-- Elements of one bank written, each with the value that a function gives for its place. -/
theorem elem_foldl_setElem {β : Type} (pos : β → Nat × Nat) (val : β → Nat) (f : Nat → Nat → Nat) {l : List β}
    (hl : ∀ e ∈ l, (pos e).1 < 128 ∧ (pos e).2 < 128 ∧ val e = f (pos e).1 (pos e).2) {u row col : Nat} {b' : Bool}
    (hrow : row < 128) (hcol : col < 128) :
    (l.foldl (fun k e => k.setElem tile b (pos e).1 (pos e).2 (val e)) k).elem u b' row col =
      if u = tile ∧ b' = b ∧ (row, col) ∈ l.map pos then f row col % 2 ^ 32 else k.elem u b' row col := by
  induction l generalizing k with
  | nil => simp
  | cons e l ih =>
    obtain ⟨hr, hc, hv⟩ := hl e List.mem_cons_self
    rw [List.foldl_cons, ih fun e he => hl e (List.mem_cons_of_mem _ he), elem_setElem _ hr hc hrow hcol, hv]
    have hpos : (row, col) = pos e ↔ row = (pos e).1 ∧ col = (pos e).2 := Prod.ext_iff
    simp only [List.map_cons, List.mem_cons, hpos]
    by_cases hu : u = tile <;> by_cases hb : b' = b <;> by_cases he : row = (pos e).1 ∧ col = (pos e).2 <;>
      by_cases hm : (row, col) ∈ l.map pos <;> simp [hu, hb, he, hm]

theorem foldl_cluster_id {β : Type} (f : Cluster → β → Cluster) (hf : ∀ k e, (f k e).id = k.id) (l : List β) (k : Cluster) :
    (l.foldl f k).id = k.id := by
  induction l generalizing k with
  | nil => rfl
  | cons e l ih => rw [List.foldl_cons, ih, hf]

end

/-! ## Flags -/

/-- The flag of a wave counted down. -/
theorem flagDown_eq (w : Wave) (n : Nat) :
    w.flagDown n = { w with flags := (w.flagDown n).flags, state := woken w (w.flagDown n) } := by
  have hstate : woken w (w.flagDown n) = (w.setF n (w.getF n - 1)).flagWake.state := by
    rw [woken, Wave.flagDown, Wave.flagWake_flags]
    rfl
  rw [hstate, Wave.flagDown, Wave.flagWake_flags]
  exact Wave.flagWake_eq _

theorem getF_flagDown (w : Wave) (n f : Nat) : (w.flagDown n).getF f = if f = n then w.getF f - 1 else w.getF f := by
  rw [Wave.flagDown, Wave.getF, Wave.flagWake_flags, ← Wave.getF, getF_setF]
  split
  · next h => rw [h]
  · rfl

/-- Whether a wave wakes depends on its state and its flags alone. -/
theorem flagWake_state_congr {w x : Wave} (hstate : w.state = x.state) (hflags : w.flags = x.flags) :
    w.flagWake.state = x.flagWake.state := by
  have hclear : ∀ m, w.clearIn m = x.clearIn m := fun m => by simp only [Wave.clearIn, Wave.getF, hflags]
  unfold Wave.flagWake
  rw [hstate]
  split
  · rw [hclear]
    split
    · rfl
    · exact hstate
  · exact hstate

theorem flagDown_raised (w : Wave) (fl : Sticky) (n : Nat) : FlagDown w ((w.raise fl).flagDown n) n fl := by
  have hwoken : ∀ x, woken (w.raise fl) x = woken w x := fun _ => flagWake_state_congr rfl rfl
  refine ⟨?_, getF_flagDown (w.raise fl) n⟩
  have h := flagDown_eq (w.raise fl) n
  rwa [hwoken] at h

theorem flagDown_plain (w : Wave) (n : Nat) : FlagDown w (w.flagDown n) n 0 := by
  have hzero : w.sticky ||| 0 = w.sticky := BitVec.or_zero
  have hraise : w.raise 0 = w := by rw [Wave.raise, hzero]
  have h := flagDown_raised w 0 n
  rwa [hraise] at h

/-! ## Waves and teams once they have changed -/

section
variable {s : State} {i : Nat}

theorem wave?_updWave_same {f : Wave → Wave} (hf : ∀ w, (f w).id = w.id) {w : Wave} (h : s.wave? i = some w) :
    (s.updWave i f).wave? i = some (f w) := by
  unfold State.wave? State.updWave at *
  rw [List.find?_map]
  have hid : ((fun w : Wave => w.id == i) ∘ fun x => if x.id = i then f x else x) = fun w => w.id == i := by
    funext x
    rw [Function.comp_apply]
    split
    · rw [hf]
    · rfl
  have hw : w.id = i := by simpa using List.find?_some h
  rw [hid, h, Option.map_some, if_pos hw]

theorem wave?_updWave_other {f : Wave → Wave} (hf : ∀ w, (f w).id = w.id) {j : Nat} (hj : j ≠ i) :
    (s.updWave i f).wave? j = s.wave? j := by
  unfold State.wave? State.updWave
  rw [List.find?_map]
  have hid : ((fun w : Wave => w.id == j) ∘ fun x => if x.id = i then f x else x) = fun w => w.id == j := by
    funext x
    rw [Function.comp_apply]
    split
    · rw [hf]
    · rfl
  rw [hid]
  cases hfind : s.waves.find? fun w => w.id == j with
  | none => rfl
  | some w =>
    have hw : w.id = j := by simpa using List.find?_some hfind
    rw [Option.map_some, if_neg (hw.trans_ne hj)]

theorem team?_updTeam_same {f : Team → Team} (hf : ∀ t, (f t).id = t.id) {t : Team} (h : s.team? i = some t) :
    (s.updTeam i f).team? i = some (f t) := by
  unfold State.team? State.updTeam at *
  rw [List.find?_map]
  have hid : ((fun t : Team => t.id == i) ∘ fun x => if x.id = i then f x else x) = fun t => t.id == i := by
    funext x
    rw [Function.comp_apply]
    split
    · rw [hf]
    · rfl
  have ht : t.id = i := by simpa using List.find?_some h
  rw [hid, h, Option.map_some, if_pos ht]

/-- A team that does not trail or lead another writes its own scratchpad alone. -/
theorem spWriteBoth_alone {t : Team} (h : s.team? i = some t) (hpeer : t.peer = none) (o : Nat) (bytes : List (BitVec 8)) :
    spWriteBoth s i o bytes = s.updTeam i fun t => t.spWrite o bytes := by
  rw [spWriteBoth, h]
  simp only [hpeer]

end

/-! ## An operation in flight of a lone wave -/

section
variable {s t : State} {o : Op} {w : Wave} {c : Issue}

/-- The team of an issue is the team of its operation. -/
theorem flying_team (h : Flying s o w c) : s.team? c.tm.id = some c.tm := by
  have hissue := h.issue
  unfold opIssue at hissue
  rw [h.wave] at hissue
  split at hissue
  · next w' tm _ htm =>
    split at hissue
    · split at hissue
      · cases hissue
        have hid : tm.id = o.team := by simpa using List.find?_some htm
        rw [hid]
        exact htm
      · cases hissue
    · cases hissue
  · cases hissue

/-- In a state with the same waves, a change to the wave of a lone wave's operation and its partner is one to the wave alone. -/
theorem updPair_flying (h : Flying s o w c) (ht : t.waves = s.waves) (f : Wave → Wave) : t.updPair o.wave f = t.updWave o.wave f := by
  have hw : t.wave? o.wave = some w := by
    rw [State.wave?, ht]
    exact h.wave
  rw [State.updPair, hw]
  simp only [h.role]

/-- The wave of an operation that completes: its flags raised, and its flag down. -/
theorem wave?_down (h : Flying s o w c) (ht : t.waves = s.waves) (fl : Sticky) :
    ∃ w', (t.updPair o.wave fun w => (w.raise fl).flagDown o.flag).wave? o.wave = some w' ∧ FlagDown w w' o.flag fl := by
  have hw : t.wave? o.wave = some w := by
    rw [State.wave?, ht]
    exact h.wave
  rw [updPair_flying h ht]
  exact ⟨_, wave?_updWave_same (fun x => Wave.flagDown_id (x.raise fl) _) hw, flagDown_raised w fl o.flag⟩

theorem wave?_opDown (h : Flying s o w c) (ht : t.waves = s.waves) :
    ∃ w', (o.down t).wave? o.wave = some w' ∧ FlagDown w w' o.flag 0 := by
  have hw : t.wave? o.wave = some w := by
    rw [State.wave?, ht]
    exact h.wave
  rw [Op.down, updPair_flying h ht]
  exact ⟨_, wave?_updWave_same (fun _ => Wave.flagDown_id _ _) hw, flagDown_plain w o.flag⟩

end

section
variable (s : State) (i : Nat) (f : Wave → Wave)

/-- A change to a pair of waves leaves everything but the waves as it is. -/
theorem updPair_eq : s.updPair i f = { s with waves := (s.updPair i f).waves } := by
  unfold State.updPair
  split
  · rfl
  · dsimp only
    split <;> rfl

@[simp] theorem updPair_teams : (s.updPair i f).teams = s.teams := by rw [updPair_eq]
@[simp] theorem updPair_ops : (s.updPair i f).ops = s.ops := by rw [updPair_eq]
@[simp] theorem updPair_clusters : (s.updPair i f).clusters = s.clusters := by rw [updPair_eq]
@[simp] theorem updPair_mem : (s.updPair i f).mem = s.mem := by rw [updPair_eq]

end

theorem cluster_opDown (s : State) (o : Op) (n : Nat) : (o.down s).cluster n = s.cluster n := cluster_of_clusters (updPair_clusters _ _ _)

end Sys2Proof.MatrixEffect

/-! # Tokens, banks, tread and twrite (08 R218 to R224) -/

namespace Sys2Proof.TileEffect

open Sys2Proof.Machine Sys2Proof.Machine.Laws Sys2Proof.FramesKept Sys2Proof.MatrixEffect

/-! ## Tokens and banks (08 Table 08-6) -/

section
variable {k : Cluster} {tile u row col : Nat} {b : Bool}

@[simp] theorem tileStep_id (minor wave : Nat) : (k.tileStep minor tile wave).id = k.id := by
  unfold Cluster.tileStep
  split <;> rfl

@[simp] theorem tileStep_cols (minor wave : Nat) : (k.tileStep minor tile wave).cols = k.cols := by
  unfold Cluster.tileStep
  split <;> rfl

theorem holder_take (wave : Nat) : (k.tileStep 1 tile wave).holder tile = some wave := by
  simp [Cluster.tileStep, Cluster.holder]

theorem holder_release (wave : Nat) : (k.tileStep 2 tile wave).holder tile = none := by
  simp [Cluster.tileStep, Cluster.holder]

/-- tkacq and tkrel leave the elements as they are. -/
theorem elem_token {minor : Nat} (hminor : minor = 1 ∨ minor = 2) (wave : Nat) :
    (k.tileStep minor tile wave).elem u b row col = k.elem u b row col := by
  rcases hminor with rfl | rfl <;> rfl

/-- tswap gives each bank of its tile the elements of the other. -/
theorem elem_swap (wave : Nat) :
    (k.tileStep 3 tile wave).elem u b row col = if u = tile then k.elem u (!b) row col else k.elem u b row col := by
  have hbank : (k.tileStep 3 tile wave).bank u b = if u = tile then k.bank u (!b) else k.bank u b := by
    unfold Cluster.bank
    simp only [Cluster.tileStep, get_put]
    by_cases hu : u = tile
    · subst hu
      cases get false k.swapped u <;> cases b <;> simp
    · simp [hu]
  have hkey : tileKey (k.tileStep 3 tile wave) u b row col = if u = tile then tileKey k u (!b) row col else tileKey k u b row col := by
    unfold tileKey
    rw [hbank]
    split <;> rfl
  unfold Cluster.elem
  rw [hkey]
  split <;> rfl

/-- tzero clears the working bank of its tile. -/
theorem elem_zeroTile (hrow : row < 128) (hcol : col < 128) :
    (k.zeroTile tile).elem u b row col = if u = tile ∧ b = true then 0 else k.elem u b row col := by
  have hsame : (2 * u + k.bank u b = 2 * tile + k.bank tile true) ↔ u = tile ∧ b = true := by
    have hb := bank_lt k u b
    have ht := bank_lt k tile true
    constructor
    · intro h
      obtain ⟨rfl, hbank⟩ : u = tile ∧ k.bank u b = k.bank tile true := by omega
      refine ⟨rfl, ?_⟩
      unfold Cluster.bank at hbank
      revert hbank
      cases get false k.swapped u <;> cases b <;> simp
    · rintro ⟨rfl, rfl⟩
      rfl
  have hget : ∀ i < 4, get 0#8 (k.zeroTile tile).tiles (tileKey k u b row col + i) =
      if u = tile ∧ b = true then 0 else get 0#8 k.tiles (tileKey k u b row col + i) := fun i hi => by
    refine (get_filter (0#8) (fun j => j / 65536 != 2 * tile + k.bank tile true) k.tiles _).trans ?_
    have hdiv : (tileKey k u b row col + i) / 65536 = 2 * u + k.bank u b := by
      unfold tileKey
      omega
    rw [hdiv]
    simp only [bne_iff_ne, ne_eq, hsame, ite_not]
    rfl
  unfold Cluster.elem
  have hkey : ∀ i, tileKey (k.zeroTile tile) u b row col + i = tileKey k u b row col + i := fun _ => rfl
  simp only [hkey]
  rw [List.map_congr_left fun i hi => hget i (List.mem_range.1 hi)]
  split <;> rfl

/-- A token or bank instruction changes its own tile alone. -/
theorem elem_tileStep_other {minor : Nat} (wave : Nat) (hu : u ≠ tile) (hrow : row < 128) (hcol : col < 128) :
    (k.tileStep minor tile wave).elem u b row col = k.elem u b row col := by
  by_cases h1 : minor = 1 ∨ minor = 2
  · exact elem_token h1 wave
  · by_cases h3 : minor = 3
    · rw [h3, elem_swap, if_neg hu]
    · have hzero : k.tileStep minor tile wave = k.zeroTile tile := by
        unfold Cluster.tileStep
        split <;> simp_all
      rw [hzero, elem_zeroTile hrow hcol, if_neg fun h => hu h.1]

end

section
variable {s : State} {o : Op} {w : Wave} {c : Issue} (h : Flying s o w c)
include h

/-- An operation that only counts its flag down, in a state from which it has been dropped. -/
theorem opDone_of_down {i : Instr} {t : State} {P : State → Wave → Prop} (he : exec i s = .next (o.down t)) (hw : t.waves = s.waves)
    (hops : t.ops = s.ops.filter fun x => x.id != o.id) (hP : ∀ w', P (o.down t) w') : OpDone i s o P := by
  have hfound : t.wave? o.wave = some w := by
    rw [State.wave?, hw]
    exact h.wave
  have hdown : o.down t = t.updWave o.wave fun w => w.flagDown o.flag := updPair_flying h hw _
  refine ⟨_, w, w.flagDown o.flag, he, h.wave, ?_, fun j hj => ?_, ?_, ?_, getF_flagDown w o.flag, hP _⟩
  · rw [hdown]
    exact wave?_updWave_same (fun _ => Wave.flagDown_id _ _) hfound
  · rw [hdown, wave?_updWave_other (fun _ => Wave.flagDown_id _ _) hj, State.wave?, hw, State.wave?]
  · rw [hdown]
    exact hops
  · simp only [Wave.flagDown_v, Wave.flagDown_vBad, Wave.flagDown_vDirty, Wave.flagDown_s, Wave.flagDown_sBad, Wave.flagDown_lvq]
    exact flagDown_eq w o.flag

/-- A token or bank instruction takes effect on its cluster (08 R218, R221). -/
theorem tileInstrEffect_done (hturn : tileTurn s o = true) {minor tile : Nat} (hkind : o.kind = .tile minor tile)
    {P : State → Prop} (hP : ∀ t : State, t.cluster (opCluster s o) = (s.cluster (opCluster s o)).tileStep minor tile o.wave →
      t.mem = s.mem → P t) : OpDone (.tileInstrEffect o.id) s o fun t _ => P t := by
  have hexec : exec (.tileInstrEffect o.id) s =
      .next (o.down ((s.dropOp o.id).setCluster ((s.cluster (opCluster s o)).tileStep minor tile o.wave))) := by
    rw [exec_tileInstrEffect, execTileInstrEffect, h.op]
    simp only [hkind, hturn, if_true]
  refine opDone_of_down h hexec rfl rfl fun _ => hP _ ?_ (updPair_mem _ _ _)
  rw [cluster_opDown, cluster_setCluster (by rw [tileStep_id, cluster_id])]

end

/-! ## tread and twrite (08 R222 to R224) -/

theorem rowElems_eq (rows : Nat) :
    rowElems rows = (List.range (128 * (rowSpan rows).2)).map fun i => ((rowSpan rows).1 + i / 128, i % 128, i) := by
  refine (flatMap_range_range 128 (rowSpan rows).2 fun n j => ((rowSpan rows).1 + n, j, 128 * n + j)).trans ?_
  simp only [Nat.div_add_mod]

theorem rowSpan_le (rows : Nat) : (rowSpan rows).1 + (rowSpan rows).2 ≤ 128 := by
  have hfirst : bitsN rows 0 7 < 128 := Nat.mod_lt _ (by decide)
  simp only [rowSpan]
  omega

/-- The rows and columns of a transfer. -/
theorem mem_rowElems {rows row col : Nat} (hcol : col < 128) :
    (row, col) ∈ (rowElems rows).map (fun e => (e.1, e.2.1)) ↔ (rowSpan rows).1 ≤ row ∧ row < (rowSpan rows).1 + (rowSpan rows).2 := by
  rw [rowElems_eq, List.map_map]
  simp only [List.mem_map, List.mem_range, Function.comp_apply, Prod.mk.injEq]
  constructor
  · rintro ⟨i, hi, rfl, -⟩
    omega
  · rintro ⟨hle, hlt⟩
    exact ⟨128 * (row - (rowSpan rows).1) + col, by omega, by omega, by omega⟩

/-- The elements of a cluster once a twrite has been performed. -/
theorem elem_performTwrite {c : Issue} {k : Cluster} {tile rows slot : Nat} {seed : Word} {bs : List (BitVec 8)} {u row col : Nat} {b : Bool}
    (hrow : row < 128) (hcol : col < 128) :
    let x := slotOfLaunch c.g.launch slot
    let z := rowElemBytes rows x
    let v := fun i => tileIn rows x (draw seed 0 i) (leNat ((bs.drop (z * i)).take z))
    (performTwrite c k tile rows slot seed bs).1.elem u b row col =
      if u = tile ∧ b = (bitsN rows 16 1 == 1) ∧ (rowSpan rows).1 ≤ row ∧ row < (rowSpan rows).1 + (rowSpan rows).2 then
        (v (128 * (row - (rowSpan rows).1) + col)).1 % 2 ^ 32
      else k.elem u b row col := by
  intro x z v
  have hspan := rowSpan_le rows
  have hset := elem_foldl_setElem (k := k) (tile := tile) (b := bitsN rows 16 1 == 1) (u := u) (b' := b)
    (fun e : (Nat × Nat × Nat) × (Nat × Sticky) => (e.1.1, e.1.2.1)) (fun e => e.2.1)
    (fun row col => (v (128 * (row - (rowSpan rows).1) + col)).1) (l := (rowElems rows).map fun e => (e, v e.2.2)) ?_ hrow hcol
  · refine hset.trans ?_
    rw [List.map_map]
    simp only [show ((fun e : (Nat × Nat × Nat) × (Nat × Sticky) => (e.1.1, e.1.2.1)) ∘ fun e => (e, v e.2.2)) =
      fun e => (e.1, e.2.1) from rfl, mem_rowElems hcol]
  · intro e he
    rw [rowElems_eq, List.map_map] at he
    obtain ⟨i, hi, rfl⟩ := List.mem_map.1 he
    have hi := List.mem_range.1 hi
    simp only [Function.comp_apply]
    exact ⟨by omega, by omega, by rw [show 128 * ((rowSpan rows).1 + i / 128 - (rowSpan rows).1) + i % 128 = i by omega]⟩

theorem performTwrite_flags {c : Issue} {k : Cluster} {tile rows slot : Nat} {seed : Word} {bs : List (BitVec 8)} :
    let x := slotOfLaunch c.g.launch slot
    let z := rowElemBytes rows x
    (performTwrite c k tile rows slot seed bs).2 = orAll ((List.range (128 * (rowSpan rows).2)).map fun i =>
      (tileIn rows x (draw seed 0 i) (leNat ((bs.drop (z * i)).take z))).2) := by
  simp only [performTwrite, rowElems_eq, List.map_map, Function.comp_def]

theorem performTwrite_id {c : Issue} {k : Cluster} {tile rows slot : Nat} {seed : Word} {bs : List (BitVec 8)} :
    (performTwrite c k tile rows slot seed bs).1.id = k.id := by
  unfold performTwrite
  exact foldl_cluster_id _ (by intro _ _; rfl) _ _

/-- The bytes of a tread stored where no mapping of a stash lies among their places. -/
theorem rowsOut_sp {s : State} {c : Issue} {via : List (Nat × Nat)} {sp team : Nat} {os : List Nat} {l : List (BitVec 8)} :
    rowsOut s c via sp (os.map fun a => .sp team a) l = spWriteBoth s c.tm.id sp l := by
  unfold rowsOut
  dsimp only
  generalize hg : List.filterMap _ ((os.map fun a => Place.sp team a).zip l) = glob
  obtain rfl : glob = [] := by
    rw [← hg, List.filterMap_eq_nil_iff]
    intro p hp
    obtain ⟨a, -, ha⟩ := List.mem_map.1 (List.of_mem_zip hp).1
    rw [← ha]
  exact if_pos rfl

section
variable {t : Team} {sp z : Nat} {l : List (Nat × Sticky)} (hsp : 256 ≤ sp)
include hsp

/-- An element among those written one after another. -/
theorem spNat_elements {i : Nat} {v : Nat × Sticky} (hv : l[i]? = some v) :
    (t.spWrite sp (l.flatMap fun v => leBytes z v.1)).spNat (sp + z * i) z = v.1 % 2 ^ (8 * z) := by
  have hlen := length_flatMap_of_length (f := fun v : Nat × Sticky => leBytes z v.1) (fun _ => leBytes_length _ _) l
  have hi : i < l.length := (List.getElem?_eq_some_iff.1 hv).1
  have hpart : z * i + z ≤ z * l.length := Nat.mul_le_mul_left z hi
  rw [spNat_spWrite hsp (hpart.trans hlen.ge), take_drop_flatMap (fun _ => leBytes_length _ _) hv, leNat_leBytes]

/-- Outside them the scratchpad is as it was. -/
theorem spByte_elements_outside {a : Nat} (ha : a < sp ∨ sp + z * l.length ≤ a) :
    (t.spWrite sp (l.flatMap fun v => leBytes z v.1)).spByte a = t.spByte a := by
  have hlen := length_flatMap_of_length (f := fun v : Nat × Sticky => leBytes z v.1) (fun _ => leBytes_length _ _) l
  rw [spByte_spWrite hsp]
  rcases ha with ha | ha
  · rw [if_neg (by omega), Option.getD_none]
  · rw [List.getElem?_eq_none (by omega), ite_self, Option.getD_none]

end

section
variable {s : State} {o : Op} {w : Wave} {c : Issue} (h : Flying s o w c) (hturn : tileTurn s o = true)
  {write : Bool} {tile sp rows slot : Nat} {seed : Word} {ps : List Place} (hkind : o.kind = .tileRows write tile sp rows slot seed ps)
  (hready : canEngine s o = true)
include h hturn hkind hready

/-- twrite moves the rows it names into its bank of its tile, and nothing else. -/
theorem twrite_completes (hw : write = true) (hmarks : ∀ q ∈ ps, placeMark (beforeEngine (s.dropOp o.id) o) c.tm q = .ok) :
    let s1 := beforeEngine (s.dropOp o.id) o
    let r := performTwrite c (s.cluster (opCluster s o)) tile rows slot seed (ps.map (placeByte s1 c.w c.tm))
    ∃ t w', exec (.tileRowsComplete o.id) s = .next t ∧ t.wave? o.wave = some w' ∧ FlagDown w w' o.flag r.2 ∧ t.teams = s.teams ∧
      t.mem = s1.mem ∧ t.cluster (opCluster s o) = r.1 := by
  intro s1 r
  have hgood : (ps.any fun p => placeMark s1 c.tm p != .ok) = false := by
    rw [List.any_eq_false]
    intro q hq
    rw [hmarks q hq]
    decide
  have hexec : exec (.tileRowsComplete o.id) s = .next ((s1.setCluster r.1).updPair o.wave fun w => (w.raise r.2).flagDown o.flag) := by
    rw [exec_tileRowsComplete, execTileRowsComplete, h.op]
    simp only [h.issue, hkind, hturn, hready, Bool.and_self, if_true, hw]
    rw [if_neg]
    exact Bool.eq_false_iff.1 hgood
  obtain ⟨w', hw', hflag⟩ := wave?_down h (t := s1.setCluster r.1) (beforeEngine_waves _ _) r.2
  refine ⟨_, w', hexec, hw', hflag, ?_, updPair_mem _ _ _, ?_⟩
  · rw [updPair_teams]
    exact beforeEngine_teams _ _
  · rw [cluster_of_clusters (updPair_clusters _ _ _), cluster_setCluster (performTwrite_id.trans cluster_id)]

/-- tread moves the rows it names into the scratchpad, and nothing else. -/
theorem tread_completes (hw : write = false) {os : List Nat} (hps : ps = os.map fun a => .sp c.tm.id a) :
    let s1 := beforeEngine (s.dropOp o.id) o
    let x := slotOfLaunch c.g.launch slot
    let z := rowElemBytes rows x
    let v := fun i => tileOut rows x (draw seed 0 i)
      ((s.cluster (opCluster s o)).elem tile (bitsN rows 16 1 == 1) ((rowSpan rows).1 + i / 128) (i % 128))
    let out := (List.range (128 * (rowSpan rows).2)).map v
    ∃ t w', exec (.tileRowsComplete o.id) s = .next t ∧ t.wave? o.wave = some w' ∧ FlagDown w w' o.flag (orAll (out.map (·.2))) ∧
      t.clusters = s.clusters ∧ t.mem = s1.mem ∧
      t.team? c.tm.id = some (c.tm.spWrite sp (out.flatMap fun v => leBytes z v.1)) := by
  intro s1 x z v out
  have hteam : s1.team? c.tm.id = some c.tm := by
    rw [State.team?, beforeEngine_teams, State.dropOp_teams]
    exact flying_team h
  have hout : performTread s1 c o.via (s.cluster (opCluster s o)) tile sp rows slot seed ps =
      (s1.updTeam c.tm.id fun t => t.spWrite sp (out.flatMap fun v => leBytes z v.1), orAll (out.map (·.2))) := by
    unfold performTread
    dsimp only
    rw [rowElems_eq, List.map_map, hps, rowsOut_sp, spWriteBoth_alone hteam h.peer]
    rfl
  have hexec : exec (.tileRowsComplete o.id) s = .next ((s1.updTeam c.tm.id fun t => t.spWrite sp (out.flatMap fun v => leBytes z v.1)).updPair
      o.wave fun w => (w.raise (orAll (out.map (·.2)))).flagDown o.flag) := by
    rw [exec_tileRowsComplete, execTileRowsComplete, h.op]
    simp only [h.issue, hkind, hturn, hready, Bool.and_self, if_true, hw, Bool.false_eq_true, if_false]
    rw [hout]
  obtain ⟨w', hw', hflag⟩ := wave?_down h (t := s1.updTeam c.tm.id fun t => t.spWrite sp (out.flatMap fun v => leBytes z v.1))
    (beforeEngine_waves _ _) (orAll (out.map (·.2)))
  refine ⟨_, w', hexec, hw', hflag, ?_, updPair_mem _ _ _, ?_⟩
  · rw [updPair_clusters]
    exact beforeEngine_clusters _ _
  · rw [State.team?, updPair_teams]
    exact team?_updTeam_same (f := fun t => t.spWrite sp _) (fun _ => rfl) hteam

end

/-- Settles O40: a token or bank instruction changes its own tile alone (`elem_tileStep_other`, `elem_swap`, `elem_zeroTile`); twrite sets
the elements of the rows it names (`elem_performTwrite`), and tread writes theirs to the scratchpad one after another
(`take_drop_flatMap`). -/
theorem tileResults : Obligations.TileResults := by
  intro s o w c h hturn n k
  refine ⟨fun minor tile hkind => ?_, fun write tile sp rows slot seed ps hkind hready => ⟨fun hw hmarks => ?_, fun hw hps hsp => ?_⟩⟩
  · refine tileInstrEffect_done h hturn hkind fun t hcluster hmem => ?_
    rw [hcluster]
    refine ⟨?_, ?_, fun row hrow col hcol => ⟨?_, ?_, fun hminor b => elem_token hminor _,
      fun u b hu => elem_tileStep_other _ hu hrow hcol⟩, tileStep_cols _ _, hmem⟩
    · rintro rfl
      exact holder_take _
    · rintro rfl
      exact holder_release _
    · rintro rfl b
      rw [elem_swap, if_pos rfl]
    · rintro rfl
      exact ⟨(elem_zeroTile hrow hcol).trans (if_pos ⟨rfl, rfl⟩), (elem_zeroTile hrow hcol).trans (if_neg (by simp))⟩
  · obtain ⟨t, w', he, hw', hflag, hteams, hmem, hcluster⟩ := twrite_completes h hturn hkind hready hw hmarks
    rw [performTwrite_flags] at hflag
    refine ⟨t, w', he, hw', hflag, hteams, hmem, fun row hrow col hcol u b => ?_⟩
    rw [hcluster]
    exact elem_performTwrite hrow hcol
  · obtain ⟨t, w', he, hw', hflag, hclusters, hmem, hteam⟩ := tread_completes (os := (List.range _).map (sp + ·)) h hturn hkind hready hw
      (hps.trans (by rw [List.map_map]; rfl))
    rw [List.map_map] at hflag
    refine ⟨t, w', _, he, hw', hflag, hclusters, hmem, hteam, fun i hi => ?_, fun a ha => ?_⟩
    · exact spNat_elements hsp (by rw [List.getElem?_map, List.getElem?_range hi, Option.map_some])
    · exact spByte_elements_outside hsp (by rwa [List.length_map, List.length_range])

end Sys2Proof.TileEffect

/-! # mma passes, colload and qcopy (08 R204 to R219, R225 to R232) -/

namespace Sys2Proof.MatrixCompletion

open Sys2Proof.Machine Sys2Proof.Machine.Laws Sys2Proof.FramesKept Sys2Proof.MatrixEffect

/-! ## What an engine's reads and writes leave (08 R227, R232) -/

theorem outlineOf_readUnit {c : Issue} {l : List (Nat × Nat × Nat)} {s t : State} {r : List (Nat × List (BitVec 8 × Bool))}
    (h : readUnit c s l = some (t, r)) : outlineOf t = outlineOf s := by
  induction l generalizing s t r with
  | nil =>
    cases h
    rfl
  | cons p l ih =>
    obtain ⟨src, n, off⟩ := p
    rw [readUnit] at h
    split at h
    · cases h
    · next s1 bs hread =>
      split at h
      · cases h
      · next hrest =>
        cases h
        exact (ih hrest).trans (outlineOf_engineRead hread)

theorem outlineOf_loadUnits (c : Issue) (slice : Nat) (us : List (List (Nat × Nat × Nat))) (s : State) (k : Cluster) (bad : Bool) :
    outlineOf (loadUnits c slice us s k bad).1 = outlineOf s := by
  induction us generalizing s k bad with
  | nil => rfl
  | cons u us ih =>
    rw [loadUnits]
    split
    · rfl
    · next hu => exact (ih _ _ _).trans (outlineOf_readUnit hu)

theorem outlineOf_loadCols (c : Issue) (d : List (BitVec 8)) (n col : Nat) (s : State) (k : Cluster) (bad : Bool) :
    outlineOf (loadCols c d n col s k bad).1 = outlineOf s := by
  induction n generalizing col s k bad with
  | zero => rfl
  | succ n ih =>
    have hunits := outlineOf_loadUnits c (field d 0x0D 1 + col) (colUnits c.g.launch d col) s k bad
    rw [loadCols]
    split
    · next heq =>
      rw [heq] at hunits
      exact (ih _ _ _ _).trans hunits
    · next heq =>
      rw [heq] at hunits
      exact hunits

theorem setCols_id (k : Cluster) (slice o : Nat) (l : List (BitVec 8 × Bool)) : (k.setCols slice o l).id = k.id := by
  unfold Cluster.setCols
  exact foldl_cluster_id _ (by intro _ _; rfl) _ _

theorem loadUnits_id (c : Issue) (slice : Nat) (us : List (List (Nat × Nat × Nat))) (s : State) (k : Cluster) (bad : Bool) :
    (loadUnits c slice us s k bad).2.1.id = k.id := by
  induction us generalizing s k bad with
  | nil => rfl
  | cons u us ih =>
    rw [loadUnits]
    split
    · rfl
    · exact (ih _ _ _).trans (foldl_cluster_id _ (fun _ _ => setCols_id _ _ _ _) _ _)

theorem loadCols_id (c : Issue) (d : List (BitVec 8)) (n col : Nat) (s : State) (k : Cluster) (bad : Bool) :
    (loadCols c d n col s k bad).2.1.id = k.id := by
  induction n generalizing col s k bad with
  | zero => rfl
  | succ n ih =>
    have hunits := loadUnits_id c (field d 0x0D 1 + col) (colUnits c.g.launch d col) s k bad
    rw [loadCols]
    split
    · next heq =>
      rw [heq] at hunits
      exact (ih _ _ _ _).trans hunits
    · next heq =>
      rw [heq] at hunits
      exact hunits

theorem outlineOf_sideRead {c : Issue} {s t : State} {sp : Bool} {addr n : Nat} {l : List (BitVec 8 × Bool)}
    (h : sideRead c s sp addr n = some (t, l)) : outlineOf t = outlineOf s := by
  unfold sideRead at h
  cases sp
  · simp only [Bool.false_eq_true, if_false] at h
    split at h
    · next hread =>
      cases h
      exact outlineOf_engineRead hread
    · cases h
  · simp only [if_true] at h
    split at h
    · next hread =>
      cases h
      exact outlineOf_spIn hread
    · cases h

theorem outlineOf_sideWrite {c : Issue} {s t : State} {sp : Bool} {addr : Nat} {l : List (BitVec 8 × Bool)}
    (h : sideWrite c s sp addr l = some t) : outlineOf t = outlineOf s := by
  unfold sideWrite at h
  cases sp
  · simp only [Bool.false_eq_true, if_false] at h
    split at h
    · next hput =>
      cases h
      exact outlineOf_enginePut hput
    · cases h
  · simp only [if_true] at h
    split at h
    · next hput =>
      cases h
      exact outlineOf_spOut hput
    · cases h

theorem outlineOf_sideReadRun (c : Issue) (sp : Bool) (fuel : Nat) (s : State) (addr n : Nat) :
    outlineOf (sideReadRun c sp fuel s addr n).1 = outlineOf s := by
  induction fuel generalizing s addr n with
  | zero => rfl
  | succ fuel ih =>
    rw [sideReadRun]
    split
    · rfl
    · dsimp only
      split
      · rfl
      · next hread => exact (ih _ _ _).trans (outlineOf_sideRead hread)

theorem outlineOf_sideWriteRun (c : Issue) (sp : Bool) (fuel : Nat) (s : State) (addr : Nat) (l : List (BitVec 8 × Bool)) :
    outlineOf (sideWriteRun c sp fuel s addr l).1 = outlineOf s := by
  induction fuel generalizing s addr l with
  | zero => rfl
  | succ fuel ih =>
    rw [sideWriteRun]
    split
    · rfl
    · dsimp only
      split
      · rfl
      · next hwrite => exact (ih _ _ _).trans (outlineOf_sideWrite hwrite)

section
variable (c : Issue) (d : List (BitVec 8)) (x : Nat) (table : List Nat) (seed : Word) (row : Nat)

theorem outlineOf_quantBlockAt (b : Nat) (r : QRun) : outlineOf (quantBlockAt c d x table seed row b r).s = outlineOf r.s := by
  unfold quantBlockAt
  dsimp only
  split
  · rfl
  · next s1 bs hread =>
    have h1 := outlineOf_sideRead hread
    split
    · exact h1
    · next s2 hwrite =>
      split
      · exact h1
      · next s3 hscale => exact (outlineOf_sideWrite hscale).trans ((outlineOf_sideWrite hwrite).trans h1)

theorem outlineOf_quantBlocks (r : QRun) : outlineOf (quantBlocks c d x table seed row r).s = outlineOf r.s := by
  unfold quantBlocks
  induction List.range (field d 0x0E 2 / slotBlock x) generalizing r with
  | nil => rfl
  | cons b l ih =>
    rw [List.foldl_cons, ih]
    split
    · exact outlineOf_quantBlockAt c d x table seed row b r
    · rfl

theorem outlineOf_quantRow (r : QRun) : outlineOf (quantRow c d x seed row r).s = outlineOf r.s :=
  (outlineOf_sideWriteRun _ _ _ _ _ _).trans (outlineOf_sideReadRun _ _ _ _ _ _)

theorem outlineOf_quantRows (n : Nat) (r : QRun) : outlineOf (quantRows c d x table seed n row r).1.s = outlineOf r.s := by
  induction n generalizing row r with
  | zero => rfl
  | succ n ih =>
    rw [quantRows]
    have hrow : outlineOf (if slotScale x = 1 then quantBlocks c d x table seed row r else quantRow c d x seed row r).s = outlineOf r.s := by
      split
      · exact outlineOf_quantBlocks c d x table seed row r
      · exact outlineOf_quantRow c d x seed row r
    generalize (if slotScale x = 1 then quantBlocks c d x table seed row r else quantRow c d x seed row r) = q at hrow ⊢
    split
    · exact (ih _ _).trans hrow
    · exact hrow

end

theorem outlineOf_performQcopy (c : Issue) (s : State) (d : List (BitVec 8)) (x : Nat) (lat : Option Nat) (seed : Word) :
    outlineOf (performQcopy c s d x lat seed).1 = outlineOf s := by
  unfold performQcopy
  dsimp only
  split
  · rfl
  · exact outlineOf_quantRows _ _ _ _ _ _ _ _

/-! ## STATUS (08 Table 08-4) -/

section
variable {s t : State} {o : Op} {w : Wave} {c : Issue} {off : Nat}

theorem clobbers_of_le {tm : Team} {n : Nat} (h : 256 ≤ off) : tm.clobbers off n = false := by
  unfold Team.clobbers
  rw [List.any_eq_false]
  intro k hk
  have hk := List.mem_range.1 hk
  rw [decide_eq_false (by omega : ¬off < 8 * k + 8), Bool.and_false, Bool.false_and]
  exact Bool.false_ne_true

/-- Whether a range overlaps a mapping can be told from the outline of a team. -/
theorem stashed_of_outline {tm tm' : Team} (h : outlineTeam tm' = outlineTeam tm) (a n : Nat) : tm'.stashed a n = tm.stashed a n := by
  have hst : ∀ x : Team, x.stashed a n = (outlineTeam x).stashed a n := fun x => by
    simp only [Team.stashed, outlineTeam, List.any_map, Function.comp_def]
  rw [hst, h, ← hst]

/-- STATUS written in the scratchpad of a team that stands alone. -/
theorem writeStatus_alone {tm t0 : Team} (hteam : t.team? tm.id = some t0) (hpeer : t0.peer = none) (hoff : 256 ≤ off)
    (hclear : t0.stashed off 8 = false) (x : Nat) :
    writeStatus t tm off x = t.updTeam tm.id fun t => t.spWrite off (leBytes 8 x) := by
  rw [writeStatus, hteam]
  simp only [clobbers_of_le hoff, hclear, Bool.false_eq_true, Bool.not_false, if_true, if_false]
  exact spWriteBoth_alone hteam hpeer off _

/-- An operation that ends: STATUS stands in its scratchpad, its flag is down and it is no longer in flight. -/
def Ends (s : State) (o : Op) (w : Wave) (c : Issue) (i : Instr) (off st : Nat) (P : State → Prop) : Prop :=
  ∃ t w' tm, exec i s = .next t ∧ t.wave? o.wave = some w' ∧ FlagDown w w' o.flag 0 ∧ t.op? o.id = none ∧ t.team? c.tm.id = some tm ∧
    tm.spNat off 8 = st % 2 ^ 64 ∧ P t

/-- What the work of an operation of the team `tm` keeps of the state `s`: the waves, the team in outline, and no other operation under
its number. -/
structure Worked (s : State) (o : Op) (tm : Team) (t : State) : Prop where
  waves : t.waves = s.waves
  dropped : ∀ x ∈ t.ops, x.id ≠ o.id
  team : (t.team? tm.id).map outlineTeam = some (outlineTeam tm)

theorem dropOp_dropped (s : State) (i : Nat) : ∀ x ∈ (s.dropOp i).ops, x.id ≠ i := fun _ hx => by
  simpa using (List.mem_filter.1 hx).2

theorem worked_dropOp (h : Flying s o w c) : Worked s o c.tm (s.dropOp o.id) :=
  ⟨rfl, dropOp_dropped s o.id, congrArg (Option.map outlineTeam) (flying_team h)⟩

theorem Worked.of_outlineOf {t' : State} {tm : Team} (h : Worked s o tm t) (hout : outlineOf t' = outlineOf t) : Worked s o tm t' :=
  ⟨(waves_of_outlineOf hout).trans h.waves, fun x hx => h.dropped x (ops_of_outlineOf hout ▸ hx), (team?_of_outlineOf hout _).trans h.team⟩

theorem Worked.setCluster {tm : Team} (h : Worked s o tm t) (k : Cluster) : Worked s o tm (t.setCluster k) :=
  ⟨h.waves, h.dropped, h.team⟩

theorem worked_beforeEngine (h : Flying s o w c) : Worked s o c.tm (beforeEngine (s.dropOp o.id) o) :=
  (worked_dropOp h).of_outlineOf (outlineOf_of_frameOf (frameOf_beforeEngine _ _))

/-- STATUS written and the flag counted down after the work of an operation end it, and change neither memory nor clusters. -/
theorem ends_status {i : Instr} {st : Nat} {P : State → Prop} (h : Flying s o w c) (hoff : 256 ≤ off) (hclear : c.tm.stashed off 8 = false)
    (hwork : Worked s o c.tm t) (he : exec i s = .next (o.down (writeStatus t c.tm off st)))
    (hP : ∀ t' : State, t'.mem = t.mem → t'.clusters = t.clusters → P t') : Ends s o w c i off st P := by
  obtain ⟨hwaves, hdropped, hfind⟩ := hwork
  obtain ⟨t0, hteam, houtline⟩ := Option.map_eq_some_iff.1 hfind
  have hwrite := writeStatus_alone hteam ((congrArg Team.peer houtline).trans h.peer) hoff ((stashed_of_outline houtline _ _).trans hclear) st
  rw [hwrite] at he
  obtain ⟨w', hw', hflag⟩ := wave?_opDown h (t := t.updTeam c.tm.id fun t => t.spWrite off (leBytes 8 st)) hwaves
  refine ⟨_, w', t0.spWrite off (leBytes 8 st), he, hw', hflag, ?_, ?_, ?_, hP _ (updPair_mem _ _ _) (updPair_clusters _ _ _)⟩
  · have hops : (o.down (t.updTeam c.tm.id fun t => t.spWrite off (leBytes 8 st))).ops = t.ops := updPair_ops _ _ _
    rw [State.op?, hops, List.find?_eq_none]
    intro x hx
    simpa using hdropped x hx
  · rw [State.team?, Op.down, updPair_teams]
    exact team?_updTeam_same (f := fun t => t.spWrite off _) (fun _ => rfl) hteam
  · have hst := spNat_spWrite (t := t0) (bytes := leBytes 8 st) hoff (j := 0) (n := 8) (by simp)
    rw [Nat.add_zero, List.drop_zero, List.take_of_length_le (by simp), leNat_leBytes] at hst
    exact hst

end

/-! ## The checks of a parameter block (08 R210) -/

theorem firstCode_none {l : List (Nat × Nat × Bool)} (h : firstCode l = none) : ∀ e ∈ l, e.2.2 = true := by
  induction l with
  | nil => simp
  | cons e l ih =>
    obtain ⟨o, code, ok⟩ := e
    rw [firstCode] at h
    split at h
    · next hok => exact List.forall_mem_cons.2 ⟨hok, ih h⟩
    · cases h

/-- The window of a parameter block that breaks no rule lies within its tile. -/
theorem window_le {l : Launch} {p : List (BitVec 8)} {a : Nat} (h : firstCode (mmaChecks l p a) = none) :
    field p 6 1 + field p 4 1 ≤ 128 ∧ field p 7 1 + field p 5 1 ≤ 128 := by
  have hall := firstCode_none h
  unfold mmaChecks at hall
  simp only [List.forall_mem_cons, decide_eq_true_eq] at hall
  obtain ⟨-, -, -, -, -, -, -, -, hrows, -, hcols, -⟩ := hall
  exact ⟨hrows, hcols⟩

/-! ## The window (08 R215) -/

/-- The elements of a window row by row, their values and flags given by a function. -/
def windowOf (p : List (BitVec 8)) (g : Nat → Nat → Nat × Sticky) : List (Nat × Nat × Nat × Sticky) :=
  (List.range (field p 4 1)).flatMap fun i => (List.range (field p 5 1)).map fun j => (field p 6 1 + i, field p 7 1 + j, g i j)

theorem mmaWindow_eq (s : State) (c : Issue) (k : Cluster) (p : List (BitVec 8)) (a : Nat) (lat : Option Nat) :
    mmaWindow s c k p a lat = [] ∨ ∃ g, mmaWindow s c k p a lat = windowOf p g := by
  unfold mmaWindow
  dsimp only
  split
  · exact .inl rfl
  · exact .inr ⟨_, rfl⟩

/-- The elements of a cluster once a window has been written. -/
theorem elem_window {win : List (Nat × Nat × Nat × Sticky)} {p : List (BitVec 8)} (hwin : win = [] ∨ ∃ g, win = windowOf p g)
    (hrows : field p 6 1 + field p 4 1 ≤ 128) (hcols : field p 7 1 + field p 5 1 ≤ 128) (k : Cluster) (tile : Nat) {u row col : Nat}
    {b : Bool} (hrow : row < 128) (hcol : col < 128) :
    (win.foldl (fun k e => k.setElem tile true e.1 e.2.1 e.2.2.1) k).elem u b row col =
      match if u = tile ∧ b = true then win.find? fun e => e.1 == row && e.2.1 == col else none with
      | some e => e.2.2.1 % 2 ^ 32
      | none => k.elem u b row col := by
  obtain ⟨g, hg⟩ : ∃ g : Nat → Nat → Nat × Sticky, ∀ e ∈ win, e.1 < 128 ∧ e.2.1 < 128 ∧
      e.2.2 = g (e.1 - field p 6 1) (e.2.1 - field p 7 1) := by
    rcases hwin with rfl | ⟨g, rfl⟩
    · exact ⟨fun _ _ => (0, 0), by simp⟩
    · refine ⟨g, fun e he => ?_⟩
      obtain ⟨i, hi, he⟩ := List.mem_flatMap.1 he
      obtain ⟨j, hj, rfl⟩ := List.mem_map.1 he
      have hi := List.mem_range.1 hi
      have hj := List.mem_range.1 hj
      exact ⟨by dsimp only; omega, by dsimp only; omega, by simp only [Nat.add_sub_cancel_left]⟩
  have hset := elem_foldl_setElem (k := k) (tile := tile) (b := true) (u := u) (b' := b) (fun e : Nat × Nat × Nat × Sticky => (e.1, e.2.1))
    (fun e => e.2.2.1) (fun row col => (g (row - field p 6 1) (col - field p 7 1)).1) (l := win)
    (fun e he => ⟨(hg e he).1, (hg e he).2.1, congrArg Prod.fst (hg e he).2.2⟩) hrow hcol
  refine hset.trans ?_
  by_cases hplace : u = tile ∧ b = true
  · rw [if_pos hplace]
    cases hfind : win.find? fun e => e.1 == row && e.2.1 == col with
    | none =>
      rw [if_neg]
      rintro ⟨-, -, hmem⟩
      obtain ⟨e, he, hpos⟩ := List.mem_map.1 hmem
      obtain ⟨rfl, rfl⟩ := Prod.mk.inj hpos
      simpa using List.find?_eq_none.1 hfind e he
    | some e =>
      have he := List.mem_of_find?_eq_some hfind
      obtain ⟨rfl, rfl⟩ : e.1 = row ∧ e.2.1 = col := by simpa using List.find?_some hfind
      rw [if_pos ⟨hplace.1, hplace.2, List.mem_map.2 ⟨e, he, rfl⟩⟩]
      exact congrArg (fun v => v.1 % 2 ^ 32) (hg e he).2.2.symm
  · rw [if_neg hplace, if_neg fun h => hplace ⟨h.1, h.2.1⟩]

/-! ## mma (08 R210, R215, R219) -/

/-- Operations changed each under its number. -/
theorem op?_map {f : Op → Op} (hf : ∀ x, (f x).id = x.id) (s : State) (i : Nat) :
    State.op? { s with ops := s.ops.map f } i = (s.op? i).map f := by
  unfold State.op?
  dsimp only
  rw [List.find?_map]
  simp only [Function.comp_def, hf]

@[simp] theorem granted_id (o : Op) (i : Nat) (others : List Nat) : (o.granted i others).id = o.id := by
  unfold Op.granted
  split
  · split
    · rfl
    · split <;> rfl
  · rfl

theorem op?_setKind {s : State} {o : Op} (h : s.op? o.id = some o) (k : OpKind) :
    (s.setKind o.id k).op? o.id = some { o with kind := k } := by
  refine (op?_map (fun x => ?_) s o.id).trans ?_
  · split <;> rfl
  · rw [h, Option.map_some, if_pos rfl]

/-- The entry that receives a grant has one pass more. -/
theorem granted_self {o : Op} {p : List (BitVec 8)} {off a skip passes : Nat} {lat : Option Nat} {acc : Bool}
    (hkind : o.kind = .mma p off a lat acc skip passes) (others : List Nat) :
    (o.granted o.id others).kind = .mma p off a lat acc 0 (passes + 1) := by
  unfold Op.granted
  rw [hkind]
  simp only [if_true]

/-- An operation that has read no bad data writes its window and STATUS. -/
theorem performMma_clean {s : State} {c : Issue} {o : Op} {k : Cluster} {p : List (BitVec 8)} {off a : Nat} {lat : Option Nat}
    (hk : s.cluster (opCluster s o) = k) (hbad : mmaBad s c k p a lat = false) :
    let win := mmaWindow s c k p a lat
    performMma s c o p off a lat = o.down (writeStatus ((s.dropOp o.id).setCluster
      (win.foldl (fun k e => k.setElem (field p 0 1 % 8) true e.1 e.2.1 e.2.2.1) k)) c.tm (off + 0x38)
      (mxStatus 1 0 (mmaPasses c.g.launch p a) (orAll (win.map (·.2.2.2))))) := by
  subst hk
  unfold performMma
  simp only [hbad, Bool.false_eq_true, if_false]

section
variable {s : State} {o : Op} {w : Wave} {c : Issue} (h : Flying s o w c) {p : List (BitVec 8)} {off a skip passes : Nat}
  {lat : Option Nat} {acc : Bool} (hkind : o.kind = .mma p off a lat acc skip passes)
include h hkind

/-- A parameter block that breaks a rule ends its operation with the code of the rule. -/
theorem mmaAccept_rejected (hacc : acc = false) (hoff : 256 ≤ off + 0x38) (hclear : c.tm.stashed (off + 0x38) 8 = false) {fld code : Nat}
    (hcode : firstCode (mmaChecks c.g.launch p a) = some (fld, code)) :
    Ends s o w c (.mmaAccept o.id) (off + 0x38) (mxStatus code fld 0 0) fun t => t.clusters = s.clusters := by
  subst hacc
  refine ends_status h hoff hclear (worked_dropOp h) ?_ fun t' _ hclusters => hclusters
  rw [exec_mmaAccept, execMmaAccept, h.op]
  simp only [h.issue, hkind, hcode]

/-- A parameter block that breaks no rule is accepted. -/
theorem mmaAccept_accepted (hacc : acc = false) (hcode : firstCode (mmaChecks c.g.launch p a) = none) :
    exec (.mmaAccept o.id) s = .next (s.setKind o.id (.mma p off a lat true 0 0)) := by
  subst hacc
  rw [exec_mmaAccept, execMmaAccept, h.op]
  simp only [h.issue, hkind, hcode]

variable (hgrant : grantee (eligible s (opCluster s o)) = some o)
include hgrant

/-- A grant that is not the last counts one pass. -/
theorem mmaGrant_pass (hmore : passes + 1 < mmaPasses c.g.launch p a) :
    exec (.mmaGrant (opCluster s o)) s =
      .next { s with ops := s.ops.map fun e => e.granted o.id (passedOver (eligible s (opCluster s o)) o) } := by
  rw [exec_mmaGrant, execMmaGrant]
  simp only [hgrant, h.issue, hkind, hmore, if_true]

/-- The last pass writes the window, and ends the operation. -/
theorem mmaGrant_last (hlast : mmaPasses c.g.launch p a ≤ passes + 1) (hoff : 256 ≤ off + 0x38)
    (hclear : c.tm.stashed (off + 0x38) 8 = false) :
    let k := s.cluster (opCluster s o)
    let s2 := beforeEngine { s with ops := s.ops.map fun e => e.granted o.id (passedOver (eligible s (opCluster s o)) o) } o
    let win := mmaWindow s2 { c with s := s2 } k p a lat
    mmaBad s2 { c with s := s2 } k p a lat = false →
      Ends s o w c (.mmaGrant (opCluster s o)) (off + 0x38) (mxStatus 1 0 (mmaPasses c.g.launch p a) (orAll (win.map (·.2.2.2))))
        fun t => t.cluster (opCluster s o) = win.foldl (fun k e => k.setElem (field p 0 1 % 8) true e.1 e.2.1 e.2.2.1) k := by
  intro k s2 win hbad
  have hout : outlineOf s2 = outlineOf { s with ops := s.ops.map fun e => e.granted o.id (passedOver (eligible s (opCluster s o)) o) } :=
    outlineOf_of_frameOf (frameOf_beforeEngine _ _)
  have hk : s2.cluster (opCluster s2 o) = k := by
    have hcore : coreOf s2 o = coreOf s o := coreOf_of_outlineOf hout o
    rw [opCluster, hcore]
    exact cluster_of_clusters (beforeEngine_clusters _ _)
  have hwork : Worked s o c.tm (s2.dropOp o.id) :=
    ⟨(waves_of_outlineOf hout :), dropOp_dropped s2 o.id,
      (team?_of_outlineOf hout _).trans (congrArg (Option.map outlineTeam) (flying_team h))⟩
  refine ends_status h hoff hclear (hwork.setCluster (win.foldl (fun k e => k.setElem (field p 0 1 % 8) true e.1 e.2.1 e.2.2.1) k)) ?_
    fun t' _ hclusters => ?_
  · rw [exec_mmaGrant, execMmaGrant]
    simp only [hgrant, h.issue, hkind, Nat.not_lt.2 hlast, if_false]
    exact congrArg Host.Outcome.next (performMma_clean hk hbad)
  · rw [cluster_of_clusters hclusters]
    exact cluster_setCluster ((foldl_cluster_id _ (by intro _ _; rfl) _ _).trans cluster_id)

end

/-! ## colload (08 R225 to R229) -/

/-- Bytes written in one slice of the column store. -/
theorem colByte_setCols (k : Cluster) (slice o : Nat) (l : List (BitVec 8 × Bool)) (i : Nat) :
    (k.setCols slice o l).colByte slice i =
      if o ≤ i ∧ i < o + l.length then (l.map (·.1)).getD (i - o) 0 else k.colByte slice i := by
  have hcols : (k.setCols slice o l).cols =
      (l.zip (List.range l.length)).foldl (fun m b => put 0#8 m (49152 * slice + o + b.2) b.1.1) k.cols :=
    (List.foldl_hom Cluster.cols (by intro _ _; rfl)).symm
  unfold Cluster.colByte
  rw [hcols, get_foldl_put (0#8) (fun b _ => b.1) (49152 * slice + o) l k.cols,
    show 49152 * slice + i - (49152 * slice + o) = i - o by omega]
  by_cases hle : o ≤ i
  · rw [if_pos (by omega)]
    by_cases hlt : i < o + l.length
    · rw [if_pos ⟨hle, hlt⟩, List.getElem?_eq_getElem (by omega), List.getD_eq_getElem?_getD, List.getElem?_map,
        List.getElem?_eq_getElem (by omega)]
      rfl
    · rw [if_neg (by omega), List.getElem?_eq_none (by omega)]
      rfl
  · rw [if_neg (by omega), if_neg (by omega), Option.getD_none]

theorem leNat_lt (l : List (BitVec 8)) : leNat l < 2 ^ (8 * l.length) := by
  induction l with
  | nil => decide
  | cons b l ih =>
    have hb : b.toNat < 2 ^ 8 := b.isLt
    rw [leNat, List.length_cons, Nat.mul_succ, Nat.pow_add]
    omega

/-- A number of n bytes in a parameter block. -/
theorem field_lt (d : List (BitVec 8)) (o n : Nat) : field d o n < 2 ^ (8 * n) :=
  (leNat_lt _).trans_le (Nat.pow_le_pow_right (by decide) (Nat.mul_le_mul_left 8 (List.length_take_le _ _)))

/-- A run of bytes within one page is one piece. -/
theorem colPieces_page {src len off : Nat} (hpage : src % 65536 + len ≤ 65536) :
    colPieces (pageFuel len) src len off = if len = 0 then [] else [[(src, len, off)]] := by
  have hpiece : min len (65536 - src % 65536) = len := Nat.min_eq_left (by omega)
  rw [pageFuel, colPieces, hpiece]
  split
  · rfl
  · dsimp only
    rw [Nat.sub_self, colPieces, if_pos rfl]

/-- A column of bytes within one page, of a slot without scales, is one unit of one piece. -/
theorem colUnits_bytes {l : Launch} {d : List (BitVec 8)} (hparts : field d 0x0F 1 = 1)
    (hscale : slotScale (slotOfLaunch l (field d 0x0C 1 % 8)) = 0)
    (hpage : field d 0 8 % 65536 + columnBytes (slotOfLaunch l (field d 0x0C 1 % 8)) (field d 0x10 4) ≤ 65536) :
    let len := columnBytes (slotOfLaunch l (field d 0x0C 1 % 8)) (field d 0x10 4)
    colUnits l d 0 = if len = 0 then [] else [[(field d 0 8, len, field d 0x14 4)]] := by
  intro len
  have hsrc : (field d 0 8 + 0 * field d 8 4) % 2 ^ 64 = field d 0 8 := by
    have := field_lt d 0 8
    omega
  have hbits : Nat.testBit 1 0 = true ∧ Nat.testBit 1 1 = false ∧ Nat.testBit 1 2 = false := by decide
  obtain ⟨h0, h1, h2⟩ := hbits
  unfold colUnits
  simp only [hparts, hscale, hsrc, h0, h1, h2, Bool.true_and, show ((0 : Nat) == 1) = false from rfl, Bool.false_eq_true, if_false,
    if_true, List.append_nil]
  exact colPieces_page hpage

theorem loadUnits_piece {c : Issue} {s t : State} {src n off : Nat} {bs : List (BitVec 8 × Bool)}
    (h : engineRead c s src n = .ok (t, bs)) (slice : Nat) (k : Cluster) :
    loadUnits c slice [[(src, n, off)]] s k false = (t, k.setCols slice off bs, true, bs.any (·.2)) := by
  simp [loadUnits, readUnit, h]

theorem engineRead_length {c : Issue} {s t : State} {va n : Nat} {bs : List (BitVec 8 × Bool)} (h : engineRead c s va n = .ok (t, bs))
    (hpage : va % 65536 + n ≤ 65536) : bs.length = n := by
  unfold engineRead at h
  split at h
  · cases h
  · next hspan =>
    cases h
    rw [List.length_map, MatrixIssue.translateSpan_length hspan hpage]

/-- One column of bytes within one page, loaded. -/
theorem colByte_loadCols {c : Issue} {d : List (BitVec 8)} {s s2 : State} {k : Cluster} {bs : List (BitVec 8 × Bool)}
    (hcols : field d 0x0E 1 = 1) (hparts : field d 0x0F 1 = 1) :
    let x := slotOfLaunch c.g.launch (field d 0x0C 1 % 8)
    let len := columnBytes x (field d 0x10 4)
    slotScale x = 0 → field d 0 8 % 65536 + len ≤ 65536 → engineRead c s (field d 0 8) len = .ok (s2, bs) → ∀ i,
      (loadCols c d (field d 0x0E 1) 0 s k false).2.1.colByte (field d 0x0D 1) i =
        if field d 0x14 4 ≤ i ∧ i < field d 0x14 4 + len then (bs.map (·.1)).getD (i - field d 0x14 4) 0 else k.colByte (field d 0x0D 1) i := by
  intro x len hscale hpage hread i
  have hlen : bs.length = len := engineRead_length hread hpage
  rw [hcols]
  simp only [loadCols]
  rw [colUnits_bytes hparts hscale hpage]
  by_cases hzero : len = 0
  · rw [if_pos hzero]
    simp only [loadUnits]
    rw [if_neg (by omega)]
  · rw [if_neg hzero]
    rw [loadUnits_piece hread]
    simp only [Nat.add_zero]
    rw [colByte_setCols, hlen]

section
variable {s : State} {o : Op} {w : Wave} {c : Issue} (h : Flying s o w c) {d : List (BitVec 8)} {off : Nat}
  (hkind : o.kind = .colload d off) (hoff : 256 ≤ off + 0x38) (hclear : c.tm.stashed (off + 0x38) 8 = false)
include h hkind hoff hclear

/-- A parameter block that breaks a rule ends its load with the code of the rule. -/
theorem colload_rejected {fld code : Nat} (hcode : firstCode (colChecks c.g.launch d) = some (fld, code)) :
    Ends s o w c (.colloadComplete o.id) (off + 0x38) (mxStatus code fld 0 0) fun t => t.clusters = s.clusters := by
  refine ends_status h hoff hclear (worked_dropOp h) ?_ fun t' _ hclusters => hclusters
  rw [exec_colloadComplete, execColloadComplete, h.op]
  simp only [h.issue, hkind, hcode]

/-- A load ends once its columns have been loaded. -/
theorem colload_loaded (hcode : firstCode (colChecks c.g.launch d) = none) (hready : canEngine s o = true) (hwaits : colWaits s o = false) :
    let r := loadCols c d (field d 0x0E 1) 0 (beforeEngine (s.dropOp o.id) o) (s.cluster (opCluster s o)) false
    Ends s o w c (.colloadComplete o.id) (off + 0x38) (mxStatus (if r.2.2.2.1 then (if r.2.2.2.2 then 9 else 1) else 8) 0 r.2.2.1 0)
      fun t => t.cluster (opCluster s o) = r.2.1 := by
  intro r
  have hwork : Worked s o c.tm r.1 := (worked_beforeEngine h).of_outlineOf (outlineOf_loadCols _ _ _ _ _ _ _)
  refine ends_status h hoff hclear (hwork.setCluster r.2.1) ?_ fun t' _ hclusters => ?_
  · rw [exec_colloadComplete, execColloadComplete, h.op]
    simp only [h.issue, hkind, hcode, hready, hwaits, Bool.not_false, Bool.and_self, if_true]
    rfl
  · rw [cluster_of_clusters hclusters]
    exact cluster_setCluster ((loadCols_id _ _ _ _ _ _ _).trans cluster_id)

end

/-! ## qcopy (08 R230 to R232) -/

section
variable {s : State} {o : Op} {w : Wave} {c : Issue} (h : Flying s o w c) {d : List (BitVec 8)} {off slot : Nat} {lat : Option Nat}
  {seed : Word} (hkind : o.kind = .qcopy d off slot lat seed) (hoff : 256 ≤ off + 0x38) (hclear : c.tm.stashed (off + 0x38) 8 = false)
include h hkind hoff hclear

/-- A parameter block that breaks a rule ends its copy with the code of the rule. -/
theorem qcopy_rejected {fld code : Nat} (hcode : firstCode (qChecks c d (slotOfLaunch c.g.launch slot)) = some (fld, code)) :
    Ends s o w c (.qcopyComplete o.id) (off + 0x38) (mxStatus code fld 0 0) fun t => t.mem = s.mem := by
  refine ends_status h hoff hclear (worked_dropOp h) ?_ fun t' hmem _ => hmem
  rw [exec_qcopyComplete, execQcopyComplete, h.op]
  simp only [h.issue, hkind, hcode]

/-- A copy ends once its rows and scales have been written. -/
theorem qcopy_copied (hcode : firstCode (qChecks c d (slotOfLaunch c.g.launch slot)) = none) (hready : canEngine s o = true) :
    let r := performQcopy c (beforeEngine (s.dropOp o.id) o) d (slotOfLaunch c.g.launch slot) lat seed
    Ends s o w c (.qcopyComplete o.id) (off + 0x38) (mxStatus r.2.2.1 0 r.2.1 r.2.2.2) fun t => t.mem = r.1.mem := by
  intro r
  refine ends_status h hoff hclear ((worked_beforeEngine h).of_outlineOf (outlineOf_performQcopy _ _ _ _ _ _)) ?_ fun t' hmem _ => hmem
  rw [exec_qcopyComplete, execQcopyComplete, h.op]
  simp only [h.issue, hkind, hcode, hready, if_true]
  rfl

end

/-- Settles O41: each of the four events ends an operation through `ends_status`, once its work has kept waves and teams (`Worked`); the
elements of a tile follow from the window's shape (`elem_window`), and the bytes of a slice from the one unit that a column is
(`colUnits_bytes`). -/
theorem matrixCompletes : Obligations.MatrixCompletes := by
  intro s o w c h n k s1 ends
  refine ⟨fun p off a lat acc skip passes hkind hoff hclear => ⟨fun hacc => ?_, fun hacc hgrant => ⟨fun hmore => ?_, ?_⟩⟩,
    fun d off hkind hoff hclear => ?_, fun d off slot lat seed hkind hoff hclear => ?_⟩
  · cases hcode : firstCode (mmaChecks c.g.launch p a) with
    | some code => exact mmaAccept_rejected h hkind hacc hoff hclear hcode
    | none => exact ⟨_, mmaAccept_accepted h hkind hacc hcode, rfl, rfl, rfl, op?_setKind h.op _⟩
  · subst hacc
    exact ⟨_, _, mmaGrant_pass h hkind hgrant hmore, rfl, rfl, (op?_map (fun _ => granted_id _ _ _) s o.id).trans (congrArg _ h.op),
      granted_self hkind _⟩
  · intro s2 c2 hlast hbad hchecks win
    obtain ⟨hrows, hcols⟩ := window_le hchecks
    obtain ⟨t, w', tm, he, hw, hflag, hop, hteam, hstatus, hcluster⟩ := mmaGrant_last h hkind hgrant hlast hoff hclear hbad
    refine ⟨t, w', tm, he, hw, hflag, hop, hteam, hstatus, fun row hrow col hcol u b => ?_⟩
    rw [hcluster]
    exact elem_window (mmaWindow_eq _ _ _ _ _ _) hrows hcols k _ hrow hcol
  · cases hcode : firstCode (colChecks c.g.launch d) with
    | some code => exact colload_rejected h hkind hoff hclear hcode
    | none =>
      intro hready hwaits r
      obtain ⟨t, w', tm, he, hw, hflag, hop, hteam, hstatus, hcluster⟩ := colload_loaded h hkind hoff hclear hcode hready hwaits
      refine ⟨t, w', tm, he, hw, hflag, hop, hteam, hstatus, fun s2 bs hcols hparts hscale hpage hread i _ => ?_⟩
      rw [hcluster]
      exact colByte_loadCols hcols hparts hscale hpage hread i
  · intro x
    cases hcode : firstCode (qChecks c d x) with
    | some code => exact qcopy_rejected h hkind hoff hclear hcode
    | none => exact fun hready => qcopy_copied h hkind hoff hclear hcode hready

end Sys2Proof.MatrixCompletion

/-! # Every step keeps memory sound: the ways an issue ends

Memory in its canonical form, no word twice in a cache, the stores of the L1s in their order: one lemma for each operation of the model,
after those of `Laws` for the caches. Here what an issue comes to, whatever instruction it is: it retires, waits, blocks or takes a
fault. -/

namespace Sys2Proof.SoundIssue

open Sys2Proof.Machine Sys2Proof.Machine.Laws

/-- An effect that answers a state answers a sound one. -/
def EffSound {ε : Type} (k : Except ε State) : Prop := ∀ t, k = .ok t → SoundMemory t

/-- An outcome that goes on goes on to a sound state. -/
def NextSound (o : Host.Outcome State Fault Refusal) : Prop := ∀ t, o = .next t → SoundMemory t

section
variable {ε : Type} {s t : State}

theorem ok_sound (h : SoundMemory s) : EffSound (.ok s : Except ε State) := fun _ ht => Except.ok.inj ht ▸ h

theorem error_sound (f : ε) : EffSound (.error f : Except ε State) := fun _ ht => nomatch ht

theorem next_sound (h : SoundMemory s) : NextSound (.next s) := fun _ ht => Host.Outcome.next.inj ht ▸ h

theorem ite_sound {p : Prop} [Decidable p] (hs : SoundMemory s) (ht : SoundMemory t) : SoundMemory (if p then s else t) := by
  split
  · exact hs
  · exact ht

theorem ite_effSound {p : Prop} [Decidable p] {k l : Except ε State} (hk : EffSound k) (hl : EffSound l) :
    EffSound (if p then k else l) := by
  split
  · exact hk
  · exact hl

theorem ite_nextSound {p : Prop} [Decidable p] {o q : Host.Outcome State Fault Refusal} (ho : NextSound o) (hq : NextSound q) :
    NextSound (if p then o else q) := by
  split
  · exact ho
  · exact hq

/-- Blocks filtered out of the caches. -/
theorem filterBlocks_sound (p : CBlock → Bool) (h : SoundMemory s) : SoundMemory { s with blocks := s.blocks.filter p } :=
  dropBlocks_sound _ List.filter_sublist h

/-- Held stores filtered out of the L1s. -/
theorem filterPend_sound (p : Pend → Bool) (h : SoundMemory s) : SoundMemory { s with pend := s.pend.filter p } :=
  dropPends_sound _ List.filter_sublist h

/-- A number given out more. -/
theorem nextId_sound {n : Nat} (hn : s.nextId ≤ n) (h : SoundMemory s) : SoundMemory { s with nextId := n } :=
  sound_same h rfl rfl rfl hn

end

/-! ## Changes to waves and grids -/

section
variable {s : State}

theorem awake_sound (h : SoundMemory s) : SoundMemory s.awake := h

theorem addRec_sound (r : Rec) (h : SoundMemory s) : SoundMemory (s.addRec r) := h

theorem spWriteBoth_sound (team o : Nat) (bytes : List (BitVec 8)) (h : SoundMemory s) : SoundMemory (spWriteBoth s team o bytes) := by
  unfold spWriteBoth
  split
  · exact h
  · dsimp only
    split <;> exact h

theorem updWaves_sound {β : Type} (i : β → Nat) (f : β → Wave → Wave) (l : List β) (h : SoundMemory s) :
    SoundMemory (l.foldl (fun s b => s.updWave (i b) (f b)) s) :=
  sound_fold (fun s b => s.updWave (i b) (f b)) (fun _ _ h => h) _ _ h

theorem endGrid_sound (grid : Nat) (final : GState) (h : SoundMemory s) : SoundMemory (endGrid s grid final) :=
  filterBlocks_sound _ h

theorem setBack_sound (t : Team) (ls : List Wave) (h : SoundMemory s) : SoundMemory (setBack s t ls) := by
  unfold setBack
  refine ite_sound h ?_
  dsimp only
  split <;> exact h

theorem together_sound (w : Wave) (h : SoundMemory s) : SoundMemory (together s w) := by
  unfold together
  dsimp only
  split
  · split
    · exact ite_sound (setBack_sound _ _ h) h
    · exact h
  · exact h

theorem park_sound (w : Wave) (h : SoundMemory s) : SoundMemory (park s w) := by
  have hs := together_sound w (setWave_sound w.parkHere h)
  unfold park
  dsimp only
  split <;> exact hs

theorem needHull_sound (grid : Nat) (r : Rec) (h : SoundMemory s) : SoundMemory (needHull s grid r) := h

/-! ## Faults -/

theorem stall_sound {c : Issue} (h : SoundMemory c.s) : SoundMemory c.stall := h

theorem takeFaultNow_sound {c : Issue} (f : Flt) (h : SoundMemory c.s) : SoundMemory (takeFaultNow c f) := by
  unfold takeFaultNow
  extract_lets data rec parked final ended
  have hparked : SoundMemory parked := park_sound (s := c.s.awake) c.w h
  have hfinal : SoundMemory final := ite_sound (updWaves_sound id (fun _ w => { w with final := true }) _ hparked) hparked
  have hended : SoundMemory ended := ite_sound (unsafeInterval_sound _ _ hfinal) hfinal
  exact ite_sound (rollback_sound (s := c.s.awake) _ _ h) (ite_sound (needHull_sound _ _ hended) hfinal)

theorem takeFault_sound {c : Issue} (f : Flt) (h : SoundMemory c.s) : SoundMemory (takeFault c f) := by
  unfold takeFault
  exact ite_sound (stall_sound h) (takeFaultNow_sound f h)

/-! ## Retirement -/

theorem watchdogCheck_sound (c : Issue) (h : SoundMemory s) : SoundMemory (watchdogCheck c s) :=
  ite_sound (endGrid_sound (s := s.addRec _) _ _ h) h

theorem retire_sound (c : Issue) (w : Wave) (len : Nat) (h : SoundMemory s) : SoundMemory (retire c s w len) :=
  watchdogCheck_sound c h

theorem retireMoved_sound (c : Issue) (w : Wave) (h : SoundMemory s) : SoundMemory (retireMoved c s w) := watchdogCheck_sound c h

theorem retireOnce_sound (c : Issue) (f : Wave → Wave) (len : Nat) (h : SoundMemory s) : SoundMemory (retireOnce c s f len) := by
  unfold retireOnce
  split
  · exact ite_sound (retire_sound _ _ _ h) (retire_sound _ _ _ (retire_sound _ _ _ h))
  · exact retire_sound _ _ _ h

theorem blockOn_sound (c : Issue) (b : Block) (h : SoundMemory s) : SoundMemory (blockOn c b s) := h

/-! ## The issue of an instruction -/

theorem issuing_sound {c : Issue} (hc : issuing s = some c) (h : SoundMemory s) : SoundMemory c.s := issuing_s hc ▸ h

theorem releaseWaits_sound {reason : Nat} {c : Issue} (hc : releaseWaits s reason = some c) (h : SoundMemory s) : SoundMemory c.s := by
  unfold releaseWaits at hc
  split at hc
  · cases hc
  · obtain ⟨d, hd, hdc⟩ := Option.bind_eq_some_iff.1 hc
    split at hdc
    · cases hdc
      exact issuing_sound hd h
    · cases hdc

/-- An instruction keeps the state sound where its effect does. -/
theorem issue_sound {ok : Bool} {len : Nat} {eff : Issue → Except Flt State} (h : SoundMemory s)
    (heff : ∀ c, SoundMemory c.s → EffSound (eff c)) : NextSound (issue s ok len eff) := by
  unfold issue
  split
  · exact fun _ ht => nomatch ht
  · next c hc =>
    have hs := issuing_sound hc h
    split
    · exact next_sound (takeFault_sound _ hs)
    · refine ite_nextSound ?_ (next_sound (takeFault_sound _ hs))
      split
      · next t ht => exact next_sound (heff c hs t ht)
      · exact next_sound (takeFault_sound _ hs)

theorem issueAs_sound {ok : Bool} {len reason : Nat} {eff : Issue → Except Flt State} (h : SoundMemory s)
    (heff : ∀ c, SoundMemory c.s → EffSound (eff c)) : NextSound (issueAs s ok len reason eff) := by
  unfold issueAs
  refine ite_nextSound ?_ (issue_sound h heff)
  split
  · next c hc => exact next_sound (releaseWaits_sound hc h)
  · exact issue_sound (unsafely_sound _ h) heff

end

/-! ## What an effect is put together from -/

section
variable {c : Issue} {k : Except Flt State}

theorem guarded_sound {checks : List (Option Flt)} (hk : EffSound k) : EffSound (guarded checks k) := by
  unfold guarded
  split
  · exact error_sound _
  · exact hk

theorem flagRoom_sound {fsel : BitVec 1} (h : SoundMemory c.s) (hk : EffSound k) : EffSound (flagRoom c fsel k) :=
  ite_effSound (ok_sound h) hk

theorem orFault_sound (f : Flt) : EffSound (orFault k f) := by
  unfold orFault
  split <;> exact error_sound _

theorem once_sound {vs ss : List Nat} (h : SoundMemory c.s) (hk : EffSound k) : EffSound (once c vs ss k) := by
  unfold once
  split
  · exact ok_sound h
  · refine ite_effSound (ok_sound h) ?_
    split
    · exact ok_sound h
    · exact orFault_sound _
    · exact orFault_sound _
    · exact hk

theorem asRelease_sound {scope : Nat} {k : Issue → Except Flt State} (h : SoundMemory c.s)
    (hk : ∀ c, SoundMemory c.s → EffSound (k c)) : EffSound (asRelease c scope k) :=
  ite_effSound (ok_sound h) (hk _ (drainFor_sound _ _ h))

theorem takeLvq_sound (l len : Nat) (h : SoundMemory c.s) : EffSound (takeLvq c l len) := by
  unfold takeLvq
  split
  · exact ok_sound h
  · split
    · exact ok_sound (retire_sound _ _ _ h)
    · exact ok_sound h

theorem trailAtom_sound (l : Nat) (sig : BitVec 32) (len : Nat) (h : SoundMemory c.s) : EffSound (trailAtom c l sig len) := by
  unfold trailAtom
  split
  · exact ite_effSound (ok_sound h) (ok_sound h)
  · exact takeLvq_sound _ _ h

theorem vecEff_sound {len d : Nat} {srcs : List (Nat × Nat)} {plain : List Nat} {adv : Bool} {f : Nat → Word × Sticky}
    (h : SoundMemory c.s) : EffSound (vecEff c len d srcs plain adv f) := guarded_sound (ok_sound (retire_sound _ _ _ h))

theorem uniEff_sound {len d : Nat} {srcs : List (Nat × Nat)} {plain : List Nat} {x : Word} (h : SoundMemory c.s) :
    EffSound (uniEff c len d srcs plain x) := guarded_sound (ok_sound (retire_sound _ _ _ h))

end

/-! ## Requests, and faults met late -/

section
variable {s : State}

theorem askHome_sound (o : Op) (acc : List Access) (h : SoundMemory s) : SoundMemory (askHome s o acc) :=
  ite_sound (sound_fold _ (fun _ _ h => ite_sound h (sendFill_sound _ h)) _ _ h) h

theorem settleRequests_sound (id : Nat) (h : SoundMemory s) : SoundMemory (settleRequests s id) := by
  unfold settleRequests
  split <;> exact h

theorem opIssue_sound {o : Op} {c : Issue} (hc : opIssue s o = some c) (h : SoundMemory s) : SoundMemory c.s := by
  unfold opIssue at hc
  split at hc
  · split at hc
    · split at hc
      · cases hc
        exact h
      · cases hc
    · cases hc
  · cases hc

theorem lateFault_sound (o : Op) (mark : Mark) (thread addr : Nat) (h : SoundMemory s) : SoundMemory (lateFault s o mark thread addr) := by
  unfold lateFault
  extract_lets s1 s2
  have h2 : SoundMemory s2 := ite_sound h (updPair_sound _ _ h)
  refine ite_sound h ?_
  split
  · next c hc => exact takeFaultNow_sound _ (opIssue_sound (c := c) hc h2)
  · exact h2

end

end Sys2Proof.SoundIssue

/-! # Every step keeps memory sound: loads, stores, atomics, fences and barriers -/

namespace Sys2Proof.SoundAccess

open Sys2Proof.Machine Sys2Proof.Machine.Laws Sys2Proof.SoundIssue

variable {s : State}

/-! ## Control and the stage queues -/

section
variable {c : Issue}

theorem parkAfter_sound (kind code : Nat) (h : SoundMemory c.s) : SoundMemory (parkAfter c kind code) :=
  updPair_sound _ _ (retireOnce_sound (s := c.s.addRec _) _ _ _ h)

theorem execClauseHeader_sound (o : OpHdr) (h : SoundMemory s) : NextSound (execClauseHeader o s) := by
  unfold execClauseHeader
  split
  · exact fun _ ht => nomatch ht
  · next c hc => exact ite_nextSound (next_sound h) (next_sound (takeFault_sound _ (issuing_sound hc h)))

theorem execQsend_sound (o : OpY2) (h : SoundMemory s) : NextSound (execQsend o s) :=
  issueAs_sound h fun _ hc => guarded_sound <| once_sound hc <| asRelease_sound hc fun _ hc =>
    ite_effSound (ok_sound (retireOnce_sound _ _ _ hc)) <|
      ite_effSound (ok_sound (blockOn_sound _ _ hc)) (ok_sound (retireOnce_sound _ _ _ hc))

theorem execQrecv_sound (o : OpD) (h : SoundMemory s) : NextSound (execQrecv o s) :=
  issue_sound h fun c hc => guarded_sound <| once_sound hc <| by
    split
    · exact ok_sound (retireOnce_sound _ _ _ hc)
    · exact ite_effSound (ok_sound (retireOnce_sound _ _ _ hc)) (ok_sound (blockOn_sound _ _ hc))

/-! ## Loads -/

theorem finjLoad_sound (acc : List (Access × Nat)) (h : SoundMemory c.s) : SoundMemory (finjLoad c acc) :=
  ite_sound (stall_sound h) <| takeFaultNow_sound _ <| setWave_sound _ <|
    sound_fold _ (fun _ _ h => ite_sound h (dropWord_sound _ _ h)) _ _ h

end

theorem askFrame_sound (core : Nat) (how : LoadHow) (frame : Nat) (ws : List Nat) (h : SoundMemory s) :
    SoundMemory (askFrame core how frame s ws) := by
  unfold askFrame
  split
  · exact h
  · exact ite_sound (askRun_sound _ _ _ _ _ _ _ _ h) h

theorem askWords_sound (core : Nat) (how : LoadHow) (ws : List Nat) (h : SoundMemory s) : SoundMemory (askWords core how ws s) :=
  sound_fold (fun s f => askFrame core how f s (ws.filter fun w => w / 16 == f)) (fun _ _ h => askFrame_sound _ _ _ _ h) _ _ h

theorem loadEff_sound {c : Issue} (sp : Space) (size d hint : Nat) (fsel : BitVec 1) (base : BitVec 6) (off : BitVec 4)
    (h : SoundMemory c.s) : EffSound (loadEff c sp size d hint fsel base off) := by
  unfold loadEff
  refine guarded_sound ?_
  split
  · exact guarded_sound (takeLvq_sound _ _ h)
  · refine flagRoom_sound h (ite_effSound (ok_sound h) ?_)
    split
    · exact error_sound _
    · refine guarded_sound ?_
      split
      · exact ok_sound (finjLoad_sound _ h)
      · exact ok_sound (retire_sound _ _ _ (askWords_sound _ _ _ (addOp_sound _ (touchLeaves_sound _ _ _ h))))

theorem dropStale_sound (core word : Nat) (h : SoundMemory s) : SoundMemory (dropStale s core word) :=
  ite_sound (dropWord_sound _ _ h) h

theorem serveWord_sound (w : Wave) (tm : Team) (how : LoadHow) (horizon word : Nat) (locs : List Nat) (h : SoundMemory s) :
    SoundMemory (serveWord s w tm how horizon word locs).1 := by
  unfold serveWord
  dsimp only
  split
  · split
    · exact h
    · exact dropStale_sound _ _ h
  · split
    · split
      · exact h
      · split
        · exact h
        · exact performPends_sound _ _ h
    · split
      · exact dropWord_sound _ _ (drainWord_sound _ _ h)
      · split
        · split
          · exact h
          · exact dropWord_sound _ _ (bump_sound h)
        · exact hitHint_sound _ _ _ h
        · split
          · exact h
          · split
            · exact h
            · split <;> exact h

theorem observed_sound (tm : Team) (p : Nat × Option Nat × Nat) (h : SoundMemory s) : SoundMemory (observed s tm p) := by
  unfold observed
  split
  · exact h
  · exact flushStamps_sound _ _ _ h

theorem readPiece_sound (id : Nat) (p : Nat × Option Nat × Nat) (h : SoundMemory s) : SoundMemory (readPiece id s p) := by
  unfold readPiece
  split
  · exact h
  · split
    · split
      · exact h
      · extract_lets todo ps seen read
        have hseen : SoundMemory seen := observed_sound _ p h
        have hread : SoundMemory read.1 := by
          unfold read
          split
          · exact hseen
          · exact serveWord_sound _ _ _ _ _ _ hseen
        refine ite_sound (askHome_sound _ _ h) ?_
        split
        · exact lateFault_sound _ _ _ _ hseen
        · split
          · exact hread
          · exact settleRequests_sound (s := read.1.updOp _ _) _ hread
    · exact h

theorem finishLoad_sound (id : Nat) (h : SoundMemory s) : SoundMemory (finishLoad id s) := by
  unfold finishLoad
  split
  · exact h
  · split
    · exact ite_sound h (askWords_sound _ _ _ h)
    · exact h

theorem execLoadComplete_sound (part : OpPart) (h : SoundMemory s) : NextSound (execLoadComplete part s) := by
  unfold execLoadComplete
  split
  · split
    · split
      · exact next_sound (readPiece_sound _ _ h)
      · exact next_sound h
    · exact next_sound (finishLoad_sound _ (sound_fold _ (fun _ _ h => readPiece_sound _ _ h) _ _ h))
  · exact next_sound h

/-! ## Fills and stores -/

theorem performReady_sound (core : Nat) (h : SoundMemory s) : SoundMemory (performReady s core) :=
  sound_fold _ (fun _ _ h => ite_sound (performPend_sound _ h) h) _ _ h

theorem afterFill_sound (core : Nat) (h : SoundMemory s) : SoundMemory (afterFill s core) := by
  refine performReady_sound _ (sound_fold _ (fun s id h => ?_) _ _ (sound_fold _ (fun s id h => ?_) _ _ h))
  · split
    · split
      · exact askWords_sound _ _ _ h
      · exact h
    · exact h
  · split
    · exact sound_fold _ (fun _ _ h => readPiece_sound _ _ h) _ _ h
    · exact h

theorem askPends_sound (core : Nat) (ws : List Nat) (h : SoundMemory s) : SoundMemory (askPends s core ws) :=
  sound_fold _ (fun _ _ h => askPend_sound _ h) _ _ h

theorem execCacheFillArrive_sound (core : Nat) (run : FillRun) (h : SoundMemory s) : NextSound (execCacheFillArrive core run s) := by
  unfold execCacheFillArrive
  split
  · exact ite_nextSound (next_sound (afterFill_sound _ (answerFill_sound _ h))) (next_sound h)
  · exact ite_nextSound (next_sound (performReady_sound _ (askPends_sound _ _ h))) (next_sound h)

theorem compared_sound (c : Issue) (alone : Bool) (sig : BitVec 32) (addr : Nat) (w : Wave) (flag : Nat) (op : Op)
    (take : State → Op → State) (h : SoundMemory s) (htake : SoundMemory (take s op)) :
    SoundMemory (compared c alone sig addr w flag s op take) := by
  unfold compared
  dsimp only
  split
  · exact retire_sound _ _ _ (sound_same h rfl rfl rfl (le_max_left _ _))
  · exact retire_sound _ _ _ h
  · exact retire_sound _ _ _ htake

theorem storeEff_sound {c : Issue} (sp : Space) (size d dcode hint : Nat) (fsel : BitVec 1) (base : BitVec 6) (off : BitVec 4)
    (h : SoundMemory c.s) : EffSound (storeEff c sp size d dcode hint fsel base off) := by
  unfold storeEff
  refine guarded_sound (flagRoom_sound h (ite_effSound (ok_sound h) ?_))
  split
  · exact guarded_sound (ok_sound (compared_sound _ _ _ _ _ _ _ _ h h))
  · split
    · exact error_sound _
    · have ht := fun xs => touchLeaves_sound c.tm.core true xs h
      exact guarded_sound (ok_sound (compared_sound _ _ _ _ _ _ _ _ (ht _) (addOp_sound _ (ht _))))

theorem homeFirst_sound (o : Op) (acc : List Access) (h : SoundMemory s) : SoundMemory (homeFirst s o acc) := by
  unfold homeFirst
  split
  · exact ite_sound (performPends_sound _ _ h) h
  · exact h

theorem askStored_sound (o : Op) (how : StoreHow) (acc : List Access) (h : SoundMemory s) : SoundMemory (askStored s o how acc) := by
  unfold askStored
  split
  · exact ite_sound h (askPends_sound _ _ h)
  · exact h

theorem storePiece_sound (id : Nat) (p : Nat × Option Nat × Nat) (h : SoundMemory s) : SoundMemory (storePiece id s p) := by
  unfold storePiece
  split
  · exact h
  · split
    · split
      · exact h
      · exact ite_sound h <| ite_sound
          (settleRequests_sound _ (askStored_sound _ _ _ (storeAccess_sound _ _ _ _ _ _ _ (homeFirst_sound _ _ h))))
          (askHome_sound _ _ h)
    · exact h

theorem writeStamp_sound (o : Op) (grid recAddr addr val : Nat) (h : SoundMemory s) :
    SoundMemory (writeStamp s o grid recAddr addr val) := by
  unfold writeStamp
  split
  · split
    · exact h
    · refine ite_sound h ?_
      split
      · exact h
      · next t ht =>
        have hrecalled : SoundMemory t := recallFor_sound h ht
        exact writeHomeN_sound _ _ _ <| touchLeaves_sound _ _ _ <|
          sound_fold _ (fun _ _ h => drainFor_sound _ _ h) _ (t.dropOp _) hrecalled
  · exact h

theorem execStoreComplete_sound (part : OpPart) (h : SoundMemory s) : NextSound (execStoreComplete part s) := by
  unfold execStoreComplete
  split
  · split
    · split
      · exact next_sound (storePiece_sound _ _ h)
      · exact next_sound h
    · exact ite_nextSound
        (next_sound <| updPair_sound _ _ <| askStored_sound _ _ _ <|
          sound_fold _ (fun _ _ h => storeAccess_sound _ _ _ _ _ _ _ h) _ _ (homeFirst_sound _ _ h))
        (next_sound (askHome_sound _ _ h))
    · exact next_sound (writeStamp_sound _ _ _ _ _ h)
    · exact next_sound h
  · exact next_sound h

end Sys2Proof.SoundAccess

/-! # Every step keeps memory sound: atomics, fences, monitors and barriers -/

namespace Sys2Proof.SoundSync

open Sys2Proof.Machine Sys2Proof.Machine.Laws Sys2Proof.SoundIssue Sys2Proof.SoundAccess

variable {s : State}

/-! ## Atomics -/

theorem atomThreads_sound (w : Wave) (own : Bool) (op : AtomOp) (size : Nat) (acc : List (Access × Nat × Nat)) (h : SoundMemory s) :
    SoundMemory (atomThreads w own op size s acc).1 := by
  induction acc generalizing s with
  | nil => exact h
  | cons p l ih => exact ih (atomAccess_sound _ _ _ _ _ _ _ h)

theorem loggedAtom_sound (w : Wave) (t : Team) (own : Bool) (op : AtomOp) (size : Nat) (acc : List (Access × Nat × Nat))
    (h : SoundMemory s) : SoundMemory (loggedAtom s w t own op size acc).1 := by
  have hthreads : ∀ {s}, SoundMemory s → SoundMemory (atomThreads w own op size s acc).1 := fun h => atomThreads_sound _ _ _ _ _ h
  have hanew : SoundMemory (atomThreads w own op size (unsafeInterval s t.id 6) acc).1 := hthreads (unsafeInterval_sound _ _ h)
  unfold loggedAtom
  dsimp only
  split
  · split
    · exact sound_fold _ (fun _ _ h => storeWord_sound _ _ _ _ _ _ _ h) _ _ (updTeam_sound _ _ h)
    · exact hanew
  · split
    · exact hanew
    · split
      · split
        · exact hthreads h
        · split
          · exact updTeam_sound _ _ (hthreads h)
          · exact unsafeInterval_sound _ _ (hthreads h)
      · exact hthreads h

theorem admitOp_sound (o : Op) (h : SoundMemory s) : SoundMemory (admitOp s o) := by
  unfold admitOp
  split
  · exact ite_sound (addOp_sound _ (acquired_sound _ _ _ _ _ (loggedAtom_sound _ _ _ _ _ _ h))) (addOp_sound _ h)
  · exact addOp_sound _ h

theorem atomEff_sound {c : Issue} (op : AtomOp) (ret : Bool) (o : OpN) (h : SoundMemory c.s) : EffSound (atomEff c op ret o) := by
  unfold atomEff
  refine guarded_sound (flagRoom_sound h (ite_effSound (ok_sound h) ?_))
  split
  · exact guarded_sound (ite_effSound (trailAtom_sound _ _ _ h) (ok_sound (compared_sound _ _ _ _ _ _ _ _ h h)))
  · refine guarded_sound ?_
    split
    · exact error_sound _
    · have ht := fun xs => touchLeaves_sound c.tm.core (op != .ldo) xs h
      exact guarded_sound (ite_effSound (ok_sound h) (ok_sound (compared_sound _ _ _ _ _ _ _ _ (ht _) (admitOp_sound _ (ht _)))))

theorem execAtomicComplete_sound (op : Nat) (h : SoundMemory s) : NextSound (execAtomicComplete op s) := by
  unfold execAtomicComplete
  split
  · split
    · refine ite_nextSound ?_ (next_sound (askHome_sound _ _ h))
      split
      · exact next_sound (lateFault_sound _ _ _ _ h)
      · extract_lets drained performed dropped
        have hdropped : SoundMemory dropped :=
          performPends_sound _ _ (ite_sound (drainFor_sound _ _ h) h)
        refine ite_nextSound (next_sound (acquired_sound _ _ _ _ _ (atomThreads_sound _ _ _ _ _ hdropped)))
          (next_sound (updPair_sound _ _ (acquired_sound _ _ _ _ _ ?_)))
        exact sound_fold _ (fun _ _ h => redAccess_sound _ _ _ _ _ _ _ _ h) _ _ hdropped
    · exact next_sound h
    · exact next_sound h
  · exact next_sound h

theorem discardHeld_sound (leader trailer : Nat) (h : SoundMemory s) : SoundMemory (discardHeld s leader trailer) := by
  have hleader := updWaves_sound (fun _ => leader) (fun (x : HeldIssue) w => (w.flagDown x.op.flag).lvqDrop x.op.id)
    (s.held.filter fun x => x.wave == leader) h
  exact updWaves_sound (fun _ => trailer) (fun (x : HeldIssue) w => w.flagDown x.op.flag) _ hleader

theorem execSignatureCompare_sound (wave : Nat) (h : SoundMemory s) : NextSound (execSignatureCompare wave s) := by
  unfold execSignatureCompare
  split
  · split
    · split
      · split
        · split
          · refine ite_nextSound (ite_nextSound (next_sound h) ?_)
              (ite_nextSound (next_sound h) (next_sound (takeFaultNow_sound _ (discardHeld_sound _ _ h))))
            extract_lets erased
            have herased : SoundMemory erased := h
            split
            · exact next_sound (lateFault_sound _ _ _ _ herased)
            · exact next_sound (admitOp_sound _ herased)
          · exact next_sound h
        · exact next_sound h
      · exact next_sound h
    · exact next_sound h
  · exact next_sound h

/-! ## Fences, acquires and flushes -/

theorem execFence_sound (o : OpFence) (h : SoundMemory s) : NextSound (execFence o s) := issueAs_sound h fun _ hc => ok_sound hc

theorem execFenceComplete_sound (wave : Nat) (h : SoundMemory s) : NextSound (execFenceComplete wave s) := by
  unfold execFenceComplete
  split
  · next c hc =>
    have hs : SoundMemory c.s := issuing_sound (s := { s with cur := wave }) hc h
    split
    · have hdrained : ∀ scope, SoundMemory (drainFor c.s c.tm.core scope) := fun scope => drainFor_sound _ _ hs
      exact ite_nextSound (next_sound h)
        (ite_nextSound (next_sound (hdrained _)) (next_sound (retire_sound _ _ _ (fenced_sound _ _ _ (hdrained _)))))
    · exact next_sound h
  · exact next_sound h

theorem rangeTouched_sound {c : Issue} (r : Nat × Nat) (h : SoundMemory c.s) : SoundMemory (c.rangeTouched r) := touchLeaves_sound _ _ _ h

theorem execRacq_sound (o : OpRacq) (h : SoundMemory s) : NextSound (execRacq o s) :=
  issueAs_sound h fun _ hc => guarded_sound <| flagRoom_sound hc <| once_sound hc <| guarded_sound <|
    ok_sound (retireOnce_sound _ _ _ (addOp_sound _ (rangeTouched_sound _ hc)))

theorem dropWords_sound (core : Nat) (ws : List Nat) (h : SoundMemory s) : SoundMemory (ws.foldl (fun s w => dropWord s core w) s) :=
  sound_fold _ (fun _ _ h => dropWord_sound _ _ h) _ _ h

theorem execRacqDrain_sound (op : Nat) (h : SoundMemory s) : NextSound (execRacqDrain op s) := by
  unfold execRacqDrain
  split
  · split
    · exact ite_nextSound (next_sound h) <| next_sound <| updPair_sound _ _ <| fenced_sound _ _ _ <| dropWords_sound _ _ <|
        drainCore_sound (s := s.dropOp op) _ _ h
    · exact next_sound h
  · exact next_sound h

theorem flushEff_sound (o : OpFG2) (inval : Bool) (h : SoundMemory s) : NextSound (flushEff s o inval) :=
  issueAs_sound h fun _ hc => guarded_sound <| flagRoom_sound hc <| once_sound hc <|
    ok_sound (retireOnce_sound _ _ _ (addOp_sound _ (rangeTouched_sound _ hc)))

theorem cleanSlices_sound (rngs : List Rng) (h : SoundMemory s) : SoundMemory (cleanSlices s rngs) := by
  refine sound_of h id (soundBlocks_map _ fun b => ?_) (List.Sublist.refl _) le_rfl
  split
  · exact ⟨rfl, rfl, rfl, by simp⟩
  · exact ⟨rfl, rfl, rfl, rfl⟩

theorem execFlushComplete_sound (op : Nat) (h : SoundMemory s) : NextSound (execFlushComplete op s) := by
  unfold execFlushComplete
  split
  · split
    · extract_lets hit drained dropped near nearDropped cleaned
      have hdrained : SoundMemory drained := drainCore_sound (s := s.dropOp op) _ _ h
      have hdropped : SoundMemory dropped := ite_sound (dropWords_sound _ _ hdrained) hdrained
      have hnear : SoundMemory nearDropped :=
        ite_sound (sound_fold _ (fun _ _ h => dropHeld_sound _ _ h) _ _ hdropped) hdropped
      exact ite_nextSound (next_sound h) (next_sound (updPair_sound _ _ (ite_sound (cleanSlices_sound _ hnear) hnear)))
    · exact next_sound h
  · exact next_sound h

/-! ## Monitors -/

theorem armMonitor_sound (part wave loc : Nat) (h : SoundMemory s) : SoundMemory (armMonitor s part wave loc) := ite_sound h h

theorem wakeWave_sound (wave : Nat) (h : SoundMemory s) : SoundMemory (wakeWave s wave) := h

theorem execMonitorWake_sound (wave : Nat) (h : SoundMemory s) : NextSound (execMonitorWake wave s) := by
  unfold execMonitorWake
  split
  · exact ite_nextSound (next_sound (wakeWave_sound _ h)) (next_sound h)
  · exact next_sound h

theorem execMonitorRepoll_sound (wave : Nat) (h : SoundMemory s) : NextSound (execMonitorRepoll wave s) := by
  unfold execMonitorRepoll
  split
  · exact ite_nextSound (next_sound (wakeWave_sound _ h)) (next_sound h)
  · exact next_sound h

theorem execMwait_sound (o : OpMwait) (h : SoundMemory s) : NextSound (execMwait o s) := by
  refine issueAs_sound h fun c hc => once_sound hc <| guarded_sound ?_
  split
  · exact error_sound _
  · refine guarded_sound (ite_effSound (ok_sound hc) ?_)
    split
    · exact ok_sound hc
    · next t ht =>
      extract_lets performed read acquired
      have hread : SoundMemory read := by
        have hperformed : SoundMemory performed :=
          performPends_sound _ _ (flushStamps_sound _ _ _ (touchLeaves_sound _ _ _ (recallFor_sound hc ht)))
        exact ite_sound hperformed (dropWord_sound _ _ hperformed)
      exact ite_effSound
        (ite_effSound (ok_sound (retireOnce_sound _ _ _ (ite_sound (freshen_sound _ hread) hread)))
          (ok_sound (retireOnce_sound _ _ _ hread)))
        (ok_sound (blockOn_sound _ _ (armMonitor_sound _ _ _ hread)))

/-! ## Barriers -/

theorem arriveWord_sound {team id : Nat} {r : State × Nat × Bool} (h : SoundMemory s) (hr : arriveWord s team id = some r) :
    SoundMemory r.1 := by
  unfold arriveWord at hr
  split at hr
  · cases hr
  · dsimp only at hr
    split at hr
    · cases hr
      exact spWriteBoth_sound _ _ _ h
    · cases hr

theorem finishWait_sound (id pc scope : Nat) (h : SoundMemory s) : SoundMemory (finishWait s id pc scope) := by
  unfold finishWait
  split
  · exact h
  · split
    · exact h
    · split
      · exact h
      · next c hc =>
        have hs : SoundMemory c.s := issuing_sound (s := State.setWave { s with cur := id } _) hc h
        exact updPair_sound (s := { retireOnce c _ _ 4 with cur := s.cur }) _ _
          (retireOnce_sound _ _ _ (ite_sound (freshen_sound _ hs) hs))

theorem phaseDone_sound (team id phase : Nat) (h : SoundMemory s) : SoundMemory (phaseDone s team id phase) := by
  unfold phaseDone
  extract_lets waited ts
  have hwaited : SoundMemory waited := awake_sound (sound_fold _ (fun _ _ h => ite_sound (finishWait_sound _ _ _ h) h) _ _ h)
  exact ite_sound (sound_fold _ (fun _ _ h => beginInterval_sound _ h) _ { waited with waves := _ } hwaited) hwaited

theorem toArrive_sound {c : Issue} {owner id scope : Nat} {k : Issue → Except Flt State} (h : SoundMemory c.s)
    (hk : ∀ c, SoundMemory c.s → EffSound (k c)) : EffSound (toArrive c owner id scope k) :=
  ite_effSound (ok_sound h) (asRelease_sound h hk)

theorem execBarInit_sound (o : OpBarInit) (h : SoundMemory s) : NextSound (execBarInit o s) :=
  issue_sound h fun _ hc => once_sound hc <| guarded_sound <| ite_effSound
    (ok_sound (retireOnce_sound _ _ _ (ite_sound (spWriteBoth_sound _ _ _ hc) hc)))
    (ok_sound (retireOnce_sound _ _ _ (spWriteBoth_sound _ _ _ hc)))

theorem holdArrival_sound (team id : Nat) (h : SoundMemory s) : SoundMemory (holdArrival s team id) := ite_sound h h

theorem arrive_sound {team id phase : Nat} {t : State} {full : Bool} (h : SoundMemory s) (ht : arrive s team id = .made t phase full) :
    SoundMemory t := by
  unfold arrive at ht
  split at ht
  · cases ht
  · split at ht
    · cases ht
    · split at ht
      · split at ht
        · cases ht
        · cases ht
          exact holdArrival_sound _ _ h
      · split at ht
        · cases ht
        · next hw =>
          cases ht
          exact arriveWord_sound h hw

theorem execBarArrive_sound (o : OpBarPh) (h : SoundMemory s) : NextSound (execBarArrive o s) := by
  refine issueAs_sound h fun c hc => once_sound hc <| toArrive_sound hc fun c hc => ?_
  split
  · exact error_sound _
  · exact ok_sound (retireOnce_sound (s := c.s.addRec _) _ _ _ hc)
  · exact ok_sound (blockOn_sound _ _ hc)
  · next hmade =>
    have hs := fun f => retireOnce_sound c f 4 (arrive_sound hc hmade)
    exact ok_sound (ite_sound (phaseDone_sound _ _ _ (hs _)) (hs _))

theorem barWaitOn_sound {c : Issue} (owner id phase scope : Nat) (h : SoundMemory c.s) : EffSound (barWaitOn c owner id phase scope) :=
  ite_effSound (ok_sound (retireOnce_sound _ _ _ (ite_sound (freshen_sound _ h) h))) (ok_sound (blockOn_sound _ _ h))

theorem execBarWait_sound (o : OpBarPh) (h : SoundMemory s) : NextSound (execBarWait o s) :=
  issueAs_sound h fun _ hc => once_sound hc <| guarded_sound <| barWaitOn_sound _ _ _ _ hc

theorem execBarSync_sound (o : OpBarSync) (h : SoundMemory s) : NextSound (execBarSync o s) := by
  refine issueAs_sound h fun c hc => once_sound hc ?_
  split
  · exact barWaitOn_sound _ _ _ _ hc
  · refine toArrive_sound hc fun c hc => ?_
    split
    · exact error_sound _
    · exact ok_sound (retireOnce_sound (s := c.s.addRec _) _ _ _ hc)
    · exact ok_sound (blockOn_sound _ _ hc)
    · next hmade =>
      have hs := arrive_sound hc hmade
      exact ite_effSound
        (ok_sound (phaseDone_sound _ _ _ (retireOnce_sound _ _ _ (ite_sound (freshen_sound _ hs) hs))))
        (ok_sound (blockOn_sound _ _ hs))

theorem applyArrival_sound {team id : Nat} {t : State} (h : SoundMemory s) (ht : applyArrival s team id = some t) : SoundMemory t := by
  unfold applyArrival at ht
  split at ht
  · cases ht
  · next hw =>
    cases ht
    have hs := arriveWord_sound h hw
    exact ite_sound (phaseDone_sound _ _ _ hs) hs

theorem applyArrivals_sound (team : Nat) (h : SoundMemory s) : SoundMemory (applyArrivals s team) := by
  refine sound_fold _ (fun s a h => sound_fold _ (fun s _ h => ?_) _ _ h) _ { s with arrivals := _ } h
  cases ha : applyArrival s team a.id with
  | none => exact h
  | some t => exact applyArrival_sound h ha

theorem wakeArrivals_sound (h : SoundMemory s) : SoundMemory (wakeArrivals s) := h

theorem execPendingArrivalApply_sound (core : Nat) (h : SoundMemory s) : NextSound (execPendingArrivalApply core s) :=
  ite_nextSound (next_sound h) <| next_sound <| wakeArrivals_sound <|
    sound_fold _ (fun _ _ h => applyArrivals_sound _ h) _ { s with gated := _ } h

theorem execBarRarrive_sound (o : OpY2) (h : SoundMemory s) : NextSound (execBarRarrive o s) := by
  refine issueAs_sound h fun c hc => once_sound hc <| guarded_sound ?_
  split
  · exact ok_sound hc
  · refine toArrive_sound hc fun c hc => ?_
    split
    · exact error_sound _
    · exact ok_sound (retireOnce_sound (s := c.s.addRec _) _ _ _ hc)
    · exact ok_sound (blockOn_sound _ _ hc)
    · next hmade =>
      have hs := fun f => retireOnce_sound c f 4 (arrive_sound hc hmade)
      exact ok_sound (ite_sound (phaseDone_sound _ _ _ (hs _)) (hs _))

end Sys2Proof.SoundSync

/-! # Every step keeps memory sound: keyspaces and work lists -/

namespace Sys2Proof.SoundKeys

open Sys2Proof.Machine Sys2Proof.Machine.Laws Sys2Proof.SoundIssue

variable {s : State}

/-! ## Tables -/

theorem keyWrite_sound (ks : Keyspace) (va : Nat) (bytes : List (BitVec 8)) (h : SoundMemory s) : SoundMemory (keyWrite s ks va bytes) := by
  unfold keyWrite
  split
  · exact writeHome_sound _ _ h
  · exact h

theorem writeSlot_sound (ks : Keyspace) (j i : Nat) (x : Slot) (h : SoundMemory s) : SoundMemory (writeSlot s ks j i x) :=
  keyWrite_sound _ _ _ h

theorem insertSlot_sound (ks : Keyspace) (j : Nat) (x : Slot) (h : SoundMemory s) : SoundMemory (insertSlot s ks j x) := by
  unfold insertSlot
  split
  · exact writeSlot_sound _ _ _ _ h
  · exact h

theorem shiftBack_sound (ks : Keyspace) (j fuel gap i : Nat) (h : SoundMemory s) : SoundMemory (shiftBack s ks j fuel gap i) := by
  induction fuel generalizing s gap i with
  | zero => exact writeSlot_sound _ _ _ _ h
  | succ fuel ih => exact ite_sound (writeSlot_sound _ _ _ _ h) (ite_sound (ih _ _ (writeSlot_sound _ _ _ _ h)) (ih _ _ h))

theorem removeKey_sound (ks : Keyspace) (j k : Nat) (h : SoundMemory s) : SoundMemory (removeKey s ks j k) := by
  unfold removeKey
  split
  · exact shiftBack_sound _ _ _ _ _ h
  · exact h

theorem writeCounts_sound (ks : Keyspace) (h : SoundMemory s) : SoundMemory (writeCounts s ks) :=
  sound_fold _ (fun _ _ h => physPut_sound _ _ _ _ h) _ _ (physPut_sound _ _ _ _ h)

theorem writeCuts_sound (ks : Keyspace) (h : SoundMemory s) : SoundMemory (writeCuts s ks) :=
  sound_fold _ (fun _ _ h => physPut_sound _ _ _ _ h) _ _ (physPut_sound _ _ _ _ h)

theorem setKeyspace_sound (ks : Keyspace) (h : SoundMemory s) : SoundMemory (s.setKeyspace ks) := h

theorem setSetup_sound (part x : Nat) (h : SoundMemory s) : SoundMemory (s.setSetup part x) := h

theorem exchange_sound (ks : Keyspace) (out : List Nat) (inn : List Slot) (h : SoundMemory s) : SoundMemory (exchange s ks out inn).1 :=
  sound_fold _ (fun _ _ h => insertSlot_sound _ _ _ h) _ _ (sound_fold _ (fun _ _ h => removeKey_sound _ _ _ h) _ _ h)

/-! ## The actions of the key instructions -/

theorem refineKey_sound (ks : Keyspace) (k : Nat) (h : SoundMemory s) : SoundMemory (refineKey s ks k).1 := by
  unfold refineKey
  dsimp only
  split
  · exact h
  · iterate 5 (split; exact h)
    split
    · exact h
    · exact writeCounts_sound _ (setKeyspace_sound _ (exchange_sound _ _ _ h))

theorem coarsenKey_sound (ks : Keyspace) (k : Nat) (h : SoundMemory s) : SoundMemory (coarsenKey s ks k).1 := by
  unfold coarsenKey
  dsimp only
  iterate 6 (split; exact h)
  split
  · exact h
  · exact writeCounts_sound _ <| setKeyspace_sound _ <| exchange_sound _ _ _ <|
      sound_fold _ (fun _ _ h => keyWrite_sound _ _ _ h) _ _ h

theorem keyAction_sound (ks : Keyspace) (minor face f1 t : Nat) (key amount : Word) (h : SoundMemory s) :
    SoundMemory (keyAction s ks minor face f1 t key amount).1 := by
  unfold keyAction
  extract_lets k out pair upd
  have hupd : ∀ f, SoundMemory (upd f) := fun f => by
    unfold upd
    split
    · exact writeSlot_sound _ _ _ _ h
    · exact h
  split
  · exact refineKey_sound _ _ h
  · exact coarsenKey_sound _ _ h
  · exact h
  · exact h
  · exact hupd _
  · split
    · exact h
    · split
      · exact hupd _
      · exact h
  · exact hupd _
  · exact h

theorem keyEff_sound (fsel : BitVec 1) (k minor face f1 f2 f3 : Nat) (dests srcs : List Nat) (ok : Bool) (h : SoundMemory s) :
    NextSound (keyEff s fsel k minor face f1 f2 f3 dests srcs ok) := by
  refine issueAs_sound h fun c hc => guarded_sound <| flagRoom_sound hc <| once_sound hc ?_
  split
  · exact error_sound _
  · exact guarded_sound (ite_effSound (ok_sound hc) (ok_sound (retireOnce_sound _ _ _ (startOp_sound _ hc))))

theorem execKrebal_sound (o : OpKreb) (h : SoundMemory s) : NextSound (execKrebal o s) :=
  issueAs_sound h fun _ hc => guarded_sound <| flagRoom_sound hc <| once_sound hc <| guarded_sound <|
    ok_sound (retireOnce_sound _ _ _ (addOp_sound _ hc))

/-! ## The steps of the key unit -/

theorem unbind_sound (ks : Keyspace) (h : SoundMemory s) : SoundMemory (unbind s ks) := writeCuts_sound ks (writeCounts_sound ks h)

theorem tryUnbind_sound (part k : Nat) (h : SoundMemory s) : SoundMemory (tryUnbind s part k) := by
  unfold tryUnbind
  split
  · exact h
  · exact ite_sound (unbind_sound _ h) h

theorem stepOrders_sound (o : Op) (rel acq : Bool) (h : SoundMemory s) : SoundMemory (stepOrders s o rel acq) := by
  unfold stepOrders
  split
  · have hdrained : ∀ core, SoundMemory (if rel then drainFor s core 3 else s) := fun core => ite_sound (drainFor_sound _ _ h) h
    exact ite_sound (fenced_sound _ _ _ (hdrained _)) (hdrained _)
  · exact h

theorem finishOp_sound (o : Op) (done : List RegWrite) (h : SoundMemory s) : SoundMemory (finishOp s o done) :=
  updPair_sound (s := s.dropOp o.id) _ _ h

theorem keyStep_sound (o : Op) (part : Nat) (h : SoundMemory s) : SoundMemory (keyStep s o part) := by
  unfold keyStep
  split
  · split
    · exact h
    · exact tryUnbind_sound _ _ (finishOp_sound _ _ (ite_sound (setKeyspace_sound _ h) h))
  · split
    · exact h
    · extract_lets reads
      split
      · exact tryUnbind_sound _ _ (lateFault_sound _ _ _ _ h)
      · refine ite_sound h ?_
        split
        · exact h
        · next t ht =>
          extract_lets released result acquired
          have hacquired : SoundMemory acquired :=
            stepOrders_sound _ _ _ (keyAction_sound _ _ _ _ _ _ _ (stepOrders_sound _ _ _ (recallFor_sound h ht)))
          exact ite_sound (tryUnbind_sound _ _ (finishOp_sound _ _ hacquired)) hacquired
  · exact h

theorem execKeyUnitStep_sound (op : Nat) (h : SoundMemory s) : NextSound (execKeyUnitStep op s) := by
  unfold execKeyUnitStep
  split
  · exact next_sound h
  · split
    · exact next_sound h
    · exact ite_nextSound (next_sound (keyStep_sound _ _ h)) (next_sound h)

/-! ## The Bisector -/

theorem bisectorRecall_sound {ks : Keyspace} {l : List (Nat × Nat)} {t : State} (h : SoundMemory s)
    (ht : bisectorRecall s ks l = some t) : SoundMemory t := recallFor_sound h ht

theorem finishRebalance_sound (ks : Keyspace) (h : SoundMemory s) : SoundMemory (finishRebalance s ks) := by
  unfold finishRebalance
  extract_lets ended written stamped
  have hwritten : SoundMemory written := writeCuts_sound _ (writeCounts_sound _ (setKeyspace_sound _ h))
  refine tryUnbind_sound _ _ (ite_sound hwritten (keyWrite_sound _ _ _ ?_))
  cases hr : bisectorRecall written ended [(ended.rebStamp, 8)] with
  | none => exact hwritten
  | some t => exact bisectorRecall_sound hwritten hr

theorem nextMove_sound (ks : Keyspace) (l : List (Nat × Nat)) (h : SoundMemory s) : SoundMemory (nextMove s ks l) := by
  unfold nextMove
  split
  · exact finishRebalance_sound _ h
  · exact h

theorem execBisectorSnapshot_sound (part k : Nat) (h : SoundMemory s) : NextSound (execBisectorSnapshot part k s) := by
  unfold execBisectorSnapshot
  split
  · split
    · exact next_sound (nextMove_sound _ _ h)
    · exact next_sound h
  · exact next_sound h

theorem execCutAnnounce_sound (part k : Nat) (h : SoundMemory s) : NextSound (execCutAnnounce part k s) := by
  unfold execCutAnnounce
  split
  · split <;> exact next_sound h
  · exact next_sound h

theorem execPatchHandOver_sound (part k : Nat) (h : SoundMemory s) : NextSound (execPatchHandOver part k s) := by
  unfold execPatchHandOver
  split
  · split
    · refine ite_nextSound (next_sound h) ?_
      split
      · exact next_sound h
      · refine ite_nextSound (next_sound h) (ite_nextSound (next_sound h) ?_)
        split
        · exact next_sound h
        · next t ht =>
          exact next_sound <| writeCounts_sound _ <| setKeyspace_sound _ <| writeSlot_sound _ _ _ _ <| insertSlot_sound _ _ _ <|
            bisectorRecall_sound h ht
    · exact next_sound h
  · exact next_sound h

theorem execBisectorStopShort_sound (part k : Nat) (h : SoundMemory s) : NextSound (execBisectorStopShort part k s) := by
  unfold execBisectorStopShort
  split
  · split
    · split
      · exact ite_nextSound (next_sound h) (next_sound h)
      · exact next_sound h
    · exact next_sound h
  · exact next_sound h

theorem execCutCommit_sound (part k : Nat) (h : SoundMemory s) : NextSound (execCutCommit part k s) := by
  unfold execCutCommit
  split
  · split
    · exact ite_nextSound (next_sound h) <| next_sound <| nextMove_sound _ _ <| writeCuts_sound _ <| setKeyspace_sound _ <|
        sound_fold _ (fun _ _ h => removeKey_sound _ _ _ h) _ _ h
    · exact next_sound h
  · exact next_sound h

/-! ## Set-up, and work lists -/

theorem bindKeyspace_sound (p : Partition) (k : Nat) (h : SoundMemory s) : SoundMemory (bindKeyspace s p k) := by
  unfold bindKeyspace
  extract_lets ks ctxOk counted written
  have hwritten : SoundMemory written := sound_fold _ (fun _ _ h => physPut_sound _ _ _ _ h) _ _ h
  exact ite_sound h (setSetup_sound (s := { written with keyspaces := _ }) _ _ hwritten)

theorem execSetupBindKeyspace_sound (part k : Nat) (h : SoundMemory s) : NextSound (execSetupBindKeyspace part k s) := by
  unfold execSetupBindKeyspace
  split
  · exact next_sound (bindKeyspace_sound _ _ h)
  · exact next_sound h

theorem unbindKeyspace_sound (p : Partition) (k : Nat) (h : SoundMemory s) : SoundMemory (unbindKeyspace s p k) := by
  unfold unbindKeyspace
  split
  · exact h
  · exact tryUnbind_sound _ _ (setSetup_sound _ _ (setKeyspace_sound _ h))

theorem execSetupUnbindKeyspace_sound (part k : Nat) (h : SoundMemory s) : NextSound (execSetupUnbindKeyspace part k s) := by
  unfold execSetupUnbindKeyspace
  split
  · exact next_sound (unbindKeyspace_sound _ _ h)
  · exact next_sound h

theorem execSetupWorkList_sound (part n : Nat) (h : SoundMemory s) : NextSound (execSetupWorkList part n s) := by
  unfold execSetupWorkList
  split
  · exact next_sound (ite_sound h h)
  · exact next_sound h

theorem listEff_sound (fsel : BitVec 1) (n minor f1 : Nat) (f2 : Option Nat) (dests : List Nat) (h : SoundMemory s) :
    NextSound (listEff s fsel n minor f1 f2 dests) :=
  issueAs_sound h fun _ hc => guarded_sound <| flagRoom_sound hc <| once_sound hc <| guarded_sound <|
    ok_sound (retireOnce_sound _ _ _ (addOp_sound _ hc))

theorem listStep_sound (o : Op) (part : Nat) (h : SoundMemory s) : SoundMemory (listStep s o part) := by
  unfold listStep
  split
  · split
    · exact h
    · extract_lets ordered result acquired
      have hacquired : SoundMemory acquired := stepOrders_sound (s := ordered.setList result.1) _ _ _ (stepOrders_sound _ _ _ h)
      exact ite_sound (finishOp_sound _ _ hacquired) hacquired
  · exact h

theorem execWorkListStep_sound (op : Nat) (h : SoundMemory s) : NextSound (execWorkListStep op s) := by
  unfold execWorkListStep
  split
  · exact next_sound h
  · split
    · exact next_sound h
    · exact ite_nextSound (next_sound (listStep_sound _ _ h)) (next_sound h)

end Sys2Proof.SoundKeys

/-! # Every step keeps memory sound: windows, the stash, and the launch of grids -/

namespace Sys2Proof.SoundLaunch

open Sys2Proof.Machine Sys2Proof.Machine.Laws Sys2Proof.SoundIssue Sys2Proof.FramesKept

variable {s : State}

/-! ## Engine bytes, and instructions that read a descriptor -/

theorem engineSp_sound (tm : Team) (o : Nat) (l : List (BitVec 8 × Bool)) (h : SoundMemory s) : SoundMemory (engineSp s tm o l) :=
  sound_fold _ (fun _ _ h => updTeam_sound _ _ h) _ _ (spWriteBoth_sound _ _ _ h)

theorem withSpAnd_sound {c : Issue} {pages : Option Flt} {off room at' n : Nat} {st : Option Nat} {regs : Option Flt}
    {k : Issue → List (BitVec 8) → Except Flt State} (h : SoundMemory c.s) (hk : ∀ c d, SoundMemory c.s → EffSound (k c d)) :
    EffSound (withSpAnd c pages off room at' n st regs k) := by
  unfold withSpAnd
  refine guarded_sound ?_
  split
  · exact guarded_sound (ok_sound h)
  · exact guarded_sound (hk _ _ (touchLeaves_sound _ _ _ h))

theorem withSp_sound {c : Issue} {off room at' n : Nat} {st : Option Nat} {regs : Option Flt}
    {k : Issue → List (BitVec 8) → Except Flt State} (h : SoundMemory c.s) (hk : ∀ c d, SoundMemory c.s → EffSound (k c d)) :
    EffSound (withSp c off room at' n st regs k) := withSpAnd_sound h hk

theorem withDesc_sound {c : Issue} {off n so : Nat} {regs : Option Flt} {k : Issue → List (BitVec 8) → Except Flt State}
    (h : SoundMemory c.s) (hk : ∀ c d, SoundMemory c.s → EffSound (k c d)) : EffSound (withDesc c off n so regs k) := withSp_sound h hk

/-! ## Pin windows -/

theorem rehome_sound (part : Nat) (pages : List Nat) (back : Bool) (h : SoundMemory s) : SoundMemory (rehome s part pages back) :=
  sound_fold _ (fun _ _ h => fillRun_sound _ _ _ _ _ _ h) _ { s with blocks := _, fills := _ } (filterBlocks_sound _ h)

theorem squeeze_sound (cache frame fuel : Nat) (h : SoundMemory s) : SoundMemory (squeeze cache frame fuel s) := by
  induction fuel generalizing s with
  | zero => exact h
  | succ fuel ih =>
    refine ite_sound h ?_
    split
    · exact h
    · exact ih (tick_sound _ (evictBlock_sound _ h))

theorem squeezeSlices_sound (slices : List Nat) (h : SoundMemory s) : SoundMemory (squeezeSlices s slices) :=
  sound_fold _ (fun _ _ h => squeeze_sound _ _ _ h) _ _ h

theorem pinWindow_sound {c : Issue} (d : List (BitVec 8)) (h : SoundMemory c.s) : SoundMemory (pinWindow c d).1 := by
  unfold pinWindow
  dsimp only
  split
  · exact h
  · split
    · exact h
    · split
      · exact h
      · split
        · exact h
        · iterate 2 (split; exact h)
          exact rehome_sound _ _ _ (squeezeSlices_sound (s := { (touchLeaves c.s _ _ _).updCtx _ _ with pins := _ }) _
            (touchLeaves_sound _ _ _ h))

theorem execPin_sound (o : OpY12) (h : SoundMemory s) : NextSound (execPin o s) :=
  issueAs_sound h fun _ hc => once_sound hc <| withSp_sound hc fun _ _ hc => ok_sound (retireOnce_sound _ _ _ (pinWindow_sound _ hc))

theorem endWindow_sound (p : Pin) (h : SoundMemory s) : SoundMemory (endWindow s p) :=
  rehome_sound (s := { s.updCtx _ _ with pins := s.pins.erase p }) _ _ _ h

theorem execUnpin_sound (o : OpY12) (h : SoundMemory s) : NextSound (execUnpin o s) := by
  refine issueAs_sound h fun c hc => once_sound hc <| guarded_sound ?_
  split
  · exact ok_sound (retireOnce_sound _ _ _ (endWindow_sound _ hc))
  · exact ok_sound (retireOnce_sound _ _ _ hc)

/-! ## The stash -/

theorem mapStash_sound {c : Issue} (base len sp : Nat) (h : SoundMemory c.s) : SoundMemory (mapStash c base len sp) :=
  restash_sound _ (sound_fold _ (fun _ _ h => updTeam_sound _ _ h) _ _ h)

theorem execSmap_sound (o : OpY123) (h : SoundMemory s) : NextSound (execSmap o s) :=
  issueAs_sound h fun _ hc => once_sound hc <| guarded_sound <|
    ok_sound (retireOnce_sound _ _ _ (ite_sound (mapStash_sound _ _ _ hc) hc))

theorem unmapBlock_sound (cx : Context) (tm : Team) (m : Stash) (k : Nat) (h : SoundMemory s) : SoundMemory (unmapBlock s cx tm m k) := by
  unfold unmapBlock
  split
  · exact h
  · exact drainCore_sound _ _ (engineSp_sound _ _ _ h)

theorem unmap_sound (cx : Context) (tm : Team) (m : Stash) (h : SoundMemory s) : SoundMemory (unmap s cx tm m) :=
  unstash_sound _ (sound_fold _ (fun _ _ h => updTeam_sound _ _ h) _ _ (sound_fold _ (fun _ _ h => unmapBlock_sound _ _ _ _ h) _ _ h))

theorem unmapAll_sound (cx : Context) (team : Nat) (h : SoundMemory s) : SoundMemory (unmapAll s cx team) := by
  unfold unmapAll
  split
  · exact h
  · exact ite_sound h (sound_fold _ (fun _ _ h => unmap_sound _ _ _ h) _ _ h)

theorem execSunmap_sound (o : OpY12) (h : SoundMemory s) : NextSound (execSunmap o s) := by
  refine issueAs_sound h fun c hc => once_sound hc <| guarded_sound ?_
  split
  · exact ok_sound (retireOnce_sound _ _ _ hc)
  · exact ite_effSound (ok_sound hc) (ok_sound (retireOnce_sound _ _ _ (unmap_sound _ _ _ hc)))

/-! ## Launch queues -/

theorem advanceTail_sound (x : Queue) (h : SoundMemory s) : SoundMemory (advanceTail s x) := by
  unfold advanceTail
  extract_lets tail
  split
  · exact physPut_sound _ _ _ _ h
  · exact h

theorem qrsvRead_sound (part q : Nat) (h : SoundMemory s) : SoundMemory (qrsvRead s part q).1 := by
  unfold qrsvRead
  split
  · exact h
  · split
    · exact h
    · exact advanceTail_sound _ h

theorem answer_sound (x : Nat) (h : SoundMemory s) : SoundMemory (s.answer x) := h

theorem execQrsvRead_sound (part : Nat) (q : PageRead) (h : SoundMemory s) : NextSound (execQrsvRead part q s) :=
  ite_nextSound (next_sound h) <|
    ite_nextSound (next_sound (answer_sound _ (qrsvRead_sound _ _ h))) (next_sound h)

theorem rereadQueue_sound (p : Partition) (q : Nat) (h : SoundMemory s) : SoundMemory (rereadQueue s p q) :=
  ite_sound h (ite_sound h (ite_sound h h))

theorem execSetupRereadQueue_sound (part q : Nat) (h : SoundMemory s) : NextSound (execSetupRereadQueue part q s) := by
  unfold execSetupRereadQueue
  split
  · exact next_sound (rereadQueue_sound _ _ h)
  · exact next_sound h

theorem noteReady_sound (h : SoundMemory s) : SoundMemory (noteReady s) := h

theorem popHead_sound (p : Partition) (x : Queue) (h : SoundMemory s) : SoundMemory (popHead s p x) := by
  unfold popHead
  extract_lets cleared head popped
  have hpopped : SoundMemory popped := physPut_sound _ _ _ _ (physPut_sound _ _ _ _ h)
  exact hpopped

theorem startGrid_sound (p : Partition) (x : Queue) (addr : Nat) (l : Launch) (h : SoundMemory s) :
    SoundMemory (startGrid s p x addr l) := by
  unfold startGrid
  dsimp only
  split
  · split
    · exact sound_same h rfl rfl rfl le_rfl
    · exact sound_same h rfl rfl rfl (Nat.le_succ _)
  · exact sound_same h rfl rfl rfl (Nat.le_succ _)

/-- What holds of every value holds of one, in the form that `induction` takes: the kernel then does not see the value. -/
theorem forget {α : Type} {motive : α → Prop} (all : ∀ x, motive x) (x : α) : motive x := all x

theorem execLaunchTake_sound (part : Nat) (h : SoundMemory s) : NextSound (execLaunchTake part s) := by
  unfold execLaunchTake
  -- which record the head of a queue names is of no account, and long for the kernel to compute
  induction recordLocs using forget with | _ locsOf
  split
  · exact next_sound h
  · refine ite_nextSound (next_sound h) ?_
    have hready := noteReady_sound h
    dsimp only
    split
    · exact next_sound hready
    · split
      · exact next_sound hready
      · split
        · exact next_sound (addRec_sound _ (bump_sound (popHead_sound _ _ hready)))
        · split
          · exact next_sound hready
          · next t ht =>
            have hrecalled : SoundMemory t := recallFor_sound hready ht
            have hpopped := fun p x => bump_sound (popHead_sound p x hrecalled)
            refine ite_nextSound (next_sound hrecalled) ?_
            split
            · exact next_sound (addRec_sound _ (hpopped _ _))
            · exact next_sound (startGrid_sound _ _ _ _ (hpopped _ _))

/-! ## Teams that start and end -/

theorem clearCluster_sound (cluster ctx : Nat) (h : SoundMemory s) : SoundMemory (clearCluster s cluster ctx) := ite_sound h h

theorem frameOf_writeHome (s : State) (loc : Nat) (bytes : List (BitVec 8)) : frameOf (writeHome s loc bytes) = frameOf s :=
  foldl_keeps (π := frameOf) (fun _ _ => frameOf_commitWord _ _ _ _) _ _

theorem gated_sound (l : List (Nat × Bool)) (h : SoundMemory s) : SoundMemory { s with gated := l } := h

theorem moveOut_sound (team : Nat) (h : SoundMemory s) : SoundMemory (moveOut s team) := by
  unfold moveOut
  split
  · exact h
  · split
    · refine ite_sound h ?_
      extract_lets pa img written
      have hwritten : SoundMemory written := ite_sound (writeHome_sound _ _ h) h
      have hnext : written.nextId = s.nextId := by
        unfold written
        split
        · exact congrArg Frame.nextId (frameOf_writeHome _ _ _)
        · rfl
      have hnumbered : SoundMemory { written with nextId := s.nextId + 1 } := nextId_sound (by omega) hwritten
      exact hnumbered
    · exact h

theorem moveImages_sound (here : Nat → Bool) (h : SoundMemory s) : SoundMemory (moveImages s here) :=
  sound_fold _ (fun _ _ h => moveOut_sound _ h) _ _ h

theorem spillImages_sound (cluster : Nat) (h : SoundMemory s) : SoundMemory (spillImages s cluster) :=
  sound_fold _ (fun _ _ h => ite_sound h (moveOut_sound _ h)) _ _ h

theorem nextId_freshen (s : State) (core : Nat) : (freshen s core).nextId = s.nextId :=
  congrArg Frame.nextId (foldl_keeps (π := frameOf) (fun _ _ => frameOf_dropWord _ _ _) _ _)

theorem clearCluster_nextId (s : State) (cluster ctx : Nat) : (clearCluster s cluster ctx).nextId = s.nextId := by
  unfold clearCluster
  dsimp only
  split <;> rfl

/-- The numbers of the teams and waves that start are those after the last number given out. -/
theorem nextId_le_freshTeams (s : State) (g : Grid) (u core : Nat) (trail : Option Nat) :
    s.nextId ≤ (freshTeams s g u core trail).2.2 := by
  unfold freshTeams
  dsimp only
  omega

theorem startTeam_sound (g : Grid) (u core : Nat) (trail : Option Nat) (h : SoundMemory s) :
    SoundMemory (startTeam s g u core trail) := by
  unfold startTeam
  extract_lets fresh cleared
  have hcleared : SoundMemory cleared := sound_fold _ (fun _ _ h =>
    freshen_sound _ (gated_sound _ (clearCluster_sound _ _ h))) _ _ h
  have hnext : cleared.nextId = s.nextId := foldl_keeps (π := State.nextId)
    (fun s c => (nextId_freshen { clearCluster s (clusterOf c) g.ctx with gated := del s.gated c } c).trans (clearCluster_nextId _ _ _)) _ _
  exact spillImages_sound _ (nextId_sound (s := { cleared with teams := _, waves := _ })
    (hnext.trans_le (nextId_le_freshTeams s g u core trail)) hcleared)

theorem execTeamPlace_sound (grid : Nat) (cores : List Nat) (h : SoundMemory s) : NextSound (execTeamPlace grid cores s) := by
  unfold execTeamPlace
  split
  · exact next_sound h
  · exact ite_nextSound (next_sound (sound_fold _ (fun _ _ h => startTeam_sound _ _ _ _ h) _ _ h)) (next_sound h)

theorem execPlacementWaitExpiry_sound (grid : Nat) (h : SoundMemory s) : NextSound (execPlacementWaitExpiry grid s) := by
  unfold execPlacementWaitExpiry
  split
  · exact next_sound h
  · exact ite_nextSound (next_sound h) (next_sound h)

theorem execWatchdog_sound (wave : Nat) (h : SoundMemory s) : NextSound (execWatchdog wave s) := by
  unfold execWatchdog
  refine ite_nextSound ?_ (next_sound h)
  split
  · exact next_sound (watchdogCheck_sound _ h)
  · exact next_sound h

theorem sendStamp_sound (g : Grid) (team : Nat) (l : Launch) (recAddr : Nat) (h : SoundMemory s) :
    SoundMemory (sendStamp s g team l recAddr) := by
  unfold sendStamp
  refine ite_sound h ?_
  extract_lets drained
  have hdrained : SoundMemory drained := sound_fold _ (fun _ _ h => drainFor_sound _ _ h) _ _ h
  exact nextId_sound (s := { drained with ops := _ }) (Nat.le_succ _) hdrained

theorem haltCheck_sound (grid : Nat) (h : SoundMemory s) : SoundMemory (haltCheck s grid) := by
  unfold haltCheck
  split
  · exact h
  · refine ite_sound ?_ h
    split <;> exact h

theorem dropReplicas_sound (grid : Nat) (h : SoundMemory s) : SoundMemory (dropReplicas s grid) := filterBlocks_sound _ h

theorem tryComplete_sound (grid : Nat) (h : SoundMemory s) : SoundMemory (tryComplete s grid) := by
  unfold tryComplete
  split
  · exact h
  · refine ite_sound ?_ h
    extract_lets dropped stamped
    have hstamped : SoundMemory stamped := ite_sound (sendStamp_sound _ _ _ _ (dropReplicas_sound _ h)) (dropReplicas_sound _ h)
    exact hstamped

theorem endTeam_sound (team : Nat) (h : SoundMemory s) : SoundMemory (endTeam s team) := by
  unfold endTeam
  split
  · exact h
  · extract_lets unmapped released
    have hunmapped : SoundMemory unmapped := by
      unfold unmapped
      split
      · exact unmapAll_sound _ _ h
      · exact h
    have hreleased : SoundMemory released := releaseBuffer_sound _ hunmapped
    exact hreleased

theorem tryEndTeam_sound (team : Nat) (h : SoundMemory s) : SoundMemory (tryEndTeam s team) := by
  unfold tryEndTeam
  split
  · exact h
  · refine ite_sound ?_ h
    extract_lets ended
    have hended : SoundMemory ended := sound_fold _ (fun _ _ h => endTeam_sound _ h) _ _ h
    split
    · exact hended
    · extract_lets m stamped
      have hstamped : SoundMemory stamped := ite_sound hended (sendStamp_sound _ _ _ _ hended)
      exact haltCheck_sound _ (tryComplete_sound _ hstamped)

theorem execWaveRetire_sound (wave : Nat) (h : SoundMemory s) : NextSound (execWaveRetire wave s) := by
  unfold execWaveRetire
  split
  · exact ite_nextSound (next_sound (tryEndTeam_sound (s := wakeQueues _ _) _ h)) (next_sound h)
  · exact next_sound h

/-! ## Children, and reads of a grid's sets -/

theorem execSpawn_sound (o : OpF12) (h : SoundMemory s) : NextSound (execSpawn o s) := by
  refine issueAs_sound h fun c hc => guarded_sound <| flagRoom_sound hc <| once_sound hc <| guarded_sound ?_
  split
  · exact error_sound _
  · refine guarded_sound <| asRelease_sound hc fun c hc => ?_
    have htouched := fun xs => touchLeaves_sound c.tm.core false xs hc
    dsimp only
    split
    · exact ok_sound (retireOnce_sound _ _ _ (htouched _))
    · exact ite_effSound (ok_sound (retireOnce_sound _ _ _ (htouched _)))
        (ok_sound (retireOnce_sound _ _ _ (advanceTail_sound _ (physPut_sound _ _ _ _ (htouched _)))))

theorem execRget_sound (o : OpY12) (h : SoundMemory s) : NextSound (execRget o s) := by
  refine issueAs_sound h fun c hc => once_sound hc <| guarded_sound ?_
  split
  · exact error_sound _
  · refine guarded_sound <| ite_effSound (ok_sound hc) ?_
    split
    · exact ok_sound hc
    · next t ht =>
      refine ok_sound (retireOnce_sound _ _ _ (sound_fold _ (fun s p h => ?_) _ _
        (sound_fold _ (fun _ _ h => dropWord_sound _ _ (drainWord_sound _ _ h)) _ _ (touchLeaves_sound _ _ _ (recallFor_sound hc ht)))))
      split
      · exact writeHome_sound _ _ h
      · exact h

end Sys2Proof.SoundLaunch

/-! # Every step keeps memory sound: the engines and the copy engine -/

namespace Sys2Proof.SoundCopy

open Sys2Proof.Machine Sys2Proof.Machine.Laws Sys2Proof.SoundIssue Sys2Proof.SoundSync Sys2Proof.SoundLaunch

variable {s t : State} {c : Issue}

/-! ## Bytes read and written by an engine -/

theorem consume_sound (c : Issue) (addr : Nat) (h : SoundMemory s) : SoundMemory (consume c s addr) :=
  needHull_sound (s := s.addRec _) _ _ h

theorem engineRead_sound {va n : Nat} {l : List (BitVec 8 × Bool)} (h : SoundMemory s) (ht : engineRead c s va n = .ok (t, l)) :
    SoundMemory t := by
  unfold engineRead at ht
  split at ht
  · cases ht
  · cases ht
    exact touchLeaves_sound _ _ _ h

theorem enginePut_sound {va : Nat} {l : List (BitVec 8 × Bool)} (h : SoundMemory s) : EffSound (enginePut c s va l) := by
  unfold enginePut
  split
  · exact error_sound _
  · exact ok_sound (engineWrite_sound _ _ (touchLeaves_sound _ _ _ h))

/-- What one piece of a run of bytes is read as, from scratchpad or through the pages. -/
theorem pieceRead_sound {ssp : Bool} {src n : Nat} {l : List (BitVec 8 × Bool)} (h : SoundMemory s)
    (ht : (if ssp then .ok (s, engineSpRead s c.tm.id src n) else engineRead c s src n) = Except.ok (t, l)) : SoundMemory t := by
  split at ht
  · cases ht
    exact h
  · exact engineRead_sound h ht

theorem moveRun_sound (c : Issue) (ssp dsp : Bool) (fuel : Nat) :
    ∀ (src dst len : Nat) (r : Run), SoundMemory r.s → SoundMemory (moveRun c ssp dsp fuel src dst len r).s := by
  induction fuel with
  | zero => exact fun _ _ _ _ h => h
  | succ fuel ih =>
    intro src dst len r h
    unfold moveRun
    dsimp only
    split
    · exact h
    · split
      · exact h
      · next got =>
        have hgot := pieceRead_sound h got
        split
        · exact ih _ _ _ _ (engineSp_sound _ _ _ hgot)
        · split
          · exact h
          · next hput => exact ih _ _ _ _ (enginePut_sound hgot _ hput)

theorem moveBytes_sound (c : Issue) (ssp dsp : Bool) (src dst len : Nat) (h : SoundMemory s) :
    SoundMemory (moveBytes c s ssp dsp src dst len).s := moveRun_sound _ _ _ _ _ _ _ ⟨s, _, _, _⟩ h

theorem rowArrive_sound (c : Issue) (rb : Nat) (h : SoundMemory s) : SoundMemory (rowArrive c s rb).1 := by
  unfold rowArrive
  split
  · exact h
  · split
    · exact h
    · dsimp only
      split
      · exact h
      · exact h
      · exact h
      · next harrive => exact ite_sound (phaseDone_sound _ _ _ (arrive_sound h harrive)) (arrive_sound h harrive)

/-! ## Scratchpad through stash mappings, STATUS and the stamp -/

theorem engineSpOut_sound (tm : Team) (o : Nat) (ps : List Place) (l : List (BitVec 8 × Bool)) (h : SoundMemory s) :
    SoundMemory (engineSpOut s tm o ps l) := by
  refine ite_sound (engineSp_sound _ _ _ (engineWrite_sound _ _ h)) (sound_fold _ (fun s p h => ?_) _ _ (engineWrite_sound _ _ h))
  split
  · exact engineSp_sound _ _ _ h
  · exact h

theorem spIn_sound {o n : Nat} {l : List (BitVec 8 × Bool)} (h : SoundMemory s) (ht : spIn c s o n = .ok (t, l)) : SoundMemory t := by
  unfold spIn at ht
  split at ht
  · cases ht
    exact h
  · split at ht
    · split at ht
      · cases ht
      · cases ht
        exact touchLeaves_sound _ _ _ h
    · cases ht
      exact h

theorem spOut_sound {o : Nat} {l : List (BitVec 8 × Bool)} (h : SoundMemory s) : EffSound (spOut c s o l) := by
  unfold spOut
  split
  · exact ok_sound h
  · split
    · split
      · exact error_sound _
      · exact ok_sound (engineSpOut_sound _ _ _ _ (touchLeaves_sound _ _ _ h))
    · exact ok_sound (engineSp_sound _ _ _ h)

theorem writeStatus_sound (tm : Team) (o x : Nat) (h : SoundMemory s) : SoundMemory (writeStatus s tm o x) := by
  unfold writeStatus
  split
  · exact h
  · refine ite_sound h (ite_sound (spWriteBoth_sound _ _ _ h) ?_)
    split
    · exact h
    · split
      · exact h
      · exact engineSpOut_sound _ _ _ _ (touchLeaves_sound _ _ _ h)

theorem finishCopy_sound (c : Issue) {r : Done} (so stampAddr stampVal : Nat) (h : SoundMemory r.s) :
    SoundMemory (finishCopy c r so stampAddr stampVal) := by
  refine ite_sound ?_ (writeStatus_sound _ _ _ h)
  split
  · exact writeStatus_sound _ _ _ h
  · exact engineWrite_sound _ _ (drainFor_sound _ _ (touchLeaves_sound _ _ _ (writeStatus_sound _ _ _ h)))

/-! ## Payloads -/

theorem denseRows_sound (c : Issue) (d : List (BitVec 8)) (rows : List Nat) :
    ∀ (r : Done) (bad : Bool), SoundMemory r.s → SoundMemory (denseRows c d rows r bad).1.s := by
  induction rows with
  | nil => exact fun _ _ h => h
  | cons row rows ih =>
    intro r bad h
    unfold denseRows
    extract_lets x m
    have hmoved : SoundMemory m.s := moveBytes_sound _ _ _ _ _ _ h
    split
    · exact hmoved
    · have harrived := rowArrive_sound c (field d 0x2E 2) hmoved
      split
      · exact harrived
      · exact ih _ _ harrived

theorem readRun_sound (c : Issue) (fuel : Nat) : ∀ {s : State} (va n : Nat), SoundMemory s → SoundMemory (readRun c fuel s va n).1 := by
  induction fuel with
  | zero => exact fun _ _ h => h
  | succ fuel ih =>
    intro s va n h
    unfold readRun
    dsimp only
    split
    · exact h
    · split
      · exact h
      · next hread => exact ih _ _ (engineRead_sound h hread)

theorem expandRows_sound (c : Issue) (d : List (BitVec 8)) (want rows : List Nat) :
    ∀ (src val : Nat) (r : Done) (bad : Bool), SoundMemory r.s → SoundMemory (expandRows c d want rows src val r bad).1.s := by
  induction rows with
  | nil => exact fun _ _ _ _ h => h
  | cons row rows ih =>
    intro src val r bad h
    unfold expandRows
    extract_lets esz len x ps total m vals cut
    have hread : SoundMemory m.1 := readRun_sound _ _ _ _ h
    have hcut : ∀ upTo f, SoundMemory (cut upTo f).1.s := fun _ _ => engineSp_sound _ _ _ hread
    split
    · split
      · exact hcut _ _
      · exact h
    · split
      · split
        · exact hcut _ _
        · have harrived := fun o l => rowArrive_sound c (field d 0x2E 2) (engineSp_sound c.tm o l hread)
          split
          · exact harrived _ _
          · exact ih _ _ _ _ (harrived _ _)
      · exact ih _ _ _ _ h

/-- The code of an outcome is of no account. -/
theorem recoded_sound {r : Done} (p : Bool) (n : Nat) (h : SoundMemory r.s) : SoundMemory (if p then { r with code := n } else r).s := by
  split <;> exact h

theorem copyPayload_sound (d : List (BitVec 8)) (slices : List (Nat × Nat × Nat × Nat)) (h : SoundMemory c.s) :
    SoundMemory (copyPayload c d slices).s := by
  unfold copyPayload
  split
  · exact h
  · dsimp only
    split
    · exact h
    · refine recoded_sound _ _ ?_
      split
      · exact expandRows_sound _ _ _ _ _ _ ⟨c.s, _, _, _⟩ _ h
      · exact denseRows_sound _ _ _ ⟨c.s, _, _, _⟩ _ h

theorem eachRow_sound (c : Issue) (scatter : Bool) (d : List (BitVec 8)) (l : List (Nat × Word)) :
    ∀ r : Done, SoundMemory r.s → SoundMemory (eachRow c scatter d l r).s := by
  induction l with
  | nil => exact fun _ h => h
  | cons p l ih =>
    intro r h
    unfold eachRow
    extract_lets places n m mark
    have hmark : ∀ (r : Done) (code f : Nat), SoundMemory r.s → SoundMemory (mark r code f).s := fun r _ _ h => by
      unfold mark
      split <;> exact h
    have hmoved : SoundMemory m.s := by
      unfold m
      split <;> exact moveBytes_sound _ _ _ _ _ _ h
    split
    · exact ih _ (hmark _ _ _ hmoved)
    · have harrived := rowArrive_sound c (field d 0x1C 2) hmoved
      refine ih _ ?_
      split
      · exact hmark _ _ _ harrived
      · split
        · exact hmark _ _ _ harrived
        · exact harrived

theorem rowsPayload_sound (scatter : Bool) (d : List (BitVec 8)) (idx : List (Nat × Word)) (h : SoundMemory c.s) :
    SoundMemory (rowsPayload c scatter d idx).s := by
  unfold rowsPayload
  split
  · exact h
  · split
    · exact eachRow_sound _ _ _ _ ⟨c.s, _, _, _⟩ h
    · exact h

theorem compactFrom_sound (c : Issue) (d : List (BitVec 8)) (n : Nat) :
    ∀ (i : Nat) (r : Done) (bad : Bool), SoundMemory r.s → SoundMemory (compactFrom c d n i r bad).1.s := by
  induction n with
  | zero => exact fun _ _ _ h => h
  | succ n ih =>
    intro i r bad h
    unfold compactFrom
    dsimp only
    split
    · exact h
    · next hread =>
      have hmoved := fun x y src dst len => moveBytes_sound c x y src dst len (engineRead_sound h hread)
      split
      · exact h
      · split
        · exact h
        · split
          · exact h
          · split
            · exact hmoved _ _ _ _ _
            · exact ih _ _ _ (engineWrite_sound _ _ (touchLeaves_sound _ _ _ (hmoved _ _ _ _ _)))

theorem compactPayload_sound (d : List (BitVec 8)) (h : SoundMemory c.s) : SoundMemory (compactPayload c d).s := by
  unfold compactPayload
  split
  · exact h
  · dsimp only
    split
    · exact recoded_sound _ _ (compactFrom_sound _ _ _ _ ⟨c.s, _, _, _⟩ _ h)
    · exact h

/-! ## Issue and completion -/

theorem execCopy_sound (o : OpF12) (h : SoundMemory s) : NextSound (execCopy o s) :=
  issueAs_sound h fun _ hc => guarded_sound <| flagRoom_sound hc <| once_sound hc <| withSp_sound hc fun _ _ hc =>
    ite_effSound (ok_sound (retireOnce_sound _ _ _ (writeStatus_sound _ _ _ hc))) <|
      ite_effSound (ok_sound (retireOnce_sound _ _ _ (updTeam_sound _ _ hc))) <|
        withSp_sound hc fun _ _ hc => ite_effSound (ok_sound hc)
          (ok_sound (retireOnce_sound _ _ _ (startOp_sound _ (updTeam_sound _ _ hc))))

theorem rowsEff_sound (o : OpF12) (scatter : Bool) (h : SoundMemory s) : NextSound (rowsEff s o scatter) :=
  issueAs_sound h fun _ hc => guarded_sound <| flagRoom_sound hc <| once_sound hc <| withDesc_sound hc fun _ _ hc =>
    ite_effSound (ok_sound hc) (ok_sound (retireOnce_sound _ _ _ (startOp_sound _ hc)))

theorem execCompact_sound (o : OpF2) (h : SoundMemory s) : NextSound (execCompact o s) :=
  issueAs_sound h fun _ hc => guarded_sound <| flagRoom_sound hc <| once_sound hc <| withDesc_sound hc fun _ _ hc =>
    ite_effSound (ok_sound hc) (ok_sound (retireOnce_sound _ _ _ (startOp_sound _ hc)))

theorem startFetch_sound (f hint : Nat) (l : List (Nat × Nat)) (h : SoundMemory c.s) : SoundMemory (startFetch c f hint l) := by
  unfold startFetch
  exact retireOnce_sound _ _ _ (addOp_sound _ (touchLeaves_sound _ _ _ h))

theorem execPfetchDesc_sound (o : OpF2) (h : SoundMemory s) : NextSound (execPfetchDesc o s) :=
  issueAs_sound h fun _ hc => guarded_sound <| flagRoom_sound hc <| once_sound hc <| withSp_sound hc fun _ _ hc =>
    ok_sound (startFetch_sound _ _ _ hc)

theorem fetchHome_sound (part hint : Nat) (r : Rng) (h : SoundMemory s) : SoundMemory (fetchHome s part hint r) :=
  ite_sound h (sound_fold _ (fun _ _ h => fillRun_sound _ _ _ _ _ _ h) _ _ h)

theorem performCopy_sound (o : Op) (h : SoundMemory c.s) : SoundMemory (performCopy c o) := by
  unfold performCopy
  split
  · exact finishCopy_sound _ _ _ _ (copyPayload_sound _ _ h)
  · exact finishCopy_sound _ _ _ _ (rowsPayload_sound _ _ _ h)
  · exact finishCopy_sound _ _ _ _ (compactPayload_sound _ h)
  · exact sound_fold _ (fun _ _ h => fetchHome_sound _ _ _ h) _ _ h
  · exact h

theorem copyFlags_sound (o : Op) (h : SoundMemory s) : SoundMemory (copyFlags s o) := by
  unfold copyFlags
  split
  · exact sound_fold _ (fun _ _ h => updPair_sound _ _ h) _ _ h
  · exact updPair_sound _ _ h

theorem execCopyComplete_sound (op : Nat) (h : SoundMemory s) : NextSound (execCopyComplete op s) := by
  unfold execCopyComplete
  split
  · next o _ =>
    split
    · next c _ =>
      have hready : SoundMemory (beforeEngine (s.dropOp op) o) := beforeEngine_sound o h
      exact ite_nextSound
        (next_sound (copyFlags_sound _ (performCopy_sound (c := { c with s := beforeEngine (s.dropOp op) o }) _ hready))) (next_sound h)
    · exact next_sound h
  · exact next_sound h

end Sys2Proof.SoundCopy

/-! # Every step keeps memory sound: lanes, control, and the system's instructions -/

namespace Sys2Proof.SoundLanes

open Sys2Proof.Machine Sys2Proof.Machine.Laws Sys2Proof.SoundIssue Sys2Proof.SoundAccess

variable {s : State}

/-! ## Packed and uniform lanes -/

theorem vec2_sound (o : OpA) (f : Word → Word → Word × Sticky) (h : SoundMemory s) : NextSound (vec2 s o f) :=
  issue_sound h fun _ hc => vecEff_sound hc

theorem vecInt_sound (o : OpA) (w : Nat) (f : Nat → Nat → Nat → Nat) (h : SoundMemory s) : NextSound (vecInt s o w f) := vec2_sound _ _ h

theorem vecSat_sound (o : OpA) (sgn sub : Bool) (w : Nat) (h : SoundMemory s) : NextSound (vecSat s o sgn sub w) := vec2_sound _ _ h

theorem vec16_sound (o : Op16) (f : Word → Word → Word × Sticky) (h : SoundMemory s) : NextSound (vec16 s o f) :=
  issue_sound h fun _ hc => vecEff_sound hc

theorem vecInt16_sound (o : Op16) (w : Nat) (f : Nat → Nat → Nat → Nat) (h : SoundMemory s) : NextSound (vecInt16 s o w f) :=
  vec16_sound _ _ h

theorem vecUI_sound (o : OpUI) (f : Nat → Nat → Nat) (h : SoundMemory s) : NextSound (vecUI s o f) :=
  issue_sound h fun _ hc => vecEff_sound hc

theorem uni2_sound (o : OpA) (f : Nat → Nat → Nat → Nat) (h : SoundMemory s) : NextSound (uni2 s o f) :=
  issue_sound h fun _ hc => uniEff_sound hc

theorem vecImm_sound (o : OpL) (keeps : Bool) (f : Word → BitVec 16 → Word) (h : SoundMemory s) : NextSound (vecImm s o keeps f) :=
  issue_sound h fun _ hc => vecEff_sound hc

theorem uniImm_sound (o : OpL) (keeps : Bool) (f : Word → BitVec 16 → Word) (h : SoundMemory s) : NextSound (uniImm s o keeps f) :=
  issue_sound h fun _ hc => uniEff_sound hc

theorem vecFp_sound (o : OpA) (F : Fmt) (f : Nat → Nat → Nat × Sticky) (h : SoundMemory s) : NextSound (vecFp s o F f) := vec2_sound _ _ h

theorem vecFma_sound (o : OpA) (F : Fmt) (h : SoundMemory s) : NextSound (vecFma s o F) := issue_sound h fun _ hc => vecEff_sound hc

theorem vecFp16_sound (o : Op16) (F : Fmt) (f : Nat → Nat → Nat × Sticky) (h : SoundMemory s) : NextSound (vecFp16 s o F f) :=
  vec16_sound _ _ h

theorem vecQ_sound (o : OpQ) (addend : Bool) (f : Fmt → Rnd → Bool → Nat → Nat → Nat → Nat → Nat × Sticky) (h : SoundMemory s) :
    NextSound (vecQ s o addend f) :=
  issue_sound h fun _ hc => vecEff_sound hc

theorem vecU_sound (o : OpU) (f : Fmt → Nat → Nat × Sticky) (h : SoundMemory s) : NextSound (vecU s o f) :=
  issue_sound h fun _ hc => vecEff_sound hc

theorem execVcvt_sound (o : OpC) (h : SoundMemory s) : NextSound (execVcvt o s) := issue_sound h fun _ hc => vecEff_sound hc

theorem vecCmp_sound (o : OpP) (cond : Nat) (h : SoundMemory s) : NextSound (vecCmp s o cond) :=
  issue_sound h fun _ hc => guarded_sound <| ok_sound (retire_sound _ _ _ hc)

theorem uniCmp_sound (o : OpP) (cond : Nat) (h : SoundMemory s) : NextSound (uniCmp s o cond) :=
  issue_sound h fun _ hc => guarded_sound <| ok_sound (retire_sound _ _ _ hc)

theorem predOp_sound (pd : BitVec 3) (f : Wave → Nat → Bool) (h : SoundMemory s) : NextSound (predOp s pd f) :=
  issue_sound h fun _ hc => ok_sound (retire_sound _ _ _ hc)

theorem execVsel_sound (o : OpE) (h : SoundMemory s) : NextSound (execVsel o s) := issue_sound h fun _ hc => vecEff_sound hc

theorem execVmov_sound (o : OpDA) (h : SoundMemory s) : NextSound (execVmov o s) := issue_sound h fun _ hc => vecEff_sound hc

theorem execVmovC16_sound (o : Op16) (h : SoundMemory s) : NextSound (execVmovC16 o s) := issue_sound h fun _ hc => vecEff_sound hc

theorem execVsplat_sound (o : OpDA) (h : SoundMemory s) : NextSound (execVsplat o s) :=
  issue_sound h fun _ hc => guarded_sound <| ok_sound (retire_sound _ _ _ hc)

theorem execSmov_sound (o : OpDA) (h : SoundMemory s) : NextSound (execSmov o s) := issue_sound h fun _ hc => uniEff_sound hc

theorem execSaddi_sound (o : OpI) (h : SoundMemory s) : NextSound (execSaddi o s) := issue_sound h fun _ hc => uniEff_sound hc

theorem execSandi_sound (o : OpI) (h : SoundMemory s) : NextSound (execSandi o s) := issue_sound h fun _ hc => uniEff_sound hc

theorem execVaddiI32x2_sound (o : OpI) (h : SoundMemory s) : NextSound (execVaddiI32x2 o s) := issue_sound h fun _ hc => vecEff_sound hc

theorem execVaddiI64_sound (o : OpI) (h : SoundMemory s) : NextSound (execVaddiI64 o s) := issue_sound h fun _ hc => vecEff_sound hc

theorem execNop_sound (h : SoundMemory s) : NextSound (execNop s) := issue_sound h fun _ hc => ok_sound (retire_sound _ _ _ hc)

/-! ## Across lanes -/

theorem query_sound (d : BitVec 6) (f : Issue → Nat → Nat) (h : SoundMemory s) : NextSound (query s d f) :=
  issue_sound h fun _ hc => vecEff_sound hc

theorem shuffle_sound (o : OpX) (w : Nat) (h : SoundMemory s) : NextSound (shuffle s o w) :=
  issue_sound h fun _ hc => guarded_sound <| ok_sound (retire_sound _ _ _ hc)

theorem execVbcast_sound (o : OpX) (h : SoundMemory s) : NextSound (execVbcast o s) :=
  issue_sound h fun _ hc => guarded_sound <| ok_sound (retire_sound _ _ _ hc)

theorem execVballot_sound (o : OpBal) (h : SoundMemory s) : NextSound (execVballot o s) :=
  issue_sound h fun _ hc => ok_sound (retire_sound _ _ _ hc)

theorem vote_sound (o : OpVote) (f : List Nat → (Nat → Bool) → Bool) (h : SoundMemory s) : NextSound (vote s o f) :=
  issue_sound h fun _ hc => ok_sound (retire_sound _ _ _ hc)

theorem execVuni_sound (o : OpUni) (h : SoundMemory s) : NextSound (execVuni o s) :=
  issue_sound h fun _ hc => guarded_sound <| ok_sound (retire_sound _ _ _ hc)

theorem execVcompact_sound (o : OpCmp) (h : SoundMemory s) : NextSound (execVcompact o s) :=
  issue_sound h fun _ hc => guarded_sound <| ok_sound (retire_sound _ _ _ hc)

theorem execVmatch_sound (o : OpAD) (h : SoundMemory s) : NextSound (execVmatch o s) := issue_sound h fun _ hc => vecEff_sound hc

theorem execVrdfirst_sound (o : OpAD) (h : SoundMemory s) : NextSound (execVrdfirst o s) :=
  issue_sound h fun _ hc => guarded_sound <| ok_sound (retire_sound _ _ _ hc)

theorem redScan_sound (o : OpT) (bitwise : Bool) (f : CvtTy → List (Option Nat) → (Nat → Nat) × Sticky) (h : SoundMemory s) :
    NextSound (redScan s o bitwise f) :=
  issue_sound h fun _ hc => vecEff_sound hc

theorem reduce_sound (o : OpT) (bitwise : Bool) (op : RedOp) (h : SoundMemory s) : NextSound (reduce s o bitwise op) :=
  redScan_sound _ _ _ h

theorem scanIncl_sound (o : OpT) (bitwise : Bool) (op : RedOp) (h : SoundMemory s) : NextSound (scanIncl s o bitwise op) :=
  redScan_sound _ _ _ h

theorem scanExcl_sound (o : OpT) (bitwise : Bool) (op : RedOp) (h : SoundMemory s) : NextSound (scanExcl s o bitwise op) :=
  redScan_sound _ _ _ h

theorem execVtopk_sound (o : OpK) (h : SoundMemory s) : NextSound (execVtopk o s) :=
  issue_sound h fun _ hc => guarded_sound <| ok_sound (retire_sound _ _ _ hc)

/-! ## Accumulators -/

theorem accEff_sound (o : OpA) (f : BitVec 128 → Word → Word → BitVec 128 × Sticky) (h : SoundMemory s) : NextSound (accEff s o f) :=
  issue_sound h fun _ hc => guarded_sound <| ok_sound (retire_sound _ _ _ hc)

theorem execAzero_sound (o : OpD) (h : SoundMemory s) : NextSound (execAzero o s) :=
  issue_sound h fun _ hc => guarded_sound <| ok_sound (retire_sound _ _ _ hc)

theorem execAmov_sound (o : OpA) (h : SoundMemory s) : NextSound (execAmov o s) :=
  issue_sound h fun _ hc => guarded_sound <| ok_sound (retire_sound _ _ _ hc)

theorem narrow_sound (o : OpAD) (f : BitVec 128 → Word × Sticky) (h : SoundMemory s) : NextSound (narrow s o f) :=
  issue_sound h fun _ hc => guarded_sound <| ok_sound (retire_sound _ _ _ hc)

/-! ## Control -/

theorem execBra_sound (o : OpBra) (h : SoundMemory s) : NextSound (execBra o s) :=
  issue_sound h fun _ hc => guarded_sound <| ok_sound (retireMoved_sound _ _ hc)

theorem execBrx_sound (o : OpBrx) (h : SoundMemory s) : NextSound (execBrx o s) :=
  issue_sound h fun _ hc => guarded_sound <| ok_sound (retireMoved_sound _ _ hc)

theorem execCall_sound (o : OpY12) (h : SoundMemory s) : NextSound (execCall o s) :=
  issue_sound h fun _ hc => guarded_sound <| ok_sound (retireMoved_sound _ _ hc)

theorem execRet_sound (o : OpY2) (h : SoundMemory s) : NextSound (execRet o s) :=
  issue_sound h fun _ hc => guarded_sound <| ok_sound (retireMoved_sound _ _ hc)

theorem execBprio_sound (o : OpBprio) (h : SoundMemory s) : NextSound (execBprio o s) :=
  issue_sound h fun _ hc => ok_sound (retireMoved_sound _ _ hc)

theorem execRcvset_sound (o : OpRcv) (h : SoundMemory s) : NextSound (execRcvset o s) :=
  issue_sound h fun _ hc => guarded_sound <| ok_sound (retire_sound _ _ _ hc)

theorem execRcvwait_sound (o : OpRcv) (h : SoundMemory s) : NextSound (execRcvwait o s) :=
  issue_sound h fun _ hc => ok_sound (retireMoved_sound _ _ hc)

theorem execYield_sound (o : OpYield) (h : SoundMemory s) : NextSound (execYield o s) :=
  issue_sound h fun _ hc => guarded_sound <| ok_sound (setWave_sound _ (awake_sound hc))

theorem execExit_sound (h : SoundMemory s) : NextSound (execExit s) := issue_sound h fun _ hc => ok_sound (retireMoved_sound _ _ hc)

theorem execTrap_sound (o : OpTrap) (h : SoundMemory s) : NextSound (execTrap o s) :=
  issue_sound h fun _ hc => once_sound hc (ok_sound (parkAfter_sound _ _ hc))

theorem execBrk_sound (h : SoundMemory s) : NextSound (execBrk s) :=
  issue_sound h fun _ hc => ite_effSound (once_sound hc (ok_sound (parkAfter_sound _ _ hc))) (ok_sound (retire_sound _ _ _ hc))

theorem execTret_sound (h : SoundMemory s) : NextSound (execTret s) :=
  issueAs_sound h fun _ hc => guarded_sound <| ok_sound (retireMoved_sound _ _ hc)

theorem execHalt_sound (h : SoundMemory s) : NextSound (execHalt s) :=
  issueAs_sound h fun _ hc => guarded_sound <| once_sound hc (ok_sound (parkAfter_sound _ _ hc))

/-! ## Quantization and codebooks -/

theorem execVquant_sound (o : OpS) (h : SoundMemory s) : NextSound (execVquant o s) := by
  refine issue_sound h fun c hc => guarded_sound ?_
  dsimp only
  generalize (if slotElem _ = 6 then latticeRead _ _ _ _ else _ : Except Flt (List (BitVec 8) × List Xl)) = table
  cases table with
  | error f => exact error_sound _
  | ok table => exact guarded_sound <| ok_sound (retire_sound _ _ _ (touchLeaves_sound _ _ _ hc))

theorem execVdequant_sound (o : OpS) (h : SoundMemory s) : NextSound (execVdequant o s) :=
  issue_sound h fun _ hc => guarded_sound (vecEff_sound hc)

theorem execVcbdec_sound (o : OpS) (h : SoundMemory s) : NextSound (execVcbdec o s) := by
  refine issue_sound h fun c hc => guarded_sound ?_
  split
  · exact error_sound _
  · next xs _ =>
    have hread : SoundMemory (touchLeaves c.s c.tm.core false xs) := touchLeaves_sound _ _ _ hc
    exact vecEff_sound (c := { c with s := touchLeaves c.s c.tm.core false xs }) hread

/-! ## System registers, modes of a region, checkpoints and injected errors -/

theorem execSysrd_sound (o : OpSys) (h : SoundMemory s) : NextSound (execSysrd o s) := by
  refine issue_sound h fun c hc => ?_
  split
  · exact takeLvq_sound _ _ hc
  · exact ite_effSound (ok_sound hc) (ok_sound (retire_sound _ _ _ hc))

theorem execSyswr_sound (o : OpSys) (h : SoundMemory s) : NextSound (execSyswr o s) :=
  issueAs_sound h fun _ hc => guarded_sound <| ok_sound (retire_sound _ _ _ hc)

theorem rmodeEff_sound (o : OpF2) (coherent : Bool) (h : SoundMemory s) : NextSound (rmodeEff s o coherent) := by
  refine issueAs_sound h fun c hc => guarded_sound <| flagRoom_sound hc <| once_sound hc <| guarded_sound ?_
  split
  · exact error_sound _
  · exact guarded_sound <| ite_effSound (ok_sound (retireOnce_sound _ _ _ hc))
      (ok_sound (retireOnce_sound _ _ _ (addOp_sound _ (touchLeaves_sound _ _ _ hc))))

theorem writeOwn_sound (pages : List Nat) (h : SoundMemory s) : SoundMemory (writeOwn s pages) :=
  sound_fold _ (fun _ _ h => sound_fold _ (fun _ _ h => cleanWord_sound _ _ h) _ _ (bump_sound h)) _ _ h

theorem erasePend_sound (e : Pend) (h : SoundMemory s) : SoundMemory { s with pend := s.pend.erase e } :=
  dropPends_sound _ List.erase_sublist h

theorem execRmodeComplete_sound (op : Nat) (h : SoundMemory s) : NextSound (execRmodeComplete op s) := by
  unfold execRmodeComplete
  split
  · next o _ =>
    split
    · refine ite_nextSound (next_sound h) ?_
      extract_lets inRange ready done written switched late stored fenced'
      have hwritten : SoundMemory written :=
        writeOwn_sound _ (performAll_sound _ (beforeEngine_sound o (s := s.dropOp op) h))
      have hswitched : SoundMemory switched := filterBlocks_sound _ hwritten
      have hstored : SoundMemory stored :=
        sound_fold _ (fun _ _ h => l1Store_sound _ _ _ _ _ _ _ _ (erasePend_sound _ h)) _ _ hswitched
      refine next_sound (updPair_sound _ _ ?_)
      unfold fenced'
      split
      · exact fenced_sound _ _ _ hstored
      · exact hstored
    · exact next_sound h
  · exact next_sound h

theorem ckptStatus_sound {c : Issue} (h : SoundMemory c.s) : SoundMemory (ckptStatus c).1 := by
  unfold ckptStatus
  split
  · exact h
  · split <;> exact h

theorem execCkpt_sound (o : OpF1) (h : SoundMemory s) : NextSound (execCkpt o s) :=
  issueAs_sound h fun _ hc => guarded_sound <| flagRoom_sound hc <| once_sound hc <| ok_sound (retireOnce_sound _ _ _ (ckptStatus_sound hc))

theorem execRbstat_sound (o : OpD) (h : SoundMemory s) : NextSound (execRbstat o s) :=
  issue_sound h fun _ hc => ok_sound (retire_sound _ _ _ hc)

theorem countCorrected_sound (kind index : Nat) (h : SoundMemory s) : SoundMemory (countCorrected s kind index) := h

theorem finjEffect_sound {c : Issue} (x : Nat) (h : SoundMemory c.s) : SoundMemory (finjEffect c x).1 := by
  unfold finjEffect
  dsimp only
  split
  · exact h
  · split
    · split <;> exact h
    · split
      · split <;> exact h
      · split
        · exact countCorrected_sound _ _ (bump_sound h)
        · exact h

theorem execFinj_sound (o : OpD) (h : SoundMemory s) : NextSound (execFinj o s) := by
  refine issue_sound h fun c hc => guarded_sound ?_
  split
  · exact ok_sound (retire_sound _ _ _ hc)
  · exact ok_sound (retire_sound _ _ _ (finjEffect_sound _ hc))

end Sys2Proof.SoundLanes

/-! # Every step keeps memory sound: handles and tenure, records, saved teams, hulls and services -/

namespace Sys2Proof.SoundTenure

open Sys2Proof.Machine Sys2Proof.Machine.Laws Sys2Proof.SoundIssue Sys2Proof.SoundAccess Sys2Proof.SoundSync
  Sys2Proof.SoundLaunch Sys2Proof.SoundCopy

variable {s t : State}

/-! ## Fields of the state that are not memory -/

theorem updOut_sound (f : Outside → Outside) (h : SoundMemory s) : SoundMemory (s.updOut f) := h

theorem updGrid_sound (grid : Nat) (f : Grid → Grid) (h : SoundMemory s) : SoundMemory (s.updGrid grid f) := h

theorem updPart_sound (part : Nat) (f : Partition → Partition) (h : SoundMemory s) : SoundMemory (s.updPart part f) := h

theorem tenures_sound (l : List Tenure) (h : SoundMemory s) : SoundMemory { s with tenures := l } := h

theorem hulls_sound (l : List Hull) (h : SoundMemory s) : SoundMemory { s with hulls := l } := h

theorem records_sound (l : List Rec) (h : SoundMemory s) : SoundMemory { s with records := l } := h

/-! ## Handles and tenure -/

theorem openHandle_sound (ctx index : Nat) (t : Tile) (h : SoundMemory s) : SoundMemory (openHandle s ctx index t).1 := h

theorem openTile_sound {c : Issue} (d : List (BitVec 8)) (h : SoundMemory c.s) : SoundMemory (openTile c d).1 := by
  unfold openTile
  split
  · exact h
  · split
    · exact h
    · split
      · exact h
      · exact openHandle_sound _ _ _ h

theorem execHopen_sound (o : OpF12) (h : SoundMemory s) : NextSound (execHopen o s) :=
  issueAs_sound h fun _ hc => guarded_sound <| flagRoom_sound hc <| once_sound hc <| withDesc_sound hc fun _ _ hc =>
    ok_sound (retireOnce_sound _ _ _ (writeStatus_sound _ _ _ (openTile_sound _ hc)))

theorem hacqEff_sound (o : OpF2) (write : Bool) (h : SoundMemory s) : NextSound (hacqEff s o write) := by
  refine issueAs_sound h fun c hc => guarded_sound <| flagRoom_sound hc <| once_sound hc ?_
  split
  · exact error_sound _
  · exact ite_effSound (guarded_sound <| ok_sound (retireOnce_sound _ _ _ hc))
      (guarded_sound <| ok_sound (retireOnce_sound _ _ _ (addOp_sound _ hc)))

theorem tableRoom_sound {slice : Nat} {k : Handle} (h : SoundMemory s) (ht : tableRoom s slice k = some t) : SoundMemory t := by
  unfold tableRoom at ht
  dsimp only at ht
  split at ht
  · cases ht
    exact h
  · split at ht
    · cases ht
    · split at ht
      · cases ht
      · cases ht
        exact sound_fold _ (fun _ _ h => recallOne_sound _ _ h) _ _ h

theorem settleTile_sound (ctx : Nat) (k : Tile) (h : SoundMemory s) : SoundMemory (settleTile s ctx k) := performAll_sound _ h

theorem execTenureGrant_sound (op : Nat) (h : SoundMemory s) : NextSound (execTenureGrant op s) := by
  unfold execTenureGrant
  split
  · next o _ =>
    split
    · extract_lets ctx done
      have hdone : ∀ t, SoundMemory t → SoundMemory (done t) := fun _ h => updPair_sound _ _ h
      split
      · exact next_sound (hdone _ h)
      · refine ite_nextSound (next_sound h) ?_
        dsimp only
        split
        · exact next_sound h
        · next hroom =>
          have htable := tableRoom_sound h hroom
          exact ite_nextSound (next_sound htable) (next_sound (hdone _ (settleTile_sound _ _ htable)))
    · exact next_sound h
  · exact next_sound h

theorem execTenureRecall_sound (ctx index : Nat) (write : Bool) (h : SoundMemory s) : NextSound (execTenureRecall ctx index write s) :=
  ite_nextSound (next_sound h) (next_sound (awake_sound (sound_fold _ (fun _ _ h => recallOne_sound _ _ h) _ _ h)))

theorem hrelEff_sound (o : OpF2) (down : Bool) (h : SoundMemory s) : NextSound (hrelEff s o down) :=
  issueAs_sound h fun _ hc => guarded_sound <| flagRoom_sound hc <| once_sound hc <| guarded_sound <|
    ok_sound (retireOnce_sound _ _ _ (addOp_sound _ hc))

theorem releaseTenure_sound (team : Nat) (k : Handle) (down : Bool) (h : SoundMemory s) : SoundMemory (releaseTenure s team k down) := h

theorem execHrelEffect_sound (op : Nat) (h : SoundMemory s) : NextSound (execHrelEffect op s) := by
  unfold execHrelEffect
  split
  · split
    · extract_lets done
      have hdone : ∀ t, SoundMemory t → SoundMemory (done t) := fun _ h => updPair_sound _ _ h
      split
      · exact next_sound (hdone _ h)
      · exact ite_nextSound (next_sound h)
          (next_sound (awake_sound (hdone _ (releaseTenure_sound _ _ _ (drainCore_sound _ _ h)))))
    · exact next_sound h
  · exact next_sound h

theorem closeHandle_sound (k : Handle) (h : SoundMemory s) : SoundMemory (closeHandle s k) := h

theorem splitHandle_sound {k : Handle} {d p : Nat} {x : Nat × Nat} (h : SoundMemory s) (ht : splitHandle s k d p = some (t, x)) :
    SoundMemory t := by
  unfold splitHandle at ht
  split at ht
  · extract_lets home r q closed split' at ht
    split at ht
    · cases ht
    · have hclosed : SoundMemory closed := closeHandle_sound _ (openHandle_sound _ _ _ (openHandle_sound _ _ _ h))
      exact (Prod.mk.inj (Option.some.inj ht)).1 ▸ tenures_sound _ hclosed
  · cases ht

theorem execHsplit_sound (o : OpY123) (h : SoundMemory s) : NextSound (execHsplit o s) := by
  refine issueAs_sound h fun c hc => once_sound hc ?_
  split
  · exact error_sound _
  · refine guarded_sound ?_
    split
    · next hsplit => exact ok_sound (retireOnce_sound _ _ _ (splitHandle_sound hc hsplit))
    · exact ok_sound (retireOnce_sound _ _ _ hc)

theorem execHclose_sound (o : OpY2) (h : SoundMemory s) : NextSound (execHclose o s) := by
  refine issueAs_sound h fun c hc => once_sound hc ?_
  split
  · exact error_sound _
  · exact guarded_sound <| ite_effSound (ok_sound hc)
      (ok_sound (retireOnce_sound _ _ _ (closeHandle_sound _ (releaseTenure_sound _ _ _ (drainCore_sound _ _ hc)))))

theorem execPfetchHandle_sound (o : OpF2) (h : SoundMemory s) : NextSound (execPfetchHandle o s) := by
  refine issueAs_sound h fun c hc => guarded_sound <| flagRoom_sound hc <| once_sound hc ?_
  split
  · exact error_sound _
  · exact guarded_sound <| ok_sound (startFetch_sound _ _ _ hc)

/-! ## Counts, halts and records -/

theorem writeCountsReg_sound (h : SoundMemory s) : SoundMemory (writeCountsReg s) := updOut_sound _ h

theorem noteCounts_sound (h : SoundMemory s) : SoundMemory (noteCounts s) := ite_sound h (writeCountsReg_sound h)

theorem settleHalt_sound (part : Nat) (h : SoundMemory s) : SoundMemory (settleHalt s part) := by
  unfold settleHalt
  split
  · exact ite_sound (noteCounts_sound (updOut_sound _ (updPart_sound _ _ h))) h
  · exact h

theorem logRecord_sound (r : Rec) (h : SoundMemory s) : SoundMemory (logRecord s r) := by
  unfold logRecord
  dsimp only
  split
  · exact settleHalt_sound _ (endGrid_sound _ _ (updOut_sound _ h))
  · exact updOut_sound _ h

theorem signal_sound (cx : Context) (h : SoundMemory s) : SoundMemory (signal s cx) := ite_sound h (updOut_sound _ h)

theorem putRecord_sound (cx : Context) (r : Rec) (h : SoundMemory s) : SoundMemory (putRecord s cx r) := by
  unfold putRecord
  dsimp only
  split
  · exact logRecord_sound _ (records_sound _ h)
  · refine ite_sound h ?_
    split
    · exact h
    · next hrecall =>
      exact signal_sound _ (physPut_sound _ _ _ _ (engineWrite_sound _ _
        (touchLeaves_sound _ _ _ (records_sound _ (recallFor_sound h hrecall)))))

theorem execFaultRecordWrite_sound (ctx : Nat) (h : SoundMemory s) : NextSound (execFaultRecordWrite ctx s) := by
  unfold execFaultRecordWrite
  split
  · exact ite_nextSound (next_sound h) (next_sound (awake_sound (putRecord_sound _ _ h)))
  · exact next_sound h

/-! ## Teams saved and restored -/

theorem withdrawCopies_sound (t : Team) (h : SoundMemory s) : SoundMemory (withdrawCopies s t) :=
  updTeam_sound _ _ (sound_fold _ (fun _ _ h => sound_fold _ (fun _ _ h => updPair_sound _ _ h) _ _ (writeStatus_sound _ _ _ h)) _ _ h)

theorem withdrawHacqs_sound (t : Team) (h : SoundMemory s) : SoundMemory (withdrawHacqs s t) := h

theorem returnTokens_sound (ids : List Nat) (h : SoundMemory s) : SoundMemory (returnTokens s ids) := h

theorem dropNear_sound (core : Nat) (h : SoundMemory s) : SoundMemory (dropNear s core) := filterBlocks_sound _ h

theorem saveTeam_sound (g : Grid) (t : Team) (h : SoundMemory s) : SoundMemory (saveTeam s g t) := by
  unfold saveTeam
  extract_lets withdrawn returned unmapped dropped l n image saved
  have hreturned : SoundMemory returned := returnTokens_sound _ (withdrawHacqs_sound _ (withdrawCopies_sound _ h))
  have hunmapped : SoundMemory unmapped := by
    unfold unmapped
    split
    · exact unmapAll_sound _ _ hreturned
    · exact hreturned
  have hdropped : SoundMemory dropped := dropNear_sound _ (drainCore_sound _ _ (releaseBuffer_sound _ hunmapped))
  clear_value dropped
  exact spillImages_sound _ (updTeam_sound _ _ (sound_same hdropped rfl rfl rfl le_rfl))

theorem execTeamSave_sound (team : Nat) (h : SoundMemory s) : NextSound (execTeamSave team s) := by
  unfold execTeamSave
  split
  · exact next_sound h
  · split
    · exact next_sound h
    · exact ite_nextSound (next_sound h) <| ite_nextSound
        (next_sound (awake_sound (settleHalt_sound _ (haltCheck_sound _ (sound_fold _ (fun _ _ h => saveTeam_sound _ _ h) _ _ h)))))
        (next_sound (sound_fold withdrawCopies (fun _ _ h => withdrawCopies_sound _ h) _ _ h))

theorem fetchImage_sound (g : Grid) (t : Team) (h : SoundMemory s) : SoundMemory (fetchImage s g t) := by
  unfold fetchImage
  split
  · split <;> exact h
  · exact h

theorem placeAgain_sound (g : Grid) (t : Team) (core : Nat) (h : SoundMemory s) : SoundMemory (placeAgain s g t core) :=
  updTeam_sound _ _ (gated_sound _ (freshen_sound _ (clearCluster_sound _ _ (ite_sound (fetchImage_sound _ _ h) h))))

theorem copyImage_sound (t : Team) (h : SoundMemory s) : SoundMemory (copyImage s t) := by
  unfold copyImage
  split <;> exact h

theorem resubmit_sound (g : Grid) (team : Nat) (h : SoundMemory s) : SoundMemory (resubmit s g team) := by
  unfold resubmit
  split
  · exact h
  · exact updTeam_sound _ _ (sound_fold _ (fun _ _ h => addOp_sound _ h) _ _ h)

theorem wakeImage_sound (team : Nat) (h : SoundMemory s) : SoundMemory (wakeImage s team) := h

theorem restoreTeam_sound (g : Grid) (t : Team) (h : SoundMemory s) : SoundMemory (restoreTeam s g t) :=
  ite_sound h <| spillImages_sound _ <| beginInterval_sound _ <| updTeam_sound _ _ <| resubmit_sound _ _ <| wakeImage_sound _ <|
    applyArrivals_sound _ (copyImage_sound _ h)

theorem execTeamRestore_sound (team : Nat) (cores : List Nat) (h : SoundMemory s) : NextSound (execTeamRestore team cores s) := by
  unfold execTeamRestore
  split
  · exact next_sound h
  · split
    · exact next_sound h
    · exact ite_nextSound (next_sound <| awake_sound <| wakeArrivals_sound <|
        sound_fold _ (fun _ _ h => restoreTeam_sound _ _ h) _ _ (sound_fold _ (fun _ _ h => placeAgain_sound _ _ _ h) _ _ h))
        (next_sound h)

/-! ## Hulls -/

theorem sealHull_sound (cx : Context) (g : Grid) (gen slot : Nat) (h : SoundMemory s) : SoundMemory (sealHull s cx g gen slot) := by
  unfold sealHull
  dsimp only
  exact updGrid_sound _ _ <| addRec_sound _ <| hulls_sound _ <| physPut_sound _ _ _ _ <| physPut_sound _ _ _ _ <|
    writeHomeN_sound _ _ _ <| writeHome_sound _ _ <| writeHome_sound _ _ h

theorem execHullWrite_sound (grid : Nat) (h : SoundMemory s) : NextSound (execHullWrite grid s) := by
  unfold execHullWrite
  split
  · exact next_sound h
  · split
    · refine ite_nextSound (next_sound h) ?_
      extract_lets slot n
      exact ite_nextSound (next_sound (sealHull_sound _ _ _ _ h))
        (next_sound (tryComplete_sound _ (updGrid_sound _ _ (addRec_sound _ h))))
    · exact next_sound h

/-! ## Services and contexts -/

theorem execServiceResume_sound (ctx : Nat) (h : SoundMemory s) : NextSound (execServiceResume ctx s) := by
  unfold execServiceResume
  split
  · exact ite_nextSound (next_sound h) (next_sound (updPair_sound _ _ (awake_sound h)))
  · exact next_sound h

theorem execServiceHandler_sound (ctx : Nat) (h : SoundMemory s) : NextSound (execServiceHandler ctx s) := by
  unfold execServiceHandler
  split
  · split
    · exact ite_nextSound (next_sound h) (next_sound (updPair_sound _ _ (awake_sound h)))
    · exact next_sound h
  · exact next_sound h

theorem execServiceEnd_sound (ctx : Nat) (h : SoundMemory s) : NextSound (execServiceEnd ctx s) := by
  unfold execServiceEnd
  split
  · exact next_sound (settleHalt_sound _ (endGrid_sound _ _ (awake_sound h)))
  · exact next_sound h

theorem execServiceContinue_sound (ctx : Nat) (h : SoundMemory s) : NextSound (execServiceContinue ctx s) := by
  unfold execServiceContinue
  split
  · exact next_sound (tryComplete_sound _ (updGrid_sound _ _ (awake_sound h)))
  · exact next_sound h

theorem recreate_sound (g : Grid) (ws : List Wave) (u : Team) (h : SoundMemory s) : SoundMemory (recreate g ws s u) :=
  nextId_sound (s := { s with teams := _, waves := _ }) (nextId_le_freshTeams _ _ _ _ _) h

theorem restartFrom_sound (g : Grid) (slot : Nat) (us : List Team) (ws : List Wave) (own : Bool) (h : SoundMemory s) :
    SoundMemory (restartFrom s g slot us ws own) := by
  unfold restartFrom
  extract_lets f mine ids held ended gone back room
  have hended : SoundMemory ended := endGrid_sound _ _ h
  have hgone : SoundMemory gone := sound_same hended rfl rfl rfl le_rfl
  have hback : SoundMemory back :=
    ite_sound (sound_same hgone rfl rfl rfl le_rfl) (sound_fold _ (fun _ _ h => recreate_sound _ _ _ h) _ _ hgone)
  have hroom : SoundMemory room := sound_fold _ (fun _ _ h => spillImages_sound _ h) _ _ hback
  exact addRec_sound _ (updGrid_sound _ _ hroom)

theorem execServiceRestore_sound (ctx : Nat) (h : SoundMemory s) : NextSound (execServiceRestore ctx s) := by
  unfold execServiceRestore
  split
  · exact next_sound h
  · dsimp only
    split
    · exact next_sound (tryComplete_sound _ (restartFrom_sound _ _ _ _ _ (awake_sound h)))
    · exact next_sound (addRec_sound _ h)

theorem barPut_sound (off n x : Nat) (h : SoundMemory s) : SoundMemory (s.barPut off n x) := updOut_sound _ h

theorem ctxs_sound (l : List Context) (h : SoundMemory s) : SoundMemory { s with ctxs := l } := h

theorem execContextSetup_sound (ctx record : Nat) (fn : Option Nat) (h : SoundMemory s) : NextSound (execContextSetup ctx record fn s) := by
  unfold execContextSetup
  refine ite_nextSound (next_sound h) ?_
  split
  · exact next_sound (barPut_sound _ _ _ (barPut_sound _ _ _ h))
  · exact next_sound (barPut_sound _ _ _ (barPut_sound _ _ _ (ctxs_sound _ h)))

theorem flushPending_sound (ctx : Nat) (h : SoundMemory s) : SoundMemory (flushPending s ctx) := by
  refine sound_fold _ (fun s o h => ?_) _ _ h
  split
  · exact ite_sound (writeStamp_sound _ _ _ _ _ h) h
  · exact h

theorem retireContext_sound (cx : Context) (h : SoundMemory s) : SoundMemory (retireContext s cx) := by
  unfold retireContext
  extract_lets ended unpinned cores drained flushed outside gone
  have hunpinned : SoundMemory unpinned := sound_fold _ (fun _ _ h => endWindow_sound _ h) _ _
    (sound_fold _ (fun _ _ h => endGrid_sound _ _ h) _ _ h)
  have hdrained : SoundMemory drained := sound_fold _ (fun _ _ h => drainCore_sound _ _ h) _ _ hunpinned
  have hflushed : SoundMemory flushed := flushPending_sound (s := { drained with tenures := _ }) _ hdrained
  have hgone : SoundMemory gone := sound_same hflushed rfl rfl rfl le_rfl
  exact awake_sound (settleHalt_sound _ hgone)

theorem execContextRetire_sound (ctx : Nat) (h : SoundMemory s) : NextSound (execContextRetire ctx s) := by
  unfold execContextRetire
  split
  · exact next_sound (barPut_sound _ _ _ (barPut_sound _ _ _ (retireContext_sound _ h)))
  · exact next_sound (barPut_sound _ _ _ (barPut_sound _ _ _ h))

theorem execSyncRead_sound (page : PageRead) (h : SoundMemory s) : NextSound (execSyncRead page s) :=
  ite_nextSound (next_sound h) (next_sound (answer_sound _ h))

end Sys2Proof.SoundTenure

/-! # Every step keeps memory sound: errors, failures, spares, links, and what reaches the device from outside -/

namespace Sys2Proof.SoundOutside

open Sys2Proof.Machine Sys2Proof.Machine.Laws Sys2Proof.SoundIssue Sys2Proof.SoundLanes Sys2Proof.SoundKeys
  Sys2Proof.SoundLaunch Sys2Proof.SoundTenure

variable {s : State}

/-! ## Errors and poison marks -/

theorem execCorrectedError_sound (kind index : Nat) (h : SoundMemory s) : NextSound (execCorrectedError kind index s) :=
  next_sound (countCorrected_sound _ _ h)

theorem markCached_sound (cache word : Nat) (h : SoundMemory s) : SoundMemory (markCached s cache word) := by
  unfold markCached
  extract_lets performed marked
  have hperformed : SoundMemory performed := ite_sound (performPends_sound _ _ h) h
  have hmarked : SoundMemory marked := ite_sound hperformed hperformed
  split
  · exact ite_sound hmarked hperformed
  · exact hmarked
  · exact setHeld_sound _ _ _ hperformed
  · exact ite_sound (countCorrected_sound _ _ (dropHeld_sound _ _ hperformed)) (countCorrected_sound _ _ (dropHeld_sound _ _ hperformed))

theorem markShadow_sound (team item i : Nat) (h : SoundMemory s) : SoundMemory (markShadow s team item i) := by
  unfold markShadow
  split
  · exact h
  · exact ite_sound (ite_sound (updTeam_sound _ _ h) h) <| ite_sound (ite_sound (updTeam_sound _ _ h) h) <|
      ite_sound (updTeam_sound _ _ h) h

theorem execPoisonMark_sound (kind a b c : Nat) (h : SoundMemory s) : NextSound (execPoisonMark kind a b c s) := by
  refine next_sound ?_
  split
  · exact ite_sound h h
  · exact h
  · exact h
  · exact h
  · exact h
  · exact h
  · exact markCached_sound _ _ h
  · exact markShadow_sound _ _ _ h
  · exact h
  · exact h
  · exact h

/-! ## Failures and the census -/

theorem addDue_sound (kind i : Nat) (h : SoundMemory s) : SoundMemory (s.addDue kind i) := ite_sound h (updOut_sound _ h)

theorem loseWords_sound (ws : List Nat) (ctxs : Nat → List Nat) (core : Nat) (h : SoundMemory s) : SoundMemory (loseWords s ws ctxs core) :=
  sound_same h rfl rfl rfl le_rfl

theorem loseTeams_sound (ids : List Nat) (h : SoundMemory s) : SoundMemory (loseTeams s ids) := sound_same h rfl rfl rfl le_rfl

theorem dropCore_sound (core : Nat) (h : SoundMemory s) : SoundMemory (dropCore s core) := by
  have hpend := filterPend_sound (fun e => e.core != core) h
  have hblocks := filterBlocks_sound (fun b => b.cache != core) hpend
  exact sound_same hblocks rfl rfl rfl le_rfl

theorem failCore_sound (core : Nat) (h : SoundMemory s) : SoundMemory (failCore s core) := by
  refine addDue_sound _ _ (sound_fold _ (fun s g h => ?_) _ _
    (returnTokens_sound _ (loseTeams_sound _ (dropCore_sound _ (loseWords_sound _ _ _ h)))))
  split
  · exact haltCheck_sound _ (needHull_sound _ _ h)
  · exact h

theorem failSlice_sound (n : Nat) (h : SoundMemory s) : SoundMemory (failSlice s n) :=
  addDue_sound _ _ (filterBlocks_sound _ (loseWords_sound _ _ _ h))

theorem downHome_sound (k : Home) (h : SoundMemory s) : SoundMemory (downHome s k) := updOut_sound _ h

theorem guests_sound (l : List Guest) (h : SoundMemory s) : SoundMemory { s with guests := l } := h

theorem failHome_sound (k : Home) (h : SoundMemory s) : SoundMemory (failHome s k) := by
  cases k with
  | device n => exact ite_sound h (downHome_sound _ (guests_sound _ (loseWords_sound _ _ _ h)))
  | die n =>
    exact downHome_sound _ (sound_fold _ (fun _ _ h => failSlice_sound _ h) _ _ (sound_fold _ (fun _ _ h => failCore_sound _ h) _ _ h))

theorem execAgentFailure_sound (agent : Agent) (h : SoundMemory s) : NextSound (execAgentFailure agent s) := by
  refine next_sound (awake_sound ?_)
  cases agent with
  | core n => exact failCore_sound _ h
  | slice n => exact failSlice_sound _ h
  | home k => exact failHome_sound _ h

theorem salvageWord_sound (p : Partition) (word : Nat) (data : List (BitVec 8)) (bad : Bool) (ctx : Nat) (h : SoundMemory s) :
    SoundMemory (salvageWord s p word data bad ctx) := by
  unfold salvageWord
  dsimp only
  exact ite_sound h <| physPut_sound _ _ _ _ <| physPut_sound _ _ _ _ <| physPut_sound _ _ _ _ <| physPut_sound _ _ _ _ <|
    physPut_sound _ _ _ _ <| ite_sound (commitWord_sound _ _ _ h) h

theorem execCensus_sound (home : Home) (h : SoundMemory s) : NextSound (execCensus home s) := by
  unfold execCensus
  refine ite_nextSound (next_sound h) ?_
  extract_lets of salvaged
  have hsalvaged : SoundMemory salvaged := sound_fold _ (fun _ _ h => sound_fold _ (fun _ _ h => salvageWord_sound _ _ _ _ _ h) _ _ h) _ _ h
  have hpend := filterPend_sound (fun e => !(of e.word)) hsalvaged
  have hblocks := filterBlocks_sound (fun b => !(of (16 * b.frame))) hpend
  exact next_sound (sound_same hblocks rfl rfl rfl le_rfl)

/-! ## Links and spares -/

theorem updLink_sound (link : Nat) (f : Link → Link) (h : SoundMemory s) : SoundMemory (s.updLink link f) := updOut_sound _ h

theorem execLinkFlitReceive_sound (link : Nat) (good : Bool) (h : SoundMemory s) : NextSound (execLinkFlitReceive link good s) :=
  next_sound (updLink_sound _ _ h)

theorem setUnit_sound (kind i x : Nat) (h : SoundMemory s) : SoundMemory (setUnit s kind i x) := updOut_sound _ h

theorem execLinkRetrain_sound (link : Nat) (h : SoundMemory s) : NextSound (execLinkRetrain link s) := by
  unfold execLinkRetrain
  split
  · exact ite_nextSound (ite_nextSound (next_sound (updLink_sound _ _ (setUnit_sound _ _ _ (setUnit_sound _ _ _ (bump_sound h)))))
      (next_sound (noteCounts_sound (updLink_sound _ _ h)))) (next_sound h)
  · exact next_sound h

theorem refreshLanes_sound (k : Nat) (h : SoundMemory s) : SoundMemory (refreshLanes s k) := sound_same h rfl rfl rfl le_rfl

theorem replaceLane_sound (i : Nat) (h : SoundMemory s) : SoundMemory (replaceLane s i) := by
  unfold replaceLane
  extract_lets q spare replaced noted
  have hreplaced : SoundMemory replaced := by
    unfold replaced
    cases spare with
    | some l => exact setUnit_sound _ _ _ (setUnit_sound _ _ _ h)
    | none => exact setUnit_sound _ _ _ h
  have hnoted : SoundMemory noted := ite_sound (updOut_sound _ hreplaced) hreplaced
  split
  · exact refreshLanes_sound _ hnoted
  · exact hnoted

theorem setSite_sound (kind n site : Nat) (h : SoundMemory s) : SoundMemory (setSite s kind n site) := updOut_sound _ h

theorem changeUnit_sound (kind n : Nat) (h : SoundMemory s) : SoundMemory (changeUnit s kind n) := by
  unfold changeUnit
  extract_lets stops cores moved
  have hmoved : SoundMemory moved := moveImages_sound _ (sound_fold _ (fun _ _ h => drainCore_sound _ _ h) _ _ h)
  clear_value moved
  have hpend := filterPend_sound (fun e => !cores.contains e.core) hmoved
  have hblocks := filterBlocks_sound (fun b => !(cores.contains b.cache || stops b.cache)) hpend
  exact ite_sound (refreshLanes_sound _ (sound_same hblocks rfl rfl rfl le_rfl)) (filterBlocks_sound _ h)

theorem serveShared_sound (slices : List Nat) (h : SoundMemory s) : SoundMemory (serveShared s slices) := by
  have hshared : SoundMemory { s with shared := slices } := h
  have hblocks := filterBlocks_sound
    (fun b => !(decide (512 ≤ b.cache) && decide (b.cache < 1024) && (tagAt { s with shared := slices } (256 * b.frame)).2 == 31)) hshared
  exact sound_same hblocks rfl rfl rfl le_rfl

theorem unshare_sound (kind n : Nat) (h : SoundMemory s) : SoundMemory (unshare s kind n) := ite_sound (serveShared_sound _ h) h

theorem replaceSite_sound (kind i : Nat) (h : SoundMemory s) : SoundMemory (replaceSite s kind i) := by
  unfold replaceSite
  dsimp only
  split
  · exact setUnit_sound _ _ _ h
  · split
    · exact changeUnit_sound _ _ (setSite_sound _ _ _ (setUnit_sound _ _ _ (setUnit_sound _ _ _ h)))
    · exact ite_sound (changeUnit_sound _ _ (unshare_sound _ _ (setUnit_sound _ _ _ h))) <| ite_sound h <|
        changeUnit_sound _ _ (changeUnit_sound _ _ (setSite_sound _ _ _ (setSite_sound _ _ _ (setUnit_sound _ _ _ (unshare_sound _ _ h)))))

theorem replaceOther_sound (kind i : Nat) (h : SoundMemory s) : SoundMemory (replaceOther s kind i) := by
  unfold replaceOther
  split
  · exact ite_sound (setUnit_sound _ _ _ (setUnit_sound _ _ _ h)) (setUnit_sound _ _ _ h)
  · exact ite_sound (setUnit_sound _ _ _ h) h
  · exact ite_sound (setUnit_sound _ _ _ h) h
  · exact h

theorem settleDue_sound (kind i : Nat) (h : SoundMemory s) : SoundMemory (settleDue s kind i) := updOut_sound _ h

theorem execSpareSubstitution_sound (kind index : Nat) (h : SoundMemory s) : NextSound (execSpareSubstitution kind index s) := by
  unfold execSpareSubstitution
  refine ite_nextSound (next_sound h) (ite_nextSound (next_sound (settleDue_sound _ _ h)) ?_)
  extract_lets replaced kept
  have hreplaced : SoundMemory replaced := by
    unfold replaced
    split
    · exact replaceLane_sound _ h
    · exact replaceSite_sound _ _ h
    · exact replaceSite_sound _ _ h
    · exact replaceOther_sound _ _ h
  exact next_sound (writeCountsReg_sound (ite_sound hreplaced (settleDue_sound _ _ hreplaced)))

/-! ## Requests of other devices and of the host -/

theorem outsideAccess_sound (secure : Bool) (loc : Nat) (write : Option (List (BitVec 8))) (n : Nat) (guest : Option Nat)
    (h : SoundMemory s) : SoundMemory (outsideAccess s secure loc write n guest) := by
  unfold outsideAccess
  extract_lets len
  refine ite_sound (ite_sound (answer_sound _ h) h) (ite_sound h ?_)
  split
  · exact h
  · next hrecall =>
    extract_lets flushed done
    have hflushed : SoundMemory flushed := flushStamps_sound _ _ _ (recallFor_sound h hrecall)
    have hdone : SoundMemory done := by
      unfold done
      split
      · exact answer_sound _ (sound_fold _ (fun _ _ h => downgrade_sound _ h) _ _ hflushed)
      · exact writeHome_sound _ _ hflushed
    refine awake_sound ?_
    split
    · exact hdone
    · exact guests_sound _ hdone

theorem execRemoteRequest_sound (src : Remote) (write : Option (List (BitVec 8))) (size : Nat) (h : SoundMemory s) :
    NextSound (execRemoteRequest src write size s) := next_sound (outsideAccess_sound _ _ _ _ _ h)

theorem execHostBar2Access_sound (pa : Nat) (write : Option (List (BitVec 8))) (size : Nat) (h : SoundMemory s) :
    NextSound (execHostBar2Access pa write size s) := ite_nextSound (next_sound (outsideAccess_sound _ _ _ _ _ h)) (next_sound h)

theorem execHostAtomicop_sound (kind size pa x y : Nat) (h : SoundMemory s) : NextSound (execHostAtomicop kind size pa x y s) := by
  unfold execHostAtomicop
  extract_lets loc ok op
  refine ite_nextSound (next_sound h) (ite_nextSound (next_sound (answer_sound _ h)) (ite_nextSound (next_sound h) ?_))
  split
  · exact next_sound h
  · next hrecall =>
    exact next_sound (awake_sound (answer_sound _ (redHome_sound _ _ _ _ _ (flushStamps_sound _ _ _ (recallFor_sound h hrecall)))))

theorem execHostCxlCache_sound (pa : Nat) (data : List (BitVec 8)) (h : SoundMemory s) : NextSound (execHostCxlCache pa data s) := by
  unfold execHostCxlCache
  extract_lets loc n ws flushed drained gone
  have hdrained : SoundMemory drained := sound_fold _ (fun _ _ h => drainCore_sound _ _ h) _ _ (flushStamps_sound _ _ _ h)
  exact ite_nextSound (next_sound h) <| ite_nextSound (next_sound h) <| next_sound <| awake_sound <| writeHome_sound _ _ <|
    sound_fold _ (fun _ _ h => dropHeld_sound _ _ h) _ _ hdrained

/-! ## Registers -/

theorem updBox_sound (apex : Bool) (f : Mailbox → Mailbox) (h : SoundMemory s) : SoundMemory (s.updBox apex f) := updOut_sound _ h

theorem setupWrite_sound (part val : Nat) (h : SoundMemory s) : NextSound (setupWrite s part val) := by
  unfold setupWrite
  dsimp only
  split
  · exact execSetupBindKeyspace_sound _ _ h
  · exact execSetupUnbindKeyspace_sound _ _ h
  · exact execSetupWorkList_sound _ _ h
  · exact execSetupRereadQueue_sound _ _ h
  · exact next_sound (setSetup_sound _ _ h)

theorem serviceGo_sound (ctx : Nat) (h : SoundMemory s) : NextSound (serviceGo s ctx) := by
  unfold serviceGo
  split
  · exact execServiceResume_sound _ h
  · exact execServiceHandler_sound _ h
  · exact execServiceEnd_sound _ h
  · exact execServiceContinue_sound _ h
  · exact execServiceRestore_sound _ h
  · exact next_sound h

theorem contextWrite_sound (ctx o size val : Nat) (fn : Option Nat) (h : SoundMemory s) : NextSound (contextWrite s ctx o size val fn) :=
  ite_nextSound (ite_nextSound (execContextRetire_sound _ h) (execContextSetup_sound _ _ _ h)) <|
    ite_nextSound (serviceGo_sound _ h) (next_sound (updOut_sound _ h))

theorem execRegisterWrite_sound (off size val : Nat) (face : Face) (h : SoundMemory s) :
    NextSound (execRegisterWrite off size val face s) := by
  unfold execRegisterWrite
  refine ite_nextSound (next_sound (ite_sound (updBox_sound _ _ h) h)) (ite_nextSound (next_sound h) ?_)
  split
  · exact ite_nextSound (next_sound (updOut_sound _ h)) (ite_nextSound (setupWrite_sound _ _ h) (next_sound h))
  · exact contextWrite_sound _ _ _ _ _ h
  · exact next_sound (ite_sound (updBox_sound _ _ h) h)

end Sys2Proof.SoundOutside

/-! # Every step keeps memory sound: the Apex, its commands and resets -/

namespace Sys2Proof.SoundApex

open Sys2Proof.Machine Sys2Proof.Machine.Laws Sys2Proof.SoundIssue Sys2Proof.SoundLaunch Sys2Proof.SoundTenure Sys2Proof.SoundOutside

variable {s : State}

/-! ## Commands of the mailboxes -/

theorem command_sound (apex : Bool) (opcode : Nat) (reasons : Mailbox → List (Nat × Bool)) {eff : Mailbox → State}
    (wait : Mailbox → Bool) (h : SoundMemory s) (heff : ∀ b, SoundMemory (eff b)) :
    SoundMemory (command s apex opcode reasons eff wait) := by
  unfold command
  dsimp only
  split
  · split
    · exact updBox_sound _ _ h
    · exact ite_sound h (updBox_sound _ _ (awake_sound (heff _)))
  · exact h

theorem zeroUnits_sound (clusters slices : List Nat) (owner : Nat → Bool) (h : SoundMemory s) :
    SoundMemory (zeroUnits s clusters slices owner) := by
  unfold zeroUnits
  extract_lets cores moved stops
  have hmoved : SoundMemory moved := moveImages_sound _ (sound_fold _ (fun _ _ h => drainCore_sound _ _ h) _ _ h)
  clear_value moved
  have hpend := filterPend_sound (fun e => !cores.contains e.core) hmoved
  have hblocks := filterBlocks_sound (fun b => !(cores.contains b.cache || stops.contains b.cache ||
    (slices.any (fun x => b.cache == 512 + x) && owner (tagAt moved (256 * b.frame)).2))) hpend
  exact sound_same hblocks rfl rfl rfl le_rfl

theorem zeroHalted_sound (owners : List Partition) (clusters slices : List Nat) (h : SoundMemory s) :
    SoundMemory (zeroHalted s owners clusters slices) := zeroUnits_sound _ _ _ h

theorem beginRun_sound (h : SoundMemory s) : SoundMemory (beginRun s) := updOut_sound _ h

theorem parts_sound (l : List Partition) (h : SoundMemory s) : SoundMemory { s with parts := l } := h

theorem execPartset_sound (apex : Bool) (h : SoundMemory s) : NextSound (execPartset apex s) :=
  next_sound (command_sound _ _ _ _ h fun _ => beginRun_sound (parts_sound _ (zeroHalted_sound _ _ _ h)))

theorem freePart_sound (p : Partition) (h : SoundMemory s) : SoundMemory (freePart s p) := by
  unfold freePart
  extract_lets retired zeroed mine
  have hzeroed : SoundMemory zeroed := zeroUnits_sound _ _ _ (sound_fold _ (fun _ _ h => retireContext_sound _ h) _ _ h)
  clear_value zeroed
  exact sound_same hzeroed rfl rfl rfl le_rfl

theorem execPartfree_sound (apex : Bool) (h : SoundMemory s) : NextSound (execPartfree apex s) := by
  refine next_sound (command_sound _ _ _ _ h fun b => ?_)
  split
  · exact freePart_sound _ h
  · exact h

theorem haltPart_sound (part : Nat) (h : SoundMemory s) : SoundMemory (haltPart s part) := settleHalt_sound _ (updPart_sound _ _ h)

theorem execParthalt_sound (apex : Bool) (h : SoundMemory s) : NextSound (execParthalt apex s) := by
  unfold execParthalt
  refine next_sound (ite_sound (ite_sound (updBox_sound _ _ h) ?_) h)
  split
  · exact updBox_sound _ _ h
  · exact ite_sound (updBox_sound _ _ h) (haltPart_sound _ h)

theorem execPartrun_sound (apex : Bool) (h : SoundMemory s) : NextSound (execPartrun apex s) := by
  refine next_sound (command_sound _ _ _ _ h fun b => ?_)
  split
  · exact updPart_sound _ _ (beginRun_sound (zeroHalted_sound _ _ _ h))
  · exact h

theorem tagWrite_sound (regions : List Nat) (tag : Bool × Nat) (h : SoundMemory s) : SoundMemory (tagWrite s regions tag) := by
  unfold tagWrite
  extract_lets hit cores drained
  have hdrained : SoundMemory drained := sound_fold _ (fun _ _ h => drainCore_sound _ _ h) _ _ h
  clear_value drained
  exact sound_same (filterBlocks_sound (fun b => !(hit (16 * b.frame))) hdrained) rfl rfl rfl le_rfl

theorem execRegtag_sound (apex : Bool) (h : SoundMemory s) : NextSound (execRegtag apex s) :=
  next_sound (command_sound _ _ _ _ h fun _ => tagWrite_sound _ _ h)

theorem keys_sound (l : List (Nat × Nat × List (BitVec 8))) (h : SoundMemory s) : SoundMemory { s with keys := l } := h

theorem execKeyload_sound (apex : Bool) (h : SoundMemory s) : NextSound (execKeyload apex s) :=
  next_sound (command_sound _ _ _ _ h fun _ => keys_sound _ h)

theorem execSharedset_sound (apex : Bool) (h : SoundMemory s) : NextSound (execSharedset apex s) :=
  next_sound (command_sound _ _ _ _ h fun _ => serveShared_sound _ (zeroHalted_sound _ _ _ h))

theorem execUnitread_sound (apex : Bool) (h : SoundMemory s) : NextSound (execUnitread apex s) :=
  next_sound (command_sound _ _ _ _ h fun _ => updBox_sound _ _ h)

theorem execPwrlimit_sound (apex : Bool) (h : SoundMemory s) : NextSound (execPwrlimit apex s) :=
  next_sound (command_sound _ _ _ _ h fun _ => updOut_sound _ h)

/-! ## Resets, boot, clocks and heat -/

theorem execDeviceReset_sound (h : SoundMemory s) : NextSound (execDeviceReset s) :=
  next_sound (sound_of h id (fun _ => reset_sound.2.1) (List.nil_sublist _) le_rfl)

theorem bootRoutes_sound (h : SoundMemory s) : SoundMemory (bootRoutes s) := updOut_sound _ h

theorem execBootStageComplete_sound (error : Option Nat) (h : SoundMemory s) : NextSound (execBootStageComplete error s) := by
  unfold execBootStageComplete
  refine ite_nextSound (next_sound h) ?_
  split
  · exact next_sound (updOut_sound _ h)
  · exact next_sound (ite_sound (writeCountsReg_sound (updOut_sound _ h))
      (ite_sound (bootRoutes_sound (updOut_sound _ h)) (updOut_sound _ h)))

theorem execClockChange_sound (mhz : Nat) (h : SoundMemory s) : NextSound (execClockChange mhz s) :=
  ite_nextSound (next_sound (updOut_sound _ h)) (next_sound h)

theorem execThermalLimit_sound (h : SoundMemory s) : NextSound (execThermalLimit s) :=
  ite_nextSound (next_sound h) (next_sound (updOut_sound _ h))

theorem execThermalHalt_sound (h : SoundMemory s) : NextSound (execThermalHalt s) := by
  have hhalted := sound_fold (fun s (p : Partition) => haltPart s p.id) (fun _ _ h => haltPart_sound _ h) s.parts s h
  exact next_sound (ite_sound (updOut_sound _ (moveImages_sound _ hhalted)) hhalted)

theorem execCorePowerGate_sound (core : Nat) (h : SoundMemory s) : NextSound (execCorePowerGate core s) :=
  next_sound (ite_sound (gated_sound _ h) h)

end Sys2Proof.SoundApex

/-! # Every step keeps memory sound: the matrix unit -/

namespace Sys2Proof.SoundMatrix

open Sys2Proof.Machine Sys2Proof.Machine.Laws Sys2Proof.SoundIssue Sys2Proof.SoundLaunch Sys2Proof.SoundCopy

variable {s t : State} {c : Issue}

theorem setCluster_sound (k : Cluster) (h : SoundMemory s) : SoundMemory (s.setCluster k) := h

theorem setKind_sound (id : Nat) (k : OpKind) (h : SoundMemory s) : SoundMemory (s.setKind id k) := h

theorem dropOp_sound (id : Nat) (h : SoundMemory s) : SoundMemory (s.dropOp id) := h

theorem ops_sound (l : List Op) (h : SoundMemory s) : SoundMemory { s with ops := l } := h

theorem down_sound (o : Op) (h : SoundMemory s) : SoundMemory (o.down s) := updPair_sound _ _ h

/-! ## mma -/

theorem execMma_sound (o : OpFG2) (h : SoundMemory s) : NextSound (execMma o s) := by
  refine issueAs_sound h fun c hc => guarded_sound <| flagRoom_sound hc <| once_sound hc <| guarded_sound <|
    withSpAnd_sound hc fun c d hc => ?_
  split
  · exact error_sound _
  · exact ite_effSound (ok_sound hc) (ok_sound (retireOnce_sound _ _ _ (startOp_sound _ (touchLeaves_sound _ _ _ hc))))

theorem execMmaAccept_sound (op : Nat) (h : SoundMemory s) : NextSound (execMmaAccept op s) := by
  unfold execMmaAccept
  split
  · split
    · split
      · exact next_sound (down_sound _ (writeStatus_sound _ _ _ (dropOp_sound _ h)))
      · exact next_sound (setKind_sound _ _ h)
    · exact next_sound h
  · exact next_sound h

theorem performMma_sound (c : Issue) (o : Op) (p : List (BitVec 8)) (off a : Nat) (lat : Option Nat) (h : SoundMemory s) :
    SoundMemory (performMma s c o p off a lat) := by
  unfold performMma
  extract_lets k tile passes bad win k' written done
  have hdone : SoundMemory done := writeStatus_sound _ _ _ (setCluster_sound _ (dropOp_sound _ h))
  exact down_sound _ (ite_sound (consume_sound _ _ hdone) hdone)

theorem execMmaGrant_sound (cluster : Nat) (h : SoundMemory s) : NextSound (execMmaGrant cluster s) := by
  unfold execMmaGrant
  dsimp only
  split
  · exact next_sound h
  · split
    · exact ite_nextSound (next_sound (ops_sound _ h)) (next_sound (performMma_sound _ _ _ _ _ _ (beforeEngine_sound _ (ops_sound _ h))))
    · exact next_sound h

/-! ## Tokens, swaps, zeros, and rows of tiles -/

theorem tileEff_sound (o : OpTile) (minor : Nat) (engine own : Bool) (h : SoundMemory s) : NextSound (tileEff s o minor engine own) :=
  issueAs_sound h fun _ hc => guarded_sound <| flagRoom_sound hc <| once_sound hc <| guarded_sound <|
    ok_sound (retireOnce_sound _ _ _ (addOp_sound _ hc))

theorem execTileInstrEffect_sound (op : Nat) (h : SoundMemory s) : NextSound (execTileInstrEffect op s) := by
  unfold execTileInstrEffect
  split
  · split
    · exact ite_nextSound (next_sound (down_sound _ (setCluster_sound _ (dropOp_sound _ h)))) (next_sound h)
    · exact next_sound h
  · exact next_sound h

theorem tileRowsEff_sound (o : OpTRow) (write : Bool) (h : SoundMemory s) : NextSound (tileRowsEff s o write) := by
  refine issueAs_sound h fun c hc => guarded_sound <| flagRoom_sound hc <| once_sound hc <| guarded_sound ?_
  split
  · exact error_sound _
  · exact guarded_sound <| ite_effSound (ok_sound hc)
      (ok_sound (retireOnce_sound _ _ _ (startOp_sound _ (touchLeaves_sound _ _ _ hc))))

theorem rowsOut_sound (c : Issue) (via : List (Nat × Nat)) (sp : Nat) (ps : List Place) (l : List (BitVec 8)) (h : SoundMemory s) :
    SoundMemory (rowsOut s c via sp ps l) := by
  unfold rowsOut
  extract_lets glob stored
  have hstored : SoundMemory stored := sound_fold _ (fun _ _ h => storeWord_sound _ _ _ _ _ _ _ h) _ _ h
  refine ite_sound (spWriteBoth_sound _ _ _ hstored) (sound_fold _ (fun s p h => ?_) _ _ hstored)
  split
  · exact spWriteBoth_sound _ _ _ h
  · exact h

theorem performTread_sound (c : Issue) (via : List (Nat × Nat)) (k : Cluster) (tile sp rows slot : Nat) (seed : Word) (ps : List Place)
    (h : SoundMemory s) : SoundMemory (performTread s c via k tile sp rows slot seed ps).1 := rowsOut_sound _ _ _ _ _ h

theorem execTileRowsComplete_sound (op : Nat) (h : SoundMemory s) : NextSound (execTileRowsComplete op s) := by
  unfold execTileRowsComplete
  split
  · next o _ =>
    split
    · refine ite_nextSound ?_ (next_sound h)
      extract_lets k ready written stored r
      have hready : SoundMemory ready := beforeEngine_sound o (dropOp_sound op h)
      refine next_sound (updPair_sound _ _ ?_)
      unfold r
      split
      · exact ite_sound (consume_sound _ _ (setCluster_sound _ hready)) (setCluster_sound _ hready)
      · exact performTread_sound _ _ _ _ _ _ _ _ _ hready
    · exact next_sound h
  · exact next_sound h

/-! ## Columns -/

theorem readUnit_sound (c : Issue) (l : List (Nat × Nat × Nat)) :
    ∀ {s t : State} {r : List (Nat × List (BitVec 8 × Bool))}, SoundMemory s → readUnit c s l = some (t, r) → SoundMemory t := by
  induction l with
  | nil =>
    intro s t r h ht
    cases ht
    exact h
  | cons x l ih =>
    intro s t r h ht
    unfold readUnit at ht
    split at ht
    · cases ht
    · next hread =>
      split at ht
      · cases ht
      · next hrest =>
        cases ht
        exact ih (engineRead_sound h hread) hrest

theorem loadUnits_sound (c : Issue) (slice : Nat) (us : List (List (Nat × Nat × Nat))) :
    ∀ {s : State} (k : Cluster) (bad : Bool), SoundMemory s → SoundMemory (loadUnits c slice us s k bad).1 := by
  induction us with
  | nil => exact fun _ _ h => h
  | cons u us ih =>
    intro s k bad h
    unfold loadUnits
    split
    · exact h
    · next hread => exact ih _ _ (readUnit_sound _ _ h hread)

theorem loadCols_sound (c : Issue) (d : List (BitVec 8)) (n : Nat) :
    ∀ {s : State} (col : Nat) (k : Cluster) (bad : Bool), SoundMemory s → SoundMemory (loadCols c d n col s k bad).1 := by
  induction n with
  | zero => exact fun _ _ _ h => h
  | succ n ih =>
    intro s col k bad h
    have hunits := loadUnits_sound c (field d 0x0D 1 + col) (colUnits c.g.launch d col) k bad h
    unfold loadCols
    split
    · next hu =>
      rw [hu] at hunits
      exact ih _ _ _ hunits
    · next hu =>
      rw [hu] at hunits
      exact hunits

theorem execColload_sound (o : OpF2) (h : SoundMemory s) : NextSound (execColload o s) :=
  issueAs_sound h fun _ hc => guarded_sound <| flagRoom_sound hc <| once_sound hc <| guarded_sound <| withDesc_sound hc fun _ _ hc =>
    ite_effSound (ok_sound hc) (ok_sound (retireOnce_sound _ _ _ (startOp_sound _ hc)))

theorem execColloadComplete_sound (op : Nat) (h : SoundMemory s) : NextSound (execColloadComplete op s) := by
  unfold execColloadComplete
  split
  · next o _ =>
    split
    · split
      · exact next_sound (down_sound _ (writeStatus_sound _ _ _ (dropOp_sound _ h)))
      · refine ite_nextSound (next_sound (down_sound _ (writeStatus_sound _ _ _ (setCluster_sound _ ?_)))) (next_sound h)
        exact loadCols_sound _ _ _ _ _ _ (beforeEngine_sound o (dropOp_sound op h))
    · exact next_sound h
  · exact next_sound h

/-! ## Quantising copies -/

theorem sideRead_sound {sp : Bool} {addr n : Nat} {l : List (BitVec 8 × Bool)} (h : SoundMemory s)
    (ht : sideRead c s sp addr n = some (t, l)) : SoundMemory t := by
  unfold sideRead at ht
  split at ht
  · next r hr =>
    obtain rfl := Option.some.inj ht
    split at hr
    · exact spIn_sound h hr
    · exact engineRead_sound h hr
  · cases ht

theorem sideWrite_sound {sp : Bool} {addr : Nat} {l : List (BitVec 8 × Bool)} (h : SoundMemory s)
    (ht : sideWrite c s sp addr l = some t) : SoundMemory t := by
  unfold sideWrite at ht
  split at ht
  · next r hr =>
    obtain rfl := Option.some.inj ht
    split at hr
    · exact spOut_sound h _ hr
    · exact enginePut_sound h _ hr
  · cases ht

theorem sideReadRun_sound (c : Issue) (sp : Bool) (fuel : Nat) :
    ∀ {s : State} (addr n : Nat), SoundMemory s → SoundMemory (sideReadRun c sp fuel s addr n).1 := by
  induction fuel with
  | zero => exact fun _ _ h => h
  | succ fuel ih =>
    intro s addr n h
    unfold sideReadRun
    dsimp only
    split
    · exact h
    · split
      · exact h
      · next hread => exact ih _ _ (sideRead_sound h hread)

theorem sideWriteRun_sound (c : Issue) (sp : Bool) (fuel : Nat) :
    ∀ {s : State} (addr : Nat) (l : List (BitVec 8 × Bool)), SoundMemory s → SoundMemory (sideWriteRun c sp fuel s addr l).1 := by
  induction fuel with
  | zero => exact fun _ _ h => h
  | succ fuel ih =>
    intro s addr l h
    unfold sideWriteRun
    dsimp only
    split
    · exact h
    · split
      · exact h
      · next hwrite => exact ih _ _ (sideWrite_sound h hwrite)

theorem quantBlockAt_sound (c : Issue) (d : List (BitVec 8)) (x : Nat) (table : List Nat) (seed : Word) (row b : Nat) {r : QRun}
    (h : SoundMemory r.s) : SoundMemory (quantBlockAt c d x table seed row b r).s := by
  unfold quantBlockAt
  dsimp only
  split
  · exact h
  · next hread =>
    have hs := sideRead_sound h hread
    split
    · exact hs
    · next hout =>
      split
      · exact hs
      · next hscale => exact sideWrite_sound (sideWrite_sound hs hout) hscale

theorem quantBlocks_sound (c : Issue) (d : List (BitVec 8)) (x : Nat) (table : List Nat) (seed : Word) (row : Nat) {r : QRun}
    (h : SoundMemory r.s) : SoundMemory (quantBlocks c d x table seed row r).s := by
  unfold quantBlocks
  induction List.range (field d 0x0E 2 / slotBlock x) generalizing r with
  | nil => exact h
  | cons b l ih =>
    refine ih ?_
    dsimp only
    split
    · exact quantBlockAt_sound _ _ _ _ _ _ _ h
    · exact h

theorem quantRow_sound (c : Issue) (d : List (BitVec 8)) (x : Nat) (seed : Word) (row : Nat) {r : QRun} (h : SoundMemory r.s) :
    SoundMemory (quantRow c d x seed row r).s := sideWriteRun_sound _ _ _ _ _ (sideReadRun_sound _ _ _ _ _ h)

theorem quantRows_sound (c : Issue) (d : List (BitVec 8)) (x : Nat) (table : List Nat) (seed : Word) (n : Nat) :
    ∀ (row : Nat) (r : QRun), SoundMemory r.s → SoundMemory (quantRows c d x table seed n row r).1.s := by
  induction n with
  | zero => exact fun _ _ h => h
  | succ n ih =>
    intro row r h
    unfold quantRows
    extract_lets r'
    have hr : SoundMemory r'.s := by
      unfold r'
      split
      · exact quantBlocks_sound _ _ _ _ _ _ h
      · exact quantRow_sound _ _ _ _ _ h
    split
    · exact ih _ _ hr
    · exact hr

theorem execQcopy_sound (o : OpFG2) (h : SoundMemory s) : NextSound (execQcopy o s) := by
  refine issueAs_sound h fun c hc => guarded_sound <| flagRoom_sound hc <| once_sound hc <| guarded_sound <|
    withSpAnd_sound hc fun c d hc => ?_
  split
  · exact error_sound _
  · exact ite_effSound (ok_sound hc) (ok_sound (retireOnce_sound _ _ _ (startOp_sound _ (touchLeaves_sound _ _ _ hc))))

theorem performQcopy_sound (c : Issue) (d : List (BitVec 8)) (x : Nat) (lat : Option Nat) (seed : Word) (h : SoundMemory s) :
    SoundMemory (performQcopy c s d x lat seed).1 := by
  unfold performQcopy
  dsimp only
  split
  · exact h
  · exact quantRows_sound _ _ _ _ _ _ _ ⟨s, _, _, _⟩ h

theorem execQcopyComplete_sound (op : Nat) (h : SoundMemory s) : NextSound (execQcopyComplete op s) := by
  unfold execQcopyComplete
  split
  · next o _ =>
    split
    · dsimp only
      split
      · exact next_sound (down_sound _ (writeStatus_sound _ _ _ (dropOp_sound _ h)))
      · exact ite_nextSound (next_sound (down_sound _ (writeStatus_sound _ _ _
          (performQcopy_sound _ _ _ _ _ (beforeEngine_sound o (dropOp_sound op h)))))) (next_sound h)
    · exact next_sound h
  · exact next_sound h

end Sys2Proof.SoundMatrix

/-! # Every step keeps memory sound: one step -/

namespace Sys2Proof.SoundStep

open Sys2Proof.Machine Sys2Proof.Machine.Laws Sys2Proof.SoundIssue Sys2Proof.SoundAccess Sys2Proof.SoundSync Sys2Proof.SoundKeys
  Sys2Proof.SoundLaunch Sys2Proof.SoundCopy Sys2Proof.SoundLanes Sys2Proof.SoundTenure Sys2Proof.SoundOutside Sys2Proof.SoundApex
  Sys2Proof.SoundMatrix

variable {s t : State}

/-- Every instruction and every event keeps the state sound. -/
theorem exec_sound (i : Instr) (h : SoundMemory s) : NextSound (exec i s) := by
  unfold exec
  cases i with
  | launchTake part => exact execLaunchTake_sound _ h
  | teamPlace grid cores => exact execTeamPlace_sound _ _ h
  | placementWaitExpiry grid => exact execPlacementWaitExpiry_sound _ h
  | aggregatorRelease grid => exact next_sound (updGrid_sound _ _ h)
  | ageBoost wave => exact next_sound h
  | watchdog wave => exact execWatchdog_sound _ h
  | waveRetire wave => exact execWaveRetire_sound _ h
  | loadComplete part => exact execLoadComplete_sound _ h
  | storeComplete part => exact execStoreComplete_sound _ h
  | atomicComplete op => exact execAtomicComplete_sound _ h
  | fenceComplete wave => exact execFenceComplete_sound _ h
  | racqDrain op => exact execRacqDrain_sound _ h
  | cacheFillArrive core run => exact execCacheFillArrive_sound _ _ h
  | sliceAdmit die n => exact next_sound (admitFill_sound _ h)
  | monitorWake wave => exact execMonitorWake_sound _ h
  | monitorRepoll wave => exact execMonitorRepoll_sound _ h
  | pendingArrivalApply core => exact execPendingArrivalApply_sound _ h
  | tenureGrant op => exact execTenureGrant_sound _ h
  | tenureRecall ctx index write => exact execTenureRecall_sound _ _ _ h
  | hrelEffect op => exact execHrelEffect_sound _ h
  | flushComplete op => exact execFlushComplete_sound _ h
  | rmodeComplete op => exact execRmodeComplete_sound _ h
  | mmaAccept op => exact execMmaAccept_sound _ h
  | mmaGrant cluster => exact execMmaGrant_sound _ h
  | tileInstrEffect op => exact execTileInstrEffect_sound _ h
  | tileRowsComplete op => exact execTileRowsComplete_sound _ h
  | colloadComplete op => exact execColloadComplete_sound _ h
  | qcopyComplete op => exact execQcopyComplete_sound _ h
  | copyComplete op => exact execCopyComplete_sound _ h
  | teamSave team => exact execTeamSave_sound _ h
  | teamRestore team cores => exact execTeamRestore_sound _ _ h
  | faultRecordWrite ctx => exact execFaultRecordWrite_sound _ h
  | hullWrite grid => exact execHullWrite_sound _ h
  | signatureCompare wave => exact execSignatureCompare_sound _ h
  | bisectorSnapshot part k => exact execBisectorSnapshot_sound _ _ h
  | cutAnnounce part k => exact execCutAnnounce_sound _ _ h
  | patchHandOver part k => exact execPatchHandOver_sound _ _ h
  | bisectorStopShort part k => exact execBisectorStopShort_sound _ _ h
  | cutCommit part k => exact execCutCommit_sound _ _ h
  | linkFlitReceive link good => exact execLinkFlitReceive_sound _ _ h
  | linkRetrain link => exact execLinkRetrain_sound _ h
  | remoteRequest src write size => exact execRemoteRequest_sound _ _ _ h
  | agentFailure agent => exact execAgentFailure_sound _ h
  | census home => exact execCensus_sound _ h
  | correctedError kind index => exact execCorrectedError_sound _ _ h
  | poisonMark kind a b c => exact execPoisonMark_sound _ _ _ _ h
  | spareSubstitution kind index => exact execSpareSubstitution_sound _ _ h
  | hostBar2Access pa write size => exact execHostBar2Access_sound _ _ _ h
  | hostAtomicop kind size pa x y => exact execHostAtomicop_sound _ _ _ _ _ h
  | hostCxlCache pa data => exact execHostCxlCache_sound _ _ h
  | qrsvRead part q => exact execQrsvRead_sound _ _ h
  | setupBindKeyspace part k => exact execSetupBindKeyspace_sound _ _ h
  | setupUnbindKeyspace part k => exact execSetupUnbindKeyspace_sound _ _ h
  | setupWorkList part n => exact execSetupWorkList_sound _ _ h
  | setupRereadQueue part q => exact execSetupRereadQueue_sound _ _ h
  | contextSetup ctx record fn => exact execContextSetup_sound _ _ _ h
  | contextRetire ctx => exact execContextRetire_sound _ h
  | syncRead page => exact execSyncRead_sound _ h
  | serviceResume ctx => exact execServiceResume_sound _ h
  | serviceHandler ctx => exact execServiceHandler_sound _ h
  | serviceEnd ctx => exact execServiceEnd_sound _ h
  | serviceContinue ctx => exact execServiceContinue_sound _ h
  | serviceRestore ctx => exact execServiceRestore_sound _ h
  | registerWrite off size val face => exact execRegisterWrite_sound _ _ _ _ h
  | partset bar0 => exact execPartset_sound _ h
  | partfree bar0 => exact execPartfree_sound _ h
  | parthalt bar0 => exact execParthalt_sound _ h
  | partrun bar0 => exact execPartrun_sound _ h
  | regtag bar0 => exact execRegtag_sound _ h
  | keyload bar0 => exact execKeyload_sound _ h
  | unitread bar0 => exact execUnitread_sound _ h
  | pwrlimit bar0 => exact execPwrlimit_sound _ h
  | sharedset bar0 => exact execSharedset_sound _ h
  | deviceReset => exact execDeviceReset_sound h
  | bootStageComplete error => exact execBootStageComplete_sound _ h
  | clockChange mhz => exact execClockChange_sound _ h
  | thermalLimit => exact execThermalLimit_sound h
  | thermalHalt => exact execThermalHalt_sound h
  | keyUnitStep op => exact execKeyUnitStep_sound _ h
  | workListStep op => exact execWorkListStep_sound _ h
  | corePowerGate core => exact execCorePowerGate_sound _ h
  | clauseHeader o => exact execClauseHeader_sound _ h
  | vaddI8x8 o | vsubI8x8 o | vminI8x8 o | vminN8x8 o | vmaxI8x8 o | vmaxN8x8 o | vaddI16x4 o | vsubI16x4 o | vminI16x4 o | vminN16x4 o
  | vmaxI16x4 o | vmaxN16x4 o | vaddI32x2 o | vsubI32x2 o | vmulI32x2 o | vmulhiI32x2 o | vmulhiN32x2 o | vminI32x2 o | vminN32x2 o
  | vmaxI32x2 o | vmaxN32x2 o | vshlI32x2 o | vshrN32x2 o | vshrI32x2 o | vaddI64 o | vsubI64 o | vmulI64 o | vmulhiI64 o | vmulhiN64 o
  | vminI64 o | vminN64 o | vmaxI64 o | vmaxN64 o | vshlI64 o | vshrN64 o | vshrI64 o => exact vecInt_sound _ _ _ h
  | vaddI8x8Sat o | vaddN8x8Sat o | vaddI16x4Sat o | vaddN16x4Sat o | vaddI32x2Sat o | vaddN32x2Sat o | vsubI32x2Sat o | vsubN32x2Sat o
  | vaddI64Sat o | vaddN64Sat o | vsubI64Sat o | vsubN64Sat o => exact vecSat_sound _ _ _ _ h
  | vand o | vor o | vxor o | vandn o => exact vec2_sound _ _ h
  | vmov o => exact execVmov_sound _ h
  | vsplat o => exact execVsplat_sound _ h
  | vfaddF64 o | vfsubF64 o | vfmulF64 o | vfminF64 o | vfmaxF64 o | vfminF64Nan o | vfmaxF64Nan o | vfaddF32x2 o | vfsubF32x2 o
  | vfmulF32x2 o | vfminF32x2 o | vfmaxF32x2 o | vfminF32x2Nan o | vfmaxF32x2Nan o | vfaddF16x4 o | vfsubF16x4 o | vfmulF16x4 o
  | vfminF16x4 o | vfmaxF16x4 o | vfminF16x4Nan o | vfmaxF16x4Nan o | vfaddBf16x4 o | vfsubBf16x4 o | vfmulBf16x4 o | vfminBf16x4 o
  | vfmaxBf16x4 o | vfminBf16x4Nan o | vfmaxBf16x4Nan o => exact vecFp_sound _ _ _ h
  | vfmaF64 o | vfmaF32x2 o | vfmaF16x4 o | vfmaBf16x4 o => exact vecFma_sound _ _ h
  | saddI64 o | ssubI64 o | smulI64 o | smulhiI64 o | smulhiN64 o | sand o | sor o | sxor o | sshlI64 o | sshrN64 o | sshrI64 o
  | sminI64 o | sminN64 o | smaxI64 o | smaxN64 o => exact uni2_sound _ _ h
  | smov o => exact execSmov_sound _ h
  | nop => exact execNop_sound h
  | vmovC16 o => exact execVmovC16_sound _ h
  | vaddI32x2C16 o | vsubI32x2C16 o | vmulI32x2C16 o | vshlI32x2C16 o | vshrN32x2C16 o => exact vecInt16_sound _ _ _ h
  | vandC16 o | vorC16 o | vxorC16 o => exact vec16_sound _ _ h
  | vfaddF32x2C16 o | vfsubF32x2C16 o | vfmulF32x2C16 o | vfminF32x2C16 o | vfmaxF32x2C16 o | vfaddF64C16 o => exact vecFp16_sound _ _ _ h
  | vfaddQ o | vfsubQ o | vfmulQ o | vfmaQ o => exact vecQ_sound _ _ _ h
  | vfabs o | vfneg o | vrcp o | vrsqrt o | vsqrt o | vsin o | vcos o | vsinpi o | vcospi o | vexp2 o | vlog2 o | vtanh o | vfrintn o
  | vfrintz o | vfrintm o | vfrintp o | vfclass o => exact vecU_sound _ _ h
  | vabs o | vneg o | vnot o | vpopc o | vclz o | vbrev o => exact vecUI_sound _ _ h
  | vlanes o | vpasses o | vtid o | vlanemap o => exact query_sound _ _ h
  | vcvt o => exact execVcvt_sound _ h
  | vquant o => exact execVquant_sound _ h
  | vdequant o => exact execVdequant_sound _ h
  | vcbdec o => exact execVcbdec_sound _ h
  | amadI8x8 o | amadN8x8 o | amadF16x4 o | amadBf16x4 o | amadF32x2 o | amadF64 o => exact accEff_sound _ _ h
  | azero o => exact execAzero_sound _ h
  | amov o => exact execAmov_sound _ h
  | vnarrowLo o | vnarrowHi o | vnarrowI16x4Sat o | vnarrowF16x4 o => exact narrow_sound _ _ h
  | saddi o => exact execSaddi_sound _ h
  | sandi o => exact execSandi_sound _ h
  | vaddiI32x2 o => exact execVaddiI32x2_sound _ h
  | vaddiI64 o => exact execVaddiI64_sound _ h
  | smovz o | smovs o | smovk16 o | smovk32 o | smovk48 o => exact uniImm_sound _ _ _ h
  | vmovz o | vmovs o | vmovk16 o | vmovk32 o | vmovk48 o => exact vecImm_sound _ _ _ h
  | vceq o | vcne o | vclt o | vcle o | vcgt o | vcge o | vcord o | vcunord o | vcneu o => exact vecCmp_sound _ _ h
  | sceq o | scne o | sclt o | scle o | scgt o | scge o | scord o | scunord o | scneu o => exact uniCmp_sound _ _ h
  | vsel o => exact execVsel_sound _ h
  | pand o | por o | pxor o | pandn o | pnot o | pmov o => exact predOp_sound _ _ h
  | vshflN64 o | vshflN32x2 o | vshflN16x4 o | vshflN8x8 o => exact shuffle_sound _ _ h
  | vbcast o => exact execVbcast_sound _ h
  | vballot o => exact execVballot_sound _ h
  | vall o | vany o => exact vote_sound _ _ h
  | vuni o => exact execVuni_sound _ h
  | vcompact o => exact execVcompact_sound _ h
  | vmatch o => exact execVmatch_sound _ h
  | vrdfirst o => exact execVrdfirst_sound _ h
  | vredAdd o | vredMin o | vredMax o | vredAnd o | vredOr o | vredXor o => exact reduce_sound _ _ _ h
  | vscanAdd o | vscanMin o | vscanMax o | vscanAnd o | vscanOr o | vscanXor o => exact scanIncl_sound _ _ _ h
  | vscanxAdd o | vscanxMin o | vscanxMax o | vscanxAnd o | vscanxOr o | vscanxXor o => exact scanExcl_sound _ _ _ h
  | vtopk o => exact execVtopk_sound _ h
  | ldg o | lds o | ldc o => exact issue_sound h fun _ hc => loadEff_sound _ _ _ _ _ _ _ hc
  | stg o | sts o => exact issue_sound h fun _ hc => storeEff_sound _ _ _ _ _ _ _ _ hc
  | atomAdd o | atomAnd o | atomOr o | atomXor o | atomMinI o | atomMinN o | atomMaxI o | atomMaxN o | atomExch o | atomCas o
  | atomFadd o | atomLdo o | redAdd o | redAnd o | redOr o | redXor o | redMinI o | redMinN o | redMaxI o | redMaxN o | redExch o
  | redCas o | redFadd o | redSto o => exact issueAs_sound h fun _ hc => atomEff_sound _ _ _ hc
  | fence o => exact execFence_sound _ h
  | racq o => exact execRacq_sound _ h
  | mwait o => exact execMwait_sound _ h
  | barInit o => exact execBarInit_sound _ h
  | barArrive o => exact execBarArrive_sound _ h
  | barWait o => exact execBarWait_sound _ h
  | barSync o => exact execBarSync_sound _ h
  | barRarrive o => exact execBarRarrive_sound _ h
  | copy o => exact execCopy_sound _ h
  | gather o | scatter o => exact rowsEff_sound _ _ h
  | compact o => exact execCompact_sound _ h
  | pfetchDesc o => exact execPfetchDesc_sound _ h
  | pfetchHandle o => exact execPfetchHandle_sound _ h
  | pin o => exact execPin_sound _ h
  | unpin o => exact execUnpin_sound _ h
  | flush o | inval o => exact flushEff_sound _ _ h
  | hopen o => exact execHopen_sound _ h
  | hacqRd o | hacqWr o => exact hacqEff_sound _ _ h
  | hrelDrop o | hrelDown o => exact hrelEff_sound _ _ h
  | hsplit o => exact execHsplit_sound _ h
  | hclose o => exact execHclose_sound _ h
  | smap o => exact execSmap_sound _ h
  | sunmap o => exact execSunmap_sound _ h
  | mma o => exact execMma_sound _ h
  | tkacq o | tkrel o | tswap o | tzero o => exact tileEff_sound _ _ _ _ h
  | tread o | twrite o => exact tileRowsEff_sound _ _ h
  | colload o => exact execColload_sound _ h
  | qcopy o => exact execQcopy_sound _ h
  | bra o => exact execBra_sound _ h
  | brx o => exact execBrx_sound _ h
  | call o => exact execCall_sound _ h
  | ret o => exact execRet_sound _ h
  | bprio o => exact execBprio_sound _ h
  | rcvset o => exact execRcvset_sound _ h
  | rcvwait o => exact execRcvwait_sound _ h
  | yield o => exact execYield_sound _ h
  | exit => exact execExit_sound h
  | trap o => exact execTrap_sound _ h
  | brk => exact execBrk_sound h
  | qsend o => exact execQsend_sound _ h
  | qrecv o => exact execQrecv_sound _ h
  | spawn o => exact execSpawn_sound _ h
  | rget o => exact execRget_sound _ h
  | krefine o | kcoarsen o | kneigh o | kowner o | kcost o | kclaim o | krelease o | kiter o => exact keyEff_sound _ _ _ _ _ _ _ _ _ _ h
  | krebal o => exact execKrebal_sound _ h
  | wpush o | wpop o | wins o | wcount o => exact listEff_sound _ _ _ _ _ _ h
  | sysrd o => exact execSysrd_sound _ h
  | syswr o => exact execSyswr_sound _ h
  | tret => exact execTret_sound h
  | rmodeSwm o | rmodeCoh o => exact rmodeEff_sound _ _ h
  | halt => exact execHalt_sound h
  | ckpt o => exact execCkpt_sound _ h
  | rbstat o => exact execRbstat_sound _ h
  | finj o => exact execFinj_sound _ h

theorem begin_sound {id : Nat} (h : SoundMemory s) (ht : begin? s id = some t) : SoundMemory t := by
  unfold begin? at ht
  split at ht
  · cases ht
  · split at ht
    · split at ht
      · obtain rfl := Option.some.inj ht
        exact setWave_sound _ (sound_same h rfl rfl rfl le_rfl)
      · cases ht
    · cases ht

theorem fetchTurn_sound {id : Nat} {i : Option Instr} (h : SoundMemory s) (ht : fetchTurn s id = some (t, i)) : SoundMemory t := by
  unfold fetchTurn at ht
  split at ht
  · cases ht
  · next hbegin =>
    have hbegun := begin_sound h hbegin
    split at ht
    · cases ht
    · next hissue =>
      split at ht
      · obtain ⟨rfl, -⟩ := Prod.mk.inj (Option.some.inj ht)
        exact takeFault_sound _ (issuing_sound hissue hbegun)
      · obtain ⟨rfl, -⟩ := Prod.mk.inj (Option.some.inj ht)
        exact touchLeaves_sound _ _ _ hbegun

theorem runTurn_sound (turn : Turn) (h : SoundMemory s) : NextSound (runTurn s turn) := by
  unfold runTurn
  split
  · exact exec_sound _ (awake_sound h)
  · split
    · exact next_sound h
    · next hfetch => exact next_sound (fetchTurn_sound h hfetch)
    · next hfetch => exact exec_sound _ (fetchTurn_sound h hfetch)

theorem agenda_sound (l : List Turn) (h : SoundMemory s) : SoundMemory { s with agenda := l } := h

theorem step_sound (h : SoundMemory s) : NextSound (step s) := by
  unfold step
  have hready := noteReady_sound h
  dsimp only
  split
  · exact runTurn_sound _ (agenda_sound _ hready)
  · split
    · exact runTurn_sound _ (bump_sound hready)
    · exact next_sound hready

/-- Settles O59: the state after a step is made of operations each of which keeps it sound. -/
theorem stepKeepsMemorySound : Obligations.StepKeepsMemorySound := by
  unfold Obligations.StepKeepsMemorySound
  exact fun _ t h ht => step_sound h t ht

end Sys2Proof.SoundStep

/-! # Which held stores are performed (10 R273, R281)

`neededPends` walks the held stores from the latest and takes those that a test names with what comes before them. What it takes stands in
the order of entry, is closed under coming before, and holds no store that waits unless a store that the test names waits for one. So
every store of a tile is performed where none of the tile's is owed. -/

namespace Sys2Proof.HeldStores

open Sys2Proof.Machine

/-! ## The stores that are needed -/

section
variable {p : Pend → Bool}

theorem mem_neededPends_of_acc {e : Pend} (l : List Pend) {acc : List Pend} (h : e ∈ acc) : e ∈ neededPends p l acc := by
  induction l generalizing acc with
  | nil => exact h
  | cons f l ih =>
    rw [neededPends]
    refine ih ?_
    split
    · exact List.mem_cons_of_mem _ h
    · exact h

/-- A store that the test names is taken. -/
theorem mem_neededPends_of_test {e : Pend} {l : List Pend} (acc : List Pend) (hmem : e ∈ l) (hp : p e = true) :
    e ∈ neededPends p l acc := by
  induction l generalizing acc with
  | nil => cases hmem
  | cons f l ih =>
    rw [neededPends]
    rcases List.mem_cons.1 hmem with rfl | hmem
    · rw [hp, Bool.true_or, if_pos rfl]
      exact mem_neededPends_of_acc l List.mem_cons_self
    · exact ih _ hmem

/-- What is taken stands before what was taken already, in the opposite of the order in which it was walked. -/
theorem neededPends_sublist (l acc : List Pend) : (neededPends p l acc).Sublist (l.reverse ++ acc) := by
  induction l generalizing acc with
  | nil => exact List.Sublist.refl _
  | cons f l ih =>
    rw [neededPends, List.reverse_cons, List.append_assoc]
    refine (ih _).trans ((List.Sublist.refl _).append ?_)
    split
    · exact List.Sublist.refl _
    · exact List.sublist_cons_self _ _

/-- What comes before a store that is taken is taken. -/
theorem mem_neededPends_of_before {e f : Pend} {l acc : List Pend} (horder : l.Pairwise fun a b => b.id < a.id) (hf : f ∈ l)
    (hbefore : f.before e = true) (he : e ∈ neededPends p l acc) (hwhere : e ∈ l ∨ e ∈ acc) : f ∈ neededPends p l acc := by
  have hearlier : f.id < e.id := by
    simp only [Pend.before, Bool.and_eq_true, decide_eq_true_eq] at hbefore
    exact hbefore.1.2
  induction l generalizing acc with
  | nil => cases hf
  | cons x l ih =>
    obtain ⟨hx, horder⟩ := List.pairwise_cons.1 horder
    rw [neededPends] at he ⊢
    rcases List.mem_cons.1 hf with rfl | hf
    · have hacc : e ∈ acc := hwhere.resolve_left fun h => by
        rcases List.mem_cons.1 h with rfl | h
        · exact lt_irrefl _ hearlier
        · exact lt_asymm hearlier (hx e h)
      have htaken : acc.any f.before = true := List.any_eq_true.2 ⟨e, hacc, hbefore⟩
      rw [htaken, Bool.or_true, if_pos rfl]
      exact mem_neededPends_of_acc l List.mem_cons_self
    · by_cases htaken : e ∈ l ∨ e ∈ (if p x || acc.any x.before then x :: acc else acc)
      · exact ih horder hf he htaken
      · have hnot : e ∉ l.reverse ++ (if p x || acc.any x.before then x :: acc else acc) := by
          simpa using htaken
        exact absurd ((neededPends_sublist _ _).subset he) hnot

/-- What is taken for a test is taken for one of some tests that name between them all that it names. -/
theorem mem_neededPends_of_cover {ι : Type} {q : ι → Pend → Bool} {l acc : List Pend} {taken : ι → List Pend}
    (hq : ∀ f ∈ l, p f = true → ∃ i, q i f = true) (hacc : ∀ f ∈ acc, ∃ i, f ∈ taken i) :
    ∀ e ∈ neededPends p l acc, ∃ i, e ∈ neededPends (q i) l (taken i) := by
  induction l generalizing acc taken with
  | nil => exact hacc
  | cons f l ih =>
    simp only [neededPends]
    refine ih (fun g hg => hq g (List.mem_cons_of_mem _ hg)) fun g hg => ?_
    have hkeep : ∀ i, g ∈ taken i → g ∈ if q i f || (taken i).any f.before then f :: taken i else taken i := fun i hi => by
      split
      · exact List.mem_cons_of_mem _ hi
      · exact hi
    split at hg
    · next htake =>
      rcases List.mem_cons.1 hg with rfl | hg
      · rcases Bool.or_eq_true_iff.1 htake with hp | hany
        · obtain ⟨i, hi⟩ := hq _ List.mem_cons_self hp
          refine ⟨i, ?_⟩
          rw [hi, Bool.true_or, if_pos rfl]
          exact List.mem_cons_self
        · obtain ⟨x, hx, hbefore⟩ := List.any_eq_true.1 hany
          obtain ⟨i, hi⟩ := hacc x hx
          refine ⟨i, ?_⟩
          rw [List.any_eq_true.2 ⟨x, hi, hbefore⟩, Bool.or_true, if_pos rfl]
          exact List.mem_cons_self
      · obtain ⟨i, hi⟩ := hacc g hg
        exact ⟨i, hkeep i hi⟩
    · obtain ⟨i, hi⟩ := hacc g hg
      exact ⟨i, hkeep i hi⟩

end

/-! ## Tenures and held stores, which the steps of the caches keep -/

/-- The tenures and the held stores of a state. -/
def claimsOf (s : State) : List Tenure × List Pend := (s.tenures, s.pend)

open Sys2Proof.FramesKept (foldl_keeps)

theorem claimsOf_leaveWord (s : State) (cache word : Nat) (x : CWord) : claimsOf (leaveWord s cache word x) = claimsOf s := by
  unfold leaveWord
  split
  · split <;> rfl
  · split <;> rfl
  · rfl

theorem claimsOf_evictBlock (s : State) (b : CBlock) : claimsOf (evictBlock s b) = claimsOf s :=
  foldl_keeps (π := claimsOf) (fun _ _ => claimsOf_leaveWord _ _ _ _) _ _

theorem claimsOf_makeRoom {cache frame fuel : Nat} {new : List CBlock} {s t : State} (h : makeRoom cache frame new fuel s = some t) :
    claimsOf t = claimsOf s := by
  induction fuel generalizing s with
  | zero => cases h
  | succ fuel ih =>
    rw [makeRoom] at h
    dsimp only at h
    split at h
    · cases h
      rfl
    · split at h
      · cases h
      · exact (ih h).trans (claimsOf_evictBlock _ _)

theorem claimsOf_fillRun (s : State) (cache frame start n hint : Nat) (f : Nat → CWord) :
    claimsOf (fillRun s cache frame start n hint f) = claimsOf s := by
  unfold fillRun
  lift_lets
  intro here rest len mapped lacks pieces stashed own mine s1
  have hstashed : claimsOf s1 = claimsOf s := by
    unfold s1
    split <;> rfl
  split
  · exact hstashed
  · intro new
    split
    · next t ht => exact (claimsOf_makeRoom ht).trans hstashed
    · exact hstashed

theorem claimsOf_hitHint (s : State) (cache word hint : Nat) : claimsOf (hitHint s cache word hint) = claimsOf s := by
  unfold hitHint
  split <;> rfl

theorem claimsOf_gainWord (s : State) (core word hint : Nat) (x : CWord) : claimsOf (gainWord s core word hint x) = claimsOf s := by
  unfold gainWord
  split
  · rfl
  · exact claimsOf_fillRun _ _ _ _ _ _ _

theorem claimsOf_downgrade (s : State) (word : Nat) : claimsOf (downgrade s word) = claimsOf s := by
  unfold downgrade
  dsimp only
  split <;> rfl

theorem claimsOf_takeExclusive (s : State) (core word : Nat) : claimsOf (takeExclusive s core word) = claimsOf s := by
  unfold takeExclusive
  dsimp only
  split <;> rfl

theorem claimsOf_answerFor (s : State) (f : Fill) (mine : Nat → Bool) : claimsOf (answerFor s f mine) = claimsOf s := by
  have hword : ∀ (s : State) (w : Nat),
      claimsOf (if mine w then takeExclusive s f.core w else downgrade s w) = claimsOf s := fun s w => by
    split
    · exact claimsOf_takeExclusive _ _ _
    · exact claimsOf_downgrade _ _
  unfold answerFor
  dsimp only
  have hslice : ∀ ws : List Nat, claimsOf (ws.foldl (fun s w => hitHint s (512 + f.slice) w f.hint)
      (ws.foldl (fun s w => if mine w then takeExclusive s f.core w else downgrade s w) { s with fills := s.fills.erase f })) =
        claimsOf s := fun ws =>
    (foldl_keeps (π := claimsOf) (fun _ _ => claimsOf_hitHint _ _ _ _) _ _).trans (foldl_keeps (π := claimsOf) hword _ _)
  rw [claimsOf_fillRun]
  split
  · rw [claimsOf_fillRun, claimsOf_fillRun, hslice]
  · rw [claimsOf_fillRun, hslice]

/-- A store performed leaves the list of those that an L1 holds. -/
theorem claimsOf_performPend (s : State) (e : Pend) : claimsOf (performPend s e) = (s.tenures, s.pend.erase e) := by
  unfold performPend
  dsimp only
  rw [claimsOf_gainWord]
  refine (claimsOf_takeExclusive _ _ _).trans ?_
  split
  · rfl
  · next s1 =>
    have hanswered : claimsOf (answerFill s ((pendFill s e).getD (pendMiss s e))) = claimsOf s := claimsOf_answerFor _ _ _
    exact congrArg (fun c : List Tenure × List Pend => (c.1, c.2.erase e)) hanswered

theorem tenures_performPend (s : State) (e : Pend) : (performPend s e).tenures = s.tenures :=
  congrArg Prod.fst (claimsOf_performPend s e)

theorem pend_performPend (s : State) (e : Pend) : (performPend s e).pend = s.pend.erase e := congrArg Prod.snd (claimsOf_performPend s e)

theorem tenures_performAll (s : State) (p : Pend → Bool) : (performAll s p).tenures = s.tenures :=
  foldl_keeps (π := State.tenures) (fun t e => by
    split
    · rfl
    · exact tenures_performPend _ _) _ _

theorem tenures_cleanWord (s : State) (core word : Nat) : (cleanWord s core word).tenures = s.tenures := by
  unfold cleanWord
  split
  · split <;> rfl
  · rfl

theorem tenures_drainWord (s : State) (core word : Nat) : (drainWord s core word).tenures = s.tenures := by
  unfold drainWord
  dsimp only
  split
  · exact (tenures_cleanWord _ _ _).trans (tenures_performAll _ _)
  · exact (tenures_cleanWord _ _ _).trans (tenures_performAll _ _)

theorem tenures_drainCore (s : State) (core : Nat) (p : Nat → Bool) : (drainCore s core p).tenures = s.tenures :=
  (foldl_keeps (π := State.tenures) (fun _ _ => tenures_drainWord _ _ _) _ _).trans (tenures_performAll _ _)

/-! ## A tile's stores performed -/

section
variable {s : State}

/-- In the order of entry each needed store finds what comes before it performed, so that all of them are where none waits. -/
theorem pend_foldl_performed {needed : List Pend} (hsub : needed.Sublist s.pend) (hsound : SoundPends s)
    (hbefore : ∀ e ∈ needed, ∀ f ∈ s.pend, f.before e = true → f ∈ needed) (hwaits : ∀ e ∈ needed, pendWaits s e = false) :
    ∀ {done todo : List Pend} {t : State}, needed = done ++ todo → t.pend = s.pend.filter (fun e => !(done.contains e)) →
      (todo.foldl (fun t e => if pendWaits s e || t.pend.any (fun f => f.before e) then t else performPend t e) t).pend =
        s.pend.filter fun e => !(needed.contains e) := by
  intro done todo
  induction todo generalizing done with
  | nil =>
    intro t hneeded ht
    rw [hneeded, List.append_nil]
    exact ht
  | cons e todo ih =>
    intro t hneeded ht
    have he : e ∈ needed := hneeded ▸ List.mem_append_right _ List.mem_cons_self
    have hsorted : needed.Pairwise fun a b => a.id < b.id := hsound.1.sublist hsub
    have hlater : ∀ f ∈ todo, e.id < f.id := by
      rw [hneeded] at hsorted
      exact (List.pairwise_cons.1 (List.pairwise_append.1 hsorted).2.1).1
    have hfirst : t.pend.any (fun f => f.before e) = false := by
      rw [ht]
      refine List.any_eq_false.2 fun f hf hfe => ?_
      obtain ⟨hf, hundone⟩ := List.mem_filter.1 hf
      have hearlier : f.id < e.id := by
        simp only [Pend.before, Bool.and_eq_true, decide_eq_true_eq] at hfe
        exact hfe.1.2
      have hmem : f ∈ done ++ e :: todo := hneeded ▸ hbefore e he f hf hfe
      rcases List.mem_append.1 hmem with hdone | htodo
      · simp [hdone] at hundone
      · rcases List.mem_cons.1 htodo with rfl | htodo
        · exact lt_irrefl _ hearlier
        · exact lt_asymm hearlier (hlater f htodo)
    have hnodup : s.pend.Nodup := hsound.1.imp fun hlt heq => (congrArg Pend.id heq ▸ hlt).false
    rw [List.foldl_cons, hwaits e he, hfirst, Bool.or_self, if_neg Bool.false_ne_true]
    refine ih (done := done ++ [e]) (by rw [hneeded, List.append_assoc, List.singleton_append]) ?_
    rw [pend_performPend, ht, (hnodup.filter _).erase_eq_filter, List.filter_filter]
    refine List.filter_congr fun f _ => ?_
    by_cases hfe : f = e <;> simp [hfe]

/-- Where no store that meets a test waits, nor what comes before it, every one of them is performed. -/
theorem performAll_performs {p : Pend → Bool} (hsound : SoundPends s)
    (howed : ∀ g ∈ s.pend, p g = true → pendOwed s g.core (fun x => x.word == g.word) = false) :
    ∀ e ∈ (performAll s p).pend, p e = false := by
  have hneeded : (neededPends p s.pend.reverse []).Sublist s.pend := by simpa using neededPends_sublist (p := p) s.pend.reverse []
  have hreverse : s.pend.reverse.Pairwise fun a b => b.id < a.id := List.pairwise_reverse.2 hsound.1
  have hbefore : ∀ e ∈ neededPends p s.pend.reverse [], ∀ f ∈ s.pend, f.before e = true → f ∈ neededPends p s.pend.reverse [] :=
    fun e he f hf hfe => mem_neededPends_of_before hreverse (List.mem_reverse.2 hf) hfe he
      (.inl (List.mem_reverse.2 (hneeded.subset he)))
  have hwaits : ∀ e ∈ neededPends p s.pend.reverse [], pendWaits s e = false := fun e he => by
    obtain ⟨⟨g, hg, hpg⟩, hin⟩ := mem_neededPends_of_cover (ι := { g : Pend // g ∈ s.pend ∧ p g = true })
      (q := fun g f => f.core == g.1.core && f.word == g.1.word) (taken := fun _ => [])
      (fun f hf hp => ⟨⟨f, List.mem_reverse.1 hf, hp⟩, by simp⟩) (fun f hf => by cases hf) e he
    have hnone := List.any_eq_false.1 (howed g hg hpg) e hin
    simpa using hnone
  have hpend := pend_foldl_performed hneeded hsound hbefore hwaits (done := []) (t := s) rfl (by simp)
  intro e he
  rw [performAll, hpend] at he
  obtain ⟨hmem, hleft⟩ := List.mem_filter.1 he
  by_contra hp
  have htaken : e ∈ neededPends p s.pend.reverse [] := mem_neededPends_of_test [] (List.mem_reverse.2 hmem) (by simpa using hp)
  simp [htaken] at hleft

end

end Sys2Proof.HeldStores

/-! # Tenure (09 R258, R259; 11 R320)

Requests and releases pass the checks of an issue; the events that grant, release and recall a tenure perform the held stores of its tile
first, which changes neither a wave nor an operation, nor any tenure. -/

namespace Sys2Proof.TenureOps

open Sys2Proof.Machine Sys2Proof.Machine.Laws Sys2Proof.FramesKept Sys2Proof.SlotConversion Sys2Proof.MatrixIssue Sys2Proof.MatrixEffect
  Sys2Proof.HeldStores

/-! ## Requests and releases on their way -/

section
variable {s s1 : State} {c : Issue} {o : OpF2} {h : Handle} (hsafe : EndsSafety s s1 3) (hruns : Runs s1 c 4) (hrole : c.w.role = .solo)
  (hflag : FlagFree c o.fsel) (hclean : Unpoisoned c [] [o.f2.toNat] [])
  (hhandle : handleOf s1 c.g.ctx (c.w.getS o.f2.toNat).toNat = some h)
include hsafe hruns hrole hflag hclean hhandle

/-- A mode that the team holds is granted at once: the instruction passes and changes nothing else. -/
theorem hacq_passes {i : Instr} {write : Bool} (hexec : exec i s = hacqEff s o write) (hholds : holdsTenure s1 c.tm.id h write = true) :
    ∃ t w, exec i s = .next t ∧ OnlyWave s1 t c w ∧ Passed c 4 c.w w := by
  obtain rfl := issuing_s hruns.issues
  have hnext := hexec.trans (issueAs_runs hsafe hruns _)
  dsimp only at hnext
  rw [noFlag_of_free hflag, guarded_of_none rfl, flagRoom_of_free hflag, once_solo hrole, hhandle] at hnext
  dsimp only at hnext
  rw [if_pos hholds, poisonRegs_none hclean, guarded_of_none rfl, retireOnce_solo hrole] at hnext
  refine ⟨_, _, hnext, retire_onlyWave hruns c.w 4 rfl, moved_retire c c.w 4 rfl rfl, advance_jumped c _ ?_ 4⟩
  rfl

/-- Any other request that may stand goes in flight. -/
theorem hacq_issued {i : Instr} {write : Bool} (hexec : exec i s = hacqEff s o write) (hholds : holdsTenure s1 c.tm.id h write = false)
    (hfault : tenureFault c h write = false) :
    OpIssued i s s1 c (c.flag o.fsel) [] fun k => k = .hacq write (c.w.getS o.f2.toNat) := by
  obtain rfl := issuing_s hruns.issues
  have hnext := hexec.trans (issueAs_runs hsafe hruns _)
  dsimp only at hnext
  rw [noFlag_of_free hflag, guarded_of_none rfl, flagRoom_of_free hflag, once_solo hrole, hhandle] at hnext
  dsimp only at hnext
  rw [if_neg (by rw [hholds]; exact Bool.false_ne_true), hfault, poisonRegs_none hclean, guarded_of_none rfl, retireOnce_solo hrole,
    BitVec.ofNat_toNat, BitVec.setWidth_eq] at hnext
  exact opIssuedIn_of_retire (adv := false) hruns rfl hnext ⟨rfl, rfl, rfl⟩ rfl rfl

/-- A release of an open handle goes in flight. -/
theorem hrel_issued {i : Instr} {down : Bool} (hexec : exec i s = hrelEff s o down) :
    OpIssued i s s1 c (c.flag o.fsel) [] fun k => k = .hrel down (c.w.getS o.f2.toNat) := by
  obtain rfl := issuing_s hruns.issues
  have hopen : notHandle c (c.w.getS o.f2.toNat).toNat = none := faultIf_of_eq_false (by rw [hhandle]; rfl) _ _
  have hnext := hexec.trans (issueAs_runs hsafe hruns _)
  dsimp only at hnext
  rw [noFlag_of_free hflag, guarded_of_none rfl, flagRoom_of_free hflag, once_solo hrole, hopen, poisonRegs_none hclean,
    guarded_of_none rfl, retireOnce_solo hrole, BitVec.ofNat_toNat, BitVec.setWidth_eq] at hnext
  exact opIssuedIn_of_retire (adv := false) hruns rfl hnext ⟨rfl, rfl, rfl⟩ rfl rfl

end

/-! ## The flag of a lone wave's operation counted down -/

/-- The operation dropped, and its flag down. -/
def finish (s : State) (o : Op) : State := (s.dropOp o.id).updPair o.wave fun w => w.flagDown o.flag

theorem tenures_finish (s : State) (o : Op) : (finish s o).tenures = s.tenures := by
  rw [finish, updPair_eq]
  rfl

theorem pend_finish (s : State) (o : Op) : (finish s o).pend = s.pend := by
  rw [finish, updPair_eq]
  rfl

/-- An event that comes to a state with the same waves and operations, and from there to the operation's end, completes it. -/
theorem opDone_of_finish {i : Instr} {s r t : State} {o : Op} {w : Wave} {P : State → Wave → Prop} (hwave : s.wave? o.wave = some w)
    (hrole : w.role = .solo) (hexec : exec i s = .next t) (hwaves : t.waves = (finish r o).waves) (hops : t.ops = (finish r o).ops)
    (hr : frameOf r = frameOf s) (hP : ∀ w', P t w') : OpDone i s o P := by
  have hsame : r.waves = s.waves := congrArg Frame.waves hr
  have hsameOps : r.ops = s.ops := congrArg Frame.ops hr
  have hfound : (r.dropOp o.id).wave? o.wave = some w := by
    rw [State.wave?, State.dropOp_waves, hsame]
    exact hwave
  have halone : finish r o = (r.dropOp o.id).updWave o.wave fun w => w.flagDown o.flag := by
    rw [finish, State.updPair, hfound]
    simp only [hrole]
  have hthere : ∀ j, t.wave? j = ((r.dropOp o.id).updWave o.wave fun w => w.flagDown o.flag).wave? j := fun j => by
    rw [State.wave?, hwaves, halone, State.wave?]
  refine ⟨t, w, w.flagDown o.flag, hexec, hwave, ?_, fun j hj => ?_, ?_, ?_, getF_flagDown w o.flag, hP _⟩
  · rw [hthere]
    exact wave?_updWave_same (fun _ => Wave.flagDown_id _ _) hfound
  · rw [hthere, wave?_updWave_other (fun _ => Wave.flagDown_id _ _) hj, State.wave?, State.dropOp_waves, hsame, State.wave?]
  · rw [hops, halone, ← hsameOps]
    rfl
  · simp only [Wave.flagDown_v, Wave.flagDown_vBad, Wave.flagDown_vDirty, Wave.flagDown_s, Wave.flagDown_sBad, Wave.flagDown_lvq]
    exact flagDown_eq w o.flag

/-! ## The grant -/

section
variable {s : State} {o : Op} {w : Wave} {write : Bool} {x : Word} {h : Handle}

/-- What a grant makes of a state: the tile's stores performed, and the tenure in its table. -/
def granted (s : State) (o : Op) (write : Bool) (h : Handle) : State :=
  let r := settleTile s h.ctx h.tile
  { r with tenures := r.tenures ++ [⟨tileHome s h.ctx h.tile, h.ctx, h.index, h.serial, o.team, write, h.tile, false,
    h.tile.pagesAt r h.ctx⟩] }

/-- A request that nothing excludes, and that no earlier request stands before, is granted. -/
theorem exec_tenureGrant_granted (hop : s.op? o.id = some o) (hkind : o.kind = .hacq write x)
    (hhandle : handleOf s (ctxOf s o) x.toNat = some h) (hfirst : ∀ e ∈ s.ops, e.id < o.id → ∀ m y, e.kind ≠ .hacq m y)
    (hfree : ∀ t ∈ s.tenures, t.excludes s h.ctx h.tile write = false)
    (hroom : (tableTiles s (tileHome s h.ctx h.tile)).length < tenureEntries) (howed : tileOwed s h.ctx h.tile = false) :
    exec (.tenureGrant o.id) s = .next (finish (granted s o write h) o) := by
  have hnone : (s.tenures.any fun t => t.excludes s h.ctx h.tile write) = false := List.any_eq_false.2 fun t ht => by simp [hfree t ht]
  have htable : tableRoom s (tileHome s h.ctx h.tile) h = some s := if_pos (.inr hroom)
  rw [exec_tenureGrant, execTenureGrant, hop]
  simp only [hkind, hhandle, howed, hnone, htable, Bool.or_false, Bool.false_eq_true, if_false]
  rw [if_neg]
  · rfl
  · rw [Bool.not_eq_true]
    refine List.any_eq_false.2 fun e he => ?_
    by_cases hlt : e.id < o.id
    · split
      · next y hy => exact absurd hy (hfirst e he hlt _ _)
      · simp
    · simp [hlt]

/-- A grant leaves none of the tile's stores held. -/
theorem pend_granted (howed : tileOwed s h.ctx h.tile = false) (hsound : SoundPends s) :
    ∀ e ∈ (granted s o write h).pend, tileWord s h.ctx h.tile e.word = false := by
  refine performAll_performs hsound fun g hg htile => ?_
  have hnot := List.any_eq_false.1 howed g hg
  rw [htile, Bool.true_and] at hnot
  simpa using hnot

theorem tenureGrant_done (hop : s.op? o.id = some o) (hkind : o.kind = .hacq write x) (hwave : s.wave? o.wave = some w)
    (hrole : w.role = .solo) (hhandle : handleOf s (ctxOf s o) x.toNat = some h)
    (hfirst : ∀ e ∈ s.ops, e.id < o.id → ∀ m y, e.kind ≠ .hacq m y)
    (hfree : ∀ t ∈ s.tenures, t.excludes s h.ctx h.tile write = false)
    (hroom : (tableTiles s (tileHome s h.ctx h.tile)).length < tenureEntries) (howed : tileOwed s h.ctx h.tile = false) :
    OpDone (.tenureGrant o.id) s o fun t _ =>
      t.tenures = s.tenures ++ [⟨tileHome s h.ctx h.tile, h.ctx, h.index, h.serial, o.team, write, h.tile, false,
        h.tile.pagesAt (settleTile s h.ctx h.tile) h.ctx⟩] ∧
      (SoundPends s → ∀ e ∈ t.pend, tileWord s h.ctx h.tile e.word = false) := by
  have hframe : frameOf (granted s o write h) = frameOf s := frameOf_performAll s _
  refine opDone_of_finish hwave hrole (exec_tenureGrant_granted hop hkind hhandle hfirst hfree hroom howed) rfl rfl hframe
    fun _ => ⟨?_, fun hsound => ?_⟩
  · rw [tenures_finish, granted, settleTile, tenures_performAll]
  · rw [pend_finish]
    exact pend_granted howed hsound

end

/-! ## The release -/

/-- After a release the team's tenure on the handle is gone, or is read tenure. -/
theorem mem_releaseTenure {s : State} {team : Nat} {h : Handle} {down : Bool} {y : Tenure}
    (hy : y ∈ (releaseTenure s team h down).tenures) (hteam : y.team = team) (hon : y.on h = true) : down = true ∧ y.write = false := by
  unfold releaseTenure at hy
  cases down with
  | false =>
    have hnot := (List.mem_filter.1 hy).2
    simp [hteam, hon] at hnot
  | true =>
    obtain ⟨z, -, rfl⟩ := List.mem_map.1 hy
    refine ⟨rfl, ?_⟩
    dsimp only at hteam hon ⊢
    split
    · rfl
    · next hother =>
      rw [if_neg hother] at hteam hon
      simp [hteam, hon] at hother

theorem frameOf_drainCore (s : State) (core : Nat) (p : Nat → Bool) : frameOf (drainCore s core p) = frameOf s :=
  (foldl_keeps (π := frameOf) (fun _ _ => frameOf_drainWord _ _ _) _ _).trans (frameOf_performPends _ _ _)

theorem hrelEffect_done {s : State} {o : Op} {w : Wave} {tm : Team} {down : Bool} {x : Word} {h : Handle} (hop : s.op? o.id = some o)
    (hkind : o.kind = .hrel down x) (hwave : s.wave? o.wave = some w) (hrole : w.role = .solo) (hteam : s.team? o.team = some tm)
    (hhandle : handleOf s (ctxOf s o) x.toNat = some h) (hstores : storesOwed s o.wave o.id h.ctx h.tile = false)
    (howed : tileOwed s h.ctx h.tile = false) (hclean : cleanWaits s tm.core (tileWord s h.ctx h.tile) = false) :
    OpDone (.hrelEffect o.id) s o fun t _ => ∀ y ∈ t.tenures, y.team = o.team → y.on h = true → down = true ∧ y.write = false := by
  let r := releaseTenure (drainCore s tm.core (tileWord s h.ctx h.tile)) o.team h down
  have hcore : coreOf s o = some tm.core := by rw [coreOf, hteam, Option.map_some]
  have hexec : exec (.hrelEffect o.id) s = .next (finish r o).awake := by
    rw [exec_hrelEffect, execHrelEffect, hop]
    simp only [hkind, hcore, hhandle, hstores, howed, hclean, Bool.or_self, Bool.false_eq_true, if_false]
    rfl
  have hframe : frameOf r = frameOf s := frameOf_drainCore s _ _
  have hleft : ∀ y ∈ (finish r o).awake.tenures, y.team = o.team → y.on h = true → down = true ∧ y.write = false := by
    intro y hy hteam hon
    rw [State.awake_tenures, tenures_finish] at hy
    exact mem_releaseTenure hy hteam hon
  exact opDone_of_finish (r := r) hwave hrole hexec (State.awake_waves _) (State.awake_ops _) hframe fun _ => hleft

/-! ## The recall -/

/-- A recall takes the one tenure there is, or turns it into read tenure. -/
theorem tenures_recallOne {s : State} {x : Tenure} (write : Bool) (hx : s.tenures = [x]) :
    (recallOne s x write).tenures = if write || !x.write then [] else [{ x with write := false }] := by
  have htaken : ∀ l, l = [x] → (if (write || !x.write) = true then l.erase x else
      l.map fun y => if y = x then { y with write := false } else y) =
        if write || !x.write then [] else [{ x with write := false }] := by
    rintro l rfl
    rw [List.erase_cons_head, List.map_singleton, if_pos rfl]
  unfold recallOne
  refine htaken _ ?_
  split
  · split
    · exact (tenures_drainCore _ _ _).trans hx
    · exact hx
  · exact hx

theorem tenureRecall_takes {s : State} {x : Tenure} {write : Bool} (hx : s.tenures = [x]) (hwants : wantsRecall s x write = true)
    (hbusy : holderBusy s x = false) : ∃ t, exec (.tenureRecall x.ctx x.index write) s = .next t ∧
      t.tenures = if write || !x.write then [] else [{ x with write := false }] := by
  have hhit : (s.tenures.filter fun t => t.ctx == x.ctx && t.index == x.index && wantsRecall s t write) = [x] := by
    rw [hx]
    simp [hwants]
  refine ⟨(recallOne s x write).awake, ?_, (State.awake_tenures _).trans (tenures_recallOne write hx)⟩
  rw [exec_tenureRecall, execTenureRecall, hhit]
  simp [hbusy]

/-- Settles O36: a request passes or goes in flight (`hacq_passes`, `hacq_issued`), and a release too (`hrel_issued`); the grant performs
the tile's stores (`performAll_performs`) before the tenure stands; and a release and a recall drop it or leave it for reading. -/
theorem tenureResults : Obligations.TenureResults := by
  unfold Obligations.TenureResults
  refine ⟨fun s s1 c o h hsafe hruns hrole hflag hclean hhandle => ⟨fun row hrow => ?_, fun row hrow => ?_⟩,
    fun s o w write x h => tenureGrant_done, fun s o w tm down x h => hrelEffect_done, fun s x write => tenureRecall_takes⟩
  · rcases List.mem_pair.1 hrow with rfl | rfl
    · exact ⟨hacq_passes hsafe hruns hrole hflag hclean hhandle (exec_hacqRd o s),
        hacq_issued hsafe hruns hrole hflag hclean hhandle (exec_hacqRd o s)⟩
    · exact ⟨hacq_passes hsafe hruns hrole hflag hclean hhandle (exec_hacqWr o s),
        hacq_issued hsafe hruns hrole hflag hclean hhandle (exec_hacqWr o s)⟩
  · rcases List.mem_pair.1 hrow with rfl | rfl
    · exact hrel_issued hsafe hruns hrole hflag hclean hhandle (exec_hrelDrop o s)
    · exact hrel_issued hsafe hruns hrole hflag hclean hhandle (exec_hrelDown o s)

end Sys2Proof.TenureOps

/-! # A mismatch in a chain of leaders (19 R445, R447)

`park` first puts a leader back to where its trailer stands (`together`), and in a cross-core group every other leader of the team with
it. A wave that is the trailer of one leader and itself the leader of a wave that has retired behind it becomes a retired wave by that
step, and a retired wave does not park. -/

namespace Sys2Proof.LeaderChain

open Sys2Proof.Machine

/-- The leader that compares, two instructions into its program. -/
def first : Wave := { newWave 0 0 setLaunch 0 0 (.leader 1) with retired := 2 }

/-- Its trailer, one instruction behind it and the leader of a further wave, with a signature that differs. -/
def second : Wave := { newWave 1 0 setLaunch 0 0 (.leader 2) with retired := 1, sigs := [8] }

/-- The trailer of that wave, which retired at its first instruction. -/
def third : Wave := { newWave 2 0 setLaunch 0 0 .solo with state := .retired }

/-- The store to no byte that the first leader holds. -/
def store : HeldIssue := ⟨0, 7, ⟨0, 0, 0, 0, 0, 1, .store ⟨false, 0, 1⟩ [], [], false, [], []⟩, 0x1000, 0x3000, false⟩

/-- The team of the three waves, in a cross-core group. -/
def team : Team := newTeam 0 0 0 setLaunch 0 (some 1) false

/-- Its grid, which is not recoverable. -/
def grid : Grid := ⟨0, 0x2000, 0, 0, 0, setLaunch, .running, 1, 0, false, false, [], none, none, 0⟩

/-- The grid's context. -/
def context : Context := ⟨0, 0, 0, 0, false, 4, 0, 0, 0, 0, 0, [], 0⟩

/-- The device with the three waves and the held store. -/
def chain : State :=
  { State.reset with ctxs := [context], grids := [grid], teams := [team], waves := [first, second, third], held := [store] }

/-- The state that the comparison of the first leader's signature leads to. -/
def afterCompare : Option State :=
  match exec (.signatureCompare first.id) chain with
  | .next t => some t
  | _ => none

/-- The comparison meets every premise of the clause on signatures that differ. -/
theorem chain_premises : chain.wave? first.id = some first ∧ (chain.held.find? fun h => h.wave == first.id) = some store ∧
    chain.wave? 1 = some second ∧ chain.team? first.team = some team ∧ chain.grid? team.grid = some grid ∧
    chain.ctx? grid.ctx = some context ∧ (if store.flip then (8#32) ^^^ 1 else 8#32) ≠ store.sig ∧ grid.launch.recov = false ∧
    faultWaits chain team store.addr = false ∧ first.state ≠ .retired ∧ second.state ≠ .retired := by
  decide +kernel

/-- The second wave ends retired, as the third stands. -/
theorem second_retired : (afterCompare.bind fun t => (t.wave? 1).map (·.state)) = some .retired := by decide +kernel

/-- Refutes O52: where signatures differ, both parties are to end parked; but a trailer that is a leader itself, and whose own trailer has
retired, ends retired (`second_retired`). A launch makes no such chain of pairs (19 R444), so that no run comes to one; but the statement is
about every state, and no premise of it says so. -/
theorem not_outsideResults : ¬ Obligations.OutsideResults := by
  rintro ⟨hsig, -⟩
  obtain ⟨hfirst, hheld, hsecond, hteam, hgrid, hctx, hdiffer, hrecov, hfault, hw, hx⟩ := chain_premises
  obtain ⟨-, hmismatch⟩ := hsig chain first second 1 store team grid context 8 [] hfirst rfl hheld hsecond hteam rfl hgrid hctx
  obtain ⟨t, -, hexec, -, -, -, -, -, -, hparked, -⟩ := hmismatch hdiffer hrecov hfault hw hx
  have hafter : afterCompare = some t := by rw [afterCompare, hexec]
  have hretired := second_retired
  rw [hafter, Option.bind_some, hparked] at hretired
  exact absurd hretired (by decide)

end Sys2Proof.LeaderChain

/-! # Loads, stores and atomics at issue (11 R287, R290 to R296; 12 R325)

An access whose checks pass is put in flight by a lone wave as it stands; what its operation asks of the caches asks the same of a state
that already holds the operation. -/

namespace Sys2Proof.AccessIssue

open Sys2Proof.Machine Sys2Proof.Machine.Laws Sys2Proof.FramesKept Sys2Proof.MatrixIssue Sys2Proof.SlotConversion

theorem memAddr_eq_formAddr (c : Issue) (base : BitVec 6) (off : BitVec 4) (size : BitVec 3) :
    memAddr c base off size.toNat = formAddr c base off size := by
  funext t
  rw [memAddr, formAddr, ControlTransfer.toSigned_toNat]

/-! ## What a load asks for -/

theorem askRun_addOp (s : State) (o : Op) (core frame lo hi lp hint : Nat) (excl repl : Bool) :
    askRun (s.addOp o) core frame lo hi lp hint excl repl = (askRun s core frame lo hi lp hint excl repl).addOp o := by
  have hfills : (s.addOp o).fills = s.fills := rfl
  rw [askRun, askRun, hfills]
  split <;> rfl

theorem askFrame_addOp (s : State) (o : Op) (core : Nat) (how : LoadHow) (frame : Nat) (ws : List Nat) :
    askFrame core how frame (s.addOp o) ws = (askFrame core how frame s ws).addOp o := by
  have hmiss : misses (s.addOp o) core how = misses s core how := rfl
  cases ws with
  | nil => rfl
  | cons w ws =>
    rw [askFrame, askFrame, hmiss, askRun_addOp]
    split <;> rfl

theorem askWords_addOp (s : State) (o : Op) (core : Nat) (how : LoadHow) (ws : List Nat) :
    askWords core how ws (s.addOp o) = (askWords core how ws s).addOp o := by
  unfold askWords
  induction ((ws.map (· / 16)).dedup) generalizing s with
  | nil => rfl
  | cons f l ih => rw [List.foldl_cons, List.foldl_cons, askFrame_addOp, ih]

theorem askFrame_waves (s : State) (core : Nat) (how : LoadHow) (frame : Nat) (ws : List Nat) :
    (askFrame core how frame s ws).waves = s.waves := by
  unfold askFrame askRun
  split
  · rfl
  · split
    · split <;> rfl
    · rfl

theorem askWords_waves (s : State) (core : Nat) (how : LoadHow) (ws : List Nat) : (askWords core how ws s).waves = s.waves :=
  foldl_keeps (π := State.waves) (fun _ _ => askFrame_waves _ _ _ _ _) _ _

/-! ## A lone wave -/

section
variable {c : Issue} (h : c.w.role = .solo)
include h

theorem lvqFull_solo : lvqFull c = false := by rw [lvqFull, h]

theorem compareFull_solo : compareFull c = false := by rw [compareFull, h]

theorem lvqPut_solo (op : Nat) (r : Option (List RegWrite)) : c.w.lvqPut op r = c.w := by rw [Wave.lvqPut, h]

/-- A lone wave's issue is compared with no other. -/
theorem compared_solo (alone : Bool) (sig : BitVec 32) (addr : Nat) (w : Wave) (flag : Nat) (s : State) (op : Op)
    (take : State → Op → State) : compared c alone sig addr w flag s op take = retire c (take s op) (w.flagUp (some flag)) 4 := by
  unfold compared
  dsimp only
  rw [h]

end

theorem guarded_none₂ {k : Except Flt State} : guarded [none, none] k = k := rfl

theorem guarded_none₃ {k : Except Flt State} : guarded [none, none, none] k = k := rfl

/-! ## Loads -/

section
variable {s : State} {c : Issue} {i : Instr} (hruns : Runs s c 4) (hrole : c.w.role = .solo)
include hruns hrole

/-- The spec of a load: its checks passed, it is put in flight and asks for the words that the L1 misses. -/
theorem load_issued {sp : Space} {size : BitVec 3} {d hint : Nat} {fsel : BitVec 1} {base : BitVec 6} {off : BitVec 4}
    {acc : List (Access × Nat)} {xs : List Xl}
    (hexec : exec i s = match loadEff c sp size.toNat d hint fsel base off with
      | .ok s' => .next s'
      | .error f => .next (takeFault c f))
    (hfinj : c.w.finj = none) (hflag : FlagFree c fsel) (hdecl : Declared c (dataRegs size.toNat d ++ baseV base.toNat) [])
    (hclean : Unpoisoned c (baseV base.toNat) (baseS base.toNat) [])
    (hres : resolveAll c sp .read (formAddr c base off size) (sizeBytes size.toNat) = .ok (acc, xs)) (hdata : dataFault c acc = none) :
    OpIssued i s (askWords c.tm.core (loadHow c sp hint c.w xs) (memWords (acc.map (·.1))) (touchLeaves s c.tm.core false xs)) c
      (c.flag fsel) [] fun k => k = .load size.toNat d (loadHow c sp hint c.w xs) (acc.map (·.1)) [] := by
  have hmodel : loadEff c sp size.toNat d hint fsel base off =
      .ok (retire c ((askWords c.tm.core (loadHow c sp hint c.w xs) (memWords (acc.map (·.1))) (touchLeaves s c.tm.core false xs)).addOp
        (c.newOp (c.flag fsel) (.load size.toNat d (loadHow c sp hint c.w xs) (acc.map (·.1)) []) (viaOf c.s xs)))
        (c.w.flagUp (some (c.flag fsel))) 4) := by
    unfold loadEff
    dsimp only
    rw [illegalRegs_none hdecl, noFlag_of_free hflag, guarded_none₂, hrole]
    dsimp only
    rw [flagRoom_of_free hflag, lvqFull_solo hrole, Bool.and_false, if_neg Bool.false_ne_true, memAddr_eq_formAddr, hres]
    dsimp only
    rw [poisonRegs_none hclean, hdata, guarded_none₂, hfinj, ite_self]
    dsimp only
    rw [askWords_addOp, issuing_s hruns.issues]
    have hput : (c.w.flagUp (some (c.flag fsel))).lvqPut = fun _ _ => c.w.flagUp (some (c.flag fsel)) := by
      funext op r
      have hr : (c.w.flagUp (some (c.flag fsel))).role = .solo := hrole
      rw [Wave.lvqPut, hr]
    rw [hput, ite_self]
  rw [hmodel] at hexec
  exact op_issued (used := []) hruns ((askWords_waves _ _ _ _).trans (WavesKept.touchLeaves_waves _ _ _ _)) hexec ⟨rfl, rfl, rfl⟩ rfl

end

/-- Settles O20: each of the three loads is `load_issued`. -/
theorem loadIssues : Obligations.LoadIssues := by
  unfold Obligations.LoadIssues
  intro g p row hrow hwf s c hruns hrole hfinj hflag hdecl hclean acc xs hres hdata
  simp only [loadForms, List.mem_cons, List.not_mem_nil, or_false] at hrow
  rcases hrow with rfl | rfl | rfl
  · exact load_issued hruns hrole ((exec_ldg g s).trans (issue_runs hruns hwf _)) hfinj hflag hdecl hclean hres hdata
  · exact load_issued hruns hrole ((exec_lds p s).trans (issue_runs hruns hwf _)) hfinj hflag hdecl hclean hres hdata
  · exact load_issued hruns hrole ((exec_ldc p s).trans (issue_runs hruns hwf _)) hfinj hflag hdecl hclean hres hdata

/-! ## Stores -/

theorem storeData_eq (c : Issue) (size d t : Nat) :
    storeData c size d t = packN 64 ((dataRegs size d).map fun r => (c.w.getV r t).toNat) % 2 ^ (8 * sizeBytes size) := by
  rw [storeData, vecVal, dataRegs]
  by_cases h : size = 7
  · rw [if_pos h, if_pos h]
    rfl
  · rw [if_neg h, if_neg h]
    rfl

/-- The registers of a store that are used up. -/
theorem lastUsed_data (rs : List Nat) (dcode : BitVec 2) :
    ((rs.map fun r => (r, dcode.toNat)).filter (fun p => p.2 == 1)).map (·.1) = if dcode = 1 then rs else [] := by
  by_cases h : dcode = 1
  · subst h
    induction rs with
    | nil => rfl
    | cons r rs ih => simp_all
  · have hne : dcode.toNat ≠ 1 := fun he => h (BitVec.eq_of_toNat_eq he)
    rw [if_neg h, List.filter_eq_nil_iff.2, List.map_nil]
    intro p hp
    obtain ⟨r, -, rfl⟩ := List.mem_map.1 hp
    simpa using hne

section
variable {s : State} {c : Issue} {i : Instr} (hruns : Runs s c 4) (hrole : c.w.role = .solo)
include hruns hrole

/-- The spec of a store: its checks passed, it is put in flight with its data. -/
theorem store_issued {sp : Space} {size : BitVec 3} {d hint : Nat} {dcode : BitVec 2} {fsel : BitVec 1} {base : BitVec 6}
    {off : BitVec 4} {acc : List (Access × Nat)} {xs : List Xl}
    (hexec : exec i s = match storeEff c sp size.toNat d dcode.toNat hint fsel base off with
      | .ok s' => .next s'
      | .error f => .next (takeFault c f))
    (hflag : FlagFree c fsel) (hdecl : Declared c (dataRegs size.toNat d ++ baseV base.toNat) [])
    (hclean : Unpoisoned c (dataRegs size.toNat d ++ baseV base.toNat) (baseS base.toNat) [])
    (hres : resolveAll c sp .write (formAddr c base off size) (sizeBytes size.toNat) = .ok (acc, xs))
    (hclob : clobberFault c acc = none) (hfail : failedFault c acc = none) :
    OpIssued i s (touchLeaves s c.tm.core true xs) c (c.flag fsel) (if dcode = 1 then dataRegs size.toNat d else [])
      fun k => k = .store (storeHow c hint xs) (acc.map fun a => (a.1,
        packN 64 ((dataRegs size.toNat d).map fun r => (c.w.getV r a.1.thread).toNat) % 2 ^ (8 * sizeBytes size.toNat))) := by
  have hmodel : storeEff c sp size.toNat d dcode.toNat hint fsel base off =
      .ok (retire c ((touchLeaves s c.tm.core true xs).addOp (c.newOp (c.flag fsel) (.store (storeHow c hint xs)
        (acc.map fun p => (p.1, storeData c size.toNat d p.1.thread))) (viaOf c.s xs)))
        ((useV (threads c.mask) ((dataRegs size.toNat d).map fun r => (r, dcode.toNat)) c.w).flagUp (some (c.flag fsel))) 4) := by
    unfold storeEff
    dsimp only
    rw [illegalRegs_none hdecl, noFlag_of_free hflag, guarded_none₂, flagRoom_of_free hflag, compareFull_solo hrole, Bool.and_false,
      if_neg Bool.false_ne_true, hrole]
    dsimp only
    rw [memAddr_eq_formAddr, hres]
    dsimp only
    rw [hclob, hfail, poisonRegs_none hclean, guarded_none₃, compared_solo hrole, issuing_s hruns.issues]
  rw [hmodel] at hexec
  rw [← lastUsed_data]
  refine op_issued hruns (WavesKept.touchLeaves_waves _ _ _ _) hexec ⟨rfl, rfl, rfl⟩ ?_
  simp only [Issue.newOp, storeData_eq]

end

/-- Settles O22: each of the two stores is `store_issued`. -/
theorem storeIssues : Obligations.StoreIssues := by
  unfold Obligations.StoreIssues
  intro g p row hrow hwf s c hruns hrole hflag hdecl hclean acc xs hres hclob hfail
  simp only [storeForms, List.mem_cons, List.not_mem_nil, or_false] at hrow
  rcases hrow with rfl | rfl
  · exact store_issued hruns hrole ((exec_stg g s).trans (issue_runs hruns hwf _)) hflag hdecl hclean hres hclob hfail
  · exact store_issued hruns hrole ((exec_sts p s).trans (issue_runs hruns hwf _)) hflag hdecl hclean hres hclob hfail

/-! ## Atomics -/

theorem alignFault_none {c : Issue} {n : Nat} {addr : Nat → Nat} (h : ∀ t ∈ threads c.mask, addr t % n = 0) :
    alignFault c n addr = none := by
  rw [alignFault, List.find?_eq_none.2 fun t ht => by simp [h t ht], Option.map_none]

/-- A team outside a rollback-safe interval has nothing to wait for. -/
theorem mustWait_plain {s : State} {o : Op} {tm : Team} (hteam : s.team? o.team = some tm) (hplain : tm.holds = false) :
    mustWait s o = false := by
  unfold mustWait
  split
  · next t _ ht =>
    rw [hteam, Option.some.injEq] at ht
    rw [← ht, hplain, Bool.false_and]
  · rfl

/-- For such a team an operation set going is put in flight. -/
theorem admitOp_plain {s : State} {o : Op} {tm : Team} (hteam : s.team? o.team = some tm) (hplain : tm.holds = false) :
    admitOp s o = s.addOp o := by
  unfold admitOp
  split
  · next t _ _ ht =>
    rw [hteam, Option.some.injEq] at ht
    rw [← ht, hplain, if_neg Bool.false_ne_true]
  · rfl

/-- A team that translations have touched is still outside an interval. -/
theorem plain_of_outlineOf {s t : State} {id : Nat} {tm : Team} (h : outlineOf t = outlineOf s) (hteam : s.team? id = some tm)
    (hplain : tm.holds = false) : ∃ tm', t.team? id = some tm' ∧ tm'.holds = false := by
  have hout := team?_of_outlineOf h id
  rw [hteam, Option.map_some, Option.map_eq_some_iff] at hout
  obtain ⟨tm', ht, he⟩ := hout
  exact ⟨tm', ht, (congrArg Team.holds he).trans hplain⟩

section
variable {s s1 : State} {c : Issue} {i : Instr} {o : OpN} {tm : Team} (hsafe : EndsSafety s s1 (atomReason o)) (hruns : Runs s1 c 4)
  (hrole : c.w.role = .solo) (hteam : s1.team? c.tm.id = some tm) (hplain : tm.holds = false)
include hsafe hruns hrole hteam hplain

/-- The spec of an atomic or a reduction: its checks passed, it is put in flight with its operands. -/
theorem atomic_issued {op : AtomOp} {ret : Bool} {acc : List (Access × Nat)} {xs : List Xl}
    (hexec : exec i s = issueAs s true 4 (atomReason o) fun c => atomEff c op ret o) (hflag : FlagFree c o.fsel)
    (hdecl : Declared c (atomRegs op o.size.toNat o.b.toNat ++ baseV o.base.toNat) [])
    (hclean : Unpoisoned c ((if op = .ldo then [] else atomRegs op o.size.toNat o.b.toNat) ++ baseV o.base.toNat) (baseS o.base.toNat) [])
    (halign : ∀ t ∈ threads c.mask, baseVal c o.base.toNat t % 2 ^ o.size.toNat = 0)
    (hres : resolveAtoms c op o.size.toNat (fun t => baseVal c o.base.toNat t) = .ok (acc, xs))
    (hfail : failedFault c acc = none) (hdata : ret = true → dataFault c acc = none) :
    OpIssued i s (touchLeaves s1 c.tm.core (op != .ldo) xs) c (c.flag o.fsel) [] fun k =>
      k = .atom op o.size.toNat ret o.order.toNat o.scope.toNat o.b.toNat (takesWord c xs)
        (acc.map fun a => (a.1, atomArgs c op o.size.toNat o.b.toNat a.1.thread)) := by
  have hs := issuing_s hruns.issues
  obtain ⟨tm', hteam', hplain'⟩ := plain_of_outlineOf (outlineOf_touchLeaves s1 c.tm.core (op != .ldo) xs) hteam hplain
  have hread : (if ret = true then dataFault c acc else none) = none := by
    split
    · next h => exact hdata h
    · rfl
  have hput : (if ret = true then c.w.lvqPut c.s.nextId none else c.w) = c.w := by rw [lvqPut_solo hrole, ite_self]
  have hmodel : atomEff c op ret o = .ok (retire c ((touchLeaves s1 c.tm.core (op != .ldo) xs).addOp (c.newOp (c.flag o.fsel)
      (.atom op o.size.toNat ret o.order.toNat o.scope.toNat o.b.toNat (takesWord c xs)
        (acc.map fun a => (a.1, atomArgs c op o.size.toNat o.b.toNat a.1.thread))) (viaOf c.s xs))) (c.w.flagUp (some (c.flag o.fsel))) 4) := by
    unfold atomEff
    dsimp only
    rw [illegalRegs_none hdecl, noFlag_of_free hflag, guarded_none₂, flagRoom_of_free hflag, compareFull_solo hrole, lvqFull_solo hrole,
      Bool.and_false, Bool.false_or, if_neg Bool.false_ne_true, hrole]
    dsimp only
    rw [alignFault_none halign, guarded_of_none rfl, hres]
    dsimp only
    rw [hfail, poisonRegs_none hclean, hread, guarded_none₃, mustWait_plain (tm := tm) (by rw [hs]; exact hteam) hplain, if_neg (by simp),
      compared_solo hrole, hs, admitOp_plain (tm := tm') hteam' hplain']
    have hid : (c.newOp (c.flag o.fsel) (.atom op o.size.toNat ret o.order.toNat o.scope.toNat o.b.toNat (takesWord c xs)
      (acc.map fun a => (a.1, atomArgs c op o.size.toNat o.b.toNat a.1.thread))) (viaOf s1 xs)).id = c.s.nextId := rfl
    rw [hid, hput]
  have he := hexec.trans (issueAs_runs hsafe hruns _)
  rw [hmodel] at he
  exact opIssuedIn_of_retire (adv := false) hruns (WavesKept.touchLeaves_waves _ _ _ _) he ⟨rfl, rfl, rfl⟩ rfl rfl

end

/-- Each row's instruction is `atomEff` under its own check of its fields. -/
theorem exec_atomRow {o : OpN} {row : Instr × AtomOp × Bool} (hrow : row ∈ atomRows o) (s : State) :
    exec row.1 s = issueAs s (legal row.1) 4 (atomReason o) fun c => atomEff c row.2.1 row.2.2 o := by
  simp only [atomRows, List.mem_cons, List.not_mem_nil, or_false] at hrow
  rcases hrow with rfl | rfl | rfl | rfl | rfl | rfl | rfl | rfl | rfl | rfl | rfl | rfl | rfl | rfl | rfl | rfl | rfl | rfl | rfl | rfl |
    rfl | rfl | rfl | rfl <;> rfl

/-- Settles O24: each of the rows (`exec_atomRow`) is `atomic_issued`. -/
theorem atomicIssues : Obligations.AtomicIssues := by
  unfold Obligations.AtomicIssues
  rintro o ⟨i, op, ret⟩ hrow hwf s s1 c hsafe hruns hrole ⟨tm, hteam, hplain⟩ hflag hdecl hclean halign acc xs hres hfail hdata
  have hexec := exec_atomRow hrow s
  rw [show legal i = true from hwf] at hexec
  exact atomic_issued hsafe hruns hrole hteam hplain hexec hflag hdecl hclean halign hres hfail hdata

end Sys2Proof.AccessIssue

/-! # A fence and a store numbered ahead of it (11 R297, 10 R273)

A fence is asked to leave no store of its core behind, and waits for those whose issue has a number below the next one. Nothing that the
statement asks of the state bounds the number of the issue of a store that an L1 holds, only the store's own; and one with a higher number
that has to wait, as the home of its word is down, is still held when the fence retires. -/

namespace Sys2Proof.FenceAhead

open Sys2Proof.Machine Sys2Proof.LeaderChain

/-- The wave that a fence at .cluster scope holds. -/
def fencing : Wave :=
  { newWave 0 0 setLaunch 0 0 .solo with fence := some 2, sel := some (0, 0x1004), frontier := [⟨0, 0x1004, 1, some ⟨0x1000, 15, 15, 0x1010⟩⟩] }

/-- The store that the L1 of its core holds: one byte of word 0, its issue numbered with the next number to be given. -/
def ahead : Pend := ⟨0, 0, 0, [(0, 5)], 0, 1, [], 0, 0, 1, 1⟩

/-- The team of the wave. -/
def alone : Team := newTeam 0 0 0 setLaunch 0 none false

/-- The device with that wave and that store, whose home is down: its own census has not ended. -/
def holding : State :=
  { State.reset with nextId := 1, ctxs := [context], grids := [grid], teams := [alone], waves := [fencing], pend := [ahead],
                     out := { Outside.reset with downHomes := [.device 0] } }

/-- The issue at which the fence waits. -/
def fenceIssue : Issue := ⟨holding, fencing, alone, grid, context, ⟨0, 0x1004, 1, some ⟨0x1000, 15, 15, 0x1010⟩⟩, 1⟩

theorem holding_sound : SoundMemory holding := by
  refine ⟨rfl, ⟨fun b hb => ?_, List.Pairwise.nil⟩, List.pairwise_singleton _ _, fun e he => ?_⟩
  · cases hb
  · rw [List.mem_singleton.1 he]
    decide

theorem fenceIssue_runs : Runs { holding with cur := 0 } fenceIssue 4 :=
  ⟨rfl, ⟨_, rfl, by decide⟩, by decide⟩

/-- The fence has nothing to wait for. -/
theorem fence_free : owes holding fenceIssue.tm.core 2 holding.nextId = false := by decide +kernel

/-- The stores that the L1s hold once the fence has been performed. -/
def pendAfter : Option (List Pend) :=
  match exec (.fenceComplete 0) holding with
  | .next t => some t.pend
  | _ => none

theorem pendAfter_eq : pendAfter = some [ahead] := by decide +kernel

/-- Refutes O27: a fence at .cluster scope retires with the store still held (`pendAfter_eq`), which the statement excludes. Every store of a
run enters its L1 with the number of an issue before it, so that no run comes to this state; but the statement is about every state, and
its premises bound the stores' own numbers only. -/
theorem not_fenceResults : ¬ Obligations.FenceResults := by
  rintro ⟨-, h⟩
  have hsettled : Settled fenceIssue := ⟨fun e he => (by cases he), fun e he => by cases he⟩
  obtain ⟨t, w, hexec, -, -, -, hwide⟩ := h holding 0 2 fenceIssue holding_sound fenceIssue_runs rfl hsettled fence_free
    fun h => absurd h (by decide)
  have hafter : pendAfter = some t.pend := by rw [pendAfter, hexec]
  rw [pendAfter_eq, Option.some.injEq] at hafter
  obtain ⟨hgone, -⟩ := hwide (by decide)
  exact hgone ahead (by rw [← hafter]; exact List.mem_singleton_self _) rfl

end Sys2Proof.FenceAhead

/-! # What the caches do not reach

Beside the waves, teams and operations (`FramesKept`), an operation of the caches leaves alone everything of the device but the bytes and
marks of memory, the copies and requests of the caches, the stores that the L1s hold, the translations held, the monitors, and the records
of how often a word was written. A translation also rekeys pages, recalls tenures, and notes the pages that mappings of the stash touch. -/

namespace Sys2Proof.RestKept

open Sys2Proof.Machine Sys2Proof.FramesKept

/-- The state without what the caches reach. -/
@[irreducible] def restOf (s : State) : State :=
  { s with tick := 0, mem := [], marks := [], pend := [], blocks := [], fills := [], tlbs := [], monitors := [], guests := [], gens := [],
           known := [] }

/-- The rest without what a translation reaches. -/
@[irreducible] def sparseOf (s : State) : State :=
  { restOf s with pageKeys := [], ciphers := [], tenures := [], teams := (restOf s).teams.map outlineTeam }

theorem restOf_caches {s : State} {tick : Nat} {mem : List Host.Cell} {marks : List (Nat × Mark)} {pend : List Pend}
    {blocks : List CBlock} {fills : List Fill} {tlbs : List Tlb} {monitors : List Monitor} {guests : List Guest} {gens known : List (Nat × Nat)} :
    restOf { s with tick := tick, mem := mem, marks := marks, pend := pend, blocks := blocks, fills := fills, tlbs := tlbs,
                    monitors := monitors, guests := guests, gens := gens, known := known } = restOf s := by
  unfold restOf
  rfl

theorem sparseOf_of_restOf {s t : State} (h : restOf t = restOf s) : sparseOf t = sparseOf s := by
  unfold sparseOf
  rw [h]

theorem sparseOf_translated {s : State} {mem : List Host.Cell} {pageKeys : List (Nat × Nat)}
    {ciphers : List (Nat × (Nat × List (BitVec 8) × List (BitVec 8)))} {tenures : List Tenure} :
    sparseOf { s with mem := mem, pageKeys := pageKeys, ciphers := ciphers, tenures := tenures } = sparseOf s := by
  unfold sparseOf restOf
  rfl

theorem sparseOf_teams {s : State} {teams : List Team} (h : teams.map outlineTeam = s.teams.map outlineTeam) :
    sparseOf { s with teams := teams } = sparseOf s := by
  unfold sparseOf restOf
  dsimp only
  rw [h]

/-! ## The blocks of a cache -/

theorem restOf_commitWord (s : State) (word : Nat) (bytes : List (Nat × BitVec 8)) (mk : Mark) :
    restOf (commitWord s word bytes mk) = restOf s :=
  restOf_caches

theorem restOf_setHeld (s : State) (cache word : Nat) (x : CWord) : restOf (s.setHeld cache word x) = restOf s :=
  restOf_caches

theorem restOf_writeBackWord (s : State) (word : Nat) : restOf (writeBackWord s word) = restOf s :=
  restOf_caches

theorem restOf_leaveWord (s : State) (cache word : Nat) (x : CWord) : restOf (leaveWord s cache word x) = restOf s := by
  unfold leaveWord
  split
  · split
    · exact restOf_writeBackWord _ _
    · rfl
  · split
    · exact restOf_commitWord _ _ _ _
    · rfl
  · rfl

theorem restOf_evictBlock (s : State) (b : CBlock) : restOf (evictBlock s b) = restOf s :=
  (foldl_keeps (π := restOf) (fun _ _ => restOf_leaveWord _ _ _ _) _ _).trans restOf_caches

theorem restOf_makeRoom {cache frame fuel : Nat} {new : List CBlock} {s t : State} (h : makeRoom cache frame new fuel s = some t) :
    restOf t = restOf s := by
  induction fuel generalizing s with
  | zero => cases h
  | succ fuel ih =>
    simp only [makeRoom] at h
    split at h
    · cases h
      rfl
    · split at h
      · cases h
      · exact (ih h).trans (restOf_caches.trans (restOf_evictBlock _ _))

theorem restOf_fillRun (s : State) (cache frame start n hint : Nat) (f : Nat → CWord) :
    restOf (fillRun s cache frame start n hint f) = restOf s := by
  unfold fillRun
  lift_lets
  intro here rest len mapped lacks pieces stashed own mine s1
  have h1 : restOf s1 = restOf s := by
    unfold s1
    split
    · rfl
    · exact restOf_caches
  split
  · exact h1
  · intro new
    split
    · next t ht => exact restOf_caches.trans ((restOf_makeRoom ht).trans h1)
    · exact h1

theorem restOf_hitHint (s : State) (cache word hint : Nat) : restOf (hitHint s cache word hint) = restOf s := by
  unfold hitHint
  split
  · exact restOf_caches
  · rfl

theorem restOf_gainWord (s : State) (core word hint : Nat) (x : CWord) : restOf (gainWord s core word hint x) = restOf s := by
  unfold gainWord
  split
  · exact restOf_setHeld _ _ _ _
  · exact restOf_fillRun _ _ _ _ _ _ _

theorem restOf_dropHeld (s : State) (cache word : Nat) : restOf (dropHeld s cache word) = restOf s := by
  unfold dropHeld
  split
  · rfl
  · dsimp only
    split
    · exact restOf_evictBlock _ _
    · exact restOf_caches

theorem restOf_dropWord (s : State) (core word : Nat) : restOf (dropWord s core word) = restOf s := restOf_dropHeld s core word

theorem restOf_freshen (s : State) (core : Nat) : restOf (freshen s core) = restOf s :=
  foldl_keeps (π := restOf) (fun _ _ => restOf_dropHeld _ _ _) _ _

theorem restOf_freshenBy (s : State) (core n : Nat) : restOf (freshenBy s core n) = restOf s :=
  foldl_keeps (π := restOf) (fun _ _ => restOf_dropHeld _ _ _) _ _

theorem restOf_restash (s : State) (core : Nat) : restOf (restash s core) = restOf s :=
  foldl_keeps (π := restOf) (fun s w => by
    split
    · exact (restOf_fillRun _ _ _ _ _ _ _).trans (restOf_dropHeld _ _ _)
    · rfl) _ _

/-! ## The stores that an L1 holds -/

theorem restOf_downgrade (s : State) (word : Nat) : restOf (downgrade s word) = restOf s := by
  unfold downgrade
  dsimp only
  refine restOf_caches.trans ?_
  split
  · exact restOf_writeBackWord _ _
  · rfl

theorem restOf_takeExclusive (s : State) (core word : Nat) : restOf (takeExclusive s core word) = restOf s := by
  unfold takeExclusive
  dsimp only
  refine restOf_caches.trans ?_
  split
  · exact restOf_writeBackWord _ _
  · rfl

theorem restOf_answerFor (s : State) (f : Fill) (mine : Nat → Bool) : restOf (answerFor s f mine) = restOf s := by
  have hown : ∀ (s : State) (w : Nat), restOf (if mine w then takeExclusive s f.core w else downgrade s w) = restOf s := fun s w => by
    split
    · exact restOf_takeExclusive _ _ _
    · exact restOf_downgrade _ _
  have hasked : restOf { s with fills := s.fills.erase f } = restOf s := restOf_caches
  unfold answerFor
  dsimp only
  rw [restOf_fillRun]
  split <;> simp only [restOf_fillRun, foldl_keeps (π := restOf) (fun _ _ => restOf_hitHint _ _ _ _),
    foldl_keeps (π := restOf) hown, hasked]

theorem restOf_performPend (s : State) (e : Pend) : restOf (performPend s e) = restOf s := by
  unfold performPend
  lift_lets
  intro s1 s2
  have h1 : restOf s1 = restOf s := by
    unfold s1
    split
    · rfl
    · exact restOf_answerFor _ _ _
  have h2 : restOf s2 = restOf s := (restOf_takeExclusive _ _ _).trans (restOf_caches.trans h1)
  exact (restOf_gainWord _ _ _ _ _).trans (restOf_caches.trans ((restOf_commitWord s2 _ _ _).trans h2))

theorem restOf_performAll (s : State) (p : Pend → Bool) : restOf (performAll s p) = restOf s :=
  foldl_keeps (π := restOf) (fun t e => by
    split
    · rfl
    · exact restOf_performPend _ _) _ _

theorem restOf_performPends (s : State) (core : Nat) (p : Pend → Bool) : restOf (performPends s core p) = restOf s :=
  restOf_performAll _ _

theorem restOf_drainFor (s : State) (core scope : Nat) : restOf (drainFor s core scope) = restOf s := by
  unfold drainFor
  split
  · exact restOf_performPends _ _ _
  · rfl

theorem restOf_cleanWord (s : State) (core word : Nat) : restOf (cleanWord s core word) = restOf s := by
  unfold cleanWord
  split
  · split
    · rfl
    · exact (restOf_setHeld _ _ _ _).trans (restOf_commitWord _ _ _ _)
  · rfl

theorem restOf_drainWord (s : State) (core word : Nat) : restOf (drainWord s core word) = restOf s := by
  unfold drainWord
  dsimp only
  have hclean : restOf (cleanWord (performPends s core fun e => e.word == word) core word) = restOf s :=
    (restOf_cleanWord _ _ _).trans (restOf_performPends _ _ _)
  split
  · exact (restOf_setHeld _ _ _ _).trans ((restOf_writeBackWord _ _).trans hclean)
  · exact hclean

theorem restOf_drainCore (s : State) (core : Nat) (p : Nat → Bool) : restOf (drainCore s core p) = restOf s :=
  (foldl_keeps (π := restOf) (fun _ _ => restOf_drainWord _ _ _) _ _).trans (restOf_performPends _ _ _)

theorem restOf_flushStamps (s : State) (part : Option Nat) (loc n : Nat) : restOf (flushStamps s part loc n) = restOf s :=
  foldl_keeps (π := restOf) (fun _ _ => foldl_keeps (π := restOf) (fun _ _ => restOf_drainCore _ _ _) _ _) _ _

theorem restOf_homeWord (s : State) (core word : Nat) (bytes : List (Nat × BitVec 8)) (mk : Mark) :
    restOf (homeWord s core word bytes mk) = restOf s :=
  (restOf_commitWord _ _ _ _).trans ((restOf_dropWord _ _ _).trans (restOf_drainWord _ _ _))

theorem restOf_engineWrite (s : State) (core : Nat) (l : List (Nat × BitVec 8 × Bool)) : restOf (engineWrite s core l) = restOf s :=
  foldl_keeps (π := restOf) (fun _ _ => restOf_homeWord _ _ _ _ _) _ _

/-! ## Translations -/

theorem restOf_bump (s : State) : restOf s.bump = restOf s := restOf_caches

theorem restOf_fillTlb (s : State) (room : Nat) (t : Tlb) : restOf (fillTlb s room t) = restOf s := by
  unfold fillTlb
  dsimp only
  split
  · exact restOf_caches
  · split
    · exact restOf_caches.trans (restOf_bump s)
    · exact restOf_caches

theorem sparseOf_rekeyWord (old new : Nat) (s : State) (word : Nat) : sparseOf (rekeyWord old new s word) = sparseOf s :=
  sparseOf_translated

theorem sparseOf_useKey (s : State) (x : Xl) : sparseOf (useKey s x) = sparseOf s := by
  unfold useKey rekeyPage
  split
  · rfl
  · generalize List.range 4096 = l
    dsimp only
    split
    · rfl
    · refine (sparseOf_translated).trans (foldl_keeps (π := sparseOf) (f := fun t i => rekeyWord (get 0 s.pageKeys (x.loc / 65536))
        (keyTag s (bitsN x.leaf 10 6)) t (4096 * (x.loc / 65536) + i)) (fun _ _ => sparseOf_rekeyWord _ _ _ _) l s)

theorem sparseOf_recallOne (s : State) (t : Tenure) (write : Bool) : sparseOf (recallOne s t write) = sparseOf s := by
  unfold recallOne
  lift_lets
  intro s1
  have h1 : sparseOf s1 = sparseOf s := by
    unfold s1
    split
    · split
      · exact sparseOf_of_restOf (restOf_drainCore _ _ _)
      · rfl
    · rfl
  exact (sparseOf_translated).trans h1

theorem sparseOf_markLeaf (s : State) (core loc e : Nat) : sparseOf (markLeaf s core loc e) = sparseOf s := by
  unfold markLeaf recallWord
  lift_lets
  intro bytes s1 s2
  have hs2 : sparseOf s2 = sparseOf s :=
    (sparseOf_of_restOf ((restOf_dropWord _ _ _).trans (restOf_drainWord _ _ _))).trans
      (foldl_keeps (π := sparseOf) (fun _ _ => sparseOf_recallOne _ _ _) _ _)
  exact (sparseOf_of_restOf (restOf_caches.trans (restOf_commitWord s2 _ _ _))).trans hs2

theorem sparseOf_noteStash (s : State) (core ctx vpage ppage : Nat) : sparseOf (noteStash s core ctx vpage ppage) = sparseOf s := by
  unfold noteStash
  dsimp only
  split
  · refine (sparseOf_of_restOf (restOf_restash _ _)).trans ?_
    refine sparseOf_teams ?_
    simp only [List.map_map, List.map_inj_left, Function.comp_apply]
    intro t _
    split
    · exact outlineTeam_touched _ _ _
    · rfl
  · rfl

theorem sparseOf_touchLeaf (s : State) (core : Nat) (write : Bool) (x : Xl) : sparseOf (touchLeaf s core write x) = sparseOf s := by
  unfold touchLeaf
  lift_lets
  intro s1 s2 e want s3
  have h1 : sparseOf s1 = sparseOf s := (sparseOf_noteStash _ _ _ _ _).trans (sparseOf_useKey _ _)
  have h2 : restOf s2 = restOf s1 := by
    unfold s2
    split
    · exact foldl_keeps (π := restOf) (fun _ _ => restOf_drainWord _ _ _) _ _
    · rfl
  have h3 : sparseOf s3 = sparseOf s2 := by
    unfold s3
    split
    · rfl
    · exact sparseOf_markLeaf _ _ _ _
  have h : sparseOf s3 = sparseOf s := h3.trans ((sparseOf_of_restOf h2).trans h1)
  split
  · intro t
    exact (sparseOf_of_restOf ((restOf_fillTlb _ _ _).trans (restOf_fillTlb _ _ _))).trans h
  · exact h

theorem sparseOf_touchLeaves (s : State) (core : Nat) (write : Bool) (xs : List Xl) :
    sparseOf (touchLeaves s core write xs) = sparseOf s :=
  foldl_keeps (π := sparseOf) (fun _ _ => sparseOf_touchLeaf _ _ _ _) _ _

/-! ## What the rest says -/

section
variable {s t : State} (h : restOf t = restOf s)
include h

theorem teams_of_restOf : t.teams = s.teams := by
  have h := congrArg State.teams h
  unfold restOf at h
  exact h

theorem gated_of_restOf : t.gated = s.gated := by
  have h := congrArg State.gated h
  unfold restOf at h
  exact h

theorem arrivals_of_restOf : t.arrivals = s.arrivals := by
  have h := congrArg State.arrivals h
  unfold restOf at h
  exact h

theorem tenures_of_restOf : t.tenures = s.tenures := by
  have h := congrArg State.tenures h
  unfold restOf at h
  exact h

end

section
variable {s t : State} (h : sparseOf t = sparseOf s)
include h

theorem grids_of_sparseOf : t.grids = s.grids := by
  have h := congrArg State.grids h
  unfold sparseOf restOf at h
  exact h

theorem held_of_sparseOf : t.held = s.held := by
  have h := congrArg State.held h
  unfold sparseOf restOf at h
  exact h

theorem handles_of_sparseOf : t.handles = s.handles := by
  have h := congrArg State.handles h
  unfold sparseOf restOf at h
  exact h

theorem ctxs_of_sparseOf : t.ctxs = s.ctxs := by
  have h := congrArg State.ctxs h
  unfold sparseOf restOf at h
  exact h

theorem pins_of_sparseOf : t.pins = s.pins := by
  have h := congrArg State.pins h
  unfold sparseOf restOf at h
  exact h

theorem parts_of_sparseOf : t.parts = s.parts := by
  have h := congrArg State.parts h
  unfold sparseOf restOf at h
  exact h

theorem nextId_of_sparseOf : t.nextId = s.nextId := by
  have h := congrArg State.nextId h
  unfold sparseOf restOf at h
  exact h

end

end Sys2Proof.RestKept

/-! # Barriers (11 R301 to R305; 13 R328; 19 R429)

A barrier word is written as it is, and writes of other words leave it. An arrival that finds its team there writes the next word of
Table 11-3, in the state that its release has drained; what the completion of a phase brings changes no scratchpad, and of a wave that
does not wait on it only the marks of an interval. -/

namespace Sys2Proof.Barriers

open Sys2Proof.Machine Sys2Proof.Machine.Laws Sys2Proof.FramesKept Sys2Proof.RestKept Sys2Proof.MatrixEffect Sys2Proof.MatrixIssue
open Sys2Proof.SlotConversion

/-! ## Barrier words -/

theorem leBytes_getElem? (n x i : Nat) : (leBytes n x)[i]? = if i < n then some (BitVec.ofNat 8 (x / 256 ^ i)) else none := by
  induction n generalizing x i with
  | zero => rfl
  | succ n ih =>
    cases i with
    | zero => simp [leBytes]
    | succ i =>
      rw [leBytes, List.getElem?_cons_succ, ih, Nat.pow_succ, Nat.mul_comm, Nat.div_div_eq_div_mul]
      simp only [Nat.succ_lt_succ_iff]

/-- A byte of a scratchpad that was written to, in the barrier words too. -/
theorem spByte_spWrite_masked (t : Team) (o : Nat) (bytes : List (BitVec 8)) (a : Nat) :
    (t.spWrite o bytes).spByte a = (if o ≤ a then bytes[a - o]?.map fun x => barrierByte (o + (a - o)) x else none).getD (t.spByte a) :=
  get_foldl_put (0#8) (fun b i => barrierByte (o + i) b) o bytes t.sp a

theorem and_three_of_lt {x : Nat} (h : x < 4) : BitVec.ofNat 8 x &&& 3#8 = BitVec.ofNat 8 x := by
  interval_cases x <;> rfl

/-- A barrier word's bytes hold no bit that a barrier word leaves out. -/
theorem barrierByte_of_word {b i : Nat} (hb : b < 2 ^ 34) (hi : i < 8) (id : Nat) :
    barrierByte (8 * id + i) (BitVec.ofNat 8 (b / 256 ^ i)) = BitVec.ofNat 8 (b / 256 ^ i) := by
  have hmod : (8 * id + i) % 8 = i := by omega
  unfold barrierByte
  rw [hmod]
  split
  · rfl
  · next hlow =>
    split
    · next h4 =>
      subst h4
      exact and_three_of_lt (Nat.div_lt_of_lt_mul (by omega))
    · next h4 =>
      have hle : 256 ^ 5 ≤ 256 ^ i := Nat.pow_le_pow_right (by decide) (by omega)
      rw [Nat.div_eq_of_lt (hb.trans (lt_of_lt_of_le (by decide) hle))]
      rfl

theorem barrier_spWrite_same (t : Team) (id : Nat) {b : Nat} (hb : b < 2 ^ 34) :
    (t.spWrite (8 * id) (leBytes 8 b)).barrier id = b := by
  have hbytes : (List.range 8).map (fun i => (t.spWrite (8 * id) (leBytes 8 b)).spByte (8 * id + i)) = leBytes 8 b := by
    refine List.ext_getElem? fun i => ?_
    rw [List.getElem?_map, leBytes_getElem?]
    split
    · next hi =>
      rw [List.getElem?_range hi, Option.map_some, spByte_spWrite_masked, if_pos (Nat.le_add_right _ _), Nat.add_sub_cancel_left,
        leBytes_getElem?, if_pos hi, Option.map_some, Option.getD_some, barrierByte_of_word hb hi]
    · next hi => rw [List.getElem?_eq_none (by simpa using hi), Option.map_none]
  rw [Team.barrier, Team.spNat, hbytes, leNat_leBytes]
  exact Nat.mod_eq_of_lt (hb.trans (by decide))

theorem barrier_spWrite_other (t : Team) {id k : Nat} (hk : k ≠ id) (b : Nat) :
    (t.spWrite (8 * id) (leBytes 8 b)).barrier k = t.barrier k := by
  unfold Team.barrier Team.spNat
  congr 1
  refine List.map_congr_left fun i hi => ?_
  have hi : i < 8 := List.mem_range.1 hi
  rw [spByte_spWrite_masked]
  split
  · rw [leBytes_getElem?, if_neg (by omega), Option.map_none, Option.getD_none]
  · rfl

theorem barWord_lt {a e p : Nat} (ha : a < 2 ^ 16) (he : e < 2 ^ 16) (hp : p < 2) : barWord a e p < 2 ^ 34 := by
  unfold barWord
  omega

theorem barExpected_lt (b : Nat) : barExpected b < 2 ^ 16 := Nat.mod_lt _ (by decide)

theorem barPhase_lt (b : Nat) : barPhase b < 2 := Nat.mod_lt _ (by decide)

/-- The word that an arrival leaves. -/
def nextWord (b : Nat) : Nat :=
  if barArrived b + 1 == barExpected b then barWord 0 (barExpected b) (1 - barPhase b)
  else barWord ((barArrived b + 1) % 2 ^ 16) (barExpected b) (barPhase b)

theorem nextWord_lt (b : Nat) : nextWord b < 2 ^ 34 := by
  unfold nextWord
  split
  · exact barWord_lt (by decide) (barExpected_lt b) (by omega)
  · exact barWord_lt (Nat.mod_lt _ (by decide)) (barExpected_lt b) (barPhase_lt b)

theorem nextWord_counted {b : Nat} (h : barArrived b + 1 ≠ barExpected b) :
    nextWord b = barWord ((barArrived b + 1) % 2 ^ 16) (barExpected b) (barPhase b) := if_neg (by simpa using h)

theorem nextWord_full {b : Nat} (h : barArrived b + 1 = barExpected b) :
    nextWord b = barWord 0 (barExpected b) (1 - barPhase b) := if_pos (by simpa using h)

/-! ## Teams and waves of changed states -/

theorem team?_of_teams {s t : State} (h : t.teams = s.teams) (i : Nat) : t.team? i = s.team? i := by rw [State.team?, h, State.team?]

theorem wave?_of_waves {s t : State} (h : t.waves = s.waves) (i : Nat) : t.wave? i = s.wave? i := by rw [State.wave?, h, State.wave?]

theorem barrierIs_of_teams {s t : State} (h : t.teams = s.teams) {i k b : Nat} : BarrierIs t i k b ↔ BarrierIs s i k b := by
  unfold BarrierIs
  rw [team?_of_teams h]

theorem team?_updTeam_other {s : State} {f : Team → Team} (hf : ∀ t, (f t).id = t.id) {i j : Nat} (hj : j ≠ i) :
    (s.updTeam i f).team? j = s.team? j := by
  unfold State.team? State.updTeam
  have hid : ((fun t : Team => t.id == j) ∘ fun x => if x.id = i then f x else x) = fun t => t.id == j := by
    funext x
    rw [Function.comp_apply]
    split
    · rw [hf]
    · rfl
  rw [List.find?_map, hid]
  cases hfind : s.teams.find? fun t => t.id == j with
  | none => rfl
  | some t =>
    have ht : t.id = j := by simpa using List.find?_some hfind
    rw [Option.map_some, if_neg (ht.trans_ne hj)]

/-- A team is found where it was, and is what it was or has changed as the update says. -/
theorem team?_updTeam {s : State} {f : Team → Team} (hf : ∀ t, (f t).id = t.id) (i : Nat) {j : Nat} {t : Team} (h : s.team? j = some t) :
    (s.updTeam i f).team? j = some t ∨ (s.updTeam i f).team? j = some (f t) := by
  by_cases hj : j = i
  · exact .inr (by rw [hj] at h ⊢; exact team?_updTeam_same hf h)
  · exact .inl (by rw [team?_updTeam_other hf hj, h])

theorem issuing_team {s : State} {c : Issue} (h : issuing s = some c) : s.team? c.tm.id = some c.tm := by
  unfold issuing at h
  split at h
  · cases h
  · split at h
    · next w _ _ _ _ tm _ htm =>
      split at h
      · split at h
        · cases h
          have hid : tm.id = w.team := by simpa using List.find?_some htm
          rw [hid]
          exact htm
        · cases h
      · cases h
    · cases h

/-- The waves of a state mapped by a function that keeps their numbers. -/
theorem wave?_map {s : State} {f : Wave → Wave} (hf : ∀ w, (f w).id = w.id) (i : Nat) :
    ({ s with waves := s.waves.map f } : State).wave? i = (s.wave? i).map f := by
  unfold State.wave?
  rw [List.find?_map]
  congr 2
  funext w
  rw [Function.comp_apply, hf]

/-- A retirement in a state whose waves are those of the issue. -/
theorem retire_in {s S : State} {c : Issue} (h : Runs s c 4) (hS : S.waves = s.waves) {w : Wave} (hid : w.id = c.w.id) :
    OnlyWave S (retire c S w 4) c (advance c w.count 4).settle := by
  have hadv : (advance c w.count 4).settle.id = c.w.id := (settle_id _).trans hid
  rw [retire_eq h.left]
  refine ⟨?_, fun i hi => ?_, rfl⟩
  · rw [← hadv]
    refine wave?_setWave_same (x := c.w) ?_
    rw [hadv]
    exact (wave?_of_waves hS _).trans (issuing_wave h.issues)
  · exact wave?_setWave_other (s := S.awake) (by rwa [hadv])

/-- A wave blocked in a state whose waves are those of the issue. -/
theorem blockOn_in {s S : State} {c : Issue} (h : issuing s = some c) (hS : S.waves = s.waves) (b : Block) :
    BlockedOn (blockOn c b S) c b :=
  wave?_setWave_same (s := S.awake) (w := { c.w with state := .blocked, block := some b, sel := none })
    ((wave?_of_waves hS _).trans (issuing_wave h))

/-- What an issue comes to, by what its effect answers. -/
def outcome (c : Issue) : Except Flt State → Host.Outcome State Fault Refusal
  | .ok s => .next s
  | .error f => .next (takeFault c f)

theorem issue_outcome {s : State} {c : Issue} (h : Runs s c 4) (eff : Issue → Except Flt State) :
    issue s true 4 eff = outcome c (eff c) := issue_runs h rfl eff

theorem issueAs_outcome {s s1 : State} {c : Issue} {reason : Nat} (hsafe : EndsSafety s s1 reason) (h : Runs s1 c 4)
    (eff : Issue → Except Flt State) : issueAs s true 4 reason eff = outcome c (eff c) := issueAs_runs hsafe h eff

/-! ## bar.init -/

/-- The state that an init of a barrier leaves, before its wave retires. -/
def initState (c : Issue) (id n : Nat) : State :=
  if n = 0 then (if barArmed (c.tm.barrier id) then spWriteBoth c.s c.tm.id (8 * id) (leBytes 8 0) else c.s)
  else spWriteBoth c.s c.tm.id (8 * id)
    (leBytes 8 (barWord 0 n (if barArmed (c.tm.barrier id) then barPhase (c.tm.barrier id) else 0)))

theorem spWrite_id (t : Team) (o : Nat) (bytes : List (BitVec 8)) : (t.spWrite o bytes).id = t.id := rfl

section
variable {s : State} {c : Issue} (h : Runs s c 4) (hpeer : c.tm.peer = none)
include h hpeer

/-- A barrier word of a team outside a pair written: that word alone. -/
theorem barrierIs_written {id b : Nat} (hb : b < 2 ^ 34) :
    BarrierIs (spWriteBoth s c.tm.id (8 * id) (leBytes 8 b)) c.tm.id id b ∧
      OtherBarriers s (spWriteBoth s c.tm.id (8 * id) (leBytes 8 b)) c.tm.id id := by
  have hteam := issuing_team h.issues
  rw [spWriteBoth_alone hteam hpeer]
  have hsame := team?_updTeam_same (f := fun t => t.spWrite (8 * id) (leBytes 8 b)) (fun _ => rfl) hteam
  refine ⟨⟨_, hsame, barrier_spWrite_same _ _ hb⟩, fun i k x _ hne => ?_⟩
  unfold BarrierIs
  by_cases hi : i = c.tm.id
  · have hk : k ≠ id := hne.resolve_left (not_not_intro hi)
    rw [hi, hsame, hteam]
    simp only [Option.some.injEq, exists_eq_left', barrier_spWrite_other _ hk]
  · rw [team?_updTeam_other (fun t => spWrite_id t _ _) hi]

theorem initState_spec {id n : Nat} (hn : n ≤ 65535) :
    (initState c id n).waves = s.waves ∧ (initState c id n).mem = s.mem ∧ OtherBarriers s (initState c id n) c.tm.id id ∧
      BarrierIs (initState c id n) c.tm.id id (if n = 0 then (if barArmed (c.tm.barrier id) then 0 else c.tm.barrier id) else
        barWord 0 n (if barArmed (c.tm.barrier id) then barPhase (c.tm.barrier id) else 0)) := by
  have hkept : ∀ b, (spWriteBoth s c.tm.id (8 * id) (leBytes 8 b)).waves = s.waves ∧
      (spWriteBoth s c.tm.id (8 * id) (leBytes 8 b)).mem = s.mem := fun b => by
    rw [spWriteBoth_alone (issuing_team h.issues) hpeer]
    exact ⟨rfl, rfl⟩
  have hphase : (if barArmed (c.tm.barrier id) then barPhase (c.tm.barrier id) else 0) < 2 := by
    split
    · exact barPhase_lt _
    · decide
  rw [initState, issuing_s h.issues]
  split
  · split
    · obtain ⟨hw, hm⟩ := hkept 0
      obtain ⟨his, hother⟩ := barrierIs_written h hpeer (id := id) (b := 0) (by decide)
      exact ⟨hw, hm, hother, his⟩
    · exact ⟨rfl, rfl, fun _ _ _ _ _ => Iff.rfl, _, issuing_team h.issues, rfl⟩
  · obtain ⟨hw, hm⟩ := hkept (barWord 0 n (if barArmed (c.tm.barrier id) then barPhase (c.tm.barrier id) else 0))
    obtain ⟨his, hother⟩ := barrierIs_written h hpeer (id := id) (barWord_lt (a := 0) (by decide) (Nat.lt_succ_of_le hn) hphase)
    exact ⟨hw, hm, hother, his⟩

omit hpeer in
/-- A barrier that is unarmed, or armed with no arrival and no wave waiting, may be initialised. -/
theorem init_free {id : Nat} (hfree : barArmed (c.tm.barrier id) = true → barArrived (c.tm.barrier id) = 0 ∧
      ∀ w ∈ s.waves, w.state = .blocked → ∀ p pc sc, w.block ≠ some (.barrier c.tm.id id p pc sc)) :
    (barArmed (c.tm.barrier id) && (barArrived (c.tm.barrier id) != 0 || c.s.waves.any fun w => w.state == .blocked && (match w.block with
      | some (.barrier t i _ _ _) => t == c.tm.id && i == id
      | _ => false))) = false := by
  rw [Bool.and_eq_false_iff, or_iff_not_imp_left, Bool.not_eq_false]
  intro harmed
  obtain ⟨hzero, hwaves⟩ := hfree harmed
  rw [hzero, bne_self_eq_false, Bool.false_or, List.any_eq_false, issuing_s h.issues]
  intro w hmem
  rw [Bool.not_eq_true, Bool.and_eq_false_iff, or_iff_not_imp_left, Bool.not_eq_false, beq_iff_eq]
  intro hblocked
  split
  · next t i p pc sc hblock =>
    rw [Bool.and_eq_false_iff, or_iff_not_imp_left, Bool.not_eq_false, beq_iff_eq]
    rintro rfl
    exact beq_false_of_ne fun hi => hwaves w hmem hblocked p pc sc (by rw [hblock, hi])
  · rfl

theorem barInit_done {o : OpBarInit} (hrole : c.w.role = .solo) (hclean : Unpoisoned c [] [o.count.toNat] []) :
    let id := o.id.toNat
    let n := (c.w.getS o.count.toNat).toNat
    let b := c.tm.barrier id
    n ≤ 65535 →
    (barArmed b = true → barArrived b = 0 ∧
      ∀ w ∈ s.waves, w.state = .blocked → ∀ p pc sc, w.block ≠ some (.barrier c.tm.id id p pc sc)) →
    ∃ t w, exec (.barInit o) s = .next t ∧ t.wave? c.w.id = some w ∧ Passed c 4 c.w w ∧ t.mem = s.mem ∧
      OtherBarriers s t c.tm.id id ∧
      BarrierIs t c.tm.id id (if n = 0 then (if barArmed b then 0 else b) else
        barWord 0 n (if barArmed b then barPhase b else 0)) := by
  intro id n b hn hfree
  obtain ⟨hw, hm, hother, his⟩ := initState_spec h hpeer (id := id) hn
  have hexec : exec (.barInit o) s = .next (retire c (initState c id n) c.w 4) := by
    refine (issue_runs h rfl _).trans ?_
    rw [once_solo hrole]
    rw [poisonRegs_none hclean, guarded_of_none]
    · unfold initState
      by_cases hz : n = 0
      · rw [if_pos hz, if_pos hz, retireOnce_solo hrole]
      · rw [if_neg hz, if_neg hz, retireOnce_solo hrole]
    · rw [faultIf_of_eq_false]
      · rfl
      · exact Bool.or_eq_false_iff.2 ⟨init_free h hfree, decide_eq_false (Nat.not_lt.2 hn)⟩
  obtain ⟨hsame, -, hrest⟩ := retire_in h hw (w := c.w) rfl
  have hteams : (retire c (initState c id n) c.w 4).teams = (initState c id n).teams := by rw [hrest]
  refine ⟨_, _, hexec, hsame, ⟨moved_retire c _ 4 rfl rfl, advance_jumped c _ rfl 4⟩, by rw [hrest]; exact hm, fun i k x hk hne => ?_, ?_⟩
  · rw [barrierIs_of_teams hteams]
    exact hother i k x hk hne
  · rw [barrierIs_of_teams hteams]
    exact his

end

end Sys2Proof.Barriers

/-! # Arrivals at barriers and what the completion of a phase brings (11 R302 to R305; 19 R429) -/

namespace Sys2Proof.BarrierArrivals

open Sys2Proof.Machine Sys2Proof.Machine.Laws Sys2Proof.FramesKept Sys2Proof.RestKept Sys2Proof.MatrixEffect Sys2Proof.MatrixIssue
open Sys2Proof.SlotConversion Sys2Proof.Barriers

/-! ## The arrival -/

theorem frameOf_drainFor (s : State) (core scope : Nat) : frameOf (drainFor s core scope) = frameOf s := by
  unfold drainFor
  split
  · exact frameOf_performPends _ _ _
  · rfl

section
variable (s : State) (core scope : Nat)
theorem drainFor_waves : (drainFor s core scope).waves = s.waves := congrArg Frame.waves (frameOf_drainFor s core scope)
theorem drainFor_teams : (drainFor s core scope).teams = s.teams := congrArg Frame.teams (frameOf_drainFor s core scope)
theorem drainFor_nextId : (drainFor s core scope).nextId = s.nextId := congrArg Frame.nextId (frameOf_drainFor s core scope)
end

/-- The issue of a release, in the state that it has drained. -/
def released (c : Issue) (scope : Nat) : Issue := { c with s := drainFor c.s c.tm.core scope }

theorem asRelease_go {c : Issue} {scope : Nat} (hsettled : Settled c) (howes : owes c.s c.tm.core scope c.s.nextId = false)
    (k : Issue → Except Flt State) : asRelease c scope k = k (released c scope) := by
  obtain ⟨hops, hheld⟩ := hsettled
  have hbusy : c.busy = false := by
    rw [Issue.busy, Bool.or_eq_false_iff, List.any_eq_false, List.any_eq_false]
    refine ⟨fun e he => ?_, fun e he => by simpa using hheld e he⟩
    by_cases hw : e.wave = c.w.id
    · obtain ⟨hcore, hacq, hkey⟩ := hops e he hw
      simp [hcore, hacq, hkey]
    · simp [hw]
  rw [asRelease, hbusy, howes, Bool.or_self, if_neg Bool.false_ne_true, released]

theorem completes_eq {s : State} {owner id : Nat} {ow : Team} (hteam : s.team? owner = some ow) (harmed : barArmed (ow.barrier id) = true) :
    completes s owner id = (barArrived (ow.barrier id) + 1 == barExpected (ow.barrier id)) := by
  rw [completes, hteam, Option.any_some, harmed, Bool.true_and]

theorem toArrive_go {c : Issue} {owner id scope : Nat} (hsettled : Settled c) (howes : owes c.s c.tm.core scope c.s.nextId = false)
    (hflags : c.atBoundary owner id = true → c.w.flagsClear = true)
    (hheld : completes c.s owner id = true → boundaryHeld c.s owner id = false) (k : Issue → Except Flt State) :
    toArrive c owner id scope k = k (released c scope) := by
  have hgo : ((c.atBoundary owner id && !c.w.flagsClear) || (completes c.s owner id && boundaryHeld c.s owner id)) = false := by
    rw [Bool.or_eq_false_iff, Bool.and_eq_false_imp, Bool.and_eq_false_imp]
    exact ⟨fun h => by rw [hflags h]; rfl, hheld⟩
  rw [toArrive, hgo, if_neg Bool.false_ne_true, asRelease_go hsettled howes]

/-- The state once the next word of an arrival is written. -/
def arrived (s : State) (team id : Nat) (b : Nat) : State := s.updTeam team fun t => t.spWrite (8 * id) (leBytes 8 (nextWord b))

section
variable {s : State} {team id : Nat} {ow : Team} (hteam : s.team? team = some ow)
include hteam

theorem arriveWord_alone (hpeer : ow.peer = none) (harmed : barArmed (ow.barrier id) = true) :
    arriveWord s team id = some (arrived s team id (ow.barrier id), barPhase (ow.barrier id),
      barArrived (ow.barrier id) + 1 == barExpected (ow.barrier id)) := by
  rw [arriveWord, hteam]
  dsimp only
  rw [if_pos harmed, spWriteBoth_alone hteam hpeer]
  rfl

theorem arrive_alone (hpeer : ow.peer = none) (harmed : barArmed (ow.barrier id) = true) (hlost : ow.state ≠ .lost)
    (hholds : holdsArrivals s ow = false) : arrive s team id = .made (arrived s team id (ow.barrier id)) (barPhase (ow.barrier id))
      (barArrived (ow.barrier id) + 1 == barExpected (ow.barrier id)) := by
  rw [arrive, hteam]
  dsimp only
  rw [if_neg hlost, hholds, if_neg Bool.false_ne_true, arriveWord_alone hteam hpeer harmed]

theorem barrierIs_arrived : BarrierIs (arrived s team id (ow.barrier id)) team id (nextWord (ow.barrier id)) :=
  ⟨_, team?_updTeam_same (fun t => spWrite_id t _ _) hteam, barrier_spWrite_same _ _ (nextWord_lt _)⟩

end

/-- A team is held back in a drained state as before. -/
theorem holdsArrivals_released (c : Issue) (scope : Nat) (ow : Team) : holdsArrivals (released c scope).s ow = holdsArrivals c.s ow := by
  have hgated : (released c scope).s.gated = c.s.gated := gated_of_restOf (restOf_drainFor _ _ _)
  rw [holdsArrivals, hgated, holdsArrivals]

theorem arrivalsFull_released (c : Issue) (scope : Nat) (ow : Team) (id : Nat) :
    arrivalsFull (released c scope).s ow id = arrivalsFull c.s ow id := by
  have harrivals : (released c scope).s.arrivals = c.s.arrivals := arrivals_of_restOf (restOf_drainFor _ _ _)
  have hteams : (released c scope).s.team? = c.s.team? := funext fun i => team?_of_teams (drainFor_teams _ _ _) i
  rw [arrivalsFull, harrivals, hteams, arrivalsFull]

/-! ## Waves that wait for a phase -/

/-- What a wave that waits for a phase enters in the list of waiters. -/
def waits (team id phase : Nat) (w : Wave) : Option (Nat × Nat × Nat) :=
  match w.state, w.block with
  | .blocked, some (.barrier o i p pc scope) => if o = team ∧ i = id ∧ p = phase then some (w.id, pc, scope) else none
  | _, _ => none

theorem waiters_eq (s : State) (team id phase : Nat) : waiters s team id phase = s.waves.filterMap (waits team id phase) := rfl

theorem waits_id {team id phase : Nat} {w : Wave} {p : Nat × Nat × Nat} (h : waits team id phase w = some p) : p.1 = w.id := by
  unfold waits at h
  split at h
  · split at h
    · cases h
      rfl
    · cases h
  · cases h

/-- A wave that does not wait, put in the place of one that does not, leaves the waiters as they are. -/
theorem waiters_setWave {s : State} {w : Wave} {team id phase : Nat} (hw : waits team id phase w = none)
    (hold : ∀ p ∈ waiters s team id phase, p.1 ≠ w.id) : waiters (s.setWave w) team id phase = waiters s team id phase := by
  rw [waiters_eq] at hold ⊢
  rw [waiters_eq]
  show (s.waves.map _).filterMap _ = _
  rw [List.filterMap_map]
  refine List.filterMap_congr fun x hx => ?_
  rw [Function.comp_apply]
  split
  · next hid =>
    rw [hw, eq_comm, Option.eq_none_iff_forall_not_mem]
    intro p hp
    exact hold p (List.mem_filterMap.2 ⟨x, hx, hp⟩) ((waits_id hp).trans hid)
  · rfl

/-- A wave waits for no barrier. -/
def Free (w : Wave) : Prop := w.state ≠ .blocked ∨ ∀ o i p pc sc, w.block ≠ some (.barrier o i p pc sc)

theorem waits_of_free {w : Wave} (h : Free w) (team id phase : Nat) : waits team id phase w = none := by
  unfold waits
  split
  · next hs hb => exact h.elim (absurd hs) fun h => absurd hb (h _ _ _ _ _)
  · rfl

theorem free_settle {w : Wave} (h : Free w) : Free w.settle := by
  unfold Wave.settle
  split
  · exact .inr fun _ _ _ _ _ h => by cases h
  · exact h

/-- A wave that issued Ready waits for no barrier once its instruction has retired. -/
theorem free_advance {c : Issue} {w : Wave} (h : w.state = .ready) (n : Nat) : Free (advance c w.count n).settle :=
  free_settle (.inl (by rw [show (advance c w.count n).state = w.state from rfl, h]; decide))

theorem waiters_of_waves {s t : State} (h : t.waves = s.waves) (team id phase : Nat) :
    waiters t team id phase = waiters s team id phase := by rw [waiters_eq, h, waiters_eq]

/-! ## The end of an interval -/

/-- Of each wave only the marks of an interval have changed, and of the teams' barrier words nothing. -/
def Calm (s t : State) : Prop :=
  (∀ i w, s.wave? i = some w → ∃ w', t.wave? i = some w' ∧ w' = { w with held := w'.held, vDirty := w'.vDirty, aDirty := w'.aDirty } ∧
    (w.held = false → w'.held = false)) ∧
  ∀ i k b, BarrierIs s i k b → BarrierIs t i k b

theorem Calm.of_same {s t : State} (hw : t.waves = s.waves) (ht : t.teams = s.teams) : Calm s t :=
  ⟨fun i w h => ⟨w, (wave?_of_waves hw i).trans h, rfl, id⟩, fun _ _ _ h => (barrierIs_of_teams ht).2 h⟩

theorem Calm.trans {s t u : State} (h : Calm s t) (h' : Calm t u) : Calm s u := by
  refine ⟨fun i w hw => ?_, fun i k b hb => h'.2 _ _ _ (h.2 _ _ _ hb)⟩
  obtain ⟨w1, hw1, he1, hheld1⟩ := h.1 i w hw
  obtain ⟨w2, hw2, he2, hheld2⟩ := h'.1 i w1 hw1
  exact ⟨w2, hw2, by rw [he2, he1], fun h => hheld2 (hheld1 h)⟩

theorem Calm.foldl {α : Type} {f : State → α → State} (hf : ∀ s x, Calm s (f s x)) (l : List α) (s : State) : Calm s (l.foldl f s) := by
  induction l generalizing s with
  | nil => exact .of_same rfl rfl
  | cons x l ih => exact (hf s x).trans (ih _)

/-- Waves whose marks of an interval alone change. -/
theorem Calm.waves (s : State) {f : Wave → Wave}
    (hf : ∀ w, f w = { w with held := (f w).held, vDirty := (f w).vDirty, aDirty := (f w).aDirty } ∧ (w.held = false → (f w).held = false)) :
    Calm s { s with waves := s.waves.map f } := by
  refine ⟨fun i w hw => ⟨f w, ?_, hf w⟩, fun _ _ _ h => h⟩
  rw [wave?_map (fun w => by rw [(hf w).1]), hw, Option.map_some]

/-- A team whose scratchpad does not change. -/
theorem Calm.team (s : State) (i : Nat) {f : Team → Team} (hf : ∀ t, (f t).id = t.id ∧ (f t).sp = t.sp) : Calm s (s.updTeam i f) := by
  refine ⟨fun _ w h => ⟨w, h, rfl, id⟩, ?_⟩
  rintro j k b ⟨t, ht, hb⟩
  rcases team?_updTeam (fun t => (hf t).1) i ht with h | h
  · exact ⟨t, h, hb⟩
  · refine ⟨f t, h, ?_⟩
    rw [← hb]
    simp only [Team.barrier, Team.spNat, Team.spByte, (hf t).2]

/-- The waves and teams of a state. -/
def partiesOf (s : State) : List Wave × List Team := (s.waves, s.teams)

theorem partiesOf_of_frameOf {s t : State} (h : frameOf t = frameOf s) : partiesOf t = partiesOf s :=
  Prod.ext (congrArg Frame.waves h) (congrArg Frame.teams h)

theorem partiesOf_redHome (s : State) (op : AtomOp) (size loc x y : Nat) : partiesOf (redHome s op size loc x y) = partiesOf s := by
  unfold redHome
  split
  · rfl
  · split
    · exact foldl_keeps (π := partiesOf) (f := fun s (p : Nat × List (Nat × BitVec 8)) => commitWord s p.1 p.2 .ok)
        (fun _ _ => rfl) _ _
    · rfl

theorem partiesOf_l1Store (s : State) (core team word : Nat) (bytes : List (Nat × BitVec 8)) (after since : Nat) (how : StoreHow)
    (via : List (Nat × Nat)) : partiesOf (l1Store s core team word bytes after since how via) = partiesOf s := by
  unfold l1Store
  split
  · split
    · rfl
    · exact partiesOf_of_frameOf ((frameOf_gainWord _ _ _ _ _).trans (frameOf_dropWord _ _ _))
  · dsimp only
    split
    · split <;> rfl
    · split
      · exact (partiesOf_of_frameOf (frameOf_performPend _ _)).trans rfl
      · rfl

theorem partiesOf_releaseHeld (t : Team) (kept : Bool) (s : State) (l : List Held) : partiesOf (releaseHeld t kept s l) = partiesOf s := by
  induction l generalizing s kept with
  | nil => rfl
  | cons e l ih =>
    have hdrop : ∀ w, partiesOf (dropWord (drainWord s t.core w) t.core w) = partiesOf s := fun w =>
      partiesOf_of_frameOf ((frameOf_dropWord _ _ _).trans (frameOf_drainWord _ _ _))
    cases e with
    | store w bs via =>
      rw [releaseHeld]
      split
      · exact (ih _ _).trans (partiesOf_l1Store _ _ _ _ _ _ _ _ _)
      · split
        · exact (ih _ _).trans (partiesOf_l1Store _ _ _ _ _ _ _ _ _)
        · exact (ih _ _).trans ((partiesOf_of_frameOf (frameOf_commitWord _ _ _ _)).trans (hdrop w))
    | red op size pa x y via =>
      rw [releaseHeld]
      exact (ih _ _).trans ((partiesOf_redHome _ _ _ _ _ _).trans (hdrop _))
    | logged wave op size addrs vals puts =>
      rw [releaseHeld]
      exact ih _ _

theorem calm_releaseBuffer (s : State) (team : Nat) : Calm s (releaseBuffer s team) := by
  unfold releaseBuffer
  split
  · exact .of_same rfl rfl
  · next t _ =>
    lift_lets
    intro s1
    have hkept := partiesOf_releaseHeld t false s1 t.interval.buffer
    have hteam : Calm s s1 := Calm.team s team fun _ => ⟨rfl, rfl⟩
    exact hteam.trans (.of_same (congrArg Prod.fst hkept) (congrArg Prod.snd hkept))

theorem calm_beginInterval (s : State) (team : Nat) : Calm s (beginInterval s team) := by
  unfold beginInterval
  split
  · exact .of_same rfl rfl
  · split
    · lift_lets
      intro s1 s2
      have hteam : Calm s1 s2 := Calm.team s1 team fun _ => ⟨rfl, rfl⟩
      have hwaves : Calm s2 { s2 with waves := s2.waves.map fun w => if w.team = team then { w with vDirty := [], aDirty := [] } else w } :=
        Calm.waves s2 fun w => by split <;> exact ⟨rfl, id⟩
      exact ((calm_releaseBuffer s team).trans hteam).trans hwaves
    · exact .of_same rfl rfl

/-- The end of a phase, once its waiters have gone on. -/
def phaseEnd (s : State) (team id : Nat) : State :=
  if id = 0 then
    let ts := team :: ((s.team? team).bind (·.peer)).toList
    ts.foldl beginInterval { s with waves := s.waves.map fun w => if ts.contains w.team then { w with held := false } else w }
  else s

theorem calm_phaseEnd (s : State) (team id : Nat) : Calm s (phaseEnd s team id) := by
  unfold phaseEnd
  split
  · refine (Calm.waves s fun w => ?_).trans (.foldl calm_beginInterval _ _)
    split
    · exact ⟨rfl, fun _ => rfl⟩
    · exact ⟨rfl, fun h => h⟩
  · exact .of_same rfl rfl

theorem phaseDone_alone {s : State} {team id phase : Nat} (h : waiters s team id phase = []) :
    phaseDone s team id phase = phaseEnd s.awake team id := by
  unfold phaseDone
  rw [h]
  rfl

/-- One waiter goes on. -/
theorem phaseDone_one {s : State} {team id phase : Nat} {x : Wave} {pc sc : Nat} (h : waiters s team id phase = [(x.id, pc, sc)])
    (hx : s.wave? x.id = some x) (hblocked : x.state = .blocked) :
    phaseDone s team id phase = phaseEnd (finishWait s x.id pc sc).awake team id := by
  have hgoes : ((s.wave? x.id).any fun w => w.state == .blocked) = true := by simp [hx, hblocked]
  unfold phaseDone
  rw [h]
  simp only [List.foldl_cons, List.foldl_nil, hgoes, if_true]
  rfl

theorem wave?_phaseEnd {s : State} {team id i : Nat} {w : Wave} (h : s.wave? i = some w) :
    ∃ w', (phaseEnd s.awake team id).wave? i = some w' ∧ w' = { w with held := w'.held, vDirty := w'.vDirty, aDirty := w'.aDirty } ∧
      (w.held = false → w'.held = false) := (calm_phaseEnd s.awake team id).1 i w h

theorem barrierIs_phaseEnd {s : State} {team id i k b : Nat} (h : BarrierIs s i k b) : BarrierIs (phaseEnd s.awake team id) i k b :=
  (calm_phaseEnd s.awake team id).2 i k b h

/-! ## A wait that is satisfied -/

theorem restOf_setWave_grids (s : State) (w : Wave) : (s.setWave w).grids = s.grids := rfl

theorem waves_freshen (s : State) (core : Nat) : (freshen s core).waves = s.waves :=
  foldl_keeps (π := State.waves) (fun _ _ => WavesKept.dropHeld_waves _ _ _) _ _

/-- The wait of a lone wave goes on at its barrier instruction, which retires. -/
theorem finishWait_passes {s : State} {x : Wave} {e : Entry} {xt : Team} {xg : Grid} {xc : Context} {sc : Nat}
    (hx : s.wave? x.id = some x) (hrole : x.role = .solo) (hleft : x.left ≠ 0) (hentry : x.entry? (e.prio, e.pc) = some e)
    (hfind : (x.frontier.find? fun y => y.pc == e.pc && x.issueMask y != 0) = some e) (hteam : s.team? x.team = some xt)
    (hgrid : s.grid? xt.grid = some xg) (hctx : s.ctx? xg.ctx = some xc) :
    ∃ w, (finishWait s x.id e.pc sc).wave? x.id = some w ∧ w.retired = x.retired + 1 ∧
      ∀ o i p pc k, w.block ≠ some (.barrier o i p pc k) := by
  let y : Wave := { x with state := .ready, block := none, sel := some (e.prio, e.pc) }
  let u : State := ({ s with cur := x.id } : State).setWave y
  let c : Issue := ⟨u, y, xt, xg, xc, e, y.issueMask e⟩
  have hy : u.wave? x.id = some y := wave?_setWave_same (s := { s with cur := x.id }) (w := y) hx
  have hissue : issuing u = some c := by
    have hcur : u.wave? u.cur = some y := hy
    have hte : u.team? y.team = some xt := hteam
    have hgr : u.grid? xt.grid = some xg := hgrid
    have hcx : u.ctx? xg.ctx = some xc := hctx
    have hen : y.entry? (e.prio, e.pc) = some e := hentry
    rw [issuing, hcur]
    dsimp only
    rw [show y.sel = some (e.prio, e.pc) from rfl, hte]
    dsimp only
    rw [hen, hgr]
    dsimp only
    rw [hcx]
  let s1 := if 2 ≤ sc then freshen u xt.core else u
  have hs1 : s1.waves = u.waves := by
    show (if 2 ≤ sc then freshen u xt.core else u).waves = _
    split
    · exact waves_freshen _ _
    · rfl
  let w := (advance c (Wave.fenceAt s1.nextId y).count 4).settle
  have hid : w.id = x.id := settle_id _
  have hret : retireOnce c s1 (Wave.fenceAt s1.nextId) 4 = s1.awake.setWave w :=
    (retireOnce_solo (c := c) hrole _ _ _).trans (retire_eq (c := c) hleft _ _ _)
  have hw : (s1.awake.setWave w).wave? x.id = some w := by
    rw [← hid]
    refine wave?_setWave_same (x := y) ?_
    rw [hid]
    exact (wave?_of_waves hs1 _).trans hy
  have hwrole : w.role = .solo := by
    show (advance c _ 4).settle.role = _
    rw [settle_eq]
    exact hrole
  let after : State := { s1.awake.setWave w with cur := s.cur }
  have hafter : after.wave? x.id = some w := hw
  have hfinish : finishWait s x.id e.pc sc = after.updPair x.id fun w => if w.state = .ready then { w with sel := none } else w := by
    rw [finishWait, hx]
    dsimp only
    rw [hfind]
    dsimp only
    rw [show issuing _ = some c from hissue]
    dsimp only
    rw [show retireOnce c _ _ 4 = s1.awake.setWave w from hret]
  have hblock : ∀ o i p pc k, w.block ≠ some (.barrier o i p pc k) := by
    show ∀ o i p pc k, (advance c _ 4).settle.block ≠ _
    unfold Wave.settle
    split
    · intro _ _ _ _ _ h
      cases h
    · intro _ _ _ _ _ h
      cases h
  have hretired : w.retired = x.retired + 1 := by
    show (advance c _ 4).settle.retired = _
    rw [settle_eq]
    rfl
  rw [hfinish, State.updPair, hafter]
  dsimp only
  rw [hwrole]
  dsimp only
  rw [wave?_updWave_same (fun w => by split <;> rfl) hafter]
  refine ⟨_, rfl, ?_, ?_⟩
  · split <;> exact hretired
  · split <;> exact hblock

end Sys2Proof.BarrierArrivals

/-! # The barrier instructions -/

namespace Sys2Proof.BarrierResults

open Sys2Proof.Machine Sys2Proof.Machine.Laws Sys2Proof.FramesKept Sys2Proof.RestKept Sys2Proof.MatrixEffect Sys2Proof.MatrixIssue
open Sys2Proof.SlotConversion Sys2Proof.Barriers Sys2Proof.BarrierArrivals

/-- The state of an issue with an arrival counted at a word, before its wave retires or blocks. -/
def counted (c : Issue) (scope owner id b : Nat) : State := arrived (released c scope).s owner id b

section
variable {s : State} {c : Issue} (h : Runs s c 4) {owner id : Nat} {ow : Team} (hteam : s.team? owner = some ow)
include h

theorem counted_waves (scope b : Nat) : (counted c scope owner id b).waves = s.waves :=
  (drainFor_waves _ _ _).trans (congrArg State.waves (issuing_s h.issues))

theorem released_team (scope : Nat) (i : Nat) : (released c scope).s.team? i = s.team? i :=
  (team?_of_teams (drainFor_teams _ _ _) i).trans (by rw [issuing_s h.issues])

theorem counted_grids (scope b : Nat) : (counted c scope owner id b).grids = s.grids :=
  (grids_of_sparseOf (sparseOf_of_restOf (restOf_drainFor _ _ _))).trans (congrArg State.grids (issuing_s h.issues))

theorem counted_ctxs (scope b : Nat) : (counted c scope owner id b).ctxs = s.ctxs :=
  (ctxs_of_sparseOf (sparseOf_of_restOf (restOf_drainFor _ _ _))).trans (congrArg State.ctxs (issuing_s h.issues))

/-- The teams stand in the same grids. -/
theorem counted_team (scope b : Nat) {i : Nat} {t : Team} (ht : s.team? i = some t) :
    ∃ t', (counted c scope owner id b).team? i = some t' ∧ t'.grid = t.grid := by
  rcases team?_updTeam (s := (released c scope).s) (f := fun t => t.spWrite (8 * id) (leBytes 8 (nextWord b)))
    (fun t => spWrite_id t _ _) owner ((released_team h scope i).trans ht) with h | h
  · exact ⟨_, h, rfl⟩
  · exact ⟨_, h, rfl⟩

include hteam

theorem barrierIs_counted (scope : Nat) : BarrierIs (counted c scope owner id (ow.barrier id)) owner id (nextWord (ow.barrier id)) :=
  barrierIs_arrived ((released_team h scope owner).trans hteam)

/-- An arrival at a team that is there is made. -/
theorem arrive_made (hpeer : ow.peer = none) (harmed : barArmed (ow.barrier id) = true) (hlost : ow.state ≠ .lost)
    (hholds : holdsArrivals s ow = false) (scope : Nat) :
    arrive (released c scope).s owner id = .made (counted c scope owner id (ow.barrier id)) (barPhase (ow.barrier id))
      (barArrived (ow.barrier id) + 1 == barExpected (ow.barrier id)) :=
  arrive_alone ((released_team h scope owner).trans hteam) hpeer harmed hlost
    ((holdsArrivals_released c scope ow).trans (by rw [issuing_s h.issues]; exact hholds))

end

/-- A retirement after an arrival leaves the waiters of each phase as they are. -/
theorem waiters_retired {s S : State} {c : Issue} (h : Runs s c 4) (hS : S.waves = s.waves) {w : Wave} (hid : w.id = c.w.id)
    (hready : w.state = .ready) {team id phase : Nat} (hold : ∀ p ∈ waiters s team id phase, p.1 ≠ c.w.id) :
    waiters (retire c S w 4) team id phase = waiters s team id phase := by
  have hsame : waiters S.awake team id phase = waiters s team id phase := waiters_of_waves hS _ _ _
  rw [retire_eq h.left, ← hsame]
  refine waiters_setWave (waits_of_free (free_advance hready 4) _ _ _) fun p hp => ?_
  rw [hsame] at hp
  rw [settle_id]
  exact (hold p hp).trans_eq hid.symm

theorem retire_teams {c : Issue} (h : c.w.left ≠ 0) (S : State) (w : Wave) : (retire c S w 4).teams = S.teams := by rw [retire_eq h]; rfl

theorem blockOn_teams (c : Issue) (b : Block) (S : State) : (blockOn c b S).teams = S.teams := rfl

theorem getS_retired (c : Issue) (w : Wave) (r : Nat) : (advance c w.count 4).settle.getS r = w.getS r := by
  rw [settle_eq]
  rfl

/-! ## bar.arrive -/

section
variable {s s1 : State} {c : Issue} {o : OpBarPh} (hwf : WellFormed (.barArrive o)) (hsafe : EndsSafety s s1 (barReason o.bs))
  (h : Runs s1 c 4) (hrole : c.w.role = .solo) (hready : c.w.state = .ready) (hsettled : Settled c)
  (howes : owes s1 c.tm.core (barScope o.bs) s1.nextId = false) {ow : Team} (hteam : s1.team? (barOwner c o.bs) = some ow)
  (hpeer : ow.peer = none) (harmed : barArmed (ow.barrier o.id.toNat) = true) (hlost : ow.state ≠ .lost)
  (hholds : holdsArrivals s1 ow = false) (hflags : c.atBoundary (barOwner c o.bs) o.id.toNat = true → c.w.flagsClear = true)

/-- The wave of an arrival before it retires: the phase joined in its register, held where the arrival is at its boundary and does not
complete it. -/
def arriving (c : Issue) (o : OpBarPh) (b : Nat) : Wave :=
  { c.w.setS o.phase.toNat (BitVec.ofNat 64 (barPhase b)) with
    held := c.atBoundary (barOwner c o.bs) o.id.toNat && !(barArrived b + 1 == barExpected b) }

/-- The state once the wave of an arrival has retired. -/
def arriveRetired (c : Issue) (o : OpBarPh) (b : Nat) : State :=
  retire c (counted c (barScope o.bs) (barOwner c o.bs) o.id.toNat b) (arriving c o b) 4

theorem getS_arriving (c : Issue) (o : OpBarPh) (b r : Nat) :
    (arriving c o b).getS r = if r = o.phase.toNat then BitVec.ofNat 64 (barPhase b) else c.w.getS r := getS_setS _ _ _ _

include h in
theorem arriveRetired_wave (b : Nat) : OnlyWave (counted c (barScope o.bs) (barOwner c o.bs) o.id.toNat b) (arriveRetired c o b) c
    (advance c (arriving c o b).count 4).settle := retire_in h (counted_waves h _ _) rfl

include h hteam in
theorem barrierIs_arriveRetired : BarrierIs (arriveRetired c o (ow.barrier o.id.toNat)) (barOwner c o.bs) o.id.toNat
    (nextWord (ow.barrier o.id.toNat)) := (barrierIs_of_teams (retire_teams h.left _ _)).2 (barrierIs_counted h hteam _)

include h hready in
theorem waiters_arriveRetired {b team id phase : Nat} (hold : ∀ p ∈ waiters s1 team id phase, p.1 ≠ c.w.id) :
    waiters (arriveRetired c o b) team id phase = waiters s1 team id phase :=
  waiters_retired (w := arriving c o b) h (counted_waves h _ _) rfl hready hold

include hwf hsafe h hrole hsettled howes hteam hpeer harmed hlost hholds hflags

theorem barArrive_exec (hheld : barArrived (ow.barrier o.id.toNat) + 1 = barExpected (ow.barrier o.id.toNat) →
      boundaryHeld s1 (barOwner c o.bs) o.id.toNat = false) :
    exec (.barArrive o) s = .next (if barArrived (ow.barrier o.id.toNat) + 1 == barExpected (ow.barrier o.id.toNat) then
      phaseDone (arriveRetired c o (ow.barrier o.id.toNat)) (barOwner c o.bs) o.id.toNat (barPhase (ow.barrier o.id.toNat))
      else arriveRetired c o (ow.barrier o.id.toNat)) := by
  have hs := issuing_s h.issues
  have hlegal : okBs o.bs = true := hwf
  have hexec : exec (.barArrive o) s = issueAs s (okBs o.bs) 4 (barReason o.bs) _ := exec_barArrive o s
  rw [hlegal] at hexec
  rw [hexec, issueAs_outcome hsafe h, once_solo hrole]
  dsimp only
  rw [toArrive_go hsettled (by rw [hs]; exact howes) hflags, arrive_made h hteam hpeer harmed hlost hholds]
  · dsimp only
    rw [retireOnce_solo (c := released c (barScope o.bs)) hrole]
    exact congrArg (fun t => Host.Outcome.next (if barArrived (ow.barrier o.id.toNat) + 1 == barExpected (ow.barrier o.id.toNat) then
      phaseDone t (barOwner c o.bs) o.id.toNat (barPhase (ow.barrier o.id.toNat)) else t)) (retire_at h.left _ _)
  · rw [hs, completes_eq hteam harmed, beq_iff_eq]
    exact hheld

theorem barArrive_counts (hmore : barArrived (ow.barrier o.id.toNat) + 1 ≠ barExpected (ow.barrier o.id.toNat)) :
    let b := ow.barrier o.id.toNat
    ∃ t w, exec (.barArrive o) s = .next t ∧ t.wave? c.w.id = some w ∧
      Passed c 4 { c.w with s := w.s, sBad := w.sBad, held := c.atBoundary (barOwner c o.bs) o.id.toNat } w ∧
      w.getS o.phase.toNat = BitVec.ofNat 64 (barPhase b) ∧
      BarrierIs t (barOwner c o.bs) o.id.toNat (barWord ((barArrived b + 1) % 2 ^ 16) (barExpected b) (barPhase b)) := by
  intro b
  have hexec := barArrive_exec hwf hsafe h hrole hsettled howes hteam hpeer harmed hlost hholds hflags fun he => absurd he hmore
  rw [beq_false_of_ne hmore, if_neg Bool.false_ne_true] at hexec
  obtain ⟨hsame, -, -⟩ := arriveRetired_wave (o := o) h b
  refine ⟨_, _, hexec, hsame, ⟨?_, advance_jumped c (arriving c o b) rfl 4⟩, ?_, ?_⟩
  · have hheld : (arriving c o b).held = c.atBoundary (barOwner c o.bs) o.id.toNat := by
      rw [arriving, beq_false_of_ne hmore, Bool.not_false, Bool.and_true]
    rw [← hheld, Moved, settle_eq]
    rfl
  · rw [getS_retired, getS_arriving, if_pos rfl]
  · rw [← nextWord_counted hmore]
    exact barrierIs_arriveRetired h hteam

include hready

theorem barArrive_fills (hfull : barArrived (ow.barrier o.id.toNat) + 1 = barExpected (ow.barrier o.id.toNat))
    (hheld : boundaryHeld s1 (barOwner c o.bs) o.id.toNat = false)
    (hnone : waiters s1 (barOwner c o.bs) o.id.toNat (barPhase (ow.barrier o.id.toNat)) = []) :
    let b := ow.barrier o.id.toNat
    ∃ t w, exec (.barArrive o) s = .next t ∧ t.wave? c.w.id = some w ∧ w.held = false ∧
      w.getS o.phase.toNat = BitVec.ofNat 64 (barPhase b) ∧ (∀ r, r ≠ o.phase.toNat → w.getS r = c.w.getS r) ∧
      BarrierIs t (barOwner c o.bs) o.id.toNat (barWord 0 (barExpected b) (1 - barPhase b)) := by
  intro b
  have hexec := barArrive_exec hwf hsafe h hrole hsettled howes hteam hpeer harmed hlost hholds hflags fun _ => hheld
  have hbeq : (barArrived b + 1 == barExpected b) = true := beq_iff_eq.2 hfull
  have hwait : waiters (arriveRetired c o b) (barOwner c o.bs) o.id.toNat (barPhase b) = [] :=
    (waiters_arriveRetired h hready (by rw [hnone]; exact fun _ hp => absurd hp List.not_mem_nil)).trans hnone
  rw [hbeq, if_pos rfl, phaseDone_alone hwait] at hexec
  obtain ⟨hsame, -, -⟩ := arriveRetired_wave (o := o) h b
  obtain ⟨w', hw', he, hkept⟩ := wave?_phaseEnd (team := barOwner c o.bs) (id := o.id.toNat) hsame
  have hregs : ∀ r, w'.getS r = (arriving c o b).getS r := fun r => by
    rw [← getS_retired c (arriving c o b) r, he]
    rfl
  refine ⟨_, w', hexec, hw', hkept ?_, ?_, fun r hr => ?_, ?_⟩
  · rw [settle_eq]
    show (arriving c o b).held = false
    rw [arriving, hbeq, Bool.not_true, Bool.and_false]
  · rw [hregs, getS_arriving, if_pos rfl]
  · rw [hregs, getS_arriving, if_neg hr]
  · rw [← nextWord_full hfull]
    exact barrierIs_phaseEnd (barrierIs_arriveRetired h hteam)

theorem barArrive_wakes (hfull : barArrived (ow.barrier o.id.toNat) + 1 = barExpected (ow.barrier o.id.toNat))
    (hheld : boundaryHeld s1 (barOwner c o.bs) o.id.toNat = false) {x : Wave} {e : Entry} {xt : Team} {xg : Grid} {xc : Context} {sc : Nat}
    (hone : waiters s1 (barOwner c o.bs) o.id.toNat (barPhase (ow.barrier o.id.toNat)) = [(x.id, e.pc, sc)]) (hxc : x.id ≠ c.w.id)
    (hx : s1.wave? x.id = some x) (hxrole : x.role = .solo) (hxblocked : x.state = .blocked) (hxleft : x.left ≠ 0)
    (hentry : x.entry? (e.prio, e.pc) = some e) (hfind : (x.frontier.find? fun y => y.pc == e.pc && x.issueMask y != 0) = some e)
    (hxt : s1.team? x.team = some xt) (hxg : s1.grid? xt.grid = some xg) (hctx : s1.ctx? xg.ctx = some xc) :
    ∃ t w, exec (.barArrive o) s = .next t ∧ t.wave? x.id = some w ∧ w.retired = x.retired + 1 ∧
      ∀ p pc k, w.block ≠ some (.barrier (barOwner c o.bs) o.id.toNat p pc k) ∨ w.state ≠ .blocked := by
  let b := ow.barrier o.id.toNat
  have hexec := barArrive_exec hwf hsafe h hrole hsettled howes hteam hpeer harmed hlost hholds hflags fun _ => hheld
  have hbeq : (barArrived b + 1 == barExpected b) = true := beq_iff_eq.2 hfull
  obtain ⟨-, hothers, hrest⟩ := arriveRetired_wave (o := o) h b
  have hstill : (arriveRetired c o b).wave? x.id = some x :=
    (hothers x.id hxc).trans ((wave?_of_waves (counted_waves h _ _) _).trans hx)
  have hwait : waiters (arriveRetired c o b) (barOwner c o.bs) o.id.toNat (barPhase b) = [(x.id, e.pc, sc)] := by
    refine (waiters_arriveRetired h hready ?_).trans hone
    rw [hone]
    intro p hp
    rw [List.mem_singleton.1 hp]
    exact hxc
  rw [hbeq, if_pos rfl, phaseDone_one hwait hstill hxblocked] at hexec
  obtain ⟨xt', hxt', hsamegrid⟩ := counted_team (owner := barOwner c o.bs) (id := o.id.toNat) h (barScope o.bs) b hxt
  have hxt'' : (arriveRetired c o b).team? x.team = some xt' := (team?_of_teams (retire_teams h.left _ _) _).trans hxt'
  have hxg' : (arriveRetired c o b).grid? xt'.grid = some xg := by
    rw [hsamegrid, hrest]
    show (counted c (barScope o.bs) (barOwner c o.bs) o.id.toNat b).grids.find? _ = _
    rw [counted_grids h]
    exact hxg
  have hctx' : (arriveRetired c o b).ctx? xg.ctx = some xc := by
    rw [hrest]
    show (counted c (barScope o.bs) (barOwner c o.bs) o.id.toNat b).ctxs.find? _ = _
    rw [counted_ctxs h]
    exact hctx
  obtain ⟨w, hw, hretired, hblock⟩ := finishWait_passes (sc := sc) hstill hxrole hxleft hentry hfind hxt'' hxg' hctx'
  obtain ⟨w', hw', he, -⟩ := wave?_phaseEnd (team := barOwner c o.bs) (id := o.id.toNat) hw
  refine ⟨_, w', hexec, hw', ?_, fun p pc k => .inl ?_⟩
  · rw [he]
    exact hretired
  · rw [he]
    exact hblock _ _ _ _ _

end

/-- Settles O30: an init writes its word (`barInit_done`); an arrival counts (`barArrive_counts`), completes its phase
(`barArrive_fills`), and lets a wave that waits for it go on (`barArrive_wakes`). -/
theorem barrierInitAndArriveResults : Obligations.BarrierInitAndArriveResults := by
  unfold Obligations.BarrierInitAndArriveResults
  refine ⟨fun o s c h hrole hpeer hclean => barInit_done h hpeer hrole hclean, ?_⟩
  intro o s s1 c hwf hsafe h hrole hready hsettled howes id owner ow hteam hpeer harmed hlost hholds hflags b
  refine ⟨barArrive_counts hwf hsafe h hrole hsettled howes hteam hpeer harmed hlost hholds hflags,
    barArrive_fills hwf hsafe h hrole hready hsettled howes hteam hpeer harmed hlost hholds hflags, ?_⟩
  intro hfull hheld x e xt xg xc sc hone hxc hx hxrole hxblocked hxleft hentry hfind hxt hxg hctx
  exact barArrive_wakes hwf hsafe h hrole hready hsettled howes hteam hpeer harmed hlost hholds hflags hfull hheld hone hxc hx hxrole
    hxblocked hxleft hentry hfind hxt hxg hctx

/-! ## bar.wait and bar.sync -/

section
variable {s s1 : State} {c : Issue} {i : Instr} (h : Runs s1 c 4) (hrole : c.w.role = .solo)
include h hrole

/-- The state in which a barrier instruction that acquires goes on. -/
def acquiring (s : State) (core : Nat) (bs : BitVec 3) : State := if bs = 2 then freshen s core else s

omit h hrole in
theorem acquiring_of_scope {bs : BitVec 3} (s : State) (core : Nat) :
    (if 2 ≤ barScope bs then freshen s core else s) = acquiring s core bs := by
  unfold barScope acquiring
  by_cases hb : bs = 2
  · rw [if_pos hb, if_pos hb, if_pos (le_refl 2)]
  · rw [if_neg hb, if_neg hb, if_neg (by decide)]

omit h hrole in
theorem frameOf_freshen (s : State) (core : Nat) : frameOf (freshen s core) = frameOf s :=
  foldl_keeps (π := frameOf) (fun _ _ => frameOf_dropWord _ _ _) _ _

omit h hrole in
theorem frameOf_acquiring (s : State) (core : Nat) (bs : BitVec 3) : frameOf (acquiring s core bs) = frameOf s := by
  unfold acquiring
  split
  · exact frameOf_freshen _ _
  · rfl

/-- A wait goes on where the barrier has another phase, and blocks its wave otherwise. -/
theorem barWaitOn_spec {bs : BitVec 3} {owner id p : Nat} {ow : Team} (hteam : s1.team? owner = some ow)
    (hexec : exec i s = outcome c (barWaitOn c owner id p (barScope bs))) :
    if barPhase (ow.barrier id) ≠ p then
      ∃ t w, exec i s = .next t ∧ OnlyWave (acquiring s1 c.tm.core bs) t c w ∧ Passed c 4 { c.w with block := none, fenced := s1.nextId } w
    else ∃ t, exec i s = .next t ∧ BlockedOn t c (.barrier owner id p c.e.pc (barScope bs)) ∧ t.teams = s1.teams := by
  have hs := issuing_s h.issues
  have hphase : ((c.s.team? owner).map fun t => barPhase (t.barrier id)).getD 0 = barPhase (ow.barrier id) := by
    rw [hs, hteam, Option.map_some, Option.getD_some]
  rw [barWaitOn, hphase] at hexec
  dsimp only at hexec
  rw [acquiring_of_scope, hs] at hexec
  have hframe := frameOf_acquiring s1 c.tm.core bs
  by_cases hp : barPhase (ow.barrier id) ≠ p
  · rw [if_pos hp] at hexec ⊢
    rw [retireOnce_solo hrole, show (acquiring s1 c.tm.core bs).nextId = s1.nextId from congrArg Frame.nextId hframe] at hexec
    let u : Wave := Wave.fenceAt s1.nextId { c.w with block := none }
    refine ⟨_, _, hexec, retire_in (w := u) h (congrArg Frame.waves hframe) rfl, ?_, advance_jumped c u rfl 4⟩
    exact moved_retire c u 4 rfl rfl
  · rw [if_neg hp] at hexec ⊢
    exact ⟨_, hexec, blockOn_in h.issues rfl _, rfl⟩

/-- bar.wait (11 R303). -/
theorem barWait_spec {o : OpBarPh} (hwf : WellFormed (.barWait o)) (hsafe : EndsSafety s s1 (barReason o.bs))
    (hclean : Unpoisoned c [] [o.phase.toNat] []) {ow : Team} (hteam : s1.team? (barOwner c o.bs) = some ow)
    (harmed : barArmed (ow.barrier o.id.toNat) = true) :
    exec (.barWait o) s = outcome c (barWaitOn c (barOwner c o.bs) o.id.toNat ((c.w.getS o.phase.toNat).toNat % 2) (barScope o.bs)) := by
  have hlegal : okBs o.bs = true := hwf
  have harmed' : armedAt c.s (barOwner c o.bs) o.id.toNat = true := by
    rw [armedAt, issuing_s h.issues, hteam, Option.map_some, Option.getD_some, harmed]
  have hexec : exec (.barWait o) s = issueAs s (okBs o.bs) 4 (barReason o.bs) _ := exec_barWait o s
  rw [hlegal] at hexec
  rw [hexec, issueAs_outcome hsafe h, once_solo hrole, poisonRegs_none hclean, faultIf_of_eq_false (by rw [harmed']; rfl), guarded_of_none rfl]

/-- The wave of a bar.sync that completes its phase, before it retires. -/
def passing (c : Issue) (now : Nat) : Wave := Wave.fenceAt now { c.w with block := none }

section
variable {o : OpBarSync} (hwf : WellFormed (.barSync o)) (hsafe : EndsSafety s s1 (barReason o.bs)) (hready : c.w.state = .ready)
  {ow : Team} (hteam : s1.team? (barOwner c o.bs) = some ow)
include hwf hsafe

/-- A bar.sync that has made its arrival waits. -/
theorem barSync_joined {p sc : Nat} (hblock : c.w.block = some (.barrier (barOwner c o.bs) o.id.toNat p c.e.pc sc)) :
    exec (.barSync o) s = outcome c (barWaitOn c (barOwner c o.bs) o.id.toNat p (barScope o.bs)) := by
  have hlegal : okBs o.bs = true := hwf
  have hexec : exec (.barSync o) s = issueAs s (okBs o.bs) 4 (barReason o.bs) _ := exec_barSync o s
  rw [hlegal] at hexec
  rw [hexec, issueAs_outcome hsafe h, once_solo hrole, hblock]
  simp only [and_self, if_true]

/-- The state of a bar.sync that arrives: its phase completed, or its wave blocked. -/
def syncArrived (c : Issue) (o : OpBarSync) (b : Nat) : State :=
  let s := counted c (barScope o.bs) (barOwner c o.bs) o.id.toNat b
  if barArrived b + 1 == barExpected b then
    phaseDone (retire c (acquiring s c.tm.core o.bs) (passing c s.nextId) 4) (barOwner c o.bs) o.id.toNat (barPhase b)
  else blockOn c (.barrier (barOwner c o.bs) o.id.toNat (barPhase b) c.e.pc (barScope o.bs)) s

include hteam

theorem barSync_arrives (hpeer : ow.peer = none) (harmed : barArmed (ow.barrier o.id.toNat) = true) (hblock : c.w.block = none)
    (hsettled : Settled c) (howes : owes s1 c.tm.core (barScope o.bs) s1.nextId = false) (hlost : ow.state ≠ .lost)
    (hholds : holdsArrivals s1 ow = false) (hflags : c.atBoundary (barOwner c o.bs) o.id.toNat = true → c.w.flagsClear = true)
    (hheld : barArrived (ow.barrier o.id.toNat) + 1 = barExpected (ow.barrier o.id.toNat) →
      boundaryHeld s1 (barOwner c o.bs) o.id.toNat = false) :
    exec (.barSync o) s = .next (syncArrived c o (ow.barrier o.id.toNat)) := by
  have hs := issuing_s h.issues
  have hlegal : okBs o.bs = true := hwf
  have hexec : exec (.barSync o) s = issueAs s (okBs o.bs) 4 (barReason o.bs) _ := exec_barSync o s
  rw [hlegal] at hexec
  rw [hexec, issueAs_outcome hsafe h, once_solo hrole, hblock]
  dsimp only
  rw [toArrive_go hsettled (by rw [hs]; exact howes) hflags, arrive_made h hteam hpeer harmed hlost hholds]
  · dsimp only
    rw [syncArrived]
    by_cases hfull : (barArrived (ow.barrier o.id.toNat) + 1 == barExpected (ow.barrier o.id.toNat)) = true
    · rw [if_pos hfull, if_pos hfull, retireOnce_solo (c := released c (barScope o.bs)) hrole, acquiring_of_scope]
      have hnext : (acquiring (counted c (barScope o.bs) (barOwner c o.bs) o.id.toNat (ow.barrier o.id.toNat)) c.tm.core o.bs).nextId =
          (counted c (barScope o.bs) (barOwner c o.bs) o.id.toNat (ow.barrier o.id.toNat)).nextId :=
        congrArg Frame.nextId (frameOf_acquiring _ _ _)
      rw [← hnext]
      exact congrArg (fun t => Host.Outcome.next (phaseDone t (barOwner c o.bs) o.id.toNat (barPhase (ow.barrier o.id.toNat))))
        (retire_at h.left _ _)
    · rw [if_neg hfull, if_neg hfull]
      rfl
  · rw [hs, completes_eq hteam harmed, beq_iff_eq]
    exact hheld

omit hrole hwf hsafe in
include hready in
/-- A bar.sync that completes its phase retires. -/
theorem syncArrived_passes (hfull : barArrived (ow.barrier o.id.toNat) + 1 = barExpected (ow.barrier o.id.toNat))
    (hnone : waiters s1 (barOwner c o.bs) o.id.toNat (barPhase (ow.barrier o.id.toNat)) = []) :
    ∃ w, (syncArrived c o (ow.barrier o.id.toNat)).wave? c.w.id = some w ∧ w.retired = c.w.retired + 1 ∧
      BarrierIs (syncArrived c o (ow.barrier o.id.toNat)) (barOwner c o.bs) o.id.toNat
        (barWord 0 (barExpected (ow.barrier o.id.toNat)) (1 - barPhase (ow.barrier o.id.toNat))) := by
  have hword := barrierIs_counted (owner := barOwner c o.bs) (id := o.id.toNat) h hteam (barScope o.bs)
  have hcounted := counted_waves (owner := barOwner c o.bs) (id := o.id.toNat) h (barScope o.bs) (ow.barrier o.id.toNat)
  rw [syncArrived, beq_iff_eq.2 hfull, if_pos rfl]
  rw [nextWord_full hfull] at hword
  generalize counted c (barScope o.bs) (barOwner c o.bs) o.id.toNat (ow.barrier o.id.toNat) = S at hword hcounted ⊢
  have hframe := frameOf_acquiring S c.tm.core o.bs
  generalize acquiring S c.tm.core o.bs = A at hframe ⊢
  have hwaves : A.waves = s1.waves := (congrArg Frame.waves hframe).trans hcounted
  have hret : (retire c A (passing c S.nextId) 4).teams = S.teams := (retire_teams h.left _ _).trans (congrArg Frame.teams hframe)
  obtain ⟨hsame, -, -⟩ := retire_in h hwaves (w := passing c S.nextId) rfl
  have hwait := waiters_retired (w := passing c S.nextId) (team := barOwner c o.bs) (id := o.id.toNat)
    (phase := barPhase (ow.barrier o.id.toNat)) h hwaves rfl hready (by rw [hnone]; exact fun _ hp => absurd hp List.not_mem_nil)
  rw [phaseDone_alone (hwait.trans hnone)]
  obtain ⟨w', hw', he, -⟩ := wave?_phaseEnd (team := barOwner c o.bs) (id := o.id.toNat) hsame
  refine ⟨w', hw', ?_, barrierIs_phaseEnd ((barrierIs_of_teams hret).2 hword)⟩
  rw [he, settle_eq]
  rfl

end
end

/-- Settles O31: a wait is `barWaitOn_spec`, which a bar.sync that has arrived comes to (`barSync_joined`); one that arrives blocks its
wave or completes its phase (`syncArrived_passes`). -/
theorem barrierWaitResults : Obligations.BarrierWaitResults := by
  unfold Obligations.BarrierWaitResults
  intro goesOn
  refine ⟨?_, ?_⟩
  · intro o s s1 c hwf hsafe h hrole hclean id owner p ow hteam harmed
    exact barWaitOn_spec h hrole hteam (barWait_spec h hrole hwf hsafe hclean hteam harmed)
  intro o s s1 c hwf hsafe h hrole hready id owner ow hteam hpeer harmed b
  refine ⟨fun hblock hsettled howes hlost hholds hflags => ⟨fun hmore => ?_, fun hfull hheld hnone => ?_⟩, fun p sc hblock =>
    barWaitOn_spec h hrole hteam (barSync_joined h hrole hwf hsafe hblock)⟩
  · have hexec := barSync_arrives h hrole hwf hsafe hteam hpeer harmed hblock hsettled howes hlost hholds hflags fun he => absurd he hmore
    rw [syncArrived, beq_false_of_ne hmore, if_neg Bool.false_ne_true] at hexec
    refine ⟨_, hexec, blockOn_in h.issues (counted_waves h _ _) _, ?_⟩
    have hword := barrierIs_counted (id := id) h hteam (barScope o.bs)
    rw [nextWord_counted hmore] at hword
    exact (barrierIs_of_teams (blockOn_teams _ _ _)).2 hword
  · obtain ⟨w, hw, hretired, his⟩ := syncArrived_passes h hready hteam hfull hnone
    exact ⟨_, w, barSync_arrives h hrole hwf hsafe hteam hpeer harmed hblock hsettled howes hlost hholds hflags fun _ => hheld, hw, hretired,
      his⟩

/-! ## Remote and pending arrivals -/

section
variable {s s1 : State} {c : Issue} {o : OpY2} {ow : Team} (hsafe : EndsSafety s s1 4) (h : Runs s1 c 4) (hrole : c.w.role = .solo)
  (hsettled : Settled c) (howes : owes s1 c.tm.core 2 s1.nextId = false) (hclean : Unpoisoned c [] [o.f2.toNat] [])
  (halign : (c.w.getS o.f2.toNat).toNat % 8 = 0) (hrange : (c.w.getS o.f2.toNat).toNat < 2 ^ 20)
  (hword : (c.w.getS o.f2.toNat).toNat % 2 ^ 18 < 256)
  (hgang : gangTeam s1 c.tm c.g ((c.w.getS o.f2.toNat).toNat / 2 ^ 18 % 4) = some ow) (hteam : s1.team? ow.id = some ow)
  (hflags : c.atBoundary ow.id ((c.w.getS o.f2.toNat).toNat % 2 ^ 18 / 8) = true → c.w.flagsClear = true)
  (hheld : boundaryHeld s1 ow.id ((c.w.getS o.f2.toNat).toNat % 2 ^ 18 / 8) = false)

/-- The wave of a remote arrival that completes no phase, before it retires. -/
def remote (c : Issue) (owner id : Nat) : Wave := { c.w with held := c.atBoundary owner id && !false }

include h hteam in
/-- A held arrival is held in the drained state as before. -/
theorem arrive_queued (id : Nat) (hlost : ow.state ≠ .lost) (hholds : holdsArrivals s1 ow = true) :
    arrive (released c 2).s ow.id id = if arrivalsFull s1 ow id then .full else
      .made (holdArrival (released c 2).s ow.id id) (heldPhase (released c 2).s ow id) false := by
  rw [arrive, released_team h, hteam]
  dsimp only
  rw [if_neg hlost, holdsArrivals_released, arrivalsFull_released, issuing_s h.issues, hholds, if_pos rfl]

include hsafe h hrole hsettled howes hclean halign hrange hword hgang hflags hheld

/-- A remote arrival whose address is one of a barrier word is made at the drained state. -/
theorem barRarrive_exec (hmeets : meetsUnarmed s1 ow ((c.w.getS o.f2.toNat).toNat % 2 ^ 18 / 8) = false) :
    exec (.barRarrive o) s = outcome c (match arrive (released c 2).s ow.id ((c.w.getS o.f2.toNat).toNat % 2 ^ 18 / 8) with
      | .unarmed => .error ⟨.barclobber, c.low, (c.w.getS o.f2.toNat).toNat⟩
      | .lost => .ok (retireOnce (released c 2)
        ((released c 2).s.addRec ((released c 2).record 5 0 c.low 0 (c.w.getS o.f2.toNat).toNat 0)) (fun w => w) 4)
      | .full => .ok (blockOn (released c 2) .arrivals (released c 2).s)
      | .made t phase full =>
        let u := retireOnce (released c 2) t (fun w => { w with
          held := (released c 2).atBoundary ow.id ((c.w.getS o.f2.toNat).toNat % 2 ^ 18 / 8) && !full }) 4
        .ok (if full then phaseDone u ow.id ((c.w.getS o.f2.toNat).toNat % 2 ^ 18 / 8) phase else u)) := by
  have hs := issuing_s h.issues
  refine (exec_barRarrive o s).trans ((issueAs_outcome hsafe h _).trans ?_)
  have hgang' : gangTeam c.s c.tm c.g (bitsN (c.w.getS o.f2.toNat).toNat 18 2) = some ow := by
    rw [hs]
    exact hgang
  rw [once_solo hrole]
  dsimp only
  rw [hgang', poisonRegs_none hclean, faultIf_of_eq_false (by simpa using halign), faultIf_of_eq_false (by simp; omega),
    Option.any_some, hs, faultIf_of_eq_false hmeets, guarded_of_none rfl]
  dsimp only
  rw [toArrive_go hsettled (by rw [hs]; exact howes) hflags fun _ => by rw [hs]; exact hheld]
  rfl

end

section
variable {s1 : State} {c : Issue} (h : Runs s1 c 4) (hrole : c.w.role = .solo)
include h hrole

/-- The retirement of a remote arrival that completes no phase. -/
theorem remote_retired (S : State) (owner id : Nat) :
    retireOnce (released c 2) S (fun w => { w with held := (released c 2).atBoundary owner id && !false }) 4 =
      retire c S (remote c owner id) 4 :=
  (retireOnce_solo (c := released c 2) hrole _ _ _).trans (retire_at h.left _ _)

omit h hrole in
theorem remote_passed (owner id : Nat) :
    Passed c 4 { c.w with held := c.atBoundary owner id } (advance c (remote c owner id).count 4).settle := by
  refine ⟨?_, advance_jumped c (remote c owner id) rfl 4⟩
  have hheld : (remote c owner id).held = c.atBoundary owner id := Bool.and_true _
  rw [← hheld]
  exact moved_retire c (remote c owner id) 4 rfl rfl

omit hrole in
/-- A remote arrival that is held leaves its wave as any that completes no phase. -/
theorem holdArrival_waves (owner id : Nat) : (holdArrival (released c 2).s owner id).waves = s1.waves := by
  have hkept : (holdArrival (released c 2).s owner id).waves = (released c 2).s.waves := by
    unfold holdArrival
    split <;> rfl
  exact hkept.trans ((drainFor_waves _ _ _).trans (congrArg State.waves (issuing_s h.issues)))

omit hrole in
theorem holdArrival_new {owner id : Nat} (hnew : ∀ x ∈ s1.arrivals, ¬ (x.team = owner ∧ x.id = id)) :
    (holdArrival (released c 2).s owner id).arrivals = s1.arrivals ++ [⟨owner, id, 1⟩] := by
  have harrivals : (released c 2).s.arrivals = s1.arrivals :=
    (arrivals_of_restOf (restOf_drainFor _ _ _)).trans (congrArg State.arrivals (issuing_s h.issues))
  have hnone : ((released c 2).s.arrivals.any fun a => a.team == owner && a.id == id) = false := by
    rw [harrivals, List.any_eq_false]
    intro x hx
    simpa using hnew x hx
  rw [holdArrival, hnone, if_neg Bool.false_ne_true, ← harrivals]

end

/-- The arrivals held for the one team there is are applied. -/
theorem pendingArrival_applied {s : State} {tm : Team} {id : Nat} (hteams : s.teams = [tm])
    (hstate : tm.state = .resident ∨ tm.state = .ended) (hpeer : tm.peer = none) (harrivals : s.arrivals = [⟨tm.id, id, 1⟩])
    (hheld : boundaryHeld s tm.id id = false) (harmed : barArmed (tm.barrier id) = true)
    (hmore : barArrived (tm.barrier id) + 1 ≠ barExpected (tm.barrier id)) :
    ∃ t, exec (.pendingArrivalApply tm.core) s = .next t ∧ t.arrivals = [] ∧ Machine.get false t.gated tm.core = false ∧
      BarrierIs t tm.id id (barWord ((barArrived (tm.barrier id) + 1) % 2 ^ 16) (barExpected (tm.barrier id))
        (barPhase (tm.barrier id))) := by
  let s' : State := { s with gated := del s.gated tm.core, arrivals := [] }
  have hteam : s'.team? tm.id = some tm := by
    show s.teams.find? _ = _
    rw [hteams, List.find?_cons_of_pos (by simp)]
  have hmine : (s.teams.filter fun t => t.core == tm.core && (t.state == .resident || t.state == .ended) &&
      s.arrivals.any fun a => a.team == t.id) = [tm] := by
    rw [hteams, harrivals, List.filter_cons_of_pos]
    · rfl
    · rcases hstate with hstate | hstate <;> simp [hstate]
  have hgo : ¬ ([tm] = [] ∨ ([tm].any fun t => s.arrivals.any fun a => a.team == t.id && boundaryHeld s t.id a.id) = true) := by
    simp [harrivals, hheld]
  have happly : applyArrival s' tm.id id = some (arrived s' tm.id id (tm.barrier id)) := by
    rw [applyArrival, arriveWord_alone hteam hpeer harmed, beq_false_of_ne hmore]
    rfl
  have happlied : applyArrivals { s with gated := del s.gated tm.core } tm.id = arrived s' tm.id id (tm.barrier id) := by
    have hown : (s.arrivals.filter fun a => a.team == tm.id) = [⟨tm.id, id, 1⟩] := by simp [harrivals]
    have hother : (s.arrivals.filter fun a => a.team != tm.id) = [] := by simp [harrivals]
    unfold applyArrivals
    dsimp only
    rw [hown, hother, List.foldl_cons, List.foldl_nil, List.range_one, List.foldl_cons, List.foldl_nil]
    rw [show applyArrival _ tm.id id = some _ from happly, Option.getD_some]
  refine ⟨wakeArrivals (arrived s' tm.id id (tm.barrier id)).awake, ?_, rfl, get_del_same _ _ _, ?_⟩
  · rw [exec_pendingArrivalApply, execPendingArrivalApply, hmine, if_neg hgo, List.foldl_cons, List.foldl_nil, happlied]
  · rw [← nextWord_counted hmore]
    have hsame : (wakeArrivals (arrived s' tm.id id (tm.barrier id)).awake).teams = (arrived s' tm.id id (tm.barrier id)).teams := rfl
    exact (barrierIs_of_teams hsame).2 (barrierIs_arrived hteam)

/-- Settles O32: a remote arrival counts at its word, is held (`holdArrival_new`), or finds the queue full; what is held is applied
(`pendingArrival_applied`). -/
theorem remoteArrivalResults : Obligations.RemoteArrivalResults := by
  unfold Obligations.RemoteArrivalResults
  refine ⟨?_, fun s tm id hteams hstate hpeer _ harrivals hheld _ => pendingArrival_applied hteams hstate hpeer harrivals hheld⟩
  intro o s s1 c ow hsafe h hrole _ hsettled howes hclean a halign hrange hword hgang hteam id b hlost hflags hheld
  have hexec := barRarrive_exec hsafe h hrole hsettled howes hclean halign hrange hword hgang hflags hheld
  refine ⟨fun hholds hpeer harmed hmore => ?_, fun hholds hroom hnew => ?_, fun hholds hfull => ?_⟩
  · have hmeets : meetsUnarmed s1 ow id = false := by
      rw [meetsUnarmed, armedAt, hteam, Option.map_some, Option.getD_some, harmed, Bool.not_true, Bool.and_false]
    have hexec := hexec hmeets
    rw [arrive_made h hteam hpeer harmed hlost hholds, beq_false_of_ne hmore] at hexec
    dsimp only at hexec
    rw [if_neg Bool.false_ne_true, remote_retired h hrole] at hexec
    obtain ⟨hsame, -, -⟩ := retire_in h (counted_waves h 2 b) (w := remote c ow.id id) rfl
    refine ⟨_, _, hexec, hsame, remote_passed _ _, (barrierIs_of_teams (retire_teams h.left _ _)).2 ?_⟩
    rw [← nextWord_counted hmore]
    exact barrierIs_counted h hteam 2
  · have hexec := hexec (by rw [meetsUnarmed, hholds, Bool.not_true, Bool.and_false, Bool.false_and])
    rw [arrive_queued h hteam _ hlost hholds, hroom, if_neg Bool.false_ne_true] at hexec
    dsimp only at hexec
    rw [if_neg Bool.false_ne_true, remote_retired h hrole] at hexec
    obtain ⟨hsame, -, hrest⟩ := retire_in h (holdArrival_waves h ow.id id) (w := remote c ow.id id) rfl
    refine ⟨_, _, hexec, hsame, remote_passed _ _, ?_⟩
    rw [hrest]
    exact holdArrival_new h hnew
  · have hexec := hexec (by rw [meetsUnarmed, hholds, Bool.not_true, Bool.and_false, Bool.false_and])
    rw [arrive_queued h hteam _ hlost hholds, hfull, if_pos rfl] at hexec
    exact ⟨_, hexec, blockOn_in h.issues ((drainFor_waves _ _ _).trans (congrArg State.waves (issuing_s h.issues))) _⟩

end Sys2Proof.BarrierResults

/-! # Stores held through a translation, and words that a cache does not hold

No operation that drains adds a store to those that the L1s hold; and where a core has none, or a cache lacks a word, performing its stores or
dropping the word changes nothing. -/

namespace Sys2Proof.NothingHeld

open Sys2Proof.Machine Sys2Proof.FramesKept Sys2Proof.HeldStores

/-! ## The stores that are left -/

theorem pend_dropHeld (s : State) (cache word : Nat) : (dropHeld s cache word).pend = s.pend := by
  unfold dropHeld
  split
  · rfl
  · dsimp only
    split
    · exact congrArg Prod.snd (claimsOf_evictBlock _ _)
    · rfl

theorem pend_fillRun (s : State) (cache frame start n hint : Nat) (f : Nat → CWord) : (fillRun s cache frame start n hint f).pend = s.pend :=
  congrArg Prod.snd (claimsOf_fillRun s cache frame start n hint f)

theorem pend_restash (s : State) (core : Nat) : (restash s core).pend = s.pend :=
  foldl_keeps (π := State.pend) (fun s w => by
    split
    · exact (pend_fillRun _ _ _ _ _ _ _).trans (pend_dropHeld _ _ _)
    · rfl) _ _

theorem pend_cleanWord (s : State) (core word : Nat) : (cleanWord s core word).pend = s.pend := by
  unfold cleanWord
  split
  · split <;> rfl
  · rfl

theorem pend_fillTlb (s : State) (room : Nat) (t : Tlb) : (fillTlb s room t).pend = s.pend := by
  unfold fillTlb
  dsimp only
  split
  · rfl
  · split <;> rfl

theorem pend_commitWord (s : State) (word : Nat) (bytes : List (Nat × BitVec 8)) (mk : Mark) : (commitWord s word bytes mk).pend = s.pend :=
  rfl

theorem pend_rekeyWord (old new : Nat) (s : State) (word : Nat) : (rekeyWord old new s word).pend = s.pend := rfl

theorem pend_rekeyPage (s : State) (page new : Nat) : (rekeyPage s page new).pend = s.pend := by
  unfold rekeyPage
  generalize List.range 4096 = l
  dsimp only
  split
  · rfl
  · dsimp only
    exact foldl_keeps (π := State.pend) (f := fun t i => rekeyWord (get 0 s.pageKeys page) new t (4096 * page + i))
      (fun _ _ => pend_rekeyWord _ _ _ _) l s

/-- Steps that add no store, one after another. -/
theorem foldl_pend_sublist {α : Type} {f : State → α → State} (hf : ∀ s x, (f s x).pend.Sublist s.pend) (l : List α) (s : State) :
    (l.foldl f s).pend.Sublist s.pend := by
  induction l generalizing s with
  | nil => exact .refl _
  | cons x l ih => exact (ih _).trans (hf s x)

theorem pend_performAll_sublist (s : State) (p : Pend → Bool) : (performAll s p).pend.Sublist s.pend :=
  foldl_pend_sublist (fun t e => by
    split
    · exact .refl _
    · rw [pend_performPend]
      exact List.erase_sublist) _ _

theorem pend_drainWord_sublist (s : State) (core word : Nat) : (drainWord s core word).pend.Sublist s.pend := by
  have hclean : (cleanWord (performPends s core fun e => e.word == word) core word).pend.Sublist s.pend := by
    rw [pend_cleanWord]
    exact pend_performAll_sublist _ _
  unfold drainWord
  dsimp only
  generalize cleanWord (performPends s core fun e => e.word == word) core word = t at hclean ⊢
  split
  · exact hclean
  · exact hclean

theorem pend_drainCore_sublist (s : State) (core : Nat) (p : Nat → Bool) : (drainCore s core p).pend.Sublist s.pend :=
  (foldl_pend_sublist (fun _ _ => pend_drainWord_sublist _ _ _) _ _).trans (pend_performAll_sublist _ _)

theorem pend_recallOne_sublist (s : State) (t : Tenure) (write : Bool) : (recallOne s t write).pend.Sublist s.pend := by
  unfold recallOne
  dsimp only
  split
  · split
    · exact pend_drainCore_sublist _ _ _
    · exact .refl _
  · exact .refl _

theorem pend_markLeaf_sublist (s : State) (core loc e : Nat) : (markLeaf s core loc e).pend.Sublist s.pend := by
  unfold markLeaf recallWord
  lift_lets
  intro bytes s1 s2
  have h : s2.pend.Sublist s.pend := by
    show (dropHeld _ _ _).pend.Sublist _
    rw [pend_dropHeld]
    exact (pend_drainWord_sublist _ _ _).trans (foldl_pend_sublist (fun _ _ => pend_recallOne_sublist _ _ _) _ _)
  clear_value s2
  dsimp only
  rw [pend_commitWord]
  exact h

theorem pend_noteStash (s : State) (core ctx vpage ppage : Nat) : (noteStash s core ctx vpage ppage).pend = s.pend := by
  unfold noteStash
  dsimp only
  split
  · exact pend_restash _ _
  · rfl

theorem pend_useKey (s : State) (x : Xl) : (useKey s x).pend = s.pend := by
  unfold useKey
  split
  · rfl
  · exact pend_rekeyPage _ _ _

theorem pend_touchLeaf_sublist (s : State) (core : Nat) (write : Bool) (x : Xl) : (touchLeaf s core write x).pend.Sublist s.pend := by
  unfold touchLeaf
  lift_lets
  intro s1 s2 e want s3
  have h1 : s1.pend = s.pend := (pend_noteStash _ _ _ _ _).trans (pend_useKey _ _)
  have h2 : s2.pend.Sublist s1.pend := by
    unfold s2
    split
    · exact foldl_pend_sublist (fun _ _ => pend_drainWord_sublist _ _ _) _ _
    · exact .refl _
  have h3 : s3.pend.Sublist s2.pend := by
    unfold s3
    split
    · exact .refl _
    · exact pend_markLeaf_sublist _ _ _ _
  have h : s3.pend.Sublist s.pend := h1 ▸ h3.trans h2
  split
  · intro t
    rw [pend_fillTlb, pend_fillTlb]
    exact h
  · exact h

theorem pend_touchLeaves_sublist (s : State) (core : Nat) (write : Bool) (xs : List Xl) :
    (touchLeaves s core write xs).pend.Sublist s.pend := foldl_pend_sublist (fun _ _ => pend_touchLeaf_sublist _ _ _ _) _ _

/-! ## Nothing to do -/

theorem neededPends_nil {p : Pend → Bool} {l : List Pend} (h : ∀ e ∈ l, p e = false) : neededPends p l [] = [] := by
  induction l with
  | nil => rfl
  | cons e l ih =>
    rw [neededPends, h e List.mem_cons_self, List.any_nil, Bool.or_self, if_neg Bool.false_ne_true]
    exact ih fun e he => h e (List.mem_cons_of_mem _ he)

theorem performAll_none {s : State} {p : Pend → Bool} (h : ∀ e ∈ s.pend, p e = false) : performAll s p = s := by
  rw [performAll, neededPends_nil fun e he => h e (List.mem_reverse.1 he), List.foldl_nil]

theorem performPends_none {s : State} {core : Nat} {p : Pend → Bool} (h : ∀ e ∈ s.pend, e.core = core → p e = false) :
    performPends s core p = s :=
  performAll_none fun e he => by
    rw [Bool.and_eq_false_imp, beq_iff_eq]
    exact h e he

theorem pendOwed_none {s : State} {core : Nat} {p : Pend → Bool} (h : ∀ e ∈ s.pend, e.core = core → p e = false) :
    pendOwed s core p = false := by
  rw [pendOwed, neededPends_nil fun e he => by
    rw [Bool.and_eq_false_imp, beq_iff_eq]
    exact h e (List.mem_reverse.1 he)]
  rfl

theorem pendBytes_none {s : State} {core word : Nat} (h : ∀ e ∈ s.pend, e.core = core → e.word ≠ word) : pendBytes s core word = [] := by
  have hnone : (s.pend.filter fun e => e.core == core && e.word == word) = [] :=
    List.filter_eq_nil_iff.2 fun e he => by simpa using h e he
  rw [pendBytes, hnone, List.foldl_nil]

/-- A block has a word where it gives one for it. -/
theorem has_iff_word? (b : CBlock) (word : Nat) : b.has word = true ↔ (b.word? word).isSome = true := by
  unfold CBlock.word?
  split
  · next h =>
    have hlt : word % 16 - b.start < b.words.length := by
      simp only [CBlock.has, Bool.and_eq_true, decide_eq_true_eq] at h
      omega
    simp [h, List.getElem?_eq_getElem hlt]
  · next h => simp [h]

theorem not_has_of_held?_none {s : State} {cache word : Nat} (h : held? s cache word = none) {b : CBlock} (hb : b ∈ s.blocks)
    (hcache : b.cache = cache) : b.has word = false := by
  rw [held?, List.findSome?_eq_none_iff] at h
  have hnone := h b (List.mem_filter.2 ⟨hb, beq_iff_eq.2 hcache⟩)
  rw [← Bool.not_eq_true, has_iff_word?, hnone]
  decide

theorem dropHeld_none {s : State} {cache word : Nat} (h : held? s cache word = none) : dropHeld s cache word = s := by
  have hnone : (s.blocks.find? fun b => b.cache == cache && b.has word) = none :=
    List.find?_eq_none.2 fun b hb => by
      rw [Bool.not_eq_true, Bool.and_eq_false_imp, beq_iff_eq]
      exact not_has_of_held?_none h hb
  rw [dropHeld, hnone]

theorem ownCopy_none {s : State} {core word : Nat} (h : held? s core word = none) : ownCopy s core word = none := by
  rw [ownCopy, h]

/-- A core that holds neither a store nor a copy of a word sees what its home holds. -/
theorem coreByte_home {s : State} {core loc : Nat} (hpend : ∀ e ∈ s.pend, e.core = core → e.word ≠ loc / 16)
    (hheld : held? s core (loc / 16) = none) : coreByte s core loc = readHome s loc := by
  rw [coreByte, pendBytes_none hpend, ownCopy_none hheld]
  rfl

end Sys2Proof.NothingHeld

/-! # Monitor wait (11 R299, R300; 10 R283) -/

namespace Sys2Proof.MonitorWait

open Sys2Proof.Machine Sys2Proof.Machine.Laws Sys2Proof.FramesKept Sys2Proof.RestKept Sys2Proof.MatrixEffect Sys2Proof.MatrixIssue
open Sys2Proof.SlotConversion Sys2Proof.Barriers Sys2Proof.BarrierArrivals Sys2Proof.NothingHeld

/-- A grid without stamps has none at any word. -/
theorem stampAt_none {s : State} {g : Grid} (h : g.stamps = []) (loc n : Nat) : stampAt s g loc n = false := by
  unfold stampAt
  split
  · rfl
  · rw [h, List.any_nil]

theorem flushStamps_none {s : State} {part : Nat} (h : ∀ g ∈ s.grids, g.part = part ∨ g.stamps = []) (loc n : Nat) :
    flushStamps s (some part) loc n = s := by
  have hnone : (s.grids.filter fun g => some g.part != some part && stampAt s g loc n) = [] :=
    List.filter_eq_nil_iff.2 fun g hg => by
      rcases h g hg with hp | hs
      · simp [hp]
      · simp [stampAt_none hs]
  rw [flushStamps, hnone, List.foldl_nil]

theorem recallFor_none {s : State} (h : s.tenures = []) (team : Nat) (write : Bool) (locs : List Nat) :
    recallFor s team write locs = some s := by
  rw [recallFor, h]
  rfl

/-- A core sees its home's bytes where it holds neither stores nor copies of the words, and its wave's team and issues hold nothing. -/
theorem viewByte_home {s : State} {w : Wave} {tm : Team} {loc : Nat} (hbuffer : tm.interval.buffer = [])
    (hissues : ∀ h ∈ s.held, h.wave ≠ w.id) (hpend : ∀ e ∈ s.pend, e.core = tm.core → e.word ≠ loc / 16)
    (hheld : held? s tm.core (loc / 16) = none) : viewByte s w tm loc = readHome s loc := by
  have hnone : (s.held.filter fun h => h.wave == w.id) = [] :=
    List.filter_eq_nil_iff.2 fun h hh => by simpa using hissues h hh
  rw [viewByte, hbuffer, hnone]
  exact coreByte_home hpend hheld

theorem core_of_outlineTeam {t u : Team} (h : outlineTeam t = outlineTeam u) : t.core = u.core := by
  show (outlineTeam t).core = (outlineTeam u).core
  rw [h]

theorem interval_of_outlineTeam {t u : Team} (h : outlineTeam t = outlineTeam u) : t.interval = u.interval := by
  show (outlineTeam t).interval = (outlineTeam u).interval
  rw [h]

section
variable {s s1 : State} {c : Issue} {o : OpMwait} {locs : List Nat} {xs : List Xl} (h : Runs s1 c 4) (hrole : c.w.role = .solo)

/-- The state that an mwait's translation leaves. -/
def judged (s : State) (c : Issue) (xs : List Xl) : State := touchLeaves s c.tm.core false xs

/-- Whether the condition of an mwait holds on the bytes at the home. -/
def met (s : State) (c : Issue) (o : OpMwait) (locs : List Nat) : Bool :=
  mwaitHolds o.cond.toNat (if o.wide = 1 then 8 else 4) (leNat (locs.map (readHome s))) (c.w.getS o.val.toNat).toNat

/-- What an mwait comes to once its word is judged. -/
def mwaitEnd (s : State) (c : Issue) (o : OpMwait) (locs : List Nat) : State :=
  if met s c o locs then
    if o.acq = 1 then
      retire c (if 2 ≤ o.scope.toNat then freshen s c.tm.core else s)
        (Wave.fenceAt (if 2 ≤ o.scope.toNat then freshen s c.tm.core else s).nextId c.w) 4
    else retire c s c.w 4
  else blockOn c (.monitor (locs.headD 0) (if o.wide = 1 then 8 else 4)) (armMonitor s c.g.part c.w.id (locs.headD 0))

section
variable (hpend : ∀ e ∈ s1.pend, e.core ≠ c.tm.core)
include hpend

theorem judged_pend : ∀ e ∈ (judged s1 c xs).pend, e.core ≠ c.tm.core :=
  fun e he => hpend e ((pend_touchLeaves_sublist _ _ _ _).subset he)

/-- The value that an mwait judges is the one at the home. -/
theorem mwaitValue_home (h : Runs s1 c 4) (hbuffer : c.tm.interval.buffer = []) (hissues : ∀ h ∈ s1.held, h.wave ≠ c.w.id)
    (hlocs : locs ≠ []) (hhome : (∀ l ∈ locs, isSwm (judged s1 c xs) l = true) ∨
      ∀ l ∈ locs, isSwm (judged s1 c xs) l = false ∧ held? (judged s1 c xs) c.tm.core (l / 16) = none) :
    mwaitValue (judged s1 c xs) c locs = leNat (locs.map (readHome (judged s1 c xs))) := by
  unfold mwaitValue
  rcases hhome with hswm | hcoh
  · obtain ⟨l, hl⟩ := List.exists_mem_of_ne_nil locs hlocs
    rw [if_pos (List.any_eq_true.2 ⟨l, hl, hswm l hl⟩)]
  · rw [if_neg (by simpa using fun l hl => (hcoh l hl).1)]
    have hout := team?_of_outlineOf (outlineOf_touchLeaves s1 c.tm.core false xs) c.tm.id
    rw [issuing_team h.issues, Option.map_some, Option.map_eq_some_iff] at hout
    obtain ⟨tm, htm, he⟩ := hout
    have hfound : ((judged s1 c xs).team? c.tm.id).getD c.tm = tm := by rw [judged, htm, Option.getD_some]
    have hcore : tm.core = c.tm.core := core_of_outlineTeam he
    have hbuf : tm.interval.buffer = [] := (congrArg Interval.buffer (interval_of_outlineTeam he)).trans hbuffer
    have hheld : (judged s1 c xs).held = s1.held := held_of_sparseOf (sparseOf_touchLeaves _ _ _ _)
    rw [hfound]
    congr 1
    refine List.map_congr_left fun l hl => viewByte_home hbuf (by rw [hheld]; exact hissues) (fun e he hc => ?_) ?_
    · exact absurd (hc.trans hcore) (judged_pend hpend e he)
    · rw [hcore]
      exact (hcoh l hl).2

end

/-- The spec of an mwait up to its judgement. -/
theorem mwait_exec (hwf : WellFormed (.mwait o)) (hsafe : EndsSafety s s1 (if o.acq = 1 ∧ 2 ≤ o.scope.toNat then 4 else 0))
    (h : Runs s1 c 4) (hrole : c.w.role = .solo) (halign : (c.w.getS o.addr.toNat).toNat % (if o.wide = 1 then 8 else 4) = 0)
    (htrans : translateSpan s1 c.cx c.tm.core c.w.sysMode .read (c.w.getS o.addr.toNat).toNat (if o.wide = 1 then 8 else 4) = .ok (locs, xs))
    (hclean : Unpoisoned c [] [o.addr.toNat, o.val.toNat] [])
    (hdata : dataFault c [(⟨c.low, locs.map .mem, (c.w.getS o.addr.toNat).toNat⟩, (c.w.getS o.addr.toNat).toNat)] = none)
    (hwaits : readWaits c locs = false) (hslices : slicesFull s1 c.g.part locs = false) (htenures : s1.tenures = [])
    (hstamps : ∀ g ∈ s1.grids, g.part = c.g.part ∨ g.stamps = []) (hpend : ∀ e ∈ s1.pend, e.core ≠ c.tm.core)
    (hbuffer : c.tm.interval.buffer = []) (hissues : ∀ h ∈ s1.held, h.wave ≠ c.w.id)
    (hhome : (∀ l ∈ locs, isSwm (judged s1 c xs) l = true) ∨
      ∀ l ∈ locs, isSwm (judged s1 c xs) l = false ∧ held? (judged s1 c xs) c.tm.core (l / 16) = none) :
    exec (.mwait o) s = .next (mwaitEnd (judged s1 c xs) c o locs) := by
  have hs := issuing_s h.issues
  have hlegal : okMwait o = true := hwf
  have hlen : locs ≠ [] := by
    have hroom : (c.w.getS o.addr.toNat).toNat % 65536 + (if o.wide = 1 then 8 else 4) ≤ 65536 := by
      by_cases hwide : o.wide = 1
      · rw [if_pos hwide] at halign ⊢
        omega
      · rw [if_neg hwide] at halign ⊢
        omega
    rw [← List.length_pos_iff, translateSpan_length htrans hroom]
    split <;> decide
  have hfirst : locs.headD 0 ∈ locs := by
    cases locs with
    | nil => exact absurd rfl hlen
    | cons l ls => exact List.mem_cons_self
  have howed : pendOwed s1 c.tm.core (fun e => e.word == locs.headD 0 / 16) = false :=
    pendOwed_none fun e he hc => absurd hc (hpend e he)
  have hpend' := judged_pend (xs := xs) hpend
  have hflush : flushStamps (judged s1 c xs) (some c.g.part) (locs.headD 0) (if o.wide = 1 then 8 else 4) = judged s1 c xs :=
    flushStamps_none (by rw [show (judged s1 c xs).grids = s1.grids from grids_of_sparseOf (sparseOf_touchLeaves _ _ _ _)]; exact hstamps) _ _
  have hperform : performPends (judged s1 c xs) c.tm.core (fun e => e.word == locs.headD 0 / 16) = judged s1 c xs :=
    performPends_none fun e he hc => absurd hc (hpend' e he)
  have hdrop : (if isSwm (judged s1 c xs) (locs.headD 0) then judged s1 c xs
      else dropWord (judged s1 c xs) c.tm.core (locs.headD 0 / 16)) = judged s1 c xs := by
    rcases hhome with hswm | hcoh
    · rw [if_pos (hswm _ hfirst)]
    · obtain ⟨hswm, hheld⟩ := hcoh _ hfirst
      rw [hswm, if_neg Bool.false_ne_true]
      exact dropHeld_none hheld
  have hvalue := mwaitValue_home (locs := locs) (xs := xs) hpend h hbuffer hissues hlen hhome
  have hexec : exec (.mwait o) s = issueAs s (okMwait o) 4 (if o.acq = 1 ∧ 2 ≤ o.scope.toNat then 4 else 0) _ := exec_mwait o s
  rw [hlegal] at hexec
  rw [hexec, issueAs_outcome hsafe h, once_solo hrole]
  rw [faultIf_of_eq_false (by simpa using halign), guarded_of_none rfl, hs, htrans]
  dsimp only
  rw [poisonRegs_none hclean, hdata, guarded_of_none rfl, hwaits, howed, hslices, Bool.or_self, Bool.or_self, if_neg Bool.false_ne_true,
    recallFor_none htenures]
  dsimp only
  rw [show touchLeaves s1 c.tm.core false xs = judged s1 c xs from rfl, hflush, hperform, hdrop, hvalue]
  rw [mwaitEnd]
  by_cases hmet : met (judged s1 c xs) c o locs = true
  · have hholds : mwaitHolds o.cond.toNat (if o.wide = 1 then 8 else 4) (leNat (locs.map (readHome (judged s1 c xs))))
        (c.w.getS o.val.toNat).toNat = true := hmet
    rw [if_pos hmet, if_pos hholds]
    by_cases hacq : o.acq = 1
    · rw [if_pos hacq, if_pos hacq, retireOnce_solo hrole]
      rfl
    · rw [if_neg hacq, if_neg hacq, retireOnce_solo hrole]
      rfl
  · have hfails : ¬ mwaitHolds o.cond.toNat (if o.wide = 1 then 8 else 4) (leNat (locs.map (readHome (judged s1 c xs))))
        (c.w.getS o.val.toNat).toNat = true := hmet
    rw [if_neg hmet, if_neg hfails]
    rfl

/-- What an mwait leaves where its condition holds: its wave alone has changed, an acquire where it says so. -/
theorem mwaitEnd_met (h : Runs s1 c 4) (hmet : met (judged s1 c xs) c o locs = true) :
    ∃ w, OnlyWave (if o.acq = 1 ∧ 2 ≤ o.scope.toNat then freshen (judged s1 c xs) c.tm.core else judged s1 c xs)
        (mwaitEnd (judged s1 c xs) c o locs) c w ∧
      Passed c 4 { c.w with fenced := if o.acq = 1 then s1.nextId else c.w.fenced } w := by
  have hframe : (judged s1 c xs).waves = s1.waves := WavesKept.touchLeaves_waves _ _ _ _
  have hnext : (judged s1 c xs).nextId = s1.nextId := nextId_of_outlineOf (outlineOf_touchLeaves _ _ _ _)
  have hfresh : frameOf (freshen (judged s1 c xs) c.tm.core) = frameOf (judged s1 c xs) :=
    foldl_keeps (π := frameOf) (fun _ _ => frameOf_dropWord _ _ _) _ _
  rw [mwaitEnd, if_pos hmet]
  generalize judged s1 c xs = S at *
  by_cases hacq : o.acq = 1
  · by_cases hscope : 2 ≤ o.scope.toNat
    · rw [if_pos hacq, if_pos hscope, if_pos ⟨hacq, hscope⟩, if_pos hacq, ← hnext, ← show (freshen S c.tm.core).nextId = S.nextId from
        congrArg Frame.nextId hfresh]
      exact ⟨_, retire_in h ((congrArg Frame.waves hfresh).trans hframe) rfl, moved_retire c (Wave.fenceAt _ c.w) 4 rfl rfl,
        advance_jumped c (Wave.fenceAt (freshen S c.tm.core).nextId c.w) rfl 4⟩
    · rw [if_pos hacq, if_neg hscope, if_neg fun h => hscope h.2, if_pos hacq, ← hnext]
      exact ⟨_, retire_in h hframe rfl, moved_retire c (Wave.fenceAt _ c.w) 4 rfl rfl,
        advance_jumped c (Wave.fenceAt S.nextId c.w) rfl 4⟩
  · rw [if_neg hacq, if_neg fun h => hacq h.1, if_neg hacq]
    exact ⟨_, retire_in h hframe rfl, moved_retire c c.w 4 rfl rfl, advance_jumped c c.w rfl 4⟩

/-- Where it does not hold the wave is blocked, and armed where the table of the slice has room. -/
theorem mwaitEnd_unmet (h : Runs s1 c 4) (hmet : met (judged s1 c xs) c o locs ≠ true) :
    let t := mwaitEnd (judged s1 c xs) c o locs
    let slice := homeSlice (judged s1 c xs) c.g.part (locs.headD 0)
    BlockedOn t c (.monitor (locs.headD 0) (if o.wide = 1 then 8 else 4)) ∧ t.mem = (judged s1 c xs).mem ∧
      t.monitors = (judged s1 c xs).monitors ++ (if ((judged s1 c xs).monitors.filter fun m => m.slice == slice).length < 256 then
        [⟨slice, c.w.id, locs.headD 0 / 16, false, false⟩] else []) := by
  have hwaves : (judged s1 c xs).waves = s1.waves := WavesKept.touchLeaves_waves _ _ _ _
  intro t slice
  have ht : t = blockOn c (.monitor (locs.headD 0) (if o.wide = 1 then 8 else 4))
      (armMonitor (judged s1 c xs) c.g.part c.w.id (locs.headD 0)) := if_neg hmet
  rw [ht]
  unfold armMonitor monitorEntries
  dsimp only
  by_cases hroom : ((judged s1 c xs).monitors.filter fun m => m.slice == slice).length < 256
  · rw [if_neg (Nat.not_le.2 hroom), if_pos hroom]
    exact ⟨blockOn_in h.issues hwaves _, rfl, rfl⟩
  · rw [if_pos (Nat.not_lt.1 hroom), if_neg hroom, List.append_nil]
    exact ⟨blockOn_in h.issues hwaves _, rfl, rfl⟩

end

/-! ## A wave woken -/

theorem wave?_wakeWave {s : State} {w : Wave} (h : s.wave? w.id = some w) :
    (wakeWave s w.id).wave? w.id = some { w with state := .ready, block := none } :=
  wave?_updWave_same (s := { s.awake with monitors := s.monitors.filter fun m => m.wave != w.id })
    (f := fun w => { w with state := .ready, block := none }) (fun _ => rfl) h

theorem monitors_of_block {w : Wave} {loc n : Nat} (hstate : w.state = .blocked) (hblock : w.block = some (.monitor loc n)) :
    w.monitors = true := by
  rw [Wave.monitors, hstate, hblock]
  rfl

/-- Settles O29: an mwait comes to `mwaitEnd` (`mwait_exec`), which passes it or blocks its wave; a write meets the monitors of its word; and
a wave whose monitor is met, or that has none, is woken. -/
theorem monitorWaitResults : Obligations.MonitorWaitResults := by
  unfold Obligations.MonitorWaitResults
  refine ⟨?_, fun s word bytes mk => rfl, fun s w loc n m hwave hstate hblock hm hmine hhit => ?_, fun s w loc n hwave hstate hblock hnone => ?_⟩
  · intro o s s1 c locs xs hwf hsafe h hrole n addr halign htrans hclean hdata hwaits hslices htenures hstamps hpend hbuffer hissues s2 loc
      hhome acquires
    have hexec := mwait_exec hwf hsafe h hrole halign htrans hclean hdata hwaits hslices htenures hstamps hpend hbuffer hissues hhome
    by_cases hmet : met s2 c o locs = true
    · rw [if_pos (show mwaitHolds _ _ _ _ = true from hmet)]
      obtain ⟨w, honly, hpassed⟩ := mwaitEnd_met h hmet
      exact ⟨_, w, hexec, honly, hpassed⟩
    · rw [if_neg (show ¬ mwaitHolds _ _ _ _ = true from hmet)]
      exact ⟨_, hexec, mwaitEnd_unmet h hmet⟩
  · refine ⟨_, ?_, wave?_wakeWave hwave, rfl⟩
    have hmet : (s.monitors.any fun m => m.wave == w.id && m.hit) = true := List.any_eq_true.2 ⟨m, hm, by simp [hmine, hhit]⟩
    rw [exec_monitorWake, execMonitorWake, hwave]
    dsimp only
    rw [monitors_of_block hstate hblock, hmet, Bool.and_self, if_pos rfl]
  · refine ⟨_, ?_, wave?_wakeWave hwave⟩
    have hfree : (s.monitors.any fun m => m.wave == w.id) = false := List.any_eq_false.2 fun m hm => by simpa using hnone m hm
    rw [exec_monitorRepoll, execMonitorRepoll, hwave]
    dsimp only
    rw [monitors_of_block hstate hblock, hfree, Bool.not_false, Bool.and_self, if_pos rfl]

end Sys2Proof.MonitorWait

/-! # Caches without dirty words (09 R246, R268)

Where the cache of a core holds no dirty word of a software-managed page, neither evictions from it nor fills of it write memory, and it
gains no dirty word but one that a fill brings. -/

namespace Sys2Proof.CleanCaches

open Sys2Proof.Machine Sys2Proof.FramesKept

/-- No block of a cache holds a dirty word. -/
def Clean (s : State) (cache : Nat) : Prop := ∀ b ∈ s.blocks, b.cache = cache → ∀ x ∈ b.words, x.isDirty = false

theorem clean_of_cacheWords {s : State} {cache : Nat} (h : cacheWords s cache CWord.isDirty = []) : Clean s cache := by
  intro b hb hcache x hx
  obtain ⟨i, hi, hget⟩ := List.getElem_of_mem hx
  by_contra hdirty
  have hmem : 16 * b.frame + b.start + i ∈ cacheWords s cache CWord.isDirty := by
    refine List.mem_flatMap.2 ⟨b, List.mem_filter.2 ⟨hb, beq_iff_eq.2 hcache⟩, List.mem_map.2 ⟨(x, i), List.mem_filter.2 ⟨?_, ?_⟩, rfl⟩⟩
    · rw [List.mem_iff_getElem]
      exact ⟨i, by simpa using hi, by simp [hget]⟩
    · simpa using hdirty
  rw [h] at hmem
  exact absurd hmem List.not_mem_nil

theorem Clean.of_subset {s t : State} {cache : Nat} (h : Clean s cache) (hsub : ∀ b ∈ t.blocks, b ∈ s.blocks) : Clean t cache :=
  fun b hb => h b (hsub b hb)

theorem isDirty_setWord {b : CBlock} {word : Nat} {y : CWord} (hy : y.isDirty = false) (h : ∀ x ∈ b.words, x.isDirty = false) :
    ∀ x ∈ (b.setWord word y).words, x.isDirty = false := by
  unfold CBlock.setWord
  split
  · intro x hx
    rcases List.mem_or_eq_of_mem_set hx with hx | rfl
    · exact h x hx
    · exact hy
  · exact h

theorem cache_setWord (b : CBlock) (word : Nat) (y : CWord) : (b.setWord word y).cache = b.cache := by
  unfold CBlock.setWord
  split <;> rfl

theorem clean_writeBackWord {s : State} {cache : Nat} (h : Clean s cache) (word : Nat) : Clean (writeBackWord s word) cache := by
  intro b hb hcache
  obtain ⟨b', hb', rfl⟩ := List.mem_map.1 hb
  revert hcache
  split
  · intro hcache
    exact isDirty_setWord rfl (h b' hb' ((cache_setWord _ _ _).symm.trans hcache))
  · exact h b' hb'

/-! ## Evictions -/

section
variable {s : State} {cache : Nat}

/-- A word that leaves writes no memory where it is not a dirty word of an L1. -/
theorem leaveWord_clean {x : CWord} (hx : cache < 512 → x.isDirty = false) (word : Nat) :
    leaveWord s cache word x = s ∨ leaveWord s cache word x = writeBackWord s word := by
  unfold leaveWord
  split
  · split
    · exact .inr rfl
    · exact .inl rfl
  · split
    · next h => exact absurd (hx h) (by simp [CWord.isDirty])
    · exact .inl rfl
  · exact .inl rfl

theorem leaveWord_kept {x : CWord} (hx : cache < 512 → x.isDirty = false) (word : Nat) :
    (leaveWord s cache word x).mem = s.mem ∧ ∀ k, Clean s k → Clean (leaveWord s cache word x) k := by
  rcases leaveWord_clean (s := s) hx word with h | h
  · rw [h]
    exact ⟨rfl, fun _ h => h⟩
  · rw [h]
    exact ⟨rfl, fun _ h => clean_writeBackWord h word⟩

theorem evictBlock_kept {b : CBlock} (hb : b.cache < 512 → ∀ x ∈ b.words, x.isDirty = false) :
    (evictBlock s b).mem = s.mem ∧ ∀ k, Clean s k → Clean (evictBlock s b) k := by
  have hfold : ∀ (l : List (CWord × Nat)) (t : State), (∀ p ∈ l, p.1 ∈ b.words) →
      (l.foldl (fun s p => leaveWord s b.cache (16 * b.frame + b.start + p.2) p.1) t).mem = t.mem ∧
        ∀ k, Clean t k → Clean (l.foldl (fun s p => leaveWord s b.cache (16 * b.frame + b.start + p.2) p.1) t) k := by
    intro l
    induction l with
    | nil => exact fun t _ => ⟨rfl, fun _ h => h⟩
    | cons p l ih =>
      intro t hl
      obtain ⟨hmem, hclean⟩ := leaveWord_kept (s := t) (x := p.1) (fun hc => hb hc _ (hl p List.mem_cons_self)) (16 * b.frame + b.start + p.2)
      obtain ⟨hmem', hclean'⟩ := ih (leaveWord t b.cache (16 * b.frame + b.start + p.2) p.1) fun q hq => hl q (List.mem_cons_of_mem _ hq)
      exact ⟨hmem'.trans hmem, fun k hk => hclean' k (hclean k hk)⟩
  obtain ⟨hmem, hclean⟩ := hfold (b.words.zip (List.range b.words.length)) { s with blocks := s.blocks.erase b } fun p hp =>
    (List.of_mem_zip hp).1
  exact ⟨hmem, fun k hk => hclean k (hk.of_subset fun x hx => List.mem_of_mem_erase hx)⟩

/-- What gives way in a set of an L1 is a block of that L1. -/
theorem cache_of_setOthers {frame : Nat} {b : CBlock} (hb : b ∈ setOthers s cache frame) (hlow : b.cache < 512) :
    b ∈ s.blocks ∧ b.cache = cache := by
  obtain ⟨hb, htest⟩ := List.mem_filter.1 (List.mem_filter.1 hb).1
  refine ⟨hb, ?_⟩
  simp only [sameCache, Bool.and_eq_true, Bool.or_eq_true, beq_iff_eq, decide_eq_true_eq] at htest
  obtain ⟨⟨-, hsame | ⟨⟨hge, -⟩, -⟩⟩, -⟩ := htest
  · exact hsame
  · omega

theorem mem_of_victimBlock {l : List CBlock} {b : CBlock} (h : victimBlock s l = some b) : b ∈ l :=
  (List.mem_filter.1 (List.mem_filter.1 (List.mem_of_getElem? h)).1).1

theorem makeRoom_kept {frame fuel : Nat} {new : List CBlock} {t : State} (hclean : cache < 512 → Clean s cache)
    (h : makeRoom cache frame new fuel s = some t) : t.mem = s.mem ∧ ∀ k, Clean s k → Clean t k := by
  induction fuel generalizing s with
  | zero => cases h
  | succ fuel ih =>
    simp only [makeRoom] at h
    split at h
    · cases h
      exact ⟨rfl, fun _ h => h⟩
    · split at h
      · cases h
      · next b hb =>
        have hmem : b ∈ setOthers s cache frame := by
          have hb := mem_of_victimBlock hb
          split at hb
          · exact hb
          · exact (List.mem_filter.1 hb).1
        obtain ⟨hevict, hkept⟩ := evictBlock_kept (s := s) (b := b) fun hlow => by
          obtain ⟨hin, hcache⟩ := cache_of_setOthers hmem hlow
          exact hclean (hcache ▸ hlow) b hin hcache
        obtain ⟨hmem', hkept'⟩ := ih (s := { evictBlock s b with tick := s.tick + 1 }) (fun hlow => hkept _ (hclean hlow)) h
        exact ⟨hmem'.trans hevict, fun k hk => hkept' k (hkept k hk)⟩

end

/-! ## Fills -/

/-- The words of joined pieces are words of what they join, or of the pieces. -/
theorem mem_joinPieces {f : Nat → CWord} {cache frame hint : Nat} {stash : Bool} {q : CWord → Prop} (hf : ∀ o, q (f o)) {pieces : List (Nat × Nat)}
    {mine : List CBlock} (hmine : ∀ b ∈ mine, b.cache = cache ∧ ∀ x ∈ b.words, q x) :
    ∀ b ∈ joinPieces mine cache frame hint stash f pieces, b.cache = cache ∧ ∀ x ∈ b.words, q x := by
  unfold joinPieces
  induction pieces generalizing mine with
  | nil => exact hmine
  | cons p l ih =>
    refine ih fun b hb => ?_
    unfold joinPiece at hb
    rcases List.mem_append.1 hb with hb | hb
    · exact hmine b (List.mem_filter.1 hb).1
    · rw [List.mem_singleton] at hb
      subst hb
      refine ⟨rfl, fun x hx => ?_⟩
      rcases List.mem_append.1 hx with hx | hx
      · rcases List.mem_append.1 hx with hx | hx
        · obtain ⟨b, hb, hx⟩ := List.mem_flatMap.1 hx
          exact (hmine b (List.mem_filter.1 hb).1).2 x hx
        · obtain ⟨i, -, rfl⟩ := List.mem_map.1 hx
          exact hf _
      · obtain ⟨b, hb, hx⟩ := List.mem_flatMap.1 hx
        exact (hmine b (List.mem_filter.1 hb).1).2 x hx

theorem mem_hintedBlocks {s : State} {f : Nat → CWord} {cache frame hint : Nat} {q : CWord → Prop} (hf : ∀ o, q (f o))
    {pieces : List (Nat × Nat)} {mine : List CBlock} (hmine : ∀ b ∈ mine, b.cache = cache ∧ ∀ x ∈ b.words, q x) :
    ∀ b ∈ hintedBlocks s mine cache frame hint f pieces, b.cache = cache ∧ ∀ x ∈ b.words, q x := by
  unfold hintedBlocks
  dsimp only
  split <;> exact mem_joinPieces hf hmine

/-- A fill with clean words writes no memory where an L1 that it fills has no dirty word, and it makes no cache dirty. -/
theorem fillRun_kept {s : State} {cache : Nat} (hclean : cache < 512 → Clean s cache) (frame start n hint : Nat) {f : Nat → CWord}
    (hf : ∀ o, (f o).isDirty = false) : (fillRun s cache frame start n hint f).mem = s.mem ∧
      ∀ k, Clean s k → Clean (fillRun s cache frame start n hint f) k := by
  unfold fillRun
  lift_lets
  intro here rest len mapped lacks pieces stashed own mine s1
  have hhere : ∀ k, Clean s k → ∀ l : List CBlock, (∀ b ∈ l, b ∈ here) →
      ∀ b ∈ l, b.cache = cache ∧ ∀ x ∈ b.words, k = cache → x.isDirty = false := by
    intro k hk l hl b hb
    obtain ⟨hin, htest⟩ := List.mem_filter.1 (hl b hb)
    simp only [Bool.and_eq_true, beq_iff_eq] at htest
    exact ⟨htest.1, fun x hx hkc => hk b hin (htest.1.trans hkc.symm) x hx⟩
  have hmine : ∀ b ∈ mine, b ∈ here := fun b hb => (List.mem_filter.1 hb).1
  have h1 : s1.mem = s.mem ∧ ∀ k, Clean s k → Clean s1 k := by
    unfold s1
    split
    · exact ⟨rfl, fun _ h => h⟩
    · refine ⟨rfl, fun k hk b hb hcache => ?_⟩
      rcases List.mem_append.1 hb with hb | hb
      · rcases List.mem_append.1 hb with hb | hb
        · exact hk b (List.mem_filter.1 hb).1 hcache
        · exact hk b (List.mem_filter.1 (hmine b hb)).1 hcache
      · obtain ⟨hc, hx⟩ := mem_joinPieces (q := fun x => k = cache → x.isDirty = false) (fun o _ => hf o)
          (hhere k hk (here.filter (·.stash)) fun b hb => (List.mem_filter.1 hb).1) b hb
        exact fun x hx' => hx x hx' (hcache.symm.trans hc)
  split
  · exact h1
  · intro new
    split
    · next t ht =>
      obtain ⟨hm, hk'⟩ := makeRoom_kept (fun hlow => h1.2 cache (hclean hlow)) ht
      refine ⟨hm.trans h1.1, fun k hk b hb hcache => ?_⟩
      rcases List.mem_append.1 hb with hb | hb
      · exact hk' k (h1.2 k hk) b (List.mem_filter.1 hb).1 hcache
      · obtain ⟨hc, hx⟩ := mem_hintedBlocks (q := fun x => k = cache → x.isDirty = false) (fun o _ => hf o) (hhere k hk mine hmine) b hb
        exact fun x hx' => hx x hx' (hcache.symm.trans hc)
    · exact h1

/-- Words dropped from a cache without dirty words. -/
theorem dropHeld_kept {s : State} {cache : Nat} (hclean : cache < 512 → Clean s cache) (word : Nat) :
    (dropHeld s cache word).mem = s.mem ∧ ∀ k, Clean s k → Clean (dropHeld s cache word) k := by
  unfold dropHeld
  split
  · exact ⟨rfl, fun _ h => h⟩
  · next b hb =>
    have hin : b ∈ s.blocks := List.mem_of_find?_eq_some hb
    have hcache : b.cache = cache := by
      have := List.find?_some hb
      simp only [Bool.and_eq_true, beq_iff_eq] at this
      exact this.1
    dsimp only
    split
    · exact evictBlock_kept fun hlow => hclean (hcache ▸ hlow) b hin hcache
    · refine ⟨rfl, fun k hk x hx hxk => ?_⟩
      rcases List.mem_append.1 hx with hx | hx
      · exact hk x (List.mem_of_mem_erase hx) hxk
      · unfold CBlock.split at hx
        split at hx
        · have hpart := (List.mem_filter.1 hx).1
          rw [List.mem_pair] at hpart
          rcases hpart with rfl | rfl
          · exact fun y hy => hk b hin hxk y (List.mem_of_mem_take hy)
          · exact fun y hy => hk b hin hxk y (List.mem_of_mem_drop hy)
        · rw [List.mem_singleton] at hx
          subst hx
          exact hk _ hin hxk

/-- A word held in a cache without dirty words is not dirty. -/
theorem Clean.held {s : State} {cache word : Nat} {x : CWord} (h : Clean s cache) (hx : held? s cache word = some x) : x.isDirty = false := by
  obtain ⟨b, hb, hword⟩ := List.exists_of_findSome?_eq_some hx
  obtain ⟨hin, hcache⟩ := List.mem_filter.1 hb
  unfold CBlock.word? at hword
  split at hword
  · exact h b hin (beq_iff_eq.1 hcache) x (List.mem_of_getElem? hword)
  · cases hword

/-- What the stash takes over of a clean cache writes no memory. -/
theorem restash_mem {s : State} {core : Nat} (h : Clean s core) : (restash s core).mem = s.mem := by
  have hfold : ∀ (l : List Nat) (t : State), Clean t core → (l.foldl (fun s w => match held? s core w with
      | some x => fillRun (dropHeld s core w) core (w / 16) (w % 16) 1 0 fun _ => x
      | none => s) t).mem = t.mem := by
    intro l
    induction l with
    | nil => exact fun _ _ => rfl
    | cons w l ih =>
      intro t ht
      rw [List.foldl_cons]
      split
      · next x hx =>
        obtain ⟨hdrop, hkept⟩ := dropHeld_kept (fun _ => ht) w
        obtain ⟨hfill, hkept'⟩ := fillRun_kept (fun _ => hkept _ ht) (w / 16) (w % 16) 1 0 (f := fun _ => x) fun _ => ht.held hx
        exact (ih _ (hkept' _ (hkept _ ht))).trans (hfill.trans hdrop)
      · exact ih _ ht
  exact hfold _ s h

end Sys2Proof.CleanCaches

/-! # Pin windows and the stash (11 R316, R323) -/

namespace Sys2Proof.Windows

open Sys2Proof.Machine Sys2Proof.Machine.Laws Sys2Proof.FramesKept Sys2Proof.RestKept Sys2Proof.MatrixEffect Sys2Proof.MatrixIssue
open Sys2Proof.SlotConversion Sys2Proof.Barriers Sys2Proof.BarrierResults Sys2Proof.CleanCaches

/-! ## What the windows keep -/

section
variable {s t : State}

theorem waves_of_sparseOf (h : sparseOf t = sparseOf s) : t.waves = s.waves := by
  have h := congrArg State.waves h
  unfold sparseOf restOf at h
  exact h

theorem waves_of_restOf (h : restOf t = restOf s) : t.waves = s.waves := waves_of_sparseOf (sparseOf_of_restOf h)

end

theorem restOf_rehome (s : State) (part : Nat) (pages : List Nat) (back : Bool) : restOf (rehome s part pages back) = restOf s :=
  (foldl_keeps (π := restOf) (fun _ _ => restOf_fillRun _ _ _ _ _ _ _) _ _).trans restOf_caches

theorem restOf_squeeze (cache frame fuel : Nat) (s : State) : restOf (squeeze cache frame fuel s) = restOf s := by
  induction fuel generalizing s with
  | zero => rfl
  | succ fuel ih =>
    unfold squeeze
    dsimp only
    split
    · rfl
    · split
      · rfl
      · exact (ih _).trans (restOf_caches.trans (restOf_evictBlock _ _))

theorem restOf_squeezeSlices (s : State) (slices : List Nat) : restOf (squeezeSlices s slices) = restOf s :=
  foldl_keeps (π := restOf) (fun _ _ => restOf_squeeze _ _ _ _) _ _

theorem pinWindow_waves (c : Issue) (d : List (BitVec 8)) : (pinWindow c d).1.waves = c.s.waves := by
  unfold pinWindow
  dsimp only
  split
  · rfl
  split
  · rfl
  split
  · rfl
  split
  · rfl
  split
  · rfl
  split
  · rfl
  · next l _ _ _ _ _ _ _ =>
    have htouched := waves_of_sparseOf (sparseOf_touchLeaves c.s c.tm.core false (l.map fun p => p.2.2))
    exact (waves_of_restOf ((restOf_rehome _ _ _ _).trans (restOf_squeezeSlices _ _))).trans htouched

theorem restOf_endWindow (s : State) (p : Pin) : restOf (endWindow s p) = restOf
    { s.updCtx p.ctx (fun x => { x with pinUsed := x.pinUsed - winUnits p.slices.length p.budget }) with pins := s.pins.erase p } :=
  restOf_rehome _ _ _ _

/-! ## One uniform register set -/

/-- A wave of which only uniform registers have changed retires. -/
theorem setsS_of_wave {c : Issue} {w : Wave} (hw : ({ c.w with s := w.s, sBad := w.sBad } : Wave) = w) {l : List (Nat × Word)}
    (hget : ∀ r, w.getS r = match l.find? fun p => p.1 == r with
      | some p => p.2
      | none => c.w.getS r) : SetsS c (advance c w.count 4).settle l := by
  have hs : (advance c w.count 4).settle.s = w.s := by rw [settle_eq]; rfl
  have hbad : (advance c w.count 4).settle.sBad = w.sBad := by rw [settle_eq]; rfl
  refine ⟨⟨?_, advance_jumped c w (congrArg Wave.frontier hw).symm 4⟩, fun r => (getS_retired c w r).trans (hget r)⟩
  rw [hs, hbad, hw]
  exact moved_retire c w 4 (congrArg Wave.left hw).symm (congrArg Wave.retired hw).symm

theorem setsS_retired (c : Issue) (r : Nat) (x : Word) : SetsS c (advance c (c.w.setS r x).count 4).settle [(r, x)] := by
  refine setsS_of_wave rfl fun r' => ?_
  rw [getS_setS, List.find?_cons]
  by_cases hr : r' = r
  · rw [if_pos hr, hr, beq_self_eq_true]
  · rw [if_neg hr, beq_false_of_ne (Ne.symm hr), List.find?_nil]

/-- A wave that sets one register and retires in a state with the waves of its issue. -/
theorem setsS_of_retire {s1 S : State} {c : Issue} (h : Runs s1 c 4) (hS : S.waves = s1.waves) (r : Nat) (x : Word) :
    ∃ w, (retire c S (c.w.setS r x) 4).wave? c.w.id = some w ∧ SetsS c w [(r, x)] :=
  ⟨_, (retire_in h hS (w := c.w.setS r x) rfl).1, setsS_retired c r x⟩

theorem retire_pins {c : Issue} (hl : c.w.left ≠ 0) (S : State) (w : Wave) (len : Nat) : (retire c S w len).pins = S.pins := by
  rw [retire_eq hl]
  rfl

theorem retire_mem {c : Issue} (hl : c.w.left ≠ 0) (S : State) (w : Wave) (len : Nat) : (retire c S w len).mem = S.mem := by
  rw [retire_eq hl]
  rfl

/-- What the reads of a descriptor at an offset, with no store to be refused, hand on. -/
theorem withSp_read {c : Issue} {off room at' n : Nat} {r : Found} {regs : Option Flt} {k : Issue → List (BitVec 8) → Except Flt State}
    (halign : off % 64 = 0) (hroom : off + room ≤ c.g.launch.spBytes) (hread : SpRead c at' n r) (hregs : regs = none) :
    withSp c off room at' n none regs k = k (touching c r) (bytesAt c r) := by
  have hplace : firstFault [faultIf c (off % 64 != 0) .align off, faultIf c (decide (c.g.launch.spBytes < off + room)) .perm off] = none := by
    rw [faultIf_of_eq_false (by simpa using halign), faultIf_of_eq_false (by simpa using hroom)]
    rfl
  rw [withSp, withSpAnd, guarded_of_none hplace, hread.1]
  dsimp only
  rw [guarded_of_none]
  · rfl
  · rw [hregs, hread.2]
    rfl

theorem pin_done {s s1 : State} {c : Issue} (hsafe : EndsSafety s s1 3) (h : Runs s1 c 4) (hrole : c.w.role = .solo) {o : OpY12} {r : Found}
    (hclean : Unpoisoned c [] [o.f2.toNat] []) (halign : (c.w.getS o.f2.toNat).toNat % 64 = 0)
    (hroom : (c.w.getS o.f2.toNat).toNat + 64 ≤ c.g.launch.spBytes) (hread : SpRead c (c.w.getS o.f2.toNat).toNat 64 r) :
    exec (.pin o) s = .next (retire c (pinWindow (touching c r) (bytesAt c r)).1
      (c.w.setS o.f1.toNat (BitVec.ofNat 64 (pinWindow (touching c r) (bytesAt c r)).2)) 4) := by
  refine (issueAs_outcome hsafe h _).trans ?_
  dsimp only
  rw [once_solo hrole, withSp_read halign hroom hread (poisonRegs_none hclean), retireOnce_solo (c := touching c r) hrole]
  exact congrArg Host.Outcome.next (retire_at h.left _ _)

theorem unpin_exec {s s1 : State} {c : Issue} (hsafe : EndsSafety s s1 3) (h : Runs s1 c 4) (hrole : c.w.role = .solo) {o : OpY12}
    (hclean : Unpoisoned c [] [o.f2.toNat] []) {p? : Option Pin}
    (hp : (s1.pins.find? fun p => p.ctx == c.cx.id && p.num == (c.w.getS o.f2.toNat).toNat) = p?) :
    exec (.unpin o) s = .next (retire c (p?.elim s1 (endWindow s1)) (c.w.setS o.f1.toNat (p?.elim 7 fun _ => 0)) 4) := by
  refine (issueAs_outcome hsafe h _).trans ?_
  dsimp only
  rw [once_solo hrole, guarded_of_none (by rw [poisonRegs_none hclean]; rfl), issuing_s h.issues, hp]
  cases p? <;> exact congrArg (fun t => outcome c (.ok t)) (retireOnce_solo hrole _ _ _)

/-! ## The stash -/

/-- The mappings of each team. -/
def stashesOf (s : State) : List (Nat × List Stash) := s.teams.map fun t => (t.id, t.stash)

theorem stashesOf_restOf {s t : State} (h : restOf t = restOf s) : stashesOf t = stashesOf s := by
  rw [stashesOf, teams_of_restOf h, stashesOf]

theorem stashesOf_updTeam (s : State) (i : Nat) {f : Team → Team} (hf : ∀ t, ((f t).id, (f t).stash) = (t.id, t.stash)) :
    stashesOf (s.updTeam i f) = stashesOf s := by
  unfold stashesOf State.updTeam
  rw [List.map_map]
  refine List.map_congr_left fun t _ => ?_
  rw [Function.comp_apply]
  split
  · exact hf t
  · rfl

theorem stashesOf_spWriteBoth (s : State) (team o : Nat) (bytes : List (BitVec 8)) : stashesOf (spWriteBoth s team o bytes) = stashesOf s := by
  have hw : ∀ (s : State) (i : Nat), stashesOf (s.updTeam i fun t => t.spWrite o bytes) = stashesOf s :=
    fun s i => stashesOf_updTeam s i fun _ => rfl
  unfold spWriteBoth
  split
  · rfl
  · dsimp only
    split
    · rw [hw, hw]
    · exact hw _ _

theorem stashesOf_engineSp (s : State) (tm : Team) (o : Nat) (l : List (BitVec 8 × Bool)) : stashesOf (engineSp s tm o l) = stashesOf s :=
  (foldl_keeps (π := stashesOf) (fun s i => stashesOf_updTeam s i (by intro _; rfl)) _ _).trans (stashesOf_spWriteBoth _ _ _ _)

theorem stashesOf_unmapBlock (s : State) (cx : Context) (tm : Team) (m : Stash) (k : Nat) :
    stashesOf (unmapBlock s cx tm m k) = stashesOf s := by
  unfold unmapBlock
  split
  · rfl
  · exact (stashesOf_restOf (restOf_drainCore _ _ _)).trans (stashesOf_engineSp _ _ _ _)

theorem waves_unmapBlock (s : State) (cx : Context) (tm : Team) (m : Stash) (k : Nat) : (unmapBlock s cx tm m k).waves = s.waves := by
  unfold unmapBlock
  split
  · rfl
  · exact (waves_of_restOf (restOf_drainCore _ _ _)).trans (waves_of_outlineOf (outlineOf_engineSp _ _ _ _))

theorem restOf_unstash (s : State) (core : Nat) : restOf (unstash s core) = restOf s :=
  foldl_keeps (π := restOf) (fun _ _ => (restOf_dropWord _ _ _).trans (restOf_drainWord _ _ _)) _ _

theorem stash_of_stashesOf {s t : State} (h : stashesOf t = stashesOf s) {i : Nat} {x : Team} (hx : s.team? i = some x) :
    ∃ y, t.team? i = some y ∧ y.stash = x.stash := by
  have hfind : ∀ u : State, (u.team? i).map (fun t => (t.id, t.stash)) = (stashesOf u).find? fun p => p.1 == i := fun u => by
    rw [stashesOf, List.find?_map]
    rfl
  have hsame := (hfind t).trans ((congrArg _ h).trans (hfind s).symm)
  rw [hx, Option.map_some, Option.map_eq_some_iff] at hsame
  obtain ⟨y, hy, he⟩ := hsame
  exact ⟨y, hy, congrArg Prod.snd he⟩

/-- A mapping of a team outside a pair ended: that one alone. -/
theorem unmap_stash {s : State} {cx : Context} {tm : Team} {m : Stash} (hpeer : tm.peer = none) (hteam : s.team? tm.id = some tm) :
    (unmap s cx tm m).waves = s.waves ∧ ∃ t, (unmap s cx tm m).team? tm.id = some t ∧
      t.stash = tm.stash.filter fun y => y.spBase != m.spBase := by
  have hboth : tm.both = [tm.id] := by rw [Team.both, hpeer]; rfl
  have hstash := foldl_keeps (π := stashesOf) (fun s k => stashesOf_unmapBlock s cx tm m k) (List.range (m.len / 256)) s
  have hwaves := foldl_keeps (π := State.waves) (fun s k => waves_unmapBlock s cx tm m k) (List.range (m.len / 256)) s
  unfold unmap
  dsimp only
  rw [hboth]
  generalize (List.range (m.len / 256)).foldl (fun s k => unmapBlock s cx tm m k) s = S at hstash hwaves ⊢
  obtain ⟨x, hx, hsx⟩ := stash_of_stashesOf hstash hteam
  refine ⟨(waves_of_restOf (restOf_unstash _ _)).trans hwaves, { x with stash := x.stash.filter fun y => y.spBase != m.spBase }, ?_, ?_⟩
  · rw [team?_of_teams (teams_of_restOf (restOf_unstash _ _))]
    exact team?_updTeam_same (f := fun t => { t with stash := t.stash.filter fun x => x.spBase != m.spBase }) (fun _ => rfl) hx
  · dsimp only
    rw [hsx]

theorem sunmap_exec {s s1 : State} {c : Issue} (hsafe : EndsSafety s s1 3) (h : Runs s1 c 4) (hrole : c.w.role = .solo) {o : OpY12}
    (hclean : Unpoisoned c [] [o.f2.toNat] []) (hbusy : c.teamBusy = false) (hrest : storesRest s1 c.tm = true) {m? : Option Stash}
    (hm : (c.tm.stash.find? fun m => m.spBase == (c.w.getS o.f2.toNat).toNat) = m?) :
    exec (.sunmap o) s = .next (retire c (m?.elim s1 (unmap s1 c.cx c.tm)) (c.w.setS o.f1.toNat (m?.elim 5 fun _ => 0)) 4) := by
  refine (issueAs_outcome hsafe h _).trans ?_
  dsimp only
  rw [once_solo hrole, guarded_of_none (by rw [poisonRegs_none hclean]; rfl), issuing_s h.issues, hbusy, hrest, hm]
  cases m? <;> exact congrArg (fun t => outcome c (.ok t)) (retireOnce_solo hrole _ _ _)

theorem smap_done {s s1 : State} {c : Issue} (hsafe : EndsSafety s s1 3) (h : Runs s1 c 4) (hrole : c.w.role = .solo) {o : OpY123}
    (hwf : WellFormed (.smap o)) (hclean : Unpoisoned c [] [o.f2.toNat, o.f2.toNat + 1, o.f3.toNat] []) :
    let base := (c.w.getS o.f2.toNat).toNat
    let len := (c.w.getS (o.f2.toNat + 1)).toNat
    let sp := (c.w.getS o.f3.toNat).toNat
    exec (.smap o) s = .next (retire c (if smapCode c base len sp = 0 then mapStash c base len sp else s1)
      (c.w.setS o.f1.toNat (BitVec.ofNat 64 (smapCode c base len sp))) 4) := by
  intro base len sp
  have heven : evenReg o.f2 = true := hwf
  refine (congrArg (fun b => issueAs s b 4 3 _) heven).trans ((issueAs_outcome hsafe h _).trans ?_)
  dsimp only
  rw [once_solo hrole, guarded_of_none (by rw [poisonRegs_none hclean]; rfl), retireOnce_solo hrole]
  exact congrArg (fun S => outcome c (.ok (retire c (if smapCode c base len sp = 0 then mapStash c base len sp else S) _ 4)))
    (issuing_s h.issues)

/-- What a mapping that may stand satisfies. -/
theorem smapCode_zero {c : Issue} {base len sp : Nat} (h : smapCode c base len sp = 0) : base % 256 = 0 ∧ len % 256 = 0 ∧ sp % 256 = 0 ∧
    256 ≤ len ∧ 256 ≤ sp ∧ len ≤ 65536 ∧ sp + len ≤ c.g.launch.spBytes := by
  unfold smapCode at h
  split at h
  · cases h
  split at h
  · cases h
  · omega

/-- A mapping of a team outside a pair made: that one alone. -/
theorem mapStash_stash {s : State} {c : Issue} (h : Runs s c 4) (hpeer : c.tm.peer = none) (base len sp : Nat) :
    (mapStash c base len sp).waves = s.waves ∧ (cacheWords s c.tm.core CWord.isDirty = [] → (mapStash c base len sp).mem = s.mem) ∧
      ∃ t, (mapStash c base len sp).team? c.tm.id = some t ∧ t.stash = c.tm.stash ++ [⟨base, len, sp, rangePages c base len⟩] := by
  have hboth : c.tm.both = [c.tm.id] := by rw [Team.both, hpeer]; rfl
  unfold mapStash
  rw [hboth, issuing_s h.issues]
  refine ⟨(waves_of_restOf (restOf_restash _ _)).trans rfl, fun hclean => restash_mem (clean_of_cacheWords hclean),
    { c.tm with stash := c.tm.stash ++ [⟨base, len, sp, rangePages c base len⟩] }, ?_, rfl⟩
  rw [team?_of_teams (teams_of_restOf (restOf_restash _ _))]
  exact team?_updTeam_same (f := fun t => { t with stash := t.stash ++ [⟨base, len, sp, rangePages c base len⟩] }) (fun _ => rfl)
    (issuing_team h.issues)

/-- Settles O37: each retires with its status (`setsS_of_retire`) in the state of its own effect: `pinWindow`, `endWindow`, `unmap` and
`mapStash`, which leave the waves. -/
theorem windowResults : Obligations.WindowResults := by
  unfold Obligations.WindowResults
  intro s s1 c hsafe h hrole hpeer
  have hteam := issuing_team h.issues
  refine ⟨?_, fun o hclean => ⟨?_, fun hbusy hrest => ?_⟩, ?_⟩
  · intro o r hclean off halign hroom hread p
    have hwaves : p.1.waves = s1.waves := (pinWindow_waves _ _).trans ((waves_of_sparseOf (sparseOf_touchLeaves _ _ _ _)).trans
      (congrArg State.waves (issuing_s h.issues)))
    obtain ⟨w, hw, hset⟩ := setsS_of_retire h hwaves o.f1.toNat (BitVec.ofNat 64 p.2)
    exact ⟨_, w, pin_done hsafe h hrole hclean halign hroom hread, hw, hset, retire_pins h.left _ _ _⟩
  · split
    · next p hp =>
      have hend := restOf_endWindow s1 p
      obtain ⟨w, hw, hset⟩ := setsS_of_retire h ((waves_of_restOf hend).trans rfl) o.f1.toNat 0
      exact ⟨_, w, unpin_exec hsafe h hrole hclean hp, hw, hset,
        (retire_pins h.left _ _ _).trans ((pins_of_sparseOf (sparseOf_of_restOf hend)).trans rfl)⟩
    · next hp =>
      obtain ⟨w, hw, hset⟩ := setsS_of_retire h rfl o.f1.toNat 7
      exact ⟨_, w, unpin_exec hsafe h hrole hclean hp, hw, hset, retire_pins h.left _ _ _⟩
  · split
    · next m hm =>
      obtain ⟨hwaves, tm, htm, hstash⟩ := unmap_stash (cx := c.cx) (m := m) hpeer hteam
      obtain ⟨w, hw, hset⟩ := setsS_of_retire h hwaves o.f1.toNat 0
      exact ⟨_, w, tm, sunmap_exec hsafe h hrole hclean hbusy hrest hm, hw, (team?_of_teams (retire_teams h.left _ _) _).trans htm, hset, hstash⟩
    · next hm =>
      obtain ⟨w, hw, hset⟩ := setsS_of_retire h rfl o.f1.toNat 5
      exact ⟨_, w, c.tm, sunmap_exec hsafe h hrole hclean hbusy hrest hm, hw, (team?_of_teams (retire_teams h.left _ _) _).trans hteam, hset, rfl⟩
  · intro o hwf hclean base len sp
    have hexec := smap_done hsafe h hrole hwf hclean
    dsimp only at hexec
    by_cases hzero : smapCode c base len sp = 0
    · rw [if_pos hzero] at hexec ⊢
      obtain ⟨hwaves, hmem, tm, htm, hstash⟩ := mapStash_stash h hpeer base len sp
      obtain ⟨w, hw, hset⟩ := setsS_of_retire h hwaves o.f1.toNat (BitVec.ofNat 64 (smapCode c base len sp))
      exact ⟨_, w, tm, hexec, hw, (team?_of_teams (retire_teams h.left _ _) _).trans htm, fun hdirty => (retire_mem h.left _ _ _).trans (hmem hdirty),
        hset, smapCode_zero, hstash⟩
    · rw [if_neg hzero] at hexec ⊢
      obtain ⟨w, hw, hset⟩ := setsS_of_retire h rfl o.f1.toNat (BitVec.ofNat 64 (smapCode c base len sp))
      exact ⟨_, w, c.tm, hexec, hw, (team?_of_teams (retire_teams h.left _ _) _).trans hteam, fun _ => retire_mem h.left _ _ _, hset,
        smapCode_zero, (List.append_nil _).symm⟩

end Sys2Proof.Windows

/-! # Handles (11 R318 to R322) -/

namespace Sys2Proof.HandlesOpened

open Sys2Proof.Machine Sys2Proof.Machine.Laws Sys2Proof.FramesKept Sys2Proof.RestKept Sys2Proof.MatrixEffect Sys2Proof.MatrixIssue
open Sys2Proof.SlotConversion Sys2Proof.Barriers Sys2Proof.BarrierResults Sys2Proof.Windows

/-! ## What an engine's writes keep -/

theorem sparseOf_updTeam (s : State) (i : Nat) {f : Team → Team} (hf : ∀ t, outlineTeam (f t) = outlineTeam t) :
    sparseOf (s.updTeam i f) = sparseOf s := by
  refine sparseOf_teams ?_
  rw [List.map_map]
  refine List.map_congr_left fun t _ => ?_
  rw [Function.comp_apply]
  split
  · exact hf t
  · rfl

theorem sparseOf_spWriteBoth (s : State) (team o : Nat) (bytes : List (BitVec 8)) : sparseOf (spWriteBoth s team o bytes) = sparseOf s := by
  have hw : ∀ (s : State) (i : Nat), sparseOf (s.updTeam i fun t => t.spWrite o bytes) = sparseOf s :=
    fun s i => sparseOf_updTeam s i fun _ => rfl
  unfold spWriteBoth
  split
  · rfl
  · dsimp only
    split
    · rw [hw, hw]
    · exact hw _ _

theorem sparseOf_engineSp (s : State) (tm : Team) (o : Nat) (l : List (BitVec 8 × Bool)) : sparseOf (engineSp s tm o l) = sparseOf s :=
  (foldl_keeps (π := sparseOf) (fun s i => sparseOf_updTeam s i (by intro _; rfl)) _ _).trans (sparseOf_spWriteBoth _ _ _ _)

theorem sparseOf_engineSpOut (s : State) (tm : Team) (o : Nat) (ps : List Place) (l : List (BitVec 8 × Bool)) :
    sparseOf (engineSpOut s tm o ps l) = sparseOf s := by
  have hwritten : ∀ m, sparseOf (engineWrite s tm.core m) = sparseOf s := fun m => sparseOf_of_restOf (restOf_engineWrite _ _ _)
  unfold engineSpOut
  dsimp only
  split
  · exact (sparseOf_engineSp _ _ _ _).trans (hwritten _)
  · refine (foldl_keeps (π := sparseOf) (fun s p => ?_) _ _).trans (hwritten _)
    split
    · exact sparseOf_engineSp _ _ _ _
    · rfl

theorem sparseOf_writeStatus (s : State) (tm : Team) (o x : Nat) : sparseOf (writeStatus s tm o x) = sparseOf s := by
  unfold writeStatus
  split
  · rfl
  split
  · rfl
  split
  · exact sparseOf_spWriteBoth _ _ _ _
  split
  · rfl
  split
  · rfl
  · exact (sparseOf_engineSpOut _ _ _ _ _).trans (sparseOf_touchLeaves _ _ _ _)

/-! ## hopen -/

theorem retire_handles {c : Issue} (hl : c.w.left ≠ 0) (S : State) (w : Wave) (len : Nat) : (retire c S w len).handles = S.handles := by
  rw [retire_eq hl]
  rfl

theorem retire_tenures {c : Issue} (hl : c.w.left ≠ 0) (S : State) (w : Wave) (len : Nat) : (retire c S w len).tenures = S.tenures := by
  rw [retire_eq hl]
  rfl

section
variable {s s1 : State} {c : Issue} (hsafe : EndsSafety s s1 3) (h : Runs s1 c 4) (hrole : c.w.role = .solo) {o : OpF12} {r : Found}
  (hflag : FlagFree c o.fsel) (hclean : Unpoisoned c [] [o.f2.toNat] []) (hok : DescOk c (c.w.getS o.f2.toNat).toNat 128 0x10)
  (hread : SpRead c (c.w.getS o.f2.toNat).toNat 128 r)
include hsafe h hrole hflag hclean hok hread

theorem hopen_exec : exec (.hopen o) s = .next (retire c
    (writeStatus (openTile (touching c r) (bytesAt c r)).1 c.tm ((c.w.getS o.f2.toNat).toNat + 0x10)
      (openTile (touching c r) (bytesAt c r)).2.2)
    (c.w.setS o.f1.toNat (BitVec.ofNat 64 (openTile (touching c r) (bytesAt c r)).2.1)) 4) := by
  obtain ⟨halign, hroom, hclear⟩ := hok
  refine (issueAs_outcome hsafe h _).trans ?_
  dsimp only
  rw [guarded_of_none (by rw [noFlag_of_free hflag]; rfl), flagRoom_of_free hflag, once_solo hrole, withDesc, withSp,
    withSpAnd_read halign hroom hread rfl hclear (poisonRegs_none hclean), retireOnce_solo (c := touching c r) hrole]
  exact congrArg Host.Outcome.next (retire_at h.left _ _)

/-- A hopen answers what its tile's opening answers, in the state that this leaves. -/
theorem hopen_answers {S : State} {x n : Nat} (hopened : openTile (touching c r) (bytesAt c r) = (S, x, n)) (hS : S.waves = s1.waves) :
    ∃ t w, exec (.hopen o) s = .next t ∧ t.wave? c.w.id = some w ∧ SetsS c w [(o.f1.toNat, BitVec.ofNat 64 x)] ∧
      t.handles = S.handles := by
  have hexec := hopen_exec hsafe h hrole hflag hclean hok hread
  rw [hopened] at hexec
  have hstatus := sparseOf_writeStatus S c.tm ((c.w.getS o.f2.toNat).toNat + 0x10) n
  obtain ⟨w, hw, hset⟩ := setsS_of_retire h ((waves_of_sparseOf hstatus).trans hS) o.f1.toNat (BitVec.ofNat 64 x)
  exact ⟨_, w, hexec, hw, hset, (retire_handles h.left _ _ _).trans (handles_of_sparseOf hstatus)⟩

end

theorem openTile_bad {c : Issue} {d : List (BitVec 8)} {bad : Nat} (h : firstBad (handleChecks d) = some bad) :
    openTile c d = (c.s, 0, 2 + bad * 2 ^ 8) := by
  rw [openTile, h]

theorem openTile_free {c : Issue} {d : List (BitVec 8)} {i : Nat} {l : List Nat} (h : firstBad (handleChecks d) = none)
    (hspace : (tileOf d).inSpace = true) (hfree : freeHandles c.s c.g.ctx = i :: l) :
    openTile c d = ((openHandle c.s c.g.ctx i (tileOf d)).1, (openHandle c.s c.g.ctx i (tileOf d)).2.value, 0) := by
  rw [openTile, h, hspace, hfree]
  rfl

theorem nextSerial_pos (n : Nat) : 1 ≤ nextSerial n := Nat.le_add_left 1 _

theorem nextSerial_le (n : Nat) : nextSerial n ≤ 65535 := Nat.succ_le_of_lt (Nat.mod_lt n (by decide))

theorem touching_waves {s1 : State} {c : Issue} (h : Runs s1 c 4) (r : Found) : (touching c r).s.waves = s1.waves :=
  (waves_of_sparseOf (sparseOf_touchLeaves _ _ _ _)).trans (congrArg State.waves (issuing_s h.issues))

theorem touching_handles {s1 : State} {c : Issue} (h : Runs s1 c 4) (r : Found) : (touching c r).s.handles = s1.handles :=
  (handles_of_sparseOf (sparseOf_touchLeaves _ _ _ _)).trans (congrArg State.handles (issuing_s h.issues))

/-! ## hsplit -/

/-- A pair of uniform registers set. -/
theorem setsS_pair (c : Issue) (r : Nat) (x y : Word) :
    SetsS c (advance c ((c.w.setS r x).setS (r + 1) y).count 4).settle [(r, x), (r + 1, y)] := by
  refine setsS_of_wave rfl fun r' => ?_
  rw [getS_setS, getS_setS, List.find?_cons, List.find?_cons, List.find?_nil]
  by_cases hfirst : r' = r
  · rw [if_neg (by omega), if_pos hfirst, hfirst, beq_self_eq_true]
  · rw [beq_false_of_ne (Ne.symm hfirst), if_neg hfirst]
    by_cases hsecond : r' = r + 1
    · rw [if_pos hsecond, hsecond, beq_self_eq_true]
    · rw [if_neg hsecond, beq_false_of_ne (Ne.symm hsecond)]

theorem waves_openHandle (s : State) (ctx i : Nat) (t : Tile) : (openHandle s ctx i t).1.waves = s.waves := rfl

theorem mem_openHandle (s : State) (ctx i : Nat) (t : Tile) : (openHandle s ctx i t).1.mem = s.mem := rfl

theorem splitHandle_kept {s t : State} {h : Handle} {d p a b : Nat} (hs : splitHandle s h d p = some (t, a, b)) :
    t.waves = s.waves ∧ t.mem = s.mem := by
  unfold splitHandle at hs
  split at hs
  · dsimp only at hs
    split at hs
    · cases hs
    · have ht := congrArg Prod.fst (Option.some.inj hs)
      dsimp only at ht
      rw [← ht]
      simp only [closeHandle, waves_openHandle, mem_openHandle, and_self]
  · cases hs

/-- The wave of an hsplit with its two answers. -/
abbrev setPair (c : Issue) (o : OpY123) (a b : Nat) : Wave :=
  (c.w.setS o.f1.toNat (BitVec.ofNat 64 a)).setS (o.f1.toNat + 1) (BitVec.ofNat 64 b)

/-- What a split leaves: the state and the two handles, or the state as it was and 0 twice. -/
def splitResult (s : State) (h : Handle) (spec : Nat) : State × Nat × Nat :=
  (splitHandle s h (bitsN spec 0 3) (bitsN spec 32 32)).getD (s, 0, 0)

theorem hsplit_exec {s s1 : State} {c : Issue} (hsafe : EndsSafety s s1 3) (h : Runs s1 c 4) (hrole : c.w.role = .solo) {o : OpY123}
    {x : Handle} (hwf : WellFormed (.hsplit o)) (hclean : Unpoisoned c [] [o.f2.toNat, o.f3.toNat] [])
    (hx : handleOf s1 c.g.ctx (c.w.getS o.f2.toNat).toNat = some x) :
    let q := splitResult s1 x (c.w.getS o.f3.toNat).toNat
    exec (.hsplit o) s = .next (retire c q.1
      ((c.w.setS o.f1.toNat (BitVec.ofNat 64 q.2.1)).setS (o.f1.toNat + 1) (BitVec.ofNat 64 q.2.2)) 4) := by
  have heven : evenReg o.f1 = true := hwf
  refine (congrArg (fun b => issueAs s b 4 3 _) heven).trans ((issueAs_outcome hsafe h _).trans ?_)
  dsimp only
  rw [once_solo hrole, issuing_s h.issues, hx]
  dsimp only
  rw [guarded_of_none (by rw [poisonRegs_none hclean]; rfl), splitResult]
  cases splitHandle s1 x (bitsN (c.w.getS o.f3.toNat).toNat 0 3) (bitsN (c.w.getS o.f3.toNat).toNat 32 32) with
  | none =>
    dsimp only [Option.getD_none]
    rw [retireOnce_solo hrole]
    rfl
  | some q =>
    obtain ⟨t, a, b⟩ := q
    dsimp only [Option.getD_some]
    rw [retireOnce_solo hrole]
    rfl

/-! ## hclose -/

theorem hclose_exec {s s1 : State} {c : Issue} (hsafe : EndsSafety s s1 3) (h : Runs s1 c 4) (hrole : c.w.role = .solo) {o : OpY2}
    {x : Handle} (hclean : Unpoisoned c [] [o.f2.toNat] []) (hx : handleOf s1 c.g.ctx (c.w.getS o.f2.toNat).toNat = some x)
    (hstores : storesOwed s1 c.w.id s1.nextId x.ctx x.tile = false) (htile : tileOwed s1 x.ctx x.tile = false)
    (hwaits : cleanWaits s1 c.tm.core (tileWord s1 x.ctx x.tile) = false) :
    exec (.hclose o) s = .next (retire c
      (closeHandle (releaseTenure (drainCore s1 c.tm.core (tileWord s1 x.ctx x.tile)) c.tm.id x false) x) c.w 4) := by
  refine (issueAs_outcome hsafe h _).trans ?_
  dsimp only
  rw [once_solo hrole, issuing_s h.issues, hx]
  dsimp only
  rw [guarded_of_none (by rw [poisonRegs_none hclean]; rfl), hstores, htile, hwaits, if_neg (by decide), retireOnce_solo hrole]
  rfl

/-- A team's tenure of a handle released: it holds none of that handle. -/
theorem not_mem_releaseTenure {s : State} {team : Nat} {x : Handle} {t : Tenure} (ht : t ∈ (releaseTenure s team x false).tenures) :
    ¬ (t.team = team ∧ t.on x = true) := by
  have hkept := (List.mem_filter.1 ht).2
  dsimp only at hkept
  rintro ⟨hteam, hon⟩
  rw [hteam, hon, beq_self_eq_true] at hkept
  cases hkept

theorem handles_closed (s : State) (team : Nat) (x : Handle) :
    (closeHandle (releaseTenure s team x false) x).handles = s.handles.erase x := rfl

theorem waves_closed (s : State) (team : Nat) (x : Handle) : (closeHandle (releaseTenure s team x false) x).waves = s.waves := rfl

/-- Settles O35: hopen answers as `openTile` does (`hopen_answers`), hsplit as `splitHandle` (`hsplit_exec`), and a hclose that owes nothing
releases the tenure (`not_mem_releaseTenure`) and closes the handle. -/
theorem handleResults : Obligations.HandleResults := by
  unfold Obligations.HandleResults
  intro s s1 c hsafe h hrole hpeer
  refine ⟨?_, ?_, ?_⟩
  · intro o r hflag hclean off hok hread d
    refine ⟨fun bad hbad => ?_, fun hgood hspace i l hfree => ?_⟩
    · have hopened := hopen_answers hsafe h hrole hflag hclean hok hread (openTile_bad hbad) (touching_waves h r)
      rwa [touching_handles h] at hopened
    · have hfree' : freeHandles (touching c r).s c.g.ctx = i :: l := by
        rw [freeHandles, touching_handles h]
        exact hfree
      obtain ⟨t, w, hexec, hw, hset, hhandles⟩ := hopen_answers hsafe h hrole hflag hclean hok hread
        (openTile_free (c := touching c r) hgood hspace hfree') (touching_waves h r)
      refine ⟨t, w, _, hexec, hw, hset, hhandles.trans (congrArg (· ++ _) (touching_handles h r)), rfl, rfl, rfl, ?_, ?_⟩
      · exact nextSerial_pos _
      · exact nextSerial_le _
  · intro o x hwf hclean hx spec
    have hexec := hsplit_exec hsafe h hrole hwf hclean hx
    dsimp only [splitResult] at hexec
    split
    · next s2 a b hsplit =>
      obtain ⟨hwaves, hmem⟩ := splitHandle_kept hsplit
      rw [hsplit] at hexec
      exact ⟨_, _, hexec, (retire_in h hwaves (w := setPair c o a b) rfl).1, setsS_pair c _ _ _, retire_handles h.left _ _ _,
        retire_tenures h.left _ _ _, (retire_mem h.left _ _ _).trans hmem⟩
    · next hsplit =>
      rw [hsplit] at hexec
      exact ⟨_, _, hexec, retire_in h rfl (w := setPair c o 0 0) rfl, setsS_pair c _ _ _⟩
  · intro o x hclean hx hstores htile hwaits
    have hdrained := restOf_drainCore s1 c.tm.core (tileWord s1 x.ctx x.tile)
    refine ⟨_, _, hclose_exec hsafe h hrole hclean hx hstores htile hwaits, (retire_in h ?_ (w := c.w) rfl).1,
      ⟨moved_retire c _ 4 rfl rfl, advance_jumped c _ rfl 4⟩, ?_, ?_⟩
    · rw [waves_closed, waves_of_restOf hdrained]
    · rw [retire_handles h.left, handles_closed, handles_of_sparseOf (sparseOf_of_restOf hdrained)]
    · intro t ht
      rw [retire_tenures h.left] at ht
      exact not_mem_releaseTenure ht

end Sys2Proof.HandlesOpened

/-! # Engine copies accepted (11 R306, R310, R313 to R315) -/

namespace Sys2Proof.EngineIssue

open Sys2Proof.Machine Sys2Proof.Machine.Laws Sys2Proof.FramesKept Sys2Proof.RestKept Sys2Proof.MatrixIssue Sys2Proof.SlotConversion
open Sys2Proof.Barriers Sys2Proof.Windows

/-! ## Gathers, scatters, compactions and prefetches -/

section
variable {s s1 : State} {c : Issue} (hsafe : EndsSafety s s1 3) (h : Runs s1 c 4) (hrole : c.w.role = .solo)
include hsafe h hrole

/-- gather and scatter (11 R313). -/
theorem rows_issued {i : Instr} {o : OpF12} {scatter : Bool} {r : Found} (he : exec i s = rowsEff s o scatter) (hflag : FlagFree c o.fsel)
    (hdecl : Declared c [o.f1.toNat] []) (hclean : Unpoisoned c [o.f1.toNat] [o.f2.toNat] []) (hscore : ScoreRoom c 2) :
    let off := (c.w.getS o.f2.toNat).toNat
    let idx := (threads c.mask).map fun t => (t, c.w.getV o.f1.toNat t)
    let rs := rowsRanges (touching c r) scatter (bytesAt c r) off idx
    DescOk c off 64 0x20 → SpRead c off 64 r →
    EngineIssued i s (touching c r).s c (c.flag o.fsel) c.w.seed (.rows scatter (bytesAt c r) off idx) rs.1 rs.2 := by
  intro off idx rs ⟨halign, hroom, hclear⟩ hread
  have hs : outlineOf (touching c r).s = outlineOf c.s := outlineOf_touching
  have hexec := he.trans (issueAs_runs hsafe h _)
  dsimp only at hexec
  rw [illegalRegs_none hdecl, noFlag_of_free hflag, guarded_of_none rfl, flagRoom_of_free hflag, once_solo hrole,
    withDesc_read halign hroom hread hclear (poisonRegs_none hclean)] at hexec
  exact engineIssued_of_retire (adv := false) h hs
    (hexec.trans (next_of_room hrole h.left rfl (scoreFull_eq_false hs rfl hscore (slots_le_two rfl)) _ _))
    ⟨nextId_of_outlineOf hs, rfl, rfl⟩ rfl rfl rfl rfl rfl

/-- compact (11 R314). -/
theorem compact_issued {o : OpF2} {r : Found} (hflag : FlagFree c o.fsel) (hclean : Unpoisoned c [] [o.f2.toNat] []) (hscore : ScoreRoom c 2) :
    let off := (c.w.getS o.f2.toNat).toNat
    let rs := compactRanges (touching c r) (bytesAt c r) off
    DescOk c off 128 0x40 → SpRead c off 128 r →
    EngineIssued (.compact o) s (touching c r).s c (c.flag o.fsel) c.w.seed (.compact (bytesAt c r) off) rs.1 rs.2 := by
  intro off rs ⟨halign, hroom, hclear⟩ hread
  have hs : outlineOf (touching c r).s = outlineOf c.s := outlineOf_touching
  have hexec := (exec_compact o s).trans (issueAs_runs hsafe h _)
  dsimp only at hexec
  rw [noFlag_of_free hflag, guarded_of_none rfl, flagRoom_of_free hflag, once_solo hrole, withDesc, withSp,
    withSpAnd_read halign hroom hread rfl hclear (poisonRegs_none hclean)] at hexec
  exact engineIssued_of_retire (adv := false) h hs
    (hexec.trans (next_of_room hrole h.left rfl (scoreFull_eq_false hs rfl hscore (slots_le_two rfl)) _ _))
    ⟨nextId_of_outlineOf hs, rfl, rfl⟩ rfl rfl rfl rfl rfl

omit hsafe in
/-- A prefetch of pages set going, in a state with the outline of its issue. -/
theorem fetch_issued {i : Instr} {c1 : Issue} {fsel : BitVec 1} {hint : Nat} {l : List (Nat × Nat)} (hc1 : c1 = { c with s := c1.s })
    (hs : outlineOf c1.s = outlineOf c.s) (he : exec i s = outcome c (.ok (startFetch c1 (c.flag fsel) hint l))) :
    OpIssued i s (touchLeaves c1.s c.tm.core false (fetchRanges c1 l).2) c (c.flag fsel) []
      fun k => k = .pfetch hint (fetchRanges c1 l).1 := by
  have htouched : outlineOf (touchLeaves c1.s c.tm.core false (fetchRanges c1 l).2) = outlineOf c.s := (outlineOf_touchLeaves _ _ _ _).trans hs
  have hw := (waves_of_outlineOf htouched).trans (congrArg State.waves (issuing_s h.issues))
  have hstart : startFetch c1 (c.flag fsel) hint l = retire c ((touchLeaves c1.s c.tm.core false (fetchRanges c1 l).2).addOp
      (c1.newOp (c.flag fsel) (.pfetch hint (fetchRanges c1 l).1) [])) (c.w.flagUp (some (c.flag fsel))) 4 := by
    rw [startFetch]
    generalize fetchRanges c1 l = r
    rw [hc1, retireOnce_solo (c := { c with s := c1.s }) hrole]
    exact retire_at h.left _ _
  rw [hstart] at he
  refine opIssuedIn_of_retire (adv := false) (o := c1.newOp (c.flag fsel) (.pfetch hint (fetchRanges c1 l).1) []) h hw he ?_ rfl rfl
  rw [hc1]
  exact ⟨nextId_of_outlineOf hs, rfl, rfl⟩

theorem pfetchDesc_issued {o : OpF2} {r : Found} (hflag : FlagFree c o.fsel) (hclean : Unpoisoned c [] [o.f2.toNat] [])
    (halign : (c.w.getS o.f2.toNat).toNat % 64 = 0) (hroom : (c.w.getS o.f2.toNat).toNat + 256 ≤ c.g.launch.spBytes)
    (hread : SpRead c (c.w.getS o.f2.toNat).toNat 256 r) :
    OpIssued (.pfetchDesc o) s (touchLeaves (touching c r).s c.tm.core false (fetchRanges (touching c r) (fetchRows (bytesAt c r))).2) c
      (c.flag o.fsel) [] fun k => k = .pfetch (field (bytesAt c r) 0x2C 1 % 4) (fetchRanges (touching c r) (fetchRows (bytesAt c r))).1 := by
  refine fetch_issued h hrole rfl outlineOf_touching ((exec_pfetchDesc o s).trans ((issueAs_outcome hsafe h _).trans ?_))
  dsimp only
  rw [noFlag_of_free hflag, guarded_of_none rfl, flagRoom_of_free hflag, once_solo hrole,
    withSp_read halign hroom hread (poisonRegs_none hclean)]
  rfl

theorem pfetchHandle_issued {o : OpF2} {x : Handle} (hflag : FlagFree c o.fsel) (hclean : Unpoisoned c [] [o.f2.toNat] [])
    (hx : handleOf s1 c.g.ctx (c.w.getS o.f2.toNat).toNat = some x) :
    let l := x.tile.elems.flatMap fun a => pagePieces 2 a (2 ^ x.tile.esize)
    OpIssued (.pfetchHandle o) s (touchLeaves c.s c.tm.core false (fetchRanges c l).2) c (c.flag o.fsel) []
      fun k => k = .pfetch x.tile.hint (fetchRanges c l).1 := by
  refine fetch_issued h hrole rfl rfl ((exec_pfetchHandle o s).trans ((issueAs_outcome hsafe h _).trans ?_))
  have hx' : handleOf c.s c.g.ctx (c.w.getS o.f2.toNat).toNat = some x := by rwa [issuing_s h.issues]
  dsimp only
  rw [noFlag_of_free hflag, guarded_of_none rfl, flagRoom_of_free hflag, once_solo hrole, hx']
  dsimp only
  rw [guarded_of_none (by rw [poisonRegs_none hclean]; rfl)]

end

/-! ## The slices of a copy (11 R310) -/

/-- The slices of a gathering with one more, of an issue. -/
abbrev withSlice (c : Issue) (f : Nat) (x : Word) (g : Gathering) : List (Nat × Nat × Nat × Nat) :=
  g.slices ++ [(c.w.id, f, x.toNat % 2 ^ 32, x.toNat / 2 ^ 32)]

/-- What a copy of `n` slices comes to once the checks of its latest slice have passed. -/
def sliceEff (c : Issue) (off f n : Nat) (slices : List (Nat × Nat × Nat × Nat)) : Except Flt State :=
  if slices.length < n then
    .ok (retireOnce c (c.s.updTeam c.tm.id fun t => t.setGathering off (some ⟨off, n, slices⟩)) (fun w => w.flagUp (some f)) 4)
  else withSp c off 256 off 256 none none fun c d =>
    let r := copyRanges c d off slices
    let op := { c.newOp 15 (.copy d off slices) [] with reads := r.1, writes := r.2 }
    if scoreFull c op then .ok c.stall
    else .ok (retireOnce c (startOp (c.s.updTeam c.tm.id fun t => t.setGathering off none) op) (fun w => w.flagUp (some f)) 4)

section
variable {s s1 : State} {c : Issue} (hsafe : EndsSafety s s1 3) (h : Runs s1 c 4) (hrole : c.w.role = .solo)
include h hrole

include hsafe in
theorem copy_exec {o : OpF12} {q : Found} {g : Gathering} (hflag : FlagFree c o.fsel) (hclean : Unpoisoned c [] [o.f2.toNat, o.f1.toNat] [])
    (hok : DescOk c (c.w.getS o.f2.toNat).toNat 256 0x20) (hread : SpRead c ((c.w.getS o.f2.toNat).toNat + 0x20) 16 q)
    (hg : (c.tm.gatherings.find? fun g => g.desc == (c.w.getS o.f2.toNat).toNat).getD
      ⟨(c.w.getS o.f2.toNat).toNat, field (bytesAt c q) 0x0B 1, []⟩ = g) (hpos : 1 ≤ g.nslices) (hle : g.nslices ≤ 32) :
    exec (.copy o) s = outcome c (sliceEff (touching c q) (c.w.getS o.f2.toNat).toNat (c.flag o.fsel) g.nslices
      (withSlice c (c.flag o.fsel) (c.w.getS o.f1.toNat) g)) := by
  obtain ⟨halign, hroom, hclear⟩ := hok
  refine (exec_copy o s).trans ((issueAs_outcome hsafe h _).trans ?_)
  dsimp only
  rw [noFlag_of_free hflag, guarded_of_none rfl, flagRoom_of_free hflag, once_solo hrole, withSp,
    withSpAnd_read halign hroom hread rfl hclear (poisonRegs_none hclean), touching_tm, hg, if_neg (by omega)]
  rfl

omit hrole in
/-- The wave of a slice retires with its flag up. -/
theorem flagged_retired {S : State} (hS : S.waves = s1.waves) (f : Nat) :
    ∃ w, OnlyWave S (retire c S (c.w.flagUp (some f)) 4) c w ∧ Passed c 4 { c.w with flags := w.flags } w ∧
      ∀ k, w.getF k = if k = f then c.w.getF k + 1 else c.w.getF k := by
  have hflags : (advance c (c.w.flagUp (some f)).count 4).settle.flags = (c.w.flagUp (some f)).flags := by rw [settle_eq]; rfl
  refine ⟨_, retire_in h hS (w := c.w.flagUp (some f)) rfl, ⟨?_, advance_jumped c (c.w.flagUp (some f)) rfl 4⟩, fun k => ?_⟩
  · rw [hflags]
    exact moved_retire c (c.w.flagUp (some f)) 4 rfl rfl
  · have hput : (c.w.flagUp (some f)).flags = put 0 c.w.flags f (c.w.getF f + 1) := rfl
    rw [Wave.getF, hflags, hput, get_put]
    split
    · next hk => rw [hk]
    · rfl

omit hrole in
theorem touching_outline (q : Found) : outlineOf (touching c q).s = outlineOf s1 :=
  outlineOf_touching.trans (congrArg outlineOf (issuing_s h.issues))

/-- A slice that is not the last is recorded. -/
theorem slice_recorded {q : Found} {off f n : Nat} {slices : List (Nat × Nat × Nat × Nat)} (hmore : slices.length < n) :
    sliceEff (touching c q) off f n slices = .ok (retire c ((touching c q).s.updTeam c.tm.id fun t =>
      t.setGathering off (some ⟨off, n, slices⟩)) (c.w.flagUp (some f)) 4) := by
  rw [sliceEff, if_pos hmore, retireOnce_solo (c := touching c q) hrole]
  exact congrArg Except.ok (retire_at h.left _ _)

/-- The last slice sets the copy going. -/
theorem slice_started {q r : Found} {off f n : Nat} {slices : List (Nat × Nat × Nat × Nat)} (hlast : n ≤ slices.length)
    (halign : off % 64 = 0) (hroom : off + 256 ≤ c.g.launch.spBytes) (hscore : ScoreRoom c 2) (hread : SpRead (touching c q) off 256 r) :
    let c2 := touching (touching c q) r
    let rs := copyRanges c2 (bytesAt (touching c q) r) off slices
    sliceEff (touching c q) off f n slices = .ok (retire c (startOp (c2.s.updTeam c.tm.id fun t => t.setGathering off none)
      { c.newOp 15 (.copy (bytesAt (touching c q) r) off slices) [] with reads := rs.1, writes := rs.2 }) (c.w.flagUp (some f)) 4) := by
  intro c2 rs
  have hs : outlineOf c2.s = outlineOf c.s := outlineOf_touching.trans outlineOf_touching
  have hop : (touching (touching c q) r).newOp 15 (.copy (bytesAt (touching c q) r) off slices) [] = c.newOp 15 (.copy (bytesAt (touching c q) r) off slices) [] := by
    rw [Issue.newOp, nextId_of_outlineOf hs]
    rfl
  rw [sliceEff, if_neg (Nat.not_lt.2 hlast), withSp_read (c := touching c q) halign hroom hread rfl]
  rw [hop]
  dsimp only
  rw [scoreFull_eq_false (c := c) hs rfl hscore (slots_le_two rfl), if_neg Bool.false_ne_true, retireOnce_solo (c := c2) hrole]
  exact congrArg Except.ok (retire_at h.left _ _)

end

/-- An engine operation set going adds to the operations and takes a number. -/
theorem startOp_eq (t : State) (o : Op) :
    startOp t o = { takeWords t o.writes with ops := t.ops ++ [o], nextId := max t.nextId (o.id + 1) } := by
  have htaken : frameOf (takeWords t o.writes) = frameOf t := frameOf_performAll _ _
  have hops : (takeWords t o.writes).ops = t.ops := congrArg Frame.ops htaken
  have hnext : (takeWords t o.writes).nextId = t.nextId := congrArg Frame.nextId htaken
  rw [startOp, State.addOp, hops, hnext]

theorem startOp_waves (t : State) (o : Op) : (startOp t o).waves = t.waves := congrArg Frame.waves (frameOf_performAll t _)

/-- A gathering recorded leaves the waves, the operations and the numbers. -/
theorem setGathering_kept (s : State) (i off : Nat) (g : Option Gathering) :
    (s.updTeam i fun t => t.setGathering off g).waves = s.waves ∧ (s.updTeam i fun t => t.setGathering off g).ops = s.ops ∧
      (s.updTeam i fun t => t.setGathering off g).nextId = s.nextId := ⟨rfl, rfl, rfl⟩

/-- Settles O33: each passes its checks and finds room on the scoreboard, as a matrix instruction does (`engineIssued_of_retire`,
`fetch_issued`); a slice of a copy is recorded (`slice_recorded`), and the last sets the copy going (`slice_started`). -/
theorem engineCopyIssues : Obligations.EngineCopyIssues := by
  unfold Obligations.EngineCopyIssues
  intro s s1 c hsafe h hrole
  refine ⟨?_, fun o hflag hclean => ⟨fun hok hscore r hread => compact_issued hsafe h hrole hflag hclean hscore hok hread,
    fun halign hroom r hread => pfetchDesc_issued hsafe h hrole hflag hclean halign hroom hread,
    fun x hx => pfetchHandle_issued hsafe h hrole hflag hclean hx⟩, ?_⟩
  · intro o hflag hdecl hclean hscore off idx hok r hread row hrow
    simp only [List.mem_cons, List.not_mem_nil, or_false] at hrow
    rcases hrow with rfl | rfl
    · exact rows_issued hsafe h hrole (exec_gather o s) hflag hdecl hclean hscore hok hread
    · exact rows_issued hsafe h hrole (exec_scatter o s) hflag hdecl hclean hscore hok hread
  · intro o hflag hclean off x hok q hread g slices hpos hle flagged
    have hexec := copy_exec hsafe h hrole hflag hclean hok hread rfl hpos hle
    refine ⟨fun hmore => ?_, fun hlast hscore r hread2 => ?_⟩
    · rw [slice_recorded h hrole hmore] at hexec
      obtain ⟨hwaves, -, -⟩ := setGathering_kept (touching c q).s c.tm.id off (some ⟨off, g.nslices, slices⟩)
      obtain ⟨w, honly, hpassed, hflags⟩ := flagged_retired h (hwaves.trans (waves_of_outlineOf (touching_outline h q))) (c.flag o.fsel)
      exact ⟨_, hexec, ⟨w, honly.1, hpassed, hflags⟩, honly.2.2⟩
    · intro c2 d rs op
      rw [slice_started h hrole hlast hok.1 hok.2.1 hscore hread2] at hexec
      have hs : outlineOf c2.s = outlineOf s1 := outlineOf_touching.trans (touching_outline h q)
      obtain ⟨hwaves, hops, hnext⟩ := setGathering_kept c2.s c.tm.id off none
      obtain ⟨w, honly, hpassed, hflags⟩ := flagged_retired h (S := startOp (c2.s.updTeam c.tm.id fun t => t.setGathering off none) op)
        ((startOp_waves _ _).trans (hwaves.trans (waves_of_outlineOf hs))) (c.flag o.fsel)
      generalize retire c (startOp (c2.s.updTeam c.tm.id fun t => t.setGathering off none) op) (c.w.flagUp (some (c.flag o.fsel))) 4 = t
        at honly hexec
      refine ⟨t, hexec, ⟨w, honly.1, hpassed, hflags⟩, ?_⟩
      have hstart := startOp_eq (c2.s.updTeam c.tm.id fun t => t.setGathering off none) op
      rw [hops, hnext, ops_of_outlineOf hs, nextId_of_outlineOf hs] at hstart
      have hrest := honly.2.2
      rw [hstart] at hrest
      exact hrest

end Sys2Proof.EngineIssue

/-! # Engine copies completed (11 R307, R308, R310, R313 to R315) -/

namespace Sys2Proof.EngineCopy

open Sys2Proof.Machine Sys2Proof.Machine.Laws Sys2Proof.FramesKept Sys2Proof.RestKept Sys2Proof.MatrixIssue Sys2Proof.MatrixEffect
open Sys2Proof.MatrixCompletion Sys2Proof.SlotConversion Sys2Proof.Barriers Sys2Proof.Windows Sys2Proof.CleanCaches

/-! ## Payloads keep the outline -/

section
variable (c : Issue)

theorem outlineOf_moveRun (ssp dsp : Bool) (fuel src dst len : Nat) (r : Run) :
    outlineOf (moveRun c ssp dsp fuel src dst len r).s = outlineOf r.s := by
  induction fuel generalizing src dst len r with
  | zero => rfl
  | succ fuel ih =>
    rw [moveRun]
    split
    · rfl
    · dsimp only
      split
      · rfl
      · next s l hgot =>
        have hread : outlineOf s = outlineOf r.s := by
          split at hgot
          · cases hgot
            rfl
          · exact outlineOf_engineRead hgot
        split
        · rw [ih, outlineOf_engineSp, hread]
        · split
          · rfl
          · next hput => rw [ih, outlineOf_enginePut hput, hread]

theorem outlineOf_moveBytes (s : State) (ssp dsp : Bool) (src dst len : Nat) :
    outlineOf (moveBytes c s ssp dsp src dst len).s = outlineOf s := outlineOf_moveRun _ _ _ _ _ _ _ _

theorem rowArrive_off {rb : Nat} (h : barOn rb = false) (s : State) : rowArrive c s rb = (s, 0) := by
  rw [rowArrive, h]
  rfl

theorem outlineOf_eachRow {d : List (BitVec 8)} (hbar : barOn (field d 0x1C 2) = false) (scatter : Bool) (l : List (Nat × Word)) (r : Done) :
    outlineOf (eachRow c scatter d l r).s = outlineOf r.s := by
  induction l generalizing r with
  | nil => rfl
  | cons p l ih =>
    rw [eachRow]
    dsimp only
    have hmove : outlineOf (if scatter = true then moveBytes c r.s true false (rowPlaces d p.2).2 (rowPlaces d p.2).1 (field d 0x18 4)
        else moveBytes c r.s false true (rowPlaces d p.2).1 (rowPlaces d p.2).2 (field d 0x18 4)).s = outlineOf r.s := by
      split <;> exact outlineOf_moveBytes _ _ _ _ _ _ _
    generalize (if scatter = true then moveBytes c r.s true false (rowPlaces d p.2).2 (rowPlaces d p.2).1 (field d 0x18 4)
        else moveBytes c r.s false true (rowPlaces d p.2).1 (rowPlaces d p.2).2 (field d 0x18 4)) = m at hmove ⊢
    split
    · rw [ih]
      split <;> exact hmove
    · rw [ih, rowArrive_off c hbar]
      split
      · split <;> exact hmove
      · split
        · split <;> exact hmove
        · exact hmove

theorem outlineOf_rowsPayload {d : List (BitVec 8)} (hbar : barOn (field d 0x1C 2) = false) (scatter : Bool) (idx : List (Nat × Word)) :
    outlineOf (rowsPayload c scatter d idx).s = outlineOf c.s := by
  unfold rowsPayload
  split
  · rfl
  · split
    · exact outlineOf_eachRow c hbar scatter idx _
    · rfl

theorem outlineOf_compactFrom (d : List (BitVec 8)) (n i : Nat) (r : Done) (bad : Bool) :
    outlineOf (compactFrom c d n i r bad).1.s = outlineOf r.s := by
  induction n generalizing i r bad with
  | zero => rfl
  | succ n ih =>
    rw [compactFrom]
    dsimp only
    split
    · rfl
    · next s l hread =>
      have hread := outlineOf_engineRead hread
      split
      · rfl
      split
      · rfl
      split
      · rfl
      · have hmove := (outlineOf_moveBytes c s (spaceSrc (field d 0x2C 1)) (spaceDst (field d 0x2C 1)) (segSrc d i)
          ((field d 0x18 8 + r.done) % 2 ^ 64) (leNat (l.map (·.1)))).trans hread
        split
        · exact hmove
        · rw [ih, outlineOf_engineWrite, outlineOf_touchLeaves, hmove]

theorem outlineOf_compactPayload (d : List (BitVec 8)) : outlineOf (compactPayload c d).s = outlineOf c.s := by
  unfold compactPayload
  split
  · rfl
  · dsimp only
    split
    · split <;> exact outlineOf_compactFrom c d _ _ _ _
    · rfl

end

/-! ## Completion -/

section
variable {s : State} {o : Op} {w : Wave} {c : Issue}

theorem copyComplete_exec (hop : s.op? o.id = some o) (hissue : opIssue s o = some c) (hcopy : o.isCopy = true)
    (hcan : canEngine s o = true) (hfetch : fetchWaits c o = false) (hbar : barOn o.rowbar = false) :
    exec (.copyComplete o.id) s = .next (copyFlags (performCopy { c with s := beforeEngine (s.dropOp o.id) o } o) o) := by
  have harrive : arrivalsWait c s o.rowbar = false := by rw [arrivalsWait, hbar, Bool.false_and]
  rw [exec_copyComplete, execCopyComplete, hop]
  dsimp only
  rw [hissue]
  dsimp only
  rw [hcopy, hcan, hfetch, harrive, Bool.and_false]
  rfl

theorem finishCopy_plain (c : Issue) (r : Done) (so x : Nat) :
    finishCopy c r so 0 x = writeStatus r.s c.tm so (copyStatus r.code r.field r.done) := by
  rw [finishCopy, if_neg fun h => h.2 rfl]

theorem flagDown_kept {w w' : Wave} {f : Nat} (h : FlagDown w w' f 0) : w' = { w with flags := w'.flags, state := woken w w' } ∧
    ∀ g, w'.getF g = if g = f then w.getF g - 1 else w.getF g := by
  have hsticky : w.sticky ||| 0 = w.sticky := BitVec.or_zero
  have he := h.1
  rw [hsticky] at he
  exact ⟨he, h.2⟩

theorem wave?_flagDown {t : State} (h : Flying s o w c) (ht : t.waves = s.waves) (f : Nat) :
    ∃ w', (t.updPair o.wave fun w => w.flagDown f).wave? o.wave = some w' ∧ FlagDown w w' f 0 := by
  have hw : t.wave? o.wave = some w := by
    rw [State.wave?, ht]
    exact h.wave
  rw [updPair_flying h ht]
  exact ⟨_, wave?_updWave_same (fun _ => Wave.flagDown_id _ _) hw, flagDown_plain w f⟩

end

/-! ## Prefetches -/

/-- What the fill of a slice keeps. -/
theorem fillSlice_kept (s : State) (slice frame start n hint : Nat) {f : Nat → CWord} (hf : ∀ o, (f o).isDirty = false) :
    restOf (fillRun s (512 + slice) frame start n hint f) = restOf s ∧ (fillRun s (512 + slice) frame start n hint f).mem = s.mem :=
  ⟨restOf_fillRun _ _ _ _ _ _ _, (fillRun_kept (fun h => absurd h (by omega)) _ _ _ _ hf).1⟩

/-- What a prefetch keeps. -/
def keptOf (s : State) : State × List Host.Cell := (restOf s, s.mem)

theorem keptOf_fetchHome (s : State) (part hint : Nat) (r : Rng) : keptOf (fetchHome s part hint r) = keptOf s := by
  unfold fetchHome
  split
  · rfl
  · exact foldl_keeps (π := keptOf) (fun _ _ => Prod.ext_iff.2 (fillSlice_kept _ _ _ _ _ _ fun _ => rfl)) _ _

/-! ## A row inside scratchpad (11 R307, R310) -/

section
variable {s : State} {tm t0 : Team} (hteam : s.team? tm.id = some t0) (hpeer : t0.peer = none) (htm : tm.peer = none)
include hteam hpeer htm

/-- Bytes that an engine writes to the scratchpad of a team that stands alone. -/
theorem team?_engineSp (o : Nat) (l : List (BitVec 8 × Bool)) :
    ∃ t, (engineSp s tm o l).team? tm.id = some t ∧ outlineTeam t = outlineTeam t0 ∧ ∀ a, t.spByte a = (t0.spWrite o (l.map (·.1))).spByte a := by
  have hboth : tm.both = [tm.id] := by rw [Team.both, htm]; rfl
  unfold engineSp
  dsimp only
  rw [hboth, List.foldl_cons, List.foldl_nil, spWriteBoth_alone hteam hpeer]
  have hwrite := team?_updTeam_same (f := fun t => t.spWrite o (l.map (·.1))) (fun _ => rfl) hteam
  generalize ((l.zip (List.range l.length)).filter fun p => p.1.2).map (fun p => (o + p.2) / 8) = bad
  exact ⟨_, team?_updTeam_same (f := fun t => { t with spBad := bad.foldl (fun m u => put false m u true) t.spBad }) (fun _ => rfl) hwrite,
    rfl, fun _ => rfl⟩

end

theorem mem_engineSp (s : State) (tm : Team) (o : Nat) (l : List (BitVec 8 × Bool)) : (engineSp s tm o l).mem = s.mem := by
  have hboth : (spWriteBoth s tm.id o (l.map (·.1))).mem = s.mem := by
    unfold spWriteBoth
    split
    · rfl
    · dsimp only
      split <;> rfl
  unfold engineSp
  exact (foldl_keeps (π := State.mem) (fun s i => (rfl : (s.updTeam i _).mem = s.mem)) _ _).trans hboth

/-- A range inside scratchpad moved: one piece. -/
theorem moveBytes_sp (c : Issue) (s : State) (src dst : Nat) {n : Nat} (hn : n ≠ 0) : moveBytes c s true true src dst n =
    ⟨engineSp s c.tm dst (engineSpRead s c.tm.id src n), n, none, (engineSpRead s c.tm.id src n).any (·.2)⟩ := by
  have hfuel : 2 * (n / 65536) + 4 = (2 * (n / 65536) + 2) + 1 + 1 := rfl
  have hpiece : pieceLen true true src dst n = n := rfl
  rw [moveBytes, hfuel, moveRun, if_neg hn]
  dsimp only
  rw [hpiece, if_pos rfl]
  dsimp only
  rw [if_pos rfl, Nat.sub_self, moveRun, if_pos rfl, Nat.zero_add, Bool.false_or]

/-- The only row of a copy of one dimension. -/
theorem copyRows_one {d : List (BitVec 8)} (hdims : copyDims d = 1) (wave f : Nat) {rows : Nat} (hrows : 1 ≤ rows) :
    copyRows d [(wave, f, 0, rows)] = [0] ∧ copySrc d 0 = field d 0 8 ∧ copyDst d 0 = field d 8 8 := by
  have houter : copyOuter d = [] := by rw [copyOuter, hdims]; rfl
  have haddr : ∀ o, wrapN 64 ((field d o 8 : Int) + 0) = field d o 8 := fun o => by
    have hlt : field d o 8 < 2 ^ 64 := field_lt d o 8
    unfold wrapN
    omega
  refine ⟨?_, ?_, ?_⟩
  · have hone : List.range ((copyOuter d).foldl (· * ·) 1) = [0] := by rw [houter]; rfl
    rw [copyRows, hone]
    simp
    omega
  · rw [copySrc, houter]
    exact haddr 0
  · rw [copyDst, houter]
    exact haddr 8

theorem engineSpRead_clean {s : State} {i : Nat} {t : Team} (h : s.team? i = some t) (hbad : t.spBad = []) (o n : Nat) :
    engineSpRead s i o n = (List.range n).map fun k => (t.spByte (o + k), false) := by
  have hgood : ∀ a, t.spPoisoned a 1 = false := fun a => by rw [Team.spPoisoned, hbad]; rfl
  rw [engineSpRead, h]
  simp only [hgood]

/-- The extents of a copy that breaks no rule are not 0. -/
theorem copyRowBytes_pos {c : Issue} {d : List (BitVec 8)} (hgood : firstBad (copyChecks c d) = none) (hdims : copyDims d = 1) :
    copyRowBytes d ≠ 0 := by
  have hall : ∀ l : List (Nat × Bool), firstBad l = none → ∀ p ∈ l, p.2 = true := fun l => by
    induction l with
    | nil => exact fun _ p hp => absurd hp List.not_mem_nil
    | cons q l ih =>
      intro h p hp
      obtain ⟨a, ok⟩ := q
      rw [firstBad] at h
      split at h
      · next hok =>
        rcases List.mem_cons.1 hp with rfl | hp
        · exact hok
        · exact ih h p hp
      · cases h
  have hext := hall _ hgood (0x40 + 4 * 0, _) (List.mem_append_left _ (List.mem_append_left _ (List.mem_append_left _
    (List.mem_append_right _ (List.mem_map.2 ⟨0, List.mem_range.2 (by decide), rfl⟩)))))
  rw [hdims] at hext
  have hpos : 1 ≤ copyExt d 0 := by
    simp only [Nat.lt_one_iff, if_true, Bool.and_eq_true, decide_eq_true_eq] at hext
    exact hext.1.1
  exact Nat.mul_ne_zero (by omega) (Nat.pow_pos (by decide)).ne'

section
variable {c : Issue} {d : List (BitVec 8)} {wave f rows : Nat} {tm : Team} (hgood : firstBad (copyChecks c d) = none)
  (hdense : field d 0x2D 1 = 0) (hdims : copyDims d = 1) (hspace : field d 0x2A 1 = 3) (hbar : barOn (field d 0x2E 2) = false)
  (hrows : 1 ≤ rows) (hsrc : spUsable c false (field d 0 8) (copyRowBytes d) = true)
  (hdst : spUsable c true (field d 8 8) (copyRowBytes d) = true) (hteam : c.s.team? c.tm.id = some tm) (hclean : tm.spBad = [])
include hgood hdense hdims hspace hbar hrows hsrc hdst hteam hclean

/-- The payload of a copy of one row inside scratchpad. -/
theorem copyPayload_row : copyPayload c d [(wave, f, 0, rows)] =
    ⟨engineSp c.s c.tm (field d 8 8) ((List.range (copyRowBytes d)).map fun k => (tm.spByte (field d 0 8 + k), false)), 1, 0,
      copyRowBytes d⟩ := by
  obtain ⟨hrow, haddr, hto⟩ := copyRows_one hdims wave f hrows
  have hin : spaceSrc 3 = true := rfl
  have hout : spaceDst 3 = true := rfl
  have hok : copySpOk c d [0] = true := by
    rw [copySpOk, hspace]
    simp [hin, hout, haddr, hto, hsrc, hdst]
  have hnone : ((List.range (copyRowBytes d)).map fun k => (tm.spByte (field d 0 8 + k), false)).any (·.2) = false := by
    rw [List.any_map, List.any_eq_false]
    exact fun _ _ => Bool.false_ne_true
  have hdone : denseRows c d [0] ⟨c.s, 1, 0, 0⟩ false = (⟨engineSp c.s c.tm (field d 8 8) ((List.range (copyRowBytes d)).map fun k =>
      (tm.spByte (field d 0 8 + k), false)), 1, 0, copyRowBytes d⟩, false) := by
    rw [denseRows]
    dsimp only
    rw [hspace, hin, hout, haddr, hto, moveBytes_sp c c.s _ _ (copyRowBytes_pos hgood hdims), engineSpRead_clean hteam hclean]
    dsimp only
    rw [rowArrive_off c hbar, hnone, if_neg (fun h => h rfl), denseRows, Nat.zero_add]
    rfl
  rw [copyPayload, hgood]
  dsimp only
  rw [hrow, hok, hdense, Bool.not_true, if_neg Bool.false_ne_true, if_neg Nat.zero_ne_one, hdone]
  rfl

end

section
variable {s : State} {o : Op} {w : Wave} {c : Issue} (h : Flying s o w c) (hcan : canEngine s o = true) (hbar : barOn o.rowbar = false)
include h hcan hbar

/-- A prefetch completes: its flag counts down. -/
theorem prefetch_completes {hint : Nat} {rngs : List Rng} (hkind : o.kind = .pfetch hint rngs) (hwaits : fetchWaits c o = false) :
    ∃ t w', exec (.copyComplete o.id) s = .next t ∧ t.wave? o.wave = some w' ∧ FlagDown w w' o.flag 0 ∧ t.teams = s.teams ∧
      t.mem = (beforeEngine (s.dropOp o.id) o).mem := by
  have hexec := copyComplete_exec h.op h.issue (by rw [Op.isCopy, hkind]) hcan hwaits hbar
  rw [performCopy, copyFlags, hkind] at hexec
  dsimp only at hexec
  have hkept := foldl_keeps (π := keptOf) (fun s r => keptOf_fetchHome s c.g.part hint r) rngs (beforeEngine (s.dropOp o.id) o)
  generalize rngs.foldl (fun s r => fetchHome s c.g.part hint r) (beforeEngine (s.dropOp o.id) o) = t at hexec hkept
  have hrest : restOf t = restOf (beforeEngine (s.dropOp o.id) o) := congrArg Prod.fst hkept
  obtain ⟨w', hw', hdown⟩ := wave?_flagDown h (t := t) ((waves_of_restOf hrest).trans (beforeEngine_waves _ _)) o.flag
  exact ⟨_, w', hexec, hw', hdown, (updPair_teams _ _ _).trans ((teams_of_restOf hrest).trans (beforeEngine_teams _ _)),
    (updPair_mem _ _ _).trans (congrArg Prod.snd hkept)⟩

/-- An operation of the copy engine other than a copy completes with the STATUS of its payload, which keeps the outline. -/
theorem payload_completes {r : Done} {so x : Nat} (hcopy : o.isCopy = true) (hwaits : fetchWaits c o = false)
    (hperform : performCopy { c with s := beforeEngine (s.dropOp o.id) o } o =
      finishCopy { c with s := beforeEngine (s.dropOp o.id) o } r so 0 x)
    (hflags : ∀ t, copyFlags t o = o.down t) (hr : outlineOf r.s = outlineOf (beforeEngine (s.dropOp o.id) o)) (hso : 256 ≤ so)
    (hclear : c.tm.stashed so 8 = false) :
    ∃ t w' tm, exec (.copyComplete o.id) s = .next t ∧ t.wave? o.wave = some w' ∧ FlagDown w w' o.flag 0 ∧ t.team? c.tm.id = some tm ∧
      tm.spNat so 8 = copyStatus r.code r.field r.done % 2 ^ 64 := by
  have hexec := copyComplete_exec h.op h.issue hcopy hcan hwaits hbar
  rw [hperform, hflags, finishCopy_plain] at hexec
  obtain ⟨t, w', tm, he, hw', hdown, -, htm, hstatus, -⟩ := ends_status (P := fun _ => True) h hso hclear
    ((worked_beforeEngine h).of_outlineOf hr) hexec fun _ _ _ => trivial
  exact ⟨t, w', tm, he, hw', hdown, htm, hstatus⟩

end

theorem opIssue_state {s : State} {o : Op} {c : Issue} (h : opIssue s o = some c) : c.s = s := by
  unfold opIssue at h
  split at h
  · split at h
    · split at h
      · cases h
        rfl
      · cases h
    · cases h
  · cases h

/-- The checks of a copy look at the teams alone. -/
theorem copyChecks_of_teams {c : Issue} {t : State} (h : t.teams = c.s.teams) (d : List (BitVec 8)) :
    copyChecks { c with s := t } d = copyChecks c d := by
  have hbar : rowbarOk { c with s := t } (field d 0x2E 2) = rowbarOk c (field d 0x2E 2) := by
    unfold rowbarOk gangTeam
    rw [h]
  unfold copyChecks
  rw [hbar]

theorem spByte_status {t : Team} {so : Nat} (hso : 256 ≤ so) (x : Nat) {b : Nat} (hb : b < so ∨ so + 8 ≤ b) :
    (t.spWrite so (leBytes 8 x)).spByte b = t.spByte b := by
  rw [spByte_spWrite hso]
  split
  · rw [List.getElem?_eq_none (by rw [leBytes_length]; omega), Option.getD_none]
  · rfl

/-- The bytes that a row moved inside a scratchpad leaves. -/
theorem spByte_moved {t : Team} {dst : Nat} (hdst : 256 ≤ dst) (f : Nat → BitVec 8) (n b : Nat) :
    (t.spWrite dst ((List.range n).map f)).spByte b = if dst ≤ b ∧ b < dst + n then f (b - dst) else t.spByte b := by
  rw [spByte_spWrite hdst]
  by_cases hle : dst ≤ b
  · rw [if_pos hle, List.getElem?_map]
    by_cases hlt : b < dst + n
    · rw [List.getElem?_range (by omega), if_pos ⟨hle, hlt⟩]
      rfl
    · rw [List.getElem?_eq_none (by rw [List.length_range]; omega), if_neg fun h => hlt h.2]
      rfl
  · rw [if_neg hle, if_neg fun h => hle h.1]
    rfl

/-- Settles O34: a prefetch fills slices alone (`prefetch_completes`); the payloads of the other operations keep the outline of the state
(`payload_completes`), and that of a row inside scratchpad is one piece (`copyPayload_row`). -/
theorem engineCopyCompletes : Obligations.EngineCopyCompletes := by
  unfold Obligations.EngineCopyCompletes
  refine ⟨?_, ?_⟩
  · intro s o c w hop hissue hw hrole hcan hbar hpeer c' down
    have h : Flying s o w c := ⟨hop, hissue, hw, hrole, hpeer⟩
    refine ⟨fun hint rngs hkind hwaits => ?_, fun scatter d off idx hkind hso hclear => ?_, fun d off hkind hso hclear hstamp => ?_⟩
    · obtain ⟨t, w', he, hw', hdown, hteams, hmem⟩ := prefetch_completes h hcan hbar hkind hwaits
      exact ⟨t, w', he, ⟨hw', flagDown_kept hdown⟩, hteams, hmem⟩
    · have hbar' : barOn (field d 0x1C 2) = false := by rwa [Op.rowbar, hkind] at hbar
      obtain ⟨t, w', tm, he, hw', hdown, htm, hstatus⟩ := payload_completes h hcan hbar (r := rowsPayload c' scatter d idx)
        (by rw [Op.isCopy, hkind]) (by rw [fetchWaits, hkind]) (by rw [performCopy, hkind]) (fun t => by rw [copyFlags, hkind]; rfl)
        (outlineOf_rowsPayload c' hbar' scatter idx) hso hclear
      exact ⟨t, w', tm, he, ⟨hw', flagDown_kept hdown⟩, htm, hstatus⟩
    · obtain ⟨t, w', tm, he, hw', hdown, htm, hstatus⟩ := payload_completes h hcan hbar (r := compactPayload c' d) (x := field d 0x38 8)
        (by rw [Op.isCopy, hkind]) (by rw [fetchWaits, hkind]) (by rw [performCopy, hkind]; dsimp only; rw [hstamp])
        (fun t => by rw [copyFlags, hkind]; rfl) (outlineOf_compactPayload c' d) hso hclear
      exact ⟨t, w', tm, he, ⟨hw', flagDown_kept hdown⟩, htm, hstatus⟩
  · intro s o c w d off f rows hop hissue hw hrole hkind hcan hpeer hbad hgood hdense hdims hspace hbar hstamp hrows hso hclear n src dst
      hsrc hdst
    have h : Flying s o w c := ⟨hop, hissue, hw, hrole, hpeer⟩
    generalize hS : beforeEngine (s.dropOp o.id) o = S
    have hwaves : S.waves = s.waves := hS ▸ beforeEngine_waves _ _
    have hteams : S.teams = s.teams := hS ▸ beforeEngine_teams _ _
    have hteam : S.team? c.tm.id = some c.tm := (team?_of_teams hteams _).trans (flying_team h)
    have hexec := copyComplete_exec h.op h.issue (by rw [Op.isCopy, hkind]) hcan (by rw [fetchWaits, hkind])
      (by rw [Op.rowbar, hkind]; exact hbar)
    have hchecks : firstBad (copyChecks { c with s := S } d) = none := by
      rw [copyChecks_of_teams (hteams.trans (congrArg State.teams (opIssue_state hissue)).symm), hgood]
    have hpayload := copyPayload_row (c := { c with s := S }) (wave := o.wave) (f := f) hchecks hdense hdims hspace hbar hrows hsrc hdst hteam hbad
    have hlow : 256 ≤ dst := by
      have hdst := hdst
      rw [spUsable, beq_false_of_ne (copyRowBytes_pos hgood hdims)] at hdst
      simpa using (Bool.and_eq_true_iff.1 hdst).2
    obtain ⟨t1, ht1, hout, hbytes⟩ := team?_engineSp (tm := c.tm) hteam hpeer hpeer dst
      ((List.range n).map fun k => (c.tm.spByte (src + k), false))
    have hstatus := writeStatus_alone (tm := c.tm) ht1 ((congrArg Team.peer hout).trans hpeer) hso
      ((stashed_of_outline hout _ _).trans hclear) (copyStatus 1 0 n)
    rw [performCopy, copyFlags, hkind, hS] at hexec
    dsimp only at hexec
    rw [hpayload, hstamp, finishCopy_plain, hstatus, List.foldl_cons, List.foldl_nil] at hexec
    have hmem := mem_engineSp S c.tm dst ((List.range n).map fun k => (c.tm.spByte (src + k), false))
    have hmoved : (engineSp S c.tm dst ((List.range n).map fun k => (c.tm.spByte (src + k), false))).waves = s.waves :=
      (waves_of_outlineOf (outlineOf_engineSp _ _ _ _)).trans hwaves
    generalize engineSp S c.tm dst ((List.range n).map fun k => (c.tm.spByte (src + k), false)) = S1 at hexec hmem hmoved ht1
    obtain ⟨w', hw', hdown⟩ := wave?_flagDown h (t := S1.updTeam c.tm.id fun t => t.spWrite (off + 0x20) (leBytes 8 (copyStatus 1 0 n)))
      hmoved f
    have hfinal := team?_updTeam_same (f := fun t => t.spWrite (off + 0x20) (leBytes 8 (copyStatus 1 0 n))) (fun _ => rfl) ht1
    refine ⟨_, w', _, hexec, hw', (flagDown_kept hdown).1, (flagDown_kept hdown).2, (updPair_mem _ _ _).trans hmem,
      (team?_of_teams (updPair_teams _ _ _) _).trans hfinal, ?_, fun b hb => ?_⟩
    · have hst := spNat_spWrite (t := t1) (bytes := leBytes 8 (copyStatus 1 0 n)) hso (j := 0) (n := 8) (by simp)
      rwa [Nat.add_zero, List.drop_zero, List.take_of_length_le (by simp), leNat_leBytes] at hst
    · rw [spByte_status hso _ hb, hbytes, List.map_map]
      exact spByte_moved hlow (fun k => c.tm.spByte (src + k)) n b

end Sys2Proof.EngineCopy

/-! # The words that caches hold (09 R244 to R249)

What a block holds of a word, and where the dirty words of a cache come from: no operation makes a word dirty but the store that makes it,
and memory changes, where an L1 gives blocks up, at its dirty words alone. -/

namespace Sys2Proof.CacheWords

open Sys2Proof.Machine Sys2Proof.Machine.Laws Sys2Proof.FramesKept Sys2Proof.NothingHeld Sys2Proof.CleanCaches

/-! ## Words of a block -/

theorem word?_eq_some {b : CBlock} {w : Nat} {x : CWord} :
    b.word? w = some x ↔ b.frame = w / 16 ∧ b.start ≤ w % 16 ∧ b.words[w % 16 - b.start]? = some x := by
  unfold CBlock.word? CBlock.has
  constructor
  · intro h
    split at h
    · next hhas =>
      simp only [Bool.and_eq_true, beq_iff_eq, decide_eq_true_eq] at hhas
      exact ⟨hhas.1.1, hhas.1.2, h⟩
    · cases h
  · rintro ⟨hframe, hstart, hget⟩
    have hlt := (List.getElem?_eq_some_iff.1 hget).1
    rw [if_pos, hget]
    simp only [Bool.and_eq_true, beq_iff_eq, decide_eq_true_eq]
    omega

theorem has_of_word? {b : CBlock} {w : Nat} {x : CWord} (h : b.word? w = some x) : b.has w = true := by
  rw [has_iff_word?, h]
  rfl

theorem word?_setWord (b : CBlock) (w w' : Nat) (y : CWord) :
    (b.setWord w y).word? w' = if w' = w ∧ b.has w = true then some y else b.word? w' := by
  unfold CBlock.setWord
  by_cases hhas : b.has w = true
  · rw [if_pos hhas]
    have hin := hhas
    simp only [CBlock.has, Bool.and_eq_true, beq_iff_eq, decide_eq_true_eq] at hin
    unfold CBlock.word? CBlock.has
    dsimp only
    rw [List.length_set]
    split
    · next hthere =>
      simp only [Bool.and_eq_true, beq_iff_eq, decide_eq_true_eq] at hthere
      by_cases hw : w' = w
      · rw [if_pos ⟨hw, hhas⟩, hw, List.getElem?_set_self (by omega)]
      · rw [if_neg fun h => hw h.1, List.getElem?_set_ne (by omega)]
    · next hthere =>
      rw [if_neg]
      rintro ⟨rfl, -⟩
      exact hthere hhas
  · rw [if_neg hhas, if_neg fun h => hhas h.2]

theorem has_setWord (b : CBlock) (w w' : Nat) (y : CWord) : (b.setWord w y).has w' = b.has w' := by
  unfold CBlock.setWord
  split
  · simp only [CBlock.has, List.length_set]
  · rfl

/-- How blocks hold a word for a cache. -/
def WordIn (l : List CBlock) (cache word : Nat) (x : CWord) : Prop := ∃ b ∈ l, b.cache = cache ∧ b.word? word = some x

/-- Of sound blocks one holds a word. -/
theorem word?_unique {l : List CBlock} (h : SoundBlocks l) {a b : CBlock} (ha : a ∈ l) (hb : b ∈ l) (hcache : a.cache = b.cache) {w : Nat}
    {x y : CWord} (hx : a.word? w = some x) (hy : b.word? w = some y) : a = b := by
  by_contra hne
  obtain ⟨ha1, ha2, hax⟩ := word?_eq_some.1 hx
  obtain ⟨hb1, hb2, hby⟩ := word?_eq_some.1 hy
  have halt := (List.getElem?_eq_some_iff.1 hax).1
  have hblt := (List.getElem?_eq_some_iff.1 hby).1
  have := soundBlocks_apart h ha hb hne hcache (ha1.trans hb1.symm)
  omega

theorem wordIn_of_held? {s : State} {cache word : Nat} {x : CWord} (h : held? s cache word = some x) : WordIn s.blocks cache word x := by
  obtain ⟨b, hb, hword⟩ := List.exists_of_findSome?_eq_some h
  obtain ⟨hin, hcache⟩ := List.mem_filter.1 hb
  exact ⟨b, hin, beq_iff_eq.1 hcache, hword⟩

theorem held?_of_wordIn {s : State} (hs : SoundBlocks s.blocks) {cache word : Nat} {x : CWord} (h : WordIn s.blocks cache word x) :
    held? s cache word = some x := by
  obtain ⟨b, hb, hcache, hx⟩ := h
  have hsome : (held? s cache word).isSome := by
    unfold held?
    rw [List.findSome?_isSome_iff]
    exact ⟨b, List.mem_filter.2 ⟨hb, beq_iff_eq.2 hcache⟩, by rw [hx]; rfl⟩
  obtain ⟨y, hy⟩ := Option.isSome_iff_exists.1 hsome
  obtain ⟨a, ha, hacache, hay⟩ := wordIn_of_held? hy
  obtain rfl := word?_unique hs ha hb (hacache.trans hcache.symm) hay hx
  rw [hy, ← hay, hx]

/-! ## Dirty words -/

/-- Whether an L1 holds a word of its own to write back. -/
def Dirty (s : State) (cache word : Nat) : Prop := ∃ x, WordIn s.blocks cache word x ∧ x.isDirty = true

theorem dirty_of_held? {s : State} {cache word : Nat} {x : CWord} (h : held? s cache word = some x) (hx : x.isDirty = true) :
    Dirty s cache word := ⟨x, wordIn_of_held? h, hx⟩

theorem dirty_iff_ownCopy {s : State} (hs : SoundBlocks s.blocks) {cache word : Nat} :
    Dirty s cache word ↔ ∃ bs m, ownCopy s cache word = some (bs, true, m) := by
  constructor
  · rintro ⟨x, hin, hx⟩
    rw [ownCopy, held?_of_wordIn hs hin]
    cases x with
    | own bs d m =>
      obtain rfl : d = true := hx
      exact ⟨bs, m, rfl⟩
    | shared | exclusive | modified | stale => cases hx
  · rintro ⟨bs, m, h⟩
    unfold ownCopy at h
    split at h
    · next hheld =>
      cases h
      exact dirty_of_held? hheld rfl
    · cases h

theorem mem_cacheWords {s : State} {cache : Nat} {p : CWord → Bool} {word : Nat} {x : CWord} (h : WordIn s.blocks cache word x)
    (hp : p x = true) : word ∈ cacheWords s cache p := by
  obtain ⟨b, hb, hcache, hx⟩ := h
  obtain ⟨hframe, hstart, hget⟩ := word?_eq_some.1 hx
  obtain ⟨hlt, hget⟩ := List.getElem?_eq_some_iff.1 hget
  refine List.mem_flatMap.2 ⟨b, List.mem_filter.2 ⟨hb, beq_iff_eq.2 hcache⟩, List.mem_map.2 ⟨(x, word % 16 - b.start),
    List.mem_filter.2 ⟨?_, hp⟩, ?_⟩⟩
  · rw [List.mem_iff_getElem]
    exact ⟨word % 16 - b.start, by simpa using hlt, by simp [hget]⟩
  · dsimp only
    omega

theorem wordIn_of_mem_cacheWords {s : State} (hs : SoundBlocks s.blocks) {cache : Nat} {p : CWord → Bool} {word : Nat}
    (h : word ∈ cacheWords s cache p) : ∃ x, WordIn s.blocks cache word x ∧ p x = true := by
  obtain ⟨b, hb, hword⟩ := List.mem_flatMap.1 h
  obtain ⟨hin, hcache⟩ := List.mem_filter.1 hb
  obtain ⟨⟨x, i⟩, hxi, rfl⟩ := List.mem_map.1 hword
  obtain ⟨hxi, hp⟩ := List.mem_filter.1 hxi
  obtain ⟨k, hk, hget⟩ := List.mem_iff_getElem.1 hxi
  simp only [List.getElem_zip, List.getElem_range, Prod.mk.injEq] at hget
  obtain ⟨hget, rfl⟩ := hget
  have hk : k < b.words.length := by simpa using hk
  have hend := (hs.1 b hin).2
  refine ⟨x, ⟨b, hin, beq_iff_eq.1 hcache, word?_eq_some.2 ⟨?_, ?_, ?_⟩⟩, hp⟩
  · dsimp only
    omega
  · dsimp only
    omega
  · have hidx : (16 * b.frame + b.start + k) % 16 - b.start = k := by omega
    dsimp only
    rw [hidx, List.getElem?_eq_getElem hk, hget]

/-- Every dirty word of a cache was dirty there before. -/
def DirtyFrom (cache : Nat) (s t : State) : Prop := ∀ word, Dirty t cache word → Dirty s cache word

theorem DirtyFrom.refl (cache : Nat) (s : State) : DirtyFrom cache s s := fun _ h => h

theorem DirtyFrom.trans {cache : Nat} {s t u : State} (h : DirtyFrom cache s t) (h' : DirtyFrom cache t u) : DirtyFrom cache s u :=
  fun word hw => h word (h' word hw)

theorem dirtyFrom_of_wordIn {cache : Nat} {s t : State}
    (h : ∀ word x, WordIn t.blocks cache word x → x.isDirty = true → WordIn s.blocks cache word x) : DirtyFrom cache s t :=
  fun word ⟨x, hin, hx⟩ => ⟨x, h word x hin hx, hx⟩

theorem dirtyFrom_blocks {cache : Nat} {s t : State} (h : ∀ b ∈ t.blocks, b ∈ s.blocks) : DirtyFrom cache s t :=
  dirtyFrom_of_wordIn fun _ _ ⟨b, hb, hcache, hx⟩ _ => ⟨b, h b hb, hcache, hx⟩

/-- A change of blocks, each in its cache, that makes no word dirty. -/
theorem dirtyFrom_map {cache : Nat} {s t : State} {f : CBlock → CBlock} (ht : t.blocks = s.blocks.map f) (hcache : ∀ b, (f b).cache = b.cache)
    (hf : ∀ b word x, (f b).word? word = some x → x.isDirty = true → b.word? word = some x) : DirtyFrom cache s t := by
  refine dirtyFrom_of_wordIn fun word x ⟨b, hb, hc, hx⟩ hdirty => ?_
  rw [ht] at hb
  obtain ⟨a, ha, rfl⟩ := List.mem_map.1 hb
  exact ⟨a, ha, (hcache a).symm.trans hc, hf a word x hx hdirty⟩

theorem setWord_clean {b : CBlock} {w : Nat} {y : CWord} (hy : y.isDirty = false) (word : Nat) (x : CWord)
    (hx : (b.setWord w y).word? word = some x) (hdirty : x.isDirty = true) : b.word? word = some x := by
  rw [word?_setWord] at hx
  split at hx
  · cases hx
    rw [hy] at hdirty
    cases hdirty
  · exact hx

/-- A fold of steps that make no word dirty. -/
theorem dirtyFrom_foldl {α : Type} {cache : Nat} {f : State → α → State} (hf : ∀ s x, DirtyFrom cache s (f s x)) (l : List α) (s : State) :
    DirtyFrom cache s (l.foldl f s) := by
  induction l generalizing s with
  | nil => exact DirtyFrom.refl _ _
  | cons x l ih => exact (hf s x).trans (ih _)

/-- A fold of steps that keep a sound state sound and make no word dirty. -/
theorem dirtyFrom_foldl_sound {α : Type} {cache : Nat} {f : State → α → State} (hsound : ∀ s x, SoundMemory s → SoundMemory (f s x))
    (hf : ∀ s x, SoundMemory s → DirtyFrom cache s (f s x)) (l : List α) {s : State} (h : SoundMemory s) :
    DirtyFrom cache s (l.foldl f s) := by
  induction l generalizing s with
  | nil => exact DirtyFrom.refl _ _
  | cons x l ih => exact (hf s x h).trans (ih (hsound s x h))

section
variable (cache : Nat) (s : State)

theorem dirtyFrom_commitWord (word : Nat) (bytes : List (Nat × BitVec 8)) (mk : Mark) : DirtyFrom cache s (commitWord s word bytes mk) := by
  refine dirtyFrom_map (f := CBlock.overwritten (wordBytes s word) (get Mark.ok s.marks word) s.nextId word) rfl
    (fun b => (overwritten_samePlace _ _ _ _ b).1) fun b w x hx hdirty => ?_
  unfold CBlock.overwritten at hx
  split at hx
  · split at hx
    · exact hx
    · split at hx
      · exact setWord_clean rfl _ _ hx hdirty
      · exact setWord_clean rfl _ _ hx hdirty
  · exact hx

theorem dirtyFrom_setHeld (k word : Nat) {y : CWord} (hy : y.isDirty = false) : DirtyFrom cache s (s.setHeld k word y) := by
  refine dirtyFrom_map (f := fun b => if b.cache = k then b.setWord word y else b) rfl (fun b => ?_) fun b w x hx hdirty => ?_
  · split
    · exact cache_setWord _ _ _
    · rfl
  · split at hx
    · exact setWord_clean hy _ _ hx hdirty
    · exact hx

theorem dirtyFrom_writeBackWord (word : Nat) : DirtyFrom cache s (writeBackWord s word) := by
  refine dirtyFrom_map (f := fun b => if 512 ≤ b.cache ∧ b.cache < 1024 ∧ b.word? word = some .shared then b.setWord word .modified else b)
    rfl (fun b => ?_) fun b w x hx hdirty => ?_
  · split
    · exact cache_setWord _ _ _
    · rfl
  · split at hx
    · exact setWord_clean rfl _ _ hx hdirty
    · exact hx

theorem dirtyFrom_leaveWord (k word : Nat) (x : CWord) : DirtyFrom cache s (leaveWord s k word x) := by
  unfold leaveWord
  split
  · split
    · exact dirtyFrom_writeBackWord _ _ _
    · exact DirtyFrom.refl _ _
  · split
    · exact dirtyFrom_commitWord _ _ _ _ _
    · exact DirtyFrom.refl _ _
  · exact DirtyFrom.refl _ _

theorem dirtyFrom_evictBlock (b : CBlock) : DirtyFrom cache s (evictBlock s b) :=
  (dirtyFrom_blocks fun _ hb => List.mem_of_mem_erase hb).trans
    (dirtyFrom_foldl (fun _ _ => dirtyFrom_leaveWord _ _ _ _ _) _ _)

theorem dirtyFrom_makeRoom {k frame fuel : Nat} {new : List CBlock} {s t : State} (h : makeRoom k frame new fuel s = some t) :
    DirtyFrom cache s t := by
  induction fuel generalizing s with
  | zero => cases h
  | succ fuel ih =>
    simp only [makeRoom] at h
    split at h
    · cases h
      exact DirtyFrom.refl _ _
    · split at h
      · cases h
      · have hrest := ih h
        exact (dirtyFrom_evictBlock cache _ _).trans hrest

end

/-! ## Memory where blocks are given up -/

/-- What the home of a location holds: its byte, and the mark of its word. -/
def homeAt (s : State) (l : Nat) : BitVec 8 × Mark := (readHome s l, get Mark.ok s.marks (l / 16))

theorem readHome_commitWord {s : State} {word l : Nat} (hl : l / 16 ≠ word) {bytes : List (Nat × BitVec 8)} (hbytes : ∀ b ∈ bytes, b.1 < 16)
    (mk : Mark) : readHome (commitWord s word bytes mk) l = readHome s l := by
  have hfold : ∀ (bytes : List (Nat × BitVec 8)) (m : List Host.Cell), (∀ b ∈ bytes, b.1 < 16) →
      get 0#8 (bytes.foldl (fun m b => put 0#8 m (16 * word + b.1) b.2) m) l = get 0#8 m l := by
    intro bytes
    induction bytes with
    | nil => exact fun _ _ => rfl
    | cons b bytes ih =>
      intro m hb
      have hlt := hb b List.mem_cons_self
      rw [List.foldl_cons, ih _ fun c hc => hb c (List.mem_cons_of_mem _ hc), get_put, if_neg (by omega)]
  exact hfold bytes s.mem hbytes

theorem homeAt_commitWord {s : State} {word l : Nat} (hl : l / 16 ≠ word) {bytes : List (Nat × BitVec 8)} (hbytes : ∀ b ∈ bytes, b.1 < 16)
    (mk : Mark) : homeAt (commitWord s word bytes mk) l = homeAt s l := by
  refine Prod.ext (readHome_commitWord hl hbytes mk) ?_
  show get Mark.ok (put Mark.ok s.marks word _) (l / 16) = _
  rw [get_put, if_neg hl]
  rfl

theorem zip_range_lt {bs : List (BitVec 8)} : ∀ b ∈ (List.range 16).zip bs, b.1 < 16 := fun _ hb =>
  List.mem_range.1 (List.of_mem_zip hb).1

/-- A word that leaves an L1 changes its own bytes, where it is dirty. -/
theorem homeAt_leaveWord {s : State} {cache word : Nat} {x : CWord} {l : Nat} (h : cache < 512 → x.isDirty = true → l / 16 ≠ word) :
    homeAt (leaveWord s cache word x) l = homeAt s l := by
  unfold leaveWord
  split
  · split <;> rfl
  · split
    · next hlow => exact homeAt_commitWord (h hlow rfl) zip_range_lt _
    · rfl
  · rfl

/-- A block given up changes the bytes of its dirty words alone. -/
theorem homeAt_evictBlock {s : State} {b : CBlock} (hb : b.start + b.words.length ≤ 16) {l : Nat}
    (h : b.cache < 512 → ∀ x, b.word? (l / 16) = some x → x.isDirty = false) : homeAt (evictBlock s b) l = homeAt s l := by
  have hfold : ∀ (ps : List (CWord × Nat)) (t : State), (∀ p ∈ ps, b.cache < 512 → p.1.isDirty = true → l / 16 ≠ 16 * b.frame + b.start + p.2) →
      homeAt (ps.foldl (fun s p => leaveWord s b.cache (16 * b.frame + b.start + p.2) p.1) t) l = homeAt t l := by
    intro ps
    induction ps with
    | nil => exact fun _ _ => rfl
    | cons p ps ih =>
      intro t hp
      rw [List.foldl_cons, ih _ fun q hq => hp q (List.mem_cons_of_mem _ hq), homeAt_leaveWord (hp p List.mem_cons_self)]
  refine hfold _ _ fun p hp hlow hdirty hword => ?_
  obtain ⟨k, hk, hget⟩ := List.mem_iff_getElem.1 hp
  simp only [List.getElem_zip, List.getElem_range] at hget
  rw [← hget] at hdirty hword
  have hk : k < b.words.length := by simpa using hk
  have hidx : l / 16 % 16 - b.start = k := by omega
  have hclean := h hlow b.words[k] (word?_eq_some.2 ⟨by omega, by omega, by rw [hidx, List.getElem?_eq_getElem hk]⟩)
  rw [hclean] at hdirty
  cases hdirty

/-- Every block lies in its frame. -/
def Framed (s : State) : Prop := ∀ b ∈ s.blocks, b.start + b.words.length ≤ 16

theorem framed_of_sound {s : State} (h : SoundMemory s) : Framed s := fun b hb => (h.2.1.1 b hb).2

theorem Framed.evictBlock {s : State} (h : Framed s) (b : CBlock) : Framed (evictBlock s b) := fun x hx => by
  obtain ⟨a, ha, ⟨-, -, hstart, hlen⟩, -⟩ := evictBlock_within s b x hx
  rw [hstart, hlen]
  exact h a ha

theorem homeAt_makeRoom {cache frame fuel : Nat} {new : List CBlock} {s t : State} (hs : Framed s)
    (h : makeRoom cache frame new fuel s = some t) {l : Nat} (hclean : cache < 512 → ¬ Dirty s cache (l / 16)) :
    homeAt t l = homeAt s l := by
  induction fuel generalizing s with
  | zero => cases h
  | succ fuel ih =>
    simp only [makeRoom] at h
    split at h
    · cases h
      rfl
    · next hfits =>
      split at h
      · cases h
      · next b hvictim =>
        have hfrom := dirtyFrom_evictBlock cache s b
        have hothers : b ∈ setOthers s cache frame := by
          have hin := mem_of_victimBlock hvictim
          split at hin
          · exact hin
          · exact (List.mem_filter.1 hin).1
        have hin : b ∈ s.blocks := (List.mem_filter.1 (List.mem_filter.1 hothers).1).1
        have hevict := homeAt_evictBlock (s := s) (b := b) (hs b hin) (l := l) fun hlow x hx => by
          obtain ⟨-, hcache⟩ := cache_of_setOthers hothers hlow
          by_contra hdirty
          exact hclean (hcache ▸ hlow) ⟨x, ⟨b, hin, hcache, hx⟩, by simpa using hdirty⟩
        have hframed : Framed { evictBlock s b with tick := s.tick + 1 } := hs.evictBlock b
        exact (ih hframed h fun hlow hdirty => hclean hlow (hfrom _ hdirty)).trans hevict

/-! ## Fills -/

/-- A piece joined with the blocks of its frame brings no words but its own. -/
theorem word?_joinPiece {bs : List CBlock} {c f : Nat} {p : CBlock} (h : SoundBlocks bs) (hbs : ∀ b ∈ bs, b.cache = c ∧ b.frame = f)
    (hpf : p.frame = f) {b : CBlock} (hb : b ∈ joinPiece bs p) {w : Nat} {x : CWord} (hx : b.word? w = some x) :
    p.word? w = some x ∨ ∃ a ∈ bs, a.word? w = some x := by
  have hL := filter_le_one h hbs (fun b => b.start + b.words.length == p.start)
    (fun a b ha hb => .inl (by simp only [beq_iff_eq] at ha hb; simp only [blockEnd]; omega))
  have hR := filter_le_one h hbs (fun b => p.start + p.words.length == b.start)
    (fun a b ha hb => .inr (by simp only [beq_iff_eq] at ha hb; omega))
  unfold joinPiece at hb
  rcases List.mem_append.1 hb with hb | hb
  · exact .inr ⟨b, (List.mem_filter.1 hb).1, hx⟩
  rw [List.mem_singleton] at hb
  subst hb
  obtain ⟨hframe, hstart, hget⟩ := word?_eq_some.1 hx
  dsimp only at hframe hstart hget
  have hone : ∀ a ∈ bs, ∀ i, a.start + i = w % 16 → a.words[i]? = some x → ∃ a ∈ bs, a.word? w = some x := fun a ha i hi hget =>
    ⟨a, ha, word?_eq_some.2 ⟨by rw [(hbs a ha).2, ← hpf, hframe], by omega, by rw [← hget]; congr 1; omega⟩⟩
  have hown : ∀ i, p.start + i = w % 16 → p.words[i]? = some x → p.word? w = some x := fun i hi hget =>
    word?_eq_some.2 ⟨hframe, by omega, by rw [← hget]; congr 1; omega⟩
  have hright : ∀ i, p.start + i = w % 16 → (p.words ++ (bs.filter fun b => p.start + p.words.length == b.start).flatMap (·.words))[i]? = some x →
      p.word? w = some x ∨ ∃ a ∈ bs, a.word? w = some x := by
    intro i hi hget
    by_cases hlt : i < p.words.length
    · rw [List.getElem?_append_left hlt] at hget
      exact .inl (hown i hi hget)
    · rw [List.getElem?_append_right (by omega)] at hget
      rcases hR with hR | ⟨r, hR⟩
      · rw [hR] at hget
        cases hget
      · have hr : r ∈ bs.filter fun b => p.start + p.words.length == b.start := by rw [hR]; exact List.mem_singleton_self r
        rw [hR, List.flatMap_singleton] at hget
        obtain ⟨hr, hadj⟩ := List.mem_filter.1 hr
        have hadj : p.start + p.words.length = r.start := by simpa using hadj
        exact .inr (hone r hr _ (by omega) hget)
  rcases hL with hL | ⟨l, hL⟩
  · rw [hL] at hget hstart
    exact hright _ (by simp only [List.head?_nil, Option.map_none, Option.getD_none] at hstart ⊢; omega) hget
  · have hl : l ∈ bs.filter fun b => b.start + b.words.length == p.start := by rw [hL]; exact List.mem_singleton_self l
    rw [hL] at hget hstart
    obtain ⟨hl, hadj⟩ := List.mem_filter.1 hl
    have hadj : l.start + l.words.length = p.start := by simpa using hadj
    simp only [List.flatMap_singleton, List.head?_cons, Option.map_some, Option.getD_some, List.append_assoc] at hget hstart
    by_cases hlt : w % 16 - l.start < l.words.length
    · rw [List.getElem?_append_left hlt] at hget
      exact .inr (hone l hl _ (by omega) hget)
    · rw [List.getElem?_append_right (by omega)] at hget
      exact hright _ (by omega) hget

/-- Pieces joined with blocks of their frame bring the words that the fill gives, and no others. -/
theorem word?_joinPieces {cache frame hint : Nat} {stash : Bool} {f : Nat → CWord} {ps : List (Nat × Nat)} {bs : List CBlock}
    (h : SoundBlocks bs) (hbs : ∀ b ∈ bs, b.cache = cache ∧ b.frame = frame) (hp : ∀ r ∈ ps, 0 < r.2 ∧ r.1 + r.2 ≤ 16)
    (hd : ∀ r ∈ ps, ∀ b ∈ bs, blockEnd b ≤ r.1 ∨ r.1 + r.2 ≤ b.start) (hps : ps.Pairwise fun a b => a.1 + a.2 ≤ b.1) {b : CBlock}
    (hb : b ∈ joinPieces bs cache frame hint stash f ps) {w : Nat} {x : CWord} (hx : b.word? w = some x) :
    x = f (w % 16) ∨ ∃ a ∈ bs, a.word? w = some x := by
  unfold joinPieces at hb
  induction ps generalizing bs with
  | nil => exact .inr ⟨b, hb, hx⟩
  | cons r ps ih =>
    rw [List.pairwise_cons] at hps
    have hr := hp r List.mem_cons_self
    generalize hpiece : (⟨cache, frame, r.1, (List.range r.2).map fun i => f (r.1 + i), hint, stash⟩ : CBlock) = p at hb
    have hlen : p.words.length = r.2 := by rw [← hpiece]; simp
    have hstart : p.start = r.1 := by rw [← hpiece]
    obtain ⟨j1, j2, j3⟩ := joinPiece_spec (p := p) h hbs (by rw [← hpiece]; exact ⟨rfl, rfl⟩) (by omega)
      (by simp only [blockEnd]; omega) (fun b hb => by have := hd r List.mem_cons_self b hb; simp only [blockEnd] at this ⊢; omega)
    have hrest := ih j1 j2 (fun q hq => hp q (List.mem_cons_of_mem _ hq)) (fun q hq b hb => by
      have hq' := hp q (List.mem_cons_of_mem _ hq)
      have hfirst := hps.1 q hq
      exact j3 q.1 (q.1 + q.2) (by omega) (hd q (List.mem_cons_of_mem _ hq)) (by simp only [blockEnd]; omega) b hb) hps.2 (by
        rw [List.foldl_cons, hpiece] at hb
        exact hb)
    rcases hrest with hrest | ⟨a, ha, hax⟩
    · exact .inl hrest
    · rcases word?_joinPiece h hbs (by rw [← hpiece]) ha hax with hown | hold
      · refine .inl ?_
        rw [← hpiece] at hown
        obtain ⟨-, hle, hget⟩ := word?_eq_some.1 hown
        dsimp only at hle hget
        rw [List.getElem?_map, Option.map_eq_some_iff] at hget
        obtain ⟨i, hi, hfi⟩ := hget
        obtain ⟨hlt, hi⟩ := List.getElem?_eq_some_iff.1 hi
        rw [List.getElem_range] at hi
        rw [← hfi, ← hi]
        congr 1
        omega
      · exact .inr hold

/-- The pieces of a fill: runs of words that the blocks of their frame lack. -/
theorem word?_filled {here mine : List CBlock} {cache frame start len hint : Nat} {stash : Bool} {f : Nat → CWord} {q : Nat → Bool}
    (h : SoundBlocks here) (hc : ∀ b ∈ here, b.cache = cache ∧ b.frame = frame) (hm : mine.Sublist here) (hl : start + len ≤ 16 ∨ len = 0)
    {b : CBlock} (hb : b ∈ joinPieces mine cache frame hint stash f
      (runsOf (fun o => !(here.any fun b => b.has (16 * frame + o)) && q o) start len)) {w : Nat} {x : CWord} (hx : b.word? w = some x) :
    x = f (w % 16) ∨ ∃ a ∈ here, a.word? w = some x := by
  obtain ⟨r1, r2⟩ := runsOf_spec (fun o => !(here.any fun b => b.has (16 * frame + o)) && q o) start len
  have hr : ∀ r ∈ runsOf (fun o => !(here.any fun b => b.has (16 * frame + o)) && q o) start len, 0 < r.2 ∧ r.1 + r.2 ≤ 16 :=
    fun r hr => by have := r1 r hr; omega
  have hclear : ∀ r ∈ runsOf (fun o => !(here.any fun b => b.has (16 * frame + o)) && q o) start len, ∀ b ∈ here,
      blockEnd b ≤ r.1 ∨ r.1 + r.2 ≤ b.start := fun r hr' =>
    not_has_clear (fun b hb => (hc b hb).2) (hr r hr').1 (fun b hb => (h.1 b hb).1)
      (fun i hi => by have := (r1 r hr').2.2.2 i hi; simp only [Bool.and_eq_true] at this; exact this.1) (hr r hr').2
  rcases word?_joinPieces (soundBlocks_sublist hm h) (fun b hb => hc b (hm.subset hb)) hr (fun r hr b hb => hclear r hr b (hm.subset hb)) r2
    hb hx with hfill | ⟨a, ha, hax⟩
  · exact .inl hfill
  · exact .inr ⟨a, hm.subset ha, hax⟩

/-- A fill with clean words makes no word dirty, and changes memory at the dirty words of the cache that it fills alone. -/
theorem fillRun_clean {s : State} (hs : SoundMemory s) (cache frame start n hint : Nat) {f : Nat → CWord} (hf : ∀ o, (f o).isDirty = false) :
    (∀ k, DirtyFrom k s (fillRun s cache frame start n hint f)) ∧
      ∀ l, (cache < 512 → ¬ Dirty s cache (l / 16)) → homeAt (fillRun s cache frame start n hint f) l = homeAt s l := by
  unfold fillRun
  lift_lets
  intro here rest len mapped lacks pieces stashed own mine s1
  have hhere : SoundBlocks here := soundBlocks_sublist List.filter_sublist hs.2.1
  have hc : ∀ b ∈ here, b.cache = cache ∧ b.frame = frame := fun b hb => by simpa using (List.mem_filter.1 hb).2
  have hin : ∀ b ∈ here, b ∈ s.blocks := fun b hb => (List.mem_filter.1 hb).1
  have hl : start + len ≤ 16 ∨ len = 0 := by unfold len; omega
  have hnew : ∀ (part : List CBlock) (stash : Bool) (hint' : Nat) (q : Nat → Bool), part.Sublist here → ∀ k word x,
      WordIn (joinPieces part cache frame hint' stash f (runsOf (fun o => lacks o && q o) start len)) k word x → x.isDirty = true →
        WordIn s.blocks k word x := by
    rintro part stash hint' q hpart k word x ⟨b, hb, hk, hx⟩ hdirty
    rcases word?_filled hhere hc hpart hl hb hx with rfl | ⟨a, ha, hax⟩
    · rw [hf] at hdirty
      cases hdirty
    · obtain ⟨hcache, -⟩ := (joinPieces_sound hint' stash f q hhere hc hpart hl).2.1 b hb
      exact ⟨a, hin a ha, (hc a ha).1.trans (hcache.symm.trans hk), hax⟩
  have h1 : (∀ k word x, WordIn s1.blocks k word x → x.isDirty = true → WordIn s.blocks k word x) ∧ Framed s1 ∧ (s1.mem = s.mem ∧ s1.marks = s.marks) := by
    unfold s1
    split
    · exact ⟨fun _ _ _ h _ => h, framed_of_sound hs, rfl, rfl⟩
    · refine ⟨fun k word x ⟨b, hb, hk, hx⟩ hdirty => ?_, fun b hb => ?_, rfl, rfl⟩
      · rcases List.mem_append.1 hb with hb | hb
        · refine ⟨b, ?_, hk, hx⟩
          rcases List.mem_append.1 hb with hb | hb
          · exact (List.mem_filter.1 hb).1
          · exact hin b (List.mem_filter.1 hb).1
        · exact hnew _ _ _ mapped List.filter_sublist k word x ⟨b, hb, hk, hx⟩ hdirty
      · rcases List.mem_append.1 hb with hb | hb
        · rcases List.mem_append.1 hb with hb | hb
          · exact framed_of_sound hs b (List.mem_filter.1 hb).1
          · exact framed_of_sound hs b (hin b (List.mem_filter.1 hb).1)
        · exact ((joinPieces_sound hint true f mapped hhere hc List.filter_sublist hl).1.1 b hb).2
  obtain ⟨hwords, hframed, hmem, hmarks⟩ := h1
  have hfrom : ∀ k, DirtyFrom k s s1 := fun k => dirtyFrom_of_wordIn (hwords k)
  have hread : ∀ l, homeAt s1 l = homeAt s l := fun l => by rw [homeAt, readHome, hmem, hmarks, homeAt, readHome]
  split
  · exact ⟨hfrom, fun l _ => hread l⟩
  · intro new
    split
    · next t ht =>
      refine ⟨fun k word ⟨x, ⟨b, hb, hk, hx⟩, hdirty⟩ => ?_, fun l hclean => ?_⟩
      · rcases List.mem_append.1 hb with hb | hb
        · exact hfrom k _ (dirtyFrom_makeRoom k ht _ ⟨x, ⟨b, (List.mem_filter.1 hb).1, hk, hx⟩, hdirty⟩)
        · obtain ⟨hint', hjoin⟩ := hintedBlocks_eq s1 mine cache frame hint f pieces
          have hb : b ∈ joinPieces mine cache frame hint' false f pieces := hjoin ▸ hb
          exact ⟨x, hnew mine _ _ (fun o => !(mapped o)) List.filter_sublist k word x ⟨b, hb, hk, hx⟩ hdirty, hdirty⟩
      · exact (homeAt_makeRoom hframed ht fun hlow hdirty => hclean hlow (hfrom cache _ hdirty)).trans (hread l)
    · exact ⟨hfrom, fun l _ => hread l⟩

/-! ## Stores performed, and words written back -/

section
variable {s : State} (k : Nat)

theorem dirtyFrom_fillRun (hs : SoundMemory s) (cache frame start n hint : Nat) {f : Nat → CWord} (hf : ∀ o, (f o).isDirty = false) :
    DirtyFrom k s (fillRun s cache frame start n hint f) := (fillRun_clean hs cache frame start n hint hf).1 k

theorem dirtyFrom_hitHint (cache word hint : Nat) : DirtyFrom k s (hitHint s cache word hint) := by
  unfold hitHint
  split
  · refine dirtyFrom_map (f := fun b => if b.cache = cache ∧ b.has word ∧ b.hint = 0 ∧
      retained (setBlocks s cache b.frame) < retainTags cache then { b with hint := 2 } else b) rfl (fun b => ?_) fun b w x hx _ => ?_
    · split <;> rfl
    · split at hx <;> exact hx
  · exact DirtyFrom.refl _ _

theorem dirtyFrom_gainWord (hs : SoundMemory s) (core word hint : Nat) {y : CWord} (hy : y.isDirty = false) :
    DirtyFrom k s (gainWord s core word hint y) := by
  unfold gainWord
  split
  · exact dirtyFrom_setHeld _ _ _ _ hy
  · exact dirtyFrom_fillRun k hs _ _ _ _ _ fun _ => hy

theorem dirtyFrom_downgrade (word : Nat) : DirtyFrom k s (downgrade s word) := by
  unfold downgrade
  dsimp only
  generalize hr : (if (holders s word).any (fun h => h.2 == .modified) then writeBackWord s word else s) = r
  have h1 : DirtyFrom k s r := by
    rw [← hr]
    split
    · exact dirtyFrom_writeBackWord _ _ _
    · exact DirtyFrom.refl _ _
  refine h1.trans ?_
  refine dirtyFrom_map (f := fun b => match b.word? word with
      | some .exclusive | some .modified => if b.cache < 512 then b.setWord word .shared else b
      | _ => b) rfl (fun b => ?_) fun b w x hx hdirty => ?_
  · split
    · split
      · exact cache_setWord _ _ _
      · rfl
    · split
      · exact cache_setWord _ _ _
      · rfl
    · rfl
  · split at hx
    · split at hx
      · exact setWord_clean rfl _ _ hx hdirty
      · exact hx
    · split at hx
      · exact setWord_clean rfl _ _ hx hdirty
      · exact hx
    · exact hx

theorem dirtyFrom_takeExclusive (core word : Nat) : DirtyFrom k s (takeExclusive s core word) := by
  unfold takeExclusive
  dsimp only
  generalize hr : (if (holders s word).any (fun h => h.1 != core && h.2 == .modified) then writeBackWord s word else s) = r
  have h1 : DirtyFrom k s r := by
    rw [← hr]
    split
    · exact dirtyFrom_writeBackWord _ _ _
    · exact DirtyFrom.refl _ _
  refine h1.trans ?_
  refine dirtyFrom_map (f := fun b =>
      if b.cache < 512 ∧ b.cache ≠ core ∧ (b.word? word).any CWord.coherent then
        b.setWord word (.stale (wordBytes s word) (get Mark.ok s.marks word) r.nextId)
      else if b.cache = core ∧ b.word? word = some .shared then b.setWord word .exclusive else b) rfl (fun b => ?_) fun b w x hx hdirty => ?_
  · split
    · exact cache_setWord _ _ _
    · split
      · exact cache_setWord _ _ _
      · rfl
  · split at hx
    · exact setWord_clean rfl _ _ hx hdirty
    · split at hx
      · exact setWord_clean rfl _ _ hx hdirty
      · exact hx

theorem isDirty_fillWord (s : State) (frame o : Nat) {x : CWord} (hx : x.isDirty = false) : (fillWord s frame x o).isDirty = false := by
  unfold fillWord
  dsimp only
  split
  · rfl
  · exact hx

theorem homeAt_same {s t : State} (hmem : t.mem = s.mem) (hmarks : t.marks = s.marks) (l : Nat) : homeAt t l = homeAt s l := by
  unfold homeAt readHome
  rw [hmem, hmarks]

theorem homeAt_foldl_same {α : Type} {f : State → α → State} (hf : ∀ s x, (f s x).mem = s.mem ∧ (f s x).marks = s.marks) (l : List α) (s : State)
    (i : Nat) : homeAt (l.foldl f s) i = homeAt s i :=
  foldl_keeps (π := fun s => homeAt s i) (fun s x => homeAt_same (hf s x).1 (hf s x).2 i) l s

theorem takeExclusive_home (s : State) (core word : Nat) : (takeExclusive s core word).mem = s.mem ∧ (takeExclusive s core word).marks = s.marks := by
  unfold takeExclusive
  dsimp only
  split <;> exact ⟨rfl, rfl⟩

theorem downgrade_home (s : State) (word : Nat) : (downgrade s word).mem = s.mem ∧ (downgrade s word).marks = s.marks := by
  unfold downgrade
  dsimp only
  split <;> exact ⟨rfl, rfl⟩

theorem hitHint_home (s : State) (cache word hint : Nat) : (hitHint s cache word hint).mem = s.mem ∧ (hitHint s cache word hint).marks = s.marks := by
  unfold hitHint
  split <;> exact ⟨rfl, rfl⟩

omit k in
/-- A fill answered makes no word dirty, and changes what lies at home at the dirty words of the core that asked alone. -/
theorem answerFor_clean (hs : SoundMemory s) (f : Fill) (mine : Nat → Bool) : (∀ k, DirtyFrom k s (answerFor s f mine)) ∧
    ∀ l, ¬ Dirty s f.core (l / 16) → homeAt (answerFor s f mine) l = homeAt s l := by
  have hown : ∀ k (s : State) (w : Nat), DirtyFrom k s (if mine w then takeExclusive s f.core w else downgrade s w) := fun k s w => by
    split
    · exact dirtyFrom_takeExclusive _ _ _
    · exact dirtyFrom_downgrade _ _
  have htaken : ∀ (s : State) (w : Nat), (if mine w then takeExclusive s f.core w else downgrade s w).mem = s.mem ∧
      (if mine w then takeExclusive s f.core w else downgrade s w).marks = s.marks := fun s w => by
    split
    · exact takeExclusive_home _ _ _
    · exact downgrade_home _ _
  have hsound : ∀ (s : State) (w : Nat), SoundMemory s → SoundMemory (if mine w then takeExclusive s f.core w else downgrade s w) :=
    fun s w h => by
      split
      · exact takeExclusive_sound _ _ h
      · exact downgrade_sound _ h
  have hleft : ∀ (t : State) (o : Nat), (fillWord t f.frame (if mine (16 * f.frame + o) then .exclusive else .shared) o).isDirty = false :=
    fun t o => isDirty_fillWord t _ _ (by split <;> rfl)
  have hasked : ∀ k, DirtyFrom k s { s with fills := s.fills.erase f } := fun k => dirtyFrom_blocks fun _ hb => hb
  have hhome : ∀ l, homeAt { s with fills := s.fills.erase f } l = homeAt s l := fun _ => rfl
  have hsasked : SoundMemory { s with fills := s.fills.erase f } := fills_sound _ hs
  unfold answerFor
  dsimp only
  generalize (List.range f.len).map (fun i => 16 * f.frame + f.start + i) = ws
  generalize { s with fills := s.fills.erase f } = s0 at hasked hsasked hhome
  have h1 := fun k => (hasked k).trans (dirtyFrom_foldl (hown k) ws s0)
  have i1 := fun l => (homeAt_foldl_same htaken ws s0 l).trans (hhome l)
  have hs1 := sound_fold _ hsound ws _ hsasked
  generalize ws.foldl (fun s w => if mine w then takeExclusive s f.core w else downgrade s w) s0 = s1 at h1 hs1 i1
  have h2 := fun k => (h1 k).trans (dirtyFrom_foldl (fun t w => dirtyFrom_hitHint (s := t) k (512 + f.slice) w f.hint) ws s1)
  have i2 := fun l => (homeAt_foldl_same (fun t w => hitHint_home t (512 + f.slice) w f.hint) ws s1 l).trans (i1 l)
  have hs2 := sound_fold _ (fun t w h => hitHint_sound (512 + f.slice) w f.hint h) ws _ hs1
  generalize ws.foldl (fun s w => hitHint s (512 + f.slice) w f.hint) s1 = s2 at h2 hs2 i2
  have h3 := fun k => (h2 k).trans (dirtyFrom_fillRun k hs2 (512 + f.slice) f.frame f.start f.len f.hint (f := fun _ => .shared) fun _ => rfl)
  have i3 := fun l => ((fillRun_clean hs2 (512 + f.slice) f.frame f.start f.len f.hint (f := fun _ => .shared) fun _ => rfl).2 l
    fun hlow => absurd hlow (by omega)).trans (i2 l)
  have hs3 := fillRun_sound (512 + f.slice) f.frame f.start f.len f.hint (fun _ => .shared) hs2
  generalize fillRun s2 (512 + f.slice) f.frame f.start f.len f.hint (fun _ => .shared) = s3 at h3 hs3 i3
  split
  · have h4 := fun k => (h3 k).trans (dirtyFrom_fillRun k hs3 (replicaCache s3 f.core) f.frame f.start f.len f.hint
      (f := fun o => .own (wordBytes s3 (16 * f.frame + o)) false (get Mark.ok s3.marks (16 * f.frame + o))) fun _ => rfl)
    have i4 := fun l => ((fillRun_clean hs3 (replicaCache s3 f.core) f.frame f.start f.len f.hint
      (f := fun o => .own (wordBytes s3 (16 * f.frame + o)) false (get Mark.ok s3.marks (16 * f.frame + o))) fun _ => rfl).2 l
        fun hlow => absurd hlow (by unfold replicaCache; omega)).trans (i3 l)
    have hs4 := fillRun_sound (replicaCache s3 f.core) f.frame f.start f.len f.hint
      (fun o => .own (wordBytes s3 (16 * f.frame + o)) false (get Mark.ok s3.marks (16 * f.frame + o))) hs3
    exact ⟨fun k => (h4 k).trans (dirtyFrom_fillRun k hs4 _ _ _ _ _ (hleft _)),
      fun l hl => ((fillRun_clean hs4 _ _ _ _ _ (hleft _)).2 l fun _ hd => hl (h4 _ _ hd)).trans (i4 l)⟩
  · exact ⟨fun k => (h3 k).trans (dirtyFrom_fillRun k hs3 _ _ _ _ _ (hleft _)),
      fun l hl => ((fillRun_clean hs3 _ _ _ _ _ (hleft _)).2 l fun _ hd => hl (h3 _ _ hd)).trans (i3 l)⟩

theorem dirtyFrom_answerFor (hs : SoundMemory s) (f : Fill) (mine : Nat → Bool) : DirtyFrom k s (answerFor s f mine) :=
  (answerFor_clean hs f mine).1 k

/-- A store committed by an L1 that holds its word exclusive. -/
theorem dirtyFrom_stored (hs : SoundMemory s) (e : Pend) (pend : List Pend) (hpend : pend.Sublist s.pend) (known : List (Nat × Nat)) :
    DirtyFrom k s (gainWord { commitWord (takeExclusive { s with pend := pend } e.core e.word) e.word e.bytes .ok with known := known }
      e.core e.word e.hint .modified) :=
  have hs2 : SoundMemory (takeExclusive { s with pend := pend } e.core e.word) := takeExclusive_sound _ _ (dropPends_sound _ hpend hs)
  have hfrom : DirtyFrom k s (takeExclusive { s with pend := pend } e.core e.word) := dirtyFrom_takeExclusive (s := { s with pend := pend }) k _ _
  hfrom.trans ((dirtyFrom_commitWord k _ e.word e.bytes .ok).trans
    (dirtyFrom_gainWord k (known_sound known (commitWord_sound e.word e.bytes .ok hs2)) _ _ _ rfl))

theorem dirtyFrom_performPend (hs : SoundMemory s) (e : Pend) : DirtyFrom k s (performPend s e) := by
  unfold performPend
  dsimp only
  split
  · exact dirtyFrom_stored k hs e _ List.erase_sublist _
  · exact (dirtyFrom_answerFor k hs _ _).trans (dirtyFrom_stored k (answerFill_sound _ hs) e _ List.erase_sublist _)

theorem dirtyFrom_performAll (hs : SoundMemory s) (p : Pend → Bool) : DirtyFrom k s (performAll s p) :=
  dirtyFrom_foldl_sound (f := fun t e => if pendWaits s e || t.pend.any (fun f => f.before e) then t else performPend t e)
    (fun t e h => by
      split
      · exact h
      · exact performPend_sound _ h)
    (fun t e h => by
      split
      · exact DirtyFrom.refl _ _
      · exact dirtyFrom_performPend k h e) _ hs

theorem dirtyFrom_cleanWord (core word : Nat) : DirtyFrom k s (cleanWord s core word) := by
  unfold cleanWord
  split
  · split
    · exact DirtyFrom.refl _ _
    · exact (dirtyFrom_commitWord _ _ _ _ _).trans (dirtyFrom_setHeld _ _ _ _ rfl)
  · exact DirtyFrom.refl _ _

theorem dirtyFrom_drainWord (hs : SoundMemory s) (core word : Nat) : DirtyFrom k s (drainWord s core word) := by
  have h1 : DirtyFrom k s (performPends s core fun e => e.word == word) := dirtyFrom_performAll k hs _
  unfold drainWord
  dsimp only
  generalize performPends s core (fun e => e.word == word) = t at h1 ⊢
  have h2 := h1.trans (dirtyFrom_cleanWord (s := t) k core word)
  split
  · exact h2.trans ((dirtyFrom_writeBackWord _ _ _).trans (dirtyFrom_setHeld _ _ _ _ rfl))
  · exact h2

end

end Sys2Proof.CacheWords

/-! # racq, flush and inval (11 R298, R317) -/

namespace Sys2Proof.RangeOperations

open Sys2Proof.Machine Sys2Proof.Machine.Laws Sys2Proof.FramesKept Sys2Proof.RestKept Sys2Proof.NothingHeld Sys2Proof.CacheWords
open Sys2Proof.HeldStores Sys2Proof.MatrixIssue Sys2Proof.MatrixEffect Sys2Proof.SlotConversion Sys2Proof.TenureOps Sys2Proof.Barriers
open Sys2Proof.Windows Sys2Proof.CleanCaches

/-! ## Words written back -/

theorem coreTenured_of_restOf {s t : State} (h : restOf t = restOf s) (core word : Nat) : coreTenured t core word = coreTenured s core word := by
  have hrest : ∀ u : State, coreTenured u core word = coreTenured (restOf u) core word := fun u => by
    unfold restOf
    rfl
  rw [hrest t, h, ← hrest]

theorem homeDown_of_restOf {s t : State} (h : restOf t = restOf s) (loc : Nat) : homeDown t loc = homeDown s loc := by
  have hrest : ∀ u : State, homeDown u loc = homeDown (restOf u) loc := fun u => by
    unfold restOf
    rfl
  rw [hrest t, h, ← hrest]

/-- Whether the dirty words of a core that meet a test may be written back. -/
def Cleanable (s : State) (core : Nat) (p : Nat → Bool) : Prop :=
  ∀ w, p w = true → Dirty s core w → coreTenured s core w = false ∧ homeDown s (16 * w) = false

theorem cleanable_of_cleanWaits {s : State} {core : Nat} {p : Nat → Bool} (h : cleanWaits s core p = false) : Cleanable s core p := by
  rintro w hp ⟨x, hin, hx⟩
  have hnot := List.any_eq_false.1 h w (mem_cacheWords hin hx)
  simp only [hp, Bool.true_and, Bool.or_eq_true, not_or, Bool.not_eq_true] at hnot
  exact hnot

theorem Cleanable.mono {s t : State} {core : Nat} {p : Nat → Bool} (h : Cleanable s core p) (hrest : restOf t = restOf s)
    (hfrom : DirtyFrom core s t) : Cleanable t core p := fun w hp hdirty => by
  rw [coreTenured_of_restOf hrest, homeDown_of_restOf hrest]
  exact h w hp (hfrom w hdirty)

theorem not_dirty_setHeld {s : State} {core word : Nat} {y : CWord} (hy : y.isDirty = false) : ¬ Dirty (s.setHeld core word y) core word := by
  rintro ⟨x, ⟨b, hb, hcache, hx⟩, hdirty⟩
  obtain ⟨a, ha, rfl⟩ := List.mem_map.1 hb
  by_cases hcore : a.cache = core
  · rw [if_pos hcore, word?_setWord] at hx
    split at hx
    · cases hx
      rw [hy] at hdirty
      cases hdirty
    · next hhas => exact hhas ⟨rfl, has_of_word? hx⟩
  · rw [if_neg hcore] at hcache
    exact hcore hcache

theorem cleanWord_cleans {s : State} (hs : SoundBlocks s.blocks) {core word : Nat}
    (hfree : Dirty s core word → coreTenured s core word = false ∧ homeDown s (16 * word) = false) :
    ¬ Dirty (cleanWord s core word) core word := by
  by_cases hdirty : Dirty s core word
  · obtain ⟨htenured, hdown⟩ := hfree hdirty
    obtain ⟨bs, m, hown⟩ := (dirty_iff_ownCopy hs).1 hdirty
    unfold cleanWord
    rw [hown]
    dsimp only
    rw [htenured, hdown, Bool.or_self, if_neg Bool.false_ne_true]
    exact not_dirty_setHeld rfl
  · exact fun h => hdirty (dirtyFrom_cleanWord core core word _ h)

theorem drainWord_cleans {s : State} (hs : SoundMemory s) {core word : Nat} {p : Nat → Bool} (hfree : Cleanable s core p) (hp : p word = true) :
    ¬ Dirty (drainWord s core word) core word := by
  have hrest : restOf (performPends s core fun e => e.word == word) = restOf s := restOf_performPends _ _ _
  have hclean := hfree.mono hrest (dirtyFrom_performAll core hs _)
  have hsound := performPends_sound core (fun e => e.word == word) hs
  unfold drainWord
  dsimp only
  have hcleaned := cleanWord_cleans hsound.2.1 (hclean word hp)
  generalize cleanWord (performPends s core fun e => e.word == word) core word = t at hcleaned ⊢
  split
  · exact not_dirty_setHeld rfl
  · exact hcleaned

/-- Words drained: those that meet a test, and that the list names where they are dirty, are clean. -/
theorem not_dirty_drained {core : Nat} {p : Nat → Bool} (l : List Nat) {s : State} (hs : SoundMemory s) (hfree : Cleanable s core p)
    (hl : ∀ w, p w = true → Dirty s core w → w ∈ l) :
    ∀ w, p w = true → ¬ Dirty (l.foldl (fun s w => drainWord s core w) s) core w := by
  induction l generalizing s with
  | nil => exact fun w hp hdirty => absurd (hl w hp hdirty) List.not_mem_nil
  | cons x l ih =>
    have hfrom := dirtyFrom_drainWord core hs core x
    refine ih (drainWord_sound core x hs) (hfree.mono (restOf_drainWord _ _ _) hfrom) fun w hp hdirty => ?_
    rcases List.mem_cons.1 (hl w hp (hfrom w hdirty)) with rfl | hin
    · exact absurd hdirty (drainWord_cleans hs hfree hp)
    · exact hin

theorem not_dirty_drainCore {s : State} (hs : SoundMemory s) {core : Nat} {p : Nat → Bool} (hfree : Cleanable s core p) :
    ∀ w, p w = true → ¬ Dirty (drainCore s core p) core w := by
  have hsound := performPends_sound core (fun e => p e.word) hs
  refine not_dirty_drained _ hsound (hfree.mono (restOf_performPends _ _ _) (dirtyFrom_performAll core hs _)) fun w hp ⟨x, hin, hx⟩ => ?_
  refine List.mem_filter.2 ⟨?_, hp⟩
  rw [soleWords, List.mem_dedup, List.mem_append, dirtyWords, List.mem_dedup, List.mem_append]
  exact .inl (.inr (mem_cacheWords hin hx))

/-! ## Stores performed -/

theorem pendOwed_of_imp {s : State} {core : Nat} {p q : Pend → Bool} (hq : ∀ e ∈ s.pend, q e = true → p e = true)
    (h : pendOwed s core p = false) : pendOwed s core q = false := by
  refine List.any_eq_false.2 fun e he => ?_
  obtain ⟨-, hin⟩ := mem_neededPends_of_cover (ι := Unit) (q := fun _ f => f.core == core && p f) (taken := fun _ => [])
    (fun f hf hpf => ⟨(), by
      simp only [Bool.and_eq_true] at hpf ⊢
      exact ⟨hpf.1, hq f (List.mem_reverse.1 hf) hpf.2⟩⟩) (fun f hf => by cases hf) e he
  exact List.any_eq_false.1 h e hin

/-- A store that may be performed may be performed where an operation is gone. -/
theorem pendWaits_dropOp {s : State} {e : Pend} (i : Nat) (h : pendWaits s e = false) : pendWaits (s.dropOp i) e = false := by
  have howned : engineOwned s e.word e.since = false → engineOwned (s.dropOp i) e.word e.since = false := fun h =>
    List.any_eq_false.2 fun o ho => List.any_eq_false.1 h o (List.mem_filter.1 ho).1
  have hfree : ∀ n, slotFree s n = true → slotFree (s.dropOp i) n = true := fun n h => by
    have hsub : ((s.dropOp i).fills.filter fun x => x.slice == n).Sublist (s.fills.filter fun x => x.slice == n) :=
      List.filter_sublist.filter _
    simp only [slotFree, Bool.and_eq_true, decide_eq_true_eq, List.all_eq_true] at h ⊢
    exact ⟨hsub.length_le.trans_lt h.1, fun x hx => h.2 x (hsub.subset hx)⟩
  have hfind : (s.dropOp i).fills.find? (fun f => f.brings e.core (e.word / 16) (e.word % 16) (e.word % 16)) =
      s.fills.find? fun f => f.brings e.core (e.word / 16) (e.word % 16) (e.word % 16) := by
    rw [State.dropOp, List.find?_filter]
    congr 1
    funext f
    cases hf : f.op with
    | none => simp
    | some j => simp [Fill.brings, hf]
  have hmiss : pendMiss (s.dropOp i) e = pendMiss s e := rfl
  have hfill : (pendFill s e).isNone = false → (pendFill (s.dropOp i) e).isNone = false := by
    unfold pendFill
    rw [hfind, hmiss]
    split
    · exact id
    · split
      · next hslot =>
        rw [if_pos (hfree _ hslot)]
        exact id
      · exact fun h => absurd h Bool.noConfusion
  have hdown : homeDown (s.dropOp i) (16 * e.word) = homeDown s (16 * e.word) := rfl
  have hkept : keptWord (s.dropOp i) e.team e.word = keptWord s e.team e.word := rfl
  have htenured : wordTenured (s.dropOp i) e.team e.word (e.bytes.map (·.1)) = wordTenured s e.team e.word (e.bytes.map (·.1)) := rfl
  have howns : ownsExclusive (s.dropOp i) e.core e.word = ownsExclusive s e.core e.word := rfl
  simp only [pendWaits, Bool.or_eq_false_iff, Bool.and_eq_false_iff, hdown, hkept, htenured, howns] at h ⊢
  obtain ⟨⟨⟨⟨h1, h2⟩, h3⟩, h4⟩, h5⟩ := h
  exact ⟨⟨⟨⟨h1, howned h2⟩, h3⟩, h4⟩, h5.imp id hfill⟩

theorem pendOwed_dropOp {s : State} {core : Nat} {p : Pend → Bool} (i : Nat) (h : pendOwed s core p = false) :
    pendOwed (s.dropOp i) core p = false :=
  List.any_eq_false.2 fun e he => by
    have hwaits : pendWaits s e = false := by simpa using List.any_eq_false.1 h e he
    rw [pendWaits_dropOp i hwaits]
    exact Bool.false_ne_true

/-- Where none of the stores of a core that meet a test is owed, draining leaves none of them. -/
theorem pend_drainCore {s : State} (hs : SoundPends s) {core : Nat} {p : Nat → Bool} (h : pendOwed s core (fun e => p e.word) = false) :
    ∀ e ∈ (drainCore s core p).pend, e.core = core → p e.word = false := by
  intro e he hcore
  have hin : e ∈ (performPends s core fun e => p e.word).pend := (foldl_pend_sublist (fun s w => pend_drainWord_sublist s core w) _ _).subset he
  have hnone := performAll_performs (s := s) (p := fun e => e.core == core && p e.word) hs (fun g hg hpg => by
    simp only [Bool.and_eq_true, beq_iff_eq] at hpg
    rw [hpg.1]
    refine pendOwed_of_imp (fun x _ hx => ?_) h
    rw [beq_iff_eq] at hx
    rw [hx, hpg.2]) e hin
  rw [hcore, beq_self_eq_true, Bool.true_and] at hnone
  exact hnone

/-! ## Words dropped -/

/-- Whether a cache holds a word. -/
def Holds (s : State) (cache word : Nat) : Prop := ∃ b ∈ s.blocks, b.cache = cache ∧ b.has word = true

theorem held?_none_of_not_holds {s : State} {cache word : Nat} (h : ¬ Holds s cache word) : held? s cache word = none := by
  cases hx : held? s cache word with
  | none => rfl
  | some x =>
    obtain ⟨b, hb, hcache, hword⟩ := wordIn_of_held? hx
    exact absurd ⟨b, hb, hcache, has_of_word? hword⟩ h

/-- A cache holds no more words than it did. -/
def HoldsFrom (s t : State) : Prop := ∀ cache word, Holds t cache word → Holds s cache word

theorem holdsFrom_of_within {s t : State} (h : Within s t) : HoldsFrom s t := fun cache word ⟨b, hb, hcache, hhas⟩ => by
  obtain ⟨a, ha, ⟨h1, h2, h3, h4⟩, -⟩ := h b hb
  refine ⟨a, ha, h1 ▸ hcache, ?_⟩
  unfold CBlock.has at hhas ⊢
  rw [← h2, ← h3, ← h4]
  exact hhas

theorem evictBlock_within_rest (s : State) (b : CBlock) : Within { s with blocks := s.blocks.erase b } (evictBlock s b) := by
  have h : ∀ (l : List (CWord × Nat)) (t : State), Within t
      (l.foldl (fun s p => leaveWord s b.cache (16 * b.frame + b.start + p.2) p.1) t) := fun l => by
    induction l with
    | nil => exact fun t => Within.refl t
    | cons p l ih => exact fun t => (leaveWord_within t _ _ _).trans (ih _)
  exact h _ _

/-- The parts of a block that a word splits hold what it held, but for that word. -/
theorem word?_split {b c : CBlock} {word : Nat} (hhas : b.has word = true) (hc : c ∈ b.split word) :
    c.cache = b.cache ∧ c.has word = false ∧ ∀ w x, c.word? w = some x → b.word? w = some x := by
  have hin := hhas
  simp only [CBlock.has, Bool.and_eq_true, beq_iff_eq, decide_eq_true_eq] at hin
  unfold CBlock.split at hc
  rw [if_pos hhas] at hc
  have hpart := (List.mem_filter.1 hc).1
  rw [List.mem_pair] at hpart
  rcases hpart with rfl | rfl
  · refine ⟨rfl, ?_, fun w x hx => ?_⟩
    · simp only [CBlock.has, List.length_take, Bool.and_eq_false_iff, decide_eq_false_iff_not]
      omega
    · obtain ⟨h1, h2, h3⟩ := word?_eq_some.1 hx
      dsimp only at h1 h2 h3
      have hlt := (List.getElem?_eq_some_iff.1 h3).1
      rw [List.length_take] at hlt
      rw [List.getElem?_take_of_lt (by omega)] at h3
      exact word?_eq_some.2 ⟨h1, h2, h3⟩
  · refine ⟨rfl, ?_, fun w x hx => ?_⟩
    · simp only [CBlock.has, Bool.and_eq_false_iff, decide_eq_false_iff_not]
      omega
    · obtain ⟨h1, h2, h3⟩ := word?_eq_some.1 hx
      dsimp only at h1 h2 h3
      rw [List.getElem?_drop] at h3
      refine word?_eq_some.2 ⟨h1, by omega, ?_⟩
      rw [← h3]
      congr 1
      omega

theorem holds_of_word {b : CBlock} {w : Nat} (h : b.has w = true) : ∃ x, b.word? w = some x :=
  Option.isSome_iff_exists.1 ((has_iff_word? b w).1 h)

/-- A word dropped from a cache: it no longer holds it, no cache holds more than it did, and no word becomes dirty. -/
theorem dropHeld_drops {s : State} (hs : SoundMemory s) (cache word : Nat) :
    HoldsFrom s (dropHeld s cache word) ∧ ¬ Holds (dropHeld s cache word) cache word ∧ ∀ k, DirtyFrom k s (dropHeld s cache word) := by
  unfold dropHeld
  split
  · next hnone =>
    refine ⟨fun _ _ h => h, ?_, fun k => DirtyFrom.refl k s⟩
    rintro ⟨b, hb, hcache, hhas⟩
    have hnot := List.find?_eq_none.1 hnone b hb
    rw [hcache, hhas] at hnot
    simp at hnot
  · next b hfind =>
    have hin : b ∈ s.blocks := List.mem_of_find?_eq_some hfind
    obtain ⟨hcache, hhas⟩ : b.cache = cache ∧ b.has word = true := by simpa using List.find?_some hfind
    have hrest : ∀ a ∈ s.blocks.erase b, a.cache = cache → a.has word = true → False := fun a ha hacache hahas => by
      have ha' := (soundBlocks_nodup hs.2.1).mem_erase_iff.1 ha
      obtain ⟨x, hx⟩ := holds_of_word hahas
      obtain ⟨y, hy⟩ := holds_of_word hhas
      exact ha'.1 (word?_unique hs.2.1 ha'.2 hin (hacache.trans hcache.symm) hx hy)
    dsimp only
    split
    · have hwithin := holdsFrom_of_within (evictBlock_within_rest s b)
      refine ⟨holdsFrom_of_within (evictBlock_within s b), fun hholds => ?_, fun k => dirtyFrom_evictBlock k s b⟩
      obtain ⟨a, ha, hacache, hahas⟩ := hwithin cache word hholds
      exact hrest a ha hacache hahas
    · have hword : ∀ k w x, WordIn (s.blocks.erase b ++ b.split word) k w x → WordIn s.blocks k w x := fun k w x ⟨a, ha, hk, hx⟩ => by
        rcases List.mem_append.1 ha with ha | ha
        · exact ⟨a, List.mem_of_mem_erase ha, hk, hx⟩
        · obtain ⟨h1, -, h3⟩ := word?_split hhas ha
          exact ⟨b, hin, h1.symm.trans hk, h3 w x hx⟩
      refine ⟨fun k w ⟨a, ha, hk, hahas⟩ => ?_, ?_, fun k => dirtyFrom_of_wordIn fun w x h _ => hword k w x h⟩
      · obtain ⟨x, hx⟩ := holds_of_word hahas
        obtain ⟨c, hc, hck, hcx⟩ := hword k w x ⟨a, ha, hk, hx⟩
        exact ⟨c, hc, hck, has_of_word? hcx⟩
      · rintro ⟨a, ha, hacache, hahas⟩
        rcases List.mem_append.1 ha with ha | ha
        · exact hrest a ha hacache hahas
        · obtain ⟨-, h2, -⟩ := word?_split hhas ha
          rw [h2] at hahas
          cases hahas

theorem HoldsFrom.trans {s t u : State} (h : HoldsFrom s t) (h' : HoldsFrom t u) : HoldsFrom s u := fun c w hw => h c w (h' c w hw)

/-- Words dropped one after another. -/
theorem dropWords_drops (cache : Nat) (l : List Nat) {s : State} (hs : SoundMemory s) :
    HoldsFrom s (l.foldl (fun s w => dropHeld s cache w) s) ∧ (∀ w ∈ l, ¬ Holds (l.foldl (fun s w => dropHeld s cache w) s) cache w) ∧
      ∀ k, DirtyFrom k s (l.foldl (fun s w => dropHeld s cache w) s) := by
  induction l generalizing s with
  | nil => exact ⟨fun _ _ h => h, fun _ h => absurd h List.not_mem_nil, fun k => DirtyFrom.refl k s⟩
  | cons x l ih =>
    obtain ⟨h1, h2, h3⟩ := dropHeld_drops hs cache x
    obtain ⟨i1, i2, i3⟩ := ih (dropHeld_sound cache x hs)
    refine ⟨h1.trans i1, fun w hw => ?_, fun k => (h3 k).trans (i3 k)⟩
    rcases List.mem_cons.1 hw with rfl | hw
    · exact fun hholds => h2 (i1 _ _ hholds)
    · exact i2 w hw

/-- The words of ranges dropped from a cache. -/
theorem not_holds_dropped {s : State} (hs : SoundMemory s) (cache : Nat) (rngs : List Rng) {w : Nat} (hw : ∃ r ∈ rngs, r.word w = true) :
    ¬ Holds ((heldIn s cache rngs).foldl (fun s w => dropHeld s cache w) s) cache w := by
  obtain ⟨hfrom, hnone, -⟩ := dropWords_drops cache (heldIn s cache rngs) hs
  intro hholds
  obtain ⟨b, hb, hcache, hhas⟩ := hfrom cache w hholds
  obtain ⟨x, hx⟩ := holds_of_word hhas
  exact hnone w (List.mem_filter.2 ⟨mem_cacheWords ⟨b, hb, hcache, hx⟩ rfl, List.any_eq_true.2 hw⟩) hholds

/-! ## Completion -/

/-- The waves of an updated pair are told by the waves. -/
theorem waves_updPair {s t : State} (h : t.waves = s.waves) (i : Nat) (f : Wave → Wave) : (t.updPair i f).waves = (s.updPair i f).waves := by
  have hfind : t.wave? i = s.wave? i := wave?_of_waves h i
  unfold State.updPair
  rw [hfind]
  split
  · exact h
  · dsimp only
    split
    · simp only [State.updWave, h]
    · simp only [State.updWave, h]

theorem blocks_updPair (s : State) (i : Nat) (f : Wave → Wave) : (s.updPair i f).blocks = s.blocks := by
  rw [updPair_eq]

theorem pend_updPair (s : State) (i : Nat) (f : Wave → Wave) : (s.updPair i f).pend = s.pend := by
  rw [updPair_eq]

/-- The state of a wave once its flags may have woken it, by which sets of flags are clear. -/
def wokenBy (clear : BitVec 12 → Bool) : WState → WState
  | .waitFlags m => if clear m then .ready else .waitFlags m
  | st => st

theorem flagWake_state (w : Wave) : w.flagWake.state = wokenBy w.clearIn w.state := by
  unfold Wave.flagWake
  split
  · next m hstate =>
    rw [hstate, wokenBy]
    split
    · rfl
    · exact hstate
  · next hother =>
    unfold wokenBy
    split
    · next m hstate => exact absurd hstate (hother m)
    · rfl

theorem flagWake_fenced (w : Wave) (n : Nat) : (w.fenceAt n).flagWake.state = w.flagWake.state :=
  (flagWake_state _).trans (flagWake_state w).symm

theorem flagDown_fenced (w : Wave) (n f : Nat) :
    (w.fenceAt n).flagDown f = { w with flags := (w.flagDown f).flags, fenced := n, state := woken w (w.flagDown f) } := by
  have hflags : ((w.fenceAt n).flagDown f).flags = (w.flagDown f).flags := by
    rw [Wave.flagDown, Wave.flagWake_flags, Wave.flagDown, Wave.flagWake_flags]
    rfl
  have hwoken : woken (w.fenceAt n) ((w.fenceAt n).flagDown f) = woken w (w.flagDown f) := by
    unfold woken
    rw [hflags]
    exact flagWake_fenced { w with flags := (w.flagDown f).flags } n
  have h := flagDown_eq (w.fenceAt n) f
  rw [hflags, hwoken] at h
  exact h

/-- An acquire's operation that ends: the wave's last acquire is at `n`, and its flag is down. -/
theorem opDoneAt_of_fenced {i : Instr} {s r : State} {o : Op} {w : Wave} {n : Nat} {P : State → Wave → Prop} (hwave : s.wave? o.wave = some w)
    (hrole : w.role = .solo) (hwaves : r.waves = s.waves) (hops : r.ops = s.ops.filter fun x => x.id != o.id)
    (hexec : exec i s = .next ((r.updPair o.wave (Wave.fenceAt n)).updPair o.wave fun w => w.flagDown o.flag))
    (hP : ∀ w', P ((r.updPair o.wave (Wave.fenceAt n)).updPair o.wave fun w => w.flagDown o.flag) w') :
    OpDoneAt (fun _ => n) i s o P := by
  have hfound : r.wave? o.wave = some w := (wave?_of_waves hwaves _).trans hwave
  have hfirst : r.updPair o.wave (Wave.fenceAt n) = r.updWave o.wave (Wave.fenceAt n) := by
    rw [State.updPair, hfound]
    simp only [hrole]
  have hfenced := wave?_updWave_same (s := r) (f := Wave.fenceAt n) (fun _ => rfl) hfound
  have hsecond : (r.updWave o.wave (Wave.fenceAt n)).updPair o.wave (fun w => w.flagDown o.flag) =
      (r.updWave o.wave (Wave.fenceAt n)).updWave o.wave fun w => w.flagDown o.flag := by
    have hsolo : (w.fenceAt n).role = .solo := hrole
    rw [State.updPair, hfenced]
    simp only [hsolo]
  rw [hfirst, hsecond] at hexec hP
  refine ⟨_, w, (w.fenceAt n).flagDown o.flag, hexec, hwave, wave?_updWave_same (fun _ => Wave.flagDown_id _ _) hfenced, fun j hj => ?_, hops,
    ?_, fun f => ?_, hP _⟩
  · rw [wave?_updWave_other (fun _ => Wave.flagDown_id _ _) hj, wave?_updWave_other (f := Wave.fenceAt n) (fun _ => rfl) hj, wave?_of_waves hwaves]
  · rw [flagDown_fenced]
    rfl
  · exact getF_flagDown (w.fenceAt n) o.flag f

theorem coreOf_team {s : State} {o : Op} {tm : Team} (hteam : s.team? o.team = some tm) : coreOf s o = some tm.core := by
  rw [coreOf, hteam, Option.map_some]

theorem dropOp_kept {s : State} (hs : SoundMemory s) (i : Nat) : SoundMemory (s.dropOp i) := sound_same hs rfl rfl rfl le_rfl

theorem frameOf_dropWords (cache : Nat) (l : List Nat) (t : State) : frameOf (l.foldl (fun s w => dropHeld s cache w) t) = frameOf t :=
  foldl_keeps (π := frameOf) (fun s w => frameOf_dropWord s cache w) _ _

theorem pend_dropWords (cache : Nat) (l : List Nat) (t : State) : (l.foldl (fun s w => dropHeld s cache w) t).pend = t.pend :=
  foldl_keeps (π := State.pend) (fun s w => pend_dropHeld s cache w) _ _

/-- An L1 that has given up its stale words. -/
theorem freshen_facts {s : State} (hs : SoundMemory s) (core : Nat) : SoundMemory (freshen s core) ∧ frameOf (freshen s core) = frameOf s ∧
    (freshen s core).pend = s.pend ∧ HoldsFrom s (freshen s core) ∧ ∀ k, DirtyFrom k s (freshen s core) := by
  obtain ⟨hholds, -, hdirty⟩ := dropWords_drops core (cacheWords s core CWord.isStale) hs
  exact ⟨freshen_sound core hs, frameOf_dropWords core _ _, pend_dropWords core _ _, hholds, hdirty⟩

/-- A core drained, and its words of some ranges dropped. -/
@[irreducible] def victim (s : State) (v : Nat) (p : Nat → Bool) (rngs : List Rng) : State :=
  (heldIn (drainCore s v p) v rngs).foldl (fun s w => dropHeld s v w) (drainCore s v p)

theorem victim_facts {s : State} (hs : SoundMemory s) {v : Nat} {p : Nat → Bool} (howed : pendOwed s v (fun e => p e.word) = false)
    (hwaits : cleanWaits s v p = false) (rngs : List Rng) : SoundMemory (victim s v p rngs) ∧ frameOf (victim s v p rngs) = frameOf s ∧
      (∀ e ∈ (victim s v p rngs).pend, e.core = v → p e.word = false) ∧ (∀ w, p w = true → ¬ Dirty (victim s v p rngs) v w) ∧
        ∀ w, (∃ r ∈ rngs, r.word w = true) → ¬ Holds (victim s v p rngs) v w := by
  have hsd := drainCore_sound v p hs
  have hclean := not_dirty_drainCore hs (cleanable_of_cleanWaits hwaits)
  have hpend := pend_drainCore hs.2.2 howed
  have hframe := frameOf_drainCore s v p
  unfold victim
  generalize drainCore s v p = r at hsd hclean hpend hframe
  obtain ⟨-, -, hdirty⟩ := dropWords_drops v (heldIn r v rngs) hsd
  refine ⟨sound_fold _ (fun _ _ h => dropHeld_sound v _ h) _ _ hsd, (frameOf_dropWords v _ _).trans hframe, ?_,
    fun w hp h => hclean w hp (hdirty v w h), fun w hw => not_holds_dropped hsd v rngs hw⟩
  rw [pend_dropWords]
  exact hpend

theorem racqDrain_exec {s : State} {o : Op} {tm : Team} {v : Nat} {rngs : List Rng} (hop : s.op? o.id = some o)
    (hteam : s.team? o.team = some tm) (hkind : o.kind = .racq v rngs)
    (hfirst : ∀ e ∈ s.ops, e.wave = o.wave → e.id < o.id → e.isAcquire = false) (howed : pendOwed s v (fun _ => true) = false)
    (hwaits : cleanWaits s v (fun _ => true) = false) : exec (.racqDrain o.id) s =
      .next ((fenced (victim (s.dropOp o.id) v (fun _ => true) rngs) o.wave tm.core 2).updPair o.wave fun w => w.flagDown o.flag) := by
  have hacquire : (s.ops.any fun e => e.wave == o.wave && decide (e.id < o.id) && e.isAcquire) = false := by
    refine List.any_eq_false.2 fun e he => ?_
    by_cases hmine : e.wave = o.wave ∧ e.id < o.id
    · rw [hfirst e he hmine.1 hmine.2, Bool.and_false]
      exact Bool.false_ne_true
    · simp only [Bool.and_eq_true, beq_iff_eq, decide_eq_true_eq]
      exact fun h => hmine h.1
  rw [exec_racqDrain, execRacqDrain, hop]
  dsimp only
  rw [hkind, coreOf_team hteam]
  dsimp only
  rw [hacquire, howed, hwaits, Bool.or_self, Bool.or_self, if_neg Bool.false_ne_true]
  unfold victim
  rfl

theorem fenced_wide (s : State) (wave core : Nat) :
    fenced s wave core 2 = (freshen s core).updPair wave (Wave.fenceAt (freshen s core).nextId) := rfl

section
variable {s : State} {o : Op} {w : Wave} {tm : Team} (hs : SoundMemory s) (hop : s.op? o.id = some o) (hwave : s.wave? o.wave = some w)
  (hrole : w.role = .solo) (hteam : s.team? o.team = some tm)
include hs hop hwave hrole hteam

theorem racqDrain_done {v : Nat} {rngs : List Rng} (hkind : o.kind = .racq v rngs)
    (hfirst : ∀ e ∈ s.ops, e.wave = o.wave → e.id < o.id → e.isAcquire = false) (howed : pendOwed s v (fun _ => true) = false)
    (hwaits : cleanWaits s v (fun _ => true) = false) :
    OpDoneAt (fun _ => s.nextId) (.racqDrain o.id) s o fun t _ => (∀ e ∈ t.pend, e.core ≠ v) ∧
      cacheWords t v CWord.isDirty = [] ∧ ∀ word, (∃ r ∈ rngs, r.word word = true) → held? t v word = none := by
  have hexec := racqDrain_exec hop hteam hkind hfirst howed hwaits
  obtain ⟨hsv, hframe, hpend, hclean, hdropped⟩ := victim_facts (dropOp_kept hs o.id) (pendOwed_dropOp o.id howed)
    (hwaits : cleanWaits (s.dropOp o.id) v (fun _ => true) = false) rngs
  generalize victim (s.dropOp o.id) v (fun _ => true) rngs = r at hexec hsv hframe hpend hclean hdropped
  obtain ⟨hsf, hfresh, hfpend, hfholds, hfdirty⟩ := freshen_facts hsv tm.core
  have hfresh := hfresh.trans hframe
  have hnext : (freshen r tm.core).nextId = s.nextId := congrArg Frame.nextId hfresh
  rw [fenced_wide, hnext] at hexec
  generalize freshen r tm.core = f at hexec hsf hfresh hfpend hfholds hfdirty
  refine opDoneAt_of_fenced hwave hrole (congrArg Frame.waves hfresh) (congrArg Frame.ops hfresh) hexec fun _ =>
    ⟨fun e he hcore => ?_, ?_, fun word hword => ?_⟩
  · rw [pend_updPair, pend_updPair, hfpend] at he
    exact absurd (hpend e he hcore) (by decide)
  · rw [cacheWords, blocks_updPair, blocks_updPair, ← cacheWords, List.eq_nil_iff_forall_not_mem]
    intro word hin
    exact hclean word rfl (hfdirty v word (wordIn_of_mem_cacheWords hsf.2.1 hin))
  · rw [held?, blocks_updPair, blocks_updPair, ← held?]
    exact held?_none_of_not_holds fun h => hdropped word hword (hfholds v word h)

omit hs hop hwave hrole hteam in
theorem holdsFrom_cleanSlices {core : Nat} (hlow : core < 512) (rngs : List Rng) (word : Nat) (x : CWord)
    (h : WordIn (cleanSlices s rngs).blocks core word x) : WordIn s.blocks core word x := by
  obtain ⟨b, hb, hcache, hx⟩ := h
  obtain ⟨a, ha, rfl⟩ := List.mem_map.1 hb
  by_cases hslice : 512 ≤ a.cache ∧ a.cache < 1024
  · rw [if_pos hslice] at hcache
    dsimp only at hcache
    omega
  · rw [if_neg hslice] at hcache hx
    exact ⟨a, ha, hcache, hx⟩

/-- What a flush leaves of the caches: its core's L1 drained and, for inval, without the words of the ranges; and what it does to the
caches nearer to memory. -/
def flushed (s : State) (core : Nat) (inval : Bool) (scope : Nat) (rngs : List Rng) : State :=
  let hit := fun w => rngs.any fun r => r.word w
  let s := if inval then victim s core hit rngs else drainCore s core hit
  let near := replicaCache s core
  let s := if inval ∧ 2 ≤ scope then (heldIn s near rngs).foldl (fun s w => dropHeld s near w) s else s
  if scope = 5 then cleanSlices s rngs else s

omit hs hop hwave hrole in
theorem flushComplete_exec {inval : Bool} {scope : Nat} {rngs : List Rng} (hop : s.op? o.id = some o) (hkind : o.kind = .flush inval scope rngs)
    (howed : pendOwed s tm.core (fun e => rngs.any fun r => r.word e.word) = false)
    (hwaits : cleanWaits s tm.core (fun word => rngs.any fun r => r.word word) = false) : exec (.flushComplete o.id) s =
      .next ((flushed (s.dropOp o.id) tm.core inval scope rngs).updPair o.wave fun w => w.flagDown o.flag) := by
  rw [exec_flushComplete, execFlushComplete, hop]
  dsimp only
  rw [hkind, coreOf_team hteam]
  dsimp only
  rw [howed, hwaits, Bool.or_self, if_neg Bool.false_ne_true]
  unfold flushed victim
  rfl

omit hop hwave hrole hteam in
theorem flushed_facts {core : Nat} (hlow : core < 512) {inval : Bool} {rngs : List Rng} (scope : Nat)
    (howed : pendOwed s core (fun e => rngs.any fun r => r.word e.word) = false)
    (hwaits : cleanWaits s core (fun word => rngs.any fun r => r.word word) = false) :
    frameOf (flushed s core inval scope rngs) = frameOf s ∧
      (∀ e ∈ (flushed s core inval scope rngs).pend, e.core = core → (rngs.any fun r => r.word e.word) = false) ∧
      ∀ w x, (∃ r ∈ rngs, r.word w = true) → WordIn (flushed s core inval scope rngs).blocks core w x → x.isDirty = false ∧ inval = false := by
  have hdrain : ∀ r, r = (if inval then victim s core (fun w => rngs.any fun r => r.word w) rngs
      else drainCore s core fun w => rngs.any fun r => r.word w) → SoundMemory r ∧ frameOf r = frameOf s ∧
        (∀ e ∈ r.pend, e.core = core → (rngs.any fun r => r.word e.word) = false) ∧
        ∀ w x, (∃ r ∈ rngs, r.word w = true) → WordIn r.blocks core w x → x.isDirty = false ∧ inval = false := by
    rintro r rfl
    cases inval with
    | false =>
      rw [if_neg Bool.false_ne_true]
      refine ⟨drainCore_sound _ _ hs, frameOf_drainCore _ _ _, pend_drainCore hs.2.2 howed, fun w x hw hin => ⟨?_, rfl⟩⟩
      have hclean := not_dirty_drainCore hs (cleanable_of_cleanWaits hwaits) w (List.any_eq_true.2 hw)
      by_contra hdirty
      exact hclean ⟨x, hin, by simpa using hdirty⟩
    | true =>
      rw [if_pos rfl]
      obtain ⟨h1, h2, h3, -, h5⟩ := victim_facts hs howed hwaits rngs
      exact ⟨h1, h2, h3, fun w x hw ⟨b, hb, hcache, hx⟩ => absurd ⟨b, hb, hcache, has_of_word? hx⟩ (h5 w hw)⟩
  unfold flushed
  dsimp only
  generalize (if inval = true then victim s core (fun w => rngs.any fun r => r.word w) rngs
    else drainCore s core fun w => rngs.any fun r => r.word w) = r at hdrain ⊢
  obtain ⟨hsr, hframe, hpend, hwords⟩ := hdrain r rfl
  have hnear : ∀ q, q = (if inval = true ∧ 2 ≤ scope then (heldIn r (replicaCache r core) rngs).foldl
      (fun s w => dropHeld s (replicaCache r core) w) r else r) → frameOf q = frameOf s ∧ q.pend = r.pend ∧
        ∀ w x, (∃ r ∈ rngs, r.word w = true) → WordIn q.blocks core w x → x.isDirty = false ∧ inval = false := by
    rintro q rfl
    split
    · next hinval =>
      obtain ⟨hholds, -, -⟩ := dropWords_drops (replicaCache r core) (heldIn r (replicaCache r core) rngs) hsr
      refine ⟨(frameOf_dropWords _ _ _).trans hframe, pend_dropWords _ _ _, fun w x hw ⟨b, hb, hcache, hx⟩ => ?_⟩
      obtain ⟨a, ha, hacache, hhas⟩ := hholds core w ⟨b, hb, hcache, has_of_word? hx⟩
      obtain ⟨y, hy⟩ := holds_of_word hhas
      have hnot := (hwords w y hw ⟨a, ha, hacache, hy⟩).2
      rw [hinval.1] at hnot
      cases hnot
    · exact ⟨hframe, rfl, hwords⟩
  generalize (if inval = true ∧ 2 ≤ scope then (heldIn r (replicaCache r core) rngs).foldl (fun s w => dropHeld s (replicaCache r core) w) r
    else r) = q at hnear ⊢
  obtain ⟨hqframe, hqpend, hqwords⟩ := hnear q rfl
  split
  · exact ⟨hqframe, fun e he => hpend e (hqpend ▸ he), fun w x hw hin => hqwords w x hw (holdsFrom_cleanSlices hlow rngs w x hin)⟩
  · exact ⟨hqframe, fun e he => hpend e (hqpend ▸ he), hqwords⟩

theorem flushComplete_done {inval : Bool} {scope : Nat} {rngs : List Rng} (hkind : o.kind = .flush inval scope rngs) (hlow : tm.core < 512)
    (howed : pendOwed s tm.core (fun e => rngs.any fun r => r.word e.word) = false)
    (hwaits : cleanWaits s tm.core (fun word => rngs.any fun r => r.word word) = false) :
    OpDone (.flushComplete o.id) s o fun t _ =>
      (∀ e ∈ t.pend, e.core = tm.core → ∀ r ∈ rngs, r.word e.word = false) ∧
      ∀ word x, (∃ r ∈ rngs, r.word word = true) → held? t tm.core word = some x → x.isDirty = false ∧ inval = false := by
  have hexec := flushComplete_exec hteam hop hkind howed hwaits
  obtain ⟨hframe, hpend, hwords⟩ := flushed_facts (dropOp_kept hs o.id) hlow (inval := inval) scope (pendOwed_dropOp o.id howed)
    (hwaits : cleanWaits (s.dropOp o.id) tm.core (fun word => rngs.any fun r => r.word word) = false)
  generalize flushed (s.dropOp o.id) tm.core inval scope rngs = r at hexec hframe hpend hwords
  refine opDone_of_finish hwave hrole hexec (waves_updPair (congrArg Frame.waves hframe) _ _) ?_ (rfl : frameOf s = frameOf s)
    fun _ => ⟨fun e he hcore x hx => ?_, fun word x hw hx => ?_⟩
  · exact (updPair_ops _ _ _).trans ((congrArg Frame.ops hframe).trans (updPair_ops _ _ _).symm)
  · rw [pend_updPair] at he
    have hnone := List.any_eq_false.1 (hpend e he hcore) x hx
    simpa using hnone
  · rw [held?, blocks_updPair, ← held?] at hx
    exact hwords word x hw (wordIn_of_held? hx)

end

/-! ## Issue -/

section
variable {s s1 : State} {c : Issue} (h : Runs s1 c 4) (hrole : c.w.role = .solo)
include h hrole

/-- An operation on a range put in flight once its pages are touched. -/
theorem range_issued {i : Instr} {fsel : BitVec 1} {r : Nat × Nat} {kind : OpKind}
    (he : exec i s = outcome c (.ok (retireOnce c ((c.rangeTouched r).addOp (c.newOp (c.flag fsel) kind []))
      (fun w => w.flagUp (some (c.flag fsel))) 4))) :
    OpIssued i s (c.rangeTouched r) c (c.flag fsel) [] fun k => k = kind := by
  rw [retireOnce_solo hrole] at he
  have hw : (c.rangeTouched r).waves = s1.waves :=
    (waves_of_outlineOf (outlineOf_touchLeaves _ _ _ _)).trans (congrArg State.waves (issuing_s h.issues))
  exact opIssuedIn_of_retire (adv := false) (o := c.newOp (c.flag fsel) kind []) h hw he ⟨rfl, rfl, rfl⟩ rfl rfl

theorem racq_issued {o : OpRacq} {p : Partition} (hwf : WellFormed (.racq o)) (hsafe : EndsSafety s s1 (if 2 ≤ o.scope.toNat then 4 else 0))
    (hflag : FlagFree c o.fsel) (hclean : Unpoisoned c [] [o.core.toNat, o.range.toNat, o.range.toNat + 1] [])
    (hpart : s1.part? c.g.part = some p) (hcore : (c.w.getS o.core.toNat).toNat < 512)
    (hin : clusterOf (c.w.getS o.core.toNat).toNat ∈ p.clusters) :
    OpIssued (.racq o) s (c.rangeTouched (c.pairRange o.range.toNat)) c (c.flag o.fsel) []
      fun k => k = .racq (c.w.getS o.core.toNat).toNat
        (rangeLocs c.s c.cx c.tm.core c.w.sysMode (pageFuel (c.pairRange o.range.toNat).2) (c.pairRange o.range.toNat).1
          (c.pairRange o.range.toNat).2) := by
  have hok : (okScope o.scope && evenReg o.range) = true := hwf
  have hpart : c.s.part? c.g.part = some p := by rwa [issuing_s h.issues]
  refine range_issued h hrole ((exec_racq o s).trans ((congrArg (fun b => issueAs s b 4 _ _) hok).trans ((issueAs_outcome hsafe h _).trans ?_)))
  dsimp only
  rw [noFlag_of_free hflag, guarded_of_none rfl, flagRoom_of_free hflag, once_solo hrole, hpart, poisonRegs_none hclean,
    faultIf_of_eq_false (by simp [hcore, hin]), guarded_of_none rfl]

theorem flush_issued {i : Instr} {o : OpFG2} {inval : Bool} (he : exec i s = flushEff s o inval) (hok : (okScope o.g && evenReg o.f2) = true)
    (hsafe : EndsSafety s s1 3) (hflag : FlagFree c o.fsel) (hclean : Unpoisoned c [] [o.f2.toNat, o.f2.toNat + 1] []) :
    OpIssued i s (c.rangeTouched (c.pairRange o.f2.toNat)) c (c.flag o.fsel) []
      fun k => k = .flush inval o.g.toNat (rangeLocs c.s c.cx c.tm.core c.w.sysMode (pageFuel (c.pairRange o.f2.toNat).2)
        (c.pairRange o.f2.toNat).1 (c.pairRange o.f2.toNat).2) := by
  refine range_issued h hrole (he.trans ((congrArg (fun b => issueAs s b 4 _ _) hok).trans ((issueAs_outcome hsafe h _).trans ?_)))
  dsimp only
  rw [noFlag_of_free hflag, poisonRegs_none hclean, guarded_of_none rfl, flagRoom_of_free hflag, once_solo hrole]

end

/-- Settles O28: each goes in flight on its ranges (`racq_issued`, `flush_issued`); a core drained has no dirty word of them and holds no
store to them (`not_dirty_drainCore`, `pend_drainCore`), and words dropped are held no more (`not_holds_dropped`). -/
theorem rangeOperationResults : Obligations.RangeOperationResults := by
  unfold Obligations.RangeOperationResults
  intro named
  refine ⟨fun o s s1 c p hwf hsafe h hrole hflag hclean hpart hcore hin => racq_issued h hrole hwf hsafe hflag hclean hpart hcore hin,
    fun o s s1 c hwf hsafe h hrole hflag hclean => ⟨flush_issued h hrole (exec_flush o s) hwf hsafe hflag hclean,
      flush_issued h hrole (exec_inval o s) hwf hsafe hflag hclean⟩, ?_, ?_⟩
  · intro s o w tm v rngs hs hop hkind hwave hrole hteam hlow hfirst howed hwaits
    exact racqDrain_done hs hop hwave hrole hteam hkind hfirst howed hwaits
  · intro s o w tm inval scope rngs hs hop hkind hwave hrole hteam hlow howed hwaits
    exact flushComplete_done hs hop hwave hrole hteam hkind hlow howed hwaits

end Sys2Proof.RangeOperations

/-! # Stores performed in their core's own view (11 R292; 09 R238, R240, R249) -/

namespace Sys2Proof.StoresPerformed

open Sys2Proof.Machine Sys2Proof.Machine.Laws Sys2Proof.FramesKept Sys2Proof.RestKept Sys2Proof.NothingHeld Sys2Proof.CacheWords
open Sys2Proof.HeldStores Sys2Proof.MatrixEffect Sys2Proof.TenureOps Sys2Proof.Barriers Sys2Proof.RangeOperations
open Sys2Proof.MatrixCompletion

/-! ## The last byte at a place -/

/-- The byte that stores of bytes in order leave at a place. -/
def lastByte (bytes : List (Nat × BitVec 8)) (i : Nat) (old : BitVec 8) : BitVec 8 :=
  bytes.foldl (fun x b => if b.1 = i then b.2 else x) old

theorem lastByte_cons (b : Nat × BitVec 8) (bytes : List (Nat × BitVec 8)) (i : Nat) (old : BitVec 8) :
    lastByte (b :: bytes) i old = lastByte bytes i (if b.1 = i then b.2 else old) := rfl

theorem lastByte_append (l l' : List (Nat × BitVec 8)) (i : Nat) (old : BitVec 8) :
    lastByte (l ++ l') i old = lastByte l' i (lastByte l i old) := List.foldl_append

theorem lastByte_none {bytes : List (Nat × BitVec 8)} {i : Nat} (h : ∀ b ∈ bytes, b.1 ≠ i) (old : BitVec 8) : lastByte bytes i old = old := by
  induction bytes with
  | nil => rfl
  | cons b bytes ih =>
    rw [lastByte_cons, if_neg (h b List.mem_cons_self)]
    exact ih fun c hc => h c (List.mem_cons_of_mem _ hc)

/-- The last byte is the first one met from the end. -/
theorem lastByte_eq_find (bytes : List (Nat × BitVec 8)) (i : Nat) (old : BitVec 8) :
    lastByte bytes i old = match bytes.reverse.find? (fun b => b.1 == i) with
      | some b => b.2
      | none => old := by
  induction bytes using List.reverseRecOn with
  | nil => rfl
  | append_singleton bytes b ih =>
    rw [lastByte_append, List.reverse_append, List.reverse_singleton, List.singleton_append, List.find?_cons, lastByte_cons]
    by_cases hb : b.1 = i
    · rw [if_pos hb, beq_iff_eq.2 hb]
      rfl
    · rw [if_neg hb, beq_eq_false_iff_ne.2 hb]
      exact ih

theorem storedOver_length (bytes : List (Nat × BitVec 8)) (bs : List (BitVec 8)) : (storedOver bytes bs).length = bs.length := by
  unfold storedOver
  induction bytes generalizing bs with
  | nil => rfl
  | cons b bytes ih => rw [List.foldl_cons, ih, List.length_set]

theorem storedOver_getD (bytes : List (Nat × BitVec 8)) {bs : List (BitVec 8)} {i : Nat} (hi : i < bs.length) :
    (storedOver bytes bs).getD i 0 = lastByte bytes i (bs.getD i 0) := by
  induction bytes generalizing bs with
  | nil => rfl
  | cons b bytes ih =>
    have hset : (bs.set b.1 b.2).getD i 0 = if b.1 = i then b.2 else bs.getD i 0 := by
      rw [List.getD_eq_getElem?_getD, List.getElem?_set, List.getD_eq_getElem?_getD]
      by_cases hb : b.1 = i
      · rw [if_pos hb, if_pos hb, if_pos (hb ▸ hi)]
        rfl
      · rw [if_neg hb, if_neg hb]
    rw [lastByte_cons, ← hset]
    exact ih (by rwa [List.length_set])

/-! ## The bytes of the stores that a core holds -/

/-- A byte put over those that are held. -/
def pushByte (m : List (Nat × BitVec 8)) (b : Nat × BitVec 8) : List (Nat × BitVec 8) := del m b.1 ++ [b]

/-- The byte that a list gives for a place. -/
def byteAt (m : List (Nat × BitVec 8)) (i : Nat) : Option (BitVec 8) := (m.find? fun b => b.1 == i).map (·.2)

theorem find?_del_other (m : List (Nat × BitVec 8)) {i j : Nat} (h : j ≠ i) :
    (del m i).find? (fun b => b.1 == j) = m.find? fun b => b.1 == j := by
  induction m with
  | nil => rfl
  | cons b m ih =>
    obtain ⟨k, x⟩ := b
    rw [del]
    split
    · next hk =>
      rw [ih, List.find?_cons_of_neg (by simpa using fun hj => h (hj.symm.trans hk))]
    · rw [List.find?_cons, List.find?_cons, ih]

theorem byteAt_pushByte (m : List (Nat × BitVec 8)) (b : Nat × BitVec 8) (i : Nat) :
    byteAt (pushByte m b) i = if b.1 = i then some b.2 else byteAt m i := by
  unfold byteAt pushByte
  rw [List.find?_append]
  by_cases hb : b.1 = i
  · have hnone : (del m b.1).find? (fun b => b.1 == i) = none :=
      List.find?_eq_none.2 fun p hp => by simpa [hb] using hb ▸ keys_del m b.1 p hp
    rw [if_pos hb, hnone, List.find?_singleton, beq_iff_eq.2 hb]
    rfl
  · rw [if_neg hb, find?_del_other _ (Ne.symm hb), List.find?_singleton, beq_eq_false_iff_ne.2 hb]
    cases m.find? fun b => b.1 == i <;> rfl

theorem byteAt_pushBytes (bytes m : List (Nat × BitVec 8)) (i : Nat) (old : BitVec 8) :
    (byteAt (bytes.foldl pushByte m) i).getD old = lastByte bytes i ((byteAt m i).getD old) := by
  induction bytes generalizing m with
  | nil => rfl
  | cons b bytes ih =>
    rw [List.foldl_cons, ih, lastByte_cons, byteAt_pushByte]
    split <;> rfl

theorem lastByte_del_other (m : List (Nat × BitVec 8)) {i j : Nat} (h : j ≠ i) (old : BitVec 8) :
    lastByte (del m i) j old = lastByte m j old := by
  induction m generalizing old with
  | nil => rfl
  | cons b m ih =>
    obtain ⟨k, x⟩ := b
    rw [del]
    split
    · next hk => rw [ih, lastByte_cons, if_neg fun hj => h (hj.symm.trans hk)]
    · rw [lastByte_cons, lastByte_cons, ih]

/-- Bytes put over others and then stored are stored after them. -/
theorem lastByte_pushBytes (bytes m : List (Nat × BitVec 8)) (i : Nat) (old : BitVec 8) :
    lastByte (bytes.foldl pushByte m) i old = lastByte bytes i (lastByte m i old) := by
  induction bytes generalizing m with
  | nil => rfl
  | cons b bytes ih =>
    rw [List.foldl_cons, ih, lastByte_cons, pushByte, lastByte_append, lastByte_cons]
    congr 1
    by_cases hb : b.1 = i
    · rw [if_pos hb, if_pos hb]
      rfl
    · rw [if_neg hb, if_neg hb, lastByte_del_other _ (Ne.symm hb)]
      rfl

/-- The bytes of stores one after another, as one list. -/
def pendList (l : List Pend) : List (Nat × BitVec 8) := l.flatMap (·.bytes)

theorem pendBytes_eq (s : State) (core word : Nat) :
    pendBytes s core word = (pendList (s.pend.filter fun e => e.core == core && e.word == word)).foldl pushByte [] := by
  have h : ∀ (l : List Pend) (m : List (Nat × BitVec 8)),
      l.foldl (fun m e => e.bytes.foldl (fun m b => del m b.1 ++ [b]) m) m = (pendList l).foldl pushByte m := fun l => by
    induction l with
    | nil => exact fun m => rfl
    | cons e l ih => exact fun m => (ih _).trans List.foldl_append.symm
  exact h _ _

theorem byteAt_pendBytes (s : State) (core word i : Nat) (old : BitVec 8) :
    (byteAt (pendBytes s core word) i).getD old = lastByte (pendList (s.pend.filter fun e => e.core == core && e.word == word)) i old := by
  rw [pendBytes_eq, byteAt_pushBytes]
  rfl

theorem foldl_pushByte_ne_nil {bytes m : List (Nat × BitVec 8)} (h : m ≠ []) : bytes.foldl pushByte m ≠ [] := by
  induction bytes generalizing m with
  | nil => exact h
  | cons b bytes ih => exact ih (List.append_ne_nil_of_right_ne_nil _ (List.cons_ne_nil _ _))

theorem pendList_nil {s : State} {core word : Nat} (h : pendBytes s core word = []) :
    pendList (s.pend.filter fun e => e.core == core && e.word == word) = [] := by
  rw [pendBytes_eq] at h
  cases hl : pendList (s.pend.filter fun e => e.core == core && e.word == word) with
  | nil => rfl
  | cons b l =>
    rw [hl, List.foldl_cons] at h
    exact absurd h (foldl_pushByte_ne_nil (List.cons_ne_nil _ _))

/-- What a core sees under the stores that it holds: its own copy of the word, or the word at its home. -/
def underByte (s : State) (core loc : Nat) : BitVec 8 :=
  match ownCopy s core (loc / 16) with
  | some (bs, _, _) => bs.getD (loc % 16) 0
  | none => readHome s loc

theorem coreByte_eq (s : State) (core loc : Nat) : coreByte s core loc =
    lastByte (pendList (s.pend.filter fun e => e.core == core && e.word == loc / 16)) (loc % 16) (underByte s core loc) := by
  rw [← byteAt_pendBytes, coreByte, byteAt]
  cases (pendBytes s core (loc / 16)).find? fun b => b.1 == loc % 16 <;> rfl

/-! ## Words set in a cache -/

theorem held?_isSome_iff {s : State} {cache word : Nat} : (held? s cache word).isSome = true ↔ Holds s cache word := by
  unfold held? Holds
  rw [List.findSome?_isSome_iff]
  constructor
  · rintro ⟨b, hb, hx⟩
    obtain ⟨hin, hcache⟩ := List.mem_filter.1 hb
    exact ⟨b, hin, beq_iff_eq.1 hcache, (has_iff_word? b word).2 hx⟩
  · rintro ⟨b, hin, hcache, hhas⟩
    exact ⟨b, List.mem_filter.2 ⟨hin, beq_iff_eq.2 hcache⟩, (has_iff_word? b word).1 hhas⟩

/-- A cache's copy of a word is as it was where blocks change that word in no block. -/
theorem held?_map {s t : State} {g : CBlock → CBlock} {cache word : Nat} (ht : t.blocks = s.blocks.map g)
    (hcache : ∀ b, (g b).cache = b.cache) (hword : ∀ b, (g b).word? word = b.word? word) : held? t cache word = held? s cache word := by
  unfold held?
  rw [ht]
  induction s.blocks with
  | nil => rfl
  | cons b l ih =>
    rw [List.map_cons, List.filter_cons, List.filter_cons, hcache]
    split
    · rw [List.findSome?_cons, List.findSome?_cons, hword, ih]
    · exact ih

theorem holds_map {s t : State} {g : CBlock → CBlock} {cache word : Nat} (ht : t.blocks = s.blocks.map g)
    (hcache : ∀ b, (g b).cache = b.cache) (hhas : ∀ b, (g b).has word = b.has word) : Holds t cache word ↔ Holds s cache word := by
  unfold Holds
  rw [ht]
  constructor
  · rintro ⟨b, hb, hc, hh⟩
    obtain ⟨a, ha, rfl⟩ := List.mem_map.1 hb
    exact ⟨a, ha, (hcache a).symm.trans hc, (hhas a).symm.trans hh⟩
  · rintro ⟨a, ha, hc, hh⟩
    exact ⟨g a, List.mem_map_of_mem ha, (hcache a).trans hc, (hhas a).trans hh⟩

theorem setWord_cache (b : CBlock) (word : Nat) (x : CWord) : (b.setWord word x).cache = b.cache := by
  unfold CBlock.setWord
  split <;> rfl

theorem word?_setWord_other (b : CBlock) {w w' : Nat} (h : w' ≠ w) (y : CWord) : (b.setWord w y).word? w' = b.word? w' := by
  rw [word?_setWord, if_neg fun hw => h hw.1]

/-- A change to the blocks that changes at most one word. -/
structure SetsAt (word : Nat) (g : CBlock → CBlock) : Prop where
  cache : ∀ b, (g b).cache = b.cache
  has : ∀ b w, (g b).has w = b.has w
  other : ∀ b w, w ≠ word → (g b).word? w = b.word? w

theorem SetsAt.set {word : Nat} (x : CBlock → CWord) : SetsAt word fun b => b.setWord word (x b) :=
  ⟨fun _ => setWord_cache _ _ _, fun _ _ => has_setWord _ _ _ _, fun _ _ h => word?_setWord_other _ h _⟩

theorem SetsAt.id (word : Nat) : SetsAt word fun b => b := ⟨fun _ => rfl, fun _ _ => rfl, fun _ _ _ => rfl⟩

theorem SetsAt.ite {word : Nat} {g h : CBlock → CBlock} (hg : SetsAt word g) (hh : SetsAt word h) (p : CBlock → Prop) [∀ b, Decidable (p b)] :
    SetsAt word fun b => if p b then g b else h b := by
  refine ⟨fun b => ?_, fun b w => ?_, fun b w hw => ?_⟩
  · split
    · exact hg.cache b
    · exact hh.cache b
  · split
    · exact hg.has b w
    · exact hh.has b w
  · split
    · exact hg.other b w hw
    · exact hh.other b w hw

theorem SetsAt.overwritten (old : List (BitVec 8)) (m : Mark) (now word : Nat) : SetsAt word (CBlock.overwritten old m now word) := by
  have h : ∀ b, CBlock.overwritten old m now word b = b ∨ ∃ x, CBlock.overwritten old m now word b = b.setWord word x := fun b => by
    unfold CBlock.overwritten
    split
    · split
      · exact .inl rfl
      · split
        · exact .inr ⟨_, rfl⟩
        · exact .inr ⟨_, rfl⟩
    · exact .inl rfl
  refine ⟨fun b => ?_, fun b w => ?_, fun b w hw => ?_⟩
  · rcases h b with hb | ⟨x, hb⟩ <;> rw [hb]
    exact setWord_cache _ _ _
  · rcases h b with hb | ⟨x, hb⟩ <;> rw [hb]
    exact has_setWord _ _ _ _
  · rcases h b with hb | ⟨x, hb⟩ <;> rw [hb]
    exact word?_setWord_other _ hw _

/-- A step that changes at most one word in the caches: the others are held as before, and it is held where it was. -/
structure Touches (word : Nat) (s t : State) : Prop where
  holds : ∀ cache w, Holds t cache w ↔ Holds s cache w
  other : ∀ cache w, w ≠ word → held? t cache w = held? s cache w

theorem Touches.trans {word : Nat} {s t u : State} (h : Touches word s t) (h' : Touches word t u) : Touches word s u :=
  ⟨fun c w => (h'.holds c w).trans (h.holds c w), fun c w hw => (h'.other c w hw).trans (h.other c w hw)⟩

theorem Touches.of_blocks {word : Nat} {s t : State} (h : t.blocks = s.blocks) : Touches word s t :=
  ⟨fun _ _ => by unfold Holds; rw [h], fun _ _ _ => by unfold held?; rw [h]⟩

theorem Touches.map {word : Nat} {s t : State} {g : CBlock → CBlock} (hg : SetsAt word g) (ht : t.blocks = s.blocks.map g) : Touches word s t :=
  ⟨fun _ _ => holds_map ht hg.cache fun b => hg.has b _, fun _ _ hw => held?_map ht hg.cache fun b => hg.other b _ hw⟩

theorem touches_setHeld (s : State) (cache word : Nat) (x : CWord) : Touches word s (s.setHeld cache word x) :=
  .map ((SetsAt.set _).ite (.id word) _) rfl

theorem touches_writeBackWord (s : State) (word : Nat) : Touches word s (writeBackWord s word) :=
  .map ((SetsAt.set _).ite (.id word) _) rfl

theorem touches_commitWord (s : State) (word : Nat) (bytes : List (Nat × BitVec 8)) (mk : Mark) : Touches word s (commitWord s word bytes mk) :=
  .map (.overwritten _ _ _ word) rfl

theorem touches_takeExclusive (s : State) (core word : Nat) : Touches word s (takeExclusive s core word) := by
  have hback : Touches word s (if (holders s word).any fun h => h.1 != core && h.2 == .modified then writeBackWord s word else s) := by
    split
    · exact touches_writeBackWord s word
    · exact .of_blocks rfl
  exact hback.trans (.map ((SetsAt.set _).ite ((SetsAt.set _).ite (.id word) _) _) rfl)

/-- A word set in a cache that holds it. -/
theorem held?_setHeld {s : State} {cache word : Nat} (h : Holds s cache word) (x : CWord) : held? (s.setHeld cache word x) cache word = some x := by
  have hholds := ((touches_setHeld s cache word x).holds cache word).2 h
  obtain ⟨y, hy⟩ := Option.isSome_iff_exists.1 (held?_isSome_iff.2 hholds)
  obtain ⟨b, hb, hcache, hword⟩ := wordIn_of_held? hy
  obtain ⟨a, ha, rfl⟩ := List.mem_map.1 hb
  by_cases hc : a.cache = cache
  · rw [if_pos hc, word?_setWord] at hword
    split at hword
    · rw [hy, ← hword]
    · next hnot =>
      exact absurd ⟨rfl, has_of_word? hword⟩ hnot
  · rw [if_neg hc] at hcache
    exact absurd hcache hc

theorem Touches.ownCopy {word : Nat} {s t : State} (h : Touches word s t) {w : Nat} (hw : w ≠ word) (core : Nat) :
    ownCopy t core w = ownCopy s core w := by
  unfold Machine.ownCopy
  rw [h.other core w hw]

theorem Touches.ownsExclusive {word : Nat} {s t : State} (h : Touches word s t) {w : Nat} (hw : w ≠ word) (core : Nat) :
    ownsExclusive t core w = ownsExclusive s core w := by
  unfold Machine.ownsExclusive
  rw [h.other core w hw]

/-! ## A store performed where its core owns the word -/

theorem held?_of_ownsExclusive {s : State} {core word : Nat} (h : ownsExclusive s core word = true) :
    held? s core word = some .exclusive ∨ held? s core word = some .modified := by
  unfold ownsExclusive at h
  split at h
  · next hx => exact .inl hx
  · next hx => exact .inr hx
  · cases h

theorem holds_of_ownsExclusive {s : State} {core word : Nat} (h : ownsExclusive s core word = true) : Holds s core word := by
  rw [← held?_isSome_iff]
  rcases held?_of_ownsExclusive h with hx | hx <;> rw [hx] <;> rfl

theorem ownCopy_of_ownsExclusive {s : State} {core word : Nat} (h : ownsExclusive s core word = true) : ownCopy s core word = none := by
  unfold ownCopy
  rcases held?_of_ownsExclusive h with hx | hx <;> rw [hx]

section
variable {s : State} {e : Pend} (h : ownsExclusive s e.core e.word = true)
include h

omit h in
theorem readHome_stored (s : State) (word : Nat) {bytes : List (Nat × BitVec 8)} (hbytes : ∀ b ∈ bytes, b.1 < 16) (mk : Mark) (loc : Nat) :
    readHome (commitWord s word bytes mk) loc = if loc / 16 = word then lastByte bytes (loc % 16) (readHome s loc) else readHome s loc := by
  split
  · next hloc =>
    have hfold : ∀ (bytes : List (Nat × BitVec 8)) (m : List Host.Cell), (∀ b ∈ bytes, b.1 < 16) →
        get 0#8 (bytes.foldl (fun m b => put 0#8 m (16 * word + b.1) b.2) m) loc = lastByte bytes (loc % 16) (get 0#8 m loc) := by
      intro bytes
      induction bytes with
      | nil => exact fun _ _ => rfl
      | cons b bytes ih =>
        intro m hb
        have hlt := hb b List.mem_cons_self
        rw [List.foldl_cons, ih _ fun c hc => hb c (List.mem_cons_of_mem _ hc), lastByte_cons, get_put]
        congr 1
        exact if_congr (by omega) rfl rfl
    exact hfold bytes s.mem hbytes
  · next hloc => exact readHome_commitWord hloc hbytes mk

/-- What a store that is performed leaves where its core owns the word: the bytes at home, and the word modified in the L1. -/
theorem performPend_owned (hbytes : ∀ b ∈ e.bytes, b.1 < 16) : Touches e.word s (performPend s e) ∧
    held? (performPend s e) e.core e.word = some .modified ∧ ∀ loc, readHome (performPend s e) loc =
      if loc / 16 = e.word then lastByte e.bytes (loc % 16) (readHome s loc) else readHome s loc := by
  have htake : Touches e.word s (takeExclusive { s with pend := s.pend.erase e } e.core e.word) :=
    Touches.trans (t := { s with pend := s.pend.erase e }) (.of_blocks rfl) (touches_takeExclusive _ _ _)
  have hmem : ∀ loc, readHome (takeExclusive { s with pend := s.pend.erase e } e.core e.word) loc = readHome s loc := fun loc => by
    unfold takeExclusive
    dsimp only
    split <;> rfl
  have hexpand : performPend s e = gainWord { commitWord (takeExclusive { s with pend := s.pend.erase e } e.core e.word) e.word e.bytes .ok with
      known := put 0 (takeExclusive { s with pend := s.pend.erase e } e.core e.word).known e.word
        (pendKnown (takeExclusive { s with pend := s.pend.erase e } e.core e.word) e) } e.core e.word e.hint .modified := by
    rw [performPend, if_pos h]
  rw [hexpand]
  generalize takeExclusive { s with pend := s.pend.erase e } e.core e.word = t at htake hmem
  have hcommit := htake.trans (touches_commitWord t e.word e.bytes .ok)
  have hhome := readHome_stored t e.word hbytes .ok
  have hknown : ∀ known, Touches e.word s { commitWord t e.word e.bytes .ok with known := known } := fun _ => hcommit.trans (.of_blocks rfl)
  have hhome' : ∀ known loc, readHome { commitWord t e.word e.bytes .ok with known := known } loc = _ := fun _ => hhome
  generalize put 0 t.known e.word (pendKnown t e) = known
  specialize hknown known
  specialize hhome' known
  generalize ({ commitWord t e.word e.bytes .ok with known := known } : State) = u at hknown hhome'
  have hholds := (hknown.holds e.core e.word).2 (holds_of_ownsExclusive h)
  rw [gainWord, if_pos (held?_isSome_iff.2 hholds)]
  refine ⟨hknown.trans (touches_setHeld _ _ _ _), held?_setHeld hholds _, fun loc => ?_⟩
  rw [← hmem loc]
  exact hhome' loc

end

/-! ## One store of an L1 -/

theorem swm_of_restOf {s t : State} (h : restOf t = restOf s) : t.swm = s.swm := by
  have hrest : ∀ u : State, u.swm = (restOf u).swm := fun u => by
    unfold restOf
    rfl
  rw [hrest t, h, ← hrest]

/-- Whether a store of a core to a word goes to what the core holds of it, or waits with the stores that it holds. -/
def Storable (s : State) (core word : Nat) : Prop :=
  isSwm s (16 * word) = false ∨
    pendBytes s core word = [] ∧ ∃ bs d m, ownCopy s core word = some (bs, d, m) ∧ bs.length = 16

/-- Whether a core owns a word or holds a store to it. -/
def Covered (s : State) (core word : Nat) : Prop := ownsExclusive s core word = true ∨ ∃ e ∈ s.pend, e.core = core ∧ e.word = word

/-- What a store leaves: the bytes in the core's view, and the other words as they were. -/
structure WordStored (s t : State) (core word : Nat) (bytes : List (Nat × BitVec 8)) : Prop where
  ids : SoundPends t
  swm : t.swm = s.swm
  view : ∀ loc, coreByte t core loc = if loc / 16 = word then lastByte bytes (loc % 16) (coreByte s core loc) else coreByte s core loc
  storable : ∀ w, Storable s core w → Storable t core w
  covers : isSwm s (16 * word) = false → Covered t core word
  covered : ∀ w, isSwm s (16 * w) = false → Covered s core w → Covered t core w
  unowned : ownsExclusive s core word = false → t.mem = s.mem ∧ ∀ w, ownsExclusive s core w = false → ownsExclusive t core w = false

section
variable {s : State} {core word : Nat} {bytes : List (Nat × BitVec 8)}

/-- The view of a core where the stores that it holds are as before. -/
theorem coreByte_of_pend {t : State} {loc : Nat} (hunder : underByte t core loc = underByte s core loc) (hpend : t.pend = s.pend) :
    coreByte t core loc = coreByte s core loc := by
  rw [coreByte_eq, coreByte_eq, hpend, hunder]

theorem underByte_touched {t : State} (h : Touches word s t) {loc : Nat} (hloc : loc / 16 ≠ word) (hhome : readHome t loc = readHome s loc) :
    underByte t core loc = underByte s core loc := by
  unfold underByte
  rw [h.ownCopy hloc, hhome]

/-- A step that changes one word in the caches and no store. -/
theorem Storable.touched {t : State} (ht : Touches word s t) (hpend : t.pend = s.pend) (hswm : t.swm = s.swm) {w : Nat} (hw : w ≠ word)
    (h : Storable s core w) : Storable t core w := by
  unfold Storable isSwm pendBytes at h ⊢
  rw [hpend, hswm, ht.ownCopy hw]
  exact h

theorem Covered.touched {t : State} (ht : Touches word s t) (hpend : t.pend = s.pend) {w : Nat} (hw : w ≠ word)
    (h : Covered s core w) : Covered t core w := by
  unfold Covered at h ⊢
  rw [hpend, ht.ownsExclusive hw]
  exact h

/-- A store to an own copy of a software-managed word. -/
theorem stored_own {bs : List (BitVec 8)} {d : Bool} {m m' : Mark} (hs : SoundPends s) (hswm : isSwm s (16 * word) = true)
    (hpend : pendBytes s core word = []) (hown : ownCopy s core word = some (bs, d, m)) (hlen : bs.length = 16) :
    WordStored s (s.setHeld core word (.own (storedOver bytes bs) true m')) core word bytes := by
  have ht := touches_setHeld s core word (.own (storedOver bytes bs) true m')
  have hholds : Holds s core word := held?_isSome_iff.1 (by
    unfold ownCopy at hown
    split at hown
    · next hx => rw [hx]; rfl
    · cases hown)
  have hset : ownCopy (s.setHeld core word (.own (storedOver bytes bs) true m')) core word = some (storedOver bytes bs, true, m') := by
    rw [ownCopy, held?_setHeld hholds]
  have hne : ∀ w, isSwm s (16 * w) = false → w ≠ word := fun w hw heq => by
    rw [heq, hswm] at hw
    cases hw
  refine ⟨hs, rfl, fun loc => ?_, fun w hw => ?_, fun h => absurd rfl (hne word h), fun w hw h => h.touched ht rfl (hne w hw),
    fun _ => ⟨rfl, fun w hw => ?_⟩⟩
  · split
    · next hloc =>
      subst hloc
      rw [coreByte_eq, coreByte_eq, pendList_nil hpend, pendList_nil (s := s.setHeld _ _ _) hpend, underByte, hset, underByte, hown]
      exact storedOver_getD _ (by omega)
    · next hloc => exact coreByte_of_pend (underByte_touched ht hloc rfl) rfl
  · by_cases hword : w = word
    · subst hword
      exact .inr ⟨hpend, _, _, _, hset, (storedOver_length _ _).trans hlen⟩
    · exact hw.touched ht rfl rfl hword
  · by_cases hword : w = word
    · subst hword
      rw [ownsExclusive, held?_setHeld hholds]
    · rw [ht.ownsExclusive hword]
      exact hw

/-- A store put behind those that a core holds. -/
theorem stored_new {e : Pend} {nextId : Nat} (hs : SoundPends s) (hid : e.id = s.nextId) (hnext : s.nextId < nextId)
    (hcore : e.core = core) (hword : e.word = word) (hbytes : e.bytes = bytes) (hswm : isSwm s (16 * word) = false) :
    WordStored s { s with pend := s.pend ++ [e], nextId := nextId } core word bytes := by
  have hfilter : ∀ w, ((s.pend ++ [e]).filter fun e => e.core == core && e.word == w) =
      (s.pend.filter fun e => e.core == core && e.word == w) ++ if w = word then [e] else [] := fun w => by
    rw [List.filter_append]
    congr 1
    by_cases hw : w = word
    · rw [if_pos hw, List.filter_singleton, hcore, hword, hw]
      simp
    · rw [if_neg hw, List.filter_singleton, hword, beq_eq_false_iff_ne.2 (Ne.symm hw), Bool.and_false]
      rfl
  have hne : ∀ w, isSwm s (16 * w) = true → w ≠ word := fun w hw heq => by
    rw [heq, hswm] at hw
    cases hw
  refine ⟨⟨List.pairwise_append.2 ⟨hs.1, by simp, fun a ha b hb => ?_⟩, fun a ha => ?_⟩, rfl, fun loc => ?_, fun w hw => ?_,
    fun _ => .inr ⟨e, by simp, hcore, hword⟩, fun w _ hw => ?_, fun _ => ⟨rfl, fun w hw => hw⟩⟩
  · obtain rfl := List.mem_singleton.1 hb
    have := hs.2 a ha
    omega
  · rcases List.mem_append.1 ha with ha | ha
    · have := hs.2 a ha
      dsimp only
      omega
    · obtain rfl := List.mem_singleton.1 ha
      dsimp only
      omega
  · rw [coreByte_eq, coreByte_eq, hfilter]
    split
    · rw [pendList, List.flatMap_append, lastByte_append, List.flatMap_singleton, hbytes]
      rfl
    · rw [List.append_nil]
      rfl
  · rcases hw with hw | ⟨hpend, hown⟩
    · exact .inl hw
    · cases hsw : isSwm s (16 * w)
      · exact .inl hsw
      · refine .inr ⟨?_, hown⟩
        rw [pendBytes, hfilter, if_neg (hne w hsw), List.append_nil]
        exact hpend
  · exact hw.imp id fun ⟨x, hx, hxe⟩ => ⟨x, List.mem_append_left _ hx, hxe⟩

theorem pend_unique (hs : SoundPends s) {x y : Pend} (hx : x ∈ s.pend) (hy : y ∈ s.pend) (hid : y.id = x.id) : y = x :=
  List.inj_on_of_nodup_map (f := Pend.id) (List.pairwise_map.2 (hs.1.imp fun h => Nat.ne_of_lt h)) hy hx hid

/-- A store that joins the last one that a core holds to the word. -/
theorem stored_merged {x : Pend} {f : Pend → Pend} (hs : SoundPends s)
    (hlast : (s.pend.filter fun e => e.core == core && e.word == word).getLast? = some x)
    (hf : ∀ y, (f y).id = y.id ∧ (f y).core = y.core ∧ (f y).word = y.word) (hbytes : (f x).bytes = bytes.foldl pushByte x.bytes)
    (hswm : isSwm s (16 * word) = false) :
    WordStored s { s with pend := s.pend.map fun y => if y.id = x.id then f y else y } core word bytes := by
  obtain ⟨l, hl⟩ := List.getLast?_eq_some_iff.1 hlast
  obtain ⟨hx, hxcore, hxword⟩ : x ∈ s.pend ∧ x.core = core ∧ x.word = word := by
    have hin : x ∈ s.pend.filter fun e => e.core == core && e.word == word := hl ▸ by simp
    simpa using List.mem_filter.1 hin
  have hkeep : ∀ y : Pend, (if y.id = x.id then f y else y).id = y.id ∧ (if y.id = x.id then f y else y).core = y.core ∧
      (if y.id = x.id then f y else y).word = y.word := fun y => by
    split
    · exact hf y
    · exact ⟨rfl, rfl, rfl⟩
  have hfilter : ∀ w, ((s.pend.map fun y => if y.id = x.id then f y else y).filter fun e => e.core == core && e.word == w) =
      (s.pend.filter fun e => e.core == core && e.word == w).map fun y => if y.id = x.id then f y else y := fun w => by
    rw [List.filter_map]
    congr 1
    refine List.filter_congr fun y _ => ?_
    rw [Function.comp_apply, (hkeep y).2.1, (hkeep y).2.2]
  have hsame : ∀ l : List Pend, (∀ y ∈ l, y.id ≠ x.id) → (l.map fun y => if y.id = x.id then f y else y) = l := fun l hl =>
    (List.map_congr_left fun y hy => if_neg (hl y hy)).trans (List.map_id' l)
  have hother : ∀ w, w ≠ word → ((s.pend.map fun y => if y.id = x.id then f y else y).filter fun e => e.core == core && e.word == w) =
      s.pend.filter fun e => e.core == core && e.word == w := fun w hw => by
    rw [hfilter]
    refine hsame _ fun y hy hid => ?_
    obtain ⟨hin, hy⟩ := List.mem_filter.1 hy
    obtain rfl := pend_unique hs hx hin hid
    simp only [Bool.and_eq_true, beq_iff_eq] at hy
    exact hw (hy.2.symm.trans hxword)
  have hmine : ((s.pend.map fun y => if y.id = x.id then f y else y).filter fun e => e.core == core && e.word == word) = l ++ [f x] := by
    have hearlier : ∀ y ∈ l, y.id ≠ x.id := fun y hy => by
      have hsorted := hs.1.sublist (List.filter_sublist (p := fun e => e.core == core && e.word == word))
      rw [hl] at hsorted
      exact Nat.ne_of_lt ((List.pairwise_append.1 hsorted).2.2 y hy x List.mem_cons_self)
    rw [hfilter, hl, List.map_append, hsame l hearlier, List.map_singleton, if_pos rfl]
  refine ⟨⟨List.pairwise_map.2 (hs.1.imp fun h => by rwa [(hkeep _).1, (hkeep _).1]), fun a ha => ?_⟩, rfl, fun loc => ?_, fun w hw => ?_,
    fun _ => .inr ⟨f x, List.mem_map.2 ⟨x, hx, if_pos rfl⟩, (hf x).2.1.trans hxcore, (hf x).2.2.trans hxword⟩,
    fun w _ hw => hw.imp id fun ⟨y, hy, hycore, hyword⟩ => ⟨_, List.mem_map_of_mem hy, (hkeep y).2.1.trans hycore,
      (hkeep y).2.2.trans hyword⟩, fun _ => ⟨rfl, fun w hw => hw⟩⟩
  · obtain ⟨y, hy, rfl⟩ := List.mem_map.1 ha
    rw [(hkeep y).1]
    exact hs.2 y hy
  · rw [coreByte_eq, coreByte_eq]
    by_cases hloc : loc / 16 = word
    · rw [if_pos hloc, hloc, hmine, hl, pendList, pendList, List.flatMap_append, List.flatMap_append, lastByte_append, lastByte_append,
        List.flatMap_singleton, List.flatMap_singleton, hbytes, lastByte_pushBytes]
      rfl
    · rw [if_neg hloc, hother _ hloc]
      rfl
  · rcases hw with hw | ⟨hpend, hown⟩
    · exact .inl hw
    · cases hsw : isSwm s (16 * w)
      · exact .inl hsw
      · refine .inr ⟨?_, hown⟩
        rw [pendBytes, hother w fun heq => by rw [heq, hswm] at hsw; cases hsw]
        exact hpend

/-- A store performed where its core owns the word and holds no store to it. -/
theorem stored_performed {e : Pend} (hs : SoundPends s) (hid : e.id = s.nextId) (hcore : e.core = core)
    (hword : e.word = word) (hbytes : e.bytes = bytes) (hlow : ∀ b ∈ bytes, b.1 < 16) (hswm : isSwm s (16 * word) = false)
    (hnone : (s.pend.filter fun e => e.core == core && e.word == word) = []) (howned : ownsExclusive s core word = true) :
    WordStored s (performPend { s with pend := s.pend ++ [e], nextId := s.nextId + 1 } e) core word bytes := by
  have hnew : e ∉ s.pend := fun hin => Nat.ne_of_lt (hs.2 e hin) hid
  have hpend : (performPend { s with pend := s.pend ++ [e], nextId := s.nextId + 1 } e).pend = s.pend := by
    rw [pend_performPend, List.erase_append_right _ hnew, List.erase_cons_head, List.append_nil]
  have hnext : (performPend { s with pend := s.pend ++ [e], nextId := s.nextId + 1 } e).nextId = s.nextId + 1 :=
    congrArg Frame.nextId (frameOf_performPend _ _)
  have hsw : (performPend { s with pend := s.pend ++ [e], nextId := s.nextId + 1 } e).swm = s.swm :=
    (swm_of_restOf (restOf_performPend { s with pend := s.pend ++ [e], nextId := s.nextId + 1 } e)).trans rfl
  obtain ⟨ht, hheld, hhome⟩ := performPend_owned (s := { s with pend := s.pend ++ [e], nextId := s.nextId + 1 }) (e := e)
    (hcore ▸ hword ▸ howned) (hbytes ▸ hlow)
  replace ht := (Touches.of_blocks (s := s) (t := { s with pend := s.pend ++ [e], nextId := s.nextId + 1 }) rfl).trans ht
  rw [hword] at ht
  rw [hcore, hword] at hheld
  rw [hword, hbytes] at hhome
  generalize performPend { s with pend := s.pend ++ [e], nextId := s.nextId + 1 } e = t at hpend hnext hsw ht hheld hhome ⊢
  have hhome : ∀ loc, readHome t loc = if loc / 16 = word then lastByte bytes (loc % 16) (readHome s loc) else readHome s loc := hhome
  have howns : ownsExclusive t core word = true := by rw [ownsExclusive, hheld]
  have hcopy := ownCopy_of_ownsExclusive howned
  refine ⟨⟨hpend ▸ hs.1, fun a ha => hnext ▸ Nat.lt_succ_of_lt (hs.2 a (hpend ▸ ha))⟩, hsw, fun loc => ?_, fun w hw => ?_,
    fun _ => .inl howns, fun w _ hw => ?_, fun h => absurd (howned.symm.trans h) Bool.noConfusion⟩
  · split
    · next hloc =>
      subst hloc
      rw [coreByte_eq, coreByte_eq, hpend, hnone, underByte, underByte, hcopy, ownCopy, hheld]
      exact (hhome loc).trans (if_pos rfl)
    · next hloc => exact coreByte_of_pend (underByte_touched ht hloc ((hhome loc).trans (if_neg hloc))) hpend
  · by_cases hw' : w = word
    · rw [hw', Storable, isSwm, hsw]
      exact .inl hswm
    · exact hw.touched ht hpend hsw hw'
  · by_cases hw' : w = word
    · rw [hw']
      exact .inl howns
    · exact hw.touched ht hpend hw'

/-- A store of an L1 to a word leaves its bytes in the core's view. -/
theorem stored_l1Store (hs : SoundPends s) (team after since : Nat) (how : StoreHow) (via : List (Nat × Nat)) (hlow : ∀ b ∈ bytes, b.1 < 16)
    (h : Storable s core word) : WordStored s (l1Store s core team word bytes after since how via) core word bytes := by
  unfold l1Store
  rcases hsw : isSwm s (16 * word) with _ | _
  · rw [if_neg Bool.false_ne_true]
    dsimp only
    split
    · next x hlast =>
      split
      · exact stored_merged hs hlast (fun y => ⟨rfl, rfl, rfl⟩) rfl hsw
      · exact stored_new hs rfl (Nat.lt_succ_self _) rfl rfl rfl hsw
    · next hlast =>
      split
      · next hready =>
        simp only [Bool.and_eq_true] at hready
        exact stored_performed hs rfl rfl rfl rfl hlow hsw (List.getLast?_eq_none_iff.1 hlast) hready.1.1
      · exact stored_new hs rfl (Nat.lt_succ_self _) rfl rfl rfl hsw
  · rw [if_pos rfl]
    rcases h with h | ⟨hpend, bs, d, m, hown, hlen⟩
    · rw [hsw] at h
      cases h
    · rw [hown]
      exact stored_own hs hsw hpend hown hlen

end

/-! ## What a store does not reach -/

/-- A state without what the stores of an L1 reach. -/
@[irreducible] def sceneOf (s : State) : State := { restOf s with nextId := 0 }

theorem sceneOf_of_restOf {s t : State} (h : restOf t = restOf s) : sceneOf t = sceneOf s := by
  unfold sceneOf
  rw [h]

theorem sceneOf_pends {s : State} {pend : List Pend} {nextId : Nat} : sceneOf { s with pend := pend, nextId := nextId } = sceneOf s := by
  unfold sceneOf restOf
  rfl

theorem sceneOf_l1Store (s : State) (core team word : Nat) (bytes : List (Nat × BitVec 8)) (after since : Nat) (how : StoreHow)
    (via : List (Nat × Nat)) : sceneOf (l1Store s core team word bytes after since how via) = sceneOf s := by
  unfold l1Store
  split
  · split
    · exact sceneOf_of_restOf (restOf_setHeld _ _ _ _)
    · exact sceneOf_of_restOf ((restOf_gainWord _ _ _ _ _).trans (restOf_dropHeld _ _ _))
  · dsimp only
    split
    · split
      · exact sceneOf_pends (nextId := s.nextId)
      · exact sceneOf_pends
    · split
      · exact (sceneOf_of_restOf (restOf_performPend _ _)).trans sceneOf_pends
      · exact sceneOf_pends

section
variable {s t : State} (h : sceneOf t = sceneOf s)
include h

theorem waves_of_sceneOf : t.waves = s.waves := by
  have hscene : ∀ u : State, u.waves = (sceneOf u).waves := fun u => by
    unfold sceneOf restOf
    rfl
  rw [hscene t, h, ← hscene]

theorem teams_of_sceneOf : t.teams = s.teams := by
  have hscene : ∀ u : State, u.teams = (sceneOf u).teams := fun u => by
    unfold sceneOf restOf
    rfl
  rw [hscene t, h, ← hscene]

theorem ops_of_sceneOf : t.ops = s.ops := by
  have hscene : ∀ u : State, u.ops = (sceneOf u).ops := fun u => by
    unfold sceneOf restOf
    rfl
  rw [hscene t, h, ← hscene]

theorem isSwm_of_sceneOf (loc : Nat) : isSwm t loc = isSwm s loc := by
  have hscene : ∀ u : State, isSwm u loc = isSwm (sceneOf u) loc := fun u => by
    unfold sceneOf restOf
    rfl
  rw [hscene t, h, ← hscene]

end

/-! ## Stores one after another -/

/-- What stores of a core in order leave: their bytes in its view, and where it holds what it stored. -/
structure StoredAll (s t : State) (core : Nat) (l : List (Nat × BitVec 8)) : Prop where
  ids : SoundPends t
  scene : sceneOf t = sceneOf s
  view : ∀ loc, coreByte t core loc = lastByte l loc (coreByte s core loc)
  storable : ∀ w, Storable s core w → Storable t core w
  covers : ∀ b ∈ l, isSwm s b.1 = false → Covered t core (b.1 / 16)
  covered : ∀ w, isSwm s (16 * w) = false → Covered s core w → Covered t core w
  unowned : (∀ b ∈ l, ownsExclusive s core (b.1 / 16) = false) → t.mem = s.mem ∧
    ∀ w, ownsExclusive s core w = false → ownsExclusive t core w = false

theorem isSwm_word (s : State) (loc : Nat) : isSwm s (16 * (loc / 16)) = isSwm s loc := by
  unfold isSwm
  rw [show 16 * (loc / 16) / 65536 = loc / 65536 by omega]

theorem StoredAll.refl {s : State} (hs : SoundPends s) (core : Nat) : StoredAll s s core [] :=
  ⟨hs, rfl, fun _ => rfl, fun _ h => h, fun _ h => absurd h List.not_mem_nil, fun _ _ h => h, fun _ => ⟨rfl, fun _ h => h⟩⟩

theorem StoredAll.trans {s t u : State} {core : Nat} {l l' : List (Nat × BitVec 8)} (h : StoredAll s t core l) (h' : StoredAll t u core l') :
    StoredAll s u core (l ++ l') := by
  have hswm := isSwm_of_sceneOf h.scene
  refine ⟨h'.ids, h'.scene.trans h.scene, fun loc => ?_, fun w hw => h'.storable w (h.storable w hw), fun b hb hsw => ?_,
    fun w hsw hw => h'.covered w ((hswm _).trans hsw) (h.covered w hsw hw), fun hun => ?_⟩
  · rw [h'.view, h.view, lastByte_append]
  · rcases List.mem_append.1 hb with hb | hb
    · exact h'.covered _ ((hswm _).trans ((isSwm_word s b.1).trans hsw)) (h.covers b hb hsw)
    · exact h'.covers b hb ((hswm _).trans hsw)
  · obtain ⟨hmem, hkeep⟩ := h.unowned fun b hb => hun b (List.mem_append_left _ hb)
    obtain ⟨hmem', hkeep'⟩ := h'.unowned fun b hb => hkeep _ (hun b (List.mem_append_right _ hb))
    exact ⟨hmem'.trans hmem, fun w hw => hkeep' w (hkeep w hw)⟩

/-- The places of bytes in a word. -/
def placed (word : Nat) (bytes : List (Nat × BitVec 8)) : List (Nat × BitVec 8) := bytes.map fun b => (16 * word + b.1, b.2)

theorem lastByte_placed {word : Nat} {bytes : List (Nat × BitVec 8)} (hlow : ∀ b ∈ bytes, b.1 < 16) (loc : Nat) (old : BitVec 8) :
    lastByte (placed word bytes) loc old = if loc / 16 = word then lastByte bytes (loc % 16) old else old := by
  induction bytes generalizing old with
  | nil => exact (ite_self _).symm
  | cons b bytes ih =>
    have hlt := hlow b List.mem_cons_self
    rw [placed, List.map_cons, lastByte_cons, ← placed, ih fun c hc => hlow c (List.mem_cons_of_mem _ hc), lastByte_cons]
    dsimp only
    by_cases hword : loc / 16 = word
    · rw [if_pos hword, if_pos hword]
      congr 1
      exact if_congr (by omega) rfl rfl
    · rw [if_neg hword, if_neg hword, if_neg (by omega)]

theorem WordStored.all {s t : State} {core word : Nat} {bytes : List (Nat × BitVec 8)} (h : WordStored s t core word bytes)
    (hscene : sceneOf t = sceneOf s) (hlow : ∀ b ∈ bytes, b.1 < 16) (hne : bytes ≠ []) : StoredAll s t core (placed word bytes) := by
  have hin : ∀ b ∈ placed word bytes, b.1 / 16 = word := fun b hb => by
    obtain ⟨c, hc, rfl⟩ := List.mem_map.1 hb
    have := hlow c hc
    dsimp only
    omega
  refine ⟨h.ids, hscene, fun loc => ?_, h.storable, fun b hb hsw => ?_, h.covered, fun hun => ?_⟩
  · rw [h.view, lastByte_placed hlow]
  · rw [hin b hb]
    refine h.covers ?_
    rwa [← hin b hb, isSwm_word]
  · obtain ⟨b, hb⟩ := List.exists_mem_of_ne_nil _ (mt List.map_eq_nil_iff.1 hne : placed word bytes ≠ [])
    exact h.unowned (hin b hb ▸ hun b hb)

/-- The words of a list of bytes, in order, with the bytes of each. -/
theorem groupWords_places (l : List (Nat × BitVec 8)) : (groupWords l).flatMap (fun g => placed g.1 g.2) = l ∧
    ∀ g ∈ groupWords l, g.2 ≠ [] ∧ ∀ b ∈ g.2, b.1 < 16 := by
  induction l with
  | nil => exact ⟨rfl, fun g hg => absurd hg List.not_mem_nil⟩
  | cons p l ih =>
    obtain ⟨loc, x⟩ := p
    have hplace : 16 * (loc / 16) + loc % 16 = loc := Nat.div_add_mod loc 16
    have hlt : loc % 16 < 16 := Nat.mod_lt _ (by decide)
    obtain ⟨hl, hg⟩ := ih
    rw [groupWords]
    split
    · next w bs rest heq =>
      rw [heq] at hl hg
      rw [List.flatMap_cons] at hl
      split
      · next hw =>
        subst hw
        refine ⟨?_, fun g hin => ?_⟩
        · rw [List.flatMap_cons, placed, List.map_cons, List.cons_append, hplace]
          exact congrArg _ hl
        · rcases List.mem_cons.1 hin with rfl | hin
          · refine ⟨List.cons_ne_nil _ _, fun b hb => ?_⟩
            rcases List.mem_cons.1 hb with rfl | hb
            · exact hlt
            · exact (hg _ List.mem_cons_self).2 b hb
          · exact hg g (List.mem_cons_of_mem _ hin)
      · refine ⟨?_, fun g hin => ?_⟩
        · rw [List.flatMap_cons, List.flatMap_cons, hl, placed, List.map_singleton, hplace]
          rfl
        · rcases List.mem_cons.1 hin with rfl | hin
          · exact ⟨List.cons_ne_nil _ _, fun b hb => by rw [List.mem_singleton.1 hb]; exact hlt⟩
          · exact hg g hin
    · next heq =>
      rw [heq] at hl
      refine ⟨?_, fun g hin => ?_⟩
      · rw [List.flatMap_singleton, placed, List.map_singleton, hplace, ← hl]
        rfl
      · rw [List.mem_singleton.1 hin]
        exact ⟨List.cons_ne_nil _ _, fun b hb => by rw [List.mem_singleton.1 hb]; exact hlt⟩

section
variable {s : State} {tm : Team} {team since : Nat} {how : StoreHow} {via : List (Nat × Nat)} (hteam : s.team? team = some tm)
  (hholds : tm.holds = false) (hhome : how.home = false)
include hteam hholds hhome

theorem storeWord_eq (after word : Nat) (bytes : List (Nat × BitVec 8)) :
    storeWord s team after since how via word bytes = l1Store s tm.core team word bytes after since how via := by
  rw [storeWord, hteam]
  dsimp only
  rw [hholds, hhome, if_neg Bool.false_ne_true, if_neg Bool.false_ne_true]

theorem stored_words (hs : SoundPends s) (after : Nat) (gs : List (Nat × List (Nat × BitVec 8)))
    (hgs : ∀ g ∈ gs, g.2 ≠ [] ∧ (∀ b ∈ g.2, b.1 < 16) ∧ Storable s tm.core g.1) :
    StoredAll s (gs.foldl (fun s p => storeWord s team after since how via p.1 p.2) s) tm.core (gs.flatMap fun g => placed g.1 g.2) := by
  induction gs generalizing s with
  | nil => exact .refl hs _
  | cons g gs ih =>
    obtain ⟨hne, hlow, hstorable⟩ := hgs g List.mem_cons_self
    have hstep := (stored_l1Store hs team after since how via hlow hstorable).all (sceneOf_l1Store _ _ _ _ _ _ _ _ _) hlow hne
    rw [List.foldl_cons, storeWord_eq hteam hholds hhome, List.flatMap_cons]
    refine hstep.trans (ih ((team?_of_teams (teams_of_sceneOf hstep.scene) _).trans hteam) hstep.ids fun x hx => ?_)
    obtain ⟨h1, h2, h3⟩ := hgs x (List.mem_cons_of_mem _ hx)
    exact ⟨h1, h2, hstep.storable _ h3⟩

/-- The places of an access all lie in memory, in words that its core may store to. -/
def InMemory (s : State) (core : Nat) (a : Access) : Prop := ∀ p ∈ a.places, ∃ loc, p = .mem loc ∧ Storable s core (loc / 16)

omit hteam hholds hhome in
theorem spBytesOf_nil {a : Access} (ha : ∀ p ∈ a.places, ∃ loc, p = .mem loc) (v : Nat) : spBytesOf a v = [] := by
  refine List.filterMap_eq_nil_iff.2 fun p hp => ?_
  obtain ⟨loc, hloc⟩ := ha p.1 (List.of_mem_zip (a := p.1) (b := p.2) hp).1
  rw [hloc]

omit hteam hholds hhome in
theorem mem_memBytes {a : Access} {v : Nat} {b : Nat × BitVec 8} (hb : b ∈ memBytes a v) : .mem b.1 ∈ a.places := by
  obtain ⟨p, hp, hb⟩ := List.mem_filterMap.1 hb
  have hin := (List.of_mem_zip (a := p.1) (b := p.2) hp).1
  split at hb
  · next hmem =>
    cases hb
    exact hmem ▸ hin
  · cases hb

omit hteam hholds hhome in
theorem exists_memBytes {a : Access} {loc : Nat} (h : .mem loc ∈ a.places) (v : Nat) : ∃ b ∈ memBytes a v, b.1 = loc := by
  obtain ⟨i, hi, hget⟩ := List.mem_iff_getElem.1 h
  have hlen : i < (leBytes a.places.length v).length := by rwa [leBytes_length]
  have hin : (Place.mem loc, (leBytes a.places.length v)[i]) ∈ a.places.zip (leBytes a.places.length v) := by
    refine List.mem_iff_getElem.2 ⟨i, by simpa [leBytes_length] using hi, ?_⟩
    rw [List.getElem_zip, hget]
  exact ⟨_, List.mem_filterMap.2 ⟨_, hin, rfl⟩, rfl⟩

theorem stored_access (hs : SoundPends s) (after : Nat) (a : Access) (ha : InMemory s tm.core a) (v : Nat) :
    StoredAll s (storeAccess s team after since how via a v) tm.core (memBytes a v) := by
  obtain ⟨hplaces, hgroups⟩ := groupWords_places (memBytes a v)
  have h := stored_words (since := since) (via := via) hteam hholds hhome hs after (groupWords (memBytes a v)) fun g hg => ?_
  · rw [hplaces] at h
    rw [storeAccess, spBytesOf_nil fun p hp => let ⟨loc, hloc, _⟩ := ha p hp; ⟨loc, hloc⟩]
    exact h
  · obtain ⟨hne, hlow⟩ := hgroups g hg
    refine ⟨hne, hlow, ?_⟩
    obtain ⟨b, hb⟩ := List.exists_mem_of_ne_nil _ hne
    have hin : (16 * g.1 + b.1, b.2) ∈ memBytes a v := by
      rw [← hplaces]
      exact List.mem_flatMap.2 ⟨g, hg, List.mem_map_of_mem hb⟩
    obtain ⟨loc, hloc, hstorable⟩ := ha _ (mem_memBytes hin)
    cases hloc
    have := hlow b hb
    rwa [show (16 * g.1 + b.1) / 16 = g.1 by omega] at hstorable

theorem stored_accesses (hs : SoundPends s) (wave : Nat) (acc : List (Access × Nat)) (hacc : ∀ a ∈ acc, InMemory s tm.core a.1) :
    StoredAll s (acc.foldl (fun s p => storeAccess s team (fencedOf s wave) since how via p.1 p.2) s) tm.core
      (acc.flatMap fun a => memBytes a.1 a.2) := by
  induction acc generalizing s with
  | nil => exact .refl hs _
  | cons a acc ih =>
    have hstep := stored_access hteam hholds hhome hs (since := since) (via := via) (fencedOf s wave) a.1 (hacc a List.mem_cons_self) a.2
    rw [List.foldl_cons, List.flatMap_cons]
    refine hstep.trans (ih ((team?_of_teams (teams_of_sceneOf hstep.scene) _).trans hteam) hstep.ids fun x hx p hp => ?_)
    obtain ⟨loc, hloc, hstorable⟩ := hacc x (List.mem_cons_of_mem _ hx) p hp
    exact ⟨loc, hloc, hstep.storable _ hstorable⟩

end

/-! ## Asked for -/

/-- The requests of a state at their slices are all that has changed, and none is gone. -/
def OnlyAsks (s t : State) : Prop := ∃ fills, t = { s with fills := s.fills ++ fills }

theorem OnlyAsks.refl (s : State) : OnlyAsks s s := ⟨[], by rw [List.append_nil]⟩

theorem OnlyAsks.trans {s t u : State} (h : OnlyAsks s t) (h' : OnlyAsks t u) : OnlyAsks s u := by
  obtain ⟨f, rfl⟩ := h
  obtain ⟨g, rfl⟩ := h'
  exact ⟨f ++ g, by rw [List.append_assoc]⟩

theorem OnlyAsks.foldl {α : Type} {f : State → α → State} (hf : ∀ s x, OnlyAsks s (f s x)) (l : List α) (s : State) : OnlyAsks s (l.foldl f s) := by
  induction l generalizing s with
  | nil => exact .refl s
  | cons x l ih => exact (hf s x).trans (ih _)

theorem OnlyAsks.restOf {s t : State} (h : OnlyAsks s t) : restOf t = restOf s := by
  obtain ⟨f, rfl⟩ := h
  exact restOf_caches

theorem OnlyAsks.coreByte {s t : State} (h : OnlyAsks s t) (core loc : Nat) : coreByte t core loc = coreByte s core loc := by
  obtain ⟨f, rfl⟩ := h
  rfl

theorem onlyAsks_sendFill (s : State) (f : Fill) : OnlyAsks s (sendFill s f) := ⟨_, rfl⟩

theorem onlyAsks_askPend (s : State) (e : Pend) : OnlyAsks s (askPend s e) := by
  unfold askPend
  split
  · exact .refl s
  · exact onlyAsks_sendFill _ _

theorem onlyAsks_askHome (s : State) (o : Op) (acc : List Access) : OnlyAsks s (askHome s o acc) := by
  unfold askHome
  split
  · refine .foldl (fun s f => ?_) _ _
    split
    · exact .refl s
    · exact onlyAsks_sendFill _ _
  · exact .refl s

theorem onlyAsks_askStored (s : State) (o : Op) (how : StoreHow) (acc : List Access) : OnlyAsks s (askStored s o how acc) := by
  unfold askStored
  split
  · split
    · exact .refl s
    · exact .foldl onlyAsks_askPend _ _
  · exact .refl s

theorem foldl_min_le (l : List Nat) (a : Nat) : l.foldl min a ≤ a := by
  induction l generalizing a with
  | nil => exact le_rfl
  | cons x l ih => exact (ih _).trans (Nat.min_le_left _ _)

theorem le_foldl_max (l : List Nat) (a : Nat) : a ≤ l.foldl max a := by
  induction l generalizing a with
  | nil => exact le_rfl
  | cons x l ih => exact (Nat.le_max_left _ _).trans (ih _)

/-- Whether the exclusive state that a core's store needs is there or asked for. -/
def Asked (s : State) (core word : Nat) : Prop :=
  isSwm s (16 * word) = true ∨ ownsExclusive s core word = true ∨ ∃ f ∈ s.fills, f.brings core (word / 16) (word % 16) (word % 16) = true

theorem Asked.mono {s t : State} {core word : Nat} (h : Asked s core word) (ht : OnlyAsks s t) : Asked t core word := by
  obtain ⟨g, rfl⟩ := ht
  exact h.imp id (Or.imp id fun ⟨f, hf, hb⟩ => ⟨f, List.mem_append_left _ hf, hb⟩)

theorem pendMiss_brings (s : State) (e : Pend) (queued : Bool) :
    ({ pendMiss s e with queued := queued } : Fill).brings e.core (e.word / 16) (e.word % 16) (e.word % 16) = true := by
  have hlo := foldl_min_le ((s.pend.filter fun x => x.core == e.core && x.word / 16 == e.word / 16 && x.since == e.since).map (·.word % 16))
    (e.word % 16)
  have hhi := le_foldl_max ((s.pend.filter fun x => x.core == e.core && x.word / 16 == e.word / 16 && x.since == e.since).map (·.word % 16))
    (e.word % 16)
  have hlt : e.word % 16 < 16 := Nat.mod_lt _ (by decide)
  unfold Fill.brings pendMiss missFill
  dsimp only
  rw [beq_self_eq_true, beq_self_eq_true, Option.isNone_none, Bool.true_and, Bool.true_and, Bool.true_and, Bool.and_eq_true,
    decide_eq_true_eq, decide_eq_true_eq]
  omega

theorem asked_askPend (s : State) (e : Pend) : Asked (askPend s e) e.core e.word := by
  unfold askPend
  split
  · next h =>
    rw [Bool.or_eq_true, Bool.or_eq_true, List.any_eq_true] at h
    exact (or_assoc.1 h)
  · exact .inr (.inr ⟨_, List.mem_append_right _ List.mem_cons_self, pendMiss_brings s e _⟩)

theorem asked_foldl (l : List Pend) (s : State) : ∀ e ∈ l, Asked (l.foldl askPend s) e.core e.word := by
  induction l generalizing s with
  | nil => exact fun e he => absurd he List.not_mem_nil
  | cons x l ih =>
    intro e he
    rcases List.mem_cons.1 he with rfl | he
    · exact (asked_askPend s e).mono (.foldl onlyAsks_askPend _ _)
    · exact ih _ e he

theorem asked_askStored {s : State} {o : Op} {how : StoreHow} {acc : List Access} {core word : Nat} (hcore : coreOf s o = some core)
    (hhome : how.home = false) (hword : word ∈ memWords acc) (h : Covered s core word) : Asked (askStored s o how acc) core word := by
  rcases h with h | ⟨e, he, rfl, rfl⟩
  · exact Asked.mono (.inr (.inl h)) (onlyAsks_askStored _ _ _ _)
  · rw [askStored, hcore]
    dsimp only
    rw [hhome, if_neg Bool.false_ne_true, askPends]
    exact asked_foldl _ _ e (List.mem_filter.2 ⟨he, by simpa using hword⟩)

/-! ## Completion -/

/-- An operation that ends with its flag down, and its wave with it. -/
theorem opDone_of_flagDown {i : Instr} {s r : State} {o : Op} {w : Wave} {P : State → Wave → Prop} (hwave : s.wave? o.wave = some w)
    (hrole : w.role = .solo) (hwaves : r.waves = s.waves) (hops : r.ops = s.ops.filter fun x => x.id != o.id)
    (hexec : exec i s = .next (r.updPair o.wave fun w => w.flagDown o.flag))
    (hP : P (r.updPair o.wave fun w => w.flagDown o.flag) (w.flagDown o.flag)) : OpDone i s o P := by
  have hfound : r.wave? o.wave = some w := (wave?_of_waves hwaves _).trans hwave
  have halone : (r.updPair o.wave fun w => w.flagDown o.flag) = r.updWave o.wave fun w => w.flagDown o.flag := by
    rw [State.updPair, hfound]
    simp only [hrole]
  rw [halone] at hexec hP
  refine ⟨_, w, w.flagDown o.flag, hexec, hwave, wave?_updWave_same (fun _ => Wave.flagDown_id _ _) hfound, fun j hj => ?_, hops, ?_,
    getF_flagDown w o.flag, hP⟩
  · rw [wave?_updWave_other (fun _ => Wave.flagDown_id _ _) hj, wave?_of_waves hwaves]
  · simp only [Wave.flagDown_v, Wave.flagDown_vBad, Wave.flagDown_vDirty, Wave.flagDown_s, Wave.flagDown_sBad, Wave.flagDown_lvq]
    exact flagDown_eq w o.flag

theorem coreByte_updPair (s : State) (i : Nat) (f : Wave → Wave) (core loc : Nat) : coreByte (s.updPair i f) core loc = coreByte s core loc := by
  rw [updPair_eq]
  rfl

theorem asked_updPair {s : State} {core word : Nat} (h : Asked s core word) (i : Nat) (f : Wave → Wave) : Asked (s.updPair i f) core word := by
  rw [updPair_eq]
  exact h

theorem mem_locsOf {acc : List Access} {loc : Nat} : loc ∈ locsOf acc ↔ ∃ a ∈ acc, .mem loc ∈ a.places := by
  unfold locsOf
  simp only [List.mem_flatMap, List.mem_filterMap]
  refine exists_congr fun a => and_congr_right fun _ => ?_
  constructor
  · rintro ⟨p, hp, h⟩
    split at h
    · cases h
      exact hp
    · cases h
  · exact fun h => ⟨_, h, rfl⟩

section
variable {s : State} {o : Op} {w : Wave} {tm : Team} {how : StoreHow} {acc : List (Access × Nat)} (hop : s.op? o.id = some o)
  (hkind : o.kind = .store how acc) (hteam : s.team? o.team = some tm)
include hop hkind

omit hop in
theorem homeFirst_store {l : List Access} (hhome : how.home = false ∨ locsOf l = []) : homeFirst s o l = s := by
  unfold homeFirst
  split
  · rw [if_neg]
    rw [Op.actsHome, hkind]
    rcases hhome with h | h
    · simp [h]
    · simp [h]
  · rfl

omit hop in
theorem accesses_store : o.accesses = acc.map (·.1) := by
  rw [Op.accesses, hkind]

/-- The state that a store leaves but for what it then asks for. -/
@[irreducible] def performed (s : State) (o : Op) (how : StoreHow) (acc : List (Access × Nat)) : State :=
  acc.foldl (fun s p => storeAccess s o.team (fencedOf s o.wave) o.id how o.via p.1 p.2) (s.dropOp o.id)

theorem storeComplete_exec (hcan : canPerform s o = true) (hhome : how.home = false ∨ locsOf o.accesses = []) :
    exec (.storeComplete ⟨o.id, none⟩) s =
      .next ((askStored (performed s o how acc) o how o.accesses).updPair o.wave fun w => w.flagDown o.flag) := by
  rw [exec_storeComplete, execStoreComplete]
  dsimp only
  rw [hop]
  dsimp only
  rw [hkind]
  dsimp only
  rw [if_pos hcan, homeFirst_store hkind hhome]
  unfold performed
  rfl

include hteam in
theorem storeComplete_memory (hs : SoundPends s) (hhome : how.home = false) (hwave : s.wave? o.wave = some w) (hrole : w.role = .solo)
    (hholds : tm.holds = false) (hacc : ∀ a ∈ acc, InMemory s tm.core a.1) (hcan : canPerform s o = true) :
    OpDone (.storeComplete ⟨o.id, none⟩) s o fun t w' =>
      t.teams = s.teams ∧ w'.v = w.v ∧ w'.s = w.s ∧
      ((∀ a ∈ acc, ∀ loc, .mem loc ∈ a.1.places → ownsExclusive s tm.core (loc / 16) = false) → t.mem = s.mem) ∧
      (∀ a ∈ acc, ∀ loc, .mem loc ∈ a.1.places → isSwm s loc = true ∨ ownsExclusive t tm.core (loc / 16) = true ∨
        ∃ f ∈ t.fills, f.brings tm.core (loc / 256) (loc / 16 % 16) (loc / 16 % 16) = true) ∧
      ∀ loc, coreByte t tm.core loc = lastByte (acc.flatMap fun a => memBytes a.1 a.2) loc (coreByte s tm.core loc) := by
  have hexec := storeComplete_exec hop hkind hcan (.inl hhome)
  have hstored : StoredAll (s.dropOp o.id) (performed s o how acc) tm.core (acc.flatMap fun a => memBytes a.1 a.2) := by
    unfold performed
    exact stored_accesses (s := s.dropOp o.id) hteam hholds hhome hs o.wave acc hacc
  generalize performed s o how acc = r at hexec hstored
  have hasks := onlyAsks_askStored r o how o.accesses
  have hscene := (sceneOf_of_restOf hasks.restOf).trans hstored.scene
  have hcore : coreOf r o = some tm.core := coreOf_team ((team?_of_teams (teams_of_sceneOf hstored.scene) _).trans hteam)
  have hteams : (askStored r o how o.accesses).teams = s.teams := (teams_of_sceneOf hscene).trans rfl
  have hwaves : (askStored r o how o.accesses).waves = s.waves := (waves_of_sceneOf hscene).trans rfl
  refine opDone_of_flagDown hwave hrole hwaves (ops_of_sceneOf hscene) hexec
    ⟨(updPair_teams _ _ _).trans hteams, Wave.flagDown_v _ _, Wave.flagDown_s _ _, fun hun => ?_,
      fun a ha loc hloc => ?_, fun loc => ?_⟩
  · rw [updPair_mem]
    obtain ⟨fills, ht⟩ := hasks
    rw [ht]
    refine (hstored.unowned fun b hb => ?_).1
    obtain ⟨a, ha, hb⟩ := List.mem_flatMap.1 hb
    exact hun a ha b.1 (mem_memBytes hb)
  · rcases hsw : isSwm s loc with _ | _
    case true => exact .inl rfl
    have hword : loc / 16 ∈ memWords o.accesses := by
      rw [memWords, List.mem_dedup, accesses_store hkind]
      exact List.mem_map_of_mem (mem_locsOf.2 ⟨a.1, List.mem_map_of_mem ha, hloc⟩)
    have hcovered : Covered r tm.core (loc / 16) := by
      obtain ⟨b, hb, rfl⟩ := exists_memBytes hloc a.2
      exact hstored.covers b (List.mem_flatMap.2 ⟨a, ha, hb⟩) hsw
    have hasked := asked_updPair (asked_askStored hcore hhome hword hcovered) o.wave fun w => w.flagDown o.flag
    have hframe : loc / 16 / 16 = loc / 256 := Nat.div_div_eq_div_mul loc 16 16
    rw [Asked, hframe] at hasked
    rcases hasked with hswm | hasked
    · have hsame : isSwm ((askStored r o how o.accesses).updPair o.wave fun w => w.flagDown o.flag) (16 * (loc / 16)) = isSwm s loc := by
        rw [isSwm_word, updPair_eq]
        exact isSwm_of_sceneOf hscene loc
      rw [hsame, hsw] at hswm
      cases hswm
    · exact .inr hasked
  · rw [coreByte_updPair, hasks.coreByte, hstored.view]
    rfl

/-- One piece of a store changes no wave and no team, and no operation's number. -/
def Piecewise (s t : State) : Prop := t.waves = s.waves ∧ t.teams = s.teams ∧ t.ops.map (·.id) = s.ops.map (·.id)

omit hop hkind in
theorem Piecewise.of_scene {t : State} (h : sceneOf t = sceneOf s) : Piecewise s t :=
  ⟨waves_of_sceneOf h, teams_of_sceneOf h, congrArg _ (ops_of_sceneOf h)⟩

omit hop hkind in
theorem Piecewise.trans {t u : State} (h : Piecewise s t) (h' : Piecewise t u) : Piecewise s u :=
  ⟨h'.1.trans h.1, h'.2.1.trans h.2.1, h'.2.2.trans h.2.2⟩

omit hop hkind in
theorem piecewise_updOp (s : State) (id : Nat) {f : Op → Op} (hf : ∀ o, (f o).id = o.id) : Piecewise s (s.updOp id f) := by
  refine ⟨rfl, rfl, ?_⟩
  rw [State.updOp, List.map_map]
  refine List.map_congr_left fun o _ => ?_
  rw [Function.comp_apply]
  split
  · exact hf o
  · rfl

omit hop hkind in
theorem piecewise_settleRequests (s : State) (id : Nat) : Piecewise s (settleRequests s id) := by
  unfold settleRequests
  split <;> exact ⟨rfl, rfl, rfl⟩

omit hop hkind in
theorem mem_cutPiece {p : Nat × Option Nat × Nat} {a : Access × Nat} {q : Place} (hq : q ∈ (cutPiece p a).1.1.places) : q ∈ a.1.places := by
  obtain ⟨b, hb, rfl⟩ := List.mem_map.1 hq
  exact (List.of_mem_zip (a := b.1) (b := b.2) (List.mem_filter.1 hb).1).1

include hteam in
theorem storePiece_piecewise (hs : SoundPends s) (hhome : how.home = false) (hholds : tm.holds = false)
    (hacc : ∀ a ∈ acc, InMemory s tm.core a.1) (p : Nat × Option Nat × Nat) : Piecewise s (storePiece o.id s p) := by
  unfold storePiece
  rw [hop]
  dsimp only
  rw [hkind]
  dsimp only
  split
  · exact .of_scene rfl
  · next a hfind =>
    have hin : InMemory s tm.core (cutPiece p a).1.1 := fun q hq => hacc a (List.mem_of_find?_eq_some hfind) q (mem_cutPiece hq)
    split
    · exact .of_scene rfl
    · split
      · rw [homeFirst_store hkind (.inl hhome)]
        have hupd := piecewise_updOp s o.id (f := fun o => { o with kind := .store how (acc.map fun b =>
          if b.1.thread = p.1 then (cutPiece p a).2 else b) }) fun _ => rfl
        have hrest : ∀ f : Op → Op, (s.updOp o.id f).team? o.team = some tm ∧ SoundPends (s.updOp o.id f) ∧
            InMemory (s.updOp o.id f) tm.core (cutPiece p a).1.1 := fun _ => ⟨hteam, hs, hin⟩
        obtain ⟨hteam', hs', hin'⟩ := hrest fun o => { o with kind := .store how (acc.map fun b =>
          if b.1.thread = p.1 then (cutPiece p a).2 else b) }
        generalize s.updOp o.id (fun o => { o with kind := .store how (acc.map fun b =>
          if b.1.thread = p.1 then (cutPiece p a).2 else b) }) = t at hupd hteam' hs' hin' ⊢
        have hstored := stored_access (since := o.id) (via := o.via) hteam' hholds hhome hs' (fencedOf t o.wave) _ hin' (cutPiece p a).1.2
        exact (hupd.trans (.of_scene hstored.scene)).trans ((Piecewise.of_scene (sceneOf_of_restOf
          (onlyAsks_askStored _ _ _ _).restOf)).trans (piecewise_settleRequests _ _))
      · exact .of_scene (sceneOf_of_restOf (onlyAsks_askHome _ _ _).restOf)

end

/-! ## Stores to scratchpad -/

/-- A team whose scratchpad is good again where whole words were stored. -/
def settled (o n : Nat) (t : Team) : Team := { t with spBad := t.spBad.filter fun m => !(decide (o ≤ 8 * m.1) && decide (8 * m.1 + 8 ≤ o + n)) }

/-- What stores to a team's scratchpad leave: their bytes there, in order. -/
def SpStored (s t : State) (team : Nat) (tm tm' : Team) (l : List (Nat × BitVec 8)) : Prop :=
  t = { s with teams := t.teams } ∧ t.team? team = some tm' ∧ tm' = { tm with sp := tm'.sp, spBad := tm'.spBad, spDirty := tm'.spDirty } ∧
    ∀ off, tm'.spByte off = lastByte l off (tm.spByte off)

theorem spPut_fold (l : List (Nat × Nat × BitVec 8)) (tm : Team) (hl : ∀ p ∈ l, 256 ≤ p.2.1) :
    (l.foldl (fun t p => t.spPut p.2.1 p.2.2) tm) =
        { tm with sp := (l.foldl (fun t p => t.spPut p.2.1 p.2.2) tm).sp,
                  spDirty := (l.foldl (fun t p => t.spPut p.2.1 p.2.2) tm).spDirty } ∧
      ∀ off, (l.foldl (fun t p => t.spPut p.2.1 p.2.2) tm).spByte off = lastByte (l.map (·.2)) off (tm.spByte off) := by
  induction l generalizing tm with
  | nil => exact ⟨rfl, fun _ => rfl⟩
  | cons p l ih =>
    obtain ⟨heq, hbyte⟩ := ih (tm.spPut p.2.1 p.2.2) fun q hq => hl q (List.mem_cons_of_mem _ hq)
    have hput : ∀ off, (tm.spPut p.2.1 p.2.2).spByte off = if p.2.1 = off then p.2.2 else tm.spByte off := fun off => by
      have hbarrier : barrierByte p.2.1 p.2.2 = p.2.2 := if_pos (.inl (hl p List.mem_cons_self))
      rw [Team.spByte, Team.spPut, get_put, hbarrier]
      exact if_congr eq_comm rfl rfl
    rw [List.foldl_cons]
    refine ⟨heq.trans rfl, fun off => ?_⟩
    rw [hbyte, hput, List.map_cons, lastByte_cons]

section
variable {s : State} {tm : Team} {team : Nat} (hteam : s.team? team = some tm)
include hteam

theorem spStored_storeSp {l : List (Nat × Nat × BitVec 8)} (hl : ∀ p ∈ l, p.1 = team ∧ 256 ≤ p.2.1) :
    ∃ tm', SpStored s (storeSp s l) team tm tm' (l.map (·.2)) := by
  cases l with
  | nil => exact ⟨tm, rfl, hteam, rfl, fun _ => rfl⟩
  | cons p l =>
    have hok : ((p :: l).filter fun p => !(((s.team? team).map fun t => t.clobbers p.2.1 1).getD false)) = p :: l :=
      List.filter_eq_self.2 fun q hq => by
        rw [hteam, Option.map_some, Option.getD_some, clobbers_of_le (hl q hq).2]
        rfl
    have hput := fun t => spPut_fold (p :: l) t fun q hq => (hl q hq).2
    have hteam' := (hl p List.mem_cons_self).1
    have hexpand : storeSp s (p :: l) = (s.updTeam p.1 fun t => ((p :: l).filter fun q =>
        !(((s.team? p.1).map fun t => t.clobbers q.2.1 1).getD false)).foldl (fun t p => t.spPut p.2.1 p.2.2) t).updTeam p.1
          (settled p.2.1 (p :: l).length) := by
      obtain ⟨i, o, b⟩ := p
      rfl
    rw [hteam', hok] at hexpand
    rw [hexpand]
    obtain ⟨heq, hbyte⟩ := hput tm
    have hfirst := team?_updTeam_same (f := fun t => (p :: l).foldl (fun t p => t.spPut p.2.1 p.2.2) t) (fun t => by rw [(hput t).1]) hteam
    refine ⟨_, rfl, team?_updTeam_same (f := settled _ _) (fun _ => rfl) hfirst, ?_, fun off => hbyte off⟩
    dsimp only [settled]
    rw [heq]

omit hteam in
theorem SpStored.trans {t u : State} {tm1 tm2 : Team} {l l' : List (Nat × BitVec 8)} (h : SpStored s t team tm tm1 l)
    (h' : SpStored t u team tm1 tm2 l') : SpStored s u team tm tm2 (l ++ l') := by
  obtain ⟨h1, -, h3, h4⟩ := h
  obtain ⟨h1', h2', h3', h4'⟩ := h'
  refine ⟨?_, h2', ?_, fun off => ?_⟩
  · rw [h1', h1]
  · rw [h3', h3]
  · rw [h4', h4, lastByte_append]

omit hteam in
theorem memBytes_nil {a : Access} (ha : ∀ p ∈ a.places, ∃ off, p = .sp team off ∧ 256 ≤ off) (v : Nat) : memBytes a v = [] := by
  refine List.filterMap_eq_nil_iff.2 fun p hp => ?_
  obtain ⟨off, hoff, -⟩ := ha p.1 (List.of_mem_zip (a := p.1) (b := p.2) hp).1
  rw [hoff]

omit hteam in
theorem mem_spBytesOf {a : Access} (ha : ∀ p ∈ a.places, ∃ off, p = .sp team off ∧ 256 ≤ off) {v : Nat} :
    ∀ b ∈ spBytesOf a v, b.1 = team ∧ 256 ≤ b.2.1 := by
  intro b hb
  obtain ⟨p, hp, hb⟩ := List.mem_filterMap.1 hb
  obtain ⟨off, hoff, hle⟩ := ha p.1 (List.of_mem_zip (a := p.1) (b := p.2) hp).1
  rw [hoff] at hb
  cases hb
  exact ⟨rfl, hle⟩

theorem spStored_accesses {wave since : Nat} {how : StoreHow} {via : List (Nat × Nat)} {acc : List (Access × Nat)}
    (hacc : ∀ a ∈ acc, ∀ p ∈ a.1.places, ∃ off, p = .sp team off ∧ 256 ≤ off) :
    ∃ tm', SpStored s (acc.foldl (fun s p => storeAccess s team (fencedOf s wave) since how via p.1 p.2) s) team tm tm'
      ((acc.flatMap fun a => spBytesOf a.1 a.2).map (·.2)) := by
  induction acc generalizing s tm with
  | nil => exact ⟨tm, rfl, hteam, rfl, fun _ => rfl⟩
  | cons a acc ih =>
    have ha := hacc a List.mem_cons_self
    obtain ⟨tm1, hstep⟩ := spStored_storeSp hteam (mem_spBytesOf ha (v := a.2))
    have hstore : ∀ after, storeAccess s team after since how via a.1 a.2 = storeSp s (spBytesOf a.1 a.2) := fun after => by
      rw [storeAccess, memBytes_nil ha]
      rfl
    obtain ⟨tm2, hrest⟩ := ih hstep.2.1 fun x hx => hacc x (List.mem_cons_of_mem _ hx)
    refine ⟨tm2, ?_⟩
    rw [List.foldl_cons, List.flatMap_cons, List.map_append, hstore]
    exact hstep.trans hrest

end

theorem lastByte_eq_find_sp (l : List (Nat × Nat × BitVec 8)) (off : Nat) (old : BitVec 8) :
    lastByte (l.map (·.2)) off old = match l.reverse.find? (fun b => b.2.1 == off) with
      | some b => b.2.2
      | none => old := by
  rw [lastByte_eq_find, ← List.map_reverse, List.find?_map]
  cases hfind : l.reverse.find? (fun b => b.2.1 == off) with
  | none =>
    rw [show l.reverse.find? ((fun b : Nat × BitVec 8 => b.1 == off) ∘ fun x => x.2) = none from hfind]
    rfl
  | some b =>
    rw [show l.reverse.find? ((fun b : Nat × BitVec 8 => b.1 == off) ∘ fun x => x.2) = some b from hfind]
    rfl

theorem storeComplete_scratchpad {s : State} {o : Op} {w : Wave} {tm : Team} {how : StoreHow} {acc : List (Access × Nat)}
    (hop : s.op? o.id = some o) (hkind : o.kind = .store how acc) (hwave : s.wave? o.wave = some w) (hrole : w.role = .solo)
    (hteam : s.team? o.team = some tm) (hcan : canPerform s o = true)
    (hacc : ∀ a ∈ acc, ∀ p ∈ a.1.places, ∃ off, p = .sp o.team off ∧ 256 ≤ off) :
    OpDone (.storeComplete ⟨o.id, none⟩) s o fun t w' =>
      t.mem = s.mem ∧ t.pend = s.pend ∧ t.blocks = s.blocks ∧ w'.v = w.v ∧ w'.s = w.s ∧
      ∃ tm', t.team? o.team = some tm' ∧ tm' = { tm with sp := tm'.sp, spBad := tm'.spBad, spDirty := tm'.spDirty } ∧
        ∀ off, tm'.spByte off = lastByte ((acc.flatMap fun a => spBytesOf a.1 a.2).map (·.2)) off (tm.spByte off) := by
  have hnone : locsOf o.accesses = [] := by
    refine List.eq_nil_iff_forall_not_mem.2 fun loc hloc => ?_
    rw [accesses_store hkind] at hloc
    obtain ⟨x, hx, hloc⟩ := mem_locsOf.1 hloc
    obtain ⟨a, ha, rfl⟩ := List.mem_map.1 hx
    obtain ⟨off, hoff, -⟩ := hacc a ha _ hloc
    cases hoff
  have hexec := storeComplete_exec hop hkind hcan (.inr hnone)
  obtain ⟨tm', hstored⟩ : ∃ tm', SpStored (s.dropOp o.id) (performed s o how acc) o.team tm tm' ((acc.flatMap fun a => spBytesOf a.1 a.2).map (·.2)) := by
    unfold performed
    exact spStored_accesses (s := s.dropOp o.id) hteam hacc
  generalize performed s o how acc = r at hexec hstored
  obtain ⟨hr, hteam', hsame, hbyte⟩ := hstored
  obtain ⟨fills, hasks⟩ := onlyAsks_askStored r o how o.accesses
  rw [hasks] at hexec
  refine opDone_of_flagDown hwave hrole (by rw [hr]; rfl) (by rw [hr]; rfl) hexec
    ⟨?_, ?_, ?_, Wave.flagDown_v _ _, Wave.flagDown_s _ _, tm', ?_, hsame, hbyte⟩
  · rw [updPair_mem, hr]
    rfl
  · rw [pend_updPair, hr]
    rfl
  · rw [blocks_updPair, hr]
    rfl
  · rw [State.team?, updPair_teams]
    exact hteam'

/-- Settles O23: each thread's bytes are performed in turn, in the core's view (`stored_accesses`) or in the allocation
(`spStored_accesses`), and what the core then lacks is asked for (`asked_askStored`). -/
theorem storeCompletes : Obligations.StoreCompletes := by
  unfold Obligations.StoreCompletes
  refine ⟨fun s o w tm how acc hs hop hkind hhome hwave hrole hteam hholds hplaces => ?_,
    fun s o w tm how acc hop hkind hwave hrole hteam hcan hacc => ?_⟩
  · have hacc : ∀ a ∈ acc, InMemory s tm.core a.1 := fun a ha p hp => by
      obtain ⟨loc, hloc, hstorable⟩ := hplaces a ha p hp
      refine ⟨loc, hloc, ?_⟩
      unfold Storable
      rwa [isSwm_word]
    refine ⟨fun hcan => ?_, fun k p hp => ?_⟩
    · obtain ⟨t, w1, w2, hexec, hw1, hw2, hothers, hops, hw, hflags, hteams, hv, hsr, hmem, hasked, hview⟩ :=
        storeComplete_memory hop hkind hteam hs hhome hwave hrole hholds hacc hcan
      exact ⟨t, w1, w2, hexec, hw1, hw2, hothers, hops, hw, hflags, hteams, hv, hsr, hmem, hasked,
        fun loc => (hview loc).trans (lastByte_eq_find _ _ _)⟩
    · refine ⟨storePiece o.id s p, ?_, storePiece_piecewise hop hkind hteam hs hhome hholds hacc p⟩
      rw [exec_storeComplete, execStoreComplete]
      dsimp only
      rw [hop]
      dsimp only
      rw [hkind]
      dsimp only
      rw [hp]
  · obtain ⟨t, w1, w2, hexec, hw1, hw2, hothers, hops, hw, hflags, hmem, hpend, hblocks, hv, hsr, tm', hteam', hsame, hbyte⟩ :=
      storeComplete_scratchpad hop hkind hwave hrole hteam hcan hacc
    exact ⟨t, w1, w2, hexec, hw1, hw2, hothers, hops, hw, hflags, hmem, hpend, hblocks, hv, hsr, tm', hteam', hsame,
      fun off => (hbyte off).trans (lastByte_eq_find_sp _ _ _)⟩

end Sys2Proof.StoresPerformed

/-! # Waves whose registers an operation writes as it completes (11 R291, R293) -/

namespace Sys2Proof.WavesWritten

open Sys2Proof.Machine Sys2Proof.Machine.Laws Sys2Proof.MatrixEffect Sys2Proof.Barriers Sys2Proof.RangeOperations

theorem write_eq (w : Wave) (r : RegWrite) : w.write r =
    { w with v := (w.write r).v, vBad := (w.write r).vBad, vDirty := (w.write r).vDirty, s := (w.write r).s, sBad := (w.write r).sBad } := by
  cases r <;> rfl

theorem writes_eq (w : Wave) (l : List RegWrite) : w.writes l =
    { w with v := (w.writes l).v, vBad := (w.writes l).vBad, vDirty := (w.writes l).vDirty, s := (w.writes l).s, sBad := (w.writes l).sBad } := by
  unfold Wave.writes
  induction l generalizing w with
  | nil => rfl
  | cons r l ih =>
    rw [List.foldl_cons]
    refine (ih _).trans ?_
    rw [write_eq w r]

/-- Whether a wave is woken is told by its state and the flags. -/
theorem woken_congr {w v x y : Wave} (hstate : v.state = w.state) (hflags : y.flags = x.flags) : woken v y = woken w x := by
  unfold woken
  rw [flagWake_state, flagWake_state, hflags]
  exact congrArg _ hstate

/-- A wave whose operation completes, with registers written and its last acquire at `n`. -/
def completed (w : Wave) (n flag id : Nat) (ws : List RegWrite) : Wave := (((w.fenceAt n).writes ws).flagDown flag).lvqFill id ws

section
variable (w : Wave) (n flag id : Nat) (ws : List RegWrite)

theorem completed_eq : completed w n flag id ws =
    { w with v := (completed w n flag id ws).v, vBad := (completed w n flag id ws).vBad, vDirty := (completed w n flag id ws).vDirty,
             s := (completed w n flag id ws).s, sBad := (completed w n flag id ws).sBad, flags := (completed w n flag id ws).flags,
             lvq := (completed w n flag id ws).lvq, fenced := n, state := woken w (completed w n flag id ws) } := by
  have hwrites := writes_eq (w.fenceAt n) ws
  have hdown := flagDown_eq ((w.fenceAt n).writes ws) flag
  have hstate : ((w.fenceAt n).writes ws).state = w.state := by rw [hwrites]; rfl
  have hwoken : woken w (completed w n flag id ws) = woken ((w.fenceAt n).writes ws) (((w.fenceAt n).writes ws).flagDown flag) :=
    (woken_congr hstate rfl).symm
  rw [hwoken]
  unfold completed Wave.lvqFill
  dsimp only
  rw [hdown]
  dsimp only
  rw [hwrites]
  rfl

theorem completed_getF (f : Nat) : (completed w n flag id ws).getF f = if f = flag then w.getF f - 1 else w.getF f := by
  refine (getF_flagDown ((w.fenceAt n).writes ws) flag f).trans ?_
  have hflags : ((w.fenceAt n).writes ws).flags = w.flags := by rw [writes_eq]; rfl
  unfold Wave.getF
  rw [hflags]

theorem completed_v : (completed w n flag id ws).v = ((w.fenceAt n).writes ws).v := Wave.flagDown_v _ _

theorem completed_s : (completed w n flag id ws).s = ((w.fenceAt n).writes ws).s := Wave.flagDown_s _ _

theorem completed_id : (completed w n flag id ws).id = w.id := by
  rw [completed_eq]

end

theorem writes_append (w : Wave) (l l' : List RegWrite) : w.writes (l ++ l') = (w.writes l).writes l' := List.foldl_append

/-- What threads' values leave in the registers, where each thread's writes leave `left` of its value in a register of its own. -/
theorem getV_threadWrites {g : Nat → Nat → List RegWrite} {left : Nat → Nat → Option Word}
    (hg : ∀ (w : Wave) (t x r u : Nat), t < 32 → u < 32 →
      (w.writes (g t x)).getV r u = if u = t then (left x r).getD (w.getV r u) else w.getV r u)
    (w : Wave) {l : List (Nat × Nat)} (hlow : ∀ p ∈ l, p.1 < 32) (hnodup : (l.map (·.1)).Nodup) (r : Nat) {u : Nat} (hu : u < 32) :
    (∀ x, (u, x) ∈ l → (w.writes (l.flatMap fun p => g p.1 p.2)).getV r u = (left x r).getD (w.getV r u)) ∧
      (u ∉ l.map (·.1) → (w.writes (l.flatMap fun p => g p.1 p.2)).getV r u = w.getV r u) := by
  induction l generalizing w with
  | nil => exact ⟨fun _ h => absurd h List.not_mem_nil, fun _ => rfl⟩
  | cons p l ih =>
    rw [List.map_cons, List.nodup_cons] at hnodup
    have hone := hg w p.1 p.2 r u (hlow p List.mem_cons_self) hu
    obtain ⟨hin, hout⟩ := ih (w.writes (g p.1 p.2)) (fun q hq => hlow q (List.mem_cons_of_mem _ hq)) hnodup.2
    rw [List.flatMap_cons, writes_append]
    refine ⟨fun x hx => ?_, fun hnot => ?_⟩
    · rcases List.mem_cons.1 hx with rfl | hx
      · rw [hout hnodup.1, hone, if_pos rfl]
      · have hne : u ≠ p.1 := fun h => hnodup.1 (h ▸ List.mem_map_of_mem hx)
        rw [hin x hx, hone, if_neg hne]
    · rw [List.map_cons, List.mem_cons, not_or] at hnot
      rw [hout hnot.2, hone, if_neg hnot.1]

/-- An operation that ends in a state where its wave may have acquired, with the registers written. -/
theorem opDoneAt_of_completed {i : Instr} {s r : State} {o : Op} {w : Wave} {fence : Wave → Nat} {ws : List RegWrite} {P : State → Wave → Prop}
    (hwave : s.wave? o.wave = some w) (hfound : r.wave? o.wave = some (w.fenceAt (fence w))) (hother : ∀ j, j ≠ o.wave → r.wave? j = s.wave? j)
    (hops : r.ops = s.ops.filter fun x => x.id != o.id)
    (hexec : exec i s = .next (r.updWave o.wave fun w => ((w.writes ws).flagDown o.flag).lvqFill o.id ws))
    (hP : P (r.updWave o.wave fun w => ((w.writes ws).flagDown o.flag).lvqFill o.id ws) (completed w (fence w) o.flag o.id ws)) :
    OpDoneAt fence i s o P := by
  have hid : ∀ x : Wave, (((x.writes ws).flagDown o.flag).lvqFill o.id ws).id = x.id := fun x => completed_id x x.fenced o.flag o.id ws
  refine ⟨_, w, completed w (fence w) o.flag o.id ws, hexec, hwave, wave?_updWave_same hid hfound, fun j hj => ?_, hops, completed_eq _ _ _ _ _,
    completed_getF _ _ _ _ _, hP⟩
  rw [wave?_updWave_other hid hj, hother j hj]

/-- An operation that ends in a state where its wave may have acquired, and writes no register. -/
theorem opDoneAt_of_lowered {i : Instr} {s r : State} {o : Op} {w : Wave} {fence : Wave → Nat} {P : State → Wave → Prop}
    (hwave : s.wave? o.wave = some w) (hrole : w.role = .solo) (hfound : r.wave? o.wave = some (w.fenceAt (fence w)))
    (hother : ∀ j, j ≠ o.wave → r.wave? j = s.wave? j) (hops : r.ops = s.ops.filter fun x => x.id != o.id)
    (hexec : exec i s = .next (r.updPair o.wave fun w => w.flagDown o.flag))
    (hP : P (r.updPair o.wave fun w => w.flagDown o.flag) ((w.fenceAt (fence w)).flagDown o.flag)) : OpDoneAt fence i s o P := by
  have hsolo : (w.fenceAt (fence w)).role = .solo := hrole
  have halone : (r.updPair o.wave fun w => w.flagDown o.flag) = r.updWave o.wave fun w => w.flagDown o.flag := by
    rw [State.updPair, hfound]
    simp only [hsolo]
  rw [halone] at hexec hP
  refine ⟨_, w, (w.fenceAt (fence w)).flagDown o.flag, hexec, hwave, wave?_updWave_same (fun _ => Wave.flagDown_id _ _) hfound,
    fun j hj => ?_, hops, ?_, getF_flagDown (w.fenceAt (fence w)) o.flag, hP⟩
  · rw [wave?_updWave_other (fun _ => Wave.flagDown_id _ _) hj, hother j hj]
  · rw [flagDown_fenced]
    rfl

end Sys2Proof.WavesWritten

/-! # Atomics performed at their homes (11 R293, R296; 10 R273) -/

namespace Sys2Proof.AtomicsPerformed

open Sys2Proof.Machine Sys2Proof.Machine.Laws Sys2Proof.FramesKept Sys2Proof.RestKept Sys2Proof.NothingHeld Sys2Proof.CacheWords
open Sys2Proof.HeldStores Sys2Proof.MatrixEffect Sys2Proof.TenureOps Sys2Proof.Barriers Sys2Proof.RangeOperations Sys2Proof.StoresPerformed
open Sys2Proof.MonitorWait Sys2Proof.WavesWritten Sys2Proof.Windows

/-! ## What lies at home where a cache gives words up or takes them -/

theorem homeAt_dropHeld {s : State} (hs : SoundMemory s) {core l : Nat} (h : ¬ Dirty s core (l / 16)) (word : Nat) :
    homeAt (dropHeld s core word) l = homeAt s l := by
  unfold dropHeld
  split
  · rfl
  · next b hfind =>
    have hin : b ∈ s.blocks := List.mem_of_find?_eq_some hfind
    obtain ⟨hcache, -⟩ : b.cache = core ∧ b.has word = true := by simpa using List.find?_some hfind
    dsimp only
    split
    · refine homeAt_evictBlock (hs.2.1.1 b hin).2 fun _ x hx => ?_
      by_contra hdirty
      exact h ⟨x, ⟨b, hin, hcache, hx⟩, by simpa using hdirty⟩
    · rfl

/-! ## Bytes of a run within a word -/

/-- The bytes from a place on, each with its place in the word. -/
def wordRun : Nat → List (BitVec 8) → List (Nat × BitVec 8)
  | _, [] => []
  | loc, b :: bs => (loc % 16, b) :: wordRun (loc + 1) bs

theorem wordRun_lt (loc : Nat) (bs : List (BitVec 8)) : ∀ b ∈ wordRun loc bs, b.1 < 16 := by
  induction bs generalizing loc with
  | nil => exact fun _ h => absurd h List.not_mem_nil
  | cons b bs ih =>
    intro c hc
    rcases List.mem_cons.1 hc with rfl | hc
    · exact Nat.mod_lt _ (by decide)
    · exact ih _ c hc

theorem cutWords_run {loc : Nat} {bs : List (BitVec 8)} (hne : bs ≠ []) (hword : loc % 16 + bs.length ≤ 16) :
    cutWords loc bs = [(loc / 16, wordRun loc bs)] := by
  induction bs generalizing loc with
  | nil => exact absurd rfl hne
  | cons b bs ih =>
    cases bs with
    | nil => rfl
    | cons c cs =>
      simp only [List.length_cons] at hword ih
      rw [cutWords, ih (List.cons_ne_nil _ _) (by omega)]
      dsimp only
      rw [if_pos (by omega), show (loc + 1) / 16 = loc / 16 by omega]
      rfl

theorem lastByte_wordRun {loc l : Nat} {bs : List (BitVec 8)} (hword : loc % 16 + bs.length ≤ 16) (hl : l / 16 = loc / 16) (old : BitVec 8) :
    lastByte (wordRun loc bs) (l % 16) old = if loc ≤ l ∧ l < loc + bs.length then bs.getD (l - loc) 0 else old := by
  induction bs generalizing loc old with
  | nil => rw [if_neg (by simp)]; rfl
  | cons b bs ih =>
    rw [List.length_cons] at hword
    rw [wordRun, lastByte_cons, List.length_cons]
    dsimp only
    cases bs with
    | nil =>
      rw [wordRun, lastByte, List.foldl_nil]
      by_cases hloc : l = loc
      · rw [if_pos (by rw [hloc]), if_pos (by omega), hloc, Nat.sub_self]
        rfl
      · rw [if_neg (by omega), if_neg (by simp only [List.length_nil]; omega)]
    | cons c cs =>
      rw [List.length_cons] at hword ih
      rw [ih (by omega) (by omega)]
      by_cases hin : loc + 1 ≤ l ∧ l < loc + 1 + (cs.length + 1)
      · rw [if_pos hin, if_pos (by rw [List.length_cons]; omega), show l - loc = (l - (loc + 1)) + 1 by omega]
        rfl
      · rw [if_neg hin]
        by_cases hloc : l = loc
        · rw [if_pos (by rw [hloc]), if_pos (by rw [List.length_cons]; omega), hloc, Nat.sub_self]
          rfl
        · rw [if_neg (by omega), if_neg (by rw [List.length_cons]; omega)]

theorem leBytes_leNat (l : List (BitVec 8)) : leBytes l.length (leNat l) = l := by
  induction l with
  | nil => rfl
  | cons b l ih =>
    rw [List.length_cons, leNat, leBytes]
    congr 1
    · refine BitVec.eq_of_toNat_eq ?_
      rw [BitVec.toNat_ofNat]
      have := b.isLt
      omega
    · rw [show (b.toNat + 256 * leNat l) / 256 = leNat l by have := b.isLt; omega, ih]

theorem leBytes_getD {n x i : Nat} (hi : i < n) : (leBytes n x).getD i 0 = BitVec.ofNat 8 (x / 2 ^ (8 * i)) := by
  rw [List.getD_eq_getElem?_getD, leBytes_getElem?, if_pos hi, Nat.pow_mul]
  rfl

/-- Bytes stored are the bytes of their number, and a number's own bytes change nothing. -/
theorem withBytes_self (m : Nat → BitVec 8) (loc n : Nat) : withBytes m loc n (leNat ((List.range n).map fun i => m (loc + i))) = m := by
  funext l
  unfold withBytes
  split
  · next hl =>
    have hinv := leBytes_leNat ((List.range n).map fun i => m (loc + i))
    rw [List.length_map, List.length_range] at hinv
    rw [← leBytes_getD (by omega : l - loc < n), hinv, List.getD_eq_getElem?_getD, List.getElem?_map, List.getElem?_range (by omega)]
    show m (loc + (l - loc)) = m l
    rw [show loc + (l - loc) = l by omega]
  · rfl

/-! ## One atomic -/

/-- What the cores of an atomic leave: the caches as they are but for one word, and the new value at its home. -/
theorem redHome_stores {u : State} {op : AtomOp} {n loc x y : Nat} (hword : loc % 16 + n ≤ 16) (hn : 0 < n) (hmark : markAt u loc = .ok) :
    ∃ bytes, (∀ b ∈ bytes, b.1 < 16) ∧
      (redHome u op n loc x y = commitWord u (loc / 16) bytes .ok ∨ redHome u op n loc x y = u) ∧
      ∀ l, readHome (redHome u op n loc x y) l =
        withBytes (readHome u) loc n ((atomNew op (8 * n) (readHomeN u loc n) x y).getD (readHomeN u loc n)) l := by
  have hexpand : redHome u op n loc x y = (atomNew op (8 * n) (readHomeN u loc n) x y).elim u (writeHomeN u loc n) := by
    rw [redHome, if_neg fun h => h.1 hmark]
    cases atomNew op (8 * n) (readHomeN u loc n) x y <;> rfl
  cases hnew : atomNew op (8 * n) (readHomeN u loc n) x y with
  | none =>
    rw [hnew] at hexpand
    refine ⟨[], fun _ h => absurd h List.not_mem_nil, .inr hexpand, fun l => ?_⟩
    rw [hexpand]
    exact (congrFun (withBytes_self (readHome u) loc n) l).symm
  | some v =>
    have hlen : (leBytes n v).length = n := leBytes_length n v
    have hcut := cutWords_run (loc := loc) (bs := leBytes n v) (List.ne_nil_of_length_pos (by omega)) (by omega)
    have hwrite : redHome u op n loc x y = commitWord u (loc / 16) (wordRun loc (leBytes n v)) .ok := by
      rw [hexpand, hnew, Option.elim_some, writeHomeN, writeHome, hcut]
      rfl
    refine ⟨_, wordRun_lt _ _, .inl hwrite, fun l => ?_⟩
    rw [hwrite, readHome_stored _ _ (wordRun_lt _ _)]
    unfold withBytes
    by_cases hl : l / 16 = loc / 16
    · rw [if_pos hl, lastByte_wordRun (by omega) hl, hlen]
      split
      · next hin => exact leBytes_getD (by omega)
      · rfl
    · rw [if_neg hl, if_neg fun h => hl (by omega)]

/-- Steps of the caches that leave a core no new dirty word, and what lies at home but for its dirty words. -/
structure Quiet (core : Nat) (s t : State) : Prop where
  sound : SoundMemory t
  rest : restOf t = restOf s
  pend : t.pend = s.pend
  dirty : DirtyFrom core s t
  home : ∀ l, ¬ Dirty s core (l / 16) → homeAt t l = homeAt s l

theorem Quiet.refl {s : State} (hs : SoundMemory s) (core : Nat) : Quiet core s s := ⟨hs, rfl, rfl, DirtyFrom.refl core s, fun _ _ => rfl⟩

theorem Quiet.trans {core : Nat} {s t u : State} (h : Quiet core s t) (h' : Quiet core t u) : Quiet core s u :=
  ⟨h'.sound, h'.rest.trans h.rest, h'.pend.trans h.pend, h.dirty.trans h'.dirty,
    fun l hl => (h'.home l fun hd => hl (h.dirty _ hd)).trans (h.home l hl)⟩

section
variable {s : State} (hs : SoundMemory s) (core word : Nat)
include hs

theorem quiet_ownWord : Quiet core s (ownWord s core word) := by
  obtain ⟨hdirty, hhome⟩ := answerFor_clean hs (missFill s core (word / 16) (word % 16) (word % 16) 1 0 true false) fun w => w == word
  exact ⟨answerFor_sound _ _ hs, restOf_answerFor _ _ _, congrArg Prod.snd (claimsOf_answerFor _ _ _), hdirty core, hhome⟩

theorem quiet_dropHeld : Quiet core s (dropHeld s core word) :=
  ⟨dropHeld_sound _ _ hs, restOf_dropHeld _ _ _, pend_dropHeld _ _ _, (dropHeld_drops hs core word).2.2 core, fun _ hl => homeAt_dropHeld hs hl _⟩

theorem quiet_setHeld {x : CWord} (hx : x.isDirty = false) : Quiet core s (s.setHeld core word x) :=
  ⟨setHeld_sound _ _ _ hs, restOf_setHeld _ _ _ _, rfl, dirtyFrom_setHeld _ _ _ _ hx, fun _ _ => rfl⟩

theorem quiet_writeBackWord : Quiet core s (writeBackWord s word) :=
  ⟨writeBackWord_sound _ hs, restOf_writeBackWord _ _, rfl, dirtyFrom_writeBackWord _ _ _, fun _ _ => rfl⟩

variable {core word} (hclean : ¬ Dirty s core word) (hpend : ∀ e ∈ s.pend, e.core = core → e.word ≠ word)
include hclean hpend

theorem drainWord_undirty : drainWord s core word =
    if held? s core word = some .modified ∧ ¬ homeDown s (16 * word) then (writeBackWord s word).setHeld core word .shared else s := by
  have hcleaned : cleanWord s core word = s := by
    unfold cleanWord
    split
    · next bs m hown => exact absurd ((dirty_iff_ownCopy hs.2.1).2 ⟨bs, m, hown⟩) hclean
    · rfl
  rw [drainWord, performPends_none fun e he hcore => beq_eq_false_iff_ne.2 (hpend e he hcore), hcleaned]

theorem quiet_drainWord : Quiet core s (drainWord s core word) := by
  rw [drainWord_undirty hs hclean hpend]
  split
  · exact (quiet_writeBackWord hs core word).trans (quiet_setHeld (quiet_writeBackWord hs core word).sound core word rfl)
  · exact .refl hs core

end

/-- An atomic that a core performs: what it finds, the caches made ready for it, and its cores' work at the home. -/
theorem atomHome_eq {s : State} {core n loc x y : Nat} {own : Bool} {op : AtomOp} (hs : SoundMemory s)
    (hstamps : flushStamps s (some (partOfCore s core)) (16 * (loc / 16)) 16 = s) (hclean : ¬ Dirty s core (loc / 16))
    (hpend : ∀ e ∈ s.pend, e.core = core → e.word ≠ loc / 16) :
    ∃ u, Quiet core s u ∧ ((atomHome s core own op n loc x y) = ((redHome u op n loc x y).setHeld core (loc / 16) .modified, readHomeN u loc n) ∧
        (own = false → u = s ∧ ownsExclusive s core (loc / 16) = true) ∨
      (atomHome s core own op n loc x y) = (redHome u op n loc x y, readHomeN u loc n) ∧
        (own = false → held? s core (loc / 16) = none ∨ ownsExclusive s core (loc / 16) = true ∧ isSwm s loc = false →
          u = s ∧ held? s core (loc / 16) = none)) := by
  have hnone := performPends_none (s := s) (core := core) (p := fun e => e.word == loc / 16)
    fun e he hcore => beq_eq_false_iff_ne.2 (hpend e he hcore)
  have hq : Quiet core s (if own && !(isSwm s loc) && !(ownsExclusive s core (loc / 16)) then ownWord s core (loc / 16) else s) := by
    split
    · exact quiet_ownWord hs core _
    · exact .refl hs core
  have hplain : own = false → (if own && !(isSwm s loc) && !(ownsExclusive s core (loc / 16)) then ownWord s core (loc / 16) else s) = s :=
    fun h => by rw [h, Bool.false_and, Bool.false_and, if_neg Bool.false_ne_true]
  unfold atomHome
  dsimp only
  rw [hstamps, hnone]
  generalize (if own && !(isSwm s loc) && !(ownsExclusive s core (loc / 16)) then ownWord s core (loc / 16) else s) = u at hq hplain ⊢
  by_cases hpath : (ownsExclusive u core (loc / 16) && !(isSwm u loc)) = true
  · rw [if_pos hpath]
    simp only [Bool.and_eq_true] at hpath
    exact ⟨u, hq, .inl ⟨rfl, fun h => ⟨hplain h, hplain h ▸ hpath.1⟩⟩⟩
  · rw [if_neg hpath]
    have hclean' : ¬ Dirty u core (loc / 16) := fun h => hclean (hq.dirty _ h)
    have hpend' : ∀ e ∈ u.pend, e.core = core → e.word ≠ loc / 16 := hq.pend ▸ hpend
    have hdrain := quiet_drainWord hq.sound hclean' hpend'
    refine ⟨_, hq.trans (hdrain.trans (quiet_dropHeld hdrain.sound core (loc / 16))), .inr ⟨rfl, fun h hheld => ?_⟩⟩
    rw [hplain h] at hpath hclean' hpend' ⊢
    rcases hheld with hheld | ⟨hown, hswm⟩
    · refine ⟨?_, hheld⟩
      rw [drainWord_undirty hs hclean' hpend', hheld, if_neg fun h => by cases h.1]
      exact dropHeld_none hheld
    · rw [hown, hswm] at hpath
      exact absurd rfl hpath

/-! ## Atomics one after another -/

theorem homeFailed_of_restOf {s t : State} (h : restOf t = restOf s) (loc : Nat) : homeFailed t loc = homeFailed s loc := by
  have hrest : ∀ u : State, homeFailed u loc = homeFailed (restOf u) loc := fun u => by
    unfold restOf
    rfl
  rw [hrest t, h, ← hrest]

theorem partOfCore_of_restOf {s t : State} (h : restOf t = restOf s) (core : Nat) : partOfCore t core = partOfCore s core := by
  have hrest : ∀ u : State, partOfCore u core = partOfCore (restOf u) core := fun u => by
    unfold restOf
    rfl
  rw [hrest t, h, ← hrest]

theorem isSwm_of_restOf {s t : State} (h : restOf t = restOf s) (loc : Nat) : isSwm t loc = isSwm s loc :=
  isSwm_of_sceneOf (sceneOf_of_restOf h) loc

theorem markAt_eq_ok {s : State} {loc : Nat} : markAt s loc = .ok ↔ homeFailed s loc = false ∧ get Mark.ok s.marks (loc / 16) = .ok := by
  unfold markAt
  cases homeFailed s loc <;> simp

/-- No word of a core waits for its invalidation. -/
def NoStale (s : State) (core : Nat) : Prop := ∀ w x, WordIn s.blocks core w x → x.isStale = false

/-- A core whose L1 lacks a word, or owns it in a page that hardware keeps coherent. -/
def Plain (s : State) (core loc : Nat) : Prop :=
  held? s core (loc / 16) = none ∨ ownsExclusive s core (loc / 16) = true ∧ isSwm s loc = false

theorem Plain.undirty {s : State} (hs : SoundMemory s) {core loc : Nat} (h : Plain s core loc) : ¬ Dirty s core (loc / 16) := fun hd => by
  obtain ⟨bs, m, hown⟩ := (dirty_iff_ownCopy hs.2.1).1 hd
  rcases h with hnone | ⟨howned, -⟩
  · rw [ownCopy_none hnone] at hown
    cases hown
  · rw [ownCopy_of_ownsExclusive howned] at hown
    cases hown

/-- A state in which a core may perform atomics at some locations: with `own`, words that `D` names may be written back. -/
structure Ready (own : Bool) (core : Nat) (D : Nat → Prop) (ls : List Nat) (s : State) : Prop where
  sound : SoundMemory s
  grids : ∀ g ∈ s.grids, g.part = partOfCore s core ∨ g.stamps = []
  pend : ∀ loc ∈ ls, ∀ e ∈ s.pend, e.core = core → e.word ≠ loc / 16
  marks : ∀ loc ∈ ls, markAt s loc = .ok
  kept : ∀ loc ∈ ls, own = true → ¬ D (loc / 16)
  dirty : own = true → ∀ w, Dirty s core w → D w
  plain : own = false → ∀ loc ∈ ls, Plain s core loc

theorem Ready.undirty {own : Bool} {core : Nat} {D : Nat → Prop} {ls : List Nat} {s : State} (h : Ready own core D ls s) {loc : Nat}
    (hloc : loc ∈ ls) : ¬ Dirty s core (loc / 16) := by
  cases own with
  | false => exact (h.plain rfl loc hloc).undirty h.sound
  | true => exact fun hd => h.kept loc hloc rfl (h.dirty rfl _ hd)

/-- What a step of atomics leaves: the same surroundings, memory as it says where no write-back may change it, and no stale word. -/
structure AtomsDone (own : Bool) (core : Nat) (D : Nat → Prop) (ls : List Nat) (s t : State) (m : Nat → BitVec 8) : Prop where
  ready : Ready own core D ls t
  rest : restOf t = restOf s
  pend : t.pend = s.pend
  home : ∀ l, own = false ∨ ¬ D (l / 16) → readHome t l = m l
  stale : own = false → NoStale s core → NoStale t core

section
variable {own : Bool} {core : Nat} {D : Nat → Prop} {ls : List Nat} {s : State} {op : AtomOp} {n loc x y : Nat}

theorem holds_of_wordIn {s : State} {cache word : Nat} {x : CWord} (h : WordIn s.blocks cache word x) : Holds s cache word :=
  let ⟨b, hb, hcache, hx⟩ := h
  ⟨b, hb, hcache, has_of_word? hx⟩

/-- A word committed becomes stale in no cache that lacks it. -/
theorem wordIn_commitWord {s : State} {word : Nat} {bytes : List (Nat × BitVec 8)} {mk : Mark} {w : Nat} {x : CWord}
    (h : WordIn (commitWord s word bytes mk).blocks core w x) : WordIn s.blocks core w x ∨ w = word := by
  by_cases hw : w = word
  · exact .inr hw
  · obtain ⟨b, hb, hcache, hx⟩ := h
    obtain ⟨a, ha, rfl⟩ := List.mem_map.1 hb
    have hset := SetsAt.overwritten (wordBytes s word) (get Mark.ok s.marks word) s.nextId word
    exact .inl ⟨a, ha, (hset.cache a).symm.trans hcache, (hset.other a w hw).symm.trans hx⟩

theorem noStale_setHeld {s : State} {word : Nat} {y : CWord} (hy : y.isStale = false)
    (h : ∀ w x, w ≠ word → WordIn s.blocks core w x → x.isStale = false) : NoStale (s.setHeld core word y) core := by
  rintro w x ⟨b, hb, hcache, hx⟩
  obtain ⟨a, ha, rfl⟩ := List.mem_map.1 hb
  by_cases hc : a.cache = core
  · rw [if_pos hc, word?_setWord] at hx
    split at hx
    · cases hx
      exact hy
    · next hnot =>
      exact h w x (fun hw => hnot ⟨hw, hw ▸ has_of_word? hx⟩) ⟨a, ha, hc, hx⟩
  · rw [if_neg hc] at hcache
    exact absurd hcache hc

/-- What the work of the cores at a home keeps. -/
theorem redHome_keeps (hs : SoundMemory s) (hword : loc % 16 + n ≤ 16) (hn : 0 < n) (hmark : markAt s loc = .ok) :
    SoundMemory (redHome s op n loc x y) ∧ restOf (redHome s op n loc x y) = restOf s ∧ (redHome s op n loc x y).pend = s.pend ∧
      (∀ k, DirtyFrom k s (redHome s op n loc x y)) ∧ Touches (loc / 16) s (redHome s op n loc x y) ∧
      (∀ l, markAt s l = .ok → markAt (redHome s op n loc x y) l = .ok) ∧
      ∀ k w x', WordIn (redHome s op n loc x y).blocks k w x' → WordIn s.blocks k w x' ∨ w = loc / 16 := by
  obtain ⟨bytes, hlow, hred | hred, -⟩ := redHome_stores (u := s) (op := op) (x := x) (y := y) hword hn hmark
  · rw [hred]
    refine ⟨commitWord_sound _ _ _ hs, restOf_commitWord _ _ _ _, rfl, fun k => dirtyFrom_commitWord _ _ _ _ _, touches_commitWord _ _ _ _,
      fun l hl => ?_, fun k w x' => wordIn_commitWord⟩
    obtain ⟨hfailed, hl⟩ := markAt_eq_ok.1 hl
    refine markAt_eq_ok.2 ⟨(homeFailed_of_restOf (restOf_commitWord _ _ _ _) l).trans hfailed, ?_⟩
    have hold := (markAt_eq_ok.1 hmark).2
    show get Mark.ok (put Mark.ok s.marks (loc / 16) (if Mark.ok ≠ .ok then Mark.ok else
      if coversWord bytes then .ok else get Mark.ok s.marks (loc / 16))) (l / 16) = .ok
    rw [get_put, hold, ite_self, ite_self]
    split
    · rfl
    · exact hl
  · rw [hred]
    exact ⟨hs, rfl, rfl, fun k => DirtyFrom.refl k s, .of_blocks rfl, fun _ h => h, fun _ _ _ h => .inl h⟩

end

/-- One atomic at a state that is ready for it. -/
theorem atomHome_moves {own : Bool} {core : Nat} {D : Nat → Prop} {ls : List Nat} {s : State} {op : AtomOp} {n loc x y : Nat}
    (h : Ready own core D ls s) (hloc : loc ∈ ls) (hword : loc % 16 + n ≤ 16) (hn : 0 < n) :
    ∃ u r, Quiet core s u ∧ atomHome s core own op n loc x y = (r, readHomeN u loc n) ∧
      SoundMemory r ∧ restOf r = restOf u ∧ r.pend = u.pend ∧ DirtyFrom core u r ∧ Touches (loc / 16) u r ∧
      (∀ l, markAt u l = .ok → markAt r l = .ok) ∧
      (∀ l, readHome r l = withBytes (readHome u) loc n ((atomNew op (8 * n) (readHomeN u loc n) x y).getD (readHomeN u loc n)) l) ∧
      (own = false → u = s ∧ Plain r core loc ∧ (NoStale s core → NoStale r core)) := by
  have hclean := h.undirty hloc
  obtain ⟨u, hq, hcase⟩ := atomHome_eq (own := own) (op := op) (n := n) (x := x) (y := y) h.sound (flushStamps_none h.grids _ _) hclean (h.pend loc hloc)
  have hmark : markAt u loc = .ok := by
    obtain ⟨hfailed, hget⟩ := markAt_eq_ok.1 (h.marks loc hloc)
    exact markAt_eq_ok.2 ⟨(homeFailed_of_restOf hq.rest loc).trans hfailed, (congrArg Prod.snd (hq.home loc hclean)).trans hget⟩
  obtain ⟨hsr, hrest, hpend, hdirty, ht, hmarks, hwords⟩ := redHome_keeps (op := op) (x := x) (y := y) hq.sound hword hn hmark
  obtain ⟨-, -, -, hhome⟩ := redHome_stores (u := u) (op := op) (x := x) (y := y) hword hn hmark
  generalize redHome u op n loc x y = r at hcase hsr hrest hpend hdirty ht hmarks hwords hhome
  rcases hcase with ⟨heq, howned⟩ | ⟨heq, hplain⟩
  · refine ⟨u, r.setHeld core (loc / 16) .modified, hq, heq, setHeld_sound _ _ _ hsr, (restOf_setHeld _ _ _ _).trans hrest, hpend,
      (hdirty core).trans (dirtyFrom_setHeld _ _ _ _ rfl), ht.trans (touches_setHeld _ _ _ _), hmarks, hhome, fun hown => ?_⟩
    obtain ⟨rfl, howns⟩ := howned hown
    have hholds := holds_of_ownsExclusive howns
    refine ⟨rfl, .inr ⟨?_, ?_⟩, fun hstale => noStale_setHeld rfl fun w x' hw hin => ?_⟩
    · rw [ownsExclusive, held?_setHeld ((ht.holds _ _).2 hholds)]
    · refine (isSwm_of_restOf ((restOf_setHeld _ _ _ _).trans hrest) loc).trans ?_
      rcases h.plain hown loc hloc with hnone | ⟨-, hswm⟩
      · rw [← Option.not_isSome_iff_eq_none, held?_isSome_iff] at hnone
        exact absurd hholds hnone
      · exact hswm
    · exact hstale w x' ((hwords core w x' hin).resolve_right hw)
  · refine ⟨u, r, hq, heq, hsr, hrest, hpend, hdirty core, ht, hmarks, hhome, fun hown => ?_⟩
    obtain ⟨rfl, hnone⟩ := hplain hown (h.plain hown loc hloc)
    have hlacks : ¬ Holds u core (loc / 16) := by rw [← held?_isSome_iff, hnone]; decide
    refine ⟨rfl, .inl ?_, fun hstale w x' hin => ?_⟩
    · rw [← Option.not_isSome_iff_eq_none, held?_isSome_iff, ht.holds]
      exact hlacks
    · rcases hwords core w x' hin with hin | rfl
      · exact hstale w x' hin
      · exact absurd ((ht.holds _ _).1 (holds_of_wordIn hin)) hlacks

theorem Plain.touched {s t : State} {core word loc : Nat} (h : Plain s core loc) (ht : Touches word s t) (hrest : restOf t = restOf s)
    (hne : loc / 16 ≠ word) : Plain t core loc := by
  unfold Plain at h ⊢
  rw [ht.other core _ hne, ht.ownsExclusive hne, isSwm_of_restOf hrest]
  exact h

theorem Plain.word {s : State} {core l loc : Nat} (h : Plain s core loc) (heq : l / 16 = loc / 16) : Plain s core l := by
  unfold Plain at h ⊢
  rw [heq, ← isSwm_word s l, heq, isSwm_word]
  exact h

theorem atomHome_done {own : Bool} {core : Nat} {D : Nat → Prop} {ls : List Nat} {s : State} {op : AtomOp} {n loc x y : Nat}
    (h : Ready own core D ls s) (hloc : loc ∈ ls) (hword : loc % 16 + n ≤ 16) (hn : 0 < n) :
    (atomHome s core own op n loc x y).2 = readHomeN s loc n ∧ AtomsDone own core D ls s (atomHome s core own op n loc x y).1
      (withBytes (readHome s) loc n ((atomNew op (8 * n) (readHomeN s loc n) x y).getD (readHomeN s loc n))) := by
  obtain ⟨u, r, hq, heq, hsr, hrest, hpend, hdirty, ht, hmarks, hhome, hexact⟩ :=
    atomHome_moves (op := op) (x := x) (y := y) h hloc hword hn
  have hin : ∀ i < n, readHome u (loc + i) = readHome s (loc + i) := fun i hi =>
    congrArg Prod.fst (hq.home (loc + i) (by rw [show (loc + i) / 16 = loc / 16 by omega]; exact h.undirty hloc))
  have hold : readHomeN u loc n = readHomeN s loc n := by
    unfold readHomeN
    congr 1
    exact List.map_congr_left fun i hi => hin i (List.mem_range.1 hi)
  have hrest' := hrest.trans hq.rest
  rw [heq, hold]
  rw [hold] at hhome
  refine ⟨rfl, ⟨hsr, fun g hg => ?_, fun l hl e he => ?_, fun l hl => ?_, h.kept, fun hown w hw => ?_, fun hown l hl => ?_⟩, hrest',
    hpend.trans hq.pend, fun l hl => ?_, fun hown => (hexact hown).2.2⟩
  · rw [partOfCore_of_restOf hrest']
    exact h.grids g (grids_of_sparseOf (sparseOf_of_restOf hrest') ▸ hg)
  · exact h.pend l hl e (hpend.trans hq.pend ▸ he)
  · obtain ⟨hfailed, hget⟩ := markAt_eq_ok.1 (h.marks l hl)
    exact hmarks l (markAt_eq_ok.2 ⟨(homeFailed_of_restOf hq.rest l).trans hfailed,
      (congrArg Prod.snd (hq.home l (h.undirty hl))).trans hget⟩)
  · exact h.dirty hown w (hq.dirty w (hdirty w hw))
  · obtain ⟨rfl, hplain, -⟩ := hexact hown
    by_cases hne : l / 16 = loc / 16
    · exact hplain.word hne
    · exact (h.plain hown l hl).touched ht hrest hne
  · rw [hhome]
    unfold withBytes
    split
    · rfl
    · cases own with
      | false => rw [(hexact rfl).1]
      | true => exact congrArg Prod.fst (hq.home l fun hd => hl.resolve_left Bool.noConfusion (h.dirty rfl _ hd))

/-- Atomics of a core performed one after another: the state that they leave and the values that they found. -/
def atomsRun (core : Nat) (own : Bool) (op : AtomOp) (n : Nat) : State → List (Nat × Nat × Nat) → State × List Nat
  | s, [] => (s, [])
  | s, (loc, x, y) :: l =>
    let r := atomHome s core own op n loc x y
    let q := atomsRun core own op n r.1 l
    (q.1, r.2 :: q.2)

theorem atomsRun_done {own : Bool} {core : Nat} {D : Nat → Prop} {ls : List Nat} {s : State} {op : AtomOp} {n : Nat} {m : Nat → BitVec 8}
    {l : List (Nat × Nat × Nat)} (h : Ready own core D ls s) (hl : ∀ p ∈ l, p.1 ∈ ls ∧ p.1 % 16 + n ≤ 16) (hn : 0 < n)
    (hm : ∀ l, own = false ∨ ¬ D (l / 16) → readHome s l = m l) :
    (atomsRun core own op n s l).2 = (atomsInOrder op n m l).2 ∧
      AtomsDone own core D ls s (atomsRun core own op n s l).1 (atomsInOrder op n m l).1 := by
  induction l generalizing s m with
  | nil => exact ⟨rfl, h, rfl, rfl, hm, fun _ h => h⟩
  | cons p l ih =>
    obtain ⟨loc, x, y⟩ := p
    obtain ⟨hloc, hword⟩ := hl _ List.mem_cons_self
    obtain ⟨hold, hdone⟩ := atomHome_done (op := op) (x := x) (y := y) h hloc hword hn
    have hfree : ∀ i < n, own = false ∨ ¬ D ((loc + i) / 16) := fun i hi => by
      rw [show (loc + i) / 16 = loc / 16 by dsimp only at hword; omega]
      cases own with
      | false => exact .inl rfl
      | true => exact .inr (h.kept loc hloc rfl)
    have hread : readHomeN s loc n = leNat ((List.range n).map fun i => m (loc + i)) := by
      unfold readHomeN
      congr 1
      exact List.map_congr_left fun i hi => hm _ (hfree i (List.mem_range.1 hi))
    rw [hread] at hold hdone
    obtain ⟨holds, hrun⟩ := ih hdone.ready (fun q hq => hl q (List.mem_cons_of_mem _ hq)) (m := withBytes m loc n
      ((atomNew op (8 * n) (leNat ((List.range n).map fun i => m (loc + i))) x y).getD (leNat ((List.range n).map fun i => m (loc + i)))))
      fun i hi => by
        rw [hdone.home i hi]
        unfold withBytes
        split
        · rfl
        · exact hm i hi
    refine ⟨?_, hrun.ready, hrun.rest.trans hdone.rest, hrun.pend.trans hdone.pend, hrun.home, fun hown hs => hrun.stale hown (hdone.stale hown hs)⟩
    rw [atomsRun, atomsInOrder]
    exact congrArg₂ List.cons hold holds

/-! ## What a release performs first -/

/-- Of a round of stores performed, those are gone that neither wait nor have one before them that waits. -/
theorem performAll_performs_unowed {s : State} (hs : SoundPends s) {p q : Pend → Bool} (hpq : ∀ e ∈ s.pend, q e = true → p e = true)
    (hwaits : ∀ e ∈ neededPends q s.pend.reverse [], pendWaits s e = false) : ∀ e ∈ (performAll s p).pend, q e = false := by
  have hreverse : s.pend.reverse.Pairwise fun a b => b.id < a.id := List.pairwise_reverse.2 hs.1
  have hnodup : s.pend.Nodup := hs.1.imp fun hlt heq => (congrArg Pend.id heq ▸ hlt).false
  have hsub : ∀ r : Pend → Bool, (neededPends r s.pend.reverse []).Sublist s.pend := fun r => by
    simpa using neededPends_sublist (p := r) s.pend.reverse []
  have hbefore : ∀ r : Pend → Bool, ∀ e ∈ neededPends r s.pend.reverse [], ∀ f ∈ s.pend, f.before e = true →
      f ∈ neededPends r s.pend.reverse [] := fun r e he f hf hfe =>
    mem_neededPends_of_before hreverse (List.mem_reverse.2 hf) hfe he (.inl (List.mem_reverse.2 ((hsub r).subset he)))
  have hincluded : ∀ e ∈ neededPends q s.pend.reverse [], e ∈ neededPends p s.pend.reverse [] := fun e he => by
    obtain ⟨-, hin⟩ := mem_neededPends_of_cover (ι := Unit) (q := fun _ => p) (taken := fun _ => [])
      (fun f hf hqf => ⟨(), hpq f (List.mem_reverse.1 hf) hqf⟩) (fun f hf => by cases hf) e he
    exact hin
  have hsorted := hs.1.sublist (hsub p)
  have hstep : ∀ (todo done : List Pend) (t : State), neededPends p s.pend.reverse [] = done ++ todo → t.pend.Sublist s.pend →
      (∀ e ∈ done, e ∈ neededPends q s.pend.reverse [] → e ∉ t.pend) → ∀ e ∈ neededPends q s.pend.reverse [],
        e ∉ (todo.foldl (fun t e => if pendWaits s e || t.pend.any (fun f => f.before e) then t else performPend t e) t).pend := by
    intro todo
    induction todo with
    | nil =>
      intro done t hneeded _ hdone e he
      rw [List.append_nil] at hneeded
      exact hdone e (hneeded ▸ hincluded e he) he
    | cons x todo ih =>
      intro done t hneeded htsub hdone
      have hnext : (if pendWaits s x || t.pend.any (fun f => f.before x) then t else performPend t x).pend.Sublist t.pend := by
        split
        · exact .refl _
        · rw [pend_performPend]
          exact List.erase_sublist
      rw [List.foldl_cons]
      refine ih (done ++ [x]) _ (by rw [hneeded, List.append_assoc, List.singleton_append]) (hnext.trans htsub) fun e he hqe hin => ?_
      rcases List.mem_append.1 he with he | he
      · exact hdone e he hqe (hnext.subset hin)
      · obtain rfl := List.mem_singleton.1 he
        have hfirst : t.pend.any (fun f => f.before e) = false := List.any_eq_false.2 fun f hf hfe => by
          have hearlier : f.id < e.id := by
            simp only [Pend.before, Bool.and_eq_true, decide_eq_true_eq] at hfe
            exact hfe.1.2
          have hfq := hbefore q e hqe f (htsub.subset hf) hfe
          have hfp := hincluded f hfq
          rw [hneeded] at hfp hsorted
          rcases List.mem_append.1 hfp with hfdone | hftodo
          · exact hdone f hfdone hfq hf
          · rcases List.mem_cons.1 hftodo with rfl | hftodo
            · exact lt_irrefl _ hearlier
            · exact lt_asymm hearlier ((List.pairwise_cons.1 (List.pairwise_append.1 hsorted).2.1).1 f hftodo)
        rw [hwaits e hqe, hfirst, Bool.or_self, if_neg Bool.false_ne_true, pend_performPend] at hin
        exact ((hnodup.sublist htsub).mem_erase_iff.1 hin).1 rfl
  intro e he
  by_contra hqe
  have hmem : e ∈ s.pend := (pend_performAll_sublist s p).subset he
  have hin : e ∈ neededPends q s.pend.reverse [] := mem_neededPends_of_test [] (List.mem_reverse.2 hmem) (by simpa using hqe)
  exact hstep _ [] s rfl (.refl _) (fun _ h => absurd h List.not_mem_nil) e hin (performAll.eq_1 s p ▸ he)

/-- A release at `.cluster` scope or wider leaves its core no store from before it, where none was owed. -/
theorem pend_drainFor {s : State} (hs : SoundPends s) {core scope now : Nat} (hscope : 2 ≤ scope) (howes : owes s core scope now = false) :
    ∀ e ∈ (drainFor s core scope).pend, e.core = core → now ≤ e.since := by
  intro e he hcore
  rw [owes, decide_eq_true hscope, Bool.true_and] at howes
  rw [drainFor, if_pos hscope] at he
  have hnone := performAll_performs_unowed hs (p := fun e => e.core == core && true) (q := fun e => e.core == core && decide (e.since < now))
    (fun f _ hf => by simp only [Bool.and_eq_true] at hf; rw [hf.1]; rfl)
    (fun f hf => by simpa using List.any_eq_false.1 howes f hf) e he
  simp only [hcore, beq_self_eq_true, Bool.true_and, decide_eq_false_iff_not, not_lt] at hnone
  exact hnone

/-! ## The registers that an atomic returns to -/

/-- What an old value leaves in one of the registers that it returns to. -/
def returned (op : AtomOp) (size b old r : Nat) : Option Word :=
  if r = b then some (BitVec.ofNat 64 (if size = 4 then old else atomReturn op (8 * 2 ^ size) old))
  else if size = 4 ∧ r = b + 1 then some (BitVec.ofNat 64 (old / 2 ^ 64)) else none

theorem getV_atomWrites (w : Wave) (op : AtomOp) (size b old : Nat) {t : Nat} (ht : t < 32) (r : Nat) {u : Nat} (hu : u < 32) :
    (w.writes (atomWrites op size b t old)).getV r u = if u = t then (returned op size b old r).getD (w.getV r u) else w.getV r u := by
  unfold atomWrites returned
  by_cases hsize : size = 4
  · rw [if_pos hsize, if_pos hsize]
    show ((w.setV b t _).setV (b + 1) t _).getV r u = _
    rw [getV_setV _ _ _ _ _ _ ht hu, getV_setV _ _ _ _ _ _ ht hu]
    by_cases hut : u = t
    · by_cases hb : r = b
      · rw [if_neg (by omega), if_pos ⟨hb, hut⟩, if_pos hut, if_pos hb]
        rfl
      · by_cases hb1 : r = b + 1
        · rw [if_pos ⟨hb1, hut⟩, if_pos hut, if_neg hb, if_pos ⟨hsize, hb1⟩]
          rfl
        · rw [if_neg fun h => hb1 h.1, if_neg fun h => hb h.1, if_pos hut, if_neg hb, if_neg fun h => hb1 h.2]
          rfl
    · rw [if_neg fun h => hut h.2, if_neg fun h => hut h.2, if_neg hut]
  · rw [if_neg hsize, if_neg hsize]
    show (w.setV b t _).getV r u = _
    rw [getV_setV _ _ _ _ _ _ ht hu]
    by_cases hut : u = t
    · by_cases hb : r = b
      · rw [if_pos ⟨hb, hut⟩, if_pos hut, if_pos hb]
        rfl
      · rw [if_neg fun h => hb h.1, if_pos hut, if_neg hb, if_neg fun h => hsize h.1]
        rfl
    · rw [if_neg fun h => hut h.2, if_neg hut]

/-! ## Completion -/

theorem restOf_redHome (s : State) (op : AtomOp) (n loc x y : Nat) : restOf (redHome s op n loc x y) = restOf s := by
  unfold redHome
  split
  · exact (restOf_commitWord _ _ _ _).trans (restOf_bump s)
  · split
    · exact foldl_keeps (π := restOf) (f := fun s (p : Nat × List (Nat × BitVec 8)) => commitWord s p.1 p.2 .ok)
        (fun _ _ => restOf_commitWord _ _ _ _) _ _
    · rfl

theorem restOf_atomHome (s : State) (core : Nat) (own : Bool) (op : AtomOp) (n loc x y : Nat) :
    restOf (atomHome s core own op n loc x y).1 = restOf s := by
  have hready : restOf (performPends (flushStamps s (some (partOfCore s core)) (16 * (loc / 16)) 16) core fun e => e.word == loc / 16) =
      restOf s := (restOf_performPends _ _ _).trans (restOf_flushStamps _ _ _ _)
  unfold atomHome
  dsimp only
  generalize performPends (flushStamps s (some (partOfCore s core)) (16 * (loc / 16)) 16) core (fun e => e.word == loc / 16) = t at hready ⊢
  have hown : restOf (if own && !(isSwm t loc) && !(ownsExclusive t core (loc / 16)) then ownWord t core (loc / 16) else t) = restOf s := by
    split
    · exact (restOf_answerFor _ _ _).trans hready
    · exact hready
  generalize (if own && !(isSwm t loc) && !(ownsExclusive t core (loc / 16)) then ownWord t core (loc / 16) else t) = u at hown ⊢
  split
  · exact (restOf_setHeld _ _ _ _).trans ((restOf_redHome _ _ _ _ _ _).trans hown)
  · exact (restOf_redHome _ _ _ _ _ _).trans ((restOf_dropWord _ _ _).trans ((restOf_drainWord _ _ _).trans hown))

section
variable {s : State} {tm : Team} {team : Nat} (hteam : s.team? team = some tm) (hholds : tm.holds = false) (own : Bool) (op : AtomOp)
include hteam hholds

theorem redAccess_eq (via : List (Nat × Nat)) (n loc x y : Nat) :
    redAccess s team via own op n loc x y = (atomHome s tm.core own op n loc x y).1 := by
  rw [redAccess, hteam]
  dsimp only
  rw [hholds, if_neg Bool.false_ne_true]

theorem reds_eq (via : List (Nat × Nat)) (n : Nat) (acc : List (Access × Nat × Nat)) :
    acc.foldl (fun s p => redAccess s team via own op n (locOf p.1) p.2.1 p.2.2) s =
      (atomsRun tm.core own op n s (acc.map fun p => (locOf p.1, p.2.1, p.2.2))).1 := by
  induction acc generalizing s with
  | nil => rfl
  | cons p acc ih =>
    rw [List.foldl_cons, redAccess_eq hteam hholds]
    exact ih ((team?_of_teams (teams_of_sceneOf (sceneOf_of_restOf (restOf_atomHome _ _ _ _ _ _ _ _))) _).trans hteam)

theorem atomThreads_eq {w : Wave} (hw : w.team = team) (size : Nat) (acc : List (Access × Nat × Nat)) :
    atomThreads w own op size s acc = ((atomsRun tm.core own op (2 ^ size) s (acc.map fun p => (locOf p.1, p.2.1, p.2.2))).1,
      (acc.map (·.1.thread)).zip (atomsRun tm.core own op (2 ^ size) s (acc.map fun p => (locOf p.1, p.2.1, p.2.2))).2, []) := by
  induction acc generalizing s with
  | nil => rfl
  | cons p acc ih =>
    obtain ⟨a, x, y⟩ := p
    have hone : atomAccess s w own op (2 ^ size) (locOf a) x y = ((atomHome s tm.core own op (2 ^ size) (locOf a) x y).1,
        (atomHome s tm.core own op (2 ^ size) (locOf a) x y).2, []) := by
      rw [atomAccess, hw, hteam]
      dsimp only
      rw [hholds, Bool.false_and, if_neg Bool.false_ne_true]
    have hrest := ih ((team?_of_teams (teams_of_sceneOf (sceneOf_of_restOf
      (restOf_atomHome s tm.core own op (2 ^ size) (locOf a) x y))) _).trans hteam)
    rw [atomThreads, hone, hrest]
    rfl

end

/-- What an acquire leaves: words given up that it need not see, and its wave's last acquire at the next number. -/
theorem acquired_eq {s : State} (hs : SoundMemory s) (wave core order scope : Nat) (need : Option Nat) :
    (order % 2 ≠ 1 ∧ acquired s wave core order scope need = s) ∨
      order % 2 = 1 ∧ ∃ f, Quiet core s f ∧ (scope < 2 ∨ NoStale s core → f = s) ∧
        acquired s wave core order scope need = f.updPair wave (Wave.fenceAt s.nextId) := by
  by_cases horder : order % 2 = 1
  · refine .inr ⟨horder, ?_⟩
    have hdrop : ∀ p : CWord → Bool, (∀ x, p x = true → x.isStale = true) →
        Quiet core s ((cacheWords s core p).foldl (fun s w => dropHeld s core w) s) ∧
          (NoStale s core → (cacheWords s core p).foldl (fun s w => dropHeld s core w) s = s) := fun p hp => by
      have hfold : ∀ (l : List Nat) (t : State), SoundMemory t → Quiet core t (l.foldl (fun s w => dropHeld s core w) t) := fun l => by
        induction l with
        | nil => exact fun t ht => .refl ht core
        | cons w l ih => exact fun t ht => (quiet_dropHeld ht core w).trans (ih _ (quiet_dropHeld ht core w).sound)
      refine ⟨hfold _ _ hs, fun hno => ?_⟩
      have hnil : cacheWords s core p = [] := List.eq_nil_iff_forall_not_mem.2 fun w hw => by
        obtain ⟨x, hin, hx⟩ := wordIn_of_mem_cacheWords hs.2.1 hw
        have := hp x hx
        rw [hno w x hin] at this
        cases this
      rw [hnil, List.foldl_nil]
    obtain ⟨hfresh, hfresh'⟩ := hdrop CWord.isStale fun _ h => h
    rw [acquired.eq_def, if_neg (not_not.2 horder)]
    cases need with
    | none =>
      by_cases hscope : 2 ≤ scope
      · have hnext : (freshen s core).nextId = s.nextId := nextId_of_sparseOf (sparseOf_of_restOf hfresh.rest)
        exact ⟨freshen s core, hfresh, fun h => hfresh' (h.resolve_left (by omega)), by dsimp only; rw [fenced, if_pos hscope, hnext]⟩
      · exact ⟨s, .refl hs core, fun _ => rfl, by dsimp only; rw [fenced, if_neg hscope]⟩
    | some n =>
      obtain ⟨hby, hby'⟩ := hdrop (CWord.staleBy n) fun x h => by
        cases x with
        | stale => rfl
        | shared | exclusive | modified | own => cases h
      by_cases hscope : 2 ≤ scope
      · exact ⟨freshenBy s core n, hby, fun h => hby' (h.resolve_left (by omega)), by dsimp only; rw [if_pos hscope]⟩
      · exact ⟨s, .refl hs core, fun _ => rfl, by dsimp only; rw [if_neg hscope]⟩
  · exact .inl ⟨horder, if_pos horder⟩

/-- The waves, and what lies at home, once an atomic's acquire has come. -/
theorem acquired_done {s r : State} {w : Wave} {wave core order scope : Nat} {need : Option Nat} {own : Bool} {D : Nat → Prop} {ls : List Nat}
    (hready : Ready own core D ls r) (hwave : s.wave? wave = some w) (hrole : w.role = .solo) (hwaves : r.waves = s.waves)
    (hnext : r.nextId = s.nextId) (hstale : own = false → order % 2 = 1 → 2 ≤ scope → NoStale r core) :
    ∃ a, acquired r wave core order scope need = a ∧
      a.wave? wave = some (w.fenceAt (if order % 2 = 1 then s.nextId else w.fenced)) ∧ (∀ j, j ≠ wave → a.wave? j = s.wave? j) ∧ a.ops = r.ops ∧
      a.pend = r.pend ∧ ∀ l, own = false ∨ ¬ D (l / 16) → readHome a l = readHome r l := by
  have hfound : r.wave? wave = some w := (wave?_of_waves hwaves wave).trans hwave
  rcases acquired_eq hready.sound wave core order scope need with ⟨horder, heq⟩ | ⟨horder, f, hq, hsame, heq⟩
  · refine ⟨r, heq, ?_, fun j _ => wave?_of_waves hwaves j, rfl, rfl, fun _ _ => rfl⟩
    rw [if_neg horder]
    exact hfound
  · have hfwaves : f.waves = r.waves := waves_of_restOf hq.rest
    have hfound' : f.wave? wave = some w := (wave?_of_waves hfwaves wave).trans hfound
    have hops : f.ops = r.ops := ops_of_sceneOf (sceneOf_of_restOf hq.rest)
    have halone : f.updPair wave (Wave.fenceAt r.nextId) = f.updWave wave (Wave.fenceAt s.nextId) := by
      rw [State.updPair, hfound', hnext]
      simp only [hrole]
    refine ⟨_, heq.trans halone, ?_, fun j hj => ?_, hops, hq.pend, fun l hl => ?_⟩
    · rw [if_pos horder]
      exact wave?_updWave_same (f := Wave.fenceAt s.nextId) (fun _ => rfl) hfound'
    · rw [wave?_updWave_other (f := Wave.fenceAt s.nextId) (fun _ => rfl) hj]
      exact wave?_of_waves (hfwaves.trans hwaves) j
    · show readHome f l = _
      cases own with
      | true => exact congrArg Prod.fst (hq.home l fun hd => hl.resolve_left Bool.noConfusion (hready.dirty rfl _ hd))
      | false =>
        rw [hsame]
        by_cases hscope : 2 ≤ scope
        · exact .inr (hstale rfl horder hscope)
        · exact .inl (by omega)

theorem atomsInOrder_length (op : AtomOp) (n : Nat) (m : Nat → BitVec 8) (l : List (Nat × Nat × Nat)) :
    (atomsInOrder op n m l).2.length = l.length := by
  induction l generalizing m with
  | nil => rfl
  | cons p l ih =>
    rw [atomsInOrder]
    exact congrArg (· + 1) (ih _)

theorem run_in_word {loc size : Nat} (hsize : size ≤ 4) (halign : loc % 2 ^ size = 0) : loc % 16 + 2 ^ size ≤ 16 := by
  interval_cases size <;> omega

/-- The state in which an atomic's threads perform: what comes first is performed, and the operation is no longer in flight. -/
def atomFirst (s : State) (o : Op) (core order scope : Nat) (acc : List Access) : State :=
  performPends (if 2 ≤ order then drainFor s core scope else s) core (comesFirst s o acc)

section
variable {s : State} {o : Op} {w : Wave} {tm : Team} {op : AtomOp} {size order scope b : Nat} {ret own : Bool}
  {acc : List (Access × Nat × Nat)}

theorem drained_facts (hs : SoundMemory s) (core order scope : Nat) : SoundMemory (if 2 ≤ order then drainFor s core scope else s) ∧
    restOf (if 2 ≤ order then drainFor s core scope else s) = restOf s := by
  split
  · refine ⟨?_, restOf_drainFor _ _ _⟩
    rw [drainFor]
    split
    · exact performPends_sound _ _ hs
    · exact hs
  · exact ⟨hs, rfl⟩

theorem atomFirst_facts (hs : SoundMemory s) (o : Op) (core order scope : Nat) (acc : List Access) :
    SoundMemory (atomFirst s o core order scope acc) ∧ restOf (atomFirst s o core order scope acc) = restOf s ∧
      (∀ now, 2 ≤ order → 2 ≤ scope → owes s core scope now = false → ∀ e ∈ (atomFirst s o core order scope acc).pend, e.core = core → now ≤ e.since) ∧
      performPends (if 2 ≤ order then drainFor s core scope else s) core (comesFirst (if 2 ≤ order then drainFor s core scope else s) o acc) =
        atomFirst s o core order scope acc := by
  obtain ⟨hsd, hrest⟩ := drained_facts hs core order scope
  refine ⟨performPends_sound _ _ hsd, (restOf_performPends _ _ _).trans hrest, fun now horder hscope howes e he hcore => ?_, ?_⟩
  · have hin := (pend_performAll_sublist _ _).subset he
    rw [if_pos horder] at hin
    exact pend_drainFor hs.2.2 hscope howes e hin hcore
  · have hfirst : comesFirst (if 2 ≤ order then drainFor s core scope else s) o acc = comesFirst s o acc := by
      funext e
      rw [comesFirst, fencedOf, wave?_of_waves (waves_of_restOf hrest), ← fencedOf, ← comesFirst]
    rw [hfirst, atomFirst]

theorem atomicComplete_exec (hop : s.op? o.id = some o) (hkind : o.kind = .atom op size ret order scope b own acc)
    (hwave : s.wave? o.wave = some w) (hteam : s.team? o.team = some tm) (hcan : canPerform s o = true)
    (howes : 2 ≤ order → owes s tm.core scope (o.horizon s) = false)
    (hview : ret = true → ∀ p ∈ acc, viewMark s tm (locOf p.1) = .ok) (hs : SoundMemory s) :
    ∃ need, exec (.atomicComplete o.id) s =
      let s2 := (atomFirst s o tm.core order scope (acc.map (·.1))).dropOp o.id
      if ret then
        let r := atomThreads w own op size s2 acc
        let ws := r.2.1.flatMap fun p => atomWrites op size b p.1 p.2
        .next ((acquired r.1 o.wave tm.core order scope need).updWave o.wave fun w => ((w.writes ws).flagDown o.flag).lvqFill o.id ws)
      else
        let s := acc.foldl (fun s p => redAccess s o.team o.via own op (2 ^ size) (locOf p.1) p.2.1 p.2.2) s2
        .next ((acquired s o.wave tm.core order scope need).updPair o.wave fun w => w.flagDown o.flag) := by
  have hmay : (canPerform s o && !(decide (2 ≤ order) && owes s tm.core scope (o.horizon s))) = true := by
    rw [hcan, Bool.true_and]
    by_cases horder : 2 ≤ order
    · rw [howes horder, Bool.and_false]
      rfl
    · rw [decide_eq_false horder]
      rfl
  have hmarked : (if ret then markedAtom s tm acc else none) = none := by
    cases ret with
    | false => rfl
    | true =>
      rw [if_pos rfl, markedAtom, List.find?_eq_none.2 fun p hp => by rw [hview rfl p hp]; decide]
      rfl
  obtain ⟨-, -, -, hfirst⟩ := atomFirst_facts hs o tm.core order scope (acc.map (·.1))
  rw [exec_atomicComplete, execAtomicComplete, hop]
  dsimp only
  rw [hkind, hwave, hteam]
  dsimp only
  rw [if_pos hmay, hmarked]
  dsimp only
  rw [hfirst]
  exact ⟨_, rfl⟩

end

/-! ## The whole -/

section
variable {s : State} {o : Op} {w : Wave} {tm : Team} {op : AtomOp} {size order scope b : Nat} {ret own : Bool}
  {acc : List (Access × Nat × Nat)}

/-- The state in which the threads' atomics are performed is ready for them. -/
theorem ready_atomFirst {s1 : State} (hs1 : SoundMemory s1) (hrest : restOf s1 = restOf s) (i : Nat)
    (hstamps : ∀ g ∈ s.grids, g.part = partOfCore s tm.core ∨ g.stamps = [])
    (hacc : ∀ p ∈ acc, markAt s1 (locOf p.1) = .ok ∧ (∀ e ∈ s1.pend, e.core = tm.core → e.word ≠ locOf p.1 / 16) ∧
      (held? s1 tm.core (locOf p.1 / 16) = none ∨
        (ownsExclusive s1 tm.core (locOf p.1 / 16) = true ∧ isSwm s1 (locOf p.1) = false))) :
    Ready own tm.core (Dirty s1 tm.core) (acc.map fun p => locOf p.1) (s1.dropOp i) := by
  have hall : ∀ loc ∈ acc.map fun p => locOf p.1, markAt s1 loc = .ok ∧ (∀ e ∈ s1.pend, e.core = tm.core → e.word ≠ loc / 16) ∧
      Plain s1 tm.core loc := fun loc hloc => by
    obtain ⟨p, hp, rfl⟩ := List.mem_map.1 hloc
    exact hacc p hp
  refine ⟨dropOp_kept hs1 i, fun g hg => ?_, fun loc hloc => (hall loc hloc).2.1, fun loc hloc => (hall loc hloc).1,
    fun loc hloc _ => (hall loc hloc).2.2.undirty hs1, fun _ _ h => h, fun _ loc hloc => (hall loc hloc).2.2⟩
  have hpart : partOfCore (s1.dropOp i) tm.core = partOfCore s tm.core := (partOfCore_of_restOf hrest tm.core : partOfCore s1 tm.core = _)
  rw [hpart]
  exact hstamps g (grids_of_sparseOf (sparseOf_of_restOf hrest) ▸ hg)

/-- What the threads' atomics, and then the acquire, leave: the old values, the waves, and memory as the order of the threads makes it. -/
theorem atoms_leave {s1 : State} {need : Option Nat} (hs1 : SoundMemory s1) (hrest : restOf s1 = restOf s)
    (hstamps : ∀ g ∈ s.grids, g.part = partOfCore s tm.core ∨ g.stamps = [])
    (hacc : ∀ p ∈ acc, markAt s1 (locOf p.1) = .ok ∧ (∀ e ∈ s1.pend, e.core = tm.core → e.word ≠ locOf p.1 / 16) ∧
      (held? s1 tm.core (locOf p.1 / 16) = none ∨
        (ownsExclusive s1 tm.core (locOf p.1 / 16) = true ∧ isSwm s1 (locOf p.1) = false)))
    (hlocs : ∀ p ∈ acc, locOf p.1 % 16 + 2 ^ size ≤ 16) (hwave : s.wave? o.wave = some w) (hrole : w.role = .solo)
    (hstale : order % 2 = 1 → 2 ≤ scope → cacheWords s1 tm.core CWord.isStale = []) :
    let run := atomsRun tm.core own op (2 ^ size) (s1.dropOp o.id) (acc.map fun p => (locOf p.1, p.2.1, p.2.2))
    let after := atomsInOrder op (2 ^ size) (readHome s1) (acc.map fun p => (locOf p.1, p.2.1, p.2.2))
    run.2 = after.2 ∧ ∃ a, acquired run.1 o.wave tm.core order scope need = a ∧
      a.wave? o.wave = some (w.fenceAt (if order % 2 = 1 then s.nextId else w.fenced)) ∧ (∀ j, j ≠ o.wave → a.wave? j = s.wave? j) ∧
      (a.ops = s.ops.filter fun x => x.id != o.id) ∧ a.pend = s1.pend ∧
      ∀ l, (own = false ∨ ∀ bs m, ownCopy s1 tm.core (l / 16) ≠ some (bs, true, m)) → readHome a l = after.1 l := by
  intro run after
  have hready := ready_atomFirst (own := own) hs1 hrest o.id hstamps hacc
  obtain ⟨hold, hdone⟩ := atomsRun_done (op := op) (n := 2 ^ size) (m := readHome s1) (l := acc.map fun p => (locOf p.1, p.2.1, p.2.2)) hready
    (fun p hp => by
      obtain ⟨q, hq, rfl⟩ := List.mem_map.1 hp
      exact ⟨List.mem_map_of_mem hq, hlocs q hq⟩) (Nat.two_pow_pos size) fun _ _ => rfl
  have hrest2 : restOf run.1 = restOf (s1.dropOp o.id) := hdone.rest
  have hwaves : run.1.waves = s.waves := (waves_of_restOf hrest2).trans (waves_of_restOf hrest : s1.waves = s.waves)
  have hnext : run.1.nextId = s.nextId := (nextId_of_sparseOf (sparseOf_of_restOf hrest2)).trans
    (nextId_of_sparseOf (sparseOf_of_restOf hrest) : s1.nextId = s.nextId)
  have hops : run.1.ops = s.ops.filter fun x => x.id != o.id := by
    rw [ops_of_sceneOf (sceneOf_of_restOf hrest2), ← ops_of_sceneOf (sceneOf_of_restOf hrest)]
    rfl
  have hfresh : own = false → order % 2 = 1 → 2 ≤ scope → NoStale run.1 tm.core := fun hown horder hscope => by
    refine hdone.stale hown fun word x hin => ?_
    by_contra hx
    have hword : word ∈ cacheWords s1 tm.core CWord.isStale := mem_cacheWords hin (by simpa using hx)
    rw [hstale horder hscope] at hword
    exact absurd hword List.not_mem_nil
  obtain ⟨a, hacquired, hfound, hother, haops, hapend, hahome⟩ := acquired_done (need := need) hdone.ready hwave hrole hwaves hnext hfresh
  refine ⟨hold, a, hacquired, hfound, hother, haops.trans hops, hapend.trans hdone.pend, fun l hl => ?_⟩
  have hfree : own = false ∨ ¬ Dirty s1 tm.core (l / 16) := hl.imp id fun h hd => by
    obtain ⟨bs, m, hown⟩ := (dirty_iff_ownCopy hs1.2.1).1 hd
    exact h bs m hown
  exact (hahome l hfree).trans (hdone.home l hfree)

theorem returned_eq_none {r old : Nat} (h : r ≠ b ∧ (size ≠ 4 ∨ r ≠ b + 1)) : returned op size b old r = none := by
  rw [returned, if_neg h.1, if_neg]
  exact fun hr => h.2.elim (fun hne => hne hr.1) fun hne => hne hr.2

/-- The registers of a wave whose threads' old values have come back. -/
theorem returned_registers (w : Wave) (n flag id : Nat) {ths olds : List Nat} (hlen : olds.length = ths.length) (hlow : ∀ t ∈ ths, t < 32)
    (hnodup : ths.Nodup) :
    (∀ (k t old : Nat), ths[k]? = some t → olds[k]? = some old → ∀ r,
      (completed w n flag id ((ths.zip olds).flatMap fun p => atomWrites op size b p.1 p.2)).getV r t =
        (returned op size b old r).getD (w.getV r t)) ∧
    ∀ r u, u < 32 → u ∉ ths ∨ (r ≠ b ∧ (size ≠ 4 ∨ r ≠ b + 1)) →
      (completed w n flag id ((ths.zip olds).flatMap fun p => atomWrites op size b p.1 p.2)).getV r u = w.getV r u := by
  have hfst : (ths.zip olds).map (·.1) = ths := List.map_fst_zip hlen.ge
  have hv : ∀ ws r u, (completed w n flag id ws).getV r u = ((w.fenceAt n).writes ws).getV r u := fun ws r u => by
    rw [Wave.getV, completed_v, Wave.getV]
  have hreturns := fun r u => getV_threadWrites (fun w t x r u ht hu => getV_atomWrites w op size b x ht r hu) (w.fenceAt n) (l := ths.zip olds)
    (fun p hp => hlow p.1 (List.of_mem_zip (a := p.1) (b := p.2) hp).1) (hfst.symm ▸ hnodup) r (u := u)
  refine ⟨fun k t old ht hold r => ?_, fun r u hu hkeep => ?_⟩
  · have hin : (t, old) ∈ ths.zip olds := List.mem_iff_getElem?.2 ⟨k, List.getElem?_zip_eq_some.2 ⟨ht, hold⟩⟩
    rw [hv]
    exact (hreturns r t (hlow t (List.mem_iff_getElem?.2 ⟨k, ht⟩))).1 old hin
  · rw [hv]
    obtain ⟨hin, hout⟩ := hreturns r u hu
    by_cases hu' : u ∈ ths
    · obtain ⟨⟨t, old⟩, hp, rfl⟩ := List.mem_map.1 (hfst.symm ▸ hu' : u ∈ (ths.zip olds).map (·.1))
      rw [hin old hp, returned_eq_none (hkeep.resolve_left fun h => h hu')]
      rfl
    · exact hout (hfst.symm ▸ hu')

end

/-- Settles O25: the threads' atomics run one after another (`atomsRun_done`), each at a home that no store and no dirty word of the core
hides; what comes first is performed before them (`pend_drainFor`), and the old values come back (`returned_registers`). -/
theorem atomicCompletes : Obligations.AtomicCompletes := by
  unfold Obligations.AtomicCompletes
  intro s o w tm op size order scope b ret own acc hs hop hkind hsize _ hnodup hplaces hwave hrole hwteam hteam hholds hcan howes hview hgrids
    s1 hacc hstale after
  obtain ⟨need, hexec⟩ := atomicComplete_exec hop hkind hwave hteam hcan howes hview hs
  obtain ⟨hs1, hrest, hpends, -⟩ := atomFirst_facts hs o tm.core order scope (acc.map (·.1))
  replace hpends := fun horder hscope => hpends (o.horizon s) horder hscope (howes horder)
  have hfirst : atomFirst s o tm.core order scope (acc.map (·.1)) = s1 := rfl
  have hafter : atomsInOrder op (2 ^ size) (readHome s1) (acc.map fun p => (locOf p.1, p.2.1, p.2.2)) = after := rfl
  rw [hfirst] at hexec hs1 hrest hpends
  clear_value after
  clear hfirst
  clear_value s1
  dsimp only at hexec
  have hlocs : ∀ p ∈ acc, locOf p.1 % 16 + 2 ^ size ≤ 16 := fun p hp => run_in_word hsize (hplaces p hp).2.1
  have hteam1 : (s1.dropOp o.id).team? o.team = some tm := (team?_of_teams (teams_of_sceneOf (sceneOf_of_restOf hrest)) _).trans hteam
  have hlen : after.2.length = (acc.map (·.1.thread)).length := by
    rw [← hafter, atomsInOrder_length, List.length_map, List.length_map]
  obtain ⟨hold, a, hacquired, hfound, hother, hops, hapend, hhome⟩ :=
    atoms_leave (own := own) (op := op) (need := need) hs1 hrest hgrids hacc hlocs hwave hrole hstale
  rw [hafter] at hold hhome
  rw [atomThreads_eq hteam1 hholds own op hwteam, reds_eq hteam1 hholds own op, hold] at hexec
  dsimp only at hexec
  have hpend : 2 ≤ order → 2 ≤ scope → ∀ e ∈ a.pend, e.core = tm.core → o.horizon s ≤ e.since := fun horder hscope e he =>
    hpends horder hscope e (hapend ▸ he)
  rw [hacquired] at hexec
  cases ret with
  | false =>
    rw [if_neg Bool.false_ne_true] at hexec
    refine opDoneAt_of_lowered hwave hrole hfound hother hops hexec ⟨fun l hl => ?_, fun horder hscope e he => ?_,
      fun h => absurd h Bool.false_ne_true, fun r u _ _ => ?_⟩
    · rw [readHome, updPair_mem]
      exact hhome l hl
    · rw [pend_updPair] at he
      exact hpend horder hscope e he
    · rw [Wave.getV, Wave.flagDown_v]
      rfl
  | true =>
    rw [if_pos rfl] at hexec
    obtain ⟨hin, hkeep⟩ := returned_registers (op := op) (size := size) (b := b) w (if order % 2 = 1 then s.nextId else w.fenced) o.flag o.id hlen
      (fun t ht => by
        obtain ⟨p, hp, rfl⟩ := List.mem_map.1 ht
        exact (hplaces p hp).1) hnodup
    refine opDoneAt_of_completed hwave hfound hother hops hexec ⟨hhome, hpend, fun _ k p old hp hold => ?_,
      fun r u hu h => hkeep r u hu (h.resolve_left Bool.noConfusion)⟩
    have hone := hin k p.1.thread old (by rw [List.getElem?_map, hp]; rfl) hold
    refine ⟨?_, fun h4 => ?_⟩
    · rw [hone b, returned, if_pos rfl]
      rfl
    · rw [hone (b + 1), returned, if_neg (Nat.succ_ne_self b), if_pos ⟨h4, rfl⟩]
      rfl

end Sys2Proof.AtomicsPerformed

/-! # Loads read piece by piece (11 R291, R292; 09 R245, R249) -/

namespace Sys2Proof.LoadsCompleted

open Sys2Proof.Machine Sys2Proof.Machine.Laws Sys2Proof.FramesKept Sys2Proof.RestKept Sys2Proof.NothingHeld Sys2Proof.CacheWords
open Sys2Proof.MatrixEffect Sys2Proof.Barriers Sys2Proof.RangeOperations Sys2Proof.StoresPerformed Sys2Proof.WavesWritten

/-! ## What a view of memory reads -/

/-- A state that shows every core what another does: only operations, requests and the hints of blocks are other. -/
structure Shows (s t : State) : Prop where
  same : t = { s with ops := t.ops, blocks := t.blocks, fills := t.fills }
  held : ∀ cache word, held? t cache word = held? s cache word

theorem Shows.refl (s : State) : Shows s s := ⟨rfl, fun _ _ => rfl⟩

theorem Shows.trans {s t u : State} (h : Shows s t) (h' : Shows t u) : Shows s u := by
  refine ⟨?_, fun c w => (h'.held c w).trans (h.held c w)⟩
  rw [h'.same, h.same]

theorem Shows.of_ops {s : State} {ops : List Op} {fills : List Fill} : Shows s { s with ops := ops, fills := fills } := ⟨rfl, fun _ _ => rfl⟩

section
variable {s t : State} (h : Shows s t)
include h

theorem Shows.pend : t.pend = s.pend := by rw [h.same]
theorem Shows.waves : t.waves = s.waves := by rw [h.same]
theorem Shows.teams : t.teams = s.teams := by rw [h.same]
theorem Shows.heldIssues : t.held = s.held := by rw [h.same]
theorem Shows.grids : t.grids = s.grids := by rw [h.same]
theorem Shows.tenures : t.tenures = s.tenures := by rw [h.same]

theorem Shows.pendBytes (core word : Nat) : pendBytes t core word = pendBytes s core word := by
  unfold Machine.pendBytes
  rw [h.pend]

theorem Shows.coreByte (core loc : Nat) : coreByte t core loc = coreByte s core loc := by
  unfold Machine.coreByte ownCopy
  rw [h.pendBytes, h.held, h.same]
  rfl

theorem Shows.viewByte (w : Wave) (tm : Team) (loc : Nat) : viewByte t w tm loc = viewByte s w tm loc := by
  unfold Machine.viewByte
  simp only [h.coreByte, h.heldIssues]

theorem Shows.placeByte (w : Wave) (tm : Team) (p : Place) : placeByte t w tm p = placeByte s w tm p := by
  cases p with
  | mem loc => exact h.viewByte w tm loc
  | sp team off =>
    unfold Machine.placeByte
    dsimp only
    rw [team?_of_teams h.teams]

theorem Shows.markAt (loc : Nat) : markAt t loc = markAt s loc := by
  rw [h.same]
  rfl

theorem Shows.placeMark (tm : Team) (p : Place) : placeMark t tm p = placeMark s tm p := by
  cases p with
  | mem loc =>
    have hmarks : t.marks = s.marks := by rw [h.same]
    show viewMark t tm loc = viewMark s tm loc
    unfold viewMark ownsWord coreMark
    rw [h.pendBytes, h.held, h.markAt, hmarks]
  | sp team off =>
    unfold Machine.placeMark
    dsimp only
    rw [team?_of_teams h.teams]

theorem Shows.walkEntry (cx : Context) (core pa : Nat) : walkEntry t cx core pa = walkEntry s cx core pa := by
  have hentry : ∀ loc, entryAt t core loc = entryAt s core loc := fun loc => by
    unfold entryAt
    simp only [h.coreByte]
  have hhere : t.here pa = s.here pa := by rw [h.same]; rfl
  have htag : ∀ loc, tagAt t loc = tagAt s loc := fun loc => by rw [h.same]; rfl
  have hsecure : secureCtx t cx = secureCtx s cx := by rw [h.same]; rfl
  unfold Machine.walkEntry
  rw [hhere]
  dsimp only
  rw [htag, hsecure, h.markAt, hentry]

theorem Shows.walk (cx : Context) (core va : Nat) : walk t cx core va = walk s cx core va := by
  unfold Machine.walk
  simp only [h.walkEntry]

theorem Shows.translate (cx : Context) (core : Nat) (sys : Bool) (n : Need) (va : Nat) :
    translate t cx core sys n va = translate s cx core sys n va := by
  have huse : ∀ x, useLeaf t cx sys n x va = useLeaf s cx sys n x va := fun x => by rw [h.same]; rfl
  have hhit : tlbHit t core cx.id va = tlbHit s core cx.id va := by rw [h.same]; rfl
  unfold Machine.translate
  simp only [h.walk, huse, hhit]

theorem Shows.stampAt (g : Grid) (loc n : Nat) : stampAt t g loc n = stampAt s g loc n := by
  have hctx : t.ctx? g.ctx = s.ctx? g.ctx := by rw [h.same]; rfl
  unfold Machine.stampAt
  simp only [hctx, h.translate]

theorem Shows.flushStamps_none {part : Option Nat} {loc n : Nat} (hclear : ∀ g ∈ s.grids, some g.part ≠ part → Machine.stampAt s g loc n = false) :
    flushStamps t part loc n = t := by
  have hnone : (t.grids.filter fun g => some g.part != part && Machine.stampAt t g loc n) = [] :=
    List.filter_eq_nil_iff.2 fun g hg hp => by
      rw [Bool.and_eq_true, bne_iff_ne, h.stampAt] at hp
      rw [hclear g (h.grids ▸ hg) hp.1] at hp
      exact absurd hp.2 Bool.false_ne_true
  rw [flushStamps, hnone, List.foldl_nil]

end

theorem shows_hitHint (s : State) (cache word hint : Nat) : Shows s (hitHint s cache word hint) := by
  unfold hitHint
  split
  · exact ⟨rfl, fun c w => held?_map (g := fun b => if b.cache = cache ∧ b.has word ∧ b.hint = 0 ∧
      retained (setBlocks s cache b.frame) < retainTags cache then { b with hint := 2 } else b) rfl (fun b => by split <;> rfl)
        fun b => by split <;> rfl⟩
  · exact .refl s

/-! ## Pieces of an access -/

/-- The piece that a place of a thread's access lies in. -/
def pieceOf (th : Nat) : Place → Nat × Option Nat × Nat
  | .mem l => (th, none, l / 16)
  | .sp t o => (th, some t, o / 16)

theorem mem_wordsOf {a : Access} {q : Nat × Option Nat × Nat} : q ∈ wordsOf a ↔ ∃ pl ∈ a.places, pieceOf a.thread pl = q := by
  unfold wordsOf
  rw [List.mem_dedup, List.mem_map]
  refine exists_congr fun pl => and_congr_right fun _ => ?_
  cases pl <;> rfl

theorem inPiece_iff {p : Nat × Option Nat × Nat} {pl : Place} : inPiece p pl = true ↔ pieceOf p.1 pl = p := by
  obtain ⟨th, sp, w⟩ := p
  cases pl <;> simp only [inPiece, pieceOf, Bool.and_eq_true, beq_iff_eq, Prod.mk.injEq, true_and] <;>
    exact and_congr_left fun _ => eq_comm

/-- Accesses that touch no more than others do. -/
def Under (l' l : List Access) : Prop := ∀ a' ∈ l', ∃ a ∈ l, a'.thread = a.thread ∧ ∀ q ∈ a'.places, q ∈ a.places

theorem Under.wordsOf {l' l : List Access} (h : Under l' l) {q : Nat × Option Nat × Nat} (hq : q ∈ l'.flatMap wordsOf) : q ∈ l.flatMap wordsOf := by
  obtain ⟨a', ha', hq⟩ := List.mem_flatMap.1 hq
  obtain ⟨a, ha, hthread, hplaces⟩ := h a' ha'
  obtain ⟨pl, hpl, hq⟩ := mem_wordsOf.1 hq
  exact List.mem_flatMap.2 ⟨a, ha, mem_wordsOf.2 ⟨pl, hplaces pl hpl, hthread ▸ hq⟩⟩

theorem Under.locsOf {l' l : List Access} (h : Under l' l) {loc : Nat} (hloc : loc ∈ locsOf l') : loc ∈ locsOf l := by
  obtain ⟨a', ha', hloc⟩ := mem_locsOf.1 hloc
  obtain ⟨a, ha, -, hplaces⟩ := h a' ha'
  exact mem_locsOf.2 ⟨a, ha, hplaces _ hloc⟩

theorem Under.places {l' l : List Access} (h : Under l' l) {q : Place} (hq : q ∈ l'.flatMap (·.places)) : q ∈ l.flatMap (·.places) := by
  obtain ⟨a', ha', hq⟩ := List.mem_flatMap.1 hq
  obtain ⟨a, ha, -, hplaces⟩ := h a' ha'
  exact List.mem_flatMap.2 ⟨a, ha, hplaces q hq⟩

theorem Under.shareWord {l' l : List Access} (h : Under l' l) {m : List Access} (hshare : shareWord m l = false) : shareWord m l' = false := by
  unfold Machine.shareWord at hshare ⊢
  refine List.any_eq_false.2 fun x hx hin => List.any_eq_false.1 hshare x hx ?_
  rw [List.contains_iff_mem] at hin ⊢
  exact h.wordsOf hin

/-! ## A load's accesses reached -/

/-- The operations in flight are those of another state, but that those of one number have gone on. -/
def GoneOn (s t : State) (id : Nat) : Prop :=
  ∃ h : Op → Op, (∀ x, (h x).id = x.id ∧ (h x).wave = x.wave ∧ (h x).isCore = x.isCore) ∧ (∀ x, x.id ≠ id → h x = x) ∧ t.ops = s.ops.map h

theorem GoneOn.refl (s : State) (id : Nat) : GoneOn s s id := ⟨fun x => x, fun _ => ⟨rfl, rfl, rfl⟩, fun _ _ => rfl, (List.map_id' _).symm⟩

theorem GoneOn.trans {s t u : State} {id : Nat} (h : GoneOn s t id) (h' : GoneOn t u id) : GoneOn s u id := by
  obtain ⟨f, hf, hfother, hfops⟩ := h
  obtain ⟨g, hg, hgother, hgops⟩ := h'
  refine ⟨g ∘ f, fun x => ⟨(hg _).1.trans (hf x).1, (hg _).2.1.trans (hf x).2.1, (hg _).2.2.trans (hf x).2.2⟩, fun x hx => ?_, ?_⟩
  · rw [Function.comp_apply, hfother x hx, hgother x hx]
  · rw [hgops, hfops, List.map_map]

theorem GoneOn.filter {s t : State} {id : Nat} (h : GoneOn s t id) : (t.ops.filter fun x => x.id != id) = s.ops.filter fun x => x.id != id := by
  obtain ⟨f, hf, hother, hops⟩ := h
  have hcomp : ((fun x : Op => x.id != id) ∘ f) = fun x => x.id != id := funext fun x => by rw [Function.comp_apply, (hf x).1]
  rw [hops, List.filter_map, hcomp]
  exact (List.map_congr_left fun x hx => hother x (bne_iff_ne.1 (List.mem_filter.1 hx).2)).trans (List.map_id' _)

/-- An operation of another number is in flight in both. -/
theorem GoneOn.mem {s t : State} {id : Nat} (h : GoneOn s t id) {e : Op} (he : e ∈ t.ops) (hid : e.id ≠ id) : e ∈ s.ops := by
  have hin : e ∈ t.ops.filter fun x => x.id != id := List.mem_filter.2 ⟨he, bne_iff_ne.2 hid⟩
  rw [h.filter] at hin
  exact (List.mem_filter.1 hin).1

theorem GoneOn.engineClear {s t : State} {id : Nat} (h : GoneOn s t id) (e : Op) : engineClear t e = engineClear s e := by
  obtain ⟨f, hf, -, hops⟩ := h
  unfold Machine.engineClear
  rw [hops, List.any_map]
  congr 2
  funext x
  rw [Function.comp_apply, (hf x).1, (hf x).2.1, (hf x).2.2]

section
variable {s : State} {o : Op} {size d : Nat} {how : LoadHow} {acc l : List Access} {got : List (Nat × Nat × BitVec 8)}
  (hkind : o.kind = .load size d how acc got)
include hkind

/-- What stands in the way of a load's accesses. -/
theorem mayReach_load : mayReach s o l = true ↔
    (∀ e ∈ s.ops, e.wave = o.wave → e.id < o.id → e.isAcquire = false ∧ shareWord e.accesses l = false) ∧
    (∀ h ∈ s.held, h.wave = o.wave → h.op.id < o.id → h.op.isAcquire = false ∧ ¬ (h.hides = true ∧ shareWord h.op.accesses l = true)) ∧
    (∀ e ∈ s.ops, engineHolds s e o l = false) ∧ (s.tenures.isEmpty || !(tenureBlocks s o.team false (locsOf l))) = true := by
  have hrelease : o.isRelease = false := by rw [Op.isRelease, hkind]
  have hacts : o.actsHome = false := by rw [Op.actsHome, hkind]
  have hwrite : o.isWrite = false := by rw [Op.isWrite, hkind]
  have hcompared : o.isCompared = false := by rw [Op.isCompared, hkind]
  have henters : o.entersL1 = false := by rw [Op.entersL1, hkind]
  have hturn : outOfTurn s o = false := by rw [outOfTurn, hcompared, Bool.false_and]
  have hbuffer : bufferWaits s o = false := by
    unfold bufferWaits
    split
    · rfl
    · rw [hcompared, Bool.and_false, Bool.false_and, Bool.false_and]
  have hracq : racqFirst s o l = false := by rw [racqFirst, henters, Bool.false_and]
  unfold mayReach
  rw [hrelease, hacts, hwrite, hturn, hbuffer, hracq]
  simp only [Bool.false_and, Bool.not_false, Bool.and_true, Bool.and_eq_true, Bool.not_eq_true', List.any_eq_false, List.mem_filter,
    beq_iff_eq, decide_eq_true_eq, Bool.not_eq_true, and_imp]
  constructor
  · rintro ⟨⟨⟨⟨⟨h1, h2⟩, h3⟩, h4⟩, h5⟩, h6⟩
    exact ⟨fun e he hw hi => ⟨h1 e he hw hi, h3 e he hw hi⟩, fun h hh hw hi => ⟨h2 h hh hw hi, h4 h hh hw hi⟩, h5, h6⟩
  · rintro ⟨h1, h2, h5, h6⟩
    exact ⟨⟨⟨⟨⟨fun e he hw hi => (h1 e he hw hi).1, fun h hh hw hi => (h2 h hh hw hi).1⟩, fun e he hw hi => (h1 e he hw hi).2⟩,
      fun h hh hw hi => (h2 h hh hw hi).2⟩, h5⟩, h6⟩

/-- A load whose words are not read at their homes asks their slices for nothing. -/
theorem admitted_load (hnear : ∀ loc ∈ locsOf l, how.direct.contains (loc / 65536) = false ∧
    (how.hint ≠ 3 ∨ ∀ tm, s.team? o.team = some tm → (held? s tm.core (loc / 16)).isSome)) : admitted s o l = true := by
  have hnone : o.requests s l = [] := by
    unfold Op.requests coreOf
    cases hteam : s.team? o.team with
    | none => rfl
    | some tm =>
      rw [Option.map_some]
      dsimp only
      have hwords : o.homeWords s tm.core l = [] := by
        rw [Op.homeWords, hkind]
        refine List.filter_eq_nil_iff.2 fun w hw => ?_
        rw [memWords, List.mem_dedup, List.mem_map] at hw
        obtain ⟨loc, hloc, rfl⟩ := hw
        obtain ⟨hdirect, hhint⟩ := hnear loc hloc
        rw [show loc / 16 / 4096 = loc / 65536 by omega, hdirect, Bool.false_or]
        rcases hhint with hhint | hheld
        · rw [beq_eq_false_iff_ne.2 hhint, Bool.false_and, Bool.false_and]
          exact Bool.false_ne_true
        · rw [Option.isNone_eq_false_iff.2 (hheld tm hteam), Bool.and_false, Bool.false_and]
          exact Bool.false_ne_true
      rw [hwords]
      split <;> rfl
  rw [admitted, hnone]
  rfl

end

section
variable {s t : State} {o o' : Op} {size d : Nat} {how : LoadHow} {acc l l' : List Access} {got got' : List (Nat × Nat × BitVec 8)}
  (hkind : o.kind = .load size d how acc got) (hkind' : o'.kind = .load size d how acc got') (hid : o'.id = o.id) (hwave : o'.wave = o.wave)
  (hteam : o'.team = o.team) (hshows : Shows s t) (hops : GoneOn s t o.id) (hunder : Under l' l)
include hkind hkind' hid hwave hteam hshows hops hunder

/-- An engine operation that stands against a part of a load's accesses stands against them. -/
theorem engineHolds_goesOn {e : Op} (he : e ∈ t.ops) (h : engineHolds t e o' l' = true) : ∃ e ∈ s.ops, engineHolds s e o l = true := by
  have hwrite : o.isWrite = false := by rw [Op.isWrite, hkind]
  have hwrite' : o'.isWrite = false := by rw [Op.isWrite, hkind']
  have henters : o.entersL1 = false := by rw [Op.entersL1, hkind]
  have henters' : o'.entersL1 = false := by rw [Op.entersL1, hkind']
  have hcore : ∀ x : Op, coreOf t x = coreOf s x := fun x => by rw [coreOf, team?_of_teams hshows.teams, coreOf]
  have hcore' : coreOf s o' = coreOf s o := by rw [coreOf, hteam, coreOf]
  have hfenced : fencedOf t o.wave = fencedOf s o.wave := by rw [fencedOf, wave?_of_waves hshows.waves, fencedOf]
  have hswm : ∀ p, swmPlace t p = swmPlace s p := fun p => by rw [hshows.same]; rfl
  unfold engineHolds at h ⊢
  dsimp only at h ⊢
  simp only [hcore, hcore', hid, hwave, hwrite, hwrite', henters, henters', hfenced, hops.engineClear, Bool.false_and, Bool.or_false,
    Bool.not_false, Bool.and_true, hswm] at h ⊢
  have hne : e.id ≠ o.id := fun heq => by
    rw [heq] at h
    split at h <;> simp at h
  refine ⟨e, hops.mem he hne, ?_⟩
  split at h
  · next hnear =>
    rw [if_pos hnear]
    rw [Bool.and_eq_true] at h ⊢
    refine ⟨h.1, ?_⟩
    obtain ⟨r, hr, hq⟩ := List.any_eq_true.1 h.2
    obtain ⟨q, hq, hhas⟩ := List.any_eq_true.1 hq
    exact List.any_eq_true.2 ⟨r, hr, List.any_eq_true.2 ⟨q, hunder.places hq, hhas⟩⟩
  · next hnear =>
    rw [if_neg hnear]
    rw [Bool.and_eq_true] at h ⊢
    refine ⟨h.1, ?_⟩
    obtain ⟨r, hr, hq⟩ := List.any_eq_true.1 h.2
    obtain ⟨q, hq, hhas⟩ := List.any_eq_true.1 hq
    obtain ⟨hq, hcoherent⟩ := List.mem_filter.1 hq
    exact List.any_eq_true.2 ⟨r, hr, List.any_eq_true.2 ⟨q, List.mem_filter.2 ⟨hunder.places hq, hcoherent⟩, hhas⟩⟩

/-- A load that may reach its accesses may reach a part of them once it has gone on. -/
theorem canReach_goesOn (hnear : ∀ loc ∈ locsOf l', how.direct.contains (loc / 65536) = false ∧
      (how.hint ≠ 3 ∨ ∀ tm, s.team? o.team = some tm → (held? s tm.core (loc / 16)).isSome))
    (h : canReach s o l = true) : canReach t o' l' = true := by
  rw [canReach, Bool.and_eq_true] at h ⊢
  obtain ⟨h1, h2, h3, h4⟩ := (mayReach_load hkind).1 h.1
  refine ⟨(mayReach_load hkind').2 ⟨fun e he hw hi => ?_, fun x hx hw hi => ?_, fun e he => ?_, ?_⟩, admitted_load hkind' fun loc hloc => ?_⟩
  · obtain ⟨hacquire, hshare⟩ := h1 e (hops.mem he (by omega)) (hw.trans hwave) (by omega)
    exact ⟨hacquire, hunder.shareWord hshare⟩
  · obtain ⟨hacquire, hshare⟩ := h2 x (hshows.heldIssues ▸ hx) (hw.trans hwave) (by omega)
    refine ⟨hacquire, fun hboth => hshare ⟨hboth.1, ?_⟩⟩
    cases hfull : shareWord x.op.accesses l with
    | true => rfl
    | false =>
      rw [hunder.shareWord hfull] at hboth
      exact absurd hboth.2 Bool.false_ne_true
  · rw [← Bool.not_eq_true]
    intro hholds
    obtain ⟨x, hx, hholds⟩ := engineHolds_goesOn hkind hkind' hid hwave hteam hshows hops hunder he hholds
    rw [h3 x hx] at hholds
    cases hholds
  · rw [Bool.or_eq_true] at h4 ⊢
    rw [hshows.tenures]
    refine h4.imp id fun hfree => ?_
    rw [Bool.not_eq_true', tenureBlocks, List.any_eq_false] at hfree ⊢
    rw [hshows.tenures, hteam]
    refine fun x hx hagainst => hfree x hx ?_
    unfold Tenure.against at hagainst ⊢
    simp only [Bool.and_eq_true] at hagainst ⊢
    obtain ⟨loc, hloc, hmeets⟩ := List.any_eq_true.1 hagainst.2
    exact ⟨hagainst.1, List.any_eq_true.2 ⟨loc, hunder.locsOf hloc, hmeets⟩⟩
  · obtain ⟨hdirect, hhint⟩ := hnear loc hloc
    refine ⟨hdirect, hhint.imp id fun hheld tm htm => ?_⟩
    rw [hshows.held]
    exact hheld tm (hteam ▸ team?_of_teams hshows.teams o'.team ▸ htm)

end

/-! ## One word served -/

theorem pendList_sublist {l l' : List Pend} (h : l'.Sublist l) (hnil : pendList l = []) : pendList l' = [] :=
  List.flatMap_eq_nil_iff.2 fun e he => List.flatMap_eq_nil_iff.1 hnil e (h.subset he)

theorem pendBytes_seenAt {s : State} {core word : Nat} (h : pendBytes s core word = []) (horizon : Nat) :
    pendBytes (s.seenAt core word horizon) core word = [] := by
  have hsub : ((s.seenAt core word horizon).pend.filter fun e => e.core == core && e.word == word).Sublist
      (s.pend.filter fun e => e.core == core && e.word == word) := List.filter_sublist.filter _
  rw [pendBytes_eq, pendList_sublist hsub (pendList_nil h), List.foldl_nil]

theorem coreByte_seenAt {s : State} {core word : Nat} (h : pendBytes s core word = []) (horizon : Nat) {loc : Nat} (hloc : loc / 16 = word) :
    coreByte (s.seenAt core word horizon) core loc = coreByte s core loc := by
  unfold coreByte
  rw [hloc, pendBytes_seenAt h, h]
  rfl

theorem viewByte_seenAt {s : State} {w : Wave} {tm : Team} {word : Nat} (h : pendBytes s tm.core word = []) (horizon : Nat) {loc : Nat}
    (hloc : loc / 16 = word) : viewByte (s.seenAt tm.core word horizon) w tm loc = viewByte s w tm loc := by
  have hone := coreByte_seenAt h horizon hloc
  have hbase : (List.range 16).map (fun o => coreByte (s.seenAt tm.core word horizon) tm.core (loc / 16 * 16 + o)) =
      (List.range 16).map fun o => coreByte s tm.core (loc / 16 * 16 + o) :=
    List.map_congr_left fun o ho => coreByte_seenAt h horizon (by have := List.mem_range.1 ho; omega)
  unfold viewByte
  rw [hone, hbase]
  rfl

/-- A word that the L1 has is served from it. -/
theorem serveWord_held {s : State} {w : Wave} {tm : Team} {how : LoadHow} {word : Nat} {locs : List Nat} {x : CWord} (horizon : Nat)
    (hpend : pendBytes s tm.core word = []) (hdirect : how.direct.contains (word / 4096) = false) (hheld : held? s tm.core word = some x)
    (hx : x.isStale = false) (hlocs : ∀ l ∈ locs, l / 16 = word) :
    ∃ u, Shows s u ∧ u.ops = s.ops ∧ u.fills = s.fills ∧ serveWord s w tm how horizon word locs = (u, some (locs.map (viewByte s w tm))) := by
  have hview : locs.map (viewByte (s.seenAt tm.core word horizon) w tm) = locs.map (viewByte s w tm) :=
    List.map_congr_left fun l hl => viewByte_seenAt hpend horizon (hlocs l hl)
  have hfresh : dropStale s tm.core word = s := by
    rw [dropStale, hheld, Option.any_some, hx, if_neg Bool.false_ne_true]
  unfold serveWord
  dsimp only
  rw [pendBytes_seenAt hpend, hheld, hfresh]
  split
  · rw [Option.isNone_some, Bool.false_and, if_neg Bool.false_ne_true, hview]
    exact ⟨s, .refl s, rfl, rfl, rfl⟩
  · rw [if_neg (not_not.2 rfl), hdirect, if_neg Bool.false_ne_true]
    cases x with
    | stale => cases hx
    | shared | exclusive | modified | own =>
      dsimp only
      rw [hview]
      refine ⟨_, shows_hitHint s tm.core word how.hint, ?_, ?_, rfl⟩ <;>
        · unfold hitHint
          split <;> rfl

/-! ## One piece read -/

/-- Whether a byte of a thread's access has been read. -/
def hasByte (got : List (Nat × Nat × BitVec 8)) (th i : Nat) : Bool := got.any fun g => g.1 == th && g.2.1 == i

theorem hasByte_iff {got : List (Nat × Nat × BitVec 8)} {th i : Nat} : hasByte got th i = true ↔ ∃ g ∈ got, g.1 = th ∧ g.2.1 = i := by
  simp only [hasByte, List.any_eq_true, Bool.and_eq_true, beq_iff_eq]

theorem mem_zip_range {α : Type} {l : List α} {x : α} {i : Nat} : (x, i) ∈ l.zip (List.range l.length) ↔ l[i]? = some x := by
  rw [List.mem_iff_getElem?]
  constructor
  · rintro ⟨k, hk⟩
    obtain ⟨hx, hi⟩ := List.getElem?_zip_eq_some.1 hk
    obtain ⟨hlt, hi⟩ := List.getElem?_eq_some_iff.1 hi
    rw [List.getElem_range] at hi
    obtain rfl : k = i := hi
    exact hx
  · intro hx
    have hlt := (List.getElem?_eq_some_iff.1 hx).1
    exact ⟨i, List.getElem?_zip_eq_some.2 ⟨hx, List.getElem?_range hlt⟩⟩

theorem find_thread {acc : List Access} (hnodup : (acc.map (·.thread)).Nodup) {a : Access} (ha : a ∈ acc) :
    (acc.find? fun x => x.thread == a.thread) = some a := by
  cases hfind : acc.find? fun x => x.thread == a.thread with
  | none => exact absurd (beq_self_eq_true a.thread) (List.find?_eq_none.1 hfind a ha)
  | some x =>
    have hx : x.thread = a.thread := by simpa using List.find?_some hfind
    rw [List.inj_on_of_nodup_map hnodup (List.mem_of_find?_eq_some hfind) ha hx]

/-- The bytes of places in memory, by their locations. -/
theorem map_locsOf {t : State} {w : Wave} {tm : Team} {th addr : Nat} {ps : List Place} (h : ∀ q ∈ ps, ∃ loc, q = .mem loc) :
    (locsOf [⟨th, ps, addr⟩]).map (viewByte t w tm) = ps.map (placeByte t w tm) := by
  rw [locsOf, List.flatMap_singleton]
  dsimp only
  induction ps with
  | nil => rfl
  | cons q ps ih =>
    obtain ⟨loc, rfl⟩ := h q List.mem_cons_self
    exact congrArg (viewByte t w tm loc :: ·) (ih fun q hq => h q (List.mem_cons_of_mem _ hq))

theorem zip_map_map {α β γ δ : Type} (l : List α) (f : α → β) (f' : β → γ) (g : α × γ → δ) :
    (l.zip ((l.map f).map f')).map g = l.map fun x => g (x, f' (f x)) := by
  induction l with
  | nil => rfl
  | cons x l ih => simp only [List.map_cons, List.zip_cons_cons, ih]

theorem op?_updOp {s : State} {id : Nat} {f : Op → Op} (hf : ∀ o, (f o).id = o.id) {o : Op} (h : s.op? id = some o) :
    (s.updOp id f).op? id = some (f o) := by
  have hid : o.id = id := by simpa using List.find?_some h
  unfold State.op? State.updOp at *
  have hcomp : ((fun x : Op => x.id == id) ∘ fun x => if x.id = id then f x else x) = fun x => x.id == id := funext fun x => by
    rw [Function.comp_apply]
    split
    · rw [hf]
    · rfl
  rw [List.find?_map, hcomp, h, Option.map_some, if_pos hid]

/-- What stands when some bytes of a load have been read: the rest of the device as it was, and those bytes as the load's wave sees them. -/
structure Reading (s : State) (o : Op) (w : Wave) (tm : Team) (size d : Nat) (how : LoadHow) (acc : List Access) (t : State)
    (got : List (Nat × Nat × BitVec 8)) : Prop where
  shows : Shows s t
  goneOn : GoneOn s t o.id
  op : t.op? o.id = some { o with kind := .load size d how acc got }
  fills : OtherRequests s t o.id
  read : ∀ g ∈ got, ∃ a ∈ acc, a.thread = g.1 ∧ ∃ q, a.places[g.2.1]? = some q ∧ g.2.2 = placeByte s w tm q

/-- Bytes that have been read leave the rest of the load to be read. -/
theorem Reading.got {s : State} {o : Op} {w : Wave} {tm : Team} {size d : Nat} {how : LoadHow} {acc : List Access} {t u : State}
    {got l : List (Nat × Nat × BitVec 8)} (h : Reading s o w tm size d how acc t got) (hu : Shows t u) (hops : u.ops = t.ops)
    (hfills : u.fills = t.fills)
    (hl : ∀ g ∈ l, ∃ a ∈ acc, a.thread = g.1 ∧ ∃ q, a.places[g.2.1]? = some q ∧ g.2.2 = placeByte s w tm q) :
    Reading s o w tm size d how acc (settleRequests (u.updOp o.id fun x => x.gotBytes l) o.id) (got ++ l) := by
  have hgot : ∀ x : Op, (x.gotBytes l).id = x.id ∧ (x.gotBytes l).wave = x.wave ∧ (x.gotBytes l).isCore = x.isCore := fun x => by
    unfold Op.gotBytes
    split
    · next hkind => exact ⟨rfl, rfl, by rw [Op.isCore, Op.isCore, hkind]⟩
    · exact ⟨rfl, rfl, rfl⟩
  have hop : (u.updOp o.id fun x => x.gotBytes l).op? o.id = some { o with kind := .load size d how acc (got ++ l) } := by
    have hfound : u.op? o.id = some { o with kind := .load size d how acc got } := by rw [State.op?, hops]; exact h.op
    rw [op?_updOp (fun x => (hgot x).1) hfound]
    rfl
  have hgone : GoneOn s (u.updOp o.id fun x => x.gotBytes l) o.id := by
    refine h.goneOn.trans ⟨fun x => if x.id = o.id then x.gotBytes l else x, fun x => ?_, fun x hx => if_neg hx, ?_⟩
    · dsimp only
      split
      · exact hgot x
      · exact ⟨rfl, rfl, rfl⟩
    · rw [State.updOp, hops]
  unfold settleRequests
  rw [hop]
  dsimp only
  refine ⟨(h.shows.trans hu).trans .of_ops, hgone, hop, ?_, fun g hg => ?_⟩
  · unfold OtherRequests
    dsimp only [State.updOp]
    rw [List.filter_filter, hfills, ← h.fills]
    refine List.filter_congr fun f _ => ?_
    cases f.op != some o.id <;> simp
  · rcases List.mem_append.1 hg with hg | hg
    · exact h.read g hg
    · exact hl g hg

/-- A load that its core can serve: the operation, its wave and team, and what lets each of its places be read. -/
structure Served (s : State) (o : Op) (w : Wave) (tm : Team) (size d : Nat) (how : LoadHow) (acc : List Access) : Prop where
  op : s.op? o.id = some o
  kind : o.kind = .load size d how acc []
  wave : s.wave? o.wave = some w
  team : s.team? o.team = some tm
  reach : canReach s o acc = true
  threads : (acc.map (·.thread)).Nodup
  marks : ∀ a ∈ acc, ∀ p ∈ a.places, placeMark s tm p = .ok
  stamps : StampsClear s (partOfTeam s tm) (locsOf acc)
  words : ∀ a ∈ acc, ∀ loc, .mem loc ∈ a.places → how.direct.contains (loc / 65536) = false ∧ pendBytes s tm.core (loc / 16) = [] ∧
    ∃ x, held? s tm.core (loc / 16) = some x ∧ x.isStale = false

section
variable {s t : State} {o : Op} {w : Wave} {tm : Team} {size d : Nat} {how : LoadHow} {acc : List Access}
  {got : List (Nat × Nat × BitVec 8)} (hserved : Served s o w tm size d how acc)
include hserved

/-- The places of an access that lie in a piece and have not been read. -/
def unread (p : Nat × Option Nat × Nat) (got : List (Nat × Nat × BitVec 8)) (a : Access) : List (Place × Nat) :=
  (a.places.zip (List.range a.places.length)).filter fun q => inPiece p q.1 && !(hasByte got p.1 q.2)

omit hserved in
theorem mem_unread {p : Nat × Option Nat × Nat} {a : Access} {q : Place × Nat} :
    q ∈ unread p got a ↔ a.places[q.2]? = some q.1 ∧ pieceOf p.1 q.1 = p ∧ hasByte got p.1 q.2 = false := by
  unfold unread
  rw [List.mem_filter, show q = (q.1, q.2) from rfl, mem_zip_range, Bool.and_eq_true, inPiece_iff, Bool.not_eq_true']

/-- What serves one piece: its places as the load's wave sees them. -/
theorem served_piece (h : Reading s o w tm size d how acc t got) {a : Access} (ha : a ∈ acc) {pl : Place} (hpl : pl ∈ a.places) :
    ∃ u, Shows t u ∧ u.ops = t.ops ∧ u.fills = t.fills ∧
      (match (pieceOf a.thread pl).2.1 with
        | some _ => (t, some (((unread (pieceOf a.thread pl) got a).map (·.1)).map (placeByte t w tm)))
        | none => serveWord t w tm how (o.horizon t) (pieceOf a.thread pl).2.2
            (locsOf [{ a with places := (unread (pieceOf a.thread pl) got a).map (·.1) }])) =
        (u, some (((unread (pieceOf a.thread pl) got a).map (·.1)).map (placeByte s w tm))) := by
  have hbytes : ∀ ps : List Place, ps.map (placeByte t w tm) = ps.map (placeByte s w tm) := fun ps =>
    List.map_congr_left fun q _ => h.shows.placeByte w tm q
  have hplaces : ∀ q ∈ (unread (pieceOf a.thread pl) got a).map (·.1), pieceOf (pieceOf a.thread pl).1 q = pieceOf a.thread pl := fun q hq => by
    obtain ⟨x, hx, rfl⟩ := List.mem_map.1 hq
    exact (mem_unread.1 hx).2.1
  generalize (unread (pieceOf a.thread pl) got a).map (·.1) = ps at hplaces ⊢
  cases pl with
  | sp team off => exact ⟨t, .refl t, rfl, rfl, congrArg (fun l => (t, some l)) (hbytes ps)⟩
  | mem loc =>
    obtain ⟨hdirect, hpend, x, hheld, hx⟩ := hserved.words a ha loc hpl
    have hmem : ∀ q ∈ ps, ∃ l, q = .mem l ∧ l / 16 = loc / 16 := fun q hq => by
      have hpiece := hplaces q hq
      cases q with
      | mem l => exact ⟨l, rfl, congrArg (·.2.2) hpiece⟩
      | sp _ _ => cases hpiece
    obtain ⟨u, hu, hops, hfills, hserve⟩ := serveWord_held (s := t) (w := w) (tm := tm) (how := how) (word := loc / 16)
      (locs := locsOf [{ a with places := ps }]) (o.horizon t) (by rw [h.shows.pendBytes, hpend])
      (by rw [show loc / 16 / 4096 = loc / 65536 by omega]; exact hdirect) (by rw [h.shows.held, hheld]) hx fun l hl => by
        obtain ⟨b, hb, hl⟩ := mem_locsOf.1 hl
        obtain rfl := List.mem_singleton.1 hb
        obtain ⟨l', heq, hword⟩ := hmem _ hl
        cases heq
        exact hword
    refine ⟨u, hu, hops, hfills, hserve.trans ?_⟩
    rw [map_locsOf fun q hq => let ⟨l, hl, _⟩ := hmem q hq; ⟨l, hl⟩, hbytes]

/-- What a piece leaves of the load once it is served, or not. -/
def pieceServed (id th : Nat) (todo : List (Place × Nat)) (r : State × Option (List (BitVec 8))) : State :=
  match r.2 with
  | none => r.1
  | some bs => settleRequests (r.1.updOp id fun o => o.gotBytes ((todo.zip bs).map fun q => (th, q.1.2, q.2))) id

/-- One piece of a load read. -/
theorem readPiece_reads (h : Reading s o w tm size d how acc t got) {a : Access} (ha : a ∈ acc) {pl : Place} (hpl : pl ∈ a.places) :
    Reading s o w tm size d how acc (readPiece o.id t (pieceOf a.thread pl))
      (got ++ (unread (pieceOf a.thread pl) got a).map fun q => (a.thread, q.2, placeByte s w tm q.1)) := by
  obtain ⟨u, hu, hops, hfills, hserve⟩ := served_piece hserved h ha hpl
  have hthread : (pieceOf a.thread pl).1 = a.thread := by cases pl <;> rfl
  have hsub : ∀ q ∈ (unread (pieceOf a.thread pl) got a).map (·.1), q ∈ a.places := fun q hq => by
    obtain ⟨x, hx, rfl⟩ := List.mem_map.1 hq
    exact List.mem_of_getElem? (mem_unread.1 hx).1
  have hunder : Under [{ a with places := (unread (pieceOf a.thread pl) got a).map (·.1) }] acc := fun b hb => by
    obtain rfl := List.mem_singleton.1 hb
    exact ⟨a, ha, rfl, hsub⟩
  have hreach : canReach t { o with kind := .load size d how acc got }
      [{ a with places := (unread (pieceOf a.thread pl) got a).map (·.1) }] = true := by
    refine canReach_goesOn hserved.kind rfl rfl rfl rfl h.shows h.goneOn hunder (fun loc hloc => ?_) hserved.reach
    obtain ⟨b, hb, hloc⟩ := mem_locsOf.1 (hunder.locsOf hloc)
    obtain ⟨hdirect, -, x, hheld, -⟩ := hserved.words b hb loc hloc
    refine ⟨hdirect, .inr fun tm' htm' => ?_⟩
    obtain rfl : tm = tm' := Option.some.inj (hserved.team.symm.trans htm')
    rw [hheld]
    rfl
  have hobserved : observed t tm (pieceOf a.thread pl) = t := by
    cases pl with
    | sp _ _ => rfl
    | mem loc =>
      have hpart : partOfTeam t tm = partOfTeam s tm := by rw [h.shows.same]; rfl
      show flushStamps t (partOfTeam t tm) (16 * (loc / 16)) 16 = t
      rw [hpart]
      exact h.shows.flushStamps_none fun g hg hg' => hserved.stamps g hg hg' loc (mem_locsOf.2 ⟨a, ha, hpl⟩)
  have hmarks : ((unread (pieceOf a.thread pl) got a).map (·.1)).find? (fun q => placeMark t tm q != .ok) = none :=
    List.find?_eq_none.2 fun q hq => by
      rw [h.shows.placeMark, hserved.marks a ha q (hsub q hq)]
      decide
  have hexpand : readPiece o.id t (pieceOf a.thread pl) = settleRequests (u.updOp o.id fun x => x.gotBytes
      (((unread (pieceOf a.thread pl) got a).zip (((unread (pieceOf a.thread pl) got a).map (·.1)).map (placeByte s w tm))).map fun q =>
        ((pieceOf a.thread pl).1, q.1.2, q.2))) o.id := by
    have hfind := find_thread hserved.threads ha
    rw [← hthread] at hfind
    unfold readPiece
    rw [h.op]
    dsimp only
    rw [wave?_of_waves h.shows.waves, hserved.wave, team?_of_teams h.shows.teams, hserved.team]
    dsimp only
    rw [hfind]
    dsimp only
    rw [if_neg (by rw [Bool.not_eq_true', Bool.not_eq_false]; exact hreach), hobserved]
    refine Eq.trans ?_ (congrArg (fun r : State × Option (List (BitVec 8)) => pieceServed o.id (pieceOf a.thread pl).1
      (unread (pieceOf a.thread pl) got a) r) hserve)
    unfold unread hasByte at hmarks ⊢
    rw [hmarks]
    rfl
  rw [hexpand, zip_map_map, hthread]
  exact h.got hu hops hfills fun g hg => by
    obtain ⟨q, hq, rfl⟩ := List.mem_map.1 hg
    exact ⟨a, ha, rfl, q.1, (mem_unread.1 hq).1, rfl⟩

end

/-! ## Pieces read one after another -/

theorem hasByte_append {got l : List (Nat × Nat × BitVec 8)} {th i : Nat} :
    hasByte (got ++ l) th i = true ↔ hasByte got th i = true ∨ hasByte l th i = true := by
  simp only [hasByte, List.any_append, Bool.or_eq_true]

/-- The bytes that a piece brings are those of the thread's access that lie in it. -/
theorem hasByte_piece {acc : List Access} {a : Access} {pl : Place} {got : List (Nat × Nat × BitVec 8)}
    (f : Place → BitVec 8) (hnodup : (acc.map (·.thread)).Nodup) (ha : a ∈ acc) {b : Access} (hb : b ∈ acc) {i : Nat} {q : Place}
    (hq : b.places[i]? = some q) :
    hasByte (got ++ (unread (pieceOf a.thread pl) got a).map fun x => (a.thread, x.2, f x.1)) b.thread i = true ↔
      hasByte got b.thread i = true ∨ pieceOf b.thread q = pieceOf a.thread pl := by
  have hfst : ∀ th q, (pieceOf th q).1 = th := fun th q => by cases q <;> rfl
  rw [hasByte_append]
  constructor
  · rintro (h | h)
    · exact .inl h
    · obtain ⟨g, hg, hth, hi⟩ := hasByte_iff.1 h
      obtain ⟨x, hx, rfl⟩ := List.mem_map.1 hg
      obtain ⟨hplace, hpiece, -⟩ := mem_unread.1 hx
      obtain rfl : b = a := List.inj_on_of_nodup_map hnodup hb ha hth.symm
      obtain rfl : x.2 = i := hi
      obtain rfl : q = x.1 := Option.some.inj (hq.symm.trans hplace)
      rw [hfst] at hpiece
      exact .inr hpiece
  · rintro (h | h)
    · exact .inl h
    · obtain rfl : b = a := List.inj_on_of_nodup_map hnodup hb ha (by rw [← hfst b.thread q, h, hfst])
      cases hgot : hasByte got b.thread i with
      | true => exact .inl rfl
      | false =>
        have hin : (q, i) ∈ unread (pieceOf b.thread pl) got b := mem_unread.2 ⟨hq, by rw [hfst]; exact h, by rw [hfst]; exact hgot⟩
        exact .inr (hasByte_iff.2 ⟨_, List.mem_map_of_mem hin, rfl, rfl⟩)

/-- The pieces that a load has still to read. -/
theorem mem_pieces {o : Op} {size d : Nat} {how : LoadHow} {acc : List Access} {got : List (Nat × Nat × BitVec 8)}
    (hkind : o.kind = .load size d how acc got) {q : Nat × Option Nat × Nat} :
    q ∈ o.pieces ↔ ∃ a ∈ acc, ∃ i pl, a.places[i]? = some pl ∧ hasByte got a.thread i = false ∧ pieceOf a.thread pl = q := by
  have hleft : ∀ a : Access, q ∈ wordsOf (a.left got) ↔ ∃ i pl, a.places[i]? = some pl ∧ hasByte got a.thread i = false ∧ pieceOf a.thread pl = q := by
    intro a
    rw [mem_wordsOf]
    constructor
    · rintro ⟨pl, hpl, rfl⟩
      obtain ⟨x, hx, rfl⟩ := List.mem_map.1 hpl
      obtain ⟨hx, hnot⟩ := List.mem_filter.1 hx
      exact ⟨x.2, x.1, mem_zip_range.1 hx, by simpa [hasByte] using hnot, rfl⟩
    · rintro ⟨i, pl, hpl, hnot, rfl⟩
      refine ⟨pl, List.mem_map.2 ⟨(pl, i), List.mem_filter.2 ⟨mem_zip_range.2 hpl, ?_⟩, rfl⟩, rfl⟩
      rw [Bool.not_eq_true']
      exact hnot
  have hacc : o.accesses = acc.map (Access.left got) := by
    rw [Op.accesses, hkind]
    dsimp only
    split
    · next hnil =>
      refine ((List.map_congr_left fun a _ => ?_).trans (List.map_id' acc)).symm
      have hall : ((a.places.zip (List.range a.places.length)).filter fun p => !(got.any fun g => g.1 == a.thread && g.2.1 == p.2)) =
          a.places.zip (List.range a.places.length) := List.filter_eq_self.2 fun _ _ => by rw [hnil]; rfl
      rw [Access.left, hall, List.map_fst_zip (by rw [List.length_range])]
    · rfl
  rw [Op.pieces, hacc, List.flatMap_map, List.mem_flatMap]
  exact exists_congr fun a => and_congr_right fun _ => hleft a

section
variable {s : State} {o : Op} {w : Wave} {tm : Team} {size d : Nat} {how : LoadHow} {acc : List Access}
  (hserved : Served s o w tm size d how acc)
include hserved

omit hserved in
theorem Reading.start (hop : s.op? o.id = some o) (hkind : o.kind = .load size d how acc []) : Reading s o w tm size d how acc s [] := by
  refine ⟨.refl s, .refl s _, ?_, rfl, fun _ h => absurd h List.not_mem_nil⟩
  rw [hop, ← hkind]

/-- Pieces of a load read in turn: every byte of them has then been read. -/
theorem readPieces_read (l : List (Nat × Option Nat × Nat)) {t : State} {got : List (Nat × Nat × BitVec 8)}
    (h : Reading s o w tm size d how acc t got) (hl : ∀ p ∈ l, ∃ a ∈ acc, ∃ pl ∈ a.places, pieceOf a.thread pl = p) :
    ∃ got', Reading s o w tm size d how acc (l.foldl (readPiece o.id) t) got' ∧
      ∀ b ∈ acc, ∀ i q, b.places[i]? = some q → hasByte got b.thread i = true ∨ pieceOf b.thread q ∈ l → hasByte got' b.thread i = true := by
  induction l generalizing t got with
  | nil => exact ⟨got, h, fun b _ i q _ hq => hq.resolve_right List.not_mem_nil⟩
  | cons p l ih =>
    obtain ⟨a, ha, pl, hpl, rfl⟩ := hl p List.mem_cons_self
    obtain ⟨got', hread, hall⟩ := ih (readPiece_reads hserved h ha hpl) fun p hp => hl p (List.mem_cons_of_mem _ hp)
    refine ⟨got', hread, fun b hb i q hq hcase => hall b hb i q hq ?_⟩
    rw [hasByte_piece _ hserved.threads ha hb hq]
    rcases hcase with hgot | hin
    · exact .inl (.inl hgot)
    · exact (List.mem_cons.1 hin).imp .inr id

/-- One piece of a load read by itself. -/
theorem loadComplete_piece {k : Nat} {p : Nat × Option Nat × Nat} (hp : o.pieces[k]? = some p) :
    ∃ t o', exec (.loadComplete ⟨o.id, some k⟩) s = .next t ∧ t = { s with ops := t.ops, blocks := t.blocks, fills := t.fills } ∧
      OtherRequests s t o.id ∧ t.op? o.id = some o' ∧ o' = { o with kind := o'.kind } ∧ ∀ q, q ∈ o'.pieces ↔ q ∈ o.pieces ∧ q ≠ p := by
  obtain ⟨a, ha, i, pl, hpl, -, rfl⟩ := (mem_pieces hserved.kind).1 (List.mem_of_getElem? hp)
  have hread := readPiece_reads hserved (.start hserved.op hserved.kind) ha (List.mem_of_getElem? hpl)
  refine ⟨_, _, ?_, hread.shows.same, hread.fills, hread.op, rfl, fun q => ?_⟩
  · rw [exec_loadComplete, execLoadComplete]
    dsimp only
    rw [hserved.op]
    dsimp only
    rw [hp]
  · rw [mem_pieces rfl, mem_pieces hserved.kind]
    constructor
    · rintro ⟨b, hb, j, x, hx, hnot, rfl⟩
      refine ⟨⟨b, hb, j, x, hx, rfl, rfl⟩, fun heq => ?_⟩
      have hhas := (hasByte_piece (got := []) (placeByte s w tm) hserved.threads ha hb hx).2 (.inr heq)
      rw [hnot] at hhas
      cases hhas
    · rintro ⟨⟨b, hb, j, x, hx, -, rfl⟩, hne⟩
      refine ⟨b, hb, j, x, hx, ?_, rfl⟩
      rw [← Bool.not_eq_true]
      intro hhas
      rcases (hasByte_piece (got := []) (placeByte s w tm) hserved.threads ha hb hx).1 hhas with hnil | heq
      · cases hnil
      · exact hne heq

/-! ## The load's end -/

/-- The value that a load has read for a thread. -/
def valueOf (s : State) (w : Wave) (tm : Team) (a : Access) : Nat := leNat (a.places.map (placeByte s w tm))

omit hserved in
theorem gotValue_eq {t : State} {got : List (Nat × Nat × BitVec 8)} (h : Reading s o w tm size d how acc t got)
    (hnodup : (acc.map (·.thread)).Nodup) {a : Access} (ha : a ∈ acc) (hall : ∀ i q, a.places[i]? = some q → hasByte got a.thread i = true) :
    gotValue got a.thread a.places.length = valueOf s w tm a := by
  unfold gotValue valueOf
  congr 1
  refine List.ext_getElem? fun i => ?_
  rw [List.getElem?_map, List.getElem?_map]
  cases hq : a.places[i]? with
  | none =>
    have hlen : a.places.length ≤ i := List.getElem?_eq_none_iff.1 hq
    rw [List.getElem?_eq_none_iff.2 (by rw [List.length_range]; exact hlen)]
    rfl
  | some q =>
    have hlt := (List.getElem?_eq_some_iff.1 hq).1
    rw [List.getElem?_range hlt, Option.map_some, Option.map_some]
    congr 1
    cases hfind : got.find? fun g => g.1 == a.thread && g.2.1 == i with
    | none =>
      obtain ⟨g, hg, hth, hi⟩ := hasByte_iff.1 (hall i q hq)
      exact absurd (by simp [hth, hi]) (List.find?_eq_none.1 hfind g hg)
    | some g =>
      obtain ⟨hth, hi⟩ : g.1 = a.thread ∧ g.2.1 = i := by simpa using List.find?_some hfind
      obtain ⟨b, hb, hbth, x, hx, hbyte⟩ := h.read g (List.mem_of_find?_eq_some hfind)
      obtain rfl : b = a := List.inj_on_of_nodup_map hnodup hb ha (hbth.trans hth)
      rw [hi, hq] at hx
      cases hx
      exact hbyte

/-- The registers that a load writes. -/
def loadedBy (s : State) (w : Wave) (tm : Team) (size d : Nat) (acc : List Access) : List RegWrite :=
  acc.flatMap fun a => loadWrites size d a.thread (valueOf s w tm a)

/-- What a load whose bytes have all been read leaves: its registers written, and the operation no longer in flight. -/
theorem loadComplete_exec : ∃ u, Shows s u ∧ GoneOn s u o.id ∧ OtherRequests s u o.id ∧
    exec (.loadComplete ⟨o.id, none⟩) s = .next ((u.dropOp o.id).updWave o.wave fun x =>
      ((x.writes (loadedBy s w tm size d acc)).flagDown o.flag).lvqFill o.id (loadedBy s w tm size d acc)) := by
  obtain ⟨got, hread, hall⟩ := readPieces_read hserved o.pieces (.start hserved.op hserved.kind) fun p hp => by
    obtain ⟨a, ha, i, pl, hpl, -, rfl⟩ := (mem_pieces hserved.kind).1 hp
    exact ⟨a, ha, pl, List.mem_of_getElem? hpl, rfl⟩
  have hbytes : ∀ a ∈ acc, ∀ i q, a.places[i]? = some q → hasByte got a.thread i = true := fun a ha i q hq =>
    hall a ha i q hq (.inr ((mem_pieces hserved.kind).2 ⟨a, ha, i, q, hq, rfl, rfl⟩))
  have hnone : ({ o with kind := .load size d how acc got } : Op).pieces = [] := by
    refine List.eq_nil_iff_forall_not_mem.2 fun q hq => ?_
    obtain ⟨a, ha, i, pl, hpl, hnot, -⟩ := (mem_pieces rfl).1 hq
    rw [hbytes a ha i pl hpl] at hnot
    cases hnot
  have hvalues : (acc.flatMap fun a => loadWrites size d a.thread (gotValue got a.thread a.places.length)) = loadedBy s w tm size d acc :=
    List.flatMap_congr fun a ha => by rw [gotValue_eq hread hserved.threads ha (hbytes a ha)]
  refine ⟨o.pieces.foldl (readPiece o.id) s, hread.shows, hread.goneOn, hread.fills, ?_⟩
  rw [exec_loadComplete, execLoadComplete]
  dsimp only
  rw [hserved.op]
  dsimp only
  rw [finishLoad, hread.op]
  dsimp only
  rw [team?_of_teams hread.shows.teams, hserved.team]
  dsimp only
  rw [if_pos hnone, hvalues]

end

theorem ofNat_wrapN (x : Int) : BitVec.ofNat 64 (wrapN 64 x) = BitVec.ofInt 64 x := by
  refine BitVec.eq_of_toNat_eq ?_
  rw [BitVec.toNat_ofNat, BitVec.toNat_ofInt, wrapN]
  refine Nat.mod_eq_of_lt ?_
  omega

/-- What a load leaves of a thread's value in one of the registers that it writes. -/
def loaded (size d v r : Nat) : Option Word :=
  if size = 7 then if r = d then some (BitVec.ofNat 64 v) else if r = d + 1 then some (BitVec.ofNat 64 (v / 2 ^ 64)) else none
  else if r = d then some (loadedWord size v) else none

theorem getV_loadWrites (size d : Nat) (w : Wave) (t v r u : Nat) (ht : t < 32) (hu : u < 32) :
    (w.writes (loadWrites size d t v)).getV r u = if u = t then (loaded size d v r).getD (w.getV r u) else w.getV r u := by
  unfold loadWrites loaded
  by_cases hsize : size = 7
  · rw [if_pos hsize, if_pos hsize]
    show ((w.setV d t _).setV (d + 1) t _).getV r u = _
    rw [getV_setV _ _ _ _ _ _ ht hu, getV_setV _ _ _ _ _ _ ht hu]
    by_cases hut : u = t
    · rw [if_pos hut]
      by_cases hd : r = d
      · rw [if_neg (by omega), if_pos ⟨hd, hut⟩, if_pos hd]
        rfl
      · by_cases hd1 : r = d + 1
        · rw [if_pos ⟨hd1, hut⟩, if_neg hd, if_pos hd1]
          rfl
        · rw [if_neg fun h => hd1 h.1, if_neg fun h => hd h.1, if_neg hd, if_neg hd1]
          rfl
    · rw [if_neg fun h => hut h.2, if_neg fun h => hut h.2, if_neg hut]
  · rw [if_neg hsize, if_neg hsize]
    have hword : BitVec.ofNat 64 (if sizeSigned size then wrapN 64 (toSigned (8 * sizeBytes size) v) else v) = loadedWord size v := by
      unfold loadedWord
      split
      · exact ofNat_wrapN _
      · rfl
    show (w.setV d t _).getV r u = _
    rw [getV_setV _ _ _ _ _ _ ht hu, hword]
    by_cases hut : u = t
    · by_cases hd : r = d
      · rw [if_pos ⟨hd, hut⟩, if_pos hut, if_pos hd]
        rfl
      · rw [if_neg fun h => hd h.1, if_pos hut, if_neg hd]
        rfl
    · rw [if_neg fun h => hut h.2, if_neg hut]

theorem loaded_eq_none {size d v r : Nat} (h : r ∉ dataRegs size d) : loaded size d v r = none := by
  unfold dataRegs at h
  unfold loaded
  by_cases hsize : size = 7
  · rw [if_pos hsize, List.mem_pair, not_or] at h
    rw [if_pos hsize, if_neg h.1, if_neg h.2]
  · rw [if_neg hsize, List.mem_singleton] at h
    rw [if_neg hsize, if_neg h]

/-- Writes of vector registers alone leave the uniform ones. -/
theorem s_loadedBy (x : Wave) (s : State) (w : Wave) (tm : Team) (size d : Nat) (acc : List Access) :
    (x.writes (loadedBy s w tm size d acc)).s = x.s := by
  induction acc generalizing x with
  | nil => rfl
  | cons a acc ih =>
    rw [loadedBy, List.flatMap_cons, writes_append]
    refine (ih _).trans ?_
    unfold loadWrites
    split <;> rfl

/-- The registers of a wave whose load has completed. -/
theorem loaded_registers {s : State} {w : Wave} {tm : Team} {size d : Nat} {acc : List Access} (hnodup : (acc.map (·.thread)).Nodup)
    (hlow : ∀ a ∈ acc, a.thread < 32) (n flag id : Nat) :
    (∀ a ∈ acc, ∀ r, (completed w n flag id (loadedBy s w tm size d acc)).getV r a.thread =
      (loaded size d (valueOf s w tm a) r).getD (w.getV r a.thread)) ∧
    (∀ r th, th < 32 → (th ∉ acc.map (·.thread) ∨ r ∉ dataRegs size d) →
      (completed w n flag id (loadedBy s w tm size d acc)).getV r th = w.getV r th) ∧
    ∀ r, (completed w n flag id (loadedBy s w tm size d acc)).getS r = w.getS r := by
  have hpairs : loadedBy s w tm size d acc =
      (acc.map fun a => (a.thread, valueOf s w tm a)).flatMap fun p => loadWrites size d p.1 p.2 := by
    rw [List.flatMap_map]
    rfl
  have hfst : (acc.map fun a => (a.thread, valueOf s w tm a)).map (·.1) = acc.map (·.thread) := by
    rw [List.map_map]
    rfl
  have hv : ∀ r u, (completed w n flag id (loadedBy s w tm size d acc)).getV r u = ((w.fenceAt n).writes (loadedBy s w tm size d acc)).getV r u :=
    fun r u => by rw [Wave.getV, completed_v, Wave.getV]
  have hwrites := fun r u => getV_threadWrites (getV_loadWrites size d) (w.fenceAt n) (l := acc.map fun a => (a.thread, valueOf s w tm a))
    (fun p hp => by obtain ⟨a, ha, rfl⟩ := List.mem_map.1 hp; exact hlow a ha) (hfst.symm ▸ hnodup) r (u := u)
  rw [← hpairs, hfst] at hwrites
  refine ⟨fun a ha r => ?_, fun r th hth hkeep => ?_, fun r => ?_⟩
  · rw [hv]
    exact (hwrites r _ (hlow a ha)).1 _ (List.mem_map_of_mem ha)
  · rw [hv]
    by_cases hin : th ∈ acc.map (·.thread)
    · obtain ⟨a, ha, rfl⟩ := List.mem_map.1 hin
      rw [(hwrites r _ hth).1 _ (List.mem_map_of_mem ha), loaded_eq_none (hkeep.resolve_left fun h => h hin)]
      rfl
    · exact (hwrites r th hth).2 hin
  · rw [Wave.getS, completed_s, s_loadedBy]
    rfl

section
variable {s : State} {o : Op} {w : Wave} {tm : Team} {size d : Nat} {how : LoadHow} {acc : List Access}

/-- A load that its core can serve completes. -/
theorem loadComplete_done (hserved : Served s o w tm size d how acc) (hlow : ∀ a ∈ acc, a.thread < 32) :
    OpDone (.loadComplete ⟨o.id, none⟩) s o fun t w' =>
      t = { s with waves := t.waves, ops := t.ops, blocks := t.blocks, fills := s.fills.filter fun f => f.op != some o.id } ∧
      (∀ a ∈ acc, let v := leNat (a.places.map (placeByte s w tm))
        if size = 7 then w'.getV d a.thread = BitVec.ofNat 64 v ∧ w'.getV (d + 1) a.thread = BitVec.ofNat 64 (v / 2 ^ 64)
        else w'.getV d a.thread = loadedWord size v) ∧
      (∀ r th, th < 32 → (th ∉ acc.map (·.thread) ∨ r ∉ dataRegs size d) → w'.getV r th = w.getV r th) ∧
      ∀ r, w'.getS r = w.getS r := by
  obtain ⟨u, hshows, hgone, hfills, hexec⟩ := loadComplete_exec hserved
  obtain ⟨hin, hout, huniform⟩ := loaded_registers (s := s) (w := w) (tm := tm) (size := size) (d := d) hserved.threads hlow w.fenced o.flag o.id
  have hwaves : u.waves = s.waves := hshows.waves
  refine opDoneAt_of_completed (r := u.dropOp o.id) (fence := Wave.fenced) hserved.wave ((wave?_of_waves hwaves o.wave).trans hserved.wave)
    (fun j _ => wave?_of_waves hwaves j) hgone.filter hexec ⟨?_, fun a ha => ?_, hout, huniform⟩
  · rw [← hfills, hshows.same]
    rfl
  · dsimp only
    split
    · next hsize =>
      refine ⟨?_, ?_⟩
      · rw [hin a ha, loaded, if_pos hsize, if_pos rfl]
        rfl
      · rw [hin a ha, loaded, if_pos hsize, if_neg (Nat.succ_ne_self d), if_pos rfl]
        rfl
    · next hsize =>
      rw [hin a ha, loaded, if_neg hsize, if_pos rfl]
      rfl

end

/-! ## A word that the L1 misses -/

theorem dedup_const {α : Type} [DecidableEq α] {l : List α} {c : α} (hne : l ≠ []) (h : ∀ x ∈ l, x = c) : l.dedup = [c] := by
  rw [List.eq_replicate_of_mem h, List.replicate_dedup (fun hlen => hne (List.length_eq_zero_iff.1 hlen))]

section
variable {s : State} {o : Op} {w : Wave} {tm : Team} {size d word : Nat} {how : LoadHow} {a : Access}

/-- An access that lies in one word of memory. -/
theorem one_word (hne : a.places ≠ []) (hplaces : ∀ p ∈ a.places, ∃ loc, p = .mem loc ∧ loc / 16 = word) :
    wordsOf a = [(a.thread, none, word)] ∧ memWords [a] = [word] := by
  have hlocs : ∀ loc ∈ locsOf [a], loc / 16 = word := fun loc hloc => by
    obtain ⟨b, hb, hin⟩ := mem_locsOf.1 hloc
    rw [List.mem_singleton.1 hb] at hin
    obtain ⟨l, hl, hword⟩ := hplaces _ hin
    cases hl
    exact hword
  obtain ⟨p, hp⟩ := List.exists_mem_of_ne_nil _ hne
  obtain ⟨loc, rfl, -⟩ := hplaces p hp
  have hin : loc ∈ locsOf [a] := mem_locsOf.2 ⟨a, List.mem_singleton_self a, hp⟩
  constructor
  · refine dedup_const (mt List.map_eq_nil_iff.1 hne) fun q hq => ?_
    obtain ⟨p, hp, rfl⟩ := List.mem_map.1 hq
    obtain ⟨loc, rfl, rfl⟩ := hplaces p hp
    rfl
  · refine dedup_const (mt List.map_eq_nil_iff.1 (List.ne_nil_of_mem hin)) fun q hq => ?_
    obtain ⟨l, hl, rfl⟩ := List.mem_map.1 hq
    exact hlocs l hl

/-- What stands for a word that a load's L1 misses. -/
structure Missed (s : State) (w : Wave) (tm : Team) (how : LoadHow) (word : Nat) : Prop where
  hint : how.hint ≠ 3
  repl : how.repl = false
  direct : how.direct = []
  held : held? s tm.core word = none
  pend : pendBytes s tm.core word = []
  buffer : tm.interval.buffer = []
  issues : ∀ h ∈ s.held, h.wave ≠ w.id
  fills : ∀ f ∈ s.fills, f.core = tm.core → f.frame ≠ word / 16

theorem Missed.brings (h : Missed s w tm how word) (lo hi : Nat) : (s.fills.any fun f => f.brings tm.core (word / 16) lo hi) = false :=
  List.any_eq_false.2 fun f hf hbrings => by
    simp only [Fill.brings, Bool.and_eq_true, beq_iff_eq] at hbrings
    exact h.fills f hf hbrings.1.1.1.2 hbrings.1.1.2

theorem Missed.misses (h : Missed s w tm how word) : misses s tm.core how word = true := by
  rw [Machine.misses, h.direct, h.held, h.pend, h.repl, bne_iff_ne.2 h.hint]
  rfl

theorem serveWord_missed (h : Missed s w tm how word) (horizon : Nat) (locs : List Nat) : serveWord s w tm how horizon word locs = (s, none) := by
  have hissues : (s.held.any fun x => x.wave == w.id) = false := List.any_eq_false.2 fun x hx => by simpa using h.issues x hx
  unfold serveWord
  dsimp only
  rw [h.buffer, hissues, pendBytes_seenAt h.pend, h.direct, h.held, h.brings, h.repl]
  simp [h.hint]

theorem loadComplete_missed (h : Missed s w tm how word) (hop : s.op? o.id = some o) (hkind : o.kind = .load size d how [a] [])
    (hwave : s.wave? o.wave = some w) (hteam : s.team? o.team = some tm) (hcan : canPerform s o = true) (hne : a.places ≠ [])
    (hplaces : ∀ p ∈ a.places, ∃ loc, p = .mem loc ∧ loc / 16 = word) (hmarks : ∀ p ∈ a.places, placeMark s tm p = .ok)
    (hstamps : StampsClear s (partOfTeam s tm) [16 * word]) :
    exec (.loadComplete ⟨o.id, none⟩) s =
      .next (sendFill s (missFill s tm.core (word / 16) (word % 16) (word % 16) how.lp how.hint false false)) := by
  obtain ⟨hwords, hmem⟩ := one_word hne hplaces
  have hacc : o.accesses = [a] := by
    rw [Op.accesses, hkind]
    rfl
  have hpieces : o.pieces = [(a.thread, none, word)] := by
    rw [Op.pieces, hacc, List.flatMap_singleton, hwords]
  have hall : ((a.places.zip (List.range a.places.length)).filter fun q =>
      inPiece (a.thread, none, word) q.1 && !(([] : List (Nat × Nat × BitVec 8)).any fun g => g.1 == a.thread && g.2.1 == q.2)) =
        a.places.zip (List.range a.places.length) := List.filter_eq_self.2 fun q hq => by
    obtain ⟨loc, hloc, rfl⟩ := hplaces q.1 (List.of_mem_zip (a := q.1) (b := q.2) hq).1
    rw [hloc, inPiece_iff.2 (show pieceOf a.thread (.mem loc) = _ from rfl)]
    rfl
  have hfst : (a.places.zip (List.range a.places.length)).map (·.1) = a.places := List.map_fst_zip (by rw [List.length_range])
  have hreach : canReach s o [a] = true := hacc ▸ hcan
  have hobserved : observed s tm (a.thread, none, word) = s :=
    (Shows.refl s).flushStamps_none fun g hg hg' => by
      have := hstamps g hg hg' (16 * word) (List.mem_singleton_self _)
      rwa [show 16 * (16 * word / 16) = 16 * word by omega] at this
  have hgood : a.places.find? (fun q => placeMark s tm q != .ok) = none :=
    List.find?_eq_none.2 fun q hq => by rw [hmarks q hq]; decide
  have hpiece : readPiece o.id s (a.thread, none, word) = s := by
    unfold readPiece
    rw [hop]
    dsimp only
    rw [hkind, hwave, hteam]
    dsimp only
    rw [List.find?_cons_of_pos (by simp)]
    dsimp only
    rw [hall, hfst, if_neg (by rw [Bool.not_eq_true', Bool.not_eq_false]; exact hreach), hobserved, hgood]
    dsimp only
    rw [serveWord_missed h]
  rw [exec_loadComplete, execLoadComplete]
  dsimp only
  rw [hop]
  dsimp only
  rw [hpieces, List.foldl_cons, List.foldl_nil, hpiece, finishLoad, hop]
  dsimp only
  rw [hkind, hteam]
  dsimp only
  rw [if_neg (by rw [hpieces]; exact List.cons_ne_nil _ _), hacc, hmem]
  have hmiss : [word].filter (misses s tm.core how) = [word] := List.filter_eq_self.2 fun w hw => List.mem_singleton.1 hw ▸ h.misses
  have hframe : [word].filter (fun w => w / 16 == word / 16) = [word] :=
    List.filter_eq_self.2 fun w hw => by rw [List.mem_singleton.1 hw, beq_self_eq_true]
  rw [hmiss, askWords, List.map_singleton, dedup_const (List.cons_ne_nil _ _) fun _ => List.mem_singleton.1, List.foldl_cons, List.foldl_nil, hframe, askFrame, List.any_cons, h.misses,
    Bool.true_or, if_pos rfl, List.foldl_cons, List.foldl_nil, List.foldl_cons, List.foldl_nil, Nat.min_self, Nat.max_self, askRun, h.brings,
    if_neg Bool.false_ne_true, h.repl]

end

/-- Settles O21: each piece is served from the L1 as the wave sees its bytes (`readPiece_reads`), which the load's registers then hold
(`loaded_registers`); a word that the L1 lacks is asked for (`loadComplete_missed`). -/
theorem loadCompletes : Obligations.LoadCompletes := by
  unfold Obligations.LoadCompletes
  refine ⟨fun s o w tm size d how acc hop hkind hwave hteam hcan _ hnodup hlow hmarks hstamps hwords => ?_,
    fun s o w tm size d word how a hop hkind hwave hteam hcan hne hplaces hmarks hstamps hhint hrepl hdirect hheld hpend hbuffer hissues
      hfills => ?_⟩
  · have hacc : o.accesses = acc := by
      rw [Op.accesses, hkind]
      rfl
    have hserved : Served s o w tm size d how acc := ⟨hop, hkind, hwave, hteam, hacc ▸ hcan, hnodup, hmarks, hstamps, hwords⟩
    exact ⟨loadComplete_done hserved hlow, fun k p hp => loadComplete_piece hserved hp⟩
  · have hexec := loadComplete_missed ⟨hhint, hrepl, hdirect, hheld, hpend, hbuffer, hissues, hfills⟩ hop hkind hwave hteam hcan hne hplaces
      hmarks hstamps
    refine ⟨_, _, hexec, rfl, rfl, rfl, rfl, rfl, ?_, rfl, rfl, rfl, rfl⟩
    show min (16 - word % 16) (max how.lp (word % 16 + 1 - word % 16)) = _
    rw [Nat.add_sub_cancel_left]

end Sys2Proof.LoadsCompleted
